-- ==== Sys2Proof/Word.lean ====
section
/-! DEFINITION. The word types of the DXM-480 model: registers are 64 bits wide (R472), a line is the
128-byte unit of indivisibility (R16), a tile payload is 4,096 bytes (R165). Byte 0 of a line or payload is
its least significant byte (R5). -/

namespace Sys2Proof

/-- One byte of the store. -/
abbrev Byte := BitVec 8

/-- A control-space register or record word (R472). -/
abbrev Word := BitVec 64

/-- A 128-byte line (R16); byte `i` is bits `8*i+7 .. 8*i`. -/
abbrev Line := BitVec 1024

/-- A 4,096-byte tile payload (R165); element packing is that of R197, from bit 0 upwards. -/
abbrev Payload := BitVec 32768

end Sys2Proof
end

