-- ==== Sys2Proof/Syntax.lean ====
section
/-! DEFINITION. The commands of the block, one constructor of `Instr` per row of spec/opcode_table.json, with the
operands the spec gives each, and the plain data types of their operands. A choice that the spec leaves to the
world outside the block (what a medium returns, what a peer answers, what a sensor reads) is an operand. -/

namespace Sys2Proof

/-- Status codes of Table 05-6 (R105). -/
inductive Status where
  | ok | ny | poison | denied | noExtent | revoked | wrongForm | fenced | abandoned | deviceLost
  | checkFail | queueFull | fewer | malformed | internal | conflict | busy
  deriving DecidableEq, Repr

/-- Where a request enters the device: a host port's LD, an aperture slot, a fabric link, a station of a
context, an instance of a shared unit, the device's own reader and writer of host queues, or one of its other agents (R21,
R107). -/
inductive Ingress where
  | port (p : Fin 4) (ld : Fin 16)
  | aperture (win : Fin 64) (slot : BitVec 8)
  | link (n : Fin 24)
  | nmc (core : Fin 16) (ctx : Fin 8)
  | unitOf (u : Fin 16)
  | record
  | own
  deriving DecidableEq, Repr

/-- A request: the header of Table 05-1 and its payload (R90). `rsvd` says that a reserved bit is set. -/
structure Req where
  ing : Ingress := .own
  op : BitVec 6 := 0
  aop : BitVec 4 := 0
  width : BitVec 3 := 0
  post : Bool := false
  tag : BitVec 16 := 0
  src : BitVec 16 := 0
  iid : BitVec 16 := 0
  gsa : Word := 0
  inc : BitVec 32 := 0
  plen : BitVec 32 := 0
  arg : Word := 0
  rsvd : Bool := false
  /-- This access belongs to a request of many lines, a copy or a near-memory job, of this number at its source device (R29). -/
  multi : Option Nat := none
  /-- The CXL write that this request carries arrived with poison set (R389). -/
  poison : Bool := false
  payload : List Byte := []
  deriving DecidableEq, Repr

/-- An answer: the header of Table 05-3 and its data (R92). -/
structure Answer where
  st : Status := .ok
  load : BitVec 4 := 0
  share : BitVec 4 := 0
  hint : BitVec 10 := 0
  dst : BitVec 16 := 0
  iid : BitVec 16 := 0
  tag : BitVec 16 := 0
  data : List Byte := []
  /-- The status received is one of the reserved codes 0x11-0x1F (R105). -/
  rsvd : Bool := false
  deriving DecidableEq, Repr

/-- The source of a register access (R473): BAR0 of a window, a CONTROL request (VC 5 or not), MCTP, or JTAG
(TRL_ACCESS, which is class F, R490). -/
inductive Writer where
  | bar0 (win : Fin 64)
  | control (iid : BitVec 16) (vc5 : Bool)
  | mctp
  | jtag
  deriving DecidableEq, Repr

/-- Which side of a copy a line access belongs to (R101). -/
inductive CopySide where
  | src | dst
  deriving DecidableEq, Repr

/-- What a flash read returned (R59): data, data recovered by parity or reconstruction, or nothing; or the stripe members that
devices of the cell answered (R56, R414): member 0-9 and its 64 KiB as they stand on flash. -/
inductive MediaRead where
  | good | recovered | lost
  | fetched (parts : List (Nat × List Byte))
  deriving DecidableEq, Repr

/-- Extent states of Table 02-2 (R18). -/
inductive ExtState where
  | free | assigned | revoking | revoked | releasing
  deriving DecidableEq, Repr

inductive TierPolicy where
  | auto | pinHbm | flashOnly
  deriving DecidableEq, Repr

inductive Redundancy where
  | local | paired | striped
  deriving DecidableEq, Repr

inductive Form where
  | raw | coded
  deriving DecidableEq, Repr

inductive Durability where
  | cached | durable | paired
  deriving DecidableEq, Repr

/-- An initiator range, Table 02-3 (R18). -/
structure Range where
  valid : Bool := false
  rd : Bool := false
  wr : Bool := false
  atom : Bool := false
  own : Bool := false
  hi : BitVec 16 := 0
  lo : BitVec 16 := 0
  deriving DecidableEq, Repr

/-- An extent descriptor, Tables 02-2 and 02-3 (R18). -/
structure ExtDesc where
  state : ExtState := .free
  policy : TierPolicy := .auto
  redundancy : Redundancy := .local
  form : Form := .raw
  durability : Durability := .cached
  comp : BitVec 24 := 0
  keyHandle : BitVec 18 := 0
  formParams : BitVec 32 := 0
  inc : BitVec 32 := 0
  buddyValid : Bool := false
  buddy : BitVec 16 := 0
  ranges : List Range := []
  deriving DecidableEq, Repr

inductive Ownership where
  | none | owned | sharedWrite
  deriving DecidableEq, Repr

/-- A region table entry, Table 02-4 (R22); the default is the entry at assignment. -/
structure RegionEnt where
  head : Bool := true
  coherent : Bool := false
  ownership : Ownership := .none
  length : Nat := 1
  deriving DecidableEq, Repr

/-- An owner record, Table 07-2 (R151). -/
structure Owner where
  held : Bool := false
  openW : Bool := false
  stale : Bool := false
  prevValid : Bool := false
  ownerFdn : BitVec 16 := 0
  prevIid : BitVec 16 := 0
  ownerIid : BitVec 16 := 0
  token : BitVec 32 := 0
  version : BitVec 32 := 0
  pubTime : Nat := 0
  inflight : Nat := 0
  deriving DecidableEq, Repr

inductive LedgerKind where
  | copy | transplant | foster
  deriving DecidableEq, Repr

inductive LedgerPhase where
  | offered | received | released | reclaimed
  deriving DecidableEq, Repr

/-- A handoff ledger entry, Table 18-8 (R415). -/
structure LedgerEnt where
  kind : LedgerKind := .copy
  phase : LedgerPhase := .offered
  seq : BitVec 32 := 0
  fromFdn : BitVec 16 := 0
  toFdn : BitVec 16 := 0
  object : Word := 0
  expiry : Nat := 0
  deriving DecidableEq, Repr

/-- Payloads of the journal record types of Table 04-3 (R66). -/
inductive JBody where
  | pad
  | data (l : Line)
  | coded (bytes : List Byte)
  | extent (d : ExtDesc)
  | region (es : List RegionEnt)
  | publish (o : Owner)
  | barrier (id : Nat) (digest : BitVec 32)
  | suspend (hdr : List Word)
  | groupCommit (first : Nat) (count : Nat)
  | handoff (e : LedgerEnt)
  | lossEpoch (epoch : BitVec 32) (all : Bool) (exts : List Nat)
  | mirrorRelease (home : BitVec 16) (upto : Nat)
  | void (jsn : Nat)
  | key (key : Nat)
  | other (code : BitVec 5)  -- a reserved type encoding
  deriving DecidableEq, Repr

/-- A journal record: the header of Table 04-2 and its payload (R65). -/
structure JRec where
  sectors : BitVec 4 := 0
  mirrored : Bool := false
  grp : Bool := false
  poison : Bool := false
  tentative : Bool := false
  jsn : Nat := 0
  gsa : Word := 0
  iid : BitVec 16 := 0
  inc : BitVec 32 := 0
  /-- CRC-32C of header and payload. -/
  crc : BitVec 32 := 0
  body : JBody := .pad
  deriving DecidableEq, Repr

/-- A coherence message from an agent to the home (R130): its stamped IID, its tag, the line's GSA, the
incarnation of word 2, arg, and the 128 data bytes of a message that carries data. -/
structure CohMsg where
  iid : BitVec 16 := 0
  tag : BitVec 16 := 0
  gsa : Word := 0
  inc : BitVec 32 := 0
  arg : Word := 0
  data : Line := 0
  /-- The data carry poison (R389). -/
  poison : Bool := false
  deriving DecidableEq, Repr

/-- What a step of writing a completion record is (R175, R176): the pair's first waiting record goes into its CQ or to its originating
device; the record of a forwarded job arrives from the device that executed it; the originating device has written one. -/
inductive CqEvent where
  | write
  | arrived (src : BitVec 16) (words : List Word)
  | taken (src : BitVec 16) (tag : BitVec 16)
  deriving DecidableEq, Repr

/-- A step of writing a completion record of a pair. -/
structure CqStep where
  pair : Fin 256 := 0
  ev : CqEvent := .write
  deriving DecidableEq, Repr

/-- Why a job is restarted (Table 08-11, causes 0x01 to 0x03). -/
inductive JobFault where
  | uncorrectable | abandoned | deviceLost | graft
  deriving DecidableEq, Repr

/-- MetaField and MetaValue of a CXL.mem access (Table 06-5, R340): No-Op, I, S or A. -/
inductive CxlMeta where
  | noOp | i | s | a
  deriving DecidableEq, Repr

/-- The state a host's BIRsp reports (Table 06-5). -/
inductive BiRspKind where
  | i | s | e
  deriving DecidableEq, Repr

/-- The settings of an HDM decoder at its commit (R339); `ways` is the number of ways, `gran` the log2 of the
granularity in bytes. -/
structure HdmSet where
  base : Word := 0
  size : Word := 0
  skip : Word := 0
  ways : Nat := 1
  gran : Nat := 8
  deriving DecidableEq, Repr

/-- What a host-port link trained to (R334, Table 22-10). -/
structure HostTrain where
  rate : BitVec 3 := 0
  cxl : Bool := false
  width : BitVec 5 := 0
  reversed : Bool := false
  inverted : BitVec 16 := 0
  deriving DecidableEq, Repr

/-- What a fabric link's training found (R353, Table 22-11): working lanes, inverted lanes, and the logical order of
the physical lanes. -/
structure FabTrain where
  working : BitVec 5 := 0
  inverted : BitVec 5 := 0
  order : List (Fin 5) := []
  deriving DecidableEq, Repr

/-- The IDENT body, Table 16-3 (R356). -/
structure Ident where
  fleet : BitVec 32 := 0
  fdn : BitVec 16 := 0
  rack : BitVec 11 := 0
  link : BitVec 5 := 0
  slot : BitVec 4 := 0
  fec : BitVec 3 := 0
  lanes : BitVec 5 := 0
  epoch : Nat := 0
  deriving DecidableEq, Repr

/-- A receiver's 10 ms measurement (R360): flits, flits that failed CRC after correction, bits, pre-FEC bit
errors. -/
structure FecMeasure where
  flits : Nat := 0
  failed : Nat := 0
  bits : Nat := 0
  bitErrors : Nat := 0
  deriving DecidableEq, Repr

/-- How a flit reached a receiver (R359): under LL as sixteen blocks of 136 bits, bit `p - 1` of a block standing at position `p`, block
`i` carrying bytes 16i to 16i + 15 of the flit; under RS and RS_LL as what was sent, the symbols of its worst codeword that arrived in error
(after LL, in RS_LL), and the bits as received. -/
inductive FlitIn where
  | ll (blocks : List (BitVec 136))
  | rs (sent : BitVec 2048) (symbols : Nat) (received : BitVec 2048)
  deriving DecidableEq, Repr

/-- How the flit of a host access reached its port (R348): bits that the FEC corrected, replays before it arrived, and an error that could
not be corrected. -/
structure HostFlit where
  corrected : Nat := 0
  replays : Nat := 0
  bad : Bool := false
  deriving DecidableEq, Repr

/-- A host's request and the flit that brought it (R26, R348). -/
structure HostMsg where
  r : Req := {}
  flit : HostFlit := {}
  deriving DecidableEq, Repr

/-- A copy to register with its counter's home, or one to withdraw there (R100, R101). -/
structure CopyReg where
  copyId : Nat := 0
  withdraw : Bool := false
  deriving DecidableEq, Repr

/-- An error of an HBM line (R59): uncorrectable, or corrected by the check bits. -/
structure HbmErr where
  line : Nat := 0
  corrected : Bool := false
  deriving DecidableEq, Repr

/-- A message on the fabric: the fields of its prefix (Table 16-7), its path-key words and its bytes. `arrived` is the
link it came in on, none at its origin. -/
structure FabMsg where
  vc : Fin 8 := 0
  bclass : BitVec 2 := 0
  hops : BitVec 3 := 0
  dst : BitVec 16 := 0
  src : BitVec 16 := 0
  iid : BitVec 16 := 0
  arrived : Option (Fin 24) := none
  body : List Byte := []
  deriving DecidableEq, Repr

/-- One application a CMIS module advertises (R379): its host interface is 212.5 Gbit/s-per-lane chip-to-module, and
it can be applied as one-lane instances on host lanes 1-5. -/
structure CmisApp where
  code : Nat := 0
  c2m200 : Bool := false
  oneLane : Bool := false
  deriving DecidableEq, Repr

/-- Module flags the device reads (R379): media loss of signal and loss of lock per lane, and the alarm byte. -/
structure CmisFlags where
  los : BitVec 5 := 0
  lol : BitVec 5 := 0
  alarm : BitVec 8 := 0
  deriving DecidableEq, Repr

/-- An event record, Table 17-5 (R387). -/
structure EventRec where
  etype : BitVec 8 := 0
  status : BitVec 5 := 0
  severity : BitVec 2 := 0
  overflow : Bool := false
  iid : BitVec 16 := 0
  detail : BitVec 32 := 0
  object : Word := 0
  tag : BitVec 16 := 0
  fdn : BitVec 16 := 0
  seq : BitVec 32 := 0
  time : Nat := 0
  deriving DecidableEq, Repr

/-- The prefix source and the header of a fleet message (Table 18-2, R401), and the link it arrived on. -/
structure FleetHdr where
  src : BitVec 16 := 0
  drill : Bool := false
  subject : BitVec 16 := 0
  mseq : BitVec 32 := 0
  epoch : Nat := 0
  arrived : Option (Fin 24) := none
  deriving DecidableEq, Repr

/-- A fleet message's header without its source (R401). -/
structure FleetMark where
  drill : Bool := false
  subject : BitVec 16 := 0
  mseq : BitVec 32 := 0
  epoch : Nat := 0
  arrived : Option (Fin 24) := none
  deriving DecidableEq, Repr

/-- The header of a message from `src`. -/
def FleetMark.hdr (m : FleetMark) (src : BitVec 16) : FleetHdr :=
  { src := src, drill := m.drill, subject := m.subject, mseq := m.mseq, epoch := m.epoch, arrived := m.arrived }

/-- What a vote carries beside its voter and its subject (Table 18-2). -/
structure VoteMark where
  drill : Bool := false
  epoch : Nat := 0
  deriving DecidableEq, Repr

/-- The body of PULSE (Table 18-3). -/
structure PulseBody where
  susp : Bool := false
  num : BitVec 32 := 0
  deriving DecidableEq, Repr

/-- An event about this device's request that another device reports (R388). -/
structure FleetEvent where
  h : FleetHdr := {}
  e : EventRec := {}
  deriving DecidableEq, Repr

/-- The control state a stand-in sends to an adopting spare, or a device to its new control mirror (R409, R413). -/
structure CtlState where
  subject : BitVec 16 := 0
  exts : List (Nat × ExtDesc) := []
  regions : List (Nat × RegionEnt) := []
  owners : List (Nat × Owner) := []
  comps : List (Nat × Nat) := []
  keys : List (Nat × Nat) := []
  resume : List (Word × List Word) := []
  handoffs : List LedgerEnt := []
  lossEpoch : BitVec 32 := 0
  marks : List (Nat × BitVec 32) := []
  /-- Members of the home's rack cell, by slot (R355). -/
  cell : List (Nat × BitVec 16) := []
  deriving DecidableEq, Repr

/-- A reference clock of Table 21-4 (R465). -/
inductive RefClk where
  | host (p : Fin 4)
  | fabric (die : Fin 2)
  | timeBase
  deriving DecidableEq, Repr

/-- A host queue (R479): a submission, completion, fault or event queue. -/
inductive QueueId where
  | sq (n : Fin 256) | cq (n : Fin 256) | fq (n : Fin 16) | evq (w : Fin 64)
  deriving DecidableEq, Repr

/-- A device-side requester that retries an NY after its hint (R101, R98, R318, R171). -/
inductive Requester where
  | copyLine (copyId : Nat) (line : Nat) (side : CopySide)
  | station (core : Fin 16) (ctx : Fin 8) (gsa : Word)
  | unit (u : Fin 16) (gsa : Word)
  deriving DecidableEq, Repr

/-- What a control mirror receives (R409): one mirrored record, or a whole resent control state. -/
inductive CtlRec where
  | record (r : JRec)
  | whole (c : CtlState)
  deriving DecidableEq, Repr

/-- What a confirmation confirms (R33, R409): a mirrored record, a destroyed key, or a resent control state. -/
inductive CtlConfirm where
  | record (jsn : Nat)
  | keyGone (ext : BitVec 18)
  | whole
  deriving DecidableEq, Repr

/-- One finding at the balls, Table 21-5 (R468). -/
structure PinFinding where
  finding : BitVec 8 := 0
  group : BitVec 16 := 0
  ball : BitVec 16 := 0
  deriving DecidableEq, Repr

/-- What a completed bring-up step found (R426, R428, Table 19-3): one constructor per step of Table 19-2. -/
inductive BringUp where
  | fuses (copyAOk copyBOk : Bool)
  | pads (findings : List PinFinding)
  | rails (railsOk : Bool) (avsOk : Bool) (boardCoreMv : Nat) (slack : List Nat) (clocksLost : List RefClk)
  | image (norReadable : Bool)
  | hbm (trained : Bool) (kept : Bool)
  | inventory (dies : Nat) (dieGiB : Nat) (badChannels : List (BitVec 16)) (badSegments : List (Nat × List Nat))
  | directory
  | links
  | joined
  | open_
  deriving DecidableEq, Repr

/-- What the voltage policy measures (R447): power of all rails in watts as measured, the least voltage step at which every
canary slack meets the floor, and whether every canary slack exceeds FLT_CANARY_MIN by 4 %. -/
structure PowerMeasure where
  watts : Nat := 0
  floorStep : Nat := 0
  slackOk : Bool := true
  deriving DecidableEq, Repr

/-- The state that an OFFER hands over (R415): the COPY request as received, or the lines and owner records (by their granule
within the extent) of the extents concerned. -/
structure HandState where
  copy : Option Req := none
  lines : List (Nat × Line × Bool) := []
  owners : List (Nat × Owner) := []
  /-- TRANSPLANT: handle, shard, and the shard's new base and window base (R287). -/
  shard : Option (Nat × Nat × Word × Word) := none
  deriving DecidableEq, Repr

/-- The commands (spec/opcode_table.json), in the table's order. -/
inductive Instr where
  /-- HOST_ACCESS (R26). -/
  | hostAccess (win : Fin 64) (w : BitVec 42) (a : HostMsg)
  /-- ASSIGN (R30). -/
  | assign (wr : Writer) (ext : BitVec 18)
  /-- MODIFY (R31). -/
  | modify (wr : Writer) (ext : BitVec 18)
  /-- REGION (R23). -/
  | region (wr : Writer) (ext : BitVec 18) (first : BitVec 9) (count : BitVec 10)
  /-- REVOKE (R34). -/
  | revoke (wr : Writer) (ext : BitVec 18)
  /-- REVOKE_DRAIN_COMPLETE (R34). -/
  | revokeDrainComplete
  /-- REVOKE_DRAIN_BOUND (R34). -/
  | revokeDrainBound
  /-- RESTORE (R30). -/
  | restore (wr : Writer) (ext : BitVec 18)
  /-- EXTENT_RELEASE (R33). -/
  | extentRelease (wr : Writer) (ext : BitVec 18)
  /-- FLASH_TRIM (R33). -/
  | flashTrim (mu : Nat)
  /-- LOAD (R94). -/
  | load (r : Req)
  /-- STORE (R94). -/
  | store (r : Req)
  /-- STORE_PART (R94). -/
  | storePart (r : Req)
  /-- CODED_WRITE (R248). -/
  | codedWrite (r : Req)
  /-- ATOMIC (R95). -/
  | atomic (r : Req)
  /-- COPY (R100). -/
  | copy (r : Req)
  /-- COPY_REGISTER (R100). -/
  | copyRegister (owner : BitVec 16) (r : Req) (g : CopyReg)
  /-- COPY_LINE_ANSWER (R101). -/
  | copyLineAnswer (copyId : Nat) (line : Nat) (side : CopySide) (st : Status) (hint : BitVec 10) (data : List Byte)
  /-- COPY_NY_BOUND (R101). -/
  | copyNyBound (copyId : Nat) (line : Nat) (side : CopySide)
  /-- COUNTER_ADVANCE (R98). -/
  | counterAdvance (iid : BitVec 16) (gsa : Word) (amount : Word) (err : Bool)
  /-- COUNTER_ADVANCE_RETRY (R98). -/
  | counterAdvanceRetry (id : Nat)
  /-- WAIT (R103). -/
  | wait (r : Req)
  /-- BARRIER (R88). -/
  | barrier (r : Req)
  /-- BARRIER_COMPLETE (R88). -/
  | barrierComplete (id : Nat)
  /-- ACQUIRE (R155). -/
  | acquire (r : Req)
  /-- RELEASE (R156). -/
  | release (r : Req)
  /-- PUBLISH (R158). -/
  | publish (r : Req)
  /-- READ_VERSION (R160). -/
  | readVersion (r : Req)
  /-- OWNERSHIP_COMMIT (R154). -/
  | ownershipCommit (base : Nat)
  /-- CONTROL (R474). -/
  | control (r : Req) (vc5 : Bool)
  /-- RESPONSE_DEADLINE (R109). -/
  | responseDeadline (n : Nat)
  /-- ANSWER_ARRIVAL (R118). -/
  | answerArrival (a : Answer)
  /-- TRACKER_TIMEOUT (R118). -/
  | trackerTimeout (iid : BitVec 16) (tag : BitVec 16)
  /-- BUCKET_PAY (R116). -/
  | bucketPay (b : Fin 256)
  /-- BUCKET_ADAPT (R117). -/
  | bucketAdapt (uses : List (Nat × Nat))
  /-- FILL_COMPLETE (R42). -/
  | fillComplete (frame : Nat) (res : MediaRead)
  /-- MERGE_FILL_COMPLETE (R42). -/
  | mergeFillComplete (frame : Nat) (res : MediaRead)
  /-- WRITEBACK_COMPLETE (R43). -/
  | writebackComplete (mu : Nat) (res : MediaRead)
  /-- BACKGROUND_CLEANING (R47). -/
  | backgroundCleaning (set : Nat)
  /-- GARBAGE_COLLECTION (R47). -/
  | garbageCollection (die : BitVec 10)
  /-- WEAR_LEVELLING (R54). -/
  | wearLevelling (die : BitVec 10)
  /-- TIER_DECAY (R50). -/
  | tierDecay
  /-- PIN_HBM_PREFETCH (R49). -/
  | pinHbmPrefetch (frame : Nat)
  /-- STRIPE_MEMBER_RECEIVE (R55). -/
  | stripeMemberReceive (home : BitVec 16) (stripe : BitVec 42) (member : Fin 10) (mu : BitVec 32) (data : List Byte)
  /-- HBM_UNCORRECTABLE (R59), or an error that the check bits of the HBM correct. -/
  | hbmUncorrectable (e : HbmErr)
  /-- SEGMENT_PROGRAM_START (R69). -/
  | segmentProgramStart (seg : Nat)
  /-- SEGMENT_PROGRAM_COMPLETE (R69). -/
  | segmentProgramComplete (seg : Nat)
  /-- COMPOST_PASS (R72). -/
  | compostPass
  /-- MIRROR_RECEIVE (R74). -/
  | mirrorReceive (home : BitVec 16) (j : JRec)
  /-- MIRROR_CONFIRM (R74). -/
  | mirrorConfirm (buddy : BitVec 16) (jsn : Nat) (st : Status)
  /-- PAIR_LATE (R75). -/
  | pairLate (jsn : Nat)
  /-- MIRROR_RESEND (R75). -/
  | mirrorResend (jsn : Nat)
  /-- MIRROR_RELEASE_SEND (R76). -/
  | mirrorReleaseSend (buddy : BitVec 16)
  /-- MIRROR_RELEASE (R76). -/
  | mirrorRelease (home : BitVec 16) (jsn : Nat)
  /-- BUDDY_COPY_RECEIVE (R77). -/
  | buddyCopyReceive (home : BitVec 16) (mu : BitVec 32) (data : List Byte)
  /-- BUDDY_COPY_TIMEOUT (R77). -/
  | buddyCopyTimeout (mu : Nat)
  /-- KEY_RECORD_RECEIVE (R77). -/
  | keyRecordReceive (home : BitVec 16) (ext : BitVec 18) (key : Nat)
  /-- PWRFAIL_FALL (R78). -/
  | pwrfailFall
  /-- PWRFAIL_CONFIRM (R78). -/
  | pwrfailConfirm
  /-- FLUSH_COMPLETE (R78). -/
  | flushComplete
  /-- GROUP_PROGRAM_COMPLETE (R81). -/
  | groupProgramComplete
  /-- TENTATIVE_VOID (R81). -/
  | tentativeVoid (jsn : Nat)
  /-- MIRROR_FETCH (R497). -/
  | mirrorFetch (home : BitVec 16) (lo : Nat) (hi : Nat)
  /-- MIRROR_FETCH_END (R497). -/
  | mirrorFetchEnd (buddy : BitVec 16) (recs : List JRec)
  /-- MIRROR_FETCH_TIMEOUT (R497). -/
  | mirrorFetchTimeout (buddy : BitVec 16)
  /-- JRN_LOSS_QUERY (R86). -/
  | jrnLossQuery (wr : Writer) (v : Word)
  /-- RD_S (R133). -/
  | rdS (m : CohMsg)
  /-- RD_E (R133). -/
  | rdE (m : CohMsg)
  /-- UPG (R133). -/
  | upg (m : CohMsg)
  /-- WB_D (R133). -/
  | wbD (m : CohMsg)
  /-- EVICT_C (R133). -/
  | evictC (m : CohMsg)
  /-- RSP_I (R133). -/
  | rspI (m : CohMsg)
  /-- RSP_S (R133). -/
  | rspS (m : CohMsg)
  /-- RSP_E (R133). -/
  | rspE (m : CohMsg)
  /-- RSP_I_D (R133). -/
  | rspID (m : CohMsg)
  /-- RSP_S_D (R133). -/
  | rspSD (m : CohMsg)
  /-- RSP_E_D (R133). -/
  | rspED (m : CohMsg)
  /-- FENCE_ACK (R146). -/
  | fenceAck (m : CohMsg)
  /-- RESET_ACK (R148). -/
  | resetAck (m : CohMsg)
  /-- SNP_INV (R342). -/
  | snpInv (win : Fin 64) (line : BitVec 57) (tag : BitVec 16)
  /-- SNP_DATA (R342). -/
  | snpData (win : Fin 64) (line : BitVec 57) (tag : BitVec 16)
  /-- SNP_CUR (R342). -/
  | snpCur (win : Fin 64) (line : BitVec 57) (tag : BitVec 16)
  /-- GNT_S (R342). -/
  | gntS (win : Fin 64) (line : BitVec 57) (tag : BitVec 16) (data : Line)
  /-- GNT_E (R342). -/
  | gntE (win : Fin 64) (line : BitVec 57) (tag : BitVec 16) (data : Line)
  /-- GNT_E_ND (R342). -/
  | gntEND (win : Fin 64) (line : BitVec 57) (tag : BitVec 16)
  /-- CMP_WB (R342). -/
  | cmpWb (win : Fin 64) (line : BitVec 57) (tag : BitVec 16) (st : Status)
  /-- NACK (R343). -/
  | nack (win : Fin 64) (line : BitVec 57) (tag : BitVec 16) (st : Status) (hint : BitVec 10)
  /-- STAKE_WINDOW_CLOSE (R135). -/
  | stakeWindowClose (line : Nat)
  /-- RESERVATION_EXPIRE (R136). -/
  | reservationExpire (line : Nat)
  /-- SNOOP_TIMEOUT (R139). -/
  | snoopTimeout (line : Nat) (slot : Fin 64)
  /-- LOST_AGENT_SWEEP_END (R141). -/
  | lostAgentSweepEnd (slot : Fin 64)
  /-- MODE_FENCE_TIMEOUT (R146). -/
  | modeFenceTimeout
  /-- PLACEHOLDER_EXPIRE (R142). -/
  | placeholderExpire (line : Nat) (slot : Fin 64)
  /-- RESUME_WINDOW_END (R147). -/
  | resumeWindowEnd
  /-- REBUILD_TIMEOUT (R148). -/
  | rebuildTimeout
  /-- DIR_ENTRY_REPAIR (R149). -/
  | dirEntryRepair (line : Nat)
  /-- NMC_SQ_DB (R173). -/
  | nmcSqDb (wr : Writer) (pair : Fin 256) (v : Word)
  /-- JOB_DISPATCH (R173). -/
  | jobDispatch (pair : Fin 256)
  /-- RUN (R174). -/
  | run (core : Fin 16) (ctx : Fin 8)
  /-- RESUME (R188). -/
  | resume (core : Fin 16) (ctx : Fin 8)
  /-- SUSPEND (R185). -/
  | suspend (pair : Fin 256)
  /-- SUSPEND_BODY_WRITTEN (R185). -/
  | suspendBodyWritten (core : Fin 16) (ctx : Fin 8)
  /-- CANCEL (R183). -/
  | cancel (pair : Fin 256)
  /-- JOB_FORWARD (R175). -/
  | jobForward (origin : BitVec 16) (pair : BitVec 8) (iid : BitVec 16) (desc : List Word)
  /-- CONTEXT_SWITCH (R177). -/
  | contextSwitch (core : Fin 16) (ctx : Fin 8)
  /-- TILE_VISIBLE (R168). -/
  | tileVisible (core : Fin 16) (ctx : Fin 8) (slot : BitVec 11)
  /-- TILE_CONSUMED (R230). -/
  | tileConsumed (core : Fin 16) (ctx : Fin 8) (stream : Fin 64)
  /-- JOB_RESTART (R182). -/
  | jobRestart (core : Fin 16) (ctx : Fin 8) (cause : JobFault)
  /-- JOB_NO_PROGRESS (R182). -/
  | jobNoProgress (core : Fin 16) (ctx : Fin 8)
  /-- JOB_TIME_LIMIT (R182). -/
  | jobTimeLimit (core : Fin 16) (ctx : Fin 8)
  /-- JOB_COMMIT_COMPLETE (R181). -/
  | jobCommitComplete (core : Fin 16) (ctx : Fin 8)
  /-- CQ_RECORD_WRITE (R176). -/
  | cqRecordWrite (x : CqStep)
  /-- NMC_RS_INSTALL (R191). Of a source on another device, `data` is what its reads answered, the CRC-32C list at the end; none
  where the sender does not show it. -/
  | nmcRsInstall (wr : Writer) (version : BitVec 32) (data : Option (List Byte))
  /-- NMC_RS_RETIRE (R191). -/
  | nmcRsRetire (wr : Writer) (version : BitVec 32)
  /-- RS_RETIRE_BOUND (R191). -/
  | rsRetireBound
  /-- GRAFT (R192). -/
  | graft (wr : Writer) (core : Fin 16)
  /-- DIBBER_INSTRUCTION (R214). -/
  | dibberInstruction (core : Fin 16) (ctx : Fin 8) (rt : Option (BitVec 32))
  /-- NMC_CMD_PUSH (R219). -/
  | nmcCmdPush (core : Fin 16) (ctx : Fin 8) (rd : Fin 32) (v : Word)
  /-- NMC_COMMIT (R181). -/
  | nmcCommit (core : Fin 16) (ctx : Fin 8) (rd : Fin 32) (v : Word)
  /-- NMC_FEWER (R219). -/
  | nmcFewer (core : Fin 16) (ctx : Fin 8) (rd : Fin 32) (v : Word)
  /-- NMC_ARITH_STATUS (R220). -/
  | nmcArithStatus (core : Fin 16) (ctx : Fin 8) (rd : Fin 32) (v : Word)
  /-- NMC_TILE_TAKE (R219). -/
  | nmcTileTake (core : Fin 16) (ctx : Fin 8) (rd : Fin 32) (v : Word)
  /-- NMC_TILE_FREE (R219). -/
  | nmcTileFree (core : Fin 16) (ctx : Fin 8) (rd : Fin 32) (v : Word)
  /-- NMC_TILE_ALLOC (R219). -/
  | nmcTileAlloc (core : Fin 16) (ctx : Fin 8) (rd : Fin 32) (v : Word)
  /-- NMC_TILE_EMIT (R219). -/
  | nmcTileEmit (core : Fin 16) (ctx : Fin 8) (rd : Fin 32) (v : Word)
  /-- READ (R322). -/
  | read (core : Fin 16) (ctx : Fin 8)
  /-- READ_ROWS (R322). -/
  | readRows (core : Fin 16) (ctx : Fin 8)
  /-- STAGE (R179). -/
  | stage (core : Fin 16) (ctx : Fin 8)
  /-- ZERO (R205). -/
  | zero (core : Fin 16) (ctx : Fin 8)
  /-- MMA (R202). -/
  | mma (core : Fin 16) (ctx : Fin 8)
  /-- EMIT (R205). -/
  | emit (core : Fin 16) (ctx : Fin 8)
  /-- TILLER_LOAD (R205). -/
  | tillerLoad (core : Fin 16) (ctx : Fin 8)
  /-- DTAB (R261). -/
  | dtab (core : Fin 16) (ctx : Fin 8)
  /-- LUTMV (R261). -/
  | lutmv (core : Fin 16) (ctx : Fin 8)
  /-- ADD (R209). -/
  | add (core : Fin 16) (ctx : Fin 8)
  /-- SUB (R209). -/
  | sub (core : Fin 16) (ctx : Fin 8)
  /-- MUL (R209). -/
  | mul (core : Fin 16) (ctx : Fin 8)
  /-- FMA (R209). -/
  | fma (core : Fin 16) (ctx : Fin 8)
  /-- MIN (R209). -/
  | min (core : Fin 16) (ctx : Fin 8)
  /-- MAX (R209). -/
  | max (core : Fin 16) (ctx : Fin 8)
  /-- ABS (R209). -/
  | abs (core : Fin 16) (ctx : Fin 8)
  /-- NEG (R209). -/
  | neg (core : Fin 16) (ctx : Fin 8)
  /-- CMP (R209). -/
  | cmp (core : Fin 16) (ctx : Fin 8)
  /-- SEL (R209). -/
  | sel (core : Fin 16) (ctx : Fin 8)
  /-- EXP (R210). -/
  | exp (core : Fin 16) (ctx : Fin 8)
  /-- EXP2 (R210). -/
  | exp2 (core : Fin 16) (ctx : Fin 8)
  /-- LOG (R210). -/
  | log (core : Fin 16) (ctx : Fin 8)
  /-- LOG2 (R210). -/
  | log2 (core : Fin 16) (ctx : Fin 8)
  /-- RSQRT (R210). -/
  | rsqrt (core : Fin 16) (ctx : Fin 8)
  /-- RECIP (R210). -/
  | recip (core : Fin 16) (ctx : Fin 8)
  /-- SQRT (R210). -/
  | sqrt (core : Fin 16) (ctx : Fin 8)
  /-- DIV (R210). -/
  | div (core : Fin 16) (ctx : Fin 8)
  /-- TANH (R210). -/
  | tanh (core : Fin 16) (ctx : Fin 8)
  /-- ROW_SUM (R211). -/
  | rowSum (core : Fin 16) (ctx : Fin 8)
  /-- ROW_MAX (R209). -/
  | rowMax (core : Fin 16) (ctx : Fin 8)
  /-- SOFTMAX (R212). -/
  | softmax (core : Fin 16) (ctx : Fin 8)
  /-- TOPK (R213). -/
  | topk (core : Fin 16) (ctx : Fin 8)
  /-- CVT (R199). -/
  | cvt (core : Fin 16) (ctx : Fin 8)
  /-- IADD (R209). -/
  | iadd (core : Fin 16) (ctx : Fin 8)
  /-- ISUB (R209). -/
  | isub (core : Fin 16) (ctx : Fin 8)
  /-- IMUL (R209). -/
  | imul (core : Fin 16) (ctx : Fin 8)
  /-- LOGIC (R209). -/
  | logic (core : Fin 16) (ctx : Fin 8)
  /-- SHIFT (R209). -/
  | shift (core : Fin 16) (ctx : Fin 8)
  /-- ISAT (R209). -/
  | isat (core : Fin 16) (ctx : Fin 8)
  /-- LOADCB (R257). -/
  | loadcb (core : Fin 16) (ctx : Fin 8)
  /-- DECODE (R258). -/
  | decode (core : Fin 16) (ctx : Fin 8)
  /-- ENCODE (R259). -/
  | encode (core : Fin 16) (ctx : Fin 8)
  /-- LOOKUP (R258). -/
  | lookup (core : Fin 16) (ctx : Fin 8)
  /-- LUTACC (R260). -/
  | lutacc (core : Fin 16) (ctx : Fin 8)
  /-- ADC (R258). -/
  | adc (core : Fin 16) (ctx : Fin 8)
  /-- FILTER (R258). -/
  | filter (core : Fin 16) (ctx : Fin 8)
  /-- PORT_GLEAN (R169). -/
  | portGlean (core : Fin 16) (ctx : Fin 8)
  /-- PORT_SOW (R169). -/
  | portSow (core : Fin 16) (ctx : Fin 8)
  /-- PORT_PRUNE (R169). -/
  | portPrune (core : Fin 16) (ctx : Fin 8)
  /-- GATHER (R270). -/
  | gather (inst : Fin 4)
  /-- BAG (R270). -/
  | bag (inst : Fin 4)
  /-- SOW_ADD (R273). -/
  | sowAdd (inst : Fin 4)
  /-- HARVEST (R280). -/
  | harvest (inst : Fin 4)
  /-- TABLE_CREATE (R267). -/
  | tableCreate (wr : Writer) (handle : BitVec 12)
  /-- TABLE_REPLACE (R267). -/
  | tableReplace (wr : Writer) (handle : BitVec 12)
  /-- TABLE_DELETE (R267). -/
  | tableDelete (wr : Writer) (handle : BitVec 12)
  /-- GROUP_SET (R286). -/
  | groupSet (wr : Writer) (group : BitVec 32)
  /-- GROUP_CLEAR (R286). -/
  | groupClear (wr : Writer) (group : BitVec 32)
  /-- CUTTING_REQUEST (R284). -/
  | cuttingRequest (holder : BitVec 16) (handle : BitVec 12) (row : BitVec 40)
  /-- CUT_DROP (R285). -/
  | cutDrop (home : BitVec 16) (handle : BitVec 12) (row : BitVec 40)
  /-- CUTTING_LEASE_END (R284). -/
  | cuttingLeaseEnd (handle : BitVec 12) (row : BitVec 40) (hot : Bool)
  /-- SHARD_LOAD_INTERVAL (R286). -/
  | shardLoadInterval
  /-- INDEX_CREATE (R295). -/
  | indexCreate (wr : Writer) (handle : BitVec 10)
  /-- INDEX_DESTROY (R295). -/
  | indexDestroy (wr : Writer) (handle : BitVec 10)
  /-- PIN (R295). -/
  | pin (wr : Writer) (handle : BitVec 10)
  /-- UNPIN (R295). -/
  | unpin (wr : Writer) (handle : BitVec 10)
  /-- SEARCH (R304). -/
  | search (inst : Fin 4)
  /-- SCAN (R305). -/
  | scan (inst : Fin 4)
  /-- INSERT (R308). -/
  | insert (inst : Fin 4)
  /-- DELETE (R308). -/
  | delete (inst : Fin 4)
  /-- ENTRY (R308). -/
  | entry (inst : Fin 4)
  /-- INDEX_COMMIT_WAIT_BOUND (R299). -/
  | indexCommitWaitBound (core : Fin 16) (ctx : Fin 8)
  /-- INDEX_RESTAMP (R300). -/
  | indexRestamp (handle : BitVec 10) (item : BitVec 32)
  /-- BIND (R314). -/
  | bind (wr : Writer) (asid : BitVec 16)
  /-- UNBIND (R314). -/
  | unbind (wr : Writer) (asid : BitVec 16)
  /-- XLT_FAULT_RESP (R326). -/
  | xltFaultResp (wr : Writer) (v : Word)
  /-- FAULT_TIMEOUT (R327). -/
  | faultTimeout (id : BitVec 32)
  /-- INV_RANGE (R329). -/
  | invRange (wr : Writer)
  /-- INV_ASID (R329). -/
  | invAsid (wr : Writer)
  /-- INV_COMPLETE (R329). -/
  | invComplete (num : BitVec 16)
  /-- INV_DRAIN_BOUND (R329). -/
  | invDrainBound (num : BitVec 16)
  /-- HOST_READ_TIMEOUT (R323). -/
  | hostReadTimeout (port : Fin 4) (addr : BitVec 52)
  /-- RDCURR_ANSWER (R345). -/
  | rdcurrAnswer (port : Fin 4) (addr : BitVec 52) (poison : Bool) (data : BitVec 512)
  /-- HOT_PAGE_DECAY (R331). -/
  | hotPageDecay
  /-- MEMRD (R340). -/
  | memrd (win : Fin 64) (addr : Word) (mf : CxlMeta) (tag : BitVec 16)
  /-- MEMWR (R340). -/
  | memwr (win : Fin 64) (addr : Word) (mf : CxlMeta) (tag : BitVec 16) (poison : Bool) (data : BitVec 512)
  /-- MEMWRPTL (R340). -/
  | memwrptl (win : Fin 64) (addr : Word) (tag : BitVec 16) (poison : Bool) (be : BitVec 64) (data : BitVec 512)
  /-- MEMINV (R342). -/
  | meminv (win : Fin 64) (addr : Word) (tag : BitVec 16)
  /-- BIRSP (R342). -/
  | birsp (win : Fin 64) (line : BitVec 57) (half : Bool) (k : BiRspKind) (data : Option (BitVec 512))
  /-- H2D_SNOOP (R345). -/
  | h2dSnoop (port : Fin 4) (addr : BitVec 52)
  /-- APERTURE_GO (R336). -/
  | apertureGo (win : Fin 64) (slot : BitVec 8) (r : Req)
  /-- APERTURE_READ (R337). -/
  | apertureRead (win : Fin 64) (slot : BitVec 8) (off : BitVec 12)
  /-- HOLD_REISSUE (R346). -/
  | holdReissue (win : Fin 64) (tag : BitVec 16)
  /-- HOLD_MAX_EXPIRE (R346). -/
  | holdMaxExpire (win : Fin 64) (tag : BitVec 16)
  /-- HDM_DECODER_COMMIT (R339). -/
  | hdmDecoderCommit (win : Fin 64) (j : Fin 4) (d : HdmSet)
  /-- HOST_LINK_UP (R344). -/
  | hostLinkUp (port : Fin 4) (lnk : Fin 4) (st : HostTrain)
  /-- HOST_LINK_DOWN (R349). -/
  | hostLinkDown (port : Fin 4) (lnk : Fin 4)
  /-- FUNCTION_LEVEL_RESET (R350). -/
  | functionLevelReset (win : Fin 64)
  /-- RECALL_BOUND (R351). -/
  | recallBound
  /-- LINK_ENABLE (R353). -/
  | linkEnable (n : Fin 24)
  /-- LINK_TRAINED (R353). -/
  | linkTrained (n : Fin 24) (t : FabTrain)
  /-- IDENT (R357). -/
  | ident (n : Fin 24) (id : Ident) (lanesAgree : Bool)
  /-- LCRD (R364). -/
  | lcrd (n : Fin 24) (vc : Fin 8) (bclass : Fin 4) (shared : Bool) (credits : BitVec 32)
  /-- FLIT_RECEIVE (R365). -/
  | flitReceive (n : Fin 24) (f : FlitIn)
  /-- REPLAY (R366). -/
  | replay (n : Fin 24) (seq : BitVec 12)
  /-- REPLAY_TIMER (R366). -/
  | replayTimer (n : Fin 24)
  /-- MODE_CHG (R360). -/
  | modeChg (n : Fin 24) (echo : Bool) (mode : BitVec 3)
  /-- FEC_EVALUATE (R360). -/
  | fecEvaluate (n : Fin 24) (m : FecMeasure)
  /-- SPARE (R369). -/
  | spare (n : Fin 24) (done : Bool) (lane : Fin 5)
  /-- LANE_LOSS (R369). -/
  | laneLoss (n : Fin 24) (lane : Fin 5)
  /-- SPARE_COMPLETE (R369). -/
  | spareComplete (n : Fin 24)
  /-- TSYNC (R376). -/
  | tsync (n : Fin 24) (response : Bool) (t1 : Word) (t2 : Word) (t3 : Word)
  /-- TSYNC_SEND (R376). -/
  | tsyncSend
  /-- TSYNC_TIMEOUT (R377). -/
  | tsyncTimeout
  /-- PDOWN (R380). -/
  | pdown (n : Fin 24)
  /-- LINK_DOWN (R380). -/
  | linkDown (n : Fin 24)
  /-- LINK_RETRAIN (R381). -/
  | linkRetrain (n : Fin 24)
  /-- LINK_RESET (R380). -/
  | linkReset (wr : Writer) (n : Fin 24)
  /-- MESSAGE_ROUTE (R372). -/
  | messageRoute (m : FabMsg)
  /-- PATH_HOLD_EXPIRE (R374). -/
  | pathHoldExpire (vc : Fin 8) (key : BitVec 32)
  /-- MODULE_PRESENCE (R379). -/
  | modulePresence (n : Fin 24) (advertised : Nat)
  /-- MODULE_READY (R379). -/
  | moduleReady (n : Fin 24) (apps : List CmisApp)
  /-- MODULE_INTERRUPT (R379). -/
  | moduleInterrupt (n : Fin 24) (flags : CmisFlags)
  /-- OPTICS_POLL (R379). -/
  | opticsPoll (n : Fin 24) (flags : CmisFlags) (monitor : Option (BitVec 16))
  /-- CE_STORM_END (R385). -/
  | ceStormEnd
  /-- EVENT_RECORD_WRITE (R498). -/
  | eventRecordWrite (win : Fin 64)
  /-- EVENT (R388). -/
  | event (m : FleetEvent)
  /-- FATAL_ERROR (R393). -/
  | fatalError (block : BitVec 8) (inst : BitVec 8) (sliceOut : Option (Fin 32))
  /-- COMP_LIST (R394). -/
  | compList (h : FleetHdr) (comp : BitVec 24) (exposed : Nat)
  /-- COMP_CONTAIN (R396). -/
  | compContain (src : BitVec 16) (m : FleetMark) (comp : BitVec 24)
  /-- COMP_RELEASE (R397). -/
  | compRelease (src : BitVec 16) (m : FleetMark) (comp : BitVec 24)
  /-- CONTAINMENT_START (R396). -/
  | containmentStart (fdn : BitVec 16)
  /-- COMP_POLICY (R395). -/
  | compPolicy (wr : Writer) (comp : BitVec 24) (policy : BitVec 2)
  /-- COMP_RELEASE_CMD (R397). -/
  | compReleaseCmd (wr : Writer) (comp : BitVec 24)
  /-- WATCHDOG_EXPIRE (R399). -/
  | watchdogExpire
  /-- PULSE_SEND (R402). -/
  | pulseSend
  /-- PULSE (R402). -/
  | pulse (n : Fin 24) (h : FleetHdr) (p : PulseBody)
  /-- PULSE_SILENCE (R402). -/
  | pulseSilence (n : Fin 24)
  /-- SUSPECT (R404). -/
  | suspect (voter subject : BitVec 16) (m : VoteMark)
  /-- CLEAR (R404). -/
  | clear (voter subject : BitVec 16) (m : VoteMark)
  /-- SUSPECT_HOLD_END (R404). -/
  | suspectHoldEnd (subject : BitVec 16)
  /-- ISOLATION (R405). -/
  | isolation
  /-- FENCE (R407). -/
  | fence (h : FleetHdr) (reason : BitVec 8)
  /-- UNFENCE (R406). -/
  | unfence (h : FleetHdr)
  /-- JOIN (R403). -/
  | join (h : FleetHdr) (peers : List (BitVec 16)) (rejoin : Bool)
  /-- JOIN_ANS (R428). -/
  | joinAns (h : FleetHdr) (time : Word) (fenced : List (BitVec 16)) (cell : List (BitVec 16 × List (BitVec 16))) (spare : Bool)
  /-- JOIN_RETRY (R428). -/
  | joinRetry
  /-- ADOPT_REQ (R412). -/
  | adoptReq (h : FleetHdr)
  /-- ADOPT_ANS (R412). -/
  | adoptAns (h : FleetHdr) (st : Status)
  /-- CONTROL_STATE_RECEIVED (R413). -/
  | controlStateReceived (c : CtlState)
  /-- ADOPT (R413). -/
  | adopt (h : FleetHdr) (spareFdn : BitVec 16)
  /-- ADOPT_RETRY (R414). -/
  | adoptRetry (subject : BitVec 16)
  /-- RETURN_WAIT_EXPIRE (R413). -/
  | returnWaitExpire (subject : BitVec 16)
  /-- MEMBER_FIND (R414). -/
  | memberFind (h : FleetHdr) (mu : BitVec 48)
  /-- MEMBER_LOC (R414). -/
  | memberLoc (h : FleetHdr) (mu : BitVec 48) (stripe : BitVec 42) (member : Fin 10)
  /-- STRIPE_REBUILD (R414). -/
  | stripeRebuild (mu : Nat)
  /-- OFFER (R416). -/
  | offer (h : FleetHdr) (e : LedgerEnt) (c : HandState)
  /-- RECEIVED (R416). -/
  | received (h : FleetHdr) (e : LedgerEnt)
  /-- RECLAIM (R416). -/
  | reclaim (h : FleetHdr) (e : LedgerEnt)
  /-- HANDOFF_EXPIRY (R416). -/
  | handoffExpiry (seq : BitVec 32)
  /-- LEDGER_QUERY_DUE (R417). -/
  | ledgerQueryDue (offerer : BitVec 16) (seq : BitVec 32)
  /-- LEDGER_QUERY (R417). -/
  | ledgerQuery (h : FleetHdr) (e : LedgerEnt)
  /-- LEDGER_STATE (R417). -/
  | ledgerState (h : FleetHdr) (e : LedgerEnt)
  /-- DRILL_SCHEDULE (R420). -/
  | drillSchedule (wr : Writer)
  /-- DRILL (R420). -/
  | drill (h : FleetHdr) (w0 : Word) (w1 : Word)
  /-- DRILL_START (R420). -/
  | drillStart
  /-- DRILL_END (R421). -/
  | drillEnd (realFault : Bool)
  /-- MARGIN_SAMPLE (R422). -/
  | marginSample (m : Fin 4) (inst : BitVec 16) (value : BitVec 16) (low : Bool)
  /-- FLT_FENCE_CMD (R408). -/
  | fltFenceCmd (wr : Writer) (fdn : BitVec 16)
  /-- COLD_RESET (R423). -/
  | coldReset
  /-- RESET_N_FALL (R423). -/
  | resetNFall (held : Bool)
  /-- RESET_N_RISE (R425). -/
  | resetNRise
  /-- WARM_RESET_FABRIC (R423). -/
  | warmResetFabric (wr : Writer) (v : Word)
  /-- WARM_RESET_BEGIN (R425). -/
  | warmResetBegin (drained : Bool)
  /-- THERMAL_TRIP (R456). -/
  | thermalTrip (group : Fin 3)
  /-- BRING_UP_STEP (R426). -/
  | bringUpStep (f : BringUp)
  /-- SUPPLY_OUT_OF_LIMITS (R463). -/
  | supplyOutOfLimits (rail : Fin 8)
  /-- BLOCK_RESET (R431). -/
  | blockReset (wr : Writer) (code : BitVec 8) (inst : BitVec 8)
  /-- NOR_READ (R442). -/
  | norRead (wr : Writer)
  /-- NOR_PROGRAM (R442). -/
  | norProgram (wr : Writer)
  /-- NOR_ERASE (R442). -/
  | norErase (wr : Writer)
  /-- CFG_BOOT_CLEAR (R442). -/
  | cfgBootClear (wr : Writer)
  /-- CFG_SVN_COMMIT (R438). -/
  | cfgSvnCommit (wr : Writer)
  /-- CFG_KEY_REVOKE (R438). -/
  | cfgKeyRevoke (wr : Writer) (v : Word)
  /-- VOLTAGE_POLICY (R447). -/
  | voltagePolicy (m : PowerMeasure)
  /-- AVS_READBACK (R448). -/
  | avsReadback (r : Option Nat)
  /-- SENSOR_SAMPLE (R456). -/
  | sensorSample (core : Nat) (io : Nat) (hbm : Nat)
  /-- DORMANT_ENTRY (R452). -/
  | dormantEntry
  /-- FALLOW_ENTER (R453). -/
  | fallowEnter (wr : Writer)
  /-- FALLOW_LEAVE (R454). -/
  | fallowLeave (wr : Option Writer)
  /-- SMBUS_START (R469). -/
  | smbusStart (sdaFell : Bool) (sclFell : Bool)
  /-- MCTP_REQUEST (R473). -/
  | mctpRequest (write : Bool) (off : BitVec 25) (v : Word)
  /-- PWRFAIL_PROBE (R470). -/
  | pwrfailProbe (below : Bool)
  /-- DRIVER_OVERCURRENT (R471). -/
  | driverOvercurrent (group : BitVec 16) (ball : BitVec 16)
  /-- REFCLK_LOSS (R465). -/
  | refclkLoss (c : RefClk)
  /-- QUEUE_BASE_WRITE (R479). -/
  | queueBaseWrite (wr : Writer) (q : QueueId) (v : Word)
  /-- QUEUE_HEAD_WRITE (R480). -/
  | queueHeadWrite (wr : Writer) (q : QueueId) (v : Word)
  /-- MODE_FORCE_TABLED (R145). -/
  | modeForceTabled (wr : Writer)
  /-- MODE_FORCE_RETRY (R145). -/
  | modeForceRetry (wr : Writer)
  /-- TEL_SNAP (R492). -/
  | telSnap (wr : Writer) (v : Word)
  /-- REGISTER_WRITE (R7). -/
  | registerWrite (wr : Writer) (off : BitVec 25) (size : BitVec 4) (v : Word)
  /-- TRL_UNLOCK_CMD (R487). -/
  | trlUnlockCmd (wr : Writer) (v : Word)
  /-- UNLOCK_EXPIRE (R487). -/
  | unlockExpire
  /-- TRL_LOCK (R487). -/
  | trlLock (wr : Writer) (v : Word)
  /-- TRL_SEAL (R486). -/
  | trlSeal (wr : Writer) (v : Word)
  /-- TRL_SEL (R488). -/
  | trlSel (wr : Writer) (i : Fin 16) (v : Word)
  /-- INJECT_POISON (R489). -/
  | injectPoison (wr : Writer)
  /-- INJECT_SRAM_CE (R489). -/
  | injectSramCe (wr : Writer)
  /-- INJECT_TILE_STORE (R489). -/
  | injectTileStore (wr : Writer)
  /-- INJECT_SNOOP_WITHHOLD (R489). -/
  | injectSnoopWithhold (wr : Writer)
  /-- INJECT_FLASH_READ (R489). -/
  | injectFlashRead (wr : Writer)
  /-- TRL_ACCESS (R490). -/
  | trlAccess (write : Bool) (off : BitVec 25) (v : Word)
  /-- EXTEST (R490). -/
  | extest (balls : List (BitVec 16 × Bool))
  /-- PWRFAIL_RISE (R79). -/
  | pwrfailRise
  /-- PERST_N_CHANGE (R427). -/
  | perstNChange (port : Fin 4) (lnk : Fin 4) (released : Bool)
  /-- MODULE_REMOVAL (R380). -/
  | moduleRemoval (n : Fin 24)
  /-- MODULE_READY_TIMEOUT (R379). -/
  | moduleReadyTimeout (n : Fin 24)
  /-- REFCLK_RETURN (R465). -/
  | refclkReturn (c : RefClk)
  /-- QUIESCE_BOUND (R147). -/
  | quiesceBound
  /-- FORWARD_STALE (R374). -/
  | forwardStale (id : Nat)
  /-- NY_HINT_RETRY (R101). -/
  | nyHintRetry (who : Requester)
  /-- RC_READ (R7). -/
  | rcRead (win : Fin 64) (off : BitVec 25)
  /-- CONTROL_MIRROR_RECEIVE (R409). -/
  | controlMirrorReceive (home : BitVec 16) (c : CtlRec)
  /-- CONTROL_MIRROR_CONFIRM (R409). -/
  | controlMirrorConfirm (mirror : BitVec 16) (k : CtlConfirm)
  /-- KEY_DESTROY (R33). -/
  | keyDestroy (home : BitVec 16) (ext : BitVec 18)
  /-- CUT_DROP_CONFIRM (R285). -/
  | cutDropConfirm (holder : BitVec 16) (handle : BitVec 12) (row : BitVec 40)
  /-- SHARD_LOAD_TOTALS (R286). -/
  | shardLoadTotals (member : BitVec 16) (group : BitVec 32) (loads : List (BitVec 12 × BitVec 13 × Nat))
  /-- STRIPE_MEMBER_READ (R56). -/
  | stripeMemberRead (reader : BitVec 16) (home : BitVec 16) (stripe : BitVec 42) (member : Fin 10)
  /-- CODEBOOK_FILL_COMPLETE (R264). -/
  | codebookFillComplete (ext : BitVec 18)
  /-- FOSTER_INSTALL_DONE (R411). -/
  | fosterInstallDone (home : BitVec 16) (ext : BitVec 18)
  /-- NOR_COMMAND_COMPLETE (R442). -/
  | norCommandComplete
  /-- SNAPSHOT_COMPLETE (R492). -/
  | snapshotComplete
  deriving DecidableEq, Repr

end Sys2Proof
end

