-- ==== Sys2Proof/Config.lean ====
section
/-! DEFINITION. What an implementation fixes and the spec leaves open: free values with no body. A proof can learn
nothing about them, so a statement holds for every value. -/

namespace Sys2Proof.Config

/-- The n-th open 64-bit value the device draws: a random challenge (R487), log 2. -/
opaque freeWord : Nat → Word

/-- The answer to a write of a value other than 1 to NMC_COMMIT or NMC_FEWER, by CSR number and value, which R219 does not give; a
function of them alone, so that two runs of a job agree (R9, R222), log 2. -/
opaque csrAnswer : Nat → Word → Word

/-- Line `i` of the stream runtime of a version that is installed from another device, whose lines this device cannot show: one
image for each version, so that every device that holds the version holds the same bytes (R15, R191), log 2. -/
opaque runtimeLine : BitVec 32 → Nat → Line

/-- The n-th open retry-after hint: an estimate the home makes (R112), log 2. -/
opaque freeHint : Nat → BitVec 10

/-- Which of the results that R210 allows a function of Table 09-7 returns: EXP 0, EXP2 1, LOG 2, LOG2 3, RSQRT 4, TANH 5, for
the FP32 bits of its input; fixed per input (R9, R210, log 3). -/
opaque approx : Nat → BitVec 32 → Nat

/-- The n-th open line: what a tile or a register holds of a line whose contents are known to be wrong (R389, R390), log 2. -/
opaque freeLine : Nat → Line

/-- SHA-384 digest of public key slot 0-3 in the fuses of this part (R438), log 2. -/
opaque fuseDigest : Nat → BitVec 384

/-- The 512 bits of the n-th key that the device of an FDN generates: fresh keys are random (R57), log 2. -/
opaque keyBits : BitVec 16 → Nat → BitVec 512

/-- HOME_DIR_BASE: where the directory backing lies, which the spec does not give (R123), log 2. -/
opaque dirBase : Word

/-- Pages of an erase block, which the spec does not give (R46, R52), log 4. -/
opaque pagesPerBlock : Nat

/-- Bytes of the device's own encryption and of wrapped keys are never seen outside: a key is known by its number. The n-th
fresh key's number is drawn in order. -/
abbrev KeyNumber : Type := Nat

end Sys2Proof.Config
end

