-- ==== Sys2Proof/Machine/State.lean ====
section
/-! DEFINITION. The state of the DXM-480 as plain data: one sub-record per block of the device, the register file, the
record of what the device has presented at its boundaries, and the queue of waiting commands. A field's docstring names
the rule of spec/ that gives it. Times are instants of the time base in ns (R4). A table `List (Nat × α)` is sparse: keys
strictly rising, no entry equal to what an unlisted key reads as. -/

namespace Sys2Proof.Machine

open Sys2Proof

/-- Why a command stops. No command of this table is given an effect that ends in a fault by the spec: every error
it describes is an answer, a record or a state of its own. -/
inductive Fault where
  /-- Raised by no command at present: kept for an access to an address that the spec says does not exist. Safe: the
  model would stop where the hardware has no such cell. -/
  | noSuchCell
  deriving DecidableEq, Repr

/-- Why a command has no meaning here. -/
inductive Refusal where
  /-- Raised by an arm of `exec` whose command has no meaning yet. Safe: the model stops. -/
  | notModelled (mnemonic : String)
  deriving DecidableEq, Repr

/-! ### Reset, time, power and temperature (19, 20) -/

/-- Where the device stands between a reset and service (R423-R430). -/
inductive Phase where
  | bringUp      -- the steps of Table 19-2 run
  | service      -- step 10 complete
  | departing    -- a warm reset has begun (R425), before step 5 of R425
  | inReset      -- held in reset until RESET_N is high
  | powerFail    -- the sequence of Table 04-5 runs
  | flushed      -- the flush is done; the device holds itself in reset (Table 04-5)
  | heldFail     -- HELD (R430)
  deriving DecidableEq, Repr

/-- Reset kinds that run steps 1-10 (Table 19-1). -/
inductive ResetKind where
  | cold | thermal | pin | fabric | watchdog | fatal
  deriving DecidableEq, Repr

inductive PowerState where
  | active | dormant | fallow
  deriving DecidableEq, Repr

/-- The level at PWRFAIL_N (R470): high, low, or undriven. -/
inductive BallLevel where
  | high | low | undriven
  deriving DecidableEq, Repr

/-- The periods that run on the time base with no state of their own besides the instant they began (R4). -/
inductive Timer where
  | rebuild                -- the rebuild window of step 7 (R148)
  | watchdog               -- RAS_WDOG since the last heartbeat known (R399)
  | hotDecay               -- XLT_HOT_DECAY (R331)
  | loads                  -- GLN_LOAD_INT (R286)
  | buckets                -- the 100 us of R117
  | pulse (n : Nat)        -- the last pulse on link n (R402)
  | service                -- step 10 (R497)
  deriving DecidableEq, Repr

structure Sys where
  /-- 64-bit ns time base (R375): 0 at cold reset, never wraps in service. -/
  time : Nat := 0
  phase : Phase := .bringUp
  /-- Kind of the reset being left or last left (R423, R424). -/
  kind : ResetKind := .cold
  /-- RST_STATUS.step, last step completed (R426, Table 19-4). -/
  step : Nat := 0
  /-- RST_STATUS.attempts, consecutive failed attempts (R430). -/
  attempts : Nat := 0
  /-- RST_STATUS [8:2]: merged, thermal, fatal, watchdog, fabric, pin, cold (Table 19-4). -/
  bits : BitVec 7 := 1
  /-- Steps of R425 that a warm reset has begun: 0 none, 1 the recall, 2 the quiesce and the drain, 3 waiting to enter step 5;
  10 and 11 the entry into FALLOW (R453). -/
  stage : Nat := 0
  /-- This bring-up's step 5 found HBM lost (R424, R428). -/
  hbmLost : Bool := false
  /-- A failed drain made this warm reset cold for the journal (R425). -/
  drainFailed : Bool := false
  /-- Level at RESET_N; high at cold reset release (R426). -/
  resetN : Bool := true
  /-- When RESET_N last rose (R425). -/
  resetRise : Nat := 0
  /-- Level at PWRFAIL_N (R78, R470). -/
  pwrfail : BallLevel := .high
  /-- Start of a PWRFAIL_N fall under the 200 ns filter (R78). -/
  fallAt : Option Nat := none
  /-- Instants of PWRFAIL_N level changes in the last second (R80). -/
  changes : List Nat := []
  /-- Consecutive probes of R470 below the threshold. -/
  probeLow : Nat := 0
  /-- Power was lost before the flush header (R79): set while a power-fail sequence has not written it. -/
  flushOpen : Bool := false
  /-- RST_PWR_CTL.state (Table 20-5). -/
  power : PowerState := .active
  /-- RST_PWR_CTL.vstep, current request (Table 20-5): 30 after reset. -/
  vstep : Nat := 30
  /-- RST_PWR_CTL.limit. -/
  limit : BitVec 4 := 0
  /-- RST_PWR_CTL.status, status of the last cmd. -/
  pwrStatus : Status := .ok
  /-- Thermal and cap ceilings in steps (R447), 50 = 0.850 V. -/
  thermalCeil : Nat := 50
  capCeil : Nat := 50
  /-- Instants of the last move of each ceiling and of the last lowering of the request (R447). -/
  thermalMoved : Nat := 0
  capMoved : Nat := 0
  lowered : Nat := 0
  /-- Highest readings in degrees C: core die, I/O dies, HBM stacks (R455). -/
  temps : List Nat := [0, 0, 0]
  /-- Threshold levels reached per sensor group: 0 none, 1 warn, 2 hot, 3 trip (R456). -/
  heat : List Nat := [0, 0, 0]
  /-- Package power in W and VDD_CORE readback in mV as last measured (Table 23-8). -/
  watts : Nat := 0
  readMv : Nat := 0
  /-- Consecutive AVSBus misses and mismatches (R448). -/
  avsMiss : Nat := 0
  avsOff : Nat := 0
  /-- Beat gating in force (R456, R447). -/
  gated : Bool := false
  /-- Since when no context holds a job and no SQ entry is submittable (R452). -/
  idleSince : Nat := 0
  /-- Reference clocks lost in service (R465). -/
  clocksLost : List RefClk := []
  /-- The watchdog is armed, at step 4 (Table 19-2). -/
  watchArmed : Bool := false
  /-- When each running period of `Timer` last began (R4); an absent one began at instant 0. -/
  marks : List (Timer × Nat) := []
  /-- Slices are told to answer no new request (R425, R453, R393, R405): admission closed. -/
  closed : Bool := true
  deriving DecidableEq, Repr

/-! ### Extents, regions and the extent command (02) -/

inductive ExtOp where
  | assign | modify | region | revoke | restore | release
  deriving DecidableEq, Repr

/-- The extent command in progress (R30): what it does, on which extent, since when, and whether it still awaits the
drain (R34), key destruction confirmations (R33) and the control mirror (R409). -/
structure ExtRun where
  op : ExtOp := .revoke
  ext : Nat := 0
  start : Nat := 0
  draining : Bool := false
  keyHolders : List (BitVec 16) := []
  awaitMirror : Option Nat := none
  /-- What a MODIFY makes of the descriptor once it completes (R31). -/
  new : Option ExtDesc := none
  deriving DecidableEq, Repr

structure Ext where
  /-- Extent table (R18): unlisted extents are FREE with incarnation 0. -/
  table : List (Nat × ExtDesc) := []
  /-- Region tables (R22), keyed extent*512 + granule; an unlisted entry is that of R22 at assignment. -/
  regions : List (Nat × RegionEnt) := []
  /-- Owner records (R151, R152), keyed extent*512 + head granule. -/
  owners : List (Nat × Owner) := []
  /-- ID_EXTENT_LIMIT (R53). -/
  limit : Nat := 0
  /-- The extent command in progress (R30). -/
  run : Option ExtRun := none
  /-- Mapping units of released extents still to be trimmed (R33). -/
  trim : List Nat := []
  /-- Extents adopted without redundancy: lost until RELEASE (R414). -/
  lost : List Nat := []
  deriving DecidableEq, Repr

/-! ### The tier and the flash side (03) -/

inductive TagState where
  | free | filling | present | writeback
  deriving DecidableEq, Repr

inductive Retention where
  | low | medium | high | pinned
  deriving DecidableEq, Repr

/-- A tier tag, Table 03-3 (R40), with the way it names, the poison of its lines (R389), the dirty snapshot of a
running write-back and the lines written since (R43), and the requests' dirty state for R41. -/
structure Tag where
  state : TagState := .free
  way : Nat := 0
  retention : Retention := .low
  age : Nat := 0
  count : Nat := 0
  merging : Bool := false
  valid : BitVec 128 := 0
  dirty : BitVec 128 := 0
  poison : BitVec 128 := 0
  snap : BitVec 128 := 0
  since : BitVec 128 := 0
  deriving DecidableEq, Repr

/-- A write-back of a mapping unit in progress (R46, R77): its frames that were resident, the jsn current at the
snapshot (R71), whether it is to free a victim, whether the home's copy is programmed, and whether the buddy's copy is
awaited. -/
structure WriteBack where
  mu : Nat := 0
  frames : List Nat := []
  jsn : Nat := 0
  start : Nat := 0
  urgent : Bool := false
  homeDone : Bool := false
  buddy : Option (BitVec 16) := none
  /-- The snapshot's bytes by store offset and its poison maps by frame (R43, R389). -/
  image : List Host.Cell := []
  poison : List (Nat × BitVec 128) := []
  /-- Lines taken from HBM, by frame; the others are copied forward or merged from the old pages (R46, R496). -/
  keep : List (Nat × BitVec 128) := []
  deriving DecidableEq, Repr

structure Tier where
  /-- Carve-out in use in GiB: tier cache, resident set, directory backing, metadata, reserve (R37). -/
  carve : List Nat := [320, 32, 8, 20, 4]
  /-- Tags, keyed by frame number; unlisted frames have no frame in HBM (R40). -/
  tags : List (Nat × Tag) := []
  /-- refetch of Table 03-3, keyed by frame number. -/
  refetch : List (Nat × Nat) := []
  /-- Bytes of HBM frames, keyed by store offset (R41); an unlisted byte reads 0. -/
  hbm : List Host.Cell := []
  /-- Write-backs in progress (R43, R46). -/
  wbs : List WriteBack := []
  /-- Extents for which HOT and THRASH were posted in this decay interval (R51). -/
  hotPosted : List Nat := []
  thrashPosted : List Nat := []
  /-- (extent, limit) pairs for which PIN_SPILL was posted (R49): limit 0 ways, 1 bytes. -/
  spillPosted : List (Nat × Nat) := []
  /-- Last missed frame per mapping unit and its run of ascending misses (Table 03-5). -/
  missRun : List (Nat × (Nat × Nat)) := []
  /-- PIN_HBM extents whose background prefetch is unfinished (Table 03-5). -/
  prefetch : List Nat := []
  /-- Instants of corrected errors per 2 KiB HBM page within RAS_CE_WINDOW, retired pages, and frames still to be evicted from
  one (R59, R399). -/
  pageCe : List (Nat × List Nat) := []
  retired : List Nat := []
  evicting : List Nat := []
  /-- Lines to be poisoned for which no way was free (R389). -/
  toPoison : List Nat := []
  /-- When the counts were last halved (R50). -/
  decayAt : Nat := 0
  deriving DecidableEq, Repr

/-- A flash map entry, Table 03-7 (R52). -/
structure MapEnt where
  mapped : Bool := false
  striped : Bool := false
  die : Nat := 0
  block : Nat := 0
  page : Nat := 0
  stripe : Nat := 0
  member : Nat := 0
  deriving DecidableEq, Repr

/-- A stripe member or buddy copy held for another device (R55, R77). -/
structure Held where
  home : BitVec 16 := 0
  stripe : Nat := 0
  member : Nat := 0
  mu : Nat := 0
  isCopy : Bool := false
  data : List Byte := []
  deriving DecidableEq, Repr

structure Flash where
  /-- Dies found and GiB per die (R53, R64). -/
  dies : Nat := 0
  dieGiB : Nat := 0
  /-- Channels unused (R468). -/
  badChannels : List (BitVec 16) := []
  /-- Map entries, keyed by mapping unit GSA[47:16] (R52). -/
  map : List (Nat × MapEnt) := []
  /-- Flash copy of the store, decrypted, keyed by store offset (R52, R57); an unlisted byte reads 0. -/
  data : List Host.Cell := []
  /-- Poison map of each frame's flash page (R389), keyed by frame number. -/
  poison : List (Nat × BitVec 128) := []
  /-- Page jsn of each mapping unit (R71). -/
  pageJsn : List (Nat × Nat) := []
  /-- Frames whose flash page cannot be read (an injected or real media fault, R59, R489). -/
  unreadable : List Nat := []
  /-- Frames whose fault was injected through Trellis (R489): their records carry detail3[62]. -/
  injected : List Nat := []
  /-- Erase count per block (R54), keyed die*65536 + block. -/
  erases : List (Nat × Nat) := []
  /-- Blocks programmed and not erased since (R46), keyed die*65536 + block. -/
  used : List Nat := []
  /-- Per die: open block and next page in it (R46, R52). -/
  openBlk : List (Nat × (Nat × Nat)) := []
  /-- Mapping units written: the rotation over the dies (R52). -/
  written : Nat := 0
  /-- Next stripe number of this home (R55). -/
  nextStripe : Nat := 0
  /-- Members and buddy copies held for other devices (R55, R77). -/
  held : List Held := []
  /-- Mapping units held at the home only (R77). -/
  homeOnly : List Nat := []
  /-- Key generation of each key-store slot (R57): 0 none; a fresh key takes the next number. -/
  keys : List (Nat × Nat) := []
  nextKey : Nat := 1
  /-- Wrapped keys held for other devices, keyed home*262144 + extent (R57, R77, R409). -/
  wrapped : List (Nat × Nat) := []
  /-- Holders of the ten members of a stripe, by stripe number (R55). -/
  holders : List (Nat × List (BitVec 16)) := []
  /-- The open stripe: data members written into it, as they stand on flash, in member order (R55). -/
  stripe : List (List Byte) := []
  /-- Instants of reads needing LDPC retry per erase block within RAS_CE_WINDOW (Table 17-10), and retired blocks. -/
  blockCe : List (Nat × List Nat) := []
  retired : List Nat := []
  /-- The flash copies of the extent table, region tables, owner records, loss marks, handoff ledger and resume ledger, and
  (`keys`) of the wrapped keys, as the compost pass last folded them (04, The compost pass). -/
  base : CtlState := {}
  /-- J, op and s recorded at the last inventory (R441): GiB, %, half-percent. -/
  layout : Option (Nat × Nat × Nat) := none
  deriving DecidableEq, Repr

/-! ### Journal (04) -/

/-- Request kinds that can wait at a slice (Table 05-2). -/
inductive ReqKind where
  | advance  -- the device's own advance of a counter (R98)
  | load | store | storePart | codedWrite | atomic | wait | barrier | acquire | release | publish | readVersion
  deriving DecidableEq, Repr

/-- A record in the ring: the record, its segment, whether it is programmed, and for a tentative one when it was
programmed and whether a retry adopted it (R62, R69, R81). -/
structure Slot where
  rc : JRec := {}
  seg : Nat := 0
  /-- When the record entered its slot (R72). -/
  entered : Nat := 0
  programmed : Bool := false
  progAt : Nat := 0
  /-- The running group program of R81 holds it. -/
  inGroup : Bool := false
  /-- For a tentative record: the request that wrote it, its arrival number, and the retry that has adopted it. -/
  orig : Option (ReqKind × Req) := none
  first : Nat := 0
  adopted : Option Nat := none
  /-- The answer data of the write (R95). -/
  old : List Byte := []
  /-- FDN of the home for a mirrored record (R74). -/
  home : BitVec 16 := 0
  deriving DecidableEq, Repr

inductive SegState where
  | filling | full | programming
  deriving DecidableEq, Repr

structure Seg where
  id : Nat := 0
  state : SegState := .filling
  opened : Nat := 0
  units : Nat := 0
  deriving DecidableEq, Repr

/-- A mirrored record this device keeps for another home (R76). -/
structure Mirror where
  home : BitVec 16 := 0
  rc : JRec := {}
  deriving DecidableEq, Repr

/-- A mirror of this home not yet confirmed (R75); `late` once its write was answered at the deadline. -/
structure Unconf where
  jsn : Nat := 0
  buddy : BitVec 16 := 0
  late : Bool := false
  resendAt : Nat := 0
  deriving DecidableEq, Repr

/-- The flush header (Table 04-5). -/
structure FlushHdr where
  ringSize : Nat := 0
  oldest : Nat := 0
  newest : Nat := 0
  bitmap : List Nat := []
  /-- CRC-32C of the header. -/
  crc : BitVec 32 := 0
  deriving DecidableEq, Repr

/-- A durable barrier in progress (R88, R104). -/
structure Barrier where
  id : Nat := 0
  iid : BitVec 16 := 0
  src : BitVec 16 := 0
  bases : List Word := []
  counter : Word := 0
  /-- Lines still to be journalled: (line, data, poison) as they stood at the marker. -/
  todo : List (Nat × Line × Bool) := []
  err : Bool := false
  jsn : Option Nat := none
  deriving DecidableEq, Repr

/-- A mirror fetch in progress (R497). -/
structure Fetch where
  buddy : BitVec 16 := 0
  lo : Nat := 0
  hi : Option Nat := none
  exts : List Nat := []
  /-- Lines that readable headers of an unreadable segment name (R85). -/
  named : List Nat := []
  deriving DecidableEq, Repr

inductive Compost where
  | background | raised
  deriving DecidableEq, Repr

structure Jrn where
  /-- Usable ring in bytes, JRN_RING_SIZE (R64). -/
  ringSize : Nat := 0
  /-- Records in the ring, oldest first (R62). -/
  ring : List Slot := []
  segs : List Seg := []
  nextSeg : Nat := 0
  /-- Next journal sequence number (R67). -/
  nextJsn : Nat := 1
  /-- The live flash journal, oldest first (R71), with the instant each record was written (R72). -/
  live : List (Nat × JRec) := []
  /-- Every record up to this jsn is folded (R72, R76). -/
  foldedTo : Nat := 0
  compost : Compost := .background
  /-- Mirrored records kept for other homes (R76). -/
  mirrors : List Mirror := []
  /-- Unconfirmed mirrors of this home (R75). -/
  unconf : List Unconf := []
  /-- Buddies in PAIR_LOST (R75). -/
  pairLost : List (BitVec 16) := []
  /-- Per buddy, the highest jsn released (R76). -/
  released : List (Nat × Nat) := []
  /-- jsns of this home's mirrored records not yet released, per buddy (R76). -/
  mirrored : List (BitVec 16 × JRec) := []
  /-- A group program of R81 is running. -/
  groupRun : Bool := false
  /-- JRN_STATUS.holdup (R80): DISTRUSTED when true. -/
  distrusted : Bool := false
  /-- RING_HIGH posted for the present crossing (R69). -/
  highPosted : Bool := false
  /-- The flush area stands erased, ready for the next flush (R47, R70). -/
  areaErased : Bool := true
  /-- The flush area and its header (R70, Table 04-5). -/
  flushArea : List JRec := []
  flushHdr : Option FlushHdr := none
  /-- The flush bitmap kept in SRAM over a warm reset (R425). -/
  keptBitmap : List Nat := []
  /-- JRN_LOSS_EPOCH (R86). -/
  lossEpoch : BitVec 32 := 0
  /-- Loss mark of each extent (R86). -/
  marks : List (Nat × BitVec 32) := []
  /-- This bring-up has advanced the loss epoch (R86). -/
  advanced : Bool := false
  barriers : List Barrier := []
  nextBarrier : Nat := 0
  /-- Mirror fetches and the extents pending on them (R497). -/
  fetches : List Fetch := []
  deriving DecidableEq, Repr

/-! ### Requests at the home and at the originating device (05) -/

/-- What a request at its slice waits for. Each form names the rule that holds the request. -/
inductive Why where
  | bucket (b : Nat) (payAt : Nat)   -- R116
  | behind (line : Nat)              -- R113: an earlier request to the line waits
  | fill (frame : Nat)               -- Table 03-4, FILLING, or a merge fill
  | way (set : Nat)                  -- R45
  | snoop (line : Nat)               -- R133: the request is the head of a transaction
  | busy (line : Nat)                -- R133 action q, R135
  | slot                             -- R62, Table 04-4
  | buddy (jsn : Nat)                -- R74
  | tentative (jsn : Nat)            -- R81: adopted, or the line is held
  | marker (key : Nat)               -- R154: an ownership change of the region
  | commit (key : Nat)               -- R154: this request is the ownership change
  | inflight (key : Nat)             -- R158
  | counter                          -- R103
  | version (key : Nat)              -- R160
  | cutting (line : Nat)             -- R285
  | codebook (ext : Nat)             -- R253
  | late                             -- R111: its cut-off has passed
  | group (line : Nat)               -- R181: an open commit group holds the line
  | ingress                          -- R108, R142: not accepted yet, its link withholds credits
  | counterHome                      -- R104: a BARRIER's counter lies on another device
  deriving DecidableEq, Repr

/-- A request held at its home slice: arrival number, kind, header, arrival instant, response deadline (R107), what it
waits for, and whether it has been admitted (R27, R29). -/
structure PReq where
  n : Nat := 0
  /-- The address of the request's GSA in this device's store. -/
  a : Nat := 0
  kind : ReqKind := .load
  r : Req := {}
  arrived : Nat := 0
  deadline : Nat := 0
  why : Why := .counter
  admitted : Bool := false
  /-- It counts in the region's inflight (R158). -/
  counted : Bool := false
  /-- The old value an ATOMIC performed under a pending record will answer (R95). -/
  old : List Byte := []
  deriving DecidableEq, Repr

/-- On whose behalf the originating device sent a request (R21, R93). -/
inductive Origin where
  | host (win : Fin 64) (tag : BitVec 16)
  | aperture (win : Fin 64) (slot : BitVec 8)
  | station (core : Fin 16) (ctx : Fin 8) (id : Nat)
  | unitRead (u : Nat) (id : Nat)
  | copyLine (copyId : Nat) (line : Nat) (side : CopySide)
  | advance (id : Nat)
  | register (copyId : Nat)
  | barrier (n : Nat)
  | unit (mu : Nat)
  | cutting (handle : Nat) (row : Nat)
  deriving DecidableEq, Repr

/-- An outstanding request at its originating device (R93, R118). -/
structure Track where
  iid : BitVec 16 := 0
  tag : BitVec 16 := 0
  home : BitVec 16 := 0
  gsa : Word := 0
  due : Nat := 0
  origin : Origin := .advance 0
  deriving DecidableEq, Repr

/-- One line of a copy in progress (R101): the side being accessed, the first attempt, and the line read. -/
structure CopyLine where
  line : Nat := 0
  side : CopySide := .src
  first : Nat := 0
  retryAt : Nat := 0
  data : List Byte := []
  deriving DecidableEq, Repr

/-- A copy owned by this device's copy agent (R100): queued, or running. `awaiting` while the counter's home has not yet
answered the registration. -/
structure CopyRun where
  id : Nat := 0
  req : Req := {}
  awaiting : Bool := false
  running : Bool := false
  next : Nat := 0
  done : Nat := 0
  active : List CopyLine := []
  offered : Option (BitVec 32) := none
  deriving DecidableEq, Repr

/-- A registration at a counter's home (R100, R102). -/
structure Registration where
  owner : BitVec 16 := 0
  copyId : Nat := 0
  iid : BitVec 16 := 0
  counter : Word := 0
  inc : Nat := 1
  req : Req := {}
  offered : Bool := false
  deriving DecidableEq, Repr

/-- An advance of an arrival counter that awaits its answer (R98). -/
structure Advance where
  id : Nat := 0
  iid : BitVec 16 := 0
  /-- Device from which the request concerned came, where one did (R388). -/
  src : Option (BitVec 16) := none
  gsa : Word := 0
  amount : Nat := 0
  err : Bool := false
  first : Nat := 0
  retryAt : Nat := 0
  deriving DecidableEq, Repr

/-- Device-set words of a bucket (Table 05-8): tokens, the instant they stood so, rate_eff, demand in the interval. -/
structure Bucket where
  tokens : Nat := 0
  at_ : Nat := 0
  /-- rate_eff as R117 last set it; none before its first interval. -/
  rateEff : Option Nat := none
  demand : Nat := 0
  deriving DecidableEq, Repr

structure Rights where
  rd : Bool := false
  wr : Bool := false
  atom : Bool := false
  own : Bool := false
  deriving DecidableEq, Repr

/-- A request of many lines that this home has admitted to an extent (R29): its source device and its number there, the rights of its
admission (R31), whether an access of it has been answered other than NY, and whether the bound of R34 has abandoned it. -/
structure Multi where
  src : BitVec 16 := 0
  id : Nat := 0
  ext : Nat := 0
  rights : Rights := {}
  sure : Bool := false
  dead : Bool := false
  deriving DecidableEq, Repr

structure Home where
  /-- Requests of many lines admitted to extents of this home (R29). -/
  multi : List Multi := []
  /-- Requests held at the slices, in arrival order (R113). -/
  waiting : List PReq := []
  nextReq : Nat := 0
  /-- Outstanding requests of this originating device (R93). -/
  tracker : List Track := []
  nextTag : Nat := 0x8000
  copies : List CopyRun := []
  nextCopy : Nat := 0
  regsCtr : List Registration := []
  advances : List Advance := []
  nextAdv : Nat := 0
  /-- Buckets, keyed 0-255; unlisted: tokens full is set at enabling (R115). -/
  buckets : List (Nat × Bucket) := []
  /-- Answers to the device's own queue accesses, by tag (R173, R176, R325, R386). -/
  ownAns : List (BitVec 16 × Status × List Byte) := []
  /-- Slices whose own state failed (R393). -/
  deadSlices : List (Fin 32) := []
  deriving DecidableEq, Repr

/-! ### Directory and coherence (06) -/

inductive DirState where
  | i | s | e
  deriving DecidableEq, Repr

/-- A directory entry, Table 06-2 (R122). -/
structure DirEnt where
  presence : BitVec 64 := 0
  state : DirState := .i
  owner : BitVec 6 := 0
  poison : Bool := false
  deriving DecidableEq, Repr

/-- Coherence requests (Table 06-4). -/
inductive CohOp where
  | rdS | rdE | upg
  deriving DecidableEq, Repr

inductive SnoopOp where
  | inv | data | cur
  deriving DecidableEq, Repr

/-- The head of a line's transaction (R133): a coherence request with its slot and deadline, a request of Table 05-2 by
arrival number, or a home action of its own (recall for REVOKE, RELEASE, ownership or repair). -/
inductive Head where
  | coh (op : CohOp) (m : CohMsg) (slot : Fin 64) (n : Nat) (deadline : Nat)
  | req (n : Nat)
  | home
  | repair
  deriving DecidableEq, Repr

structure SnoopOut where
  slot : Fin 64 := 0
  op : SnoopOp := .inv
  tag : BitVec 16 := 0
  sent : Nat := 0
  tries : Nat := 1
  /-- An injection withheld its response (R489). -/
  injected : Bool := false
  deriving DecidableEq, Repr

inductive BState where
  | bi | bs | bc
  deriving DecidableEq, Repr

/-- A line transaction in BI, BS or BC (R133); `journal` while a head waits for the record of R484. -/
structure Txn where
  line : Nat := 0
  st : BState := .bi
  head : Head := .home
  snoops : List SnoopOut := []
  start : Nat := 0
  journal : Option (Option Nat) := none
  deriving DecidableEq, Repr

/-- A coherence message that waits at its home for the tier or for its record: a request, a write-back, a snoop response, or
the completion of a write-back whose data is in the line. -/
inductive CohWhat where
  | req (op : CohOp)
  | wb
  | rsp (st : DirState)
  | cmp
  | late
  deriving DecidableEq, Repr

structure CohWait where
  what : CohWhat := .wb
  m : CohMsg := {}
  slot : Fin 64 := 0
  n : Nat := 0
  deadline : Nat := 0
  why : Why := .slot
  deriving DecidableEq, Repr

/-- An entry of a line's tabled-mode queue (R142): a coherence request, a request of Table 05-2 by number, or a
placeholder with its expiry. -/
inductive QItem where
  | coh (op : CohOp) (m : CohMsg) (slot : Fin 64) (n : Nat) (deadline : Nat)
  | req (n : Nat)
  | placeholder (slot : Fin 64) (expiry : Nat)
  deriving DecidableEq, Repr

structure QEnt where
  line : Nat := 0
  item : QItem := .req 0
  deriving DecidableEq, Repr

/-- A mode fence in progress (R146): the mode it enters, its number, slots whose FENCE_ACK is awaited, when FENCE_REQ
was sent (none during steps 1 and 2). -/
structure FenceRun where
  tabled : Bool := true
  number : BitVec 16 := 0
  awaiting : List (Fin 64) := []
  sent : Option Nat := none
  /-- A mode asked for after FENCE_REQ went out: the next fence enters it. -/
  after : Option Bool := none
  deriving DecidableEq, Repr

/-- Snoops with SNP_INV that the home has to send for a line once no transaction, open group or stake window is on it: to the one
slot while it holds the line in E (R499), to every holder (R34), or, for the repair of an unknown entry, to every valid slot (R149). -/
inductive RecallWho where
  | owner (slot : Fin 64)
  | holders
  | repair
  deriving DecidableEq, Repr

structure Recall where
  line : Nat := 0
  who : RecallWho := .holders
  deriving DecidableEq, Repr

/-- A way of the directory cache (R124): the line whose entry it holds, and whether the entry is newer than its backing. -/
structure DirWay where
  line : Nat := 0
  modified : Bool := false
  deriving DecidableEq, Repr

structure Coh where
  /-- Directory entries as they stand in the cache or, uncached, in the backing, by line (GSA[47:7]); unlisted entries are I
  (R122-R124). -/
  dir : List (Nat × DirEnt) := []
  /-- Directory cache: by slice part and set (part * 8,192 + set), up to 12 ways, least recently used first (R124). -/
  cache : List (Nat × List DirWay) := []
  /-- Directory backing area by entry number d * 16,384 + g[20:7] (R123); unlisted entries are I. -/
  backing : List (Nat × DirEnt) := []
  /-- Coherent granule table: d -> extent*512 + granule (R123). -/
  granules : List (Nat × Nat) := []
  txns : List Txn := []
  queue : List QEnt := []
  /-- Open stake windows: line, end (R135). -/
  stakes : List (Nat × Nat) := []
  /-- Reservations: line, slot, end (R136). -/
  reserved : List (Nat × Fin 64 × Nat) := []
  /-- HOME_MODE.mode: tabled at reset (Table 22-13). -/
  tabled : Bool := true
  fence : Option FenceRun := none
  /-- HOME_MODE.fence, number of the last completed fence. -/
  fenceNo : BitVec 16 := 0
  /-- Running lost-agent sweeps: slot, and whether the earliest changed the mode at step 3 (R141). -/
  sweeps : List (Fin 64) := []
  sweepChanged : Bool := false
  /-- HOME_MODE.force into retry written while a sweep ran (R141). -/
  forceRetry : Bool := false
  /-- End of the resume window (R147). -/
  resumeUntil : Option Nat := none
  /-- Slots whose RESET_ACK is awaited (R148). -/
  rebuild : List (Fin 64) := []
  /-- Next snoop tag (R130). -/
  nextSnoop : Nat := 0
  /-- Snoop round trips of each slice since the last reset: sum and count (R134). -/
  rtt : List (Nat × (Nat × Nat)) := []
  /-- Snoops that await the end of what holds their line. -/
  recalls : List Recall := []
  /-- Coherence requests that an ingress withholds while the queue of their slice is full (R142). -/
  withheldReqs : List (CohOp × CohMsg) := []
  /-- The home is quiescing before a warm reset, since (R147). -/
  quiescing : Option Nat := none
  /-- Messages that wait for the tier or for their record (R42, R484). -/
  held : List CohWait := []
  /-- Snoops given up: line, slot, tag (R139, R140). -/
  late : List (Nat × Fin 64 × BitVec 16) := []
  /-- Slots whose next snoop response an injection withholds (R489). -/
  withheld : List (Fin 64) := []
  deriving DecidableEq, Repr

/-! ### Ownership changes (07) -/

/-- An ownership change in progress (R154): the region, the request, the record as it will be, the jsn of its PUBLISH
record, whether it awaits the buddy. -/
structure OwnChange where
  key : Nat := 0
  n : Nat := 0
  new : Owner := {}
  jsn : Nat := 0
  buddy : Bool := false
  /-- Every marker is placed and the record is in its slot. -/
  entered : Bool := false
  isPublish : Bool := false
  deriving DecidableEq, Repr

/-! ### Near-memory cores (08, 09, 10) -/

/-- A tile header, Tables 08-2 and 08-3 (R165). -/
structure TileHdr where
  stream : Nat := 0
  seq : Nat := 0
  fmt : BitVec 8 := 0
  last : Bool := false
  poison : Bool := false
  short : Bool := false
  empty : Bool := false
  bytes : Nat := 0
  rows : Nat := 1
  cols : Nat := 1
  stride : Nat := 0
  origin : Word := 0
  user : BitVec 32 := 0
  deriving DecidableEq, Repr

/-- A tile slot. `raw` holds the header words as DIBBER has stored them, until the tile becomes visible (R216, R219). -/
structure Tile where
  h : TileHdr := {}
  pay : Payload := 0
  raw : List Word := []
  deriving DecidableEq, Repr

/-- A stream (R167, R168): its table entry, the slots free, the slots DIBBER has allocated and not yet emitted, the tiles
whose headers are on their way, the tiles visible and not yet taken (by slot, in seq order), the slots taken whose
consumption is not yet over, the next seq, and whether its LAST was consumed. -/
structure Stream where
  producer : Nat := 0
  consumer : Nat := 0
  unit : Nat := 0
  depth : Nat := 0
  free : List Nat := []
  alloc : List Nat := []
  written : List Nat := []
  ready : List Nat := []
  taken : List Nat := []
  seq : Nat := 0
  consumed : Nat := 0
  ended : Bool := false
  deriving DecidableEq, Repr

/-- A station command, Table 08-6 (R171). -/
structure Cmd where
  station : Nat := 0
  cmd : Nat := 0
  inA : Nat := 63
  inB : Nat := 63
  out : Nat := 63
  outB : Nat := 63
  count : Nat := 0
  a : Word := 0
  b : Word := 0
  c : BitVec 32 := 0
  mode : BitVec 32 := 0
  deriving DecidableEq, Repr

/-- Partial results a command carries from tile to tile: exact row sums (value as mantissa and exponent, with the
special values of R203 seen), PAIRs, bytes, lines of a copy of a table. -/
structure Carry where
  sums : List (Int × Int × Nat) := []
  pairs : List (BitVec 32 × BitVec 32) := []
  bytes : List Byte := []
  n : Nat := 0
  deriving DecidableEq, Repr

/-- A station of a context: its command list, the index of the current command and its progress (R171, R187). -/
structure Station where
  cmds : List Cmd := []
  idx : Nat := 0
  consumed : Nat := 0
  emitted : Nat := 0
  carry : Carry := {}
  /-- Tiles computed that wait for a free slot of their stream, in order; `closing` once the command has consumed its last
  input and only these are left (R168, R171). -/
  outq : List (Nat × Tile) := []
  closing : Bool := false
  /-- Commands of the list that were in the graph at dispatch; the rest were appended (R171). -/
  graphLen : Nat := 0
  deriving DecidableEq, Repr

/-- An accumulator set (R201): class and 1,024 accumulators in row order. -/
structure AccSet where
  isInt : Bool := false
  v : List (BitVec 32) := []
  deriving DecidableEq, Repr

/-- DIBBER of a context (R214-R219). -/
structure Dib where
  x : List Word := []
  pc : Word := 0
  /-- Machine mode: the stream runtime runs (R214). -/
  machine : Bool := false
  csrs : List (Nat × Word) := []
  /-- LR/SC reservation in context scratch (R216): address and width in bytes. -/
  resv : Option (Nat × Nat) := none
  /-- Context scratch, 64 KiB, zero at dispatch (Table 09-8). -/
  scratch : List Host.Cell := []
  /-- Instructions the job has retired (R218). -/
  instret : Nat := 0
  /-- NMC_COMMIT was executed: DIBBER executes nothing further (R219). -/
  stopped : Bool := false
  deriving DecidableEq, Repr

/-- A staged line (R179, R235): its data, whether the job staged it whole (R391), and the number of an invalidation it
was staged before, if any (R329). -/
structure StageLine where
  gsa : Word := 0
  data : Line := 0
  whole : Bool := false
  va : Word := 0
  stale : Option Nat := none
  deriving DecidableEq, Repr

/-- A port request of a context whose reply has not wholly entered its stream (R169): unit kind, the unit's sequence number,
reply stream, and the reply's tiles once the unit has answered. -/
structure PortReq where
  unit : Nat := 0
  seq : Nat := 0
  reply : Nat := 0
  tiles : Option (List Tile) := none
  deriving DecidableEq, Repr

/-- A window or a partial staged by SOW (R273, R277): 32 elements of a row of a table version. For a ROUNDED table
`vals` holds FP32 bits; for an EXACT one (n, sat, value) per element. -/
structure Chunk where
  core : Nat := 0
  ctx : Nat := 0
  handle : Nat := 0
  version : BitVec 16 := 0
  row : Nat := 0
  chunk : Nat := 0
  vals : List (BitVec 32) := []
  wins : List (Nat × Bool × Int) := []
  deriving DecidableEq, Repr

/-- A staged PRUNE operation (R308). -/
inductive PrnOp where
  | insert (handle : Nat) (id : Nat) (code : List Byte) (fwd : List (BitVec 32)) (rev : List (Nat × Nat))
  | delete (handle : Nat) (ids : List Nat)
  | entry (handle : Nat) (ids : List (BitVec 32))
  deriving DecidableEq, Repr

/-- A frame-list or translation-cache entry, Table 14-5 (R320, R321). -/
structure Xent where
  asid : BitVec 16 := 0
  va : Nat := 0
  size : Nat := 0
  r : Bool := false
  w : Bool := false
  x : Bool := false
  host : Bool := false
  port : Fin 4 := 0
  target : Word := 0
  deriving DecidableEq, Repr

/-- The part of a job that a restart returns to its state at dispatch or resume (R182), and that a suspend body holds
(R187). -/
structure Body where
  streams : List (Nat × Stream) := []
  tiles : List (Nat × Tile) := []
  stations : List (Nat × Station) := []
  dib : Dib := {}
  acc : List (Nat × AccSet) := []
  /-- NMC_ARITH_STATUS [4:0] (R220). -/
  arith : BitVec 5 := 0
  staging : List StageLine := []
  /-- Staged coded blocks: GSA of the block and its bytes (R256). -/
  coded : List (Word × List Byte) := []
  sow : List Chunk := []
  prn : List PrnOp := []
  /-- SIEVE tables by handle 0-3 (R257). -/
  tables : List (Nat × List Byte) := []
  ports : List PortReq := []
  fewer : Bool := false
  /-- A fault was pending at a suspend: virtual address and access kinds r, w, x (R185, R187 section 0x07). -/
  fault : Option (Word × Bool × Bool × Bool) := none
  deriving DecidableEq, Repr

/-- What an engine's access names: the home line or block of a GSA, or a host-physical line of a port. -/
inductive RxKey where
  | gsa (g : Word)
  | host (port : Fin 4) (a : BitVec 52)
  deriving DecidableEq, Repr

/-- An access an engine has outstanding (R228): its number, the observer that made it, what it names, the request sent to the
home, the virtual address it was translated from, the invalidation that discarded that translation, and after an NY when it is
to be retried. -/
structure Access where
  id : Nat := 0
  who : Nat := 0
  key : RxKey := .gsa 0
  req : Req := {}
  va : Word := 0
  stale : Option Nat := none
  retryAt : Option Nat := none
  deriving DecidableEq, Repr

/-- The answer of an access, kept until its observer has used it. -/
structure Rx where
  who : Nat := 0
  key : RxKey := .gsa 0
  st : Status := .ok
  data : List Byte := []
  deriving DecidableEq, Repr

/-- One line, or one coded block, that a commit group writes (R181): the line, what it will hold, the block's bytes. -/
structure GrpWrite where
  line : Nat := 0
  data : Line := 0
  coded : Option (List Byte) := none
  /-- It clears the line's poison (R391). -/
  whole : Bool := true
  deriving DecidableEq, Repr

/-- Where a RESUME stands (R188): to claim its area, to read header and body, to restore WRITTEN after a failed check with the
status to report, or done. -/
inductive Claim where
  | read | cas (old : List Byte) (new : List Byte) (again : Bool) | body | restore (st : Status) | done
  deriving DecidableEq, Repr

inductive JobPhase where
  | loading      -- dispatched, graph not yet loaded (RUN) or area not yet claimed (RESUME)
  | ready        -- may own the stations
  | suspending   -- R185 steps 1 and 2
  | committing   -- from NMC_COMMIT to GROUP_COMMIT (R181)
  | committed    -- GROUP_COMMIT in its slot
  | ended        -- completion record waits (R176)
  deriving DecidableEq, Repr

/-- A job that waits for a context and no longer stands in an SQ: forwarded here from another device (R175), or from a core
that went OFFLINE (R193). Also the request of a SUSPEND that waits for its target (R185). -/
structure FwdJob where
  origin : Option (BitVec 16) := none
  restarts : Nat := 0
  pair : Nat := 0
  iid : BitVec 16 := 0
  desc : List Word := []
  deriving DecidableEq, Repr

/-- A job in a context (R174, R177, R182). -/
structure Job where
  pair : Nat := 0
  iid : BitVec 16 := 0
  asid : BitVec 16 := 0
  tag : BitVec 16 := 0
  kind : Nat := 1
  desc : List Word := []
  /-- Originating device of a forwarded job (R175). -/
  origin : Option (BitVec 16) := none
  phase : JobPhase := .loading
  slots : List Nat := []
  quota : Nat := 0
  b : Body := {}
  /-- What a restart returns to (R182). -/
  snap : Body := {}
  restarts : Nat := 0
  counted : Nat := 0
  started : Nat := 0
  usedBefore : Nat := 0
  progressAt : Nat := 0
  /-- Suspend area claimed by a RESUME (R188). -/
  area : Word := 0
  /-- The SUSPEND that the target works for (R185), and the header that is being written to an area on another device. -/
  suspendReq : Option FwdJob := none
  susHdr : List Word := []
  status : Status := .ok
  cause : Nat := 0
  whereAt : Word := 0
  frames : List Xent := []
  /-- Accesses outstanding and answers not yet used (R175, R228, R323). -/
  reads : List Access := []
  rx : List Rx := []
  claim : Claim := .read
  /-- The suspend header as read at a RESUME, and the lines of the body written at a SUSPEND still to be answered. -/
  hdr : List Word := []
  /-- jsns of the commit group's records, and the ownership regions its commit is in flight in (R158, R181). -/
  group : List Nat := []
  regions : List Nat := []
  /-- What the open group writes, and the lines it holds until GROUP_COMMIT (R181, R278). -/
  writes : List GrpWrite := []
  /-- When the commit began (R299). -/
  commitAt : Nat := 0
  /-- Its number as a request of many lines (R29). -/
  no : Nat := 0
  deriving DecidableEq, Repr

inductive PhysState where
  | inUse | spare | offline | failed
  deriving DecidableEq, Repr

/-- A completion record waiting for its CQ (R176). -/
structure CqRec where
  pair : Nat := 0
  words : List Word := []
  counter : Word := 0
  err : Bool := false
  iid : BitVec 16 := 0
  at_ : Option (Fin 16 × Fin 8) := none
  dest : Option (BitVec 16) := none
  sent : Bool := false
  /-- The device that executed the job, of a record that came from it. -/
  exec : Option (BitVec 16) := none
  deriving DecidableEq, Repr

/-- A resident-set version (R190, R191). -/
structure RsVer where
  version : BitVec 32 := 0
  length : Nat := 0
  installing : Bool := false
  retiring : Option Nat := none
  deriving DecidableEq, Repr

/-- Accesses of a shared unit's instance (R238). -/
structure UnitIo where
  reads : List Access := []
  rx : List Rx := []
  deriving DecidableEq, Repr

structure Nmc where
  /-- NMC_LMAP: physical core of each logical core; 31 OFFLINE (R192). -/
  lmap : List Nat := List.range 16
  phys : List PhysState := List.replicate 16 .inUse ++ [.spare, .spare]
  /-- NMC_CORE_CANARY per physical core (R422). -/
  canary : List Nat := List.replicate 18 0
  /-- Restarts of cause 0x01: physical core and instant (R184). -/
  faults01 : List (Nat × Nat) := []
  /-- Jobs by core*8 + context. -/
  jobs : List (Nat × Job) := []
  /-- Context that owns each core's stations (R177). -/
  owner : List (Nat × Nat) := []
  /-- Device-set pointers of the SQ-CQ pairs: SQ head, SQ tail, CQ tail; the IID the pair is bound to (R172, R480). -/
  sqHead : List (Nat × Nat) := []
  sqTail : List (Nat × Nat) := []
  cqTail : List (Nat × Nat) := []
  pairIid : List (Nat × BitVec 16) := []
  /-- Rotation among pairs of equal priority (R173): the last pair served. -/
  lastPair : Nat := 0
  /-- Whose request of that pair was served: another device's, or the pair's own. -/
  lastOrigin : Option (BitVec 16) := none
  cq : List CqRec := []
  fwdIn : List FwdJob := []
  /-- Jobs forwarded to another device and not yet completed: pair, tag, the device (R175). -/
  fwdOut : List (Nat × Nat × BitVec 16) := []
  /-- Number of the next job, as a request of many lines (R29). -/
  nextJob : Nat := 0
  /-- Number of the next access of an engine. -/
  nextRead : Nat := 0
  /-- Accesses of the shared units: GLEAN 0-3, SOW 4-7, PRUNE 8-11 (R169, R238). -/
  units : List (Nat × UnitIo) := []
  /-- Tags of SQ entries ended while waiting in the ring (R183, R185): pair, SQ index. -/
  skip : List (Nat × Nat) := []
  rs : List RsVer := []
  /-- Resident-set bytes, keyed version*2^40 + offset. -/
  rsMem : List Host.Cell := []
  /-- Resume ledger: suspend area and header (R188), this device's and adopted ones. -/
  ledger : List (Word × List Word) := []
  /-- DIBBER's runtime in machine mode, by logical core (R214): its registers between the jobs' contexts. -/
  rt : List (Nat × Dib) := []
  deriving DecidableEq, Repr

/-! ### Translation (14) -/

/-- An ASID record, Table 14-2 (R314). -/
structure AsidRec where
  valid : Bool := false
  root : Nat := 0
  fq : Fin 16 := 0
  iid : BitVec 16 := 0
  deriving DecidableEq, Repr

/-- A live page fault (R324, R326). -/
structure LiveFault where
  id : BitVec 32 := 0
  core : Fin 16 := 0
  ctx : Fin 8 := 0
  asid : BitVec 16 := 0
  va : Word := 0
  r : Bool := false
  w : Bool := false
  x : Bool := false
  posted : Option Nat := none
  /-- Queue and place of its record, once that is written. -/
  slot : Option (Fin 16 × Nat) := none
  deriving DecidableEq, Repr

/-- An invalidation outstanding (R328, R329). -/
structure Inval where
  num : BitVec 16 := 0
  asid : BitVec 16 := 0
  all : Bool := false
  lo : Nat := 0
  pages : Nat := 0
  counter : Word := 0
  iid : BitVec 16 := 0
  start : Nat := 0
  bounded : Bool := false
  deriving DecidableEq, Repr

/-- A read of a HOST page line (R323, R345): issued to the host or waiting for one of the port's 64 places. -/
structure HostRead where
  port : Fin 4 := 0
  addr : BitVec 52 := 0
  core : Fin 16 := 0
  ctx : Fin 8 := 0
  va : Word := 0
  issued : Bool := false
  due : Nat := 0
  id : Nat := 0
  /-- The 64-byte half that has come, and whether it is the upper one (R345). -/
  got : Option (Bool × BitVec 512) := none
  poison : Bool := false
  deriving DecidableEq, Repr

/-- A fault-queue record waiting for space (Table 14-6, R325). -/
structure FqRec where
  q : Fin 16 := 0
  words : List Word := []
  fault : Option (BitVec 32) := none
  sent : Bool := false
  deriving DecidableEq, Repr

structure Xlt where
  asids : List (Nat × AsidRec) := []
  unbinding : List (BitVec 16) := []
  faults : List LiveFault := []
  nextFault : BitVec 32 := 0
  fqTail : List (Nat × Nat) := []
  /-- The IID that claimed each fault queue, under which its records are written (R498). -/
  fqIid : List (Nat × BitVec 16) := []
  fqWait : List FqRec := []
  invals : List Inval := []
  nextInv : BitVec 16 := 0
  reads : List HostRead := []
  /-- Host-page counters, keyed asid*2^32 + page (R331), oldest first, at most 65,536. -/
  hot : List (Nat × Nat) := []
  hotPosted : List Nat := []
  /-- Translation caches: logical core and entry, oldest first (R321). -/
  tlb : List (Nat × Xent) := []
  deriving DecidableEq, Repr

/-! ### Codec, embedding units, PRUNE (11, 12, 13) -/

structure Cdc where
  /-- Extents whose sealed codebook the codebook cache holds, most recent first (R253). -/
  cached : List Nat := []
  /-- Codebook fills in flight (R264). -/
  filling : List Nat := []
  /-- Extents whose codebook failed its check at a fill (R264). -/
  bad : List (Nat × Status) := []
  deriving DecidableEq, Repr

/-- One live version of a table handle (R265-R268). -/
structure TableVer where
  handle : Nat := 0
  version : BitVec 16 := 0
  words : List Word := []
  /-- Shard map: base and window base (R266). -/
  map : List (Word × Word) := []
  /-- Whether new requests bind to it. -/
  live : Bool := false
  deriving DecidableEq, Repr

/-- A GLEAN or SOW request in an instance's queue (R269). -/
structure EmbReq where
  sow : Bool := false
  core : Fin 16 := 0
  ctx : Fin 8 := 0
  reply : Nat := 0
  hdr : List Word := []
  entries : List Word := []
  /-- Delta rows of an ADD, as element bit patterns widened to FP32 (R273). -/
  deltas : List (List (BitVec 32)) := []
  user : BitVec 32 := 0
  version : BitVec 16 := 0
  dead : Bool := false
  seq : Nat := 0
  /-- Entries or rows dealt with, and the counts of Table 12-5 so far. -/
  pos : Nat := 0
  done : Nat := 0
  invalid : Nat := 0
  missing : Nat := 0
  sat : Nat := 0
  fetched : Nat := 0
  /-- Output rows so far: origin, bytes, poison; and the rows of the open bag (R270, R271). -/
  rows : List (Word × List Byte × Bool) := []
  bag : List (List Byte × Bool) := []
  /-- A harvested row whose group is open (R280): the jsns of its records and what it writes. -/
  group : List Nat := []
  writes : List GrpWrite := []
  deriving DecidableEq, Repr

/-- The open de-duplication window of a GLEAN instance (R272): its handle and version, the entries it has taken, and the rows
read, by IID. -/
structure Win where
  handle : Nat := 0
  version : BitVec 16 := 0
  n : Nat := 0
  rows : List (Nat × Nat) := []
  deriving DecidableEq, Repr

/-- A cutting record at the row's home (R284, R285). -/
structure Cut where
  handle : Nat := 0
  row : Nat := 0
  holder : BitVec 16 := 0
  lease : Nat := 0
  dropping : Bool := false
  deriving DecidableEq, Repr

/-- A cutting this device holds (R284). -/
structure HeldCut where
  handle : Nat := 0
  row : Nat := 0
  home : BitVec 16 := 0
  lines : List Line := []
  lease : Nat := 0
  deriving DecidableEq, Repr

/-- A transplant in progress (R287): the step it has reached. -/
structure Xplant where
  handle : Nat := 0
  shard : Nat := 0
  dest : BitVec 16 := 0
  step : Nat := 1
  exts : List Nat := []
  /-- Lines written since the copy began. -/
  bitmap : List Nat := []
  copies : List Nat := []
  seq : BitVec 32 := 0
  since : Nat := 0
  deriving DecidableEq, Repr

/-- A table command that reads a shard map from another device (R267): CREATE or REPLACE, its handle and descriptor, and the IID it
reads under; class F when there is none to check. -/
structure TableRun where
  replace : Bool := false
  handle : Nat := 0
  words : List Word := []
  iid : BitVec 16 := 0
  fm : Bool := false
  deriving DecidableEq, Repr

structure Emb where
  run : Option TableRun := none
  tables : List TableVer := []
  lastVer : List (Nat × BitVec 16) := []
  queues : List (Nat × EmbReq) := []
  /-- Open windows by GLEAN instance. -/
  wins : List (Nat × Win) := []
  nextSeq : Nat := 0
  /-- Combining buffer, least recently used first (R273). -/
  chunks : List Chunk := []
  groups : List (Nat × List (BitVec 16)) := []
  cuts : List Cut := []
  held : List HeldCut := []
  /-- Reads sent to other devices per (handle, row) in 10 ms: key, count, since (R284). -/
  remote : List (Nat × Nat × Nat) := []
  /-- Last write of rows with cuttings allowed: line, instant (R284). -/
  written : List (Nat × Nat) := []
  /-- Lines read and committed per (handle, shard) in this interval: key handle*4096 + shard (R286). -/
  loads : List (Nat × Nat) := []
  /-- Totals reported by members: member, group, total (R286). -/
  totals : List (BitVec 16 × Nat × Nat) := []
  /-- Consecutive intervals above GLN_XPL_HIGH, by table group (R286). -/
  overCount : List (Nat × Nat) := []
  lastXpl : Option Nat := none
  xplant : Option Xplant := none
  deriving DecidableEq, Repr

/-- An index (R291, R295). -/
structure Index where
  handle : Nat := 0
  words : List Word := []
  inst : Nat := 0
  iid : BitVec 16 := 0
  deriving DecidableEq, Repr

/-- A PRUNE request in its instance's queue (R301), bound to a generation (R297). -/
structure PrnReq where
  inst : Nat := 0
  /-- The index as it was when the request was queued (R295). -/
  idx : Index := {}
  core : Fin 16 := 0
  ctx : Fin 8 := 0
  reply : Nat := 0
  words : List Word := []
  body : List Byte := []
  /-- Distance table, FP16 entries in index order (R303). -/
  table : List (BitVec 16) := []
  user : BitVec 32 := 0
  gen : BitVec 32 := 0
  seq : Nat := 0
  /-- The status of a request that cannot run: its handle is not live, or its generation is not bound (R297, R301). -/
  fail : Option Status := none
  deriving DecidableEq, Repr

structure Prn where
  idx : List Index := []
  queue : List PrnReq := []
  nextSeq : Nat := 0
  /-- Header lines held by a commit: handle, core, context (R298). -/
  holds : List (Nat × Nat × Nat) := []
  /-- (handle, generation) for which PIN_LOST was posted (R300). -/
  lost : List (Nat × Nat) := []
  deriving DecidableEq, Repr

/-! ### Host ports (15) -/

structure HostLink where
  up : Bool := false
  /-- The host has released the link's PERST_N input (R427). -/
  perst : Bool := false
  train : HostTrain := {}
  /-- Counts reported through AER (R348): FEC corrections, flit replays, flits with an error that could not be corrected. -/
  fec : Nat := 0
  replays : Nat := 0
  lostFlits : Nat := 0
  deriving DecidableEq, Repr

/-- A committed HDM decoder (R339). -/
structure Hdm where
  cfgd : HdmSet := {}
  committed : Bool := false
  error : Bool := false
  deriving DecidableEq, Repr

/-- An aperture slot (R336, R337): the request of its last GO, whether it is unanswered, its answer, and the reads that
the port holds. -/
structure Aper where
  req : Req := {}
  pending : Bool := false
  /-- The port has no entry for the request yet (R93, R108). -/
  waits : Bool := false
  answer : Option Answer := none
  reads : List (BitVec 12) := []
  deriving DecidableEq, Repr

/-- A line-table entry (R342); `recall` while BISnps for a home snoop, or an eviction, are open: the snoop's tag and
kind, and the halves still to answer. -/
structure LineEnt where
  win : Fin 64 := 0
  line : Nat := 0
  excl : Bool := false
  halves : BitVec 2 := 0
  image : Line := 0
  dirty : Bool := false
  /-- The host wrote poison into the image (R389). -/
  poison : Bool := false
  inc : BitVec 32 := 0
  snoop : Option (SnoopOp × BitVec 16) := none
  open_ : BitVec 2 := 0
  writing : Bool := false
  deriving DecidableEq, Repr

inductive HostOp where
  | read | write | cohS | cohA | inv
  deriving DecidableEq, Repr

/-- A host request open at the port (R340, R341, R346). -/
structure HostReq where
  win : Fin 64 := 0
  tag : BitVec 16 := 0
  op : HostOp := .read
  /-- The request it becomes, and the half of the line that it names. -/
  r : Req := {}
  half : Bool := false
  arrived : Nat := 0
  /-- Tag of the request sent to the home for it, when one is outstanding. -/
  sent : Option (BitVec 16) := none
  /-- Status of the NY held under HOLD, and when the reissue is due. -/
  retryAt : Option Nat := none
  /-- The hint of that NY. -/
  hint : BitVec 10 := 0
  deriving DecidableEq, Repr

structure Hp where
  links : List (Nat × HostLink) := []
  hdm : List (Nat × Hdm) := []
  aper : List (Nat × Aper) := []
  lines : List LineEnt := []
  reqs : List HostReq := []
  nextTag : Nat := 0x100
  /-- MSI-X vectors signalled and not masked off: window*256 + vector (R338). -/
  msix : List Nat := []
  viral : Bool := false
  /-- A recall before a warm reset or FALLOW is in progress, since (R351). -/
  recalling : Option Nat := none
  /-- Windows whose function-level reset waits for their outstanding requests (R350). -/
  flr : List (Fin 64) := []
  deriving DecidableEq, Repr

/-! ### Fabric links (16) -/

inductive LinkState where
  | down | training | active | refused
  deriving DecidableEq, Repr

inductive ModState where
  | absent | resetReleased | ready | active | lowPower
  deriving DecidableEq, Repr

structure FabLink where
  state : LinkState := .down
  /-- It has been ACTIVE since its last IDENT: the peer is known. -/
  known : Bool := false
  working : BitVec 5 := 0
  spare : Nat := 7
  inverted : BitVec 5 := 0
  order : List (Fin 5) := []
  /-- FEC mode code (Table 16-5). -/
  fec : BitVec 2 := 0
  peer : BitVec 16 := 0
  peerLink : BitVec 5 := 0
  /-- Next DATA sequence to send, next expected, last acknowledged by the peer (R365). -/
  txSeq : BitVec 12 := 0
  rxSeq : BitVec 12 := 0
  /-- Unacknowledged DATA flits, oldest first: sequence and bits (R366, R367). -/
  unacked : List (BitVec 12 × BitVec 2048) := []
  ackAt : Nat := 0
  sameReplays : Nat := 0
  replaySent : Option Nat := none
  /-- SPARE was sent and the substitution runs; or SPARE was received (R366, R369). -/
  spareSent : Bool := false
  /-- The lane that the SPARE sent names; 7 for none. -/
  retiring : Nat := 7
  spareHold : Option Nat := none
  narrowed : Bool := false
  /-- Credits held for sending, keyed vc*4 + bclass, and shared (R364). -/
  credits : List (Nat × Nat) := []
  shared : Nat := 0
  /-- Retrain wait in ns and the instant it ends (R381). -/
  wait : Nat := 1000000
  retrainAt : Option Nat := none
  /-- FEC change asked for and not yet echoed; the last change; below 1e-8 since (R360). -/
  fecAsk : Option (BitVec 2) := none
  fecAt : Nat := 0
  quietSince : Option Nat := none
  /-- Consecutive pulses while suspected, and the number of the last pulse (R402). -/
  heard : Nat := 0
  lastPulse : BitVec 32 := 0
  suspected : Bool := false
  module : ModState := .absent
  app : Nat := 0
  /-- Narrowed to one lane for FALLOW (R453). -/
  fallow : Bool := false
  /-- A drill holds the link (R420). -/
  drill : Bool := false
  /-- Bytes of the message stream received and not yet parsed (R362), and dedicated credits in use at this receiver (R364). -/
  rxBuf : List Byte := []
  rxUsed : List (Nat × Nat) := []
  /-- FEC modes the peer allows (Table 16-3). -/
  peerFec : BitVec 3 := 7
  /-- When the wait for ModuleReady ends (R379). -/
  moduleDue : Nat := 0
  deriving DecidableEq, Repr

/-- A message waiting to be forwarded (R374). -/
structure Fwd where
  id : Nat := 0
  m : FabMsg := {}
  at_ : Nat := 0
  /-- It lies in the shared pool of its arrival link (R364). -/
  pool : Bool := false
  /-- Its credits go back when it leaves its receive buffer; not so once its arrival link has gone down. -/
  owes : Bool := true
  deriving DecidableEq, Repr

/-- An answer's place in the reserve of its egress link, chosen when its request is accepted (R368): `link` is none when no link towards
the originator was left; `done` says that the answer has entered its commit point, `routed` that it has reached the fabric side. -/
structure AnsRes where
  iid : BitVec 16 := 0
  tag : BitVec 16 := 0
  dst : BitVec 16 := 0
  link : Option (Fin 24) := none
  done : Bool := false
  routed : Bool := false
  deriving DecidableEq, Repr

structure Fab where
  links : List (Nat × FabLink) := []
  /-- Path of each keyed flow: key, link and last use (R374). -/
  paths : List (Nat × (Nat × Nat)) := []
  fwd : List Fwd := []
  answers : List AnsRes := []
  nextMsg : Nat := 0
  /-- Fleet agent's removal of fenced devices from masks, and stand-in routing: FDN to FDN (R371, R407). -/
  redirect : List (Nat × Nat) := []
  /-- Time synchronisation (R376, R377). -/
  sync : Bool := false
  timeSet : Bool := false
  parent : Option (Fin 24) := none
  t1 : Option Word := none
  lastTsync : Nat := 0
  /-- Offset still to be slewed, in ns (R376). -/
  slew : Int := 0
  unsyncPosted : Bool := false
  deriving DecidableEq, Repr

/-! ### Errors, events and containment (17) -/

/-- An error record, Table 17-1 (R383). -/
structure ErrRec where
  cls : BitVec 5 := 0
  sev : BitVec 2 := 0
  code : BitVec 8 := 0
  block : BitVec 8 := 0
  inst : BitVec 8 := 0
  seq : BitVec 32 := 0
  time : Nat := 0
  gsa : Word := 0
  iid : BitVec 16 := 0
  fdn : BitVec 16 := 0
  comp : BitVec 24 := 0
  count : Nat := 1
  detail0 : BitVec 32 := 0
  detail1 : Word := 0
  detail2 : Word := 0
  detail3 : Word := 0
  deriving DecidableEq, Repr

/-- Device side of an event queue (R386, R388, R498). -/
structure Evq where
  tail : Nat := 0
  /-- The IID that claimed the queue (R498). -/
  iid : BitVec 16 := 0
  overflow : Bool := false
  waiting : List EventRec := []
  deriving DecidableEq, Repr

structure Ras where
  /-- The error log, oldest first, at most 2,048 records (R382). -/
  log : List ErrRec := []
  head : BitVec 32 := 0
  tail : BitVec 32 := 0
  /-- RAS_CNT, keyed 4*class + severity (R398). -/
  cnt : List (Nat × Nat) := []
  /-- CORRECTED occurrences in the present second, and the end of storm coalescing (R385). -/
  ceSince : Nat := 0
  ceCount : Nat := 0
  stormEnd : Option Nat := none
  evq : List (Nat × Evq) := []
  /-- Containment policy per composition, 0 CONTAIN (R395). -/
  policy : List (Nat × BitVec 2) := []
  contained : List Nat := []
  /-- This device's composition list: exposed count of each composition with an extent here, plus one (R394). -/
  comps : List (Nat × Nat) := []
  /-- Composition lists of the other cell members: member, composition, exposed count (R394). -/
  cellLists : List (BitVec 16 × Nat × Nat) := []
  /-- Instants of corrected errors per SRAM row within RAS_CE_WINDOW: block*2^24 + instance*2^16 + row (R399). -/
  rowCe : List (Nat × List Nat) := []
  /-- The log, HEAD and TAIL as programmed with the flush (R382). -/
  saved : Option (List ErrRec × BitVec 32 × BitVec 32) := none
  deriving DecidableEq, Repr

/-! ### Fleet (18) -/

inductive FleetState where
  | joining | member | isolated | fenced | spare | adopting
  deriving DecidableEq, Repr

/-- What this device does as stand-in of a fenced device (R410, R412-R414): reason of the fence, whether adoption has
started, candidates still to ask. -/
structure StandIn where
  subject : BitVec 16 := 0
  reason : BitVec 8 := 0
  started : Bool := false
  candidates : List (BitVec 16) := []
  asked : Option (BitVec 16) := none
  askedAt : Nat := 0
  deriving DecidableEq, Repr

/-- A wait of FLT_RETURN_WAIT after a DEPART or SELF fence (R396, R413). -/
structure ReturnWait where
  subject : BitVec 16 := 0
  due : Nat := 0
  deriving DecidableEq, Repr

/-- An extent fostered for a fenced home (R411). -/
structure Foster where
  home : BitVec 16 := 0
  ext : Nat := 0
  installed : Bool := false
  deriving DecidableEq, Repr

/-- A copy handed over or held with its ledger entry (R415). -/
structure Handoff where
  e : LedgerEnt := {}
  mine : Bool := true
  hand : HandState := {}
  copyId : Nat := 0
  /-- jsn of its record awaiting the control mirror's confirmation, before the step that it permits (R409, R416). -/
  waits : Option Nat := none
  deriving DecidableEq, Repr

structure Drill where
  kind : BitVec 8 := 0
  inst : BitVec 8 := 0
  target : BitVec 16 := 0
  length : Nat := 0
  start : Nat := 0
  running : Bool := false
  deriving DecidableEq, Repr

structure Flt where
  state : FleetState := .joining
  epoch : Nat := 0
  fenced : List (BitVec 16) := []
  /-- Last 4,096 (src_fdn, mseq) pairs of flooded messages, newest first (R401). -/
  seen : List (BitVec 16 × BitVec 32) := []
  nextMseq : BitVec 32 := 0
  /-- Voter lists kept: device and its voters (R403). -/
  voters : List (BitVec 16 × List (BitVec 16)) := []
  /-- Latest SUSPECT votes held: subject, voter (R404). -/
  votes : List (BitVec 16 × BitVec 16) := []
  holds : List (BitVec 16 × Nat) := []
  /-- Last pulse with susp = 0 per voter (R405). -/
  heard : List (Nat × Nat) := []
  pulseNo : BitVec 32 := 0
  joinAt : Nat := 0
  /-- Live members of the rack cell, in slot order: slot, FDN (R355, R409). -/
  cell : List (Nat × BitVec 16) := []
  /-- Control states kept for other devices (R409). -/
  kept : List CtlState := []
  /-- jsns of records awaiting the control mirror's confirmation (R409). -/
  ctlWait : List Nat := []
  standIn : List StandIn := []
  waits : List ReturnWait := []
  fosters : List Foster := []
  /-- Extents of the adopted FDN that their foster still serves, with the foster (R414). -/
  atFoster : List (Nat × BitVec 16) := []
  /-- FDN adopted by this device (R413). -/
  adopted : Option (BitVec 16) := none
  /-- Fenced FDNs that a spare has adopted: FDN, and the spare's own (R413). -/
  adoptions : List (BitVec 16 × BitVec 16) := []
  /-- A rejoin has been asked for (R414). -/
  rejoining : Bool := false
  /-- Devices whose SUSPECT votes are those of a drill (R420). -/
  drillVotes : List (BitVec 16) := []
  /-- Requested adoption accepted from this stand-in (R412). -/
  adopting : Option (BitVec 16) := none
  handoffs : List Handoff := []
  nextHandoff : BitVec 32 := 0
  /-- Drills accepted in the last 24 h, newest first, and the drill held (R420). -/
  drillTimes : List Nat := []
  drill : Option Drill := none
  /-- Fenced devices whose containment has started (R396). -/
  containedFor : List (BitVec 16) := []
  deriving DecidableEq, Repr

/-! ### Configuration, balls, Trellis, telemetry (19, 21, 23) -/

/-- The fuse map (R428, R438, R486). Values are those of the part as shipped. -/
structure Fuses where
  serial : Word := 1
  badCores : List Nat := []
  /-- SHA-384 digests of the four public keys: fixed per part, free values here (log 2). -/
  digests : List (BitVec 384) := (List.range 4).map Config.fuseDigest
  revoked : BitVec 4 := 0
  svn : Nat := 0
  attemptMax : Nat := 3
  /-- Lifecycle of Table 23-4: 0 DEVELOPMENT, 1 PRODUCTION, 2 SEALED. -/
  lifecycle : BitVec 2 := 1
  /-- Ball state code per group where it differs from Table 21-1: group, code. -/
  codes : List (Nat × BitVec 3) := []
  deriving DecidableEq, Repr

structure Cfg where
  /-- Bytes of the NOR (R433), erased bytes unlisted. -/
  nor : List Host.Cell := []
  fuses : Fuses := {}
  /-- CFG_STATUS fields (Table 19-10). -/
  state : BitVec 2 := 0
  copyB : Bool := false
  generation : BitVec 32 := 0
  resultA : BitVec 8 := 0
  resultB : BitVec 8 := 0
  /-- Security version and key slot of the running image (R438). -/
  secVersion : Nat := 0
  keySlot : Nat := 0
  /-- REGS entries applied at step 4, for reloads of RWI registers (R431, R437). -/
  entries : List (Nat × Word) := []
  /-- A NOR program or erase in progress: command and address (R442). -/
  norBusy : Option (BitVec 8 × Nat) := none
  norStatus : Status := .ok
  /-- MGMT_FW and NMC_RT loaded (R436). -/
  firmware : Bool := false
  deriving DecidableEq, Repr

/-- Levels of ball state (R432): pad, fuse state, or interface. -/
inductive BallPhase where
  | pad | fuse | interface
  deriving DecidableEq, Repr

structure Pins where
  phase : BallPhase := .pad
  /-- RST_PIN_MAP (R468), oldest first. -/
  map : List PinFinding := []
  /-- Balls switched to Hi-Z by a finding: group, ball. -/
  hiz : List (BitVec 16 × BitVec 16) := []
  /-- PINS section entries applied: group, code (R432). -/
  groupCodes : List (Nat × BitVec 3) := []
  /-- SMBus mapping decided: true when swapped (R469); last START seen in the decided orientation. -/
  smbSwapped : Option Bool := none
  smbLast : Nat := 0
  /-- THERMTRIP_N driven low (R460). -/
  thermtrip : Bool := false
  /-- Balls driven by EXTEST (R490). -/
  extest : List (BitVec 16 × Bool) := []
  deriving DecidableEq, Repr

structure Trl where
  challenge : Word := 0
  /-- Scopes open: observe, inject, extest (R487). -/
  scopes : BitVec 3 := 0
  expiry : Nat := 0
  status : Status := .ok
  fails : Nat := 0
  injectStatus : Status := .ok
  deriving DecidableEq, Repr

structure Tel where
  /-- Live counters of Table 23-8 by offset. -/
  live : List (Nat × Nat) := []
  /-- Margin samples: margin*1024 + index (R422), and next indexes. -/
  margin : List (Nat × Word) := []
  /-- Snapshot bank by offset (R492). -/
  bank : List (Nat × Word) := []
  busy : Bool := false
  seq : BitVec 32 := 0
  deriving DecidableEq, Repr

/-- A command register's completion register (Table 22-4). -/
structure Done where
  busy : Bool := false
  status : Status := .ok
  refused : Bool := false
  number : BitVec 16 := 0
  result : BitVec 32 := 0
  deriving DecidableEq, Repr

structure Regs where
  /-- Values of RW, RWI and RC registers by control-space offset, plus writer key * 2^25 for staging registers (R478); an
  unlisted register holds its value of R493. -/
  vals : List (Nat × Word) := []
  /-- Completion registers by the offset of the DONE register (R478). -/
  done : List (Nat × Done) := []
  deriving DecidableEq, Repr

/-! ### What the device presents at its boundaries -/

/-- One thing the device has presented: an answer at its commit point, a message, a signal. -/
inductive Out where
  /-- An answer entered its commit point (R107). -/
  | answer (ing : Ingress) (a : Answer)
  /-- A request routed to a home device, this one included (R26). -/
  | routed (dst : BitVec 16) (op : BitVec 6) (r : Req)
  /-- A coherence message to the agent of an IID (Table 06-4): opcode, tag, GSA of the line, data, status, hint, arg. -/
  | coh (iid : BitVec 16) (op : BitVec 6) (tag : BitVec 16) (gsa : Word) (data : Line) (st : Status) (hint : BitVec 10)
      (arg : Word)
  /-- A coherence message from a host port acting as agent towards the home (R342). -/
  | agent (win : Fin 64) (op : BitVec 6) (tag : BitVec 16) (line : Nat) (inc : BitVec 32) (data : Line)
      (poison : Bool)
  /-- CXL: a completion to a host request (Table 15-5) and a BISnp for a half. -/
  | cxlData (win : Fin 64) (tag : BitVec 16) (poison : Bool) (data : BitVec 512) (devLoad : BitVec 2)
  | cxlCmp (win : Fin 64) (tag : BitVec 16) (kind : BitVec 2) (devLoad : BitVec 2)
  | biSnp (win : Fin 64) (line : Nat) (half : Bool) (op : SnoopOp)
  | rspIHitI (port : Fin 4) (addr : BitVec 52)
  | rdCurr (port : Fin 4) (addr : BitVec 52)
  /-- An AER report of a host link: correctable or non-fatal (R348); and the completion of a function-level reset (R350). -/
  | aer (port : Fin 4) (lnk : Nat) (nonFatal : Bool)
  | flrDone (win : Fin 64)
  | aperture (win : Fin 64) (slot : BitVec 8) (off : BitVec 12) (v : Word)
  | msix (win : Fin 64) (vector : BitVec 8)
  | viral (port : Fin 4)
  /-- A journal mirror, a confirmation, a key or key-destroy message, a unit or stripe message on VC 4. -/
  | mirror (dst : BitVec 16) (j : JRec)
  | confirm (dst : BitVec 16) (jsn : Nat) (st : Status)
  | release (dst : BitVec 16) (jsn : Nat)
  | fetch (dst : BitVec 16) (lo : Nat) (hi : Option Nat)
  | fetched (dst : BitVec 16) (js : List JRec)
  | unit (dst : BitVec 16) (mu : Nat) (stripe : Option (Nat × Nat)) (data : List Byte)
  | unitAns (dst : BitVec 16) (mu : Nat) (st : Status)
  | memberData (dst : BitVec 16) (stripe : Nat) (member : Nat) (st : Status) (data : List Byte)
  | memberAsk (dst : BitVec 16) (home : BitVec 16) (stripe : Nat) (member : Nat)
  | key (dst : BitVec 16) (ext : Nat) (key : Nat)
  | keyDestroy (dst : BitVec 16) (ext : Nat)
  | keyGone (dst : BitVec 16) (ext : Nat)
  | ctlMirror (dst : BitVec 16) (c : CtlRec)
  | ctlConfirm (dst : BitVec 16) (k : CtlConfirm)
  /-- A fleet message (Table 18-3): type, destination (none: flooded), header, body words. -/
  | fleet (ty : BitVec 8) (dst : Option (BitVec 16)) (h : FleetHdr) (body : List Word)
  | handoff (ty : BitVec 8) (dst : BitVec 16) (e : LedgerEnt) (hand : HandState)
  /-- The control state of a fenced device, to the adopting spare (R413). -/
  | ctlState (dst : BitVec 16) (c : CtlState)
  | eventMsg (dst : BitVec 16) (e : EventRec)
  /-- Link messages (Table 16-9) and flits. -/
  | link (n : Fin 24) (ty : BitVec 8) (w : List Word)
  | flit (n : Fin 24) (seq : BitVec 12) (bits : BitVec 2048)
  | forward (n : Fin 24) (m : FabMsg)
  | deliver (m : FabMsg)
  /-- A registration with a counter's home, and its withdrawal (R100). -/
  | register (dst : BitVec 16) (copyId : Nat) (counter : Word) (iid : BitVec 16)
  | regAnswer (dst : BitVec 16) (copyId : Nat) (st : Status)
  | regDelete (dst : BitVec 16) (copyId : Nat)
  /-- A job and its completion between devices (R175). -/
  | job (dst : BitVec 16) (pair : Nat) (iid : BitVec 16) (desc : List Word)
  | jobDone (dst : BitVec 16) (pair : Nat) (words : List Word)
  | jobTaken (dst : BitVec 16) (pair : Nat) (tag : Nat)
  /-- Cuttings (R284, R285) and shard loads (R286). -/
  | cutRequest (dst : BitVec 16) (handle : Nat) (row : Nat)
  | cutGrant (dst : BitVec 16) (handle : Nat) (row : Nat) (lease : Nat) (lines : List Line)
  | cutRefuse (dst : BitVec 16) (handle : Nat) (row : Nat)
  | cutDrop (dst : BitVec 16) (handle : Nat) (row : Nat)
  | cutDropped (dst : BitVec 16) (handle : Nat) (row : Nat)
  | loads (dst : BitVec 16) (group : Nat) (total : Nat)
  /-- A moved shard's new entry, to every member of its group (R287 step 6). -/
  | shardEntry (dst : BitVec 16) (handle shard : Nat) (base win : Word)
  /-- The destination of a transplant is asked to assign extents with the source's fields (R287). -/
  | assignAsk (dst : BitVec 16) (exts : List (Nat × ExtDesc))
  /-- A register read or written through BAR0, MCTP or JTAG answered with this value. -/
  | regData (w : Writer) (off : Nat) (v : Word)
  /-- Supply, module and ball activity. -/
  | avs (step : Nat)
  | modReset (n : Fin 24) (released : Bool)
  | modApply (n : Fin 24) (app : Nat)
  | powerDown
  | configRetry (port : Fin 4)
  deriving DecidableEq, Repr

/-- The machine. -/
structure State where
  sys : Sys := {}
  ext : Ext := {}
  tier : Tier := {}
  flash : Flash := {}
  jrn : Jrn := {}
  home : Home := {}
  coh : Coh := {}
  /-- Ownership changes in progress (R154). -/
  own : List OwnChange := []
  nmc : Nmc := {}
  xlt : Xlt := {}
  cdc : Cdc := {}
  emb : Emb := {}
  prn : Prn := {}
  hp : Hp := {}
  fab : Fab := {}
  ras : Ras := {}
  flt : Flt := {}
  cfg : Cfg := {}
  pins : Pins := {}
  trl : Trl := {}
  tel : Tel := {}
  regs : Regs := {}
  /-- What the device has presented at its boundaries, oldest first (the model's own record). -/
  out : List Out := []
  /-- The model's own count of free values drawn (DESIGN CHOICE, log 2). -/
  free : Nat := 0
  /-- Waiting commands, first in first out. -/
  pending : List Instr := []
  deriving DecidableEq, Repr

/-- The machine at the release of a cold reset, before step 1 of Table 19-2 (R423, R426). Queues, tables and bookkeeping whose reset value
the spec does not give are empty or zero (DESIGN CHOICE, unsafe, log 61; unwritten bytes log 62; fuses PRESUMED, log 63). -/
def State.reset : State := {}

end Sys2Proof.Machine
end

