-- ==== Sys2Proof/Machine/Ops.lean ====
section
/-! DEFINITION. Named operations over tables, byte memories, bit fields and the sub-records of the state, and the
address fields of a GSA. Every later file reads and writes the state through them. -/

namespace Sys2Proof.Machine

open Sys2Proof

/-! ### Tables: key and value pairs, keys strictly rising, no entry equal to the default -/

/-- What key `k` reads as. -/
def Tab.get {α : Type} (d : α) : List (Nat × α) → Nat → α
  | [], _ => d
  | (j, v) :: t, k => if j = k then v else Tab.get d t k

/-- Set key `k`; the default removes the entry. -/
def Tab.put {α : Type} [DecidableEq α] (d : α) (k : Nat) (v : α) : List (Nat × α) → List (Nat × α)
  | [] => if v = d then [] else [(k, v)]
  | (j, w) :: t =>
    if j < k then (j, w) :: Tab.put d k v t
    else if j = k then (if v = d then t else (k, v) :: t)
    else if v = d then (j, w) :: t else (k, v) :: (j, w) :: t

/-- Apply `f` to the value of key `k`. -/
def Tab.upd {α : Type} [DecidableEq α] (d : α) (k : Nat) (f : α → α) (t : List (Nat × α)) : List (Nat × α) :=
  Tab.put d k (f (Tab.get d t k)) t

/-- Drop every key that satisfies `p`. -/
def Tab.drop {α : Type} (p : Nat → Bool) (t : List (Nat × α)) : List (Nat × α) :=
  t.filter fun e => !p e.1

/-- Canonical form: keys strictly rising above `lo`, no default value. -/
def Tab.wfFrom {α : Type} [DecidableEq α] (d : α) : Option Nat → List (Nat × α) → Bool
  | _, [] => true
  | lo, (k, v) :: t => (match lo with | none => true | some l => decide (l < k)) && decide (v ≠ d) && Tab.wfFrom d (some k) t

def Tab.wf {α : Type} [DecidableEq α] (d : α) (t : List (Nat × α)) : Bool := Tab.wfFrom d none t

/-! ### Byte memories: an unlisted address reads 0 (a fresh extent reads zero, R30; a frame never written is zero, R43) -/

/-- The canonical form of a memory. -/
abbrev Memory.wf (m : List Host.Cell) : Bool := Tab.wf (0 : Byte) m

/-- The byte at address `a`. -/
def readByte (m : List Host.Cell) (a : Nat) : Byte := Tab.get 0 m a

/-- Store one byte. -/
def writeByte (m : List Host.Cell) (a : Nat) (b : Byte) : List Host.Cell := Tab.put 0 a b m

/-- `n` bytes from `a` up. -/
def readBytes (m : List Host.Cell) : Nat → Nat → List Byte
  | _, 0 => []
  | a, n + 1 => readByte m a :: readBytes m (a + 1) n

/-- Store a list of bytes from `a` up. -/
def writeBytes (m : List Host.Cell) : Nat → List Byte → List Host.Cell
  | _, [] => m
  | a, b :: bs => writeBytes (writeByte m a b) (a + 1) bs

/-- Zero every byte of `[lo, hi)`. -/
def clearSpan (m : List Host.Cell) (lo hi : Nat) : List Host.Cell :=
  Tab.drop (fun a => decide (lo ≤ a ∧ a < hi)) m

/-- Store every cell of a list. -/
def writeCells (m src : List Host.Cell) : List Host.Cell := src.foldl (fun m c => writeByte m c.1 c.2) m

/-- Replace `[lo, hi)` of `m` by the same span of `src`. -/
def copySpan (m src : List Host.Cell) (lo hi : Nat) : List Host.Cell :=
  writeCells (clearSpan m lo hi) (src.filter fun c => decide (lo ≤ c.1 ∧ c.1 < hi))

/-! ### Bytes, lines and words (R5: little-endian) -/

/-- The number a list of bytes spells, byte 0 least significant. -/
def natOfBytes : List Byte → Nat
  | [] => 0
  | b :: bs => b.toNat + 256 * natOfBytes bs

/-- The low `n` bytes of a number. -/
def bytesOfNat : Nat → Nat → List Byte
  | 0, _ => []
  | n + 1, v => BitVec.ofNat 8 v :: bytesOfNat n (v / 256)

def lineOfBytes (bs : List Byte) : Line := BitVec.ofNat 1024 (natOfBytes bs)
def bytesOfLine (l : Line) : List Byte := bytesOfNat 128 l.toNat
def wordOfBytes (bs : List Byte) : Word := BitVec.ofNat 64 (natOfBytes bs)
def bytesOfWord (w : Word) : List Byte := bytesOfNat 8 w.toNat

/-- Words of a byte string, eight bytes each. -/
def wordsOfBytes : Nat → List Byte → List Word
  | 0, _ => []
  | n + 1, bs => wordOfBytes (bs.take 8) :: wordsOfBytes n (bs.drop 8)

def bytesOfWords (ws : List Word) : List Byte := ws.flatMap bytesOfWord

/-- Word `i` of a list, zero where there is none. -/
def wordAt (ws : List Word) (i : Nat) : Word := ws.getD i 0

/-- Bits `[h:l]` of a word, as a number. -/
def fld (w : Word) (h l : Nat) : Nat := w.toNat / 2 ^ l % 2 ^ (h + 1 - l)

/-- Bit `n` of a word. -/
def bitOf (w : Word) (n : Nat) : Bool := w.getLsbD n

/-- A field of value `v` at bit `l`, as a word. -/
def put (l : Nat) (v : Nat) : Word := BitVec.ofNat 64 (v * 2 ^ l)

/-- Replace bits `[h:l]` of `w` by `v`. -/
def setFld (w : Word) (h l : Nat) (v : Nat) : Word :=
  let m := put l (2 ^ (h + 1 - l) - 1)
  (w &&& ~~~m) ||| (put l v &&& m)

def bit01 (b : Bool) : Nat := if b then 1 else 0

/-- Serial-number order of a `w`-bit counter (R8). -/
def seqLt (w : Nat) (a b : Nat) : Bool :=
  let d := (b + (2 ^ w - a % 2 ^ w)) % 2 ^ w
  decide (d ≠ 0 ∧ d < 2 ^ (w - 1))

/-- Rounded up division. -/
def ceilDiv (a b : Nat) : Nat := (a + b - 1) / b

/-! ### The GSA (R16, R17, R39) -/

def fdnOf (g : Word) : BitVec 16 := g.extractLsb' 48 16
def offOf (g : Word) : Nat := g.toNat % 2 ^ 48

/-- Fields of an address of this device's store, a store offset GSA[47:0] (for a fostered extent with its FDN's place above
it, `addr` in Machine/RegMap.lean): line GSA[47:7], frame GSA[47:14], mapping unit GSA[47:16], extent GSA[47:30], granule within
the extent GSA[29:21], and extent and granule together GSA[47:21]. -/
def lineOf (a : Nat) : Nat := a / 128
def frameOf (a : Nat) : Nat := a / 16384
def muOf (a : Nat) : Nat := a / 65536
def extOf (a : Nat) : Nat := a / 2 ^ 30
def granOf (a : Nat) : Nat := a / 2 ^ 21 % 512
def granKey (a : Nat) : Nat := a / 2 ^ 21
def extOfLine (l : Nat) : Nat := l / 2 ^ 23

/-- Slice of a line (R17). -/
def sliceOf (a : Nat) : Nat :=
  Nat.xor (Nat.xor (a / 2 ^ 7 % 32) (a / 2 ^ 12 % 32)) (a / 2 ^ 17 % 32)

/-- GSA of an offset on device `f`. -/
def mkGsa (f : BitVec 16) (off : Nat) : Word := BitVec.ofNat 64 (f.toNat * 2 ^ 48 + off % 2 ^ 48)

/-! ### Status codes (Table 05-6) -/

def stCode : Status → Nat
  | .ok => 0 | .ny => 1 | .poison => 2 | .denied => 3 | .noExtent => 4 | .revoked => 5 | .wrongForm => 6
  | .fenced => 7 | .abandoned => 8 | .deviceLost => 9 | .checkFail => 10 | .queueFull => 11 | .fewer => 12
  | .malformed => 13 | .internal => 14 | .conflict => 15 | .busy => 16

/-! ### One setter per sub-record -/

def State.modSys (s : State) (f : Sys → Sys) : State := { s with sys := f s.sys }
def State.modExt (s : State) (f : Ext → Ext) : State := { s with ext := f s.ext }
def State.modTier (s : State) (f : Tier → Tier) : State := { s with tier := f s.tier }
def State.modFlash (s : State) (f : Flash → Flash) : State := { s with flash := f s.flash }
def State.modJrn (s : State) (f : Jrn → Jrn) : State := { s with jrn := f s.jrn }
def State.modHome (s : State) (f : Home → Home) : State := { s with home := f s.home }
def State.modCoh (s : State) (f : Coh → Coh) : State := { s with coh := f s.coh }
def State.modOwn (s : State) (f : List OwnChange → List OwnChange) : State := { s with own := f s.own }
def State.modNmc (s : State) (f : Nmc → Nmc) : State := { s with nmc := f s.nmc }
def State.modXlt (s : State) (f : Xlt → Xlt) : State := { s with xlt := f s.xlt }
def State.modCdc (s : State) (f : Cdc → Cdc) : State := { s with cdc := f s.cdc }
def State.modEmb (s : State) (f : Emb → Emb) : State := { s with emb := f s.emb }
def State.modPrn (s : State) (f : Prn → Prn) : State := { s with prn := f s.prn }
def State.modHp (s : State) (f : Hp → Hp) : State := { s with hp := f s.hp }
def State.modFab (s : State) (f : Fab → Fab) : State := { s with fab := f s.fab }
def State.modRas (s : State) (f : Ras → Ras) : State := { s with ras := f s.ras }
def State.modFlt (s : State) (f : Flt → Flt) : State := { s with flt := f s.flt }
def State.modCfg (s : State) (f : Cfg → Cfg) : State := { s with cfg := f s.cfg }
def State.modPins (s : State) (f : Pins → Pins) : State := { s with pins := f s.pins }
def State.modTrl (s : State) (f : Trl → Trl) : State := { s with trl := f s.trl }
def State.modTel (s : State) (f : Tel → Tel) : State := { s with tel := f s.tel }
def State.modRegs (s : State) (f : Regs → Regs) : State := { s with regs := f s.regs }

/-- Present something at a boundary. -/
def emit (o : Out) (s : State) : State := { s with out := s.out ++ [o] }

/-- Present several things in order. -/
def emitAll (os : List Out) (s : State) : State := { s with out := s.out ++ os }

/-- Draw a free value: the index to hand to an opaque constant of Config. -/
def State.draw (s : State) : State := { s with free := s.free + 1 }

/-- The time base (R375). -/
def now (s : State) : Nat := s.sys.time

/-- Advance the time base to the instant `t` at which a timer runs out; it never runs backwards (R445). -/
def reach (t : Nat) (s : State) : State := s.modSys fun y => { y with time := Nat.max y.time t }

/-- When a period last began (R4). -/
def began (s : State) (k : Timer) : Nat :=
  match s.sys.marks.find? (·.1 == k) with | some e => e.2 | none => 0

/-- A period begins at the present instant (R4). -/
def beginTimer (k : Timer) (s : State) : State :=
  s.modSys fun y => { y with marks := y.marks.filter (·.1 != k) ++ [(k, y.time)] }

/-- A period of `ns` has run its length; the next one begins (R4). -/
def elapsed (k : Timer) (ns : Nat) (s : State) : State := beginTimer k (reach (began s k + ns) s)

/-- Apply `f` where the optional value is there. -/
def withSome {α : Type} (o : Option α) (f : α → State → State) (s : State) : State :=
  match o with
  | none => s
  | some a => f a s

/-- Apply `f` when `b` holds. -/
def onlyIf (b : Bool) (f : State → State) (s : State) : State := if b then f s else s

/-- Fold a list of effects over the state. -/
def forAll {α : Type} (l : List α) (f : α → State → State) (s : State) : State :=
  l.foldl (fun t a => f a t) s

/-- First element satisfying `p`, replaced by `f` of it. -/
def modFirst {α : Type} (p : α → Bool) (f : α → α) : List α → List α
  | [] => []
  | a :: l => if p a then f a :: l else a :: modFirst p f l

/-- The command completes: the device reaches its next state and the waiting commands stay as they are. -/
def complete (f : State → State) (s : State) : Host.Outcome State Fault Refusal :=
  .next { f s with pending := s.pending }

/-- Entries between two indexes of a ring. -/
def ringDist (size lo hi : Nat) : Nat := (hi + size - lo % Nat.max 1 size) % Nat.max 1 size

end Sys2Proof.Machine
end

