-- ==== Sys2Proof/Machine/Operands.lean ====
section
/-! DEFINITION. The operand forms of the stations and atomics: the number formats of Tables 09-1 and 09-2, the numbers
they stand for, exact sums and products, and the one rounding to nearest, ties to even (R194-R203, R96). -/

namespace Sys2Proof.Machine

open Sys2Proof

/-- A value of a float-class operand: NaN, an infinity, or sign and magnitude `m * 2^e`, a zero keeping its sign. -/
inductive Num where
  | nan
  | inf (neg : Bool)
  | fin (neg : Bool) (m : Nat) (e : Int)
  deriving DecidableEq, Repr

/-- A floating-point encoding (Table 09-2): field widths, bias, and how the top exponent is used. -/
inductive Top where
  | ieee   -- infinities and NaNs
  | nan1   -- E4M3: one NaN pattern, no infinity
  | all    -- every pattern finite
  deriving DecidableEq, Repr

structure FFmt where
  eb : Nat
  mb : Nat
  bias : Nat
  top : Top
  deriving DecidableEq, Repr

def fp64 : FFmt := ⟨11, 52, 1023, .ieee⟩
def fp32 : FFmt := ⟨8, 23, 127, .ieee⟩
def bf16 : FFmt := ⟨8, 7, 127, .ieee⟩
def fp16 : FFmt := ⟨5, 10, 15, .ieee⟩
def e4m3 : FFmt := ⟨4, 3, 7, .nan1⟩
def e5m2 : FFmt := ⟨5, 2, 15, .ieee⟩
def e3m2 : FFmt := ⟨3, 2, 3, .all⟩
def e2m3 : FFmt := ⟨2, 3, 1, .all⟩
def e2m1 : FFmt := ⟨2, 1, 1, .all⟩

def FFmt.bits (f : FFmt) : Nat := 1 + f.eb + f.mb

/-- The value of a pattern. -/
def FFmt.dec (f : FFmt) (x : Nat) : Num :=
  let neg := decide (x / 2 ^ (f.eb + f.mb) % 2 = 1)
  let ex := x / 2 ^ f.mb % 2 ^ f.eb
  let m := x % 2 ^ f.mb
  if f.top = .ieee ∧ ex = 2 ^ f.eb - 1 then (if m = 0 then .inf neg else .nan)
  else if f.top = .nan1 ∧ ex = 2 ^ f.eb - 1 ∧ m = 2 ^ f.mb - 1 then .nan
  else if ex = 0 then .fin neg m (1 - (f.bias : Int) - f.mb)
  else .fin neg (2 ^ f.mb + m) ((ex : Int) - f.bias - f.mb)

/-- Magnitude pattern of the largest finite value. -/
def FFmt.maxFin (f : FFmt) : Nat :=
  match f.top with
  | .ieee => (2 ^ f.eb - 1) * 2 ^ f.mb - 1
  | .nan1 => 2 ^ (f.eb + f.mb) - 2
  | .all => 2 ^ (f.eb + f.mb) - 1

/-- The canonical quiet NaN (R199). E3M2, E2M3 and E2M1 have none and hold zero there (R200). -/
def FFmt.qnan (f : FFmt) : Nat :=
  match f.top with
  | .ieee => (2 ^ f.eb - 1) * 2 ^ f.mb + 2 ^ (f.mb - 1)
  | .nan1 => 2 ^ (f.eb + f.mb) - 1
  | .all => 0

def FFmt.infBits (f : FFmt) : Nat := (2 ^ f.eb - 1) * 2 ^ f.mb

/-- `m * 2^k` rounded to an integer, ties to even. -/
def rneShift (m : Nat) (k : Int) : Nat :=
  if 0 ≤ k then m * 2 ^ k.toNat
  else
    let d := 2 ^ (-k).toNat
    let q := m / d
    let r := m % d
    if 2 * r > d ∨ (2 * r = d ∧ q % 2 = 1) then q + 1 else q

/-- Magnitude pattern of `m * 2^e` rounded to nearest, ties to even, with an unbounded exponent above; subnormals are
kept. A pattern above `maxFin` is an overflow. -/
def FFmt.round (f : FFmt) (m : Nat) (e : Int) : Nat :=
  if m = 0 then 0
  else
    let msb : Int := (Nat.log2 m : Int) + e
    let u : Int := if msb - f.mb < 1 - (f.bias : Int) - f.mb then 1 - (f.bias : Int) - f.mb else msb - f.mb
    let q := rneShift m (e - u)
    -- q < 2^mb only for subnormals, whose exponent field is 0
    (q + (u + f.bias + f.mb - 1).toNat * 2 ^ f.mb)

def FFmt.sign (f : FFmt) (neg : Bool) : Nat := if neg then 2 ^ (f.eb + f.mb) else 0

/-! ### Exact arithmetic -/

def Num.isNan : Num → Bool
  | .nan => true
  | _ => false

def Num.isInf : Num → Bool
  | .inf _ => true
  | _ => false

def Num.isFin : Num → Bool
  | .fin _ _ _ => true
  | _ => false

def Num.neg : Num → Bool
  | .nan => false
  | .inf n => n
  | .fin n _ _ => n

def Num.isZero : Num → Bool
  | .fin _ m _ => decide (m = 0)
  | _ => false

/-- Exact product; an infinity multiplied by zero is NaN (R203). -/
def Num.mul : Num → Num → Num
  | .nan, _ => .nan
  | _, .nan => .nan
  | .inf a, .inf b => .inf (a != b)
  | .inf a, .fin b m _ => if m = 0 then .nan else .inf (a != b)
  | .fin a m _, .inf b => if m = 0 then .nan else .inf (a != b)
  | .fin a m e, .fin b n g => .fin (a != b) (m * n) (e + g)

def Num.negate : Num → Num
  | .nan => .nan
  | .inf n => .inf !n
  | .fin n m e => .fin (!n) m e

/-- Multiply by a power of two. -/
def Num.scale (k : Int) : Num → Num
  | .fin n m e => .fin n m (e + k)
  | x => x

/-- Exact sum of finite dyadics, as mantissa and exponent. -/
def dySum : List (Int × Int) → Int × Int
  | [] => (0, 0)
  | (m, e) :: l =>
    let (n, g) := dySum l
    if e ≤ g then (m + n * 2 ^ (g - e).toNat, e) else (m * 2 ^ (e - g).toNat + n, g)

def Num.dy : Num → Int × Int
  | .fin n m e => (if n then -(m : Int) else m, e)
  | _ => (0, 0)

def numOfInt (m : Int) (e : Int) : Num := .fin (decide (m < 0)) m.natAbs e

/-- The exact sum of a list of terms with the special values of R203; the list is not empty. -/
def exactSum (l : List Num) : Num :=
  if l.any Num.isNan then .nan
  else if l.any Num.isInf then
    if (l.any fun x => x.isInf && x.neg) && (l.any fun x => x.isInf && !x.neg) then .nan
    else .inf (l.any fun x => x.isInf && x.neg)
  else
    let (m, e) := dySum (l.map Num.dy)
    if m = 0 then .fin (l.all fun x => x.isZero && x.neg) 0 0 else numOfInt m e

/-- Order of finite or infinite values: is `a < b` as numbers? NaN compares false. -/
def Num.lt : Num → Num → Bool
  | .nan, _ => false
  | _, .nan => false
  | .inf a, .inf b => a && !b
  | .inf a, .fin _ _ _ => a
  | .fin _ _ _, .inf b => !b
  | .fin a m e, .fin b n g =>
    let (d, _) := dySum [Num.dy (.fin a m e), Num.dy (.fin (!b) n g)]
    decide (d < 0)

/-- Equal as numbers, +0 and -0 alike. -/
def Num.eqv (a b : Num) : Bool := !a.isNan && !b.isNan && !a.lt b && !b.lt a

/-! ### Results in one format -/

/-- The pattern of a value in a format that has infinities, rounded once (R203 rule 4). -/
def FFmt.enc (f : FFmt) : Num → Nat
  | .nan => f.qnan
  | .inf n => f.sign n + f.infBits
  | .fin n m e =>
    let r := f.round m e
    f.sign n + (if f.maxFin < r then f.infBits else r)

def encF32 (x : Num) : BitVec 32 := BitVec.ofNat 32 (fp32.enc x)
def decF32 (x : BitVec 32) : Num := fp32.dec x.toNat

/-- minimumNumber and maximumNumber (R96): -0 orders below +0; a NaN with a number gives the number. -/
def numLtZ (a b : Num) : Bool := a.lt b || (a.isZero && b.isZero && a.neg && !b.neg)

def minNumber (f : FFmt) (x y : Nat) : Nat :=
  let a := f.dec x
  let b := f.dec y
  if a.isNan && b.isNan then f.qnan else if a.isNan then y else if b.isNan then x
  else if numLtZ b a then y else x

def maxNumber (f : FFmt) (x y : Nat) : Nat :=
  let a := f.dec x
  let b := f.dec y
  if a.isNan && b.isNan then f.qnan else if a.isNan then y else if b.isNan then x
  else if numLtZ a b then y else x

/-- Floating-point addition of R96. -/
def addF (f : FFmt) (x y : Nat) : Nat := f.enc (exactSum [f.dec x, f.dec y])

/-- Correctly rounded quotient: 96 quotient bits and a sticky bit decide every rounding of FP32. -/
def divNum : Num → Num → Num
  | .nan, _ => .nan
  | _, .nan => .nan
  | .inf _, .inf _ => .nan
  | .inf a, .fin b _ _ => .inf (a != b)
  | .fin a _ _, .inf b => .fin (a != b) 0 0
  | .fin a m e, .fin b n g =>
    if n = 0 then (if m = 0 then .nan else .inf (a != b))
    else
      let p := 96 + Nat.log2 n
      let q := m * 2 ^ p / n
      let st := if m * 2 ^ p % n = 0 then 0 else 1
      .fin (a != b) (2 * q + st) (e - g - p - 1)

/-- Integer square root by bits, from bit `k` down. -/
def isqrtFrom (n : Nat) : Nat → Nat → Nat
  | 0, r => r
  | k + 1, r => isqrtFrom n k (if (r + 2 ^ k) * (r + 2 ^ k) ≤ n then r + 2 ^ k else r)

/-- Floor of the square root of a number below `2^(2k)`. -/
def isqrt (k n : Nat) : Nat := isqrtFrom n k 0

/-- Correctly rounded square root of an FP32 value. -/
def sqrtNum : Num → Num
  | .nan => .nan
  | .inf n => if n then .nan else .inf false
  | .fin n m e =>
    if m = 0 then .fin n 0 0
    else if n then .nan
    else
      let odd : Bool := decide (e % 2 ≠ 0)
      let k : Nat := 160
      let m' := m * 2 ^ (k + if odd then 1 else 0)
      let r := isqrt 128 m'
      let st := if r * r = m' then 0 else 1
      .fin false (2 * r + st) ((e - (if odd then 1 else 0) - k) / 2 - 1)

/-! ### Element formats (Table 09-1) -/

/-- Bits per element; none for a reserved code. -/
def fmtBits (fmt : Nat) : Option Nat :=
  match fmt with
  | 0x00 => some 8 | 0x01 => some 32 | 0x02 => some 16 | 0x03 => some 16 | 0x04 => some 8 | 0x05 => some 8
  | 0x08 => some 32 | 0x09 => some 8 | 0x0A => some 8 | 0x0B => some 4
  | 0x10 => some 8 | 0x11 => some 8 | 0x12 => some 6 | 0x13 => some 6 | 0x14 => some 4 | 0x15 => some 8
  | 0x18 => some 4 | 0x19 => some 8 | 0x1A => some 12 | 0x1C => some 64
  | _ => none

def fmtIsMx (fmt : Nat) : Bool := decide (0x10 ≤ fmt ∧ fmt ≤ 0x15)
def fmtIsInt (fmt : Nat) : Bool := decide (0x08 ≤ fmt ∧ fmt ≤ 0x0B)
def fmtIsFloat (fmt : Nat) : Bool := decide (0x01 ≤ fmt ∧ fmt ≤ 0x05) || fmtIsMx fmt
def fmtIsCode (fmt : Nat) : Bool := decide (0x18 ≤ fmt ∧ fmt ≤ 0x1A)

/-- The encoding of a float element, MXINT8 apart. -/
def fmtFloat (fmt : Nat) : Option FFmt :=
  match fmt with
  | 0x01 => some fp32 | 0x02 => some bf16 | 0x03 => some fp16 | 0x04 => some e4m3 | 0x05 => some e5m2
  | 0x10 => some e4m3 | 0x11 => some e5m2 | 0x12 => some e3m2 | 0x13 => some e2m3 | 0x14 => some e2m1
  | _ => none

/-- Two's complement value of a `b`-bit pattern. -/
def sInt (b x : Nat) : Int := if x % 2 ^ b < 2 ^ (b - 1) then ((x % 2 ^ b : Nat) : Int) else ((x % 2 ^ b : Nat) : Int) - (2 : Int) ^ b

/-- Pattern of an integer in `b` bits, modulo 2^b. -/
def uBits (b : Nat) (v : Int) : Nat := (v % (2 : Int) ^ b).toNat

/-- Value of an integer element (R196). -/
def intElem (fmt x : Nat) : Int :=
  match fmt with
  | 0x08 => sInt 32 x
  | 0x09 => sInt 8 x
  | 0x0A => ((x % 256 : Nat) : Int)
  | _ => sInt 4 x

/-- Value of a float element before its block scale (R195, R196). -/
def floatElem (fmt x : Nat) : Num :=
  if fmt = 0x15 then (let v := sInt 8 x; .fin (decide (v < 0)) v.natAbs (-6))
  else
    match fmtFloat fmt with
    | some f => f.dec x
    | none => .nan

/-- Value of an MX element under its scale byte (R196). -/
def mxElem (fmt x scale : Nat) : Num := if scale = 0xFF then .nan else (floatElem fmt x).scale ((scale : Int) - 127)

/-- Range of an integer format (Table 09-3). -/
def intRange (fmt : Nat) : Int × Int :=
  match fmt with
  | 0x08 => (-2147483648, 2147483647)
  | 0x09 => (-128, 127)
  | 0x0A => (0, 255)
  | _ => (-8, 7)

/-- `m * 2^e`, signed, rounded to an integer, ties to even. -/
def roundInt (neg : Bool) (m : Nat) (e : Int) : Int := if neg then -(rneShift m e : Int) else rneShift m e

/-- floor(log2) of a positive dyadic. -/
def floorLog2 (m : Nat) (e : Int) : Int := (Nat.log2 m : Int) + e

/-- emax of an MX element format (R200). -/
def mxEmax (fmt : Nat) : Int :=
  match fmt with
  | 0x10 => 8 | 0x11 => 15 | 0x12 => 4 | 0x13 => 2 | 0x14 => 2 | _ => 0

end Sys2Proof.Machine
end

