-- ==== Sys2Proof/Machine/Flags.lean ====
section
/-! DEFINITION. The operations of TILLER, RAKE, SIEVE and the atomics on single operands, with the sticky flags they
set in NMC_ARITH_STATUS (R95, R96, R199-R213, R220). -/

namespace Sys2Proof.Machine

open Sys2Proof

/-- NMC_ARITH_STATUS bits (Table 09-10). -/
def flNan : BitVec 5 := 1
def flOverflow : BitVec 5 := 2
def flIntSat : BitVec 5 := 4
def flCvtSat : BitVec 5 := 8
def flMxNan : BitVec 5 := 16

/-- A flag when a condition holds. -/
def flagIf (b : Bool) (f : BitVec 5) : BitVec 5 := if b then f else 0

/-- Union of flags. -/
def orFlags (l : List (BitVec 5)) : BitVec 5 := l.foldl (· ||| ·) 0

/-- Flags of an FP32 operation from its inputs and its exact result (Table 09-10): NaN from no NaN, infinity from finite. -/
def fpFlags (ins : List Num) (res : Num) : BitVec 5 :=
  let r := decF32 (encF32 res)
  flagIf (r.isNan && !(ins.any Num.isNan)) flNan ||| flagIf (r.isInf && ins.all Num.isFin) flOverflow

/-- An exact FP32 result rounded once, with its flags. -/
def fpResult (ins : List Num) (res : Num) : BitVec 32 × BitVec 5 := (encF32 res, fpFlags ins res)

/-! ### Conversions (R199, R200, Table 09-3) -/

/-- Convert to a float format without block scale. -/
def cvtFloat (f : FFmt) (sat : Bool) (x : Num) : Nat × BitVec 5 :=
  match x with
  | .nan => (f.qnan, 0)
  | .inf n =>
    if sat then (f.sign n + f.maxFin, flCvtSat)
    else if f.top = .ieee then (f.sign n + f.infBits, 0) else (f.qnan, flNan)
  | .fin n m e =>
    let r := f.round m e
    if f.maxFin < r then
      if sat then (f.sign n + f.maxFin, flCvtSat)
      else if f.top = .ieee then (f.sign n + f.infBits, flOverflow) else (f.qnan, flCvtSat ||| flNan)
    else (f.sign n + r, 0)

/-- Clamp to a range; the flag says whether it saturated. -/
def clampInt (lo hi v : Int) : Int × BitVec 5 :=
  if v < lo then (lo, flIntSat) else if hi < v then (hi, flIntSat) else (v, 0)

/-- Convert to an integer format. -/
def cvtInt (fmt : Nat) (x : Num) : Nat × BitVec 5 :=
  let (lo, hi) := intRange fmt
  let b := (fmtBits fmt).getD 8
  match x with
  | .nan => (0, 0)
  | .inf n => (uBits b (if n then lo else hi), flIntSat)
  | .fin n m e =>
    let (v, f) := clampInt lo hi (roundInt n m e)
    (uBits b v, f)

/-- Convert a single element; MX formats are converted by blocks. -/
def cvtElem (fmt : Nat) (sat : Bool) (x : Num) : Nat × BitVec 5 :=
  match fmtFloat fmt with
  | some f => cvtFloat f sat x
  | none => cvtInt fmt x

/-- The largest magnitude of a block, as a dyadic. -/
def absMax (l : List Num) : Nat × Int :=
  l.foldl (fun a x => match x with
    | .fin _ m e => if Num.lt (.fin false a.1 a.2) (.fin false m e) then (m, e) else a
    | _ => a) (0, 0)

/-- An element of an MX block with scale exponent `E`. -/
def mxEnc (fmt : Nat) (sat : Bool) (E : Int) (x : Num) : Nat × BitVec 5 :=
  match x with
  | .fin n m e =>
    if fmt = 0x15 then
      let v := roundInt n m (e - E + 6)
      let (w, f) := clampInt (-127) 127 v
      (uBits 8 w, if f = 0 then 0 else flagIf sat flCvtSat)
    else
      match fmtFloat fmt with
      | some f =>
        let r := f.round m (e - E)
        if f.maxFin < r then (f.sign n + f.maxFin, flagIf sat flCvtSat) else (f.sign n + r, 0)
      | none => (0, 0)
  | _ => (0, 0)

/-- Convert a block of 32 values: scale byte, elements and flags (R200). A block with an infinity and no NaN sets mx_nan alone
(log 46). -/
def cvtBlock (fmt : Nat) (sat : Bool) (l : List Num) : Nat × List Nat × BitVec 5 :=
  if l.any (fun x => !x.isFin) then (0xFF, l.map (fun _ => 0), flMxNan)
  else
    let (m, e) := absMax l
    let E0 := if m = 0 then -127 else floorLog2 m e - mxEmax fmt
    let E := if E0 < -127 then -127 else if 127 < E0 then 127 else E0
    let r := l.map (mxEnc fmt sat E)
    ((E + 127).toNat, r.map (·.1), orFlags (r.map (·.2)))

/-- Widening of an element into FP32 (R208): exact for the plain formats, rounded or overflowing for a scaled one. -/
def widen (x : Num) : BitVec 32 × BitVec 5 := fpResult [x] x

/-! ### Chunk steps (R202-R204) -/

/-- One float chunk step: the accumulator and the products, summed exactly and rounded once. -/
def chunkF (acc : BitVec 32) (as bs : List Num) : BitVec 32 × BitVec 5 :=
  fpResult (decF32 acc :: (as ++ bs)) (exactSum (decF32 acc :: List.zipWith Num.mul as bs))

/-- One integer chunk step, saturating (R204). -/
def chunkI (acc : BitVec 32) (as bs : List Int) : BitVec 32 × BitVec 5 :=
  let (v, f) := clampInt (-2147483648) 2147483647 (acc.toInt + (List.zipWith (· * ·) as bs).foldl (· + ·) 0)
  (BitVec.ofInt 32 v, f)

/-! ### RAKE lanes (Table 09-6) -/

def laneAdd (x y : BitVec 32) : BitVec 32 × BitVec 5 :=
  fpResult [decF32 x, decF32 y] (exactSum [decF32 x, decF32 y])
def laneSub (x y : BitVec 32) : BitVec 32 × BitVec 5 :=
  fpResult [decF32 x, decF32 y] (exactSum [decF32 x, (decF32 y).negate])
def laneMul (x y : BitVec 32) : BitVec 32 × BitVec 5 :=
  fpResult [decF32 x, decF32 y] ((decF32 x).mul (decF32 y))
def laneFma (z x y : BitVec 32) : BitVec 32 × BitVec 5 :=
  fpResult [decF32 x, decF32 y, decF32 z] (exactSum [(decF32 x).mul (decF32 y), decF32 z])
def laneMin (x y : BitVec 32) : BitVec 32 × BitVec 5 := (BitVec.ofNat 32 (minNumber fp32 x.toNat y.toNat), 0)
def laneMax (x y : BitVec 32) : BitVec 32 × BitVec 5 := (BitVec.ofNat 32 (maxNumber fp32 x.toNat y.toNat), 0)
def laneAbs (x : BitVec 32) : BitVec 32 × BitVec 5 := (x &&& 0x7FFFFFFF, 0)
def laneNeg (x : BitVec 32) : BitVec 32 × BitVec 5 := (x ^^^ 0x80000000, 0)
def laneDiv (x y : BitVec 32) : BitVec 32 × BitVec 5 :=
  let r := divNum (decF32 x) (decF32 y)
  (encF32 r, fpFlags [decF32 x, decF32 y] r)
def laneRecip (x : BitVec 32) : BitVec 32 × BitVec 5 := laneDiv 0x3F800000 x
def laneSqrt (x : BitVec 32) : BitVec 32 × BitVec 5 := fpResult [decF32 x] (sqrtNum (decF32 x))

/-- Comparison codes eq, ne, lt, le, gt, ge; any NaN compares false except ne. -/
def laneCmp (c : Nat) (x y : BitVec 32) : BitVec 32 × BitVec 5 :=
  let a := decF32 x
  let b := decF32 y
  let n := a.isNan || b.isNan
  let r := match c with
    | 0 => a.eqv b
    | 1 => !a.eqv b
    | 2 => a.lt b
    | 3 => !n && !b.lt a
    | 4 => b.lt a
    | _ => !n && !a.lt b
  (if r then 1 else 0, 0)

def laneLogic (c : Nat) (x y : BitVec 32) : BitVec 32 × BitVec 5 :=
  (match c with
    | 0 => x &&& y
    | 1 => x ||| y
    | 2 => x ^^^ y
    | _ => x &&& ~~~y, 0)

def laneShift (c : Nat) (x y : BitVec 32) : BitVec 32 × BitVec 5 :=
  let n := y.toNat % 32
  (match c with
    | 0 => x <<< n
    | 1 => x >>> n
    | _ => x.sshiftRight n, 0)

def laneIsat (sub : Bool) (x y : BitVec 32) : BitVec 32 × BitVec 5 :=
  let (v, f) := clampInt (-2147483648) 2147483647 (if sub then x.toInt - y.toInt else x.toInt + y.toInt)
  (BitVec.ofInt 32 v, f)

/-! ### The functions of Table 09-7

The exact value is approached by integer series at 2^-256; the result is one of the FP32 values within the bound, and which
one is a free value of the input (log 3). -/

/-- ln 2 at scale 2^256. -/
def ln2 : Int := 0xb17217f7d1cf79abc9e3b39803f2f6af40f343267298b62d8a0d175b8baafa2b

def fixP : Nat := 256
def fixOne : Int := (2 : Int) ^ fixP

/-- A dyadic at scale 2^256 (exact for every FP32 value). -/
def toFix (n : Bool) (m : Nat) (e : Int) : Int :=
  let v : Int := m * 2 ^ (e + fixP).toNat
  if n then -v else v

/-- e^r for r in [0, ln 2), by its series: term i, term and sum. -/
def expSeries (r : Int) : Nat → Nat → Int → Int → Int
  | 0, _, _, sum => sum
  | k + 1, i, t, sum => let t' := t * r / fixOne / i; expSeries r k (i + 1) t' (sum + t')

/-- e^x at scale 2^256, as mantissa and exponent. -/
def expFix (x : Int) : Int × Int :=
  let k := x / ln2
  (expSeries (x - k * ln2) 60 1 fixOne fixOne, k - fixP)

/-- atanh(z) for small z by its series. -/
def atanhSeries (z2 : Int) : Nat → Nat → Int → Int → Int
  | 0, _, _, sum => sum
  | k + 1, i, t, sum => atanhSeries z2 k (i + 2) (t * z2 / fixOne) (sum + t / i)

/-- ln of a positive dyadic at scale 2^256. -/
def lnFix (m : Nat) (e : Int) : Int :=
  let k := Nat.log2 m
  let y : Int := (m : Int) * 2 ^ (fixP - k)
  let z := (y - fixOne) * fixOne / (y + fixOne)
  2 * atanhSeries (z * z / fixOne) 90 1 z 0 + (e + k) * ln2

/-- Absolute value of a difference of dyadics, compared with `b` halves of `2^u`: is |x - y| ≤ b * 2^(u-1)? -/
def within (x y : Int × Int) (b : Nat) (u : Int) : Bool :=
  let (d, g) := dySum [x, (-y.1, y.2)]
  let (r, _) := dySum [((d.natAbs : Int), g), (-(b : Int), u - 1)]
  decide (r ≤ 0)

/-- FP32 values near a positive or negative dyadic whose error is at most `b` ulp of the exact result: the bit patterns next
to the nearest one, filtered by their error. -/
def nearSet (b : Nat) (x : Int × Int) : List (BitVec 32) :=
  let n := encF32 (numOfInt x.1 x.2)
  let msb := floorLog2 x.1.natAbs x.2
  let u : Int := if msb < -126 then -149 else msb - 23
  [n, n + 1, n - 1, n + 2, n - 2].filter fun c => (decF32 c).isFin && within (decF32 c).dy x (2 * b) u

/-- The free choice among the allowed results; the nearest one where the list is empty. -/
def pickNear (fn b : Nat) (inp : BitVec 32) (x : Int × Int) : BitVec 32 :=
  let l := nearSet b x
  l.getD (Config.approx fn inp % Nat.max 1 l.length) (encF32 (numOfInt x.1 x.2))

/-- EXP (Table 09-7). -/
def laneExp (x : BitVec 32) : BitVec 32 × BitVec 5 :=
  match decF32 x with
  | .nan => (0x7FC00000, 0)
  | .inf n => (if n then 0 else 0x7F800000, 0)
  | .fin n m e =>
    -- 0x42B17218 is 88.722839, 0xC2CE8ED0 the first value whose exponential lies below 2^-149
    if !n ∧ 0x42B17218 < x.toNat then (0x7F800000, flOverflow)
    else if n ∧ 0xC2CE8ED0 ≤ x.toNat then (0, 0)
    else (pickNear 0 2 x (expFix (toFix n m e)), 0)

/-- EXP2 (Table 09-7). -/
def laneExp2 (x : BitVec 32) : BitVec 32 × BitVec 5 :=
  match decF32 x with
  | .nan => (0x7FC00000, 0)
  | .inf n => (if n then 0 else 0x7F800000, 0)
  | .fin n m e =>
    -- 0x43000000 is 128; 0xC3150000 is -149
    if !n ∧ 0x43000000 ≤ x.toNat then (0x7F800000, flOverflow)
    else if n ∧ 0xC3150000 < x.toNat then (0, 0)
    else
      let v := toFix n m e
      let k := v / fixOne
      (pickNear 1 2 x (expSeries ((v - k * fixOne) * ln2 / fixOne) 60 1 fixOne fixOne, k - fixP), 0)

/-- LOG and LOG2 (Table 09-7). -/
def laneLog (fn : Nat) (x : BitVec 32) : BitVec 32 × BitVec 5 :=
  match decF32 x with
  | .nan => (0x7FC00000, 0)
  | .inf n => if n then (0x7FC00000, flNan) else (0x7F800000, 0)
  | .fin n m e =>
    if m = 0 then (0xFF800000, flOverflow)
    else if n then (0x7FC00000, flNan)
    else if x = 0x3F800000 then (0, 0)
    else
      let l := lnFix m e
      (pickNear fn 2 x (if fn = 2 then (l, -(fixP : Int)) else (l * fixOne / ln2, -(fixP : Int))), 0)

/-- RSQRT (Table 09-7): 1 over the root, from the root at 2^-192. -/
def laneRsqrt (x : BitVec 32) : BitVec 32 × BitVec 5 :=
  match decF32 x with
  | .nan => (0x7FC00000, 0)
  | .inf n => if n then (0x7FC00000, flNan) else (0, 0)
  | .fin n m e =>
    if m = 0 then (if n then 0xFF800000 else 0x7F800000, flOverflow)
    else if n then (0x7FC00000, flNan)
    else
      match divNum (.fin false 1 0) (sqrtNum (.fin false m e)) with
      | .fin _ q g => (pickNear 4 1 x ((q : Int), g), 0)
      | _ => (0x7FC00000, flNan)

/-- TANH (Table 09-7). -/
def laneTanh (x : BitVec 32) : BitVec 32 × BitVec 5 :=
  match decF32 x with
  | .nan => (0x7FC00000, 0)
  | .inf n => (if n then 0xBF800000 else 0x3F800000, 0)
  | .fin n m e =>
    if m = 0 then (x, 0)
    -- 0x41A00000 is 20: tanh lies within 2^-56 below 1 there, and the same FP32 values are within its bound as for 1 - 2^-256
    else if 0x41A00000 ≤ (x &&& 0x7FFFFFFF).toNat then (pickNear 5 2 x (if n then 1 - fixOne else fixOne - 1, -(fixP : Int)), 0)
    else
      let v := toFix false m e
      let (q, k) := expFix (2 * v)
      let y := q * 2 ^ (k + fixP).toNat
      let t := (y - fixOne) * fixOne / (y + fixOne)
      (pickNear 5 2 x (if n then -t else t, -(fixP : Int)), 0)

/-! ### Atomics (R95-R97) -/

/-- The new value of an ATOMIC (Table 05-4); none where the combination of aop and width is not in the table. -/
def atomicNew (aop : BitVec 4) (width : BitVec 3) (old op1 op2 : Nat) : Option Nat :=
  let w := if width = 2 then 32 else if width = 3 then 64 else 128
  let ff := if width = 2 then fp32 else fp64
  let o := old % 2 ^ w
  let a := op1 % 2 ^ w
  let b := op2 % 2 ^ w
  if aop = 8 then
    if width = 2 ∨ width = 3 ∨ width = 4 then some (if o = a then b else o) else none
  else if width ≠ 2 ∧ width ≠ 3 then none
  else
    match aop.toNat with
    | 0 => some ((o + a) % 2 ^ w)
    | 1 => some (addF ff o a)
    | 2 => some (if sInt w a < sInt w o then a else o)
    | 3 => some (Nat.min o a)
    | 4 => some (minNumber ff o a)
    | 5 => some (if sInt w o < sInt w a then a else o)
    | 6 => some (Nat.max o a)
    | 7 => some (maxNumber ff o a)
    | _ => none

/-- Bytes of an atomic operand. -/
def atomicBytes (width : BitVec 3) : Nat := if width = 2 then 4 else if width = 3 then 8 else 16

/-- An arrival counter after an advance (R98): the count saturates at 2^63 - 1 and the error bit is kept or set. -/
def advanceWord (w : Word) (n : Nat) (err : Bool) : Word :=
  BitVec.ofNat 64 (Nat.min (w.toNat % 2 ^ 63 + n) (2 ^ 63 - 1) + (if err || bitOf w 63 then 2 ^ 63 else 0))

end Sys2Proof.Machine
end

