-- ==== Sys2Proof/Machine/CodecFn.lean ====
section
/-! DEFINITION. The codebook form as functions on bytes: CRC-32C, form_params, coded blocks, their decoding and encoding,
and placement in a segment (R240-R249, R259). -/

namespace Sys2Proof.Machine

open Sys2Proof

/-! ### CRC-32C (Castagnoli, reflected) -/

/-- Eight shift steps of the reflected polynomial. -/
def crcBits : Nat → BitVec 32 → BitVec 32
  | 0, c => c
  | k + 1, c => crcBits k (if c.getLsbD 0 then (c >>> 1) ^^^ 0x82F63B78 else c >>> 1)

def crcStep (c : BitVec 32) (b : Byte) : BitVec 32 := crcBits 8 (c ^^^ b.setWidth 32)

/-- CRC-32C of a byte string. -/
def crc32c (bs : List Byte) : BitVec 32 := (bs.foldl crcStep 0xFFFFFFFF) ^^^ 0xFFFFFFFF

/-! ### form_params (Table 11-1) -/

structure FormP where
  fmt : Nat
  b : Nat
  d : Nat
  g : Nat
  deriving DecidableEq, Repr

/-- Decode form_params; none for a reserved encoding or an unlisted src_fmt (R241). -/
def formOf (p : BitVec 32) : Option FormP :=
  let v := p.toNat
  let fmt := v / 2 ^ 24
  let w := v / 2 ^ 22 % 4
  let m := v / 2 ^ 20 % 4
  if fmt < 1 ∨ 5 < fmt ∨ w = 3 ∨ m = 3 then none
  else some { fmt := fmt, b := 4 * (w + 1), d := 4 * 2 ^ m, g := v / 2 ^ 13 % 128 + 1 }

def FormP.e (p : FormP) : Nat := (fmtBits p.fmt).getD 8 / 8
def FormP.k (p : FormP) : Nat := 2 ^ p.b
def FormP.n (p : FormP) : Nat := 4096 / (p.d * p.e)
def FormP.codeBytes (p : FormP) : Nat := p.n * p.b / 8
/-- Codebook bytes. -/
def FormP.cbBytes (p : FormP) : Nat := p.g * p.k * p.d * p.e
/-- Coded length with `n` outliers (R246). -/
def FormP.len (p : FormP) (n : Nat) : Nat := ceilDiv (32 + p.codeBytes + 8 * n) 32 * 32
def FormP.ff (p : FormP) : FFmt := (fmtFloat p.fmt).getD fp32
/-- Tile format of its codes. -/
def FormP.vq (p : FormP) : Nat := if p.b = 4 then 0x18 else if p.b = 8 then 0x19 else 0x1A

/-- Bits `[pos, pos+n)` of a byte string. -/
def bitsAt (bs : List Byte) (pos n : Nat) : Nat :=
  natOfBytes ((bs.drop (pos / 8)).take (n / 8 + 2)) / 2 ^ (pos % 8) % 2 ^ n

def wordAtByte (bs : List Byte) (i : Nat) : Word := wordOfBytes ((bs.drop i).take 8)

/-! ### Coded blocks (R246, R247) -/

def blkOut (bs : List Byte) : Nat := fld (wordAtByte bs 8) 40 32
def blkScale (bs : List Byte) : BitVec 32 := (wordAtByte bs 8).setWidth 32
def blkCrc (bs : List Byte) : BitVec 32 := (wordAtByte bs 0).setWidth 32

/-- The crc of a block, its own field taken as zero. -/
def blkCrcOk (bs : List Byte) : Bool := decide (crc32c ([0, 0, 0, 0] ++ bs.drop 4) = blkCrc bs)

/-- Code of sub-vector `i`. -/
def blkCode (p : FormP) (bs : List Byte) (i : Nat) : Nat := bitsAt (bs.drop 32) (i * p.b) p.b

/-- Outlier `i`: element index and value. -/
def blkOutlier (p : FormP) (bs : List Byte) (i : Nat) : Nat × Nat :=
  let w := wordAtByte bs (32 + p.codeBytes + 8 * i)
  (fld w 11 0, fld w 63 32)

/-- Element `j` of centroid `k` of sub-codebook `g`, as a pattern of src_fmt. -/
def cbElem (p : FormP) (cb : List Byte) (g k j : Nat) : Nat :=
  natOfBytes ((cb.drop (((g * p.k + k) * p.d + j) * p.e)).take p.e)

/-- scale × centroid element, formed exactly and rounded once to src_fmt, overflow by Table 09-3 with sat = 0 (R247). -/
def decElem (p : FormP) (cb : List Byte) (scale : BitVec 32) (g k j : Nat) : Nat :=
  (cvtFloat p.ff false ((decF32 scale).mul (p.ff.dec (cbElem p cb g k j)))).1

/-- Element `n` of a decoded block. -/
def blkElem (p : FormP) (cb : List Byte) (bs : List Byte) (n : Nat) : Nat :=
  match (List.range (blkOut bs)).find? (fun i => (blkOutlier p bs i).1 == n) with
  | some i => (blkOutlier p bs i).2 % 2 ^ (8 * p.e)
  | none => decElem p cb (blkScale bs) (n / p.d % p.g) (blkCode p bs (n / p.d)) (n % p.d)

/-- Bytes of elements `[lo, lo + n)` of a decoded block. -/
def blkView (p : FormP) (cb : List Byte) (bs : List Byte) (lo n : Nat) : List Byte :=
  (List.range n).flatMap fun i => bytesOfNat p.e (blkElem p cb bs (lo + i))

/-- The 4 KiB view of a block. -/
def blkDecode (p : FormP) (cb : List Byte) (bs : List Byte) : List Byte := blkView p cb bs 0 (4096 / p.e)

/-- Outlier indices ascending and below the element count. -/
def outliersOk (p : FormP) (bs : List Byte) : Bool :=
  (List.range (blkOut bs)).all fun i =>
    decide ((blkOutlier p bs i).1 < 4096 / p.e) && decide (fld (wordAtByte bs (32 + p.codeBytes + 8 * i)) 31 12 = 0) &&
      (i == 0 || decide ((blkOutlier p bs (i - 1)).1 < (blkOutlier p bs i).1))

/-- Checks 2 and 3 of R248 on a block of `arg` bytes: none where it passes. -/
def blkCheck (fp : BitVec 32) (p : FormP) (arg : Nat) (bs : List Byte) : Option Status :=
  let w0 := wordAtByte bs 0
  let w1 := wordAtByte bs 8
  let s := decF32 (blkScale bs)
  if fld w0 63 56 ≠ 1 ∨ fld w0 55 37 ≠ fp.toNat / 2 ^ 13 ∨ fld w0 36 32 ≠ 0 ∨ fld w1 63 41 ≠ 0 ∨
      wordAtByte bs 16 ≠ 0 ∨ wordAtByte bs 24 ≠ 0 ∨ 256 < blkOut bs ∨ !s.isFin ∨ s.isZero ∨ !outliersOk p bs ∨
      arg ≠ p.len (blkOut bs) ∨ bs.length ≠ p.len (blkOut bs) then some .malformed
  else if !blkCrcOk bs then some .checkFail else none

/-! ### Index lines and placement (Table 11-4, R249, R263) -/

structure IdxEnt where
  kind : Nat := 0
  len : Nat := 0
  off : Nat := 0
  deriving DecidableEq, Repr

def idxOf (v : Nat) : IdxEnt := { kind := v / 2 ^ 30 % 4, len := v / 2 ^ 12 % 256, off := v % 4096 }
def idxBits (e : IdxEnt) : Nat := e.kind * 2 ^ 30 + e.len * 2 ^ 12 + e.off

/-- The 32 entries of an index line. -/
def idxLine (bs : List Byte) : List IdxEnt := (List.range 32).map fun i => idxOf (natOfBytes ((bs.drop (4 * i)).take 4))
def idxBytes (es : List IdxEnt) : List Byte := (List.range 32).flatMap fun i => bytesOfNat 4 (idxBits (es.getD i {}))

/-- An entry is sound when its kind is defined and a CODED range lies in units 4-4,095 and meets no other entry's (R263). -/
def idxSound (es : List IdxEnt) (i : Nat) : Bool :=
  let e := es.getD i {}
  if e.kind = 1 then
    decide (4 ≤ e.off ∧ e.off + e.len ≤ 4096 ∧ 0 < e.len) &&
      (List.range 32).all fun j => j == i ||
        (let o := es.getD j {}
         decide (o.kind ≠ 1) || decide (o.off + o.len ≤ e.off) || decide (e.off + e.len ≤ o.off))
  else decide (e.kind ≠ 3)

/-- Is the run of `len` units at `off` free of every block but `i`? -/
def runFree (es : List IdxEnt) (i len off : Nat) : Bool :=
  decide (off + len ≤ 4096) && (List.range 32).all fun j => j == i ||
    (let o := es.getD j {}
     decide (o.kind ≠ 1) || decide (o.off + o.len ≤ off) || decide (off + len ≤ o.off))

/-- Lowest free run at or above unit 4 (R249). -/
def findRun (es : List IdxEnt) (i len : Nat) : Option Nat :=
  ((List.range 4092).find? fun k => runFree es i len (4 + k)).map (4 + ·)

/-- A repack: every CODED block in ascending block order from unit 4, the new one in its place (R249). -/
def repackFrom (lens : List Nat) : Nat → Nat → List IdxEnt → List IdxEnt
  | _, _, [] => []
  | i, at_, e :: es =>
    let n := lens.getD i 0
    if n = 0 then e :: repackFrom lens (i + 1) at_ es
    else { kind := 1, len := n, off := at_ } :: repackFrom lens (i + 1) (at_ + n) es

/-! ### ENCODE (R259) -/

/-- Squared error of a sub-vector against a centroid, over its finite elements, exactly. -/
def codeErr (p : FormP) (cb : List Byte) (scale : BitVec 32) (xs : List Num) (g k : Nat) : Int × Int :=
  dySum ((List.range p.d).map fun j =>
    let x := xs.getD j .nan
    if x.isFin then
      let (m, e) := dySum [x.dy, ((decF32 scale).mul (p.ff.dec (cbElem p cb g k j))).negate.dy]
      (m * m, 2 * e)
    else (0, 0))

def dyLt (a b : Int × Int) : Bool := decide ((dySum [a, (-b.1, b.2)]).1 < 0)

/-- The best code, ties to the lowest k. -/
def bestCode (p : FormP) (cb : List Byte) (scale : BitVec 32) (xs : List Num) (g : Nat) : Nat :=
  (List.range p.k).foldl (fun b k => if dyLt (codeErr p cb scale xs g k) (codeErr p cb scale xs g b) then k else b) 0

/-- Insert by an order, stably. -/
def insertBy {α : Type} (lt : α → α → Bool) (a : α) : List α → List α
  | [] => [a]
  | b :: l => if lt b a then b :: insertBy lt a l else a :: b :: l

def sortBy {α : Type} (lt : α → α → Bool) (l : List α) : List α := l.foldr (insertBy lt) []

/-- Pack codes of `b` bits from bit 0 up (R197). -/
def packBits (b : Nat) (l : List Nat) : Nat := l.foldr (fun c acc => c % 2 ^ b + acc * 2 ^ b) 0

/-- A whole coded block with its crc. -/
def mkBlock (fp : BitVec 32) (p : FormP) (scale : BitVec 32) (codes : List Nat) (outs : List (Nat × Nat)) : List Byte :=
  let w0 := put 56 1 ||| put 37 (fp.toNat / 2 ^ 13)
  let body := bytesOfWord (put 32 outs.length ||| scale.setWidth 64) ++ List.replicate 16 0 ++
    bytesOfNat p.codeBytes (packBits p.b codes) ++ outs.flatMap (fun o => bytesOfWord (put 32 o.2 ||| put 0 o.1))
  let bs := bytesOfWord w0 ++ body
  let bs := bs ++ List.replicate (p.len outs.length - bs.length) 0
  bytesOfNat 4 (crc32c bs).toNat ++ bs.drop 4

/-- ENCODE of one block of element patterns; none where it ends the job with MALFORMED (R259). The error of an element whose decoded value is
not finite counts as larger than any finite one, and a centroid element that is not finite as zero error in the choice of a code (log 48). -/
def encodeBlock (fp : BitVec 32) (p : FormP) (cb : List Byte) (scale thresh : BitVec 32) (limit : Nat) (el : List Nat) :
    Option (List Byte) :=
  let sc := decF32 scale
  let xs := el.map p.ff.dec
  let codes := (List.range p.n).map fun i => bestCode p cb scale ((xs.drop (i * p.d)).take p.d) (i % p.g)
  let odd := (List.range xs.length).filter fun i => !(xs.getD i .nan).isFin
  let err (i : Nat) : Int × Int :=
    let y := p.ff.dec (decElem p cb scale (i / p.d % p.g) (codes.getD (i / p.d) 0) (i % p.d))
    if y.isFin then (let (m, e) := dySum [(xs.getD i .nan).dy, y.negate.dy]; (m.natAbs, e)) else (1, 4096)
  let above := (List.range xs.length).filter fun i =>
    (xs.getD i .nan).isFin && (match decF32 thresh with
      | .nan => false
      | .inf n => n
      | t => dyLt t.dy (err i))
  let ranked := sortBy (fun a b => dyLt (err b) (err a)) above
  let pick := sortBy (fun a b => decide (a < b)) ((odd ++ ranked).take limit)
  if limit < odd.length ∨ !sc.isFin ∨ sc.isZero then none
  else some (mkBlock fp p scale codes (pick.map fun i => (i, el.getD i 0)))

end Sys2Proof.Machine
end

