-- ==== Sys2Proof/Machine/Media.lean ====
section
/-! DEFINITION. What stands on the flash dies: AES-256-XTS over 4 KiB data units (R57), with the cipher of FIPS 197 and the mode of
IEEE 1619 (PRESUMED from those standards, log 17), and the P and Q members of a stripe over GF(2^8) (R55, R56). -/

namespace Sys2Proof.Machine

open Sys2Proof

/-! ### GF(2^8) -/

/-- Twice an element, modulo x^8 plus the polynomial whose low byte is `p`. -/
def gfDouble (p a : Byte) : Byte := (a <<< 1) ^^^ (if a.msb then p else 0)

/-- Product of two elements: the low `k` bits of `b` by Horner's rule. -/
def gfMulBits (p a b : Byte) : Nat → Byte → Byte
  | 0, r => r
  | k + 1, r => gfMulBits p a b k (gfDouble p r ^^^ (if b.getLsbD k then a else 0))

def gfMul (p a b : Byte) : Byte := gfMulBits p a b 8 0

/-- `a` to the power `n`. -/
def gfPow (p a : Byte) : Nat → Byte
  | 0 => 1
  | n + 1 => gfMul p a (gfPow p a n)

/-- The inverse of an element, 0 for 0. -/
def gfInv (p a : Byte) : Byte := gfPow p a 254

/-! ### AES-256 -/

def aesPoly : Byte := 0x1B

def subByte (a : Byte) : Byte :=
  let b := gfInv aesPoly a
  b ^^^ b.rotateLeft 1 ^^^ b.rotateLeft 2 ^^^ b.rotateLeft 3 ^^^ b.rotateLeft 4 ^^^ 0x63

def unsubByte (a : Byte) : Byte := gfInv aesPoly (a.rotateLeft 1 ^^^ a.rotateLeft 3 ^^^ a.rotateLeft 6 ^^^ 0x05)

def xorBytes (a b : List Byte) : List Byte := List.zipWith (· ^^^ ·) a b

/-- The key schedule, newest word first. -/
def aesExpand : Nat → List (List Byte) → List (List Byte)
  | 0, ws => ws
  | n + 1, ws =>
    let i := ws.length
    let t := ws.headD []
    let t := if i % 8 = 0 then xorBytes ((t.rotateLeft 1).map subByte) [gfPow aesPoly 2 (i / 8 - 1), 0, 0, 0]
      else if i % 8 = 4 then t.map subByte else t
    aesExpand n (xorBytes (ws.getD 7 []) t :: ws)

/-- Round keys 0 to 14 of a 32-byte key. -/
def aesKeys (k : List Byte) : List (List Byte) :=
  let ws := (aesExpand 52 ((List.range 8).reverse.map fun i => (k.drop (4 * i)).take 4)).reverse
  (List.range 15).map fun r => ((ws.drop (4 * r)).take 4).flatten

/-- Row `r` of the 4 by 4 state moves by `k * r` columns. -/
def shiftRows (k : Nat) (b : List Byte) : List Byte :=
  (List.range 16).map fun i => b.getD (i % 4 + 4 * ((i / 4 + k * (i % 4)) % 4)) 0

/-- Each column times the circulant of `m`. -/
def mixColumns (m : List Byte) (b : List Byte) : List Byte :=
  (List.range 16).map fun i =>
    (List.range 4).foldl (fun a j => a ^^^ gfMul aesPoly (m.getD ((j + 4 - i % 4) % 4) 0) (b.getD (i / 4 * 4 + j) 0)) 0

def aesEncrypt (ks : List (List Byte)) (b : List Byte) : List Byte :=
  let b := (List.range 13).foldl
    (fun b r => xorBytes (mixColumns [2, 3, 1, 1] (shiftRows 1 (b.map subByte))) (ks.getD (r + 1) [])) (xorBytes b (ks.getD 0 []))
  xorBytes (shiftRows 1 (b.map subByte)) (ks.getD 14 [])

def aesDecrypt (ks : List (List Byte)) (b : List Byte) : List Byte :=
  let b := (List.range 13).foldl
    (fun b r => mixColumns [14, 11, 13, 9] (xorBytes ((shiftRows 3 b).map unsubByte) (ks.getD (13 - r) []))) (xorBytes b (ks.getD 14 []))
  xorBytes ((shiftRows 3 b).map unsubByte) (ks.getD 0 [])

/-! ### XTS (R57) -/

/-- The mask of the next 16-byte block of a data unit. -/
def xtsNext (t : List Byte) : List Byte :=
  let n := natOfBytes t
  bytesOfNat 16 (Nat.xor (2 * n % 2 ^ 128) (if 2 ^ 127 ≤ n then 0x87 else 0))

def xtsBlocks (f : List Byte → List Byte) : Nat → List Byte → List Byte → List Byte
  | 0, _, _ => []
  | n + 1, t, bs => xorBytes (f (xorBytes (bs.take 16) t)) t ++ xtsBlocks f n (xtsNext t) (bs.drop 16)

/-- One data unit of 4 KiB under a 512-bit key: its first half encrypts the data, its second the tweak. -/
def xtsUnit (dec : Bool) (key : BitVec 512) (tweak : Nat) (bs : List Byte) : List Byte :=
  let k := bytesOfNat 64 key.toNat
  let ks := aesKeys (k.take 32)
  xtsBlocks (if dec then aesDecrypt ks else aesEncrypt ks) 256 (aesEncrypt (aesKeys (k.drop 32)) (bytesOfNat 16 tweak)) bs

/-- Data units of 4 KiB from store address `gsa` up: the tweak is incarnation << 64 with GSA[63:12]. -/
def xtsSpan (dec : Bool) (key : BitVec 512) (inc : BitVec 32) : Nat → Nat → List Byte → List Byte
  | 0, _, _ => []
  | n + 1, gsa, bs =>
    xtsUnit dec key (inc.toNat * 2 ^ 64 + gsa / 4096) (bs.take 4096) ++ xtsSpan dec key inc n (gsa + 4096) (bs.drop 4096)

/-! ### Stripes (R55, R56): eight data members, P the sum and Q the sum weighted by powers of 2 -/

/-- The field of P and Q: the manual names GF(2^8) alone; its polynomial and generator are those customary for two parities
(PRESUMED, log 23). -/
def rsPoly : Byte := 0x1D

def scaleBytes (c : Byte) (l : List Byte) : List Byte := l.map (gfMul rsPoly c)

def zeroUnit : List Byte := List.replicate 65536 0

/-- P and Q of eight data members. -/
def parityP (ds : List (List Byte)) : List Byte := ds.foldl xorBytes zeroUnit
def parityQ (ds : List (List Byte)) : List Byte := ((ds.mapIdx fun i d => scaleBytes (gfPow rsPoly 2 i) d)).foldl xorBytes zeroUnit

/-- Data member `m` from the members that were read (0-7 data, 8 P, 9 Q): itself, or what any eight of the ten determine. -/
def rebuildMember (m : Nat) (parts : List (Nat × List Byte)) : Option (List Byte) :=
  let have_ (i : Nat) : Option (List Byte) := (parts.find? (·.1 == i)).map (·.2)
  let gone := (List.range 8).filter fun i => (have_ i).isNone
  let sum (w : Nat → Byte) : List Byte :=
    (List.range 8).foldl (fun a i => match have_ i with | some d => xorBytes a (scaleBytes (w i) d) | none => a) zeroUnit
  let pow (i : Nat) : Byte := gfPow rsPoly 2 i
  match have_ m, gone, have_ 8, have_ 9 with
  | some d, _, _, _ => some d
  | none, [_], some p, _ => some (xorBytes p (sum fun _ => 1))
  | none, [_], none, some q => some (scaleBytes (gfInv rsPoly (pow m)) (xorBytes q (sum pow)))
  | none, [i, j], some p, some q =>
    let o := if i = m then j else i
    let c := gfInv rsPoly (pow m ^^^ pow o)
    some (scaleBytes c (xorBytes (xorBytes q (sum pow)) (scaleBytes (pow o) (xorBytes p (sum fun _ => 1)))))
  | _, _, _, _ => none

end Sys2Proof.Machine
end

