-- ==== Sys2Proof/Machine/Records.lean ====
section
/-! DEFINITION. Journal records as they stand in their slots (R65, R66): the header of Table 04-2, the payloads of Table 04-3, and the
CRC-32C over both. -/

namespace Sys2Proof.Machine

open Sys2Proof

/-! ### The words of what control records carry -/

def stateNo : ExtState → Nat
  | .free => 0 | .assigned => 1 | .revoking => 2 | .revoked => 3 | .releasing => 4

def policyNo : TierPolicy → Nat
  | .auto => 0 | .pinHbm => 1 | .flashOnly => 2

def redundancyNo : Redundancy → Nat
  | .local => 0 | .paired => 1 | .striped => 2

def durabilityNo : Durability → Nat
  | .cached => 0 | .durable => 1 | .paired => 2

def bitIf (b : Bool) (n : Nat) : Word := if b then put n 1 else 0

/-- An initiator range (Table 02-3). -/
def rangeWord (r : Range) : Word :=
  bitIf r.valid 63 ||| bitIf r.rd 59 ||| bitIf r.wr 58 ||| bitIf r.atom 57 ||| bitIf r.own 56 ||| put 16 r.hi.toNat ||| put 0 r.lo.toNat

/-- The 16 words of an extent descriptor (Table 02-2). -/
def descWords (d : ExtDesc) : List Word :=
  [put 61 (stateNo d.state) ||| put 56 (policyNo d.policy) ||| put 54 (redundancyNo d.redundancy) ||| bitIf (d.form == .coded) 52 |||
     put 50 (durabilityNo d.durability) ||| put 24 d.comp.toNat ||| put 0 d.keyHandle.toNat,
   put 32 d.formParams.toNat ||| put 0 d.inc.toNat,
   bitIf d.buddyValid 16 ||| put 0 d.buddy.toNat] ++
  (List.range 8).map (fun i => rangeWord (d.ranges.getD i {})) ++ List.replicate 5 0

/-- A region table entry (Table 02-4). -/
def regionWord (e : RegionEnt) : Nat :=
  bit01 e.head * 2 ^ 31 + bit01 e.coherent * 2 ^ 29 +
    (match e.ownership with | .none => 0 | .owned => 1 | .sharedWrite => 2) * 2 ^ 27 + if e.head then e.length % 1024 else 0

/-- An owner record (Table 07-2). Word 3 is never journalled (R152). -/
def ownerWords (o : Owner) : List Word :=
  [bitIf o.held 63 ||| bitIf o.openW 62 ||| bitIf o.stale 61 ||| bitIf o.prevValid 60 ||| put 32 o.ownerFdn.toNat |||
     put 16 o.prevIid.toNat ||| put 0 o.ownerIid.toNat,
   put 32 o.token.toNat ||| put 0 o.version.toNat, BitVec.ofNat 64 o.pubTime, 0]

/-- A handoff ledger entry (Table 18-8). -/
def ledgerWords (e : LedgerEnt) : List Word :=
  [put 56 (match e.kind with | .copy => 1 | .transplant => 2 | .foster => 3) |||
     put 52 (match e.phase with | .offered => 1 | .received => 2 | .released => 3 | .reclaimed => 4) ||| put 0 e.seq.toNat,
   put 48 e.fromFdn.toNat ||| put 32 e.toFdn.toNat, e.object, BitVec.ofNat 64 e.expiry]

/-! ### Records -/

/-- The type of a record (Table 04-3). -/
def bodyCode : JBody → Nat
  | .pad => 0x00 | .data _ => 0x01 | .coded _ => 0x02 | .extent _ => 0x03 | .region _ => 0x04 | .publish _ => 0x05
  | .barrier _ _ => 0x06 | .suspend _ => 0x07 | .groupCommit _ _ => 0x08 | .handoff _ => 0x09 | .lossEpoch _ _ _ => 0x0A
  | .mirrorRelease _ _ => 0x0B | .void _ => 0x0C | .key _ => 0x0D | .other c => c.toNat

/-- First extent number of a LOSS_EPOCH record of scope LIST (R86). -/
def listBase (exts : List Nat) : Nat := exts.headD 0 / 32768 * 32768

/-- The payload of a record. The spec gives no words for BARRIER, GROUP_COMMIT, MIRROR_RELEASE, VOID and KEY: theirs follow the order in
which Table 04-3 names the fields (log 33). -/
def payload (r : JRec) : List Byte :=
  match r.body with
  | .pad | .other _ => []
  | .data l => (List.range 4).flatMap fun i => if r.sectors.getLsbD i then ((bytesOfLine l).drop (32 * i)).take 32 else []
  | .coded bs => bs
  | .extent d => bytesOfWords (descWords d)
  | .region es => (List.range 512).flatMap fun i => bytesOfNat 4 (regionWord (es.getD i {}))
  | .publish o => bytesOfWords (ownerWords o)
  | .barrier id digest => bytesOfWords [BitVec.ofNat 64 id, digest.setWidth 64]
  | .suspend hdr => bytesOfWords hdr
  | .groupCommit n k => bytesOfWords [BitVec.ofNat 64 n, BitVec.ofNat 64 k]
  | .handoff e => bytesOfWords (ledgerWords e)
  | .lossEpoch ep all exts =>
    let b := if all then 0 else listBase exts
    bytesOfWords [put 32 ep.toNat ||| put 30 (bit01 all) ||| put 0 b, 0, 0, 0] ++
      (if all then [] else bytesOfNat 4096 ((exts.filter fun e => decide (b ≤ e ∧ e < b + 32768)).dedup.map fun e => 2 ^ (e - b)).sum)
  | .mirrorRelease home n => bytesOfWords [home.setWidth 64, BitVec.ofNat 64 n]
  | .void n => bytesOfWords [BitVec.ofNat 64 n]
  | .key k => bytesOfNat 128 k

/-- Length of a record in 32-byte units, its header counted (R65). -/
def recUnits (r : JRec) : Nat :=
  match r.body with
  | .pad | .other _ => 1
  | .data _ => 1 + ((List.range 4).filter fun i => r.sectors.getLsbD i).length
  | .coded b => 1 + ceilDiv b.length 32
  | .extent _ => 5
  | .region _ => 65
  | .publish _ => 2
  | .barrier _ _ => 2
  | .suspend h => 1 + ceilDiv (8 * h.length) 32
  | .groupCommit _ _ => 2
  | .handoff _ => 2
  | .lossEpoch _ all _ => if all then 2 else 130
  | .mirrorRelease _ _ => 2
  | .void _ => 2
  | .key _ => 5

/-- The header of a record (Table 04-2). -/
def recHead (r : JRec) : List Word :=
  [put 59 (bodyCode r.body) ||| put 55 (match r.body with | .data _ => r.sectors.toNat | _ => 0) ||| bitIf r.mirrored 54 ||| bitIf r.grp 53 |||
     bitIf (r.poison && bodyCode r.body == 1) 52 ||| bitIf r.tentative 51 ||| put 40 (recUnits r) ||| put 0 r.crc.toNat,
   BitVec.ofNat 64 r.jsn, r.gsa, put 48 r.iid.toNat ||| put 0 r.inc.toNat]

/-- A record as it stands in its slot: header and payload, padded to whole units. -/
def recBytes (r : JRec) : List Byte :=
  let p := payload r
  bytesOfWords (recHead r) ++ p ++ List.replicate (32 * (recUnits r - 1) - p.length) 0

/-- CRC-32C over the header, with the crc field taken as zero, and the payload (R65). -/
def recCrc (r : JRec) : BitVec 32 := crc32c (recBytes { r with crc := 0 })

/-- A record with the CRC of what it holds. -/
def sealRec (r : JRec) : JRec := { r with crc := recCrc r }

/-- A record that can be used: its type is one of Table 04-3 and its CRC agrees. -/
def recSound (r : JRec) : Bool := (match r.body with | .other _ => false | _ => true) && r.crc == recCrc r

/-! ### Orders of records (R67, R83) -/

/-- Records in jsn order. -/
def byJsn (l : List JRec) : List JRec :=
  l.foldl (fun acc r => (acc.takeWhile fun x => decide (x.jsn ≤ r.jsn)) ++ r :: (acc.dropWhile fun x => decide (x.jsn ≤ r.jsn))) []

/-- Which records of a list take effect (R68, R83): groups only where closed, tentative ones only without a VOID, and none whose CRC or type
is wrong. -/
def replayable (l : List JRec) : List JRec :=
  let l := l.filter recSound
  let commits := l.filterMap fun r => match r.body with | .groupCommit f n => some (f, n) | _ => none
  let voids := l.filterMap fun r => match r.body with | .void n => some n | _ => none
  l.filter fun r =>
    (!r.grp || commits.any (fun c => decide (c.1 ≤ r.jsn ∧ r.jsn < c.1 + c.2)) ||
      (match r.body with | .groupCommit _ _ => true | _ => false)) &&
    !(r.tentative && voids.contains r.jsn)

/-! ### The flush header (Table 04-5) -/

/-- The words and the 32 KiB bitmap of a flush header, without its CRC (log 33). -/
def flushHdrBytes (h : FlushHdr) : List Byte :=
  bytesOfWords [BitVec.ofNat 64 h.ringSize, BitVec.ofNat 64 h.oldest, BitVec.ofNat 64 h.newest] ++
    bytesOfNat 32768 (h.bitmap.dedup.map fun e => 2 ^ (e % 262144)).sum

def sealFlush (h : FlushHdr) : FlushHdr := { h with crc := crc32c (flushHdrBytes h) }

/-- A flush header is valid when its CRC agrees. -/
def flushSound (h : FlushHdr) : Bool := h.crc == crc32c (flushHdrBytes h)

end Sys2Proof.Machine
end

