-- ==== Sys2Proof/Machine/RegMap.lean ====
section
/-! DEFINITION. The control space as a table: where each register lies, its type, its writers, the bits it has and the
value it holds when the image does not name it (R472-R481, R493, Tables 22-2 to 22-18), with the accessors of the
values that other blocks use. -/

namespace Sys2Proof.Machine

open Sys2Proof

/-- Register access types (R7); `cmd` marks a command register of Table 22-3. -/
inductive RegTy where
  | ro | rw | rwi | rc | wo | cmd
  deriving DecidableEq, Repr

/-- Writer classes (Table 22-1). -/
inductive WCls where
  | a | w | m | f | c
  deriving DecidableEq, Repr

/-- A run of equal registers. `staged` ones are held once per writer (R478). A value below `lo` or above `hi` is outside the
stated range (R481). -/
structure RegRow where
  base : Nat
  count : Nat := 1
  stride : Nat := 8
  ty : RegTy := .ro
  cls : List WCls := []
  mask : Word := 0xFFFFFFFFFFFFFFFF
  dflt : Word := 0
  lo : Nat := 0
  hi : Nat := 2 ^ 64 - 1
  staged : Bool := false
  deriving DecidableEq, Repr

/-! ### Offsets (Tables 22-2, 22-7, 22-9, 22-12, 22-15, 22-16) -/

def Off.rst : Nat := 0x10000
def Off.cfg : Nat := 0x20000
def Off.hp (p : Nat) : Nat := 0x40000 + 0x10000 * p
def Off.fab : Nat := 0x80000
def Off.home : Nat := 0x100000
def Off.tier : Nat := 0x140000
def Off.jrn : Nat := 0x180000
def Off.xlt : Nat := 0x1C0000
def Off.core (c : Nat) : Nat := 0x200000 + 0x10000 * c
def Off.nmc : Nat := 0x320000
def Off.gln : Nat := 0x340000
def Off.prn : Nat := 0x380000
def Off.cdc : Nat := 0x3C0000
def Off.flt : Nat := 0x400000
def Off.ras : Nat := 0x440000
def Off.tel : Nat := 0x480000
def Off.trl : Nat := 0x4C0000
def Off.slot (w slot word : Nat) : Nat := 0x1000000 + 0x10000 * w + 0x10 * slot + 8 * word
def Off.winCtl (w : Nat) : Nat := Off.hp (w / 16) + 0x200 + 8 * (w % 16)
def Off.agent (n : Nat) : Nat := Off.home + 0x200 + 8 * n
def Off.bkt (b word : Nat) : Nat := Off.home + 0x1000 + 0x20 * b + 8 * word
def Off.fq (q : Nat) : Nat := Off.xlt + 0x1000 + 0x20 * q
def Off.pair (n : Nat) : Nat := Off.nmc + 0x40 * n
def Off.evq (w : Nat) : Nat := Off.ras + 0x4000 + 0x40 * w

/-- Registers of the reset, configuration, host-port and fabric blocks (Tables 22-7, 22-9). -/
def regTableA : List RegRow := [
  { base := 0x0, count := 4 },
  { base := Off.rst, ty := .rw, cls := [.f, .m], mask := 0x1FC },
  { base := Off.rst + 0x08, ty := .wo, cls := [.f] },
  { base := Off.rst + 0x10, ty := .rc },
  { base := Off.rst + 0x18, ty := .cmd, cls := [.f, .m] },
  { base := Off.rst + 0x20, ty := .rw, cls := [.f, .m] },
  { base := Off.rst + 0x28 },
  { base := Off.rst + 0x30, ty := .rw, cls := [.f, .m, .c], mask := 0x3000000000000000 },
  { base := Off.rst + 0x38, ty := .rw, cls := [.f], mask := 0xFFFF, dflt := 750, lo := 600, hi := 850 },
  { base := Off.rst + 0x40, ty := .rw, cls := [.f], mask := 0xFFFF, dflt := 600, lo := 600, hi := 850 },
  { base := Off.rst + 0x48, ty := .rw, cls := [.f], mask := 0xFFFF, dflt := 850, lo := 600, hi := 850 },
  { base := Off.rst + 0x50, ty := .rw, cls := [.f], mask := 0xFFFF, dflt := 1150, lo := 300, hi := 1200 },
  { base := Off.rst + 0x58, ty := .rw, cls := [.f], mask := 0xFFFF, dflt := 10, lo := 1, hi := 10000 },
  { base := Off.rst + 0x60, ty := .rw, cls := [.f], mask := 0xFFFF, dflt := 95, lo := 80, hi := 100 },
  { base := Off.rst + 0x68 },
  { base := Off.rst + 0x100, count := 128 },
  { base := Off.cfg },
  { base := Off.cfg + 0x08, ty := .rw, cls := [.f, .c], mask := 0xFFFFFFF8 },
  { base := Off.cfg + 0x10, ty := .rw, cls := [.f, .c] },
  { base := Off.cfg + 0x18, ty := .wo, cls := [.f, .c] },
  { base := Off.cfg + 0x20, ty := .wo, cls := [.f, .c] },
  { base := Off.cfg + 0x28, count := 2, ty := .wo, cls := [.f] },
  { base := Off.cfg + 0x38 },
  { base := Off.cfg + 0x100, count := 16, ty := .rwi, mask := 0x80000000FFFFFFFF },
  { base := Off.cfg + 0x180, count := 8, ty := .rwi, mask := 0x80000000FFFFFFFF },
  { base := 0x40000, count := 4, stride := 0x10000, ty := .rwi, mask := 3 },
  { base := 0x40008, count := 4, stride := 0x10000, ty := .rwi, mask := 0xFFFFF, dflt := 16 },
  { base := 0x40010, count := 4, stride := 0x10000, ty := .rwi, dflt := 100, lo := 10, hi := 1000 },
  { base := 0x40018, count := 4, stride := 0x10000, ty := .rc },
  { base := 0x40020, count := 4, stride := 0x10000, ty := .rc },
  { base := 0x40100, count := 4 }, { base := 0x50100, count := 4 },
  { base := 0x60100, count := 4 }, { base := 0x70100, count := 4 },
  { base := 0x40200, count := 16, ty := .rw, cls := [.w, .f], mask := 0xC00000000000FFFF },
  { base := 0x50200, count := 16, ty := .rw, cls := [.w, .f], mask := 0xC00000000000FFFF },
  { base := 0x60200, count := 16, ty := .rw, cls := [.w, .f], mask := 0xC00000000000FFFF },
  { base := 0x70200, count := 16, ty := .rw, cls := [.w, .f], mask := 0xC00000000000FFFF },
  { base := 0x1000000, count := 64 * 4096, stride := 16, ty := .rw, cls := [.w], mask := 0x80000003FFFFFFFF },
  { base := 0x1000008, count := 64 * 4096, stride := 16, ty := .rw, cls := [.w], mask := 0xFFFFFFFF } ]

/-- Fabric links, home, tier and journal (Tables 22-9, 22-12). -/
def regTableB : List RegRow := [
  { base := Off.fab, count := 24, stride := 0x100 },
  { base := Off.fab + 0x08, count := 24, stride := 0x100, ty := .rw, cls := [.f, .m], mask := 1 },
  { base := Off.fab + 0x10, count := 24, stride := 0x100, ty := .rw, cls := [.f], mask := 0xFFFFFFFF },
  { base := Off.fab + 0x18, count := 24, stride := 0x100, ty := .rc },
  { base := Off.fab + 0x2000, ty := .rw, cls := [.f] },
  { base := Off.fab + 0x2008, ty := .rw, cls := [.f], mask := 0xFFF0000000000000 },
  { base := Off.fab + 0x2010, ty := .rw, cls := [.f] },
  { base := Off.fab + 0x2018, ty := .rwi, mask := 0x1FF, dflt := 0x1FF },
  { base := Off.fab + 0x2020, ty := .rwi, mask := 0xFF, dflt := 7, lo := 1, hi := 7 },
  { base := Off.fab + 0x2028, ty := .rwi, mask := 0xFFFF, dflt := 100, lo := 80, hi := 1000 },
  { base := Off.fab + 0x2030, ty := .rw, cls := [.f], mask := 1 },
  { base := Off.fab + 0x2038 },
  { base := Off.fab + 0x2040, count := 3, ty := .rc },
  { base := Off.fab + 0x40000, count := 32768, ty := .rw, cls := [.f], mask := 0xFFFFFFE1FFFFFFE1 },
  { base := Off.home, ty := .rwi, mask := 0x3F, dflt := 20, lo := 10, hi := 35 },
  { base := Off.home + 0x08, ty := .rw, cls := [.f], mask := 0x7FF, dflt := 120, lo := 20, hi := 2000 },
  { base := Off.home + 0x10, cls := [.f] },
  { base := Off.home + 0x18, ty := .rwi, dflt := 20, lo := 5, hi := 100 },
  { base := Off.home + 0x20 },
  { base := Off.home + 0x28, count := 3, ty := .rc },
  { base := Off.home + 0x200, count := 64, ty := .rw, cls := [.f], mask := 0xF3F00000FFFFFFFF },
  { base := Off.home + 0x400, count := 64, ty := .rwi, mask := 0x800000FFFFFFFFFF },
  { base := Off.home + 0x1000, count := 256, stride := 0x20, ty := .rwi, mask := 0xC000FFFFFFFFFFFF },
  { base := Off.home + 0x1008, count := 256, stride := 0x20, ty := .rwi },
  { base := Off.home + 0x1010, count := 256, stride := 0x20 },
  { base := Off.home + 0x1018, count := 256, stride := 0x20 },
  { base := Off.tier },
  { base := Off.tier + 0x08, ty := .rwi, dflt := 160, hi := 258 },
  { base := Off.tier + 0x10, ty := .rwi, dflt := 100, lo := 10, hi := 10000 },
  { base := Off.tier + 0x18, ty := .rwi, dflt := 32, lo := 2, hi := 255 },
  { base := Off.tier + 0x20, ty := .rwi, dflt := 4, lo := 1, hi := 254 },
  { base := Off.tier + 0x28, ty := .rwi, mask := 3, dflt := 3 },
  { base := Off.tier + 0x30, ty := .rwi, dflt := 12, lo := 7, hi := 28 },
  { base := Off.tier + 0x38, ty := .rwi, dflt := 25, hi := 50 },
  { base := Off.tier + 0x40, ty := .rwi, dflt := 200, lo := 50, hi := 1000 },
  { base := Off.tier + 0x48, ty := .rc },
  { base := Off.jrn, count := 3 },
  { base := Off.jrn + 0x18, ty := .rw, cls := [.a, .f, .c], mask := 0x3FFFF, staged := true },
  { base := Off.jrn + 0x20, ty := .rwi, dflt := 2048, lo := 1024, hi := 8192 },
  { base := Off.jrn + 0x28, ty := .rwi, dflt := 64, lo := 8, hi := 256 },
  { base := Off.jrn + 0x30, ty := .rwi, dflt := 20, lo := 5, hi := 50 },
  { base := Off.jrn + 0x38, ty := .rwi, dflt := 60, lo := 1, hi := 600 },
  { base := Off.jrn + 0x40, ty := .rwi, mask := 1 },
  { base := Off.jrn + 0x48, count := 2, ty := .rc } ]

/-- Translation, near-memory cores and shared units (Tables 22-12, 22-15). -/
def regTableC : List RegRow := [
  { base := Off.xlt, ty := .rw, cls := [.f, .m], mask := 0xE3FCFFFFFF03FFFF, staged := true },
  { base := Off.xlt + 0x08, ty := .rw, cls := [.f, .m], staged := true },
  { base := Off.xlt + 0x10, ty := .rw, cls := [.f, .m], mask := 0x1FFFF, staged := true },
  { base := Off.xlt + 0x18, count := 8, ty := .rw, cls := [.f, .m], mask := 0x8F000000FFFFFFFF, staged := true },
  { base := Off.xlt + 0x58, count := 5, ty := .rw, cls := [.f, .m], mask := 0, staged := true },
  { base := Off.xlt + 0x80, ty := .cmd, cls := [.f, .m] },
  { base := Off.xlt + 0x88, ty := .rw, cls := [.f, .m] },
  { base := Off.xlt + 0x100, ty := .rw, cls := [.a, .w, .f], mask := 0x8000FFFFFFFFF00F, staged := true },
  { base := Off.xlt + 0x108, ty := .rw, cls := [.a, .w, .f], mask := 0xFFFF, staged := true },
  { base := Off.xlt + 0x110, ty := .cmd, cls := [.a, .w, .f] },
  { base := Off.xlt + 0x118, ty := .rw, cls := [.a, .w, .f] },
  { base := Off.xlt + 0x200, ty := .rw, cls := [.a, .f], mask := 0xFF00FFFFFFFFFFFF, staged := true },
  { base := Off.xlt + 0x208, ty := .rw, cls := [.a, .f], mask := 0xFFFFFFFF0000, staged := true },
  { base := Off.xlt + 0x210, ty := .rw, cls := [.a, .f], staged := true },
  { base := Off.xlt + 0x218, ty := .rw, cls := [.a, .f], mask := 0, staged := true },
  { base := Off.xlt + 0x220, ty := .cmd, cls := [.w, .f] },
  { base := Off.xlt + 0x228, ty := .rw, cls := [.w, .f] },
  { base := Off.xlt + 0x300, ty := .wo, cls := [.w, .f] },
  { base := Off.xlt + 0x308, count := 2, ty := .rc },
  { base := Off.xlt + 0x318, ty := .rwi, dflt := 50, lo := 10, hi := 1000 },
  { base := Off.xlt + 0x320, ty := .rwi, dflt := 100, lo := 1, hi := 10000 },
  { base := Off.xlt + 0x328, ty := .rwi, dflt := 1024, lo := 16, hi := 65535 },
  { base := Off.xlt + 0x330, ty := .rwi, dflt := 100, lo := 10, hi := 10000 },
  { base := Off.xlt + 0x1000, count := 16, stride := 0x20, ty := .rw, cls := [.a, .w, .f],
    mask := 0x80FFFFFFFFFFF000 },
  { base := Off.xlt + 0x1008, count := 16, stride := 0x20, ty := .rw, cls := [.a, .w, .f], mask := 0x1FFFF },
  { base := Off.xlt + 0x1010, count := 16, stride := 0x20, ty := .rw, cls := [.w], mask := 0x1FFFF },
  { base := Off.xlt + 0x1018, count := 16, stride := 0x20 },
  { base := Off.core 0, count := 18, stride := 0x10000 },
  { base := Off.core 0 + 8, count := 18, stride := 0x10000 },
  { base := Off.core 0 + 0x10, count := 18, stride := 0x10000, ty := .rc },
  { base := Off.nmc, count := 256, stride := 0x40, ty := .rw, cls := [.a, .w], mask := 0x8000FFFFFFFFF000 },
  { base := Off.nmc + 0x08, count := 256, stride := 0x40, ty := .rw, cls := [.a, .w], mask := 0x80FFFFFFFFFFF000 },
  { base := Off.nmc + 0x10, count := 256, stride := 0x40, ty := .rw, cls := [.a, .w], mask := 0x1FFFF },
  { base := Off.nmc + 0x18, count := 256, stride := 0x40, ty := .wo, cls := [.w] },
  { base := Off.nmc + 0x20, count := 256, stride := 0x40 },
  { base := Off.nmc + 0x28, count := 256, stride := 0x40 },
  { base := Off.nmc + 0x30, count := 256, stride := 0x40, ty := .rw, cls := [.w], mask := 0x1FFFF },
  { base := Off.nmc + 0x10000, count := 2 },
  { base := Off.nmc + 0x10010, ty := .cmd, cls := [.f] },
  { base := Off.nmc + 0x10018, ty := .rw, cls := [.f] },
  { base := Off.nmc + 0x10020, ty := .rwi, dflt := 2, hi := 7 },
  { base := Off.nmc + 0x10028, ty := .rwi, dflt := 10000, lo := 1, hi := 3600000 },
  { base := Off.nmc + 0x10030, ty := .rwi, dflt := 1024, lo := 64, hi := 16384 },
  { base := Off.nmc + 0x10038, ty := .rwi, mask := 3, dflt := 3 },
  { base := Off.nmc + 0x10100, ty := .rw, cls := [.f], staged := true },
  { base := Off.nmc + 0x10108, ty := .rw, cls := [.f], mask := 0xFFFFFFFFFF, staged := true },
  { base := Off.nmc + 0x10110, count := 2, ty := .cmd, cls := [.f] },
  { base := Off.nmc + 0x10120, ty := .rw, cls := [.f] },
  { base := Off.nmc + 0x10128, count := 2 },
  { base := Off.gln, ty := .rw, cls := [.a, .f], mask := 0xFFFFFFFFFFC01FFF, staged := true },
  { base := Off.gln + 0x08, ty := .rw, cls := [.a, .f], mask := 0x1FFFFFFFFFF, staged := true },
  { base := Off.gln + 0x10, ty := .rw, cls := [.a, .f], staged := true },
  { base := Off.gln + 0x18, ty := .rw, cls := [.a, .f], mask := 0xFFFFFFFFFF001FFF, staged := true },
  { base := Off.gln + 0x20, ty := .rw, cls := [.a, .f], mask := 0xFFFF, staged := true },
  { base := Off.gln + 0x28, count := 11, ty := .rw, cls := [.a, .f], mask := 0, staged := true },
  { base := Off.gln + 0x80, ty := .cmd, cls := [.a, .f] },
  { base := Off.gln + 0x88, ty := .rw, cls := [.a, .f] },
  { base := Off.gln + 0x100, count := 16, ty := .rw, cls := [.f], staged := true },
  { base := Off.gln + 0x180, ty := .cmd, cls := [.f] },
  { base := Off.gln + 0x188, ty := .rw, cls := [.f] },
  { base := Off.gln + 0x200, count := 5, ty := .rc },
  { base := Off.gln + 0x300, ty := .rwi, dflt := 1000, lo := 16, hi := 65535 },
  { base := Off.gln + 0x308, ty := .rwi, dflt := 1000, lo := 100, hi := 10000 },
  { base := Off.gln + 0x310, ty := .rwi, dflt := 16, hi := 64 },
  { base := Off.gln + 0x318, ty := .rwi, dflt := 2048, hi := 16384 },
  { base := Off.gln + 0x320, ty := .rwi, dflt := 100, lo := 10, hi := 10000 },
  { base := Off.gln + 0x328, ty := .rwi, dflt := 150, lo := 110, hi := 400 },
  { base := Off.gln + 0x330, ty := .rwi, dflt := 80, lo := 10, hi := 95 },
  { base := Off.gln + 0x338, ty := .rwi, dflt := 10, lo := 1, hi := 3600 },
  { base := Off.gln + 0x340, ty := .rwi, mask := 3, dflt := 3 },
  { base := Off.prn, ty := .rw, cls := [.a, .f], mask := 0xFFFFFF80FFFFFFFF, staged := true },
  { base := Off.prn + 0x08, count := 4, ty := .rw, cls := [.a, .f], staged := true },
  { base := Off.prn + 0x28, ty := .rw, cls := [.a, .f], mask := 0xFFFFFFFF00000000, staged := true },
  { base := Off.prn + 0x30, count := 10, ty := .rw, cls := [.a, .f], mask := 0, staged := true },
  { base := Off.prn + 0x80, ty := .cmd, cls := [.a, .f] },
  { base := Off.prn + 0x88, ty := .rw, cls := [.a, .f] },
  { base := Off.prn + 0x100, count := 2, ty := .rc },
  { base := Off.prn + 0x200, count := 4 },
  { base := Off.cdc, count := 2, ty := .rc },
  { base := Off.cdc + 0x10 } ]

/-- Fleet, RAS, telemetry and Trellis (Tables 22-16, 23-3, 23-8). -/
def regTableD : List RegRow := [
  { base := Off.flt, count := 2 },
  { base := Off.flt + 0x10, ty := .wo, cls := [.f] },
  { base := Off.flt + 0x18, ty := .rwi, mask := 1 },
  { base := Off.flt + 0x20, ty := .rwi, mask := 3, dflt := 2, hi := 2 },
  { base := Off.flt + 0x28, ty := .rw, cls := [.f], mask := 0xFFFF },
  { base := Off.flt + 0x30, ty := .rwi, dflt := 2000, hi := 60000 },
  { base := Off.flt + 0x38, count := 2, ty := .rw, cls := [.f], staged := true },
  { base := Off.flt + 0x48, ty := .cmd, cls := [.f] },
  { base := Off.flt + 0x50, ty := .rw, cls := [.f] },
  { base := Off.flt + 0x58, ty := .rwi, mask := 0x1FE },
  { base := Off.flt + 0x60, ty := .rwi, dflt := 4, hi := 96 },
  { base := Off.flt + 0x68, ty := .rwi, dflt := 60, lo := 1, hi := 10080 },
  { base := Off.flt + 0x70, ty := .rwi, dflt := 168, lo := 1, hi := 2160 },
  { base := Off.flt + 0x78, ty := .rwi, dflt := 8, lo := 2, hi := 30 },
  { base := Off.ras, count := 2 },
  { base := Off.ras + 0x10, ty := .cmd, cls := [.f, .m] },
  { base := Off.ras + 0x18, ty := .rw, cls := [.f, .m] },
  { base := Off.ras + 0x100, ty := .rwi, dflt := 1440, lo := 1, hi := 10080 },
  { base := Off.ras + 0x108, ty := .rwi, dflt := 8, lo := 1, hi := 255 },
  { base := Off.ras + 0x110, ty := .rwi, dflt := 4, lo := 1, hi := 64 },
  { base := Off.ras + 0x118, ty := .rwi, dflt := 4, lo := 1, hi := 64 },
  { base := Off.ras + 0x120, ty := .rwi, dflt := 10000, lo := 100, hi := 1000000 },
  { base := Off.ras + 0x128, ty := .rwi, dflt := 1000, lo := 100, hi := 10000 },
  { base := Off.ras + 0x1000, count := 128 },
  { base := Off.ras + 0x4000, count := 64, stride := 0x40, ty := .rw, cls := [.w], mask := 0x8000FFFFFFFFF000 },
  { base := Off.ras + 0x4008, count := 64, stride := 0x40, ty := .rw, cls := [.w], mask := 0x1FFFF },
  { base := Off.ras + 0x4010, count := 64, stride := 0x40, ty := .rw, cls := [.w], mask := 0x1FFFF },
  { base := Off.ras + 0x4018, count := 64, stride := 0x40 },
  { base := Off.ras + 0x4020, count := 64, stride := 0x40, ty := .rw, cls := [.w], mask := 0xC0000000000000FF },
  { base := Off.ras + 0x20000, count := 16384 },
  { base := Off.tel, ty := .wo, cls := [.a, .f, .c] },
  { base := Off.tel + 8 },
  { base := Off.tel + 0x1000, count := 4608 },
  { base := Off.tel + 0x11000, count := 4675 },
  { base := Off.trl },
  { base := Off.trl + 8, ty := .wo, cls := [.f] },
  { base := Off.trl + 0x10 },
  { base := Off.trl + 0x100, count := 28, ty := .rw, cls := [.f, .m] },
  { base := Off.trl + 0x200, count := 2, ty := .wo, cls := [.f, .m] },
  { base := Off.trl + 0x210 },
  { base := Off.trl + 0x300, count := 16, ty := .rw, cls := [.f, .m], mask := 0x8000000000FFFFFF },
  { base := Off.trl + 0x400, ty := .wo, cls := [.f, .m] },
  { base := Off.trl + 0x408, ty := .rw, cls := [.f, .m] },
  { base := Off.trl + 0x410 } ]

def RegRow.holds (r : RegRow) (off : Nat) : Bool :=
  decide (r.base ≤ off) && decide ((off - r.base) % r.stride = 0) && decide ((off - r.base) / r.stride < r.count)

/-- The register at an offset; none where the space holds none (R472). -/
def regRow (off : Nat) : Option RegRow :=
  if off < Off.fab ∨ 0x1000000 ≤ off then regTableA.find? (·.holds off)
  else if off < Off.xlt then regTableB.find? (·.holds off)
  else if off < Off.flt then regTableC.find? (·.holds off)
  else regTableD.find? (·.holds off)

/-- Value that no image entry and no writer has set (R493, Table 22-18). -/
def regDefault (off : Nat) : Word :=
  match regRow off with
  | some r => r.dflt
  | none => 0

/-- The block code of a control-space offset (Tables 17-1, 22-2): the block base [29:16]; the window tables are the host ports'. -/
def blockOf (off : Nat) : BitVec 8 :=
  let b := off / 65536
  if 256 ≤ b then 4
  else if 0x50 ≤ b then BitVec.ofNat 8 b
  else BitVec.ofNat 8 ((([0x4C, 0x48, 0x44, 0x40, 0x3C, 0x38, 0x34, 0x32, 0x20, 0x1C, 0x18, 0x14, 0x10, 8, 4, 2, 1] : List Nat).find? (· ≤ b)).getD 0)

/-- The stored value of a register. -/
def regGet (s : State) (off : Nat) : Word :=
  Tab.get (regDefault off) s.regs.vals off

/-- Set a stored value. -/
def regSet (off : Nat) (v : Word) (s : State) : State :=
  s.modRegs fun r => { r with vals := Tab.put (regDefault off) off v r.vals }

/-- Key of a staging copy: 0 none of the named, 1-64 windows, 65 F, 66 C (R478). -/
def stageKey (writer off : Nat) : Nat := writer * 2 ^ 25 + off

def stageGet (s : State) (writer off : Nat) : Word := Tab.get 0 s.regs.vals (stageKey writer off)

def stageSet (writer off : Nat) (v : Word) (s : State) : State :=
  s.modRegs fun r => { r with vals := Tab.put 0 (stageKey writer off) v r.vals }

/-- Advance an RC counter, saturating at 64 bits (R481). -/
def countRC (off : Nat) (n : Nat) (s : State) : State :=
  regSet off (BitVec.ofNat 64 (Nat.min ((regGet s off).toNat + n) (2 ^ 64 - 1))) s

/-- The completion register at a DONE offset (Table 22-4). -/
def doneGet (s : State) (off : Nat) : Done := Tab.get {} s.regs.done off

def doneMod (off : Nat) (f : Done → Done) (s : State) : State :=
  s.modRegs fun r => { r with done := Tab.upd {} off f r.done }

/-! ### Values that other blocks read -/

/-- This device's own FDN: the fdn of FAB_IDENT (ID_FDN). -/
def ownFdn (s : State) : BitVec 16 := (regGet s (Off.fab + 0x2000)).extractLsb' 16 16

/-- FDN served: the adopted one after an adoption (FLT_STATUS.serving). -/
def servedFdn (s : State) : BitVec 16 := s.flt.adopted.getD (ownFdn s)

/-- The address in this device's store that a GSA names: the offset where the FDN is the one served here, and above 2^48
with the FDN's place where the extent is fostered (R411). -/
def addr (s : State) (g : Word) : Nat :=
  if fdnOf g = servedFdn s then offOf g else ((fdnOf g).toNat + 1) * 2 ^ 48 + offOf g

/-- The GSA of an address of this device's store. -/
def gsaAt (s : State) (a : Nat) : Word :=
  if a < 2 ^ 48 then mkGsa (servedFdn s) a else mkGsa (BitVec.ofNat 16 (a / 2 ^ 48 - 1)) a

def gsaOfLine (s : State) (line : Nat) : Word := gsaAt s (line * 128)

/-- A fenced device that no spare has adopted: nobody serves its FDN as its own (R406, R413). -/
def isFenced (s : State) (f : BitVec 16) : Bool := s.flt.fenced.contains f && !(s.flt.adoptions.any (·.1 == f))

/-- HOME_DEADLINE in ns (R107). -/
def deadlineNs (s : State) : Nat := 100 * (regGet s Off.home).toNat

/-- HOME_STAKE in ns (R135). -/
def stakeNs (s : State) : Nat := (regGet s (Off.home + 8)).toNat

/-- IID of a window (Table 15-3). -/
def winIid (s : State) (w : Nat) : BitVec 16 := (regGet s (Off.winCtl w)).setWidth 16

/-- A valid IID range of Table 22-7 (CFG_MGMT_IID, CFG_FM_IID). -/
def rangeHas (v : Word) (iid : BitVec 16) : Bool :=
  bitOf v 63 && decide (fld v 15 0 ≤ iid.toNat) && decide (iid.toNat ≤ fld v 31 16)

def mgmtIid (s : State) (iid : BitVec 16) : Bool :=
  (List.range 16).any fun i => rangeHas (regGet s (Off.cfg + 0x100 + 8 * i)) iid

def fmIid (s : State) (iid : BitVec 16) : Bool :=
  (List.range 8).any fun i => rangeHas (regGet s (Off.cfg + 0x180 + 8 * i)) iid

/-- FLT_CTL.standalone. -/
def standalone (s : State) : Bool := bitOf (regGet s (Off.flt + 0x18)) 0

/-- TIER_STRIPE_RES in half percents: 0 by default on a standalone device (R55, Table 22-18). -/
def stripeRes (s : State) : Nat :=
  if standalone s && (s.cfg.entries.all fun e => e.1 != Off.tier + 0x38) then 0 else (regGet s (Off.tier + 0x38)).toNat

/-- FLT_CELL slot and mesh facts of FAB_IDENT (Table 16-3). -/
def ownRack (s : State) : Nat := fld (regGet s (Off.fab + 0x2000)) 15 5
def ownSlot (s : State) : Nat := fld (regGet s (Off.fab + 0x2008)) 63 60

/-- Take a member of the rack cell at its slot (R355). -/
def putSlot (slot : Nat) (f : BitVec 16) : List (Nat × BitVec 16) → List (Nat × BitVec 16)
  | [] => [(slot, f)]
  | x :: l => if slot < x.1 then (slot, f) :: x :: l else if slot = x.1 then (slot, f) :: l else x :: putSlot slot f l

/-- The slot at which this device serves: its own, or the adopted device's. -/
def mySlot (s : State) : Nat :=
  match s.flt.cell.find? (fun p => p.2 == servedFdn s) with
  | some p => p.1
  | none => ownSlot s

/-- The devices of the rack cell, this one among them, by slot. -/
def cellAll (s : State) : List (Nat × BitVec 16) := putSlot (mySlot s) (servedFdn s) s.flt.cell

/-- The next live device of a cell after a slot (R409). -/
def nextLive (s : State) (slot : Nat) (but : BitVec 16) : Option (BitVec 16) :=
  let l := (cellAll s).filter fun p => !isFenced s p.2 && p.2 != but
  match l.find? (fun p => decide (slot < p.1)) with
  | some p => some p.2
  | none => l.head?.map (·.2)

end Sys2Proof.Machine
end

