-- ==== Sys2Proof/Machine/Report.lean ====
section
/-! DEFINITION. What the device reports: error records and their coalescing (R382-R385, R494), RAS counts (R398), events
and their queues (R386-R388), extent rights (R18, R19), and the answers of the home with LOAD and SHARE (R92, R105,
R106, R112). -/

namespace Sys2Proof.Machine

open Sys2Proof

/-! ### Extents as read by every block -/

def extDesc (s : State) (e : Nat) : ExtDesc := Tab.get {} s.ext.table e

def regionEnt (s : State) (k : Nat) : RegionEnt := Tab.get {} s.ext.regions k

/-- Key of the head granule of the region that granule key `k` belongs to (Table 02-4). -/
def headOf (s : State) (k : Nat) : Nat :=
  let base := k / 512 * 512
  (List.range (k % 512 + 1)).foldl (fun h i => if (regionEnt s (base + i)).head then base + i else h) base

/-- The region entry that governs a GSA: its head entry. -/
def regionOf (s : State) (g : Word) : RegionEnt := regionEnt s (headOf s (granKey (addr s g)))

def Range.has (r : Range) (iid : BitVec 16) : Bool :=
  r.valid && decide (r.lo.toNat ≤ iid.toNat) && decide (iid.toNat ≤ r.hi.toNat)

/-- The union of the valid ranges that hold the IID (R19). -/
def rightsOf (d : ExtDesc) (iid : BitVec 16) : Rights :=
  (d.ranges.filter (Range.has · iid)).foldl
    (fun a r => { rd := a.rd || r.rd, wr := a.wr || r.wr, atom := a.atom || r.atom, own := a.own || r.own }) {}

/-! ### Events (R386-R388) -/

def evqCtl (s : State) (w : Nat) : Word := regGet s (Off.evq w + 0x20)
def evqOf (s : State) (w : Nat) : Evq := Tab.get {} s.ras.evq w

/-- Queues that R388 names for an event of an initiator and an extent. -/
def evTargets (s : State) (iid : BitVec 16) (ext : Option Nat) : List Nat :=
  (List.range 64).filter fun w =>
    bitOf (evqCtl s w) 63 &&
      (bitOf (evqCtl s w) 62 || (decide (iid ≠ 0) && decide (winIid s w = iid)) ||
        (match ext with
         | none => false
         | some e => (extDesc s e).ranges.any (Range.has · (winIid s w))))

/-- A record takes one of the queue's 64 places, or is dropped and overflow is remembered (R498, R388). -/
def Evq.add (q : Evq) (e : EventRec) : Evq :=
  if q.waiting.length < 64 then { q with waiting := q.waiting ++ [{ e with overflow := q.overflow }], overflow := false }
  else { q with overflow := true }

/-- Post an event. `src` is the originating device of the request it concerns, none where it concerns no request. -/
def post (e : EventRec) (ext : Option Nat) (src : Option (BitVec 16)) (s : State) : State :=
  let e := { e with time := now s }
  let t := (evTargets s e.iid ext).foldl (fun t w => t.modRas fun r => { r with evq := Tab.upd {} w (·.add e) r.evq }) s
  match src with
  | none => t
  | some f =>
    if e.iid ≠ 0 ∧ f ≠ ownFdn s ∧ (List.range 64).all (fun w => winIid s w != e.iid) then emit (.eventMsg f e) t else t

/-- An event that names only a device-wide object. -/
def postDev (ty : BitVec 8) (object : Word) (s : State) : State :=
  post { etype := ty, object := object, fdn := ownFdn s } none none s

/-- An event that concerns an extent. -/
def postExt (ty : BitVec 8) (ext : Nat) (s : State) : State :=
  post { etype := ty, object := gsaAt s (ext * 2 ^ 30), fdn := ownFdn s } (some ext) none s

/-! ### Error records (R382-R385) -/

def ErrRec.sameKey (a b : ErrRec) : Bool :=
  decide (a.cls = b.cls) && decide (a.code = b.code) && decide (a.block = b.block) && decide (a.inst = b.inst) &&
    decide (a.gsa = b.gsa)

/-- RAS_CNT counts every occurrence (R398). -/
def countErr (e : ErrRec) (s : State) : State :=
  s.modRas fun r => { r with cnt := Tab.upd 0 (4 * e.cls.toNat + e.sev.toNat) (fun n => Nat.min (n + 1) (2 ^ 64 - 1)) r.cnt }

/-- The log keeps the last 2,048 records; HEAD is the oldest sequence number still held (R382). -/
def appendErr (e : ErrRec) (r : Ras) : Ras :=
  let l := r.log ++ [{ e with seq := r.tail }]
  let l' := l.drop (l.length - 2048)
  { r with log := l', tail := r.tail + 1, head := r.tail + 1 - BitVec.ofNat 32 l'.length }

/-- Does an earlier record take this occurrence (R385)? -/
def joins (s : State) (e a : ErrRec) : Bool :=
  let storm := match s.ras.stormEnd with
    | some t => decide (now s < t) && decide (t ≤ a.time + 1000000000)
    | none => false
  if storm && decide (e.sev = 0) then decide (a.cls = e.cls) && decide (a.sev = 0)
  else decide (e.sev ≠ 3) && a.sameKey e && decide (now s ≤ a.time + 1000000)

/-- The occurrences of a corrected error within RAS_CE_WINDOW, this one with them (R4, R399). -/
def ceNote (s : State) (l : List Nat) : List Nat :=
  (l.filter fun t => decide (now s < t + (regGet s (Off.ras + 0x100)).toNat * 60000000000)) ++ [now s]

/-- Write or coalesce one record, and post its ERROR event unless it is CORRECTED (R385, R388). -/
def writeErr (e : ErrRec) (src : Option (BitVec 16)) (s : State) : State :=
  if s.ras.log.any (joins s e) then
    s.modRas fun r => { r with log := modFirst (joins s e) (fun a => { a with count := a.count + e.count }) r.log }
  else
    let t := s.modRas (appendErr { e with time := now s })
    if e.sev = 0 then t
    else post { etype := 0x01, severity := e.sev, iid := e.iid, object := e.gsa, fdn := e.fdn, seq := s.ras.tail }
      (if e.gsa = 0 then none else some (extOf (addr s e.gsa))) src t

/-- The CORRECTED records written in the present second, and the crossing of RAS_CE_STORM (R385, R399). -/
def stormCount (e : ErrRec) (s : State) : State :=
  if e.sev ≠ 0 || s.ras.log.any (joins s e) then s
  else
    let fresh := s.ras.ceCount = 0 ∨ s.ras.ceSince + 1000000000 ≤ now s
    let n := if fresh then 1 else s.ras.ceCount + 1
    let t := s.modRas fun r => { r with ceCount := n, ceSince := if fresh then now s else r.ceSince }
    if n = (regGet s (Off.ras + 0x120)).toNat ∧ s.ras.stormEnd.all (fun t => decide (t ≤ now s)) then
      let x : ErrRec := { cls := e.cls, sev := 0, code := 0x0C, block := 0x44, detail0 := BitVec.ofNat 32 (Off.ras + 0x120) }
      let u := writeErr x none (countErr x t)
      postDev 0x34 (BitVec.ofNat 64 (Off.ras + 0x120))
        (u.modRas fun r => { r with stormEnd := some (now s + 1000000000) })
    else t

/-- Raise an error record; the composition of the extent concerned is filled in (Table 17-1). -/
def raiseFrom (src : Option (BitVec 16)) (e : ErrRec) (s : State) : State :=
  let e := { e with comp := if e.gsa = 0 then 0 else (extDesc s (extOf (addr s e.gsa))).comp }
  writeErr e src (stormCount e (countErr e s))

def raise (e : ErrRec) (s : State) : State := raiseFrom none e s

/-- A CONFIG record of code REJECTED (R494); `off` is the control-space offset concerned. -/
def rejected (off : Nat) (s : State) : State :=
  raise { cls := 0x0C, code := 0x07, block := blockOf off, detail0 := BitVec.ofNat 32 off } s

/-- A CONFIG record of code MISMATCH (R494). -/
def mismatch (off : Nat) (s : State) : State :=
  raise { cls := 0x0C, code := 0x05, block := blockOf off, detail0 := BitVec.ofNat 32 off } s

/-! ### Answers of the home -/

/-- Mode, in words: is the device in service and admitting (R27, R425, R453, R78)? -/
def admitting (s : State) : Bool := decide (s.sys.phase = .service) && !s.sys.closed

/-- Units of a segment (R64): 1 MiB of 32-byte units. -/
def segUnits : Nat := 32768

/-- Occupancy in units (R69): from the oldest segment that is not wholly programmed to the newest slot, PAD and mirrored records
included. -/
def ringUnits (s : State) : Nat :=
  let left := s.jrn.segs.filter fun g => s.jrn.ring.any fun x => !x.programmed && x.seg == g.id
  match left.map (·.id) with
  | [] => 0
  | i :: is =>
    let last := s.jrn.nextSeg - 1
    (last - is.foldl Nat.min i) * segUnits + (match s.jrn.segs.find? (·.id == last) with | some g => g.units | none => segUnits)

/-- With `n` more units, does occupancy reach `pct` per cent of the usable ring (R64, R69)? A ring of size 0 counts as full. -/
def ringAbove (s : State) (n pct : Nat) : Bool := decide (pct * s.jrn.ringSize ≤ 100 * (32 * (ringUnits s + n)))

/-- The ring figure of LOAD (R69). -/
def ringLoad (s : State) : Nat :=
  let f := if s.jrn.ringSize = 0 then 15 else Nat.min 15 (15 * (32 * ringUnits s) / s.jrn.ringSize)
  if ringAbove s 0 60 then Nat.max 12 f else f

def PReq.line (p : PReq) : Nat := lineOf p.a

/-- Busy-line entries in use at a slice (R126). -/
def busyLines (s : State) (sl : Nat) : Nat :=
  ((s.coh.txns.map (·.line) ++ s.coh.stakes.map (·.1) ++ s.coh.reserved.map (·.1)).filter fun l => sliceOf (l * 128) == sl).dedup.length

/-- Fills in flight (R106). -/
def fillsOut (s : State) : Nat :=
  (s.tier.tags.filter fun e => e.2.state == .filling || e.2.merging).length

def sameEgress : Ingress → Ingress → Bool
  | .port p _, .port q _ => decide (p = q)
  | .aperture w _, .aperture v _ => decide (w.val / 16 = v.val / 16)
  | .port p _, .aperture w _ => decide (p.val = w.val / 16)
  | .aperture w _, .port p _ => decide (p.val = w.val / 16)
  | .link n, .link m => decide (n = m)
  | _, _ => false

/-! ### Links and routes, as every block sees them (R354, R358, R371) -/

def fabAt (s : State) (n : Nat) : FabLink := Tab.get {} s.fab.links n
def modFabLink (n : Nat) (f : FabLink → FabLink) (s : State) : State :=
  s.modFab fun b => { b with links := Tab.upd {} n f b.links }

/-- Roles of Table 16-2: links 0-14 are mesh links. -/
def isMesh (n : Nat) : Bool := decide (n < 15)
def linkUpNow (s : State) (n : Nat) : Bool := (fabAt s n).state == .active

/-- The 32-bit route entry of an FDN (Table 16-10). -/
def routeEnt (s : State) (f : BitVec 16) : Nat :=
  (regGet s (Off.fab + 0x40000 + 8 * (f.toNat / 2))).toNat / 2 ^ (32 * (f.toNat % 2)) % 2 ^ 32

/-- The active links towards a destination (R358, R371, R407). DEDUCED (log 55): an optical link whose observed peer is the destination
serves where the table gives no live link, as R381 says of a new peer. -/
def linkMask (s : State) (dst : BitVec 16) : List Nat :=
  let d := match s.fab.redirect.find? (fun p => p.1 == dst.toNat) with | some p => BitVec.ofNat 16 p.2 | none => dst
  match (List.range 15).find? (fun n => linkUpNow s n && (fabAt s n).peer == d) with
  | some n => [n]
  | none =>
    let e := routeEnt s d
    let byTable := if e % 2 = 1 then (List.range 24).filter fun i => (e / 256).testBit i && linkUpNow s i && !s.flt.fenced.contains (fabAt s i).peer else []
    if byTable.isEmpty then (List.range 24).filter fun n => linkUpNow s n && (fabAt s n).peer == d else byTable

/-! ### The answer reserve (R108, R368) -/

/-- An answer still needs its place: its request is not answered, or it has reached the fabric and waits for flits. -/
def AnsRes.held (x : AnsRes) : Bool := !x.done || x.routed

/-- Places of a link's reserve of 2,048 answers in use. -/
def linkUsed (s : State) (n : Fin 24) : Nat := (s.fab.answers.filter fun x => x.link == some n && x.held).length

/-- The link of the route of an originator with most free answer space, the lower number of equals; none where all are full. -/
def answerLink (s : State) (dst : BitVec 16) : Option (Fin 24) :=
  ((linkMask s dst).map (Fin.ofNat 24)).foldl (fun b n =>
    if 2048 ≤ linkUsed s n then b
    else match b with
      | none => some n
      | some m => if linkUsed s n < linkUsed s m then some n else b) none

/-- Every link towards an originator is full: the ingress withholds its credits. -/
def answerFull (s : State) (dst : BitVec 16) : Bool := !(linkMask s dst).isEmpty && (answerLink s dst).isNone

def sameAns (iid tag dst : BitVec 16) (x : AnsRes) : Bool := x.iid == iid && x.tag == tag && x.dst == dst

/-- A request of another device is accepted: its answer gets a place at a link (R368). -/
def reserveAnswer (r : Req) (s : State) : State :=
  match r.ing with
  | .link _ => s.modFab fun b => { b with
      answers := (b.answers.filter fun x => !sameAns r.iid r.tag r.src x) ++
        [{ iid := r.iid, tag := r.tag, dst := r.src, link := answerLink s r.src }] }
  | _ => s

/-- The link that carries the answer of a request, where one has been chosen. -/
def ansOf (s : State) (r : Req) : Option AnsRes := s.fab.answers.find? (sameAns r.iid r.tag r.src)

/-- Answer entries of a host port in use (R108): requests that it has sent and that are not answered. -/
def portUsed (s : State) (p : Nat) : Nat :=
  (s.hp.reqs.filter fun q => q.win.val / 16 == p && q.sent.isSome).length +
    (s.hp.aper.filter fun a => a.1 / 4096 == p && a.2.pending && !a.2.waits).length

/-- Fraction of the answer space in use of the egress that carries a request's answer, in fifteenths (R106, R108, R368). -/
def egressLoad (s : State) (r : Req) : Nat :=
  match r.ing with
  | .port p _ => Nat.min 15 (15 * portUsed s p.val / 4096)
  | .aperture w _ => Nat.min 15 (15 * portUsed s (w.val / 16) / 4096)
  | .link _ => (match ((ansOf s r).bind (·.link)).or (answerLink s r.src) with | some n => Nat.min 15 (15 * linkUsed s n / 2048) | none => 0)
  | _ => 0

/-- A write to a DURABLE or PAIRED extent (R106). -/
def isDurableWrite (s : State) (r : Req) : Bool :=
  (decide (r.op = 0x02) || decide (r.op = 0x03) || decide (r.op = 0x04) || decide (r.op = 0x08)) &&
    decide ((extDesc s (extOf (addr s r.gsa))).durability ≠ .cached)

/-- LOAD of an answer (R106). -/
def loadOf (s : State) (r : Req) : Nat :=
  let sl := sliceOf (addr s r.gsa)
  let w := (s.home.waiting.filter fun p => sliceOf p.a == sl && p.why != .ingress).length +
    (s.coh.queue.filter fun q => sliceOf (128 * q.line) == sl && (match q.item with | .coh _ _ _ _ _ => true | _ => false)).length +
    (s.coh.held.filter fun x => sliceOf (addr s x.m.gsa) == sl && (match x.what with | .req _ => true | _ => false)).length
  let q := Nat.min 15 (Nat.max (15 * busyLines s sl / 256) (15 * w / 1024))
  let f := Nat.min 15 (15 * fillsOut s / 32768)
  Nat.min 15 (Nat.max (Nat.max q f) (Nat.max (egressLoad s r) (if isDurableWrite s r then ringLoad s else 0)))

/-- Bucket of an IID (R115). -/
def bucketOf (s : State) (iid : BitVec 16) : Nat :=
  match (List.range 64).find? (fun i => rangeHas (regGet s (Off.home + 0x400 + 8 * i)) iid) with
  | some i => fld (regGet s (Off.home + 0x400 + 8 * i)) 39 32
  | none => 0

def bktEnabled (s : State) (b : Nat) : Bool := bitOf (regGet s (Off.bkt b 0)) 63
def bktAdapt (s : State) (b : Nat) : Bool := bitOf (regGet s (Off.bkt b 0)) 62
def bktMax (s : State) (b : Nat) : Nat := fld (regGet s (Off.bkt b 0)) 31 0
def bktMin (s : State) (b : Nat) : Nat := fld (regGet s (Off.bkt b 1)) 63 32
def bktWeight (s : State) (b : Nat) : Nat := fld (regGet s (Off.bkt b 0)) 47 32
def bktBurst (s : State) (b : Nat) : Nat := fld (regGet s (Off.bkt b 1)) 31 0
def bucketRec (s : State) (b : Nat) : Bucket := Tab.get {} s.home.buckets b

/-- Current rate: rate_max unless adapt is 1 and a rate has been set (Table 05-8, R117). -/
def bktRate (s : State) (b : Nat) : Nat :=
  if bktAdapt s b then (bucketRec s b).rateEff.getD (bktMax s b) else bktMax s b

/-- SHARE (R106). -/
def shareOf (s : State) (iid : BitVec 16) : Nat :=
  let b := bucketOf s iid
  if bktEnabled s b then Nat.min 15 (ceilDiv (16 * bktRate s b) (Nat.max 1 (bktMax s b)) - 1) else 15

/-- Hint in units of 250 ns for a wait of `ns`, capped (R112). -/
def hintOf (ns : Nat) : BitVec 10 := BitVec.ofNat 10 (Nat.min 0x3FF (ceilDiv ns 250))

/-- TEL counters (Table 23-8) wrap modulo 2^64. What each counts is as log 104 says (DESIGN CHOICE). -/
def telAdd (off n : Nat) (s : State) : State :=
  s.modTel fun t => { t with live := Tab.upd 0 off (fun v => (v + n) % 2 ^ 64) t.live }

/-- An advance of a counter that this device waits on has been answered (R98): lost, done, or to be retried. -/
def advanceDone (tag : BitVec 16) (iid : BitVec 16) (st : Status) (hint : BitVec 10) (s : State) : State :=
  match s.home.advances.find? (fun a => a.id % 65536 == tag.toNat && a.iid == iid) with
  | none => s
  | some a =>
    if st = .ok then s.modHome fun h => { h with advances := h.advances.filter (·.id != a.id) }
    else if st = .ny ∧ now s < a.first + 100000000 then
      s.modHome fun h => { h with advances := h.advances.map fun b =>
        if b.id = a.id then { b with retryAt := now s + 250 * hint.toNat } else b }
    else
      post { etype := 0x22, status := BitVec.ofNat 5 (stCode st), iid := iid, object := a.gsa, fdn := fdnOf a.gsa } none a.src
        (s.modHome fun h => { h with advances := h.advances.filter (·.id != a.id) })

/-- The answer of an access reaches the engine that made it: kept for its observer, or on NY to be retried after its hint
(R182, R228). -/
def accAnswered (t : Nat) (id : Nat) (st : Status) (hint : BitVec 10) (data : List Byte) (reads : List Access) (rx : List Rx) :
    List Access × List Rx :=
  match reads.find? (·.id == id) with
  | none => (reads, rx)
  | some a =>
    if st = .ny then (reads.map fun x => if x.id = id then { x with retryAt := some (t + 250 * hint.toNat) } else x, rx)
    else (reads.filter (·.id != id), rx ++ [{ who := a.who, key := a.key, st := st, data := data }])

def jobAnswered (core ctx : Nat) (id : Nat) (st : Status) (hint : BitVec 10) (data : List Byte) (s : State) : State :=
  s.modNmc fun n => { n with jobs := n.jobs.map fun e => if e.1 = core * 8 + ctx then
    (e.1, (let (r, x) := accAnswered (now s) id st hint data e.2.reads e.2.rx; { e.2 with reads := r, rx := x, progressAt := now s }))
    else e }

def unitAnswered (u : Nat) (id : Nat) (st : Status) (hint : BitVec 10) (data : List Byte) (s : State) : State :=
  s.modNmc fun n => { n with units := Tab.upd {} u (fun i =>
    (let (r, x) := accAnswered (now s) id st hint data i.reads i.rx; { reads := r, rx := x })) n.units }

/-- The answer of another device's request enters the reserve of its link, which is its commit point; with no link left it is absorbed
(R107, R110, R368). -/
def answerOut (r : Req) (a : Answer) (s : State) : State :=
  let s := if (ansOf s r).isSome then s else reserveAnswer r s
  match (ansOf s r).bind (·.link) with
  | some n => emit (.answer (.link n) a) (s.modFab fun b => { b with
      answers := b.answers.map fun x => if sameAns r.iid r.tag r.src x then { x with done := true } else x })
  | none => countRC (Off.home + 0x28) 1 (s.modFab fun b => { b with answers := b.answers.filter fun x => !sameAns r.iid r.tag r.src x })

/-- The answer of a request enters its commit point (R92, R105-R107); data only with OK or FEWER. An answer to an engine of
this device, or to its own queue access or counter advance, is not presented outside. -/
def answer (r : Req) (st : Status) (hint : BitVec 10) (data : List Byte) (s : State) : State :=
  let l := loadOf s r
  let a : Answer := {
    st := st, load := BitVec.ofNat 4 l, share := BitVec.ofNat 4 (shareOf s r.iid)
    hint := if st = .ny then hint else 0, dst := r.src, iid := r.iid, tag := r.tag
    data := if st = .ok ∨ st = .fewer then data else [] }
  let t := telAdd (0x1600 + 8 * l) 1 (telAdd (0x1500 + 8 * (stCode st)) 1 s)
  match r.ing with
  | .nmc core ctx => jobAnswered core ctx r.tag.toNat st a.hint a.data t
  | .unitOf u => unitAnswered u r.tag.toNat st a.hint a.data t
  | .record => t.modHome fun h => { h with ownAns := h.ownAns ++ [(r.tag, st, a.data)] }
  | .own => if r.aop = 0xF then advanceDone r.tag r.iid st hint t else emit (.answer r.ing a) t
  | .link _ => answerOut r a t
  | _ => emit (.answer r.ing a) t

/-! ### Fleet messages to one device (R401) -/

/-- The header of this device's next message. -/
def fleetHdr (s : State) (subject : BitVec 16) (epoch : Nat) (drill : Bool) : FleetHdr :=
  { src := ownFdn s, drill := drill, subject := subject, mseq := s.flt.nextMseq, epoch := epoch }

/-- Send a message to one device. -/
def tell (ty : BitVec 8) (dst subject : BitVec 16) (drill : Bool) (body : List Word) (s : State) : State :=
  emit (.fleet ty (some dst) (fleetHdr s subject s.flt.epoch drill) body) (s.modFlt fun f => { f with nextMseq := f.nextMseq + 1 })

end Sys2Proof.Machine
end

