-- ==== Sys2Proof/Machine/Shards.lean ====
section
/-! DEFINITION. Embedding tables as the rest of the device sees them: where rows and windows lie (R265, R266), which lines of the
store belong to a shard (R284, R286, R287), and the cuttings that a write must end first (R285). -/

namespace Sys2Proof.Machine

open Sys2Proof

/-! ### Descriptors (Tables 12-1 and 12-2) -/

def TableVer.w (t : TableVer) (i : Nat) : Word := wordAt t.words i
def TableVer.fmt (t : TableVer) : Nat := fld (t.w 0) 31 24
def TableVer.exact (t : TableVer) : Bool := bitOf (t.w 0) 23
def TableVer.cutOk (t : TableVer) : Bool := bitOf (t.w 0) 22
def TableVer.rowBytes (t : TableVer) : Nat := fld (t.w 0) 12 0
def TableVer.rows (t : TableVer) : Nat := fld (t.w 1) 40 0
def TableVer.group (t : TableVer) : Nat := fld (t.w 3) 63 32
def TableVer.shift (t : TableVer) : Nat := fld (t.w 3) 31 24
def TableVer.shards (t : TableVer) : Nat := fld (t.w 3) 12 0
def TableVer.emin (t : TableVer) : Int := ((t.w 4).setWidth 16).toInt

/-- Bytes of an element of elem_fmt. -/
def tableElem (fmt : Nat) : Nat := if fmt = 1 then 4 else if fmt = 2 ∨ fmt = 3 then 2 else 1

def TableVer.es (t : TableVer) : Nat := tableElem t.fmt
/-- E, the elements of a row (R265). -/
def TableVer.e (t : TableVer) : Nat := t.rowBytes / t.es

/-- The least power of two at or above n. -/
def pow2Up (n : Nat) : Nat := if n ≤ 1 then 1 else 2 ^ (Nat.log2 (n - 1) + 1)

/-- The row stride (R265). -/
def TableVer.stride (t : TableVer) : Nat := pow2Up t.rowBytes

def TableVer.shardOf (t : TableVer) (row : Nat) : Nat := row / 2 ^ t.shift
def TableVer.entry (t : TableVer) (shard : Nat) : Word × Word := t.map.getD shard (0, 0)

/-- The address of a row; none where its shard is absent (R266). -/
def TableVer.rowAt (t : TableVer) (row : Nat) : Option Word :=
  let b := (t.entry (t.shardOf row)).1
  if b = 0 then none else some (b + BitVec.ofNat 64 (row % 2 ^ t.shift * t.stride))

/-- The address of a row's windows (R266). -/
def TableVer.winAt (t : TableVer) (row : Nat) : Word :=
  (t.entry (t.shardOf row)).2 + BitVec.ofNat 64 (row % 2 ^ t.shift * (16 * t.e))

/-- Lines from the one that holds byte `a`, over `n` bytes. -/
def linesOver (a n : Nat) : List Nat := (List.range ((a + n - 1) / 128 - a / 128 + 1)).map (a / 128 + ·)

/-- The line GSAs of a row. -/
def TableVer.rowLines (t : TableVer) (g : Word) : List Word :=
  (linesOver (offOf g) t.rowBytes).map fun l => mkGsa (fdnOf g) (128 * l)

/-! ### Shards by address -/

/-- Bytes of a shard's rows and windows. -/
def TableVer.rowSpan (t : TableVer) : Nat := 2 ^ t.shift * t.stride
def TableVer.winSpan (t : TableVer) : Nat := if t.exact then 2 ^ t.shift * (16 * t.e) else 0

/-- Which shard of a table holds a store address in its rows (`win` false) or windows. -/
def TableVer.shardAt (s : State) (t : TableVer) (win : Bool) (a : Nat) : Option Nat :=
  let span := if win then t.winSpan else t.rowSpan
  (List.range t.map.length).find? fun i =>
    let b := if win then (t.entry i).2 else (t.entry i).1
    (t.entry i).1 != 0 && decide (addr s b ≤ a ∧ a < addr s b + span)

/-- The live table version and shard whose rows, or windows, a store address lies in. -/
def shardAt (s : State) (win : Bool) (a : Nat) : Option (TableVer × Nat) :=
  s.emb.tables.reverse.findSome? fun t => if t.live then (t.shardAt s win a).map (t, ·) else none

/-- Rows that lie in a line. -/
def rowsOfLine (s : State) (t : TableVer) (shard line : Nat) : List Nat :=
  let o := 128 * line - addr s (t.entry shard).1
  let first := shard * 2 ^ t.shift + o / t.stride
  (List.range (Nat.max 1 (128 / t.stride))).map (first + ·)

/-- Count lines of a shard that are read at the home or committed by adds and harvests (R286). -/
def countShard (t : TableVer) (shard n : Nat) (s : State) : State :=
  s.modEmb fun e => { e with loads := Tab.upd 0 (t.handle * 4096 + shard) (· + n) e.loads }

/-- A row line has been read at its home (R286). -/
def noteRead (line : Nat) (s : State) : State :=
  match shardAt s false (128 * line) with
  | some (t, i) => countShard t i 1 s
  | none => s

/-- A line has been written: a transplant that copies its extent notes it (R287), and so does a table that allows cuttings (R284). -/
def noteWrite (line : Nat) (s : State) : State :=
  let s := match s.emb.xplant with
    | some x =>
      if x.exts.contains (extOfLine line) ∧ (x.step = 2 ∨ x.step = 3) ∧ !x.bitmap.contains line then
        s.modEmb fun e => { e with xplant := some { x with bitmap := x.bitmap ++ [line] } }
      else s
    | none => s
  match shardAt s false (128 * line) with
  | some (t, _) =>
    if t.cutOk then s.modEmb fun e => { e with written := (e.written.filter (·.1 != line)) ++ [(line, now s)] } else s
  | none => s

/-! ### Cuttings that a write ends (R285) -/

/-- Cuttings of rows in a line that are still live. -/
def cutsOn (s : State) (line : Nat) : List Cut :=
  match shardAt s false (128 * line) with
  | none => []
  | some (t, i) =>
    let rows := rowsOfLine s t i line
    s.emb.cuts.filter fun c => c.handle == t.handle && rows.contains c.row && decide (now s < c.lease)

/-- Ask every holder of a live cutting of the line to drop it, once. -/
def dropCuts (line : Nat) (s : State) : State :=
  let cs := (cutsOn s line).filter fun c => !c.dropping
  emitAll (cs.map fun c => .cutDrop c.holder c.handle c.row) (s.modEmb fun e => { e with
    cuts := e.cuts.map fun c => if cs.contains c then { c with dropping := true } else c })

/-- The latest lease end of the live cuttings of a line. -/
def cutsUntil (s : State) (line : Nat) : Nat := ((cutsOn s line).map (·.lease)).foldl Nat.max 0

/-! ### Lines held by open commit groups (R181, R278) -/

/-- An open commit group, whose records are in their slots, writes the line. -/
def groupHolds (s : State) (line : Nat) : Bool :=
  let hits (w : GrpWrite) : Bool := w.line == line || (w.coded.isSome && w.line / 32 == line / 32)
  (s.nmc.jobs.any fun e => decide (e.2.phase = .committing) && !e.2.group.isEmpty && e.2.writes.any hits) ||
    s.emb.queues.any fun q => q.2.writes.any hits

end Sys2Proof.Machine
end

