-- ==== Sys2Proof/Machine/Tier.lean ====
section
/-! DEFINITION. The tiered store: frames, tags, victims, fills, write-backs and the flash map (R37-R59, R389, R496), as
operations on the tier and flash sub-records. The meanings of the tier commands stand in Machine/TierCmds.lean. -/

namespace Sys2Proof.Machine

open Sys2Proof

def Tag.isFree (t : Tag) : Bool := decide (t.state = .free)

def tagOf (s : State) (f : Nat) : Tag := Tab.get {} s.tier.tags f

def modTag (f : Nat) (g : Tag → Tag) (s : State) : State :=
  s.modTier fun t => { t with tags := Tab.upd {} f g t.tags }

/-- Number of sets: the tier cache size divided by 256 KiB. -/
def nsets (s : State) : Nat := Nat.max 1 (s.tier.carve.getD 0 0 * 4096)

/-- Set of a frame (R39). -/
def setOf (s : State) (f : Nat) : Nat := Nat.xor f (f / 2 ^ 20) % nsets s

/-- Tags of a set, with their frame numbers. -/
def setTags (s : State) (st : Nat) : List (Nat × Tag) := s.tier.tags.filter fun e => setOf s e.1 == st

def extOfFrame (f : Nat) : Nat := f / 65536
def policyOf (s : State) (f : Nat) : TierPolicy := (extDesc s (extOfFrame f)).policy

/-- Way number not in use in a set of fewer than 16 tags. -/
def freeWay (ts : List (Nat × Tag)) : Nat :=
  ((List.range 16).find? fun w => ts.all fun e => e.2.way != w).getD 0

/-- The flash map entry of a mapping unit. -/
def mapOf (s : State) (mu : Nat) : MapEnt := Tab.get {} s.flash.map mu

/-- The mapping units in which a record's data lie (R65): a coded block's are its segment's two (R244). -/
def recMus (s : State) (rc : JRec) : List Nat :=
  let a := addr s rc.gsa
  match rc.body with
  | .coded _ => if a / 128 % 2 ^ 23 < 8192 then [muOf a] else [a / 131072 * 2, a / 131072 * 2 + 1]
  | _ => [muOf a]

/-- The jsn up to which every record of a mapping unit has reached HBM: a tentative record, or one of a commit group that is still open,
has not (R68, R81). -/
def unitJsn (s : State) (mu : Nat) : Nat :=
  let own := (s.jrn.ring.filter fun x => x.home == ownFdn s).map (·.rc)
  let held := (own.filter (·.tentative)) ++ (let l := own ++ (s.jrn.live.map (·.2)).filter (!·.mirrored)
    let closed := replayable l
    l.filter fun r => r.grp && !closed.contains r)
  (held.filter fun r => (recMus s r).contains mu).foldl (fun m r => Nat.min m (r.jsn - 1)) (s.jrn.nextJsn - 1)

/-- Extents whose mirror fetch is pending (R497). -/
def fetchPending (s : State) : List Nat := s.jrn.fetches.flatMap (·.exts)

/-- May a frame be pinned now (R49)? Both limits: 12 ways of a set, and TIER_PIN_LIMIT in total, cuttings
counted (R284). -/
def pinWays (s : State) (f : Nat) : Bool :=
  decide (((setTags s (setOf s f)).filter fun e => e.2.retention == .pinned).length < 12)
def pinBytes (s : State) : Bool :=
  decide (((s.tier.tags.filter fun e => e.2.retention == .pinned).length + 1) * 16384 + 128 * (s.emb.held.map (·.lines.length)).sum ≤
    (regGet s (Off.tier + 8)).toNat * 2 ^ 30)

/-- A PIN_HBM frame that finds a limit reached is HIGH, counted, and posted once per extent and limit (R49). -/
def pinSpill (f : Nat) (s : State) : State :=
  let k := (extOfFrame f, if pinWays s f then 1 else 0)
  let t := countRC (Off.tier + 0x48) 1 s
  if s.tier.spillPosted.contains k then t
  else postExt 0x12 k.1 (t.modTier fun r => { r with spillPosted := k :: r.spillPosted })

/-- Retention on install, and the promotion of a resident frame, of a PIN_HBM extent (Table 03-5, R49). -/
def pinFrame (f : Nat) (s : State) : State :=
  if (tagOf s f).retention = .pinned then s
  else if pinWays s f && pinBytes s then modTag f (fun t => { t with retention := .pinned }) s
  else pinSpill f (modTag f (fun t => { t with retention := .high }) s)

/-- Retention of a newly installed frame (Table 03-5). -/
def installRetention (f : Nat) (s : State) : State :=
  match policyOf s f with
  | .auto => modTag f (fun t => { t with retention := .low, age := 0 }) s
  | .flashOnly => modTag f (fun t => { t with retention := .low, age := 15 }) s
  | .pinHbm => pinFrame f s

/-! ### Write-backs (R43, R46, R71) -/

/-- Does a write-back of the mapping unit run? -/
def wbRuns (s : State) (mu : Nat) : Bool := s.tier.wbs.any (·.mu == mu)

/-- The four frames of a mapping unit. -/
def unitFrames (mu : Nat) : List Nat := [4 * mu, 4 * mu + 1, 4 * mu + 2, 4 * mu + 3]

/-- Frames of a mapping unit that are resident and not being fetched. DESIGN CHOICE, safe (log 24): the manual does not say whether a
FILLING frame that holds D lines already is resident in a write-back of its unit (R46); here it is not: its old page is copied
forward and its D lines stay D. -/
def residentFrames (s : State) (mu : Nat) : List Nat :=
  (unitFrames mu).filter fun f =>
    (tagOf s f).state == .present || (tagOf s f).state == .writeback

/-- Cells of `src` that lie in the lines of frame `f` picked by the mask. -/
def frameCells (src : List Host.Cell) (f : Nat) (lines : BitVec 128) : List Host.Cell :=
  src.filter fun c => decide (c.1 / 16384 = f) && lines.getLsbD (c.1 / 128 % 128)

/-- The bytes a write-back writes (R46): valid lines of resident frames from HBM, everything else from the old pages. -/
def unitImage (s : State) (mu : Nat) : List Host.Cell :=
  (unitFrames mu).foldl (fun m f =>
    let v := if (residentFrames s mu).contains f then (tagOf s f).valid else 0
    writeCells m (frameCells s.flash.data f (~~~v) ++ frameCells s.tier.hbm f v)) []

/-- The poison maps a write-back writes (R389): poison of valid lines from HBM, of the others from the old page. -/
def unitPoison (s : State) (mu : Nat) : List (Nat × BitVec 128) :=
  (unitFrames mu).map fun f =>
    let v := if (residentFrames s mu).contains f then (tagOf s f).valid else 0
    (f, ((tagOf s f).poison &&& v) ||| (Tab.get 0 s.flash.poison f &&& ~~~v))

/-- Devices of the rack cell that are live (R55): the cell's list, or this device alone. -/
def liveCell (s : State) : List (BitVec 16) :=
  ((cellAll s).map (·.2)).filter fun f => !isFenced s f

/-- A copy or stripe member on its way to another device is tracked for 100 ms (R77). -/
def trackUnit (dst : BitVec 16) (mu : Nat) (s : State) : State :=
  s.modHome fun h => { h with
    tracker := h.tracker ++ [{
      iid := 0, tag := BitVec.ofNat 16 h.nextTag, home := dst, gsa := gsaAt s (mu * 65536), due := now s + 100000000
      origin := .unit mu }]
    nextTag := (h.nextTag + 1) % 65536 }

/-- A mapping unit is held at its home only; STRIPE_FALLBACK is posted for the extent (R77). -/
def holdHome (mu : Nat) (s : State) : State :=
  postExt 0x14 (mu / 16384) (s.modFlash fun f => { f with homeOnly := mu :: f.homeOnly.filter (· != mu) })

/-- The bytes of a mapping unit as they stand on flash: AES-256-XTS under the key of its extent (R57). -/
def cipherOf (s : State) (mu : Nat) (dec : Bool) (bs : List Byte) : List Byte :=
  let e := mu / 16384
  let g := gsaAt s (mu * 65536)
  xtsSpan dec (Config.keyBits (fdnOf g) (Tab.get 0 s.flash.keys e)) (extDesc s e).inc 16 g.toNat bs

/-- Start a write-back of one mapping unit (R43, R46): the snapshot is taken now. Nothing starts while one runs or while the
extent's mirror fetch is pending (R497). -/
def startUnit (mu : Nat) (urgent : Bool) (s : State) : State :=
  let fs := residentFrames s mu
  if wbRuns s mu || fs.isEmpty || (fetchPending s).contains (mu / 16384) then s
  else
    let d := extDesc s (mu / 16384)
    let w : WriteBack := {
      mu := mu, frames := fs, jsn := unitJsn s mu, start := now s, urgent := urgent
      buddy := if d.redundancy = .paired ∧ d.buddy ≠ servedFdn s ∧ !(isFenced s d.buddy) then some d.buddy else none
      image := unitImage s mu, poison := unitPoison s mu
      keep := fs.map fun f => (f, (tagOf s f).valid) }
    let s := if d.redundancy = .paired ∧ w.buddy.isNone then holdHome mu s else s
    let t := s.modTier fun t => { t with
      wbs := t.wbs ++ [w]
      tags := fs.foldl (fun ts f => Tab.upd {} f (fun g => { g with state := .writeback, snap := g.dirty, since := 0 }) ts) t.tags }
    match w.buddy with
    | none => t
    | some b => emit (.unit b mu none (cipherOf s mu false (readBytes w.image (mu * 65536) 65536))) (trackUnit b mu t)

/-- Start a write-back: the two mapping units of a data segment of a CODED extent go together (R251). -/
def startWriteBack (mu : Nat) (urgent : Bool) (s : State) : State :=
  if (extDesc s (mu / 16384)).form = .coded ∧ 16 ≤ mu % 16384 then startUnit (mu / 2 * 2 + 1) urgent (startUnit (mu / 2 * 2) urgent s)
  else startUnit mu urgent s

/-! ### Victims and allocation (R43-R45) -/

def retRank : Retention → Nat
  | .low => 0 | .medium => 1 | .high => 2 | .pinned => 3

/-- May the sweep choose this way? Never PINNED, FILLING or merging; a frame already under write-back with D lines is not
chosen again (R45), and a frame of a PIN_HBM extent with D lines is never written back for capacity (Table 03-5). -/
def Tag.candidate (pinHbm : Bool) (t : Tag) : Bool :=
  decide (t.retention ≠ .pinned) && decide (t.state ≠ .filling) && !t.merging &&
    !(decide (t.dirty ≠ 0) && (pinHbm || decide (t.state = .writeback)))

/-- `a` is preferred to `b` by the sweep: lower retention, then no D line, then greater age. -/
def Tag.precedes (a b : Tag) : Bool :=
  if a.retention ≠ b.retention then decide (retRank a.retention < retRank b.retention)
  else if decide (a.dirty = 0) != decide (b.dirty = 0) then decide (a.dirty = 0)
  else decide (b.age < a.age)

/-- The victim of a set. -/
def victimOf (s : State) (ts : List (Nat × Tag)) : Option (Nat × Tag) :=
  (ts.filter fun e => e.2.candidate (policyOf s e.1 == .pinHbm)).foldl
    (fun o e => match o with | none => some e | some b => if e.2.precedes b.2 then some e else some b) none

/-- Free a frame: its tag and its bytes go (R44). -/
def dropFrame (f : Nat) (s : State) : State :=
  s.modTier fun t => { t with
    tags := Tab.put {} f {} t.tags
    hbm := clearSpan t.hbm (f * 16384) (f * 16384 + 16384) }

/-- A set's other ways age with each sweep (Table 03-3). -/
def ageSet (st : Nat) (s : State) : State :=
  s.modTier fun t => { t with
    tags := t.tags.map fun e => if setOf s e.1 = st then (e.1, { e.2 with age := Nat.min 15 (e.2.age + 1) }) else e }

/-- Allocate a way for frame `f` with the given state; false where the allocation must wait: for a write-back of the set, when no
way is eligible, or for that of the victim, which starts now (R43-R45). -/
def allocFrame (f : Nat) (st : TagState) (s : State) : Bool × State :=
  let ts := setTags s (setOf s f)
  let place (w : Nat) (s : State) : State :=
    installRetention f (modTag f (fun _ => { state := st, way := w }) s)
  if ts.length < 16 then (true, place (freeWay ts) s)
  else
    match victimOf s ts with
    | none => (false, s)
    | some (v, t) =>
      let s := ageSet (setOf s f) s
      if t.dirty = 0 then (true, place t.way (dropFrame v s)) else (false, startWriteBack (v / 4) true s)

/-! ### Fills (R42, R55, R56, R59, R389) -/

/-- Put the flash copy into the lines of `f` that are in state I, which become C. With nothing read they become C and
poisoned (R59, R389). -/
def installFill (f : Nat) (res : MediaRead) (s : State) : State :=
  let t := tagOf s f
  let got := ~~~t.valid
  let p := if res = .lost then got else Tab.get 0 s.flash.poison f &&& got
  let s := if res = .lost then s else telAdd 0x1408 16384 (telAdd 0x1400 16384 s)
  let s := s.modTier fun r => { r with hbm := if res = .lost then r.hbm else writeCells r.hbm (frameCells s.flash.data f got) }
  modTag f (fun t => { t with
    state := if t.state = .filling then .present else t.state
    merging := false, valid := BitVec.allOnes 128, poison := t.poison ||| p }) s

/-- An AUTO frame's refetch reaching 15 posts THRASH once per extent and decay interval (Table 03-6). -/
def thrash (f : Nat) (s : State) : State :=
  let e := extOfFrame f
  if Tab.get 0 s.tier.refetch f = 15 ∧ policyOf s f = .auto ∧ !s.tier.thrashPosted.contains e then
    postExt 0x11 e (s.modTier fun t => { t with thrashPosted := e :: t.thrashPosted })
  else s

/-- A fetch that allocated a frame counts in refetch (Table 03-3). -/
def countRefetch (f : Nat) (s : State) : State :=
  if Tab.get 0 s.tier.refetch f = 15 then s
  else thrash f (s.modTier fun t => { t with refetch := Tab.upd 0 f (· + 1) t.refetch })

/-- An adopted STRIPED extent's unit whose place is not known: its members are asked for (R414). -/
def findUnit (mu : Nat) (s : State) : State :=
  if s.flt.adopted.isNone || decide ((extDesc s (mu / 16384)).redundancy ≠ .striped) || (mapOf s mu).mapped then s
  else
    (((cellAll s).map (·.2)).filter fun d => !isFenced s d && d != servedFdn s).foldl
      (fun s d => tell 0x0B d (servedFdn s) false [gsaAt s (mu * 65536)] s) s

/-- Where the ten members of a stripe go (R55). With ten or more live devices in the cell, the home and the nine that follow the
stripe number's place among the others hold one member each; with fewer they take them round-robin; with no cell this device holds
them all. DESIGN CHOICE, safe (log 23): the manual gives the distinctness and the rotation, not the order. -/
def cellHolders (s : State) (stripe : Nat) : List (BitVec 16) :=
  let l := liveCell s
  let o := (l.filter (· != servedFdn s)).rotateLeft (stripe % Nat.max 1 (l.length - 1))
  let to_ := if 10 ≤ l.length then servedFdn s :: o.take 9 else l
  (List.range 10).map fun i => to_.getD ((stripe + i) % Nat.max 1 to_.length) (servedFdn s)

/-- The holder of a member. -/
def memberHolder (s : State) (stripe member : Nat) : BitVec 16 :=
  let l := match Tab.get [] s.flash.holders stripe with | [] => cellHolders s stripe | l => l
  l.getD member (servedFdn s)

/-- The holders of a stripe whose members from `m` on are still to be written: a device fenced meanwhile gives its member to a live
one that has none, else to the home. -/
def openHolders (s : State) (stripe m : Nat) : List (BitVec 16) :=
  (List.range 10).foldl (fun l i =>
    if i < m || !isFenced s (l.getD i 0) then l
    else l.set i (((liveCell s).find? fun d => !l.contains d).getD (servedFdn s)))
    ((List.range 10).map (memberHolder s stripe))

/-- A STRIPED unit that another device holds is read from it; when its holder is fenced, the eight surviving members are
(R56). -/
def askMembers (mu : Nat) (s : State) : State :=
  let m := mapOf s mu
  if !m.mapped || !m.striped then s
  else
    let h := memberHolder s m.stripe m.member
    let ask (s : State) (i : Nat) : State :=
      let d := memberHolder s m.stripe i
      if d = servedFdn s then s else emit (.memberAsk d (servedFdn s) m.stripe i) s
    if !isFenced s h then ask s m.member
    else (((List.range 10).filter fun i => i != m.member && !isFenced s (memberHolder s m.stripe i)).take 8).foldl ask s

/-- Start a fetch of a frame that has none, or a merge fill of one that has an I line; what is under way goes on (R42). A
mapping unit never written reads no flash: its fill ends with zeros (R43). False where no way is free. -/
def fetchFrame (f : Nat) (s : State) : Bool × State :=
  let t := tagOf s f
  if t.isFree then
    let (ok, u) := allocFrame f .filling s
    (ok, if ok then askMembers (f / 4) (findUnit (f / 4) (countRefetch f u)) else u)
  else if t.state = .filling ∨ t.merging ∨ t.valid = BitVec.allOnes 128 then (true, s)
  else (true, askMembers (f / 4) (findUnit (f / 4) (modTag f (fun t => { t with merging := true }) s)))

/-- Prefetch of AUTO frames: up to TIER_PREFETCH of the unit's other frames after two ascending sequential misses
(Table 03-5). DESIGN CHOICE, safe (log 25): the manual does not say which of the other frames are fetched when TIER_PREFETCH is below
3, nor what a run of sequential misses is counted over; here the lowest frames come first, and each mapping unit has one run. -/
def prefetchAuto (f : Nat) (s : State) : State :=
  let (last, run) := Tab.get (0, 0) s.tier.missRun (f / 4)
  let run := if f = last + 1 then run + 1 else 1
  let s := s.modTier fun t => { t with missRun := Tab.put (0, 0) (f / 4) (f, run) t.missRun }
  let n := fld (regGet s (Off.tier + 0x28)) 1 0
  if policyOf s f = .auto ∧ 2 ≤ run then
    (([4 * (f / 4), 4 * (f / 4) + 1, 4 * (f / 4) + 2, 4 * (f / 4) + 3].filter fun g => g != f && (tagOf s g).isFree).take n).foldl
      (fun s g => (fetchFrame g s).2) s
  else s

/-- A request misses: its frame is fetched, and an AUTO miss may prefetch (R42, Table 03-5). -/
def missFetch (f : Nat) (s : State) : Bool × State :=
  if (tagOf s f).isFree then
    let (ok, t) := fetchFrame f s
    (ok, if ok then prefetchAuto f t else t)
  else fetchFrame f s

/-! ### Lines (R41, R389, R391) -/

def lineBit (line : Nat) : BitVec 128 := BitVec.ofNat 128 (2 ^ (line % 128))

/-- The tier may serve the line: its frame is present and the line is C or D (R41). -/
def lineReady (s : State) (line : Nat) : Bool :=
  let t := tagOf s (line / 128)
  (decide (t.state = .present) || decide (t.state = .writeback)) && t.valid.getLsbD (line % 128)

/-- The line may take a full-line store: any frame does (Table 03-4). -/
def lineDirty (s : State) (line : Nat) : Bool := (tagOf s (line / 128)).dirty.getLsbD (line % 128)
def linePoison (s : State) (line : Nat) : Bool :=
  (tagOf s (line / 128)).poison.getLsbD (line % 128) || s.tier.toPoison.contains line

/-- The 128 bytes of a line in HBM. -/
def lineBytes (s : State) (line : Nat) : List Byte := readBytes s.tier.hbm (128 * line) 128
def lineData (s : State) (line : Nat) : Line := lineOfBytes (lineBytes s line)

/-- Write the bytes of a line that the mask picks. -/
def putMasked (m : List Host.Cell) (line : Nat) (mask : BitVec 128) (data : List Byte) : List Host.Cell :=
  (List.range 128).foldl (fun m i => if mask.getLsbD i then writeByte m (128 * line + i) (data.getD i 0) else m) m

/-- A frame of a FLASH_ONLY extent with a D line is written back at once (Table 03-5). -/
def flashOnlyOut (f : Nat) (s : State) : State :=
  if policyOf s f = .flashOnly ∧ (tagOf s f).state = .present ∧ (tagOf s f).dirty ≠ 0 then startWriteBack (f / 4) false s else s

/-- Write a line of a present, filling or written-back frame: it becomes D; a full line loses its poison (R41, R391). A
FLASH_ONLY extent's write-back starts at once (Table 03-5). -/
def storeLine (line : Nat) (mask : BitVec 128) (data : List Byte) (s : State) : State :=
  let b := lineBit line
  let full := decide (mask = BitVec.allOnes 128)
  let s := telAdd 0x1400 128 (noteWrite line (s.modTier fun t => { t with
    hbm := putMasked t.hbm line mask data, toPoison := if full then t.toPoison.filter (· != line) else t.toPoison }))
  let s := modTag (line / 128) (fun t => { t with
    valid := t.valid ||| b, dirty := t.dirty ||| b, since := t.since ||| b
    poison := if full then t.poison &&& ~~~b else t.poison }) s
  flashOnlyOut (line / 128) s

/-- A full-line store may proceed: a frame is there in any state, or one is allocated PRESENT without a fetch
(Table 03-4). False where no way is free. -/
def readyFull (line : Nat) (s : State) : Bool × State :=
  if (tagOf s (line / 128)).isFree then allocFrame (line / 128) .present s else (true, s)

/-- Retention after an access of an unpinned AUTO frame (R50). -/
def retentionOf (s : State) (count : Nat) : Retention :=
  if (regGet s (Off.tier + 0x18)).toNat ≤ count then .high
  else if (regGet s (Off.tier + 0x20)).toNat ≤ count then .medium else .low

/-- An access by a request to a frame (R49, R50, R51). -/
def touchFrame (f : Nat) (s : State) : State :=
  let c := Nat.min 255 ((tagOf s f).count + 1)
  match policyOf s f with
  | .auto =>
    modTag f (fun t => { t with count := c, age := 0, retention := if t.retention = .pinned then .pinned else retentionOf s c }) s
  | .pinHbm =>
    let s := modTag f (fun t => { t with count := c, age := 0 }) s
    if (tagOf s f).retention = .high && pinWays s f && pinBytes s then modTag f (fun t => { t with retention := .pinned }) s
    else s
  | .flashOnly =>
    let s := modTag f (fun t => { t with count := c, age := 0, retention := .low }) s
    let e := extOfFrame f
    if c = (regGet s (Off.tier + 0x18)).toNat ∧ !s.tier.hotPosted.contains e then
      postExt 0x10 e (s.modTier fun t => { t with hotPosted := e :: t.hotPosted })
    else s

/-- Extents of class CACHED that hold a D line: the flush bitmap (R79). -/
def flushBitmap (s : State) : List Nat :=
  ((s.tier.tags.filter fun e => decide (e.2.dirty ≠ 0) &&
      decide ((extDesc s (extOfFrame e.1)).durability = .cached)).map fun e => extOfFrame e.1).dedup

/-! ### Flash programs (R46, R52, R54, R71) -/

/-- Erase blocks of a die (log 4). -/
def blocksOf (s : State) : Nat := Nat.min 65536 (s.flash.dieGiB * 65536 / Nat.max 1 Config.pagesPerBlock)

/-- A block that holds nothing and is not retired, the next one after `b` of the `k` that follow (R54). -/
def freshFrom (s : State) (die : Nat) : Nat → Nat → Nat
  | 0, b => b
  | k + 1, b =>
    if s.flash.used.contains (die * 65536 + b) || s.flash.retired.contains (die * 65536 + b) then
      freshFrom s die k ((b + 1) % Nat.max 1 (blocksOf s))
    else b

/-- Take the next four pages of the next die, in rotation, and go on to a fresh block at the end of one (R46, R52, R54; log 4). -/
def nextPages (s : State) (die : Nat) : MapEnt × (Nat × Nat) :=
  let (b, p) := Tab.get (0, 0) s.flash.openBlk die
  let (b, p) :=
    if p = 0 ∨ Config.pagesPerBlock < p + 4 ∨ s.flash.retired.contains (die * 65536 + b) then (freshFrom s die (blocksOf s) b, 0)
    else (b, p)
  ({ mapped := true, die := die, block := b, page := p }, (b, p + 4))

/-- Program a mapping unit into fresh pages and write its new map entry. -/
def programUnit (mu : Nat) (die : Nat) (s : State) : State :=
  let (e, nx) := nextPages s die
  (telAdd 0x1410 65536 s).modFlash fun f => { f with
    map := Tab.put {} mu e f.map
    openBlk := Tab.put (0, 0) die nx f.openBlk
    used := (die * 65536 + e.block) :: f.used.filter (· != die * 65536 + e.block)
    written := f.written + 1 }

def nextDie (s : State) : Nat := s.flash.written % Nat.max 1 s.flash.dies

/-- A member of a stripe goes to its holder, or into this home's own flash; on a device with no cell the ten members lie on ten
distinct channel groups, the tenths of its dies (R55, log 23). -/
def sendMember (mu stripe member : Nat) (data : List Byte) (s : State) : State :=
  let h := memberHolder s stripe member
  if h = servedFdn s then
    let t := s.modFlash fun f => { f with
      held := (f.held.filter fun x => !(x.home == servedFdn s && !x.isCopy && x.stripe == stripe && x.member == member)) ++
        [{ home := servedFdn s, stripe := stripe, member := member, mu := mu, data := data }]
      written := f.written + 1 }
    let die := s.flash.dies / 10 * ((stripe + member) % 10) + s.flash.written % Nat.max 1 (s.flash.dies / 10)
    let (e, nx) := nextPages t die
    (telAdd 0x1410 65536 t).modFlash fun f => { f with
      openBlk := Tab.put (0, 0) die nx f.openBlk, used := (die * 65536 + e.block) :: f.used.filter (· != die * 65536 + e.block) }
  else emit (.unit h mu (some (stripe, member)) data) (trackUnit h mu s)

/-- Write a mapping unit's flash copy: striped across the cell, or local (R46, R52, R55). The eighth data member of a stripe
completes it: P and Q are computed from the eight as they stand on flash. -/
def placeUnit (mu : Nat) (image : List Host.Cell) (s : State) : State :=
  if (extDesc s (mu / 16384)).redundancy = .striped then
    let n := s.flash.nextStripe
    let m := s.flash.stripe.length
    let c := cipherOf s mu false (readBytes image (mu * 65536) 65536)
    let ds := s.flash.stripe ++ [c]
    let hs := openHolders s n m
    let t := sendMember mu n m c (s.modFlash fun f => { f with
      holders := Tab.put [] n hs f.holders
      map := Tab.put {} mu { mapped := true, striped := true, stripe := n, member := m } f.map
      stripe := if m = 7 then [] else ds
      nextStripe := if m = 7 then n + 1 else n })
    if m = 7 then sendMember mu n 9 (parityQ ds) (sendMember mu n 8 (parityP ds) t) else t
  else programUnit mu (nextDie s) s

/-- A frame of a retired HBM page is freed once it holds no D line; until then its write-back runs (R44, R59). -/
def evictOne (f : Nat) (s : State) : State :=
  let t := tagOf s f
  let gone (s : State) : State := s.modTier fun r => { r with evicting := r.evicting.filter (· != f) }
  if t.isFree then gone s
  else if t.state = .filling ∨ t.merging then s
  else if t.dirty = 0 then gone (dropFrame f s)
  else startWriteBack (f / 4) true s

def evictRetired (s : State) : State := s.tier.evicting.foldl (fun s f => evictOne f s) s

/-- A write-back completes (R43, R46, R71): the snapshot is in flash, and the lines that were D in it and were not written
since become C. -/
def finishWriteBack (w : WriteBack) (s : State) : State :=
  let s := placeUnit w.mu w.image s
  let s := s.modFlash fun f => { f with
    data := copySpan f.data w.image (w.mu * 65536) (w.mu * 65536 + 65536)
    poison := w.poison.foldl (fun p e => Tab.put 0 e.1 e.2 p) f.poison
    pageJsn := Tab.put 0 w.mu w.jsn f.pageJsn
    unreadable := f.unreadable.filter (fun g => g / 4 != w.mu) }
  evictRetired <| s.modTier fun t => { t with
    wbs := t.wbs.filter (·.mu != w.mu)
    tags := w.frames.foldl (fun ts f => Tab.upd {} f (fun g =>
      { g with state := if g.state = .writeback then .present else g.state, dirty := g.dirty &&& ~~~(g.snap &&& ~~~g.since), snap := 0, since := 0 }) ts) t.tags }

/-- A write-back is abandoned before its map entry is written (R59, R425): its frames are PRESENT and its lines stay D. -/
def abandonWriteBack (w : WriteBack) (s : State) : State :=
  s.modTier fun t => { t with
    wbs := t.wbs.filter (·.mu != w.mu)
    tags := w.frames.foldl (fun ts f => Tab.upd {} f (fun g =>
      { g with state := if g.state = .writeback then .present else g.state, snap := 0, since := 0 }) ts) t.tags }

end Sys2Proof.Machine
end

