-- ==== Sys2Proof/Machine/Journal.lean ====
section
/-! DEFINITION. The journal ring, its segments, mirrors and the control mirror, as operations (R60-R76, R81, R86, R409).
The meanings of the journal commands stand in Machine/JournalCmds.lean. -/

namespace Sys2Proof.Machine

open Sys2Proof

/-! ### Slots (R62, R69) -/

/-- What asks for a slot (Table 04-4): an ordinary write, a record of an open group, a control type, or a mirror. -/
inductive SlotCls where
  | write | group | control | mirrored
  deriving DecidableEq, Repr

/-- Does the ring assign a slot now (Table 04-4)? -/
def slotOk (s : State) (c : SlotCls) : Bool :=
  if !ringAbove s 0 85 then true
  else if !ringAbove s 0 95 then decide (c ≠ .write)
  else decide (c = .control)

/-- Place a record in the open segment; one that does not fit fills the rest with PAD and opens the next (Table 04-3). -/
def segPlace (n : Nat) (t : Nat) (j : Jrn) : Jrn × Nat :=
  match j.segs.find? (fun g => g.state == .filling && decide (g.units + n ≤ segUnits)) with
  | some g => ({ j with segs := j.segs.map fun h => if h.id = g.id then { h with units := h.units + n } else h }, g.id)
  | none =>
    ({ j with
        segs := (j.segs.map fun h => if h.state = .filling then { h with state := .full, units := segUnits } else h) ++
          [{ id := j.nextSeg, state := .filling, opened := t, units := n }]
        nextSeg := j.nextSeg + 1 }, j.nextSeg)

/-- RING_HIGH is posted once per crossing of 60 % (Table 04-4). -/
def ringHigh (s : State) : State :=
  if ringAbove s 0 60 then
    if s.jrn.highPosted then s
    else postDev 0x18 (BitVec.ofNat 64 (ringUnits s)) (s.modJrn fun j => { j with highPosted := true })
  else s.modJrn fun j => { j with highPosted := false }

/-- Size of the live flash journal in bytes (R71). -/
def liveBytes (s : State) : Nat := 32 * (s.jrn.live.map fun e => recUnits e.2).foldl (· + ·) 0

/-- The journal region J in GiB as set aside (R70): scaled to the flash found, or the layout in use (R441). DESIGN CHOICE, unsafe (log
26): J scaled to the flash found is rounded down to whole GiB before the formula of R53, which gives it no rounding. -/
def journalGiB (s : State) : Nat :=
  match s.flash.layout with
  | some (j, _, _) => j
  | none => (regGet s (Off.jrn + 0x20)).toNat * (s.flash.dies * s.flash.dieGiB) / 262144

/-- The flush area in bytes (R70): 8 pages of 16 KiB on every die, kept twice over. -/
def flushAreaBytes (s : State) : Nat := s.flash.dies * 8 * 16384 * 2

/-- The flash journal in bytes (R70): what the flush area leaves of J/4. -/
def flashJournal (s : State) : Nat := journalGiB s * 2 ^ 30 / 4 - flushAreaBytes s

/-- JRN_LIVE_MAX, never above half the flash journal (R71). -/
def liveMax (s : State) : Nat := Nat.min ((regGet s (Off.jrn + 0x28)).toNat * 2 ^ 30) (flashJournal s / 2)

/-- The drain stops while the live journal is at its bound (R71). -/
def drainStopped (s : State) : Bool := decide (liveMax s ≤ liveBytes s)

/-- Start a group program when a record awaits programming, none runs and the drain goes on (R71, R81). -/
def startGroup (s : State) : State :=
  if s.jrn.distrusted && !s.jrn.groupRun && !drainStopped s && s.jrn.ring.any (fun x => !x.programmed) then
    s.modJrn fun j => { j with
      groupRun := true
      ring := j.ring.map fun x => if x.programmed then x else { x with inGroup := true } }
  else s

/-- A record enters a slot (R62, R67). Its jsn is already set. -/
def enterSlot (rc : JRec) (home : BitVec 16) (s : State) : State :=
  let n := recUnits rc
  let t := s.modJrn fun j =>
    let (j', g) := segPlace n (now s) j
    { j' with ring := j'.ring ++ [{ rc := sealRec rc, seg := g, entered := now s, home := home }] }
  startGroup (ringHigh (telAdd 0x1418 (32 * n) t))

/-- A record of this device takes the next jsn and enters its slot (R67). -/
def journal (rc : JRec) (s : State) : State :=
  enterSlot { rc with jsn := s.jrn.nextJsn } (ownFdn s) (s.modJrn fun j => { j with nextJsn := j.nextJsn + 1 })

/-! ### Mirrors (R74-R76) -/

/-- Send a mirror to a buddy; it stays with the home until it is released (R74, R76). -/
def sendMirror (b : BitVec 16) (rc : JRec) (s : State) : State :=
  emit (.mirror b (sealRec { rc with mirrored := true })) (s.modJrn fun j => { j with
    unconf := j.unconf ++ [{ jsn := rc.jsn, buddy := b, resendAt := 0 }]
    mirrored := j.mirrored ++ [(b, rc)] })

/-- The buddy of an extent, live or fenced; none where it has none. -/
def buddyOf (s : State) (e : Nat) : Option (BitVec 16) :=
  let d := extDesc s e
  if d.buddyValid then some d.buddy else none


/-- An extent whose writes are mirrored: PAIRED durability, buddy served (R74, R75). -/
def mirrorTo (s : State) (e : Nat) : Option (BitVec 16) :=
  let d := extDesc s e
  if d.durability = .paired ∧ d.buddy ≠ servedFdn s ∧ !(isFenced s d.buddy) then some d.buddy else none

/-- PAIR_LOST to a buddy that is served again ends when it has confirmed every record (R75). -/
def endPairLost (b : BitVec 16) (s : State) : State :=
  if s.jrn.pairLost.contains b && !isFenced s b && !(s.jrn.unconf.any fun u => u.buddy == b) then
    s.modJrn fun j => { j with pairLost := j.pairLost.filter (· != b) }
  else s

/-- No slot for new PAIRED writes while a late mirror to that buddy is unconfirmed (R75). -/
def pairBlocked (s : State) (e : Nat) : Bool :=
  decide ((extDesc s e).durability = .paired) &&
    s.jrn.unconf.any fun u => u.late && decide (u.buddy = (extDesc s e).buddy)

/-- PAIR_LOST is posted when a write meets a fenced buddy; it lasts until the FDN is served again (R75). -/
def notePairLost (e : Nat) (s : State) : State :=
  let d := extDesc s e
  if d.durability = .paired ∧ isFenced s d.buddy ∧ !s.jrn.pairLost.contains d.buddy then
    postDev 0x1A (d.buddy.setWidth 64) (s.modJrn fun j => { j with pairLost := j.pairLost ++ [d.buddy] })
  else s

/-- Sectors of a line that a byte mask touches (R65). -/
def sectorsOf (mask : BitVec 128) : BitVec 4 :=
  (if mask.extractLsb' 0 32 ≠ 0 then 1 else 0) ||| (if mask.extractLsb' 32 32 ≠ 0 then 2 else 0) |||
    (if mask.extractLsb' 64 32 ≠ 0 then 4 else 0) ||| (if mask.extractLsb' 96 32 ≠ 0 then 8 else 0)

/-- A DATA record of a line as it stands (R65, R95: the after-image). -/
def dataRec (s : State) (line : Nat) (sectors : BitVec 4) (poison : Bool) (iid : BitVec 16) : JRec :=
  { sectors := sectors, poison := poison, gsa := gsaOfLine s line, iid := iid,
    inc := (extDesc s (line / 2 ^ 23)).inc, body := .data (lineData s line) }

/-- A write's record enters its slot, and is mirrored on a PAIRED extent (R60, R74). Nothing on a CACHED one. -/
def recordWrite (e : Nat) (rc : JRec) (s : State) : State :=
  if (extDesc s e).durability = .cached then s
  else
    let n := s.jrn.nextJsn
    let t := journal rc (notePairLost e s)
    match mirrorTo s e with
    | some b => sendMirror b { rc with jsn := n } t
    | none => t

/-- Poison a line in the tier (R389): an I line, or one whose frame is not present, is first installed with zeros; the line is D and
poisoned. Where no way is free the line reads as poisoned and takes its place once there is one. -/
def poisonTier (line : Nat) (s : State) : State :=
  let (ok, s) := readyFull line s
  let kept := s.tier.toPoison.filter (· != line)
  if !ok then s.modTier fun t => { t with toPoison := kept ++ [line] }
  else
    let b := lineBit line
    let s := if (tagOf s (line / 128)).valid &&& b ≠ 0 then s else storeLine line (BitVec.allOnes 128) [] s
    flashOnlyOut (line / 128) ((modTag (line / 128) (fun t => { t with
      dirty := t.dirty ||| b, since := t.since ||| b, poison := t.poison ||| b }) s).modTier fun t => { t with toPoison := kept })

/-- Lines that were to be poisoned take their places. -/
def poisonDue (s : State) : State := s.tier.toPoison.foldl (fun s l => poisonTier l s) s

/-- Poison a line, with its record on a DURABLE or PAIRED extent: DATA with poison = 1 and sectors zero (R389). -/
def poisonLine (line : Nat) (iid : BitVec 16) (s : State) : State :=
  recordWrite (line / 2 ^ 23) (dataRec s line 0 true iid) (poisonTier line s)

/-! ### The control mirror (R409) -/

/-- The next live device of the cell in slot order, none on a standalone device. -/
def ctlMirrorOf (s : State) : Option (BitVec 16) := nextLive s (mySlot s) (servedFdn s)

/-- A control record goes to the control mirror; `hold` when something waits for its confirmation. -/
def mirrorCtl (rc : JRec) (hold : Bool) (s : State) : State :=
  match ctlMirrorOf s with
  | none => s
  | some m =>
    emit (.ctlMirror m (.record rc)) (if hold then s.modFlt fun f => { f with ctlWait := f.ctlWait ++ [rc.jsn] } else s)

/-- A control record: journalled, mirrored to the buddy of its extent, and to the control mirror (R76, R409). -/
def journalCtl (rc : JRec) (ext : Option Nat) (hold : Bool) (s : State) : State :=
  let n := s.jrn.nextJsn
  let rc := { rc with jsn := n }
  let t := journal rc s
  let t := match ext with
    | some e => (match mirrorTo s e with | some b => sendMirror b rc t | none => t)
    | none => t
  mirrorCtl rc hold t

/-- The whole control state of this device (R409, R413). -/
def ctlState (s : State) : CtlState :=
  { subject := servedFdn s, exts := s.ext.table.filter fun e => decide (e.1 < 2 ^ 18)
    regions := s.ext.regions.filter fun e => decide (e.1 < 2 ^ 27), owners := s.ext.owners.filter fun e => decide (e.1 < 2 ^ 27)
    comps := s.ras.comps, keys := s.flash.keys, resume := s.nmc.ledger, handoffs := s.flt.handoffs.map (·.e),
    lossEpoch := s.jrn.lossEpoch, marks := s.jrn.marks, cell := cellAll s }

/-! ### Loss epochs (R86, R159) -/

/-- The heads of regions with ownership that `p` picks by their extents: each has an owner record, one never written all zero (R152). -/
def ownedKeys (p : Nat → Bool) (regions : List (Nat × RegionEnt)) : List Nat :=
  (regions.filter fun e => e.2.head && e.2.ownership != .none && p (e.1 / 512)).map (·.1)

/-- Every owner record that `p` picks by its extent, changed (R159, R162). -/
def mapOwners (p : Nat → Bool) (f : Owner → Owner) (regions : List (Nat × RegionEnt)) (owners : List (Nat × Owner)) : List (Nat × Owner) :=
  (ownedKeys p regions).foldl (fun m k => Tab.upd {} k f m) owners

/-- Owner records of marked extents take stale = 1 (R159). -/
def staleOwners (p : Nat → Bool) (regions : List (Nat × RegionEnt)) (owners : List (Nat × Owner)) : List (Nat × Owner) :=
  mapOwners p (fun o => { o with stale := true }) regions owners

/-- A PUBLISH record (R152). -/
def publishRec (s : State) (key : Nat) (o : Owner) : JRec :=
  { gsa := gsaAt s (key * 2 ^ 21), iid := o.ownerIid, inc := (extDesc s (key / 512)).inc, body := .publish o }

def ownerOf (s : State) (key : Nat) : Owner := Tab.get {} s.ext.owners key

/-- Every extent in state ASSIGNED, REVOKING or REVOKED whose durability is CACHED or DURABLE (R86 scope ALL). -/
def scopeAll (s : State) : List Nat :=
  (s.ext.table.filter fun e => decide (e.1 < 2 ^ 18) && (e.2.state == .assigned || e.2.state == .revoking || e.2.state == .revoked) &&
    e.2.durability != .paired).map (·.1)

/-- The LOSS_EPOCH records of an advance: one of scope ALL, or one for each span of 32,768 extents that holds a named one (R86). -/
def epochRecs (ep : BitVec 32) (all : Bool) (exts : List Nat) : List JRec :=
  if all ∨ exts.isEmpty then [{ grp := true, body := .lossEpoch ep all [] }]
  else (List.range 8).filterMap fun b =>
    match exts.filter fun e => e / 32768 == b with
    | [] => none
    | es => some { grp := true, body := .lossEpoch ep false es }

/-- Records with consecutive jsns from `n` on. -/
def numberRecs : Nat → List JRec → List JRec
  | _, [] => []
  | n, r :: l => sealRec { r with jsn := n } :: numberRecs (n + 1) l

/-- Advance the loss epoch and mark extents (R86): one commit group of LOSS_EPOCH records, programmed before the step that writes it
completes; then the PUBLISH records of the owner records that became stale (R152, R159). -/
def advanceLoss (all : Bool) (exts : List Nat) (s : State) : State :=
  let ep := s.jrn.lossEpoch + 1
  let es := if all then scopeAll s else exts
  let rs := epochRecs ep all exts
  let n := s.jrn.nextJsn
  let fresh := (ownedKeys (es.contains ·) s.ext.regions).filter fun k => !(ownerOf s k).stale
  let pubs := fresh.map fun k => publishRec s k { ownerOf s k with stale := true }
  let l := numberRecs n (rs ++ [({ grp := true, body := .groupCommit n rs.length } : JRec)] ++ pubs)
  let t := s.modJrn fun j => { j with
    lossEpoch := ep
    marks := es.foldl (fun m e => Tab.put 0 e ep m) j.marks
    live := j.live ++ l.map fun r => (now s, r)
    nextJsn := j.nextJsn + l.length }
  let t := t.modExt fun x => { x with owners := staleOwners (es.contains ·) x.regions x.owners }
  let t := t.modOwn fun l => l.map fun c => if es.contains (c.key / 512) then { c with new := { c.new with stale := true } } else c
  l.foldl (fun t r => mirrorCtl r false t) t

def setOwner (key : Nat) (o : Owner) (s : State) : State :=
  s.modExt fun x => { x with owners := Tab.put {} key o x.owners }

/-- A change of an owner record that takes effect at once; its record is appended without holding anything (R152). -/
def setOwnerNow (key : Nat) (o : Owner) (s : State) : State :=
  journalCtl (publishRec s key o) (some (key / 512)) false (setOwner key o s)

/-- Fold a control record into a copy of the tables (04, The compost pass; R83). `e` is the extent it names, `k` its granule. -/
def applyCtl (e k : Nat) (rc : JRec) (c : CtlState) : CtlState :=
  match rc.body with
  | .extent d =>
    let fresh := decide ((Tab.get {} c.exts e).inc ≠ d.inc)
    let gone := fresh || d.state == .free
    { c with
      exts := Tab.put {} e d c.exts
      regions := if gone then Tab.drop (fun x => x / 512 == e) c.regions else c.regions
      owners := if gone then Tab.drop (fun x => x / 512 == e) c.owners else c.owners
      marks := if fresh then Tab.put 0 e c.lossEpoch c.marks else c.marks }
  | .region es =>
    let on (i : Nat) : Bool := (es.getD i {}).head && (es.getD i {}).ownership != .none
    { c with
      regions := (List.range 512).foldl (fun m i => Tab.put {} (e * 512 + i) (es.getD i {}) m) c.regions
      owners := Tab.drop (fun x => x / 512 == e && !on (x % 512)) c.owners }
  | .publish o => { c with owners := Tab.put {} k { o with inflight := 0 } c.owners }
  | .suspend hdr => { c with resume := (c.resume.filter fun r => r.1 != rc.gsa) ++ (if hdr.isEmpty then [] else [(rc.gsa, hdr)]) }
  | .handoff h =>
    { c with handoffs := (c.handoffs.filter fun x => !(x.seq == h.seq && x.fromFdn == h.fromFdn)) ++ [h] }
  | .lossEpoch ep all exts =>
    let es := if all then (c.exts.filter fun x => decide (x.1 < 2 ^ 18) && x.2.state != .free && x.2.durability != .paired).map (·.1)
      else exts
    { c with
      lossEpoch := ep
      marks := es.foldl (fun m x => Tab.put 0 x ep m) c.marks
      owners := staleOwners (es.contains ·) c.regions c.owners }
  | .key n => { c with keys := Tab.put 0 e n c.keys }
  | _ => c

/-- The extent and granule keys of a record's GSA in this device's tables; a KEY record is kept under the home's place. -/
def ctlApply (s : State) (rc : JRec) (c : CtlState) : CtlState :=
  applyCtl (extOf (addr s rc.gsa)) (granKey (addr s rc.gsa)) rc c

end Sys2Proof.Machine
end

