-- ==== Sys2Proof/Machine/Directory.lean ====
section
/-! DEFINITION. The directory (R119-R124): its entries, their places in the backing area, and the directory cache with its
write-back. -/

namespace Sys2Proof.Machine

open Sys2Proof

/-! ### Entries (R122) -/

def isCoherent (s : State) (line : Nat) : Bool := (regionEnt s (headOf s (line / 2 ^ 14))).coherent

def slotBit (n : Nat) : BitVec 64 := BitVec.ofNat 64 (2 ^ n)

def DirEnt.holders (d : DirEnt) : List Nat := (List.range 64).filter fun n => d.presence.getLsbD n

/-- The entry without a slot (R122). -/
def DirEnt.drop (n : Nat) (d : DirEnt) : DirEnt :=
  let p := d.presence &&& ~~~(slotBit n)
  if p = 0 then { poison := d.poison }
  else if d.state = .e ∧ d.owner.toNat ≠ n then { d with presence := p }
  else { presence := p, state := .s, owner := 0, poison := d.poison }

/-- The slot holds the line in S. -/
def DirEnt.share (n : Nat) (d : DirEnt) : DirEnt :=
  { presence := d.presence ||| slotBit n, state := .s, owner := 0, poison := d.poison }

/-- The slot alone holds the line in E. -/
def DirEnt.own (n : Nat) (d : DirEnt) : DirEnt :=
  { presence := slotBit n, state := .e, owner := BitVec.ofNat 6 n, poison := d.poison }

/-- The entry of Table 06-2 as its 12 bytes. -/
def DirEnt.bytes (d : DirEnt) : List Byte :=
  let st := match d.state with | .i => 0 | .s => 1 | .e => 2
  bytesOfNat 12 (d.presence.toNat * 2 ^ 32 + (put 30 st ||| put 24 d.owner.toNat ||| put 23 (bit01 d.poison)).toNat)

/-! ### Places (R123) -/

/-- The number of a line's entry in the backing area, which is also its coherent line number: d * 16,384 + g[20:7]. None where the
line's granule has no directory granule number. -/
def dirIndex (s : State) (line : Nat) : Option Nat :=
  (s.coh.granules.find? (·.2 == line / 2 ^ 14)).map fun g => g.1 * 2 ^ 14 + line % 2 ^ 14

/-- Where an entry lies: HOME_DIR_BASE + 12 * its number (R123). -/
def dirAddr (i : Nat) : Nat := Config.dirBase.toNat + 12 * i

/-- The line whose entry has a number. -/
def lineAt (s : State) (i : Nat) : Option Nat :=
  (s.coh.granules.find? (·.1 == i / 2 ^ 14)).map fun g => g.2 * 2 ^ 14 + i % 2 ^ 14

/-! ### The directory cache (R124) -/

/-- The set of an entry: the part of its line's slice, and in it the low bits of its number. DESIGN CHOICE, safe (log 34): R124 gives
32 parts of 8,192 sets and no function from a line to its set. -/
def dirSet (line i : Nat) : Nat := sliceOf (128 * line) * 8192 + i % 8192

/-- Entry `i` of the backing takes the entry of a line. -/
def backEntry (line i : Nat) (s : State) : State :=
  s.modCoh fun c => { c with backing := Tab.put {} i (Tab.get {} c.dir line) c.backing }

/-- The entry of a line is in the cache and is its set's most recently used: a full set gives up its least recently used way, which is
written back if it is modified. DESIGN CHOICE, safe (log 34): R124 names replacement bits and no policy. -/
def dirUse (line : Nat) (write : Bool) (s : State) : State :=
  match dirIndex s line with
  | none => s
  | some i =>
    let k := dirSet line i
    let ways := Tab.get [] s.coh.cache k
    let was := match ways.find? (·.line == line) with | some w => w.modified | none => false
    let kept := ways.filter (·.line != line)
    let out := if kept.length < 12 then none else kept.head?
    let s := match out with
      | some w => if w.modified then (match dirIndex s w.line with | some j => backEntry w.line j s | none => s) else s
      | none => s
    let next := (if out.isSome then kept.drop 1 else kept) ++ [{ line := line, modified := was || write }]
    s.modCoh fun c => { c with cache := Tab.put [] k next c.cache }

/-- Every modified entry of the cache is written back (R147 step 4). -/
def writeBackDir (s : State) : State :=
  let mods := s.coh.cache.flatMap fun c => (c.2.filter (·.modified)).map (·.line)
  let s := mods.foldl (fun s l => match dirIndex s l with | some i => backEntry l i s | none => s) s
  s.modCoh fun c => { c with cache := c.cache.map fun x => (x.1, x.2.map fun w => { w with modified := false }) }

/-- The directory as the backing holds it: the cache is empty after a reset (R147, R148). -/
def readBackDir (s : State) : State :=
  s.modCoh fun c => { c with
    cache := []
    dir := c.backing.foldl (fun t e => match lineAt s e.1 with | some l => Tab.put {} l e.2 t | none => t) [] }

def dirGet (s : State) (line : Nat) : DirEnt := Tab.get {} s.coh.dir line

/-- A directory write: it takes effect as it enters the cache, its commit point (R124). -/
def modDir (line : Nat) (f : DirEnt → DirEnt) (s : State) : State :=
  dirUse line true (s.modCoh fun c => { c with dir := Tab.upd {} line f c.dir })

/-- The directory entry mirrors the line's poison (R122, R391). -/
def mirrorPoison (line : Nat) (s : State) : State :=
  if isCoherent s line then modDir line (fun d => { d with poison := linePoison s line }) s else s

/-! ### Directory granules (R123) -/

/-- The lowest directory granule number that is free (R123). -/
def freeDir (l : List (Nat × Nat)) : Nat → Nat → Nat
  | 0, d => d
  | k + 1, d => if l.any (·.1 == d) then freeDir l k (d + 1) else d

/-- The lines of a granule whose poison is stored: by a frame's tag for the lines in HBM, by its flash page for the others. -/
def poisonedIn (s : State) (k : Nat) : List Nat :=
  let mine (l : Nat) : Bool := decide (l / 2 ^ 14 = k)
  let bits (f : Nat) (p : BitVec 128) : List Nat :=
    if f / 128 = k then ((List.range 128).filter fun i => p.getLsbD i).map (128 * f + ·) else []
  (s.tier.toPoison.filter mine) ++ (s.tier.tags.flatMap fun t => bits t.1 t.2.poison) ++
    (s.flash.poison.flatMap fun e => bits e.1 (e.2 &&& ~~~(tagOf s e.1).valid))

/-- Take or free a granule's directory number; the entries of a taken one start in I, with the poison of their lines (R122). -/
def setGranule (k : Nat) (coh : Bool) (s : State) : State :=
  match s.coh.granules.find? (·.2 == k) with
  | some g =>
    if coh then s
    else s.modCoh fun c => { c with
      granules := c.granules.filter (·.2 != k), dir := c.dir.filter fun x => x.1 / 2 ^ 14 != k
      backing := c.backing.filter fun x => x.1 / 2 ^ 14 != g.1
      cache := c.cache.map fun x => (x.1, x.2.filter fun w => w.line / 2 ^ 14 != k) }
  | none =>
    if !coh then s
    else
      let d := freeDir s.coh.granules 32768 0
      (poisonedIn s k).foldl (fun s l => modDir l (fun e => { e with poison := true }) s)
        (s.modCoh fun c => { c with granules := Tab.put (2 ^ 64) d k c.granules, dir := c.dir.filter fun x => x.1 / 2 ^ 14 != k })

end Sys2Proof.Machine
end

