-- ==== Sys2Proof/Machine/Slice.lean ====
section
/-! DEFINITION. What a home slice does with one request: which device answers for an address (R410, R414), the admission
checks (R27, R28, R157), reading a line or a coded block (R41, R253), performing a write (R42, R60-R62, R81, R97, R111,
R249) and finishing the request. Machine/Coherence.lean puts the requests of a line in order and calls these. -/

namespace Sys2Proof.Machine

open Sys2Proof

/-! ### Requests held at the slices -/

def findReq (s : State) (n : Nat) : Option PReq := s.home.waiting.find? (·.n == n)

def modReq (n : Nat) (f : PReq → PReq) (s : State) : State :=
  s.modHome fun h => { h with waiting := h.waiting.map fun p => if p.n = n then f p else p }

def setWhy (n : Nat) (w : Why) (s : State) : State := modReq n (fun p => { p with why := w }) s

/-- One modifying request fewer in flight in the region of an address (R158). -/
def landed (a : Nat) (s : State) : State :=
  let k := headOf s (granKey a)
  s.modExt fun x => { x with owners := Tab.upd {} k (fun o => { o with inflight := o.inflight - 1 }) x.owners }

/-- The admission of a request of many lines that an access of `src` belongs to (R29). -/
def findMulti (s : State) (src : BitVec 16) (id : Option Nat) (ext : Nat) : Option Multi :=
  id.bind fun i => s.home.multi.find? fun m => m.src == src && m.id == i && m.ext == ext

/-- An access of a request of many lines has ended: any answer but NY confirms its admission; NY to its only access undoes it, for a
request answered NY is not admitted (R29). -/
def settleMulti (p : PReq) (st : Status) (s : State) : State :=
  match p.r.multi with
  | none => s
  | some i =>
    let mine (m : Multi) : Bool := m.src == p.r.src && m.id == i && decide (m.ext = extOf p.a)
    let others := s.home.waiting.any fun q => q.admitted && q.r.multi == some i && q.r.src == p.r.src && decide (extOf q.a = extOf p.a)
    let dropped := s.home.multi.filter fun m => !(mine m && !m.sure && !others)
    let sured := s.home.multi.map fun m => if mine m then { m with sure := true } else m
    s.modHome fun h => { h with multi := if st = .ny then dropped else sured }

/-- A request of many lines of this device ends: its own home keeps nothing of it (R29). -/
def endMulti (id : Nat) (s : State) : State :=
  s.modHome fun h => { h with multi := h.multi.filter fun m => !(m.src == ownFdn s && m.id == id) }

/-- A request leaves its slice with its answer; it no longer counts in flight, and a transaction it headed runs on without
it (R107, R109, R137, R158). -/
def finish (p : PReq) (st : Status) (hint : BitVec 10) (data : List Byte) (s : State) : State :=
  let t := s.modHome fun h => { h with waiting := h.waiting.filter (·.n != p.n) }
  let t := if p.admitted then settleMulti p st t else t
  let t := if p.counted then landed p.a t else t
  let t := t.modCoh fun c => { c with
    queue := c.queue.filter fun q => q.item != .req p.n
    txns := c.txns.map fun x => if x.head = .req p.n then { x with head := .home } else x }
  answer p.r st hint data t

/-- NY with an estimate of the home's own as its hint (R112, log 2). -/
def finishNY (p : PReq) (s : State) : State := finish p .ny (Config.freeHint s.free) [] s.draw

/-! ### Which device serves an address -/

inductive Serve where
  | here | notYet | forward (f : BitVec 16) | lost | nowhere
  deriving DecidableEq, Repr

/-- The extent number within its device. -/
def extNo (g : Word) : Nat := extOf (offOf g)

/-- What this device does with a request whose GSA is `g`: serve it as home or foster (R400, R411), wait for the foster's
installation, forward it (R410, R414), or answer that the data or the extent is not there. -/
def servesAt (s : State) (g : Word) : Serve :=
  let f := fdnOf g
  let e := extNo g
  if f = servedFdn s then
    if s.flt.state ≠ .member then .nowhere
    else if s.ext.lost.contains e then .lost
    else match s.flt.atFoster.find? (fun p => p.1 == e) with
      | some p => .forward p.2
      | none => if (fetchPending s).contains e then .notYet else .here
  else
    match s.flt.fosters.find? (fun x => x.home == f && x.ext == e) with
    | some x => if x.installed then .here else .notYet
    | none =>
      if s.flt.standIn.any (·.subject == f) then
        match s.flt.kept.find? (·.subject == f) with
        | none => .lost
        | some c =>
          let d := Tab.get {} c.exts e
          if d.buddyValid then .forward d.buddy else .lost
      else .nowhere

/-! ### Admission (Table 02-6, steps 3-8) -/

def isModifying : ReqKind → Bool
  | .store | .storePart | .codedWrite | .atomic | .advance => true
  | _ => false

/-- A mask of STORE_PART: its first 16 payload bytes (R94). -/
def maskOf (r : Req) : BitVec 128 := BitVec.ofNat 128 (natOfBytes (r.payload.take 16))

/-- Step 3 and R91: alignment, payload length, and the encodings of each kind. -/
def malformed (s : State) (k : ReqKind) (r : Req) : Bool :=
  let o := r.gsa.toNat % 128
  let pl := r.plen.toNat
  let base := decide (offOf r.gsa % 2 ^ 21 ≠ 0) || decide (pl ≠ 0) || !(regionEnt s (granKey (addr s r.gsa))).head
  let stray := decide (k ≠ .atomic ∧ k ≠ .advance ∧ (r.aop ≠ 0 ∨ r.width ≠ 0 ∨ r.post))
  stray ||
  match k with
  | .load => decide (o ≠ 0 ∨ pl ≠ 0)
  | .store => decide (o ≠ 0 ∨ pl ≠ 128)
  | .storePart => decide (o ≠ 0 ∨ pl ≠ 144 ∨ maskOf r = 0)
  | .codedWrite => decide (r.gsa.toNat % 4096 ≠ 0 ∨ pl ≠ r.arg.toNat)
  | .atomic => decide (pl ≠ 32 ∨ r.gsa.toNat % atomicBytes r.width ≠ 0) || (atomicNew r.aop r.width 0 0 0).isNone
  | .advance => decide (r.gsa.toNat % 8 ≠ 0)
  | .wait => decide (r.gsa.toNat % 8 ≠ 0 ∨ pl ≠ 8)
  | .barrier => decide (r.gsa.toNat % 2 ^ 21 ≠ 0)
  | .acquire | .release | .publish | .readVersion => base

/-- Table 02-7: the rights a kind needs. -/
def rightsFor (k : ReqKind) (g : Rights) : Bool :=
  match k with
  | .load | .wait | .readVersion | .barrier => g.rd
  | .store | .storePart | .codedWrite => g.wr
  | .atomic | .advance => g.rd && g.atom
  | .acquire | .release | .publish => g.own

/-- Table 02-7: the forms a kind may meet. -/
def formAllows (k : ReqKind) (f : Form) : Bool :=
  match k, f with
  | .store, .coded | .storePart, .coded | .atomic, .coded | .advance, .coded => false
  | .codedWrite, .raw => false
  | _, _ => true

/-- R157: a modifying request to a held region from another IID. -/
def ownerRefuses (s : State) (a : Nat) (iid : BitVec 16) : Option Status :=
  let k := headOf s (granKey a)
  let o := Tab.get {} s.ext.owners k
  if (regionEnt s k).ownership = .owned ∧ o.held ∧ o.ownerIid ≠ iid then
    some (if o.prevValid ∧ o.prevIid = iid then .fenced else .denied)
  else none

def contained (s : State) (comp : BitVec 24) : Bool := s.ras.contained.contains comp.toNat
def policyFor (s : State) (comp : BitVec 24) : BitVec 2 := Tab.get 0 s.ras.policy comp.toNat

/-- Step 8: containment of the extent's composition (R396). -/
def containRefuses (s : State) (d : ExtDesc) (modifying : Bool) : Bool :=
  contained s d.comp && (match (policyFor s d.comp).toNat with | 0 => true | 1 => modifying | _ => false)

/-- Steps 4-8 for an access of an IID at an address; none where it is admitted. `m` is the admission that the access belongs to, if its
request was admitted to the extent before: the fence and later changes of rights do not stop it, the bound of R34 does (R29, R31, R34). -/
def admits (s : State) (k : ReqKind) (a : Nat) (iid : BitVec 16) (inc : BitVec 32) (m : Option Multi) : Option Status :=
  let d := extDesc s (extOf a)
  if d.state = .free ∨ d.inc ≠ inc then some .noExtent
  else if m.any (·.dead) then some .abandoned
  else if d.state ≠ .assigned ∧ !(d.state = .revoking && m.isSome) then some .revoked
  else if !rightsFor k ((m.map (·.rights)).getD (rightsOf d iid)) then some .denied
  else
    match (if isModifying k then ownerRefuses s a iid else none) with
    | some st => some st
    | none =>
      if !formAllows k d.form then some .wrongForm
      else if containRefuses s d (isModifying k) then some .deviceLost else none

/-- An ownership marker of the region of `a` is placed (R154). -/
def marked (s : State) (a : Nat) : Bool := s.own.any fun o => o.key == headOf s (granKey a) && !o.isPublish

/-- A modifying request is admitted to a region in mode OWNED or SHARED_WRITE: open becomes 1, recorded once, and the
request is in flight (R152, R158). -/
def openRegion (a : Nat) (count : Bool) (s : State) : State :=
  let k := headOf s (granKey a)
  if (regionEnt s k).ownership = .none then s
  else
    let o := ownerOf s k
    let o' := { o with openW := true, inflight := if count then o.inflight + 1 else o.inflight }
    let t := if o.openW then setOwner k o' s else setOwnerNow k o' s
    t.modOwn fun l => l.map fun c => if c.key = k then { c with new := { c.new with openW := true } } else c

/-- The regions with ownership that lines lie in, each by its base address. -/
def regionsOf (s : State) (ls : List Nat) : List Nat :=
  ((ls.map fun l => headOf s (granKey (128 * l))).dedup.filter fun g => (regionEnt s g).ownership ≠ .none).map (· * 2 ^ 21)

/-! ### Reading lines (R41, R253, R262-R264) -/

/-- What a read found: a line, a status, or the thing it must wait for. -/
inductive Got where
  | data (l : Line)
  | bad (st : Status)
  | wait (w : Why)
  deriving DecidableEq, Repr

/-- Make a line ready in the tier: nothing to wait for, or the fill or way (Table 03-4). -/
def needLine (line : Nat) (s : State) : Option Why × State :=
  if lineReady s line then (none, s)
  else
    let (ok, t) := missFetch (line / 128) s
    (some (if ok then .fill (line / 128) else .way (setOf s (line / 128))), t)

/-- Make every line of a list ready; the first thing to wait for. -/
def needLines : List Nat → State → Option Why × State
  | [], s => (none, s)
  | l :: ls, s =>
    let (w, t) := needLine l s
    let (w', u) := needLines ls t
    (w <|> w', u)

/-- A line as the store holds it, in HBM or in flash. -/
def storedLine (s : State) (line : Nat) : Line :=
  if lineReady s line then lineData s line else lineOfBytes (readBytes s.flash.data (128 * line) 128)

def storedPoison (s : State) (line : Nat) : Bool :=
  if lineReady s line then linePoison s line
  else s.flash.unreadable.contains (line / 128) || (Tab.get 0 s.flash.poison (line / 128)).getLsbD (line % 128)

def storedBytes (s : State) (line n : Nat) : List Byte := (List.range n).flatMap fun i => bytesOfLine (storedLine s (line + i))

/-- Is the line in the data area of a CODED extent (Table 11-2)? -/
def inDataArea (s : State) (line : Nat) : Bool :=
  decide ((extDesc s (extOfLine line)).form = .coded) && decide (8192 ≤ line % 2 ^ 23)

/-- The index line of a data segment, and the block within it (R244). -/
def segBase (line : Nat) : Nat := line / 1024 * 1024
def blkOf (line : Nat) : Nat := line % 1024 / 32

/-- What a request is ordered by: its line, or for a CODED extent the index line of its segment, or its codebook block
(R17, R245). -/
def ordLine (s : State) (line : Nat) : Nat :=
  if (extDesc s (extOfLine line)).form = .coded then
    if 8192 ≤ line % 2 ^ 23 then segBase line else line / 32 * 32
  else line

/-- The codebook of a CODED extent is sealed (Table 11-3). -/
def sealedCb (s : State) (e : Nat) : Bool := bitOf ((storedLine s (e * 2 ^ 23)).extractLsb' 64 64) 63

/-- The codebook bytes of an extent (R242). -/
def codebookOf (s : State) (e : Nat) (p : FormP) : List Byte :=
  (storedBytes s (e * 2 ^ 23 + 32) (ceilDiv p.cbBytes 128)).take p.cbBytes

def formP (s : State) (e : Nat) : FormP := (formOf (extDesc s e).formParams).getD { fmt := 1, b := 4, d := 4, g := 1 }

/-- What a read of a coded block found. -/
inductive GotBlk where
  | zero
  | block (bs : List Byte)
  | bad (st : Status)
  | wait (w : Why)
  deriving DecidableEq, Repr

/-- A record of class CHECK naming a block (R262-R264). -/
def checkRec (code : BitVec 8) (a : Nat) (iid : BitVec 16) (s : State) : State :=
  raise { cls := 9, sev := 1, code := code, block := 0x3C, gsa := gsaAt s a, iid := iid } s

/-- Read the block that holds a data-area line: its index entry, its storage lines, its crc (R253, R262, R263). Once the extent's codebook
has failed at a fill, every read of the data area has that status (R264). -/
def getBlock (line : Nat) (iid : BitVec 16) (s : State) : GotBlk × State :=
  match s.cdc.bad.find? (fun b => b.1 == extOfLine line) with
  | some b => (.bad b.2, s)
  | none =>
  let sb := segBase line
  let (w, s) := needLine sb s
  match w with
  | some w => (.wait w, s)
  | none =>
    if linePoison s sb then (.bad .poison, s)
    else
      let es := idxLine (lineBytes s sb)
      let e := es.getD (blkOf line) {}
      if !idxSound es (blkOf line) then (.bad .poison, checkRec 0x04 (128 * (line / 32 * 32)) iid s)
      else if e.kind = 0 then (.zero, s)
      else if e.kind = 2 then (.bad .poison, s)
      else
        let ls := (List.range ((e.off + e.len - 1) / 4 - e.off / 4 + 1)).map (sb + e.off / 4 + ·)
        let (w, s) := needLines ls s
        match w with
        | some w => (.wait w, s)
        | none =>
          if ls.any (linePoison s) then (.bad .poison, s)
          else
            let bs := readBytes s.tier.hbm (128 * sb + 32 * e.off) (32 * e.len)
            if blkCrcOk bs then (.block bs, s)
            else (.bad .checkFail, checkRec 0x01 (128 * (line / 32 * 32)) iid (countRC (Off.cdc + 8) 1 s))

/-- The codebook is in the codebook cache; otherwise its fill starts (R253, R264). -/
def needCodebook (e : Nat) (s : State) : Option (Status ⊕ Why) × State :=
  match s.cdc.bad.find? (fun b => b.1 == e) with
  | some b => (some (.inl b.2), s)
  | none =>
    if s.cdc.cached.contains e then (none, s.modCdc fun c => { c with cached := e :: c.cached.filter (· != e) })
    else (some (.inr (.codebook e)), s.modCdc fun c => { c with filling := if c.filling.contains e then c.filling else c.filling ++ [e] })

/-- Read one line as a request sees it: the tier's line, or the decoded view of a coded block. -/
def getLine (line : Nat) (iid : BitVec 16) (s : State) : Got × State :=
  if inDataArea s line then
    let e := extOfLine line
    let (g, s) := getBlock line iid s
    match g with
    | .zero => (.data 0, s)
    | .bad st => (.bad st, s)
    | .wait w => (.wait w, s)
    | .block bs =>
      let (c, s) := needCodebook e s
      match c with
      | some (.inl st) => (.bad st, s)
      | some (.inr w) => (.wait w, s)
      | none =>
        let p := formP s e
        (.data (lineOfBytes (blkView p (codebookOf s e p) bs (line % 32 * (128 / p.e)) (128 / p.e))), s)
  else
    let (w, s) := needLine line s
    match w with
    | some w => (.wait w, s)
    | none => if linePoison s line then (.bad .poison, s) else (.data (lineData s line), s)

/-- A read of a whole coded block for SPADE or a coded copy (R254, R255): `arg` 1 of a request from the device's own engines or
from another device. A RAW extent gives WRONG_FORM; a ZERO block is answered with no data. -/
def wantsBlock (r : Req) : Bool :=
  decide (r.arg = 1) && (match r.ing with | .nmc _ _ | .unitOf _ | .own | .link _ => true | _ => false)

/-- Read a line, or a whole coded block for a request that wants one. -/
def getFor (r : Req) (line : Nat) (s : State) : (Got ⊕ List Byte) × State :=
  if wantsBlock r then
    if !inDataArea s line then (.inl (.bad .wrongForm), s)
    else
      let (g, s) := getBlock line r.iid s
      match g with
      | .zero => (.inr [], s)
      | .bad st => (.inl (.bad st), s)
      | .wait w => (.inl (.wait w), s)
      | .block bs => (.inr bs, s)
  else
    let (g, s) := getLine line r.iid s
    (.inl g, s)

/-- The storage lines that an access to a line reads: for a coded view its segment's index line and its block's lines (R244). -/
def linesUnder (s : State) (line : Nat) : List Nat :=
  if inDataArea s line then
    let sb := segBase line
    let es := idxLine (lineBytes s sb)
    let e := es.getD (blkOf line) {}
    sb :: (if idxSound es (blkOf line) && decide (e.kind = 1) then
      (List.range ((e.off + e.len - 1) / 4 - e.off / 4 + 1)).map (sb + e.off / 4 + ·) else [])
  else [line]

/-- An access to a line counts once in each frame that it reads (R50). -/
def touchLine (line : Nat) (s : State) : State :=
  ((linesUnder s line).map (· / 128)).dedup.foldl (fun s f => touchFrame f s) s

/-! ### Placing coded blocks (R243, R249) -/

/-- Make every line of a span ready for its write: a line shared with another block is fetched, any other takes the place of a
full-line store. -/
def readySpan (sharedL : Nat → Bool) : List Nat → State → Option Why × State
  | [], s => (none, s)
  | l :: ls, s =>
    let (w, t) :=
      if sharedL l then needLine l s
      else (let (ok, u) := readyFull l s; (if ok then none else some (.way (setOf s (l / 128))), u))
    let (w', u) := readySpan sharedL ls t
    (w <|> w', u)

/-- Write bytes from byte address `at_` over the given lines; a line not shared is written whole, with zeros elsewhere. -/
def writeSpan (sharedL : Nat → Bool) (at_ : Nat) (bs : List Byte) (ls : List Nat) (s : State) : State :=
  ls.foldl (fun s l =>
    let inside (i : Nat) : Bool := decide (at_ ≤ 128 * l + i ∧ 128 * l + i < at_ + bs.length)
    let mask : BitVec 128 := if sharedL l then
        BitVec.ofNat 128 ((List.range 128).foldl (fun m i => if inside i then m + 2 ^ i else m) 0)
      else BitVec.allOnes 128
    storeLine l mask ((List.range 128).map fun i => if inside i then bs.getD (128 * l + i - at_) 0 else 0) s) s

/-- Write a whole coded block, or a codebook block, into the tier (R243, R249); what to wait for otherwise. No bytes make the block ZERO
(log 47). -/
def placeBlock (line : Nat) (bs : List Byte) (s : State) : Option Why × State :=
  if line % 2 ^ 23 < 8192 then
    let ls := (List.range 32).map (line + ·)
    let (w, s) := readySpan (fun _ => false) ls s
    match w with
    | some w => (some w, s)
    | none => (none, writeSpan (fun _ => false) (128 * line) bs ls s)
  else
    let sb := segBase line
    let i := blkOf line
    let (w, s) := needLine sb s
    match w with
    | some w => (some w, s)
    | none =>
      let es0 := if linePoison s sb then List.replicate 32 { kind := 2 } else idxLine (lineBytes s sb)
      let es := (List.range 32).map fun j => if idxSound es0 j then es0.getD j {} else { kind := 2 }
      let len := bs.length / 32
      let putIdx (es : List IdxEnt) (s : State) : State := storeLine sb (BitVec.allOnes 128) (idxBytes es) s
      if len = 0 then (none, putIdx (es.set i {}) s)
      else
      match findRun es i len with
      | some off =>
        let usedBy (l : Nat) : Bool := (List.range 32).any fun j => j != i &&
          (let o := es.getD j {}
           decide (o.kind = 1) && decide (o.off / 4 ≤ l - sb ∧ l - sb ≤ (o.off + o.len - 1) / 4))
        let ls := (List.range ((off + len - 1) / 4 - off / 4 + 1)).map (sb + off / 4 + ·)
        let (w, s) := readySpan usedBy ls s
        match w with
        | some w => (some w, s)
        | none =>
          let s := writeSpan usedBy (128 * sb + 32 * off) bs ls s
          (none, putIdx (es.set i { kind := 1, len := len, off := off }) s)
      | none =>
        let old := (List.range 32).filter fun j => j != i && decide ((es.getD j {}).kind = 1)
        let linesOf (j : Nat) : List Nat := (let o := es.getD j {}
          (List.range ((o.off + o.len - 1) / 4 - o.off / 4 + 1)).map (sb + o.off / 4 + ·))
        let (w, s) := needLines (old.flatMap linesOf) s
        match w with
        | some w => (some w, s)
        | none =>
          let bad (j : Nat) : Bool := (linesOf j).any (linePoison s)
          let bytes (j : Nat) : List Byte :=
            if j = i then bs else (let o := es.getD j {}; readBytes s.tier.hbm (128 * sb + 32 * o.off) (32 * o.len))
          let es1 := (List.range 32).map fun j =>
            if j != i && decide ((es.getD j {}).kind = 1) && bad j then { kind := 2 } else es.getD j {}
          let keep := (List.range 32).filter fun j => j == i || decide ((es1.getD j {}).kind = 1)
          let all := keep.flatMap bytes
          let es2 := repackFrom ((List.range 32).map fun j => if keep.contains j then (bytes j).length / 32 else 0) 0 4 es1
          let ls := (List.range (ceilDiv all.length 128)).map (sb + 1 + ·)
          let (w, s) := readySpan (fun _ => false) ls s
          match w with
          | some w => (some w, s)
          | none => (none, putIdx es2 (countRC Off.cdc 1 (writeSpan (fun _ => false) (128 * sb + 128) all ls s)))

/-- The checks of a CODED_WRITE in their order, over the codebook area (R243) or the data area (R248). `own`: it comes from this device's
copy agent, whose write of a ZERO block has no bytes. DESIGN CHOICE, unsafe (log 47): R255 does not say what a coded copy writes for a ZERO
block; here the destination's block becomes ZERO, and on another device the write has MALFORMED there by R248. -/
def codedCheck (s : State) (own : Bool) (line : Nat) (arg : Nat) (bs : List Byte) : Option Status :=
  let e := extOfLine line
  let d := extDesc s e
  if line % 2 ^ 23 < 8192 then
    if arg ≠ 4096 then some .malformed
    else if sealedCb s e then some .wrongForm
    else if line % 2 ^ 23 = 0 ∧ crc32c (codebookOf s e (formP s e)) ≠ (wordAtByte bs 0).setWidth 32 then some .checkFail
    else none
  else if !sealedCb s e then some .wrongForm
  else if own ∧ bs.isEmpty then none
  else blkCheck d.formParams (formP s e) arg bs

/-- The bytes a CODED_WRITE stores: block 0 is stored with sealed = 1 (R243). -/
def codedBytes (line : Nat) (bs : List Byte) : List Byte :=
  if line % 2 ^ 23 = 0 then bs.set 15 (bs.getD 15 0 ||| 0x80) else bs

/-! ### Performing (R42, R60, R62, R74, R81, R97, R111) -/

/-- The cut-off of a modifying request in ns (R111, R250). -/
def cutOff (s : State) (p : PReq) : Nat :=
  (if (extDesc s (extOf p.a)).durability = .paired then 1100 else 200) + (if p.kind = .codedWrite then 600 else 0)

/-- What a write puts into the line: its bytes by mask, or a coded block. -/
inductive Write where
  | bytes (mask : BitVec 128) (data : List Byte)
  | block (bs : List Byte)
  | poison  -- a poisoned partial write poisons the line (R389)
  deriving DecidableEq, Repr

/-- The line as it will stand after a write by mask. -/
def mergedLine (s : State) (line : Nat) (mask : BitVec 128) (data : List Byte) : Line :=
  lineOfBytes ((List.range 128).map fun i =>
    if mask.getLsbD i then data.getD i 0 else readByte s.tier.hbm (128 * line + i))

/-- The record of a write (R65, R251). -/
def writeRec (s : State) (line : Nat) (iid : BitVec 16) (w : Write) : JRec :=
  let rc : JRec := { gsa := gsaOfLine s line, iid := iid, inc := (extDesc s (extOfLine line)).inc }
  match w with
  | .bytes mask data => { rc with sectors := sectorsOf mask, body := .data (mergedLine s line mask data) }
  | .block bs => { rc with body := .coded bs }
  | .poison => dataRec s line 0 true iid

/-- The write reaches the tier; what it must wait for otherwise. -/
def writeTier (line : Nat) (w : Write) (s : State) : Option Why × State :=
  match w with
  | .bytes mask data => (none, mirrorPoison line (storeLine line mask data s))
  | .block bs => placeBlock line bs s
  | .poison => (none, mirrorPoison line (poisonTier line s))

/-- The write takes the tentative path: its record takes a slot, HBM is not written, and the line is held (R81). -/
def writeTentative (p : PReq) (rc : JRec) (old : List Byte) (s : State) : State :=
  let n := s.jrn.nextJsn
  let rc := { rc with tentative := true }
  let t := journal rc (notePairLost (extOf p.a) s)
  let t := t.modJrn fun j => { j with
    ring := j.ring.map fun x => if x.rc.jsn = n then { x with orig := some (p.kind, p.r), first := p.n, old := old } else x }
  let t := match mirrorTo s (extOf p.a) with
    | some b => sendMirror b { rc with jsn := n } t
    | none => t
  setWhy p.n (.tentative n) t

/-- The write is performed (R60, R62, R74): HBM takes it, its record enters its slot, and it is answered at once or when the
buddy has confirmed. -/
def writeDone (p : PReq) (line : Nat) (w : Write) (old : List Byte) (s : State) : State :=
  let rc := writeRec s line p.r.iid w
  let (hold, t) := writeTier line w s
  match hold with
  | some h => setWhy p.n h t
  | none =>
    let e := extOf p.a
    let n := t.jrn.nextJsn
    let to_ := if (extDesc s e).durability = .cached then none else mirrorTo t e
    let t := touchLine line (recordWrite e rc t)
    match to_ with
    | none => finish p .ok 0 old t
    | some _ =>
      let t := if p.counted then landed p.a t else t
      modReq p.n (fun q => { q with why := .buddy n, old := old, counted := false }) t

/-- A write whose line is ready: its cut-off, its slot and its path. -/
def writeNow (p : PReq) (line : Nat) (w : Write) (old : List Byte) (s : State) : State :=
  let d := extDesc s (extOf p.a)
  if p.deadline < now s + cutOff s p then setWhy p.n .late s
  else if d.durability ≠ .cached ∧ (!slotOk s .write || pairBlocked s (extOf p.a)) then setWhy p.n .slot s
  else if d.durability ≠ .cached ∧ s.jrn.distrusted then writeTentative p (writeRec s line p.r.iid w) old s
  else writeDone p line w old s

/-- Perform a request at its line, or leave it to wait for the tier (actions m of Table 06-7 and Table 03-4). -/
def perform (p : PReq) (s : State) : State :=
  let line := p.line
  let bad (s : State) : State := finish p .poison 0 [] s
  match p.kind with
  | .load =>
    let (g, s) := getFor p.r line s
    match g with
    | .inr bs => finish p .ok 0 bs (touchLine line s)
    | .inl (.data l) => finish p .ok 0 (bytesOfLine l) (noteRead line (touchLine line s))
    | .inl (.bad st) => finish p st 0 [] s
    | .inl (.wait w) => setWhy p.n w s
  | .wait =>
    let (g, s) := getLine line p.r.iid s
    match g with
    | .data l =>
      let c := l.extractLsb' (8 * (p.a % 128)) 64
      if p.r.arg.toNat % 2 ^ 63 ≤ c.toNat % 2 ^ 63 then finish p .ok 0 (bytesOfWord c) (touchLine line s)
      else setWhy p.n .counter s
    | .bad st => finish p st 0 [] s
    | .wait w => setWhy p.n w s
  | .store =>
    if p.deadline < now s + cutOff s p then setWhy p.n .late s
    else
      let (ok, s) := readyFull line s
      if ok then writeNow p line (.bytes (BitVec.allOnes 128) p.r.payload) [] s else setWhy p.n (.way (setOf s (line / 128))) s
  | .storePart =>
    let mask := maskOf p.r
    if p.deadline < now s + cutOff s p then setWhy p.n .late s
    else if p.r.poison then writeNow p line .poison [] s
    else if mask = BitVec.allOnes 128 then
      let (ok, s) := readyFull line s
      if ok then writeNow p line (.bytes mask (p.r.payload.drop 16)) [] s else setWhy p.n (.way (setOf s (line / 128))) s
    else
      let (w, s) := needLine line s
      match w with
      | some w => setWhy p.n w s
      | none => if linePoison s line then bad s else writeNow p line (.bytes mask (p.r.payload.drop 16)) [] s
  | .atomic =>
    if p.deadline < now s + cutOff s p then setWhy p.n .late s
    else
      let (w, s) := needLine line s
      match w with
      | some w => setWhy p.n w s
      | none =>
        if linePoison s line then bad s
        else
          let k := atomicBytes p.r.width
          let o := p.a % 128
          let old := natOfBytes (readBytes s.tier.hbm p.a k)
          let op1 := natOfBytes (p.r.payload.take 16)
          let ans := if p.r.post then [] else bytesOfNat 16 old
          match atomicNew p.r.aop p.r.width old op1 (natOfBytes ((p.r.payload.drop 16).take 16)) with
          | none => finish p .malformed 0 [] s
          | some v =>
            if p.r.aop = 8 ∧ old ≠ op1 % 2 ^ (8 * k) then finish p .ok 0 ans (touchLine line s)
            else
              writeNow p line (.bytes (BitVec.ofNat 128 ((2 ^ k - 1) * 2 ^ o)) (List.replicate o 0 ++ bytesOfNat k v)) ans s
  | .advance =>
    if p.deadline < now s + cutOff s p then setWhy p.n .late s
    else
      let (w, s) := needLine line s
      match w with
      | some w => setWhy p.n w s
      | none =>
        if linePoison s line then bad s
        else
          let o := p.a % 128
          let v := advanceWord (wordOfBytes (readBytes s.tier.hbm p.a 8)) p.r.arg.toNat p.r.post
          writeNow p line (.bytes (BitVec.ofNat 128 (255 * 2 ^ o)) (List.replicate o 0 ++ bytesOfWord v)) [] s
  | .codedWrite =>
    match codedCheck s (decide (p.r.ing = .own)) line p.r.arg.toNat p.r.payload with
    | some st => finish p st 0 [] s
    | none =>
      if p.deadline < now s + cutOff s p then setWhy p.n .late s
      else writeNow p line (.block (codedBytes line p.r.payload)) [] s
  | .barrier | .acquire | .release | .publish | .readVersion => s

/-! ### Tentative records (R81) -/

/-- The tentative record that holds a line, if any. -/
def heldBy (s : State) (line : Nat) : Option Slot :=
  s.jrn.ring.find? fun x => x.rc.tentative && x.home == ownFdn s && decide (ordLine s (lineOf (addr s x.rc.gsa)) = ordLine s line)

/-- A retry adopts a record: same IID, GSA, request kind and payload (R81). -/
def Slot.adoptedBy (x : Slot) (p : PReq) : Bool :=
  match x.orig with
  | none => false
  | some (k, r) =>
    decide (k = p.kind) && decide (r.iid = p.r.iid) && decide (r.gsa = p.r.gsa) && decide (r.payload = p.r.payload) &&
      decide (r.arg = p.r.arg) && decide (r.aop = p.r.aop) && decide (r.width = p.r.width) && decide (r.post = p.r.post) && decide (r.poison = p.r.poison)

/-- Is a mirror still unconfirmed? -/
def unconfirmed (s : State) (jsn : Nat) : Bool := s.jrn.unconf.any (·.jsn == jsn)

/-- A tentative record ends as a performed write: HBM takes it and the record leaves the held lines. -/
def settleWrite (x : Slot) (s : State) : Option Why × State :=
  let line := lineOf (addr s x.rc.gsa)
  let (w, s) : Option Why × State := match x.rc.body with
    | .data l =>
      let (ok, s) := readyFull line s
      if x.rc.poison then (none, mirrorPoison line (poisonTier line s))
      else if ok then (none, mirrorPoison line (storeLine line (BitVec.allOnes 128) (bytesOfLine l) s))
      else (some (.way (setOf s (line / 128))), s)
    | .coded bs => placeBlock line bs s
    | _ => (none, s)
  match w with
  | some w => (some w, s)
  | none => (none, s.modJrn fun j => { j with
      ring := (j.ring.map fun y => if y.rc.jsn = x.rc.jsn then { y with rc := { y.rc with tentative := false }, orig := none } else y).filter
        fun y => !(y.rc.jsn == x.rc.jsn && y.programmed) })

/-- An adopted record whose program is complete and whose mirror is confirmed, or `late` at the retry's deadline, is answered
OK (R81). -/
def settleTentative (jsn : Nat) (late : Bool) (s : State) : State :=
  match s.jrn.ring.find? (fun x => x.rc.jsn == jsn && x.rc.tentative) with
  | none => s
  | some x =>
    match x.adopted with
    | none => s
    | some n =>
      match findReq s n with
      | none => s
      | some p =>
        if x.programmed && (late || !unconfirmed s jsn) then
          let (w, t) := settleWrite x s
          match w with
          | some _ => s
          | none => finish p .ok 0 x.old (touchLine p.line t)
        else s

/-- A request meets the record that holds its line: it adopts it, or waits for the line (R81). -/
def meetHeld (p : PReq) (x : Slot) (s : State) : State :=
  let j := x.rc.jsn
  if x.first = p.n ∨ x.adopted = some p.n then setWhy p.n (.tentative j) s
  else if x.adopted = none ∧ x.adoptedBy p ∧ (findReq s x.first).isNone then
    let t := s.modJrn fun r => { r with ring := r.ring.map fun y => if y.rc.jsn = j then { y with adopted := some p.n } else y }
    settleTentative j false (setWhy p.n (.tentative j) t)
  else setWhy p.n (.tentative j) s

end Sys2Proof.Machine
end

