-- ==== Sys2Proof/Machine/Coherence.lean ====
section
/-! DEFINITION. The home arbiter: the directory and its transactions (R119-R149), the order of the requests of a line
(R113, R245), markers and ownership changes (R150-R161), buckets (R115, R116), and `pump`, which lets every request that
waited for something go on once it is there. -/

namespace Sys2Proof.Machine

open Sys2Proof

/-! ### Agents and entries -/

def agentW (s : State) (n : Nat) : Word := regGet s (Off.agent n)
def agentIid (s : State) (n : Nat) : BitVec 16 := (agentW s n).setWidth 16
def agentValid (s : State) (n : Nat) : Bool := bitOf (agentW s n) 63
def agentLost (s : State) (n : Nat) : Bool := bitOf (agentW s n) 62
def agentCxl (s : State) (n : Nat) : Bool := decide (fld (agentW s n) 61 60 = 1)

/-- The valid slot of an IID (R120). -/
def slotOf (s : State) (iid : BitVec 16) : Option (Fin 64) :=
  (List.finRange 64).find? fun n => agentValid s n && decide (agentIid s n = iid)

/-! ### Transactions -/

/-- A transaction, an open commit group, or the repair of an unknown entry that is still to begin has the line (R133, R149, R181). -/
def busyLine (s : State) (line : Nat) : Bool :=
  s.coh.txns.any (·.line == line) || groupHolds s line || s.coh.recalls.any fun r => r.line == line && r.who == .repair

def stakeOpen (s : State) (line : Nat) : Bool :=
  !s.coh.tabled && s.coh.stakes.any fun w => w.1 == line && decide (now s < w.2)

def reservedOther (s : State) (line : Nat) (slot : Fin 64) : Bool :=
  !s.coh.tabled && s.coh.reserved.any fun r => r.1 == line && r.2.1 != slot

/-- A line that needs a new entry finds its slice's line table full (R126). -/
def lineTableFull (s : State) (line : Nat) : Bool :=
  decide (256 ≤ busyLines s (sliceOf (ordLine s line * 128))) && !busyLine s line &&
    !(s.coh.stakes.any (·.1 == line)) && !(s.coh.reserved.any (·.1 == line))

def snoopCode : SnoopOp → BitVec 6
  | .inv => 0x28 | .data => 0x29 | .cur => 0x2A

/-- Send a snoop for a line to a slot, with the home's next tag (R130). -/
def sendSnoop (line : Nat) (op : SnoopOp) (slot : Nat) (s : State) : SnoopOut × State :=
  let tag := BitVec.ofNat 16 s.coh.nextSnoop
  ({ slot := Fin.ofNat 64 slot, op := op, tag := tag, sent := now s },
    emit (.coh (agentIid s slot) (snoopCode op) tag (gsaOfLine s line) 0 .ok 0 0)
      (s.modCoh fun c => { c with nextSnoop := (c.nextSnoop + 1) % 65536 }))

def sendSnoops (line : Nat) (op : SnoopOp) : List Nat → State → List SnoopOut × State
  | [], s => ([], s)
  | n :: ns, s =>
    let (o, t) := sendSnoop line op n s
    let (os, u) := sendSnoops line op ns t
    (o :: os, u)

/-- Open a transaction on a line (actions v, d and c of Table 06-7). -/
def startTxn (line : Nat) (st : BState) (head : Head) (op : SnoopOp) (slots : List Nat) (s : State) : State :=
  let (os, t) := sendSnoops line op slots s
  t.modCoh fun c => { c with txns := c.txns ++ [{ line := line, st := st, head := head, snoops := os, start := now s }] }

def stateCode : DirState → Nat
  | .i => 0 | .s => 1 | .e => 2

/-- The home state of a line, for records: I, S, E, BI, BS, BC. -/
def homeState (s : State) (line : Nat) : Nat :=
  match s.coh.txns.find? (·.line == line) with
  | some t => (match t.st with | .bi => 3 | .bs => 4 | .bc => 5)
  | none => stateCode (dirGet s line).state

/-- The snoop of a slot for a line whose response an injection withheld (R489). -/
def withheldAt (s : State) (line slot : Nat) : Bool :=
  s.coh.txns.any fun t => t.line == line && t.snoops.any fun o => o.slot.val == slot && o.injected

/-- A COHERENCE record: message op, home state, sender slot (Table 17-1); [62] of detail3 for an injected fault. -/
def cohRec (code : BitVec 8) (sev : BitVec 2) (line : Nat) (op : BitVec 6) (slot : Nat) (iid : BitVec 16) (s : State) : State :=
  raise { cls := 5, sev := sev, code := code, block := 0x10, inst := BitVec.ofNat 8 (sliceOf (line * 128))
          gsa := gsaOfLine s line, iid := iid, detail1 := op.setWidth 64, detail2 := BitVec.ofNat 64 (homeState s line)
          detail3 := BitVec.ofNat 64 slot ||| (if withheldAt s line slot then put 62 1 else 0) } s

/-- Action z: counted in HOME_IMPOSSIBLE, with a record (Table 06-7). DESIGN CHOICE, unsafe (log 35): a sender whose IID has no slot is
recorded as slot 0; the spec gives such a record no slot. -/
def impossible (line : Nat) (op : BitVec 6) (iid : BitVec 16) (s : State) : State :=
  cohRec 0x04 0 line op ((slotOf s iid).elim 0 (·.val)) iid (countRC (Off.home + 0x38) 1 s)

/-- R139: the owner of a line does not answer: one directory write sets poison and I, the line is poisoned, a record is
raised. -/
def loseOwner (line : Nat) (slot : Nat) (s : State) : State :=
  let t := modDir line (fun _ => { poison := true }) s
  cohRec 0x03 1 line 0 slot (agentIid s slot) (mirrorPoison line (poisonLine line 0 t))

/-- The directory lookup of a request (R124, R125), which resolves the bits of lost slots on the spot (R141). -/
def resolveLost (line : Nat) (s : State) : State :=
  let s := dirUse line false s
  (dirGet s line).holders.foldl (fun s n =>
    if agentLost s n then
      if (dirGet s line).state = .e ∧ (dirGet s line).owner.toNat = n then loseOwner line n s else modDir line (DirEnt.drop n) s
    else s) s

/-! ### Messages to agents -/

/-- A home message that answers an agent, with the answer fields of arg (R130). -/
def toAgent (iid : BitVec 16) (op : BitVec 6) (m : CohMsg) (data : Line) (st : Status) (hint : BitVec 10) (s : State) : State :=
  let l := loadOf s { gsa := m.gsa, iid := iid }
  let hint := if st = .ny then hint else 0
  emit (.coh iid op m.tag m.gsa data st hint
    (put 59 (stCode st) ||| put 55 l ||| put 51 (shareOf s iid) ||| put 41 hint.toNat)) s

def nack (m : CohMsg) (st : Status) (hint : BitVec 10) (s : State) : State := toAgent m.iid 0x3C m 0 st hint s
def cmpWb (m : CohMsg) (st : Status) (s : State) : State := toAgent m.iid 0x3B m 0 st 0 s

/-- The running average snoop round trip of a slice; 500 ns until its first response since the last reset (R134). -/
def snoopRtt (s : State) (sl : Nat) : Nat :=
  let r := Tab.get (0, 0) s.coh.rtt sl
  if r.2 = 0 then 500 else r.1 / r.2

/-- Hint of a NACK with NY (R134): never less than 1. -/
def cohHint (s : State) (line : Nat) : BitVec 10 :=
  let t :=
    match s.coh.txns.find? (·.line == line) with
    | some x => snoopRtt s (sliceOf (128 * line)) - (now s - x.start)
    | none =>
      match s.coh.stakes.find? (·.1 == line) with
      | some w => w.2 - now s
      | none => (match s.coh.reserved.find? (·.1 == line) with | some r => r.2.2 - now s | none => 1)
  hintOf (Nat.max 1 t)

/-- NACK with NY; a line that holds no reservation becomes reserved for the agent (R136). -/
def nackNYWith (hint : BitVec 10) (m : CohMsg) (slot : Fin 64) (line : Nat) (s : State) : State :=
  let t := nack m .ny hint s
  if s.coh.tabled ∨ s.coh.fence.isSome ∨ s.coh.reserved.any (·.1 == line) then t
  else t.modCoh fun c => { c with reserved := c.reserved ++ [(line, slot, now s + deadlineNs s)] }

/-- NACK with NY for a busy line (R134). -/
def nackNY (m : CohMsg) (slot : Fin 64) (line : Nat) (s : State) : State := nackNYWith (cohHint s line) m slot line s

/-- A line has just become free of any transaction and stake window: its reservation's period runs from now (R136). -/
def lineFreed (line : Nat) (s : State) : State :=
  if busyLine s line || s.coh.stakes.any (·.1 == line) then s
  else s.modCoh fun c => { c with
    reserved := c.reserved.map fun r => if r.1 = line then (r.1, r.2.1, now s + deadlineNs s) else r }

/-! ### Snoops of the home's own (R34, R149, R453, R499) -/

/-- The repair of an unknown entry ends: the entry is I, then the record is raised (R149). -/
def endRepair (line : Nat) (s : State) : State :=
  cohRec 0x01 0 line 0 0 0 (mirrorPoison line (modDir line (fun _ => {}) s))

/-- The slots that a recall snoops. -/
def recallSlots (s : State) (r : Recall) : List Nat :=
  let d := dirGet s r.line
  match r.who with
  | .owner n => if d.state = .e ∧ d.owner.toNat = n.val ∧ agentLost s n = false then [n.val] else []
  | .holders => d.holders.filter fun n => !agentLost s n
  | .repair => (List.range 64).filter fun n => agentValid s n

/-- Send the snoops of a recall once its line has no transaction, no open group and no stake window (R135). The entry under repair is
unknown, so no sender holds the line until the repair ends. DEDUCED, safe (log 36): a lost slot, whose response would be dropped
(R141), is sent its snoop and not awaited. -/
def takeRecall (r : Recall) (s : State) : State :=
  if s.coh.txns.any (·.line == r.line) || groupHolds s r.line || stakeOpen s r.line || lineTableFull s r.line then s
  else
    let s := s.modCoh fun c => { c with recalls := c.recalls.filter (· != r) }
    match r.who with
    | .repair =>
      let ns := recallSlots s r
      let s := modDir r.line (fun _ => {}) s
      let s := (sendSnoops r.line .inv (ns.filter fun n => agentLost s n) s).2
      let live := ns.filter fun n => !agentLost s n
      if live.isEmpty then endRepair r.line s else startTxn r.line .bi .repair .inv live s
    | _ =>
      let s := resolveLost r.line s
      match recallSlots s r with
      | [] => s
      | ns => startTxn r.line .bi .home .inv ns s

/-- The home has lines to recall. -/
def addRecalls (rs : List Recall) (s : State) : State :=
  rs.foldl (fun s r => takeRecall r s) (s.modCoh fun c => { c with recalls := c.recalls ++ rs.filter fun r => !c.recalls.contains r })

/-- Every line that `p` picks and an agent holds is recalled. -/
def recallLines (p : Nat → Bool) (s : State) : State :=
  addRecalls ((s.coh.dir.filter fun x => p x.1 && decide (x.2.presence ≠ 0)).map fun x => { line := x.1, who := .holders }) s

/-! ### Grants (action g) -/

/-- Hold a message until the tier or its record lets it go on. -/
def holdCoh (w : CohWait) (s : State) : State := s.modCoh fun c => { c with held := c.held ++ [w] }

/-- Grant a line (action g of Table 06-7); a poisoned one is granted to no one, and E only to an agent that may modify the region now
(R161). In the resume window a UPG of the recorded owner is granted with data again (R147). -/
def grant (op : CohOp) (m : CohMsg) (slot : Fin 64) (n deadline : Nat) (s : State) : State :=
  let line := lineOf (addr s m.gsa)
  let (g, s) : Got × State := match (if op = .rdS then none else ownerRefuses s (addr s m.gsa) m.iid) with
    | some st => (.bad st, s)
    | none => getLine line m.iid s
  match g with
  | .wait w => holdCoh { what := .req op, m := m, slot := slot, n := n, deadline := deadline, why := w } s
  | .bad st => nack m st 0 s
  | .data l =>
    let s := touchLine line (s.modCoh fun c => { c with reserved := c.reserved.filter fun r => !(r.1 == line && r.2.1 == slot) })
    match op with
    | .rdS => toAgent m.iid 0x38 m l .ok 0 (modDir line (DirEnt.share slot) s)
    | _ =>
      let nd := op == .upg && (dirGet s line).state == .s && (dirGet s line).presence.getLsbD slot
      let s := openRegion (line * 128) false (modDir line (DirEnt.own slot) s)
      let s := if s.coh.tabled then s
        else s.modCoh fun c => { c with stakes := (c.stakes.filter (·.1 != line)) ++ [(line, now s + stakeNs s)] }
      if nd then toAgent m.iid 0x3A m 0 .ok 0 s else toAgent m.iid 0x39 m l .ok 0 s

/-- Steps 3-8 for a coherence request (R119, R120, R127, R161, R396). -/
def cohAdmits (s : State) (op : CohOp) (m : CohMsg) : Option Status :=
  let a := addr s m.gsa
  let d := extDesc s (extOf a)
  let g := rightsOf d m.iid
  match servesAt s m.gsa with
  | .lost => some .deviceLost
  | .nowhere | .forward _ => some .noExtent
  | .notYet => some .ny
  | .here =>
    if m.gsa.toNat % 128 ≠ 0 then some .malformed
    else if d.state = .free ∨ d.inc ≠ m.inc then some .noExtent
    else if d.state ≠ .assigned then some .revoked
    else if !(g.rd && (op == .rdS || g.wr)) || !isCoherent s (lineOf a) then some .denied
    else
      match (if op = .rdS then none else ownerRefuses s a m.iid) with
      | some st => some st
      | none =>
        if d.form = .coded ∧ op ≠ .rdS then some .wrongForm
        else if containRefuses s d (op != .rdS) then some .deviceLost else none

/-- Action q for a coherence request (R133, R136, R142). -/
def queueCoh (op : CohOp) (m : CohMsg) (slot : Fin 64) (n deadline line : Nat) (s : State) : State :=
  if s.coh.tabled then
    s.modCoh fun c => { c with queue := c.queue ++ [{ line := line, item := .coh op m slot n deadline }] }
  else nackNY m slot line s

def cohCode : CohOp → BitVec 6
  | .rdS => 0x20 | .rdE => 0x21 | .upg => 0x22

/-- The home's action on an admitted coherence request (Table 06-6). -/
def cohServe (op : CohOp) (m : CohMsg) (slot : Fin 64) (n deadline : Nat) (s : State) : State :=
  let line := lineOf (addr s m.gsa)
  let s := resolveLost line s
  let d := dirGet s line
  let holds := d.presence.getLsbD slot
  let z (s : State) : State := nack m .malformed 0 (impossible line (cohCode op) m.iid s)
  let others := d.holders.filter (· != slot.val)
  let busy := s.coh.txns.find? (·.line == line)
  let sharer := op == .upg && d.state == .s && (match busy with | some t => t.st == .bi | none => true)
  let again := s.coh.resumeUntil.isSome && decide (d.state = if op = .rdS then .s else .e)
  if holds && !sharer && !again then z s
  else if busyLine s line then queueCoh op m slot n deadline line s
  else if holds && !sharer then grant op m slot n deadline s
  else
    let snoops := if op = .rdS then decide (d.state = .e) else !others.isEmpty
    if reservedOther s line slot || (snoops && stakeOpen s line) ||
        ((snoops || (!s.coh.tabled && op != .rdS)) && lineTableFull s line) then queueCoh op m slot n deadline line s
    else if snoops then
      if op = .rdS then startTxn line .bs (.coh op m slot n deadline) .data others s
      else startTxn line .bi (.coh op m slot n deadline) .inv others s
    else grant op m slot n deadline s

/-! ### Requests of Table 05-2 at a line -/

/-- Lines of the view that a request touches: 32 for a coded block write (R252). -/
def viewLines (p : PReq) : List Nat :=
  if p.kind = .codedWrite then (List.range 32).map (p.line + ·) else [p.line]

/-- Action q for a request of Table 05-2: it waits in slice order, in tabled mode in the line's queue (R133, R142). -/
def queueReq (p : PReq) (line : Nat) (s : State) : State :=
  let t := setWhy p.n (.busy line) s
  if s.coh.tabled && !(s.coh.queue.any fun q => q.item == .req p.n) then
    t.modCoh fun c => { c with queue := c.queue ++ [{ line := line, item := .req p.n }] }
  else t

/-- The coherence side of a request: true when it waits for snoops or for a busy line (Table 06-6). -/
def cohStage (p : PReq) (s : State) : Bool × State :=
  if !isCoherent s p.line then (false, s)
  else
    let ls := viewLines p
    let s := ls.foldl (fun s l => resolveLost l s) s
    let snoop (ls : List Nat) (st : BState) (op : SnoopOp) : Bool × State :=
      if ls.any (stakeOpen s) || ls.any (lineTableFull s) then (true, setWhy p.n (.busy p.line) s)
      else
        match ls with
        | [l] => (true, startTxn l st (.req p.n) op (dirGet s l).holders (setWhy p.n (.snoop l) s))
        | _ => (true, ls.foldl (fun s l => startTxn l st .home op (dirGet s l).holders s) (setWhy p.n (.busy p.line) s))
    match ls.find? (fun l => busyLine s l || (s.coh.tabled && s.coh.queue.any (·.line == l))) with
    | some l => (true, queueReq p l s)
    | none =>
      if isModifying p.kind then
        let hs := ls.filter fun l => decide ((dirGet s l).presence ≠ 0)
        if hs.isEmpty then (false, s) else snoop hs .bi .inv
      else if (dirGet s p.line).state = .e then
        if p.kind = .wait then snoop [p.line] .bs .data else snoop [p.line] .bc .cur
      else (false, s)

/-- Does an earlier request hold back a later one of the same line (R113)? -/
def PReq.holdsBack (s : State) (q p : PReq) : Bool :=
  decide (q.n < p.n) && (q.admitted || (q.r.iid == p.r.iid && (match q.why with | .marker _ => true | _ => false))) && decide (ordLine s q.line = ordLine s p.line) && (isModifying q.kind || isModifying p.kind) &&
    (match q.kind with | .barrier | .acquire | .release | .publish | .readVersion => false | _ => true) &&
    (match q.why with | .counter | .late | .buddy _ | .bucket _ _ => false | _ => true)

/-- More WAITs and READ_VERSIONs held than a device holds (R103, R160). -/
def heldFull (s : State) : Bool :=
  decide (4096 < (s.home.waiting.filter fun p => match p.why with | .counter | .version _ => true | _ => false).length)

/-- An admitted request to a line, in the slice's order. -/
def serveLine (p : PReq) (s : State) : State :=
  if s.home.waiting.any (PReq.holdsBack s · p) then setWhy p.n (.behind p.line) s
  else
    match heldBy s p.line with
    | some x => meetHeld p x s
    | none =>
      if isModifying p.kind && (viewLines p).any (groupHolds s) then setWhy p.n (.group p.line) s
      else if isModifying p.kind && (viewLines p).any (fun l => !(cutsOn s l).isEmpty) then
        setWhy p.n (.cutting p.line) ((viewLines p).foldl (fun s l => dropCuts l s) s)
      else
      let (busy, t) := cohStage p s
      let u := if busy then t else perform p t
      if p.kind = .wait && heldFull u && (match findReq u p.n with | some q => q.why == .counter | none => false) then
        finish p .queueFull 0 [] u
      else u

/-! ### Ownership (R150-R161) -/

/-- An E line in the region (R158). -/
def anyE (s : State) (key : Nat) : Bool :=
  s.coh.dir.any fun x => decide (x.2.state = .e) && decide (headOf s (x.1 / 2 ^ 14) = key)

/-- Recall the E lines of a region that an old holder has (R161, R499). -/
def recallHolder (key : Nat) (iid : BitVec 16) (s : State) : State :=
  match slotOf s iid with
  | none => s
  | some n =>
    if agentLost s n then s
    else addRecalls ((s.coh.dir.filter fun x => decide (x.2.state = .e) && decide (x.2.owner.toNat = n.val) &&
      decide (headOf s (x.1 / 2 ^ 14) = key)).map fun x => { line := x.1, who := .owner n }) s

/-- The change commits (R154): the record takes effect, the request is answered, a holder that no longer holds the region is
recalled. -/
def commitOwn (key : Nat) (s : State) : State :=
  match s.own.find? (·.key == key) with
  | none => s
  | some o =>
    let cur := ownerOf s key
    let t := setOwner key { o.new with inflight := cur.inflight } (s.modOwn fun l => l.filter (·.key != key))
    let t := if cur.held && (!o.new.held || decide (o.new.ownerIid ≠ cur.ownerIid)) then recallHolder key cur.ownerIid t else t
    match findReq t o.n with
    | none => t
    | some p =>
      let data := if p.kind = .release then [] else bytesOfWord (put 32 o.new.token.toNat ||| o.new.version.setWidth 64)
      finish p .ok 0 data t

/-- Begin an ownership change, or a PUBLISH: its record takes its slot and is mirrored (R154, R158). -/
def beginOwn (p : PReq) (key : Nat) (new : Owner) (isPublish : Bool) (s : State) : State :=
  let e := key / 512
  let n := s.jrn.nextJsn
  let t := journalCtl (publishRec s key new) (some e) false (notePairLost e s)
  let c : OwnChange := {
    key := key, n := p.n, new := new, jsn := n, buddy := (mirrorTo t e).isSome, entered := isPublish, isPublish := isPublish }
  setWhy p.n (.commit key) (t.modOwn (· ++ [c]))

/-- ACQUIRE and RELEASE (R155, R156). -/
def serveOwn (p : PReq) (s : State) : State :=
  let key := granKey p.a
  let o := ownerOf s key
  let paired := decide ((extDesc s (extOf p.a)).durability = .paired)
  let change (new : Owner) : State :=
    if p.deadline < now s + (if paired then 1100 else 700) then setWhy p.n .late s else beginOwn p key new false s
  let token := BitVec.ofNat 32 (fld p.r.arg 63 32)
  if (regionEnt s key).ownership ≠ .owned then finish p .denied 0 [] s
  else if s.own.any (·.key == key) then setWhy p.n (.marker key) s
  else if p.kind = .release then
    if o.held ∧ o.ownerIid = p.r.iid ∧ o.token = token then
      change { o with held := false, prevIid := o.ownerIid, prevValid := true }
    else finish p .fenced 0 [] s
  else if o.held ∧ o.ownerIid = p.r.iid then
    finish p .ok 0 (bytesOfWord (put 32 o.token.toNat ||| o.version.setWidth 64)) s
  else if o.held ∧ !bitOf p.r.arg 0 then finish p .busy 0 [] s
  else
    let o := if o.held then { o with prevIid := o.ownerIid, prevValid := true } else o
    change { o with held := true, ownerIid := p.r.iid, ownerFdn := p.r.src, token := o.token + 1 }

/-- PUBLISH (R158). DESIGN CHOICE, unsafe (log 37): a PUBLISH begins only while the time a write needs is left to its deadline, 200 ns, or
1,100 ns on a PAIRED extent (R111); the spec gives a PUBLISH no cut-off. -/
def servePublish (p : PReq) (s : State) : State :=
  let key := granKey p.a
  let o := ownerOf s key
  let v := BitVec.ofNat 32 (fld p.r.arg 31 0)
  let mode := (regionEnt s key).ownership
  if mode = .none then finish p .denied 0 [] s
  else if s.own.any (·.key == key) then setWhy p.n (.marker key) s
  else if mode = .owned ∧ (!o.held ∨ o.ownerIid ≠ p.r.iid ∨ o.token ≠ BitVec.ofNat 32 (fld p.r.arg 63 32)) then
    finish p .fenced 0 [] s
  else if !seqLt 32 o.version.toNat v.toNat ∨ 2 ^ 30 < (v - o.version).toNat then finish p .conflict 0 [] s
  else if o.inflight ≠ 0 || (isCoherent s p.line && anyE s key) then setWhy p.n (.inflight key) s
  else if p.deadline < now s + cutOff s p then setWhy p.n .late s
  else
    let t := beginOwn p key { o with version := v, openW := false, stale := false, pubTime := now s } true s
    if t.own.any (fun c => c.key == key && !c.buddy) then commitOwn key t else t

/-- The answer word of READ_VERSION (Table 07-3). -/
def versionWord (o : Owner) : Word :=
  put 63 (bit01 o.held) ||| put 62 (bit01 o.openW) ||| put 61 (bit01 o.stale) ||| put 32 o.ownerIid.toNat ||| o.version.setWidth 64

/-- READ_VERSION (R160, Table 18-9). -/
def serveVersion (p : PReq) (s : State) : State :=
  let key := granKey p.a
  let o := ownerOf s key
  let target := BitVec.ofNat 32 (fld p.r.arg 31 0)
  if (regionEnt s key).ownership = .none then finish p .denied 0 [] s
  else if !bitOf p.r.arg 63 ∨ target = o.version ∨ seqLt 32 target.toNat o.version.toNat then
    finish p .ok 0 (bytesOfWord (versionWord o)) s
  else if 2 ^ 30 < (target - o.version).toNat then finish p .conflict 0 [] s
  else
    let t := setWhy p.n (.version key) s
    if heldFull t then finish p .queueFull 0 [] t else t

/-- An admitted request, by its kind. -/
def serveKind (p : PReq) (s : State) : State :=
  match p.kind with
  | .acquire | .release => serveOwn p s
  | .publish => servePublish p s
  | .readVersion => serveVersion p s
  | .barrier => s
  | _ => serveLine p s

/-- The first access of a request of many lines admits it to the extent, under the rights of this moment (R29, R31). -/
def admitMulti (p : PReq) (s : State) : State :=
  match p.r.multi with
  | none => s
  | some i =>
    if (findMulti s p.r.src p.r.multi (extOf p.a)).isSome then s
    else s.modHome fun h => { h with multi := h.multi ++ [{
      src := p.r.src, id := i, ext := extOf p.a, rights := rightsOf (extDesc s (extOf p.a)) p.r.iid }] }

/-- A request reaches its slice's admission point (R27, R154, R158). -/
def enterSlice (p : PReq) (s : State) : State :=
  match servesAt s p.r.gsa with
  | .nowhere => finish p .noExtent 0 [] s
  | .lost => finish p .deviceLost 0 [] s
  | .notYet => finishNY p s
  | .forward f =>
    emit (.routed f p.r.op p.r) (s.modHome fun h => { h with waiting := h.waiting.filter (·.n != p.n) })
  | .here =>
    if malformed s p.kind p.r then finish p .malformed 0 [] s
    else if isModifying p.kind && marked s p.a then setWhy p.n (.marker (headOf s (granKey p.a))) s
    else
      match admits s p.kind p.a p.r.iid p.r.inc (findMulti s p.r.src p.r.multi (extOf p.a)) with
      | some st => finish p st 0 [] s
      | none =>
        let s := admitMulti p s
        let m := isModifying p.kind && decide ((regionEnt s (headOf s (granKey p.a))).ownership ≠ .none)
        let s := if m then openRegion p.a true s else s
        let p := { p with admitted := true, counted := m }
        serveKind p (modReq p.n (fun _ => p) s)

/-! ### Going on -/

/-- Bytes that a request costs its bucket (R116); a read of a whole coded block is answered with the block (R254). -/
def costOf (s : State) (k : ReqKind) (r : Req) : Nat :=
  let block (a : Nat) : Nat :=
    if wantsBlock r && inDataArea s (lineOf a) then
      let e := (idxLine (bytesOfLine (storedLine s (segBase (lineOf a))))).getD (blkOf (lineOf a)) {}
      if e.kind = 1 then 32 * e.len else 0
    else 128
  Nat.max 128 (r.plen.toNat + (match k with
    | .load => block (addr s r.gsa) | .atomic => (if r.post then 0 else 16) | .wait | .acquire | .publish | .readVersion => 8 | _ => 0))

/-- When a bucket can pay, and what it then holds, in thousandths of a byte (R116); none where it never can. -/
def bucketPay (s : State) (b cost : Nat) : Option (Nat × Bucket) :=
  let r := bktRate s b
  let cap := 1000 * bktBurst s b
  let k : Bucket := match s.home.buckets.find? (·.1 == b) with | some e => e.2 | none => { tokens := cap }
  let at_ := Nat.max (now s) k.at_
  let tok := Nat.min cap (k.tokens + r * (at_ - k.at_))
  if 1000 * cost ≤ tok then some (at_, { k with tokens := tok - 1000 * cost, at_ := at_ })
  else if r = 0 ∨ cap < 1000 * cost then none
  else
    let w := ceilDiv (1000 * cost - tok) r
    some (at_ + w, { k with tokens := tok + r * w - 1000 * cost, at_ := at_ + w })

def setBucket (b : Nat) (k : Bucket) (s : State) : State :=
  s.modHome fun h => { h with buckets := (h.buckets.filter (·.1 < b)) ++ [(b, k)] ++ (h.buckets.filter (b < ·.1)) }

/-- Demand offered in the interval, requests answered NY included (R117). -/
def demand (b n : Nat) (s : State) : State :=
  let cap := 1000 * bktBurst s b
  let k : Bucket := match s.home.buckets.find? (·.1 == b) with | some e => e.2 | none => { tokens := cap }
  setBucket b { k with demand := k.demand + n } s

/-- Charge a request waiting at the home to its initiator's bucket: it goes on, is held until its payment time, or is answered NY
(R116). -/
def charge (p : PReq) (go : State → State) (s : State) : State :=
  let b := bucketOf s p.r.iid
  if !bktEnabled s b || p.kind == .advance then go s
  else
    let c := costOf s p.kind p.r
    let s := demand b c s
    match bucketPay s b c with
    | none => finish p .ny 0x3FF [] s
    | some (t, bk) =>
      if t ≤ now s then go (setBucket b bk s)
      else if t + 500 ≤ p.deadline then setWhy p.n (.bucket b t) (setBucket b bk s)
      else finish p .ny (hintOf (t - now s)) [] s

/-- Requests queued at a slice in tabled mode (R142). -/
def sliceQueued (s : State) (sl : Nat) : Nat := (s.coh.queue.filter fun q => sliceOf (128 * q.line) == sl).length

/-- The ingress of a request withholds its credits: the link's answer reserve is in use (R108), the slice's queue is full (R142), or an
earlier request of the link waits (R113). -/
def ingressFull (s : State) (p : PReq) : Bool :=
  match p.r.ing with
  | .link _ =>
    answerFull s p.r.src || decide (1024 ≤ sliceQueued s (sliceOf p.a)) ||
      s.home.waiting.any fun q => q.why == .ingress && decide (q.n < p.n) && sameEgress q.r.ing p.r.ing
  | _ => false

/-- Let one waiting request go on if what it waited for is there. -/
def attempt (n : Nat) (s : State) : State :=
  match findReq s n with
  | none => s
  | some p =>
    match p.why with
    | .bucket _ _ | .buddy _ | .snoop _ | .commit _ | .late | .counterHome => s
    | .ingress =>
      if ingressFull s p then s
      else
        let q := { p with arrived := now s, deadline := now s + deadlineNs s, why := .late }
        charge q (enterSlice q) (reserveAnswer q.r (modReq n (fun _ => q) s))
    | .tentative j =>
      if s.jrn.ring.any (fun x => x.rc.jsn == j && x.rc.tentative) then
        if s.jrn.ring.any (fun x => x.rc.jsn == j && x.adopted == none && x.first != n) then serveKind p s
        else settleTentative j false s
      else serveKind p s
    | .busy _ => if s.coh.queue.any (fun q => q.item == .req n) then s else serveKind p s
    | .marker _ =>
      if p.admitted then serveKind p s else if marked s p.a then s else enterSlice p s
    | _ => serveKind p s

/-- Record the data of a coherence message (R484): nothing to wait for, a slot, or the buddy. -/
def cohJournal (line : Nat) (iid : BitVec 16) (s : State) : Option Why × State :=
  let e := extOfLine line
  if (extDesc s e).durability = .cached then (none, s)
  else if !slotOk s .mirrored then (some .slot, s)
  else
    let n := s.jrn.nextJsn
    let t := recordWrite e (dataRec s line (if linePoison s line then 0 else 15) (linePoison s line) iid) s
    (if (mirrorTo s e).isSome then some (.buddy n) else none, t)

/-- An agent's data enters the line, which stays poisoned if it was (R139, R484). -/
def cohData (line : Nat) (data : Line) (psn : Bool) (s : State) : Option Why × State :=
  let (ok, s) := readyFull line s
  if !ok then (some (.way (setOf s (line / 128))), s)
  else
    let bad := linePoison s line || psn
    let s := storeLine line (BitVec.allOnes 128) (bytesOfLine data) s
    (none, if bad then mirrorPoison line (modTag (line / 128) (fun t => { t with poison := t.poison ||| lineBit line }) s) else s)

/-- A message by its sender's slot waits for its record, or CMP_WB goes out (R484). -/
def wbRecord (m : CohMsg) (slot : Fin 64) (s : State) : State :=
  let (w, s) := cohJournal (lineOf (addr s m.gsa)) m.iid s
  match w with
  | none => cmpWb m .ok s
  | some w => holdCoh { what := .cmp, m := m, slot := slot, why := w } s

/-- WB_D from a recorded holder (actions w and x). -/
def takeWb (m : CohMsg) (slot : Fin 64) (s : State) : State :=
  let line := lineOf (addr s m.gsa)
  let (w, s) := cohData line m.data m.poison s
  match w with
  | some w => holdCoh { what := .wb, m := m, slot := slot, why := w } s
  | none => wbRecord m slot (modDir line (DirEnt.drop slot) s)

/-- A transaction with no snoop and no record outstanding ends; its head completes (R133). -/
def finishTxn (line : Nat) (s : State) : State :=
  match s.coh.txns.find? (fun t => t.line == line && t.snoops.isEmpty && t.journal.isNone) with
  | none => s
  | some t =>
    let s := lineFreed line (s.modCoh fun c => { c with txns := c.txns.filter (·.line != line) })
    match t.head with
    | .home => s
    | .repair => endRepair line s
    | .req n => (match findReq s n with | some p => perform p s | none => s)
    | .coh op m slot n dl => (match t.st with
      | .bi | .bs => grant op m slot n dl (resolveLost line s)
      | .bc => s)

/-- Record a snoop response in a transaction (action r); with data, its record first (R484). -/
def takeRsp (m : CohMsg) (slot : Fin 64) (st : DirState) (withData : Bool) (s : State) : State :=
  let line := lineOf (addr s m.gsa)
  let (w, s) := if withData then cohData line m.data m.poison s else (none, s)
  match w with
  | some w => holdCoh { what := .rsp st, m := m, slot := slot, why := w } s
  | none =>
    let s := modDir line (fun d => match st with
      | .i => d.drop slot
      | .s => d.share slot
      | .e => if d.presence &&& ~~~(slotBit slot) = 0 then d.own slot else d.share slot) s
    let (w, s) := if withData then cohJournal line m.iid s else (none, s)
    let j : Option (Option Nat) := match w with | none => none | some (.buddy n) => some (some n) | some _ => some none
    finishTxn line (s.modCoh fun c => { c with
      txns := c.txns.map fun t => if t.line = line then
        { t with snoops := t.snoops.filter (·.slot != slot), journal := if j.isSome then j else t.journal } else t })

/-- The answer to a request that no slice admits: after a self-fence DEVICE_LOST (R405), in a fatal reset INTERNAL (R393),
otherwise NY with the largest hint (R78, R425, R427, R453). -/
def closedStatus (s : State) : Status :=
  if s.flt.state = .isolated then .deviceLost
  else if s.sys.kind = .fatal ∧ s.sys.phase = .departing then .internal else .ny

/-- Data of a response that came too late enters its line, which stays poisoned (R139). DESIGN CHOICE, unsafe (log 38): where a write has
cleared the poison since, the late data is dropped and the newer bytes stay. -/
def takeLate (m : CohMsg) (slot : Fin 64) (s : State) : State :=
  let line := lineOf (addr s m.gsa)
  if !linePoison s line || (extDesc s (extOfLine line)).state = .free then s
  else
    let (w, s) := cohData line m.data m.poison s
    match w with
    | none => s
    | some w => holdCoh { what := .late, m := m, slot := slot, why := w } s

/-- An admitted coherence request takes its place at its line: that of its agent's placeholder (R142), the tail of the queue, or at once. -/
def cohPlace (op : CohOp) (m : CohMsg) (slot : Fin 64) (n dl : Nat) (s : State) : State :=
  let line := lineOf (addr s m.gsa)
  let mine (q : QEnt) : Bool := q.line == line && (match q.item with | .placeholder sl _ => sl == slot | _ => false)
  if s.coh.queue.any mine then
    s.modCoh fun c => { c with queue := modFirst mine (fun q => { q with item := .coh op m slot n dl }) c.queue }
  else if s.coh.tabled && s.coh.queue.any (·.line == line) then queueCoh op m slot n dl line s
  else cohServe op m slot n dl s

/-- The admission point of a coherence request: RD_E and UPG wait at an ownership marker (R150, R154), then the checks (R127). -/
def cohAdmit (op : CohOp) (m : CohMsg) (slot : Fin 64) (n dl : Nat) (s : State) : State :=
  let a := addr s m.gsa
  if op != .rdS && servesAt s m.gsa == .here && marked s a then
    holdCoh { what := .req op, m := m, slot := slot, n := n, deadline := dl, why := .marker (headOf s (granKey a)) } s
  else
    match cohAdmits s op m with
    | some st => nack m st 0x3FF s
    | none => cohPlace op m slot n dl s

/-- RD_S, RD_E or UPG at the home (R119, R120, R127, R133, R142, R146, R147); one whose slice's queue is full stays at its ingress. -/
def cohEnter (op : CohOp) (m : CohMsg) (s : State) : State :=
  if !admitting s then nack m (closedStatus s) 0x3FF s
  else
    match slotOf s m.iid with
    | none => nack m .denied 0 s
    | some slot =>
      if agentLost s slot then nack m .fenced 0 s
      else if s.coh.fence.isSome then nack m .ny 4 s
      else if s.coh.quiescing.isSome then nack m .ny 0x3FF s
      else if 1024 ≤ sliceQueued s (sliceOf (addr s m.gsa)) then s.modCoh fun c => { c with withheldReqs := c.withheldReqs ++ [(op, m)] }
      else
        let n := s.home.nextReq
        cohAdmit op m slot n (now s + deadlineNs s) (s.modHome fun h => { h with nextReq := n + 1 })

/-- Withheld coherence requests enter as their slices' queues have room (R142). -/
def takeWithheld (s : State) : State :=
  let l := s.coh.withheldReqs
  l.foldl (fun s w => cohEnter w.1 w.2 s) (s.modCoh fun c => { c with withheldReqs := [] })

/-- Let one held coherence message go on. -/
def attemptCoh (w : CohWait) (s : State) : State :=
  match w.why with
  | .buddy _ => s
  | _ =>
    let s := s.modCoh fun c => { c with held := c.held.filter (· != w) }
    match w.what with
    | .req op => (match w.why with
      | .marker _ => cohAdmit op w.m w.slot w.n w.deadline s
      | _ => cohServe op w.m w.slot w.n w.deadline s)
    | .wb => takeWb w.m w.slot s
    | .rsp st => takeRsp w.m w.slot st true s
    | .cmp => wbRecord w.m w.slot s
    | .late => takeLate w.m w.slot s

/-- Take the queued requests of a line while it is free (R133, R142). -/
def drainQueue : Nat → Nat → State → State
  | 0, _, s => s
  | k + 1, line, s =>
    if busyLine s line then s
    else
      match s.coh.queue.find? (·.line == line) with
      | none => s
      | some q =>
        let pop (s : State) : State := s.modCoh fun c => { c with queue := c.queue.erase q }
        match q.item with
        | .placeholder _ exp => if now s < exp then s else drainQueue k line (pop s)
        | .req n => (match findReq s n with
          | some p => drainQueue k line (let t := pop s
              let (busy, u) := cohStage p { t with coh := { t.coh with queue := t.coh.queue.filter (·.line != line) } }
              let u := { u with coh := { u.coh with queue := t.coh.queue ++ u.coh.queue.filter (fun x => !t.coh.queue.contains x) } }
              if busy then u else perform p u)
          | none => drainQueue k line (pop s))
        | .coh op m slot n dl => drainQueue k line (cohServe op m slot n dl (pop s))

/-- Switch modes at the end of a fence (R146); a mode asked for since begins the next. -/
def switchMode (f : FenceRun) (s : State) : State :=
  s.modCoh fun c => { c with
    tabled := f.tabled, fenceNo := f.number
    stakes := if f.after.isSome then [] else c.stakes, reserved := if f.after.isSome then [] else c.reserved
    fence := f.after.map fun m => { tabled := m, number := f.number + 1 } }

/-- Step 3 of R146, once no transaction, held message or queued request remains: FENCE_REQ to every slot that is not lost. The host
port answers at once for its CXL hosts. DESIGN CHOICE, unsafe (log 39): FENCE_REQ, HOME_RESET and HOME_RESUME name no line, and go out
with tag and gsa zero. -/
def fenceStep (s : State) : State :=
  match s.coh.fence with
  | none => s
  | some f =>
    if f.sent.isSome ∨ !s.coh.txns.isEmpty ∨ !s.coh.queue.isEmpty ∨ !s.coh.held.isEmpty then s
    else
      let slots : List (Fin 64) := (List.finRange 64).filter fun n => agentValid s n.val && !agentLost s n.val
      let dfl : List (Fin 64) := slots.filter fun n => !agentCxl s n.val
      let arg := BitVec.ofNat 64 (bit01 f.tabled * 65536 + f.number.toNat)
      let s := dfl.foldl (fun s n => emit (.coh (agentIid s n) 0x2B 0 0 0 .ok 0 arg) s) s
      if dfl.isEmpty then switchMode f s
      else s.modCoh fun c => { c with fence := some { f with awaiting := dfl, sent := some (now s) } }

/-- Pass a mode fence (R145, R146): stake windows and reservations lapse. -/
def passFence (tabled : Bool) (s : State) : State :=
  fenceStep (s.modCoh fun c => { c with stakes := [], reserved := [], fence := some { tabled := tabled, number := c.fenceNo + 1 } })

/-- Enter a mode by a fence. While one runs whose FENCE_REQ has gone out, its mode stands and the next fence enters the one asked for. -/
def startFence (tabled : Bool) (s : State) : State :=
  match s.coh.fence with
  | some f =>
    let g := if f.sent.isNone then { f with tabled := tabled } else { f with after := if f.tabled = tabled then none else some tabled }
    s.modCoh fun c => { c with fence := some g }
  | none => if s.coh.tabled = tabled then s else passFence tabled s

/-- Transactions waiting for a slot for their record (R484) take it. -/
def txnRecords (s : State) : State :=
  (s.coh.txns.filter (·.journal == some none)).foldl (fun s t =>
    if slotOk s .mirrored then
      let (w, s) := cohJournal t.line 0 s
      let j : Option (Option Nat) := match w with | some (.buddy n) => some (some n) | _ => none
      finishTxn t.line (s.modCoh fun c => { c with txns := c.txns.map fun x => if x.line = t.line then { x with journal := j } else x })
    else s) s

/-- One pass over everything that waits, in order of arrival. -/
def pumpOnce (s : State) : State :=
  let s := takeWithheld (txnRecords (poisonDue s))
  let s := s.coh.recalls.foldl (fun s r => takeRecall r s) s
  let s := (s.home.waiting.map (·.n)).foldl (fun s n => attempt n s) s
  let s := s.coh.held.foldl (fun s w => attemptCoh w s) s
  let s := (s.coh.queue.map (·.line)).dedup.foldl (fun s l => drainQueue (s.coh.queue.length + 1) l s) s
  fenceStep s

/-- Let everything that can go on do so. Each pass serves in order of arrival; three passes settle what one request's end
lets another do (log 5). -/
def pump (s : State) : State := pumpOnce (pumpOnce (pumpOnce s))

/-- The lost-agent procedure begins for a slot (R141). -/
def startSweep (slot : Fin 64) (s : State) : State :=
  if agentLost s slot || !agentValid s slot then s
  else
    let s := regSet (Off.agent slot) (agentW s slot ||| put 62 1) s
    let open_ := s.coh.txns.filter fun t => t.snoops.any (·.slot == slot)
    let s := open_.foldl (fun s t =>
      let d := dirGet s t.line
      let s := if d.state = .e ∧ d.owner.toNat = slot.val then loseOwner t.line slot s else modDir t.line (DirEnt.drop slot) s
      finishTxn t.line (s.modCoh fun c => { c with
        txns := c.txns.map fun x => if x.line = t.line then { x with snoops := x.snoops.filter (·.slot != slot) } else x })) s
    let first := s.coh.sweeps.isEmpty
    let change := first && !s.coh.tabled
    let s := s.modCoh fun c => { c with
      sweeps := c.sweeps ++ [slot], sweepChanged := if first then change else c.sweepChanged }
    if change then startFence true s else s

/-! ### Arrival (R107, R115, R116, R425, R427, R453) -/

/-- A request reaches its home slice: the bucket first, then admission. -/
def arrive (k : ReqKind) (r : Req) (s : State) : State :=
  let a := addr s r.gsa
  let n := s.home.nextReq
  let p : PReq := { n := n, a := a, kind := k, r := r, arrived := now s, deadline := now s + deadlineNs s }
  if s.home.deadSlices.any (fun d => d.val == sliceOf a) then s
  else if !admitting s then answer r (closedStatus s) 0x3FF [] s
  else
    if ingressFull s p then s.modHome fun h => { h with waiting := h.waiting ++ [{ p with why := .ingress }], nextReq := n + 1 }
    else
      let s := s.modHome fun h => { h with waiting := h.waiting ++ [p], nextReq := n + 1 }
      charge p (fun s => pump (enterSlice p s)) (reserveAnswer r s)

end Sys2Proof.Machine
end

