-- ==== Sys2Proof/Machine/Requests.lean ====
section
/-! DEFINITION. The memory-semantic requests at their home (05, 07): LOAD to READ_VERSION, the ownership commit, the response
deadline, and the buckets (R94-R98, R103, R107-R117, R150-R160). -/

namespace Sys2Proof.Machine

open Sys2Proof

/-- LOAD (R94). -/
def execLoad (r : Req) (s : State) := complete (arrive .load r) s

/-- STORE (R94). -/
def execStore (r : Req) (s : State) := complete (arrive .store r) s

/-- STORE_PART (R94). -/
def execStorePart (r : Req) (s : State) := complete (arrive .storePart r) s

/-- CODED_WRITE (R248). -/
def execCodedWrite (r : Req) (s : State) := complete (arrive .codedWrite r) s

/-- ATOMIC (R95-R97). -/
def execAtomic (r : Req) (s : State) := complete (arrive .atomic r) s

/-- WAIT (R103). -/
def execWait (r : Req) (s : State) := complete (arrive .wait r) s

/-- ACQUIRE (R154, R155). -/
def execAcquire (r : Req) (s : State) := complete (arrive .acquire r) s

/-- RELEASE (R154, R156). -/
def execRelease (r : Req) (s : State) := complete (arrive .release r) s

/-- PUBLISH (R158). -/
def execPublish (r : Req) (s : State) := complete (arrive .publish r) s

/-- READ_VERSION (R160). -/
def execReadVersion (r : Req) (s : State) := complete (arrive .readVersion r) s

/-- The markers of a region's change are placed and its record is in its slot; without a buddy to wait for it commits
(R154). -/
def enterOwn (key : Nat) (s : State) : State :=
  let t := s.modOwn fun l => l.map fun o => if o.key = key then { o with entered := true } else o
  if t.own.any (fun o => o.key == key && !o.buddy) then pump (commitOwn key t) else t

/-- OWNERSHIP_COMMIT (R154): the region is named by its base, GSA[47:21]. -/
def execOwnershipCommit (base : Nat) (s : State) := complete (enterOwn base) s

/-- A PAIRED write whose deadline comes before the buddy's confirmation is answered OK; the mirror becomes a late one
(R75). -/
def pairLateAt (jsn : Nat) (s : State) : State :=
  let s := s.modJrn fun j => { j with
    unconf := j.unconf.map fun u => if u.jsn = jsn then { u with late := true, resendAt := now s + deadlineNs s } else u }
  let s := countRC (Off.jrn + 0x48) 1 s
  post { etype := 0x19, object := BitVec.ofNat 64 jsn, fdn := ownFdn s } none none s

/-- What the deadline does to a request still held at its slice (R75, R81, R103, R109, R154, R160). -/
def atDeadline (p : PReq) (s : State) : State :=
  let ny (h : BitVec 10) (s : State) : State := finish p .ny h [] s
  match p.why with
  | .buddy jsn => finish p .ok 0 p.old (pairLateAt jsn s)
  | .tentative jsn =>
    let hint (s : State) : BitVec 10 := if hintOf 100000 ≤ Config.freeHint s.free then Config.freeHint s.free else hintOf 100000
    if !(s.jrn.ring.any fun x => x.rc.jsn == jsn && x.adopted == some p.n) then finish p .ny (hint s) [] s.draw
    else
      let t := settleTentative jsn true s
      if (findReq t p.n).isNone then (if unconfirmed t jsn then pairLateAt jsn t else t)
      else
        let t := t.modJrn fun j => { j with ring := j.ring.map fun x => if x.adopted = some p.n then { x with adopted := none } else x }
        finish p .ny (hint t) [] t.draw
  | .commit key =>
    let t := s.modOwn fun l => l.map fun o => if o.key = key then { o with entered := true } else o
    let t := match t.own.find? (·.key == key) with
      | some o => if o.buddy then pairLateAt o.jsn t else t
      | none => t
    commitOwn key t
  | .counter => ny (BitVec.ofNat 10 (natOfBytes (p.r.payload.take 8) % 1024)) s
  | .version _ => ny (BitVec.ofNat 10 (fld p.r.arg 41 32)) s
  | .cutting line => ny (hintOf (cutsUntil s line - now s)) s
  | _ => if p.kind = .wait then ny (BitVec.ofNat 10 (natOfBytes (p.r.payload.take 8) % 1024)) s else finishNY p s

/-- A coherence request at its deadline: NACK with NY; the transaction runs on, a queued one leaves a placeholder (R137,
R142). -/
def cohDeadline (n : Nat) (s : State) : State :=
  let headed := s.coh.txns.find? fun t => match t.head with | .coh _ _ _ k _ => k == n | _ => false
  match headed with
  | some t =>
    (match t.head with
     | .coh _ m slot _ _ => nackNY m slot t.line (s.modCoh fun c => { c with
         txns := c.txns.map fun x => if x.line = t.line then { x with head := .home } else x })
     | _ => s)
  | none =>
    let queued := s.coh.queue.find? fun q => match q.item with | .coh _ _ _ k _ => k == n | _ => false
    match queued with
    | some q =>
      (match q.item with
       | .coh _ m slot _ _ => nack m .ny (cohHint s q.line) (s.modCoh fun c => { c with
           queue := c.queue.map fun x => if x = q then { x with item := .placeholder slot (now s + 4 * deadlineNs s) } else x })
       | _ => s)
    | none =>
      match s.coh.held.find? (fun w => w.n == n && (match w.what with | .req _ => true | _ => false)) with
      | some w =>
        nackNYWith (Config.freeHint s.free) w.m w.slot (lineOf (addr s w.m.gsa)) (s.modCoh fun c => { c with held := c.held.filter (· != w) }).draw
      | none => s

/-- The deadline of request `n` (R109). -/
def deadlineOf (n : Nat) (s : State) : State :=
  match findReq s n with
  | some p => pump (atDeadline p (reach p.deadline s))
  | none => pump (cohDeadline n s)

/-- RESPONSE_DEADLINE (R109). -/
def execResponseDeadline (n : Nat) (s : State) := complete (deadlineOf n) s

/-- One step of the weighted share at λ = `num/den`: the rate of an adaptive bucket (R117). -/
def shareRate (s : State) (num den b : Nat) : Nat :=
  Nat.max (bktMin s b) (Nat.min (bktMax s b) (num * bktWeight s b / Nat.max 1 den))

/-- Demand of a bucket in MB/s over the interval of 100 us. -/
def demandRate (s : State) (b : Nat) : Nat := (bucketRec s b).demand / 100

/-- The λ at which the demands met sum to C, in 1,024ths of MB/s per weight: the greatest at which the sum does not pass C. -/
def lambdaFor (s : State) (bs : List Nat) (c : Nat) : Nat :=
  let total (l : Nat) : Nat := (bs.map fun b => Nat.min (demandRate s b) (shareRate s l 1024 b)).foldl (· + ·) 0
  (List.range 48).reverse.foldl (fun l i => if total (l + 2 ^ i) ≤ c then l + 2 ^ i else l) 0

/-- The capacity of the most contended of the four resources: the one with the largest use for its capacity (R117, log 29). -/
def contended (uses : List (Nat × Nat)) : Nat :=
  (uses.foldl (fun m u => if m.1 * u.2 < u.1 * m.2 then u else m) (uses.headD (0, 0))).2

/-- Every 100 us rate_eff of each adaptive bucket follows its share of the most contended resource (R117). -/
def adaptBuckets (capacity : Nat) (s : State) : State :=
  let s := elapsed .buckets 100000 s
  let bs := (List.range 256).filter fun b => bktEnabled s b && bktAdapt s b
  let total := (bs.map (demandRate s)).foldl (· + ·) 0
  let floor := (bs.map (bktMin s)).foldl (· + ·) 0
  let l := lambdaFor s bs capacity
  bs.foldl (fun t b =>
    let rate := if total ≤ capacity then bktMax s b else if capacity < floor then bktMin s b else shareRate s l 1024 b
    let k := (match t.home.buckets.find? (·.1 == b) with | some e => e.2 | none => { tokens := 1000 * bktBurst s b } : Bucket)
    let at_ := Nat.max (now s) k.at_
    setBucket b { tokens := Nat.min (1000 * bktBurst s b) (k.tokens + bktRate s b * (at_ - k.at_)), at_ := at_, rateEff := some rate, demand := 0 } t)
    s

/-- BUCKET_ADAPT (R117): `uses` is what the device measured of HBM bandwidth, flash fill, ring drain and egress: the use and the
capacity of each, in MB/s. -/
def execBucketAdapt (uses : List (Nat × Nat)) (s : State) := complete (adaptBuckets (contended uses)) s

end Sys2Proof.Machine
end

