-- ==== Sys2Proof/Machine/Agents.lean ====
section
/-! DEFINITION. The device as an originator: routing (R26, R371, R410), the tracker (R93, R118), arrival-counter advances
(R98), the copy agent (R99-R102, R255) and durable barriers (R88, R89, R104). -/

namespace Sys2Proof.Machine

open Sys2Proof

/-! ### Routing and the tracker -/

/-- Where a request for an address goes: this device, the home, its stand-in or the adopting spare; or the status of step 2
of Table 02-6. -/
def routeFor (s : State) (f : BitVec 16) : Status ⊕ BitVec 16 :=
  if f = servedFdn s then .inr f
  else if isFenced s f then
    match s.fab.redirect.find? (fun p => p.1 == f.toNat) with
    | some p => .inr (BitVec.ofNat 16 p.2)
    | none => .inl .deviceLost
  else
    match s.fab.redirect.find? (fun p => p.1 == f.toNat) with
    | some p => .inr (BitVec.ofNat 16 p.2)
    | none =>
      if routeEnt s f % 2 = 1 ∨ s.fab.links.any (fun l => l.2.state == .active && l.2.peer == f) then .inr f
      else .inl .noExtent

/-- An outstanding request of this device under a fresh tag (R93). -/
def track (o : Origin) (iid : BitVec 16) (home : BitVec 16) (g : Word) (s : State) : BitVec 16 × State :=
  let tag := BitVec.ofNat 16 s.home.nextTag
  (tag, s.modHome fun h => { h with
    nextTag := (h.nextTag + 1) % 65536
    tracker := h.tracker ++ [{
      iid := iid, tag := tag, home := home, gsa := g
      due := now s + deadlineNs s + 1000 * (regGet s (Off.home + 0x18)).toNat, origin := o }] })

/-- Send a request on behalf of `o` to the home of its address; the status of step 2 where it cannot go. -/
def sendReq (o : Origin) (r : Req) (s : State) : Option Status × State :=
  match routeFor s (fdnOf r.gsa) with
  | .inl st => (some st, s)
  | .inr f =>
    let (tag, s) := track o r.iid (fdnOf r.gsa) r.gsa s
    (none, emit (.routed f r.op { r with tag := tag, src := ownFdn s, ing := .own }) s)

/-- Post an event about a request of an initiator at this device (R388). -/
def postFor (ty : BitVec 8) (st : Status) (iid : BitVec 16) (object : Word) (tag : BitVec 16) (src : Option (BitVec 16)) (s : State) :
    State :=
  post { etype := ty, status := BitVec.ofNat 5 (stCode st), iid := iid, object := object, tag := tag, fdn := fdnOf object } none src s

/-! ### Advances of arrival counters (R98) -/

/-- Issue an advance, or issue it again: at this device's own slice, or at the counter's home. The counter's incarnation is
the current one where it is known (log 6). -/
def issueAdvance (id : Nat) (s : State) : State :=
  match s.home.advances.find? (·.id == id) with
  | none => s
  | some a =>
    let r : Req := {
      ing := .own, op := 0x08, aop := 0xF, post := a.err, tag := BitVec.ofNat 16 id, src := ownFdn s, iid := a.iid, gsa := a.gsa
      arg := BitVec.ofNat 64 a.amount, inc := (extDesc s (extOf (addr s a.gsa))).inc }
    match routeFor s (fdnOf a.gsa) with
    | .inl st => advanceDone r.tag a.iid st 0 s
    | .inr f =>
      if f = servedFdn s then arrive .advance r s
      else
        let (tag, t) := track (.advance id) a.iid (fdnOf a.gsa) a.gsa s
        emit (.routed f 0x08 { r with tag := tag }) t

/-- Advance a counter on behalf of an initiator; no counter is the zero GSA (R98, R104). -/
def advance (iid : BitVec 16) (src : Option (BitVec 16)) (g : Word) (amount : Nat) (err : Bool) (s : State) : State :=
  if g = 0 then s
  else
    let id := s.home.nextAdv
    issueAdvance id (s.modHome fun h => { h with
      nextAdv := id + 1
      advances := h.advances ++ [{ id := id, iid := iid, src := src, gsa := g, amount := amount, err := err, first := now s, retryAt := now s }] })

/-- COUNTER_ADVANCE (R98). -/
def execCounterAdvance (iid : BitVec 16) (gsa amount : Word) (err : Bool) (s : State) :=
  complete (advance iid none gsa amount.toNat err) s

/-- The hint has passed: the advance is tried again, or after 100 ms of NY it is lost (R98). -/
def retryAdvance (id : Nat) (s : State) : State :=
  match s.home.advances.find? (·.id == id) with
  | none => s
  | some a =>
    let s := reach a.retryAt s
    if a.first + 100000000 ≤ now s then advanceDone (BitVec.ofNat 16 id) a.iid .ny 0 s else issueAdvance id s

/-- COUNTER_ADVANCE_RETRY (R98). -/
def execCounterAdvanceRetry (id : Nat) (s : State) := complete (retryAdvance id) s

/-! ### Copies (R99-R102) -/

/-- Fields of a COPY request (Tables 05-2, 05-5). -/
def cpWord (r : Req) (i : Nat) : Word := wordAtByte r.payload (8 * i)
def cpCounter (r : Req) : Word := cpWord r 0
def cpLines (r : Req) : Nat := fld (cpWord r 2) 31 0
def cpInc (r : Req) : Nat := fld (cpWord r 2) 47 32
def cpCoded (r : Req) : Bool := bitOf (cpWord r 2) 48

/-- A range of lines lies within one extent. -/
def oneExtent (g : Word) (lines : Nat) : Bool := decide (offOf g % 2 ^ 30 + 128 * lines ≤ 2 ^ 30)

/-- R99, R255 and step 3. -/
def copyMalformed (r : Req) : Bool :=
  let n := cpLines r
  let align := if cpCoded r then 4096 else 128
  decide (r.plen ≠ 32 ∨ r.gsa.toNat % align ≠ 0 ∨ r.arg.toNat % align ≠ 0 ∨ (cpCounter r).toNat % 8 ≠ 0) ||
    decide (n = 0 ∨ 8388608 < n ∨ cpInc r = 0) || (cpCoded r && decide (n % 32 ≠ 0)) ||
    !oneExtent r.gsa n || !oneExtent r.arg n ||
    decide (r.gsa.toNat < r.arg.toNat + 128 * n ∧ r.arg.toNat < r.gsa.toNat + 128 * n) ||
    decide (r.aop ≠ 0 ∨ r.width ≠ 0 ∨ r.post)

/-- Lines of one access of a copy: a line, or a block of a coded copy. -/
def cpUnit (r : Req) : Nat := if cpCoded r then 32 else 1

def modCopy (id : Nat) (f : CopyRun → CopyRun) (s : State) : State :=
  s.modHome fun h => { h with copies := h.copies.map fun c => if c.id = id then f c else c }

/-- The registration with the counter's home goes (R101). -/
def dropRegistration (c : CopyRun) (s : State) : State :=
  let g := cpCounter c.req
  if g = 0 then s
  else if fdnOf g = servedFdn s then
    s.modHome fun h => { h with regsCtr := h.regsCtr.filter fun x => !(x.owner == ownFdn s && x.copyId == c.id) }
  else emit (.regDelete (fdnOf g) c.id) s

/-- Send the access of one line of a copy (R101). A coded copy reads whole blocks and writes them as CODED_WRITE (R255). -/
def sendCopyLine (c : CopyRun) (l : CopyLine) (s : State) : Option Status × State :=
  let r := c.req
  let incs := cpWord r 1
  match l.side with
  | .src =>
    sendReq (.copyLine c.id l.line .src)
      { op := 0x01, iid := r.iid, gsa := r.arg + BitVec.ofNat 64 (128 * l.line), inc := incs.extractLsb' 32 32
        arg := if cpCoded r then 1 else 0, multi := some (2 * c.id) } s
  | .dst =>
    sendReq (.copyLine c.id l.line .dst)
      { op := if cpCoded r then 0x04 else 0x02, iid := r.iid, gsa := r.gsa + BitVec.ofNat 64 (128 * l.line)
        inc := incs.setWidth 32, plen := BitVec.ofNat 32 l.data.length, payload := l.data
        arg := if cpCoded r then BitVec.ofNat 64 l.data.length else 0, multi := some (2 * c.id) } s

/-- Set copies running while fewer than 256 run (R100). -/
def promote (s : State) : State :=
  let n := (s.home.copies.filter (·.running)).length
  let go := ((s.home.copies.filter fun c => !c.running && !c.awaiting && c.offered.isNone).take (256 - n)).map (·.id)
  s.modHome fun h => { h with copies := h.copies.map fun c => if go.contains c.id then { c with running := true } else c }

/-- A copy ends (R101): its counter is advanced by inc, with err unless it completed; a failure is posted. A copy of a transplant
that fails ends the transplant (step 9, R287). -/
def endCopy (id : Nat) (st : Status) (s : State) : State :=
  match s.home.copies.find? (·.id == id) with
  | none => s
  | some c =>
    let r := c.req
    let s := dropRegistration c ((endMulti (2 * id) s).modHome fun h => { h with
      copies := h.copies.filter (·.id != id)
      tracker := h.tracker.filter fun t => match t.origin with | .copyLine k _ _ => k != id | _ => true })
    let s := advance r.iid (some r.src) (cpCounter r) (cpInc r) (decide (st ≠ .ok)) s
    let s := if st = .ok then s else postFor 0x20 st r.iid r.gsa r.tag (some r.src) s
    let s := if st = .ok then s else s.modEmb fun e => { e with
      xplant := e.xplant.map fun x => if x.copies.contains id then { x with step := 9 } else x }
    promote (s.modEmb fun e => { e with xplant := e.xplant.map fun x => { x with copies := x.copies.filter (· != id) } })

/-- Issue the accesses of running copies: one line at a time, in ascending order (R101 leaves the order open, log 7). -/
def feedCopy (id : Nat) (s : State) : State :=
  match s.home.copies.find? (·.id == id) with
  | none => s
  | some c =>
    if !c.running || !c.active.isEmpty then s
    else if cpLines c.req ≤ c.next then s
    else
      let l : CopyLine := { line := c.next, side := .src, first := now s }
      let (st, t) := sendCopyLine c l (modCopy id (fun c => { c with next := c.next + cpUnit c.req, active := [l] }) s)
      match st with
      | some st => endCopy id st t
      | none => t

def feedCopies (s : State) : State := (s.home.copies.map (·.id)).foldl (fun s i => feedCopy i s) (promote s)

/-- Form and codebook agreement of a coded copy whose two extents are both served here (R255). -/
def codedPair (s : State) (r : Req) : Bool :=
  if fdnOf r.gsa = servedFdn s ∧ fdnOf r.arg = servedFdn s then
    let a := extOf (addr s r.gsa)
    let b := extOf (addr s r.arg)
    decide ((extDesc s a).form = .coded) && decide ((extDesc s b).form = .coded) &&
      decide ((extDesc s a).formParams = (extDesc s b).formParams) && sealedCb s a && sealedCb s b &&
      decide ((storedLine s (a * 2 ^ 23)).extractLsb' 0 32 = (storedLine s (b * 2 ^ 23)).extractLsb' 0 32) &&
      decide (8192 * 128 ≤ offOf r.gsa % 2 ^ 30 ∧ 8192 * 128 ≤ offOf r.arg % 2 ^ 30)
  else true

/-- Copies queued and not running. -/
def copiesQueued (s : State) : Nat := (s.home.copies.filter fun c => !c.running).length

/-- The COPY is accepted: answered OK and queued (R100 step 4). -/
def acceptCopy (id : Nat) (s : State) : State :=
  match s.home.copies.find? (·.id == id) with
  | none => s
  | some c =>
    let s := answer c.req .ok 0 [] (modCopy id (fun c => { c with awaiting := false }) s)
    if cpCoded c.req && !codedPair s c.req then endCopy id .wrongForm s else feedCopies s

/-- Refuse a COPY that is queued for its registration. -/
def refuseCopy (id : Nat) (st : Status) (s : State) : State :=
  match s.home.copies.find? (·.id == id) with
  | none => s
  | some c => answer c.req st 0 [] (s.modHome fun h => { h with copies := h.copies.filter (·.id != id) })

/-- The request is a BARRIER (Table 05-2). -/
def isBarrier (r : Req) : Bool := r.op == 0x0E

/-- Admit a registration at the counter's home (R100 step 2, R102). -/
def admitRegistration (g : Word) (iid : BitVec 16) (s : State) : Option Status :=
  match servesAt s g with
  | .here =>
    if g.toNat % 8 ≠ 0 then some .malformed
    else
      let a := addr s g
      match admits s .atomic a iid (extDesc s (extOf a)).inc none with
      | some st => some st
      | none => if 65536 ≤ s.home.regsCtr.length then some .queueFull else none
  | .lost => some .deviceLost
  | .notYet => some .ny
  | _ => some .noExtent

/-- A COPY reaches the device that owns it (R100). -/
def takeCopy (r : Req) (s : State) : State :=
  if !admitting s then answer r (closedStatus s) 0x3FF [] s
  else if copyMalformed r then answer r .malformed 0 [] s
  else
    let id := s.home.nextCopy
    let full := decide (4096 ≤ copiesQueued s)
    let c : CopyRun := { id := id, req := r }
    let add (c : CopyRun) (s : State) : State := s.modHome fun h => { h with copies := h.copies ++ [c], nextCopy := id + 1 }
    let g := cpCounter r
    if g = 0 then if full then answer r .queueFull 0 [] s else acceptCopy id (add c s)
    else if fdnOf g = servedFdn s then
      match admitRegistration g r.iid s with
      | some st => answer r st 0x3FF [] s
      | none =>
        if full then answer r .queueFull 0 [] s
        else acceptCopy id ((add c s).modHome fun h => { h with
          regsCtr := h.regsCtr ++ [{ owner := ownFdn s, copyId := id, iid := r.iid, counter := g, inc := cpInc r, req := r }] })
    else
      match routeFor s (fdnOf g) with
      | .inl st => answer r st 0 [] s
      | .inr f =>
        let (_, t) := track (.register id) r.iid (fdnOf g) g (add { c with awaiting := true } s)
        emit (.register f id g r.iid) t

/-- COPY (R99, R100). -/
def execCopy (r : Req) (s : State) := complete (takeCopy r) s

/-- The counter's home answers a registration (R100, R102), or deletes one that its copy agent withdraws or whose copy has completed
(R100 step 3, R101). A BARRIER from another device asks in the same way whether its IID may advance the counter (R104), and leaves no
registration (log 31). -/
def takeRegistration (owner : BitVec 16) (r : Req) (copyId : Nat) (withdraw : Bool) (s : State) : State :=
  let g := cpCounter r
  if withdraw then s.modHome fun h => { h with regsCtr := h.regsCtr.filter fun x => !(x.owner == owner && x.copyId == copyId) }
  else match admitRegistration g r.iid s with
  | some st => emit (.regAnswer owner copyId st) s
  | none => if isBarrier r then emit (.regAnswer owner copyId .ok) s else emit (.regAnswer owner copyId .ok) (s.modHome fun h => { h with
      regsCtr := h.regsCtr ++ [{ owner := owner, copyId := copyId, iid := r.iid, counter := g, inc := cpInc r, req := r }] })

/-- COPY_REGISTER (R100): at the counter's home. -/
def execCopyRegister (owner : BitVec 16) (r : Req) (g : CopyReg) (s : State) :=
  complete (takeRegistration owner r g.copyId g.withdraw) s

/-- The answer to a registration reaches the copy's owner (R100 steps 2 to 4). -/
def registered (id : Nat) (st : Status) (s : State) : State :=
  if st ≠ .ok then refuseCopy id st s
  else if 4096 < copiesQueued s then
    match s.home.copies.find? (·.id == id) with
    | some c => dropRegistration c (refuseCopy id .queueFull s)
    | none => s
  else acceptCopy id s

/-- The answer of a line access of a copy (R101). -/
def copyAnswered (id line : Nat) (side : CopySide) (st : Status) (hint : BitVec 10) (data : List Byte) (s : State) : State :=
  match s.home.copies.find? (·.id == id) with
  | none => s
  | some c =>
    match c.active.find? (fun l => l.line == line && l.side == side) with
    | none => s
    | some l =>
      let s := s.modHome fun h => { h with
        tracker := h.tracker.filter fun t => t.origin != .copyLine id line side }
      let setL (f : CopyLine → CopyLine) (s : State) : State :=
        modCopy id (fun c => { c with active := c.active.map fun x => if x.line = line then f x else x }) s
      match st with
      | .ny =>
        if l.first + 100000000 ≤ now s then feedCopies (endCopy id .abandoned s)
        else setL (fun x => { x with retryAt := now s + 250 * hint.toNat }) s
      | .ok =>
        (match side with
         | .src =>
           let l' : CopyLine := { l with side := .dst, first := now s, data := data }
           let (bad, t) := sendCopyLine c l' (setL (fun _ => l') s)
           (match bad with
            | some st => feedCopies (endCopy id st t)
            | none => t)
         | .dst =>
           let t := modCopy id (fun c => { c with done := c.done + cpUnit c.req, active := [] }) s
           feedCopies (if cpLines c.req ≤ c.done + cpUnit c.req then endCopy id .ok t else t))
      | st => feedCopies (endCopy id st s)

/-- COPY_LINE_ANSWER (R101). -/
def execCopyLineAnswer (copyId line : Nat) (side : CopySide) (st : Status) (hint : BitVec 10) (data : List Byte) (s : State) :=
  complete (copyAnswered copyId line side st hint data) s

/-- A line still answered NY 100 ms after its first attempt ends the copy (R101). -/
def copyBound (id line : Nat) (side : CopySide) (s : State) : State :=
  match s.home.copies.find? (·.id == id) with
  | none => s
  | some c =>
    match c.active.find? (fun l => l.line == line && l.side == side) with
    | none => s
    | some l => feedCopies (endCopy id .abandoned (reach (l.first + 100000000) s))

/-- COPY_NY_BOUND (R101). -/
def execCopyNyBound (copyId line : Nat) (side : CopySide) (s : State) := complete (copyBound copyId line side) s

/-- A copy's line access is issued again after its hint (R101). -/
def copyRetry (id line : Nat) (side : CopySide) (s : State) : State :=
  match s.home.copies.find? (·.id == id) with
  | none => s
  | some c =>
    match c.active.find? (fun l => l.line == line && l.side == side) with
    | none => s
    | some l =>
      let (bad, t) := sendCopyLine c l (reach l.retryAt s)
      match bad with
      | some st => feedCopies (endCopy id st t)
      | none => t

/-! ### Durable barriers (R88, R89, R104) -/

/-- Region bases of a BARRIER's payload. -/
def barBases (r : Req) : List Word := (List.range (r.arg.toNat % 2048)).map fun i => wordAtByte r.payload (8 + 8 * i)
def barCounter (r : Req) : Word := wordAtByte r.payload 0

/-- R91, R104: length, bases and counter. -/
def barMalformed (r : Req) : Bool :=
  let n := r.arg.toNat % 2048
  decide (n = 0 ∨ 1024 < n ∨ r.plen.toNat ≠ 8 + 8 * n ∨ (barCounter r).toNat % 8 ≠ 0) ||
    decide ((barBases r).head? ≠ some r.gsa) ||
    (barBases r).any (fun g => decide (fdnOf g ≠ fdnOf r.gsa) || decide (g.toNat % 2 ^ 21 ≠ 0)) ||
    decide (r.aop ≠ 0 ∨ r.width ≠ 0 ∨ r.post)

/-- D lines of the CACHED extents among the named regions, as they stand at the markers (R88 step 3). -/
def barLines (s : State) (bases : List Word) : List (Nat × Line × Bool) :=
  let keys := bases.map fun g => headOf s (granKey (addr s g))
  s.tier.tags.flatMap fun e =>
    if e.2.dirty = 0 ∨ !(keys.contains (headOf s (e.1 / 128))) ∨ (extDesc s (extOfFrame e.1)).durability ≠ .cached then []
    else ((List.range 128).filter e.2.dirty.getLsbD).map fun i =>
      let l := 128 * e.1 + i
      (l, lineData s l, linePoison s l)

/-- The first named region that the requester may not read, with its status (R27, R88, Table 02-7). -/
def barRefuses (s : State) (r : Req) : Option Status :=
  (barBases r).findSome? fun g =>
    match servesAt s g with
    | .here =>
      let a := addr s g
      admits s .barrier a r.iid (if extOf a = extOf (addr s r.gsa) then r.inc else (extDesc s (extOf a)).inc)
        (findMulti s r.src r.multi (extOf a))
    | .lost => some .deviceLost
    | .notYet => some .ny
    | _ => some .noExtent

/-- A barrier is accepted and its markers placed (R88 steps 1 and 2). -/
def acceptBarrier (p : PReq) (s : State) : State :=
  let b : Barrier := {
    id := s.jrn.nextBarrier, iid := p.r.iid, src := p.r.src, bases := barBases p.r, counter := barCounter p.r
    todo := barLines s (barBases p.r) }
  finish p .ok 0 [] (s.modJrn fun j => { j with barriers := j.barriers ++ [b], nextBarrier := j.nextBarrier + 1 })

/-- Admission of a barrier (R88 step 1, R104): the regions, then the counter; a counter of another device is asked for at its home. -/
def admitBarrier (p : PReq) (s : State) : State :=
  match barRefuses s p.r with
  | some st => finish p st 0x3FF [] s
  | none =>
    let g := barCounter p.r
    if g = 0 then acceptBarrier p s
    else if fdnOf g = servedFdn s then
      let d := rightsOf (extDesc s (extOf (addr s g))) p.r.iid
      if d.atom && d.rd then acceptBarrier p s else finish p .denied 0 [] s
    else
      match routeFor s (fdnOf g) with
      | .inl st => finish p st 0 [] s
      | .inr f => emit (.register f p.n g p.r.iid) (track (.barrier p.n) p.r.iid (fdnOf g) g (setWhy p.n .counterHome s)).2

/-- The home of a barrier's counter has answered (R104). -/
def barrierAsked (n : Nat) (st : Status) (s : State) : State :=
  match findReq s n with
  | none => s
  | some p =>
    if st ≠ .ok then finish p st 0x3FF [] s
    else match barRefuses s p.r with
    | some st => finish p st 0x3FF [] s
    | none => acceptBarrier p s

/-- A BARRIER at its home device (R88 steps 1 and 2, R104, R116). -/
def takeBarrier (r : Req) (s : State) : State :=
  if !admitting s then answer r (closedStatus s) 0x3FF [] s
  else if barMalformed r then answer r .malformed 0 [] s
  else
    let p : PReq := {
      n := s.home.nextReq, a := addr s r.gsa, kind := .barrier, r := r, arrived := now s, deadline := now s + deadlineNs s }
    charge p (admitBarrier p) (s.modHome fun h => { h with waiting := h.waiting ++ [p], nextReq := h.nextReq + 1 })

/-- A held request's payment time comes: it proceeds to admission, in the bucket's arrival order (R116). -/
def payBucket (b : Nat) (s : State) : State :=
  let due := s.home.waiting.filter fun p => match p.why with | .bucket c _ => c == b | _ => false
  match due with
  | [] => s
  | p :: _ =>
    match p.why with
    | .bucket _ t => if p.kind = .barrier then admitBarrier p (reach t s) else pump (enterSlice p (reach t s))
    | _ => s

/-- BUCKET_PAY (R116). -/
def execBucketPay (b : Fin 256) (s : State) := complete (payBucket b) s

/-- BARRIER (R88). -/
def execBarrier (r : Req) (s : State) := complete (takeBarrier r) s

/-- Journal the lines still to do while the ring has slots for them (R88 step 3, R89). -/
def barJournal (id : Nat) (iid : BitVec 16) : List (Nat × Line × Bool) → State → State
  | [], s => s.modJrn fun j => { j with barriers := j.barriers.map fun b => if b.id = id then { b with todo := [] } else b }
  | x :: xs, s =>
    if slotOk s .write && !ringAbove s (if x.2.2 then 1 else 5) 85 then
      let inc := (extDesc s (extOfLine x.1)).inc
      barJournal id iid xs (journal { sectors := if x.2.2 then 0 else 15, poison := x.2.2, gsa := gsaOfLine s x.1, iid := iid, inc := inc, body := .data x.2.1 } s)
    else s.modJrn fun j => { j with barriers := j.barriers.map fun b => if b.id = id then { b with todo := x :: xs } else b }

/-- A barrier ends: its counter is advanced, with err if a revocation ended it (R88 step 4, R104). -/
def endBarrier (b : Barrier) (s : State) : State :=
  advance b.iid (some b.src) b.counter 1 b.err (s.modJrn fun j => { j with barriers := j.barriers.filter (·.id != b.id) })

/-- The lines are journalled and the BARRIER record enters its slot; while hold-up is distrusted the counter waits for the
group program (R81, R88). DESIGN CHOICE: the spec does not give the algorithm of the record's region-list digest, which is a free
value (log 30). -/
def barrierStep (id : Nat) (s : State) : State :=
  match s.jrn.barriers.find? (·.id == id) with
  | none => s
  | some b =>
    if b.jsn.isSome then s
    else
      let s := barJournal id b.iid b.todo s
      if s.jrn.barriers.any (fun x => x.id == id && !x.todo.isEmpty) then s
      else
        let n := s.jrn.nextJsn
        let rc : JRec := { iid := b.iid, body := .barrier id ((Config.freeWord s.free).setWidth 32) }
        let s := journal rc s.draw
        if s.jrn.distrusted then
          s.modJrn fun j => { j with barriers := j.barriers.map fun x => if x.id = id then { x with jsn := some n } else x }
        else endBarrier b s

/-- BARRIER_COMPLETE (R88). -/
def execBarrierComplete (id : Nat) (s : State) := complete (barrierStep id) s

end Sys2Proof.Machine
end

