-- ==== Sys2Proof/Machine/NmcOps.lean ====
section
/-! DEFINITION. Operations on the jobs of the near-memory cores: their accesses to the store (R182, R224, R228), the ends and
restarts of jobs (R176, R182, R192), the context that owns a core's stations (R177), the replies of port requests (R169), and the
device's own accesses to host queues (R173, R176). -/

namespace Sys2Proof.Machine

open Sys2Proof

/-! ### Jobs by context -/

def jobKey (core : Fin 16) (ctx : Fin 8) : Nat := core.val * 8 + ctx.val

def jobAt (s : State) (k : Nat) : Option Job := (s.nmc.jobs.find? (·.1 == k)).map (·.2)

def modJob (k : Nat) (f : Job → Job) (s : State) : State :=
  s.modNmc fun n => { n with jobs := n.jobs.map fun e => if e.1 = k then (e.1, f e.2) else e }

def modBody (k : Nat) (f : Body → Body) (s : State) : State := modJob k (fun j => { j with b := f j.b }) s

/-- A job makes progress (R182 cause 0x08). -/
def progress (k : Nat) (s : State) : State := modJob k (fun j => { j with progressAt := now s }) s

def descWord (j : Job) (i : Nat) : Word := wordAt j.desc i
def prioOf (j : Job) : Nat := fld (descWord j 0) 55 52

/-- Interrupt vector of a host queue: the window's MSI-X vector is signalled (R338). -/
def signal (win : Fin 64) (vec : BitVec 8) (s : State) : State :=
  emit (.msix win vec) (s.modHp fun h => { h with
    msix := if h.msix.contains (win.val * 256 + vec.toNat) then h.msix else h.msix ++ [win.val * 256 + vec.toNat] })

/-! ### Accesses (R228) -/

/-- The kind that a request's op names (Table 05-2). -/
def kindOfOp (op : BitVec 6) : ReqKind :=
  if op = 0x02 then .store else if op = 0x03 then .storePart else if op = 0x04 then .codedWrite else if op = 0x08 then .atomic else .load

/-- Does a request for an FDN end at this device's own slices? -/
def isHere (s : State) (f : BitVec 16) : Bool := f == servedFdn s || f == ownFdn s

/-- Send an access of a context's engine: to this device's slice, or to the home; a status of step 2 answers it at once. The job's
accesses are one request of many lines (R29). DESIGN CHOICE, unsafe (log 6): the frame list and the leaf entries hold no incarnation,
and the manual does not say which one a job's access carries; here it is the extent's present one, so step 4 of admission never fails
for a job at its own device. -/
def sendAccess (core : Fin 16) (ctx : Fin 8) (a : Access) (s : State) : State :=
  let r := { a.req with
    ing := .nmc core ctx, tag := BitVec.ofNat 16 a.id, src := ownFdn s
    multi := (jobAt s (jobKey core ctx)).map fun j => 2 * j.no + 1 }
  match routeFor s (fdnOf r.gsa) with
  | .inl st => jobAnswered core ctx a.id st 0 [] s
  | .inr f =>
    if isHere s f then arrive (kindOfOp r.op) { r with inc := (extDesc s (extOf (addr s r.gsa))).inc } s
    else (sendReq (.station core ctx a.id) r s).2

/-- The answer an observer already has, if any. -/
def rxOf (j : Job) (who : Nat) (key : RxKey) : Option Rx := j.rx.find? fun x => x.who == who && decide (x.key = key)

/-- Ask for something: the answer if it is there; otherwise the access is issued unless it is outstanding (R228). -/
def ask (core : Fin 16) (ctx : Fin 8) (who : Nat) (g : Word) (r : Req) (va : Word) (s : State) : Option Rx × State :=
  let k := jobKey core ctx
  match jobAt s k with
  | none => (none, s)
  | some j =>
    match rxOf j who (.gsa g) with
    | some x => (some x, s)
    | none =>
      if j.reads.any (fun a => a.who == who && decide (a.key = .gsa g)) then (none, s)
      else
        let id := s.nmc.nextRead
        let a : Access := { id := id, who := who, key := .gsa g, req := { r with gsa := g }, va := va }
        let s := modJob k (fun j => { j with reads := j.reads ++ [a] }) (s.modNmc fun n => { n with nextRead := (id + 1) % 65536 })
        let s := sendAccess core ctx a s
        ((jobAt s k).bind fun j => rxOf j who (.gsa g), s)

/-- An observer has used its answers. -/
def doneWith (k who : Nat) (s : State) : State := modJob k (fun j => { j with rx := j.rx.filter (·.who != who) }) s

/-- Retry the accesses to an address whose hint has passed (R182, R318). -/
def retryAccess (core : Fin 16) (ctx : Fin 8) (g : Word) (s : State) : State :=
  let k := jobKey core ctx
  match jobAt s k with
  | none => s
  | some j =>
    (j.reads.filter fun a => decide (a.key = .gsa g) && a.retryAt.isSome).foldl (fun s a =>
      let s := reach (a.retryAt.getD 0) s
      sendAccess core ctx a (modJob k (fun j => { j with
        reads := j.reads.map fun x => if x.id = a.id then { x with retryAt := none } else x }) s)) s


/-! ### The device's own accesses to host queues (R173, R176, R325, R386) -/

/-- The answer to the own access with this tag; it is sent if it is not under way. -/
def ownAsk (tag : Nat) (k : ReqKind) (r : Req) (s : State) : Option (Status × List Byte) × State :=
  let t := BitVec.ofNat 16 tag
  let pick (s : State) : Option (Status × List Byte) × State :=
    match s.home.ownAns.find? (·.1 == t) with
    | some a => (some a.2, s.modHome fun h => { h with ownAns := h.ownAns.filter (·.1 != t) })
    | none => (none, s)
  let (a, s) := pick s
  match a with
  | some x => (some x, s)
  | none =>
    if s.home.waiting.any (fun p => decide (p.r.ing = .record) && p.r.tag == t) then (none, s)
    else pick (arrive k { r with ing := .record, tag := t, src := ownFdn s, inc := (extDesc s (extOf (addr s r.gsa))).inc } s)

/-- A write of words at a store offset on this device, under an IID. -/
def wordsWrite (s : State) (iid : BitVec 16) (off : Nat) (ws : List Word) : Req :=
  let o := off % 128
  let bs := bytesOfWords ws
  { op := 0x03, iid := iid, gsa := mkGsa (servedFdn s) (off - o), plen := 144
    payload := bytesOfNat 16 ((2 ^ bs.length - 1) * 2 ^ o) ++ List.replicate o 0 ++ bs ++ List.replicate (128 - o - bs.length) 0 }

def lineRead (s : State) (iid : BitVec 16) (off : Nat) : Req := { op := 0x01, iid := iid, gsa := mkGsa (servedFdn s) off }

/-- Fields of a queue base register (Table 22-6). -/
def qValid (w : Word) : Bool := bitOf w 63
def qWin (w : Word) : Fin 64 := Fin.ofNat 64 (fld w 61 56)
def qVec (w : Word) : BitVec 8 := BitVec.ofNat 8 (fld w 55 48)
def qOff (w : Word) : Nat := fld w 47 12 * 4096

/-- Full when the tail is one entry behind the head (R480). -/
def ringFull (size head tail : Nat) : Bool := decide ((tail + 1) % Nat.max 1 size = head)

/-! ### Port requests (R169) -/

/-- A slot takes a tile of a stream: stream and seq go into its header (R165, R166). -/
def Body.place (b : Body) (k slot : Nat) (t : Tile) : Body :=
  let st := Tab.get {} b.streams k
  { b with
    streams := Tab.put {} k { st with free := st.free.filter (· != slot), written := st.written ++ [slot], seq := st.seq + 1 } b.streams
    tiles := Tab.put {} slot { t with h := { t.h with stream := k, seq := st.seq } } b.tiles }

/-- A sequence number past 2^26 tiles ends the job (R166). -/
def Body.seqOver (b : Body) : Bool := b.streams.any fun e => decide (2 ^ 26 < e.2.seq)

/-- Put a tile into its stream when a slot is free (R168). -/
def Body.putTile (b : Body) (k : Nat) (t : Tile) : Option Body :=
  match (Tab.get {} b.streams k).free with
  | [] => none
  | slot :: _ => some (b.place k slot t)

/-- Replies enter their streams, for each stream in request order, while slots are free (R169): one tile of each stream. -/
def drainPass (b : Body) : Body :=
  let (_, ps, b) := b.ports.foldl (fun (x : List Nat × List PortReq × Body) p =>
    let (blocked, ps, b) := x
    if blocked.contains p.reply then (blocked, ps ++ [p], b)
    else
      match p.tiles with
      | none => (p.reply :: blocked, ps ++ [p], b)
      | some [] => (blocked, ps, b)
      | some (t :: ts) =>
        match b.putTile p.reply t with
        | none => (p.reply :: blocked, ps ++ [p], b)
        | some b => (p.reply :: blocked, ps ++ [{ p with tiles := some ts }], b)) ([], [], b)
  { b with ports := ps }

def drainPort : Nat → Body → Body
  | 0, b => b
  | n + 1, b => (let b' := drainPass b; if b' = b then b else drainPort n b')

/-- Port requests of a context that its units have not yet answered are answered to no one. -/
def killRequests (core : Fin 16) (ctx : Fin 8) (s : State) : State :=
  let mine := s.emb.queues.filter fun q => decide (q.2.core = core ∧ q.2.ctx = ctx)
  let s := (mine.flatMap fun q => regionsOf s (q.2.writes.map (·.line))).foldl (fun s a => landed a s) s
  let s := s.modEmb fun e => { e with
    chunks := e.chunks.filter fun c => !(c.core == core.val && c.ctx == ctx.val)
    queues := e.queues.map fun q =>
      if q.2.core = core ∧ q.2.ctx = ctx then (q.1, { q.2 with dead := true, writes := [] }) else q }
  s.modPrn fun p => { p with queue := p.queue.filter fun q => !(q.core == core && q.ctx == ctx) }

/-- The physical core of a logical one; 31 OFFLINE (R192). -/
def physOf (s : State) (core : Nat) : Nat := s.nmc.lmap.getD core 31

/-! ### Ownership of the stations (R177) -/

def ownerCtx (s : State) (core : Nat) : Option Nat := (s.nmc.owner.find? (·.1 == core)).map (·.2)

def setOwnerCtx (core : Nat) (c : Option Nat) (s : State) : State :=
  s.modNmc fun n => { n with owner := (n.owner.filter (·.1 != core)) ++ (match c with | some x => [(core, x)] | none => []) }

def faulted (s : State) (k : Nat) : Bool := s.xlt.faults.any fun f => decide (f.core.val * 8 + f.ctx.val = k)

/-- A context waits: on a port reply, or out a hint above 2 us (R177). It becomes ready when what it waits for is there. -/
def parked (s : State) (k : Nat) : Bool :=
  match jobAt s k with
  | some j => (j.b.ports.any (·.tiles.isNone)) || j.reads.any fun a => match a.retryAt with | some t => decide (now s + 2000 < t) | none => false
  | none => false

/-- May a context be given the stations? -/
def runnable (s : State) (k : Nat) : Bool :=
  match jobAt s k with
  | some j => decide (j.phase = .ready) && !faulted s k && !parked s k
  | none => false

/-- Free stations go to the ready context of highest prio, the lowest context first. -/
def giveStations (core : Nat) (s : State) : State :=
  match ownerCtx s core with
  | some _ => s
  | none =>
    let cs := (List.range 8).filter fun c => runnable s (core * 8 + c)
    let pr (c : Nat) : Nat := ((jobAt s (core * 8 + c)).map prioOf).getD 0
    match cs.foldl (fun (o : Option Nat) c => match o with | none => some c | some b => if pr b < pr c then some c else some b) none with
    | some c => progress (core * 8 + c) (setOwnerCtx core (some c) s)
    | none => s

/-! ### Ends of jobs (R176, R182) -/

/-- Page faults of a context stop being live (R326). -/
def dropFaults (k : Nat) (s : State) : State :=
  s.modXlt fun x => { x with
    faults := x.faults.filter fun f => decide (f.core.val * 8 + f.ctx.val ≠ k)
    fqWait := x.fqWait.filter fun q => match q.fault with
      | some id => x.faults.all fun f => f.id != id || decide (f.core.val * 8 + f.ctx.val ≠ k)
      | none => true }

/-- A completion record (Table 08-9). -/
def completion (st : Status) (restarts : Nat) (suspended forwarded : Bool) (cause tag : Nat) (fdn : BitVec 16) (time : Nat)
    (whereAt result : Word) : List Word :=
  [put 59 (stCode st) ||| put 56 (restarts % 8) ||| put 55 (bit01 suspended) ||| put 54 (bit01 forwarded) ||| put 48 cause |||
     put 32 tag ||| fdn.setWidth 64, BitVec.ofNat 64 time, whereAt, result]

/-- Wall time that a job has used. -/
def timeUsed (s : State) (j : Job) : Nat := j.usedBefore + (now s - j.started)

/-- The commit of a job is no longer in flight in the regions it writes (R158). -/
def leaveRegions (k : Nat) (s : State) : State :=
  match jobAt s k with
  | none => s
  | some j => j.regions.foldl (fun s a => landed a s) (modJob k (fun j => { j with regions := [] }) s)

def dTag (d : List Word) : BitVec 16 := BitVec.ofNat 16 (fld (wordAt d 0) 47 32)

/-- A request of a queue completes without a context: its record waits for its CQ (R176). -/
def completeReq (q : FwdJob) (cause : Nat) (st : Status) (s : State) : State :=
  let ws := completion st q.restarts (decide (cause = 0x0D)) q.origin.isSome cause (dTag q.desc).toNat (ownFdn s) 0 0 0
  s.modNmc fun n => { n with cq := n.cq ++ [{
    pair := q.pair, words := ws, counter := wordAt q.desc 4, err := decide (st ≠ .ok ∧ st ≠ .fewer), iid := q.iid, dest := q.origin }] }

/-- The SUSPEND that a job's end leaves without a target (R185): BUSY where the job passed its commit point. DESIGN CHOICE, safe (log 42):
NO_EXTENT where it ended in another way, for then no such job runs; the spec gives that case no status. -/
def endSuspend (j : Job) (cause : Nat) (st : Status) (s : State) : State :=
  match j.suspendReq with
  | some q => if cause = 0x0D then s else completeReq q 0 (if cause = 0 ∧ (st = .ok ∨ st = .fewer) then .busy else .noExtent) s
  | none => s

/-- A job ends (R176, R182): its completion record waits for its CQ, and its context waits for the record. -/
def endJob (core : Fin 16) (ctx : Fin 8) (cause : Nat) (st : Status) (whereAt : Word) (s : State) : State :=
  let k := jobKey core ctx
  match jobAt s k with
  | none => s
  | some j =>
    if j.phase = .ended then s
    else
      let st' : Status := if st = .ok ∧ cause = 0 ∧ j.b.fewer then .fewer else st
      let ws := completion st' j.restarts (decide (cause = 0x0D)) j.origin.isSome cause j.tag.toNat (ownFdn s) (timeUsed s j) whereAt
        (j.b.dib.x.getD 10 0)
      let s := if cause = 1 then raise { cls := 0x0A, sev := 1, code := 1, block := 0x20
                                         inst := BitVec.ofNat 8 (physOf s core.val), iid := j.iid } s else s
      let s := endSuspend j cause st' (endMulti (2 * j.no + 1) (leaveRegions k (dropFaults k (killRequests core ctx s))))
      let s := modJob k (fun j => { j with
        writes := [], group := [], suspendReq := none
        phase := .ended, status := st', cause := cause, whereAt := whereAt, reads := [], rx := []
        b := { j.b with staging := [], coded := [], sow := [], prn := [], tables := [], ports := [] } }) s
      let s := s.modNmc fun n => { n with cq := n.cq ++ [{
        pair := j.pair, words := ws, counter := descWord j 4, err := decide (st' ≠ .ok ∧ st' ≠ .fewer), iid := j.iid
        at_ := some (core, ctx), dest := j.origin }] }
      giveStations core.val (if ownerCtx s core.val = some ctx.val then setOwnerCtx core.val none s else s)

/-- A body goes on, unless a stream of it has had more tiles than its sequence numbers count (R166). -/
def keepBody (k : Nat) (b : Body) (s : State) : State :=
  if b.seqOver then endJob (Fin.ofNat 16 (k / 8)) (Fin.ofNat 8 k) 7 .malformed 0 s else progress k (modBody k (fun _ => b) s)

/-- A unit's reply to a port request (R169, R238): the request is known by its unit kind and sequence number. A context that waited for
it may own the stations again (R177). -/
def portReply (k unit seq : Nat) (ts : List Tile) (s : State) : State :=
  match jobAt s k with
  | none => s
  | some j => giveStations (k / 8) (keepBody k (drainPort 4096 { j.b with
      ports := j.b.ports.map fun p => if p.unit = unit ∧ p.seq = seq then { p with tiles := some ts } else p }) s)

/-- A job is a new request of many lines from its dispatch and from each restart on (R29). -/
def numberJob (k : Nat) (s : State) : State :=
  let s := match jobAt s k with | some j => endMulti (2 * j.no + 1) s | none => s
  modJob k (fun j => { j with no := s.nmc.nextJob }) (s.modNmc fun n => { n with nextJob := n.nextJob + 1 })

/-- A job goes back to its state at dispatch or resume (R182). -/
def rerun (core : Fin 16) (ctx : Fin 8) (counted : Bool) (s : State) : State :=
  let k := jobKey core ctx
  let s := leaveRegions k (dropFaults k (killRequests core ctx s))
  numberJob k <| modJob k (fun j => { j with
    b := j.snap, reads := [], rx := [], restarts := Nat.min 7 (j.restarts + 1), counted := if counted then j.counted + 1 else j.counted
    progressAt := now s, group := [], writes := [], regions := []
    phase := if j.phase = .loading then .loading else if j.suspendReq.isSome then .suspending else .ready }) s

/-- Restart limit of a job: its descriptor's, capped by the image's (R174, R184). -/
def restartLimit (s : State) (j : Job) : Nat := Nat.min (fld (descWord j 0) 51 48) (regGet s (Off.nmc + 0x10020)).toNat

/-! ### Grafts (R192, R193) -/

/-- Spare physical core for a graft. -/
def spareCore (s : State) : Option Nat := (List.range 18).find? fun p => s.nmc.phys.getD p .failed == .spare

/-- Does a core_mask allow a core that is not OFFLINE (R193)? A mask of 0 allows any. -/
def coreAllowed (s : State) (mask : Nat) : Bool :=
  (List.range 16).any fun c => (mask == 0 || mask.testBit c) && decide (physOf s c ≠ 31)

/-- Replace the physical core of a logical core: its jobs run again from the start on the spare under cause 0x03; with no spare the
core is OFFLINE, and its jobs wait for dispatch on another core that they allow, or complete with BUSY (R192, R193). -/
def graftCore (core : Fin 16) (s : State) : State :=
  let old := physOf s core.val
  match spareCore s with
  | some p =>
    let s := s.modNmc fun n => { n with
      lmap := n.lmap.set core.val p
      phys := (n.phys.set p .inUse).set old .failed }
    (List.finRange 8).foldl (fun (s : State) (c : Fin 8) =>
      match jobAt s (jobKey core c) with
      | some j => if j.phase = .ended ∨ j.phase = .committed then s else rerun core c false s
      | none => s) s
  | none =>
    let s := s.modNmc fun n => { n with lmap := n.lmap.set core.val 31, phys := n.phys.set old .failed }
    (List.finRange 8).foldl (fun (s : State) (c : Fin 8) =>
      let k := jobKey core c
      match jobAt s k with
      | none => s
      | some j =>
        if j.phase = .ended ∨ j.phase = .committed then s
        else if j.kind = 1 ∧ coreAllowed s (fld (descWord j 0) 15 0) then
          let s := dropFaults k (killRequests core c s)
          setOwnerCtx core.val none (s.modNmc fun n => { n with
            jobs := n.jobs.filter (·.1 != k)
            fwdIn := n.fwdIn ++ [{ origin := j.origin, restarts := Nat.min 7 (j.restarts + 1), pair := j.pair, iid := j.iid, desc := j.desc }] })
        else endJob core c 0x03 .busy 0 s) s

/-- A restart of cause 0x01 is counted; the second within 1 s on one physical core grafts it where the image lets it (R184). -/
def note01 (core : Fin 16) (s : State) : State :=
  let p := physOf s core.val
  let again := s.nmc.faults01.any fun f => f.1 == p && decide (now s < f.2 + 1000000000)
  let s := countRC (Off.core p + 0x10) 1 (s.modNmc fun n => { n with faults01 := (n.faults01.filter (·.1 != p)) ++ [(p, now s)] })
  if again && bitOf (regGet s (Off.nmc + 0x10038)) 0 then graftCore core s else s

/-- Restart a job for a cause of Table 08-11, or end it at its limit (R182, R184). A restart of cause 0x01 writes an NMC record
(Table 17-8). -/
def restartJob (core : Fin 16) (ctx : Fin 8) (cause : Nat) (st : Status) (whereAt : Word) (s : State) : State :=
  let k := jobKey core ctx
  match jobAt s k with
  | none => s
  | some j =>
    if j.phase = .ended ∨ j.phase = .committed then s
    else if cause = 3 then rerun core ctx false s
    else if restartLimit s j ≤ j.counted then endJob core ctx cause st whereAt s
    else
      let p := BitVec.ofNat 8 (physOf s core.val)
      let s := rerun core ctx true s
      if cause = 1 then note01 core (raise { cls := 0x0A, sev := 1, code := 1, block := 0x20, inst := p, iid := j.iid } s) else s

/-- What a status does to the job whose access it answers (Table 08-11). A status that no row names ends the job under cause 0x06 as
the others do (log 10). -/
def failJob (core : Fin 16) (ctx : Fin 8) (st : Status) (whereAt : Word) (s : State) : State :=
  match st with
  | .abandoned | .deviceLost => restartJob core ctx 2 st whereAt s
  | .poison => endJob core ctx 4 st whereAt s
  | .checkFail => endJob core ctx 5 st whereAt s
  | .malformed => endJob core ctx 7 st whereAt s
  | _ => endJob core ctx 6 st whereAt s

/-! ### The staging view (R179, R224) -/

/-- The line-aligned GSA. -/
def lineGsa (g : Word) : Word := g &&& ~~~(127 : Word)

def stagedAt (b : Body) (g : Word) : Option StageLine := b.staging.find? fun x => x.gsa == lineGsa g

/-- The coded block staged over a view address. -/
def stagedBlock (b : Body) (g : Word) : Option (List Byte) :=
  (b.coded.find? fun x => decide (x.1 = g &&& ~~~(4095 : Word))).map (·.2)

/-- Staging quota in bytes: NMC_STAGE_MAX, at most 16 % of the usable ring (R180). -/
def stageQuota (s : State) : Nat := Nat.min (1024 * (regGet s (Off.nmc + 0x10030)).toNat) (16 * s.jrn.ringSize / 100)

/-- Bytes of staging in use: lines, coded blocks, chunks of scatter-adds and PRUNE operations, each in whole lines (R180). -/
def stageUsed (b : Body) : Nat :=
  128 * b.staging.length + (b.coded.map fun x => 128 * ceilDiv x.2.length 128).sum +
    (b.sow.map fun c => if c.wins.isEmpty then 128 else 512).sum +
    (b.prn.map fun o => match o with
      | .insert _ _ code fwd rev => 128 * (1 + ceilDiv (code.length + 4 * fwd.length + 8 * rev.length) 128)
      | .delete _ ids => 128 * (1 + ceilDiv (4 * ids.length) 128)
      | .entry _ ids => 128 * (1 + ceilDiv (4 * ids.length) 128)).sum

/-! ### The resident set (R190) -/

def rsFind (s : State) (v : BitVec 32) : Option RsVer := s.nmc.rs.find? fun r => decide (r.version = v) && !r.installing

/-- Resident-set version that a job is bound to. -/
def rsVersion (j : Job) : BitVec 32 := (descWord j 3).extractLsb' 32 32

def rsBytes (s : State) (v : BitVec 32) (off n : Nat) : List Byte := readBytes s.nmc.rsMem (v.toNat * 2 ^ 40 + off) n

end Sys2Proof.Machine
end

