-- ==== Sys2Proof/Machine/Xlate.lean ====
section
/-! DEFINITION. Address translation for near-memory jobs: the table walk, the frame list and translation cache, page faults and
their queues, reads of HOST pages, and the bytes a job's engine reads (R254, R313-R327, R331, R345). The meanings of the
translation commands stand in Machine/XlateCmds.lean. -/

namespace Sys2Proof.Machine

open Sys2Proof

/-! ### Fault queues (R325) -/

def fqBase (s : State) (q : Nat) : Word := regGet s (Off.fq q)
def fqSize (s : State) (q : Nat) : Nat := (regGet s (Off.fq q + 8)).toNat
def fqHead (s : State) (q : Nat) : Nat := (regGet s (Off.fq q + 0x10)).toNat
def fqTail (s : State) (q : Nat) : Nat := Tab.get 0 s.xlt.fqTail q
def fqFull (s : State) (q : Nat) : Bool := ringFull (fqSize s q) (fqHead s q) (fqTail s q)

/-- A fault is posted now, at a place of its queue. -/
def notePosted (id : Option (BitVec 32)) (at_ : Fin 16 × Nat) (s : State) : State :=
  match id with
  | none => s
  | some i => s.modXlt fun x => { x with
      faults := x.faults.map fun f => if f.id = i then { f with posted := some (now s), slot := some at_ } else f }

/-- The IID that claimed a fault queue (R498). -/
def fqIid (s : State) (q : Nat) : BitVec 16 := Tab.get 0 s.xlt.fqIid q

/-- The access kinds of a live fault, as its record's field (Table 14-6). -/
def LiveFault.kinds (f : LiveFault) : Word := put 53 (4 * bit01 f.r + 2 * bit01 f.w + bit01 f.x)

/-- A waiting record as it is written: a fault's with the access kinds waiting now, and the time of its posting. -/
def fqWords (s : State) (r : FqRec) : List Word :=
  let w0 := match s.xlt.faults.find? (fun f => some f.id == r.fault) with
    | some f => r.words.getD 0 0 ||| f.kinds
    | none => r.words.getD 0 0
  w0 :: (r.words.drop 1).take 2 ++ [BitVec.ofNat 64 (now s)]

/-- Write the first waiting record of a queue whose ring has space, under the IID that claimed the queue; then signal its vector. -/
def writeFq (q : Fin 16) (s : State) : State :=
  match s.xlt.fqWait.find? (·.q == q) with
  | none => s
  | some r =>
    let b := fqBase s q
    if !qValid b || fqFull s q then s
    else
      let t := fqTail s q
      let (a, s) := ownAsk (0x3000 + q.val) .storePart (wordsWrite s (fqIid s q.val) (qOff b + 32 * t) (fqWords s r)) s
      match a with
      | some (.ok, _) =>
        let s := s.modXlt fun x => { x with
          fqWait := x.fqWait.erase r, fqTail := Tab.put 0 q.val ((t + 1) % Nat.max 1 (fqSize s q)) x.fqTail }
        notePosted r.fault (q, t) (signal (qWin b) (qVec b) s)
      | _ => s

/-- Write what waits for the fault queues. -/
def pumpFq (s : State) : State :=
  (s.xlt.fqWait.map (·.q)).foldl (fun s q => writeFq q s) s

/-- A later observer's access kind joins a record that stands in its ring and that the driver has not yet passed (R324; DESIGN CHOICE, log
53: the record's first word is written again). -/
def rewriteFq (f : LiveFault) (asid : BitVec 16) (s : State) : State :=
  match f.slot with
  | none => s
  | some (q, t) =>
    let b := fqBase s q
    let size := Nat.max 1 (fqSize s q)
    if !qValid b || decide (ringDist size (fqHead s q) (fqTail s q) ≤ ringDist size (fqHead s q) t) then s
    else
      (ownAsk (0x3100 + q.val) .storePart (wordsWrite s (fqIid s q.val) (qOff b + 32 * t)
        [put 56 1 ||| f.kinds ||| put 32 asid.toNat ||| f.id.setWidth 64]) s).2

/-- Queue a fault record (Table 14-6). -/
def postFq (r : FqRec) (s : State) : State := pumpFq (s.modXlt fun x => { x with fqWait := x.fqWait ++ [r] })

/-! ### Host-page counters (R331) -/

/-- A line of a HOST page has been read: its counter, and a HOT_PAGE record at the threshold, once per page and decay interval; a
full ring drops the record and counts it (R325). DESIGN CHOICE (log 54): of 65,536 counters the one longest unread is evicted. -/
def countHost (asid : BitVec 16) (va : Word) (s : State) : State :=
  let key := asid.toNat * 2 ^ 32 + va.toNat / 65536
  let n := match s.xlt.hot.find? (·.1 == key) with | some e => Nat.min 65535 (e.2 + 1) | none => 1
  let rest := s.xlt.hot.filter (·.1 != key)
  let s := s.modXlt fun x => { x with hot := (rest ++ [(key, n)]).drop (rest.length + 1 - 65536) }
  let th := (regGet s (Off.xlt + 0x328)).toNat
  if n < th ∨ s.xlt.hotPosted.contains key then s
  else
    let s := s.modXlt fun x => { x with hotPosted := key :: x.hotPosted }
    match s.xlt.asids.find? (·.1 == asid.toNat) with
    | none => s
    | some (_, rec) =>
      if fqFull s rec.fq.val ∨ !qValid (fqBase s rec.fq.val) then countRC (Off.xlt + 0x310) 1 s
      else postFq { q := rec.fq, words := [put 56 2 ||| put 32 asid.toNat, put 16 (va.toNat / 65536 % 2 ^ 32), BitVec.ofNat 64 n, BitVec.ofNat 64 (now s)] } s

/-! ### HOST reads (R323, R345) -/

def portUp (s : State) (p : Fin 4) : Bool := s.hp.links.any fun l => l.1 / 4 == p.val && l.2.up

/-- Places of a port go to its waiting reads in order, up to 64; each line is two RdCurr of 64 bytes (R323, R345). -/
def issueHost (p : Fin 4) (s : State) : State :=
  let n := (s.xlt.reads.filter fun r => r.port == p && r.issued).length
  let go := (s.xlt.reads.filter fun r => r.port == p && !r.issued).take (64 - n)
  let due := now s + 1000 * (regGet s (Off.xlt + 0x318)).toNat
  emitAll (go.flatMap fun r => [.rdCurr p r.addr, .rdCurr p (r.addr + 64)]) (s.modXlt fun x => { x with
    reads := x.reads.map fun r => if go.contains r then { r with issued := true, due := due } else r })

/-- Ask for a line of a HOST page (R323): ABANDONED where the port's link is down. -/
def askHost (core : Fin 16) (ctx : Fin 8) (who : Nat) (p : Fin 4) (addr : BitVec 52) (va : Word) (s : State) : Option Rx × State :=
  let k := jobKey core ctx
  match jobAt s k with
  | none => (none, s)
  | some j =>
    match rxOf j who (.host p addr) with
    | some x => (some x, s)
    | none =>
      if j.reads.any (fun a => a.who == who && decide (a.key = .host p addr)) then (none, s)
      else if !portUp s p then (some { who := who, key := .host p addr, st := .abandoned }, s)
      else
        let id := s.nmc.nextRead
        let a : Access := { id := id, who := who, key := .host p addr, va := va }
        let s := modJob k (fun j => { j with reads := j.reads ++ [a] }) (s.modNmc fun n => { n with nextRead := (id + 1) % 65536 })
        (none, issueHost p (s.modXlt fun x => { x with
          reads := x.reads ++ [{ port := p, addr := addr, core := core, ctx := ctx, va := va, id := id }] }))

/-! ### Walks (R315-R318) -/

/-- The kinds of access of R319. -/
inductive Acc where
  | r | w | x
  deriving DecidableEq, Repr

/-- What a virtual address stands for. -/
inductive Xl where
  | store (g : Word)
  | host (port : Fin 4) (a : BitVec 52)
  | rs (off : Nat)
  | wait
  | denied
  | bad (cause : Nat) (st : Status)
  deriving DecidableEq, Repr

/-- A valid entry of level `l` breaks R317; `shift` is the lowest virtual address bit of the level. The r, w and x of a pointer are not
marked zero in Table 14-4, and rights are checked against the leaf alone (R319). -/
def entReserved (l shift : Nat) (e : Word) : Bool :=
  let leaf := bitOf e 14
  let kind := fld e 10 9
  let next := if l = 2 then 256 else 4096
  if leaf then
    decide (l = 0 ∨ 1 < kind ∨ fld e 6 0 ≠ 0) ||
      (if kind = 0 then decide (fld e 8 7 ≠ 0) || decide (fld e 63 16 * 65536 % 2 ^ shift ≠ 0)
       else bitOf e 12 || bitOf e 11 || decide (fld e 63 52 ≠ 0) || decide (fld e 51 16 * 65536 % 2 ^ shift ≠ 0))
  else
    decide (l = 3 ∨ kind ≠ 0 ∨ fld e 8 7 ≠ 0 ∨ fld e 6 0 ≠ 0 ∨ fld e 63 56 ≠ 0) || decide (fld e 55 16 * 256 % next ≠ 0)

/-- A leaf as a cache entry (Table 14-5). -/
def xentOf (asid : BitVec 16) (va : Word) (shift : Nat) (e : Word) : Xent :=
  { asid := asid, va := va.toNat / 2 ^ shift * 2 ^ shift, size := if shift = 16 then 0 else if shift = 21 then 1 else 2
    r := bitOf e 13, w := bitOf e 12, x := bitOf e 11, host := decide (fld e 10 9 = 1), port := Fin.ofNat 4 (fld e 8 7)
    target := if fld e 10 9 = 1 then put 16 (fld e 51 16) else put 16 (fld e 63 16) }

/-- What a walk found. -/
inductive Walk where
  | leaf (x : Xent)
  | fault
  | wait
  | bad (cause : Nat) (st : Status)
  deriving DecidableEq, Repr

/-- Walk from a table at a store offset, level by level; each line is a LOAD under the ASID record's IID (R318). -/
def walkFrom (core : Fin 16) (ctx : Fin 8) (who : Nat) (rec : AsidRec) (asid : BitVec 16) (va : Word) :
    List (Nat × Nat × Nat) → Nat → State → Walk × State
  | [], _, s => (.bad 6 .malformed, s)
  | (l, shift, n) :: ls, table, s =>
    let a := table + 8 * (va.toNat / 2 ^ shift % n)
    let g := mkGsa (servedFdn s) (a / 128 * 128)
    let (x, s) := ask core ctx (16 + who) g { op := 0x01, iid := rec.iid } va s
    match x with
    | none => (.wait, s)
    | some x =>
      if x.st = .poison then (.bad 4 .poison, s)
      else if x.st ≠ .ok then (.bad 6 x.st, s)
      else
        let e := wordOfBytes ((x.data.drop (a % 128)).take 8)
        if !bitOf e 15 then (.fault, s)
        else if entReserved l shift e then (.bad 6 .malformed, s)
        else if bitOf e 14 then (.leaf (xentOf asid va shift e), s)
        else walkFrom core ctx who rec asid va ls (fld e 55 16 * 256) s

def walkLevels : List (Nat × Nat × Nat) := [(0, 39, 512), (1, 30, 512), (2, 21, 512), (3, 16, 32)]

def Xent.pageSize (x : Xent) : Nat := if x.size = 0 then 65536 else if x.size = 1 then 2 ^ 21 else 2 ^ 30

def Xent.covers (x : Xent) (asid : BitVec 16) (va : Word) : Bool :=
  x.asid == asid && decide (x.va ≤ va.toNat) && decide (va.toNat < x.va + x.pageSize)

/-- The target of an address under a translation, when its right is there (R319). -/
def Xent.reach (x : Xent) (k : Acc) (va : Word) : Xl :=
  if (match k with | .r => x.r | .w => x.w | .x => x.x) then
    let t := x.target + BitVec.ofNat 64 (va.toNat - x.va)
    if x.host then .host x.port (t.setWidth 52) else .store t
  else .denied

/-- A walk met an invalid entry: a fault record, or one more access kind on the live record of the 64 KiB page (R324, R326). -/
def pageFault (core : Fin 16) (ctx : Fin 8) (rec : AsidRec) (asid : BitVec 16) (va : Word) (k : Acc) (s : State) : State :=
  let same (f : LiveFault) : Bool := f.core == core && f.ctx == ctx && decide (f.va.toNat / 65536 = va.toNat / 65536)
  let add (f : LiveFault) : LiveFault :=
    { f with r := f.r || decide (k = .r), w := f.w || decide (k = .w), x := f.x || decide (k = .x) }
  match s.xlt.faults.find? same with
  | some f =>
    let s := s.modXlt fun x => { x with faults := x.faults.map fun f => if same f then add f else f }
    if add f = f then s else rewriteFq (add f) asid s
  | none =>
    let id := s.xlt.nextFault
    let j := (jobAt s (jobKey core ctx)).getD {}
    let f := add { id := id, core := core, ctx := ctx, asid := asid, va := va }
    let s := s.modXlt fun x => { x with nextFault := id + 1, faults := x.faults ++ [f] }
    postFq { q := rec.fq, fault := some id, words := [
      put 56 1 ||| put 32 asid.toNat ||| id.setWidth 64,
      put 0 (va.toNat % 2 ^ 48), put 48 j.tag.toNat ||| put 40 j.pair ||| put 36 core.val ||| put 33 ctx.val,
      BitVec.ofNat 64 (now s)] } s

/-- The resident window (Table 14-1). -/
def rsWindow : Nat := 0xFF0000000000

/-- Translate an address of a job for one of its observers (R313, R319, R321). Frame-list and cache hits take no step; a walk that
succeeds enters the core's cache of 2,048 entries, from which the oldest entry of the core leaves (DESIGN CHOICE, log 54). -/
def xlate (core : Fin 16) (ctx : Fin 8) (who : Nat) (va : Word) (k : Acc) (s : State) : Xl × State :=
  let key := jobKey core ctx
  match jobAt s key with
  | none => (.denied, s)
  | some j =>
    if 2 ^ 48 ≤ va.toNat then (.denied, s)
    else if rsWindow ≤ va.toNat then
      let len := ((rsFind s (rsVersion j)).map (·.length)).getD 0
      if va.toNat - rsWindow < len ∧ k ≠ .w then (.rs (va.toNat - rsWindow), s) else (.denied, s)
    else
      match j.frames.find? (·.covers j.asid va), (s.xlt.tlb.find? fun t => t.1 == core.val && t.2.covers j.asid va) with
      | some x, _ => (x.reach k va, s)
      | none, some t => (t.2.reach k va, s)
      | none, none =>
        if s.xlt.faults.any (fun f => f.core == core && f.ctx == ctx && decide (f.va.toNat / 65536 = va.toNat / 65536)) then
          (.wait, pageFault core ctx {} j.asid va k (pumpFq s))
        else
          match s.xlt.asids.find? (fun a => a.1 == j.asid.toNat && a.2.valid) with
          | none => (.bad 6 .denied, s)
          | some (_, rec) =>
            let (w, s) := walkFrom core ctx who rec j.asid va walkLevels rec.root s
            match w with
            | .wait => (.wait, s)
            | .bad c st => (.bad c st, doneWith key (16 + who) s)
            | .fault => (.wait, pageFault core ctx rec j.asid va k (doneWith key (16 + who) s))
            | .leaf x =>
              let s := doneWith key (16 + who) s
              let n := (s.xlt.tlb.filter fun t => t.1 == core.val).length
              let drop (l : List (Nat × Xent)) : List (Nat × Xent) :=
                if n < 2048 then l else (match l.find? (fun t => t.1 == core.val) with | some t => l.erase t | none => l)
              (x.reach k va, s.modXlt fun t => { t with tlb := drop t.tlb ++ [(core.val, x)] })

/-! ### Reads by a job's engines -/

/-- What a read found: bytes and whether a line of them was poisoned; something to wait for; or the end of the job. -/
inductive Got2 where
  | bytes (bs : List Byte) (poison : Bool)
  | wait
  | bad (cause : Nat) (st : Status) (whereAt : Word)
  deriving DecidableEq, Repr

/-- The cause under which a status of a read ends or restarts its job (Table 08-11, log 10). -/
def causeOf (st : Status) : Nat :=
  match st with
  | .abandoned | .deviceLost => 2 | .poison => 4 | .checkFail => 5 | .malformed => 7 | _ => 6

/-- One line of the job's view at a virtual address that is line-aligned (R224): resident set, staging, store or HOST page. -/
def viewLine (core : Fin 16) (ctx : Fin 8) (who : Nat) (va : Word) (k : Acc) (s : State) : Got2 × State :=
  let key := jobKey core ctx
  let (x, s) := xlate core ctx who va k s
  let j := (jobAt s key).getD {}
  match x with
  | .wait => (.wait, s)
  | .denied => (.bad 6 .denied va, s)
  | .bad c st => (.bad c st va, s)
  | .rs off => (.bytes (rsBytes s (rsVersion j) off 128) false, s)
  | .host p a =>
    let (r, s) := askHost core ctx who p a va s
    match r with
    | none => (.wait, s)
    | some r =>
      if r.st = .ok then (.bytes r.data false, s)
      else if r.st = .poison then (.bytes (bytesOfLine (Config.freeLine s.free)) true, s.draw)
      else (.bad (causeOf r.st) r.st va, s)
  | .store g =>
    match stagedAt j.b g with
    | some l => (.bytes (bytesOfLine l.data) false, s)
    | none =>
      match stagedBlock j.b g with
      | some bs =>
        let e := extOf (addr s g)
        let p := formP s e
        (.bytes (blkView p (codebookOf s e p) bs (g.toNat / 128 % 32 * (128 / p.e)) (128 / p.e)) false, s)
      | none =>
        let (r, s) := ask core ctx who g { op := 0x01, iid := j.iid } va s
        match r with
        | none => (.wait, s)
        | some r =>
          if r.st = .ok then (.bytes r.data false, s)
          else if r.st = .poison then (.bytes (bytesOfLine (Config.freeLine s.free)) true, s.draw)
          else (.bad (causeOf r.st) r.st g, s)

/-- The context has a live fault on the page of an address (R324). -/
def faultedOn (s : State) (core : Fin 16) (ctx : Fin 8) (va : Word) : Bool :=
  s.xlt.faults.any fun f => f.core == core && f.ctx == ctx && decide (f.va.toNat / 65536 = va.toNat / 65536)

/-- The lines of a range, every one of them asked for (R226): what the first unfinished one waits for. After a page fault the observer
issues nothing further (R324). -/
def viewLines2 (core : Fin 16) (ctx : Fin 8) (who : Nat) : List Word → State → Got2 × State
  | [], s => (.bytes [] false, s)
  | va :: vs, s =>
    let (g, s) := viewLine core ctx who va .r s
    if g = .wait ∧ faultedOn s core ctx va then (.wait, s)
    else
    let (h, s) := viewLines2 core ctx who vs s
    match g, h with
    | .bad c st w, _ => (.bad c st w, s)
    | _, .bad c st w => (.bad c st w, s)
    | .wait, _ | _, .wait => (.wait, s)
    | .bytes a p, .bytes b q => (.bytes (a ++ b) (p || q), s)

/-- Bytes `[va, va + n)` of the job's view. -/
def viewBytes (core : Fin 16) (ctx : Fin 8) (who : Nat) (va : Word) (n : Nat) (s : State) : Got2 × State :=
  let o := va.toNat % 128
  let first := va - BitVec.ofNat 64 o
  let (g, s) := viewLines2 core ctx who ((List.range (ceilDiv (o + n) 128)).map fun i => first + BitVec.ofNat 64 (128 * i)) s
  match g with
  | .bytes bs p => (.bytes ((bs.drop o).take n) p, s)
  | g => (g, s)

/-- A whole coded block at a view address of the job (R254): its bytes, none of them for a ZERO block. Nothing is known of the
bytes of a poisoned one. -/
def viewBlock (core : Fin 16) (ctx : Fin 8) (who : Nat) (va : Word) (s : State) : Got2 × State :=
  let key := jobKey core ctx
  let (x, s) := xlate core ctx who va .r s
  let j := (jobAt s key).getD {}
  match x with
  | .wait => (.wait, s)
  | .denied => (.bad 6 .denied va, s)
  | .bad c st => (.bad c st va, s)
  | .rs _ | .host _ _ => (.bad 6 .wrongForm va, s)
  | .store g =>
    match stagedBlock j.b g with
    | some bs => (.bytes bs false, s)
    | none =>
      let (r, s) := ask core ctx who g { op := 0x01, iid := j.iid, arg := 1 } va s
      match r with
      | none => (.wait, s)
      | some r =>
        if r.st = .ok then (.bytes r.data false, s)
        else if r.st = .poison then (.bytes [] true, s)
        else (.bad (causeOf r.st) r.st g, s)

end Sys2Proof.Machine
end

