-- ==== Sys2Proof/Machine/Streams.lean ====
section
/-! DEFINITION. Tiles and streams within a context: headers and elements (R165, R194-R198), taking and emitting tiles (R168,
R171, R226, R230), the graph and its checks (R167, R170, R171), and the step of a station by one tile. -/

namespace Sys2Proof.Machine

open Sys2Proof

/-! ### Elements of a tile -/

/-- Bits `[at, at + n)` of a payload. -/
def payBits (p : Payload) (at_ n : Nat) : Nat := (p >>> at_).toNat % 2 ^ n

/-- Pattern of element (r, c). -/
def Tile.elem (t : Tile) (bits r c : Nat) : Nat := payBits t.pay (8 * r * t.h.stride + c * bits) bits

/-- Scale byte of the block of element (r, c) of an MX tile (R198). -/
def Tile.scale (t : Tile) (r c : Nat) : Nat := payBits t.pay (8 * (t.h.rows * t.h.stride + r * (t.h.cols / 32) + c / 32)) 8

def Tile.bits (t : Tile) : Nat := (fmtBits t.h.fmt.toNat).getD 8

/-- Value of an element of a float-class tile. -/
def Tile.num (t : Tile) (r c : Nat) : Num :=
  let f := t.h.fmt.toNat
  if fmtIsMx f then mxElem f (t.elem t.bits r c) (t.scale r c) else floatElem f (t.elem t.bits r c)

/-- Value of an element of an integer-class tile. -/
def Tile.int (t : Tile) (r c : Nat) : Int := intElem t.h.fmt.toNat (t.elem t.bits r c)

def Tile.isFloat (t : Tile) : Bool := fmtIsFloat t.h.fmt.toNat
def Tile.isInt (t : Tile) : Bool := fmtIsInt t.h.fmt.toNat

/-- Bytes of a tile. -/
def Tile.data (t : Tile) : List Byte := bytesOfNat t.h.bytes t.pay.toNat

/-- The checks of R165, R194 and R198 on a header. -/
def TileHdr.ok (h : TileHdr) : Bool :=
  if h.empty then decide (h.bytes = 0) && (fmtBits h.fmt.toNat).isSome
  else
    match fmtBits h.fmt.toNat with
    | none => false
    | some b =>
      let mx := fmtIsMx h.fmt.toNat
      let sc := if mx then ceilDiv (h.rows * h.cols) 32 else 0
      decide (h.bytes ≤ 4096 ∧ 1 ≤ h.rows ∧ h.rows ≤ 4096 ∧ 1 ≤ h.cols ∧ h.cols ≤ 8192) &&
        decide (h.rows * h.cols * b + 8 * sc ≤ 8 * h.bytes) &&
        (!mx || (decide (h.cols % 32 = 0) && decide (h.rows * h.stride + sc ≤ h.bytes)))

/-- The 32 bytes of a header (Table 08-2). -/
def TileHdr.words (h : TileHdr) : List Word :=
  [put 58 h.stream ||| put 32 h.seq ||| put 24 h.fmt.toNat ||| put 16 (bit01 h.last) ||| put 17 (bit01 h.poison) |||
     put 18 (bit01 h.short) ||| put 19 (bit01 h.empty) ||| put 0 h.bytes,
   put 48 h.rows ||| put 32 h.cols ||| put 16 h.stride, h.origin, h.user.setWidth 64]

/-- A header from its words; reserved bits are ignored (R6, R165). -/
def hdrOfWords (ws : List Word) : TileHdr :=
  let a := wordAt ws 0
  let b := wordAt ws 1
  { stream := fld a 63 58, seq := fld a 57 32, fmt := BitVec.ofNat 8 (fld a 31 24), last := bitOf a 16, poison := bitOf a 17
    short := bitOf a 18, empty := bitOf a 19, bytes := fld a 12 0, rows := fld b 63 48, cols := fld b 47 32, stride := fld b 31 16
    origin := wordAt ws 2, user := (wordAt ws 3).setWidth 32 }

/-- A tile of whole bytes. -/
def mkTile (fmt rows cols stride : Nat) (bs : List Byte) (origin : Word) (user : BitVec 32) : Tile :=
  { h := { fmt := BitVec.ofNat 8 fmt, rows := rows, cols := cols, stride := stride, bytes := bs.length, short := decide (bs.length < 4096)
           origin := origin, user := user }
    pay := BitVec.ofNat 32768 (natOfBytes bs) }

/-- A tile of bytes as SPADE, SIEVE and the units emit them: untyped, one row (log 11). -/
def byteTile (bs : List Byte) (origin : Word) (user : BitVec 32) : Tile := mkTile 0 1 bs.length bs.length bs origin user

/-- An EMPTY tile (Table 08-3). -/
def emptyTile (last : Bool) (origin : Word) (user : BitVec 32) : Tile :=
  { h := { empty := true, last := last, short := true, origin := origin, user := user } }

/-- Bytes of a row of `n` elements of `b` bits. -/
def rowBytes (b n : Nat) : Nat := ceilDiv (b * n) 8

/-- A tile of element patterns in row order, each row from a byte boundary (R197); none where it passes 4,096 bytes. -/
def tileOfElems (fmt rows cols : Nat) (el : List Nat) (scales : List Nat) (origin : Word) (user : BitVec 32) : Option Tile :=
  let b := (fmtBits fmt).getD 8
  let w := rowBytes b cols
  let bs := ((List.range rows).flatMap fun r => bytesOfNat w (packBits b ((el.drop (r * cols)).take cols))) ++
    scales.map (BitVec.ofNat 8 ·)
  if 4096 < bs.length ∨ rows = 0 ∨ 4096 < rows ∨ cols = 0 ∨ 8192 < cols then none else some (mkTile fmt rows cols w bs origin user)

/-- A tile of 32-bit patterns in the shape of another. -/
def likeTile (t : Tile) (fmt : Nat) (el : List (BitVec 32)) : Option Tile :=
  tileOfElems fmt t.h.rows t.h.cols (el.map (·.toNat)) [] t.h.origin t.h.user

/-- All (row, column) pairs of a tile, in row order. -/
def Tile.cells (t : Tile) : List (Nat × Nat) :=
  (List.range t.h.rows).flatMap fun r => (List.range t.h.cols).map fun c => (r, c)

/-- A PAIR element (R197): score and item ID. -/
def pairOf (x : Nat) : BitVec 32 × BitVec 32 := (BitVec.ofNat 32 x, BitVec.ofNat 32 (x / 2 ^ 32))
def pairBits (p : BitVec 32 × BitVec 32) : Nat := p.1.toNat + 2 ^ 32 * p.2.toNat
def Tile.pairs (t : Tile) : List (BitVec 32 × BitVec 32) := t.cells.map fun (r, c) => pairOf (t.elem 64 r c)

/-- PAIR tiles of up to 512 pairs each, one row a tile. -/
def pairTiles (user : BitVec 32) : Nat → List (BitVec 32 × BitVec 32) → List Tile
  | 0, _ => []
  | n + 1, l =>
    if l.isEmpty then []
    else mkTile 0x1C 1 (l.take 512).length (8 * (l.take 512).length) ((l.take 512).flatMap fun p => bytesOfNat 8 (pairBits p)) 0 user ::
      pairTiles user n (l.drop 512)

/-! ### Streams within a body -/

def Body.stream (b : Body) (k : Nat) : Stream := Tab.get {} b.streams k
def Body.tile (b : Body) (slot : Nat) : Tile := Tab.get {} b.tiles slot
def Body.station (b : Body) (st : Nat) : Station := Tab.get {} b.stations st
def Body.setStation (b : Body) (st : Nat) (f : Station → Station) : Body := { b with stations := Tab.upd {} st f b.stations }

/-- The next visible tile of a stream. -/
def Body.next (b : Body) (k : Nat) : Option Tile := ((b.stream k).ready.head?).map b.tile

/-- A consumer takes the next tile of a stream; the slot stays its own until it has consumed the tile (R230). -/
def Body.take (b : Body) (k : Nat) : Body :=
  { b with streams := Tab.upd {} k (fun s => match s.ready with
      | [] => s
      | x :: xs => { s with ready := xs, taken := s.taken ++ [x] }) b.streams }

/-- The first taken tile of a stream is consumed and its slot returns to the producer (R168, R230). -/
def Body.consume (b : Body) (k : Nat) : Body :=
  match (b.stream k).taken with
  | [] => b
  | x :: xs =>
    let last := (b.tile x).h.last
    { b with
      streams := Tab.upd {} k (fun s => { s with taken := xs, free := s.free ++ [x], consumed := s.consumed + 1, ended := s.ended || last }) b.streams
      tiles := Tab.put {} x {} b.tiles }

/-- Tiles that a station has computed enter their streams in order while slots are free; true when none is left. -/
def flushOut (st : Nat) : Nat → Body → Bool × Body
  | 0, b => (false, b)
  | n + 1, b =>
    match (b.station st).outq with
    | [] => (true, b)
    | (k, t) :: l =>
      match b.putTile k t with
      | none => (false, b)
      | some b => flushOut st n (b.setStation st fun s => { s with outq := l, emitted := s.emitted + 1 })

def noneStream : Nat := 63

/-- Must a command have an output stream? -/
def cmdNeedsOut (st cmd : Nat) : Bool :=
  (st == 1) || (st == 3 && (cmd == 3 || cmd == 5 || cmd == 6)) || (st == 4) || (st == 5 && cmd != 1) || (st == 6)

/-- Does a command produce into its `out` stream? Table 08-6 lets in_b and out_b alone name no stream by 63; a command that has no output
takes 63 there as none too, any other names stream 63. -/
def Cmd.hasOut (c : Cmd) : Bool := c.out != noneStream || cmdNeedsOut c.station c.cmd

/-- Streams a command produces into (Table 08-6). -/
def Cmd.outputs (c : Cmd) : List Nat := (if c.hasOut then [c.out] else []) ++ [c.outB].filter (· != noneStream)

/-- The command is over once its tiles have gone (R171). -/
def Body.nextCmd (b : Body) (st : Nat) : Body :=
  b.setStation st fun s => { s with idx := s.idx + 1, consumed := 0, emitted := 0, carry := {}, closing := false }

/-- Emit what is computed; a closing command with nothing left is over. -/
def Body.settle (b : Body) (st : Nat) : Body :=
  let (done, b) := flushOut st 8192 b
  if done && (b.station st).closing then b.nextCmd st else b

/-- Current command of a station. -/
def Station.cur (s : Station) : Option Cmd := s.cmds[s.idx]?

/-- Queue tiles on the command's output; at its end, LAST on every output it owns. -/
def Body.emitTiles (b : Body) (st : Nat) (c : Cmd) (ts : List Tile) (done : Bool) : Body :=
  (b.setStation st fun s => { s with
    outq := s.outq ++ (if c.hasOut then ts.map fun t => (c.out, t) else []) ++
      (if done then c.outputs.map fun k => (k, emptyTile true 0 0) else [])
    closing := done }).settle st

/-- What a command does with one input tile: nothing yet (a resource is missing), the job's end, or a new carry, tiles for its
output, flags, and a change of the context. -/
inductive TileRes where
  | wait
  | bad (cause : Nat) (st : Status)
  | out (carry : Carry) (ts : List Tile) (fl : BitVec 5) (b : Body)

/-- Result of a station's step. -/
inductive StepRes where
  | same
  | bad (cause : Nat) (st : Status)
  | go (b : Body)

def badTile : TileRes := .bad 7 .malformed

/-- One tile of the current command of a station (R168, R171, R226): `f` computes it, `fin` gives the tiles that the command emits
at its end. An EMPTY tile that carries LAST alone computes nothing. -/
def tileStep (st code : Nat) (f : Cmd → Station → Tile → Option Tile → Body → TileRes) (fin : Cmd → Carry → List Tile) (b : Body) :
    StepRes :=
  match (b.station st).cur with
  | none => .same
  | some c =>
    if c.cmd ≠ code then .same
    else
      let b := b.settle st
      let s := b.station st
      if !s.outq.isEmpty || s.cur != some c then .go b
      else
        match b.next c.inA, (if c.inB = noneStream then some none else (b.next c.inB).map some) with
        | some a, some ob =>
          if a.h.poison || (ob.map (·.h.poison)).getD false then .bad 4 .poison
          else
            let done := if c.count = 0 then a.h.last else decide (c.count ≤ s.consumed + 1)
            let r := if a.h.empty && a.h.last then .out s.carry [] 0 b else f c s a ob b
            match r with
            | .wait => .go b
            | .bad k e => .bad k e
            | .out carry ts fl b =>
              let b := b.take c.inA
              let b := if c.inB = noneStream ∨ c.inB = c.inA then b else b.take c.inB
              let b := { b with arith := b.arith ||| fl }
              let b := b.setStation st fun s => { s with consumed := s.consumed + 1, carry := carry }
              let b := b.emitTiles st c (ts ++ (if done then fin c carry else [])) done
              if b.seqOver then .bad 7 .malformed else .go b
        | _, _ => .go b

/-- A command with no input: it emits its tiles and ends. -/
def emitStep (st code : Nat) (f : Cmd → Body → Option (List Tile × BitVec 5 × Body)) (b : Body) : StepRes :=
  match (b.station st).cur with
  | none => .same
  | some c =>
    if c.cmd ≠ code then .same
    else
      let b := b.settle st
      let s := b.station st
      if !s.outq.isEmpty || s.cur != some c then .go b
      else
        match f c b with
        | none => .bad 7 .malformed
        | some (ts, fl, b) =>
          let b := ({ b with arith := b.arith ||| fl }).emitTiles st c ts true
          if b.seqOver then .bad 7 .malformed else .go b

/-- Run a step of a station of a context: its context owns the stations and is not being suspended (R177, R185). -/
def runStep (core : Fin 16) (ctx : Fin 8) (f : Body → StepRes) (s : State) : State :=
  let k := jobKey core ctx
  match jobAt s k with
  | none => s
  | some j =>
    if j.phase ≠ .ready ∨ ownerCtx s core.val ≠ some ctx.val then s
    else
      match f j.b with
      | .same => s
      | .bad c st => if c = 2 then restartJob core ctx 2 st 0 s else endJob core ctx c st 0 s
      | .go b => if b = j.b then s else progress k (modBody k (fun _ => b) s)

/-! ### The graph (R167, R170, R171) -/

/-- A stream table entry (Table 08-4); none where it breaks R167. -/
def streamOf (w : Word) : Option Stream :=
  let p := fld w 62 60
  let c := fld w 59 57
  let u := fld w 56 55
  let d := fld w 54 44
  if p = 7 ∨ c = 7 ∨ (p = c ∧ p ≠ 0) ∨ ((p = 6 ∨ c = 6) ∧ u = 3) ∨ d = 0 ∨ 1024 < d then none
  else some { producer := p, consumer := c, unit := u, depth := d }

/-- Give each stream its slots, in stream order; none where the slots granted do not suffice. -/
def giveSlots : List (Nat × Stream) → List Nat → Option (List (Nat × Stream))
  | [], _ => some []
  | (k, s) :: l, slots =>
    if slots.length < s.depth then none
    else (giveSlots l (slots.drop s.depth)).map ((k, { s with free := slots.take s.depth }) :: ·)

/-- The stream table of a graph. -/
def streamTable (ws : List Word) (slots : List Nat) : Option (List (Nat × Stream)) :=
  let ks := (List.range 64).filter fun i => bitOf (wordAt ws i) 63
  if ks.any (fun i => (streamOf (wordAt ws i)).isNone) then none
  else giveSlots (ks.map fun i => (i, (streamOf (wordAt ws i)).getD {})) slots

/-- A station command from its words (Table 08-6). -/
def cmdOf (ws : List Word) : Cmd :=
  let w := wordAt ws 0
  { station := fld w 63 61, cmd := fld w 60 53, inA := fld w 51 46, inB := fld w 45 40, out := fld w 39 34, outB := fld w 33 28
    count := fld w 25 0, a := wordAt ws 1, b := wordAt ws 2, c := (wordAt ws 3).extractLsb' 32 32, mode := (wordAt ws 3).setWidth 32 }

/-- Commands of each station (Tables 08-7, 09-4, 09-6, 11-8). -/
def cmdKnown (st cmd : Nat) : Bool :=
  match st with
  | 1 => decide (cmd = 1 ∨ cmd = 2)
  | 2 => decide (cmd = 1)
  | 3 => decide (1 ≤ cmd ∧ cmd ≤ 6)
  | 4 => decide ((1 ≤ cmd ∧ cmd ≤ 0xA) ∨ (0x10 ≤ cmd ∧ cmd ≤ 0x18) ∨ (0x20 ≤ cmd ∧ cmd ≤ 0x22) ∨ cmd = 0x28 ∨ (0x30 ≤ cmd ∧ cmd ≤ 0x36))
  | 5 => decide (1 ≤ cmd ∧ cmd ≤ 7)
  | 6 => decide (1 ≤ cmd ∧ cmd ≤ 3)
  | _ => false

/-- Does a command read tiles from in_a? -/
def cmdReads (st cmd : Nat) : Bool := !((st == 1 && cmd == 1) || (st == 3 && (cmd == 1 || cmd == 3)))

/-- Does a command take a second input? MMA, DTAB and LUTMV always, the binary operations of RAKE where in_b is not 63. -/
def cmdNeedsB (st cmd : Nat) : Bool := (st == 3 && (cmd == 2 || cmd == 5 || cmd == 6)) || (st == 4 && cmd == 0x0A)

/-- May a fmt be the destination of EMIT or CVT? -/
def fmtDest (f : Nat) : Bool := fmtIsFloat f || fmtIsInt f

/-- The operands of a command that its check reads (R170, R205, R213, R258, R322). Mode bits that no table names are reserved and
ignored (R6). -/
def cmdArgs (c : Cmd) : Bool :=
  let m := c.mode.toNat
  match c.station, c.cmd with
  | 1, 1 => decide (1 ≤ c.b.toNat ∧ c.b.toNat ≤ 2 ^ 26 * 4096) && (m % 2 == 0 || decide (c.a.toNat % 4096 = 0 ∧ c.b.toNat % 4096 = 0))
  | 1, 2 => decide (c.c.toNat % 16 = 0 ∧ 16 ≤ c.c.toNat ∧ c.c.toNat ≤ 4096)
  | 3, 3 => fmtDest (m % 256)
  | 3, 5 => decide (m % 4 ≠ 3 ∧ m / 4 % 4 ≠ 3 ∧ m / 16 % 4 ≠ 3)
  | 3, 6 => decide (m / 4 % 4 ≠ 3 ∧ m / 16 % 4 ≠ 3)
  | 4, 0x09 => decide (m % 8 < 6)
  | 4, 0x28 => decide (1 ≤ c.c.toNat % 2048 ∧ c.c.toNat % 2048 ≤ 1024)
  | 4, 0x30 => fmtDest (m % 256)
  | 4, 0x35 => decide (m % 4 ≠ 3)
  | 5, 3 => decide (m % 512 ≤ 256)
  | _, _ => true

/-- The check of a command (R170, R171). -/
def cmdOk (streams : List (Nat × Stream)) (c : Cmd) : Bool :=
  let valid (k : Nat) : Bool := streams.any (·.1 == k)
  let get (k : Nat) : Stream := Tab.get {} streams k
  let isIn (k : Nat) : Bool := valid k && (get k).consumer == c.station
  let isOut (k : Nat) : Bool := valid k && (get k).producer == c.station
  let unitOk (k : Nat) : Bool := c.station != 6 || (get k).unit == c.cmd - 1
  cmdKnown c.station c.cmd && cmdArgs c &&
    (!cmdReads c.station c.cmd || (isIn c.inA && unitOk c.inA)) &&
    (if c.inB = noneStream then !cmdNeedsB c.station c.cmd else isIn c.inB) &&
    (!c.hasOut || (isOut c.out && unitOk c.out)) &&
    (c.outB == noneStream || isOut c.outB)

/-- Command counts of a graph header, SPADE to PORT (Table 08-5). -/
def graphCounts (ws : List Word) : List Nat :=
  let a := wordAt ws 1
  let b := wordAt ws 2
  [fld a 47 36, fld a 35 24, fld a 23 12, fld a 11 0, fld b 23 12, fld b 11 0]

def graphCmds (ws : List Word) : Nat := (graphCounts ws).sum

/-- The header of a graph is sound (Table 08-5). -/
def graphHdrOk (ws : List Word) : Bool :=
  decide (fld (wordAt ws 0) 63 48 = 1) && decide (graphCmds ws ≤ 4096)

/-- The command lists, station by station: raw word 0 and command. -/
def splitCmds : Nat → List Nat → List Word → List (Nat × List (Word × Cmd))
  | _, [], _ => []
  | st, n :: ns, ws =>
    (st, (List.range n).map fun i => (wordAt ws (4 * i), cmdOf ((ws.drop (4 * i)).take 4))) :: splitCmds (st + 1) ns (ws.drop (4 * n))

/-- The context that a graph describes; none where a check fails (R167, R170). -/
def graphBody (ws : List Word) (slots : List Nat) (args : List Word) : Option Body :=
  if !graphHdrOk ws then none
  else
    match streamTable ((ws.drop 8).take 64) slots with
    | none => none
    | some ss =>
      let lists := splitCmds 1 (graphCounts ws) (ws.drop 72)
      if lists.all fun l => l.2.all fun c => c.2.station == l.1 && cmdOk ss c.2 then
        some {
          streams := ss
          stations := (lists.filter fun l => !l.2.isEmpty).map fun l => (l.1, { cmds := l.2.map (·.2), graphLen := l.2.length })
          dib := { x := List.replicate 10 0 ++ args ++ List.replicate 14 0, pc := BitVec.ofNat 64 (fld (wordAt ws 0) 47 0) } }
      else none

end Sys2Proof.Machine
end

