-- ==== Sys2Proof/Machine/Arith.lean ====
section
/-! DEFINITION. TILLER and RAKE: matrix operations on accumulator sets (R201-R206, R261) and vector operations on tiles
(R208-R213), one tile, or one pair of tiles, at a time. -/

namespace Sys2Proof.Machine

open Sys2Proof

/-! ### Accumulator sets (R201) -/

def Body.accSet (b : Body) (n : Nat) : AccSet := Tab.get {} b.acc n
def AccSet.at_ (a : AccSet) (i : Nat) : BitVec 32 := a.v.getD i 0
def Body.setAcc (b : Body) (n : Nat) (a : AccSet) : Body := { b with acc := Tab.put {} n a b.acc }

/-- Every accumulator +0 or 0. -/
def zeroSet (isInt : Bool) : AccSet := { isInt := isInt, v := List.replicate 1024 0 }

def Cmd.set_ (c : Cmd) : Nat := c.c.toNat % 8

/-- ZERO (Table 09-4). -/
def execZero (core : Fin 16) (ctx : Fin 8) (s : State) :=
  complete (runStep core ctx (emitStep 3 1 fun c b => some ([], 0, b.setAcc c.set_ (zeroSet (c.mode.getLsbD 0))))) s

/-- An untyped tile read as a matrix of a format (log 11); a typed tile must carry it. -/
def Tile.asFmt (t : Tile) (fmt : Nat) : Option Tile :=
  let t' : Tile :=
    if t.h.fmt = 0 then { t with h := { t.h with fmt := BitVec.ofNat 8 fmt, cols := t.h.cols * 8 / (fmtBits fmt).getD 8 } } else t
  if t'.h.fmt.toNat = fmt ∧ t'.h.ok then some t' else none

/-- The chunk steps of one accumulator over the columns of a pair of tiles, in ascending j (R202-R204). -/
def accSteps (isInt : Bool) (a b : Tile) (m n : Nat) (acc : BitVec 32) : BitVec 32 × BitVec 5 :=
  (List.range (ceilDiv a.h.cols 32)).foldl (fun (x : BitVec 32 × BitVec 5) j =>
    let ks := (List.range 32).filter fun k => decide (32 * j + k < a.h.cols)
    let pad := 32 - ks.length
    let (v, f) :=
      if isInt then chunkI x.1 (ks.map fun k => a.int m (32 * j + k)) (ks.map fun k => b.int n (32 * j + k))
      else chunkF x.1 ((ks.map fun k => a.num m (32 * j + k)) ++ List.replicate pad (.fin false 0 0))
        ((ks.map fun k => b.num n (32 * j + k)) ++ List.replicate pad (.fin false 0 0))
    (v, x.2 ||| f)) (acc, 0)

/-- MMA of one pair of tiles (R202, R206). -/
def mmaTile (c : Cmd) (_ : Station) (a : Tile) (ob : Option Tile) (b : Body) : TileRes :=
  let fa := c.mode.toNat % 256
  let fb := c.mode.toNat / 256
  if a.h.empty then .out {} [] 0 b
  else
    match a.asFmt fa, ob.bind (·.asFmt fb) with
    | some x, some y =>
      let set_ := b.accSet c.set_
      let ints := fmtIsInt fa && fmtIsInt fb && decide (fa ≠ 0x08 ∧ fb ≠ 0x08)
      let floats := fmtIsFloat fa && fmtIsFloat fb
      if !(ints || floats) || ints != set_.isInt || decide (x.h.cols ≠ y.h.cols ∨ 32 < x.h.rows ∨ 32 < y.h.rows) then badTile
      else
        let cells := (List.range 32).flatMap fun m => (List.range 32).map fun n =>
          if m < x.h.rows ∧ n < y.h.rows then accSteps ints x y m n (set_.at_ (32 * m + n)) else (set_.at_ (32 * m + n), 0)
        .out {} [] (orFlags (cells.map (·.2))) (b.setAcc c.set_ { set_ with v := cells.map (·.1) })
    | _, _ => badTile

/-- MMA (R202-R204, R206). -/
def execMma (core : Fin 16) (ctx : Fin 8) (s : State) := complete (runStep core ctx (tileStep 3 2 mmaTile fun _ _ => [])) s

/-- The value of an accumulator at EMIT: an integer set is first shifted right, ties to even (Table 09-4). -/
def emitNum (c : Cmd) (isInt : Bool) (v : BitVec 32) : Num :=
  if isInt then
    let x := v.toInt
    let r := roundInt (decide (x < 0)) x.natAbs (-((c.mode.toNat / 2 ^ 10 % 32 : Nat) : Int))
    .fin (decide (r < 0)) r.natAbs 0
  else decF32 v

/-- Convert rows of values into a tile of a format (R199, R200). -/
def cvtTile (fmt : Nat) (sat : Bool) (rows cols : Nat) (l : List Num) (origin : Word) (user : BitVec 32) : Option (Tile × BitVec 5) :=
  if fmtIsMx fmt then
    if cols % 32 ≠ 0 then none
    else
      let blocks := (List.range (rows * cols / 32)).map fun i => cvtBlock fmt sat ((l.drop (32 * i)).take 32)
      (tileOfElems fmt rows cols (blocks.flatMap (·.2.1)) (blocks.map (·.1)) origin user).map fun t => (t, orFlags (blocks.map (·.2.2)))
  else
    let r := l.map (cvtElem fmt sat)
    (tileOfElems fmt rows cols (r.map (·.1)) [] origin user).map fun t => (t, orFlags (r.map (·.2)))

/-- EMIT (Table 09-4). -/
def execEmit (core : Fin 16) (ctx : Fin 8) (s : State) :=
  complete (runStep core ctx (emitStep 3 3 fun c b =>
    let a := b.accSet c.set_
    let l := (List.range 1024).map fun i => emitNum c a.isInt (a.at_ i)
    (cvtTile (c.mode.toNat % 256) (c.mode.getLsbD 8) 32 32 l 0 0).map fun (t, fl) =>
      ([t], fl, if c.mode.getLsbD 9 then b.setAcc c.set_ (zeroSet a.isInt) else b))) s

/-- LOAD of an accumulator set from one FP32 or INT32 tile; an accumulator for which the tile has no element becomes zero (log 11). -/
def loadTile (c : Cmd) (_ : Station) (t : Tile) (_ : Option Tile) (b : Body) : TileRes :=
  let isInt := c.mode.getLsbD 0
  if t.h.empty then .out {} [] 0 b
  else if t.h.fmt = 0 then
    .out {} [] 0 (b.setAcc c.set_ { isInt := isInt, v := (List.range 1024).map fun i =>
      if 4 * i + 4 ≤ t.h.bytes then BitVec.ofNat 32 (payBits t.pay (32 * i) 32) else 0 })
  else if t.h.fmt.toNat ≠ (if isInt then 0x08 else 0x01) ∨ 32 < t.h.rows ∨ 32 < t.h.cols then badTile
  else
    .out {} [] 0 (b.setAcc c.set_ { isInt := isInt, v := (List.range 1024).map fun i =>
      if i / 32 < t.h.rows ∧ i % 32 < t.h.cols then BitVec.ofNat 32 (t.elem 32 (i / 32) (i % 32)) else 0 })

/-- TILLER_LOAD (Table 09-4). -/
def execTillerLoad (core : Fin 16) (ctx : Fin 8) (s : State) := complete (runStep core ctx (tileStep 3 4 loadTile fun _ _ => [])) s

/-! ### DTAB and LUTMV (R261) -/

def dimD (m : Nat) : Nat := 4 * 2 ^ (m / 16 % 4)
def dimK (m : Nat) : Nat := 2 ^ (4 * (m / 4 % 4 + 1))

/-- Rows of float values of a list of tiles, row by row. -/
def tileRows (ts : List Tile) : List (List Num) :=
  ts.flatMap fun t => (List.range t.h.rows).map fun r => (List.range t.h.cols).map fun c => t.num r c

/-- One table entry: the exact sum over d terms, rounded once. -/
def tableEntry (kind : Nat) (f : FFmt) (sat : Bool) (q c : List Num) : Nat × BitVec 5 :=
  let terms := List.zipWith (fun x y =>
    match kind with
    | 0 => (let d := exactSum [x, y.negate]; d.mul d)
    | 1 => x.mul y
    | _ => (x.mul y).negate) q c
  cvtFloat f sat (exactSum terms)

/-- FP tables as tiles of 4,096 bytes with `cols` entries a row (Table 11-9). -/
def tableTiles (fmt e cols : Nat) (user : BitVec 32) : Nat → List Nat → List Tile
  | 0, _ => []
  | n + 1, l =>
    if l.isEmpty then []
    else
      let per := 4096 / e
      let part := l.take per
      let cs := Nat.min cols part.length
      mkTile fmt (Nat.max 1 (part.length / Nat.max 1 cs)) cs (cs * e) (part.flatMap fun x => bytesOfNat e x) 0 user ::
        tableTiles fmt e cols user n (l.drop per)

/-- Every visible tile of a stream is taken. -/
def Body.takeAll (b : Body) (k : Nat) : Body :=
  { b with streams := Tab.upd {} k (fun s => { s with ready := [], taken := s.taken ++ s.ready }) b.streams }

/-- A command on the whole of its inputs (R261): the tiles of in_a to count or LAST and those of in_b to LAST. When all are visible,
`f` turns the rows of in_a and of in_b into table tiles, or ends the job with MALFORMED; every input tile is consumed. -/
def wholeStep (code : Nat) (f : Cmd → List Tile → List (List Num) → Option (List Tile × BitVec 5)) (b : Body) : StepRes :=
  match (b.station 3).cur with
  | none => .same
  | some c =>
    if c.cmd ≠ code then .same
    else
      let b := b.settle 3
      let s := b.station 3
      if !s.outq.isEmpty || s.cur != some c then .go b
      else
        let xs := (b.stream c.inA).ready.map b.tile
        let cs := (b.stream c.inB).ready.map b.tile
        let n := if c.count = 0 then (xs.findIdx? (·.h.last)).map (· + 1) else (if c.count ≤ xs.length then some c.count else none)
        match n with
        | none => .go b
        | some n =>
          let xs := xs.take n
          if !cs.any (·.h.last) then .go b
          else if (xs ++ cs).any (·.h.poison) then .bad 4 .poison
          else if (xs ++ cs).any (fun t => !t.h.empty && !t.isFloat) then .bad 7 .malformed
          else
            match f c (xs.filter fun t => !t.h.empty) (tileRows (cs.filter fun t => !t.h.empty)) with
            | none => .bad 7 .malformed
            | some (ts, fl) =>
              let b := n.fold (fun _ _ b => b.take c.inA) (b.takeAll c.inB)
              .go (({ b with arith := b.arith ||| fl }).emitTiles 3 c ts true)

/-- DTAB (R261): for each query in row order, M × K entries in FP16. -/
def dtabTables (c : Cmd) (xs : List Tile) (cb : List (List Num)) : Option (List Tile × BitVec 5) :=
  let m := c.mode.toNat
  let d := dimD m
  let k := dimK m
  let mm := c.c.toNat % 128 + 1
  let qs := tileRows xs
  if 32 < qs.length ∨ qs.any (fun q => q.length != mm * d) ∨ cb.length ≠ mm * k ∨ cb.any (fun r => r.length != d) then none
  else
    let es := qs.flatMap fun q => (List.range (mm * k)).map fun i =>
      tableEntry (m % 4) fp16 (decide (m / 256 % 2 = 1)) ((q.drop (i / k * d)).take d) (cb.getD i [])
    some (tableTiles 0x03 2 k ((xs.map (·.h.user)).headD 0) 8192 (es.map (·.1)), orFlags (es.map (·.2)))

/-- DTAB (R261). -/
def execDtab (core : Fin 16) (ctx : Fin 8) (s : State) := complete (runStep core ctx (wholeStep 5 dtabTables)) s

/-- LUTMV (R261): the tiles of in_a hold one vector x; P × K FP32 entries follow. -/
def lutmvTables (c : Cmd) (xs : List Tile) (cb : List (List Num)) : Option (List Tile × BitVec 5) :=
  let m := c.mode.toNat
  let d := dimD m
  let k := dimK m
  let g := c.c.toNat % 128 + 1
  let v := (tileRows xs).flatten
  if cb.length ≠ g * k ∨ cb.any (fun r => r.length != d) ∨ v.isEmpty ∨ v.length % d ≠ 0 then none
  else
    let es := (List.range (v.length / d * k)).map fun i =>
      tableEntry 1 fp32 (decide (m / 256 % 2 = 1)) ((v.drop (i / k * d)).take d) (cb.getD (i / k % g * k + i % k) [])
    some (tableTiles 0x01 4 k ((xs.map (·.h.user)).headD 0) 8192 (es.map (·.1)), orFlags (es.map (·.2)))

/-- LUTMV (R261). -/
def execLutmv (core : Fin 16) (ctx : Fin 8) (s : State) := complete (runStep core ctx (wholeStep 6 lutmvTables)) s

/-! ### RAKE (R208, R209) -/

/-- Elements of a tile widened into FP32, with the flags of the widening (R208). -/
def Tile.lanesF (t : Tile) : List (BitVec 32 × BitVec 5) := t.cells.map fun (r, c) =>
  if t.h.fmt = 0x01 then (BitVec.ofNat 32 (t.elem 32 r c), 0) else widen (t.num r c)

/-- Elements of a tile widened into INT32. -/
def Tile.lanesI (t : Tile) : List (BitVec 32) := t.cells.map fun (r, c) => BitVec.ofInt 32 (t.int r c)

/-- The lanes of an input of a class; none where the tile is of another. -/
def Tile.lanes (t : Tile) (isInt : Bool) : Option (List (BitVec 32) × BitVec 5) :=
  if isInt then (if t.isInt then some (t.lanesI, 0) else none)
  else if t.isFloat then (let l := t.lanesF; some (l.map (·.1), orFlags (l.map (·.2)))) else none

/-- Zip three lists of lanes. -/
def lanes3 (f : BitVec 32 → BitVec 32 → BitVec 32 × BitVec 5) (xs ys : List (BitVec 32)) : List (BitVec 32 × BitVec 5) :=
  List.zipWith f xs ys

/-- An elementwise command: its input class, its output fmt and its lane operation on x and y; y is the scalar where in_b is 63
(R209). -/
def elementwise (inInt outInt : Bool) (f : Cmd → BitVec 32 → BitVec 32 → BitVec 32 × BitVec 5)
    (c : Cmd) (_ : Station) (a : Tile) (ob : Option Tile) (b : Body) : TileRes :=
  if a.h.empty then .out {} [emptyTile false a.h.origin a.h.user] 0 b
  else
    match a.lanes inInt with
    | none => badTile
    | some (xs, fx) =>
      let ys : Option (List (BitVec 32) × BitVec 5) :=
        match ob with
        | none => some (xs.map fun _ => c.a.setWidth 32, 0)
        | some y => if y.h.rows = a.h.rows ∧ y.h.cols = a.h.cols ∧ !y.h.empty then y.lanes inInt else none
      match ys with
      | none => badTile
      | some (ys, fy) =>
        let r := lanes3 (f c) xs ys
        match likeTile a (if outInt then 0x08 else 0x01) (r.map (·.1)) with
        | none => badTile
        | some t => .out {} [t] (fx ||| fy ||| orFlags (r.map (·.2))) b

def rake (code : Nat) (core : Fin 16) (ctx : Fin 8) (f : Cmd → Station → Tile → Option Tile → Body → TileRes) (s : State) : State :=
  runStep core ctx (tileStep 4 code f fun _ _ => []) s

/-- A float operation of two operands, of one, and an integer operation. -/
def fOp (f : BitVec 32 → BitVec 32 → BitVec 32 × BitVec 5) := elementwise false false fun _ x y => f x y
def fOp1 (f : BitVec 32 → BitVec 32 × BitVec 5) := elementwise false false fun _ x _ => f x
def iOp (f : Cmd → BitVec 32 → BitVec 32 → BitVec 32 × BitVec 5) := elementwise true true f

/-- ADD (Table 09-6). -/
def execAdd (core : Fin 16) (ctx : Fin 8) (s : State) := complete (rake 0x01 core ctx (fOp laneAdd)) s
/-- SUB (Table 09-6). -/
def execSub (core : Fin 16) (ctx : Fin 8) (s : State) := complete (rake 0x02 core ctx (fOp laneSub)) s
/-- MUL (Table 09-6). -/
def execMul (core : Fin 16) (ctx : Fin 8) (s : State) := complete (rake 0x03 core ctx (fOp laneMul)) s
/-- FMA (Table 09-6, R209): the addend z is b[31:0]. -/
def execFma (core : Fin 16) (ctx : Fin 8) (s : State) :=
  complete (rake 0x04 core ctx (elementwise false false fun c x y => laneFma (c.b.setWidth 32) x y)) s
/-- MIN (Table 09-6, R96). -/
def execMin (core : Fin 16) (ctx : Fin 8) (s : State) := complete (rake 0x05 core ctx (fOp laneMin)) s
/-- MAX (Table 09-6, R96). -/
def execMax (core : Fin 16) (ctx : Fin 8) (s : State) := complete (rake 0x06 core ctx (fOp laneMax)) s
/-- ABS (Table 09-6). -/
def execAbs (core : Fin 16) (ctx : Fin 8) (s : State) := complete (rake 0x07 core ctx (fOp1 laneAbs)) s
/-- NEG (Table 09-6). -/
def execNeg (core : Fin 16) (ctx : Fin 8) (s : State) := complete (rake 0x08 core ctx (fOp1 laneNeg)) s
/-- CMP (Table 09-6). -/
def execCmp (core : Fin 16) (ctx : Fin 8) (s : State) :=
  complete (rake 0x09 core ctx (elementwise false true fun c x y => laneCmp (c.mode.toNat % 8) x y)) s

/-- SEL (R209): x where the INT32 mask on in_b is not zero, the scalar elsewhere. -/
def selTile (c : Cmd) (_ : Station) (a : Tile) (ob : Option Tile) (b : Body) : TileRes :=
  if a.h.empty then .out {} [emptyTile false a.h.origin a.h.user] 0 b
  else
    match a.lanes a.isInt, ob with
    | some (xs, fx), some m =>
      if m.h.fmt ≠ 0x08 ∨ m.h.rows ≠ a.h.rows ∨ m.h.cols ≠ a.h.cols ∨ m.h.empty then badTile
      else
        let r := List.zipWith (fun x k => if k = 0 then c.a.setWidth 32 else x) xs m.lanesI
        match likeTile a (if a.isInt then 0x08 else 0x01) r with
        | none => badTile
        | some t => .out {} [t] fx b
    | _, _ => badTile

/-- SEL (R209). -/
def execSel (core : Fin 16) (ctx : Fin 8) (s : State) := complete (rake 0x0A core ctx selTile) s
/-- EXP (Table 09-7). -/
def execExp (core : Fin 16) (ctx : Fin 8) (s : State) := complete (rake 0x10 core ctx (fOp1 laneExp)) s
/-- EXP2 (Table 09-7). -/
def execExp2 (core : Fin 16) (ctx : Fin 8) (s : State) := complete (rake 0x11 core ctx (fOp1 laneExp2)) s
/-- LOG (Table 09-7). -/
def execLog (core : Fin 16) (ctx : Fin 8) (s : State) := complete (rake 0x12 core ctx (fOp1 (laneLog 2))) s
/-- LOG2 (Table 09-7). -/
def execLog2 (core : Fin 16) (ctx : Fin 8) (s : State) := complete (rake 0x13 core ctx (fOp1 (laneLog 3))) s
/-- RSQRT (Table 09-7). -/
def execRsqrt (core : Fin 16) (ctx : Fin 8) (s : State) := complete (rake 0x14 core ctx (fOp1 laneRsqrt)) s
/-- RECIP (Table 09-7). -/
def execRecip (core : Fin 16) (ctx : Fin 8) (s : State) := complete (rake 0x15 core ctx (fOp1 laneRecip)) s
/-- SQRT (Table 09-7). -/
def execSqrt (core : Fin 16) (ctx : Fin 8) (s : State) := complete (rake 0x16 core ctx (fOp1 laneSqrt)) s
/-- DIV (Table 09-7). -/
def execDiv (core : Fin 16) (ctx : Fin 8) (s : State) := complete (rake 0x17 core ctx (fOp laneDiv)) s
/-- TANH (Table 09-7). -/
def execTanh (core : Fin 16) (ctx : Fin 8) (s : State) := complete (rake 0x18 core ctx (fOp1 laneTanh)) s

/-! ### Rows (R211, R212) -/

/-- A row's exact sum so far: mantissa, exponent, and the special terms seen: 1 NaN, 2 +∞, 4 -∞, 8 any term but -0. -/
def sumAdd (a : Int × Int × Nat) (x : Num) : Int × Int × Nat :=
  let (m, e) := dySum [(a.1, a.2.1), x.dy]
  let fl : Nat := match x with
    | .nan => 9
    | .inf n => if n then 12 else 10
    | .fin n k _ => if k = 0 ∧ n then 0 else 8
  (m, e, Nat.lor a.2.2 fl)

/-- The sum as a value (R203). -/
def sumNum (a : Int × Int × Nat) : Num :=
  let fl := a.2.2
  if fl.testBit 0 || (fl.testBit 1 && fl.testBit 2) then .nan
  else if fl.testBit 1 then .inf false
  else if fl.testBit 2 then .inf true
  else if a.1 = 0 then .fin (!fl.testBit 3) 0 0
  else numOfInt a.1 a.2.1

/-- Flags of a rounded row sum (Table 09-10). -/
def sumFlags (a : Int × Int × Nat) : BitVec 5 :=
  let r := decF32 (encF32 (sumNum a))
  let fl := a.2.2
  flagIf (r.isNan && !fl.testBit 0) flNan ||| flagIf (r.isInf && !fl.testBit 1 && !fl.testBit 2) flOverflow

/-- A column tile of FP32 results, one a row. -/
def columnTile (l : List (BitVec 32)) (origin : Word) (user : BitVec 32) : Tile :=
  mkTile 0x01 l.length 1 4 (l.flatMap fun x => bytesOfNat 4 x.toNat) origin user

/-- The lanes of a float tile, row by row. -/
def Tile.rowsF (t : Tile) : List (List (BitVec 32)) :=
  let l := t.lanesF.map (·.1)
  (List.range t.h.rows).map fun r => (l.drop (r * t.h.cols)).take t.h.cols

/-- ROW_SUM of one tile. More than 1,024 rows have no column tile of 4,096 bytes and end the job with MALFORMED (log 45). -/
def sumTile (c : Cmd) (s : Station) (t : Tile) (_ : Option Tile) (b : Body) : TileRes :=
  if t.h.empty then .out s.carry (if c.mode.getLsbD 0 then [] else [emptyTile false t.h.origin t.h.user]) 0 b
  else if !t.isFloat ∨ 1024 < t.h.rows then badTile
  else
    let start : List (Int × Int × Nat) := if s.carry.sums.isEmpty then List.replicate t.h.rows (0, 0, 0) else s.carry.sums
    if start.length ≠ t.h.rows then badTile
    else
      let sums := List.zipWith (fun a (row : List (BitVec 32)) => row.foldl (fun a x => sumAdd a (decF32 x)) a) start t.rowsF
      if c.mode.getLsbD 0 then
        -- the flags of the one rounding are set with the last tile's, which writes the output
        .out { s.carry with sums := sums, n := t.h.user.toNat } [] 0 b
      else .out {} [columnTile (sums.map fun a => encF32 (sumNum a)) t.h.origin t.h.user] (orFlags (sums.map sumFlags)) b

/-- The column tile that ends a carried ROW_SUM (R211). -/
def sumEnd (c : Cmd) (k : Carry) : List Tile :=
  if c.mode.getLsbD 0 ∧ !k.sums.isEmpty then [columnTile (k.sums.map fun a => encF32 (sumNum a)) 0 (BitVec.ofNat 32 k.n)] else []

/-- A carried ROW_SUM sets its flags when it rounds, at the command's end (R211, R225). -/
def rowSumStep (b : Body) : StepRes :=
  let k := (b.station 4).carry
  match tileStep 4 0x20 sumTile sumEnd b with
  | .go b' =>
    let was := (b.station 4).idx
    let now_ := (b'.station 4)
    if (now_.idx ≠ was ∨ now_.closing) ∧ !(b.station 4).closing then
      let sums := if now_.idx = was then now_.carry.sums else k.sums
      .go { b' with arith := b'.arith ||| orFlags (sums.map sumFlags) }
    else .go b'
  | r => r

/-- ROW_SUM (R211). -/
def execRowSum (core : Fin 16) (ctx : Fin 8) (s : State) := complete (runStep core ctx rowSumStep) s

def rowMax (l : List (BitVec 32)) : BitVec 32 :=
  match l with
  | [] => 0xFF800000
  | x :: xs => xs.foldl (fun a y => (laneMax a y).1) x

/-- ROW_MAX of one tile, with the bound of `sumTile` (log 45). -/
def maxTile (_ : Cmd) (_ : Station) (t : Tile) (_ : Option Tile) (b : Body) : TileRes :=
  if t.h.empty then .out {} [emptyTile false t.h.origin t.h.user] 0 b
  else if !t.isFloat ∨ 1024 < t.h.rows then badTile
  else .out {} [columnTile (t.rowsF.map rowMax) t.h.origin t.h.user] 0 b

/-- ROW_MAX (Table 09-6). -/
def execRowMax (core : Fin 16) (ctx : Fin 8) (s : State) := complete (rake 0x21 core ctx maxTile) s

/-- SOFTMAX of one row (R212). -/
def softmaxRow (l : List (BitVec 32)) : List (BitVec 32) × BitVec 5 :=
  let ns := l.map decF32
  let bad := ns.any (fun x => x.isNan || (x.isInf && !x.neg)) || ns.all (fun x => x.isInf && x.neg)
  if bad then (l.map fun _ => 0x7FC00000, flagIf (ns.all fun x => !x.isNan) flNan)
  else
    let m := rowMax l
    let d := l.map fun x => laneSub x m
    let e := d.map fun x => laneExp x.1
    let sum := e.foldl (fun a x => sumAdd a (decF32 x.1)) ((0, 0, 0) : Int × Int × Nat)
    let sv := encF32 (sumNum sum)
    let y := e.map fun x => laneDiv x.1 sv
    (y.map (·.1), orFlags ((d.map (·.2)) ++ (e.map (·.2)) ++ (y.map (·.2)) ++ [sumFlags sum]))

def softTile (_ : Cmd) (_ : Station) (t : Tile) (_ : Option Tile) (b : Body) : TileRes :=
  if t.h.empty then .out {} [emptyTile false t.h.origin t.h.user] 0 b
  else if !t.isFloat ∨ 1024 < t.h.cols then badTile
  else
    let r := t.rowsF.map softmaxRow
    match likeTile t 0x01 (r.flatMap (·.1)) with
    | none => badTile
    | some o => .out {} [o] (orFlags (r.map (·.2))) b

/-- SOFTMAX (R212). -/
def execSoftmax (core : Fin 16) (ctx : Fin 8) (s : State) := complete (rake 0x22 core ctx softTile) s

/-! ### TOPK (R213) -/

/-- Is pair `a` ranked before pair `b`? -/
def pairBefore (small : Bool) (a b : BitVec 32 × BitVec 32) : Bool :=
  let x := decF32 a.1
  let y := decF32 b.1
  if x.isNan then y.isNan && decide (a.2.toNat < b.2.toNat)
  else if y.isNan then true
  else if x.eqv y then decide (a.2.toNat < b.2.toNat)
  else if small then x.lt y else y.lt x

def topK (c : Cmd) : Nat := c.c.toNat % 2048

def topTile (c : Cmd) (s : Station) (t : Tile) (_ : Option Tile) (b : Body) : TileRes :=
  if t.h.empty then .out s.carry [] 0 b
  else if t.h.fmt ≠ 0x1C then badTile
  else
    let best := t.pairs.foldl (fun l p => (insertBy (fun x y => pairBefore (c.mode.getLsbD 0) x y) p l).take (topK c)) s.carry.pairs
    .out { s.carry with pairs := best, n := t.h.user.toNat } [] 0 b

/-- The best pairs; SHORT on the last tile where fewer than k arrived. -/
def topEnd (c : Cmd) (k : Carry) : List Tile :=
  let ts := pairTiles (BitVec.ofNat 32 k.n) 2 k.pairs
  if k.pairs.length < topK c then
    match ts.reverse with
    | [] => [emptyTile false 0 0]
    | t :: r => (({ t with h := { t.h with short := true } } : Tile) :: r).reverse
  else ts

/-- TOPK (R213). -/
def execTopk (core : Fin 16) (ctx : Fin 8) (s : State) := complete (runStep core ctx (tileStep 4 0x28 topTile topEnd)) s

/-! ### CVT and the integer commands -/

def cvtStep (c : Cmd) (_ : Station) (t : Tile) (_ : Option Tile) (b : Body) : TileRes :=
  if t.h.empty then .out {} [emptyTile false t.h.origin t.h.user] 0 b
  else
    let l : Option (List Num × BitVec 5) :=
      if t.isInt then some (t.cells.map fun (r, k) => (let v := t.int r k; .fin (decide (v < 0)) v.natAbs 0), 0)
      else if t.isFloat then (let x := t.lanesF; some (x.map fun y => decF32 y.1, orFlags (x.map (·.2)))) else none
    match l with
    | none => badTile
    | some (xs, fx) =>
      match cvtTile (c.mode.toNat % 256) (c.mode.getLsbD 8) t.h.rows t.h.cols xs t.h.origin t.h.user with
      | none => badTile
      | some (o, fl) => .out {} [o] (fx ||| fl) b

/-- CVT (Table 09-6, R199, R200). -/
def execCvt (core : Fin 16) (ctx : Fin 8) (s : State) := complete (rake 0x30 core ctx cvtStep) s
/-- IADD (Table 09-6). -/
def execIadd (core : Fin 16) (ctx : Fin 8) (s : State) := complete (rake 0x31 core ctx (iOp fun _ x y => (x + y, 0))) s
/-- ISUB (Table 09-6). -/
def execIsub (core : Fin 16) (ctx : Fin 8) (s : State) := complete (rake 0x32 core ctx (iOp fun _ x y => (x - y, 0))) s
/-- IMUL (Table 09-6). -/
def execImul (core : Fin 16) (ctx : Fin 8) (s : State) := complete (rake 0x33 core ctx (iOp fun _ x y => (x * y, 0))) s
/-- LOGIC (Table 09-6). -/
def execLogic (core : Fin 16) (ctx : Fin 8) (s : State) :=
  complete (rake 0x34 core ctx (iOp fun c x y => laneLogic (c.mode.toNat % 4) x y)) s
/-- SHIFT (Table 09-6). -/
def execShift (core : Fin 16) (ctx : Fin 8) (s : State) :=
  complete (rake 0x35 core ctx (iOp fun c x y => laneShift (c.mode.toNat % 4) x y)) s
/-- ISAT (Table 09-6). -/
def execIsat (core : Fin 16) (ctx : Fin 8) (s : State) :=
  complete (rake 0x36 core ctx (iOp fun c x y => laneIsat (c.mode.getLsbD 0) x y)) s

end Sys2Proof.Machine
end

