-- ==== Sys2Proof/Machine/Command.lean ====
section
/-! DEFINITION. Who writes a register, which staging copy a writer has, and the life of a command register (R473, R476-R478,
Tables 22-1, 22-3, 22-4). -/

namespace Sys2Proof.Machine

open Sys2Proof

/-- The IID a writer acts under: its window's, or the stamped one of its CONTROL request. -/
def writerIid (s : State) : Writer → BitVec 16
  | .bar0 w => winIid s w
  | .control iid _ => iid
  | .mctp | .jtag => 0

/-- Is the writer of a class (Table 22-1)? `owner` is the window that owns the instance, if one does. JTAG acts as class F
(R490). -/
def hasCls (s : State) (wr : Writer) (owner : Option Nat) (c : WCls) : Bool :=
  match wr, c with
  | .bar0 _, .a => true
  | .bar0 w, .w => owner == some w.val
  | .bar0 w, .m => mgmtIid s (winIid s w)
  | .control _ v, .a => !v
  | .control iid v, .w => !v && (match owner with | some w => decide (winIid s w = iid) | none => false)
  | .control iid v, .m => !v && mgmtIid s iid
  | .control iid v, .f => v && fmIid s iid
  | .mctp, .c => true
  | .jtag, .f => true
  | _, _ => false

def allowed (s : State) (wr : Writer) (owner : Option Nat) (cs : List WCls) : Bool := cs.any (hasCls s wr owner)

/-- The writer's own copy of the staging registers (R478): window w has copy w + 1, F copy 65, C copy 66; a class M writer whose
IID is no window's has copy 0 (log 9). -/
def stageOf (s : State) : Writer → Nat
  | .bar0 w => w.val + 1
  | .control iid v =>
    if v then 65 else ((List.range 64).find? fun w => winIid s w == iid).elim 0 (· + 1)
  | .mctp => 66
  | .jtag => 65

/-- A staging word of the writer. -/
def staged (s : State) (wr : Writer) (off : Nat) : Word := stageGet s (stageOf s wr) off

/-- Write a command register (R476, R478): refused for a class it does not name or while a command runs, otherwise accepted; the
status is what a CONTROL request making the write is answered with, none when it is accepted. -/
def issue (wr : Writer) (owner : Option Nat) (cs : List WCls) (cmd done : Nat) (run : State → State) (s : State) :
    Option Status × State :=
  if !allowed s wr owner cs then (some .denied, rejected cmd s)
  else if (doneGet s done).busy then (some .busy, doneMod done (fun d => { d with refused := true }) s)
  else (none, run (doneMod done (fun d => { d with busy := true, number := d.number + 1 }) s))

/-- A command completes (Table 22-4). -/
def cmdDone (done : Nat) (st : Status) (result : BitVec 32) (s : State) : State :=
  doneMod done (fun d => { d with busy := false, status := st, result := result }) s

end Sys2Proof.Machine
end

