-- ==== Sys2Proof/Machine/CohCmds.lean ====
section
/-! DEFINITION. The commands of coherence (06): messages of agents as they reach the home, its timers, the lost-agent sweep, and
the mode fences (R119-R149, R484). -/

namespace Sys2Proof.Machine

open Sys2Proof

/-! ### Coherence requests -/

/-- The slice of a line cannot answer (R393). -/
def deadAt (s : State) (a : Nat) : Bool := s.home.deadSlices.any fun d => d.val == sliceOf a

/-- RD_S, RD_E or UPG reaches the home. -/
def cohArrive (op : CohOp) (m : CohMsg) (s : State) : State :=
  if deadAt s (addr s m.gsa) then s else pump (cohEnter op m s)

/-- RD_S (R133). -/
def execRdS (m : CohMsg) (s : State) := complete (cohArrive .rdS m) s

/-- RD_E (R133). -/
def execRdE (m : CohMsg) (s : State) := complete (cohArrive .rdE m) s

/-- UPG (R133). -/
def execUpg (m : CohMsg) (s : State) := complete (cohArrive .upg m) s

/-! ### Write-backs and evictions -/

def strayCount (s : State) : State := countRC (Off.home + 0x30) 1 s

/-- How the home knows a sender at a line (Table 06-6). DEDUCED, safe (log 36): while an unknown entry is repaired, a slot that has not
answered its snoop may be the owner, and its WB_D is taken as the owner's, so that no data is lost. -/
inductive Holding where
  | owner | sharer | n
  deriving DecidableEq, Repr

def holding (s : State) (line : Nat) (slot : Option (Fin 64)) : Holding :=
  let d := dirGet s line
  let repairing (n : Fin 64) : Bool := s.coh.txns.any fun t => t.line == line && t.head == .repair && t.snoops.any (·.slot == n)
  match slot with
  | none => .n
  | some n =>
    if repairing n then .owner
    else if !d.presence.getLsbD n then .n
    else if d.state = .e ∧ d.owner.toNat = n.val then .owner else .sharer

/-- Messages of a lost slot other than coherence requests are counted and dropped (R141). -/
def lostSender (s : State) (slot : Option (Fin 64)) : Bool := slot.any fun n => agentLost s n

/-- Action s: discarded, counted, with a record; CMP_WB with FENCED, in the resume window with OK (R133, R147). -/
def strayWb (m : CohMsg) (line : Nat) (slot : Option (Fin 64)) (s : State) : State :=
  cmpWb m (if s.coh.resumeUntil.isSome then .ok else .fenced) (cohRec 0x04 1 line 0x23 (slot.elim 0 (·.val)) m.iid (strayCount s))

/-- WB_D reaches the home (actions w, x, s and z; R127, R147, R148). -/
def takeWbD (m : CohMsg) (s : State) : State :=
  let a := addr s m.gsa
  let line := lineOf a
  let slot := slotOf s m.iid
  if deadAt s a then s
  else if lostSender s slot then strayCount s
  else if (extDesc s (extOf a)).state = .free then cmpWb m .noExtent (strayCount s)
  else
    match holding s line slot, slot with
    | .owner, some n => pump (takeWb m n s)
    | .sharer, _ => impossible line 0x23 m.iid s
    | _, some n =>
      if s.coh.rebuild.contains n then pump (takeWb m n s)
      else strayWb m line slot s
    | _, none => strayWb m line none s

/-- WB_D (R133). -/
def execWbD (m : CohMsg) (s : State) := complete (takeWbD m) s

/-- EVICT_C reaches the home (actions e, x and k). -/
def takeEvict (m : CohMsg) (s : State) : State :=
  let a := addr s m.gsa
  let line := lineOf a
  let slot := slotOf s m.iid
  if deadAt s a then s
  else if lostSender s slot then strayCount s
  else if (extDesc s (extOf a)).state = .free then cmpWb m .noExtent (strayCount s)
  else
    match holding s line slot, slot with
    | .n, _ | _, none => cmpWb m .ok (strayCount s)
    | _, some n => pump (cmpWb m .ok (modDir line (DirEnt.drop n) s))

/-- EVICT_C (R133). -/
def execEvictC (m : CohMsg) (s : State) := complete (takeEvict m) s

/-! ### Snoop responses -/

/-- The running average of R134 takes one more round trip. -/
def noteRtt (line sent : Nat) (s : State) : State :=
  s.modCoh fun c => { c with rtt := Tab.upd (0, 0) (sliceOf (128 * line)) (fun r => (r.1 + (now s - sent), r.2 + 1)) c.rtt }

/-- A snoop response reaches the home: action r; absorbed when its snoop was given up (R139); otherwise action z. -/
def takeSnoopRsp (op : BitVec 6) (st : DirState) (withData : Bool) (m : CohMsg) (s : State) : State :=
  let a := addr s m.gsa
  let line := lineOf a
  match slotOf s m.iid with
  | none => impossible line op m.iid s
  | some slot =>
    let due (o : SnoopOut) : Bool := o.slot == slot && o.tag == m.tag && !o.injected
    if deadAt s a then s
    else if agentLost s slot then strayCount s
    else
      match s.coh.txns.find? (fun t => t.line == line && t.snoops.any due) with
      | some t =>
        if s.coh.withheld.contains slot then
          s.modCoh fun c => { c with
            withheld := c.withheld.filter (· != slot)
            txns := c.txns.map fun x => if x.line = line then
              { x with snoops := x.snoops.map fun o => if o.slot = slot then { o with injected := true } else o } else x }
        else pump (takeRsp m slot st withData (noteRtt line ((t.snoops.find? due).elim (now s) (·.sent)) s))
      | none =>
        if s.coh.late.contains (line, slot, m.tag) then
          let s := s.modCoh fun c => { c with late := c.late.erase (line, slot, m.tag) }
          let s := countRC (Off.home + 0x28) 1 s
          if withData then takeLate m slot s else s
        else impossible line op m.iid s

/-- RSP_I (R133). -/
def execRspI (m : CohMsg) (s : State) := complete (takeSnoopRsp 0x30 .i false m) s

/-- RSP_S (R133). -/
def execRspS (m : CohMsg) (s : State) := complete (takeSnoopRsp 0x31 .s false m) s

/-- RSP_E (R133). -/
def execRspE (m : CohMsg) (s : State) := complete (takeSnoopRsp 0x32 .e false m) s

/-- RSP_I_D (R133, R484). -/
def execRspID (m : CohMsg) (s : State) := complete (takeSnoopRsp 0x33 .i true m) s

/-- RSP_S_D (R133, R484). -/
def execRspSD (m : CohMsg) (s : State) := complete (takeSnoopRsp 0x34 .s true m) s

/-- RSP_E_D (R133, R484). -/
def execRspED (m : CohMsg) (s : State) := complete (takeSnoopRsp 0x35 .e true m) s

/-! ### Fences and resets of agents -/

/-- FENCE_ACK: the last one awaited lets the home switch modes (R146 step 5). -/
def takeFenceAck (m : CohMsg) (s : State) : State :=
  let z (s : State) : State := impossible (lineOf (addr s m.gsa)) 0x25 m.iid s
  let slot := slotOf s m.iid
  if lostSender s slot then strayCount s
  else
  match s.coh.fence, slot with
  | some f, some slot =>
    if f.sent.isSome && f.awaiting.contains slot && fld m.arg 15 0 == f.number.toNat && bitOf m.arg 16 == f.tabled then
      let f := { f with awaiting := f.awaiting.filter (· != slot) }
      if f.awaiting.isEmpty then pump (switchMode f s) else s.modCoh fun c => { c with fence := some f }
    else z s
  | _, _ => z s

/-- FENCE_ACK (R146). -/
def execFenceAck (m : CohMsg) (s : State) := complete (takeFenceAck m) s

/-- RESET_ACK closes the rebuild window of its agent (R148). -/
def takeResetAck (m : CohMsg) (s : State) : State :=
  match slotOf s m.iid with
  | some slot =>
    if agentLost s slot then strayCount s
    else if s.coh.rebuild.contains slot then s.modCoh fun c => { c with rebuild := c.rebuild.filter (· != slot) }
    else impossible (lineOf (addr s m.gsa)) 0x26 m.iid s
  | none => impossible (lineOf (addr s m.gsa)) 0x26 m.iid s

/-- RESET_ACK (R148). -/
def execResetAck (m : CohMsg) (s : State) := complete (takeResetAck m) s

/-- 100 us after FENCE_REQ the silent slots are excluded and enter the lost-agent procedure (R146). -/
def fenceTimeout (s : State) : State :=
  match s.coh.fence with
  | some f =>
    (match f.sent with
     | some t => pump (f.awaiting.foldl (fun s n => startSweep n s) (switchMode f (reach (t + 100000) s)))
     | none => s)
  | none => s

/-- MODE_FENCE_TIMEOUT (R146). -/
def execModeFenceTimeout (s : State) := complete fenceTimeout s

/-- A write of HOME_MODE.force (Table 22-13): ignored with a CONFIG record while a fence is in progress or in that mode already;
into retry mode while a sweep runs it waits for the last one (R141). -/
def forceMode (tabled : Bool) (wr : Writer) (s : State) : State :=
  if !allowed s wr none [.f] ∨ s.coh.fence.isSome ∨ s.coh.tabled = tabled then rejected (Off.home + 0x10) s
  else if !tabled ∧ !s.coh.sweeps.isEmpty then s.modCoh fun c => { c with forceRetry := true }
  else pump (startFence tabled s)

/-- MODE_FORCE_TABLED (R145). -/
def execModeForceTabled (wr : Writer) (s : State) := complete (forceMode true wr) s

/-- MODE_FORCE_RETRY (R141, R145). -/
def execModeForceRetry (wr : Writer) (s : State) := complete (forceMode false wr) s

/-! ### Timers -/

/-- A stake window closes (R135). -/
def closeStake (line : Nat) (s : State) : State :=
  match s.coh.stakes.find? (·.1 == line) with
  | none => s
  | some w => pump (lineFreed line ((reach w.2 s).modCoh fun c => { c with stakes := c.stakes.filter (·.1 != line) }))

/-- STAKE_WINDOW_CLOSE (R135). -/
def execStakeWindowClose (line : Nat) (s : State) := complete (closeStake line) s

/-- A reservation's period has passed on a line free of any transaction and stake window (R136). -/
def expireReservation (line : Nat) (s : State) : State :=
  if busyLine s line || s.coh.stakes.any (·.1 == line) then s
  else
    match s.coh.reserved.find? (·.1 == line) with
    | none => s
    | some r => pump ((reach r.2.2 s).modCoh fun c => { c with reserved := c.reserved.filter (·.1 != line) })

/-- RESERVATION_EXPIRE (R136). -/
def execReservationExpire (line : Nat) (s : State) := complete (expireReservation line) s

/-- The snoop of a slot in a transaction is answered as by RSP_I; a response that comes later is absorbed (R139, R140). -/
def giveUpSnoop (line : Nat) (o : SnoopOut) (s : State) : State :=
  finishTxn line (s.modCoh fun c => { c with
    late := c.late ++ [(line, o.slot, o.tag)]
    txns := c.txns.map fun x => if x.line = line then { x with snoops := x.snoops.filter (·.slot != o.slot) } else x })

/-- A snoop is unanswered: the owner's line is poisoned; a sharer is snooped again, and after four snoops removed and its slot
lost (R139, R140). DESIGN CHOICE, unsafe (log 40): a removed sharer leaves a COHERENCE record, code 0x03 at severity CORRECTED; R140
names no record. -/
def snoopUnanswered (line : Nat) (slot : Fin 64) (s : State) : State :=
  match s.coh.txns.find? (·.line == line) with
  | none => s
  | some t =>
    match t.snoops.find? (·.slot == slot) with
    | none => s
    | some o =>
      let s := reach (o.sent + 1500) s
      let d := dirGet s line
      if d.state = .e ∧ d.owner.toNat = slot.val then pump (giveUpSnoop line o (loseOwner line slot s))
      else if o.tries < 4 then
        emit (.coh (agentIid s slot) (snoopCode o.op) o.tag (gsaOfLine s line) 0 .ok 0 0) (s.modCoh fun c => { c with
          txns := c.txns.map fun x => if x.line = line then
            { x with snoops := x.snoops.map fun y => if y.slot = slot then { y with sent := now s, tries := y.tries + 1 } else y }
            else x })
      else
        let s := cohRec 0x03 0 line (snoopCode o.op) slot (agentIid s slot) s
        pump (startSweep slot (giveUpSnoop line o (modDir line (DirEnt.drop slot) s)))

/-- SNOOP_TIMEOUT (R139, R140). -/
def execSnoopTimeout (line : Nat) (slot : Fin 64) (s : State) := complete (snoopUnanswered line slot) s

/-- The sweep for a slot ends: its bits are gone from every entry; the last sweep passes the fence that R141 step 5 gives. -/
def endSweep (slot : Fin 64) (s : State) : State :=
  if !s.coh.sweeps.contains slot then s
  else
    let lines := (s.coh.dir.filter fun e => e.2.presence.getLsbD slot).map (·.1)
    let s := lines.foldl (fun s l =>
      if (dirGet s l).state = .e ∧ (dirGet s l).owner.toNat = slot.val then loseOwner l slot s else modDir l (DirEnt.drop slot) s) s
    let s := s.modCoh fun c => { c with sweeps := c.sweeps.filter (· != slot) }
    if s.coh.sweeps.isEmpty then
      let back := s.coh.sweepChanged || s.coh.forceRetry
      let s := s.modCoh fun c => { c with sweepChanged := false, forceRetry := false }
      pump (if back then startFence false s else s)
    else pump s

/-- LOST_AGENT_SWEEP_END (R141). -/
def execLostAgentSweepEnd (slot : Fin 64) (s : State) := complete (endSweep slot) s

/-- A placeholder that its agent's next request has not taken is removed (R142). -/
def expirePlaceholder (line : Nat) (slot : Fin 64) (s : State) : State :=
  let mine (q : QEnt) : Bool := q.line == line && (match q.item with | .placeholder sl _ => sl == slot | _ => false)
  match s.coh.queue.find? mine with
  | none => s
  | some q =>
    let t := match q.item with | .placeholder _ e => e | _ => 0
    pump ((reach t s).modCoh fun c => { c with queue := c.queue.erase q })

/-- PLACEHOLDER_EXPIRE (R142). -/
def execPlaceholderExpire (line : Nat) (slot : Fin 64) (s : State) := complete (expirePlaceholder line slot) s

/-- The 10 ms from HOME_RESUME end (R147). -/
def endResume (s : State) : State :=
  match s.coh.resumeUntil with
  | none => s
  | some t => (reach t s).modCoh fun c => { c with resumeUntil := none }

/-- RESUME_WINDOW_END (R147). -/
def execResumeWindowEnd (s : State) := complete endResume s

/-- DFL slots that have not answered HOME_RESET by 150 ms enter the lost-agent procedure (R148). -/
def endRebuild (s : State) : State :=
  let s := reach (began s .rebuild + 150000000) s
  let l := s.coh.rebuild
  l.foldl (fun s n => startSweep n s) (s.modCoh fun c => { c with rebuild := [] })

/-- REBUILD_TIMEOUT (R148). -/
def execRebuildTimeout (s : State) := complete endRebuild s

/-- A backing entry cannot be read: every valid slot is snooped with SNP_INV, the entry becomes I, and the record is raised last
(R149). The repair begins when the line has no transaction and no stake window. -/
def repairEntry (line : Nat) (s : State) : State :=
  if s.coh.recalls.contains { line := line, who := .repair } then s else pump (addRecalls [{ line := line, who := .repair }] s)

/-- DIR_ENTRY_REPAIR (R149). -/
def execDirEntryRepair (line : Nat) (s : State) := complete (repairEntry line) s

/-- One transaction that is still open when the quiesce ends: a line whose owner's snoop is open is poisoned and what asked for the
transaction is answered NY (R147). -/
def endTxn (s : State) (t : Txn) : State :=
  let d := dirGet s t.line
  let s := if d.state = .e ∧ t.snoops.any (fun o => o.slot.val == d.owner.toNat) then loseOwner t.line d.owner.toNat s else s
  match t.head with
  | .req n => (match findReq s n with | some p => finish p .ny 0x3FF [] s | none => s)
  | .coh _ m _ _ _ => nack m .ny 0x3FF s
  | .repair => endRepair t.line s
  | .home => s

/-- The 10 us of the quiesce end: lines whose owner snoop is still open are poisoned; no transaction runs on (R147). -/
def endQuiesce (s : State) : State :=
  match s.coh.quiescing with
  | none => s
  | some t0 =>
    (s.coh.txns.foldl endTxn (reach (t0 + 10000) s)).modCoh fun c => { c with txns := [], queue := [], recalls := [] }

end Sys2Proof.Machine
end

