-- ==== Sys2Proof/Machine/Dma.lean ====
section
/-! DEFINITION. The DMA stations: SPADE's READ and READ_ROWS (R254, R322) and BARROW's STAGE (R175, R179, R180, R190, R231,
R235, R256). -/

namespace Sys2Proof.Machine

open Sys2Proof

/-- May a DMA station of a context step? Its context owns the stations, or it completes reads already issued (R177, R185). -/
def dmaJob (core : Fin 16) (ctx : Fin 8) (who : Nat) (s : State) : Option Job :=
  match jobAt s (jobKey core ctx) with
  | none => none
  | some j =>
    let going := (j.reads.any fun a => a.who % 16 == who) || (j.rx.any fun x => x.who % 16 == who)
    if (j.phase = .ready ∧ (ownerCtx s core.val = some ctx.val ∨ going)) ∨ (j.phase = .suspending ∧ going) then some j else none

/-- End or restart a job for a failure of one of its engines. -/
def failAt (core : Fin 16) (ctx : Fin 8) (cause : Nat) (st : Status) (whereAt : Word) (s : State) : State :=
  if cause = 1 ∨ cause = 2 then restartJob core ctx cause st whereAt s else endJob core ctx cause st whereAt s

/-- The station's current command, once what it computed before has gone; the body then stands as returned. -/
def curCmd (b : Body) (st code : Nat) : Option (Cmd × Station) × Body :=
  match (b.station st).cur with
  | none => (none, b)
  | some c =>
    if c.cmd ≠ code then (none, b)
    else
      let b := b.settle st
      let s := b.station st
      if !s.outq.isEmpty || s.cur != some c then (none, b) else (some (c, s), b)

/-- Store the body of a job after a station's step. -/
def setBody (core : Fin 16) (ctx : Fin 8) (b : Body) (s : State) : State :=
  keepBody (jobKey core ctx) b s

/-! ### SPADE -/

/-- The form parameters that a coded block's header carries (Table 11-5). -/
def blkForm (bs : List Byte) : Option FormP := formOf (BitVec.ofNat 32 (fld (wordAtByte bs 0) 55 37 * 2 ^ 13))

/-- The tile of a coded block (R254). -/
def codedTile (s : State) (bs : List Byte) (poison : Bool) (origin : Word) : Tile :=
  if bs.isEmpty && !poison then emptyTile false origin 0
  else
    let p := (blkForm bs).getD { fmt := 1, b := 4, d := 4, g := 1 }
    let t := mkTile p.vq 1 p.n (rowBytes p.b p.n) bs origin 0
    if poison then { h := { t.h with poison := true }, pay := BitVec.ofNat 32768 (Config.freeLine s.free).toNat } else t

/-- READ: tile n holds the bytes at a + n × c, or the coded block there (R254, R322). -/
def spadeRead (core : Fin 16) (ctx : Fin 8) (s : State) : State :=
  match dmaJob core ctx 1 s with
  | none => s
  | some j =>
    match curCmd j.b 1 1 with
    | (none, b) => if b = j.b then s else setBody core ctx b s
    | (some (c, stn), b) =>
      let s := modBody (jobKey core ctx) (fun _ => b) s
      let n := stn.consumed
      let coded := c.mode.getLsbD 0
      let va := if coded then c.a + BitVec.ofNat 64 (4096 * n) else c.a + BitVec.ofNat 64 (n * c.c.toNat)
      let len := Nat.min 4096 (c.b.toNat - 4096 * n)
      let (g, s) := if coded then viewBlock core ctx 1 va s else viewBytes core ctx 1 va len s
      match g with
      | .wait => s
      | .bad cause st w => failAt core ctx cause st w s
      | .bytes bs poison =>
        let t := if coded then codedTile s bs poison va
          else (let t := byteTile bs va 0; { t with h := { t.h with poison := poison } })
        let s := doneWith (jobKey core ctx) 1 (if coded && poison then s.draw else s)
        let b := ((jobAt s (jobKey core ctx)).getD {}).b
        let b := b.setStation 1 fun x => { x with consumed := n + 1 }
        setBody core ctx (b.emitTiles 1 c [t] (decide (ceilDiv c.b.toNat 4096 ≤ n + 1))) s

/-- READ (R322). -/
def execRead (core : Fin 16) (ctx : Fin 8) (s : State) := complete (spadeRead core ctx) s

/-- Indices of an index tile (R322); none for a tile of another fmt. -/
def indicesOf (t : Tile) : Option (List Nat) :=
  if t.h.empty then some []
  else if t.h.fmt = 0x1C then some (t.pairs.map (·.2.toNat))
  else if t.h.fmt = 0x08 then some (t.cells.map fun (r, c) => t.elem 32 r c)
  else none

/-- Rows of the job's view, one after another. -/
def viewRows (core : Fin 16) (ctx : Fin 8) (base : Word) (c : Nat) : List Nat → State → Got2 × State
  | [], s => (.bytes [] false, s)
  | i :: is, s =>
    let (g, s) := viewBytes core ctx 1 (base + BitVec.ofNat 64 (i * c)) c s
    let (h, s) := viewRows core ctx base c is s
    match g, h with
    | .bad k st w, _ => (.bad k st w, s)
    | _, .bad k st w => (.bad k st w, s)
    | .wait, _ | _, .wait => (.wait, s)
    | .bytes a p, .bytes b q => (.bytes (a ++ b) (p || q), s)

/-- A tile of gathered rows: origin is the first row's index (R322). -/
def rowsTile (c : Nat) (k : Carry) : Tile :=
  let first := k.pairs.headD (0, 0)
  let t := mkTile 0 (k.bytes.length / Nat.max 1 c) c c k.bytes (first.1.setWidth 64) first.2
  { t with h := { t.h with poison := !k.sums.isEmpty } }

/-- READ_ROWS, one output tile or one index tile at a time (R322). The carry holds the rows packed so far, the first one's index and
user, the place in the index tile, and whether a poisoned line was read. -/
def spadeRows (core : Fin 16) (ctx : Fin 8) (s : State) : State :=
  let key := jobKey core ctx
  match dmaJob core ctx 1 s with
  | none => s
  | some j =>
    match curCmd j.b 1 2 with
    | (none, b) => if b = j.b then s else setBody core ctx b s
    | (some (c, stn), b) =>
      let s := modBody key (fun _ => b) s
      match b.next c.inA with
      | none => s
      | some t =>
        match indicesOf t with
        | none => endJob core ctx 7 .malformed 0 s
        | some idx =>
          let w := c.c.toNat
          let per := 4096 / Nat.max 1 w
          let k := stn.carry
          let m := Nat.min (per - k.bytes.length / Nat.max 1 w) (idx.length - k.n)
          let part := (idx.drop k.n).take m
          let (g, s) := viewRows core ctx c.a w part s
          match g with
          | .wait => s
          | .bad cause st a => failAt core ctx cause st a s
          | .bytes bs poison =>
            let s := doneWith key 1 s
            let b := ((jobAt s key).getD {}).b
            let k := { k with
              n := k.n + m, bytes := k.bytes ++ bs
              pairs := if k.bytes.isEmpty then [(BitVec.ofNat 32 (part.headD 0), t.h.user)] else k.pairs
              sums := if poison then [(1, 0, 0)] else k.sums }
            let full := decide (per * w ≤ k.bytes.length)
            let used := decide (idx.length ≤ k.n)
            let done := used && (if c.count = 0 then t.h.last else decide (c.count ≤ stn.consumed + 1))
            let out := if full || (done && !k.bytes.isEmpty) then [rowsTile w k] else []
            let k := if out.isEmpty then k else { k with bytes := [], pairs := [], sums := [] }
            let k := if used then { k with n := 0 } else k
            let b := if used then b.take c.inA else b
            let b := b.setStation 1 fun x => { x with consumed := if used then x.consumed + 1 else x.consumed, carry := k }
            setBody core ctx (b.emitTiles 1 c out done) s

/-- READ_ROWS (R322). -/
def execReadRows (core : Fin 16) (ctx : Fin 8) (s : State) := complete (spadeRows core ctx) s

/-! ### Staging (R179, R180, R235, R391) -/

/-- Put a line into the staging: a later stage replaces the earlier; a line once staged whole stays so (R391). -/
def Body.stageLine (b : Body) (g va : Word) (data : Line) (whole : Bool) : Body :=
  let old := stagedAt b g
  let l : StageLine := { gsa := lineGsa g, data := data, whole := whole || (old.map (·.whole)).getD false, va := va }
  { b with staging := (b.staging.filter fun x => x.gsa != lineGsa g) ++ [l] }

/-- Bytes written over a line from byte `o`. -/
def overLine (old : Line) (o : Nat) (bs : List Byte) : Line :=
  lineOfBytes ((bytesOfLine old).take o ++ bs ++ (bytesOfLine old).drop (o + bs.length))

/-- What stages bytes within one line at a virtual address found: nothing more to do, something to wait for, or the job's end. -/
inductive Staged where
  | ok
  | wait
  | bad (cause : Nat) (st : Status) (whereAt : Word)
  deriving DecidableEq, Repr

/-- Where a stage may go (R175, R190): an extent of this device; not the resident window, not another device, not a HOST page. -/
def stageTarget (core : Fin 16) (ctx : Fin 8) (who : Nat) (va : Word) (s : State) : (Staged ⊕ Word) × State :=
  if rsWindow ≤ va.toNat ∧ va.toNat < rsWindow + (((jobAt s (jobKey core ctx)).bind fun j => rsFind s (rsVersion j)).map (·.length)).getD 0 then
    (.inl (.bad 7 .malformed va), s)
  else
    let (x, s) := xlate core ctx who va .w s
    match x with
    | .wait => (.inl .wait, s)
    | .bad c st => (.inl (.bad c st va), s)
    | .denied | .rs _ | .host _ _ => (.inl (.bad 6 .denied va), s)
    | .store g => if fdnOf g = servedFdn s then (.inr g, s) else (.inl (.bad 7 .malformed va), s)

/-- Stage bytes that lie within one line; a partial first stage reads the line's view (R235), and a poisoned one ends the job under
cause 0x04. -/
def stageBytes (core : Fin 16) (ctx : Fin 8) (who : Nat) (va : Word) (bs : List Byte) (s : State) : Staged × State :=
  let key := jobKey core ctx
  let (t, s) := stageTarget core ctx who va s
  match t with
  | .inl x => (x, s)
  | .inr g =>
    let o := va.toNat % 128
    let base := va - BitVec.ofNat 64 o
    let b := ((jobAt s key).getD {}).b
    let put (old : Line) (s : State) : Staged × State :=
      let b := ((jobAt s key).getD {}).b.stageLine g base (overLine old o bs) (decide (bs.length = 128))
      if stageQuota s < stageUsed b then (.bad 0xA .queueFull g, s) else (.ok, modBody key (fun _ => b) s)
    if bs.length = 128 then put 0 s
    else
      match stagedAt b g with
      | some l => put l.data s
      | none =>
        let (v, s) := viewLine core ctx who base .w s
        match v with
        | .wait => (.wait, s)
        | .bad c st w => (.bad c st w, s)
        | .bytes old poison => if poison then (.bad 4 .poison g, s) else put (lineOfBytes old) s

/-- Split bytes at line boundaries: (virtual address, bytes). -/
def splitLines : Nat → Word → List Byte → List (Word × List Byte)
  | 0, _, _ => []
  | n + 1, va, bs =>
    if bs.isEmpty then []
    else
      let m := 128 - va.toNat % 128
      (va, bs.take m) :: splitLines n (va + BitVec.ofNat 64 m) (bs.drop m)

/-- Everything that a range of stages needs is there: every target is known and every partial line has been read, without staging
anything yet (R233: a tile's lines are staged together). -/
def stageAll (core : Fin 16) (ctx : Fin 8) (who : Nat) : List (Word × List Byte) → State → Staged × State
  | [], s => (.ok, s)
  | (va, bs) :: l, s =>
    let (r, s) := stageBytes core ctx who va bs s
    let (q, s) := stageAll core ctx who l s
    (match r, q with
     | .bad c st w, _ => .bad c st w
     | _, .bad c st w => .bad c st w
     | .wait, _ | _, .wait => .wait
     | .ok, .ok => .ok, s)

/-- Stage a tile's bytes, or its coded block (R256). -/
def stageTile (core : Fin 16) (ctx : Fin 8) (t : Tile) (va : Word) (s : State) : Staged × State :=
  let key := jobKey core ctx
  if fmtIsCode t.h.fmt.toNat then
    if va.toNat % 4096 ≠ 0 ∨ t.h.bytes ≠ ((blkForm t.data).map fun p => p.len (blkOut t.data)).getD 0 then (.bad 7 .malformed va, s)
    else
      let (x, s) := stageTarget core ctx 2 va s
      match x with
      | .inl r => (r, s)
      | .inr g =>
        let b := ((jobAt s key).getD {}).b
        let b := { b with coded := (b.coded.filter fun e => e.1 != g) ++ [(g, t.data)] }
        if stageQuota s < stageUsed b then (.bad 0xA .queueFull g, s) else (.ok, modBody key (fun _ => b) s)
  else stageAll core ctx 2 (splitLines 64 va t.data) s

/-- STAGE, one tile: tile n goes to a + n × c; its receipt follows on out (R179, R231). A tile that must wait stages nothing
more than the lines it has staged already, which the repeated step stages again with the same bytes. -/
def barrowStage (core : Fin 16) (ctx : Fin 8) (s : State) : State :=
  let key := jobKey core ctx
  match dmaJob core ctx 2 s with
  | none => s
  | some j =>
    match curCmd j.b 2 1 with
    | (none, b) => if b = j.b then s else setBody core ctx b s
    | (some (c, stn), b) =>
      let s := modBody key (fun _ => b) s
      match b.next c.inA with
      | none => s
      | some t =>
        if t.h.poison then endJob core ctx 4 .poison 0 s
        else
          let (r, s) := if t.h.empty then (Staged.ok, s) else stageTile core ctx t (c.a + BitVec.ofNat 64 (stn.consumed * c.c.toNat)) s
          match r with
          | .wait => s
          | .bad cause st w => failAt core ctx cause st w s
          | .ok =>
            let s := doneWith key 2 s
            let done := if c.count = 0 then t.h.last else decide (c.count ≤ stn.consumed + 1)
            let b := (((jobAt s key).getD {}).b.take c.inA).setStation 2 fun x => { x with
              consumed := x.consumed + 1
              outq := x.outq ++
                (if c.out = noneStream ∨ (t.h.empty ∧ !done) then [] else [(c.out, emptyTile done t.h.origin t.h.user)]) ++
                (if done ∧ c.outB ≠ noneStream then [(c.outB, emptyTile true 0 0)] else [])
              closing := done }
            setBody core ctx (b.settle 2) s

/-- STAGE (R179). -/
def execStage (core : Fin 16) (ctx : Fin 8) (s : State) := complete (barrowStage core ctx) s

end Sys2Proof.Machine
end

