-- ==== Sys2Proof/Machine/Group.lean ====
section
/-! DEFINITION. Commit groups (R68, R81, R181, R278): the lines that one writes are made ready and free of other holders, its records
enter consecutive slots, and its writes become visible together with its GROUP_COMMIT. Jobs and harvests use it. -/

namespace Sys2Proof.Machine

open Sys2Proof

/-! ### The lines of a group -/

/-- Lines of the view that a write of the group covers. -/
def GrpWrite.lines (w : GrpWrite) : List Nat := if w.coded.isSome then (List.range 32).map (w.line + ·) else [w.line]

/-- Nothing else holds a line: no open group, no tentative record, no live cutting (R285), no coherent holder (R133); what does is asked
to let go. -/
def lineClear (line : Nat) (s : State) : Bool × State :=
  if groupHolds s line || (heldBy s line).isSome then (false, s)
  else if !(cutsOn s line).isEmpty then (false, dropCuts line s)
  else if !isCoherent s line then (true, s)
  else
    let s := resolveLost line s
    if busyLine s line || (s.coh.tabled && s.coh.queue.any (·.line == line)) then (false, s)
    else if (dirGet s line).presence = 0 then (true, s)
    else if stakeOpen s line || lineTableFull s line then (false, s)
    else (false, startTxn line .bi .home .inv (dirGet s line).holders s)

/-- Lines of a segment that its coded blocks use, and the first line of each frame (R244). -/
def segLines (s : State) (line : Nat) : List Nat × List Nat :=
  let sb := segBase line
  let es := if lineReady s sb then idxLine (lineBytes s sb) else []
  (sb :: (es.filter (·.kind == 1)).flatMap (fun e => (List.range ((e.off + e.len - 1) / 4 - e.off / 4 + 1)).map (sb + e.off / 4 + ·)),
    (List.range 8).map fun i => sb + 128 * i)

/-- A write can be placed without waiting for the tier. -/
def placeReady (w : GrpWrite) (s : State) : Bool × State :=
  match w.coded with
  | none => if w.whole then readyFull w.line s else (let (x, s) := needLine w.line s; (x.isNone, s))
  | some _ =>
    if w.line % 2 ^ 23 < 8192 then readyFull w.line s
    else
      let (x, s) := needLine (segBase w.line) s
      if x.isSome then (false, s)
      else
        let (used, heads) := segLines s w.line
        let (x, s) := needLines used s
        let (y, s) := readySpan (fun _ => false) heads s
        (x.isNone && y.isNone, s)

/-- Every write of a group can go on. -/
def groupReady (ws : List GrpWrite) (s : State) : Bool × State :=
  ws.foldl (fun (x : Bool × State) w =>
    let (ok, s) := w.lines.foldl (fun (y : Bool × State) l => (let (c, s) := lineClear l y.2; (y.1 && c, s))) (true, x.2)
    let (r, s) := placeReady w s
    (x.1 && ok && r, s)) (true, s)

/-- Slots for a group that is not open yet (Table 04-4), and no late mirror to a buddy of its extents (R75). -/
def groupSlots (ws : List GrpWrite) (s : State) : Bool :=
  slotOk s .write && ws.all fun w => !pairBlocked s (extOfLine w.line)

/-! ### Records and effect -/

/-- The record of a write of a group (R181 step 2). -/
def grpRec (s : State) (iid : BitVec 16) (w : GrpWrite) : JRec :=
  let rc : JRec := { grp := true, gsa := gsaOfLine s w.line, iid := iid, inc := (extDesc s (extOfLine w.line)).inc }
  match w.coded with
  | some bs => { rc with body := .coded bs }
  | none => { rc with sectors := 15, poison := !w.whole && linePoison s w.line, body := .data w.data }

/-- One record of a group takes its slot, and its mirror is sent on a PAIRED extent. -/
def groupRecord (e : Nat) (rc : JRec) (s : State) : Nat × State :=
  let n := s.jrn.nextJsn
  let s := journal rc (notePairLost e s)
  (n, match mirrorTo s e with | some b => sendMirror b { rc with jsn := n } s | none => s)

/-- The records of a group, in order (R68). -/
def groupEnter (iid : BitVec 16) (ws : List GrpWrite) (s : State) : List Nat × State :=
  ws.foldl (fun (x : List Nat × State) w => (let (n, s) := groupRecord (extOfLine w.line) (grpRec x.2 iid w) x.2; (x.1 ++ [n], s))) ([], s)

/-- Every mirrored record of the group has been confirmed. -/
def groupConfirmed (ns : List Nat) (s : State) : Bool := ns.all fun n => !unconfirmed s n

/-- A write of the group reaches the tier. -/
def grpPlace (w : GrpWrite) (s : State) : State :=
  match w.coded with
  | some bs => (placeBlock w.line bs s).2
  | none =>
    let p := !w.whole && linePoison s w.line
    let s := storeLine w.line (BitVec.allOnes 128) (bytesOfLine w.data) s
    let s := if p then modTag (w.line / 128) (fun t => { t with poison := t.poison ||| lineBit w.line }) s else s
    touchLine w.line (mirrorPoison w.line s)

/-- GROUP_COMMIT enters its slot, also at the buddies of the group, and the writes become visible at once (R68). -/
def groupClose (iid : BitVec 16) (ns : List Nat) (ws : List GrpWrite) (s : State) : State :=
  let rc : JRec := { grp := true, iid := iid, body := .groupCommit (ns.headD s.jrn.nextJsn) ns.length }
  let n := s.jrn.nextJsn
  let bs := ((ws.map fun w => mirrorTo s (extOfLine w.line)).filterMap id).dedup
  let s := journal rc s
  let s := bs.foldl (fun s b => sendMirror b { rc with jsn := n } s) s
  ws.foldl (fun s w => grpPlace w s) s

end Sys2Proof.Machine
end

