-- ==== Sys2Proof/Machine/Ports.lean ====
section
/-! DEFINITION. The PORT station: requests to GLEAN and SOW (R169, R268, R269, Tables 12-4 and 12-5) and to PRUNE (R297, R301, Tables
13-1, 13-5 and 13-6), and the accesses of the shared units. -/

namespace Sys2Proof.Machine

open Sys2Proof

/-! ### Table versions and indexes by handle -/

/-- The live version of a handle (R268). -/
def liveTable (s : State) (h : Nat) : Option TableVer := s.emb.tables.find? fun t => t.live && t.handle == h

/-- A version of a handle, live or still bound. -/
def tableVer (s : State) (h : Nat) (v : BitVec 16) : Option TableVer := s.emb.tables.find? fun t => t.handle == h && t.version == v

/-- A version is held while it is live or a request or a staged add is bound to it (R268). -/
def dropVersions (s : State) : State :=
  let bound (t : TableVer) : Bool :=
    (s.emb.queues.any fun q => fld (wordAt q.2.hdr 0) 39 28 == t.handle && q.2.version == t.version) ||
      (s.emb.chunks.any fun c => c.handle == t.handle && c.version == t.version) ||
      s.nmc.jobs.any fun j => j.2.b.sow.any fun c => c.handle == t.handle && c.version == t.version
  s.modEmb fun e => { e with tables := e.tables.filter fun t => t.live || bound t }

/-! ### Index descriptors (Table 13-1) -/

def Index.m (x : Index) : Nat := fld (wordAt x.words 0) 47 41 + 1
def Index.r (x : Index) : Nat := 16 * 2 ^ fld (wordAt x.words 0) 40 39
def Index.n (x : Index) : Nat := fld (wordAt x.words 0) 31 0 + 1
def Index.codeStride (x : Index) : Nat := Nat.max 16 (pow2Up x.m)
def Index.listStride (x : Index) : Nat := 4 * x.r
def Index.codeAt (x : Index) (i : Nat) : Word := wordAt x.words 1 + BitVec.ofNat 64 (i * x.codeStride)
def Index.stateAt (x : Index) (i : Nat) : Word := wordAt x.words 2 + BitVec.ofNat 64 (16 * i)
def Index.listAt (x : Index) (i : Nat) (slotB : Bool) : Word := wordAt x.words 3 + BitVec.ofNat 64 ((2 * i + bit01 slotB) * x.listStride)
def Index.hdr (x : Index) : Word := wordAt x.words 4
def Index.idBase (x : Index) : BitVec 32 := (wordAt x.words 5).extractLsb' 32 32

def indexOf (s : State) (h : Nat) : Option Index := s.prn.idx.find? (·.handle == h)

/-- The header line as the store holds it (Table 13-2): its words. -/
def hdrWords (s : State) (x : Index) : List Word := wordsOfBytes 16 (bytesOfLine (storedLine s (lineOf (addr s x.hdr))))

def hdrGen (ws : List Word) : BitVec 32 := (wordAt ws 0).extractLsb' 32 32

/-- Pinned generations; zero when unused. -/
def hdrPins (ws : List Word) : List (BitVec 32) :=
  (List.range 4).map fun i => BitVec.ofNat 32 (fld (wordAt ws (6 + i / 2)) (32 * (i % 2) + 31) (32 * (i % 2)))

/-! ### The accesses of a shared unit -/

def unitIo (s : State) (u : Nat) : UnitIo := Tab.get {} s.nmc.units u

def modUnit (u : Nat) (f : UnitIo → UnitIo) (s : State) : State := s.modNmc fun n => { n with units := Tab.upd {} u f n.units }

/-- The job on whose behalf an instance works on a request: the one that waits for its reply. -/
def unitJob (s : State) (u : Fin 16) (who : Nat) : Option Job :=
  (s.nmc.jobs.find? fun x => x.2.b.ports.any fun p => p.unit == u.val / 4 && p.seq == who).map (·.2)

/-- Send an access of a unit's instance; it belongs to the job that it works for (R29). -/
def sendUnit (u : Fin 16) (a : Access) (s : State) : State :=
  let r := { a.req with
    ing := .unitOf u, tag := BitVec.ofNat 16 a.id, src := ownFdn s, multi := (unitJob s u a.who).map fun j => 2 * j.no + 1 }
  match routeFor s (fdnOf r.gsa) with
  | .inl st => unitAnswered u.val a.id st 0 [] s
  | .inr f =>
    if isHere s f then arrive (kindOfOp r.op) { r with inc := (extDesc s (extOf (addr s r.gsa))).inc } s
    else (sendReq (.unitRead u.val a.id) r s).2

/-- The answer an instance already has, if any. -/
def unitRx (s : State) (u who : Nat) (g : Word) : Option Rx := (unitIo s u).rx.find? fun x => x.who == who && decide (x.key = .gsa g)

/-- Read a line for a request of an instance, under an IID: the answer if it is there; otherwise the LOAD is issued unless it is
outstanding. -/
def unitAskReq (u : Fin 16) (who : Nat) (r : Req) (g : Word) (s : State) : Option Rx × State :=
  match unitRx s u.val who g with
  | some x => (some x, s)
  | none =>
    if (unitIo s u.val).reads.any (fun a => a.who == who && decide (a.key = .gsa g)) then (none, s)
    else
      let id := s.nmc.nextRead
      let a : Access := { id := id, who := who, key := .gsa g, req := { r with gsa := g } }
      let s := modUnit u.val (fun i => { i with reads := i.reads ++ [a] }) (s.modNmc fun n => { n with nextRead := (id + 1) % 65536 })
      let s := sendUnit u a s
      (unitRx s u.val who g, s)

/-- A unit reads a line. -/
def unitAsk (u : Fin 16) (who : Nat) (iid : BitVec 16) (g : Word) (s : State) : Option Rx × State :=
  unitAskReq u who { op := 0x01, iid := iid } g s

/-- Retry a unit's accesses to an address whose hint has passed (R171, R302). -/
def retryUnit (u : Fin 16) (g : Word) (s : State) : State :=
  ((unitIo s u.val).reads.filter fun a => decide (a.key = .gsa g) && a.retryAt.isSome).foldl (fun s a =>
    sendUnit u a (modUnit u.val (fun i => { i with
      reads := i.reads.map fun x => if x.id = a.id then { x with retryAt := none } else x }) (reach (a.retryAt.getD 0) s))) s

/-! ### Replies -/

def unitGlean : Nat := 0
def unitSow : Nat := 1
def unitPrune : Nat := 2

/-- A status tile of 32 bytes (Tables 12-5 and 13-6). -/
def statusTile (ws : List Word) (user : BitVec 32) : Tile := byteTile (bytesOfWords ws) 0 user

/-- The status tile of a GLEAN or SOW request (Table 12-5). -/
def EmbReq.statusTile (q : EmbReq) (st : Status) : Tile :=
  Machine.statusTile [put 59 (stCode st) ||| put 32 q.version.toNat ||| put 0 q.done,
    put 32 q.invalid ||| put 0 q.missing, put 32 q.fetched ||| put 0 q.sat, 0] q.user

/-- The status tile of a PRUNE request (Table 13-6). -/
def prnStatus (st : Status) (gen : BitVec 32) (examined passed hops extra nan skipped : Nat) (user : BitVec 32) : Tile :=
  Machine.statusTile [put 59 (stCode st) ||| gen.setWidth 64, put 32 examined ||| put 0 passed, put 32 hops ||| put 0 extra,
    put 32 nan ||| put 0 skipped] user

/-! ### Requests to GLEAN and SOW -/

def embOp (h : List Word) : Nat := fld (wordAt h 0) 63 56
def embHandle (h : List Word) : Nat := fld (wordAt h 0) 39 28
def embN (h : List Word) : Nat := fld (wordAt h 0) 8 0
def embPad : Word := 0xFFFFFFFFFFFFFFFF

/-- Does a request tile keep to Table 12-4 (R269)? `sow` tells the unit. Its reserved bits are ignored (R6). -/
def embOk (sow : Bool) (bytes : Nat) (ws : List Word) : Bool :=
  let w := wordAt ws 0
  let op := embOp ws
  let n := embN ws
  let harvest := sow && op == 2
  let bag := !sow && op == 2
  let es := (ws.drop 4).take n
  decide (op = 1 ∨ op = 2) &&
    (if bag then fld w 55 54 != 3 else fld w 55 54 == 0) &&
    (if sow && op == 1 then decide (1 ≤ fld w 47 40 ∧ fld w 47 40 ≤ 3) else fld w 47 40 == 0) &&
    (if harvest then decide (n = 0 ∧ 1 ≤ fld (wordAt ws 2) 40 0 ∧ fld (wordAt ws 2) 40 0 ≤ 2 ^ 20)
     else decide (1 ≤ n ∧ n ≤ 508 ∧ 32 + 8 * n ≤ bytes) && fld (wordAt ws 1) 40 0 == 0 && fld (wordAt ws 2) 40 0 == 0) &&
    (!bag || (match es.find? (· != embPad) with | some e => bitOf e 63 | none => true))

/-- Instance of GLEAN or SOW with the shortest queue (R169); SOW's instances are 4 to 7. -/
def shortest (s : State) (sow : Bool) : Nat :=
  let len (i : Nat) : Nat := (s.emb.queues.filter (·.1 == i)).length
  let b := if sow then 4 else 0
  [b + 1, b + 2, b + 3].foldl (fun m i => if len i < len m then i else m) b

/-- Requests of a core to a kind of unit that are not yet wholly replied to: at most 64 (Table 08-1). -/
def portsOut (s : State) (core : Fin 16) (unit : Nat) : Nat :=
  (s.nmc.jobs.map fun e => if e.1 / 8 = core.val then (e.2.b.ports.filter fun p => p.unit == unit && p.seq != 0).length else 0).sum

/-! ### One step of PORT -/

/-- What PORT makes of a request tile and its second input: it waits, ends the job, takes more of its second input, or sends. -/
inductive Sent where
  | wait
  | bad (cause : Nat) (st : Status) (whereAt : Word)
  | more (b : Body)
  | sent (b : Body) (s : State)

/-- After a request tile: it is consumed; at the command's end, LAST follows the replies on every output (R171). -/
def portNext (c : Cmd) (stn : Station) (t : Tile) (b : Body) : Body :=
  let done := if c.count = 0 then t.h.last else decide (c.count ≤ stn.consumed + 1)
  let b := b.take c.inA
  let b := b.setStation 6 fun x => { x with consumed := x.consumed + 1, carry := { x.carry with bytes := [] } }
  let b := if done then ({ b with ports := b.ports ++ c.outputs.map fun k => ({ unit := c.cmd - 1, reply := k, tiles := some [emptyTile true 0 0] } : PortReq) }).nextCmd 6
    else b
  drainPort 4096 b

/-- One request of PORT (R169). `send` has the request's context, its body and its command. -/
def portStep (code : Nat) (core : Fin 16) (ctx : Fin 8) (send : Job → Cmd → Station → Tile → Body → State → Sent) (s : State) : State :=
  let k := jobKey core ctx
  match jobAt s k with
  | none => s
  | some j =>
    if j.phase ≠ .ready ∨ ownerCtx s core.val ≠ some ctx.val then s
    else
      match (j.b.station 6).cur with
      | none => s
      | some c =>
        if c.cmd ≠ code then s
        else
          match j.b.next c.inA with
          | none => s
          | some t =>
            if t.h.empty then setBody core ctx (portNext c (j.b.station 6) t j.b) s
            else if 64 ≤ portsOut s core (code - 1) then s
            else
              match send j c (j.b.station 6) t j.b s with
              | .wait => s
              | .bad cause st w => endJob core ctx cause st w s
              | .more b => setBody core ctx b s
              | .sent b s => setBody core ctx (portNext c (b.station 6) t b) s

/-- The words of a request tile. -/
def Tile.words (t : Tile) : List Word := wordsOfBytes 512 t.data

/-- A GLEAN request, or a SOW request whose deltas are there, enters its instance's queue, bound to the live version of its handle
(R268, R269). A handle that is not live is answered at once. -/
def embSend (sow : Bool) (core : Fin 16) (ctx : Fin 8) (c : Cmd) (t : Tile) (deltas : List (List (BitVec 32))) (b : Body) (s : State) : Body × State :=
  let seq := s.emb.nextSeq + 1
  let s := s.modEmb fun e => { e with nextSeq := seq }
  let ws := t.words
  let q : EmbReq := { sow := sow, core := core, ctx := ctx, reply := c.out, hdr := ws.take 4, entries := (ws.drop 4).take (embN ws)
                      deltas := deltas, user := t.h.user, seq := seq }
  let p : PortReq := { unit := if sow then unitSow else unitGlean, seq := seq, reply := c.out }
  match liveTable s (embHandle ws) with
  | none => ({ b with ports := b.ports ++ [{ p with tiles := some [q.statusTile .noExtent] }] }, s)
  | some v =>
    ({ b with ports := b.ports ++ [p] },
      s.modEmb fun e => { e with queues := e.queues ++ [(shortest s sow, { q with version := v.version })] })

def gleanSend (core : Fin 16) (ctx : Fin 8) (_ : Job) (c : Cmd) (_ : Station) (t : Tile) (b : Body) (s : State) : Sent :=
  if !embOk false t.h.bytes t.words then .bad 7 .malformed 0
  else (let (b, s) := embSend false core ctx c t [] b s; .sent b s)

/-- PORT_GLEAN (R169). -/
def execPortGlean (core : Fin 16) (ctx : Fin 8) (s : State) := complete (portStep 1 core ctx (gleanSend core ctx)) s

/-- Bytes of a delta element. -/
def deltaBytes (dfmt : Nat) : Nat := if dfmt = 1 then 4 else 2

/-- Delta rows as FP32 values. -/
def deltaRows (dfmt e n : Nat) (bs : List Byte) : List (List (BitVec 32)) :=
  let w := deltaBytes dfmt
  (List.range n).map fun i => (List.range e).map fun j =>
    encF32 (floatElem dfmt (natOfBytes ((bs.drop ((i * e + j) * w)).take w)))

/-- A SOW request: an ADD takes one delta row for each entry from in_b, a tile at a time. The carry holds the delta bytes so far and,
in `n`, the bytes used of the tile at the head of in_b (R273). -/
def sowSend (core : Fin 16) (ctx : Fin 8) (_ : Job) (c : Cmd) (stn : Station) (t : Tile) (b : Body) (s : State) : Sent :=
  let ws := t.words
  if !embOk true t.h.bytes ws then .bad 7 .malformed 0
  else if embOp ws = 2 then (let (b, s) := embSend true core ctx c t [] b s; .sent b s)
  else
    match liveTable s (embHandle ws) with
    | none => (let (b, s) := embSend true core ctx c t [] b s; .sent b s)
    | some v =>
      let dfmt := fld (wordAt ws 0) 47 40
      let row := v.e * deltaBytes dfmt
      let want := embN ws * row
      let k := stn.carry
      if want ≤ k.bytes.length then
        (let (b, s) := embSend true core ctx c t (deltaRows dfmt v.e (embN ws) k.bytes) b s; .sent b s)
      else if c.inB = noneStream then .bad 7 .malformed 0
      else
        match b.next c.inB with
        | none => .wait
        | some d =>
          let usable := if row ≤ 4096 then d.h.bytes / row * row else d.h.bytes
          let m := Nat.min (want - k.bytes.length) (usable - k.n)
          let b := if usable ≤ k.n + m then b.take c.inB else b
          let n := if usable ≤ k.n + m then 0 else k.n + m
          .more (b.setStation 6 fun x => { x with carry := { x.carry with bytes := k.bytes ++ (d.data.drop k.n).take m, n := n } })
/-- PORT_SOW (R169). -/
def execPortSow (core : Fin 16) (ctx : Fin 8) (s : State) := complete (portStep 2 core ctx (sowSend core ctx)) s

/-! ### Requests to PRUNE (Table 13-5, R308) -/

def prnOp (h : List Word) : Nat := fld (wordAt h 0) 63 56
def prnHandle (h : List Word) : Nat := fld (wordAt h 0) 55 46
def prnK (h : List Word) : Nat := fld (wordAt h 0) 45 35
def prnL (h : List Word) : Nat := fld (wordAt h 0) 34 24
def prnNrev (h : List Word) : Nat := fld (wordAt h 0) 17 10
def prnN (h : List Word) : Nat := fld (wordAt h 0) 9 0
def prnGen (h : List Word) : BitVec 32 := (wordAt h 1).extractLsb' 32 32
def prnHops (h : List Word) : Nat := fld (wordAt h 1) 29 16
def prnExpand (h : List Word) : Nat := fld (wordAt h 1) 13 0
def prnFilter (h : List Word) : Word := wordAt h 2
def prnHi (h : List Word) : Nat := fld (wordAt h 3) 63 32
def prnLo (h : List Word) : Nat := fld (wordAt h 3) 31 0

/-- A header that keeps to Table 13-5; its reserved bits are ignored (R6). -/
def prnOk (h : List Word) : Bool :=
  let op := prnOp h
  let find := op == 1 || op == 2
  decide (1 ≤ op ∧ op ≤ 5) &&
    (!find || decide (1 ≤ prnK h ∧ prnK h ≤ 1024 ∧ prnLo h ≤ prnHi h ∧ (prnFilter h).toNat % 8 = 0)) &&
    (op != 1 || decide (prnK h ≤ prnL h ∧ prnL h ≤ 1024 ∧ 1 ≤ prnHops h ∧ prnHops h + prnExpand h ≤ 8192)) &&
    (op == 3 || prnNrev h == 0) &&
    (if op = 4 then decide (1 ≤ prnN h ∧ prnN h ≤ 1008) else if op = 5 then decide (1 ≤ prnN h ∧ prnN h ≤ 4) else prnN h == 0)

def u32At (bs : List Byte) (i : Nat) : Nat := natOfBytes ((bs.drop i).take 4)

/-- The operation of an INSERT, DELETE or ENTRY payload; none where it breaks R308. -/
def prnParse (x : Index) (h : List Word) (bs : List Byte) : Option PrnOp :=
  let codeLen := 8 * ceilDiv x.m 8
  let none_ := 2 ^ 32 - 1
  match prnOp h with
  | 3 =>
    let id := u32At bs 0
    let fwd := (List.range x.r).map fun i => u32At bs (4 + codeLen + 4 * i)
    let rev := (List.range (prnNrev h)).map fun i => wordAtByte bs (4 + codeLen + 4 * x.r + 8 * i)
    if x.r < prnNrev h ∨ bs.length < 4 + codeLen + 4 * x.r + 8 * prnNrev h ∨ x.n ≤ id ∨ (fwd.any fun i => i != none_ && decide (x.n ≤ i)) ∨
        (rev.any fun w => decide (x.r ≤ fld w 5 0) || decide (x.n ≤ fld w 63 32)) then none
    else some (.insert x.handle id ((bs.drop 4).take x.m) (fwd.map (BitVec.ofNat 32 ·)) (rev.map fun w => (fld w 63 32, fld w 5 0)))
  | 4 =>
    let ids := (List.range (prnN h)).map fun i => u32At bs (4 * i)
    if bs.length < 4 * prnN h ∨ ids.any (fun i => decide (x.n ≤ i)) then none else some (.delete x.handle ids)
  | 5 =>
    let ids := (List.range (prnN h)).map fun i => u32At bs (4 * i)
    if bs.length < 4 * prnN h ∨ ids.any (fun i => decide (x.n ≤ i)) then none else some (.entry x.handle (ids.map (BitVec.ofNat 32 ·)))
  | _ => some (.delete x.handle [])

/-- The generation a request binds to (R297); none for a value that is neither the current nor a pinned one. -/
def bindGen (s : State) (x : Index) (g : BitVec 32) : Option (BitVec 32) :=
  let ws := hdrWords s x
  if g = 0 then some (hdrGen ws) else if g = hdrGen ws ∨ (hdrPins ws).contains g then some g else none

/-- A PRUNE request enters the queue of its index's instance, bound to a generation (R169, R297, R301). SEARCH and SCAN take their
distance table from in_b, ceil(M / 8) tiles; the carry holds its bytes and, in `n`, the tiles taken. -/
def prnSend (core : Fin 16) (ctx : Fin 8) (_ : Job) (c : Cmd) (stn : Station) (t : Tile) (b : Body) (s : State) : Sent :=
  let ws := t.words
  let h := ws.take 8
  let find := prnOp h == 1 || prnOp h == 2
  let seq := s.prn.nextSeq + 1
  let refuse (st : Status) : Sent :=
    .sent { b with ports := b.ports ++ [{ unit := unitPrune, seq := seq, reply := c.out, tiles := some [prnStatus st 0 0 0 0 0 0 0 t.h.user] }] }
      (s.modPrn fun p => { p with nextSeq := seq })
  if t.h.bytes < 64 ∨ !prnOk h then .bad 7 .malformed 0
  else
    match indexOf s (prnHandle h) with
    | none => refuse .noExtent
    | some x =>
      if (prnParse x h (t.data.drop 64)).isNone then .bad 7 .malformed 0
      else if find ∧ stn.carry.n < ceilDiv x.m 8 then
        if c.inB = noneStream then .bad 7 .malformed 0
        else
          match b.next c.inB with
          | none => .wait
          | some d =>
            .more ((b.take c.inB).setStation 6 fun y => { y with
              carry := { y.carry with bytes := y.carry.bytes ++ d.data, n := y.carry.n + 1 } })
      else if find ∧ stn.carry.bytes.length < 512 * x.m then .bad 7 .malformed 0
      else
        let b := b.setStation 6 fun y => { y with carry := { y.carry with n := 0 } }
        let q : PrnReq := {
          inst := x.inst, idx := x, core := core, ctx := ctx, reply := c.out, words := h, body := t.data.drop 64, user := t.h.user, seq := seq
          table := if find then (List.range (256 * x.m)).map fun i => BitVec.ofNat 16 (natOfBytes ((stn.carry.bytes.drop (2 * i)).take 2)) else [] }
        let go (g : BitVec 32) : Sent :=
          .sent { b with ports := b.ports ++ [{ unit := unitPrune, seq := seq, reply := c.out }] }
            (s.modPrn fun p => { p with nextSeq := seq, queue := p.queue ++ [{ q with gen := g }] })
        if !find then go 0
        else
          match bindGen s x (prnGen h) with
          | some g => go g
          | none => refuse .noExtent

/-- PORT_PRUNE (R169). -/
def execPortPrune (core : Fin 16) (ctx : Fin 8) (s : State) := complete (portStep 3 core ctx (prnSend core ctx)) s

end Sys2Proof.Machine
end

