-- ==== Sys2Proof/Machine/Glean.lean ====
section
/-! DEFINITION. GLEAN and SOW: GATHER and BAG with their de-duplication windows (R270-R272, R282-R284, R288, R289), SOW ADD and HARVEST
(R273-R281). -/

namespace Sys2Proof.Machine

open Sys2Proof

/-! ### The head of a queue -/

def isDead (q : EmbReq) : Bool := q.dead

/-- The first live request of an instance; requests of killed jobs are dropped. -/
def embHead (s : State) (i : Nat) : Option EmbReq := (s.emb.queues.find? fun q => q.1 == i && !isDead q.2).map (·.2)

def embDrop (seq : Nat) (s : State) : State := dropVersions (s.modEmb fun e => { e with
  queues := e.queues.filter fun q => !(q.2.seq == seq) && !isDead q.2 })

def modEmbReq (seq : Nat) (f : EmbReq → EmbReq) (s : State) : State :=
  s.modEmb fun e => { e with queues := e.queues.map fun q => if q.2.seq = seq then (q.1, f q.2) else q }

def EmbReq.key (q : EmbReq) : Nat := jobKey q.core q.ctx
def EmbReq.iid (s : State) (q : EmbReq) : BitVec 16 := ((jobAt s q.key).map (·.iid)).getD 0
def EmbReq.handle (q : EmbReq) : Nat := embHandle q.hdr

/-- A request ends with its reply. -/
def embReply (q : EmbReq) (ts : List Tile) (s : State) : State :=
  portReply q.key (if q.sow then unitSow else unitGlean) q.seq ts (embDrop q.seq s)

/-- A request ends its job (R289). -/
def embFail (q : EmbReq) (st : Status) (w : Word) (s : State) : State := failJob q.core q.ctx st w (embDrop q.seq s)

/-! ### Rows that GLEAN reads -/

/-- A cutting of the row that may still be served: the time base is at least 100 ns before its lease end (R284). -/
def heldCut (s : State) (h row : Nat) : Option HeldCut :=
  s.emb.held.find? fun c => c.handle == h && c.row == row && decide (now s + 100 ≤ c.lease)

/-- Count a read of a row that is sent to another device, and ask for a cutting where the row is hot (R284). -/
def noteRemote (v : TableVer) (row : Nat) (home : BitVec 16) (s : State) : State :=
  let key := v.handle * 2 ^ 40 + row
  let n := match s.emb.remote.find? (·.1 == key) with
    | some (_, n, since) => if now s < since + 10000000 then (n + 1, since) else (1, now s)
    | none => (1, now s)
  let s := s.modEmb fun e => { e with remote := (e.remote.filter (·.1 != key)) ++ [(key, n.1, n.2)] }
  if v.cutOk ∧ bitOf (regGet s (Off.gln + 0x340)) 0 ∧ n.1 = (regGet s (Off.gln + 0x300)).toNat + 1 ∧ (heldCut s v.handle row).isNone then
    emit (.cutRequest home v.handle row) (track (.cutting v.handle row) 0 home 0 s).2
  else s

/-- What a read of a row found. -/
inductive RowGot where
  | row (bs : List Byte) (poison : Bool)
  | wait
  | bad (st : Status) (g : Word)
  deriving DecidableEq, Repr

/-- The lines of a row. -/
def rowLinesGot (u : Fin 16) (who : Nat) (iid : BitVec 16) : List Word → State → RowGot × State
  | [], s => (.row [] false, s)
  | g :: gs, s =>
    let (x, s) := unitAsk u who iid g s
    let (r, s) := rowLinesGot u who iid gs s
    match x, r with
    | some x, r =>
      if x.st = .ok then
        (match r with | .row bs p => (.row (x.data ++ bs) p, s) | r => (r, s))
      else if x.st = .poison then
        (match r with | .row bs _ => (.row (bytesOfLine (Config.freeLine s.free) ++ bs) true, s.draw) | r => (r, s))
      else (.bad x.st g, s)
    | none, .bad st g => (.bad st g, s)
    | none, _ => (.wait, s)

/-- The address of a row for GLEAN: after a REVOKED answer, that of the live version where it names another home; while a transplant
of this device moves the extent, the request waits for that version (R288). -/
def gleanAt (s : State) (u who : Nat) (v : TableVer) (row : Nat) : RowGot ⊕ Word :=
  match v.rowAt row with
  | none => .inl .wait
  | some g =>
    let hit := (v.rowLines g).any fun l => match unitRx s u who l with | some x => x.st == .revoked | none => false
    if !hit then .inr g
    else
      match (liveTable s v.handle).bind fun w => w.rowAt row with
      | some g' => if g' ≠ g then .inr g' else
        (match s.emb.xplant with
         | some x => if x.handle = v.handle ∧ x.shard = v.shardOf row then .inl .wait else .inl (.bad .revoked g)
         | none => .inl (.bad .revoked g))
      | none => .inl (.bad .revoked g)

/-- Read a row for a request (R272, R284). -/
def gleanRow (u : Fin 16) (iid : BitVec 16) (v : TableVer) (row : Nat) (s : State) : RowGot × State :=
  match heldCut s v.handle row with
  | some c => (.row ((c.lines.flatMap bytesOfLine).take v.rowBytes) false, s)
  | none =>
    match gleanAt s u.val iid.toNat v row with
    | .inl r => (r, s)
    | .inr g =>
      let ls := v.rowLines g
      let known := ls.all fun l => (unitRx s u.val iid.toNat l).isSome ||
        (unitIo s u.val).reads.any (fun a => a.who == iid.toNat && decide (a.key = .gsa l))
      let s := if known || isHere s (fdnOf g) then s else noteRemote v row (fdnOf g) s
      let (r, s) := rowLinesGot u iid.toNat iid ls s
      match r with
      | .row bs p => (.row ((bs.drop (if v.stride < 128 then offOf g % 128 else 0)).take v.rowBytes) p, s)
      | r => (r, s)

/-! ### GATHER and BAG (R270, R271) -/

/-- The rows of a request as tiles of the reply: `w` bytes a row, elements of `es` bytes. -/
def rowTiles (fmt es w : Nat) (user : BitVec 32) : Nat → List (Word × List Byte × Bool) → List Tile
  | 0, _ => []
  | n + 1, rows =>
    match rows with
    | [] => []
    | (o, bs, p) :: _ =>
      let flag (t : Tile) (p : Bool) : Tile := { t with h := { t.h with poison := p } }
      if 4096 < w then
        ((List.range (ceilDiv w 4096)).map fun i =>
          (let part := (bs.drop (4096 * i)).take 4096; flag (mkTile fmt 1 (part.length / es) part.length part o user) p)) ++
          rowTiles fmt es w user n (rows.drop 1)
      else
        let k := 4096 / Nat.max 1 w
        let part := rows.take k
        flag (mkTile fmt part.length (w / es) w (part.flatMap (·.2.1)) o user) (part.any (·.2.2)) :: rowTiles fmt es w user n (rows.drop k)

/-- One FP32 element of a bag row from the patterns of its contributing elements (R270). -/
def poolElem (fmt pool : Nat) (l : List Nat) : BitVec 32 :=
  let xs := l.map (floatElem fmt)
  if l.isEmpty then 0
  else if pool = 0 then encF32 (exactSum xs)
  else if pool = 1 then encF32 (divNum (exactSum xs) (.fin false l.length 0))
  else (xs.map encF32).foldl laneMaxPat ((xs.map encF32).headD 0)
where
  /-- maximumNumber of two patterns (R96). -/
  laneMaxPat (x y : BitVec 32) : BitVec 32 := (laneMax x y).1

/-- A closed bag as an output row. -/
def bagRow (v : TableVer) (pool no : Nat) (rows : List (List Byte × Bool)) : Word × List Byte × Bool :=
  (BitVec.ofNat 64 no,
   (List.range v.e).flatMap (fun j => bytesOfNat 4 (poolElem v.fmt pool (rows.map fun r => natOfBytes ((r.1.drop (j * v.es)).take v.es))).toNat),
   rows.any (·.2))

/-- What an entry names: a pad, an invalid or a missing index, or a row (R282). -/
inductive EntryKind where
  | pad | invalid | missing | row (r : Nat)
  deriving DecidableEq, Repr

def entryKind (v : TableVer) (e : Word) : EntryKind :=
  let r := fld e 39 0
  if e = embPad then .pad
  else if v.rows ≤ r then .invalid
  else if (v.entry (v.shardOf r)).1 = 0 then .missing
  else .row r

/-- An entry has its data: its output row, or its part in the open bag. -/
def gleanEntry (v : TableVer) (bag : Bool) (pool : Nat) (e : Word) (data : Option (List Byte × Bool)) (q : EmbReq) : EmbReq :=
  let k := entryKind v e
  let q := { q with
    pos := q.pos + 1, invalid := if k = EntryKind.invalid then q.invalid + 1 else q.invalid
    missing := if k = EntryKind.missing then q.missing + 1 else q.missing }
  if bag then
    let starts := e != embPad && bitOf e 63
    let q := if starts ∧ 0 < q.done then { q with rows := q.rows ++ [bagRow v pool (q.done - 1) q.bag], bag := [] } else q
    let q := if starts then { q with done := q.done + 1 } else q
    { q with bag := match data with | some d => q.bag ++ [d] | none => q.bag }
  else
    let d := data.getD (List.replicate v.rowBytes 0, false)
    { q with rows := q.rows ++ [(BitVec.ofNat 64 (fld e 39 0), d.1, d.2)], done := q.done + 1 }

/-- Read the rows of some entries, in order: what to wait for or what ended the request, otherwise each entry's data. -/
def gleanRows (u : Fin 16) (iid : BitVec 16) (v : TableVer) : List Word → State → (RowGot ⊕ List (Option (List Byte × Bool))) × State
  | [], s => (.inr [], s)
  | e :: es, s =>
    let (r, s) : (RowGot ⊕ Option (List Byte × Bool)) × State := match entryKind v e with
      | .row n => (let (g, s) := gleanRow u iid v n s; (match g with | .row bs p => .inr (some (bs, p)) | g => .inl g, s))
      | _ => (.inr none, s)
    let (rs, s) := gleanRows u iid v es s
    match r, rs with
    | .inl (.bad st g), _ => (.inl (.bad st g), s)
    | _, .inl (.bad st g) => (.inl (.bad st g), s)
    | .inl g, _ => (.inl g, s)
    | _, .inl g => (.inl g, s)
    | .inr d, .inr ds => (.inr (d :: ds), s)

/-- The window an instance takes a request's next entries into: a full one, and one of another handle or version, is closed and its
data with it (R272). -/
def openWin (i : Nat) (q : EmbReq) (s : State) : Win × State :=
  let w := Tab.get {} s.emb.wins i
  if w.n < 4096 ∧ w.handle = q.handle ∧ w.version = q.version ∧ w ≠ {} then (w, s)
  else
    let w : Win := { handle := q.handle, version := q.version }
    (w, modUnit i (fun x => { x with rx := [] }) (s.modEmb fun e => { e with wins := Tab.put {} i w e.wins }))

/-- An instance has taken some entries of its first request into its window `w`, with their data: the counters and the window, which
closes when it is full or nothing else that fits it waits (R272). -/
def gleanTake (bag : Bool) (i : Nat) (q : EmbReq) (v : TableVer) (w : Win) (es : List Word) (ds : List (Option (List Byte × Bool))) (s : State) :
    EmbReq × State :=
  let iid := (q.iid s).toNat
  let before := q
  let q := (es.zip ds).foldl (fun q (e : Word × Option (List Byte × Bool)) => gleanEntry v bag (fld (wordAt q.hdr 0) 55 54) e.1 e.2 q) q
  let named := (es.filterMap fun e => match entryKind v e with | .row n => some (n, iid) | _ => none).dedup
  let fresh := named.filter fun k => !w.rows.contains k
  let q := { q with fetched := q.fetched + fresh.length }
  let s := countRC (Off.gln + 0x200) (q.invalid - before.invalid) (countRC (Off.gln + 0x208) (q.missing - before.missing) s)
  let w := { w with n := w.n + es.length, rows := w.rows ++ fresh }
  let more := (s.emb.queues.filter fun x => x.1 == i && !isDead x.2 && x.2.seq != q.seq).head?.any fun x =>
    x.2.handle == q.handle && x.2.version == q.version
  let close := decide (4096 ≤ w.n) || (decide (q.entries.length ≤ q.pos) && !more)
  let s := s.modEmb fun e => { e with wins := Tab.put {} i (if close then {} else w) e.wins }
  (q, if close then modUnit i (fun x => { x with rx := [] }) s else s)

/-- The reply of a GATHER or a BAG: its rows, then its status tile (R270). -/
def gleanReply (bag : Bool) (v : TableVer) (q : EmbReq) (s : State) : State :=
  let pool := fld (wordAt q.hdr 0) 55 54
  let q := if bag ∧ 0 < q.done then { q with rows := q.rows ++ [bagRow v pool (q.done - 1) q.bag], bag := [] } else q
  let ts := if bag then rowTiles 1 4 (4 * v.e) q.user 4096 q.rows else rowTiles v.fmt v.es v.rowBytes q.user 4096 q.rows
  embReply q (ts ++ [q.statusTile .ok]) s

/-- An instance's step on its first request (R272): as many of its entries as the open window holds, once every row they name is there;
after the last, the reply. -/
def gleanStep (op : Nat) (i : Fin 4) (s : State) : State :=
  match embHead s i.val with
  | none => s
  | some q =>
    if embOp q.hdr ≠ op then s
    else
      match tableVer s q.handle q.version with
      | none => embFail q .noExtent 0 s
      | some v =>
        let (w, s) := openWin i.val q s
        let es := (q.entries.drop q.pos).take (4096 - w.n)
        let (r, s) := gleanRows (Fin.ofNat 16 i.val) (q.iid s) v es s
        match r with
        | .inl (.bad st g) => embFail q st g s
        | .inl _ => s
        | .inr ds =>
          let (q, s) := gleanTake (decide (op = 2)) i.val q v w es ds s
          if q.entries.length ≤ q.pos then gleanReply (decide (op = 2)) v q s else modEmbReq q.seq (fun _ => q) s

/-- GATHER (R270). -/
def execGather (inst : Fin 4) (s : State) := complete (gleanStep 1 inst) s

/-- BAG (R270). -/
def execBag (inst : Fin 4) (s : State) := complete (gleanStep 2 inst) s

/-! ### SOW: windows and chunks (R273-R277) -/

/-- A window: adds since the last harvest, sticky saturation, value in units of 2^emin modulo 2^95 (Table 12-6). -/
abbrev WinVal : Type := Nat × Bool × Int

/-- The value modulo 2^95, as two's complement. -/
def wrap95 (v : Int) : Int := let m := v % (2 : Int) ^ 95; if m < (2 : Int) ^ 94 then m else m - (2 : Int) ^ 95

/-- Merge of two windows: the counts saturate, the flags are sticky, the values add modulo 2^95 (R277). -/
def winMerge (a b : WinVal) : WinVal := (Nat.min (a.1 + b.1) (2 ^ 32 - 1), a.2.1 || b.2.1, wrap95 (a.2.2 + b.2.2))

/-- The window that one delta adds (R277). -/
def winOf (emin : Int) (x : Num) : WinVal :=
  match x with
  | .fin neg m e => if x.isZero then (1, false, 0)
    else if floorLog2 m e < emin + 64 then (1, false, wrap95 (roundInt neg m (e - emin))) else (1, true, 0)
  | _ => (1, true, 0)

/-- A 16-byte slot. -/
def winBytes (w : WinVal) : List Byte := bytesOfNat 16 (w.1 * 2 ^ 96 + bit01 w.2.1 * 2 ^ 95 + uBits 95 w.2.2)

def winRead (bs : List Byte) : WinVal :=
  let v := natOfBytes bs
  (v / 2 ^ 96 % 2 ^ 32, v / 2 ^ 95 % 2 == 1, sInt 95 (v % 2 ^ 95))

def addF32 (x y : BitVec 32) : BitVec 32 := BitVec.ofNat 32 (addF fp32 x.toNat y.toNat)

def zipPad {α : Type} (f : α → α → α) (z : α) (a b : List α) : List α :=
  (List.range (Nat.max a.length b.length)).map fun i => f (a.getD i z) (b.getD i z)

def Chunk.sameKey (a b : Chunk) : Bool :=
  a.core == b.core && a.ctx == b.ctx && a.handle == b.handle && a.version == b.version && a.row == b.row && a.chunk == b.chunk

/-- `a` with `b` merged into it: partials add in order, windows merge (R275, R277). -/
def Chunk.merge (a b : Chunk) : Chunk :=
  { a with
    vals := if a.vals.isEmpty then b.vals else zipPad addF32 0 a.vals b.vals
    wins := zipPad winMerge (0, false, 0) a.wins b.wins }

/-- Merge a chunk into a list, at the end when it is new. -/
def mergeInto (l : List Chunk) (c : Chunk) : List Chunk :=
  if l.any (Chunk.sameKey · c) then l.map fun a => if a.sameKey c then a.merge c else a else l ++ [c]

def Chunk.bytes (c : Chunk) : Nat := if c.wins.isEmpty then 128 else 512

/-- A chunk leaves the combining buffer for its context's staging; beyond the quota the job ends with QUEUE_FULL (R180, R273). -/
def spill (c : Chunk) (s : State) : State :=
  let k := c.core * 8 + c.ctx
  let s := s.modEmb fun e => { e with chunks := e.chunks.filter fun x => !x.sameKey c }
  let s := modBody k (fun b => { b with sow := mergeInto b.sow c }) s
  match jobAt s k with
  | some j => if stageQuota s < stageUsed j.b then endJob (Fin.ofNat 16 c.core) (Fin.ofNat 8 c.ctx) 0xA .queueFull 0 s else s
  | none => s

/-- Every chunk of a context goes into its staging: at NMC_COMMIT and before a suspend body (R273). -/
def spillAll (k : Nat) (s : State) : State :=
  (s.emb.chunks.filter fun c => c.core * 8 + c.ctx == k).foldl (fun s c => spill c s) s

/-- Add a chunk to the combining buffer of 8 MiB; the least recently used ones make room (R273). -/
def combine (c : Chunk) (s : State) : State :=
  match s.emb.chunks.find? (Chunk.sameKey · c) with
  | some a => s.modEmb fun e => { e with chunks := (e.chunks.filter fun x => !x.sameKey c) ++ [a.merge c] }
  | none =>
    let used := (s.emb.chunks.map Chunk.bytes).sum
    let s := if used + c.bytes ≤ 2 ^ 23 then s else
      (s.emb.chunks.take (if c.wins.isEmpty then 1 else 4)).foldl (fun s x => if (s.emb.chunks.map Chunk.bytes).sum + c.bytes ≤ 2 ^ 23 then s else spill x s) s
    s.modEmb fun e => { e with chunks := e.chunks ++ [c] }

/-- One delta row enters the buffer, chunk by chunk; the second component counts inputs that set a saturation flag (Table 12-5). -/
def addRow (q : EmbReq) (v : TableVer) (row : Nat) (d : List (BitVec 32)) (s : State) : Nat × State :=
  (List.range (ceilDiv v.e 32)).foldl (fun (x : Nat × State) i =>
    let part := (d.drop (32 * i)).take 32
    let ws := if v.exact then part.map fun y => winOf v.emin (decF32 y) else []
    let c : Chunk := { core := q.core.val, ctx := q.ctx.val, handle := q.handle, version := q.version, row := row, chunk := i
                       vals := if v.exact then [] else part, wins := ws }
    (x.1 + (ws.filter (·.2.1)).length, combine c x.2)) (0, s)

/-- Why a row cannot be added to or harvested here: its shard lies on another device (R274), or in a CODED extent (R289). -/
def sowRefuses (s : State) (v : TableVer) (row : Nat) : Option Status :=
  let (b, _) := v.entry (v.shardOf row)
  if !isHere s (fdnOf b) then some .malformed
  else if (extDesc s (extOf (addr s b))).form = .coded then some .wrongForm else none

/-- SOW ADD: the instance's first request is combined entry by entry (R273, R282). -/
def sowStep (i : Fin 4) (s : State) : State :=
  match embHead s (4 + i.val) with
  | none => s
  | some q =>
    if embOp q.hdr ≠ 1 then s
    else
      match tableVer s q.handle q.version with
      | none => embFail q .noExtent 0 s
      | some v =>
        let es := q.entries.zip q.deltas
        let bad := es.findSome? fun e => match entryKind v e.1 with | .row r => sowRefuses s v r | _ => none
        match bad with
        | some st => embFail q st 0 s
        | none =>
          let (q, s) := es.foldl (fun (x : EmbReq × State) e =>
            match entryKind v e.1 with
            | .pad => x
            | .invalid => ({ x.1 with invalid := x.1.invalid + 1 }, x.2)
            | .missing => ({ x.1 with missing := x.1.missing + 1 }, x.2)
            | .row r => (let (n, s) := addRow q v r e.2 x.2; ({ x.1 with done := x.1.done + 1, sat := x.1.sat + n }, s))) (q, s)
          let s := countRC (Off.gln + 0x210) q.invalid (countRC (Off.gln + 0x218) q.missing s)
          embReply q [q.statusTile .ok] s

/-- SOW_ADD (R273). -/
def execSowAdd (inst : Fin 4) (s : State) := complete (sowStep inst) s

/-! ### HARVEST (R280, R281) -/

/-- The right to write a line, for one of the device's own multi-line requests (R27, R29, R157). -/
def admitsWrite (s : State) (k : ReqKind) (iid : BitVec 16) (m : Option Multi) (line : Nat) : Option Status :=
  admits s k (128 * line) iid (extDesc s (extOfLine line)).inc m

/-- The lines of a row and of its windows, as this device numbers them. -/
def rowLineNos (s : State) (v : TableVer) (row : Nat) : List Nat :=
  match v.rowAt row with | some g => linesOver (addr s g) v.rowBytes | none => []
def winLineNos (s : State) (v : TableVer) (row : Nat) : List Nat := linesOver (addr s (v.winAt row)) (16 * v.e)

/-- Bytes that a span of ready lines holds. -/
def spanBytes (s : State) (a n : Nat) : List Byte := readBytes s.tier.hbm a n

/-- Replace bytes of ready lines: the writes of a group that put `bs` at byte address `a`. -/
def spanWrites (s : State) (a : Nat) (bs : List Byte) : List GrpWrite :=
  (linesOver a bs.length).map fun l =>
    { line := l, whole := false, data := lineOfBytes ((List.range 128).map fun i =>
        if a ≤ 128 * l + i ∧ 128 * l + i < a + bs.length then bs.getD (128 * l + i - a) 0 else readByte s.tier.hbm (128 * l + i)) }

/-- An element with a harvested window: left as it is, or element + value × 2^emin rounded once (R280, R281). -/
def harvestElem (v : TableVer) (old : Nat) (w : WinVal) : Nat :=
  if w.1 = 0 ∨ w.2.1 ∨ 2 ^ 30 ≤ w.1 then old
  else (cvtElem v.fmt false (exactSum [floatElem v.fmt old, numOfInt w.2.2 v.emin])).1

/-- One row of a harvest: the writes it makes and the elements it leaves unharvested (R281). -/
def harvestRow (s : State) (v : TableVer) (row : Nat) : List GrpWrite × Nat :=
  let a := addr s ((v.rowAt row).getD 0)
  let wa := addr s (v.winAt row)
  let old := spanBytes s a v.rowBytes
  let wins := (List.range v.e).map fun j => winRead (spanBytes s (wa + 16 * j) 16)
  let new := (List.range v.e).flatMap fun j =>
    bytesOfNat v.es (harvestElem v (natOfBytes ((old.drop (j * v.es)).take v.es)) (wins.getD j (0, false, 0)))
  ((if new = old then [] else spanWrites s a new) ++ spanWrites s wa (List.replicate (16 * v.e) 0),
    (wins.filter fun w => w.1 != 0 && (w.2.1 || decide (2 ^ 30 ≤ w.1))).length)

/-- The row after this one; after the last, the reply. -/
def harvestNext (q : EmbReq) (s : State) : State :=
  let q := { q with pos := q.pos + 1, group := [], writes := [] }
  if fld (wordAt q.hdr 2) 40 0 ≤ q.pos then
    embReply q [q.statusTile .ok]
      (countRC (Off.gln + 0x220) q.sat (countRC (Off.gln + 0x210) q.invalid (countRC (Off.gln + 0x218) q.missing s)))
  else modEmbReq q.seq (fun _ => q) s

/-- HARVEST, one row: admitted, taken, recorded as one group, and visible at its GROUP_COMMIT (R280). -/
def harvestStep (i : Fin 4) (s : State) : State :=
  match embHead s (4 + i.val) with
  | none => s
  | some q =>
    if embOp q.hdr ≠ 2 then s
    else
      match tableVer s q.handle q.version with
      | none => embFail q .noExtent 0 s
      | some v =>
        let row := fld (wordAt q.hdr 1) 40 0 + q.pos
        let iid := q.iid s
        let close (q : EmbReq) (s : State) : State :=
          let s := (regionsOf s (q.writes.map (·.line))).foldl (fun s a => landed a s) (modEmbReq q.seq (fun x => { x with writes := [] }) s)
          let s := groupClose iid q.group q.writes s
          let s := countShard v (v.shardOf row) q.writes.length s
          harvestNext { q with done := q.done + 1 } (pump s)
        if !q.group.isEmpty then (if groupConfirmed q.group s then close q s else s)
        else if !v.exact then embFail q .malformed 0 s
        else
          match (if v.rows ≤ row then EntryKind.invalid else entryKind v (BitVec.ofNat 64 row)) with
          | .pad => s
          | .invalid => harvestNext { q with invalid := q.invalid + 1 } s
          | .missing => harvestNext { q with missing := q.missing + 1 } s
          | .row _ =>
            let ls := rowLineNos s v row ++ winLineNos s v row
            match sowRefuses s v row, ls.findSome? (admitsWrite s .storePart iid none) with
            | some st, _ => embFail q st ((v.rowAt row).getD 0) s
            | none, some st => embFail q st ((v.rowAt row).getD 0) s
            | none, none =>
              let (w, s) := needLines ls s
              let (ok, s) := groupReady (ls.map fun l => { line := l, whole := false }) s
              if w.isSome || !ok then s
              else if ls.any (linePoison s) then embFail q .poison ((v.rowAt row).getD 0) s
              else
                let (ws, sat) := harvestRow s v row
                if !groupSlots ws s then s
                else
                  let s := (regionsOf s (ws.map (·.line))).foldl (fun s a => openRegion a true s) s
                  let (ns, s) := groupEnter iid ws s
                  let q := { q with group := ns, writes := ws, sat := q.sat + sat }
                  if groupConfirmed ns s then close q s else modEmbReq q.seq (fun _ => q) s

/-- HARVEST (R280). -/
def execHarvest (inst : Fin 4) (s : State) := complete (harvestStep inst) s

end Sys2Proof.Machine
end

