-- ==== Sys2Proof/Machine/FleetOps.lean ====
section
/-! DEFINITION. Fleet messages as sent (R401), the ranking of resets (R424) and the self-fence (R405): operations that blocks
below the fleet agent need. The meanings of the fleet commands stand in Machine/Fleet.lean. -/

namespace Sys2Proof.Machine

open Sys2Proof

/-! ### Sending (R401) -/

/-- Remember a flooded message: the last 4,096 pairs of src_fdn and mseq. -/
def noteSeen (src : BitVec 16) (mseq : BitVec 32) (s : State) : State :=
  s.modFlt fun f => { f with seen := ((src, mseq) :: f.seen).take 4096 }

/-- Flood a message of this device on every ACTIVE link. -/
def flood (ty : BitVec 8) (subject : BitVec 16) (epoch : Nat) (drill : Bool) (body : List Word) (s : State) : State :=
  let h := fleetHdr s subject epoch drill
  emit (.fleet ty none h body) (noteSeen h.src h.mseq (s.modFlt fun f => { f with nextMseq := f.nextMseq + 1 }))

/-- The fleet epoch follows every message received (R406). -/
def sawEpoch (ep : Nat) (s : State) : State := s.modFlt fun f => { f with epoch := Nat.max f.epoch ep }

/-- A FLEET record (Table 17-2). -/
def fleetRec (code : BitVec 8) (sev : BitVec 2) (fdn : BitVec 16) (s : State) : State :=
  raise { cls := 0x0B, sev := sev, code := code, block := 0x40, fdn := fdn } s

/-! ### Resets (R423, R424) -/

/-- Bit of RST_STATUS [8:2] of a reset kind, from bit 2 up. -/
def kindBit : ResetKind → BitVec 7
  | .cold => 1 | .pin => 2 | .fabric => 4 | .watchdog => 8 | .fatal => 16 | .thermal => 32

def mergedBit : BitVec 7 := 64

/-- A kind whose start is cold: HBM is lost (Table 19-1). -/
def coldKind (k : ResetKind) : Bool := k == .cold || k == .thermal

/-- RST_ATTEMPT_MAX (R430). -/
def attemptMax (s : State) : Nat := s.cfg.fuses.attemptMax

/-- What no reset keeps (DEDUCED, log 19): requests, transactions, jobs, searches and translations in flight, the tables of the units, the
state of links, ports and completion registers. Word 3 of every owner record is zero after any reset (R152, R158). -/
def forget (s : State) : State :=
  let s := s.modSys fun y => { y with
    closed := true, stage := 0, power := .active, vstep := 30, limit := 0, thermalCeil := 50, capCeil := 50, avsMiss := 0
    avsOff := 0, gated := false, clocksLost := [], watchArmed := false, probeLow := 0 }
  let s := s.modExt fun x => { x with
    run := none, owners := x.owners.foldl (fun m o => Tab.put {} o.1 { o.2 with inflight := 0 } m) [] }
  let s := s.modTier fun t => { t with wbs := [], hotPosted := [], thrashPosted := [], spillPosted := [], missRun := [], prefetch := [] }
  let s := s.modJrn fun j => { j with compost := .background, groupRun := false, highPosted := false, barriers := [] }
  let s := s.modHome fun h => {
    nextReq := h.nextReq, nextTag := h.nextTag, nextCopy := h.nextCopy, nextAdv := h.nextAdv }
  let s := s.modCoh fun c => { dir := c.dir, backing := c.backing, granules := c.granules, nextSnoop := c.nextSnoop }
  let s := s.modOwn fun _ => []
  let s := s.modNmc fun n => { n with
    jobs := [], owner := [], cq := [], fwdIn := [], fwdOut := [], units := [], skip := [], rt := [], faults01 := []
    rs := n.rs.filter fun v => !v.installing }
  let s := s.modXlt fun x => { fqTail := x.fqTail, fqIid := x.fqIid }
  let s := s.modCdc fun _ => {}
  let s := s.modEmb fun _ => {}
  let s := s.modPrn fun _ => {}
  let s := s.modHp fun h => {
    links := h.links.foldl (fun m l => Tab.put {} l.1 { perst := l.2.perst } m) [], nextTag := h.nextTag }
  let s := s.modFab fun b => {
    nextMsg := b.nextMsg, redirect := b.redirect, timeSet := b.timeSet, unsyncPosted := b.unsyncPosted }
  let s := s.modRas fun r => { r with
    ceCount := 0, stormEnd := none, evq := r.evq.foldl (fun m q => Tab.put {} q.1 { q.2 with waiting := [] } m) [] }
  let s := s.modFlt fun f => { f with
    state := .joining, votes := [], holds := [], heard := [], voters := [], standIn := [], waits := [], rejoining := false
    drillVotes := [], adopting := none, drill := none, containedFor := [], ctlWait := [] }
  let s := s.modCfg fun c => { c with
    state := 0, copyB := false, generation := 0, resultA := 0, resultB := 0, norBusy := none, firmware := false }
  let s := s.modTrl fun t => { t with scopes := 0, expiry := 0 }
  let s := s.modTel fun t => { t with busy := false }
  s.modRegs fun r => { r with done := [] }

/-- The device leaves reset: step 1 begins when RESET_N is high (R425, R426). -/
def leaveReset (s : State) : State :=
  let s := forget s
  if s.sys.resetN then s.modSys fun y => { y with phase := .bringUp, step := 0 }
  else s.modSys fun y => { y with phase := .inReset, step := 0 }

/-- A bring-up fails: one more attempt; beyond RST_ATTEMPT_MAX the device is HELD (R428, R430). -/
def failedAttempt (s : State) : State :=
  s.modSys fun y => { y with attempts := Nat.min 7 (y.attempts + 1) }

/-- A warm reset is asked for (R423, R424). In service the device departs; in bring-up it returns to step 1 and keeps the kind of
a cold start; one that meets a reset in progress is merged. -/
def requestWarm (k : ResetKind) (s : State) : State :=
  let bit (s : State) : State := s.modSys fun y => { y with bits := y.bits ||| kindBit k }
  match s.sys.phase with
  | .service => bit (s.modSys fun y => { y with phase := .departing, kind := k, closed := true })
  | .bringUp =>
    let s := if k = .watchdog ∨ k = .fatal then failedAttempt s else s
    let s := bit (s.modSys fun y => { y with kind := if coldKind y.kind || y.hbmLost then .cold else k, bits := y.bits ||| mergedBit })
    if attemptMax s < s.sys.attempts then (s.modSys fun y => { y with phase := .heldFail }).modCfg fun c => { c with state := 2 }
    else leaveReset s
  | .heldFail =>
    leaveReset (bit (s.modSys fun y => { y with
      kind := if coldKind y.kind || y.hbmLost then .cold else k, bits := y.bits ||| mergedBit }))
  | .departing | .inReset | .powerFail | .flushed =>
    bit (s.modSys fun y => { y with bits := y.bits ||| mergedBit })

/-! ### Closing admission -/

/-- Every coherence request that is queued, held for a grant, or heads a transaction is answered NACK with one status; the rest of its
transaction goes on for the home. -/
def nackAll (st : Status) (hint : BitVec 10) (s : State) : State :=
  let ms := (s.coh.queue.filterMap fun q => match q.item with | .coh _ m _ _ _ => some m | _ => none) ++
    (s.coh.held.filterMap fun w => match w.what with | .req _ => some w.m | _ => none) ++
    (s.coh.txns.filterMap fun t => match t.head with | .coh _ m _ _ _ => some m | _ => none) ++ s.coh.withheldReqs.map (·.2)
  let s := s.modCoh fun c => { c with
    withheldReqs := []
    queue := c.queue.filter fun q => match q.item with | .coh _ _ _ _ _ => false | _ => true
    held := c.held.filter fun w => match w.what with | .req _ => false | _ => true
    txns := c.txns.map fun t => match t.head with | .coh _ _ _ _ _ => { t with head := .home } | _ => t }
  ms.foldl (fun s m => if s.home.deadSlices.any (fun d => d.val == sliceOf (addr s m.gsa)) then s else nack m st hint s) s

/-- Every request that the slices still hold is answered with one status (R405); with `perf`, one already performed, or whose record
holds its slot, is answered OK (R78, R111, R393). -/
def answerAll (st : Status) (hint : BitVec 10) (perf : Bool) (s : State) : State :=
  (s.home.waiting).foldl (fun s p =>
    if s.home.deadSlices.any (fun d => d.val == sliceOf p.a) then s
    else
      match findReq s p.n with
      | none => s
      | some p => (match p.why with
        | .buddy _ => if perf then finish p .ok 0 p.old s else finish p st hint [] s
        | .commit key =>
          if perf then commitOwn key (s.modOwn fun l => l.map fun o => if o.key = key then { o with entered := true } else o)
          else commitOwn key (finish p st hint [] s)
        | _ => finish p st hint [] s)) (nackAll st hint s)

/-- The device fences itself (R405): ISOLATED; every unanswered request is answered DEVICE_LOST; FENCE with reason SELF is
flooded; a warm reset follows (its bit in RST_STATUS is that of the fabric source, log 8). -/
def selfFence (s : State) : State :=
  if s.flt.state ≠ .member then s
  else
    let s := answerAll .deviceLost 0 false (s.modSys fun y => { y with closed := true })
    let ep := s.flt.epoch + 1
    let s := s.modFlt fun f => { f with state := .isolated, epoch := ep }
    requestWarm .fabric (flood 0x04 (servedFdn s) ep false [3] s)

end Sys2Proof.Machine
end

