-- ==== Sys2Proof/Machine/TierCmds.lean ====
section
/-! DEFINITION. The commands of the tier and of the flash side (03): fills, write-backs, cleaning, garbage collection, wear
levelling, decay, prefetch, stripe members and HBM errors (R42-R59, R389, R399, R496). -/

namespace Sys2Proof.Machine

open Sys2Proof

/-! ### Records -/

/-- A FLASH record naming a frame; an injected fault's record carries detail3 [62] (R489). -/
def flashRec (code : BitVec 8) (sev : BitVec 2) (f : Nat) (s : State) : State :=
  raise { cls := 2, sev := sev, code := code, block := 0x14, gsa := gsaAt s (f * 16384)
          detail3 := if s.flash.injected.contains f then put 62 1 else 0 } s

/-- A MEMORY record naming a line; stack, channel and syndrome are not the spec's to give (log 2). -/
def memRec (code : BitVec 8) (sev : BitVec 2) (line : Nat) (s : State) : State :=
  let w := Config.freeWord s.free
  raise { cls := 1, sev := sev, code := code, block := 0x14, inst := w.setWidth 8, gsa := gsaOfLine s line
          detail1 := w, detail2 := Config.freeWord (s.free + 1), detail3 := Config.freeWord (s.free + 2) } s.draw.draw.draw

/-- A threshold of Table 17-10 is crossed: RAS_THRESHOLD names its register. -/
def crossed (off : Nat) (s : State) : State := postDev 0x34 (BitVec.ofNat 64 off) s

/-! ### Reading flash pages (R56, R59) -/

/-- Units mapped into a block of a die. -/
def unitsIn (s : State) (die block : Nat) : List Nat :=
  (s.flash.map.filter fun e => e.2.mapped && !e.2.striped && e.2.die == die && e.2.block == block).map (·.1)

/-- The valid pages of a block are copied into fresh blocks (R52). -/
def emptyBlock (die block : Nat) (s : State) : State := (unitsIn s die block).foldl (fun s mu => programUnit mu die s) s

/-- A block whose valid pages have moved is erased and returns to service (R52, R54). -/
def eraseBlock (die block : Nat) (s : State) : State :=
  (emptyBlock die block s).modFlash fun f => { f with
    used := f.used.filter (· != die * 65536 + block)
    erases := Tab.upd 0 (die * 65536 + block) (· + 1) f.erases }

/-- One more read of a block that needed recovery; at RAS_FLASH_BLOCK_CE within the window the block is retired (Table 17-10). -/
def blockError (f : Nat) (s : State) : State :=
  let m := mapOf s (f / 4)
  let k := m.die * 65536 + m.block
  let l := ceNote s (Tab.get [] s.flash.blockCe k)
  let s := s.modFlash fun r => { r with blockCe := Tab.put [] k l r.blockCe }
  if l.length = (regGet s (Off.ras + 0x110)).toNat then
    crossed (Off.ras + 0x110) (flashRec 0x0C 2 f (emptyBlock m.die m.block (s.modFlash fun r => { r with
      retired := k :: r.retired.filter (· != k) })))
  else s

/-- The unit's own member is among those fetched (R56): nothing needed reconstruction. -/
def ownMember (s : State) (mu : Nat) (parts : List (Nat × List Byte)) : Bool := parts.any fun p => p.1 == (mapOf s mu).member

/-- What a recovered or lost read of a frame's page is reported as (R56, R59, R382). A STRIPED unit that needed reconstruction posts
STRIPE_DEGRADED (R51, R56). -/
def reportRead (f : Nat) (res : MediaRead) (s : State) : State :=
  match res with
  | .good => s
  | .fetched parts => if ownMember s (f / 4) parts then s else postExt 0x13 (extOfFrame f) s
  | .recovered =>
    if (mapOf s (f / 4)).striped then postExt 0x13 (extOfFrame f) (flashRec 0x02 0 f s)
    else blockError f (flashRec 0x02 0 f s)
  | .lost =>
    flashRec 0x01 1 f (s.modFlash fun r => { r with unreadable := f :: r.unreadable.filter (· != f) })

/-- The bytes that the members fetched give of a mapping unit, decrypted (R56, R57); this home's own members count among them. -/
def unitOfParts (s : State) (mu : Nat) (parts : List (Nat × List Byte)) : Option (List Byte) :=
  let m := mapOf s mu
  let mine := (s.flash.held.filter fun h => h.home == servedFdn s && !h.isCopy && h.stripe == m.stripe).map fun h => (h.member, h.data)
  (rebuildMember m.member (parts ++ mine)).map (cipherOf s mu true)

/-- What a read of a frame's flash page gives: an unmapped unit reads nothing and cannot fail; too few members give nothing. -/
def readResult (s : State) (f : Nat) (res : MediaRead) : MediaRead :=
  match res with
  | .fetched parts =>
    if (mapOf s (f / 4)).mapped then (if (unitOfParts s (f / 4) parts).isSome then res else .lost)
    else if parts.isEmpty then .good else res
  | _ => if !(mapOf s (f / 4)).mapped then .good else if s.flash.unreadable.contains f then .lost else res

/-- A mapping unit's bytes that came from members on other devices are this home's copy of it (R56, R414). -/
def takeFetched (mu : Nat) (res : MediaRead) (s : State) : State :=
  match res with
  | .fetched parts =>
    match unitOfParts s mu parts with
    | none => s
    | some data => s.modFlash fun f => { f with
        data := writeCells (clearSpan f.data (mu * 65536) (mu * 65536 + 65536)) (data.mapIdx fun i b => (mu * 65536 + i, b)) }
  | _ => s

/-- Entries of a COHERENT region mirror the poison of a frame's lines (R122). -/
def mirrorFrame (f : Nat) (s : State) : State :=
  ((List.range 128).filter fun i => linePoison s (128 * f + i) != (dirGet s (128 * f + i)).poison).foldl
    (fun s i => mirrorPoison (128 * f + i) s) s

/-- A fill or merge fill of a frame ends with what its read gave (R42, R59). -/
def endFill (f : Nat) (res : MediaRead) (s : State) : State :=
  let r := readResult s f res
  let s := installFill f r (takeFetched (f / 4) r s)
  evictRetired (flashOnlyOut f (reportRead f r (onlyIf (isCoherent s (128 * f)) (mirrorFrame f) s)))

/-- FILL_COMPLETE's effect: FILLING becomes PRESENT, and what waited for the frame goes on. -/
def fillDone (f : Nat) (res : MediaRead) (s : State) : State :=
  if (tagOf s f).state = .filling then pump (endFill f res s) else s

/-- FILL_COMPLETE (Table 03-4, R59). -/
def execFillComplete (frame : Nat) (res : MediaRead) (s : State) := complete (fillDone frame res) s

/-- MERGE_FILL_COMPLETE's effect: lines in state I become C; the frame keeps its state (R42). -/
def mergeDone (f : Nat) (res : MediaRead) (s : State) : State :=
  if (tagOf s f).merging then pump (endFill f res s) else s

/-- MERGE_FILL_COMPLETE (R42). -/
def execMergeFillComplete (frame : Nat) (res : MediaRead) (s : State) := complete (mergeDone frame res) s

/-! ### Write-backs (R43, R46, R77, R496) -/

/-- The frames of a write-back whose old page it needs: some line is copied forward or merged. -/
def needsOld (s : State) (w : WriteBack) : List (Nat × BitVec 128) :=
  if !(mapOf s w.mu).mapped then []
  else
    ([4 * w.mu, 4 * w.mu + 1, 4 * w.mu + 2, 4 * w.mu + 3].map fun f =>
      (f, ~~~((w.keep.find? (·.1 == f)).elim 0 (·.2)))).filter fun e => e.2 != 0

/-- The old pages are read (R496): what members gave is written with the rest (R56); a line that cannot be recovered is written
poisoned, and one in state I of a resident frame takes poison there. -/
def readOld (w : WriteBack) (res : MediaRead) (s : State) : WriteBack × State :=
  let got := takeFetched w.mu (readResult s (4 * w.mu) res) s
  (needsOld s w).foldl (fun (ws : WriteBack × State) e =>
    let (w, s) := ws
    let r := readResult s e.1 res
    let s := reportRead e.1 r s
    let w := match r with
      | .fetched _ =>
        let rest := w.image.filter fun c => !(decide (c.1 / 16384 = e.1) && e.2.getLsbD (c.1 / 128 % 128))
        { w with image := writeCells rest (frameCells got.flash.data e.1 e.2) }
      | _ => w
    if r = .lost then
      let s := if w.frames.contains e.1 then
          onlyIf (isCoherent s (128 * e.1)) (mirrorFrame e.1)
            (modTag e.1 (fun t => { t with poison := t.poison ||| (e.2 &&& ~~~t.valid), valid := BitVec.allOnes 128 }) s)
        else s
      ({ w with poison := w.poison.map fun p => if p.1 = e.1 then (p.1, p.2 ||| e.2) else p }, s)
    else (w, s)) (w, s)

/-- After a write-back a FLASH_ONLY frame written meanwhile starts again (Table 03-5), and a unit taken into a fresh snapshot may
free a victim. -/
def wbAgain (w : WriteBack) (s : State) : State :=
  if w.frames.any (fun f => policyOf s f == .flashOnly && decide ((tagOf s f).dirty ≠ 0)) then startWriteBack w.mu false s else s

/-- The home's pages are programmed: the write-back completes, or waits for the buddy's copy (R77). -/
def wbProgrammed (mu : Nat) (res : MediaRead) (s : State) : State :=
  match s.tier.wbs.find? (·.mu == mu) with
  | none => s
  | some w =>
    if w.homeDone then s
    else
      let (w, s) := readOld w res s
      if w.buddy.isSome then
        s.modTier fun t => { t with wbs := t.wbs.map fun x => if x.mu = mu then { w with homeDone := true } else x }
      else pump (wbAgain w (finishWriteBack w s))

/-- The buddy's part of a write-back ends: its copy is programmed, or the home's copy alone completes it (R77). -/
def wbBuddyDone (mu : Nat) (stored : Bool) (s : State) : State :=
  let s := if stored then s.modFlash fun f => { f with homeOnly := f.homeOnly.filter (· != mu) } else holdHome mu s
  match s.tier.wbs.find? (fun w => w.mu == mu && w.buddy.isSome) with
  | none => s
  | some w =>
    if w.homeDone then pump (wbAgain w (finishWriteBack w s))
    else s.modTier fun t => { t with wbs := t.wbs.map fun x => if x.mu = mu then { x with buddy := none } else x }

/-- WRITEBACK_COMPLETE (R43, R46, R77, R496). -/
def execWritebackComplete (mu : Nat) (res : MediaRead) (s : State) := complete (wbProgrammed mu res) s

/-- Ways of a set that are FREE or hold only C and I lines, outside PINNED. -/
def cleanWays (s : State) (st : Nat) : Nat :=
  let ts := setTags s st
  16 - ts.length + (ts.filter fun e => e.2.retention != .pinned && decide (e.2.dirty = 0)).length

/-- The oldest dirty unpinned frame of a set that no write-back takes yet. -/
def oldestDirty (s : State) (st : Nat) : Option Nat :=
  (((setTags s st).filter fun e =>
      e.2.retention != .pinned && decide (e.2.dirty ≠ 0) && e.2.state == .present).foldl
    (fun o e => match o with
      | none => some e
      | some b => if b.2.age < e.2.age then some e else some b) (none : Option (Nat × Tag))).map (·.1)

/-- The background cleaner keeps two ways of a set clean (03, Choosing a victim). -/
def cleanSet (st : Nat) : Nat → State → State
  | 0, s => s
  | k + 1, s =>
    let running := ((setTags s st).filter fun e => e.2.state == .writeback && e.2.retention != .pinned).length
    if 2 ≤ cleanWays s st + running then s
    else
      match oldestDirty s st with
      | none => s
      | some f => cleanSet st k (startWriteBack (f / 4) false s)

/-! ### The uses of the flash write bandwidth, in order of priority (R47) -/

/-- Erased blocks, device-wide, and all blocks that are in service. -/
def blocksLeft (s : State) : Nat × Nat :=
  let all := s.flash.dies * blocksOf s - s.flash.retired.length
  (all - (s.flash.used.filter fun b => !s.flash.retired.contains b).length, all)

/-- Fewer than 2 % of the blocks remain erased. -/
def shortOfBlocks (s : State) : Bool := decide (50 * (blocksLeft s).1 < (blocksLeft s).2)

/-- A use of higher priority than `k` waits for the bandwidth: a full segment of the journal 1, a write-back that frees a victim 2,
garbage collection when few blocks remain erased 3. -/
def bandwidthTaken (s : State) (k : Nat) : Bool :=
  (decide (1 < k) && !drainStopped s && s.jrn.segs.any fun g => g.state == .full) ||
  (decide (2 < k) && s.tier.wbs.any fun w => w.urgent && !w.homeDone) ||
  (decide (3 < k) && (shortOfBlocks s || !s.jrn.areaErased))

/-- BACKGROUND_CLEANING (R47, Table 03-5): it waits while a use of higher priority waits. -/
def execBackgroundCleaning (set : Nat) (s : State) := complete (fun s => if bandwidthTaken s 4 then s else cleanSet set 2 s) s

/-- Blocks of a die programmed and not open. -/
def closedBlocks (s : State) (die : Nat) : List Nat :=
  ((s.flash.used.filter fun b => b / 65536 == die).map (· % 65536)).filter fun b => b != (Tab.get (0, 0) s.flash.openBlk die).1

/-- The element of a list with the least measure. -/
def leastBy (m : Nat → Nat) : List Nat → Option Nat
  | [] => none
  | x :: l =>
    match leastBy m l with
    | none => some x
    | some y => if m x ≤ m y then some x else some y

/-- Garbage collection restores the pre-erased area of the power-fail flush first; else it takes the block with the fewest valid
pages (R47; 03, Translation). -/
def collectDie (die : Nat) (s : State) : State :=
  if bandwidthTaken s (if shortOfBlocks s || !s.jrn.areaErased then 3 else 5) then s
  else if !s.jrn.areaErased then s.modJrn fun j => { j with areaErased := true }
  else
    match leastBy (fun b => (unitsIn s die b).length) (closedBlocks s die) with
    | none => s
    | some b => eraseBlock die b s

/-- GARBAGE_COLLECTION (R47, R52). -/
def execGarbageCollection (die : BitVec 10) (s : State) := complete (collectDie die.toNat) s

/-- Wear levelling: beyond the threshold, the least-worn block's valid pages move and it returns to service (R54). -/
def levelDie (die : Nat) (s : State) : State :=
  let worn (b : Nat) : Nat := Tab.get 0 s.flash.erases (die * 65536 + b)
  let top := (s.flash.erases.filter fun e => e.1 / 65536 == die).foldl (fun m e => Nat.max m e.2) 0
  if bandwidthTaken s 5 then s
  else
    match leastBy worn (closedBlocks s die) with
    | none => s
    | some b => if (regGet s (Off.tier + 0x40)).toNat < top - worn b then eraseBlock die b s else s

/-- WEAR_LEVELLING (R54). -/
def execWearLevelling (die : BitVec 10) (s : State) := complete (levelDie die.toNat) s

/-- Every count is halved, unpinned AUTO frames take their retention anew, and HOT and THRASH may be posted again
(R50, R51). -/
def decay (s : State) : State :=
  let s := reach (s.tier.decayAt + (regGet s (Off.tier + 0x10)).toNat * 1000000) s
  s.modTier fun t => { t with
    decayAt := now s
    tags := t.tags.map fun e =>
      let c := e.2.count / 2
      (e.1, { e.2 with
        count := c
        retention := if policyOf s e.1 = .auto ∧ e.2.retention ≠ .pinned then retentionOf s c else e.2.retention })
    hotPosted := []
    thrashPosted := [] }

/-- TIER_DECAY (R50). -/
def execTierDecay (s : State) := complete decay s

/-- The background prefetch of a PIN_HBM extent fetches a frame that is not resident (Table 03-5, R49). -/
def prefetchPin (f : Nat) (s : State) : State :=
  let e := extOfFrame f
  if !s.tier.prefetch.contains e then s
  else if (extDesc s e).policy ≠ .pinHbm ∨ (extDesc s e).state ≠ .assigned then
    s.modTier fun t => { t with prefetch := t.prefetch.filter (· != e) }
  else
    let t := if (tagOf s f).isFree then (fetchFrame f s).2 else s
    if (t.tier.tags.filter fun x => extOfFrame x.1 == e).length = 65536 then
      t.modTier fun r => { r with prefetch := r.prefetch.filter (· != e) }
    else t

/-- PIN_HBM_PREFETCH (R48). -/
def execPinHbmPrefetch (frame : Nat) (s : State) := complete (prefetchPin frame) s

/-! ### Members held for other devices (R55) -/

/-- Mapping units that the stripe reserve holds: s of the usable flash (R53, R55). -/
def reserveUnits (s : State) : Nat :=
  (s.flash.dies * s.flash.dieGiB - journalGiB s) * 16384 * (100 - (regGet s (Off.tier + 0x30)).toNat) * stripeRes s / 20000

/-- Take a member or a copy into the reserve; false where it is full. One already held is replaced. -/
def takeHeld (h : Held) (s : State) : Bool × State :=
  let same (x : Held) : Bool :=
    x.home == h.home && x.isCopy == h.isCopy && (if h.isCopy then x.mu == h.mu else x.stripe == h.stripe && x.member == h.member)
  let rest := s.flash.held.filter fun x => !same x
  if reserveUnits s ≤ (rest.filter fun x => x.home != servedFdn s).length then (false, s) else (true, s.modFlash fun f => { f with held := rest ++ [h] })

/-- A stripe member arrives (R55): stored, or refused where the reserve is full. -/
def takeMember (home : BitVec 16) (stripe member mu : Nat) (data : List Byte) (s : State) : State :=
  let (ok, t) := takeHeld { home := home, stripe := stripe, member := member, mu := mu, data := data } s
  emit (.memberData home stripe member (if ok then .ok else .queueFull) []) t

/-- STRIPE_MEMBER_RECEIVE (R55); `mu` is the unit that a data member is, for the index of R414. -/
def execStripeMemberReceive (home : BitVec 16) (stripe : BitVec 42) (member : Fin 10) (mu : BitVec 32) (data : List Byte) (s : State) :=
  complete (takeMember home stripe.toNat member mu.toNat data) s

/-! ### HBM errors (R59, R389, R399) -/

/-- The 2 KiB page of HBM that holds a line: eight to a way of a set. -/
def hbmPage (s : State) (line : Nat) : Nat :=
  (setOf s (line / 128) * 16 + (tagOf s (line / 128)).way) * 8 + line % 128 / 16

/-- An error that lost nothing counts against its page; at RAS_HBM_PAGE_CE within the window the page is retired, and its frame is
evicted first (R59, R399). -/
def pageError (line : Nat) (s : State) : State :=
  let k := hbmPage s line
  let l := ceNote s (Tab.get [] s.tier.pageCe k)
  let s := s.modTier fun t => { t with pageCe := Tab.put [] k l t.pageCe }
  if l.length = (regGet s (Off.ras + 0x108)).toNat then
    let f := line / 128
    evictRetired (crossed (Off.ras + 0x108) (memRec 0x0C 2 line (s.modTier fun t => { t with
      retired := k :: t.retired.filter (· != k), evicting := t.evicting.filter (· != f) ++ [f] })))
  else s

/-- An HBM error on a line: one that the check bits correct is counted; an uncorrectable one on a C line has it fetched again, on a
D line poisons it (R59). -/
def hbmError (line : Nat) (corrected : Bool) (s : State) : State :=
  let f := line / 128
  if !(tagOf s f).valid.getLsbD (line % 128) then s
  else if corrected then pageError line (memRec 0x02 0 line s)
  else if lineDirty s line then mirrorPoison line (poisonLine line 0 (memRec 0x01 1 line s))
  else
    let s := modTag f (fun t => { t with valid := t.valid &&& ~~~(lineBit line), poison := t.poison &&& ~~~(lineBit line) }) s
    pageError line (fetchFrame f (memRec 0x01 0 line s)).2

/-- HBM_UNCORRECTABLE (R59). -/
def execHbmUncorrectable (e : HbmErr) (s : State) := complete (fun s => pump (hbmError e.line e.corrected s)) s

end Sys2Proof.Machine
end

