-- ==== Sys2Proof/Machine/JournalCmds.lean ====
section
/-! DEFINITION. The commands of the journal (04): programs, the compost pass, mirrors and their releases, tentative records,
mirror fetches, and installing a record (R61-R86, R497). -/

namespace Sys2Proof.Machine

open Sys2Proof

/-! ### Programs (R69, R71, R81) -/

/-- Records that the predicate picks are now in the flash journal; a tentative one keeps its place until it is settled. Segments
with nothing left to program are free again. -/
def programRecs (p : Slot → Bool) (s : State) : State :=
  let go (x : Slot) : Bool := !x.programmed && p x
  let s := s.modJrn fun j => { j with
    live := j.live ++ (j.ring.filter go).map fun x => (x.entered, x.rc)
    ring := (j.ring.map fun x => if go x then { x with programmed := true, progAt := now s, inGroup := false } else x).filter
      fun x => !x.programmed || x.rc.tentative }
  ringHigh (s.modJrn fun j => { j with
    segs := j.segs.filter fun g => g.state == .filling || j.ring.any fun x => !x.programmed && x.seg == g.id })

/-- A segment's program starts when it is full or its oldest record is 20 us old (04, Occupancy). -/
def startSegment (seg : Nat) (s : State) : State :=
  match s.jrn.segs.find? (·.id == seg) with
  | none => s
  | some g =>
    if drainStopped s ∨ g.state = .programming then s
    else
      let s := if g.state = .filling then reach (g.opened + 20000) s else s
      s.modJrn fun j => { j with segs := j.segs.map fun h => if h.id = seg then { h with state := .programming } else h }

/-- SEGMENT_PROGRAM_START (R69, R71). -/
def execSegmentProgramStart (seg : Nat) (s : State) := complete (startSegment seg) s

/-- A segment's program completes and the segment is free (R69). -/
def segmentDone (seg : Nat) (s : State) : State :=
  if s.jrn.segs.any (fun g => g.id == seg && g.state == .programming) then
    let s := programRecs (fun x => x.seg == seg) s
    pump (s.modJrn fun j => { j with segs := j.segs.filter (·.id != seg) })
  else s

/-- SEGMENT_PROGRAM_COMPLETE (R69). -/
def execSegmentProgramComplete (seg : Nat) (s : State) := complete (segmentDone seg) s

/-- Durable barriers whose record is programmed end (R81, R88). -/
def endProgrammedBarriers (s : State) : State :=
  (s.jrn.barriers.filter fun b => match b.jsn with
    | some n => !(s.jrn.ring.any fun x => x.rc.jsn == n && x.home == ownFdn s && !x.programmed)
    | none => false).foldl (fun s b => endBarrier b s) s

/-- A group program completes: its records are programmed, adopted ones are settled, and the next starts (R81). -/
def groupDone (s : State) : State :=
  if !s.jrn.groupRun then s
  else
    let s := programRecs (·.inGroup) s
    let s := s.modJrn fun j => { j with groupRun := false }
    let s := (s.jrn.ring.filter fun x => x.rc.tentative && x.programmed).foldl (fun s x => settleTentative x.rc.jsn false s) s
    pump (startGroup (endProgrammedBarriers s))

/-- GROUP_PROGRAM_COMPLETE (R81). -/
def execGroupProgramComplete (s : State) := complete groupDone s

/-- A programmed record that no retry adopted within 1 ms is voided and its line released (R81). -/
def voidRecord (jsn : Nat) (s : State) : State :=
  match s.jrn.ring.find? (fun x => x.rc.jsn == jsn && x.rc.tentative && x.home == ownFdn s) with
  | none => s
  | some x =>
    if !x.programmed ∨ x.adopted.isSome then s
    else
      let s := reach (x.progAt + 1000000) s
      let n := s.jrn.nextJsn
      let rc : JRec := { gsa := x.rc.gsa, iid := x.rc.iid, inc := x.rc.inc, body := .void jsn }
      let s := journal rc (s.modJrn fun j => { j with ring := j.ring.filter fun y => !(y.rc.jsn == jsn && y.rc.tentative) })
      let s := match mirrorTo s (extOf (addr s x.rc.gsa)) with
        | some b => sendMirror b { rc with jsn := n } s
        | none => s
      pump s

/-- TENTATIVE_VOID (R81). -/
def execTentativeVoid (jsn : Nat) (s : State) := complete (voidRecord jsn) s

/-! ### The compost pass (R71-R73) -/

/-- A live record no longer holds the compost pass back: its line or block is no longer newer in HBM than in flash, or it is no such
record. -/
def recFolded (s : State) (rc : JRec) : Bool :=
  let a := addr s rc.gsa
  let d := extDesc s (extOf a)
  match rc.body with
  | .data _ | .coded _ =>
    decide (d.state = .free) || decide (d.inc ≠ rc.inc) ||
      (recMus s rc).all fun mu => decide (rc.jsn ≤ Tab.get 0 s.flash.pageJsn mu) ||
        ((unitFrames mu).all (fun f => decide ((tagOf s f).dirty = 0)) && !wbRuns s mu &&
          !(s.tier.toPoison.any fun l => muOf (128 * l) == mu) &&
          !(s.jrn.ring.any fun x => x.rc.jsn == rc.jsn && x.rc.tentative))
  | _ => true

/-- The compost pass over this home's own live records in jsn order, up to the first record that is still in the ring: what is folded
enters the base maps and leaves the journal; the first that is not starts a write-back of its units. A record without effect (R68, R81)
only leaves. -/
def foldFrom (urgent : Bool) (effect : List JRec) : List JRec → State → State
  | [], s => s
  | rc :: l, s =>
    let ring := s.jrn.ring.any fun x => !x.programmed && x.home == ownFdn s && decide (x.rc.jsn < rc.jsn)
    if ring then s
    else if !effect.contains rc || recFolded s rc then
      let s := if effect.contains rc then s.modFlash fun f => { f with base := ctlApply s rc f.base } else s
      foldFrom urgent effect l (s.modJrn fun j => { j with live := j.live.filter fun e => !(e.2 == rc) })
    else (recMus s rc).foldl (fun s mu => startWriteBack mu urgent s) s

/-- Every record of this home up to this jsn is folded (R76). -/
def foldedFloor (s : State) : Nat :=
  let left := (s.jrn.live.filter fun e => !e.2.mirrored).map (·.2.jsn) ++ ((s.jrn.ring.filter fun x => x.home == ownFdn s).map (·.rc.jsn))
  left.foldl (fun m n => Nat.min m (n - 1)) (s.jrn.nextJsn - 1)

/-- Mirrored records that their homes have released leave the journal (R76). -/
def dropReleased (s : State) : State :=
  s.modJrn fun j => { j with live := j.live.filter fun e =>
    !e.2.mirrored || j.mirrors.any fun m => m.rc.jsn == e.2.jsn && m.home == fdnOf e.2.gsa }

/-- Background or raised priority (R72). -/
def compostLevel (s : State) : Compost :=
  let old : Bool := match s.jrn.live.head? with
    | some e => decide (e.1 + 1000000000 * (regGet s (Off.jrn + 0x38)).toNat < now s)
    | none => false
  if old ∨ 3 * liveMax s ≤ 4 * liveBytes s then .raised
  else if s.jrn.compost = .raised ∧ liveMax s ≤ 2 * liveBytes s then .raised else .background

/-- A pass over the oldest live segments (R71, R72, R76); a drain that had stopped goes on once there is room. -/
def compost (s : State) : State :=
  let s := dropReleased (s.modJrn fun j => { j with compost := compostLevel s })
  let own := (s.jrn.live.map (·.2)).filter (!·.mirrored)
  let effect := replayable (own ++ (s.jrn.ring.filter fun x => x.home == ownFdn s).map (·.rc))
  let s := foldFrom (s.jrn.compost == .raised) effect (byJsn own) s
  startGroup (s.modJrn fun j => { j with compost := compostLevel s, foldedTo := foldedFloor s })

/-- COMPOST_PASS (R71-R73). -/
def execCompostPass (s : State) := complete compost s

/-! ### Mirrors at the buddy (R74-R76) -/

/-- A mirrored control record also tells the buddy what it may come to serve (R411). -/
def shadow (rc : JRec) (s : State) : State :=
  if fdnOf rc.gsa = servedFdn s then s
  else
    match rc.body with
    | .extent _ | .region _ | .publish _ =>
      let c := ctlApply s rc { exts := s.ext.table, regions := s.ext.regions, owners := s.ext.owners }
      s.modExt fun x => { x with table := c.exts, regions := c.regions, owners := c.owners }
    | _ => s

def isControl (rc : JRec) : Bool :=
  match rc.body with | .data _ | .coded _ | .pad => false | _ => true

/-- A mirrored record arrives (R74, R75, R405): refused where the home is fenced or its type is reserved, dropped once power has failed
or where its CRC is wrong, confirmed again where it is held, otherwise placed in the ring and confirmed. DESIGN CHOICE: a mirror that
Table 04-4 gives no slot is dropped with no answer, and its home sends it again (log 32). -/
def takeMirror (home : BitVec 16) (rc : JRec) (s : State) : State :=
  if s.sys.phase = .powerFail ∨ s.sys.phase = .flushed then s
  else if (match rc.body with | .other _ => true | _ => false) then emit (.confirm home rc.jsn .malformed) s
  else if !recSound rc then s
  else if isFenced s home then emit (.confirm home rc.jsn .fenced) s
  else if s.jrn.mirrors.any (fun m => m.home == home && m.rc.jsn == rc.jsn) then emit (.confirm home rc.jsn .ok) s
  else if !slotOk s (if isControl rc then .control else .mirrored) then s
  else
    let rc := { rc with mirrored := true }
    let s := enterSlot rc home (shadow rc s)
    emit (.confirm home rc.jsn .ok) (s.modJrn fun j => { j with mirrors := j.mirrors ++ [{ home := home, rc := rc }] })

/-- MIRROR_RECEIVE (R74, R76). -/
def execMirrorReceive (home : BitVec 16) (j : JRec) (s : State) := complete (takeMirror home j) s

/-- The home releases its mirrors up to a jsn (R76). -/
def takeRelease (home : BitVec 16) (jsn : Nat) (s : State) : State :=
  journal { body := .mirrorRelease home jsn } (s.modJrn fun j => { j with
    mirrors := j.mirrors.filter fun m => !(m.home == home && decide (m.rc.jsn ≤ jsn)) })

/-- MIRROR_RELEASE (R76). -/
def execMirrorRelease (home : BitVec 16) (jsn : Nat) (s : State) := complete (takeRelease home jsn) s

/-- The home sends MIRROR_RELEASE up to the last folded record (R76). -/
def sendRelease (b : BitVec 16) (s : State) : State :=
  let n := s.jrn.foldedTo
  if n ≤ Tab.get 0 s.jrn.released b.toNat then s
  else
    emit (.release b n) (s.modJrn fun j => { j with
      released := Tab.put 0 b.toNat n j.released
      mirrored := j.mirrored.filter fun m => !(m.1 == b && decide (m.2.jsn ≤ n)) })

/-- MIRROR_RELEASE_SEND (R76). -/
def execMirrorReleaseSend (buddy : BitVec 16) (s : State) := complete (sendRelease buddy) s

/-! ### Confirmations at the home (R74, R75, R405) -/

/-- What waited for the buddy's confirmation of a record goes on. -/
def confirmed (jsn : Nat) (s : State) : State :=
  let reqs := s.home.waiting.filter (·.why == .buddy jsn)
  let s := reqs.foldl (fun s p => finish p .ok 0 p.old s) s
  let own := s.own.filter fun o => o.jsn == jsn && o.buddy
  let s := s.modOwn fun l => l.map fun o => if o.jsn = jsn then { o with buddy := false } else o
  let s := own.foldl (fun s o => if o.entered then commitOwn o.key s else s) s
  let held := s.coh.held.filter (·.why == .buddy jsn)
  let s := held.foldl (fun s w => cmpWb w.m .ok (s.modCoh fun c => { c with held := c.held.filter (· != w) })) s
  let txns := s.coh.txns.filter (·.journal == some (some jsn))
  let s := txns.foldl (fun s t => finishTxn t.line (s.modCoh fun c => { c with
    txns := c.txns.map fun x => if x.line = t.line then { x with journal := none } else x })) s
  settleTentative jsn false s

/-- A confirmation arrives. FENCED means that this device is in the buddy's fenced set (R405). One that nothing awaits is counted
in HOME_LATE_ABSORB (R74). -/
def takeConfirm (b : BitVec 16) (jsn : Nat) (st : Status) (s : State) : State :=
  if st = .fenced then selfFence s
  else if st ≠ .ok then s
  else
    match s.jrn.unconf.find? (fun u => u.jsn == jsn && u.buddy == b) with
    | none => countRC (Off.home + 0x28) 1 s
    | some u =>
      let s := s.modJrn fun j => { j with unconf := j.unconf.filter fun v => !(v.jsn == jsn && v.buddy == b) }
      let s := if u.late then countRC (Off.home + 0x28) 1 s else s
      pump (endPairLost b (confirmed jsn s))

/-- MIRROR_CONFIRM (R74, R75, R405). -/
def execMirrorConfirm (buddy : BitVec 16) (jsn : Nat) (st : Status) (s : State) := complete (takeConfirm buddy jsn st) s

/-- The deadline of the PAIRED write that awaits this mirror (R75). -/
def pairLate (jsn : Nat) (s : State) : State :=
  match s.home.waiting.find? (·.why == .buddy jsn) with
  | some p => pump (atDeadline p (reach p.deadline s))
  | none => s

/-- PAIR_LATE (R75). -/
def execPairLate (jsn : Nat) (s : State) := complete (pairLate jsn) s

/-- A mirror is sent again every HOME_DEADLINE until the buddy confirms or is fenced (R75). -/
def resendMirror (jsn : Nat) (s : State) : State :=
  match s.jrn.unconf.find? (·.jsn == jsn) with
  | none => s
  | some u =>
    if isFenced s u.buddy then s
    else
      match s.jrn.mirrored.find? (fun m => m.1 == u.buddy && m.2.jsn == jsn) with
      | none => s
      | some m =>
        let s := reach u.resendAt s
        emit (.mirror u.buddy (sealRec { m.2 with mirrored := true })) (s.modJrn fun j => { j with
          unconf := j.unconf.map fun v => if v.jsn = jsn then { v with resendAt := now s + deadlineNs s } else v })

/-- MIRROR_RESEND (R75). -/
def execMirrorResend (jsn : Nat) (s : State) := complete (resendMirror jsn) s

/-! ### Flash copies and keys at the buddy (R77) -/

/-- The buddy takes a mapping unit's copy into its stripe reserve, or answers QUEUE_FULL (R77). -/
def takeCopyUnit (home : BitVec 16) (mu : Nat) (data : List Byte) (s : State) : State :=
  let (ok, t) := takeHeld { home := home, mu := mu, isCopy := true, data := data } s
  emit (.unitAns home mu (if ok then .ok else .queueFull)) t

/-- BUDDY_COPY_RECEIVE (R77). -/
def execBuddyCopyReceive (home : BitVec 16) (mu : BitVec 32) (data : List Byte) (s : State) :=
  complete (takeCopyUnit home mu.toNat data) s

/-- 100 ms without an answer to a copy: the home's copy alone completes the write-back (R77). -/
def copyUnitTimeout (mu : Nat) (s : State) : State :=
  match s.home.tracker.find? (·.origin == .unit mu) with
  | none => s
  | some t =>
    let s := (reach t.due s).modHome fun h => { h with tracker := h.tracker.filter (· != t) }
    if (extDesc s (mu / 16384)).redundancy = .paired then wbBuddyDone mu false s else s

/-- BUDDY_COPY_TIMEOUT (R77). -/
def execBuddyCopyTimeout (mu : Nat) (s : State) := complete (copyUnitTimeout mu) s

/-- The buddy keeps the wrapped key of an extent in its key store (R77). -/
def takeKey (home : BitVec 16) (ext key : Nat) (s : State) : State :=
  journal { gsa := mkGsa home (ext * 2 ^ 30), body := .key key }
    (s.modFlash fun f => { f with wrapped := Tab.put 0 (home.toNat * 262144 + ext) key f.wrapped })

/-- KEY_RECORD_RECEIVE (R77). -/
def execKeyRecordReceive (home : BitVec 16) (ext : BitVec 18) (key : Nat) (s : State) :=
  complete (takeKey home ext.toNat key) s

/-! ### Installing records (R83, R411, R497) -/

/-- Read a frame from flash at once, as replay and installation do. -/
def loadNow (f : Nat) (s : State) : State :=
  if (tagOf s f).state = .filling || (tagOf s f).merging then endFill f .good s else s

/-- Complete at once the write-backs that free a way of a set. -/
def cleanNow (st : Nat) (s : State) : State :=
  (s.tier.wbs.filter fun w => w.urgent && w.frames.any (fun f => setOf s f == st)).foldl (fun s w =>
    let (w, s) := readOld w .good s
    finishWriteBack w s) s

/-- Run an operation on the tier that may have to wait, doing what it waits for. -/
def untilReady (op : State → Option Why × State) : Nat → State → State
  | 0, s => s
  | k + 1, s =>
    match op s with
    | (none, t) => t
    | (some (.fill f), t) => untilReady op k (loadNow f t)
    | (some (.way st), t) => untilReady op k (cleanNow st t)
    | (_, t) => t

/-- The bytes of the sectors that a record names. -/
def sectorMask (sec : BitVec 4) : BitVec 128 :=
  (List.range 4).foldl (fun m i => if sec.getLsbD i then m ||| BitVec.ofNat 128 ((2 ^ 32 - 1) * 2 ^ (32 * i)) else m) 0

/-- A DATA record's line as D in HBM: a whole line without its page, part of one over it; poison is carried. -/
def installData (line : Nat) (rc : JRec) (l : Line) (s : State) : Option Why × State :=
  let mask := sectorMask rc.sectors
  let (w, s) : Option Why × State := if rc.sectors = 15 ∨ rc.poison then
      (let (ok, s) := readyFull line s; (if ok then none else some (.way (setOf s (line / 128))), s))
    else needLine line s
  match w with
  | some w => (some w, s)
  | none =>
    let s := if rc.poison && !(lineReady s line) then storeLine line (BitVec.allOnes 128) [] s else storeLine line mask (bytesOfLine l) s
    (none, mirrorPoison line (modTag (line / 128) (fun t => { t with
      poison := if rc.poison then t.poison ||| lineBit line else t.poison &&& ~~~(lineBit line) }) s))

/-- Install one record (R83): skipped for a FREE extent or another incarnation, and where the page is as new. -/
def installRec (rc : JRec) (s : State) : State :=
  let a := addr s rc.gsa
  let d := extDesc s (extOf a)
  if d.state = .free ∨ d.inc ≠ rc.inc ∨ ((recMus s rc).all fun mu => decide (rc.jsn ≤ Tab.get 0 s.flash.pageJsn mu)) then s
  else
    match rc.body with
    | .data l => untilReady (installData (lineOf a) rc l) 4 s
    | .coded bs => untilReady (placeBlock (lineOf a) bs) 80 s
    | _ => s

/-- Install a record in a replay (R83): a unit that is written back to make room holds what the records before this one left. -/
def replayRec (rc : JRec) (s : State) : State :=
  let n := s.jrn.nextJsn
  (installRec rc (s.modJrn fun j => { j with nextJsn := rc.jsn })).modJrn fun j => { j with nextJsn := n }

/-! ### Mirror fetches (R497) -/

/-- The buddy answers a fetch with its unreleased mirrored records of the range (R497 step 2). -/
def answerFetch (home : BitVec 16) (lo hi : Nat) (s : State) : State :=
  emit (.fetched home (byJsn ((s.jrn.mirrors.filter fun m => m.home == home && decide (lo ≤ m.rc.jsn ∧ m.rc.jsn ≤ hi)).map (·.rc)))) s

/-- MIRROR_FETCH (R497). -/
def execMirrorFetch (home : BitVec 16) (lo hi : Nat) (s : State) := complete (answerFetch home lo hi) s

/-- Poison lines that an unreadable segment's headers name (R85). -/
def poisonLines (ls : List Nat) (s : State) : State :=
  ls.foldl (fun s l => mirrorPoison l (untilReady (fun s =>
    let (ok, t) := readyFull l s
    (if ok then none else some (.way (setOf s (l / 128))), if ok then poisonLine l 0 t else t)) 3 s)) s

/-- The end marker of a fetch: its records are installed, and named lines they do not cover are poisoned (R85, R497). -/
def fetchEnded (b : BitVec 16) (recs : List JRec) (s : State) : State :=
  let fs := s.jrn.fetches.filter (·.buddy == b)
  if fs.isEmpty then s
  else
    let s := (byJsn (replayable recs)).foldl (fun s r => installRec { r with mirrored := false } s) s
    let got := recs.map fun r => lineOf (addr s r.gsa)
    let s := s.modJrn fun j => { j with fetches := j.fetches.filter (·.buddy != b) }
    pump (poisonLines ((fs.flatMap (·.named)).filter fun l => !got.contains l) s)

/-- MIRROR_FETCH_END (R497). -/
def execMirrorFetchEnd (buddy : BitVec 16) (recs : List JRec) (s : State) := complete (fetchEnded buddy recs) s

/-- A JOURNAL record of records lost. -/
def jrnRec (s : State) : State := raise { cls := 4, sev := 1, code := 0x0A, block := 0x18 } s

/-- A fetch ends without its buddy, which is fenced or has not answered 1 s after step 10: the lines are poisoned, the extents marked, a
JOURNAL record raised (R497). -/
def fetchLost (b : BitVec 16) (s : State) : State :=
  let fs := s.jrn.fetches.filter (·.buddy == b)
  if fs.isEmpty ∨ (!isFenced s b ∧ s.sys.phase ≠ .service) then s
  else
    let s := if isFenced s b then s else reach (began s .service + 1000000000) s
    let s := s.modJrn fun j => { j with fetches := j.fetches.filter (·.buddy != b) }
    let s := poisonLines (fs.flatMap (·.named)) s
    pump (jrnRec (advanceLoss false (fs.flatMap (·.exts)).dedup s))

/-- MIRROR_FETCH_TIMEOUT (R497). -/
def execMirrorFetchTimeout (buddy : BitVec 16) (s : State) := complete (fetchLost buddy) s

end Sys2Proof.Machine
end

