-- ==== Sys2Proof/Machine/Prune.lean ====
section
/-! DEFINITION. PRUNE: SEARCH and SCAN (R297, R302-R306, R312), the staging of INSERT, DELETE and ENTRY (R308), and the index commands
(R294-R296, R300). What a commit does to an index stands in Machine/Commit.lean. -/

namespace Sys2Proof.Machine

open Sys2Proof

/-! ### Generations and records (R293, R297) -/

/-- `a` is at or before `g` in the order of R8. -/
def atOrBefore (a g : BitVec 32) : Bool := decide (a = g) || seqLt 32 a.toNat g.toNat

/-- A state record (Table 13-3). -/
structure ItemRec where
  ins : BitVec 32 := 0
  del : BitVec 32 := 0
  stampA : BitVec 32 := 0
  stampB : BitVec 32 := 0
  deriving DecidableEq, Repr

def itemRec (bs : List Byte) : ItemRec :=
  let w (i : Nat) : BitVec 32 := BitVec.ofNat 32 (natOfBytes ((bs.drop (4 * i)).take 4))
  { stampB := w 0, stampA := w 1, del := w 2, ins := w 3 }

def ItemRec.bytes (r : ItemRec) : List Byte :=
  [r.stampB, r.stampA, r.del, r.ins].flatMap fun w => bytesOfNat 4 w.toNat

def ItemRec.visible (r : ItemRec) (g : BitVec 32) : Bool := r.ins != 0 && atOrBefore r.ins g
def ItemRec.returnable (r : ItemRec) (g : BitVec 32) : Bool := r.visible g && !(r.del != 0 && atOrBefore r.del g)

/-- Which of two versions a generation uses: the later stamp at or before it; none where there is none (R297). -/
def versionAt (a b g : BitVec 32) : Option Bool :=
  let okA := a != 0 && atOrBefore a g
  let okB := b != 0 && atOrBefore b g
  if okA && okB then some (seqLt 32 a.toNat b.toNat) else if okA then some false else if okB then some true else none

/-- The entry set of a header line: version A or B (Table 13-2). -/
def hdrEntries (ws : List Word) (slotB : Bool) : List (BitVec 32) :=
  (List.range 4).map fun i => BitVec.ofNat 32 (fld (wordAt ws ((if slotB then 4 else 2) + i / 2)) (32 * (i % 2) + 31) (32 * (i % 2)))

def emptyId : Nat := 2 ^ 32 - 1

/-! ### A search in progress -/

/-- What a search has found, and what it lacks: lines not in HBM, bitmap lines not yet read, or a refused read. -/
structure Probe where
  miss : List Nat := []
  bits : List Word := []
  fail : Option (Status × Word) := none
  lines : List Nat := []
  poisoned : List Nat := []
  bad : Nat := 0
  skipped : Nat := 0
  nan : Nat := 0
  examined : Nat := 0
  passed : Nat := 0
  hops : Nat := 0
  extra : Nat := 0
  visited : List Nat := []
  /-- Scored items, best first: score, local ID, expanded. -/
  scored : List (BitVec 32 × Nat × Bool) := []
  results : List (BitVec 32 × BitVec 32) := []
  deriving DecidableEq, Repr

/-- It cannot go on before what it lacks is there. -/
def Probe.stuck (p : Probe) : Bool := !p.miss.isEmpty || !p.bits.isEmpty || p.fail.isSome

/-- The setting of a search: the index, its generation, the request and the IID of its job. -/
structure Query where
  x : Index := {}
  g : BitVec 32 := 0
  iid : BitVec 16 := 0
  h : List Word := []
  table : List (BitVec 16) := []
  u : Nat := 0
  who : Nat := 0
  deriving DecidableEq, Repr

inductive IdxGot where
  | line (l : List Byte)
  | poison
  | stop

/-- Read one line of the index through the tier, under the job's IID (R312). -/
def readIdx (s : State) (q : Query) (g : Word) (p : Probe) : IdxGot × Probe :=
  let line := lineOf (addr s g)
  match admits s .load (128 * line) q.iid (extDesc s (extOfLine line)).inc none with
  | some st => (.stop, { p with fail := some (st, g) })
  | none =>
    if !lineReady s line then (.stop, { p with miss := if p.miss.contains line then p.miss else p.miss ++ [line] })
    else if linePoison s line then (.poison, { p with poisoned := if p.poisoned.contains line then p.poisoned else p.poisoned ++ [line] })
    else (.line (lineBytes s line), { p with lines := if p.lines.contains line then p.lines else p.lines ++ [line] })

/-- Is an item allowed (R302)? A bitmap line that has not been read is noted. -/
def allowedItem (s : State) (q : Query) (i : Nat) (p : Probe) : Bool × Probe :=
  if i < prnLo q.h ∨ prnHi q.h < i then (false, p)
  else if prnFilter q.h = 0 then (true, p)
  else
    let a := prnFilter q.h + BitVec.ofNat 64 (i / 8)
    let g := lineGsa a
    match unitRx s q.u q.who g with
    | none => (false, { p with bits := if p.bits.contains g then p.bits else p.bits ++ [g] })
    | some r =>
      if r.st = .ok then ((r.data.getD (a.toNat % 128) 0).getLsbD (i % 8), p)
      else (false, { p with fail := some (r.st, g) })

/-- The score of a code (R303). -/
def adcScore (q : Query) (code : List Byte) : Num :=
  sumNum ((List.range q.x.m).foldl (fun a m => sumAdd a (fp16.dec (q.table.getD (m * 256 + (code.getD m 0).toNat) 0).toNat))
    ((0, 0, 0) : Int × Int × Nat))

/-- Order of R303 on (score, ID). -/
def better (a b : BitVec 32 × Nat) : Bool :=
  let x := decF32 a.1
  let y := decF32 b.1
  x.lt y || (!y.lt x && decide (a.2 < b.2))

/-- Keep the best `k`. -/
def keepBest (k : Nat) (r : BitVec 32 × BitVec 32) (l : List (BitVec 32 × BitVec 32)) : List (BitVec 32 × BitVec 32) :=
  (insertBy (fun a b => better (a.1, a.2.toNat) (b.1, b.2.toNat)) r l).take k

/-- Bytes of an item's code or state record within their line. -/
def inLine (g : Word) (n : Nat) (l : List Byte) : List Byte := (l.drop (g.toNat % 128)).take n

/-- Score a visible item and rank it; `only` keeps items that are not allowed out, as SCAN does. -/
def scoreItem (s : State) (q : Query) (i : Nat) (r : ItemRec) (only : Bool) (p : Probe) : Probe :=
  let (ok, p) := if only || r.returnable q.g then allowedItem s q i p else (false, p)
  if p.stuck || (only && !ok) then p
  else
    let (c, p) := readIdx s q (q.x.codeAt i) p
    match c with
    | .stop => p
    | .poison => { p with skipped := p.skipped + 1 }
    | .line l =>
      let sc := adcScore q (inLine (q.x.codeAt i) q.x.m l)
      if sc.isNan then { p with nan := p.nan + 1 }
      else
        let b := encF32 sc
        let p := { p with
          examined := p.examined + 1
          scored := insertBy (fun a c => better (a.1, a.2.1) (c.1, c.2.1)) (b, i, false) p.scored }
        if ok && r.returnable q.g then
          { p with passed := p.passed + 1, results := keepBest (prnK q.h) (b, BitVec.ofNat 32 i) p.results }
        else p

/-- visit() of R304. -/
def visit (s : State) (q : Query) (i : Nat) (p : Probe) : Probe :=
  if p.stuck then p
  else if q.x.n ≤ i then { p with bad := p.bad + 1, skipped := p.skipped + 1 }
  else if p.visited.contains i then p
  else
    let p := { p with visited := i :: p.visited }
    let (r, p) := readIdx s q (q.x.stateAt i) p
    match r with
    | .stop => p
    | .poison => { p with skipped := p.skipped + 1 }
    | .line l =>
      let r := itemRec (inLine (q.x.stateAt i) 16 l)
      if r.visible q.g then scoreItem s q i r false p else p

/-- The lines of a list, one after another; none once something is missing. Of a poisoned list, whose IDs are not known, R are counted as
skipped (R312, log 51). -/
def listIds (s : State) (q : Query) (i : Nat) (slotB : Bool) (p : Probe) : Option (List Nat) × Probe :=
  let a := q.x.listAt i slotB
  let n := ceilDiv q.x.listStride 128
  let (bs, pois, p) := (List.range n).foldl (fun (y : List Byte × Bool × Probe) k =>
    let g := lineGsa a + BitVec.ofNat 64 (128 * k)
    let (r, p) := readIdx s q g y.2.2
    match r with
    | .line l => (y.1 ++ l, y.2.1, p)
    | .poison => (y.1, true, p)
    | .stop => (y.1, y.2.1, p)) (([] : List Byte), false, p)
  if p.stuck then (none, p)
  else if pois then (none, { p with skipped := p.skipped + q.x.r })
  else
    let o := if q.x.listStride < 128 then a.toNat % 128 else 0
    (some ((List.range q.x.r).map fun k => u32At (bs.drop o) (4 * k)), p)

/-- expand() of R304. -/
def expandItem (s : State) (q : Query) (i : Nat) (p : Probe) : Probe :=
  let (r, p) := readIdx s q (q.x.stateAt i) p
  match r with
  | .stop => p
  | r =>
    let p := { p with scored := p.scored.map fun e => if e.2.1 = i then (e.1, i, true) else e }
    match r with
    | .line l =>
      let r := itemRec (inLine (q.x.stateAt i) 16 l)
      match versionAt r.stampA r.stampB q.g with
      | none => p
      | some b =>
        let (ids, p) := listIds s q i b p
        match ids with
        | none => p
        | some ids => (ids.filter (· != emptyId)).foldl (fun p j => visit s q j p) p
    | _ => p

def bestUnexpanded (l : List (BitVec 32 × Nat × Bool)) : Option Nat := (l.find? fun e => !e.2.2).map (·.2.1)

/-- The main phase. -/
def mainPhase (s : State) (q : Query) : Nat → Probe → Probe
  | 0, p => p
  | n + 1, p =>
    if p.stuck then p
    else
      match bestUnexpanded (p.scored.take (prnL q.h)) with
      | none => p
      | some c => mainPhase s q n ({ expandItem s q c p with hops := p.hops + 1 })

/-- The expand phase. -/
def expandPhase (s : State) (q : Query) : Nat → Probe → Probe
  | 0, p => p
  | n + 1, p =>
    if p.stuck || decide (prnK q.h ≤ p.results.length) then p
    else
      match bestUnexpanded p.scored with
      | none => p
      | some c => expandPhase s q n ({ expandItem s q c p with extra := p.extra + 1 })

/-- The whole search (R304). -/
def searchRun (s : State) (q : Query) : Probe :=
  let (r, p) := readIdx s q q.x.hdr {}
  match r with
  | .stop => p
  | r =>
    let es := match r with
      | .line l =>
        let ws := wordsOfBytes 16 l
        (match versionAt ((wordAt ws 1).extractLsb' 32 32) ((wordAt ws 1).setWidth 32) q.g with
         | none => []
         | some b => hdrEntries ws b)
      | _ => []
    let p := (es.filter fun e => e.toNat != emptyId).foldl (fun p e => visit s q e.toNat p) p
    expandPhase s q (prnExpand q.h) (mainPhase s q (prnHops q.h) p)

/-- The whole scan (R305): items of the allowed range, of which the best k returnable ones are kept. -/
def scanRun (s : State) (q : Query) : Probe :=
  let hi := Nat.min (prnHi q.h) (q.x.n - 1)
  (List.range (hi + 1 - prnLo q.h)).foldl (fun p k =>
    let i := prnLo q.h + k
    let (r, p) := readIdx s q (q.x.stateAt i) p
    match r with
    | .stop => p
    | .poison => { p with skipped := p.skipped + 1 }
    | .line l =>
      let r := itemRec (inLine (q.x.stateAt i) 16 l)
      if r.visible q.g then scoreItem s q i r true p else p) {}

/-! ### An instance's step -/

def prnUnit (inst : Nat) : Fin 16 := Fin.ofNat 16 (8 + inst)

/-- A request leaves the queue; its bitmap lines with it. -/
def prnDrop (q : PrnReq) (s : State) : State :=
  modUnit (8 + q.inst) (fun i => { i with
    reads := i.reads.filter (·.who != q.seq), rx := i.rx.filter (·.who != q.seq) })
    (s.modPrn fun p => { p with queue := p.queue.filter (·.seq != q.seq) })

/-- A read of a poisoned index line (R312). -/
def poisonRead (inst line : Nat) (s : State) : State :=
  raise { cls := 1, sev := 1, code := 0x09, block := 0x38, inst := BitVec.ofNat 8 inst, gsa := gsaOfLine s line
          detail1 := Config.freeWord s.free, detail2 := Config.freeWord (s.free + 1), detail3 := Config.freeWord (s.free + 2) } s.draw.draw.draw

/-- SEARCH or SCAN of one request: it is answered once every line it reads is there (R304-R306). -/
def searchStep (op : Nat) (inst : Fin 4) (s : State) : State :=
  match s.prn.queue.find? (fun q => q.inst == inst.val && prnOp q.words == op) with
  | none => s
  | some q =>
    let k := jobKey q.core q.ctx
    match q.fail with
    | some st => portReply k unitPrune q.seq [prnStatus st q.gen 0 0 0 0 0 0 q.user] (prnDrop q s)
    | none =>
      let iid := ((jobAt s k).map (·.iid)).getD 0
      let qq : Query := { x := q.idx, g := q.gen, iid := iid, h := q.words, table := q.table, u := 8 + inst.val, who := q.seq }
      let p := if op = 1 then searchRun s qq else scanRun s qq
      match p.fail with
      | some (st, g) => failJob q.core q.ctx st g (prnDrop q s)
      | none =>
        let s := (needLines p.miss s).2
        let s := p.bits.foldl (fun s g => (unitAsk (prnUnit inst.val) q.seq iid g s).2) s
        if p.stuck then s
        else
          let s := p.lines.foldl (fun s l => touchLine l s) s
          let s := p.poisoned.foldl (fun s l => poisonRead inst.val l s) s
          let s := countRC (Off.prn + 0x100) p.bad s
          let res := p.results.map fun r => (r.1, r.2 + q.idx.idBase)
          let st : Status := if p.results.length < prnK q.words then .fewer else .ok
          portReply k unitPrune q.seq (pairTiles q.user 4 res ++
            [prnStatus st q.gen p.examined p.passed p.hops p.extra p.nan p.skipped q.user]) (prnDrop q s)

/-- SEARCH (R304). -/
def execSearch (inst : Fin 4) (s : State) := complete (searchStep 1 inst) s

/-- SCAN (R305). -/
def execScan (inst : Fin 4) (s : State) := complete (searchStep 2 inst) s

/-- INSERT, DELETE and ENTRY: the instance's first such request is staged in its job (R308). -/
def stagePrn (op : Nat) (inst : Fin 4) (s : State) : State :=
  match s.prn.queue.find? (fun q => q.inst == inst.val && prnOp q.words == op) with
  | none => s
  | some q =>
    let k := jobKey q.core q.ctx
    match prnParse q.idx q.words q.body with
    | none => endJob q.core q.ctx 7 .malformed 0 (prnDrop q s)
    | some o =>
      let s := modBody k (fun b => { b with prn := b.prn ++ [o] }) (prnDrop q s)
      match jobAt s k with
      | none => s
      | some j =>
        if stageQuota s < stageUsed j.b then endJob q.core q.ctx 0xA .queueFull 0 s
        else
          let n := match o with | .insert _ _ _ _ _ => 1 | .delete _ ids => ids.length | .entry _ _ => 1
          portReply k unitPrune q.seq [prnStatus .ok 0 n 0 0 0 0 0 q.user] s

/-- INSERT (R308). -/
def execInsert (inst : Fin 4) (s : State) := complete (stagePrn 3 inst) s

/-- DELETE (R308). -/
def execDelete (inst : Fin 4) (s : State) := complete (stagePrn 4 inst) s

/-- ENTRY (R308). -/
def execEntry (inst : Fin 4) (s : State) := complete (stagePrn 5 inst) s

/-! ### Index commands (Table 13-4) -/

def idxCmd : Nat := Off.prn + 0x80
def idxDone : Nat := Off.prn + 0x88

/-- The areas of an index: GSA and bytes (R291). -/
def Index.areas (x : Index) : List (Word × Nat) :=
  [(wordAt x.words 1, x.n * x.codeStride), (wordAt x.words 2, 16 * x.n), (wordAt x.words 3, 2 * x.n * x.listStride), (x.hdr, 128)]

/-- Extents that an area covers. -/
def areaExts (s : State) (a : Word × Nat) : List Nat :=
  let f := extOf (addr s a.1)
  (List.range (extOf (addr s a.1 + a.2 - 1) + 1 - f)).map (f + ·)

/-- The fields of a descriptor, its alignments and the places of its areas (R296). -/
def Index.descOk (s : State) (x : Index) : Bool :=
  let as := x.areas
  let ends (a : Word × Nat) : Nat := a.1.toNat + a.2
  decide (fld (wordAt x.words 0) 63 48 = 1 ∧ fld (wordAt x.words 0) 40 39 ≠ 3) &&
    (as.all fun a => isHere s (fdnOf a.1) && decide (offOf a.1 + a.2 ≤ 2 ^ 48) &&
      (areaExts s a).all fun e => decide ((extDesc s e).state = .assigned)) &&
    decide ((wordAt x.words 1).toNat % x.codeStride = 0 ∧ (wordAt x.words 2).toNat % 16 = 0 ∧
      (wordAt x.words 3).toNat % x.listStride = 0 ∧ x.hdr.toNat % 128 = 0) &&
    (List.range 4).all fun i => (List.range 4).all fun j =>
      i == j || (let a := as.getD i (0, 0); let b := as.getD j (0, 0); decide (ends a ≤ b.1.toNat ∨ ends b ≤ a.1.toNat))

/-- Rights of the window's IID on every extent of an index. -/
def idxRights (s : State) (iid : BitVec 16) (x : Index) (f : Rights → Bool) : Bool :=
  x.areas.all fun a => (areaExts s a).all fun e => f (rightsOf (extDesc s e) iid)

/-- Put new bytes into the header line and journal it, whatever the extent's class (R294); an open commit group that will write the
line takes them too. -/
def editHdr (x : Index) (f : List Word → List Word) (s : State) : Bool × State :=
  let line := lineOf (addr s x.hdr)
  let s := untilReady (needLine line) 8 s
  if !lineReady s line ∨ linePoison s line then (false, s)
  else
    let edit (l : Line) : Line := lineOfBytes (bytesOfWords (f (wordsOfBytes 16 (bytesOfLine l))))
    let s := storeLine line (BitVec.allOnes 128) (bytesOfLine (edit (lineData s line))) s
    let s := s.modNmc fun n => { n with jobs := n.jobs.map fun e =>
      (e.1, { e.2 with writes := e.2.writes.map fun w => if w.line = line ∧ w.coded.isNone then { w with data := edit w.data } else w }) }
    (true, (groupRecord (extOfLine line) (dataRec s line 15 false 0) s).2)

/-- Live indexes of each instance; the one with the fewest takes a new index (R295). -/
def instLoad (s : State) (i : Nat) : Nat := (s.prn.idx.filter (·.inst == i)).length
def leastInst (s : State) : Nat := [1, 2, 3].foldl (fun m i => if instLoad s i < instLoad s m then i else m) 0

/-- CREATE. The rights by which the command is accepted come before its refusals (log 50). -/
def createIndex (wr : Writer) (h : Nat) (s : State) : State :=
  (issue wr none [.a, .f] idxCmd idxDone (fun s =>
    let x : Index := { handle := h, words := stagedWords s wr Off.prn, inst := leastInst s, iid := writerIid s wr }
    let fm := hasCls s wr none .f
    if !(fm || idxRights s x.iid x (·.own)) then cmdDone idxDone .denied 0 s
    else if (indexOf s h).isSome then cmdDone idxDone .busy 0 s
    else if !x.descOk s || !(fm || idxRights s x.iid x fun r => r.rd && r.wr) then cmdDone idxDone .malformed 0 s
    else if x.areas.any (fun a => (areaExts s a).any fun e => decide ((extDesc s e).form = .coded)) then cmdDone idxDone .wrongForm 0 s
    else
      let line := lineOf (addr s x.hdr)
      let s := untilReady (fun s => (let (ok, s) := readyFull line s; (if ok then none else some (.way (setOf s (line / 128))), s))) 8 s
      let s := storeLine line (BitVec.allOnes 128) (bytesOfWords (put 32 1 :: List.replicate 15 0)) s
      let s := (groupRecord (extOfLine line) (dataRec s line 15 false x.iid) s).2
      cmdDone idxDone .ok 0 (s.modPrn fun p => { p with idx := p.idx ++ [x] })) s).2
where
  stagedWords (s : State) (wr : Writer) (base : Nat) : List Word := (List.range 16).map fun i => staged s wr (base + 8 * i)

/-- INDEX_CREATE (R295). -/
def execIndexCreate (wr : Writer) (handle : BitVec 10) (s : State) := complete (createIndex wr handle.toNat) s

/-- An index command on a live handle, by a writer with the own right on every extent of the descriptor (R294). -/
def onIndex (wr : Writer) (h : Nat) (dead : Status) (f : Index → State → State) (s : State) : State :=
  (issue wr none [.a, .f] idxCmd idxDone (fun s =>
    match indexOf s h with
    | none => cmdDone idxDone dead 0 s
    | some x =>
      if !(hasCls s wr none .f || idxRights s (writerIid s wr) x (·.own)) then cmdDone idxDone .denied 0 s else f x s) s).2

/-- DESTROY: queued requests carry their descriptor with them and complete (Table 13-4). Table 04-3 has no record for an index command; each
is journalled as a DATA record of the header line (log 50). -/
def execIndexDestroy (wr : Writer) (handle : BitVec 10) (s : State) :=
  complete (onIndex wr handle.toNat .busy fun x s =>
    cmdDone idxDone .ok 0 ((editHdr x id s).2.modPrn fun p => { p with idx := p.idx.filter (· != x) })) s

/-- Set pin slot `i` of a header. -/
def setPin (i : Nat) (g : BitVec 32) (ws : List Word) : List Word :=
  ws.set (6 + i / 2) (setFld (wordAt ws (6 + i / 2)) (32 * (i % 2) + 31) (32 * (i % 2)) g.toNat)

/-- PIN: the current generation takes a free pin slot. A handle that is not live gives NO_EXTENT. -/
def pinGen (x : Index) (s : State) : State :=
  let ws := hdrWords s x
  match (List.range 4).find? (fun i => (hdrPins ws).getD i 0 == 0) with
  | none => cmdDone idxDone .busy 0 s
  | some i =>
    let (ok, s) := editHdr x (setPin i (hdrGen ws)) s
    if ok then cmdDone idxDone .ok (hdrGen ws) s else cmdDone idxDone .poison 0 s

/-- PIN (R295). -/
def execPin (wr : Writer) (handle : BitVec 10) (s : State) := complete (onIndex wr handle.toNat .noExtent pinGen) s

/-- UNPIN of the generation in STAGE0 [31:0]. -/
def unpinGen (g : BitVec 32) (x : Index) (s : State) : State :=
  match (List.range 4).find? (fun i => (hdrPins (hdrWords s x)).getD i 0 == g && g != 0) with
  | none => cmdDone idxDone .noExtent 0 s
  | some i =>
    let (ok, s) := editHdr x (setPin i 0) s
    if ok then cmdDone idxDone .ok 0 s else cmdDone idxDone .poison 0 s

/-- UNPIN (R295). -/
def execUnpin (wr : Writer) (handle : BitVec 10) (s : State) :=
  complete (onIndex wr handle.toNat .noExtent (unpinGen ((staged s wr Off.prn).setWidth 32))) s

/-! ### Restamping (R300) -/

/-- A generation lies 2^29 or more behind. -/
def farBehind (cur g : BitVec 32) : Bool := decide (2 ^ 29 ≤ (cur - g).toNat ∧ (cur - g).toNat < 2 ^ 31)

/-- A stamp more than 2^29 behind becomes gen − 2^29; zero stays zero. -/
def restamp (cur g : BitVec 32) : BitVec 32 := if g ≠ 0 ∧ farBehind cur g then cur - BitVec.ofNat 32 (2 ^ 29) else g

def pinLost (h : Nat) (g : BitVec 32) (s : State) : State :=
  postDev 0x24 (put 32 h ||| g.setWidth 64) (s.modPrn fun p => { p with lost := p.lost ++ [(h, g.toNat)] })

/-- INDEX_RESTAMP of one item, and of the header's stamps, pins and the bindings of queued searches. -/
def restampItem (h item : Nat) (s : State) : State :=
  match indexOf s h with
  | none => s
  | some x =>
    let ws := hdrWords s x
    let cur := hdrGen ws
    let lost := (List.range 4).filter fun i => let g := (hdrPins ws).getD i 0; g != 0 && farBehind cur g
    let gone := (s.prn.queue.filter fun q => q.idx.handle == h && q.gen != 0 && farBehind cur q.gen).map (·.gen)
    let s := if lost.isEmpty then s else (editHdr x (fun w => lost.foldl (fun w i => setPin i 0 w) w) s).2
    let s := (lost.map (fun i => (hdrPins ws).getD i 0) ++ gone).dedup.foldl (fun s g => pinLost h g s) s
    let s := s.modPrn fun p => { p with queue := p.queue.map fun q =>
      if q.idx.handle = h ∧ q.gen ≠ 0 ∧ farBehind cur q.gen then { q with fail := some .noExtent } else q }
    let stamp (i : Nat) : Nat := (restamp cur (BitVec.ofNat 32 (fld (wordAt ws 1) (32 * i + 31) (32 * i)))).toNat
    let w1 := put 32 (stamp 1) ||| put 0 (stamp 0)
    let s := if w1 = wordAt ws 1 then s
      else (let l := lineOf (addr s x.hdr)
            let s := untilReady (needLine l) 8 s
            if lineReady s l then storeLine l (BitVec.ofNat 128 (255 * 2 ^ 8)) (List.replicate 8 0 ++ bytesOfWord w1) s else s)
    if x.n ≤ item then s
    else
      let g := x.stateAt item
      let line := lineOf (addr s g)
      let s := untilReady (needLine line) 8 s
      if !lineReady s line ∨ linePoison s line then s
      else
        let o := g.toNat % 128
        let r := itemRec (inLine g 16 (lineBytes s line))
        let r' : ItemRec := { ins := restamp cur r.ins, del := restamp cur r.del, stampA := restamp cur r.stampA, stampB := restamp cur r.stampB }
        if r' = r then s
        else storeLine line (BitVec.ofNat 128 ((2 ^ 16 - 1) * 2 ^ o)) (List.replicate o 0 ++ r'.bytes) s

/-- INDEX_RESTAMP (R300). -/
def execIndexRestamp (handle : BitVec 10) (item : BitVec 32) (s : State) := complete (restampItem handle.toNat item.toNat) s

end Sys2Proof.Machine
end

