-- ==== Sys2Proof/Machine/Commit.lean ====
section
/-! DEFINITION. The commit of a job (R181): its admission, the lines its staging, scatter-adds (R273-R278) and index operations
(R298, R299, R309) write, its group, and what follows its commit point (R176, R188). -/

namespace Sys2Proof.Machine

open Sys2Proof

/-! ### Pending writes of a commit, read and edited as bytes -/

/-- A line as the commit sees it so far. -/
def pendLine (s : State) (ws : List GrpWrite) (line : Nat) : Line :=
  match ws.find? (fun w => w.line == line && w.coded.isNone) with
  | some w => w.data
  | none => lineData s line

/-- `n` bytes from byte address `a`. -/
def pendGet (s : State) (ws : List GrpWrite) (a n : Nat) : List Byte :=
  (((linesOver a n).flatMap fun l => bytesOfLine (pendLine s ws l)).drop (a % 128)).take n

/-- Put bytes at byte address `a`: the lines they touch become writes of the group. -/
def pendPut (s : State) (a : Nat) (bs : List Byte) (ws : List GrpWrite) : List GrpWrite :=
  (linesOver a bs.length).foldl (fun ws l =>
    let old := bytesOfLine (pendLine s ws l)
    let new := lineOfBytes ((List.range 128).map fun i =>
      if a ≤ 128 * l + i ∧ 128 * l + i < a + bs.length then bs.getD (128 * l + i - a) 0 else old.getD i 0)
    if ws.any (fun w => w.line == l && w.coded.isNone) then
      ws.map fun w => if w.line = l ∧ w.coded.isNone then { w with data := new } else w
    else ws ++ [{ line := l, data := new, whole := false }]) ws

/-! ### Scatter-adds at commit (R275, R278) -/

/-- The byte address of a chunk in its row, or of its windows. -/
def chunkAddr (s : State) (v : TableVer) (c : Chunk) : Nat :=
  if c.wins.isEmpty then addr s ((v.rowAt c.row).getD 0) + 32 * c.chunk * v.es else addr s (v.winAt c.row) + 16 * (32 * c.chunk)

def chunkLen (v : TableVer) (c : Chunk) : Nat := if c.wins.isEmpty then c.vals.length * v.es else 16 * c.wins.length

/-- One chunk's read-modify-write. -/
def chunkPut (s : State) (v : TableVer) (c : Chunk) (ws : List GrpWrite) : List GrpWrite :=
  let a := chunkAddr s v c
  if c.wins.isEmpty then
    pendPut s a (((List.range c.vals.length).zip c.vals).flatMap fun (e : Nat × BitVec 32) =>
      let old := natOfBytes (pendGet s ws (a + e.1 * v.es) v.es)
      bytesOfNat v.es (cvtElem v.fmt false (exactSum [floatElem v.fmt old, decF32 e.2])).1) ws
  else
    pendPut s a (((List.range c.wins.length).zip c.wins).flatMap fun (e : Nat × WinVal) =>
      winBytes (winMerge (winRead (pendGet s ws (a + 16 * e.1) 16)) e.2)) ws

/-- Lines that the scatter-adds of a job touch. -/
def sowLines (s : State) (l : List Chunk) : List Nat :=
  (l.flatMap fun c => match tableVer s c.handle c.version with
    | some v => linesOver (chunkAddr s v c) (chunkLen v c)
    | none => []).dedup

/-! ### Index operations at commit (R298, R299, R309) -/

def PrnOp.handle : PrnOp → Nat
  | .insert h _ _ _ _ | .delete h _ | .entry h _ => h

/-- Items whose records an operation reads or writes. -/
def PrnOp.items : PrnOp → List Nat
  | .insert _ id _ _ rev => id :: rev.map (·.1)
  | .delete _ ids => ids
  | .entry _ _ => []

/-- Lines of an item: its record, its code and its two list slots. -/
def itemLines (s : State) (x : Index) (i : Nat) : List Nat :=
  [lineOf (addr s (x.stateAt i)), lineOf (addr s (x.codeAt i))] ++ linesOver (addr s (x.listAt i false)) x.listStride ++
    linesOver (addr s (x.listAt i true)) x.listStride

def idxLines (s : State) (ops : List PrnOp) : List Nat :=
  (ops.flatMap fun o => match indexOf s o.handle with
    | some x => lineOf (addr s x.hdr) :: o.items.flatMap (itemLines s x)
    | none => []).dedup

/-- The live bindings of an index (R299). -/
def bindings (s : State) (x : Index) : List (BitVec 32) :=
  (hdrPins (hdrWords s x)).filter (· != 0) ++ ((s.prn.queue.filter fun q => q.idx.handle == x.handle && q.gen != 0).map (·.gen))

/-- The commit of one index so far: pending writes, dropped edges, an overwrite that must wait, a failing status, inserted items. -/
structure IdxRun where
  ws : List GrpWrite := []
  drops : Nat := 0
  wait : Bool := false
  fail : Option Status := none
  ins : List Nat := []
  deriving DecidableEq, Repr

def getItem (s : State) (x : Index) (i : Nat) (r : IdxRun) : ItemRec := itemRec (pendGet s r.ws (addr s (x.stateAt i)) 16)

def putItem (s : State) (x : Index) (i : Nat) (it : ItemRec) (r : IdxRun) : IdxRun :=
  { r with ws := pendPut s (addr s (x.stateAt i)) it.bytes r.ws }

/-- The slot that a new version goes into, and whether it must wait (R299): `b` is the sibling's stamp. -/
def newSlot (binds : List (BitVec 32)) (c a b : BitVec 32) : Bool × Bool :=
  if a = c then (false, false)
  else if b = c then (true, false)
  else
    let useB := a != 0 && (b == 0 || seqLt 32 b.toNat a.toNat)
    let old := if useB then b else a
    let sib := if useB then a else b
    (useB, old != 0 && !(binds.all fun g => atOrBefore sib g))

/-- The new list version of an item: a copy of its current one edited by `f`, stamped c (R299). -/
def editList (s : State) (x : Index) (binds : List (BitVec 32)) (c : BitVec 32) (i : Nat) (f : List Nat → List Nat) (r : IdxRun) : IdxRun :=
  let it := getItem s x i r
  let (b, wait) := newSlot binds c it.stampA it.stampB
  let read (sl : Bool) : List Nat := (let bs := pendGet s r.ws (addr s (x.listAt i sl)) x.listStride; (List.range x.r).map fun k => u32At bs (4 * k))
  let cur := match versionAt it.stampA it.stampB c with | some sl => read sl | none => List.replicate x.r emptyId
  let r := { r with wait := r.wait || wait, ws := pendPut s (addr s (x.listAt i b)) ((f cur).flatMap (bytesOfNat 4 ·)) r.ws }
  putItem s x i (if b then { it with stampB := c } else { it with stampA := c }) r

/-- The new entry version. -/
def editEntries (s : State) (x : Index) (binds : List (BitVec 32)) (c : BitVec 32) (f : List (BitVec 32) → List (BitVec 32)) (r : IdxRun) : IdxRun :=
  let a := addr s x.hdr
  let ws := wordsOfBytes 16 (pendGet s r.ws a 128)
  let sa := (wordAt ws 1).extractLsb' 32 32
  let sb := (wordAt ws 1).setWidth 32
  let (b, wait) := newSlot binds c sa sb
  let cur := match versionAt sa sb c with | some sl => hdrEntries ws sl | none => List.replicate 4 (BitVec.ofNat 32 emptyId)
  let es := f cur
  let bytes := (List.range 4).flatMap fun i => bytesOfNat 4 (es.getD i (BitVec.ofNat 32 emptyId)).toNat
  let ws1 := pendPut s (a + (if b then 32 else 16)) bytes r.ws
  { r with wait := r.wait || wait, ws := pendPut s (a + (if b then 8 else 12)) (bytesOfNat 4 c.toNat) ws1 }

/-- One operation (R309). `own` are the items that the job inserts. -/
def idxOp (s : State) (x : Index) (binds : List (BitVec 32)) (c : BitVec 32) (own : List Nat) (r : IdxRun) (o : PrnOp) : IdxRun :=
  if r.fail.isSome then r
  else
    match o with
    | .insert _ id code fwd rev =>
      let it := getItem s x id r
      let dead := it.del != 0 && atOrBefore it.del c
      if (it.visible c && !dead) || (it.ins != 0 && it.del != 0 && binds.any fun g => seqLt 32 g.toNat it.del.toNat) then
        { r with fail := some .conflict }
      else
        let r := { r with ws := pendPut s (addr s (x.codeAt id)) code r.ws, ins := r.ins ++ [id] }
        let r := putItem s x id { it with ins := c, del := 0 } r
        let r := editList s x binds c id (fun _ => fwd.map (·.toNat)) r
        rev.foldl (fun r e =>
          if own.contains e.1 || (getItem s x e.1 r).visible c then editList s x binds c e.1 (fun l => l.set e.2 id) r
          else { r with drops := r.drops + 1 }) r
    | .delete _ ids => ids.foldl (fun r i =>
        let it := getItem s x i r
        if it.visible c && it.del == 0 then putItem s x i { it with del := c } r else { r with drops := r.drops + 1 }) r
    | .entry _ ids => editEntries s x binds c (fun _ => ids) r

/-- A stamp of the index lies 2^30 behind: commits wait for the restamp (Table 18-9). -/
def staleStamps (s : State) (x : Index) (cur : BitVec 32) : Bool :=
  (List.range x.n).any fun i =>
    let r := itemRec ((bytesOfLine (storedLine s (lineOf (addr s (x.stateAt i))))).drop ((x.stateAt i).toNat % 128) |>.take 16)
    [r.ins, r.del, r.stampA, r.stampB].any fun g => g != 0 && decide (2 ^ 30 ≤ (cur - g).toNat ∧ (cur - g).toNat < 2 ^ 31)

/-- The changes of a job to one index (R298). -/
def idxCommit (s : State) (h : Nat) (ops : List PrnOp) (r : IdxRun) : IdxRun :=
  match indexOf s h with
  | none => { r with fail := r.fail <|> some .noExtent }
  | some x =>
    let mine := ops.filter (·.handle == h)
    let a := addr s x.hdr
    let cur := hdrGen (wordsOfBytes 16 (pendGet s r.ws a 128))
    let c := cur + 1
    let binds := bindings s x
    let own := mine.filterMap fun o => match o with | .insert _ id _ _ _ => some id | _ => none
    let r := mine.foldl (idxOp s x binds c own) { r with wait := r.wait || staleStamps s x cur, ins := [] }
    let ws := wordsOfBytes 16 (pendGet s r.ws a 128)
    let es := match versionAt ((wordAt ws 1).extractLsb' 32 32) ((wordAt ws 1).setWidth 32) c with
      | some b => hdrEntries ws b
      | none => []
    let r := match r.ins with
      | id :: _ => if es.all (fun e => e.toNat == emptyId) then editEntries s x binds c (fun l => l.set 0 (BitVec.ofNat 32 id)) r else r
      | [] => r
    { r with ws := pendPut s (a + 4) (bytesOfNat 4 c.toNat) r.ws }

/-! ### The commit -/

/-- Every line that a commit writes, with the kind it is checked as. -/
def commitLines (s : State) (b : Body) : List (ReqKind × Nat) :=
  (b.staging.map fun l => (ReqKind.storePart, lineOf (addr s l.gsa))) ++ (b.coded.map fun c => (ReqKind.codedWrite, lineOf (addr s c.1))) ++
    (sowLines s b.sow).map (ReqKind.storePart, ·) ++ (idxLines s b.prn).map (ReqKind.storePart, ·)

/-- The writes of staging and coded blocks. -/
def stagedWrites (s : State) (b : Body) : List GrpWrite :=
  (b.staging.map fun l => ({ line := lineOf (addr s l.gsa), data := l.data, whole := l.whole } : GrpWrite)) ++
    b.coded.map fun c => ({ line := lineOf (addr s c.1), coded := some c.2 } : GrpWrite)

/-- A commit ends its job without effect (R181, R182). -/
def commitFail (core : Fin 16) (ctx : Fin 8) (cause : Nat) (st : Status) (w : Word) (s : State) : State :=
  let k := jobKey core ctx
  let s := s.modPrn fun p => { p with holds := p.holds.filter fun h => !(h.2.1 == core.val && h.2.2 == ctx.val) }
  pump (endJob core ctx cause st w (modJob k (fun j => { j with group := [], writes := [] }) s))

/-- The suspend area's header as DONE (R186, R188). -/
def hdrDone (s : State) (ws : List Word) : List Word :=
  ws.set 1 (setFld (setFld (wordAt ws 1) 31 30 3) 25 10 (ownFdn s).toNat)

/-- The header of a resumed job's area is set to DONE by CAS; then its ledger entry is dropped, and the completion record follows (R176,
R188). A CAS that is refused leaves the entry, which shows the area as done. -/
def commitDone (core : Fin 16) (ctx : Fin 8) (s : State) : State :=
  let k := jobKey core ctx
  match jobAt s k with
  | none => s
  | some j =>
    if j.phase ≠ .committed then s
    else if j.area = 0 then pump (dropVersions (endJob core ctx 0 .ok 0 s))
    else
      let (x, s) := ask core ctx 12 j.area { op := 0x08, aop := 8, width := 4, plen := 32, iid := j.iid
                                             payload := bytesOfWords (j.hdr.take 2) ++ bytesOfWords ((hdrDone s j.hdr).take 2) } 0 s
      match x with
      | none => s
      | some x =>
        let s := if x.st ≠ .ok then s
          else journalCtl { gsa := j.area, iid := j.iid, body := .suspend [] } none false
            (s.modNmc fun n => { n with ledger := n.ledger.filter (·.1 != j.area) })
        pump (dropVersions (endJob core ctx 0 .ok 0 s))

/-- The commit point (R181): the writes are visible, and the ledger shows a resumed job's area as DONE (R188). -/
def commitEnd (core : Fin 16) (ctx : Fin 8) (s : State) : State :=
  let k := jobKey core ctx
  match jobAt s k with
  | none => s
  | some j =>
    let s := modJob k (fun j => { j with phase := .committed }) s
    let s := groupClose j.iid j.group j.writes s
    let s := leaveRegions k s
    let s := (sowLines s j.b.sow).foldl (fun s l =>
      match shardAt s true (128 * l) <|> shardAt s false (128 * l) with
      | some (t, i) => countShard t i 1 s
      | none => s) s
    let s := s.modPrn fun p => { p with holds := p.holds.filter fun h => !(h.2.1 == core.val && h.2.2 == ctx.val) }
    let s := if j.area = 0 then s else s.modNmc fun n => { n with
      ledger := n.ledger.map fun e => if e.1 = j.area then (e.1, hdrDone s j.hdr) else e }
    commitDone core ctx s

/-- Every record of the group is confirmed by its buddy, and the resume ledger's by the control mirror. -/
def commitReady (s : State) (j : Job) : Bool := groupConfirmed j.group s && j.group.all fun n => !s.flt.ctlWait.contains n

/-- The list handles a commit's index operations name. -/
def commitLists (j : Job) : List Nat := (j.b.prn.map PrnOp.handle).dedup

/-- What a commit writes: the staged rows, what SOW combined and the index changes (R181, R273, R299). -/
def commitRun (s : State) (j : Job) : IdxRun :=
  let ws := j.b.sow.foldl (fun ws c => match tableVer s c.handle c.version with | some v => chunkPut s v c ws | none => ws) (stagedWrites s j.b)
  (commitLists j).foldl (fun r h => idxCommit s h j.b.prn r) ({ ws := ws } : IdxRun)

/-- The commit takes its list handles (R299). -/
def commitHold (core : Fin 16) (ctx : Fin 8) (j : Job) (s : State) : State :=
  s.modPrn fun p => { p with
    holds := (p.holds.filter fun o => !(o.2.1 == core.val && o.2.2 == ctx.val)) ++ (commitLists j).map (·, core.val, ctx.val) }

/-- The suspend record of a commit whose job has a suspend area closes its group (R181). -/
def commitRecord (j : Job) (ns : List Nat) (s : State) : List Nat × State :=
  if j.area = 0 then (ns, s) else
    let rc : JRec := { grp := true, gsa := j.area, iid := j.iid, body := .suspend (hdrDone s j.hdr) }
    let n := s.jrn.nextJsn
    (ns ++ [n], mirrorCtl { rc with jsn := n } true (journal rc s))

/-- The group of a commit that has all it needs enters the journal; the commit ends where nothing is left to wait for (R181). -/
def commitEnter (core : Fin 16) (ctx : Fin 8) (j : Job) (r : IdxRun) (s : State) : State :=
  let q := groupEnter j.iid r.ws (countRC (Off.prn + 0x108) r.drops s)
  let q := commitRecord j q.1 q.2
  let s := modJob (jobKey core ctx) (fun j => { j with group := q.1, writes := r.ws }) q.2
  match jobAt s (jobKey core ctx) with
  | some j => if commitReady s j then commitEnd core ctx s else s
  | none => s

/-- The commit with every line at hand: it fails as its lists say, waits for room, or enters its group (R181, R299). -/
def commitGo (core : Fin 16) (ctx : Fin 8) (j : Job) (r : IdxRun) (s : State) : State :=
  match r.fail with
  | some st => commitFail core ctx 0x0B st 0 s
  | none =>
    let q := groupReady r.ws s
    if r.wait || !q.1 || !groupSlots r.ws q.2 then q.2 else commitEnter core ctx j r q.2

/-- The commit goes on as far as it can (R181). -/
def commitTry (core : Fin 16) (ctx : Fin 8) (s : State) : State :=
  match jobAt s (jobKey core ctx) with
  | none => s
  | some j =>
    if j.phase = .committed then commitDone core ctx s
    else if j.phase ≠ .committing then s
    else if !j.group.isEmpty then (if commitReady s j then commitEnd core ctx s else s)
    else if (commitLists j).any (fun h => s.prn.holds.any fun o => o.1 == h && !(o.2.1 == core.val && o.2.2 == ctx.val)) then s
    else
      let s := commitHold core ctx j s
      let rmw := sowLines s j.b.sow ++ idxLines s j.b.prn
      let q := needLines rmw s
      if q.1.isSome then q.2
      else if rmw.any (linePoison q.2) then commitFail core ctx 4 .poison 0 q.2
      else commitGo core ctx j (commitRun q.2 j) q.2

/-- NMC_COMMIT takes effect: everything combined is staged, the commit is admitted to each extent at its first line and checked for
every line, and goes on (R181 step 1, R273). -/
def commitBegin (core : Fin 16) (ctx : Fin 8) (s : State) : State :=
  let k := jobKey core ctx
  let s := spillAll k s
  match jobAt s k with
  | none => s
  | some j =>
    if j.phase ≠ .ready then s
    else
      let ls := commitLines s j.b
      let bad := ls.findSome? fun l => (admitsWrite s l.1 j.iid (findMulti s (ownFdn s) (some (2 * j.no + 1)) (extOfLine l.2)) l.2).map (·, l.2)
      match bad with
      | some (st, l) => commitFail core ctx 0x0B st (gsaOfLine s l) s
      | none =>
        let regions := regionsOf s (ls.map (·.2))
        let s := regions.foldl (fun s a => openRegion a true s) s
        let s := modJob k (fun j => { j with phase := .committing, commitAt := now s, regions := regions, b := { j.b with dib := { j.b.dib with stopped := true } } }) s
        pump (commitTry core ctx s)

/-- JOB_COMMIT_COMPLETE (R181). -/
def execJobCommitComplete (core : Fin 16) (ctx : Fin 8) (s : State) := complete (fun s => pump (commitTry core ctx s)) s

/-- INDEX_COMMIT_WAIT_BOUND: 10 ms after it began, a commit that still waits for live bindings ends with BUSY (R299). -/
def indexBound (core : Fin 16) (ctx : Fin 8) (s : State) : State :=
  match jobAt s (jobKey core ctx) with
  | none => s
  | some j =>
    if j.phase ≠ .committing ∨ !j.group.isEmpty ∨ j.b.prn.isEmpty then s
    else
      let s := commitTry core ctx (reach (j.commitAt + 10000000) s)
      match jobAt s (jobKey core ctx) with
      | none => s
      | some j => if j.phase = .committing ∧ j.group.isEmpty then commitFail core ctx 0x0B .busy 0 s else s

def execIndexCommitWaitBound (core : Fin 16) (ctx : Fin 8) (s : State) := complete (indexBound core ctx) s

end Sys2Proof.Machine
end

