-- ==== Sys2Proof/Machine/Crypto.lean ====
section
/-! DEFINITION. SHA-384 and ECDSA over P-384, which R438 and R487 take from FIPS 180-4 and FIPS 186-5. Their constants are those
standards' (PRESUMED, log 17). -/

namespace Sys2Proof.Machine

open Sys2Proof

/-! ### SHA-384 -/

/-- Greatest number of `k` bits or fewer whose `e`-th power is at most `n`. -/
def rootBits (e n : Nat) : Nat → Nat → Nat
  | 0, r => r
  | k + 1, r => rootBits e n k (if (r + 2 ^ k) ^ e ≤ n then r + 2 ^ k else r)

def primesBelow (n : Nat) : List Nat :=
  (List.range n).filter fun p => decide (2 ≤ p) && (List.range p).all fun d => decide (d < 2) || decide (p % d ≠ 0)

/-- First 64 bits of the fraction of a prime's cube root, and of its square root. -/
def cbrtFrac (p : Nat) : BitVec 64 := BitVec.ofNat 64 (rootBits 3 (p * 2 ^ 192) 68 0)
def sqrtFrac (p : Nat) : BitVec 64 := BitVec.ofNat 64 (rootBits 2 (p * 2 ^ 128) 70 0)

/-- Round constants: the first 80 primes, the last of which is 409. -/
def shaK : List (BitVec 64) := (primesBelow 410).map cbrtFrac

/-- Initial value of SHA-384: the ninth to the sixteenth prime. -/
def sha384Init : List (BitVec 64) := ((primesBelow 54).drop 8).map sqrtFrac

def shaWordOf (bs : List Byte) : BitVec 64 := BitVec.ofNat 64 (bs.foldl (fun n b => n * 256 + b.toNat) 0)

/-- Padding to a whole number of 128-byte blocks. -/
def shaPad (bs : List Byte) : List Byte :=
  let z := (239 - bs.length % 128) % 128
  bs ++ 0x80#8 :: List.replicate z 0#8 ++ ((List.range 16).reverse.map fun i => BitVec.ofNat 8 (8 * bs.length / 2 ^ (8 * i)))

/-- The message schedule, newest word first. -/
def shaSched : Nat → List (BitVec 64) → List (BitVec 64)
  | 0, w => w
  | n + 1, w =>
    let g (i : Nat) : BitVec 64 := w.getD (i - 1) 0
    let s1 := (g 2).rotateRight 19 ^^^ (g 2).rotateRight 61 ^^^ ((g 2) >>> 6)
    let s0 := (g 15).rotateRight 1 ^^^ (g 15).rotateRight 8 ^^^ ((g 15) >>> 7)
    shaSched n ((s1 + g 7 + s0 + g 16) :: w)

/-- One round on the eight working words a to h. -/
def shaRound (v : List (BitVec 64)) (kw : BitVec 64) : List (BitVec 64) :=
  match v with
  | [a, b, c, d, e, f, g, h] =>
    let s1 := e.rotateRight 14 ^^^ e.rotateRight 18 ^^^ e.rotateRight 41
    let s0 := a.rotateRight 28 ^^^ a.rotateRight 34 ^^^ a.rotateRight 39
    let t1 := h + s1 + ((e &&& f) ^^^ (~~~e &&& g)) + kw
    let t2 := s0 + ((a &&& b) ^^^ (a &&& c) ^^^ (b &&& c))
    [t1 + t2, a, b, c, d + t1, e, f, g]
  | v => v

def shaBlock (h : List (BitVec 64)) (blk : List Byte) : List (BitVec 64) :=
  let w0 := ((List.range 16).map fun i => shaWordOf ((blk.drop (8 * i)).take 8)).reverse
  let w := (shaSched 64 w0).reverse
  let v := (List.zipWith (· + ·) shaK w).foldl shaRound h
  List.zipWith (· + ·) h v

def shaBlocks : Nat → List Byte → List (BitVec 64) → List (BitVec 64)
  | 0, _, h => h
  | n + 1, bs, h => shaBlocks n (bs.drop 128) (shaBlock h (bs.take 128))

/-- SHA-384 of a byte string: 48 bytes. -/
def sha384 (bs : List Byte) : List Byte :=
  let p := shaPad bs
  ((shaBlocks (p.length / 128) p sha384Init).take 6).flatMap fun w => (bytesOfNat 8 w.toNat).reverse

/-! ### P-384 -/

def p384P : Nat := 2 ^ 384 - 2 ^ 128 - 2 ^ 96 + 2 ^ 32 - 1
def p384B : Nat := 0xb3312fa7e23ee7e4988e056be3f82d19181d9c6efe8141120314088f5013875ac656398d8a2ed19d2a85c8edd3ec2aef
def p384N : Nat := 0xffffffffffffffffffffffffffffffffffffffffffffffffc7634d81f4372ddf581a0db248b0a77aecec196accc52973
def p384G : Nat × Nat :=
  (0xaa87ca22be8b05378eb1c71ef320ad746e1d3b628ba79b9859f741e082542a385502f25dbf55296c3a545e3872760ab7,
   0x3617de4a96262c6f5d9e98bf9292dc29f8f41dbd289a147ce9da3113b5f0b8c00a60b1ce1d7e819d7a431d7c90ea0e5f)

/-- `b` to the power of the low `k` bits of `e`, modulo `m`. -/
def powMod (m : Nat) : Nat → Nat → Nat → Nat
  | 0, _, _ => 1 % m
  | k + 1, b, e => (if e % 2 = 1 then b else 1) * powMod m k (b * b % m) (e / 2) % m

def invMod (m a : Nat) : Nat := powMod m 384 (a % m) (m - 2)

/-- Doubling on the curve. Points are in Jacobian coordinates: `(x, y, z)` is the point `(x / z^2, y / z^3)`, and `z = 0` the point at
infinity; no step inverts. -/
def ecDouble : Nat × Nat × Nat → Nat × Nat × Nat
  | (x, y, z) =>
    let yy := y * y % p384P
    let s := 4 * x * yy % p384P
    let m := 3 * (x + z * z % p384P) * (x + (p384P - z * z % p384P)) % p384P
    let u := (m * m + 2 * p384P - 2 * s) % p384P
    (u, (m * (s + (p384P - u)) + (8 * p384P - 8 * (yy * yy % p384P))) % p384P, 2 * y * z % p384P)

/-- Addition on the curve. -/
def ecAdd (a b : Nat × Nat × Nat) : Nat × Nat × Nat :=
  match a, b with
  | (x1, y1, z1), (x2, y2, z2) =>
    if z1 = 0 then b
    else if z2 = 0 then a
    else
      let v1 := z1 * z1 % p384P
      let v2 := z2 * z2 % p384P
      let u1 := x1 * v2 % p384P
      let u2 := x2 * v1 % p384P
      let s1 := y1 * (z2 * v2 % p384P) % p384P
      let s2 := y2 * (z1 * v1 % p384P) % p384P
      if u1 = u2 then (if s1 = s2 then ecDouble a else (1, 1, 0))
      else
        let h := (u2 + (p384P - u1)) % p384P
        let r := (s2 + (p384P - s1)) % p384P
        let hh := h * h % p384P
        let t := u1 * hh % p384P
        let k := h * hh % p384P
        let x := (r * r + 3 * p384P - k - 2 * t) % p384P
        (x, (r * (t + (p384P - x)) + (p384P - s1 * k % p384P)) % p384P, h * (z1 * z2 % p384P) % p384P)

/-- A multiple of a point, by the low `k` bits of `e`. -/
def ecMul : Nat → Nat → Nat × Nat × Nat → Nat × Nat × Nat
  | 0, _, _ => (1, 1, 0)
  | k + 1, e, q => ecAdd (if e % 2 = 1 then q else (1, 1, 0)) (ecMul k (e / 2) (ecDouble q))

/-- A number from big-endian bytes. -/
def natOfBE (bs : List Byte) : Nat := bs.foldl (fun n b => n * 256 + b.toNat) 0

/-- ECDSA verification with SHA-384: a public key x then y, a message, and a signature r then s. -/
def ecdsaOk (pub msg sig : List Byte) : Bool :=
  let x := natOfBE (pub.take 48)
  let y := natOfBE ((pub.drop 48).take 48)
  let r := natOfBE (sig.take 48)
  let t := natOfBE ((sig.drop 48).take 48)
  let onCurve := decide (x < p384P ∧ y < p384P ∧ y * y % p384P = (x * x * x + (p384P - 3) * x + p384B) % p384P)
  if !onCurve || decide (r = 0 ∨ p384N ≤ r ∨ t = 0 ∨ p384N ≤ t) then false
  else
    let w := invMod p384N t
    let u1 := natOfBE (sha384 msg) * w % p384N
    let u2 := r * w % p384N
    let v := ecAdd (ecMul 384 u1 (p384G.1, p384G.2, 1)) (ecMul 384 u2 (x, y, 1))
    decide (v.2.2 ≠ 0) && decide (v.1 * invMod p384P (v.2.2 * v.2.2) % p384P % p384N = r)

end Sys2Proof.Machine
end

