-- ==== Sys2Proof/Machine/EmbCmds.lean ====
section
/-! DEFINITION. The table and group commands (R267, R268, R286) and the cuttings of hot rows (R284, R285). -/

namespace Sys2Proof.Machine

open Sys2Proof

/-! ### Table commands (Table 12-3) -/

def tblCmd : Nat := Off.gln + 0x80
def tblDone : Nat := Off.gln + 0x88

/-- The staged words of a command block of 16 words. -/
def stagedWords (s : State) (wr : Writer) (base : Nat) : List Word := (List.range 16).map fun i => staged s wr (base + 8 * i)

/-- A descriptor that keeps to Table 12-1. -/
def TableVer.descOk (t : TableVer) : Bool :=
  decide (fld (t.w 0) 63 48 = 1 ∧ 1 ≤ t.fmt ∧ t.fmt ≤ 5 ∧ 16 ≤ t.rowBytes ∧ t.rowBytes ≤ 4096 ∧ t.rowBytes % 16 = 0) &&
    decide (1 ≤ t.rows ∧ t.rows ≤ 2 ^ 40 ∧ (t.w 2).toNat % 16 = 0 ∧ t.shift ≤ 40 ∧ 1 ≤ t.shards ∧ t.shards ≤ 4096) &&
    (!t.exact || decide (-160 ≤ t.emin ∧ t.emin ≤ 96)) && decide (t.rows ≤ t.shards * 2 ^ t.shift)

/-- One present entry of a shard map that keeps to R267. -/
def TableVer.entryOk (t : TableVer) (i : Nat) : Bool :=
  let (b, w) := t.entry i
  let n := Nat.min (2 ^ t.shift) (t.rows - i * 2 ^ t.shift)
  let within (g : Word) (bytes : Nat) : Bool := decide (offOf g % 2 ^ 30 + bytes ≤ 2 ^ 30)
  b == 0 ||
    (within b (n * t.stride) && decide (b.toNat % t.stride = 0) &&
      (if t.exact then w != 0 && within w (n * (16 * t.e)) && decide (w.toNat % (16 * t.e) = 0 ∧ fdnOf w = fdnOf b)
       else w == 0 || fdnOf w == fdnOf b))

/-- The entries of a shard map from its bytes (Table 12-2). -/
def mapOfBytes (n : Nat) (bs : List Byte) : List (Word × Word) :=
  (List.range n).map fun i => (wordAtByte bs (16 * i), wordAtByte bs (16 * i + 8))

/-- The IID holds the own right on every extent of this device that the map names (R267). DESIGN CHOICE, unsafe (log 49): the rights of an
extent on another device are not known here, and no message asks for them. -/
def mapRights (s : State) (iid : BitVec 16) (m : List (Word × Word)) : Bool :=
  m.all fun e => [e.1, e.2].all fun g => g == 0 || !isHere s (fdnOf g) || (rightsOf (extDesc s (extOf (addr s g))) iid).own

def shardEntries (s : State) : Nat := (s.emb.tables.map (·.map.length)).sum

/-- The line GSAs of a shard map's source. -/
def mapLines (t : TableVer) : List Word := (linesOver (offOf (t.w 2)) (16 * t.shards)).map fun l => mkGsa (fdnOf (t.w 2)) (128 * l)

/-- CREATE or REPLACE once the map is there; the rights come before the checks of its entries (log 50). -/
def putTable (r : TableRun) (m : List (Word × Word)) (s : State) : State :=
  let t : TableVer := { handle := r.handle, words := r.words, map := m, live := true }
  if !r.fm && !mapRights s r.iid m then cmdDone tblDone .denied 0 s
  else if !((List.range m.length).all t.entryOk) then cmdDone tblDone .malformed 0 s
  else if 1048576 < shardEntries s + m.length then cmdDone tblDone .queueFull 0 s
  else
    let v := Tab.get 0 s.emb.lastVer r.handle + 1
    let s := dropVersions (s.modEmb fun e => { e with
      tables := (e.tables.map fun x => if x.handle = r.handle then { x with live := false } else x) ++ [{ t with version := v }]
      lastVer := Tab.put 0 r.handle v e.lastVer })
    cmdDone tblDone .ok (v.setWidth 32) s

/-- The members of a table group (R286). -/
def groupOf (s : State) (g : Nat) : List (BitVec 16) := ((s.emb.groups.find? (·.1 == g)).map (·.2)).getD []

/-- A moved shard's new entry is installed as a REPLACE of its table (R287 step 6). -/
def shardMoved (handle shard : Nat) (base win : Word) (s : State) : State :=
  match liveTable s handle with
  | none => s
  | some t =>
    let v := Tab.get 0 s.emb.lastVer handle + 1
    dropVersions (s.modEmb fun e => { e with
      tables := (e.tables.map fun x => if x.handle = handle then { x with live := false } else x) ++
        [{ t with map := t.map.set shard (base, win), version := v }]
      lastVer := Tab.put 0 handle v e.lastVer })

/-- Read the shard map and finish the command: from this device at once, from another line by line (R267). -/
def tableStep (s : State) : State :=
  match s.emb.run with
  | none => s
  | some r =>
    let t : TableVer := { handle := r.handle, words := r.words }
    let over_ (f : State → State) (s : State) : State := f ((modUnit 15 (fun _ => {}) s).modEmb fun e => { e with run := none })
    let o := offOf (t.w 2) % 128
    if isHere s (fdnOf (t.w 2)) then
      let a := addr s (t.w 2)
      over_ (putTable r (mapOfBytes t.shards ((storedBytes s (a / 128) (mapLines t).length).drop o))) s
    else
      let (x, s) := rowLinesGot 15 0 r.iid (mapLines t) s
      match x with
      | .wait => s
      | .bad st _ => over_ (cmdDone tblDone st 0) s
      | .row bs p => if p then over_ (cmdDone tblDone .poison 0) s else over_ (putTable r (mapOfBytes t.shards (bs.drop o))) s

/-- CREATE and REPLACE: the checks that need no map, then the map. -/
def tablePut (wr : Writer) (replace : Bool) (handle : Nat) (s : State) : State :=
  (issue wr none [.a, .f] tblCmd tblDone (fun s =>
    let r : TableRun := { replace := replace, handle := handle, words := stagedWords s wr Off.gln, iid := writerIid s wr, fm := hasCls s wr none .f }
    let live := (liveTable s handle).isSome
    let n := (s.emb.tables.filter (·.handle == handle)).length
    if live ≠ replace ∨ (replace ∧ 4 ≤ n) then cmdDone tblDone .busy 0 s
    else if !({ handle := handle, words := r.words } : TableVer).descOk then cmdDone tblDone .malformed 0 s
    else tableStep (s.modEmb fun e => { e with run := some r })) s).2

/-- TABLE_CREATE (R267). -/
def execTableCreate (wr : Writer) (handle : BitVec 12) (s : State) := complete (tablePut wr false handle.toNat) s

/-- TABLE_REPLACE (R267). -/
def execTableReplace (wr : Writer) (handle : BitVec 12) (s : State) := complete (tablePut wr true handle.toNat) s

/-- DELETE (Table 12-3). -/
def tableGone (wr : Writer) (handle : Nat) (s : State) : State :=
  (issue wr none [.a, .f] tblCmd tblDone (fun s =>
    match liveTable s handle with
    | none => cmdDone tblDone .busy 0 s
    | some t =>
      if !hasCls s wr none .f && !mapRights s (writerIid s wr) t.map then cmdDone tblDone .denied 0 s
      else
        let s := s.modEmb fun e => { e with tables := e.tables.map fun x => if x.handle = handle then { x with live := false } else x }
        cmdDone tblDone .ok (t.version.setWidth 32) (dropVersions s)) s).2

/-- TABLE_DELETE (R267). -/
def execTableDelete (wr : Writer) (handle : BitVec 12) (s : State) := complete (tableGone wr handle.toNat) s

/-! ### Table groups (Table 22-3) -/

def grpCmd : Nat := Off.gln + 0x180
def grpDone : Nat := Off.gln + 0x188

/-- GLN_GROUP_CMD: SET names up to 64 devices, four a word, 0xFFFF unused; CLEAR forgets the group. -/
def groupCmd (wr : Writer) (set : Bool) (group : Nat) (s : State) : State :=
  (issue wr none [.f] grpCmd grpDone (fun s =>
    let fs := (stagedWords s wr (Off.gln + 0x100)).flatMap fun w => (List.range 4).map fun i => BitVec.ofNat 16 (fld w (16 * i + 15) (16 * i))
    cmdDone grpDone .ok 0 (s.modEmb fun e => { e with
      groups := (e.groups.filter (·.1 != group)) ++ (if set then [(group, fs.filter (· != 0xFFFF))] else []) })) s).2

/-- GROUP_SET (R286). -/
def execGroupSet (wr : Writer) (group : BitVec 32) (s : State) := complete (groupCmd wr true group.toNat) s

/-- GROUP_CLEAR (R286). -/
def execGroupClear (wr : Writer) (group : BitVec 32) (s : State) := complete (groupCmd wr false group.toNat) s

/-! ### Cuttings (R284, R285) -/

def cutLeaseNs (s : State) : Nat := 1000 * (regGet s (Off.gln + 0x308)).toNat

/-- A device asks for a cutting of a row homed here, or renews one: granted with its lines and its lease end, or refused (R284). -/
def cutAsked (holder : BitVec 16) (h row : Nat) (s : State) : State :=
  let no := emit (.cutRefuse holder h row)
  match liveTable s h with
  | none => no s
  | some v =>
    match v.rowAt row with
    | none => no s
    | some g =>
      if !v.cutOk ∨ v.rows ≤ row ∨ !isHere s (fdnOf g) then no s
      else
        let ls := linesOver (addr s g) v.rowBytes
        let live := s.emb.cuts.filter fun c => decide (now s < c.lease)
        let mine (c : Cut) : Bool := c.handle == h && c.row == row && c.holder == holder
        let others := live.filter fun c => c.handle == h && c.row == row && !mine c
        let fresh := s.emb.written.any fun w => ls.contains w.1 && decide (now s < w.2 + cutLeaseNs s)
        let drop := live.any fun c => c.handle == h && c.row == row && c.dropping
        if (regGet s (Off.gln + 0x310)).toNat ≤ others.length ∨ (65536 ≤ live.length ∧ !live.any mine) ∨ fresh ∨ drop then no s
        else
          let lease := now s + cutLeaseNs s
          emit (.cutGrant holder h row lease (ls.map (storedLine s))) (s.modEmb fun e => { e with
            cuts := (live.filter fun c => !mine c) ++ [{ handle := h, row := row, holder := holder, lease := lease }] })

/-- CUTTING_REQUEST (R284). -/
def execCuttingRequest (holder : BitVec 16) (handle : BitVec 12) (row : BitVec 40) (s : State) :=
  complete (cutAsked holder handle.toNat row.toNat) s

/-- A granted cutting reaches this device; it is kept while the pool of GLN_CUT_MAX MiB, and with the pinned frames TIER_PIN_LIMIT, has
room (R284). The lease end and the lines are the answer's data. -/
def cutGranted (h row : Nat) (home : BitVec 16) (lease : Nat) (lines : List Line) (s : State) : State :=
  let rest := s.emb.held.filter fun c => !(c.handle == h && c.row == row)
  let pool := 128 * ((rest.map (·.lines.length)).sum + lines.length)
  let pinned := 16384 * (s.tier.tags.filter fun e => e.2.retention == .pinned).length
  if (regGet s (Off.gln + 0x318)).toNat * 2 ^ 20 < pool ∨ (regGet s (Off.tier + 8)).toNat * 2 ^ 30 < pinned + pool then
    s.modEmb fun e => { e with held := rest }
  else s.modEmb fun e => { e with held := rest ++ [{ handle := h, row := row, home := home, lines := lines, lease := lease }] }

/-- CUT_DROP: the holder drops its cutting and confirms (R285). -/
def cutDropped (home : BitVec 16) (h row : Nat) (s : State) : State :=
  emit (.cutDropped home h row) (s.modEmb fun e => { e with held := e.held.filter fun c => !(c.handle == h && c.row == row) })

def execCutDrop (home : BitVec 16) (handle : BitVec 12) (row : BitVec 40) (s : State) := complete (cutDropped home handle.toNat row.toNat) s

/-- CUT_DROP_CONFIRM: the cutting is over, and a write that waits for it goes on (R285). -/
def cutConfirmed (holder : BitVec 16) (h row : Nat) (s : State) : State :=
  pump (s.modEmb fun e => { e with cuts := e.cuts.filter fun c => !(c.handle == h && c.row == row && c.holder == holder) })

def execCutDropConfirm (holder : BitVec 16) (handle : BitVec 12) (row : BitVec 40) (s : State) :=
  complete (cutConfirmed holder handle.toNat row.toNat) s

/-- A lease end: the holder renews a hot row 100 ns before it, or stops serving it; at the home the record is over (R284, R285). -/
def leaseEnd (h row : Nat) (hot : Bool) (s : State) : State :=
  let s := match s.emb.held.find? (fun c => c.handle == h && c.row == row) with
    | none => s
    | some c =>
      let s := reach (c.lease - 100) s
      if hot then
        let (_, s) := track (.cutting h row) 0 c.home 0 s
        emit (.cutRequest c.home h row) s
      else s.modEmb fun e => { e with held := e.held.filter fun x => !(x.handle == h && x.row == row) }
  match (s.emb.cuts.filter fun c => c.handle == h && c.row == row).map (·.lease) with
  | [] => s
  | ls =>
    let s := reach (ls.foldl Nat.max 0) s
    pump (s.modEmb fun e => { e with cuts := e.cuts.filter fun c => decide (now s < c.lease) })

/-- CUTTING_LEASE_END (R284). -/
def execCuttingLeaseEnd (handle : BitVec 12) (row : BitVec 40) (hot : Bool) (s : State) := complete (leaseEnd handle.toNat row.toNat hot) s

/-- SHARD_LOAD_TOTALS: the totals of another member for its interval (R286). -/
def loadTotals (member : BitVec 16) (group : Nat) (ls : List (BitVec 12 × BitVec 13 × Nat)) (s : State) : State :=
  s.modEmb fun e => { e with
    totals := (e.totals.filter fun t => !(t.1 == member && t.2.1 == group)) ++ [(member, group, (ls.map (·.2.2)).sum)] }

def execShardLoadTotals (member : BitVec 16) (group : BitVec 32) (loads : List (BitVec 12 × BitVec 13 × Nat)) (s : State) :=
  complete (loadTotals member group.toNat loads) s

end Sys2Proof.Machine
end

