-- ==== Sys2Proof/Machine/Riscv.lean ====
section
/-! DEFINITION. The instruction set of DIBBER: RV64IMAC with Zicsr and Zifencei (R214), as the RISC-V unprivileged and privileged
architectures give it (PRESUMED, log 12): the compressed forms as the 32-bit instructions they stand for, and what one instruction
asks of the machine around it. -/

namespace Sys2Proof.Machine

open Sys2Proof

/-! ### Fields of an instruction word -/

def rvRd (i : Nat) : Nat := i / 128 % 32
def rvF3 (i : Nat) : Nat := i / 4096 % 8
def rvRs1 (i : Nat) : Nat := i / 32768 % 32
def rvRs2 (i : Nat) : Nat := i / 1048576 % 32
def rvF7 (i : Nat) : Nat := i / 33554432 % 128

/-- Bits `[h:l]` of a number. -/
def bitsOf (i h l : Nat) : Nat := i / 2 ^ l % 2 ^ (h + 1 - l)

/-- A `b`-bit two's complement number as a word. -/
def sext (b v : Nat) : Word := BitVec.ofInt 64 (if v % 2 ^ b < 2 ^ (b - 1) then (v % 2 ^ b : Int) else (v % 2 ^ b : Int) - 2 ^ b)

def rvImmI (i : Nat) : Word := sext 12 (bitsOf i 31 20)
def rvImmS (i : Nat) : Word := sext 12 (bitsOf i 31 25 * 32 + bitsOf i 11 7)
def rvImmB (i : Nat) : Word :=
  sext 13 (bitsOf i 31 31 * 4096 + bitsOf i 7 7 * 2048 + bitsOf i 30 25 * 32 + bitsOf i 11 8 * 2)
def rvImmU (i : Nat) : Word := sext 32 (bitsOf i 31 12 * 4096)
def rvImmJ (i : Nat) : Word :=
  sext 21 (bitsOf i 31 31 * 2 ^ 20 + bitsOf i 19 12 * 4096 + bitsOf i 20 20 * 2048 + bitsOf i 30 21 * 2)

/-! ### Compressed instructions, as the 32-bit words they stand for -/

def mkR (f7 rs2 rs1 f3 rd op : Nat) : Nat := f7 * 2 ^ 25 + rs2 * 2 ^ 20 + rs1 * 2 ^ 15 + f3 * 2 ^ 12 + rd * 2 ^ 7 + op
def mkI (imm rs1 f3 rd op : Nat) : Nat := imm % 4096 * 2 ^ 20 + rs1 * 2 ^ 15 + f3 * 2 ^ 12 + rd * 2 ^ 7 + op
def mkS (imm rs2 rs1 f3 op : Nat) : Nat := mkR (imm / 32 % 128) rs2 rs1 f3 (imm % 32) op
def mkB (imm rs1 f3 : Nat) : Nat :=
  mkR (bitsOf imm 12 12 * 64 + bitsOf imm 10 5) 0 rs1 f3 (bitsOf imm 4 1 * 2 + bitsOf imm 11 11) 0x63
def mkJ (imm rd : Nat) : Nat :=
  bitsOf imm 20 20 * 2 ^ 31 + bitsOf imm 10 1 * 2 ^ 21 + bitsOf imm 11 11 * 2 ^ 20 + bitsOf imm 19 12 * 2 ^ 12 + rd * 128 + 0x6F

/-- A six-bit immediate of the compressed forms, sign-extended to twelve. -/
def imm6 (c : Nat) : Nat :=
  let v := bitsOf c 12 12 * 32 + bitsOf c 6 2
  if v < 32 then v else v + 4032

/-- Quadrant 0. -/
def rvC0 (c : Nat) : Option Nat :=
  let rd := 8 + bitsOf c 4 2
  let rs1 := 8 + bitsOf c 9 7
  let w := bitsOf c 5 5 * 64 + bitsOf c 12 10 * 8 + bitsOf c 6 6 * 4
  let d := bitsOf c 6 5 * 64 + bitsOf c 12 10 * 8
  match bitsOf c 15 13 with
  | 0 =>
    let n := bitsOf c 10 7 * 64 + bitsOf c 12 11 * 16 + bitsOf c 5 5 * 8 + bitsOf c 6 6 * 4
    if n = 0 then none else some (mkI n 2 0 rd 0x13)
  | 2 => some (mkI w rs1 2 rd 0x03)
  | 3 => some (mkI d rs1 3 rd 0x03)
  | 6 => some (mkS w rd rs1 2 0x23)
  | 7 => some (mkS d rd rs1 3 0x23)
  | _ => none

/-- Quadrant 1. -/
def rvC1 (c : Nat) : Option Nat :=
  let rd := bitsOf c 11 7
  let rp := 8 + bitsOf c 9 7
  let r2 := 8 + bitsOf c 4 2
  let sh := bitsOf c 12 12 * 32 + bitsOf c 6 2
  let b := bitsOf c 12 12 * 256 + bitsOf c 6 5 * 64 + bitsOf c 2 2 * 32 + bitsOf c 11 10 * 8 + bitsOf c 4 3 * 2
  let b := if b < 256 then b else b + 7680
  match bitsOf c 15 13 with
  | 0 => some (mkI (imm6 c) rd 0 rd 0x13)
  | 1 => if rd = 0 then none else some (mkI (imm6 c) rd 0 rd 0x1B)
  | 2 => some (mkI (imm6 c) 0 0 rd 0x13)
  | 3 =>
    if rd = 2 then
      let n := bitsOf c 12 12 * 512 + bitsOf c 4 3 * 128 + bitsOf c 5 5 * 64 + bitsOf c 2 2 * 32 + bitsOf c 6 6 * 16
      if n = 0 then none else some (mkI (if n < 512 then n else n + 3072) 2 0 2 0x13)
    else if sh = 0 then none
    else some ((if sh < 32 then sh else sh + 0xFFFC0) * 4096 + rd * 128 + 0x37)
  | 4 =>
    match bitsOf c 11 10 with
    | 0 => some (mkI sh rp 5 rp 0x13)
    | 1 => some (mkI (1024 + sh) rp 5 rp 0x13)
    | 2 => some (mkI (imm6 c) rp 7 rp 0x13)
    | _ =>
      match bitsOf c 12 12, bitsOf c 6 5 with
      | 0, 0 => some (mkR 0x20 r2 rp 0 rp 0x33)
      | 0, 1 => some (mkR 0 r2 rp 4 rp 0x33)
      | 0, 2 => some (mkR 0 r2 rp 6 rp 0x33)
      | 0, _ => some (mkR 0 r2 rp 7 rp 0x33)
      | _, 0 => some (mkR 0x20 r2 rp 0 rp 0x3B)
      | _, 1 => some (mkR 0 r2 rp 0 rp 0x3B)
      | _, _ => none
  | 5 =>
    let j := bitsOf c 12 12 * 2048 + bitsOf c 8 8 * 1024 + bitsOf c 10 9 * 256 + bitsOf c 6 6 * 128 + bitsOf c 7 7 * 64 +
      bitsOf c 2 2 * 32 + bitsOf c 11 11 * 16 + bitsOf c 5 3 * 2
    some (mkJ (if j < 2048 then j else j + 2 ^ 21 - 4096) 0)
  | 6 => some (mkB b rp 0)
  | _ => some (mkB b rp 1)

/-- Quadrant 2. -/
def rvC2 (c : Nat) : Option Nat :=
  let rd := bitsOf c 11 7
  let r2 := bitsOf c 6 2
  match bitsOf c 15 13 with
  | 0 => some (mkI (bitsOf c 12 12 * 32 + r2) rd 1 rd 0x13)
  | 2 => if rd = 0 then none else some (mkI (bitsOf c 3 2 * 64 + bitsOf c 12 12 * 32 + bitsOf c 6 4 * 4) 2 2 rd 0x03)
  | 3 => if rd = 0 then none else some (mkI (bitsOf c 4 2 * 64 + bitsOf c 12 12 * 32 + bitsOf c 6 5 * 8) 2 3 rd 0x03)
  | 4 =>
    if bitsOf c 12 12 = 0 then
      if r2 = 0 then (if rd = 0 then none else some (mkI 0 rd 0 0 0x67)) else some (mkR 0 r2 0 0 rd 0x33)
    else if r2 = 0 then (if rd = 0 then some 0x00100073 else some (mkI 0 rd 0 1 0x67))
    else some (mkR 0 r2 rd 0 rd 0x33)
  | 6 => some (mkS (bitsOf c 8 7 * 64 + bitsOf c 12 9 * 4) r2 2 2 0x23)
  | 7 => some (mkS (bitsOf c 9 7 * 64 + bitsOf c 12 10 * 8) r2 2 3 0x23)
  | _ => none

/-- The 32-bit instruction that a 16-bit parcel stands for; none for an illegal one. -/
def rvExpand (c : Nat) : Option Nat :=
  match c % 4 with
  | 0 => rvC0 c
  | 1 => rvC1 c
  | 2 => rvC2 c
  | _ => none

/-! ### What an instruction does -/

/-- What an instruction asks for: a register's new value; a jump that links; a load, store or atomic of `n` bytes; an access to a
CSR; nothing; an environment call, a breakpoint, a machine return; or it is illegal. -/
inductive RvAct where
  | set (rd : Nat) (v : Word)
  | jump (rd : Nat) (target : Word)
  | branch (taken : Bool) (target : Word)
  | load (rd : Nat) (a : Word) (n : Nat) (signed : Bool)
  | store (a : Word) (n : Nat) (v : Word)
  | lr (rd : Nat) (a : Word) (n : Nat)
  | sc (rd : Nat) (a : Word) (n : Nat) (v : Word)
  | amo (op rd : Nat) (a : Word) (n : Nat) (v : Word)
  | csr (f3 rd num : Nat) (v : Word) (writes : Bool)
  | nop
  | ecall
  | ebreak
  | mret
  | illegal
  deriving DecidableEq, Repr

/-- A 32-bit result, sign-extended. -/
def sx32 (w : Word) : Word := sext 32 w.toNat

def toS (w : Word) : Int := w.toInt
def sW (w : Word) : Int := (w.setWidth 32).toInt
def uW (w : Word) : Nat := w.toNat % 2 ^ 32

/-- Signed division that truncates, with the M extension's results for a zero divisor and for overflow (R214). -/
def rvDiv (b : Nat) (x y : Int) : Int := if y = 0 then -1 else if x = -(2 ^ (b - 1)) ∧ y = -1 then x else x.tdiv y
def rvRem (b : Nat) (x y : Int) : Int := if y = 0 then x else if x = -(2 ^ (b - 1)) ∧ y = -1 then 0 else x.tmod y

/-- Register-register operations of 64 bits. -/
def rvOp (f7 f3 : Nat) (x y : Word) : Option Word :=
  let sh := y.toNat % 64
  match f7, f3 with
  | 0, 0 => some (x + y) | 0x20, 0 => some (x - y) | 0, 1 => some (x <<< sh) | 0, 2 => some (if toS x < toS y then 1 else 0)
  | 0, 3 => some (if x.toNat < y.toNat then 1 else 0) | 0, 4 => some (x ^^^ y) | 0, 5 => some (x >>> sh)
  | 0x20, 5 => some (x.sshiftRight sh) | 0, 6 => some (x ||| y) | 0, 7 => some (x &&& y)
  | 1, 0 => some (x * y) | 1, 1 => some (BitVec.ofInt 64 (toS x * toS y / 2 ^ 64))
  | 1, 2 => some (BitVec.ofInt 64 (toS x * (y.toNat : Int) / 2 ^ 64)) | 1, 3 => some (BitVec.ofNat 64 (x.toNat * y.toNat / 2 ^ 64))
  | 1, 4 => some (BitVec.ofInt 64 (rvDiv 64 (toS x) (toS y)))
  | 1, 5 => some (if y = 0 then ~~~0 else BitVec.ofNat 64 (x.toNat / y.toNat))
  | 1, 6 => some (BitVec.ofInt 64 (rvRem 64 (toS x) (toS y)))
  | 1, 7 => some (if y = 0 then x else BitVec.ofNat 64 (x.toNat % y.toNat))
  | _, _ => none

/-- Register-register operations of 32 bits. -/
def rvOpW (f7 f3 : Nat) (x y : Word) : Option Word :=
  let sh := y.toNat % 32
  match f7, f3 with
  | 0, 0 => some (sx32 (x + y)) | 0x20, 0 => some (sx32 (x - y)) | 0, 1 => some (sx32 (x <<< sh))
  | 0, 5 => some (sext 32 (uW x / 2 ^ sh)) | 0x20, 5 => some (BitVec.ofInt 64 (sW x / 2 ^ sh))
  | 1, 0 => some (sx32 (x * y)) | 1, 4 => some (BitVec.ofInt 64 (rvDiv 32 (sW x) (sW y)))
  | 1, 5 => some (if uW y = 0 then ~~~0 else sext 32 (uW x / uW y))
  | 1, 6 => some (BitVec.ofInt 64 (rvRem 32 (sW x) (sW y)))
  | 1, 7 => some (if uW y = 0 then sx32 x else sext 32 (uW x % uW y))
  | _, _ => none

/-- Register-immediate operations of 64 bits. -/
def rvOpImm (i : Nat) (x : Word) : Option Word :=
  let v := rvImmI i
  match rvF3 i with
  | 1 => if bitsOf i 31 26 = 0 then rvOp 0 1 x v else none
  | 5 => if bitsOf i 31 26 = 0 then rvOp 0 5 x v else if bitsOf i 31 26 = 0x10 then rvOp 0x20 5 x v else none
  | f => rvOp 0 f x v

/-- Register-immediate operations of 32 bits. -/
def rvOpImmW (i : Nat) (x : Word) : Option Word :=
  let v := rvImmI i
  match rvF3 i with
  | 0 => rvOpW 0 0 x v
  | 1 => if rvF7 i = 0 then rvOpW 0 1 x v else none
  | 5 => if rvF7 i = 0 then rvOpW 0 5 x v else if rvF7 i = 0x20 then rvOpW 0x20 5 x v else none
  | _ => none

/-- The condition of a branch. -/
def rvTaken (f3 : Nat) (x y : Word) : Option Bool :=
  match f3 with
  | 0 => some (decide (x = y)) | 1 => some (decide (x ≠ y)) | 4 => some (decide (toS x < toS y))
  | 5 => some (decide (toS y ≤ toS x)) | 6 => some (decide (x.toNat < y.toNat)) | 7 => some (decide (y.toNat ≤ x.toNat))
  | _ => none

/-- The new memory value of an AMO, of `n` bytes. -/
def rvAmo (op n : Nat) (old v : Word) : Option Word :=
  let m := 2 ^ (8 * n)
  let s (w : Word) : Int := if w.toNat % m < m / 2 then (w.toNat % m : Int) else (w.toNat % m : Int) - m
  let u (w : Word) : Nat := w.toNat % m
  match op with
  | 0x01 => some v | 0x00 => some (old + v) | 0x04 => some (old ^^^ v) | 0x0C => some (old &&& v) | 0x08 => some (old ||| v)
  | 0x10 => some (if s old < s v then old else v) | 0x14 => some (if s v < s old then old else v)
  | 0x18 => some (if u old < u v then old else v) | 0x1C => some (if u v < u old then old else v)
  | _ => none

def ofVal (rd : Nat) : Option Word → RvAct
  | some v => .set rd v
  | none => .illegal

/-- What a 32-bit instruction does at `pc` with registers `x`. -/
def rvDecode (i : Nat) (pc : Word) (x : Nat → Word) : RvAct :=
  let rd := rvRd i
  let a := x (rvRs1 i)
  let b := x (rvRs2 i)
  match i % 128 with
  | 0x37 => .set rd (rvImmU i)
  | 0x17 => .set rd (pc + rvImmU i)
  | 0x6F => .jump rd (pc + rvImmJ i)
  | 0x67 => if rvF3 i = 0 then .jump rd ((a + rvImmI i) &&& ~~~1) else .illegal
  | 0x63 => (match rvTaken (rvF3 i) a b with | some t => .branch t (pc + rvImmB i) | none => .illegal)
  | 0x03 =>
    (match rvF3 i with
     | 7 => .illegal
     | f => .load rd (a + rvImmI i) (2 ^ (f % 4)) (decide (f < 4)))
  | 0x23 => if rvF3 i < 4 then .store (a + rvImmS i) (2 ^ rvF3 i) b else .illegal
  | 0x13 => ofVal rd (rvOpImm i a)
  | 0x1B => ofVal rd (rvOpImmW i a)
  | 0x33 => ofVal rd (rvOp (rvF7 i) (rvF3 i) a b)
  | 0x3B => ofVal rd (rvOpW (rvF7 i) (rvF3 i) a b)
  | 0x0F => if rvF3 i ≤ 1 then .nop else .illegal
  | 0x2F =>
    if rvF3 i ≠ 2 ∧ rvF3 i ≠ 3 then .illegal
    else
      let n := 2 ^ rvF3 i
      (match bitsOf i 31 27 with
       | 2 => if rvRs2 i = 0 then .lr rd a n else .illegal
       | 3 => .sc rd a n b
       | o => if (rvAmo o n 0 0).isSome then .amo o rd a n b else .illegal)
  | 0x73 =>
    (match rvF3 i with
     | 0 =>
       if rd ≠ 0 ∨ rvRs1 i ≠ 0 then .illegal
       else
         (match bitsOf i 31 20 with
          | 0 => .ecall | 1 => .ebreak | 0x302 => .mret | 0x105 => .nop | _ => .illegal)
     | 4 => .illegal
     | f => .csr (f % 4) rd (bitsOf i 31 20) (if f < 4 then a else BitVec.ofNat 64 (rvRs1 i)) (f % 4 == 1 || decide (rvRs1 i ≠ 0)))
  | _ => .illegal

end Sys2Proof.Machine
end

