-- ==== Sys2Proof/Machine/Dibber.lean ====
section
/-! DEFINITION. DIBBER: its local window, its custom CSRs, one instruction of a job in user mode and one of the stream runtime in
machine mode (R214-R220). -/

namespace Sys2Proof.Machine

open Sys2Proof

/-! ### The local window (Table 09-8) -/

/-- Where a DIBBER address lies. -/
inductive Loc where
  | scratch (off : Nat)
  | pay (slot off : Nat)
  | hdr (slot off : Nat)
  | job
  | none
  deriving DecidableEq, Repr

def dibLoc (a : Word) : Loc :=
  let n := a.toNat
  if n < 2 ^ 48 then .job
  else if 0xFFFFFFF000000000 ≤ n ∧ n < 0xFFFFFFF000000000 + 65536 then .scratch (n - 0xFFFFFFF000000000)
  else if 0xFFFFFFF100000000 ≤ n ∧ n < 0xFFFFFFF100000000 + 2048 * 4096 then
    .pay ((n - 0xFFFFFFF100000000) / 4096) (n % 4096)
  else if 0xFFFFFFF200000000 ≤ n ∧ n < 0xFFFFFFF200000000 + 2048 * 32 then .hdr ((n - 0xFFFFFFF200000000) / 32) (n % 32)
  else .none

/-- The stream in which DIBBER holds a slot that it has taken, or allocated (R215). -/
def takenIn (b : Body) (slot : Nat) : Option Nat := (b.streams.find? fun e => e.2.consumer == 0 && e.2.taken.contains slot).map (·.1)
def allocIn (b : Body) (slot : Nat) : Option Nat := (b.streams.find? fun e => e.2.producer == 0 && e.2.alloc.contains slot).map (·.1)
def heldSlot (b : Body) (slot : Nat) : Bool := (takenIn b slot).isSome || (allocIn b slot).isSome

/-- The header words of a slot as DIBBER sees them. -/
def Tile.hdrWords (t : Tile) : List Word := if t.raw.isEmpty then t.h.words else t.raw

/-- A byte of the local window; none where it is an access fault. -/
def dibByte (b : Body) (a : Word) : Option Byte :=
  match dibLoc a with
  | .scratch o => some (readByte b.dib.scratch o)
  | .pay s o => if heldSlot b s then some (BitVec.ofNat 8 (payBits (b.tile s).pay (8 * o) 8)) else none
  | .hdr s o => if heldSlot b s then some ((bytesOfWords (b.tile s).hdrWords).getD o 0) else none
  | .job | .none => none

/-- Write a byte of the local window. -/
def dibPut (b : Body) (a : Word) (v : Byte) : Option Body :=
  match dibLoc a with
  | .scratch o => some { b with dib := { b.dib with scratch := writeByte b.dib.scratch o v } }
  | .pay s o =>
    if heldSlot b s then
      let t := b.tile s
      let m : Payload := BitVec.ofNat 32768 (255 * 2 ^ (8 * o))
      some { b with tiles := Tab.put {} s { t with pay := (t.pay &&& ~~~m) ||| BitVec.ofNat 32768 (v.toNat * 2 ^ (8 * o)) } b.tiles }
    else none
  | .hdr s o =>
    if heldSlot b s then
      let t := b.tile s
      some { b with tiles := Tab.put {} s { t with raw := wordsOfBytes 4 ((bytesOfWords t.hdrWords).set o v) } b.tiles }
    else none
  | .job | .none => none

def dibBytes (b : Body) : Nat → Word → Option (List Byte)
  | 0, _ => some []
  | n + 1, a => (dibByte b a).bind fun v => (dibBytes b n (a + 1)).map (v :: ·)

def dibPuts (b : Body) : List Byte → Word → Option Body
  | [], _ => some b
  | v :: l, a => (dibPut b a v).bind fun b => dibPuts b l (a + 1)

/-! ### Accesses (R215, R216) -/

/-- What an access found: bytes, or for a store that it is done; something to wait for; an exception of R217; or the job's end. -/
inductive MemRes where
  | bytes (bs : List Byte)
  | wait
  | fault
  | bad (cause : Nat) (st : Status) (whereAt : Word)
  deriving DecidableEq, Repr

/-- An access that crosses a line boundary. -/
def crossesLine (a : Word) (n : Nat) : Bool := decide (128 < a.toNat % 128 + n)

/-- Read `n` bytes for a load or a fetch: local, or the job's view under the right that the access needs. -/
def dibRead (core : Fin 16) (ctx : Fin 8) (k : Acc) (a : Word) (n : Nat) (s : State) : MemRes × State :=
  let b := ((jobAt s (jobKey core ctx)).getD {}).b
  if crossesLine a n then (.fault, s)
  else
    match dibLoc a with
    | .none => (.fault, s)
    | .job =>
      let (x, s) := xlate core ctx 0 a k s
      (match x with
       | .denied => (.fault, s)
       | .wait => (.wait, s)
       | .bad c st => (.bad c st a, s)
       | _ =>
         let o := a.toNat % 128
         let (g, s) := viewLine core ctx 0 (a - BitVec.ofNat 64 o) k s
         match g with
         | .wait => (.wait, s)
         | .bad c st w => (.bad c st w, s)
         | .bytes bs poison => if poison then (.bad 4 .poison a, s) else (.bytes ((bs.drop o).take n), s))
    | _ =>
      match dibBytes b n a with
      | some bs => (.bytes bs, s)
      | none => (.fault, s)

/-- Store bytes: local, or staged (R216). -/
def dibWrite (core : Fin 16) (ctx : Fin 8) (a : Word) (bs : List Byte) (s : State) : MemRes × State :=
  let key := jobKey core ctx
  let b := ((jobAt s key).getD {}).b
  if crossesLine a bs.length then (.fault, s)
  else
    match dibLoc a with
    | .none => (.fault, s)
    | .job =>
      let (x, s) := xlate core ctx 0 a .w s
      (match x with
       | .denied => (.fault, s)
       | .wait => (.wait, s)
       | .bad c st => (.bad c st a, s)
       | _ =>
         let (r, s) := stageBytes core ctx 0 a bs s
         match r with
         | .ok => (.bytes [], s)
         | .wait => (.wait, s)
         | .bad c st w => (.bad c st w, s))
    | _ =>
      match dibPuts b bs a with
      | some b => (.bytes [], modBody key (fun _ => b) s)
      | none => (.fault, s)

/-! ### The custom CSRs (Table 09-9) -/

/-- What a write of a custom CSR does: its answer, something to wait for, the job's end under MALFORMED, or nothing further to do
because the commit has begun. -/
inductive CsrRes where
  | ans (v : Word)
  | wait
  | bad
  | over
  deriving DecidableEq, Repr

/-- A body as changed by a CSR write, with its answer. -/
abbrev CsrBody := CsrRes × Body

def ended (b : Body) : Bool := b.stations.all fun e => decide (e.2.cmds.length ≤ e.2.idx) && e.2.outq.isEmpty

/-- Appended commands of a station that have not started. -/
def unstarted (x : Station) : Nat := x.cmds.length - Nat.max x.graphLen (x.idx + 1)

/-- NMC_CMD_PUSH: the command at an address in scratch. -/
def csrPush (b : Body) (v : Word) : CsrBody :=
  match dibLoc v, dibBytes b 32 v with
  | .scratch _, some bs =>
    let ws := wordsOfBytes 4 bs
    let c := cmdOf ws
    let x := b.station c.station
    if c.station = 0 ∨ 6 < c.station ∨ !cmdOk b.streams c then (.bad, b)
    else if 256 ≤ unstarted x then (.ans 0x0B, b)
    else (.ans 0, b.setStation c.station fun x => { x with cmds := x.cmds ++ [c] })
  | _, _ => (.bad, b)

/-- NMC_ARITH_STATUS: the flags as they stood; the bits written as 1 are cleared (R220). -/
def csrArith (b : Body) (v : Word) : CsrBody := (.ans (b.arith.setWidth 64), { b with arith := b.arith &&& ~~~(v.setWidth 5) })

/-- NMC_TILE_TAKE. -/
def csrTake (b : Body) (v : Word) : CsrBody :=
  let k := v.toNat
  if (b.streams.any fun e => e.1 == k && e.2.consumer == 0) = false then (.bad, b)
  else
    match (b.stream k).ready with
    | [] => (.wait, b)
    | x :: _ => (.ans (BitVec.ofNat 64 x), b.take k)

/-- The tile in a slot is consumed and the slot returns to its stream. -/
def freeSlot (k slot : Nat) (b : Body) : Body :=
  let last := (b.tile slot).h.last
  drainPort 4096 { b with
    streams := Tab.upd {} k (fun x => { x with
      taken := x.taken.filter (· != slot), free := x.free ++ [slot], consumed := x.consumed + 1, ended := x.ended || last }) b.streams
    tiles := Tab.put {} slot {} b.tiles }

/-- NMC_TILE_FREE: a slot taken is consumed; one allocated and not emitted goes back to its stream. -/
def csrFree (b : Body) (v : Word) : CsrBody :=
  match takenIn b v.toNat, allocIn b v.toNat with
  | some k, _ => (.ans 0, freeSlot k v.toNat b)
  | none, some k => (.ans 0, { b with
      streams := Tab.upd {} k (fun x => { x with alloc := x.alloc.filter (· != v.toNat), free := x.free ++ [v.toNat] }) b.streams })
  | none, none => (.bad, b)

/-- NMC_TILE_ALLOC. -/
def csrAlloc (b : Body) (v : Word) : CsrBody :=
  let k := v.toNat
  if (b.streams.any fun e => e.1 == k && e.2.producer == 0) = false then (.bad, b)
  else
    match (b.stream k).free with
    | [] => (.wait, b)
    | x :: xs => (.ans (BitVec.ofNat 64 x), { b with streams := Tab.upd {} k (fun s => { s with free := xs, alloc := s.alloc ++ [x] }) b.streams })

/-- NMC_TILE_EMIT: stream and seq go into the header, which is then on its way to its consumer. -/
def csrEmit (b : Body) (v : Word) : CsrBody :=
  match allocIn b v.toNat with
  | none => (.bad, b)
  | some k =>
    let x := b.stream k
    let t := b.tile v.toNat
    let ws := t.hdrWords
    let ws := ws.set 0 (setFld (setFld (wordAt ws 0) 63 58 k) 57 32 x.seq)
    if 2 ^ 26 ≤ x.seq then (.bad, b)
    else (.ans 0, { b with
      streams := Tab.put {} k { x with alloc := x.alloc.filter (· != v.toNat), written := x.written ++ [v.toNat], seq := x.seq + 1 } b.streams
      tiles := Tab.put {} v.toNat { t with raw := ws } b.tiles })

/-- A write of custom CSR `num`. NMC_COMMIT and NMC_FEWER are given a meaning for the value 1; another value does nothing, and
its answer is a free value that only the CSR and the value written determine, so that two runs of a job agree on it (R9, R222, log 2). -/
def csrWrite (core : Fin 16) (ctx : Fin 8) (num : Nat) (v : Word) (s : State) : CsrRes × State :=
  let key := jobKey core ctx
  let b := ((jobAt s key).getD {}).b
  let on (r : CsrBody) : CsrRes × State := (r.1, modBody key (fun _ => r.2) s)
  match num with
  | 0x800 => on (csrPush b v)
  | 0x801 =>
    if v ≠ 1 then (.ans (Config.csrAnswer num v), s)
    else if !ended b then (.ans 0x10, s)
    else (.over, commitBegin core ctx (modBody key (fun b => { b with dib := { b.dib with instret := b.dib.instret + 1 } }) s))
  | 0x802 => if v ≠ 1 then (.ans (Config.csrAnswer num v), s) else on (.ans 0, { b with fewer := true })
  | 0x803 => on (csrArith b v)
  | 0x804 => on (csrTake b v)
  | 0x805 => on (csrFree b v)
  | 0x806 => on (csrAlloc b v)
  | _ => on (csrEmit b v)

/-- A CSR access of a job: what it reads and does (R218, R219); none where it is illegal. -/
def csrAccess (core : Fin 16) (ctx : Fin 8) (f3 num : Nat) (v : Word) (writes : Bool) (s : State) : Option CsrRes × State :=
  let j := (jobAt s (jobKey core ctx)).getD {}
  if num = 0x803 then
    let old : Word := j.b.arith.setWidth 64
    if !writes then (some (.ans old), s)
    else
      let (r, s) := csrWrite core ctx num (if f3 = 1 then v else if f3 = 2 then old ||| v else old &&& ~~~v) s
      (some r, s)
  else if 0x800 ≤ num ∧ num ≤ 0x807 then
    let (r, s) := csrWrite core ctx num (if f3 = 3 then 0 else v) s
    (some r, s)
  else if writes then (none, s)
  else if num = 0xCC0 then (some (.ans (j.tag.setWidth 64)), s)
  else if num = 0xCC1 then (some (.ans (BitVec.ofNat 64 j.slots.length)), s)
  else if 0xC00 ≤ num ∧ num ≤ 0xC02 then (some (.ans (BitVec.ofNat 64 j.b.dib.instret)), s)
  else (none, s)

/-! ### Retiring -/

/-- What an instruction reads in register `n`: 0 in x0 (log 12). -/
def Dib.reg (d : Dib) (n : Nat) : Word := if n = 0 then 0 else d.x.getD n 0

/-- The registers after a write of `rd`, which x0 ignores (log 12). -/
def setX (rd : Nat) (v : Word) (x : List Word) : List Word := if rd = 0 then x else x.set rd v

/-- An instruction retires: its register, the next pc, the count of R218. -/
def Dib.retire (d : Dib) (rd : Nat) (v : Word) (pc : Word) : Dib := { d with x := setX rd v d.x, pc := pc, instret := d.instret + 1 }

def retire (core : Fin 16) (ctx : Fin 8) (rd : Nat) (v : Word) (pc : Word) (s : State) : State :=
  let k := jobKey core ctx
  progress k (doneWith k 0 (modBody k (fun b => { b with dib := b.dib.retire rd v pc }) s))

/-- An exception of R217 ends the job; `where` is its pc. -/
def dibTrap (core : Fin 16) (ctx : Fin 8) (pc : Word) (s : State) : State := endJob core ctx 7 .malformed pc s

/-- The job whose user code DIBBER may execute now: its context owns the stations, is not being suspended and has not committed. -/
def dibJob (core : Fin 16) (ctx : Fin 8) (s : State) : Option Job :=
  match jobAt s (jobKey core ctx) with
  | none => none
  | some j => if j.phase = .ready ∧ ownerCtx s core.val = some ctx.val ∧ !j.b.dib.stopped then some j else none

/-- A CSR instruction with its answer in rd. -/
def csrStep (core : Fin 16) (ctx : Fin 8) (f3 rd num : Nat) (v : Word) (writes : Bool) (pc next : Word) (s : State) : State :=
  let (r, t) := csrAccess core ctx f3 num v writes s
  match r with
  | none => dibTrap core ctx pc s
  | some .wait => s
  | some .bad => endJob core ctx 7 .malformed 0 t
  | some .over => t
  | some (.ans a) => retire core ctx rd a next t

/-! ### One instruction in user mode -/

/-- What the memory access of an instruction leads to. -/
def onMem (core : Fin 16) (ctx : Fin 8) (pc : Word) (r : MemRes × State) (k : List Byte → State → State) : State :=
  match r.1 with
  | .bytes bs => k bs r.2
  | .wait => r.2
  | .fault => dibTrap core ctx pc r.2
  | .bad c st w => failAt core ctx c st w r.2

/-- A value of `n` bytes as a register takes it. -/
def loadVal (n : Nat) (signed : Bool) (bs : List Byte) : Word :=
  if signed then sext (8 * n) (natOfBytes bs) else BitVec.ofNat 64 (natOfBytes bs)

/-- Is an address, for an atomic, in context scratch and within a line? -/
def inScratch (a : Word) (n : Nat) : Bool :=
  !crossesLine a n && (match dibLoc a with | .scratch _ => true | _ => false)

def setResv (core : Fin 16) (ctx : Fin 8) (r : Option (Nat × Nat)) (s : State) : State :=
  modBody (jobKey core ctx) (fun b => { b with dib := { b.dib with resv := r } }) s

/-- Carry out one decoded instruction of a job. -/
def userAct (core : Fin 16) (ctx : Fin 8) (d : Dib) (next : Word) (act : RvAct) (s : State) : State :=
  let pc := d.pc
  match act with
  | .set rd v => retire core ctx rd v next s
  | .jump rd t => retire core ctx rd next t s
  | .branch taken t => retire core ctx 0 0 (if taken then t else next) s
  | .load rd a n sg => onMem core ctx pc (dibRead core ctx .r a n s) fun bs s => retire core ctx rd (loadVal n sg bs) next s
  | .store a n v => onMem core ctx pc (dibWrite core ctx a (bytesOfNat n v.toNat) s) fun _ s => retire core ctx 0 0 next s
  | .lr rd a n =>
    if !inScratch a n then dibTrap core ctx pc s
    else onMem core ctx pc (dibRead core ctx .r a n s) fun bs s =>
      retire core ctx rd (loadVal n true bs) next (setResv core ctx (some (a.toNat, n)) s)
  | .sc rd a n v =>
    if !inScratch a n then dibTrap core ctx pc s
    else
      let ok := decide (d.resv = some (a.toNat, n))
      let s := setResv core ctx none s
      if ok then onMem core ctx pc (dibWrite core ctx a (bytesOfNat n v.toNat) s) fun _ s => retire core ctx rd 0 next s
      else retire core ctx rd 1 next s
  | .amo op rd a n v =>
    if !inScratch a n then dibTrap core ctx pc s
    else onMem core ctx pc (dibRead core ctx .r a n s) fun bs s =>
      let old := loadVal n true bs
      onMem core ctx pc (dibWrite core ctx a (bytesOfNat n ((rvAmo op n old v).getD 0).toNat) s) fun _ s => retire core ctx rd old next s
  | .csr f3 rd num v writes => csrStep core ctx f3 rd num v writes pc next s
  | .nop => retire core ctx 0 0 next s
  | .ecall | .ebreak | .mret | .illegal => dibTrap core ctx pc s

/-- The instruction at a pc: its 32-bit word, compressed ones expanded, and its length; none where it is illegal. It is fetched by its
16-bit parcels, so that one of 32 bits may cross a line (DEDUCED from R214's compressed forms, log 12); an odd pc is misaligned. -/
def dibFetch (core : Fin 16) (ctx : Fin 8) (pc : Word) (s : State) : (MemRes ⊕ Option (Nat × Nat)) × State :=
  if pc.toNat % 2 = 1 then (.inl .fault, s)
  else
  let (r, s) := dibRead core ctx .x pc 2 s
  match r with
  | .bytes lo =>
    let c := natOfBytes lo
    if c % 4 ≠ 3 then (.inr ((rvExpand c).map (·, 2)), s)
    else
      let (r, s) := dibRead core ctx .x (pc + 2) 2 s
      (match r with
       | .bytes hi => (.inr (some (c + 65536 * natOfBytes hi, 4)), s)
       | r => (.inl r, s))
  | r => (.inl r, s)

/-- DIBBER executes one instruction of the context's job (R214-R218). -/
def userStep (core : Fin 16) (ctx : Fin 8) (s : State) : State :=
  match dibJob core ctx s with
  | none => s
  | some j =>
    let d := j.b.dib
    let (f, s) := dibFetch core ctx d.pc s
    match f with
    | .inl r => onMem core ctx d.pc (r, s) fun _ s => s
    | .inr none => dibTrap core ctx d.pc s
    | .inr (some (i, len)) => userAct core ctx d (d.pc + BitVec.ofNat 64 len) (rvDecode i d.pc d.reg) s

/-! ### One instruction of the runtime in machine mode -/

/-- Machine-mode CSRs of a hart with machine and user modes (PRESUMED, log 12). What the privileged architecture leaves optional and
R214 does not name, such as memory protection and counter inhibition, is not supported (R3): its CSRs are illegal. -/
def machineCsr (n : Nat) : Bool :=
  [0x300, 0x301, 0x304, 0x305, 0x306, 0x340, 0x341, 0x342, 0x343, 0x344, 0xF11, 0xF12, 0xF13, 0xF14, 0xF15].contains n

def Dib.csr (d : Dib) (n : Nat) : Word := Tab.get 0 d.csrs n
def Dib.setCsr (d : Dib) (n : Nat) (v : Word) : Dib := { d with csrs := Tab.put 0 n v d.csrs }

/-- A trap taken in machine mode: mepc, mcause, mtval and mstatus, and on to mtvec. -/
def Dib.trap (d : Dib) (cause tval : Nat) : Dib :=
  let st := d.csr 0x300
  let st := setFld (setFld (setFld st 12 11 (if d.machine then 3 else 0)) 7 7 (fld st 3 3)) 3 3 0
  let d := (((d.setCsr 0x341 d.pc).setCsr 0x342 (BitVec.ofNat 64 cause)).setCsr 0x343 (BitVec.ofNat 64 tval)).setCsr 0x300 st
  { d with machine := true, pc := d.csr 0x305 &&& ~~~3 }

/-- MRET. -/
def Dib.mret (d : Dib) : Dib :=
  let st := d.csr 0x300
  let m := decide (fld st 12 11 = 3)
  let st := setFld (setFld (setFld st 3 3 (fld st 7 7)) 7 7 1) 12 11 0
  { d.setCsr 0x300 st with machine := m, pc := d.csr 0x341 }

/-- The runtime's hart of a core. -/
def rtDib (s : State) (core : Nat) : Dib := Tab.get { machine := true, x := List.replicate 32 0 } s.nmc.rt core
def setRt (core : Nat) (d : Dib) (s : State) : State :=
  s.modNmc fun n => { n with rt := Tab.put { machine := true, x := List.replicate 32 0 } core d n.rt }

/-- One instruction of the runtime. Its own memory is not the spec's to give (log 12): what a load or an atomic reads there is a free
value, and a store shows nowhere. The custom CSRs act on the context it serves. -/
def rtStep (core : Fin 16) (ctx : Fin 8) (w : BitVec 32) (s : State) : State :=
  let d := { rtDib s core.val with machine := true }
  let put (d : Dib) (s : State) : State := setRt core.val d s
  let len := if w.toNat % 4 = 3 then 4 else 2
  let next := d.pc + BitVec.ofNat 64 len
  let act := match (if len = 4 then some w.toNat else rvExpand (w.toNat % 65536)) with
    | some i => rvDecode i d.pc d.reg
    | none => .illegal
  let ill := d.trap 2 w.toNat
  match act with
  | .set rd v => put (d.retire rd v next) s
  | .jump rd t => put (d.retire rd next t) s
  | .branch taken t => put (d.retire 0 0 (if taken then t else next)) s
  | .load rd _ n sg => put (d.retire rd (loadVal n sg (bytesOfNat n (Config.freeWord s.free).toNat)) next) s.draw
  | .lr rd _ n | .amo _ rd _ n _ => put (d.retire rd (loadVal n true (bytesOfNat n (Config.freeWord s.free).toNat)) next) s.draw
  | .sc rd _ _ _ => put (d.retire rd (Config.freeWord s.free) next) s.draw
  | .store _ _ _ | .nop => put (d.retire 0 0 next) s
  | .csr f3 rd num v writes =>
    if (0x800 ≤ num ∧ num ≤ 0x807) ∨ num = 0xCC0 ∨ num = 0xCC1 then
      let (r, s) := csrAccess core ctx f3 num v writes s
      (match r with
       | none => put ill s
       | some .wait => s
       | some .bad => endJob core ctx 7 .malformed 0 s
       | some .over => put (d.retire 0 0 next) s
       | some (.ans a) => put (d.retire rd a next) s)
    else if num = 0xB00 ∨ num = 0xB02 ∨ (0xC00 ≤ num ∧ num ≤ 0xC02 ∧ !writes) then put (d.retire rd (Config.freeWord s.free) next) s.draw
    else if !machineCsr num ∨ (writes ∧ 0xC00 ≤ num) then put ill s
    else
      let old := d.csr num
      let new := if f3 = 1 then v else if f3 = 2 then old ||| v else old &&& ~~~v
      put ((if writes then d.setCsr num new else d).retire rd old next) s
  | .ecall => put (d.trap 11 0) s
  | .ebreak => put (d.trap 3 d.pc.toNat) s
  | .mret => put { d.mret with instret := d.instret + 1 } s
  | .illegal => put ill s

/-- DIBBER_INSTRUCTION (R214-R219): the job's next instruction, or the given one of the runtime. -/
def execDibberInstruction (core : Fin 16) (ctx : Fin 8) (rt : Option (BitVec 32)) (s : State) :=
  complete (match rt with | none => userStep core ctx | some w => rtStep core ctx w) s

/-- CSRRW of a custom CSR by the job's code. -/
def userCsr (core : Fin 16) (ctx : Fin 8) (num rd : Nat) (v : Word) (s : State) : State :=
  match dibJob core ctx s with
  | none => s
  | some j => csrStep core ctx 1 rd num v true j.b.dib.pc (j.b.dib.pc + 4) s

/-- NMC_CMD_PUSH (R171, R219). -/
def execNmcCmdPush (core : Fin 16) (ctx : Fin 8) (rd : Fin 32) (v : Word) (s : State) := complete (userCsr core ctx 0x800 rd.val v) s
/-- NMC_COMMIT (R181, R219). -/
def execNmcCommit (core : Fin 16) (ctx : Fin 8) (rd : Fin 32) (v : Word) (s : State) := complete (userCsr core ctx 0x801 rd.val v) s
/-- NMC_FEWER (R219). -/
def execNmcFewer (core : Fin 16) (ctx : Fin 8) (rd : Fin 32) (v : Word) (s : State) := complete (userCsr core ctx 0x802 rd.val v) s
/-- NMC_ARITH_STATUS (R219, R220). -/
def execNmcArithStatus (core : Fin 16) (ctx : Fin 8) (rd : Fin 32) (v : Word) (s : State) := complete (userCsr core ctx 0x803 rd.val v) s
/-- NMC_TILE_TAKE (R219). -/
def execNmcTileTake (core : Fin 16) (ctx : Fin 8) (rd : Fin 32) (v : Word) (s : State) := complete (userCsr core ctx 0x804 rd.val v) s
/-- NMC_TILE_FREE (R219). -/
def execNmcTileFree (core : Fin 16) (ctx : Fin 8) (rd : Fin 32) (v : Word) (s : State) := complete (userCsr core ctx 0x805 rd.val v) s
/-- NMC_TILE_ALLOC (R219). -/
def execNmcTileAlloc (core : Fin 16) (ctx : Fin 8) (rd : Fin 32) (v : Word) (s : State) := complete (userCsr core ctx 0x806 rd.val v) s
/-- NMC_TILE_EMIT (R168, R219). -/
def execNmcTileEmit (core : Fin 16) (ctx : Fin 8) (rd : Fin 32) (v : Word) (s : State) := complete (userCsr core ctx 0x807 rd.val v) s

end Sys2Proof.Machine
end

