-- ==== Sys2Proof/Machine/SuspendBody.lean ====
section
/-! DEFINITION. The body of a suspend area (R187): its sections, and a context written into them and read back. The contents of the
sections are the model's own encoding (DESIGN CHOICE, log 13): R187 names what each holds and gives no layout. -/

namespace Sys2Proof.Machine

open Sys2Proof

/-! ### Numbers as bytes -/

/-- Bytes that a number needs. -/
def byteLen (n : Nat) : Nat := ceilDiv (if n = 0 then 0 else n.log2 + 1) 8

/-- A number: its length in four bytes, then its bytes. -/
def encNum (n : Nat) : List Byte := bytesOfNat 4 (byteLen n) ++ bytesOfNat (byteLen n) n

/-- The numbers that a byte string spells. -/
def decNums : Nat → List Byte → List Nat
  | 0, _ => []
  | f + 1, bs =>
    if bs.length < 4 then []
    else
      let n := natOfBytes (bs.take 4)
      natOfBytes ((bs.drop 4).take n) :: decNums f (bs.drop (4 + n))

/-! ### Records as numbers -/

def encList {α : Type} (f : α → List Nat) (l : List α) : List Nat := l.length :: l.flatMap f
def encNats (l : List Nat) : List Nat := encList (fun n => [n]) l
def encInt (i : Int) : Nat := if i < 0 then 2 * i.natAbs + 1 else 2 * i.natAbs
def encBool (b : Bool) : Nat := bit01 b
def encBytes (bs : List Byte) : List Nat := [bs.length, natOfBytes bs]
def encWords (ws : List Word) : List Nat := encNats (ws.map (·.toNat))
def encCells (m : List Host.Cell) : List Nat := encList (fun c => [c.1, c.2.toNat]) m

def encDib (d : Dib) : List Nat :=
  encWords d.x ++ [d.pc.toNat, encBool d.machine] ++ encList (fun c => [c.1, c.2.toNat]) d.csrs ++
    (match d.resv with | none => [0] | some (a, n) => [1, a, n]) ++ encCells d.scratch ++ [d.instret, encBool d.stopped]

def encStream (e : Nat × Stream) : List Nat :=
  let s := e.2
  [e.1, s.producer, s.consumer, s.unit, s.depth] ++ encNats s.free ++ encNats s.alloc ++ encNats s.written ++ encNats s.ready ++
    encNats s.taken ++ [s.seq, s.consumed, encBool s.ended]

def encTile (t : Tile) : List Nat :=
  let h := t.h
  [h.stream, h.seq, h.fmt.toNat, encBool h.last, encBool h.poison, encBool h.short, encBool h.empty, h.bytes, h.rows, h.cols, h.stride,
   h.origin.toNat, h.user.toNat, t.pay.toNat] ++ encWords t.raw

def encCmd (c : Cmd) : List Nat :=
  [c.station, c.cmd, c.inA, c.inB, c.out, c.outB, c.count, c.a.toNat, c.b.toNat, c.c.toNat, c.mode.toNat]

def encCarry (c : Carry) : List Nat :=
  encList (fun x => [encInt x.1, encInt x.2.1, x.2.2]) c.sums ++ encList (fun p => [p.1.toNat, p.2.toNat]) c.pairs ++ encBytes c.bytes ++ [c.n]

def encStation (e : Nat × Station) : List Nat :=
  let s := e.2
  [e.1] ++ encList encCmd s.cmds ++ [s.idx, s.consumed, s.emitted] ++ encCarry s.carry ++
    encList (fun x => x.1 :: encTile x.2) s.outq ++ [encBool s.closing, s.graphLen]

def encAcc (e : Nat × AccSet) : List Nat := [e.1, encBool e.2.isInt] ++ encNats (e.2.v.map (·.toNat))

def encStage (l : StageLine) : List Nat := [l.gsa.toNat, l.data.toNat, encBool l.whole, l.va.toNat]

def encChunk (c : Chunk) : List Nat :=
  [c.core, c.ctx, c.handle, c.version.toNat, c.row, c.chunk] ++ encNats (c.vals.map (·.toNat)) ++
    encList (fun w => [w.1, encBool w.2.1, encInt w.2.2]) c.wins

def encPrn : PrnOp → List Nat
  | .insert h id code fwd rev => [0, h, id] ++ encBytes code ++ encNats (fwd.map (·.toNat)) ++ encList (fun p => [p.1, p.2]) rev
  | .delete h ids => [1, h] ++ encNats ids
  | .entry h ids => [2, h] ++ encNats (ids.map (·.toNat))

def encPort (p : PortReq) : List Nat :=
  [p.unit, p.seq, p.reply] ++ (match p.tiles with | none => [0] | some ts => 1 :: encList encTile ts)

/-! ### Reading them back -/

/-- A reader of numbers. -/
abbrev Dec (α : Type) := StateT (List Nat) Option α

def dNat : Dec Nat := fun l => match l with | [] => none | n :: l => some (n, l)
def dRep {α : Type} (d : Dec α) : Nat → Dec (List α)
  | 0 => pure []
  | n + 1 => do
    let a ← d
    let l ← dRep d n
    pure (a :: l)
def dList {α : Type} (d : Dec α) : Dec (List α) := do
  let n ← dNat
  dRep d n
def dBool : Dec Bool := do
  let n ← dNat
  pure (n == 1)
def dInt : Dec Int := do
  let n ← dNat
  pure (if n % 2 = 1 then -((n / 2 : Nat) : Int) else ((n / 2 : Nat) : Int))
def dBv (w : Nat) : Dec (BitVec w) := do
  let n ← dNat
  pure (BitVec.ofNat w n)
def dBytes : Dec (List Byte) := do
  let n ← dNat
  let v ← dNat
  pure (bytesOfNat n v)
def dPair {α β : Type} (a : Dec α) (b : Dec β) : Dec (α × β) := do
  let x ← a
  let y ← b
  pure (x, y)

def dDib : Dec Dib := do
  let x ← dList (dBv 64)
  let pc ← dBv 64
  let machine ← dBool
  let csrs ← dList (dPair dNat (dBv 64))
  let r ← dNat
  let resv ← (if r = 1 then (do let p ← dPair dNat dNat; pure (some p)) else pure none : Dec (Option (Nat × Nat)))
  let scratch ← dList (dPair dNat (dBv 8))
  let instret ← dNat
  let stopped ← dBool
  pure { x := x, pc := pc, machine := machine, csrs := csrs, resv := resv, scratch := scratch, instret := instret, stopped := stopped }

def dStream : Dec (Nat × Stream) := do
  let k ← dNat
  let producer ← dNat
  let consumer ← dNat
  let unit ← dNat
  let depth ← dNat
  let free ← dList dNat
  let alloc ← dList dNat
  let written ← dList dNat
  let ready ← dList dNat
  let taken ← dList dNat
  let seq ← dNat
  let consumed ← dNat
  let ended ← dBool
  pure (k, { producer := producer, consumer := consumer, unit := unit, depth := depth, free := free, alloc := alloc
             written := written, ready := ready, taken := taken, seq := seq, consumed := consumed, ended := ended })

def dTile : Dec Tile := do
  let stream ← dNat
  let seq ← dNat
  let fmt ← dBv 8
  let last ← dBool
  let poison ← dBool
  let short ← dBool
  let empty ← dBool
  let bytes ← dNat
  let rows ← dNat
  let cols ← dNat
  let stride ← dNat
  let origin ← dBv 64
  let user ← dBv 32
  let pay ← dBv 32768
  let raw ← dList (dBv 64)
  let h : TileHdr := { stream := stream, seq := seq, fmt := fmt, last := last, poison := poison, short := short, empty := empty
                       bytes := bytes, rows := rows, cols := cols, stride := stride, origin := origin, user := user }
  pure { h := h, pay := pay, raw := raw }

def dCmd : Dec Cmd := do
  let station ← dNat
  let cmd ← dNat
  let inA ← dNat
  let inB ← dNat
  let out ← dNat
  let outB ← dNat
  let count ← dNat
  let a ← dBv 64
  let b ← dBv 64
  let c ← dBv 32
  let mode ← dBv 32
  pure { station := station, cmd := cmd, inA := inA, inB := inB, out := out, outB := outB, count := count, a := a, b := b, c := c, mode := mode }

def dCarry : Dec Carry := do
  let sums ← dList (dPair dInt (dPair dInt dNat))
  let pairs ← dList (dPair (dBv 32) (dBv 32))
  let bytes ← dBytes
  let n ← dNat
  pure { sums := sums, pairs := pairs, bytes := bytes, n := n }

def dStation : Dec (Nat × Station) := do
  let k ← dNat
  let cmds ← dList dCmd
  let idx ← dNat
  let consumed ← dNat
  let emitted ← dNat
  let carry ← dCarry
  let outq ← dList (dPair dNat dTile)
  let closing ← dBool
  let graphLen ← dNat
  pure (k, { cmds := cmds, idx := idx, consumed := consumed, emitted := emitted, carry := carry, outq := outq, closing := closing, graphLen := graphLen })

def dAcc : Dec (Nat × AccSet) := do
  let k ← dNat
  let isInt ← dBool
  let v ← dList (dBv 32)
  pure (k, { isInt := isInt, v := v })

def dStage : Dec StageLine := do
  let gsa ← dBv 64
  let data ← dBv 1024
  let whole ← dBool
  let va ← dBv 64
  pure { gsa := gsa, data := data, whole := whole, va := va }

def dChunk : Dec Chunk := do
  let core ← dNat
  let ctx ← dNat
  let handle ← dNat
  let version ← dBv 16
  let row ← dNat
  let chunk ← dNat
  let vals ← dList (dBv 32)
  let wins ← dList (dPair dNat (dPair dBool dInt))
  pure { core := core, ctx := ctx, handle := handle, version := version, row := row, chunk := chunk, vals := vals, wins := wins }

def dPrn : Dec PrnOp := do
  let k ← dNat
  let h ← dNat
  if k = 0 then
    let id ← dNat
    let code ← dBytes
    let fwd ← dList (dBv 32)
    let rev ← dList (dPair dNat dNat)
    pure (.insert h id code fwd rev)
  else if k = 1 then
    let ids ← dList dNat
    pure (.delete h ids)
  else
    let ids ← dList (dBv 32)
    pure (.entry h ids)

def dPort : Dec PortReq := do
  let unit ← dNat
  let seq ← dNat
  let reply ← dNat
  let k ← dNat
  let tiles ← (if k = 1 then (do let l ← dList dTile; pure (some l)) else pure none : Dec (Option (List Tile)))
  pure { unit := unit, seq := seq, reply := reply, tiles := tiles }

/-! ### Sections -/

/-- A section: its type and length in 16 bytes, its content to a 16-byte boundary. -/
def section_ (ty : Nat) (ns : List Nat) : List Byte :=
  let c := ns.flatMap encNum
  bytesOfNat 4 ty ++ bytesOfNat 4 c.length ++ List.replicate 8 0 ++ c ++ List.replicate ((16 - c.length % 16) % 16) 0

/-- The numbers of each section of a body. -/
def sections : Nat → List Byte → List (Nat × List Nat)
  | 0, _ => []
  | f + 1, bs =>
    if bs.length < 16 then []
    else
      let ty := natOfBytes (bs.take 4)
      let n := natOfBytes ((bs.drop 4).take 4)
      if ty = 0 then []
      else (ty, decNums (n + 1) ((bs.drop 16).take n)) :: sections f (bs.drop (16 + ceilDiv n 16 * 16))

/-- A context as a body (R187). -/
def bodyBytes (b : Body) : List Byte :=
  section_ 1 (encDib b.dib ++ [b.arith.toNat, encBool b.fewer]) ++
    section_ 2 (encList encStream b.streams) ++
    section_ 3 (encList encStation b.stations ++ encList encAcc b.acc ++ encList (fun e => e.1 :: encBytes e.2) b.tables) ++
    section_ 4 (encList (fun e => e.1 :: encTile e.2) b.tiles) ++
    section_ 5 (encList encStage b.staging ++ encList (fun e => e.1.toNat :: encBytes e.2) b.coded) ++
    section_ 6 (encList encChunk b.sow ++ encList encPrn b.prn ++ encList encPort b.ports) ++
    (match b.fault with
     | none => []
     | some (va, r, w, x) => section_ 7 [va.toNat, encBool r, encBool w, encBool x])

/-- Read one section. -/
def readSection {α : Type} (ss : List (Nat × List Nat)) (ty : Nat) (d : Dec α) : Option α :=
  (ss.find? (·.1 == ty)).bind fun s => (d s.2).map (·.1)

/-- A context from a body; none where the body does not read. -/
def bodyOfBytes (bs : List Byte) : Option Body := do
  let ss := sections 8 bs
  let (dib, arith, fewer) ← readSection ss 1 (do
    let d ← dDib
    let a ← dBv 5
    let f ← dBool
    pure (d, a, f))
  let streams ← readSection ss 2 (dList dStream)
  let (stations, acc, tables) ← readSection ss 3 (do
    let s ← dList dStation
    let a ← dList dAcc
    let t ← dList (dPair dNat dBytes)
    pure (s, a, t))
  let tiles ← readSection ss 4 (dList (dPair dNat dTile))
  let (staging, coded) ← readSection ss 5 (do
    let s ← dList dStage
    let c ← dList (dPair (dBv 64) dBytes)
    pure (s, c))
  let (sow, prn, ports) ← readSection ss 6 (do
    let c ← dList dChunk
    let p ← dList dPrn
    let q ← dList dPort
    pure (c, p, q))
  let fault := readSection ss 7 (do
    let va ← dBv 64
    let r ← dBool
    let w ← dBool
    let x ← dBool
    pure (va, r, w, x))
  pure {
    streams := streams, tiles := tiles, stations := stations, dib := dib, acc := acc, arith := arith, staging := staging, coded := coded
    sow := sow, prn := prn, tables := tables, ports := ports, fewer := fewer, fault := fault }

/-! ### The suspend header (Table 08-12) -/

def hdrState (ws : List Word) : Nat := fld (wordAt ws 1) 31 30
def hdrResumer (ws : List Word) : BitVec 16 := BitVec.ofNat 16 (fld (wordAt ws 1) 25 10)
def hdrLines (ws : List Word) : Nat := fld (wordAt ws 2) 63 32
def hdrJob (ws : List Word) : List Word := (ws.drop 8).take 16

/-- A suspend header in state WRITTEN. -/
def suspendHdr (tag iid asid : BitVec 16) (restarts : Nat) (fault : Bool) (body : List Byte) (time : Nat) (desc : List Word) : List Word :=
  let lines := ceilDiv body.length 128
  let padded := body ++ List.replicate (128 * lines - body.length) 0
  [put 48 1 ||| put 32 tag.toNat ||| put 16 iid.toNat ||| asid.setWidth 64,
   (wordAt desc 3 &&& 0xFFFFFFFF00000000) ||| put 30 1 ||| put 27 (restarts % 8) ||| put 26 (bit01 fault),
   put 32 lines ||| (if lines = 0 then 0 else (crc32c padded).setWidth 64), BitVec.ofNat 64 time, wordAt desc 1, 0, 0, 0] ++
    (List.range 16).map fun i => wordAt desc i

end Sys2Proof.Machine
end

