-- ==== Sys2Proof/Machine/JobQueues.lean ====
section
/-! DEFINITION. Submission and completion queues, the dispatch of jobs, and CANCEL (R172-R176, R178, R180, R183, R480). -/

namespace Sys2Proof.Machine

open Sys2Proof

/-! ### The queues of a pair (R172, Table 22-6) -/

def sqBase (s : State) (p : Nat) : Word := regGet s (Off.pair p)
def cqBase (s : State) (p : Nat) : Word := regGet s (Off.pair p + 0x08)
def sqSize (s : State) (p : Nat) : Nat := (regGet s (Off.pair p + 0x10)).toNat
def cqHead (s : State) (p : Nat) : Nat := (regGet s (Off.pair p + 0x30)).toNat
def sqHead (s : State) (p : Nat) : Nat := Tab.get 0 s.nmc.sqHead p
def sqTail (s : State) (p : Nat) : Nat := Tab.get 0 s.nmc.sqTail p
def cqTail (s : State) (p : Nat) : Nat := Tab.get 0 s.nmc.cqTail p
def pairIid (s : State) (p : Nat) : BitVec 16 := Tab.get 0 s.nmc.pairIid p

/-- Owning window of a claimed queue. -/
def qOwner (w : Word) : Option Nat := if qValid w then some (qWin w).val else none

/-- Work for the cores ends the idle time and wakes them from DORMANT (R452). -/
def wakeCores (s : State) : State :=
  s.modSys fun y => { y with idleSince := y.time, power := if y.power = .dormant then .active else y.power }

/-- NMC_SQ_DB: the new tail, checked (R480); the status that a CONTROL request making the write is answered with. -/
def sqDoorbell (wr : Writer) (p : Nat) (v : Word) (s : State) : Option Status × State :=
  let n := fld v 15 0
  let size := sqSize s p
  if !allowed s wr (qOwner (sqBase s p)) [.w] then (some .denied, rejected (Off.pair p + 0x18) s)
  else if size ≤ n ∨ ringDist size (sqHead s p) n < ringDist size (sqHead s p) (sqTail s p) then
    (some .malformed, rejected (Off.pair p + 0x18) s)
  else (none, (if n = sqTail s p then s else wakeCores s).modNmc fun x => { x with sqTail := Tab.put 0 p n x.sqTail })

/-- NMC_SQ_DB (R173, R480). -/
def execNmcSqDb (wr : Writer) (pair : Fin 256) (v : Word) (s : State) := complete (fun s => (sqDoorbell wr pair.val v s).2) s

/-- Indexes of the submittable entries, from the head on. -/
def sqEntries (s : State) (p : Nat) : List Nat :=
  if qValid (sqBase s p) then (List.range (ringDist (sqSize s p) (sqHead s p) (sqTail s p))).map fun i => (sqHead s p + i) % Nat.max 1 (sqSize s p)
  else []

/-- A descriptor as it stands in its ring. -/
def sqPeek (s : State) (p i : Nat) : List Word := wordsOfBytes 16 (bytesOfLine (storedLine s (lineOf (qOff (sqBase s p) + 128 * i))))

def skipped (s : State) (p i : Nat) : Bool := s.nmc.skip.any fun x => x == (p, i)

/-- The head passes entries that have been dealt with. -/
def skipHead (p : Nat) : Nat → State → State
  | 0, s => s
  | n + 1, s =>
    if sqHead s p ≠ sqTail s p ∧ skipped s p (sqHead s p) then
      let h := sqHead s p
      skipHead p n (s.modNmc fun x => { x with skip := x.skip.filter (· != (p, h)), sqHead := Tab.put 0 p ((h + 1) % Nat.max 1 (sqSize s p)) x.sqHead })
    else s

/-- An entry of the ring has been dealt with. -/
def takeEntry (p i : Nat) (s : State) : State :=
  skipHead p 65536 (s.modNmc fun x => { x with skip := x.skip ++ [(p, i)] })

/-! ### Descriptors (Table 08-8) -/

def dKind (d : List Word) : Nat := fld (wordAt d 0) 63 56
def dPrio (d : List Word) : Nat := fld (wordAt d 0) 55 52
def dAsid (d : List Word) : BitVec 16 := BitVec.ofNat 16 (fld (wordAt d 0) 31 16)
def dMask (d : List Word) : Nat := fld (wordAt d 0) 15 0
def dSlots (d : List Word) : Nat := fld (wordAt d 3) 11 0
def dRs (d : List Word) : BitVec 32 := BitVec.ofNat 32 (fld (wordAt d 3) 63 32)
def dArea (d : List Word) : Word := wordAt d 5

/-- A reserved encoding in a descriptor (R174). -/
def descBad (d : List Word) : Bool :=
  decide (dKind d = 0 ∨ 4 < dKind d ∨ 3 < dPrio d ∨ 7 < fld (wordAt d 0) 51 48 ∨ (wordAt d 4).toNat % 8 ≠ 0) ||
    (dKind d == 1 && decide (dSlots d = 0 ∨ 2048 < dSlots d))

/-! ### Room for a job (R173, R178, R180) -/

def coreJobs (s : State) (core : Nat) : List Job := (s.nmc.jobs.filter fun e => e.1 / 8 == core).map (·.2)
def slotsUsed (s : State) (core : Nat) : Nat := ((coreJobs s core).map fun j => j.slots.length).sum

/-- The free context of lowest number of a core. -/
def freeCtx (s : State) (core : Fin 16) : Option (Fin 8) := (List.finRange 8).find? fun c => (jobAt s (jobKey core c)).isNone

/-- Size of the staging pool in bytes (Table 03-2): it gives way to the tags of a tier cache above its default. -/
def stagePool (s : State) : Nat := (1024 - (3 * s.tier.carve.getD 0 320 - 960)) * 2 ^ 20
def poolUsed (s : State) : Nat := ((s.nmc.jobs.filter fun e => decide (e.2.phase ≠ .ended)).map fun e => e.2.quota).sum

/-- Where a job goes: the lowest core and context that its mask, its slots and its quota allow (DEDUCED, log 109). -/
def placeFor (s : State) (mask n : Nat) : Option (Fin 16 × Fin 8) :=
  if stagePool s < poolUsed s + stageQuota s then none
  else
    ((List.finRange 16).filter fun (c : Fin 16) =>
      (mask == 0 || mask.testBit c.val) && decide (physOf s c.val ≠ 31 ∧ n + slotsUsed s c.val ≤ 2048) && (freeCtx s c).isSome).head?.bind
        fun c => (freeCtx s c).map (c, ·)

/-- A version that new jobs may bind to (R190, R191). -/
def rsOpen (s : State) (v : BitVec 32) : Bool := s.nmc.rs.any fun r => decide (r.version = v) && !r.installing && r.retiring.isNone

/-- The ASID is bound for the IID (R175, R314). -/
def asidOk (s : State) (asid iid : BitVec 16) : Bool :=
  s.xlt.asids.any fun a => a.1 == asid.toNat && a.2.valid && a.2.iid == iid && !s.xlt.unbinding.contains asid

/-- How many tile slots a job gets: its descriptor's count, at least one and at most the 2048 there are (R174). -/
def dTake (d : List Word) : Nat := Nat.min 2048 (Nat.max 1 (dSlots d))

/-- The tag a job runs under: its descriptor's, or for a RESUME that of its suspend header (R188). -/
def jobTag (q : FwdJob) (kind : Nat) (hdr : List Word) : Nat := if kind = 2 then fld (wordAt hdr 0) 47 32 else (dTag q.desc).toNat

/-- The job a context starts with (R173, R188). -/
def newJob (q : FwdJob) (kind : Nat) (desc : List Word) (area : Word) (hdr : List Word) (s : State) : Job :=
  let used := if kind = 2 then (wordAt hdr 3).toNat else 0
  let before := if kind = 2 then fld (wordAt hdr 1) 29 27 else q.restarts
  let tag := if kind = 2 then BitVec.ofNat 16 (jobTag q kind hdr) else dTag desc
  { pair := q.pair, iid := q.iid, asid := dAsid desc, tag := tag, kind := kind, desc := desc, origin := q.origin
    slots := List.range (dTake desc), quota := stageQuota s, restarts := before, counted := if kind = 2 then before else 0
    started := now s, usedBefore := used, progressAt := now s, area := area, hdr := hdr }

/-- A job enters the context found for it, if one was (R173). -/
def enterJob (place : Option (Fin 16 × Fin 8)) (j : Job) (s : State) : Bool × State :=
  match place with
  | none => (false, s)
  | some p => (true, numberJob (jobKey p.1 p.2) (s.modNmc fun x => { x with jobs := x.jobs ++ [(jobKey p.1 p.2, j)] }))

/-- Start a job in a context; false where there is no room for it. One whose core_mask allows only OFFLINE cores completes with BUSY
(R193). -/
def startJob (q : FwdJob) (kind : Nat) (desc : List Word) (area : Word) (hdr : List Word) (s : State) : Bool × State :=
  if !coreAllowed s (dMask desc) then (true, completeReq { q with desc := q.desc.set 0 (setFld (wordAt q.desc 0) 47 32 (jobTag q kind hdr)) } 3 .busy s)
  else enterJob (placeFor s (dMask desc) (dTake desc)) (newJob q kind desc area hdr s) s

/-- The checks of R175 on a job that starts here. -/
def startStatus (s : State) (iid : BitVec 16) (d : List Word) : Option Status :=
  if !rsOpen s (dRs d) then some .noExtent else if !asidOk s (dAsid d) iid then some .denied else none

/-! ### Dispatch -/

/-- Where a request of a queue executes (R175): here, on another device, or nowhere with a status. -/
def anchorRoute (s : State) (anchor : Word) : Status ⊕ Option (BitVec 16) :=
  match routeFor s (fdnOf anchor) with
  | .inl st => .inl st
  | .inr f => .inr (if isHere s f then none else some f)

/-- Who reads a suspend header for a request of a pair: the pair's own head, or one from another device. -/
def hdrWho (p : Nat) (origin : Option (BitVec 16)) : Nat := match origin with | none => p | some f => 256 + 65536 * p + f.toNat

/-- The suspend header that a RESUME names, where this device has it. -/
def knownHdr (s : State) (who : Nat) (area : Word) : Option (List Word) :=
  if isHere s (fdnOf area) then
    let l := lineOf (addr s area)
    some ((wordsOfBytes 32 (bytesOfLine (storedLine s l) ++ bytesOfLine (storedLine s (l + 1)))).take 24)
  else
    match unitRx s 14 who (lineGsa area), unitRx s 14 who (lineGsa area + 128) with
    | some x, some y => if x.st = .ok ∧ y.st = .ok then some ((wordsOfBytes 32 (x.data ++ y.data)).take 24) else none
    | _, _ => none

/-- Is there room for the job of a request, where it is to run here? -/
def hasRoom (s : State) (who : Nat) (d : List Word) : Bool :=
  let here (a : Word) : Bool := match anchorRoute s a with | .inr none => true | _ => false
  let room (j : List Word) : Bool := !coreAllowed s (dMask j) || (placeFor s (dMask j) (dTake j)).isSome
  if dKind d = 1 then !here (wordAt d 1) || room d
  else
    match knownHdr s who (dArea d) with
    | none => true
    | some h => !here (wordAt h 4) || room (hdrJob h)

/-- The requests that a pair may dispatch next: the oldest from each other device, and the head of its SQ. After one of them has been
served the others come before it. -/
def pairHeads (s : State) (p : Nat) : List (Option FwdJob × List Word) :=
  let f := s.nmc.fwdIn.filter fun q => q.pair == p && decide (dKind q.desc = 1 ∨ dKind q.desc = 2 ∨ descBad q.desc)
  let l := ((f.map (·.origin)).dedup.filterMap fun o => (f.find? (·.origin == o)).map fun q => (some q, q.desc)) ++
    (match (sqEntries s p).head? with | some i => [(none, sqPeek s p i)] | none => [])
  let i := l.findIdx fun h => h.1.bind (·.origin) == s.nmc.lastOrigin
  if s.nmc.lastPair = p then l.drop (i + 1) ++ l.take (i + 1) else l

/-- The priority of a head that can go now. -/
def headPrio (s : State) (p : Nat) (h : Option FwdJob × List Word) : Option Nat :=
  if dKind h.2 = 3 ∨ dKind h.2 = 4 then none
  else if descBad h.2 || hasRoom s (hdrWho p (h.1.bind (·.origin))) h.2 then some (dPrio h.2) else none

/-- The highest priority of a pair's heads that can go now. -/
def headReady (s : State) (p : Nat) : Option Nat :=
  ((pairHeads s p).filterMap (headPrio s p)).foldl (fun o r => some (Nat.max r (o.getD 0))) none

/-- Whose turn it is (R173): no other pair that could go has a higher prio, or the same one and comes sooner in rotation. -/
def turnOf (s : State) (p : Nat) : Bool :=
  let pr := (headReady s p).getD 0
  let after (q : Nat) : Nat := (q + 255 - s.nmc.lastPair % 256) % 256
  (List.range 256).all fun q => q == p ||
    (match headReady s q with
     | none => true
     | some r => decide (r < pr) || (r == pr && decide (after p < after q)))

/-- The suspend header that a RESUME names, read under the pair's IID (R188): its first two lines. What was read stays until the request
has left its queue. -/
def readHdr (who : Nat) (iid : BitVec 16) (area : Word) (s : State) : Option (Status ⊕ List Word) × State :=
  let (a, s) := unitAsk 14 who iid (lineGsa area) s
  let (b, s) := unitAsk 14 who iid (lineGsa area + 128) s
  match a, b with
  | some x, some y =>
    if x.st ≠ .ok then (some (.inl x.st), s) else if y.st ≠ .ok then (some (.inl y.st), s)
    else (some (.inr ((wordsOfBytes 32 (x.data ++ y.data)).take 24)), s)
  | _, _ => (none, s)

/-- Send a request of a queue to the device that executes it (R175). -/
def forwardReq (f : BitVec 16) (q : FwdJob) (s : State) : State :=
  emit (.job f q.pair q.iid q.desc) (s.modNmc fun n => { n with fwdOut := n.fwdOut ++ [(q.pair, (dTag q.desc).toNat, f)] })

/-- A RUN or RESUME at its turn: true when it has left its queue. -/
def dispatchReq (q : FwdJob) (s : State) : Bool × State :=
  let d := q.desc
  if descBad d then (true, completeReq q 7 .malformed s)
  else if dKind d = 1 then
    match anchorRoute s (wordAt d 1) with
    | .inl st => (true, completeReq q 6 st s)
    | .inr (some f) => (true, forwardReq f q s)
    | .inr none =>
      match startStatus s q.iid d with
      | some st => (true, completeReq q 6 st s)
      | none => startJob q 1 d 0 [] s
  else
    let who := hdrWho q.pair q.origin
    let (h, s) := readHdr who q.iid (dArea d) s
    let clear (s : State) : State := modUnit 14 (fun i => { i with rx := i.rx.filter (·.who != who) }) s
    match h with
    | none => (false, s)
    | some (.inl st) => (true, clear (completeReq q (causeOf st) st s))
    | some (.inr h) =>
      match anchorRoute s (wordAt h 4) with
      | .inl st => (true, clear (completeReq q 6 st s))
      | .inr (some f) => (true, clear (forwardReq f q s))
      | .inr none =>
        let (gone, s) := startJob q 2 (hdrJob h) (dArea d) h s
        (gone, if gone then clear s else s)

/-- JOB_DISPATCH of a pair: the first of its heads that can go and has the highest priority among them. -/
def dispatchPair (p : Nat) (s : State) : State :=
  let s := skipHead p 65536 s
  if !admitting s || !turnOf s p then s
  else
    let pick := (pairHeads s p).find? fun h => (headPrio s p h).isSome && headPrio s p h == headReady s p
    let s := wakeCores (s.modNmc fun n => { n with lastPair := p, lastOrigin := (pick.bind (·.1)).bind (·.origin) })
    match pick with
    | none => s
    | some (some q, _) =>
      let (gone, s) := dispatchReq q s
      if gone then s.modNmc fun n => { n with fwdIn := n.fwdIn.erase q } else s
    | some (none, _) =>
      match (sqEntries s p).head? with
      | none => s
      | some i =>
        let (a, s) := ownAsk (0x1000 + p) .load (lineRead s (pairIid s p) (qOff (sqBase s p) + 128 * i)) s
        match a with
        | some (.ok, bs) =>
          let (gone, s) := dispatchReq { pair := p, iid := pairIid s p, desc := wordsOfBytes 16 bs } s
          if gone then takeEntry p i s else s
        | _ => s

/-- JOB_DISPATCH (R173, R175). -/
def execJobDispatch (pair : Fin 256) (s : State) := complete (dispatchPair pair.val) s

/-! ### Targets of SUSPEND and CANCEL -/

/-- The job of a pair with a tag, in a context. -/
def targetJob (s : State) (q : FwdJob) : Option (Fin 16 × Fin 8 × Job) :=
  (s.nmc.jobs.find? fun e => decide (e.2.pair = q.pair ∧ e.2.origin = q.origin ∧ e.2.tag = dTag q.desc)).map
    fun e => (Fin.ofNat 16 (e.1 / 8), Fin.ofNat 8 e.1, e.2)

/-- A job of the pair that waits outside the SQ. -/
def targetWaiting (s : State) (q : FwdJob) : Option FwdJob :=
  s.nmc.fwdIn.find? fun f => decide (f.pair = q.pair ∧ f.origin = q.origin ∧ dTag f.desc = dTag q.desc ∧ dKind f.desc < 3)

/-- A job of the pair that waits in its SQ. -/
def targetQueued (s : State) (q : FwdJob) : Option (Nat × FwdJob) :=
  if q.origin.isSome then none
  else
    (((sqEntries s q.pair).filter fun i => !skipped s q.pair i).find? fun i =>
      let d := sqPeek s q.pair i
      decide ((dKind d = 1 ∨ dKind d = 2) ∧ dTag d = dTag q.desc)).map fun i => (i, { pair := q.pair, iid := q.iid, desc := sqPeek s q.pair i })

/-- Has a job passed its commit point, or ended normally? -/
def committedJob (j : Job) : Bool :=
  j.phase == .committed || (j.phase == .ended && j.cause == 0 && (j.status == .ok || j.status == .fewer))

/-- End a running job as CANCEL does. -/
def cancelJob (core : Fin 16) (ctx : Fin 8) (s : State) : State :=
  match jobAt s (jobKey core ctx) with
  | none => s
  | some j => if j.phase = .committing then commitFail core ctx 0x0C .abandoned 0 s else endJob core ctx 0x0C .abandoned 0 s

/-- CANCEL takes effect (R183). -/
def actCancel (q : FwdJob) (s : State) : State :=
  match targetJob s q with
  | some (core, ctx, j) =>
    if committedJob j then completeReq q 0 .busy s
    else if j.phase = .ended then completeReq q 0 .noExtent s
    else completeReq q 0 .ok (cancelJob core ctx s)
  | none =>
    match targetWaiting s q, targetQueued s q with
    | some f, _ => completeReq q 0 .ok (completeReq f 0x0C .abandoned (s.modNmc fun n => { n with fwdIn := n.fwdIn.erase f }))
    | none, some (i, f) => completeReq q 0 .ok (completeReq f 0x0C .abandoned (takeEntry q.pair i s))
    | none, none => completeReq q 0 .noExtent s

/-- Where a SUSPEND or CANCEL of this pair acts (R183, R185): here where its target runs or waits here, on the device to which the target
was forwarded, or where its own anchor lies. -/
def targetRoute (s : State) (q : FwdJob) : Status ⊕ Option (BitVec 16) :=
  if (targetJob s q).isSome || (targetWaiting s q).isSome || (targetQueued s q).isSome then .inr none
  else
    match s.nmc.fwdOut.find? fun o => o.1 == q.pair && o.2.1 == (dTag q.desc).toNat with
    | some o => .inr (some o.2.2)
    | none => anchorRoute s (wordAt q.desc 1)

/-- The first request of a kind in a pair's SQ, read as the device reads it; then `act` on it, or on to its device. The device reads
ahead of jobs that wait for dispatch, so that a queued job can be named (R183, R185). -/
def queueReq34 (kind tag p : Nat) (act : FwdJob → State → Bool × State) (s : State) : State :=
  let s := skipHead p 65536 s
  match ((sqEntries s p).filter fun i => !skipped s p i).find? (fun i => dKind (sqPeek s p i) == kind) with
  | none => s
  | some i =>
    let (a, s) := ownAsk (tag + p) .load (lineRead s (pairIid s p) (qOff (sqBase s p) + 128 * i)) s
    match a with
    | some (.ok, bs) =>
      let q : FwdJob := { pair := p, iid := pairIid s p, desc := wordsOfBytes 16 bs }
      if descBad q.desc then takeEntry p i (completeReq q 7 .malformed s)
      else
        match targetRoute s q with
        | .inl st => takeEntry p i (completeReq q 6 st s)
        | .inr (some f) => takeEntry p i (forwardReq f q s)
        | .inr none =>
          let (gone, s) := act q s
          if gone then takeEntry p i s else s
    | _ => s

/-- CANCEL (R183). -/
def execCancel (pair : Fin 256) (s : State) := complete (queueReq34 4 0x1200 pair.val fun q s => (true, actCancel q s)) s

/-! ### Completion records (R176) -/

/-- A retiring version with no job left is gone (R191). -/
def rsBound (s : State) (v : BitVec 32) : Bool := s.nmc.jobs.any fun e => decide (e.2.phase ≠ .ended ∧ rsVersion e.2 = v)
def rsGone (v : BitVec 32) (s : State) : State :=
  cmdDone (Off.nmc + 0x10120) .ok 0 (s.modNmc fun n => { n with
    rs := n.rs.filter fun r => decide (r.version ≠ v)
    rsMem := clearSpan n.rsMem (v.toNat * 2 ^ 40) ((v.toNat + 1) * 2 ^ 40) })
def rsRetireTry (s : State) : State :=
  match s.nmc.rs.find? (·.retiring.isSome) with
  | none => s
  | some r => if rsBound s r.version then s else rsGone r.version s

/-- XLT_ASID_DONE. -/
def asidDone : Nat := Off.xlt + 0x118

/-- UNBIND completes when the jobs of the ASID have ended. -/
def unbindTry (s : State) : State :=
  match s.xlt.unbinding.find? fun a => !(s.nmc.jobs.any fun e => e.2.asid == a && decide (e.2.phase ≠ .ended)) with
  | none => s
  | some a => cmdDone asidDone .ok 0 (s.modXlt fun x => { x with unbinding := x.unbinding.filter (· != a) })

/-- A record has been written: the counter advances and the job's context is free. -/
def recordDone (r : CqRec) (s : State) : State :=
  let s := s.modNmc fun n => { n with cq := n.cq.erase r }
  let s := if r.counter = 0 then s else advance r.iid r.dest r.counter 1 r.err s
  match r.at_ with
  | none => s
  | some (core, ctx) => giveStations core.val (unbindTry (rsRetireTry ((s.modNmc fun n => { n with jobs := n.jobs.filter (·.1 != jobKey core ctx) }).modSys fun y => { y with idleSince := y.time })))

/-- Tag of a completion record (Table 08-9). -/
def recTag (ws : List Word) : Nat := fld (wordAt ws 0) 47 32

/-- The first record of a pair that can be written: one for another device is sent there and waits until it has been written; one of the
pair's own goes into its CQ when there is space, and the device that executed a forwarded job is told (R175, R176). -/
def writeRecord (p : Nat) (s : State) : State :=
  match s.nmc.cq.find? fun r => r.pair == p && !r.sent with
  | none => s
  | some r =>
    match r.dest with
    | some f => emit (.jobDone f p r.words) (s.modNmc fun n => { n with cq := modFirst (· == r) (fun x => { x with sent := true }) n.cq })
    | none =>
      let size := sqSize s p
      let t := cqTail s p
      if !qValid (cqBase s p) || ringFull size (cqHead s p) t then s
      else
        let (a, s) := ownAsk (0x2000 + p) .storePart (wordsWrite s (pairIid s p) (qOff (cqBase s p) + 32 * t) r.words) s
        match a with
        | some (.ok, _) =>
          let s := s.modNmc fun n => { n with cqTail := Tab.put 0 p ((t + 1) % Nat.max 1 size) n.cqTail }
          let s := match r.exec with | some f => emit (.jobTaken f p (recTag r.words)) s | none => s
          recordDone r (signal (qWin (cqBase s p)) (qVec (cqBase s p)) s)
        | _ => s

/-- The record of a job that another device executed: it waits for its CQ (R175; DEDUCED, log 75). -/
def recordCame (p : Nat) (f : BitVec 16) (ws : List Word) (s : State) : State :=
  s.modNmc fun n => { n with
    fwdOut := n.fwdOut.erase (p, recTag ws, f)
    cq := n.cq ++ [{ pair := p, words := ws, exec := some f }] }

/-- The originating device has written a forwarded job's record: its counter advances and its context is free (R176). -/
def recordTaken (p : Nat) (f tag : BitVec 16) (s : State) : State :=
  match s.nmc.cq.find? fun r => r.pair == p && r.sent && r.dest == some f && recTag r.words == tag.toNat with
  | none => s
  | some r => recordDone r s

/-- CQ_RECORD_WRITE (R176). -/
def execCqRecordWrite (x : CqStep) (s : State) :=
  complete (match x.ev with
    | .write => writeRecord x.pair.val
    | .arrived f ws => recordCame x.pair.val f ws
    | .taken f tag => recordTaken x.pair.val f tag) s

end Sys2Proof.Machine
end

