-- ==== Sys2Proof/Machine/JobCmds.lean ====
section
/-! DEFINITION. Running, suspending and resuming jobs, the tiles of their streams, their restarts and ends, the resident set and
grafts (R165-R170, R175, R177, R182-R193, R320). -/

namespace Sys2Proof.Machine

open Sys2Proof

/-! ### RUN: the graph and the frame list (R170, R320) -/

/-- Pages that a graph's reads and stages touch, in graph order (R320). -/
def cmdPages (c : Cmd) : List (Word × Acc) :=
  let span (a : Word) (n : Nat) (k : Acc) : List (Word × Acc) :=
    if n = 0 then [] else [(a, k), (a + BitVec.ofNat 64 (n - 1), k)]
  if c.station = 1 ∧ c.cmd = 1 then
    (List.range (ceilDiv c.b.toNat 4096)).flatMap fun i =>
      span (c.a + BitVec.ofNat 64 (i * if c.mode.getLsbD 0 then 4096 else c.c.toNat)) (Nat.min 4096 (c.b.toNat - 4096 * i)) .r
  else if c.station = 2 ∧ c.cmd = 1 then (List.range c.count).flatMap fun i => span (c.a + BitVec.ofNat 64 (i * c.c.toNat)) 4096 .w
  else []

/-- Translate pages into the frame list, up to its 4,096 entries; a page with v = 0 is left out. -/
def fillFrames (core : Fin 16) (ctx : Fin 8) : List Word → State → (Option (Nat × Status × Word) × Bool) × State
  | [], s => ((none, true), s)
  | va :: l, s =>
    match jobAt s (jobKey core ctx) with
    | none => ((none, true), s)
    | some j =>
      if 4096 ≤ j.frames.length then ((none, true), s)
      else if rsWindow ≤ va.toNat ∨ j.frames.any (·.covers j.asid va) then fillFrames core ctx l s
      else
        match s.xlt.asids.find? (fun a => a.1 == j.asid.toNat && a.2.valid) with
        | none => ((some (6, .denied, va), true), s)
        | some (_, rec) =>
          let (w, s) := walkFrom core ctx 1 rec j.asid va walkLevels rec.root s
          match w with
          | .wait => ((none, false), s)
          | .bad c st => ((some (c, st, va), true), s)
          | .fault => fillFrames core ctx l s
          | .leaf x => fillFrames core ctx l (modJob (jobKey core ctx) (fun j => { j with frames := j.frames ++ [x] }) s)

/-- The context may own the stations from now on; a SUSPEND that came before stops it at once. -/
def jobReady (core : Fin 16) (ctx : Fin 8) (b : Body) (s : State) : State :=
  let k := jobKey core ctx
  giveStations core.val (progress k (modJob k (fun j => { j with
    b := b, snap := b, phase := if j.suspendReq.isSome then .suspending else .ready }) s))

/-- The pages a job needs translated before it runs: its graph's and those its transfers name (R320). -/
def jobPages (g : Word) (n : Nat) (b : Body) : List Word :=
  ((List.range (ceilDiv (576 + 32 * n) 65536 + 1)).map fun i => g + BitVec.ofNat 64 (Nat.min (65536 * i) (575 + 32 * n))) ++
    (b.stations.flatMap fun e => e.2.cmds.flatMap cmdPages).map (·.1)

/-- The graph is read: translate its pages and make the job ready (R170, R320). -/
def enterGraph (core : Fin 16) (ctx : Fin 8) (g : Word) (n : Nat) (b : Body) (s : State) : State :=
  let q := fillFrames core ctx (jobPages g n b) s
  match q.1.1 with
  | some (c, st, w) => endJob core ctx c st w q.2
  | none => if q.1.2 then jobReady core ctx b (doneWith (jobKey core ctx) 17 (doneWith (jobKey core ctx) 1 q.2)) else q.2

/-- The graph's header is read: read its commands and check the whole (R170). -/
def readGraph (core : Fin 16) (ctx : Fin 8) (g : Word) (j : Job) (hw : List Word) (s : State) : State :=
  let q := viewBytes core ctx 1 (g + 576) (32 * graphCmds hw) s
  match q.1 with
  | .wait => q.2
  | .bad c st w => failAt core ctx c st w q.2
  | .bytes cb poison =>
    if poison then endJob core ctx 4 .poison g q.2
    else match graphBody (hw ++ wordsOfBytes (4 * graphCmds hw) cb) j.slots ((List.range 8).map fun i => wordAt j.desc (8 + i)) with
      | none => endJob core ctx 7 .malformed g q.2
      | some b => enterGraph core ctx g (graphCmds hw) b q.2

/-- Load a job's graph, check it and translate its pages (R170, R320). -/
def loadGraph (core : Fin 16) (ctx : Fin 8) (s : State) : State :=
  match jobAt s (jobKey core ctx) with
  | none => s
  | some j =>
    let g : Word := put 0 (fld (wordAt j.desc 2) 47 0)
    let q := viewBytes core ctx 1 g 576 s
    match q.1 with
    | .wait => q.2
    | .bad c st w => failAt core ctx c st w q.2
    | .bytes hb poison =>
      if poison then endJob core ctx 4 .poison g q.2
      else if !graphHdrOk (wordsOfBytes 72 hb) then endJob core ctx 7 .malformed g q.2
      else readGraph core ctx g j (wordsOfBytes 72 hb) q.2

/-- RUN (R170, R174, R320). -/
def execRun (core : Fin 16) (ctx : Fin 8) (s : State) :=
  complete (fun s => match jobAt s (jobKey core ctx) with
    | some j => if j.phase = .loading ∧ j.kind = 1 then loadGraph core ctx s else s
    | none => s) s

/-! ### RESUME (R188) -/

/-- The header words 0 and 1 with a new state, resumer and takeover count. -/
def hdrClaim (s : State) (ws : List Word) (takeover : Bool) : List Word :=
  let w := wordAt ws 1
  let w := setFld (setFld w 31 30 2) 25 10 (ownFdn s).toNat
  ws.set 1 (if takeover then setFld w 9 6 ((fld w 9 6 + 1) % 16) else w)

/-- The header restored to WRITTEN. -/
def hdrWritten (ws : List Word) : List Word := ws.set 1 (setFld (setFld (wordAt ws 1) 31 30 1) 25 10 0)

def casReq (iid : BitVec 16) (area : Word) (old new : List Byte) : Req :=
  { op := 0x08, aop := 8, width := 4, iid := iid, gsa := area, plen := 32, payload := old ++ new }

/-- The CAS on words 0 and 1 of the header: done with the value found, not yet answered, or refused. -/
def casStep (core : Fin 16) (ctx : Fin 8) (who : Nat) (old new : List Byte) (s : State) : Option (Status × List Byte) × State :=
  let k := jobKey core ctx
  match jobAt s k with
  | none => (none, s)
  | some j =>
    let (x, s) := ask core ctx who j.area (casReq j.iid j.area old new) 0 s
    match x with
    | none => (none, s)
    | some x => (some (x.st, x.data), doneWith k who s)

def setClaim (k : Nat) (c : Claim) (s : State) : State := modJob k (fun j => { j with claim := c }) s

/-- The header of an area that the ledger of this device, or of the one it has adopted, shows as done. -/
def ledgerDone (s : State) (area : Word) : Option (List Word) := (s.nmc.ledger.find? fun e => e.1 == area && hdrState e.2 == 3).map (·.2)

/-- An access of a RESUME is answered with a status other than OK (R182): it is made again where that status restarts the job and its limit
allows it; otherwise the job ends, `stop` saying how. -/
def resumeFail (core : Fin 16) (ctx : Fin 8) (st : Status) (stop : State → State) (s : State) : State :=
  match jobAt s (jobKey core ctx) with
  | none => s
  | some j => if (st = .abandoned ∨ st = .deviceLost) ∧ j.counted < restartLimit s j then restartJob core ctx 2 st j.area s else stop s

/-- Lines of a suspend body, from the third line of its area. -/
def bodyLine (area : Word) (i : Nat) : Word := lineGsa area + 256 + BitVec.ofNat 64 (128 * i)

/-- Read the lines of a body. -/
def askLines (core : Fin 16) (ctx : Fin 8) (iid : BitVec 16) : List Word → State → Option (Status ⊕ List Byte) × State
  | [], s => (some (.inr []), s)
  | g :: gs, s =>
    let (x, s) := ask core ctx 8 g { op := 0x01, iid := iid } 0 s
    let (r, s) := askLines core ctx iid gs s
    match x, r with
    | some x, some (.inr bs) => (some (if x.st = .ok then .inr (x.data ++ bs) else .inl x.st), s)
    | some x, some (.inl e) => (some (.inl (if x.st = .ok then e else x.st)), s)
    | _, _ => (none, s)

/-- The resume is recorded in the ledger and mirrored (R188, R409). -/
def noteResume (j : Job) (s : State) : State :=
  journalCtl { gsa := j.area, iid := j.iid, body := .suspend j.hdr } none false
    (s.modNmc fun n => { n with ledger := (n.ledger.filter (·.1 != j.area)) ++ [(j.area, j.hdr)] })

/-- The claimed area's checks, in order, and the job from its body; what SOW had combined is this context's from now on (R189). DESIGN
CHOICE, unsafe (log 43): a body that cannot be read restores WRITTEN as a failing check does. -/
def resumeBody (core : Fin 16) (ctx : Fin 8) (s : State) : State :=
  let k := jobKey core ctx
  match jobAt s k with
  | none => s
  | some j =>
    let n := hdrLines j.hdr
    if fld (wordAt j.hdr 0) 63 48 ≠ 1 ∨ 2 ^ 23 ≤ n then setClaim k (.restore .malformed) s
    else
      let (r, s) := askLines core ctx j.iid ((List.range n).map (bodyLine j.area)) s
      match r with
      | none => s
      | some (.inl st) => resumeFail core ctx st (setClaim k (.restore st)) (doneWith k 8 s)
      | some (.inr bs) =>
        let s := doneWith k 8 s
        let crc : BitVec 32 := if n = 0 then 0 else crc32c bs
        if crc.toNat ≠ fld (wordAt j.hdr 2) 31 0 then setClaim k (.restore .checkFail) s
        else if !rsOpen s (BitVec.ofNat 32 (fld (wordAt j.hdr 1) 63 32)) then setClaim k (.restore .noExtent) s
        else if !asidOk s (BitVec.ofNat 16 (fld (wordAt j.hdr 0) 15 0)) j.iid then setClaim k (.restore .denied) s
        else
          let s := setClaim k .done (noteResume j s)
          if n = 0 then s
          else
            match bodyOfBytes bs with
            | none => endJob core ctx 7 .malformed j.area s
            | some b => jobReady core ctx { b with fault := none, sow := b.sow.map fun c => { c with core := core.val, ctx := ctx.val } } s

/-- RESUME goes on: claim, checks, body; an empty body runs from its graph. A resumer in the fenced set may be taken over, adopted or
not. A claim whose answer was lost and that is made again finds the header as the first one wrote it. -/
def resumeStep (core : Fin 16) (ctx : Fin 8) (s : State) : State :=
  let k := jobKey core ctx
  match jobAt s k with
  | none => s
  | some j =>
    if j.phase ≠ .loading ∨ j.kind ≠ 2 then s
    else
      match j.claim with
      | .read =>
        let old := bytesOfWords (j.hdr.take 2)
        let go (hdr : List Word) (s : State) : State :=
          setClaim k (.cas old (bytesOfWords (hdr.take 2)) false) (modJob k (fun j => { j with hdr := hdr }) s)
        if hdrState j.hdr = 1 then go (hdrClaim s j.hdr false) s
        else if hdrState j.hdr = 2 ∧ s.flt.fenced.contains (hdrResumer j.hdr) then
          match ledgerDone s j.area with
          | some h =>
            let (r, s) := casStep core ctx 9 old (bytesOfWords (h.take 2)) s
            (match r with
             | none => s
             | some _ => endJob core ctx 6 .conflict j.area s)
          | none => go (hdrClaim s j.hdr true) s
        else endJob core ctx 6 .conflict j.area s
      | .cas old new again =>
        let (r, s) := casStep core ctx 9 old new s
        (match r with
         | none => s
         | some (st, found) =>
           if st ≠ .ok then resumeFail core ctx st (endJob core ctx (causeOf st) st j.area) (setClaim k (.cas old new true) s)
           else if found.take 16 ≠ old ∧ !(again && found.take 16 == new) then endJob core ctx 6 .conflict j.area s
           else resumeBody core ctx (setClaim k .body s))
      | .body => resumeBody core ctx s
      | .restore st =>
        let (r, s) := casStep core ctx 10 (bytesOfWords (j.hdr.take 2)) (bytesOfWords ((hdrWritten j.hdr).take 2)) s
        (match r with
         | none => s
         | some _ => endJob core ctx (causeOf st) st j.area (modJob k (fun j => { j with area := 0 }) s))
      | .done => if hdrLines j.hdr = 0 then loadGraph core ctx s else s

/-- RESUME (R188). -/
def execResume (core : Fin 16) (ctx : Fin 8) (s : State) := complete (resumeStep core ctx) s

/-! ### SUSPEND (R185-R187) -/

/-- What a suspend area takes: the header's two lines and the body's. -/
def areaLines (hdr : List Word) (body : List Byte) : List Line :=
  let bs := bytesOfWords hdr ++ List.replicate 64 0 ++ body
  (List.range (ceilDiv bs.length 128)).map fun i => lineOfBytes ((bs.drop (128 * i)).take 128)

/-- They as writes to this device's store. -/
def areaWrites (s : State) (area : Word) (hdr : List Word) (body : List Byte) : List GrpWrite :=
  (areaLines hdr body).zipIdx.map fun x => { line := lineOf (addr s area) + x.2, data := x.1 }

/-- A suspend area that keeps to R185: named, with room for the body in its extent; where that is homed here, DURABLE or PAIRED and one
that its IID may write. PRESUMED, unsafe (log 44): of an area on another device this device does not see the class; the answers to its
stores alone can refuse it. -/
def areaOk (s : State) (iid : BitVec 16) (area : Word) (lines : Nat) : Bool :=
  let a := addr s area
  decide (area ≠ 0 ∧ area.toNat % 128 = 0 ∧ area.toNat % 2 ^ 30 + 128 * (2 + lines) ≤ 2 ^ 30) &&
    (!isHere s (fdnOf area) || (decide ((extDesc s (extOf a)).durability ≠ .cached) &&
      (List.range (2 + lines)).all fun i => (admitsWrite s .store iid none (lineOf a + i)).isNone))

/-- Header and body reach an area of this device as DATA records, and the SUSPEND record its slot; false while the tier or the ring must be
waited for. -/
def writeArea (iid : BitVec 16) (area : Word) (hdr : List Word) (body : List Byte) (s : State) : Bool × State :=
  let ws := areaWrites s area hdr body
  let (ok, s) := groupReady ws s
  if !ok || !groupSlots ws s then (false, s)
  else
    let e := extOf (addr s area)
    let s := ws.foldl (fun s w => recordWrite e { grpRec s iid w with grp := false } (grpPlace w s)) s
    (true, recordWrite e { gsa := area, iid := iid, inc := (extDesc s e).inc, body := .suspend hdr } s)

/-- Store lines through `put`, which asks for one store: the first status that is not OK, once every store is answered. -/
def storeLines (put : Word → Req → State → Option Rx × State) (iid : BitVec 16) : List (Word × Line) → State → Option Status × State
  | [], s => (some .ok, s)
  | (g, l) :: r, s =>
    let (x, s) := put g { op := 0x02, iid := iid, plen := 128, payload := bytesOfLine l } s
    let (y, s) := storeLines put iid r s
    match x, y with
    | some x, some st => (some (if x.st = .ok then st else x.st), s)
    | _, _ => (none, s)

/-- The same for an area on another device: its home journals the lines, and the SUSPEND record enters a slot here. -/
def sendArea (put : Word → Req → State → Option Rx × State) (iid : BitVec 16) (area : Word) (hdr : List Word) (body : List Byte) (s : State) :
    Option Status × State :=
  let (r, s) := storeLines put iid ((areaLines hdr body).zipIdx.map fun x => (area + BitVec.ofNat 64 (128 * x.2), x.1)) s
  (r, if r = some .ok then journal { gsa := area, iid := iid, body := .suspend hdr } s else s)

/-- A job that waits for dispatch is suspended at its dispatch state: an empty body (R185). -/
def suspendQueued (q f : FwdJob) (leave : State → State) (s : State) : Bool × State :=
  let area := dArea f.desc
  let hdr := suspendHdr (dTag f.desc) f.iid (dAsid f.desc) f.restarts false [] 0 f.desc
  let done (s : State) : State := completeReq q 0 .ok (completeReq f 0x0D .ok (leave s))
  if !areaOk s f.iid area 0 then (true, completeReq q 0 .denied s)
  else if isHere s (fdnOf area) then
    let (ok, s) := writeArea f.iid area hdr [] s
    if ok then (true, done s) else (false, s)
  else
    let who := 2 ^ 40 + hdrWho f.pair f.origin
    let (r, s) := sendArea (fun g r s => unitAskReq 14 who r g s) f.iid area hdr [] s
    match r with
    | none => (false, s)
    | some st =>
      let s := modUnit 14 (fun i => { i with rx := i.rx.filter (·.who != who) }) s
      (true, if st = .ok then done s else completeReq q 0 .denied s)

/-- The commit of a job that a SUSPEND stops before its group has begun is withdrawn (DEDUCED, log 74): DIBBER stands before its NMC_COMMIT again (R181,
R185). -/
def withdrawCommit (core : Fin 16) (ctx : Fin 8) (s : State) : State :=
  let k := jobKey core ctx
  let s := s.modPrn fun p => { p with holds := p.holds.filter fun h => !(h.2.1 == core.val && h.2.2 == ctx.val) }
  modBody k (fun b => { b with dib := { b.dib with stopped := false, instret := b.dib.instret - 1 } }) (leaveRegions k s)

/-- SUSPEND takes effect (R185): true when it has left its queue. A running target stops its stations; the rest follows when it is
quiet. One whose commit group has begun goes on to its commit point, and the SUSPEND is answered at its end. -/
def actSuspend (q : FwdJob) (s : State) : Bool × State :=
  match targetJob s q with
  | some (core, ctx, j) =>
    let k := jobKey core ctx
    if committedJob j then (true, completeReq q 0 .busy s)
    else if j.phase = .ended then (true, completeReq q 0 .noExtent s)
    else if j.suspendReq.isSome then (true, completeReq q 0 .busy s)
    else if !areaOk s j.iid (dArea j.desc) 0 then (true, completeReq q 0 .denied s)
    else if j.phase = .committing ∧ !j.group.isEmpty then (true, modJob k (fun j => { j with suspendReq := some q }) s)
    else
      let s := if j.phase = .committing then withdrawCommit core ctx s else s
      let s := modJob k (fun j => { j with suspendReq := some q, phase := if j.phase = .loading then .loading else .suspending }) s
      (true, giveStations core.val (if ownerCtx s core.val = some ctx.val then setOwnerCtx core.val none s else s))
  | none =>
    match targetWaiting s q, targetQueued s q with
    | some f, _ => suspendQueued q f (fun s => s.modNmc fun n => { n with fwdIn := n.fwdIn.erase f }) s
    | none, some (i, f) => suspendQueued q f (takeEntry q.pair i) s
    | none, none => (true, completeReq q 0 .noExtent s)

/-- The SUSPEND that another device forwarded and that could not take effect at once does so now. -/
def retrySuspend (p : Nat) (s : State) : State :=
  match s.nmc.fwdIn.find? fun q => q.pair == p && decide (dKind q.desc = 3) && !descBad q.desc with
  | none => s
  | some q => (actSuspend q (s.modNmc fun n => { n with fwdIn := n.fwdIn.erase q })).2

/-- SUSPEND (R185). -/
def execSuspend (pair : Fin 256) (s : State) := complete (fun s => queueReq34 3 0x1100 pair.val actSuspend (retrySuspend pair.val s)) s

/-- Steps 1 and 2 of R185 are over: nothing is outstanding, and what has arrived is in its tiles. -/
def quiet (s : State) (k : Nat) (j : Job) : Bool :=
  (j.reads.all fun a => a.who == 11) && (j.rx.all fun x => x.who % 16 == 0 || x.who == 11 || faulted s k) && j.b.ports.all (·.tiles.isSome)

/-- The page fault that a body records as pending. -/
def pendingFault (s : State) (k : Nat) : Option (Word × Bool × Bool × Bool) :=
  (s.xlt.faults.find? fun f => decide (f.core.val * 8 + f.ctx.val = k)).map fun f => (f.va, f.r, f.w, f.x)

/-- The body, its header and the SUSPEND record are written; the SUSPEND completes, and its target ends under cause 0x0D. -/
def suspendWrite (core : Fin 16) (ctx : Fin 8) (s : State) : State :=
  let k := jobKey core ctx
  match jobAt s k with
  | none => s
  | some j =>
    match j.suspendReq with
    | none => s
    | some q =>
      if j.phase ≠ .suspending ∨ !quiet s k j then s
      else
        let s := spillAll k s
        let b := { ((jobAt s k).getD j).b with fault := pendingFault s k }
        let bs := bodyBytes b
        let padded := bs ++ List.replicate ((128 - bs.length % 128) % 128) 0
        let area := dArea j.desc
        let deny (s : State) : State := giveStations core.val (completeReq q 0 .denied (doneWith k 11 (modJob k (fun j => { j with
          suspendReq := none, susHdr := [], phase := .ready }) s)))
        let done (s : State) : State := endJob core ctx 0x0D .ok 0 (completeReq q 0 .ok (s.modNmc fun n => { n with
          ledger := if j.area = area then n.ledger.filter (·.1 != area) else n.ledger }))
        let hdr := if j.susHdr.isEmpty then suspendHdr j.tag j.iid j.asid j.restarts b.fault.isSome padded (timeUsed s j) j.desc else j.susHdr
        if !areaOk s j.iid area (padded.length / 128) then deny s
        else if isHere s (fdnOf area) then
          let (ok, s) := writeArea j.iid area hdr padded s
          if ok then done s else s
        else
          let (r, s) := sendArea (fun g r s => ask core ctx 11 g r 0 s) j.iid area hdr padded (modJob k (fun j => { j with susHdr := hdr }) s)
          match r with
          | none => s
          | some .ok => done s
          | some _ => deny s

/-- SUSPEND_BODY_WRITTEN (R185). -/
def execSuspendBodyWritten (core : Fin 16) (ctx : Fin 8) (s : State) := complete (suspendWrite core ctx) s

/-! ### Forwarded jobs (R175) -/

/-- A request of another device's queue arrives. -/
def takeForwarded (q : FwdJob) (s : State) : State :=
  if descBad q.desc then completeReq q 7 .malformed s
  else if dKind q.desc = 4 then actCancel q s
  else if dKind q.desc = 3 then (let (gone, s) := actSuspend q s; if gone then s else s.modNmc fun n => { n with fwdIn := n.fwdIn ++ [q] })
  else
    match (if dKind q.desc = 1 then startStatus s q.iid q.desc else none) with
    | some st => completeReq q 6 st s
    | none => s.modNmc fun n => { n with fwdIn := n.fwdIn ++ [q] }

/-- JOB_FORWARD (R175). -/
def execJobForward (origin : BitVec 16) (pair : BitVec 8) (iid : BitVec 16) (desc : List Word) (s : State) :=
  complete (takeForwarded { origin := some origin, pair := pair.toNat, iid := iid, desc := desc }) s

/-! ### Context switches (R177) -/

/-- The running context gives way: it has a page fault, waits, or cannot run (R177). -/
def givesWay (s : State) (k : Nat) : Bool := !runnable s k

/-- The stations go to another ready context. -/
def switchTo (core : Fin 16) (ctx : Fin 8) (s : State) : State :=
  let k := jobKey core ctx
  if !runnable s k then s
  else
    let ok := match ownerCtx s core.val with
      | none => true
      | some c => decide (c ≠ ctx.val) && (givesWay s (core.val * 8 + c) ||
          decide (((jobAt s (core.val * 8 + c)).map prioOf).getD 0 < ((jobAt s k).map prioOf).getD 0))
    if ok then progress k (setOwnerCtx core.val (some ctx.val) s) else s

/-- CONTEXT_SWITCH (R177). -/
def execContextSwitch (core : Fin 16) (ctx : Fin 8) (s : State) := complete (switchTo core ctx) s

/-! ### Tiles (R165, R168) -/

/-- A header is written: its tile becomes visible, in the order of its stream. A header that DIBBER wrote is read and checked now. -/
def showTile (core : Fin 16) (ctx : Fin 8) (slot : Nat) (s : State) : State :=
  let k := jobKey core ctx
  match jobAt s k with
  | none => s
  | some j =>
    match j.b.streams.find? fun e => e.2.written.head? == some slot with
    | none => s
    | some (n, x) =>
      let t := j.b.tile slot
      let h := if t.raw.isEmpty then t.h else hdrOfWords t.raw
      if !h.ok then endJob core ctx 7 .malformed 0 s
      else
        let b := { j.b with
          tiles := Tab.put {} slot { t with h := h, raw := [] } j.b.tiles
          streams := Tab.put {} n { x with written := x.written.drop 1, ready := x.ready ++ [slot] } j.b.streams }
        progress k (modBody k (fun _ => b) s)

/-- TILE_VISIBLE (R168). -/
def execTileVisible (core : Fin 16) (ctx : Fin 8) (slot : BitVec 11) (s : State) := complete (showTile core ctx slot.toNat) s

/-- A station has consumed the oldest tile it took from a stream: the slot is free for the producer again, and what waited for it
goes on (R168, R169). DIBBER frees its own. -/
def endTile (core : Fin 16) (ctx : Fin 8) (n : Nat) (s : State) : State :=
  let k := jobKey core ctx
  match jobAt s k with
  | none => s
  | some j =>
    let x := j.b.stream n
    if x.consumer = 0 ∨ x.taken.isEmpty then s
    else
      let b := drainPort 4096 (j.b.consume n)
      keepBody k (if x.producer = 0 then b else b.settle x.producer) s

/-- TILE_CONSUMED (R168). -/
def execTileConsumed (core : Fin 16) (ctx : Fin 8) (stream : Fin 64) (s : State) := complete (endTile core ctx stream.val) s

/-! ### Restarts and ends (R182, R184) -/

/-- JOB_RESTART (R182). -/
def execJobRestart (core : Fin 16) (ctx : Fin 8) (cause : JobFault) (s : State) :=
  complete (match cause with
    | .uncorrectable => restartJob core ctx 1 .internal 0
    | .abandoned => restartJob core ctx 2 .abandoned 0
    | .deviceLost => restartJob core ctx 2 .deviceLost 0
    | .graft => restartJob core ctx 3 .internal 0) s

/-- A job that owns the stations and has made no progress for 1 ms, with nothing outstanding and no live fault, ends (R182, R327). -/
def noProgress (core : Fin 16) (ctx : Fin 8) (s : State) : State :=
  let k := jobKey core ctx
  match jobAt s k with
  | none => s
  | some j =>
    if j.phase ≠ .ready ∨ ownerCtx s core.val ≠ some ctx.val ∨ !j.reads.isEmpty ∨ faulted s k ∨ j.b.ports.any (·.tiles.isNone) then s
    else endJob core ctx 8 .abandoned 0 (reach (j.progressAt + 1000000) s)

/-- JOB_NO_PROGRESS (R182). -/
def execJobNoProgress (core : Fin 16) (ctx : Fin 8) (s : State) := complete (noProgress core ctx) s

/-- The wall-time limit of a job has passed (R174, R182, R184). -/
def timeLimit (core : Fin 16) (ctx : Fin 8) (s : State) : State :=
  match jobAt s (jobKey core ctx) with
  | none => s
  | some j =>
    if j.phase = .committing ∨ j.phase = .committed ∨ j.phase = .ended then s
    else
      let w := (descWord j 6).toNat
      let lim := if w = 0 then 1000000 * (regGet s (Off.nmc + 0x10028)).toNat else w
      endJob core ctx 9 .abandoned 0 (reach (j.started + (lim - j.usedBefore)) s)

/-- JOB_TIME_LIMIT (R182). -/
def execJobTimeLimit (core : Fin 16) (ctx : Fin 8) (s : State) := complete (timeLimit core ctx) s

/-! ### The resident set (R190, R191) -/

def rsStage : Nat := Off.nmc + 0x10100
def rsDone : Nat := Off.nmc + 0x10120

/-- Bytes of the resident-set area in use. -/
def rsUsed (s : State) : Nat := (s.nmc.rs.map (·.length)).sum

/-- Bytes `[off, off+n)` of the source of an install: this device's own store, or what another device's reads answered. Where the
sender does not show those, one image for each version that nothing here gives (R15, log 2). -/
def rsSource (s : State) (v : BitVec 32) (src : Word) (data : Option (List Byte)) (off n : Nat) : List Byte :=
  if fdnOf src = servedFdn s then
    (List.range (n / 128)).flatMap fun i => bytesOfLine (storedLine s (lineOf (addr s src) + off / 128 + i))
  else
    match data with
    | some bs => (bs.drop off).take n
    | none => (List.range (n / 128)).flatMap fun i => bytesOfLine (Config.runtimeLine v (off / 128 + i))

/-- Does every chunk match the CRC-32C list that ends the source (R191)? Of a source that is not shown it is taken to (log 22). -/
def rsChecks (s : State) (v : BitVec 32) (src : Word) (data : Option (List Byte)) (len : Nat) : Bool :=
  let n := len / 2 ^ 20
  if fdnOf src ≠ servedFdn s ∧ data = none then true
  else
    let list := rsSource s v src data len (128 * ceilDiv (4 * n) 128)
    decide (4 * n ≤ list.length) && (List.range n).all fun i =>
      let bs := rsSource s v src data (2 ^ 20 * i) (2 ^ 20)
      bs.length == 2 ^ 20 && (crc32c bs).toNat == natOfBytes ((list.drop (4 * i)).take 4) &&
        (fdnOf src != servedFdn s || (List.range 8192).all fun k => !storedPoison s (lineOf (addr s src) + 8192 * i + k))

/-- Install a version: its chunks are read and checked (R191). -/
def rsInstall (wr : Writer) (v : BitVec 32) (data : Option (List Byte)) (s : State) : State :=
  let src := staged s wr rsStage
  let len := fld (staged s wr (rsStage + 8)) 39 0
  if len = 0 ∨ len % 2 ^ 20 ≠ 0 ∨ src.toNat % 128 ≠ 0 then cmdDone rsDone .malformed 0 s
  else if s.nmc.rs.any (·.version == v) then cmdDone rsDone .busy 0 s
  else if 2 ≤ s.nmc.rs.length ∨ s.tier.carve.getD 1 32 * 2 ^ 30 < rsUsed s + len then cmdDone rsDone .queueFull 0 s
  else if fdnOf src = servedFdn s ∧ (extDesc s (extOf (addr s src))).state ≠ .assigned then cmdDone rsDone .noExtent 0 s
  else
    if !rsChecks s v src data len then cmdDone rsDone .checkFail 0 s
    else
      cmdDone rsDone .ok 0 (s.modNmc fun n => { n with
        rs := n.rs ++ [{ version := v, length := len }]
        rsMem := writeBytes n.rsMem (v.toNat * 2 ^ 40) (rsSource s v src data 0 len) })

/-- NMC_RS_INSTALL (R191). -/
def execNmcRsInstall (wr : Writer) (version : BitVec 32) (data : Option (List Byte)) (s : State) :=
  complete (fun s => (issue wr none [.f] (Off.nmc + 0x10110) rsDone (rsInstall wr version data) s).2) s

/-- Retire a version: it goes when no job is bound to it (R191). -/
def rsRetire (v : BitVec 32) (s : State) : State :=
  if !(s.nmc.rs.any fun r => r.version == v) then cmdDone rsDone .noExtent 0 s
  else
    rsRetireTry (s.modNmc fun n => { n with rs := n.rs.map fun r => if r.version = v then { r with retiring := some (now s) } else r })

/-- NMC_RS_RETIRE (R191). -/
def execNmcRsRetire (wr : Writer) (version : BitVec 32) (s : State) :=
  complete (fun s => (issue wr none [.f] (Off.nmc + 0x10118) rsDone (rsRetire version) s).2) s

/-- 10 ms after it began, a retirement restarts the jobs still bound, which then find the version gone (R191). -/
def rsBoundEnd (s : State) : State :=
  match s.nmc.rs.find? (·.retiring.isSome) with
  | none => s
  | some r =>
    let s := reach (r.retiring.getD 0 + 10000000) s
    let ks := (s.nmc.jobs.filter fun e => decide (e.2.phase ≠ .ended ∧ e.2.phase ≠ .committed ∧ rsVersion e.2 = r.version)).map (·.1)
    rsRetireTry (ks.foldl (fun s k =>
      let core : Fin 16 := Fin.ofNat 16 (k / 8)
      let ctx : Fin 8 := Fin.ofNat 8 k
      endJob core ctx 6 .noExtent 0 (rerun core ctx false s)) s)

/-- RS_RETIRE_BOUND (R191). -/
def execRsRetireBound (s : State) := complete rsBoundEnd s

/-! ### Grafts (R192, R193) -/

/-- A graft on command: the result is the physical core grafted in, 0x1F where none was left. -/
def graftCmd (core : Fin 16) (s : State) : State :=
  if physOf s core.val = 31 then cmdDone (Off.nmc + 0x10018) .noExtent 0 s
  else
    let s := graftCore core s
    cmdDone (Off.nmc + 0x10018) .ok (BitVec.ofNat 32 (physOf s core.val)) s

/-- GRAFT (R192, R193). -/
def execGraft (wr : Writer) (core : Fin 16) (s : State) :=
  complete (fun s => (issue wr none [.f] (Off.nmc + 0x10010) (Off.nmc + 0x10018) (graftCmd core) s).2) s

end Sys2Proof.Machine
end

