-- ==== Sys2Proof/Machine/XlateCmds.lean ====
section
/-! DEFINITION. Address-space records, replies to page faults, invalidations, reads of host pages and the decay of their counters
(R314, R323, R326-R331, R345). -/

namespace Sys2Proof.Machine

open Sys2Proof

/-! ### BIND and UNBIND (R314) -/

def asidCmd : Nat := Off.xlt + 0x110
def asidStage (n : Nat) : Nat := Off.xlt + 0x100 + 8 * n

/-- The IID that a writer binds for: its window's; a management message names it in the record. -/
def bindIid (s : State) (wr : Writer) (w1 : Word) : BitVec 16 :=
  match wr with
  | .bar0 w => winIid s w.val
  | .control iid v => if v then w1.setWidth 16 else iid
  | .mctp | .jtag => w1.setWidth 16

def bindAsid (wr : Writer) (asid : BitVec 16) (s : State) : State :=
  let w0 := staged s wr (asidStage 0)
  let w1 := staged s wr (asidStage 1)
  let iid := bindIid s wr w1
  let root := fld w0 47 12 * 4096
  let d := extDesc s (extOf root)
  if s.xlt.asids.any (fun a => a.1 == asid.toNat && a.2.valid) then cmdDone asidDone .busy 0 s
  else if d.state ≠ .assigned ∨ d.form ≠ .raw ∨ !(rightsOf d iid).rd then cmdDone asidDone .denied 0 s
  else
    cmdDone asidDone .ok 0 (s.modXlt fun x => { x with
      asids := Tab.put {} asid.toNat { valid := true, root := root, fq := Fin.ofNat 16 (fld w0 3 0), iid := iid } x.asids })

/-- Writers of the ASID commands (Table 22-12). -/
def asidCls : List WCls := [.a, .w, .f]

/-- BIND (R314). -/
def execBind (wr : Writer) (asid : BitVec 16) (s : State) :=
  complete (fun s => (issue wr none asidCls asidCmd asidDone (bindAsid wr asid) s).2) s

/-- Jobs of an ASID, in contexts. -/
def asidJobs (s : State) (asid : BitVec 16) : List (Fin 16 × Fin 8) :=
  (s.nmc.jobs.filter fun e => e.2.asid == asid).map fun e => (Fin.ofNat 16 (e.1 / 8), Fin.ofNat 8 e.1)

/-- Every queued job of an ASID ends as CANCEL does. -/
def endQueued (asid : BitVec 16) (s : State) : State :=
  let f := s.nmc.fwdIn.filter fun q => dAsid q.desc == asid
  let s := f.foldl (fun s q => completeReq q 0x0C .abandoned (s.modNmc fun n => { n with fwdIn := n.fwdIn.erase q })) s
  (List.range 256).foldl (fun s p =>
    ((sqEntries s p).filter fun i => !skipped s p i).foldl (fun s i =>
      let d := sqPeek s p i
      if dKind d = 1 ∧ dAsid d = asid then completeReq { pair := p, iid := pairIid s p, desc := d } 0x0C .abandoned (takeEntry p i s) else s) s) s

/-- The writer that may act on an ASID (R328, R477): a window whose IID the record carries, or class F. -/
def invAllowed (s : State) (wr : Writer) (rec : AsidRec) : Bool :=
  match wr with
  | .bar0 w => winIid s w.val == rec.iid
  | .control iid v => if v then fmIid s iid else iid == rec.iid
  | .mctp => false
  | .jtag => true

/-- UNBIND by the window whose IID the record carries, or by a management message (R477). -/
def unbindAsid (wr : Writer) (asid : BitVec 16) (s : State) : State :=
  match s.xlt.asids.find? (fun a => a.1 == asid.toNat && a.2.valid) with
  | none => cmdDone asidDone .noExtent 0 s
  | some (_, rec) =>
    if !invAllowed s wr rec then cmdDone asidDone .denied 0 s
    else
      let s := s.modXlt fun x => { x with
        asids := Tab.put {} asid.toNat {} x.asids, unbinding := x.unbinding ++ [asid], tlb := x.tlb.filter fun t => t.2.asid != asid }
      let s := (asidJobs s asid).foldl (fun s c => match jobAt s (jobKey c.1 c.2) with
        | some j => if committedJob j ∨ j.phase = .ended then s else cancelJob c.1 c.2 s
        | none => s) s
      unbindTry (endQueued asid s)

/-- UNBIND (R314). -/
def execUnbind (wr : Writer) (asid : BitVec 16) (s : State) :=
  complete (fun s => (issue wr none asidCls asidCmd asidDone (unbindAsid wr asid) s).2) s

/-! ### Replies to page faults (R326, R327) -/

/-- Status of a code in [63:59]; none for a reserved one. -/
def statusOf (n : Nat) : Option Status :=
  [Status.ok, .ny, .poison, .denied, .noExtent, .revoked, .wrongForm, .fenced, .abandoned, .deviceLost, .checkFail, .queueFull, .fewer,
   .malformed, .internal, .conflict, .busy][n]?

/-- A fault stops being live; its job walks again, or ends. -/
def faultOver (f : LiveFault) (st : Status) (s : State) : State :=
  let s := s.modXlt fun x => { x with
    faults := x.faults.filter (·.id != f.id), fqWait := x.fqWait.filter fun q => q.fault != some f.id }
  if st = .ok then giveStations f.core.val (progress (jobKey f.core f.ctx) s) else endJob f.core f.ctx 6 st f.va s

/-- XLT_FAULT_RESP: the status that a CONTROL request making the write is answered with, none when it is taken. The writer is the
window whose IID the fault's ASID record carries, or class F (R477). -/
def faultReply (wr : Writer) (v : Word) (s : State) : Option Status × State :=
  match s.xlt.faults.find? fun f => f.id == v.setWidth 32 with
  | none =>
    if allowed s wr none [.a, .w, .f] then (none, countRC (Off.xlt + 0x308) 1 s) else (some .denied, rejected (Off.xlt + 0x300) s)
  | some f =>
    let a : AsidRec := ((s.xlt.asids.find? fun a => a.1 == f.asid.toNat).map (·.2)).getD {}
    if !invAllowed s wr a then (some .denied, rejected (Off.xlt + 0x300) s)
    else
      match statusOf (fld v 63 59) with
      | none => (some .malformed, rejected (Off.xlt + 0x300) s)
      | some st => (none, faultOver f st s)

/-- XLT_FAULT_RESP (R326). -/
def execXltFaultResp (wr : Writer) (v : Word) (s : State) := complete (fun s => (faultReply wr v s).2) s

/-- A posted fault with no reply within XLT_FAULT_TIME ends its job (R327). -/
def faultLate (id : BitVec 32) (s : State) : State :=
  match s.xlt.faults.find? (·.id == id) with
  | none => s
  | some f =>
    match f.posted with
    | none => s
    | some t => faultOver f .abandoned (reach (t + 1000000 * (regGet s (Off.xlt + 0x320)).toNat) s)

/-- FAULT_TIMEOUT (R327). -/
def execFaultTimeout (id : BitVec 32) (s : State) := complete (faultLate id) s

/-! ### Invalidation (R328, R329) -/

def invStage (n : Nat) : Nat := Off.xlt + 0x200 + 8 * n
def invCmd : Nat := Off.xlt + 0x220
def invDone : Nat := Off.xlt + 0x228

/-- Does an invalidation take in a virtual address? -/
def Inval.covers (i : Inval) (asid : BitVec 16) (va : Nat) : Bool :=
  i.asid == asid && (i.all || decide (i.lo ≤ va ∧ va < i.lo + 65536 * i.pages))

/-- Does an invalidation overlap a translation's page? -/
def Inval.meets (i : Inval) (x : Xent) : Bool :=
  i.asid == x.asid && (i.all || decide (x.va < i.lo + 65536 * i.pages ∧ i.lo < x.va + x.pageSize))

/-- What an access or a staged line was translated under is discarded: an access of the walker, `who` above 16, starts again. -/
def markStale (i : Inval) (hit : Word → Bool) (j : Job) : Job :=
  let reads := j.reads.filter fun a => !(decide (16 ≤ a.who) && hit a.va)
  { j with
    frames := j.frames.filter fun x => !i.meets x
    reads := reads.map fun a => if a.who < 16 ∧ hit a.va ∧ a.stale.isNone then { a with stale := some i.num.toNat } else a
    rx := j.rx.filter fun x => x.who < 16
    b := { j.b with staging := j.b.staging.map fun l => if hit l.va && l.stale.isNone then { l with stale := some i.num.toNat } else l } }

/-- An invalidation takes effect. An address lies under a discarded translation when it lies in the range, or in a leaf that
overlaps the range. -/
def invalidate (i : Inval) (s : State) : State :=
  let gone := (s.xlt.tlb.map (·.2)).filter i.meets
  let s := s.modXlt fun x => { x with tlb := x.tlb.filter fun t => !i.meets t.2 }
  s.modNmc fun n => { n with jobs := n.jobs.map fun e =>
    if e.2.asid = i.asid then
      let gone := gone ++ e.2.frames.filter i.meets
      (e.1, markStale i (fun va => i.covers e.2.asid va.toNat || gone.any (·.covers e.2.asid va)) e.2)
    else e }

/-- What an invalidation still waits for. -/
def invBusy (s : State) (i : Inval) : Bool :=
  s.nmc.jobs.any fun e => (e.2.reads.any fun a => a.stale == some i.num.toNat) || (decide (e.2.phase ≠ .ended) && e.2.b.staging.any fun l => l.stale == some i.num.toNat)

/-- An invalidation completes: its counter advances, and XLT_INV_DONE says so. -/
def invFinish (i : Inval) (s : State) : State :=
  let s := s.modXlt fun x => { x with invals := x.invals.filter (·.num != i.num) }
  let s := doneMod invDone (fun d => { d with status := if i.bounded then .abandoned else .ok, result := i.num.setWidth 32, busy := false }) s
  if i.counter = 0 then s else advance i.iid none i.counter 1 i.bounded s

/-- XLT_INV_CMD: up to 64 invalidations may be outstanding (R328, R478). -/
def invStart (wr : Writer) (op : Nat) (s : State) : Option Status × State :=
  let w0 := staged s wr (invStage 0)
  let w1 := staged s wr (invStage 1)
  let counter := staged s wr (invStage 2)
  let asid := BitVec.ofNat 16 (fld w0 47 32)
  let n := s.xlt.nextInv + 1
  let fin (st : Status) (s : State) : Option Status × State := (none, doneMod invDone (fun d => { d with status := st, result := n.setWidth 32 }) s)
  if !allowed s wr none [.a, .w, .f] then (some .denied, rejected invCmd s)
  else if 64 ≤ s.xlt.invals.length then (some .queueFull, doneMod invDone (fun d => { d with refused := true }) s)
  else
    let s := doneMod invDone (fun d => { d with number := d.number + 1 }) (s.modXlt fun x => { x with nextInv := n })
    match s.xlt.asids.find? (fun a => a.1 == asid.toNat && a.2.valid) with
    | none => fin .noExtent s
    | some (_, rec) =>
      if !invAllowed s wr rec then fin .denied s
      else if counter.toNat % 8 ≠ 0 ∨ fld w0 63 56 ≠ op ∨
          (op = 1 ∧ fld w0 31 0 = 0) ∨ (op = 2 ∧ fld w0 31 0 ≠ 0) then fin .malformed s
      else
        let i : Inval := { num := n, asid := asid, all := decide (op = 2), lo := fld w1 47 16 * 65536, pages := fld w0 31 0
                           counter := counter, iid := rec.iid, start := now s }
        let s := invalidate i (s.modXlt fun x => { x with invals := x.invals ++ [i] })
        (none, if invBusy s i then doneMod invDone (fun d => { d with busy := decide (64 ≤ s.xlt.invals.length) }) s else invFinish i s)

/-- XLT_INV_CMD with op RANGE (R328). -/
def execInvRange (wr : Writer) (s : State) := complete (fun s => (invStart wr 1 s).2) s
/-- XLT_INV_CMD with op ASID (R328). -/
def execInvAsid (wr : Writer) (s : State) := complete (fun s => (invStart wr 2 s).2) s

/-- Nothing that an invalidation waits for remains (R329). -/
def invComplete (num : BitVec 16) (s : State) : State :=
  match s.xlt.invals.find? (·.num == num) with
  | none => s
  | some i => if invBusy s i then s else invFinish i s

/-- INV_COMPLETE (R329). -/
def execInvComplete (num : BitVec 16) (s : State) := complete (invComplete num) s

/-- 10 ms after its acceptance: what remains of a job not yet at its commit is ABANDONED and the job restarts; a commit under way is
left to R181 as a drain bound (R329). -/
def invBound (num : BitVec 16) (s : State) : State :=
  match s.xlt.invals.find? (·.num == num) with
  | none => s
  | some i =>
    let s := reach (i.start + 10000000) s
    if !invBusy s i then invFinish i s
    else
      let i := { i with bounded := true }
      let s := s.modXlt fun x => { x with invals := x.invals.map fun y => if y.num = num then i else y }
      let hit (j : Job) : Bool := (j.reads.any fun a => a.stale == some num.toNat) || j.b.staging.any fun l => l.stale == some num.toNat
      let s := (s.nmc.jobs.filter fun e => hit e.2 && decide (e.2.phase ≠ .ended)).foldl (fun s e =>
        let core : Fin 16 := Fin.ofNat 16 (e.1 / 8)
        let ctx : Fin 8 := Fin.ofNat 8 e.1
        if e.2.phase = .committing then commitFail core ctx 0x0B .abandoned 0 s
        else if e.2.phase = .committed then s
        else restartJob core ctx 2 .abandoned 0 s) s
      if invBusy s i then s else invFinish i s

/-- INV_DRAIN_BOUND (R329). -/
def execInvDrainBound (num : BitVec 16) (s : State) := complete (invBound num) s

/-! ### Reads of host pages (R323, R331, R345) -/

/-- A read of a host line is over: its place goes to the next. -/
def endHostRead (r : HostRead) (st : Status) (data : List Byte) (s : State) : State :=
  let s := s.modXlt fun x => { x with reads := x.reads.erase r }
  issueHost r.port (jobAnswered r.core.val r.ctx.val r.id st 0 data s)

/-- A line of a host page has come whole: it is counted, and answered POISON where a half of it was poisoned. -/
def hostLineRead (r : HostRead) (bad : Bool) (data : Line) (s : State) : State :=
  let s := countHost (((jobAt s (jobKey r.core r.ctx)).map (·.asid)).getD 0) r.va s
  if bad then endHostRead r .poison [] s else endHostRead r .ok (bytesOfLine data) s

/-- The halves of a line, one already here. -/
def joinHalves (up : Bool) (first second : BitVec 512) : Line := if up then (first ++ second : BitVec 1024) else (second ++ first : BitVec 1024)

/-- A RdCurr of 64 bytes is answered, with poison or without; the second one of a line completes it (R345). -/
def rdAnswered (port : Fin 4) (a : BitVec 52) (poison : Bool) (data : BitVec 512) (s : State) : State :=
  match s.xlt.reads.find? (fun r => r.port == port && r.addr == (a &&& ~~~(64 : BitVec 52)) && r.issued) with
  | none => s
  | some r =>
    let s := telAdd (0x1100 + 0x10 * port.val) 64 s
    match r.got with
    | none => s.modXlt fun x => { x with
        reads := x.reads.map fun y => if y = r then { r with got := some (a.getLsbD 6, data), poison := poison } else y }
    | some (up, d) => if up = a.getLsbD 6 then s else hostLineRead r (r.poison || poison) (joinHalves up d data) s

/-- RDCURR_ANSWER (R345). -/
def execRdcurrAnswer (port : Fin 4) (addr : BitVec 52) (poison : Bool) (data : BitVec 512) (s : State) :=
  complete (rdAnswered port addr poison data) s

/-- A host read not answered within XLT_HOST_TIME, or while the port's link is down, completes ABANDONED (R323). -/
def hostLate (port : Fin 4) (a : BitVec 52) (s : State) : State :=
  match s.xlt.reads.find? (fun r => r.port == port && r.addr == a) with
  | none => s
  | some r =>
    if !portUp s port then endHostRead r .abandoned [] s
    else if r.issued then endHostRead r .abandoned [] (reach r.due s)
    else s

/-- HOST_READ_TIMEOUT (R323). -/
def execHostReadTimeout (port : Fin 4) (addr : BitVec 52) (s : State) := complete (hostLate port addr) s

/-- Host-page counts are halved, and notices may be posted again (R331). -/
def execHotPageDecay (s : State) :=
  complete (fun s =>
    (elapsed .hotDecay ((regGet s (Off.xlt + 0x330)).toNat * 1000000) s).modXlt fun x => { x with
      hot := x.hot.map fun e => (e.1, e.2 / 2), hotPosted := [] }) s

end Sys2Proof.Machine
end

