-- ==== Sys2Proof/Machine/Extents.lean ====
section
/-! DEFINITION. The extent commands (R18-R23, R30-R35, R63, R123, R152, R163, R241, R409, Table 02-8). -/

namespace Sys2Proof.Machine

open Sys2Proof

def extCmd : Nat := Off.xlt + 0x80
def extDone : Nat := Off.xlt + 0x88

/-! ### The staged descriptor (R18, R20) -/

def rangeOfWord (w : Word) : Range :=
  { valid := bitOf w 63, rd := bitOf w 59, wr := bitOf w 58, atom := bitOf w 57, own := bitOf w 56
    hi := w.extractLsb' 16 16, lo := w.extractLsb' 0 16 }

/-- The descriptor that words 0-10 spell (Tables 02-2, 02-3); none for a reserved encoding. State, key_handle and incarnation are
the device's. -/
def descOfWords (ws : List Word) : Option ExtDesc :=
  let w0 := wordAt ws 0
  let pol : Option TierPolicy := match fld w0 57 56 with | 0 => some .auto | 1 => some .pinHbm | 2 => some .flashOnly | _ => none
  let red : Option Redundancy := match fld w0 55 54 with | 0 => some .local | 1 => some .paired | 2 => some .striped | _ => none
  let form : Option Form := match fld w0 53 52 with | 0 => some .raw | 1 => some .coded | _ => none
  let dur : Option Durability := match fld w0 51 50 with | 0 => some .cached | 1 => some .durable | 2 => some .paired | _ => none
  match pol, red, form, dur with
  | some p, some r, some f, some d => some {
      policy := p, redundancy := r, form := f, durability := d, comp := w0.extractLsb' 24 24
      formParams := (wordAt ws 1).extractLsb' 32 32, buddyValid := bitOf (wordAt ws 2) 16
      buddy := (wordAt ws 2).extractLsb' 0 16
      ranges := (List.range 8).map fun i => rangeOfWord (wordAt ws (3 + i)) }
  | _, _, _, _ => none

/-- The largest codebook that fits the codebook area (R241, Table 11-2). -/
def cbMax : Nat := 1044480

/-- R20, and R241 for the form parameters of a CODED extent. -/
def descOk (s : State) (d : ExtDesc) : Bool :=
  let paired := d.durability == .paired || d.redundancy == .paired
  (d.ranges.all fun r => !r.valid || decide (r.lo.toNat ≤ r.hi.toNat)) &&
  d.buddyValid == paired &&
  (!d.buddyValid || (((cellAll s).any fun m => m.2 == d.buddy) && d.buddy != servedFdn s)) &&
  (match d.form with
   | .raw => d.formParams == 0
   | .coded => (match formOf d.formParams with | some p => decide (p.cbBytes ≤ cbMax) | none => false))

/-- R63: the response deadline is too short for a class. -/
def deadlineDenies (s : State) (d : ExtDesc) : Bool :=
  d.durability == .paired &&
    (decide (deadlineNs s < 1500) || (d.form == .coded && decide (deadlineNs s < 2000)))

def extStage (s : State) (wr : Writer) : List Word := (List.range 16).map fun i => staged s wr (Off.xlt + 8 * i)

/-! ### Ending a command -/

def extRec (s : State) (e : Nat) (b : JBody) : JRec :=
  { gsa := mkGsa (servedFdn s) (e * 2 ^ 30), inc := (extDesc s e).inc, body := b }

/-- A record that every extent command awaits (R30, R409): journalled, mirrored, and the command waits for the control mirror. -/
def extJournal (e : Nat) (b : JBody) (s : State) : State :=
  let n := s.jrn.nextJsn
  let t := journalCtl (extRec s e b) (some e) true s
  t.modExt fun x => { x with run := x.run.map fun r => { r with awaitMirror := some n } }

def setExt (e : Nat) (d : ExtDesc) (s : State) : State := s.modExt fun x => { x with table := Tab.put {} e d x.table }

/-- Set the state of an extent; it is journalled before the command completes (R30). -/
def setExtState (e : Nat) (st : ExtState) (s : State) : State :=
  extJournal e (.extent { extDesc s e with state := st }) (setExt e { extDesc s e with state := st } s)

def extEnd (st : Status) (e : Nat) (s : State) : State :=
  cmdDone extDone st (extDesc s e).inc (s.modExt fun x => { x with run := none })

/-- Is the command's record confirmed by the control mirror (R409)? -/
def mirrorSure (s : State) (r : ExtRun) : Bool :=
  match r.awaitMirror with | none => true | some n => !s.flt.ctlWait.contains n

/-! ### Composition lists (R394) -/

/-- The composition list that the extents make: composition, exposed count plus one. -/
def compsOf (s : State) : List (Nat × Nat) :=
  let es := s.ext.table.filter fun e => decide (e.1 < 2 ^ 18) && decide (e.2.comp ≠ 0) &&
    (e.2.state == .assigned || e.2.state == .revoking || e.2.state == .revoked)
  es.foldl (fun l e => Tab.put 0 e.2.comp.toNat
    (Nat.max 1 (Tab.get 0 l e.2.comp.toNat) + (if e.2.durability = .paired then 0 else 1)) l) []

def compWord (c v : Nat) : Word := put 0 c ||| put 32 (v - 1)

/-- Entries of the list that an extent command changed are sent to every other live device of the cell (R394). -/
def updateComps (s : State) : State :=
  let new := compsOf s
  let old := s.ras.comps
  let ch := ((new.map (·.1)) ++ (old.map (·.1))).dedup.filter fun c => decide (Tab.get 0 new c ≠ Tab.get 0 old c)
  let s := s.modRas fun r => { r with comps := new }
  ((liveCell s).filter (· != ownFdn s)).foldl (fun s m =>
    ch.foldl (fun s c => tell 0x18 m (servedFdn s) false [compWord c (Tab.get 0 new c)] s) s) s

/-! ### ASSIGN -/

/-- Everything kept for an extent's contents goes (R33 step 2): frames, journal records, directory entries, region table. Its
mapping units await their trim. -/
def eraseExtent (e : Nat) (s : State) : State :=
  let lo := e * 2 ^ 30
  let hi := (e + 1) * 2 ^ 30
  let inExt (k : Nat) : Bool := decide (k / 512 = e)
  let frameIn (f : Nat) : Bool := decide (extOfFrame f = e)
  let muIn (m : Nat) : Bool := decide (m / 2 ^ 14 = e)
  let lineIn (l : Nat) : Bool := decide (extOfLine l = e)
  let mine (rc : JRec) : Bool := decide (fdnOf rc.gsa = servedFdn s) && decide (extOf (offOf rc.gsa) = e)
  let s := s.modTier fun t => { t with
    tags := t.tags.filter fun x => !frameIn x.1
    refetch := t.refetch.filter fun x => !frameIn x.1
    hbm := clearSpan t.hbm lo hi
    wbs := t.wbs.filter fun w => !muIn w.mu
    prefetch := t.prefetch.filter (· != e)
    spillPosted := t.spillPosted.filter (·.1 != e)
    evicting := t.evicting.filter fun f => !frameIn f
    toPoison := t.toPoison.filter fun l => !lineIn l }
  let units := (s.flash.map.filter fun x => muIn x.1).map (·.1)
  let s := s.modFlash fun f => { f with
    map := f.map.filter fun x => !muIn x.1
    data := clearSpan f.data lo hi
    poison := f.poison.filter fun x => !frameIn x.1
    pageJsn := f.pageJsn.filter fun x => !muIn x.1
    unreadable := f.unreadable.filter fun x => !frameIn x
    injected := f.injected.filter fun x => !frameIn x
    homeOnly := f.homeOnly.filter fun x => !muIn x }
  let s := s.modJrn fun j => { j with
    ring := j.ring.filter fun x => !(x.home == ownFdn s && mine x.rc)
    live := j.live.filter fun x => !mine x.2 }
  let s := s.modCoh fun c => { c with
    dir := c.dir.filter fun x => !lineIn x.1
    granules := c.granules.filter fun x => !inExt x.2
    backing := c.backing.filter fun x => (c.granules.any fun g => g.1 == x.1 / 2 ^ 14 && !inExt g.2)
    cache := c.cache.map fun x => (x.1, x.2.filter fun w => !lineIn w.line)
    recalls := c.recalls.filter fun r => !lineIn r.line
    late := c.late ++ ((c.txns.filter fun t => lineIn t.line).flatMap fun t => t.snoops.map fun o => (t.line, o.slot, o.tag))
    txns := c.txns.filter fun t => !lineIn t.line
    stakes := c.stakes.filter fun t => !lineIn t.1
    reserved := c.reserved.filter fun t => !lineIn t.1 }
  let s := s.modHome fun h => { h with multi := h.multi.filter (·.ext != e) }
  let s := s.modCdc fun c => { c with cached := c.cached.filter (· != e), filling := c.filling.filter (· != e), bad := c.bad.filter (·.1 != e) }
  s.modExt fun x => { x with
    regions := x.regions.filter fun r => !inExt r.1
    owners := x.owners.filter fun r => !inExt r.1
    trim := (x.trim ++ units).dedup
    lost := x.lost.filter (· != e) }

/-- ASSIGN, accepted (Table 02-8). -/
def assignExt (e : Nat) (d : ExtDesc) (s : State) : State :=
  let key := s.flash.nextKey
  let d := { d with state := .assigned, keyHandle := BitVec.ofNat 18 e, inc := (extDesc s e).inc + 1 }
  let s := s.modExt fun x => { x with run := some { op := .assign, ext := e, start := now s } }
  let s := s.modFlash fun f => { f with keys := Tab.put 0 e key f.keys, nextKey := key + 1 }
  let s := setExt e d s
  let s := s.modJrn fun j => { j with marks := Tab.put 0 e j.lossEpoch j.marks }
  let s := if d.policy = .pinHbm then s.modTier fun t => { t with prefetch := t.prefetch ++ [e] } else s
  let s := if d.buddyValid then emit (.key d.buddy e key) s else s
  let s := mirrorCtl (extRec s e (.key key)) false s
  updateComps (extJournal e (.extent d) s)

def assignRun (wr : Writer) (e : Nat) (s : State) : State :=
  if s.ext.limit ≤ e then cmdDone extDone .noExtent 0 s
  else if (extDesc s e).state ≠ .free then cmdDone extDone .busy (extDesc s e).inc s
  else
    match descOfWords (extStage s wr) with
    | none => cmdDone extDone .malformed (extDesc s e).inc s
    | some d =>
      if !descOk s d then cmdDone extDone .malformed (extDesc s e).inc s
      else if deadlineDenies s d then cmdDone extDone .denied (extDesc s e).inc s
      else assignExt e d s

/-! ### MODIFY (R31, R32, R49) -/

/-- Words 0-2 of a descriptor with its tier_policy left out (Table 02-2). -/
def fixedWords (d : ExtDesc) : List Word :=
  let red : Nat := match d.redundancy with | .local => 0 | .paired => 1 | .striped => 2
  let dur : Nat := match d.durability with | .cached => 0 | .durable => 1 | .paired => 2
  [put 61 (stateNo d.state) ||| put 54 red ||| put 52 (bit01 (d.form == .coded)) ||| put 50 dur ||| put 24 d.comp.toNat |||
     put 0 d.keyHandle.toNat,
   put 32 d.formParams.toNat ||| put 0 d.inc.toNat, put 16 (bit01 d.buddyValid) ||| put 0 d.buddy.toNat]

/-- Every staged field but range0-range7 and tier_policy equals the current value (Table 02-8), the fields that the device sets among
them. -/
def sameFixed (cur : ExtDesc) (ws : List Word) : Bool :=
  [setFld (wordAt ws 0) 57 56 0, wordAt ws 1, wordAt ws 2] == fixedWords cur

/-- What a new tier policy does to the frames that are resident (R48, R49, Table 03-5). DESIGN CHOICE, safe (log 27): the manual does
not say what a MODIFY does that sets PIN_HBM on an extent that has it already; here it changes no frame and starts no prefetch. -/
def applyPolicy (e : Nat) (old : TierPolicy) (s : State) : State :=
  let fs := (s.tier.tags.filter fun x => extOfFrame x.1 == e).map (·.1)
  let new := (extDesc s e).policy
  if new = old then s
  else
    let s := s.modTier fun t => { t with prefetch := t.prefetch.filter (· != e) }
    match new with
    | .pinHbm => (fs.foldl (fun s f => pinFrame f s) s).modTier fun t => { t with prefetch := t.prefetch ++ [e] }
    | .flashOnly => fs.foldl (fun s f => modTag f (fun t => { t with retention := .low, age := 15 }) s) s
    | .auto => fs.foldl (fun s f => modTag f (fun t =>
        if t.retention = .pinned then { t with retention := .high } else t) s) s

def modifyRun (wr : Writer) (e : Nat) (s : State) : State :=
  let cur := extDesc s e
  if cur.state ≠ .assigned then cmdDone extDone .busy cur.inc s
  else
    match descOfWords (extStage s wr) with
    | none => cmdDone extDone .malformed cur.inc s
    | some d =>
      if !sameFixed cur (extStage s wr) || !descOk s d then cmdDone extDone .malformed cur.inc s
      else
        let new := { cur with ranges := d.ranges, policy := d.policy }
        let s := s.modExt fun x => { x with run := some { op := .modify, ext := e, start := now s, new := some new } }
        extJournal e (.extent new) s

/-! ### REGION (R23, R123, R152, R163) -/

/-- Heads of the regions of an extent, as granule numbers, with their entries (R22). -/
def headsOf (s : State) (e : Nat) : List (Nat × RegionEnt) :=
  ((List.range 512).map fun g => (g, regionEnt s (512 * e + g))).filter fun x => x.2.head

/-- The 512 entries of an extent after the granules `[a, a + n)` become one region: what is left of a region on either side keeps
its attributes. -/
def splitRegions (hs : List (Nat × RegionEnt)) (a n : Nat) (coh : Bool) (own : Ownership) : List (Nat × RegionEnt) :=
  let b := a + n
  let before := hs.filterMap fun (g, r) => if g < a then some (g, { r with length := Nat.min r.length (a - g) }) else none
  let after := hs.filterMap fun (g, r) =>
    if g + r.length ≤ b then none
    else if b ≤ g then some (g, r)
    else some (b, { r with length := g + r.length - b })
  before ++ [(a, { head := true, coherent := coh, ownership := own, length := n })] ++ after

/-- Every entry of a table, from its heads. -/
def entriesOf (hs : List (Nat × RegionEnt)) (g : Nat) : RegionEnt :=
  match hs.find? (fun h => decide (h.1 ≤ g ∧ g < h.1 + h.2.length)) with
  | some h => if h.1 = g then h.2 else { h.2 with head := false, length := 0 }
  | none => {}

/-- Granules of an extent that are COHERENT. -/
def cohGranules (s : State) (e : Nat) : List Nat :=
  (headsOf s e).flatMap fun h => if h.2.coherent then (List.range h.2.length).map (512 * e + h.1 + ·) else []

/-- Does a coherent agent hold a line of a region, or may it come to (R23)? -/
def regionHeld (s : State) (lo hi : Nat) : Bool :=
  let inR (l : Nat) : Bool := decide (lo ≤ l / 2 ^ 14) && decide (l / 2 ^ 14 < hi)
  (s.coh.dir.any fun x => inR x.1 && decide (x.2.presence ≠ 0)) || (s.coh.txns.any fun t => inR t.line) ||
  s.coh.held.any fun w => inR (addr s w.m.gsa / 128)

/-- The owner records after a REGION command (R152, R163): a region that keeps its bounds keeps its record through a change of mode
and loses it with mode NONE; a region whose bounds changed has a fresh one. -/
def regionOwner (old : List (Nat × RegionEnt)) (new : Nat × RegionEnt) (o : Owner) : Owner :=
  match old.find? (fun h => h.1 == new.1 && h.2.length == new.2.length) with
  | none => {}
  | some h =>
    if new.2.ownership = .none then {}
    else if h.2.ownership = .owned ∧ new.2.ownership ≠ .owned ∧ o.held then
      { o with held := false, prevIid := o.ownerIid, prevValid := true }
    else o

/-- The change takes effect for requests admitted after it. -/
def regionApply (e : Nat) (hs : List (Nat × RegionEnt)) (s : State) : State :=
  let old := headsOf s e
  let recs := hs.map fun h => (512 * e + h.1, regionOwner old h (ownerOf s (512 * e + h.1)))
  let was := s.ext.owners.filter fun o => decide (o.1 / 512 = e)
  let s := s.modExt fun x => { x with
    owners := recs.foldl (fun t r => Tab.put {} r.1 r.2 t) (x.owners.filter fun o => decide (o.1 / 512 ≠ e))
    regions := (List.range 512).foldl (fun t g => Tab.put {} (512 * e + g) (entriesOf hs g) t) x.regions }
  let s := (List.range 512).foldl (fun s g =>
    setGranule (512 * e + g) (hs.any fun h => h.2.coherent && decide (h.1 ≤ g ∧ g < h.1 + h.2.length)) s) s
  recs.foldl (fun s r =>
    if (hs.any fun h => decide (512 * e + h.1 = r.1) && decide (h.2.ownership ≠ .none)) && decide (Tab.get {} was r.1 ≠ r.2) then
      journalCtl (publishRec s r.1 r.2) (some e) false s
    else s) s

/-- The layout of a staged region table entry (Table 02-4): a head entry has a length of 1-512, any other none. -/
def entryLayoutOk (w : Word) : Bool :=
  let n := fld w 9 0
  if bitOf w 31 then decide (1 ≤ n ∧ n ≤ 512) else decide (n = 0)

def regionRun (wr : Writer) (e first count : Nat) (s : State) : State :=
  let cur := extDesc s e
  let w := wordAt (extStage s wr) 0
  let c := fld w 30 29
  let o := fld w 28 27
  if cur.state ≠ .assigned then cmdDone extDone .busy cur.inc s
  else if 1 < c ∨ 2 < o ∨ !entryLayoutOk w ∨ count < 1 ∨ 512 < count ∨ 512 < first + count then
    cmdDone extDone .malformed cur.inc s
  else if !(rightsOf cur (writerIid s wr)).own then cmdDone extDone .denied cur.inc s
  else
    let own : Ownership := match o with | 0 => .none | 1 => .owned | _ => .sharedWrite
    let old := headsOf s e
    let hs := splitRegions old first count (c = 1) own
    let touched := old.filter fun h => decide (h.1 < first + count) && decide (first < h.1 + h.2.length)
    if touched.any (fun h => h.2.coherent && regionHeld s (512 * e + h.1) (512 * e + h.1 + h.2.length)) then
      cmdDone extDone .busy cur.inc s
    else
      let here := (cohGranules s e).length
      let after := (hs.map fun h => if h.2.coherent then h.2.length else 0).sum
      if 32768 < s.coh.granules.length - here + after then cmdDone extDone .denied cur.inc s
      else
        let s := s.modExt fun x => { x with run := some { op := .region, ext := e, start := now s } }
        let s := regionApply e hs s
        extJournal e (.region ((List.range 512).map (entriesOf hs))) s

/-! ### REVOKE (R34, R35) -/

/-- Cuttings of rows that lie in an extent. -/
def cutsIn (s : State) (e : Nat) : List Cut :=
  s.emb.cuts.filter fun c => s.emb.tables.any fun t => t.handle == c.handle &&
    (match t.rowAt c.row with | some g => decide (fdnOf g = servedFdn s) && decide (extOf (addr s g) = e) | none => false)

/-- The fence: the state is REVOKING for every slice at once, cuttings of the extent are dropped, every held line is recalled. -/
def fenceExt (e : Nat) (s : State) : State :=
  let s := setExtState e .revoking s
  let cs := (cutsIn s e).filter fun c => !c.dropping
  let s := emitAll (cs.map fun c => .cutDrop c.holder c.handle c.row) (s.modEmb fun m => { m with
    cuts := m.cuts.map fun c => if cs.contains c then { c with dropping := true } else c })
  recallLines (fun l => extOfLine l == e) s

/-- Requests of many lines admitted to the extent, and not yet abandoned (R29). -/
def multiIn (s : State) (e : Nat) : List Multi := s.home.multi.filter fun m => m.ext == e && !m.dead

/-- Contexts whose commit writes the extent. -/
def committingIn (s : State) (e : Nat) : List (Nat × Job) :=
  s.nmc.jobs.filter fun x => x.2.phase == .committing &&
    ((x.2.writes.any fun w => w.lines.any fun l => decide (extOfLine l = e)) ||
      (commitLines s x.2.b).any fun l => decide (extOfLine l.2 = e))

def harvestingIn (s : State) (e : Nat) : Bool :=
  s.emb.queues.any fun q => q.2.writes.any fun w => w.lines.any fun l => decide (extOfLine l = e)

def barriersIn (s : State) (e : Nat) : List Barrier :=
  s.jrn.barriers.filter fun b => b.bases.any fun g => decide (extOf (addr s g) = e)

/-- Nothing admitted remains at the extent, and no agent holds a line of it (R34 step 2). -/
def drained (s : State) (e : Nat) : Bool :=
  !(s.home.waiting.any fun p => p.admitted && decide (extOf p.a = e)) &&
  !(s.coh.txns.any fun t => decide (extOfLine t.line = e)) &&
  !(s.coh.held.any fun w => decide (extOf (addr s w.m.gsa) = e)) &&
  !(s.coh.dir.any fun x => decide (extOfLine x.1 = e) && decide (x.2.presence ≠ 0)) &&
  !(s.own.any fun o => decide (o.key / 512 = e)) &&
  (multiIn s e).isEmpty && (committingIn s e).isEmpty && !harvestingIn s e && (barriersIn s e).isEmpty &&
  !((cutsIn s e).any fun c => decide (now s < c.lease))

def runExt (s : State) : Nat := (s.ext.run.map (·.ext)).getD 0

/-- The extent is REVOKED (R34 step 3); a RELEASE goes on to destroy the key: the buddy and the control mirror destroy their
wrapped copies and confirm, unless they are fenced (R33 step 1). -/
def afterDrain (s : State) : State :=
  match s.ext.run with
  | none => s
  | some r =>
    let e := r.ext
    let s := postExt 0x30 e (setExtState e .revoked s)
    let s := s.modExt fun x => { x with run := x.run.map fun r => { r with draining := false } }
    updateComps s

def destroyKey (e : Nat) (s : State) : State :=
  let d := extDesc s e
  let s := setExtState e .releasing s
  let s := s.modFlash fun f => { f with keys := Tab.put 0 e 0 f.keys }
  let buddy := if d.buddyValid && !isFenced s d.buddy then [d.buddy] else []
  let hs := (buddy ++ (ctlMirrorOf s).toList).dedup
  let s := s.modExt fun x => { x with run := x.run.map fun r => { r with keyHolders := hs } }
  updateComps (emitAll (hs.map fun h => .keyDestroy h e) s)

/-- Let the extent command in progress go on as far as it can (R30, R33, R34, R409). -/
def extTry : Nat → State → State
  | 0, s => s
  | k + 1, s =>
    match s.ext.run with
    | none => s
    | some r =>
      if r.draining then (if drained s r.ext then extTry k (afterDrain s) else s)
      else if !mirrorSure s r then s
      else
        match r.op, (extDesc s r.ext).state with
        | .release, .revoked => extTry k (destroyKey r.ext s)
        | .release, .releasing =>
          if !r.keyHolders.isEmpty then s
          else extTry k (setExtState r.ext .free (eraseExtent r.ext s))
        | _, _ => extEnd .ok r.ext (withSome r.new (fun d s => applyPolicy r.ext (extDesc s r.ext).policy (setExt r.ext d s)) s)

def extGo (s : State) : State := extTry 5 s

/-- REVOKE, or RELEASE of an ASSIGNED extent, begins: the fence is placed. -/
def beginRevoke (op : ExtOp) (e : Nat) (s : State) : State :=
  let s := s.modExt fun x => { x with run := some { op := op, ext := e, start := now s, draining := true } }
  extGo (pump (updateComps (fenceExt e s)))

/-- The bound of R34 has come: every admitted request still unfinished is ABANDONED, and the counters such requests would have
advanced get their error bit. -/
def abandonIn (e : Nat) (s : State) : State :=
  let ps := s.home.waiting.filter fun p => p.admitted && decide (extOf p.a = e)
  let s := ps.foldl (fun s p => match findReq s p.n with | some p => finish p .abandoned 0 [] s | none => s) s
  let ms := multiIn s e
  let s := s.modHome fun h => { h with multi := h.multi.map fun m => if m.ext = e then { m with dead := true } else m }
  let s := (s.home.copies.filter fun c => ms.any fun m => m.src == ownFdn s && m.id == 2 * c.id).foldl (fun s c => endCopy c.id .abandoned s) s
  let s := (barriersIn s e).foldl (fun s b => endBarrier { b with err := true } s) s
  let s := (s.own.filter fun o => decide (o.key / 512 = e)).foldl (fun s o => commitOwn o.key s) s
  let s := (committingIn s e).foldl (fun s x =>
    commitFail (Fin.ofNat 16 (x.1 / 8)) (Fin.ofNat 8 x.1) 0x0B .abandoned (mkGsa (servedFdn s) (e * 2 ^ 30)) s) s
  let qs := s.emb.queues.filter fun q => q.2.writes.any fun w => w.lines.any fun l => decide (extOfLine l = e)
  qs.foldl (fun s q => embFail q.2 .abandoned 0 s) s

def drainBound (s : State) : State :=
  match s.ext.run with
  | none => s
  | some r =>
    if !r.draining then s
    else
      let s := reach (r.start + 10000000) s
      extGo (pump (afterDrain (abandonIn r.ext s)))

def revokeRun (e : Nat) (s : State) : State :=
  if (extDesc s e).state ≠ .assigned then cmdDone extDone .busy (extDesc s e).inc s else beginRevoke .revoke e s

def restoreRun (e : Nat) (s : State) : State :=
  if (extDesc s e).state ≠ .revoked then cmdDone extDone .busy (extDesc s e).inc s
  else extGo (updateComps (setExtState e .assigned (s.modExt fun x => { x with run := some { op := .restore, ext := e, start := now s } })))

def releaseRun (e : Nat) (s : State) : State :=
  match (extDesc s e).state with
  | .assigned => beginRevoke .release e s
  | .revoked => extGo (s.modExt fun x => { x with run := some { op := .release, ext := e, start := now s } })
  | _ => cmdDone extDone .busy (extDesc s e).inc s

/-! ### The commands -/

/-- An extent command: one at a time per device (R30). -/
def extCommand (wr : Writer) (run : State → State) (s : State) : State := (issue wr none [.f, .m] extCmd extDone run s).2

/-- ASSIGN (R20, R30, R57, R63, Table 02-8). -/
def execAssign (wr : Writer) (ext : BitVec 18) (s : State) :=
  complete (extCommand wr fun s => extGo (assignRun wr ext.toNat s)) s

/-- MODIFY (R31, R49, Table 02-8). -/
def execModify (wr : Writer) (ext : BitVec 18) (s : State) :=
  complete (extCommand wr fun s => extGo (modifyRun wr ext.toNat s)) s

/-- REGION (R23, Tables 02-4, 02-8). -/
def execRegion (wr : Writer) (ext : BitVec 18) (first : BitVec 9) (count : BitVec 10) (s : State) :=
  complete (extCommand wr fun s => extGo (regionRun wr ext.toNat first.toNat count.toNat s)) s

/-- REVOKE (R34). -/
def execRevoke (wr : Writer) (ext : BitVec 18) (s : State) := complete (extCommand wr (revokeRun ext.toNat)) s

/-- REVOKE_DRAIN_COMPLETE (R34 step 2): nothing admitted remains at the extent. -/
def execRevokeDrainComplete (s : State) := complete extGo s

/-- REVOKE_DRAIN_BOUND (R34 step 3): 10 ms from the command's acceptance. -/
def execRevokeDrainBound (s : State) := complete drainBound s

/-- RESTORE (Table 02-8). -/
def execRestore (wr : Writer) (ext : BitVec 18) (s : State) := complete (extCommand wr (restoreRun ext.toNat)) s

/-- RELEASE of an extent (R33). -/
def execExtentRelease (wr : Writer) (ext : BitVec 18) (s : State) := complete (extCommand wr (releaseRun ext.toNat)) s

/-- FLASH_TRIM (R33 step 3): a mapping unit of a released extent is trimmed in the background. -/
def execFlashTrim (mu : Nat) (s : State) :=
  complete (fun s => s.modExt fun x => { x with trim := x.trim.filter (· != mu) }) s

/-- Every wrapped copy of a key that this device holds for another goes: in its key store, in the control state it keeps for that
device, and in its journal and its folded tables (R33, R57). -/
def dropKeyOf (home : BitVec 16) (ext : Nat) (s : State) : State :=
  let mine (r : JRec) : Bool :=
    (match r.body with | .key _ => true | _ => false) && decide (fdnOf r.gsa = home) && decide (extNo r.gsa = ext)
  let s := s.modFlash fun f => { f with
    wrapped := f.wrapped.filter fun w => w.1 != home.toNat * 2 ^ 18 + ext
    base := { f.base with keys := Tab.put 0 ((home.toNat + 1) * 2 ^ 18 + ext) 0 f.base.keys } }
  let s := s.modJrn fun j => { j with
    ring := j.ring.filter fun x => !mine x.rc, live := j.live.filter fun x => !mine x.2
    mirrors := j.mirrors.filter fun m => !mine m.rc }
  s.modFlt fun f => { f with
    kept := f.kept.map fun c => if c.subject = home then { c with keys := Tab.put 0 ext 0 c.keys } else c }

/-- KEY_DESTROY (R33 step 1): a holder destroys its wrapped copy and confirms. -/
def execKeyDestroy (home : BitVec 16) (ext : BitVec 18) (s : State) :=
  complete (fun s => emit (.keyGone home ext.toNat) (dropKeyOf home ext.toNat s)) s

end Sys2Proof.Machine
end

