-- ==== Sys2Proof/Machine/HostPorts.lean ====
section
/-! DEFINITION. The CXL host ports (15): from host address to request, 64-byte lines, coherent caching by hosts, status presentation,
the request aperture, and links (R24-R26, R132, R143, R332-R350). -/

namespace Sys2Proof.Machine

open Sys2Proof

/-! ### From host address to GSA (R24-R26, R339) -/

def portOf (w : Fin 64) : Nat := w.val / 16

/-- Where requests of a window enter. -/
def winIng (w : Fin 64) : Ingress := .port (Fin.ofNat 4 (w.val / 16)) (Fin.ofNat 16 w.val)

def hdmAt (s : State) (w j : Nat) : Hdm := Tab.get {} s.hp.hdm (4 * w + j)

/-- Where decoder `j` starts in the window: what the lower decoders take. -/
def hdmStart (s : State) (w j : Nat) : Nat :=
  ((List.range j).map fun i =>
    let d := (hdmAt s w i).cfgd
    d.skip.toNat + d.size.toNat / Nat.max 1 d.ways).sum

/-- The window offset of a host address; none where no committed decoder matches. -/
def hdmOffset (s : State) (w a : Nat) : Option Nat :=
  (List.range 4).findSome? fun j =>
    let h := hdmAt s w j
    let d := h.cfgd
    if !h.committed ∨ a < d.base.toNat ∨ d.base.toNat + d.size.toNat ≤ a then none
    else
      let o := a - d.base.toNat
      let g := 2 ^ d.gran
      some (hdmStart s w j + d.skip.toNat + (o / (g * Nat.max 1 d.ways)) * g + o % g)

/-- The GSA and the incarnation that a window offset names, through its slot; none for an invalid slot (Table 02-5). -/
def slotGsa (s : State) (w off : Nat) : Option (Word × BitVec 32) :=
  let i := off / 2 ^ 30 % 4096
  let v := regGet s (Off.slot w i 0)
  if bitOf v 63 then
    some (put 48 (fld v 15 0) ||| put 30 (fld v 33 16) ||| put 0 (off % 2 ^ 30), (regGet s (Off.slot w i 1)).setWidth 32)
  else none

/-! ### What a host receives (R346, R347, Table 15-5) -/

def devLoad (l : Nat) : BitVec 2 := if l ≤ 5 then 0 else if l ≤ 9 then 1 else if l ≤ 12 then 2 else 3

/-- LOAD for what a port answers by itself. -/
def portLoad (s : State) (w : Fin 64) (g : Word) : Nat := loadOf s { ing := winIng w, gsa := g, iid := winIid s w }

/-- Word 0 of an answer header (Table 05-3). -/
def ansWord (a : Answer) : Word :=
  put 59 (stCode a.st) ||| put 55 a.load.toNat ||| put 51 a.share.toNat ||| put 41 a.hint.toNat ||| put 16 a.dst.toNat |||
    put 0 a.iid.toNat

def ansWord1 (a : Answer) : Word := put 48 a.tag.toNat ||| put 0 a.data.length

def halfOf (l : Line) (h : Bool) : BitVec 512 := if h then l.extractLsb' 512 512 else l.extractLsb' 0 512
def setHalf (l : Line) (h : Bool) (d : BitVec 512) : Line :=
  if h then (d ++ halfOf l false : BitVec 1024) else (halfOf l true ++ d : BitVec 1024)
def halfBit (h : Bool) : BitVec 2 := if h then 2 else 1

/-- An error record of class HOST; code and severity are not the spec's to give (DEDUCED, log 84). -/
def hostRec (w : Fin 64) (g : Word) (sev : BitVec 2) (s : State) : State :=
  raise { cls := 0x08, sev := sev, code := 0x07, block := 4, inst := BitVec.ofNat 8 (portOf w), gsa := g, iid := winIid s w } s

def hostReq (s : State) (w : Fin 64) (tag : BitVec 16) : Option HostReq := s.hp.reqs.find? fun q => q.win == w && q.tag == tag
def dropReq (q : HostReq) (s : State) : State :=
  s.modHp fun h => { h with reqs := h.reqs.filter fun x => !(x.win == q.win && x.tag == q.tag) }
def setReq (q : HostReq) (s : State) : State :=
  s.modHp fun h => { h with reqs := h.reqs.map fun x => if x.win = q.win ∧ x.tag = q.tag then q else x }

/-- TEL_HP_BYTES: the data bytes of 64-byte halves, received or sent (Table 23-8). -/
def hpBytes (w : Fin 64) (sent : Bool) (s : State) : State :=
  telAdd (0x1100 + 0x10 * (portOf w) + if sent then 8 else 0) 64 s

def sendData (w : Fin 64) (o : Out) (s : State) : State := hpBytes w true (emit o s)

/-- A host request completes with an answer (Table 15-5). -/
def present (q : HostReq) (a : Answer) (img : Line) (bad : Bool) (s : State) : State :=
  let s := dropReq q s
  let dl := devLoad a.load.toNat
  let status := cxlWord a
  match q.op, decide (a.st = .ok) with
  | .read, true => sendData q.win (.cxlData q.win q.tag false (halfOf img q.half) dl) s
  | .cohS, true => emit (.cxlCmp q.win q.tag 1 dl) (sendData q.win (.cxlData q.win q.tag bad (halfOf img q.half) dl) s)
  | .cohA, true => emit (.cxlCmp q.win q.tag 2 dl) (sendData q.win (.cxlData q.win q.tag bad (halfOf img q.half) dl) s)
  | .inv, true => emit (.cxlCmp q.win q.tag 2 dl) s
  | .write, true => emit (.cxlCmp q.win q.tag 0 dl) s
  | .read, false | .cohS, false | .cohA, false => sendData q.win (.cxlData q.win q.tag true status dl) s
  | .inv, false => emit (.cxlCmp q.win q.tag 0 dl) s
  | .write, false =>
    hostRec q.win q.r.gsa 1 (postFor 0x21 a.st q.r.iid (q.r.gsa &&& ~~~(127 : Word)) 0 none (emit (.cxlCmp q.win q.tag 0 dl) s))
where
  /-- The status word in bytes 0-7 of a poisoned MemData. -/
  cxlWord (a : Answer) : BitVec 512 := (ansWord a).setWidth 512

/-- An answer that the port makes by itself. -/
def portAnswer (s : State) (q : HostReq) (st : Status) : Answer :=
  { st := st, load := BitVec.ofNat 4 (portLoad s q.win q.r.gsa), share := BitVec.ofNat 4 (shareOf s q.r.iid)
    hint := if st = .ny then q.hint else 0, dst := ownFdn s, iid := q.r.iid, tag := q.tag }

def refuseHost (q : HostReq) (st : Status) (s : State) : State := present q (portAnswer s q st) 0 false s

/-! ### The line table (R342) -/

def gLine (g : Word) : Nat := g.toNat / 128
def entryAt (s : State) (w : Fin 64) (l : Nat) : Option LineEnt := s.hp.lines.find? fun e => e.win == w && e.line == l
def LineEnt.busy (e : LineEnt) : Bool := e.snoop.isSome || decide (e.open_ ≠ 0) || e.writing
def dropEnt (e : LineEnt) (s : State) : State :=
  s.modHp fun h => { h with lines := h.lines.filter fun x => !(x.win == e.win && x.line == e.line) }

/-- Store an entry as the most recently used. -/
def putEnt (e : LineEnt) (s : State) : State :=
  s.modHp fun h => { h with lines := (h.lines.filter fun x => !(x.win == e.win && x.line == e.line)) ++ [e] }

def tableMax : Nat := 524288

/-- The port's next tag towards a home. -/
def portTag (s : State) : BitVec 16 × State :=
  (BitVec.ofNat 16 s.hp.nextTag, s.modHp fun h => { h with nextTag := (h.nextTag + 1) % 65536 })

/-- A message of a port, as agent, towards a line's home. -/
def asAgent (w : Fin 64) (op : BitVec 6) (tag : BitVec 16) (e : LineEnt) (s : State) : State :=
  emit (.agent w op tag e.line e.inc e.image e.poison) s

/-- An entry with no half held is given up: WB_D of a dirty image, EVICT_C of a clean one; CMP_WB frees it. -/
def giveUp (e : LineEnt) (s : State) : State :=
  let (tag, s) := portTag s
  asAgent e.win (if e.dirty then 0x23 else 0x24) tag e (putEnt { e with writing := true, halves := 0, open_ := 0, snoop := none } s)

/-- Back-invalidates to the host for each held half. -/
def sendBi (e : LineEnt) (op : SnoopOp) (s : State) : State :=
  [false, true].foldl (fun s h => if e.halves &&& halfBit h = 0 then s else emit (.biSnp e.win e.line h op) s) s

/-- An entry is recalled from its host by BISnpInv, to be given up. -/
def recallEnt (e : LineEnt) (s : State) : State :=
  if e.busy then s
  else if e.halves = 0 then giveUp e s
  else sendBi e .inv (putEnt { e with open_ := e.halves } s)

/-- The least recently used entry of a port that can be recalled. -/
def lruEnt (s : State) (p : Nat) : Option LineEnt := s.hp.lines.find? fun e => portOf e.win == p && !e.busy

/-! ### Host requests in order (R340, R341, R343) -/

/-- Send a request of a window to its home; a COPY is received and owned here (R26, R100). -/
def sendHost (o : Origin) (tag : Option (BitVec 16)) (r : Req) (s : State) : Option Status × State :=
  let dst : Status ⊕ BitVec 16 := if r.op = 0x0C then .inr (servedFdn s) else routeFor s (fdnOf r.gsa)
  match dst with
  | .inl st => (some st, s)
  | .inr f =>
    match tag with
    | none =>
      let (t, s) := track o r.iid (fdnOf r.gsa) r.gsa s
      (none, emit (.routed f r.op { r with tag := t, src := ownFdn s }) s)
    | some t =>
      let due := now s + deadlineNs s + 1000 * (regGet s (Off.home + 0x18)).toNat
      (none, emit (.routed f r.op { r with tag := t, src := ownFdn s }) (s.modHome fun h => { h with
        tracker := h.tracker ++ [{ iid := r.iid, tag := t, home := fdnOf r.gsa, gsa := r.gsa, due := due, origin := o }] }))

def cohReady (s : State) (w : Fin 64) : Bool := bitOf (regGet s (Off.winCtl w.val)) 63

/-- The half joins what the host holds, and the request is answered from the image. -/
def serveHit (q : HostReq) (e : LineEnt) (s : State) : State :=
  present q (portAnswer s q .ok) e.image e.poison (putEnt { e with halves := e.halves ||| halfBit q.half } s)

/-- Entries of a port's line table in use, those asked for with them (R342). -/
def portEntries (s : State) (p : Nat) : Nat :=
  (s.hp.lines.filter fun e => portOf e.win == p).length +
    (s.hp.reqs.filter fun q => portOf q.win == p && q.sent.isSome && q.op != .read && q.op != .write &&
      (entryAt s q.win (gLine q.r.gsa)).isNone).length

/-- An entry of the port is on its way out, so that a place comes free. -/
def makingRoom (s : State) (p : Nat) : Bool :=
  s.hp.lines.any fun e => portOf e.win == p && (e.writing || (decide (e.open_ ≠ 0) && e.snoop.isNone))

/-- A coherent request of a host (Table 15-4). One that the host sent while a back-invalidate is open, and that needs the home, goes to it
before the snoop's answer (R128); one that the table serves waits for the back-invalidate's end. -/
def serveCoh (q : HostReq) (s : State) : State :=
  let ask (op : BitVec 6) (s : State) : State :=
    let (tag, s) := portTag s
    emit (.agent q.win op tag (gLine q.r.gsa) q.r.inc 0 false) (setReq { q with sent := some tag, retryAt := none } s)
  if !cohReady s q.win then refuseHost q .denied s
  else
    match entryAt s q.win (gLine q.r.gsa) with
    | some e =>
      if e.busy then (if e.snoop.isSome && !e.writing && q.op != .cohS && !e.excl then ask 0x22 s else s)
      else if q.op = .cohS || e.excl then serveHit q e s
      else ask 0x22 s
    | none =>
      if tableMax ≤ portEntries s (portOf q.win) then
        (if makingRoom s (portOf q.win) then s else match lruEnt s (portOf q.win) with | some e => recallEnt e s | none => s)
      else ask (if q.op = .cohS then 0x20 else 0x21) s

def serveHost (q : HostReq) (s : State) : State :=
  match q.op with
  | .read | .write =>
    let (tag, t) := (BitVec.ofNat 16 s.home.nextTag, s)
    let (st, t) := sendHost (.host q.win q.tag) none q.r t
    (match st with
     | some st => refuseHost q st s
     | none => setReq { q with sent := some tag, retryAt := none } t)
  | _ => serveCoh q s

/-- A port takes no more requests: its 4,096 entries for answers are in use (R108), or the device tracks 32,768 requests (R93). -/
def portFull (s : State) (p : Nat) : Bool := decide (4096 ≤ portUsed s p) || decide (32768 ≤ s.home.tracker.length)

/-- A function-level reset completes when every outstanding request of its window has been answered or absorbed (R350). -/
def flrPump (s : State) : State :=
  let busy (w : Fin 64) : Bool := s.hp.reqs.any (fun q => q.win == w) || s.home.tracker.any fun t => match t.origin with
    | .host v _ | .aperture v _ => v == w
    | _ => false
  let gone := s.hp.flr.filter fun w => !busy w
  if gone.isEmpty then s else emitAll (gone.map .flrDone) (s.modHp fun h => { h with flr := h.flr.filter busy })

/-- Requests of a line go to the home one at a time, in arrival order (R341). -/
def hostPump (s : State) : State :=
  flrPump <| s.hp.reqs.foldl (fun s q =>
    match hostReq s q.win q.tag with
    | none => s
    | some q =>
      let first := s.hp.reqs.find? fun x => x.win == q.win && gLine x.r.gsa == gLine q.r.gsa
      if q.sent.isSome || q.retryAt.isSome || first != some q || portFull s (portOf q.win) then s else serveHost q s) s

/-- A host access enters its port (R26). -/
def enterHost (w : Fin 64) (tag : BitVec 16) (off : Option Nat) (op : HostOp) (r : Req) (s : State) : State :=
  let r := { r with iid := winIid s w, ing := winIng w, src := ownFdn s }
  let plan := match off with | some o => slotGsa s w.val o | none => none
  match plan with
  | none => refuseHost { win := w, tag := tag, op := op, r := r } .noExtent s
  | some (g, inc) =>
    let line := g &&& ~~~(127 : Word)
    let q : HostReq := {
      win := w, tag := tag, op := op, half := bitOf g 6, arrived := now s
      r := { r with gsa := if op == .read ∨ r.op = 0x03 then line else g, inc := inc } }
    hostPump (s.modHp fun h => { h with reqs := h.reqs ++ [q] })

/-- STORE_PART of one half: the mask's 16 bytes, then the line (R340). -/
def partPayload (h : Bool) (be : BitVec 64) (data : BitVec 512) : List Byte :=
  let mask : BitVec 128 := if h then (be ++ (0 : BitVec 64)) else ((0 : BitVec 64) ++ be)
  bytesOfNat 16 mask.toNat ++ bytesOfNat 128 (setHalf 0 h data).toNat

def loadReq : Req := { op := 0x01 }
def partReq (h : Bool) (be : BitVec 64) (data : BitVec 512) (poison : Bool) : Req :=
  { op := 0x03, plen := 144, payload := partPayload h be data, poison := poison }

/-- A write-back of a half by the host (Table 15-4, MetaValue I). -/
def hostWriteBack (w : Fin 64) (tag : BitVec 16) (g : Word) (poison : Bool) (data : BitVec 512) (s : State) : State :=
  let s := emit (.cxlCmp w tag 0 (devLoad (portLoad s w g))) s
  match entryAt s w (gLine g) with
  | none => countRC (Off.hp (portOf w) + 0x20) 1 s
  | some e =>
    if e.writing then countRC (Off.hp (portOf w) + 0x20) 1 s
    else
      let h := bitOf g 6
      let e := { e with image := setHalf e.image h data, dirty := true, poison := e.poison || poison, halves := e.halves &&& ~~~(halfBit h) }
      if e.halves = 0 ∧ e.open_ = 0 ∧ e.snoop.isNone then giveUp e s else putEnt e s

/-- A coherent or plain read or write through the HDM decoders. -/
def memAccess (w : Fin 64) (a : Word) (tag : BitVec 16) (op : HostOp) (r : Req) (s : State) : State :=
  enterHost w tag (hdmOffset s w.val a.toNat) op r s

def hostHalf (s : State) (w : Fin 64) (a : Word) : Bool :=
  match hdmOffset s w.val a.toNat with
  | some o => o / 64 % 2 = 1
  | none => false

/-- MEMRD (R340, R342). -/
def execMemrd (win : Fin 64) (addr : Word) (mf : CxlMeta) (tag : BitVec 16) (s : State) :=
  complete (fun s => memAccess win addr tag (match mf with | .noOp | .i => .read | .s => .cohS | .a => .cohA) loadReq s) s

/-- MEMWR (R340, R342). -/
def execMemwr (win : Fin 64) (addr : Word) (mf : CxlMeta) (tag : BitVec 16) (poison : Bool) (data : BitVec 512) (s : State) :=
  complete (fun s =>
    let plain (s : State) : State :=
      memAccess win addr tag .write (partReq (hostHalf s win addr) (BitVec.allOnes 64) data poison) s
    let s := hpBytes win false s
    if mf = .i then
      match (hdmOffset s win.val addr.toNat).bind (slotGsa s win.val) with
      | some (g, _) => hostPump (hostWriteBack win tag g poison data s)
      | none => plain s
    else plain s) s

/-- MEMWRPTL (R340): an empty mask is answered Cmp at once. -/
def execMemwrptl (win : Fin 64) (addr : Word) (tag : BitVec 16) (poison : Bool) (be : BitVec 64) (data : BitVec 512) (s : State) :=
  complete (fun s =>
    if be = 0 then emit (.cxlCmp win tag 0 (devLoad (portLoad s win 0))) s
    else memAccess win addr tag .write (partReq (hostHalf s win addr) be data poison) (hpBytes win false s)) s

/-- MEMINV (R342). -/
def execMeminv (win : Fin 64) (addr : Word) (tag : BitVec 16) (s : State) :=
  complete (memAccess win addr tag .inv loadReq) s

/-- Widths of a port's links (R333). -/
def linkWidths (s : State) (p : Nat) : List Nat :=
  match (regGet s (Off.hp p)).toNat % 4 with
  | 0 => [16] | 1 => [8, 8] | 2 => [4, 4, 4, 4] | _ => [8, 4, 4]

/-- The link of each LD of a port, in LD order (Table 22-7). -/
def ldLinks (s : State) (p : Nat) : List Nat :=
  let v := regGet s (Off.hp p + 8)
  (List.range (linkWidths s p).length).flatMap fun i => List.replicate (fld v (5 * i + 4) (5 * i)) i

def hostLink (s : State) (p l : Nat) : HostLink := Tab.get {} s.hp.links (4 * p + l)
def modLink (p l : Nat) (f : HostLink → HostLink) (s : State) : State :=
  s.modHp fun h => { h with links := Tab.upd {} (4 * p + l) f h.links }

/-- The flit of a host access at its link (R348): FEC corrections and replays are counted and reported as correctable, an error that could
not be corrected as non-fatal; the transaction of such a flit is dropped. An answer replayed by the link is not issued again. -/
def hostFlit (w : Fin 64) (fl : HostFlit) (s : State) : State :=
  let l := (ldLinks s (portOf w)).getD (w.val % 16) 0
  let p : Fin 4 := Fin.ofNat 4 (portOf w)
  let s := modLink (portOf w) l (fun h => { h with
    fec := h.fec + fl.corrected, replays := h.replays + fl.replays, lostFlits := h.lostFlits + if fl.bad then 1 else 0 }) s
  let s := if fl.corrected = 0 ∧ fl.replays = 0 then s else emit (.aer p l false) s
  if fl.bad then emit (.aer p l true) s else s

/-- HOST_ACCESS (R26, R348): a request at a window offset, and the flit it came in. -/
def execHostAccess (win : Fin 64) (w : BitVec 42) (a : HostMsg) (s : State) :=
  complete (fun s =>
    let s := hostFlit win a.flit s
    if a.flit.bad then s else enterHost win a.r.tag (some w.toNat) (if a.r.op = 0x01 then .read else .write) a.r s) s

/-! ### Answers of the home (R342, R343, R346) -/

def holdMax (s : State) (q : HostReq) : Nat :=
  match q.op with
  | .read | .write => 1000 * (regGet s (Off.hp (portOf q.win) + 0x10)).toNat
  | _ => deadlineNs s

/-- An answer of the home reaches a host request (R346). -/
def hostAnswered (w : Fin 64) (tag : BitVec 16) (a : Answer) (s : State) : State :=
  match hostReq s w tag with
  | none => hostPump (countRC (Off.home + 0x28) 1 s)
  | some q =>
    let hold := q.op = .write || !bitOf (regGet s (Off.winCtl w.val)) 62
    if a.st = .ny ∧ hold ∧ now s < q.arrived + holdMax s q then
      setReq { q with sent := none, hint := a.hint, retryAt := some (now s + 250 * a.hint.toNat) } s
    else hostPump (present q a (lineOfBytes a.data) false s)

/-- The reissue of a request held for an NY, after its hint. -/
def reissue (w : Fin 64) (tag : BitVec 16) (s : State) : State :=
  match hostReq s w tag with
  | none => s
  | some q =>
    match q.retryAt with
    | none => s
    | some t => hostPump (setReq { q with retryAt := none } (reach t s))

/-- HOLD_REISSUE (R346). -/
def execHoldReissue (win : Fin 64) (tag : BitVec 16) (s : State) := complete (reissue win tag) s

/-- HP_HOLD_MAX, or for a coherent request its deadline, has passed while its NY is held (R343, R346). -/
def holdExpired (w : Fin 64) (tag : BitVec 16) (s : State) : State :=
  match hostReq s w tag with
  | none => s
  | some q =>
    if q.retryAt.isNone then s
    else
      let s := reach (q.arrived + holdMax s q) s
      hostPump (refuseHost q .ny s)

/-- HOLD_MAX_EXPIRE (R343, R346). -/
def execHoldMaxExpire (win : Fin 64) (tag : BitVec 16) (s : State) := complete (holdExpired win tag) s

/-- A message that the agent has no use for is counted and dropped (R144). -/
def agentZ (w : Fin 64) (s : State) : State := countRC (Off.hp (portOf w) + 0x20) 1 s

/-- The open request of a window for a line under a tag sent to its home. -/
def cohOpen (s : State) (w : Fin 64) (l : Nat) (tag : BitVec 16) : Option HostReq :=
  s.hp.reqs.find? fun q => q.win == w && gLine q.r.gsa == l && q.sent == some tag && q.op != .read && q.op != .write

/-- GNT_S and GNT_E create an entry with the grant's data and answer the request (Table 15-4). -/
def granted (excl : Bool) (w : Fin 64) (l : Nat) (tag : BitVec 16) (data : Line) (s : State) : State :=
  match cohOpen s w l tag, entryAt s w l with
  | some q, none =>
    if (q.op == .cohS) == excl then agentZ w s
    else hostPump (serveHit q { win := w, line := l, excl := excl, image := data, inc := q.r.inc } s)
  | _, _ => agentZ w s

/-- GNT_S (R342). -/
def execGntS (win : Fin 64) (line : BitVec 57) (tag : BitVec 16) (data : Line) (s : State) :=
  complete (granted false win line.toNat tag data) s

/-- GNT_E (R342). -/
def execGntE (win : Fin 64) (line : BitVec 57) (tag : BitVec 16) (data : Line) (s : State) :=
  complete (granted true win line.toNat tag data) s

/-- GNT_E_ND (R342): the S entry becomes E. -/
def execGntEND (win : Fin 64) (line : BitVec 57) (tag : BitVec 16) (s : State) :=
  complete (fun s =>
    match cohOpen s win line.toNat tag, entryAt s win line.toNat with
    | some q, some e => if q.op = .cohS ∨ e.excl then agentZ win s else hostPump (serveHit q { e with excl := true } s)
    | _, _ => agentZ win s) s

/-- CMP_WB (R342): the entry is freed. -/
def execCmpWb (win : Fin 64) (line : BitVec 57) (_tag : BitVec 16) (_st : Status) (s : State) :=
  complete (fun s =>
    match entryAt s win line.toNat with
    | some e => if e.writing then hostPump (dropEnt e s) else agentZ win s
    | none => agentZ win s) s

/-- NACK (R343): NY is held until the request's deadline, any other status completes the request. -/
def execNack (win : Fin 64) (line : BitVec 57) (tag : BitVec 16) (st : Status) (hint : BitVec 10) (s : State) :=
  complete (fun s =>
    match cohOpen s win line.toNat tag with
    | none => agentZ win s
    | some q =>
      if st = .ny then setReq { q with sent := none, hint := hint, retryAt := some (now s + 250 * hint.toNat) } s
      else hostPump (refuseHost q st s)) s

/-! ### Snoops (R342, Table 06-8) -/

/-- The port answers a snoop once its host has answered for every held half. -/
def snoopDone (e : LineEnt) (s : State) : State :=
  match e.snoop with
  | none => giveUp e s
  | some (op, tag) =>
    let st : Nat := match op with | .inv => 0 | .data => 1 | .cur => if e.excl then 2 else 1
    let code := BitVec.ofNat 6 (0x30 + st + (if e.dirty then 3 else 0))
    let s := asAgent e.win code tag e s
    if op = .inv then dropEnt e s
    else putEnt { e with dirty := false, poison := false, snoop := none, excl := decide (st = 2) } s

def snooped (op : SnoopOp) (w : Fin 64) (l : Nat) (tag : BitVec 16) (s : State) : State :=
  match entryAt s w l with
  | none => asAgent w 0x30 tag { win := w, line := l } s
  | some e =>
    if e.writing then asAgent w 0x30 tag { win := w, line := l } s
    else if e.open_ ≠ 0 then putEnt { e with snoop := some (op, tag) } s
    else if e.halves = 0 then hostPump (snoopDone { e with snoop := some (op, tag) } s)
    else sendBi e op (putEnt { e with snoop := some (op, tag), open_ := e.halves } s)

/-- SNP_INV (R342). -/
def execSnpInv (win : Fin 64) (line : BitVec 57) (tag : BitVec 16) (s : State) := complete (snooped .inv win line.toNat tag) s

/-- SNP_DATA (R342). -/
def execSnpData (win : Fin 64) (line : BitVec 57) (tag : BitVec 16) (s : State) := complete (snooped .data win line.toNat tag) s

/-- SNP_CUR (R342). -/
def execSnpCur (win : Fin 64) (line : BitVec 57) (tag : BitVec 16) (s : State) := complete (snooped .cur win line.toNat tag) s

/-- A BIRsp for a half, with the dirty data presented with it (Table 06-5). -/
def biAnswered (w : Fin 64) (l : Nat) (h : Bool) (k : BiRspKind) (data : Option (BitVec 512)) (s : State) : State :=
  match entryAt s w l with
  | none => agentZ w s
  | some e =>
    if e.open_ &&& halfBit h = 0 then agentZ w s
    else
      let e := { e with
        open_ := e.open_ &&& ~~~(halfBit h)
        halves := if k = .i then e.halves &&& ~~~(halfBit h) else e.halves
        image := match data with | some d => setHalf e.image h d | none => e.image
        dirty := e.dirty || data.isSome }
      if e.open_ ≠ 0 then putEnt e s else hostPump (snoopDone e s)

/-- BIRSP (R342). -/
def execBirsp (win : Fin 64) (line : BitVec 57) (half : Bool) (k : BiRspKind) (data : Option (BitVec 512)) (s : State) :=
  complete (fun s => biAnswered win line.toNat half k data (if data.isSome then hpBytes win false s else s)) s

/-- H2D_SNOOP (R345): the device holds no host line. -/
def execH2dSnoop (port : Fin 4) (addr : BitVec 52) (s : State) := complete (emit (.rspIHitI port addr)) s

/-! ### The request aperture (R336, R337) -/

def aperKey (w : Fin 64) (sl : BitVec 8) : Nat := w.val * 256 + sl.toNat
def aperAt (s : State) (w : Fin 64) (sl : BitVec 8) : Option Aper := (s.hp.aper.find? fun a => a.1 == aperKey w sl).map (·.2)
def setAper (w : Fin 64) (sl : BitVec 8) (a : Aper) (s : State) : State :=
  s.modHp fun h => { h with aper := (h.aper.filter fun x => x.1 != aperKey w sl) ++ [(aperKey w sl, a)] }

/-- A word of a slot's answer: header, then data, then zeros (R337). -/
def aperWord (a : Answer) (off : Nat) : Word :=
  wordAt ([ansWord a, ansWord1 a] ++ wordsOfBytes 16 (a.data ++ List.replicate 128 0)) (off / 8)

/-- A read of a slot with its answer there. Bytes beyond offset 0x08F are not the spec's to give (log 2). -/
def aperGive (w : Fin 64) (sl : BitVec 8) (a : Answer) (off : BitVec 12) (s : State) : State :=
  if off.toNat < 0x90 then emit (.aperture w sl off (aperWord a off.toNat)) s
  else emit (.aperture w sl off (Config.freeWord s.free)) s.draw

/-- The answer of a slot's request; reads that the port holds complete. -/
def aperAnswered (w : Fin 64) (sl : BitVec 8) (a : Answer) (s : State) : State :=
  match aperAt s w sl with
  | none => countRC (Off.home + 0x28) 1 s
  | some x =>
    if !x.pending then countRC (Off.home + 0x28) 1 s
    else x.reads.foldl (fun s o => aperGive w sl a o s) (setAper w sl { x with pending := false, answer := some a, reads := [] } s)

/-- An opcode of Table 05-2 (R91). -/
def knownOp (op : BitVec 6) : Bool :=
  [0x01, 0x02, 0x03, 0x04, 0x08, 0x0C, 0x0D, 0x0E, 0x10, 0x11, 0x12, 0x13, 0x1E].contains op.toNat

/-- The request of a slot goes to its home, or is answered by the port. -/
def aperSend (w : Fin 64) (sl : BitVec 8) (r : Req) (s : State) : State :=
  let no (st : Status) (s : State) : State :=
    aperAnswered w sl { st := st, load := BitVec.ofNat 4 (portLoad s w r.gsa), share := BitVec.ofNat 4 (shareOf s r.iid)
                        dst := r.src, iid := r.iid, tag := r.tag } s
  if !knownOp r.op ∨ 4032 < r.plen.toNat ∨ (s.home.tracker.any fun t => t.iid == r.iid && t.tag == r.tag) then no .malformed s
  else
    match sendHost (.aperture w sl) (some r.tag) r s with
    | (some st, _) => no st s
    | (none, t) => t

def aperGo (w : Fin 64) (sl : BitVec 8) (r : Req) (s : State) : State :=
  match (aperAt s w sl).getD {} with
  | x =>
    if x.pending then hostRec w r.gsa 0 (countRC (Off.hp (portOf w) + 0x18) 1 s)
    else
      let r := { r with ing := .aperture w sl, tag := sl.setWidth 16, src := ownFdn s, iid := winIid s w }
      if portFull s (portOf w) then setAper w sl { req := r, pending := true, waits := true } s
      else aperSend w sl r (setAper w sl { req := r, pending := true } s)

/-- Slots whose request has found no entry at their port go on as entries become free (R93, R108). -/
def aperPump (s : State) : State :=
  s.hp.aper.foldl (fun s a =>
    let w : Fin 64 := Fin.ofNat 64 (a.1 / 256)
    let sl := BitVec.ofNat 8 a.1
    if !a.2.waits || portFull s (portOf w) then s else aperSend w sl a.2.req (setAper w sl { a.2 with waits := false } s)) s

/-- APERTURE_GO (R93, R336). -/
def execApertureGo (win : Fin 64) (slot : BitVec 8) (r : Req) (s : State) := complete (aperGo win slot r) s

def aperRead (w : Fin 64) (sl : BitVec 8) (off : BitVec 12) (s : State) : State :=
  match aperAt s w sl with
  | none => aperGive w sl { st := .malformed, dst := ownFdn s, iid := winIid s w, tag := sl.setWidth 16 } off s
  | some x =>
    match x.answer with
    | some a => if x.pending then setAper w sl { x with reads := x.reads ++ [off] } s else aperGive w sl a off s
    | none => setAper w sl { x with reads := x.reads ++ [off] } s

/-- APERTURE_READ (R337). -/
def execApertureRead (win : Fin 64) (slot : BitVec 8) (off : BitVec 12) (s : State) := complete (aperRead win slot off) s

/-! ### Decoders and links (R333, R334, R339, R344, R349, R350) -/

def unit256 (w : Word) : Bool := decide (w.toNat % 2 ^ 28 = 0)

/-- A decoder commit: it fails where the range of W would reach 4 TiB, or its settings are not those of R339. -/
def commitHdm (w : Fin 64) (j : Fin 4) (d : HdmSet) (s : State) : State :=
  let fine := unit256 d.base && unit256 d.size && unit256 d.skip && [1, 2, 4, 8, 16].contains d.ways &&
    decide (8 ≤ d.gran) && decide (d.gran ≤ 14)
  let k := 4 * w.val + j.val
  let set (h : Hdm) (s : State) : State := s.modHp fun p => { p with hdm := Tab.put {} k h p.hdm }
  if !fine ∨ 2 ^ 42 < hdmStart s w.val j.val + d.skip.toNat + d.size.toNat / Nat.max 1 d.ways then
    set { cfgd := d, committed := false, error := true } s
  else set { cfgd := d, committed := true, error := false } s

/-- HDM_DECODER_COMMIT (R339). -/
def execHdmDecoderCommit (win : Fin 64) (j : Fin 4) (d : HdmSet) (s : State) := complete (commitHdm win j d) s

/-- The windows of a link. -/
def linkWins (s : State) (p l : Nat) : List (Fin 64) :=
  ((List.range 16).filter fun d => (ldLinks s p)[d]? == some l).map fun d => Fin.ofNat 64 (16 * p + d)

def clearCoh (ws : List (Fin 64)) (s : State) : State :=
  ws.foldl (fun s w => regSet (Off.winCtl w.val) (setFld (regGet s (Off.winCtl w.val)) 63 63 0) s) s

/-- A link may train: its PERST_N input is released, step 4 has set HP_BIFURC (R427), and its clock runs (R465). -/
def hostMayTrain (s : State) (p l : Nat) : Bool :=
  (hostLink s p l).perst && !s.sys.clocksLost.contains (.host (Fin.ofNat 4 p)) &&
    (s.sys.phase == .service || (s.sys.phase == .bringUp && decide (4 ≤ s.sys.step)))

/-- A link trains (R334, R344). One narrower than HP_BIFURC sets is reported. -/
def linkUp (p l : Nat) (t : HostTrain) (s : State) : State :=
  match (linkWidths s p)[l]? with
  | none => s
  | some w =>
    let s := clearCoh (linkWins s p l) (modLink p l (fun h => { h with up := true, train := t }) s)
    if t.width.toNat < w then postDev 0x2A (put 63 1 ||| put 0 (4 * p + l)) s else s

/-- HOST_LINK_UP (R334, R344). -/
def execHostLinkUp (port : Fin 4) (lnk : Fin 4) (st : HostTrain) (s : State) :=
  complete (fun s => if hostMayTrain s port.val lnk.val then linkUp port.val lnk.val st s else s) s

/-- What a link's loss does at the device (R349, R351): with the device in service its coherent slots are lost. -/
def linkLost (p l : Nat) (s : State) : State :=
  let ws := linkWins s p l
  let s := modLink p l (fun h => { h with up := false, train := {} }) s
  let s := s.modHp fun h => { h with
    reqs := h.reqs.filter fun q => !ws.contains q.win
    lines := h.lines.filter fun e => !ws.contains e.win
    aper := h.aper.filter fun a => !ws.any fun w => w.val == a.1 / 256 }
  let s := clearCoh ws s
  let s := if portUp s (Fin.ofNat 4 p) then s
    else (s.xlt.reads.filter fun r => r.port.val == p).foldl (fun s r => endHostRead r .abandoned [] s) s
  if s.sys.phase ≠ .service then s
  else
    pump ((List.finRange 64).foldl (fun s n =>
      if agentCxl s n.val && ws.any (fun w => w.val == fld (agentW s n.val) 57 52) then startSweep n s else s) s)

/-- HOST_LINK_DOWN (R349). -/
def execHostLinkDown (port : Fin 4) (lnk : Fin 4) (s : State) :=
  complete (fun s => if (hostLink s port.val lnk.val).up then linkLost port.val lnk.val s else s) s

/-- FUNCTION_LEVEL_RESET (R350): aperture slots and MSI-X state are cleared; coherent state is not affected. It completes when every
outstanding request of the LD has been answered or absorbed. -/
def execFunctionLevelReset (win : Fin 64) (s : State) :=
  complete (fun s => flrPump (s.modHp fun h => { h with
    aper := h.aper.filter fun a => a.1 / 256 != win.val
    msix := h.msix.filter fun v => v / 256 != win.val
    flr := h.flr.filter (· != win) ++ [win] })) s

end Sys2Proof.Machine
end

