-- ==== Sys2Proof/Machine/Votes.lean ====
section
/-! DEFINITION. Suspicion and votes (R402-R404), which the links and the fleet agent share. -/

namespace Sys2Proof.Machine

open Sys2Proof

/-- The stand-in of a device of this cell: the next live device in slot order (R409, R410). -/
def standInOf (s : State) (d : BitVec 16) : Option (BitVec 16) :=
  match (cellAll s).find? (fun p => p.2 == d) with
  | none => none
  | some me => nextLive s me.1 d

def votersOf (s : State) (d : BitVec 16) : List (BitVec 16) := ((s.flt.voters.find? fun v => v.1 == d).map (·.2)).getD []

/-- The quorum of a device (R403). -/
def quorum (s : State) (d : BitVec 16) : Nat := (votersOf s d).length / 2 + 1

/-- SUSPECT votes held on a device, each voter's once. -/
def votesOn (s : State) (d : BitVec 16) : Nat :=
  ((votersOf s d).filter fun v => s.flt.votes.contains (d, v)).length

/-- A hold of 1 ms runs while the quorum of votes is held (R404). A device with fewer than 3 voters is not fenced so (R403). -/
def recount (d : BitVec 16) (s : State) : State :=
  if (votersOf s d).length < 3 ∨ votesOn s d < quorum s d then
    s.modFlt fun f => { f with holds := f.holds.filter (·.1 != d) }
  else if s.flt.holds.any (·.1 == d) then s
  else s.modFlt fun f => { f with holds := f.holds ++ [(d, now s + 1000000)] }

/-- The latest vote of a voter on a device (R404). -/
def castVote (voter d : BitVec 16) (yes : Bool) (s : State) : State :=
  let s := s.modFlt fun f => { f with votes := (f.votes.filter (· != (d, voter))) ++ (if yes then [(d, voter)] else []) }
  recount d s

/-- A voter tells every voter of a device and its stand-in what it holds of it (R404). -/
def tellVoters (ty : BitVec 8) (d : BitVec 16) (s : State) : State :=
  let to_ := ((votersOf s d) ++ (standInOf s d).toList).dedup.filter (· != ownFdn s)
  let s := to_.foldl (fun s v => tell ty v d false [] s) s
  castVote (ownFdn s) d (ty = 0x02) s

/-- What a device holds of a link's peer, told where it is a voter of the peer. A witness, whose lists do not show the peer's voters, tells the
sixteen FDNs that its cell takes (log 14). -/
def tellOf (ty : BitVec 8) (n : Nat) (d : BitVec 16) (s : State) : State :=
  if (votersOf s d).contains (ownFdn s) then tellVoters ty d s
  else if 15 ≤ n ∧ n < 23 ∧ votersOf s d = [] then
    (((List.range 16).map fun i => BitVec.ofNat 16 (d.toNat / 16 * 16 + i)).filter (· != d)).foldl (fun s v => tell ty v d false [] s) s
  else s

/-- The peer of a link is suspected (R402); a PDOWN raises no record (R380). -/
def suspectPeer (rec : Bool) (n : Nat) (s : State) : State :=
  let l := fabAt s n
  if l.suspected || !l.known then s
  else
    let s := modFabLink n (fun l => { l with suspected := true, heard := 0 }) s
    let s := if rec then fleetRec 0x03 0 l.peer s else s
    tellOf 0x02 n l.peer s

/-- The suspicion of a link's peer ends (R402). -/
def unsuspectPeer (n : Nat) (s : State) : State :=
  let l := fabAt s n
  if !l.suspected then s
  else
    let s := modFabLink n (fun l => { l with suspected := false, heard := 0 }) s
    let s := fleetRec 0x03 0 l.peer s
    tellOf 0x03 n l.peer s

end Sys2Proof.Machine
end

