-- ==== Sys2Proof/Machine/Fabric.lean ====
section
/-! DEFINITION. The fabric links (16): bring-up and wiring, FEC modes, flits, credits and replay, the spare lane, routing, time, optics
and link loss (R352-R381). -/

namespace Sys2Proof.Machine

open Sys2Proof

/-! ### Identity and records -/

/-- The object of an event that names a link and something else of it. -/
def linkObj (n v : Nat) : Word := put 0 n ||| put 32 v

/-- A LINK record. -/
def linkRec (code : BitVec 8) (sev : BitVec 2) (n : Nat) (fdn : BitVec 16) (s : State) : State :=
  raise { cls := 0x07, sev := sev, code := code, block := 8, inst := BitVec.ofNat 8 n, fdn := fdn } s

/-- A TRANSPORT record. -/
def routeRec (code : BitVec 8) (fdn : BitVec 16) (s : State) : State :=
  raise { cls := 0x06, sev := 1, code := code, block := 8, fdn := fdn } s

def ownFleet (s : State) : BitVec 32 := (regGet s (Off.fab + 0x2000)).extractLsb' 32 32

/-- FEC modes that FAB_FEC_ALLOW permits for a link's role. -/
def fecAllow (s : State) (n : Nat) : Nat :=
  let v := (regGet s (Off.fab + 0x2018)).toNat
  if n < 15 then v % 8 else if n < 23 then v / 8 % 8 else v / 64 % 8

/-- May a link run a mode? Both ends must allow it. -/
def fecOk (s : State) (n m : Nat) : Bool :=
  decide (fecAllow s n / 2 ^ m % 2 = 1) && decide ((fabAt s n).peerFec.toNat / 2 ^ m % 2 = 1)

/-- The mode a link starts in: the default of Table 16-2, or the first one allowed. -/
def fecFirst (s : State) (n : Nat) : BitVec 2 :=
  let want := if isMesh n then 0 else 2
  if fecOk s n want then BitVec.ofNat 2 want else BitVec.ofNat 2 (([0, 1, 2].find? (fecOk s n)).getD want)

def ones (n v : Nat) : Nat := ((List.range n).filter fun i => v.testBit i).length

/-- The IDENT body that this device sends on a link (Table 16-3). -/
def identWords (s : State) (n : Nat) : List Word :=
  [setFld (regGet s (Off.fab + 0x2000)) 4 0 n,
   put 60 (ownSlot s) ||| put 57 (fecAllow s n) ||| put 52 (fabAt s n).working.toNat,
   BitVec.ofNat 64 s.flt.epoch]

/-! ### Sending messages (R361-R367, R371-R374) -/

def creditKey (vc bclass : Nat) : Nat := 4 * vc + bclass

/-- Length of a message in 8-byte units, prefix included. -/
def msgUnits (m : FabMsg) : Nat := 1 + ceilDiv m.body.length 8

/-- Credits that a message takes (R364). -/
def msgNeed (m : FabMsg) : Nat := ceilDiv (8 * (msgUnits m)) 64

/-- Prefix of Table 16-7. -/
def msgHead (m : FabMsg) : Word :=
  put 61 m.vc.val ||| put 59 m.bclass.toNat ||| put 56 m.hops.toNat ||| put 40 m.dst.toNat ||| put 24 m.src.toNat |||
    put 12 (msgUnits m)

def msgBytes (m : FabMsg) : List Byte :=
  let b := bytesOfWord (msgHead m) ++ m.body
  b ++ List.replicate (8 * (msgUnits m) - b.length) 0

/-- The flit of a header and 248 payload bytes, with its CRC (R361). -/
def flitOf (hdr : Nat) (pay : List Byte) : BitVec 2048 :=
  let b := bytesOfNat 4 hdr ++ (pay ++ List.replicate 248 0).take 248
  BitVec.ofNat 2048 (natOfBytes (b ++ bytesOfNat 4 (crc32c b).toNat))

/-- A flit header (Table 16-6). -/
def flitHdr (ctrl : Bool) (seq ack : BitVec 12) (first : Nat) : Nat :=
  bit01 ctrl * 2 ^ 30 + seq.toNat * 2 ^ 18 + ack.toNat * 2 ^ 6 + first * 2

def lastAck (l : FabLink) : BitVec 12 := l.rxSeq - 1

/-- TEL_FAB_BYTES: whole flits, received or sent (Table 23-8). -/
def fabBytes (n : Fin 24) (sent : Bool) (flits : Nat) (s : State) : State :=
  telAdd (0x1200 + 0x10 * n.val + if sent then 8 else 0) (256 * flits) s

/-- A CTRL flit: it carries the acknowledgement when nothing else is ready (R365). -/
def sendAck (n : Fin 24) (s : State) : State :=
  let l := fabAt s n
  fabBytes n true 1 (emit (.flit n l.txSeq (flitOf (flitHdr true l.txSeq (lastAck l) 31) [])) s)

/-- Cut a message's bytes into payloads of 31 slots. -/
def chunks : Nat → List Byte → List (List Byte)
  | 0, _ => []
  | k + 1, b => if b.isEmpty then [] else b.take 248 :: chunks k (b.drop 248)

/-- The DATA flits of a message enter the replay buffer in order. -/
def sendFlits (n : Fin 24) : Bool → List (List Byte) → State → State
  | _, [], s => s
  | first, c :: cs, s =>
    let l := fabAt s n
    let f := flitOf (flitHdr false l.txSeq (lastAck l) (if first then 0 else 31)) c
    let s := modFabLink n (fun l => { l with
      txSeq := l.txSeq + 1, ackAt := if l.unacked.isEmpty then now s else l.ackAt, unacked := l.unacked ++ [(l.txSeq, f)] }) s
    sendFlits n false cs (fabBytes n true 1 (emit (.flit n l.txSeq f) s))

def creditsOf (l : FabLink) (k : Nat) : Nat := Tab.get 0 l.credits k

/-- Which pool pays for a message: the dedicated one first, otherwise the shared one (R364). -/
def payPool (l : FabLink) (m : FabMsg) : Option Bool :=
  if (msgNeed m) ≤ creditsOf l (creditKey m.vc m.bclass.toNat) then some false
  else if (msgNeed m) ≤ l.shared then some true else none

/-- Send a message on a link, if it has credits for the whole of it and the replay window is open (R364, R367). -/
def sendOn (n : Fin 24) (m : FabMsg) (s : State) : Option State :=
  let l := fabAt s n
  let cs := chunks 133 (msgBytes m)
  match payPool l m with
  | none => none
  | some p =>
    if l.unacked.length + cs.length > 1024 then none
    else
      let k := creditKey m.vc m.bclass.toNat
      let s := modFabLink n (fun l =>
        if p then { l with shared := l.shared - (msgNeed m) }
        else { l with credits := Tab.put 0 k (creditsOf l k - (msgNeed m)) l.credits }) s
      some (emit (.forward n m) (sendFlits n true cs s))

/-- The path key of a message's VC, as four bytes (Table 16-8). -/
def msgKey (m : FabMsg) : Option Nat :=
  match m.vc.val with
  | 0 => some (m.iid.toNat + 65536 * m.dst.toNat)
  | 2 | 3 => some (m.src.toNat + 65536 * m.dst.toNat)
  | _ => none

/-- A message as it crosses a link: one hop fewer, and one class more on an optical link (R373). -/
def msgCross (m : FabMsg) (n : Nat) : FabMsg :=
  { m with hops := m.hops - 1, bclass := if isMesh n then m.bclass else m.bclass + 1, arrived := none }

/-- The tag of an answer message (Table 05-3). -/
def ansTag (m : FabMsg) : BitVec 16 := (wordAt (wordsOfBytes 2 m.body) 1).extractLsb' 48 16

/-- The place in an answer reserve of an answer of this device (R368). -/
def ansPlace (s : State) (m : FabMsg) : Option AnsRes :=
  if m.vc.val = 1 ∧ m.arrived.isNone then s.fab.answers.find? (sameAns m.iid (ansTag m) m.dst) else none

/-- The egress link of a message among the links of its mask: by its key, or the one with most credits for its VC and the class it crosses
in (R372). -/
def pickLink (s : State) (m : FabMsg) (mask : List Nat) : Option Nat :=
  match (msgKey m) with
  | some k => mask[(crc32c (bytesOfNat 4 k)).toNat % Nat.max 1 mask.length]?
  | none =>
    mask.foldl (fun b n => match b with
      | none => some n
      | some c =>
        let cr (i : Nat) : Nat := creditsOf (fabAt s i) (creditKey m.vc (msgCross m i).bclass.toNat)
        if cr c < cr n then some n else some c) (none : Option Nat)

/-- What becomes of a message at this device. -/
inductive Routed where
  | deliver | noRoute | bad | link (n : Nat)

def fabHere (s : State) (d : BitVec 16) : Bool :=
  d == ownFdn s || d == servedFdn s || s.fab.redirect.any fun p => p.1 == d.toNat && p.2 == (ownFdn s).toNat

def routeMsg (s : State) (m : FabMsg) : Routed :=
  if fabHere s m.dst then .deliver
  else if m.arrived.isSome ∧ m.hops = 0 then .bad
  else
    match (((ansPlace s m).bind (·.link)).map (·.val)).or (pickLink s m (linkMask s m.dst)) with
    | none => .noRoute
    | some n =>
      let fromMesh := match m.arrived with | some a => isMesh a.val | none => false
      if fromMesh && isMesh n then .bad
      else if !isMesh n && m.bclass == 3 then .bad
      else .link n

def holdNs (s : State) : Nat := 1000 * (regGet s (Off.fab + 0x2028)).toNat
def pathKey (m : FabMsg) : Option Nat := (msgKey m).map fun k => m.vc.val * 2 ^ 32 + k

/-- A keyed flow that moves to another link waits until FAB_PATH_HOLD after its last message on the old one (R374). -/
def pathWaits (s : State) (m : FabMsg) (n : Nat) : Bool :=
  match pathKey m with
  | none => false
  | some k => s.fab.paths.any fun p => p.1 == k && p.2.1 != n && decide (now s < p.2.2 + holdNs s)

/-- A message leaves its receive buffer: its credits go back (R364). -/
def returnCredit (f : Fwd) (s : State) : State :=
  match (if f.owes then f.m.arrived else none) with
  | none => s
  | some n =>
    let k := creditKey f.m.vc f.m.bclass.toNat
    let s := modFabLink n (fun l => if f.pool then l
      else { l with rxUsed := Tab.put 0 k (Tab.get 0 l.rxUsed k - (msgNeed f.m)) l.rxUsed }) s
    emit (.link n 0x01 [put 52 f.m.vc.val ||| put 50 f.m.bclass.toNat ||| put 49 (bit01 f.pool) ||| put 0 (msgNeed f.m)]) s

def dropFwd (f : Fwd) (s : State) : State :=
  returnCredit f (s.modFab fun b => { b with fwd := b.fwd.filter (·.id != f.id) })

/-- An answer of this device leaves the reserve. -/
def leaveReserve (m : FabMsg) (s : State) : State :=
  match ansPlace s m with
  | none => s
  | some x => s.modFab fun b => { b with answers := b.answers.filter (· != x) }

/-- Let one waiting message go; `blk` lists the (link, VC, class) on which an earlier one waits, which it may not pass (R363). -/
def tryFwd (f : Fwd) (blk : List (Nat × Nat)) (s : State) : List (Nat × Nat) × State :=
  match routeMsg s f.m with
  | .deliver => (blk, emit (.deliver f.m) (dropFwd f s))
  | .noRoute => (blk, routeRec 0x07 f.m.dst (countRC (Off.fab + 0x2040) 1 (dropFwd f s)))
  | .bad => (blk, routeRec 0x04 f.m.dst (countRC (Off.fab + 0x2048) 1 (dropFwd f s)))
  | .link n =>
    let m := (msgCross f.m) n
    let at_ := (n, creditKey m.vc m.bclass.toNat)
    if blk.contains at_ || pathWaits s f.m n then (blk ++ [at_], s)
    else
      match sendOn (Fin.ofNat 24 n) m s with
      | none => (blk ++ [at_], s)
      | some t =>
        let t := match pathKey f.m with
          | some k => t.modFab fun b => { b with paths := (b.paths.filter (·.1 != k)) ++ [(k, n, now s)] }
          | none => t
        (blk, leaveReserve f.m (dropFwd f t))

/-- Let every waiting message go that can. -/
def fabPump (s : State) : State :=
  (s.fab.fwd.foldl (fun (a : List (Nat × Nat) × State) f => tryFwd f a.1 a.2) ([], s)).2

/-- A message enters this device's routing: from a link, or from one of its own blocks, which stamps its hops (R373). -/
def routeIn (m : FabMsg) (s : State) : State :=
  let m := match m.arrived with
    | some _ => m
    | none => { m with hops := (regGet s (Off.fab + 0x2020)).setWidth 3, bclass := 0 }
  let k := creditKey m.vc m.bclass.toNat
  let pool := match m.arrived with
    | some n => decide (192 < Tab.get 0 (fabAt s n).rxUsed k + (msgNeed m))
    | none => false
  let s := match m.arrived with
    | some n => if pool then s else modFabLink n (fun l => { l with rxUsed := Tab.put 0 k (Tab.get 0 l.rxUsed k + (msgNeed m)) l.rxUsed }) s
    | none => s
  let here := ansPlace s m
  fabPump (s.modFab fun b => { b with
    answers := b.answers.map fun x => if some x = here then { x with routed := true } else x
    fwd := b.fwd ++ [{ id := b.nextMsg, m := m, at_ := now s, pool := pool }], nextMsg := b.nextMsg + 1 })

/-- MESSAGE_ROUTE (R358, R371-R373). -/
def execMessageRoute (m : FabMsg) (s : State) := complete (routeIn m) s

/-- PATH_HOLD_EXPIRE (R374). -/
def execPathHoldExpire (vc : Fin 8) (key : BitVec 32) (s : State) :=
  complete (fun s =>
    match s.fab.paths.find? (fun p => p.1 == vc.val * 2 ^ 32 + key.toNat) with
    | some p => fabPump (reach (p.2.2 + holdNs s) s)
    | none => s) s

/-- FORWARD_STALE (R374): a message not forwarded within 10 us of its arrival is discarded. -/
def execForwardStale (id : Nat) (s : State) :=
  complete (fun s =>
    match s.fab.fwd.find? (fun f => f.id == id && f.m.arrived.isSome) with
    | some f => dropFwd f (countRC (Off.fab + 0x2050) 1 (reach (f.at_ + 10000) s))
    | none => s) s

/-- LCRD (R364): credits come back. -/
def execLcrd (n : Fin 24) (vc : Fin 8) (bclass : Fin 4) (shared : Bool) (credits : BitVec 32) (s : State) :=
  complete (fun s =>
    fabPump (modFabLink n (fun l =>
      if shared then { l with shared := l.shared + credits.toNat }
      else
        let k := creditKey vc bclass.val
        { l with credits := Tab.put 0 k (creditsOf l k + credits.toNat) l.credits }) s)) s

/-! ### Going down (R380, R381) -/

/-- The answer reserve of a link that goes down (R368): an answer not yet committed takes another live link with space, or none; one that
has entered the reserve is lost with it (DEDUCED from R380, log 56). -/
def moveAnswers (n : Nat) (s : State) : State :=
  let on (x : AnsRes) : Bool := x.link == some (Fin.ofNat 24 n)
  let lost := s.fab.answers.filter fun x => on x && x.done
  let s := s.modFab fun b => { b with
    answers := b.answers.filter fun x => !lost.contains x
    fwd := b.fwd.filter fun f => !(f.m.vc == 1 && f.m.arrived.isNone && lost.any (sameAns f.m.iid (ansTag f.m) f.m.dst)) }
  (s.fab.answers.filter on).foldl (fun s x => s.modFab fun b => { b with
    answers := b.answers.map fun y => if y = x then { y with link := answerLink s x.dst } else y }) s

/-- A link goes down: what it holds unacknowledged is lost, it leaves every mask, its peer is suspected (R380, R402), with a record unless a
PDOWN took it down. -/
def linkGone (rec : Bool) (n : Nat) (atOnce : Bool) (s : State) : State :=
  let l := fabAt s n
  if l.state = .down then s
  else
    let was := l.state = .active
    let s := modFabLink n (fun l => { l with
      state := .down, unacked := [], rxBuf := [], rxUsed := [], credits := [], shared := 0, sameReplays := 0
      replaySent := none, spareSent := false, retiring := 7, spareHold := none, fecAsk := none, narrowed := false
      wait := 1000000, retrainAt := some (if atOnce then now s else now s + 1000000) }) s
    let s := s.modFab fun b => { b with fwd := b.fwd.map fun f => if f.m.arrived = some (Fin.ofNat 24 n) then { f with owes := false } else f }
    if was then suspectPeer rec n (fabPump (moveAnswers n (postDev 0x29 (put 0 n) s))) else s

def goDown (n : Nat) (atOnce : Bool) (s : State) : State := linkGone true n atOnce s

/-- A training that failed: the wait before the next doubles, up to 1 s (R381). -/
def trainFailed (n : Nat) (s : State) : State :=
  modFabLink n (fun l => { l with
    state := .down, retrainAt := some (now s + Nat.min 1000000000 (2 * l.wait)), wait := Nat.min 1000000000 (2 * l.wait) }) s

/-- LINK_DOWN (R380). -/
def execLinkDown (n : Fin 24) (s : State) := complete (goDown n false) s

/-- A link may train: it is enabled (Table 22-9), its die has its reference clock (R465), and the device has completed step 7 of leaving
reset (R426, R430). -/
def linkMayTrain (s : State) (n : Nat) : Bool :=
  bitOf (regGet s (Off.fab + 0x100 * n + 8)) 0 && !(s.pins.hiz.any fun b => b.1.toNat == 0x400 + n) && !s.sys.clocksLost.contains (.fabric (Fin.ofNat 2 (n / 12))) &&
    (s.sys.phase == .service || (s.sys.phase == .bringUp && decide (7 ≤ s.sys.step)))

/-- LINK_RETRAIN (R357, R381): the wait is over and training starts. -/
def execLinkRetrain (n : Fin 24) (s : State) :=
  complete (fun s =>
    match (if (fabAt s n).drill || !linkMayTrain s n then none else (fabAt s n).retrainAt) with
    | some t => modFabLink n (fun l => { l with state := .training, retrainAt := none }) (reach t s)
    | none => s) s

/-- LINK_RESET (R380, Table 22-9): the link goes down and retrains at once. -/
def execLinkReset (wr : Writer) (n : Fin 24) (s : State) :=
  complete (fun s =>
    if allowed s wr none [.f, .m] then goDown n true s else rejected (Off.fab + 0x100 * n.val + 8) s) s

/-! ### Bring-up (R353-R357) -/

/-- LINK_ENABLE (Table 16-1): an optical link waits for its module (R379). -/
def execLinkEnable (n : Fin 24) (s : State) :=
  complete (fun s =>
    let l := fabAt s n
    if l.state = .active ∨ l.state = .training ∨ (!isMesh n ∧ l.module ≠ .active) ∨ !linkMayTrain s n then s
    else modFabLink n (fun l => { l with state := .training, retrainAt := none }) s) s

/-- The lanes found: a working lane is chosen as the spare, where five work (Table 16-1, R369, R370). -/
def trained (n : Nat) (t : FabTrain) (s : State) : State :=
  if (fabAt s n).state ≠ .training then s
  else
    let w := ones 5 t.working.toNat
    if w < 2 then trainFailed n s
    else
      let spare := if w = 5 then 4 else 7
      let s := modFabLink n (fun l => { l with
        working := t.working, inverted := t.inverted, order := t.order, spare := spare, narrowed := decide (w < 4) }) s
      emit (.link (Fin.ofNat 24 n) 0x03 (identWords s n)) s

/-- LINK_TRAINED (R353). -/
def execLinkTrained (n : Fin 24) (t : FabTrain) (s : State) := complete (trained n t) s

/-- A finding of Table 16-4 under which a link is not brought up. -/
def crosswired (s : State) (n : Nat) (id : Ident) (agree : Bool) : Bool :=
  !agree || id.fdn == ownFdn s || id.fleet != ownFleet s || (isMesh n != decide (id.rack.toNat = ownRack s))

/-- A link that R355 does not expect, brought up all the same. -/
def miswired (s : State) (n : Nat) (id : Ident) : Bool :=
  if isMesh n then id.slot.toNat != (ownSlot s + n + 1) % 16 || id.link.toNat != 14 - n
  else id.link.toNat != n

/-- The initial credits of a receive buffer (R364). -/
def grantCredits (n : Fin 24) (s : State) : State :=
  let ded := (List.range 24).map fun i => Out.link n 0x01 [put 52 (i / 4) ||| put 50 (i % 4) ||| put 0 192]
  emit (.link n 0x01 [put 49 1 ||| put 0 3584]) (emitAll ded s)

def bringUp (n : Fin 24) (id : Ident) (s : State) : State :=
  let s := modFabLink n (fun l => { l with
    state := .active, peer := id.fdn, peerLink := id.link, peerFec := id.fec, txSeq := 0, rxSeq := 0, unacked := [], rxBuf := []
    rxUsed := [], credits := [], shared := 0, wait := 1000000, retrainAt := none, known := true, heard := 0, quietSince := none }) s
  let s := beginTimer (.pulse n.val) (modFabLink n (fun l => { l with fec := fecFirst s n }) s)
  let s := if isMesh n then
      s.modFlt fun f => { f with cell := putSlot id.slot.toNat id.fdn (f.cell.filter (·.2 != id.fdn)) }
    else s
  let s := postDev 0x28 (put 0 n.val) (grantCredits n s)
  let s := if miswired s n id then postDev 0x2C (linkObj n id.fdn.toNat) s else s
  fabPump (if (fabAt s n).narrowed then postDev 0x2A (put 0 n.val) s else s)

/-- IDENT: the wiring check at bring-up, and in service a peer that is another one (R357, R380). The fleet epoch follows (R406). -/
def takeIdent (n : Fin 24) (id : Ident) (agree : Bool) (s : State) : State :=
  let s := s.modFlt fun f => { f with epoch := Nat.max f.epoch id.epoch }
  match (fabAt s n).state with
  | .training =>
    if crosswired s n id agree then
      linkRec 0x08 2 n id.fdn (modFabLink n (fun l => { l with state := .refused, retrainAt := some (now s + 10000000000) }) s)
    else bringUp n id s
  | .active => if id.fdn = (fabAt s n).peer then s else goDown n false s
  | _ => s

/-- IDENT (R357). -/
def execIdent (n : Fin 24) (id : Ident) (lanesAgree : Bool) (s : State) := complete (takeIdent n id lanesAgree) s

/-! ### Flits received (R361-R366) -/

/-- The ack field of a flit frees what the peer has accepted. -/
def takeAck (n : Nat) (ack : BitVec 12) (s : State) : State :=
  let l := fabAt s n
  let rest := l.unacked.filter fun u => decide (u.1 ≠ ack) && !seqLt 12 u.1.toNat ack.toNat
  if rest.length = l.unacked.length then s
  else modFabLink n (fun l => { l with unacked := rest, ackAt := now s, sameReplays := 0 }) s

/-- The receiver asks for a resend, once per 2 us while the gap lasts, and not while a substitution runs (R366). -/
def askReplay (n : Fin 24) (s : State) : State :=
  let l := fabAt s n
  let early := match l.replaySent with | some t => decide (now s < t + 2000) | none => false
  if l.spareSent || early then s
  else emit (.link n 0x02 [put 32 l.rxSeq.toNat]) (modFabLink n (fun l => { l with replaySent := some (now s) }) s)

/-- Messages of the byte stream (R362). A prefix of zeros pads to the end of its flit; link messages come as their own commands. -/
def parseStream (n : Fin 24) : Nat → List Byte → List FabMsg × List Byte
  | 0, b => ([], b)
  | k + 1, b =>
    if b.length < 8 then ([], b)
    else
      let w := wordOfBytes (b.take 8)
      let len := 8 * fld w 23 12
      if w = 0 ∨ len < 16 then ([], [])
      else if b.length < len then ([], b)
      else
        let (ms, r) := parseStream n k (b.drop len)
        let body := (b.take len).drop 8
        let m : FabMsg := {
          vc := Fin.ofNat 8 (fld w 63 61), bclass := w.extractLsb' 59 2, hops := w.extractLsb' 56 3, dst := w.extractLsb' 40 16
          src := w.extractLsb' 24 16, iid := (wordAt (wordsOfBytes 1 body) 0).setWidth 16, arrived := some n, body := body }
        (if m.vc.val < 6 then m :: ms else ms, r)

/-- The syndrome of a block of LL: the exclusive or of the positions of its 1 bits (R359). -/
def llSyndrome (b : BitVec 136) : Nat := (List.range 136).foldl (fun a i => if b.getLsbD i then a ^^^ (i + 1) else a) 0

/-- LL corrects a single bit error; a syndrome above 136 leaves the block as it is. -/
def llFix (b : BitVec 136) : BitVec 136 :=
  let y := llSyndrome b
  if y = 0 ∨ 136 < y then b else b ^^^ BitVec.ofNat 136 (2 ^ (y - 1))

/-- Positions of the data bits of a block: those from 3 to 136 that are no power of two. -/
def llPlaces : List Nat := (List.range 137).filter fun p => p &&& (p - 1) != 0

/-- The 128 data bits of a block. -/
def llData (b : BitVec 136) : Nat := natOfBits (llPlaces.map fun p => b.getLsbD (p - 1))
where
  natOfBits : List Bool → Nat
    | [] => 0
    | x :: xs => bit01 x + 2 * natOfBits xs

/-- The flit that a receiver makes of what arrives, and the codewords it corrected: single bits of a block under LL, up to 15 symbols of a
codeword under RS (R359). DESIGN CHOICE (log 57): of RS only its strength is given here, with what was sent. -/
def fecDecode : FlitIn → BitVec 2048 × Nat
  | .ll bs =>
    ((List.range 16).foldl (fun a i => a ||| BitVec.ofNat 2048 (llData (llFix (bs.getD i 0)) * 2 ^ (128 * i))) 0,
      (bs.filter fun b => llFix b != b).length)
  | .rs sent n received => if n = 0 then (sent, 0) else if n ≤ 15 then (sent, 1) else (received, 0)

/-- FAB_LINK_CNT counts the corrected codewords (Table 22-9). -/
def countFixed (n : Fin 24) (k : Nat) (s : State) : State :=
  let off := Off.fab + 0x100 * n.val + 0x18
  let v := regGet s off
  regSet off (setFld v 31 0 (Nat.min (2 ^ 32 - 1) (fld v 31 0 + k))) s

/-- A flit arrives (R359, R361, R365, R366). -/
def takeFlit (n : Fin 24) (f : FlitIn) (s : State) : State :=
  let l := fabAt s n
  let (flit, fixed) := fecDecode f
  let s := if l.state = .active ∧ fixed ≠ 0 then countFixed n fixed s else s
  let s := fabBytes n false 1 s
  let bs := bytesOfNat 256 flit.toNat
  let h := natOfBytes (bs.take 4)
  let kind := h / 2 ^ 30
  let seq := BitVec.ofNat 12 (h / 2 ^ 18)
  let ack := BitVec.ofNat 12 (h / 2 ^ 6)
  if l.state ≠ .active then s
  else if (crc32c (bs.take 252)).toNat ≠ natOfBytes (bs.drop 252) then (if kind = 1 then s else askReplay n s)
  else if kind = 1 then fabPump (takeAck n ack s)
  else if kind ≠ 0 then s
  else
    let s := takeAck n ack s
    if seq ≠ l.rxSeq then
      let gap := seqLt 12 l.rxSeq.toNat seq.toNat
      if gap && l.replaySent.isSome then askReplay n s else s
    else
      let (ms, r) := parseStream n 32 (l.rxBuf ++ (bs.drop 4).take 248)
      let s := modFabLink n (fun l => { l with rxSeq := l.rxSeq + 1, rxBuf := r, replaySent := none }) s
      fabPump (ms.foldl (fun s m => routeIn m s) (sendAck n s))

/-- FLIT_RECEIVE (R365). -/
def execFlitReceive (n : Fin 24) (f : FlitIn) (s : State) := complete (takeFlit n f) s

/-- Resend the unacknowledged flits from a sequence onwards, in order; each resend is counted (R366). -/
def resendFrom (n : Fin 24) (seq : BitVec 12) (s : State) : State :=
  let l := fabAt s n
  let out := l.unacked.filter fun u => !seqLt 12 u.1.toNat seq.toNat
  let off := Off.fab + 0x100 * n.val + 0x18
  fabBytes n true out.length <| emitAll (out.map fun u => .flit n u.1 u.2)
    (regSet off (regGet s off + put 32 1) (modFabLink n (fun l => { l with spareHold := none, ackAt := now s }) s))

/-- REPLAY (R366). -/
def execReplay (n : Fin 24) (seq : BitVec 12) (s : State) :=
  complete (fun s => if (fabAt s n).state = .active then resendFrom n seq s else s) s

/-- The oldest unacknowledged flit has seen no ack advance for 2 us; 16 such replays of one sequence take the link down (R366,
R380). A sender that has received SPARE waits for its REPLAY, up to 5 us. -/
def replayDue (n : Fin 24) (s : State) : State :=
  let l := fabAt s n
  match l.unacked with
  | [] => s
  | u :: _ =>
    let s := reach (l.ackAt + 2000) s
    let held := match l.spareHold with | some t => decide (now s < t + 5000) | none => false
    if held then s
    else if 16 ≤ l.sameReplays + 1 then goDown n false s
    else resendFrom n u.1 (modFabLink n (fun l => { l with sameReplays := l.sameReplays + 1 }) s)

/-- REPLAY_TIMER (R366). -/
def execReplayTimer (n : Fin 24) (s : State) := complete (replayDue n) s

/-! ### FEC modes (R359, R360) -/

def setFec (n : Nat) (m : BitVec 2) (s : State) : State :=
  postDev 0x2D (linkObj n m.toNat) (modFabLink n (fun l => { l with fec := m, fecAsk := none, fecAt := now s, quietSince := none }) s)

/-- MODE_CHG: the peer asks, and is echoed; or our own request comes back, and both ends switch (R360). -/
def modeChg (n : Fin 24) (echo : Bool) (mode : BitVec 3) (s : State) : State :=
  let m : BitVec 2 := mode.setWidth 2
  if (fabAt s n).state ≠ .active ∨ 2 < mode.toNat then s
  else if echo then (if (fabAt s n).fecAsk = some m then setFec n m s else s)
  else if fecOk s n m.toNat then setFec n m (emit (.link n 0x04 [put 49 1 ||| put 0 m.toNat]) s)
  else s

/-- MODE_CHG (R360). -/
def execModeChg (n : Fin 24) (echo : Bool) (mode : BitVec 3) (s : State) := complete (modeChg n echo mode) s

/-- Ask the peer for a mode: at most one change per second. -/
def askFec (n : Fin 24) (m : BitVec 2) (s : State) : State :=
  let l := fabAt s n
  if !fecOk s n m.toNat ∨ (l.fecAt ≠ 0 ∧ now s < l.fecAt + 1000000000) then s
  else emit (.link n 0x04 [put 0 m.toNat]) (modFabLink n (fun l => { l with fecAsk := some m }) s)

/-- FEC_EVALUATE: one 10 ms measurement of a receiver (R360). Above the I/O dies' warning temperature modes are held (Table 20-6). -/
def evalFec (n : Fin 24) (m : FecMeasure) (s : State) : State :=
  let l := fabAt s n
  let bad := decide (m.flits < m.failed * 1000000000)
  let quiet := decide (m.bitErrors * 100000000 < m.bits)
  let s := modFabLink n (fun l => { l with
    quietSince := if quiet then (if l.quietSince.isSome then l.quietSince else some (now s - 10000000)) else none }) s
  if l.state ≠ .active ∨ 1 ≤ s.sys.heat.getD 1 0 then s
  else
    match l.fec.toNat with
    | 0 => if bad then askFec n 1 s else s
    | 1 =>
      if bad then askFec n 2 s
      else (match (fabAt s n).quietSince with
        | some t => if t + 1000000000 ≤ now s then askFec n 0 s else s
        | none => s)
    | _ => s

/-- FEC_EVALUATE (R360). -/
def execFecEvaluate (n : Fin 24) (m : FecMeasure) (s : State) := complete (evalFec n m) s

/-! ### Lanes (R369, R370) -/

def workingLanes (l : FabLink) : List Nat := (List.range 5).filter fun i => l.working.toNat.testBit i

/-- A lane's loss: the spare takes its place; with none left the link narrows to its two lowest working lanes; with fewer than two it
goes down, except in FALLOW, where it moves onto another working lane (R369, R370, R453). -/
def loseLane (n : Fin 24) (lane : Nat) (s : State) : State :=
  let l := fabAt s n
  if l.state ≠ .active ∨ !l.working.toNat.testBit lane then s
  else
    let s := modFabLink n (fun l => { l with working := l.working &&& ~~~(BitVec.ofNat 5 (2 ^ lane)) }) s
    let left := (workingLanes (fabAt s n)).length
    if l.spare = lane then modFabLink n (fun l => { l with spare := 7 }) s
    else if l.spare < 5 ∧ !l.spareSent then
      emit (.link n 0x05 [put 0 lane]) (modFabLink n (fun l => { l with spareSent := true, retiring := lane }) s)
    else if l.fallow ∧ 1 ≤ left then s
    else if left < 2 then goDown n false s
    else if l.narrowed then s
    else postDev 0x2A (put 0 n.val) (modFabLink n (fun l => { l with narrowed := true }) s)

/-- LANE_LOSS (R369, R370). -/
def execLaneLoss (n : Fin 24) (lane : Fin 5) (s : State) := complete (loseLane n lane) s

/-- SPARE: the peer's receiver names a lane of ours to retire; its stream moves onto the spare, and the 2 us timer is suspended. -/
def execSpare (n : Fin 24) (done : Bool) (_lane : Fin 5) (s : State) :=
  complete (fun s =>
    if (fabAt s n).state ≠ .active ∨ done then s else modFabLink n (fun l => { l with spareHold := some (now s) }) s) s

/-- SPARE_COMPLETE: the spare is deskewed into place of the retired lane; one REPLAY from the expected sequence goes out (R366, R369). The lane
that LANE_SPARED names is the retired one (DEDUCED, log 58). -/
def spareDone (n : Fin 24) (s : State) : State :=
  let l := fabAt s n
  if !l.spareSent then s
  else
    let s := modFabLink n (fun l => { l with
      spareSent := false, retiring := 7, spare := 7, replaySent := some (now s), order := l.order.map fun p => if p.val = l.retiring then Fin.ofNat 5 l.spare else p }) s
    let s := emit (.link n 0x02 [put 32 l.rxSeq.toNat]) (emit (.link n 0x05 [put 49 1 ||| put 0 l.retiring]) s)
    postDev 0x2B (linkObj n l.retiring) s

/-- SPARE_COMPLETE (R369). -/
def execSpareComplete (n : Fin 24) (s : State) := complete (spareDone n) s

/-! ### Time (R375-R377) -/

/-- Eligible as time master (FAB_TIME_CTL). Of the other devices the register is not seen: each is taken as eligible (DEDUCED, log 93). -/
def timeMaster (s : State) : Option (BitVec 16) :=
  let own := if bitOf (regGet s (Off.fab + 0x2030)) 0 then [ownFdn s] else []
  let peers := ((List.range 24).filter (linkUpNow s)).map fun n => (fabAt s n).peer
  let l := (own ++ peers ++ ((cellAll s).map (·.2)).filter (· != servedFdn s)).filter fun f => !s.flt.fenced.contains f
  l.foldl (fun b f => match b with | none => some f | some m => if f < m then some f else b) none

def timeLinks (s : State) : List Nat := match timeMaster s with | some m => linkMask s m | none => []

/-- The parent link: the one in use while it still leads to the master, else the first. -/
def parentLink (s : State) : Option Nat :=
  let ls := timeLinks s
  match s.fab.parent with
  | some p => if ls.contains p.val then some p.val else ls.head?
  | none => ls.head?

/-- TSYNC_SEND: every 100 us a device that is not the master asks its parent (R376). -/
def sendTsync (s : State) : State :=
  if timeMaster s = some (ownFdn s) then s.modFab fun b => { b with sync := true, parent := none, t1 := none }
  else
    match parentLink s with
    | none => s
    | some p =>
      let t := BitVec.ofNat 64 (now s)
      emit (.link (Fin.ofNat 24 p) 0x06 [0, t, 0, 0]) (s.modFab fun b => { b with parent := some (Fin.ofNat 24 p), t1 := some t })

/-- TSYNC_SEND (R376). -/
def execTsyncSend (s : State) := complete sendTsync s

/-- The offset of R376. -/
def tsyncOffset (t1 t2 t3 t4 : Word) (asym : BitVec 32) : Int :=
  (((t2 - t1).toInt - (t4 - t3).toInt) / 2) - asym.toInt / 2

/-- TSYNC: a request is answered with t2 and t3; a response gives the offset to slew (R376). -/
def takeTsync (n : Fin 24) (response : Bool) (t1 t2 t3 : Word) (s : State) : State :=
  let t := BitVec.ofNat 64 (now s)
  if !response then emit (.link n 0x06 [put 49 1, t1, t, t]) s
  else if s.fab.parent ≠ some n ∨ s.fab.t1 ≠ some t1 then s
  else
    let off := tsyncOffset t1 t2 t3 t ((regGet s (Off.fab + 0x100 * n.val + 0x10)).setWidth 32)
    let sure := decide (off.natAbs ≤ 50)
    s.modFab fun b => { b with
      t1 := none, lastTsync := now s, slew := off, sync := sure, unsyncPosted := if sure then false else b.unsyncPosted }

/-- TSYNC (R376). -/
def execTsync (n : Fin 24) (response : Bool) (t1 t2 t3 : Word) (s : State) := complete (takeTsync n response t1 t2 t3) s

/-- No TSYNC response for 1 ms: the next set link; for 10 ms: unsynchronised (R377). -/
def tsyncLate (s : State) : State :=
  let s := reach (s.fab.lastTsync + 1000000) s
  let ls := timeLinks s
  let nxt := match s.fab.parent with
    | some p => (match ls.find? (fun n => decide (p.val < n)) with | some n => some n | none => ls.head?)
    | none => ls.head?
  let s := s.modFab fun b => { b with parent := nxt.map (Fin.ofNat 24 ·), t1 := none }
  if now s < s.fab.lastTsync + 10000000 then s
  else
    let was := s.fab.unsyncPosted
    let s := s.modFab fun b => { b with sync := false, unsyncPosted := true }
    if was then s else postDev 0x2F 0 s

/-- TSYNC_TIMEOUT (R377). -/
def execTsyncTimeout (s : State) := complete tsyncLate s

/-- The next advance of the time base: by one nanosecond, and by two at every 10,000th while the device is slewed forward at 100 ppm.
While it is slewed back, the local count withheld at every 10,000th is no step of its own; the time never moves backwards
(R375, R376; log 1). -/
def tick (s : State) : State :=
  let t := s.sys.time
  if t % 10000 ≠ 0 ∨ s.fab.slew = 0 then s.modSys fun y => { y with time := t + 1 }
  else if 0 < s.fab.slew then (s.modSys fun y => { y with time := t + 2 }).modFab fun b => { b with slew := b.slew - 1 }
  else (s.modSys fun y => { y with time := t + 1 }).modFab fun b => { b with slew := b.slew + 1 }

/-! ### Optics (R378, R379) -/

def isOptical (n : Nat) : Bool := !isMesh n

/-- MODULE_PRESENCE: module reset is released, and ModuleReady is waited for (R379). -/
def execModulePresence (n : Fin 24) (advertised : Nat) (s : State) :=
  complete (fun s =>
    if !isOptical n then s
    else emit (.modReset n true) (modFabLink n (fun l => { l with
      module := .resetReleased, moduleDue := now s + Nat.min advertised 5000000000 }) s)) s

/-- MODULE_READY: the first application that fits is applied; with none the module stays in low power (R379). -/
def moduleReady (n : Fin 24) (apps : List CmisApp) (s : State) : State :=
  if (fabAt s n).module ≠ .resetReleased then s
  else
    match apps.find? (fun a => a.c2m200 && a.oneLane) with
    | some a =>
      emit (.modApply n a.code) (modFabLink n (fun l => { l with
        module := .active, app := a.code, state := if linkMayTrain s n then .training else l.state, retrainAt := none }) s)
    | none => linkRec 0x08 2 n 0 (modFabLink n (fun l => { l with module := .lowPower }) s)

/-- MODULE_READY (R379). -/
def execModuleReady (n : Fin 24) (apps : List CmisApp) (s : State) := complete (moduleReady n apps) s

/-- MODULE_READY_TIMEOUT: the module is not used (R379). -/
def execModuleReadyTimeout (n : Fin 24) (s : State) :=
  complete (fun s =>
    if (fabAt s n).module ≠ .resetReleased then s
    else
      let s := reach (fabAt s n).moduleDue s
      linkRec 0x03 2 n 0 (modFabLink n (fun l => { l with module := .lowPower }) s)) s

/-- Module flags: a lane with media loss of signal or of lock is lost, an alarm is posted (R379). -/
def moduleFlags (n : Fin 24) (f : CmisFlags) (s : State) : State :=
  if (fabAt s n).module ≠ .active then s
  else
    let bad := f.los ||| f.lol
    let s := (List.range 5).foldl (fun s i => if bad.toNat.testBit i then loseLane n i s else s) s
    if f.alarm = 0 then s else postDev 0x2E (linkObj n f.alarm.toNat) s

/-- MODULE_INTERRUPT (R379). -/
def execModuleInterrupt (n : Fin 24) (flags : CmisFlags) (s : State) := complete (moduleFlags n flags) s

/-- Keep a margin sample at the margin's next index, which goes round 1,024 (R422, Table 23-8). -/
def keepMargin (m : Nat) (v : Word) (s : State) : State :=
  s.modTel fun t =>
    let i := Tab.get 0 t.live (0x1800 + 8 * m)
    { t with margin := Tab.put 0 (m * 1024 + i) v t.margin, live := Tab.put 0 (0x1800 + 8 * m) ((i + 1) % 1024) t.live }

/-- OPTICS_POLL: flags at least every 10 ms, monitors every 100 ms into margin telemetry (R379). -/
def execOpticsPoll (n : Fin 24) (flags : CmisFlags) (monitor : Option (BitVec 16)) (s : State) :=
  complete (fun s =>
    if (fabAt s n).module = .absent then s
    else
      let s := moduleFlags n flags s
      match monitor with
      | some v => keepMargin 3 (put 48 n.val ||| put 0 v.toNat) s
      | none => s) s

/-- MODULE_REMOVAL (R380). -/
def execModuleRemoval (n : Fin 24) (s : State) :=
  complete (fun s =>
    if !isOptical n then s
    else
      let s := goDown n false s
      emit (.modReset n false) (modFabLink n (fun l => { l with module := .absent, retrainAt := none }) s)) s

end Sys2Proof.Machine
end

