-- ==== Sys2Proof/Machine/Errors.lean ====
section
/-! DEFINITION. The end of coalescing, the writing of event records, fatal errors, containment by composition and the watchdog (R385,
R388, R393-R399, R498). -/

namespace Sys2Proof.Machine

open Sys2Proof

/-! ### Storms and event records -/

/-- CE_STORM_END (R385, Table 17-10): the second of coalescing is over. -/
def execCeStormEnd (s : State) :=
  complete (fun s =>
    match s.ras.stormEnd with
    | none => s
    | some t => (reach t s).modRas fun r => { r with stormEnd := none, ceCount := 0 }) s

/-- An event record as written (Table 17-5). -/
def eventWords (e : EventRec) : List Word :=
  [put 56 e.etype.toNat ||| put 51 e.status.toNat ||| put 49 e.severity.toNat ||| put 48 (bit01 e.overflow) ||| put 32 e.iid.toNat |||
     put 0 e.detail.toNat,
   e.object, put 48 e.tag.toNat ||| put 32 e.fdn.toNat ||| put 0 e.seq.toNat, BitVec.ofNat 64 e.time]

def evqSize (s : State) (w : Nat) : Nat := (regGet s (Off.evq w + 8)).toNat
def evqHead (s : State) (w : Nat) : Nat := (regGet s (Off.evq w + 0x10)).toNat
def modEvq (w : Nat) (f : Evq → Evq) (s : State) : State := s.modRas fun r => { r with evq := Tab.upd {} w f r.evq }

/-- The first waiting record of a queue is dropped; the next one carries overflow (R388, R498). -/
def dropEvent (w : Nat) (s : State) : State :=
  modEvq w (fun q => match q.waiting.drop 1 with
    | [] => { q with waiting := [], overflow := true }
    | x :: r => { q with waiting := { x with overflow := true } :: r }) s

/-- Write the first waiting record of an event queue, in its home slice's order; then signal its vector (R386, R498). -/
def writeEvent (w : Fin 64) (s : State) : State :=
  let q := evqOf s w.val
  match q.waiting with
  | [] => s
  | e :: _ =>
    let b := regGet s (Off.evq w.val)
    if !qValid b || ringFull (evqSize s w.val) (evqHead s w.val) q.tail then dropEvent w.val s
    else
      let (a, s) := ownAsk (0x4000 + w.val) .storePart (wordsWrite s q.iid (qOff b + 32 * q.tail) (eventWords e)) s
      match a with
      | none => s
      | some (.ok, _) =>
        let s := modEvq w.val (fun q => { q with
          waiting := q.waiting.drop 1, tail := (q.tail + 1) % Nat.max 1 (evqSize s w.val) }) s
        signal w ((evqCtl s w.val).setWidth 8) s
      | some (.ny, _) => s
      | some (_, _) => dropEvent w.val s

/-- EVENT_RECORD_WRITE (R498). -/
def execEventRecordWrite (win : Fin 64) (s : State) := complete (writeEvent win) s

/-- EVENT (R388): an event of another device about a request of this one's initiators. -/
def execEvent (m : FleetEvent) (s : State) := complete (fun s => post m.e none none (sawEpoch m.h.epoch s)) s

/-! ### Fatal errors and the watchdog (R393, R399) -/

/-- A device that leaves service for a warm reset floods FENCE for itself with reason DEPART (R408). -/
def departNotice (s : State) : State :=
  if s.flt.state ≠ .member then s
  else
    let ep := s.flt.epoch + 1
    flood 0x04 (servedFdn s) ep false [2] (s.modFlt fun f => { f with epoch := ep, state := .fenced })

/-- Viral on every CXL link (R393). -/
def raiseViral (s : State) : State :=
  (List.finRange 4).foldl (fun s p => if portUp s p then emit (.viral p) s else s) (s.modHp fun h => { h with viral := true })

def internalRec (code block inst : BitVec 8) (s : State) : State :=
  raise { cls := 0x10, sev := 3, code := code, block := block, inst := inst } s

/-- R393: FATAL record; admission ends and requests are answered; FATAL event, viral and departure notice; the warm reset of the fatal
source. A slice whose own state holds the fault answers nothing. -/
def fatal (block inst : BitVec 8) (sliceOut : Option (Fin 32)) (s : State) : State :=
  let s := internalRec 0x01 block inst s
  let s := s.modHome fun h => { h with deadSlices := (h.deadSlices ++ sliceOut.toList).dedup }
  let s := answerAll .internal 0 true (s.modSys fun y => { y with closed := true })
  requestWarm .fatal (departNotice (raiseViral (postDev 0x02 0 s)))

/-- FATAL_ERROR (R393). -/
def execFatalError (block : BitVec 8) (inst : BitVec 8) (sliceOut : Option (Fin 32)) (s : State) :=
  complete (fatal block inst sliceOut) s

/-- WATCHDOG_EXPIRE (R393, R399): a FATAL record, then the watchdog reset. -/
def execWatchdogExpire (s : State) :=
  complete (fun s =>
    let off := Off.ras + 0x128
    if !s.sys.watchArmed then s
    else
    let s := elapsed .watchdog ((regGet s off).toNat * 1000000) s
    requestWarm .watchdog (postDev 0x34 (BitVec.ofNat 64 off) (internalRec 0x0C 0x44 0 s))) s

/-! ### Containment (R394-R397) -/

/-- COMP_LIST (R394): an entry of the list of a cell member, the message's subject. -/
def execCompList (h : FleetHdr) (comp : BitVec 24) (exposed : Nat) (s : State) :=
  complete (fun s => (sawEpoch h.epoch s).modRas fun r => { r with
    cellLists := (r.cellLists.filter fun e => !(e.1 == h.subject && e.2.1 == comp.toNat)) ++ [(h.subject, comp.toNat, exposed)] }) s

/-- A device is contained by composition: the bit, the markers of every slice, the event (R396). -/
def applyContain (comp : Nat) (s : State) : State :=
  if comp = 0 ∨ s.ras.contained.contains comp ∨ Tab.get 0 s.ras.policy comp = 2 then s
  else postDev 0x32 (put 0 comp) (s.modRas fun r => { r with contained := r.contained ++ [comp] })

def applyRelease (comp : Nat) (s : State) : State :=
  if s.ras.contained.contains comp then
    postDev 0x33 (put 0 comp) (s.modRas fun r => { r with contained := r.contained.filter (· != comp) })
  else s

/-- A flooded message that this device has not seen is passed on; one it has seen is dropped (R401). -/
def passOn (ty : BitVec 8) (h : FleetHdr) (body : List Word) (act : State → State) (s : State) : State :=
  if s.flt.seen.contains (h.src, h.mseq) then s
  else act (emit (.fleet ty none h body) (noteSeen h.src h.mseq s))

/-- COMP_CONTAIN (R396, R401). -/
def execCompContain (src : BitVec 16) (m : FleetMark) (comp : BitVec 24) (s : State) :=
  complete (fun s => passOn 0x19 (m.hdr src) [put 0 comp.toNat] (applyContain comp.toNat) (sawEpoch m.epoch s)) s

/-- COMP_RELEASE (R397, R401). -/
def execCompRelease (src : BitVec 16) (m : FleetMark) (comp : BitVec 24) (s : State) :=
  complete (fun s => passOn 0x1A (m.hdr src) [put 0 comp.toNat] (applyRelease comp.toNat) (sawEpoch m.epoch s)) s

/-- The containment of a fenced device of this cell starts: COMP_CONTAIN for each composition with an exposed extent in its list. -/
def startContainment (f : BitVec 16) (s : State) : State :=
  if !isFenced s f ∨ s.flt.containedFor.contains f then s
  else
    let s := match s.flt.waits.find? (fun w => w.subject == f) with | some w => reach w.due s | none => s
    let cs := (s.ras.cellLists.filter fun e => e.1 == f && decide (e.2.2 ≠ 0)).map (·.2.1)
    let s := s.modFlt fun t => { t with containedFor := t.containedFor ++ [f] }
    cs.foldl (fun s c => applyContain c (flood 0x19 f s.flt.epoch false [put 0 c] s)) s

/-- CONTAINMENT_START (R396). -/
def execContainmentStart (fdn : BitVec 16) (s : State) := complete (startContainment fdn) s

def compDone : Nat := Off.ras + 0x18

/-- COMP_POLICY (R395): the reserved policy is refused. -/
def execCompPolicy (wr : Writer) (comp : BitVec 24) (policy : BitVec 2) (s : State) :=
  complete (fun s => (issue wr none [.f, .m] (Off.ras + 0x10) compDone (fun s =>
    if policy = 3 then cmdDone compDone .malformed 0 s
    else cmdDone compDone .ok 0 (s.modRas fun r => { r with policy := Tab.put 0 comp.toNat policy r.policy })) s).2) s

/-- COMP_RELEASE_CMD (R397): the release is cleared here and sent to every device. -/
def execCompReleaseCmd (wr : Writer) (comp : BitVec 24) (s : State) :=
  complete (fun s => (issue wr none [.f, .m] (Off.ras + 0x10) compDone (fun s =>
    cmdDone compDone .ok 0 (flood 0x1A (servedFdn s) s.flt.epoch false [put 0 comp.toNat] (applyRelease comp.toNat s))) s).2) s

end Sys2Proof.Machine
end

