-- ==== Sys2Proof/Machine/Tracker.lean ====
section
/-! DEFINITION. The end of an outstanding request at its originating device: its answer, the fence of its home, or the bound of
its tracker entry (R93, R118). -/

namespace Sys2Proof.Machine

open Sys2Proof

/-- The lines of an answer's data. -/
def linesOf : Nat → List Byte → List Line
  | 0, _ => []
  | n + 1, bs => if bs.isEmpty then [] else lineOfBytes (bs.take 128) :: linesOf n (bs.drop 128)

/-- A buddy's or a stripe holder's answer about a mapping unit (R55, R77). -/
def unitPlaced (mu : Nat) (st : Status) (s : State) : State :=
  if (extDesc s (mu / 16384)).redundancy = .striped then
    if st = .queueFull then postExt 0x14 (mu / 16384) (programUnit mu (nextDie s) s) else s
  else wbBuddyDone mu (st == .ok) s

/-- What an outstanding request was made for goes on with its answer. -/
def trackDone (t : Track) (a : Answer) (s : State) : State :=
  let s := s.modHome fun h => { h with tracker := h.tracker.filter (· != t) }
  match t.origin with
  | .host w tag => aperPump (hostAnswered w tag a s)
  | .aperture w slot => aperPump (hostPump (aperAnswered w slot a s))
  | .station core ctx id => pump (jobAnswered core.val ctx.val id a.st a.hint a.data s)
  | .unitRead u id =>
    let s := unitAnswered u id a.st a.hint a.data s
    if u = 15 then tableStep s else pump s
  | .copyLine id line side => copyAnswered id line side a.st a.hint a.data s
  | .advance id => advanceDone (BitVec.ofNat 16 id) t.iid a.st a.hint s
  | .register id => registered id a.st s
  | .barrier n => barrierAsked n a.st s
  | .unit mu => unitPlaced mu a.st s
  | .cutting h row =>
    if a.st = .ok then cutGranted h row t.home (natOfBytes (a.data.take 8)) (linesOf 64 (a.data.drop 8)) s else s

/-- ANSWER_ARRIVAL (R93, R105, R110, R118): an answer that no tracker entry awaits is absorbed; a reserved status is taken as INTERNAL. -/
def takeAnswer (a : Answer) (s : State) : State :=
  match s.home.tracker.find? (fun t => t.iid == a.iid && t.tag == a.tag) with
  | none => countRC (Off.home + 0x28) 1 s
  | some t => trackDone t (if a.rsvd then { a with st := .internal } else a) s

def execAnswerArrival (a : Answer) (s : State) := complete (takeAnswer a) s

/-- A request ends at its originating device with a status of that device's own. -/
def trackEnd (st : Status) (t : Track) (s : State) : State := trackDone t { st := st, dst := ownFdn s, iid := t.iid, tag := t.tag } s

/-- The deadline and HOME_TRACK_SLACK have passed: ABANDONED, and a TRANSPORT record (R118). -/
def trackLate (iid tag : BitVec 16) (s : State) : State :=
  match s.home.tracker.find? (fun t => t.iid == iid && t.tag == tag) with
  | none => s
  | some t =>
    let s := reach t.due s
    trackEnd .abandoned t (raise { cls := 6, sev := 1, code := 3, block := 0x10, gsa := t.gsa, iid := iid, fdn := t.home } s)

/-- TRACKER_TIMEOUT (R118). -/
def execTrackerTimeout (iid tag : BitVec 16) (s : State) := complete (trackLate iid tag) s

end Sys2Proof.Machine
end

