-- ==== Sys2Proof/Machine/Ledger.lean ====
section
/-! DEFINITION. The handoff ledger: offers, their receipt, their reclaim, and what each moves (R415-R419). -/

namespace Sys2Proof.Machine

open Sys2Proof

/-! ### What a handoff moves -/

/-- Put a line handed over into this device's store, as D, with its record (R83, R415). -/
def placeLine (x : Nat × Line × Bool) (s : State) : State :=
  let rc : JRec := { sectors := 15, poison := x.2.2 }
  let s := untilReady (installData x.1 rc x.2.1) 4 s
  recordWrite (x.1 / 2 ^ 23) (dataRec s x.1 15 x.2.2 0) s

/-- Lines of an extent kept at this device that its home does not hold: D lines, and lines of units written back here. -/
def fosterLines (s : State) (e : Nat) : List (Nat × Line × Bool) :=
  let held : List Nat := (s.flash.held.filter fun h => h.isCopy && decide ((h.home.toNat + 1) * 2 ^ 18 + h.mu / 16384 = e)).map fun h =>
    h.mu % 16384 + e * 16384
  let units := (s.flash.map.filter fun m => decide (m.1 / 16384 = e) && m.2.mapped && !held.contains m.1).map (·.1)
  let flashLines := units.flatMap fun m => (List.range 512).map fun i => m * 512 + i
  let dirty := (s.tier.tags.filter fun t => decide (extOfFrame t.1 = e)).flatMap fun t =>
    ((List.range 128).filter fun i => t.2.dirty.getLsbD i).map fun i => t.1 * 128 + i
  ((dirty ++ flashLines).dedup).map fun l => (l % 2 ^ 41, storedLine s l, linePoison s l)

/-- Owner records of an extent, by granule within it. -/
def ownersIn (s : State) (e : Nat) : List (Nat × Owner) :=
  (s.ext.owners.filter fun o => decide (o.1 / 512 = e)).map fun o => (o.1 % 512, o.2)

/-- Data kept here for a fostered extent goes; the records mirrored for its home, and what tells their extents, stay (R416). -/
def dropFoster (home : BitVec 16) (ext : Nat) (s : State) : State :=
  let e := (home.toNat + 1) * 2 ^ 18 + ext
  let s := s.modFlt fun f => { f with fosters := f.fosters.filter fun x => !(x.home == home && x.ext == ext) }
  let s := s.modTier fun t => { t with
    tags := t.tags.filter fun x => decide (extOfFrame x.1 ≠ e)
    wbs := t.wbs.filter fun w => decide (w.mu / 16384 ≠ e)
    hbm := clearSpan t.hbm (e * 2 ^ 30) ((e + 1) * 2 ^ 30) }
  s.modFlash fun f => { f with
    map := f.map.filter fun x => decide (x.1 / 16384 ≠ e)
    data := clearSpan f.data (e * 2 ^ 30) ((e + 1) * 2 ^ 30)
    poison := f.poison.filter fun x => decide (extOfFrame x.1 ≠ e)
    pageJsn := f.pageJsn.filter fun x => decide (x.1 / 16384 ≠ e)
    homeOnly := f.homeOnly.filter fun m => decide (m / 16384 ≠ e) }

/-- The receiver owns the state from its RECEIVED record (R416): a copy is queued here, an extent is served here, a shard's owner
records are kept here. -/
def takeHand (h : Handoff) (s : State) : State :=
  match h.e.kind with
  | .copy =>
    (match h.hand.copy with
     | none => s
     | some r =>
       let id := s.home.nextCopy
       feedCopies (s.modHome fun x => { x with
         nextCopy := id + 1
         copies := x.copies ++ [{ id := id, req := r }]
         regsCtr := x.regsCtr.map fun g => if g.owner = h.e.fromFdn ∧ g.req = r then
           { g with owner := ownFdn s, copyId := id, offered := false } else g }))
  | .foster =>
    let e := extOf (offOf h.e.object)
    let s := s.modFlt fun f => { f with atFoster := f.atFoster.filter (·.1 != e) }
    let s := h.hand.owners.foldl (fun s o => setOwner (e * 512 + o.1) { o.2 with inflight := 0 } s) s
    pump (h.hand.lines.foldl (fun s l => placeLine l s) s)
  | .transplant =>
    let e := extOf (offOf h.e.object)
    let s := h.hand.owners.foldl (fun s o => setOwner (e * 512 + o.1) { o.2 with inflight := 0 } s) s
    match h.hand.shard with
    | none => s
    | some (t, i, b, w) =>
      let ms := match liveTable s t with | some v => (groupOf s v.group).filter (· != servedFdn s) | none => []
      emitAll (ms.map fun m => .shardEntry m t i b w) (shardMoved t i b w s)

/-- The offerer discards its copy after RELEASED (R416). -/
def dropHand (h : Handoff) (s : State) : State :=
  match h.e.kind with
  | .copy => s.modHome fun x => { x with copies := x.copies.filter (·.id != h.copyId) }
  | .foster => dropFoster h.e.toFdn (extOf (offOf h.e.object)) s
  | .transplant =>
    let s := s.modEmb fun x => { x with xplant := x.xplant.map fun p => if p.seq = h.e.seq then { p with step := 6, since := now s } else p }
    match h.hand.shard with
    | some (t, i, b, w) => shardMoved t i b w s
    | none => s

/-- The offerer owns the state again after RECLAIMED (R416): a departing device ends the copy at its counter's home (R425); a
transplant's extents are RESTOREd (R287, R417). -/
def keepHand (h : Handoff) (s : State) : State :=
  match h.e.kind with
  | .copy =>
    if s.sys.phase = .departing then endCopy h.copyId .abandoned s else feedCopies (modCopy h.copyId (fun c => { c with offered := none }) s)
  | .foster => s
  | .transplant =>
    match s.emb.xplant with
    | none => s
    | some p =>
      if p.seq ≠ h.e.seq then s
      else pump (p.exts.foldl (fun s e => setExtState e .assigned s) (s.modEmb fun x => { x with xplant := none }))

/-! ### Ledger records -/

/-- The message that a ledger entry's state permits, once the control mirror has it (R409, R416). -/
def handStep (h : Handoff) (s : State) : State :=
  match h.mine, h.e.phase with
  | true, .offered => emit (.handoff 0x10 h.e.toFdn h.e h.hand) s
  | false, .received => emit (.handoff 0x11 h.e.fromFdn h.e {}) s
  | true, .reclaimed => emit (.handoff 0x12 h.e.toFdn h.e {}) s
  | _, _ => s

/-- Entries whose record the control mirror has confirmed go on. -/
def handGo (s : State) : State :=
  let l := s.flt.handoffs.filter fun h => match h.waits with | some n => !s.flt.ctlWait.contains n | none => false
  l.foldl (fun s h => handStep h s) (s.modFlt fun f => { f with
    handoffs := f.handoffs.map fun h => if l.contains h then { h with waits := none } else h })

def sameHand (a b : LedgerEnt) : Bool := a.seq == b.seq && a.fromFdn == b.fromFdn

/-- Write a ledger entry (R416): its record enters a slot, is mirrored, and what it permits follows. -/
def writeHand (h : Handoff) (s : State) : State :=
  let n := s.jrn.nextJsn
  let s := s.modFlt fun f => { f with handoffs := (f.handoffs.filter fun x => !(sameHand x.e h.e)) ++ [{ h with waits := some n }] }
  handGo (journalCtl { gsa := h.e.object, body := .handoff h.e } none true s)

/-- The oldest of this device's offers still open lies 2^30 behind the next (R418). -/
def offerFence (s : State) : Bool :=
  s.flt.handoffs.any fun h => h.mine && h.e.phase == .offered && decide (2 ^ 30 ≤ (s.flt.nextHandoff - h.e.seq).toNat)

/-- Offer state to another device (R416 step 1). While the rollover fence holds the offer waits (R418, R419). -/
def offerHand (kind : LedgerKind) (dst : BitVec 16) (object : Word) (hand : HandState) (copyId : Nat) (s : State) : State :=
  if offerFence s then fleetRec 0x06 2 dst s
  else
    let e : LedgerEnt := {
      kind := kind, phase := .offered, seq := s.flt.nextHandoff, fromFdn := servedFdn s, toFdn := dst, object := object
      expiry := now s + 10000000 }
    let s := s.modFlt fun f => { f with nextHandoff := f.nextHandoff + 1 }
    let s := match kind with
      | .copy => modCopy copyId (fun c => { c with offered := some e.seq }) s
      | .transplant => s.modEmb fun x => { x with xplant := x.xplant.map fun p => { p with seq := e.seq } }
      | .foster => s
    writeHand { e := e, hand := hand, copyId := copyId } s

def handOf (s : State) (e : LedgerEnt) : Option Handoff := s.flt.handoffs.find? fun h => sameHand h.e e

/-- An offer of a fostered extent to the device that serves its home again (R414). -/
def offerFoster (x : Foster) (s : State) : State :=
  let e := (x.home.toNat + 1) * 2 ^ 18 + x.ext
  offerHand .foster x.home (mkGsa x.home (x.ext * 2 ^ 30)) { lines := fosterLines s e, owners := ownersIn s e } 0 s

/-! ### The two sides (R416, R417) -/

/-- A registration here that the offered copy answers to, not yet completed (R102). -/
def regFor (s : State) (e : LedgerEnt) (r : Req) : Bool := s.home.regsCtr.any fun g => g.owner == e.fromFdn && g.req == r

/-- May the offer be taken? A copy is taken only while its registration is open (R102). -/
def offerTakable (s : State) (e : LedgerEnt) (hand : HandState) : Bool :=
  (match e.kind, hand.copy with | .copy, some r => regFor s e r | .copy, none => false | _, _ => true) &&
    !decide (e.expiry ≤ now s + 1000 ∨ e.phase ≠ .offered)

/-- What the receiver keeps of an offer before it can take it (R416). -/
def noteOffer (e : LedgerEnt) (hand : HandState) (s : State) : State :=
  s.modFlt fun f => { f with handoffs := (f.handoffs.filter fun x => !(sameHand x.e e)) ++ [{ e := e, mine := false, hand := hand }] }

/-- An OFFER arrives: RECEIVED only where it enters its slot before expiry less 1 us (R416 step 2). DESIGN CHOICE (log 59): an offer that
finds no slot when it arrives is not taken later; it expires. A copy whose registration is
already completed is refused (R102). -/
def takeOffer (e : LedgerEnt) (hand : HandState) (s : State) : State :=
  let old := (handOf s e).map (·.e.phase)
  if old = some .received then withSome (handOf s e) handStep s
  else if old.isSome ∧ old ≠ some .offered then s
  else if !offerTakable s e hand then s
  else if !slotOk s .control then noteOffer e hand s
  else
    let h : Handoff := { e := { e with phase := .received }, mine := false, hand := hand }
    takeHand h (writeHand h s)

/-- The receiver holds RECEIVED: the offerer writes RELEASED and discards its copy (R416 step 3). -/
def releaseHand (e : LedgerEnt) (s : State) : State :=
  match handOf s e with
  | none => s
  | some h =>
    if h.mine && h.e.phase == .offered then dropHand h (writeHand { h with e := { h.e with phase := .released }, hand := {} } s) else s

/-- The offerer writes RECLAIMED, owns the state again and says so (R416). -/
def reclaimHand (h : Handoff) (s : State) : State :=
  keepHand h (writeHand { h with e := { h.e with phase := .reclaimed }, hand := {} } s)

/-- No RECEIVED by expiry + 1 us (R416). A fostered extent is offered again while its home is served. -/
def expireHand (seq : BitVec 32) (s : State) : State :=
  match s.flt.handoffs.find? (fun h => h.mine && h.e.seq == seq && h.e.phase == .offered) with
  | none => s
  | some h =>
    let s := reclaimHand h (reach (h.e.expiry + 1000) s)
    if h.e.kind = .foster ∧ !isFenced s h.e.toFdn then
      match s.flt.fosters.find? (fun x => x.home == h.e.toFdn && x.ext == extNo h.e.object) with
      | some x => offerFoster x s
      | none => s
    else s

/-- A registration whose copy nobody owns any more: the counter advances with err (R102, R417). -/
def endReg (g : Registration) (s : State) : State :=
  advance g.iid (some g.req.src) g.counter g.inc true (s.modHome fun h => { h with regsCtr := h.regsCtr.filter (· != g) })

/-- RECLAIM arrives: an offer not received is over; one received stays the receiver's (R416). A registration of a fenced owner
that waited on the offer is completed (R102). -/
def takeReclaim (e : LedgerEnt) (s : State) : State :=
  let old := handOf s e
  if (old.map (·.e.phase)) = some .received then s
  else
    let s := s.modFlt fun f => { f with
      handoffs := (f.handoffs.filter fun x => !(sameHand x.e e)) ++ [{ e := { e with phase := .reclaimed }, mine := false }] }
    match old.bind (·.hand.copy) with
    | none => s
    | some r => (s.home.regsCtr.filter fun g => g.owner == e.fromFdn && g.req == r && isFenced s g.owner).foldl (fun s g => endReg g s) s

/-- Neither side holds the state: the offerer has RELEASED and the receiver no RECEIVED (R417). -/
def abandonHand (h : Handoff) (s : State) : State :=
  let s := fleetRec 0x01 1 h.e.fromFdn s
  let s := s.modFlt fun f => { f with handoffs := f.handoffs.filter fun x => !(sameHand x.e h.e) }
  match h.e.kind, h.hand.copy with
  | .copy, some r => (s.home.regsCtr.filter fun g => g.owner == h.e.fromFdn && g.req == r).foldl (fun s g => endReg g s) s
  | _, _ => s

/-- LEDGER_QUERY is due for an entry this device holds in OFFERED, or learnt of (R417). An offer of a device fenced since, never recorded
here, is over: no record of the survivor decides it. -/
def queryHand (offerer : BitVec 16) (seq : BitVec 32) (s : State) : State :=
  match s.flt.handoffs.find? (fun h => h.e.fromFdn == offerer && h.e.seq == seq && h.e.phase == .offered) with
  | none => s
  | some h =>
    let s := reach h.e.expiry s
    if !h.mine && isFenced s h.e.fromFdn then takeReclaim h.e s
    else emit (.handoff 0x13 (if h.mine then h.e.toFdn else h.e.fromFdn) h.e {}) s

/-- LEDGER_QUERY is answered with this device's entry; without one, the entry is as the peer named it (R417). -/
def answerQuery (src : BitVec 16) (e : LedgerEnt) (s : State) : State :=
  emit (.handoff 0x14 src ((handOf s e).elim e (·.e)) {}) s

/-- LEDGER_STATE settles an entry (R417): RECEIVED decides; RELEASED against no RECEIVED leaves the state with nobody. -/
def takeLedger (e : LedgerEnt) (s : State) : State :=
  match handOf s e with
  | none => s
  | some h =>
    match h.mine, h.e.phase, e.phase with
    | true, .offered, .received => releaseHand e s
    | false, .offered, .released => abandonHand h s
    | false, .offered, .reclaimed => takeReclaim e s
    | _, _, _ => s

end Sys2Proof.Machine
end

