-- ==== Sys2Proof/Machine/Depart.lean ====
section
/-! DEFINITION. How a warm reset begins (R147, R351, R425): the departure of the device, the recall, the quiesce, the drain, and the
entry into reset. -/

namespace Sys2Proof.Machine

open Sys2Proof

/-! ### The recall of the host ports (R351) -/

/-- Every line-table entry is recalled; the port gives the line up when its host has answered. -/
def beginRecall (s : State) : State :=
  s.hp.lines.foldl (fun s e => recallEnt e s) (s.modHp fun h => { h with recalling := some (now s) })

/-- Entries still unrecalled at the bound of 1 ms are discarded; the quiesce handles their lines. -/
def endRecall (s : State) : State :=
  match s.hp.recalling with
  | none => s
  | some t => (if s.hp.lines.isEmpty then s else reach (t + 1000000) s).modHp fun h => { h with recalling := none, lines := [] }

/-! ### Copies of a departing device (R425 step 1) -/

/-- A copy that is queued, not running, and whose counter lies on another live device is offered to that device. -/
def offerable (s : State) (c : CopyRun) : Bool :=
  !c.running && !c.awaiting && c.offered.isNone && cpCounter c.req != 0 && fdnOf (cpCounter c.req) != servedFdn s &&
    !isFenced s (fdnOf (cpCounter c.req))

def offerCopies (s : State) : State :=
  (s.home.copies.filter (offerable s)).foldl (fun s c =>
    offerHand .copy (fdnOf (cpCounter c.req)) c.req.gsa { copy := some c.req } c.id s) s

/-- Every copy that is running, or that could not be offered, is completed at its counter's home (R102). -/
def endCopies (s : State) : State :=
  (s.home.copies.filter fun c => c.offered.isNone).foldl (fun s c => endCopy c.id .abandoned s) s

/-- WAIT and READ_VERSION held at the slices are answered NY. -/
def endHeld (s : State) : State :=
  (s.home.waiting.filter fun p => p.kind == .wait || p.kind == .readVersion).foldl (fun s p =>
    match findReq s p.n with | some p => finish p .ny 0x3FF [] s | none => s) s

/-- The device departs (R425 step 1). Durable barriers already accepted complete. -/
def depart (s : State) : State :=
  let s := departNotice (offerCopies (s.modSys fun y => { y with closed := true }))
  let s := endCopies (endHeld s)
  (s.jrn.barriers.map (·.id)).foldl (fun s i => barrierStep i s) s

/-! ### The drain (R425 step 4) -/

/-- Fills in flight complete. -/
def endFills (s : State) : State :=
  (s.tier.tags.filter fun t => t.2.state == .filling || t.2.merging).foldl (fun s t => endFill t.1 .good s) s

/-- Write-backs whose pages are programmed complete; the others are abandoned. -/
def endWriteBacks (s : State) : State :=
  s.tier.wbs.foldl (fun s w => if w.homeDone then finishWriteBack w s else abandonWriteBack w s) s

/-- The ring is drained to the flash journal, unless the drain fails. -/
def drainRing (s : State) : State :=
  if s.sys.drainFailed then s
  else
    let s := programRecs (fun _ => true) s
    (s.jrn.barriers.filter (·.jsn.isSome)).foldl (fun s b => endBarrier b s)
      (s.modJrn fun j => { j with ring := [], segs := [], groupRun := false })

/-- Step 5: HBM enters self-refresh and the balls their fuse state; the device is in reset until RESET_N is high. -/
def enterReset (s : State) : State :=
  let s := s.modJrn fun j => { j with keptBitmap := flushBitmap s }
  let s := s.modPins fun p => { p with phase := .fuse }
  leaveReset (s.modSys fun y => { y with phase := .inReset, stage := 0 })

/-- The steps of R425 go on as far as they can. -/
def departTry : Nat → State → State
  | 0, s => s
  | k + 1, s =>
    if s.sys.phase ≠ .departing then s
    else
      match s.sys.stage with
      | 1 =>
        if s.hp.lines.isEmpty then
          let s := endRecall s
          departTry k ((s.modCoh fun c => { c with quiescing := some (now s) }).modSys fun y => { y with stage := 2 })
        else s
      | 2 =>
        if s.coh.txns.isEmpty && s.coh.recalls.isEmpty then
          let s := (writeBackDir s).modCoh fun c => { c with quiescing := none }
          departTry k ((drainRing (endWriteBacks (endFills s))).modSys fun y => { y with stage := 3 })
        else s
      | 3 => if s.flt.handoffs.any (fun h => h.mine && h.e.kind == .copy && h.e.phase == .offered) then s else enterReset s
      | _ => s

def departGo (s : State) : State := departTry 4 s

/-- WARM_RESET_BEGIN (R425): `drained` says whether the drain of step 4 succeeds. -/
def beginWarm (drained : Bool) (s : State) : State :=
  if s.sys.phase ≠ .departing ∨ s.sys.stage ≠ 0 then s
  else
    let s := depart (s.modSys fun y => { y with drainFailed := !drained })
    departGo (beginRecall (s.modSys fun y => { y with stage := 1 }))

def execWarmResetBegin (drained : Bool) (s : State) := complete (beginWarm drained) s

/-- QUIESCE_BOUND (R147). -/
def execQuiesceBound (s : State) := complete (fun s => departGo (endQuiesce s)) s

end Sys2Proof.Machine
end

