-- ==== Sys2Proof/Machine/FleetState.lean ====
section
/-! DEFINITION. What a fence, its undoing and an adoption do to a device (R405-R414). -/

namespace Sys2Proof.Machine

open Sys2Proof

/-! ### Routing of fenced devices (R407, R410) -/

/-- The stand-in of a fenced device as this device routes to it: from the cell's list inside the cell; elsewhere the next routable
device, in order, of the sixteen FDNs that its cell takes (PRESUMED from the example of 18, log 14). -/
def standInFor (s : State) (d : BitVec 16) : Option (BitVec 16) :=
  if (cellAll s).any (·.2 == d) then standInOf s d
  else
    ((List.range 15).map fun i => BitVec.ofNat 16 (d.toNat / 16 * 16 + (d.toNat + i + 1) % 16)).find? fun f =>
      !s.flt.fenced.contains f && decide (routeEnt s f % 2 = 1)

/-- Each fenced FDN is routed to the adopting spare, or else to its stand-in. -/
def reroute (s : State) : State :=
  let to_ (d : BitVec 16) : Option (Nat × Nat) :=
    match s.flt.adoptions.find? (·.1 == d) with
    | some a => some (d.toNat, a.2.toNat)
    | none => (standInFor s d).map fun f => (d.toNat, f.toNat)
  s.modFab fun b => { b with redirect := s.flt.fenced.filterMap to_ }

/-! ### The control mirror (R409) -/

/-- The whole control state goes to the control mirror, and its confirmation releases everything held; with no live member nothing is
held. -/
def resendCtl (s : State) : State :=
  match ctlMirrorOf s with
  | some m => emit (.ctlMirror m (.whole (ctlState s))) s
  | none => s.modFlt fun f => { f with ctlWait := [] }

/-- What the control mirror's confirmations hold goes on: an extent command, a handoff step, a job's commit. -/
def ctlGo (s : State) : State :=
  let s := handGo (extGo s)
  let js := (s.nmc.jobs.filter fun j => j.2.phase == .committing).map (·.1)
  pump (js.foldl (fun s k => commitTry (Fin.ofNat 16 (k / 8)) (Fin.ofNat 8 k) s) s)

def ctlKept (s : State) (home : BitVec 16) : CtlState :=
  (s.flt.kept.find? (·.subject == home)).getD { subject := home }

def keepCtl (c : CtlState) (s : State) : State :=
  s.modFlt fun f => { f with kept := (f.kept.filter (·.subject != c.subject)) ++ [c] }

/-- The control mirror keeps a record, or a whole control state, with the wrapped keys in it, and confirms (R409). -/
def takeCtl (home : BitVec 16) (r : CtlRec) (s : State) : State :=
  if s.sys.phase = .powerFail ∨ s.sys.phase = .flushed then s
  else
    match r with
    | .record rc =>
      let o := offOf rc.gsa
      let s := match rc.body with
        | .key k => s.modFlash fun f => { f with wrapped := Tab.put 0 (home.toNat * 262144 + extOf o) k f.wrapped }
        | _ => s
      emit (.ctlConfirm home (.record rc.jsn)) (keepCtl (applyCtl (extOf o) (granKey o) rc (ctlKept s home)) s)
    | .whole c =>
      let s := c.keys.foldl (fun s k => s.modFlash fun f => { f with wrapped := Tab.put 0 (home.toNat * 262144 + k.1) k.2 f.wrapped }) s
      emit (.ctlConfirm home .whole) (keepCtl { c with subject := home } s)

/-- A confirmation of the control mirror, or of a holder that has destroyed a key (R33, R409). -/
def takeCtlConfirm (mirror : BitVec 16) (k : CtlConfirm) (s : State) : State :=
  ctlGo (match k with
    | .record jsn => s.modFlt fun f => { f with ctlWait := f.ctlWait.filter (· != jsn) }
    | .whole => s.modFlt fun f => { f with ctlWait := [] }
    | .keyGone e => s.modExt fun x => { x with
        run := x.run.map fun r => if r.ext = e.toNat then { r with keyHolders := r.keyHolders.filter (· != mirror) } else r })

/-! ### Buddies that go and come back (R75, R414) -/

/-- Extents of this home whose buddy is a device. -/
def pairedWith (s : State) (d : BitVec 16) : List (Nat × ExtDesc) :=
  s.ext.table.filter fun e => decide (e.1 < 2 ^ 18) && e.2.state != .free && e.2.buddyValid && e.2.buddy == d

/-- The buddy is fenced: what waited for its confirmation is acknowledged at the local slot, and PAIR_LOST is posted (R75, R77). -/
def buddyGone (d : BitVec 16) (s : State) : State :=
  let us := s.jrn.unconf.filter (·.buddy == d)
  let s := s.modJrn fun j => { j with unconf := j.unconf.filter (·.buddy != d) }
  let s := us.foldl (fun s u => confirmed u.jsn s) s
  let s := (s.tier.wbs.filter (·.buddy == some d)).foldl (fun s w => wbBuddyDone w.mu false s) s
  let s := fetchLost d s
  if (pairedWith s d).any (fun e => e.2.durability == .paired) && !s.jrn.pairLost.contains d then
    postDev 0x1A (d.setWidth 64) (s.modJrn fun j => { j with pairLost := j.pairLost ++ [d] })
  else s

/-- Records of this home, not yet released, that a buddy is to hold: those mirrored to it and those written without it. -/
def unreleased (s : State) (d : BitVec 16) : List JRec :=
  let exts := ((pairedWith s d).filter fun e => e.2.durability == .paired).map (·.1)
  let base := Nat.max s.jrn.foldedTo (Tab.get 0 s.jrn.released d.toNat)
  let mine (r : JRec) : Bool :=
    !r.mirrored && decide (fdnOf r.gsa = servedFdn s) && exts.contains (extNo r.gsa) && decide (base < r.jsn) &&
      (match r.body with | .pad | .mirrorRelease _ _ => false | _ => true)
  let l := (s.jrn.live.map (·.2)).filter mine ++ ((s.jrn.ring.filter fun x => x.home == ownFdn s).map (·.rc)).filter mine
  let old := (s.jrn.mirrored.filter (·.1 == d)).map (·.2)
  old ++ l.filter fun r => !old.any (·.jsn == r.jsn)

/-- The buddy's FDN is served again (R75, R414): keys, unreleased records, and flash copies held at the home only are sent again, and PAIR_LOST
is over. -/
def buddyBack (d : BitVec 16) (s : State) : State :=
  let es := pairedWith s d
  if es.isEmpty then s
  else
    let keys := es.filterMap fun e => let k := Tab.get 0 s.flash.keys e.1; if k = 0 then none else some (Out.key d e.1 k)
    let rs := unreleased s d
    let s := emitAll (rs.map fun r => .mirror d (sealRec { r with mirrored := true })) (emitAll keys s)
    let s := s.modJrn fun j => { j with
      mirrored := (j.mirrored.filter (·.1 != d)) ++ rs.map fun r => (d, r)
      unconf := (j.unconf.filter (·.buddy != d)) ++ rs.map fun r => { jsn := r.jsn, buddy := d, resendAt := now s + deadlineNs s } }
    let exts := (es.filter fun e => e.2.redundancy == .paired).map (·.1)
    let mus := s.flash.homeOnly.filter fun m => exts.contains (m / 16384)
    let s := endPairLost d s
    mus.foldl (fun s m => emit (.unit d m none (cipherOf s m false (readBytes s.flash.data (m * 65536) 65536))) (trackUnit d m s)) s

/-! ### Fostering (R411) -/

/-- Extents of a home for which this device holds what it needs to foster them. -/
def fosterExts (s : State) (d : BitVec 16) : List Nat :=
  (s.ext.table.filter fun e => decide (e.1 / 2 ^ 18 = d.toNat + 1) && e.2.state != .free).map fun e => e.1 % 2 ^ 18

def beginFoster (d : BitVec 16) (s : State) : State :=
  s.modFlt fun f => { f with
    fosters := (f.fosters.filter (·.home != d)) ++ (fosterExts s d).map fun e => { home := d, ext := e } }

/-- The flash copies that this device holds of an extent's units become the extent's flash (R77). -/
def installCopies (d : BitVec 16) (ext : Nat) (s : State) : State :=
  let base := (d.toNat + 1) * 2 ^ 18 * 16384
  (s.flash.held.filter fun h => h.isCopy && h.home == d && decide (h.mu / 16384 = ext)).foldl (fun s h =>
    let mu := base + h.mu
    s.modFlash fun f => { f with
      map := Tab.put {} mu { mapped := true } f.map
      data := writeCells (clearSpan f.data (mu * 65536) (mu * 65536 + 65536)) ((cipherOf s mu true h.data).mapIdx fun i b => (mu * 65536 + i, b)) }) s

/-- FOSTER_INSTALL_DONE (R411): the home's unreleased mirrored records of one extent are installed in jsn order, and the extent is
served. -/
def fosterReady (d : BitVec 16) (ext : Nat) (s : State) : State :=
  match s.flt.fosters.find? (fun x => x.home == d && x.ext == ext) with
  | none => s
  | some x =>
    if x.installed then s
    else
      let e := (d.toNat + 1) * 2 ^ 18 + ext
      let key := Tab.get 0 s.flash.wrapped (d.toNat * 262144 + ext)
      let s := installCopies d ext (s.modFlash fun f => { f with keys := Tab.put 0 e key f.keys })
      let rs := (s.jrn.mirrors.filter fun m => m.home == d).map (·.rc)
      let s := ((replayable (byJsn rs)).filter fun r => extNo r.gsa == ext).foldl (fun s r => installRec r s) s
      pump (s.modFlt fun f => { f with fosters := f.fosters.map fun y => if y == x then { y with installed := true } else y })

/-! ### Adoption, as the stand-in sees it (R412-R414) -/

/-- FDNs in rising order. -/
def byFdn (l : List (BitVec 16)) : List (BitVec 16) :=
  l.foldl (fun acc r => (acc.takeWhile fun x => decide (x < r)) ++ r :: (acc.dropWhile fun x => decide (x < r))) []

/-- The candidates of Table 18-6. Of the spare racks (DEDUCED), a device knows the peer of its link 23 (log 15). -/
def candidates (s : State) (d : BitVec 16) : List (BitVec 16) :=
  let mode := fld (regGet s (Off.flt + 0x20)) 1 0
  let slots := regGet s (Off.flt + 0x28)
  let core := byFdn (((cellAll s).filter fun p => bitOf slots p.1 && p.2 != d && p.2 != servedFdn s && !s.flt.fenced.contains p.2).map (·.2))
  let l := fabAt s 23
  let rack := if l.state = .active ∧ !s.flt.fenced.contains l.peer then [l.peer] else []
  match mode with | 0 => core | 1 => rack | 2 => core ++ rack.filter (!core.contains ·) | _ => []

def modStandIn (d : BitVec 16) (f : StandIn → StandIn) (s : State) : State :=
  s.modFlt fun t => { t with standIn := t.standIn.map fun x => if x.subject = d then f x else x }

/-- Ask the next candidate; with none left, raise the record and ask again in 1 s. -/
def askNext (d : BitVec 16) (s : State) : State :=
  match s.flt.standIn.find? (·.subject == d) with
  | none => s
  | some x =>
    match x.candidates with
    | c :: r => tell 0x08 c d false [] (modStandIn d (fun x => { x with candidates := r, asked := some c, askedAt := now s }) s)
    | [] => fleetRec 0x06 2 d (modStandIn d (fun x => { x with asked := none, askedAt := now s }) s)

/-- Adoption starts (R413). -/
def startAdoption (d : BitVec 16) (s : State) : State :=
  match s.flt.standIn.find? (·.subject == d) with
  | none => s
  | some x =>
    if x.started || x.asked.isSome then s else askNext d (modStandIn d (fun x => { x with candidates := candidates s d }) s)

/-! ### The fence (Table 18-4) -/

/-- Copies owned by a fenced device end at this counter's home, but for one whose offer is still open (R102). -/
def ownerGone (d : BitVec 16) (s : State) : State :=
  let waiting (g : Registration) : Bool := s.flt.handoffs.any fun h => !h.mine && h.e.phase == .offered && h.hand.copy == some g.req
  (s.home.regsCtr.filter fun g => g.owner == d && !waiting g).foldl (fun s g => endReg g s) s

/-- Owner records held through a fenced device are deposed as under take (R162, R499). -/
def deposeFrom (d : BitVec 16) (s : State) : State :=
  let out (o : Owner) : Owner :=
    if o.held && o.ownerFdn == d then { o with held := false, prevValid := true, prevIid := o.ownerIid } else o
  let held := s.ext.owners.filter fun o => o.2.held && o.2.ownerFdn == d
  let soon := s.own.filter fun c => c.new.held && c.new.ownerFdn == d
  let s := held.foldl (fun s o => setOwner o.1 (out o.2) s) (s.modOwn fun l => l.map fun c => { c with new := out c.new })
  let s := ((held.map (·.1)) ++ soon.map (·.key)).dedup.foldl (fun s k =>
    let last := match s.own.find? (·.key == k) with | some c => c.new | none => ownerOf s k
    journalCtl (publishRec s k last) (some (k / 512)) false s) s
  held.foldl (fun s o => recallHolder o.1 o.2.ownerIid s) s

/-- Agent slots whose node is fenced enter the lost-agent procedure (R141). -/
def agentsGone (d : BitVec 16) (s : State) : State :=
  (List.finRange 64).foldl (fun (s : State) (n : Fin 64) =>
    let w := agentW s n
    if agentValid s n && !agentLost s n && decide (fld w 61 60 = 0) && decide (fld w 31 16 = d.toNat) then startSweep n s else s) s

/-- Handoffs with a fenced peer (R417): a transplant not yet received is reclaimed; an offer of the fenced device that this one never
recorded is over. -/
def peerGone (d : BitVec 16) (s : State) : State :=
  let l := s.flt.handoffs.filter fun h => h.mine && h.e.phase == .offered && h.e.toFdn == d && h.e.kind == .transplant
  l.foldl (fun s h => reclaimHand h s) s

/-- Containment and return (R396, R413): at once for QUORUM and OPERATOR, after FLT_RETURN_WAIT for DEPART and SELF. -/
def fenceFollow (d : BitVec 16) (reason : BitVec 8) (s : State) : State :=
  if reason = 1 ∨ reason = 4 then startContainment d (startAdoption d s)
  else s.modFlt fun f => { f with
    waits := f.waits ++ [{ subject := d, due := now s + 1000000 * (regGet s (Off.flt + 0x30)).toNat }] }

/-- A device applies a fence of another (R407, Table 18-4); it applies once. -/
def applyFence (d : BitVec 16) (reason : BitVec 8) (s : State) : State :=
  if s.flt.fenced.contains d && !(s.flt.adoptions.any (·.1 == d)) then s
  else
    let mirror := ctlMirrorOf s
    let stand := decide (standInOf s d = some (servedFdn s))
    let s := reroute (s.modFlt fun f => { f with
      fenced := f.fenced.filter (· != d) ++ [d]
      adoptions := f.adoptions.filter (·.1 != d)
      votes := f.votes.filter (·.1 != d)
      holds := f.holds.filter (·.1 != d)
      containedFor := f.containedFor.filter (· != d)
      standIn := if stand then (f.standIn.filter (·.subject != d)) ++ [{ subject := d, reason := reason }] else f.standIn })
    let s := (s.home.tracker.filter (·.home == d)).foldl (fun s t => trackEnd .deviceLost t s) s
    let s := peerGone d (ownerGone d s)
    let s := deposeFrom d (agentsGone d s)
    let s := beginFoster d (buddyGone d s)
    let s := s.modExt fun x => { x with run := x.run.map fun r => { r with keyHolders := r.keyHolders.filter (· != d) } }
    let s := if mirror = some d then resendCtl s else s
    let s := fenceFollow d reason s
    fabPump (ctlGo (postDev 0x31 (put 48 d.toNat ||| put 0 s.flt.epoch) s))

/-- Issue a fence (R404, R408): the epoch advances by one and every device is told. -/
def issueFence (d : BitVec 16) (reason : BitVec 8) (drill : Bool) (s : State) : State :=
  if s.flt.fenced.contains d && !(s.flt.adoptions.any (·.1 == d)) then s
  else
    let ep := s.flt.epoch + 1
    let s := flood 0x04 d ep drill [reason.setWidth 64] (s.modFlt fun f => { f with epoch := ep })
    if d = servedFdn s then selfFence s else applyFence d reason s

/-- A fence is undone (R406, R414): the fosters hand the extents back, and homes whose buddy returns take it up again. -/
def applyUnfence (d : BitVec 16) (s : State) : State :=
  if !s.flt.fenced.contains d then s
  else
    let s := reroute (s.modFlt fun f => { f with
      fenced := f.fenced.filter (· != d)
      standIn := f.standIn.filter (·.subject != d)
      waits := f.waits.filter (·.subject != d) })
    let s := buddyBack d s
    let s := (s.flt.fosters.filter (·.home == d)).foldl (fun s x => offerFoster x s) s
    fabPump (pump s)

/-- A spare has adopted a fenced FDN (R413, R414). -/
def applyAdopt (d spareFdn : BitVec 16) (s : State) : State :=
  let s := reroute (s.modFlt fun f => { f with
    adoptions := (f.adoptions.filter (·.1 != d)) ++ [(d, spareFdn)]
    standIn := f.standIn.filter (·.subject != d)
    waits := f.waits.filter (·.subject != d) })
  let s := buddyBack d s
  let s := (s.flt.fosters.filter (·.home == d)).foldl (fun s x => offerFoster x s) s
  fabPump (pump s)

end Sys2Proof.Machine
end

