-- ==== Sys2Proof/Machine/Fleet.lean ====
section
/-! DEFINITION. The commands of the fleet agent: pulses and votes, fences, join and adoption, the handoff ledger, and frost drills
(R400-R421, R428). -/

namespace Sys2Proof.Machine

open Sys2Proof

/-! ### Pulses (R402, R405) -/

/-- PULSE_SEND (R402): a PULSE on each ACTIVE link, with susp set to a suspected peer; a drill may withhold it (R420). -/
def sendPulses (s : State) : State :=
  let n := s.flt.pulseNo + 1
  let s := s.modFlt fun f => { f with pulseNo := n }
  ((List.range 24).filter fun i => linkUpNow s i && !(fabAt s i).drill).foldl (fun s i =>
    let l := fabAt s i
    tell 0x01 l.peer l.peer false [put 63 (bit01 l.suspected) ||| n.setWidth 64] s) s

def execPulseSend (s : State) := complete sendPulses s

/-- PULSE (R402, R405): five in a row, told by their numbers, end a suspicion; one with susp = 0 from a voter is noted. -/
def takePulse (n : Fin 24) (susp : Bool) (num : BitVec 32) (s : State) : State :=
  let l := fabAt s n
  if l.state ≠ .active then s
  else
    let s := if susp then s else s.modFlt fun f => { f with heard := Tab.put 0 l.peer.toNat (now s) f.heard }
    let s := modFabLink n (fun l => { l with heard := if num = l.lastPulse + 1 then l.heard + 1 else 1, lastPulse := num })
      (beginTimer (.pulse n.val) s)
    if l.suspected ∧ 5 ≤ (fabAt s n).heard then unsuspectPeer n s else s

def execPulse (n : Fin 24) (h : FleetHdr) (p : PulseBody) (s : State) :=
  complete (fun s => takePulse n p.susp p.num (sawEpoch h.epoch s)) s

/-- PULSE_SILENCE (R402): five intervals have passed with no pulse. -/
def execPulseSilence (n : Fin 24) (s : State) :=
  complete (fun s =>
    if (fabAt s n).state ≠ .active then s
    else suspectPeer true n (modFabLink n (fun l => { l with heard := 0 }) (elapsed (.pulse n.val) 100000 s))) s

/-! ### Votes (R404) -/

/-- SUSPECT: a vote. One of a drill counts in the drill's vote; the target of a vote drill asks its voters to take part (R420, log 16). A
real vote ends the drill's (R421). -/
def takeSuspect (voter d : BitVec 16) (drill : Bool) (s : State) : State :=
  let was := s.flt.drillVotes.contains d
  let s := s.modFlt fun f => { f with
    drillVotes := if drill then (f.drillVotes.filter (· != d)) ++ [d] else f.drillVotes.filter (· != d)
    votes := if was && !drill then f.votes.filter (·.1 != d) else f.votes }
  if drill && voter == d then
    let to_ := ((votersOf s d) ++ (standInOf s d).toList).dedup.filter (· != ownFdn s)
    castVote (ownFdn s) d true (to_.foldl (fun s v => tell 0x02 v d true [] s) s)
  else castVote voter d true s

def execSuspect (voter subject : BitVec 16) (m : VoteMark) (s : State) :=
  complete (fun s => takeSuspect voter subject m.drill (sawEpoch m.epoch s)) s

/-- CLEAR (R404); the target's own ends its vote drill. -/
def takeClear (voter d : BitVec 16) (drill : Bool) (s : State) : State :=
  if drill && voter == d then
    s.modFlt fun f => { f with
      drillVotes := f.drillVotes.filter (· != d), votes := f.votes.filter (·.1 != d), holds := f.holds.filter (·.1 != d) }
  else castVote voter d false s

def execClear (voter subject : BitVec 16) (m : VoteMark) (s : State) :=
  complete (fun s => takeClear voter subject m.drill (sawEpoch m.epoch s)) s

/-- SUSPECT_HOLD_END (R404): the fence is issued if the quorum still stands; in a drill it is not issued (R420). -/
def endHold (d : BitVec 16) (s : State) : State :=
  match s.flt.holds.find? (·.1 == d) with
  | none => s
  | some h =>
    let s := (reach h.2 s).modFlt fun f => { f with holds := f.holds.filter (·.1 != d) }
    if votesOn s d < quorum s d ∨ s.flt.drillVotes.contains d then s else issueFence d 1 false s

def execSuspectHoldEnd (subject : BitVec 16) (s : State) := complete (endHold subject) s

/-- The instant up to which pulses with susp = 0 have arrived from a quorum of this device's voters within 500 us (R405). -/
def quorumUntil (s : State) : Nat :=
  let ts := (votersOf s (ownFdn s)).map fun v => Tab.get 0 s.flt.heard v.toNat
  let down := ts.foldl (fun acc t => (acc.takeWhile fun x => decide (t ≤ x)) ++ t :: (acc.dropWhile fun x => decide (t ≤ x))) []
  down.getD (quorum s (ownFdn s) - 1) 0 + 500000

/-- ISOLATION (R405): fewer than Q voters have been heard for 500 us. A device with fewer than 3 voters is fenced only by the operator
(R403). -/
def isolate (s : State) : State :=
  if (votersOf s (ownFdn s)).length < 3 then s else selfFence (reach (quorumUntil s) s)

def execIsolation (s : State) := complete isolate s

/-! ### Fences (R405-R408) -/

/-- FENCE (R405, R406, R407). -/
def execFence (h : FleetHdr) (reason : BitVec 8) (s : State) :=
  complete (passOn 0x04 h [reason.setWidth 64] fun s =>
    let s := sawEpoch h.epoch s
    if h.subject = servedFdn s then selfFence s else applyFence h.subject reason s) s

/-- UNFENCE (R406). -/
def execUnfence (h : FleetHdr) (s : State) :=
  complete (passOn 0x07 h [] fun s => applyUnfence h.subject (sawEpoch h.epoch s)) s

/-- FLT_FENCE_CMD (R408): class F; the reason is OPERATOR. -/
def execFltFenceCmd (wr : Writer) (fdn : BitVec 16) (s : State) :=
  complete (fun s => if allowed s wr none [.f] then issueFence fdn 4 false s else rejected (Off.flt + 0x10) s) s

/-- PDOWN (R78, R380, R408): the link goes down; for a cell member on a mesh link the departure is flooded on its behalf. -/
def execPdown (n : Fin 24) (s : State) :=
  complete (fun s =>
    let l := fabAt s n
    let s := if l.state = .active ∧ isMesh n then issueFence l.peer 2 false s else s
    linkGone false n false s) s

/-! ### Joining (R400, R403, R409, R414, R428) -/

/-- The peers on links 0-22 (R403). -/
def joinPeers (s : State) : List (BitVec 16) := ((List.range 23).filter (linkUpNow s)).map fun n => (fabAt s n).peer

/-- The body of JOIN: 23 entries of two bytes, zero for a link that is not up. -/
def joinBody (s : State) : List Word :=
  wordsOfBytes 6 ((List.range 24).flatMap fun n =>
    bytesOfNat 2 (if n < 23 ∧ linkUpNow s n then (fabAt s n).peer.toNat else 0))

/-- Step 9 begins: what was held for other devices is discarded, and JOIN goes to the cell (R403, R409). -/
def sendJoin (s : State) : State :=
  let mesh := ((List.range 15).filter (linkUpNow s)).map fun n => (fabAt s n).peer
  mesh.foldl (fun s d => tell 0x05 d (ownFdn s) false (joinBody s) s) (s.modFlt fun f => { f with joinAt := now s })

def beginJoin (s : State) : State :=
  let s := s.modFlash fun f => { f with wrapped := [] }
  let s := s.modFlt fun f => { f with kept := [], state := .joining, voters := [(ownFdn s, joinPeers s)] }
  if standalone s then s.modFlt fun f => { f with state := .member } else sendJoin s

/-- The fenced set as an 8 KiB bitmap. -/
def fencedMap (s : State) : List Word :=
  (List.range 1024).map fun i => s.flt.fenced.foldl (fun w f => if f.toNat / 64 = i then w ||| put (f.toNat % 64) 1 else w) 0

/-- JOIN_ANS: the time base, the fenced set, the peer lists of the cell (Table 18-3). -/
def answerJoin (dst : BitVec 16) (s : State) : State :=
  let lists := s.flt.voters.flatMap fun v => wordsOfBytes 6 ((v.1 :: v.2).flatMap fun f => bytesOfNat 2 f.toNat)
  tell 0x06 dst dst false (BitVec.ofNat 64 (now s) :: fencedMap s ++ lists) s

/-- JOIN (R403, R409, R414): the voters are kept, the device gets its answer, and the whole control state if it is our control mirror. A
rejoin to the stand-in is let in unless adoption has started. -/
def takeJoin (h : FleetHdr) (peers : List (BitVec 16)) (rejoin : Bool) (s : State) : State :=
  let d := h.src
  let s := sawEpoch h.epoch s
  let s := s.modFlt fun f => { f with voters := (f.voters.filter (·.1 != d)) ++ [(d, peers)] }
  let open_ := s.flt.standIn.any fun x => x.subject == d && !x.started && x.asked.isNone
  let s := if rejoin && open_ then
      (let ep := s.flt.epoch + 1
       applyUnfence d (flood 0x07 d ep false [] (s.modFlt fun f => { f with epoch := ep })))
    else s
  let s := answerJoin d s
  if ctlMirrorOf s = some d then resendCtl s else s

def execJoin (h : FleetHdr) (peers : List (BitVec 16)) (rejoin : Bool) (s : State) := complete (takeJoin h peers rejoin) s

/-- Every extent is crypto-erased (R33, R414): keys destroyed, contents gone, extents FREE. -/
def eraseAll (s : State) : State :=
  let es := (s.ext.table.filter fun e => decide (e.1 < 2 ^ 18)).map (·.1)
  es.foldl (fun s e =>
    let s := eraseExtent e (s.modFlash fun f => { f with keys := Tab.put 0 e 0 f.keys })
    let d := extDesc s e
    journalCtl (extRec s e (.extent { inc := d.inc })) none false (s.modExt fun x => { x with table := Tab.put {} e { inc := d.inc } x.table })) s

/-- Late mirrors are sent again, and the mirror fetches begin (R75, R497). -/
def joinWork (s : State) : State :=
  let ms := s.jrn.mirrored.filter fun m => s.jrn.unconf.any fun u => u.buddy == m.1 && u.jsn == m.2.jsn
  let s := emitAll (ms.map fun m => .mirror m.1 (sealRec { m.2 with mirrored := true })) s
  emitAll (s.jrn.fetches.map fun f => .fetch f.buddy f.lo f.hi) s

/-- JOIN_ANS (R375, R406, R414, R428): the fleet's time, fenced set and lists are taken. A device that finds its own FDN fenced asks its
stand-in to be let back; refused, it erases every extent and is a spare. -/
def takeJoinAns (h : FleetHdr) (time : Word) (fenced : List (BitVec 16)) (cell : List (BitVec 16 × List (BitVec 16))) (spare : Bool)
    (s : State) : State :=
  let s := sawEpoch h.epoch s
  if s.flt.state ≠ .joining then s
  else
    let own := ownFdn s
    let s := if s.fab.timeSet then s else (reach time.toNat s).modFab fun b => { b with timeSet := true }
    let s := reroute (s.modFlt fun f => { f with
      fenced := fenced
      voters := (f.voters.filter fun v => !cell.any (·.1 == v.1) || v.1 == own) ++ cell.filter (·.1 != own) })
    let enter (st : FleetState) (s : State) : State :=
      joinWork (s.modFlt fun f => { f with
        state := st, rejoining := false, heard := (votersOf s own).foldl (fun m v => Tab.put 0 v.toNat (now s) m) f.heard })
    if fenced.contains own then
      if s.flt.rejoining then enter .spare (eraseAll s)
      else
        let s := s.modFlt fun f => { f with rejoining := true }
        match nextLive s (mySlot s) own with
        | some st => tell 0x05 st own false (joinBody s) s
        | none => s
    else if s.flt.rejoining then
      let s := enter (if spare then .spare else .member) s
      s.modFlt fun f => { f with atFoster := (s.ext.table.filter fun e =>
        decide (e.1 < 2 ^ 18) && e.2.state != .free && e.2.buddyValid && !isFenced s e.2.buddy).map fun e => (e.1, e.2.buddy) }
    else enter (if spare then .spare else .member) s

def execJoinAns (h : FleetHdr) (time : Word) (fenced : List (BitVec 16)) (cell : List (BitVec 16 × List (BitVec 16))) (spare : Bool)
    (s : State) :=
  complete (takeJoinAns h time fenced cell spare) s

/-- JOIN_RETRY (R428): no JOIN_ANS for 1 s. -/
def execJoinRetry (s : State) :=
  complete (fun s => if s.flt.state ≠ .joining then s else sendJoin (reach (s.flt.joinAt + 1000000000) s)) s

/-! ### Adoption (R412-R414) -/

/-- ADOPT_REQ (R412): a spare accepts the first request and answers BUSY to any other. -/
def execAdoptReq (h : FleetHdr) (s : State) :=
  complete (fun s =>
    let s := sawEpoch h.epoch s
    let ok := s.flt.state == .spare && s.flt.adopting.isNone
    let s := if ok then s.modFlt fun f => { f with state := .adopting, adopting := some h.src } else s
    tell 0x09 h.src h.subject false [put 0 (stCode (if ok then .ok else .busy))] s) s

/-- ADOPT_ANS (R412, R413 step 2): the control state goes to the spare that accepted; otherwise the next is asked. -/
def execAdoptAns (h : FleetHdr) (st : Status) (s : State) :=
  complete (fun s =>
    let s := sawEpoch h.epoch s
    let d := h.subject
    match s.flt.standIn.find? (fun x => x.subject == d && x.asked == some h.src) with
    | none => s
    | some _ =>
      if st = .ok then
        emit (.ctlState h.src { ctlKept s d with cell := cellAll s }) (modStandIn d (fun x => { x with started := true }) s)
      else askNext d (modStandIn d (fun x => { x with asked := none }) s)) s

/-- The deadline that the extents need (R63). -/
def raiseDeadline (s : State) : State :=
  let live := s.ext.table.filter fun e => decide (e.1 < 2 ^ 18) && e.2.durability == .paired &&
    (e.2.state == .assigned || e.2.state == .revoking || e.2.state == .revoked)
  let need := if live.any (fun e => e.2.form == .coded) then 20 else if live.isEmpty then 0 else 15
  if (regGet s Off.home).toNat < need then mismatch Off.home (regSet Off.home (BitVec.ofNat 64 need) s) else s

/-- CONTROL_STATE_RECEIVED (R413 steps 3 and 4, R414): the spare serves the adopted FDN. Owner records of extents without a buddy, the
untouched ones with them, take open here and stale with the loss epoch. Extents with a buddy are forwarded to it until it
hands them back; STRIPED ones find their members; the others are lost. -/
def adoptState (c : CtlState) (s : State) : State :=
  if s.flt.state ≠ .adopting then s
  else
    let own := ownFdn s
    let live := c.exts.filter fun e => e.2.state != .free
    let bare := (live.filter fun e => !e.2.buddyValid).map (·.1)
    let gone := ((live.filter fun e => !e.2.buddyValid && e.2.redundancy != .striped).map (·.1))
    let owners := mapOwners (bare.contains ·) (fun o => { o with openW := true }) c.regions (c.owners.map fun o => (o.1, { o.2 with inflight := 0 }))
    let s := s.modExt fun x => { x with table := c.exts, regions := c.regions, lost := gone, owners := owners }
    let s := s.modFlash fun f => { f with keys := c.keys }
    let s := s.modNmc fun n => { n with ledger := c.resume }
    let s := s.modRas fun r => { r with comps := c.comps }
    let s := s.modJrn fun j => { j with lossEpoch := c.lossEpoch, marks := c.marks }
    let ep := s.flt.epoch + 1
    let s := s.modFlt fun f => { f with
      adopted := some c.subject, adopting := none, state := .member, epoch := ep, cell := c.cell.filter (·.2 != own)
      adoptions := (f.adoptions.filter (·.1 != c.subject)) ++ [(c.subject, own)]
      atFoster := (live.filter fun e => e.2.buddyValid && e.2.buddy != c.subject).map fun e => (e.1, e.2.buddy)
      handoffs := c.handoffs.map fun e => { e := e, mine := e.fromFdn == c.subject } }
    let fostered := (live.filter fun e => e.2.buddyValid && e.2.durability == .cached).map (·.1)
    let s := raiseDeadline (advanceLoss false (bare ++ fostered) s)
    let s := flood 0x0A c.subject ep false [own.setWidth 64] (reroute s)
    resendCtl (pump s)

def execControlStateReceived (c : CtlState) (s : State) := complete (adoptState c) s

/-- ADOPT (R406, R413). -/
def execAdopt (h : FleetHdr) (spareFdn : BitVec 16) (s : State) :=
  complete (passOn 0x0A h [spareFdn.setWidth 64] fun s => applyAdopt h.subject spareFdn (sawEpoch h.epoch s)) s

/-- ADOPT_RETRY (R414): the candidates are asked again every 1 s. -/
def execAdoptRetry (subject : BitVec 16) (s : State) :=
  complete (fun s =>
    match s.flt.standIn.find? (fun x => x.subject == subject && x.asked.isNone && !x.started) with
    | none => s
    | some x => startAdoption subject (reach (x.askedAt + 1000000000) s)) s

/-- RETURN_WAIT_EXPIRE (R396, R413): containment and adoption start unless the device has rejoined. -/
def execReturnWaitExpire (subject : BitVec 16) (s : State) :=
  complete (fun s =>
    match s.flt.waits.find? (·.subject == subject) with
    | none => s
    | some w =>
      let s := startContainment subject (reach w.due s)
      startAdoption subject (s.modFlt fun f => { f with waits := f.waits.filter (·.subject != subject) })) s

/-! ### Members of stripes (R56, R414) -/

/-- MEMBER_FIND (R414): answered from the index of held members. -/
def execMemberFind (h : FleetHdr) (mu : BitVec 48) (s : State) :=
  complete (fun s =>
    let s := sawEpoch h.epoch s
    let home := mu.extractLsb' 32 16
    match s.flash.held.find? (fun x => !x.isCopy && x.home == home && decide (x.mu = mu.toNat % 2 ^ 32) && decide (x.member < 8)) with
    | none => s
    | some x => tell 0x0C h.src h.subject false [put 16 mu.toNat, put 4 x.stripe ||| put 0 x.member] s) s

/-- MEMBER_LOC (R414): the unit's place is known, and its fill reads it there. -/
def execMemberLoc (h : FleetHdr) (mu : BitVec 48) (stripe : BitVec 42) (member : Fin 10) (s : State) :=
  complete (fun s =>
    let s := sawEpoch h.epoch s
    let m := mu.toNat % 2 ^ 32
    if s.flt.adopted ≠ some (mu.extractLsb' 32 16) ∨ (mapOf s m).mapped then s
    else s.modFlash fun f => { f with
      map := Tab.put {} m { mapped := true, striped := true, stripe := stripe.toNat, member := member.val } f.map
      holders := Tab.put [] stripe.toNat (((List.range 10).map (memberHolder s stripe.toNat)).set member.val h.src) f.holders
      nextStripe := Nat.max f.nextStripe (stripe.toNat + 1) }) s

/-- STRIPE_REBUILD (R414): in the background the adopting spare asks for a unit's place, and where the unit is known writes its members anew. -/
def execStripeRebuild (mu : Nat) (s : State) :=
  complete (fun s =>
    if (mapOf s mu).mapped then (if (residentFrames s mu).isEmpty then s else startWriteBack mu false s) else findUnit mu s) s

/-- STRIPE_MEMBER_READ (R56): the member, or a failure. -/
def execStripeMemberRead (reader home : BitVec 16) (stripe : BitVec 42) (member : Fin 10) (s : State) :=
  complete (fun s =>
    match s.flash.held.find? (fun x => !x.isCopy && x.home == home && decide (x.stripe = stripe.toNat) && decide (x.member = member.val)) with
    | some x => emit (.memberData reader stripe.toNat member.val .ok x.data) s
    | none => emit (.memberData reader stripe.toNat member.val .deviceLost []) s) s

/-! ### Control mirrors (R409) and fosters (R411) -/

/-- CONTROL_MIRROR_RECEIVE (R409). -/
def execControlMirrorReceive (home : BitVec 16) (j : CtlRec) (s : State) := complete (takeCtl home j) s

/-- CONTROL_MIRROR_CONFIRM (R33, R409). -/
def execControlMirrorConfirm (mirror : BitVec 16) (k : CtlConfirm) (s : State) := complete (takeCtlConfirm mirror k) s

/-- FOSTER_INSTALL_DONE (R411). -/
def execFosterInstallDone (home : BitVec 16) (ext : BitVec 18) (s : State) := complete (fosterReady home ext.toNat) s

/-! ### The handoff ledger (R415-R417) -/

/-- OFFER (R416). -/
def execOffer (h : FleetHdr) (e : LedgerEnt) (c : HandState) (s : State) := complete (fun s => takeOffer e c (sawEpoch h.epoch s)) s

/-- RECEIVED (R416); a departing device may go on (R425). -/
def execReceived (h : FleetHdr) (e : LedgerEnt) (s : State) := complete (fun s => departGo (releaseHand e (sawEpoch h.epoch s))) s

/-- RECLAIM (R416). -/
def execReclaim (h : FleetHdr) (e : LedgerEnt) (s : State) := complete (fun s => takeReclaim e (sawEpoch h.epoch s)) s

/-- HANDOFF_EXPIRY (R416); a departing device may go on (R425). -/
def execHandoffExpiry (seq : BitVec 32) (s : State) := complete (fun s => departGo (expireHand seq s)) s

/-- LEDGER_QUERY_DUE (R417). -/
def execLedgerQueryDue (offerer : BitVec 16) (seq : BitVec 32) (s : State) := complete (queryHand offerer seq) s

/-- LEDGER_QUERY (R417). -/
def execLedgerQuery (h : FleetHdr) (e : LedgerEnt) (s : State) := complete (fun s => answerQuery h.src e (sawEpoch h.epoch s)) s

/-- LEDGER_STATE (R417). -/
def execLedgerState (h : FleetHdr) (e : LedgerEnt) (s : State) := complete (fun s => departGo (takeLedger e (sawEpoch h.epoch s))) s

/-! ### Frost drills (R420, R421) -/

def drillOfWords (w0 w1 : Word) : Drill :=
  { kind := w0.extractLsb' 56 8, inst := w0.extractLsb' 48 8, target := w0.extractLsb' 32 16, length := fld w0 31 0, start := w1.toNat }

def drillDone : Nat := Off.flt + 0x50

/-- Nanoseconds of a day and of a minute. -/
def dayNs : Nat := 86400000000000
def minuteNs : Nat := 60000000000

/-- A drill that the bounds do not allow (R420). -/
def drillDenied (s : State) (d : Drill) : Bool :=
  let recent := s.flt.drillTimes.filter fun t => decide (now s < t + dayNs)
  !(decide (1 ≤ d.kind.toNat ∧ d.kind.toNat ≤ 8) && bitOf (regGet s (Off.flt + 0x58)) d.kind.toNat) ||
    decide ((regGet s (Off.flt + 0x60)).toNat ≤ recent.length) ||
    s.flt.drillTimes.any fun t => decide (now s < t + minuteNs * (regGet s (Off.flt + 0x68)).toNat)

/-- The cell already runs a drill, has a fenced member not yet adopted, a degraded link, or a member in PAIR_LOST (R420). -/
def drillBusy (s : State) : Bool :=
  (match s.flt.drill with | some d => decide (now s < d.start + 1000 * d.length) | none => false) ||
    (cellAll s).any (fun p => isFenced s p.2) ||
    (List.range 24).any (fun n => linkUpNow s n && (fabAt s n).narrowed) || !s.jrn.pairLost.isEmpty

/-- A drill reaches its target: it waits for its start. -/
def takeDrill (d : Drill) (s : State) : State := s.modFlt fun f => { f with drill := some d }

/-- DRILL_SCHEDULE (R420). A length over 10 s is no descriptor of Table 18-10. -/
def scheduleDrill (wr : Writer) (s : State) : State :=
  (issue wr none [.f] (Off.flt + 0x48) drillDone (fun s =>
    let w0 := staged s wr (Off.flt + 0x38)
    let w1 := staged s wr (Off.flt + 0x40)
    let d := drillOfWords w0 w1
    if drillDenied s d then cmdDone drillDone .denied 0 s
    else if drillBusy s then cmdDone drillDone .busy 0 s
    else if 10000000 < d.length then cmdDone drillDone .malformed 0 s
    else
      let s := s.modFlt fun f => { f with drillTimes := now s :: f.drillTimes, drill := some d }
      cmdDone drillDone .ok 0 (if d.target = servedFdn s then s else tell 0x1E d.target d.target true [w0, w1] s)) s).2

def execDrillSchedule (wr : Writer) (s : State) := complete (scheduleDrill wr) s

/-- DRILL (R420). -/
def execDrill (h : FleetHdr) (w0 w1 : Word) (s : State) := complete (fun s => takeDrill (drillOfWords w0 w1) (sawEpoch h.epoch s)) s

/-- Records and fleet messages that a drill causes say so (R420). -/
def asDrill (f : State → State) (s : State) : State :=
  let t := f s
  let mark (o : Out) : Out := match o with | .fleet ty d h b => .fleet ty d { h with drill := true } b | o => o
  let t := t.modRas fun r => { r with log := r.log.map fun e => if s.ras.log.contains e then e else { e with detail3 := e.detail3 ||| put 63 1 } }
  { t with out := t.out.take s.out.length ++ (t.out.drop s.out.length).map mark }

/-- Link and lane of a LANE drill: the instance is 8 x link + lane (log 16). -/
def drillLink (d : Drill) : Fin 24 := Fin.ofNat 24 (if d.kind = 1 then d.inst.toNat / 8 else d.inst.toNat)

/-- The other FEC mode that a link may run. -/
def otherFec (s : State) (n : Fin 24) : BitVec 2 :=
  let m := (fabAt s n).fec
  (([0, 1, 2] : List Nat).find? fun i => i != m.toNat && fecOk s n i).elim m (BitVec.ofNat 2 ·)

/-- What a drill does (Table 18-10; DEDUCED, log 85). -/
def injectDrill (d : Drill) (s : State) : State :=
  let n := drillLink d
  let own := servedFdn s
  match d.kind.toNat with
  | 1 => loseLane n (d.inst.toNat % 8) s
  | 2 => modFabLink n (fun l => { l with drill := true }) (goDown n false s)
  | 3 =>
    let links := ((List.range 23).filter (linkUpNow s)).take (quorum s (ownFdn s) - 1)
    links.foldl (fun s i => modFabLink i (fun l => { l with drill := true }) s) s
  | 4 =>
    let to_ := ((votersOf s own) ++ (standInOf s own).toList).dedup
    to_.foldl (fun s v => tell 0x02 v own true [] s) s
  | 5 => requestWarm .fabric s
  | 6 => graftCore (Fin.ofNat 16 d.inst.toNat) s
  | 7 => pump (startFence (!s.coh.tabled) s)
  | 8 => askFec n (otherFec s n) s
  | _ => s

/-- DRILL_START (R420). -/
def startDrill (s : State) : State :=
  match s.flt.drill with
  | none => s
  | some d =>
    if d.running || d.target ≠ servedFdn s then s
    else asDrill (injectDrill d) ((reach d.start s).modFlt fun f => { f with drill := some { d with running := true } })

def execDrillStart (s : State) := complete startDrill s

/-- The injection is undone. -/
def undoDrill (d : Drill) (s : State) : State :=
  let n := drillLink d
  let own := servedFdn s
  match d.kind.toNat with
  | 1 => goDown n true s
  | 2 => modFabLink n (fun l => { l with drill := false, retrainAt := some (now s) }) s
  | 3 => (List.range 24).foldl (fun s i => modFabLink i (fun l => { l with drill := false }) s) s
  | 4 =>
    let to_ := ((votersOf s own) ++ (standInOf s own).toList).dedup
    to_.foldl (fun s v => tell 0x03 v own true [] s) s
  | 7 => pump (startFence (!s.coh.tabled) s)
  | 8 => askFec n (otherFec s n) s
  | _ => s

/-- DRILL_END (R420, R421): the length is over (1 ms at most for PULSE), or a real fault ends it. -/
def endDrill (realFault : Bool) (s : State) : State :=
  match s.flt.drill with
  | none => s
  | some d =>
    let len := if d.kind = 3 then Nat.min d.length 1000 else d.length
    let s := if realFault then s else reach (d.start + 1000 * len) s
    let s := s.modFlt fun f => { f with drill := none }
    if d.running then asDrill (undoDrill d) s else s

def execDrillEnd (realFault : Bool) (s : State) := complete (endDrill realFault) s

end Sys2Proof.Machine
end

