-- ==== Sys2Proof/Machine/Image.lean ====
section
/-! DEFINITION. The configuration NOR, the checks of an image copy, the choice of a copy and what it sets (R432-R442, R493), and the
commands that read and write the NOR and the fuses. -/

namespace Sys2Proof.Machine

open Sys2Proof

/-! ### Ball findings (R468) -/

/-- Code and severity of a finding (Table 21-5). -/
def findingCode (f : BitVec 8) : BitVec 8 × BitVec 2 :=
  if f ≤ 3 then (0x05, 2) else if f = 6 ∨ f = 7 then (0x08, 0) else if f = 0x0A then (0x03, 2) else (0x01, 2)

/-- RST_PIN_MAP holds 128 findings; entry 127 keeps the latest once it is full (Table 22-7). -/
def mapFinding (l : List PinFinding) (f : PinFinding) : List PinFinding := l.take 127 ++ [f]

/-- A PIN record of the detecting block; the finding is kept, and the ball goes to Hi-Z where Table 21-5 says so. -/
def pinFinding (block : BitVec 8) (f : PinFinding) (s : State) : State :=
  let (code, sev) := findingCode f.finding
  let s := raise {
    cls := 0x0F, sev := sev, code := code, block := block
    detail0 := f.group.setWidth 32 <<< 16 ||| f.ball.setWidth 32, detail1 := f.finding.setWidth 64 } s
  let off := f.finding ≤ 3 || f.finding == 5 || f.finding == 9
  s.modPins fun p => { p with
    map := mapFinding p.map f, hiz := if off then (p.hiz ++ [(f.group, f.ball)]).dedup else p.hiz }

/-! ### The NOR (R433, R434) -/

/-- Bytes of the NOR from an address up, an erased byte reading FFH. -/
def norBytes : List Host.Cell → Nat → Nat → List Byte
  | _, _, 0 => []
  | [], a, n + 1 => 0xFF :: norBytes [] (a + 1) n
  | (j, b) :: t, a, n + 1 => if j = a then b :: norBytes t (a + 1) n else 0xFF :: norBytes ((j, b) :: t) (a + 1) n

def norRead (s : State) (a n : Nat) : List Byte := norBytes (s.cfg.nor.dropWhile fun c => decide (c.1 < a)) a n

/-- Set bytes of the NOR. -/
def norSet (a : Nat) (bs : List Byte) (s : State) : State :=
  s.modCfg fun c => { c with nor := ((List.range bs.length).zip bs).foldl (fun m x => Tab.put 0xFF (a + x.1) x.2 m) c.nor }

/-- A valid half of the boot directory: its write sequence and the attempt counts of copies A and B (R434). -/
def bootHalf (s : State) (h : Nat) : Option (Nat × Nat × Nat) :=
  let bs := norRead s (h * 0x8000) 16
  let w0 := wordOfBytes (bs.take 8)
  let w1 := wordOfBytes (bs.drop 8)
  if crc32c ([0, 0, 0, 0] ++ bs.drop 4) = w0.setWidth 32 then some (fld w0 63 32, fld w1 63 56, fld w1 55 48) else none

/-- The half in use and what it holds. -/
def bootNow (s : State) : Option (Nat × Nat × Nat × Nat) :=
  match bootHalf s 0, bootHalf s 1 with
  | some x, some y => if seqLt 32 x.1 y.1 then some (1, y) else some (0, x)
  | some x, none => some (0, x)
  | none, some y => some (1, y)
  | none, none => none

/-- Attempt counts of copies A and B; zero where no half is valid. -/
def bootCounts (s : State) : Nat × Nat := match bootNow s with | some (_, _, a, b) => (a, b) | none => (0, 0)

/-- The record of a half: its CRC-32C is over the record with the crc field zero. -/
def bootBytes (seq a b : Nat) : List Byte :=
  let body := bytesOfNat 4 seq ++ bytesOfNat 8 (Nat.min 255 a * 2 ^ 56 + Nat.min 255 b * 2 ^ 48)
  bytesOfNat 4 (crc32c ([0, 0, 0, 0] ++ body)).toNat ++ body

/-- The device writes the half with the earlier sequence. -/
def writeBoot (a b : Nat) (s : State) : State :=
  match bootNow s with
  | some (h, q, _) => norSet ((1 - h) * 0x8000) (bootBytes ((q + 1) % 2 ^ 32) a b) s
  | none => norSet 0 (bootBytes 1 a b) s

/-! ### An image (R435-R439) -/

def copyBase (b : Bool) : Nat := if b then 0x2000000 else 0x100000

/-- What a copy holds: its header's words, REGS entries as pairs of words, carve-out and PINS entries. -/
structure Img where
  base : Nat := 0
  hdr : List Word := []
  regs : List (Word × Word) := []
  carve : List Nat := []
  pins : List Nat := []

def Img.w (i : Img) (n : Nat) : Word := wordAt i.hdr n
def Img.length (i : Img) : Nat := fld (i.w 2) 63 32
def Img.generation (i : Img) : Nat := fld (i.w 1) 63 32
def Img.keySlot (i : Img) : Nat := fld (i.w 0) 1 0
def Img.secVersion (i : Img) : Nat := fld (i.w 1) 7 0

/-- The sections of a header: type, offset and length (R435). -/
def imgSections (h : List Word) : List (Nat × Nat × Nat) :=
  (List.range (fld (wordAt h 0) 15 8)).map fun i =>
    (fld (wordAt h (20 + 2 * i)) 63 56, fld (wordAt h (20 + 2 * i)) 31 0, fld (wordAt h (21 + 2 * i)) 31 0)

def sectionOf (h : List Word) (ty : Nat) : Option (Nat × Nat) := ((imgSections h).find? (·.1 == ty)).map (·.2)

/-- Bytes of a section; none where the copy has no such section. -/
def sectionBytes (s : State) (base : Nat) (h : List Word) (ty : Nat) : List Byte :=
  match sectionOf h ty with | some (o, n) => norRead s (base + o) n | none => []

/-- Pair up words. -/
def pairUp : List Word → List (Word × Word)
  | a :: b :: l => (a, b) :: pairUp l
  | _ => []

def nat32s : Nat → List Byte → List Nat
  | 0, _ => []
  | n + 1, bs => natOfBytes (bs.take 4) :: nat32s n (bs.drop 4)

def imgOf (s : State) (base : Nat) : Img :=
  let h := wordsOfBytes 512 (norRead s base 4096)
  let rb := sectionBytes s base h 1
  let cb := sectionBytes s base h 2
  let pb := sectionBytes s base h 5
  { base := base, hdr := h, regs := pairUp (wordsOfBytes (rb.length / 8) rb), carve := nat32s (cb.length / 4) cb
    pins := nat32s (pb.length / 4) pb }

/-- Check 1: magic, format, no reserved field set in words 0-7. -/
def imgMagicOk (i : Img) : Bool :=
  decide (fld (i.w 0) 63 32 = 0x4F4C494D) && decide (fld (i.w 0) 31 16 = 1) && decide (fld (i.w 0) 7 2 = 0) &&
    decide (fld (i.w 1) 31 8 = 0) && decide (fld (i.w 2) 15 1 = 0) && ((List.range 5).all fun k => i.w (3 + k) == 0)

/-- Check 2: part and stepping. -/
def imgPartOk (i : Img) : Bool := decide (fld (i.w 2) 31 16 = 0x0480) && bitOf (i.w 2) 0

/-- A public key as a slot's fuses know it (R438, R487). -/
def keyOk (s : State) (slot : Nat) (pub : List Byte) : Bool :=
  !s.cfg.fuses.revoked.getLsbD slot &&
    (match s.cfg.fuses.digests[slot]? with | some d => decide (natOfBE (sha384 pub) = d.toNat) | none => false)

def imgPub (s : State) (i : Img) : List Byte := norRead s (i.base + 64) 96

/-- Check 5: the signature ends the image and covers everything before it; an image outside the limits of its length has none. -/
def imgSigned (s : State) (i : Img) : Bool :=
  decide (4096 + 96 ≤ i.length) && decide (i.length ≤ 32505856) &&
    ecdsaOk (imgPub s i) (norRead s i.base (i.length - 96)) (norRead s (i.base + i.length - 96) 96)

/-- Do two spans meet? -/
def meets (a b : Nat × Nat) : Bool := decide (a.1 < b.1 + b.2) && decide (b.1 < a.1 + a.2)

def apart : List (Nat × Nat) → Bool
  | [] => true
  | a :: l => (l.all fun b => !meets a b) && apart l

/-- Check 6: the section table (R435, R436). -/
def imgTableOk (i : Img) : Bool :=
  let n := fld (i.w 0) 15 8
  let ss := imgSections i.hdr
  let count (t : Nat) : Nat := (ss.filter (·.1 == t)).length
  decide (1 ≤ n ∧ n ≤ 64) &&
    ((List.range n).all fun k => decide (fld (i.w (20 + 2 * k)) 55 32 = 0) && decide (fld (i.w (21 + 2 * k)) 63 32 = 0)) &&
    ((i.hdr.drop (20 + 2 * n)).all (· == 0)) &&
    (ss.all fun x => decide (1 ≤ x.1 ∧ x.1 ≤ 5) && decide (x.2.1 % 4096 = 0) && decide (4096 ≤ x.2.1) &&
      decide (x.2.1 + x.2.2 + 96 ≤ i.length)) &&
    count 1 == 1 && count 2 == 1 && count 3 == 1 && count 4 == 1 && decide (count 5 ≤ 1) && apart (ss.map (·.2))

/-- Completion registers hold nothing that the image sets. -/
def doneOffs : List Nat := [Off.rst + 0x20, Off.xlt + 0x88, Off.xlt + 0x118, Off.xlt + 0x228, Off.nmc + 0x10018, Off.nmc + 0x10120,
  Off.gln + 0x88, Off.gln + 0x188, Off.prn + 0x88, Off.flt + 0x50, Off.ras + 0x18]

/-- A register of type RW or RWI (R437; DEDUCED, log 100). -/
def imageable (off : Nat) : Bool :=
  match regRow off with
  | some r => (r.ty == .rw || r.ty == .rwi) && !r.staged && !doneOffs.contains off && off != Off.rst
  | none => false

def isAgentOff (off : Nat) : Bool := decide (Off.agent 0 ≤ off ∧ off ≤ Off.agent 63)

/-- A value that carries a reserved encoding, or lies outside the stated range of its register (R6). -/
def badValue (off : Nat) (v : Word) : Bool :=
  match regRow off with
  | some r =>
    let x := (v &&& r.mask).toNat
    decide (x < r.lo) || decide (r.hi < x) || (isAgentOff off && bitOf v 61)
  | none => true

/-- The value of a register after a write: reserved and read-only bits keep theirs; writing an agent slot clears `lost` (Table 06-1). -/
def written (old : Word) (off : Nat) (v : Word) : Word :=
  match regRow off with
  | some r => ((old &&& ~~~r.mask) ||| (v &&& r.mask)) &&& (if isAgentOff off then ~~~(put 62 1) else BitVec.allOnes 64)
  | none => old

def entryOff (e : Word × Word) : Nat := fld e.1 24 0

def entryOk (e : Word × Word) : Bool :=
  decide (fld e.1 63 25 = 0) && decide (entryOff e % 8 = 0) && imageable (entryOff e) && !badValue (entryOff e) e.2

/-- The value a register will hold once the entries are applied: a register that none names keeps its value at a warm reset where it
is RW, and has that of R493 otherwise (R437). -/
def imgVal (s : State) (cold : Bool) (es : List (Word × Word)) (off : Nat) : Word :=
  match es.reverse.find? (fun e => entryOff e == off) with
  | some e => written (regDefault off) off e.2
  | none =>
    match regRow off with
    | some r => if r.ty == .rw && !cold then regGet s off else r.dflt
    | none => 0

/-- HP_LD_MAP gives every link of HP_BIFURC 1-16 LDs, summing to at most 16 (R333). -/
def ldMapOk (bifurc ldMap : Word) : Bool :=
  let n := [1, 2, 4, 3].getD (fld bifurc 1 0) 1
  let ls := (List.range n).map fun i => fld ldMap (5 * i + 4) (5 * i)
  (ls.all fun x => decide (1 ≤ x ∧ x ≤ 16)) && decide (ls.sum ≤ 16)

def noTwice : List Nat → Bool
  | [] => true
  | a :: l => !l.contains a && noTwice l

/-- Check 7: the REGS entries (R437), HOME_STAKE (R135), the agent slots (R120), the LDs (R333), the bounds of Table 20-2, and
those of TIER_PIN_LIMIT and TIER_WARM_THRESH (R49, R50). -/
def imgRegsOk (s : State) (cold : Bool) (i : Img) : Bool :=
  let v := imgVal s cold i.regs
  let agents := ((List.range 64).map fun n => v (Off.agent n)).filter (bitOf · 63)
  (match sectionOf i.hdr 1 with | some (_, n) => decide (n % 16 = 0) | none => false) && i.regs.all entryOk &&
    decide ((v (Off.home + 8)).toNat + 500 ≤ 100 * (v Off.home).toNat) && noTwice (agents.map fun w => fld w 15 0) &&
    ((List.range 4).all fun p => ldMapOk (v (Off.hp p)) (v (Off.hp p + 8))) &&
    decide ((v (Off.rst + 0x40)).toNat ≤ (v (Off.rst + 0x48)).toNat) &&
    decide (4 * (v (Off.tier + 8)).toNat ≤ 3 * i.carve.getD 0 0) &&
    decide ((v (Off.tier + 0x20)).toNat < (v (Off.tier + 0x18)).toNat)

/-- Check 8: the carve-out (R37). -/
def carveOk (l : List Nat) : Bool :=
  match l with
  | [t, r, d, m, x] => decide (256 ≤ t ∧ t ≤ 344) && decide (r ≤ 96) && decide (6 ≤ d ∧ d ≤ 8) && decide (m = 20) &&
      decide (2 ≤ x ∧ x ≤ 8) && decide (t + r + d + m + x = 384)
  | _ => false

/-- The first check of R439 that a copy fails; 0 where it is valid, 0x11 where its header is erased. -/
def checkCopy (s : State) (cold : Bool) (i : Img) : Nat :=
  if i.hdr.all (· == BitVec.allOnes 64) then 0x11
  else if !imgMagicOk i then 1
  else if !imgPartOk i then 2
  else if !keyOk s i.keySlot (imgPub s i) then 3
  else if i.secVersion < s.cfg.fuses.svn then 4
  else if !imgSigned s i then 5
  else if !imgTableOk i then 6
  else if !imgRegsOk s cold i then 7
  else if !carveOk i.carve then 8
  else 0

/-- The copy in use: valid, not passed over for its attempts, of the later generation (R440); with the results of both copies. -/
def chooseCopy (s : State) (cold readable : Bool) : Nat × Nat × Option (Bool × Img) :=
  let a := imgOf s (copyBase false)
  let b := imgOf s (copyBase true)
  let ra := if readable then checkCopy s cold a else 1
  let rb := if readable then checkCopy s cold b else 1
  let (ca, cb) := bootCounts s
  let skipA := ra == 0 && rb == 0 && decide (attemptMax s ≤ ca) && decide (cb < attemptMax s)
  let skipB := ra == 0 && rb == 0 && decide (attemptMax s ≤ cb) && decide (ca < attemptMax s)
  let useA := ra == 0 && !skipA
  let useB := rb == 0 && !skipB
  let pick := if useA && useB then (if seqLt 32 a.generation b.generation then some (true, b) else some (false, a))
    else if useA then some (false, a) else if useB then some (true, b) else none
  (if skipA then 0x10 else ra, if skipB then 0x10 else rb, pick)

/-! ### What the chosen copy sets (R432, R437, R441, R493) -/

/-- Registers at step 4: at a cold start every one returns to the value of R493, at a warm one the RWI ones do; then the entries, in
order. -/
def applyRegs (cold : Bool) (es : List (Word × Word)) (s : State) : State :=
  let keep (e : Nat × Word) : Bool := !cold &&
    (decide (2 ^ 25 ≤ e.1) || match regRow e.1 with | some r => r.ty != .rwi | none => false)
  let s := s.modRegs fun r => { r with vals := r.vals.filter keep }
  let s := es.foldl (fun s e => regSet (entryOff e) (written (regGet s (entryOff e)) (entryOff e) e.2) s) s
  s.modCfg fun c => { c with entries := es.map fun e => (entryOff e, e.2) }

/-- Group codes of Table 21-1. -/
def groupKnown (g : Nat) : Bool :=
  decide (0x100 ≤ g ∧ g ≤ 0x117) || decide (0x200 ≤ g ∧ g ≤ 0x203) || decide (0x300 ≤ g ∧ g ≤ 0x38F) ||
    decide (0x40F ≤ g ∧ g ≤ 0x417) || decide (0x500 ≤ g ∧ g ≤ 0x507)

/-- Groups of interfaces that the image enables: a fabric link by FAB_LINK_CTL, TRELLIS_OUT by none; every other is always there. -/
def groupEnabled (s : State) (g : Nat) : Bool :=
  if 0x100 ≤ g ∧ g ≤ 0x117 then bitOf (regGet s (Off.fab + 0x100 * (g - 0x100) + 8)) 0
  else if 0x40F ≤ g ∧ g ≤ 0x417 then bitOf (regGet s (Off.fab + 0x100 * (g - 0x400) + 8)) 0
  else g != 0x502

/-- A PINS entry (Table 19-9, R460). -/
def applyPin (s : State) (e : Nat) : State :=
  let g := e / 65536
  let c := BitVec.ofNat 3 e
  if !groupKnown g || groupEnabled s g || decide (6 ≤ c.toNat) then rejected 0 s
  else s.modPins fun p => { p with groupCodes := (p.groupCodes.filter (·.1 != g)) ++ [(g, c)] }

/-- The chosen copy takes effect at step 4. -/
def applyImage (cold : Bool) (copyB : Bool) (i : Img) (s : State) : State :=
  let (ca, cb) := bootCounts s
  let s := if copyB then writeBoot ca (cb + 1) s else writeBoot (ca + 1) cb s
  let s := s.modCfg fun c => { c with
    state := 1, copyB := copyB, generation := BitVec.ofNat 32 i.generation, secVersion := i.secVersion, keySlot := i.keySlot
    firmware := true }
  let s := applyRegs cold i.regs s
  let s := if cold then s.modTier fun t => { t with carve := i.carve }
    else if s.tier.carve = i.carve then s else mismatch Off.tier s
  let s := i.pins.foldl applyPin (s.modPins fun p => { p with groupCodes := [] })
  (s.modPins fun p => { p with phase := .interface }).modSys fun y => { y with watchArmed := true, marks := y.marks.filter (·.1 != .watchdog) ++ [(.watchdog, y.time)] }

/-! ### NOR commands (R442, Table 22-7) -/

def norAddr (s : State) : Nat := fld (regGet s (Off.cfg + 8)) 31 0

/-- In HELD only MCTP reaches the NOR. -/
def norAllowed (s : State) (wr : Writer) : Bool :=
  if s.sys.phase = .heldFail then decide (wr = .mctp) else allowed s wr none [.f, .c]

def norEnd (st : Status) (s : State) : State := s.modCfg fun c => { c with norStatus := st }

/-- CFG_NOR_CMD: refused while one runs; nothing at or above 64 MiB; no write of the boot directory, and no access of the board's own
MiB (log 20). -/
def norCommand (wr : Writer) (op : BitVec 8) (act : Nat → State → State) (s : State) : State :=
  let a := norAddr s
  if !norAllowed s wr || s.cfg.norBusy.isSome then rejected (Off.cfg + 0x18) s
  else if 0x4000000 ≤ a then norEnd .malformed s
  else if (op ≠ 1 ∧ a < 0x10000) ∨ 0x3F00000 ≤ a then norEnd .denied s
  else act a s

def norAdvance (s : State) : State := regSet (Off.cfg + 8) (BitVec.ofNat 64 ((norAddr s + 8) % 2 ^ 32)) s

/-- NOR_READ (R442). -/
def execNorRead (wr : Writer) (s : State) :=
  complete (norCommand wr 1 fun a s => norEnd .ok (norAdvance (regSet (Off.cfg + 0x10) (wordOfBytes (norRead s a 8)) s))) s

/-- NOR_PROGRAM (R442): programming clears bits and sets none (log 18). -/
def execNorProgram (wr : Writer) (s : State) :=
  complete (norCommand wr 2 fun a s =>
    let v := wordOfBytes (norRead s a 8) &&& regGet s (Off.cfg + 0x10)
    norAdvance ((norSet a (bytesOfWord v) s).modCfg fun c => { c with norBusy := some (2, a) })) s

/-- NOR_ERASE of the 64 KiB sector (R442). -/
def execNorErase (wr : Writer) (s : State) :=
  complete (norCommand wr 3 fun a s => s.modCfg fun c => { c with
    nor := Tab.drop (fun x => x / 65536 == a / 65536) c.nor, norBusy := some (3, a) }) s

/-- NOR_COMMAND_COMPLETE (R442). -/
def execNorCommandComplete (s : State) :=
  complete (fun s => match s.cfg.norBusy with
    | none => s
    | some _ => norEnd .ok (s.modCfg fun c => { c with norBusy := none })) s

/-- CFG_BOOT_CLEAR (R442). -/
def execCfgBootClear (wr : Writer) (s : State) :=
  complete (fun s => if norAllowed s wr then writeBoot 0 0 s else rejected (Off.cfg + 0x20) s) s

/-- CFG_SVN_COMMIT (R438): class F, after step 10; fuses are blown up to the running image's sec_version. -/
def execCfgSvnCommit (wr : Writer) (s : State) :=
  complete (fun s =>
    if allowed s wr none [.f] && s.sys.phase == .service then
      s.modCfg fun c => { c with fuses := { c.fuses with svn := Nat.max c.fuses.svn c.secVersion } }
    else rejected (Off.cfg + 0x28) s) s

/-- CFG_KEY_REVOKE (R438): never the slot of the running image. -/
def execCfgKeyRevoke (wr : Writer) (v : Word) (s : State) :=
  complete (fun s =>
    let k := fld v 1 0
    if allowed s wr none [.f] && s.sys.phase == .service && k != s.cfg.keySlot then
      s.modCfg fun c => { c with fuses := { c.fuses with revoked := c.fuses.revoked ||| BitVec.ofNat 4 (2 ^ k) } }
    else rejected (Off.cfg + 0x30) s) s

end Sys2Proof.Machine
end

