-- ==== Sys2Proof/Machine/Debug.lean ====
section
/-! DEFINITION. Trellis: the lifecycle, the signed unlock, the selectors, the injections (R486-R489), and the telemetry
snapshot (R491, R492). A write answers the status that a CONTROL request making it is answered with, none when it is done. -/

namespace Sys2Proof.Machine

open Sys2Proof

/-! ### Lifecycle and scopes (R486, R487) -/

def lifecycle (s : State) : Nat := s.cfg.fuses.lifecycle.toNat

/-- Is scope 0 observe, 1 inject or 2 extest open? All are in DEVELOPMENT, none in SEALED. -/
def scopeOpen (s : State) (k : Nat) : Bool :=
  match lifecycle s with
  | 0 => true
  | 1 => s.trl.scopes.getLsbD k
  | _ => false

/-- A Trellis write: a class that may not make it, or a SEALED part, ignores it (R476, R486). -/
def trlWrite (wr : Writer) (cs : List WCls) (off : Nat) (f : State → State) (s : State) : Option Status × State :=
  if !allowed s wr none cs ∨ lifecycle s = 2 then (some .denied, rejected off s) else (none, f s)

def tokenWord (s : State) (i : Nat) : Word := regGet s (Off.trl + 0x100 + 8 * i)

/-- The checks of an unlock in their order; the first failure gives the status (R487). -/
def unlockStatus (s : State) : Status :=
  let w0 := tokenWord s 0
  let ws := (List.range 28).map (tokenWord s)
  let pub := bytesOfWords ((ws.drop 4).take 12)
  if lifecycle s ≠ 1 then .busy
  else if fld w0 63 48 ≠ 1 ∨ fld w0 47 35 ≠ 0 ∨ fld w0 31 2 ≠ 0 then .malformed
  else if !keyOk s (fld w0 1 0) pub then .denied
  else if tokenWord s 1 ≠ s.trl.challenge ∨ tokenWord s 2 ≠ s.cfg.fuses.serial then .denied
  else if (tokenWord s 3).toNat ≤ now s then .denied
  else if !ecdsaOk pub (bytesOfWords (ws.take 16)) (bytesOfWords (ws.drop 16)) then .checkFail
  else .ok

/-- TRL_UNLOCK_CMD (R487): the attempt is refused after 8 consecutive failures; every attempt renews the challenge. -/
def unlock (v : Word) (s : State) : State :=
  if !bitOf v 0 then s
  else if 8 ≤ s.trl.fails then s.modTrl fun t => { t with status := .busy }
  else
    let st := unlockStatus s
    let w := tokenWord s 0
    let e := (tokenWord s 3).toNat
    s.draw.modTrl fun t =>
      if st = .ok then
        { t with challenge := Config.freeWord s.free, status := st, fails := 0, scopes := BitVec.ofNat 3 (fld w 34 32), expiry := e }
      else { t with challenge := Config.freeWord s.free, status := st, fails := t.fails + 1 }

def unlockWrite (wr : Writer) (v : Word) : State → Option Status × State := trlWrite wr [.f, .m] (Off.trl + 0x200) (unlock v)

/-- TRL_UNLOCK_CMD (R487). -/
def execTrlUnlockCmd (wr : Writer) (v : Word) (s : State) := complete (fun s => (unlockWrite wr v s).2) s

def closeScopes (s : State) : State := s.modTrl fun t => { t with scopes := 0, expiry := 0 }

/-- UNLOCK_EXPIRE (R487). -/
def execUnlockExpire (s : State) := complete (fun s => if s.trl.scopes = 0 then s else closeScopes (reach s.trl.expiry s)) s

def lockWrite (wr : Writer) (v : Word) : State → Option Status × State :=
  trlWrite wr [.f, .m] (Off.trl + 0x208) (onlyIf (bitOf v 0) closeScopes)

/-- TRL_LOCK (R487). -/
def execTrlLock (wr : Writer) (v : Word) (s : State) := complete (fun s => (lockWrite wr v s).2) s

/-- TRL_SEAL (R486): the key value blows SEALED for good; any other value is ignored. -/
def sealWrite (wr : Writer) (v : Word) : State → Option Status × State :=
  trlWrite wr [.f] (Off.trl + 8) fun s =>
    if v = 0x5345414C then closeScopes (s.modCfg fun c => { c with fuses := { c.fuses with lifecycle := 2 } }) else rejected (Off.trl + 8) s

def execTrlSeal (wr : Writer) (v : Word) (s : State) := complete (fun s => (sealWrite wr v s).2) s

/-- TRL_SEL (R488): enabling a selector while observe is closed is ignored. -/
def selWrite (wr : Writer) (i : Nat) (v : Word) : State → Option Status × State :=
  let off := Off.trl + 0x300 + 8 * i
  trlWrite wr [.f, .m] off fun s =>
    if bitOf v 63 && !scopeOpen s 0 then rejected off s else regSet off (v &&& 0x8000000000FFFFFF) s

def execTrlSel (wr : Writer) (i : Fin 16) (v : Word) (s : State) := complete (fun s => (selWrite wr i.val v s).2) s

/-! ### Injections (R489, Table 23-7) -/

/-- Every record that an injection causes carries detail3[62]. -/
def markInjected (s t : State) : State :=
  let old (e : ErrRec) : Bool := s.ras.log.any fun a => a.seq == e.seq
  let mark (e : ErrRec) : ErrRec := if old e then e else { e with detail3 := e.detail3 ||| put 62 1 }
  t.modRas fun r => { r with log := r.log.map mark }

def injectDone (st : Status) (s : State) : State := s.modTrl fun t => { t with injectStatus := st }

def injectTarget (s : State) : Word := regGet s (Off.trl + 0x408)

/-- A GSA of an ASSIGNED or otherwise present extent served here. -/
def injectHere (s : State) (g : Word) : Bool :=
  fdnOf g == servedFdn s && decide ((extDesc s (extOf (addr s g))).state ≠ .free)

/-- Injection 0x01: the line is poisoned (R389). -/
def injectPoison (s : State) : State :=
  let g := injectTarget s
  if injectHere s g then
    let l := lineOf (addr s g)
    injectDone .ok (pump (markInjected s (mirrorPoison l (poisonLine l 0 s))))
  else injectDone .noExtent s

/-- Instances of the block with a block code of Table 17-1, zero where there is no such block. -/
def blockInstances (code : Nat) : Nat :=
  match code with
  | 0x20 => 18
  | 0x01 | 0x02 | 0x14 | 0x18 | 0x32 | 0x3C | 0x40 | 0x44 | 0x48 | 0x4C => 1
  | 0x04 | 0x38 => 4
  | 0x08 => 24
  | 0x10 => 32
  | 0x1C => 16
  | 0x34 => 8
  | _ => 0

/-- A corrected error on an SRAM row (R399): at RAS_SRAM_ROW_CE the row is remapped and the crossing is recorded and posted. -/
def sramError (code inst : Nat) (s : State) : State :=
  let k := code * 2 ^ 24 + inst * 2 ^ 16
  let e : ErrRec := { cls := 3, sev := 0, code := 2, block := BitVec.ofNat 8 code, inst := BitVec.ofNat 8 inst }
  let s := raise e s
  let l := ceNote s (Tab.get [] s.ras.rowCe k)
  if (regGet s (Off.ras + 0x118)).toNat ≤ l.length then
    crossed (Off.ras + 0x118) (raise { e with sev := 2, code := 0x0C } (s.modRas fun r => { r with rowCe := Tab.put [] k [] r.rowCe }))
  else s.modRas fun r => { r with rowCe := Tab.put [] k l r.rowCe }

/-- Injection 0x02 (R399). -/
def injectSram (s : State) : State :=
  let g := injectTarget s
  let code := fld g 23 16
  let inst := fld g 15 8
  if inst < blockInstances code then injectDone .ok (markInjected s (sramError code inst s)) else injectDone .noExtent s

/-- Injection 0x03: every job of the logical core on the physical core restarts under cause 0x01 (R182). -/
def injectTile (s : State) : State :=
  let p := fld (injectTarget s) 4 0
  if 18 ≤ p then injectDone .noExtent s
  else
    match (List.range 16).find? fun c => physOf s c == p with
    | none => injectDone .ok s
    | some c =>
      let core := Fin.ofNat 16 c
      let ks := (s.nmc.jobs.filter fun j => j.1 / 8 == c).map fun j => Fin.ofNat 8 j.1
      injectDone .ok (markInjected s (pump (ks.foldl (fun t x => restartJob core x 1 .internal 0 t) s)))

/-- Injection 0x04: the next snoop response of an agent slot is withheld (R139, R140). -/
def injectSnoop (s : State) : State :=
  let n := Fin.ofNat 64 (fld (injectTarget s) 5 0)
  if agentValid s n.val then
    injectDone .ok (s.modCoh fun c => { c with withheld := c.withheld.filter (· != n) ++ [n] })
  else injectDone .noExtent s

/-- Injection 0x05: the flash pages of a mapping unit cannot be read (R59). -/
def injectFlash (s : State) : State :=
  let g := injectTarget s
  let m := muOf (addr s g)
  if injectHere s g && (mapOf s m).mapped then
    let fs := (List.range 4).map (4 * m + ·)
    injectDone .ok (s.modFlash fun f => { f with
      unreadable := f.unreadable.filter (fun x => !fs.contains x) ++ fs
      injected := f.injected.filter (fun x => !fs.contains x) ++ fs })
  else injectDone .noExtent s

/-- TRL_INJECT of one kind; with inject closed it is ignored. -/
def injectWrite (wr : Writer) (f : State → State) : State → Option Status × State :=
  trlWrite wr [.f, .m] (Off.trl + 0x400) fun s => if scopeOpen s 1 then f s else rejected (Off.trl + 0x400) s

/-- The injection of a value written to TRL_INJECT; a kind that Table 23-7 does not have is ignored. -/
def injectKind (v : Word) (s : State) : State :=
  match fld v 63 56 with
  | 1 => injectPoison s
  | 2 => injectSram s
  | 3 => injectTile s
  | 4 => injectSnoop s
  | 5 => injectFlash s
  | _ => rejected (Off.trl + 0x400) s

def execInjectPoison (wr : Writer) (s : State) := complete (fun s => (injectWrite wr injectPoison s).2) s
def execInjectSramCe (wr : Writer) (s : State) := complete (fun s => (injectWrite wr injectSram s).2) s
def execInjectTileStore (wr : Writer) (s : State) := complete (fun s => (injectWrite wr injectTile s).2) s
def execInjectSnoopWithhold (wr : Writer) (s : State) := complete (fun s => (injectWrite wr injectSnoop s).2) s
def execInjectFlashRead (wr : Writer) (s : State) := complete (fun s => (injectWrite wr injectFlash s).2) s

/-- EXTEST (R490): it drives the balls while its scope is open and the device is in reset or HELD; otherwise it is BYPASS. -/
def driveBalls (balls : List (BitVec 16 × Bool)) (s : State) : State :=
  if scopeOpen s 2 && (!s.sys.resetN || s.sys.phase == .heldFail) then s.modPins fun p => { p with extest := balls } else s

def execExtest (balls : List (BitVec 16 × Bool)) (s : State) := complete (driveBalls balls) s

/-! ### Telemetry (R491, R492) -/

/-- The value of a live counter (Table 23-8). -/
def telLive (s : State) (off : Nat) : Word :=
  let temp (i : Nat) : Nat := s.sys.temps.getD i 0
  if off = 0x1000 then BitVec.ofNat 64 (now s)
  else if off = 0x1008 then put 16 (s.sys.watts % 65536) ||| put 0 (s.sys.readMv % 65536)
  else if off = 0x1010 then put 16 (temp 0 % 256) ||| put 8 (temp 1 % 256) ||| put 0 (temp 2 % 256)
  else if 0x2000 ≤ off then Tab.get 0 s.tel.margin ((off - 0x2000) / 8)
  else BitVec.ofNat 64 (Tab.get 0 s.tel.live off)

/-- Offsets of the live counters that hold anything but zero. -/
def telOffs (s : State) : List Nat :=
  [0x1000, 0x1008, 0x1010] ++ s.tel.live.map (·.1) ++ s.tel.margin.map fun x => 0x2000 + 8 * x.1

/-- The snapshot: every live counter and RAS_CNT at one instant (R492). -/
def snapBank (s : State) : List (Nat × Word) :=
  let b := (telOffs s).foldl (fun m o => Tab.put 0 (o + 0x10000) (telLive s o) m) []
  s.ras.cnt.foldl (fun m c => Tab.put 0 (0x1A000 + 8 * c.1) (BitVec.ofNat 64 c.2) m) b

/-- TEL_SNAP (R492): a write of 1 while no copy runs; a write while one runs is ignored. -/
def snapWrite (wr : Writer) (v : Word) (s : State) : Option Status × State :=
  if !allowed s wr none [.a, .f, .c] then (some .denied, rejected Off.tel s)
  else if v = 1 ∧ !s.tel.busy then (none, s.modTel fun t => { t with bank := snapBank s, busy := true })
  else (none, s)

def execTelSnap (wr : Writer) (v : Word) (s : State) := complete (fun s => (snapWrite wr v s).2) s

/-- SNAPSHOT_COMPLETE (R492). -/
def execSnapshotComplete (s : State) :=
  complete (fun s => if s.tel.busy then s.modTel fun t => { t with busy := false, seq := t.seq + 1 } else s) s

end Sys2Proof.Machine
end

