-- ==== Sys2Proof/Machine/Reset.lean ====
section
/-! DEFINITION. Resets and bring-up (R423-R432), power loss (R78-R80), replay and inventory (R53, R63, R64, R82-R86, R147, R148, R441),
and the reset of one block (R431). -/

namespace Sys2Proof.Machine

open Sys2Proof

/-! ### Hold-up (R80) -/

/-- A POWER record. -/
def powerRec (code : BitVec 8) (sev : BitVec 2) (s : State) : State :=
  raise { cls := 0x0D, sev := sev, code := code, block := 0x01 } s

/-- The device distrusts hold-up; in service the ring is drained at first priority. -/
def distrust (s : State) : State :=
  if s.jrn.distrusted then s
  else
    let s := postDev 0x1B 0 (powerRec 0x0C 2 (s.modJrn fun j => { j with distrusted := true }))
    if s.sys.phase = .service then
      startGroup (if drainStopped s then s else s.modJrn fun j => { j with segs := j.segs.map fun g => { g with state := .programming } })
    else s

/-- PWRFAIL_N changes level: more than 8 changes in one second make hold-up distrusted (R80). -/
def levelChange (l : BallLevel) (s : State) : State :=
  let cs := (s.sys.changes.filter fun t => decide (now s < t + 1000000000)) ++ [now s]
  let s := s.modSys fun y => { y with pwrfail := l, changes := cs }
  if 8 < cs.length then distrust s else s

/-! ### What a cold start loses (Table 19-1, R79, R82, R382, R424, R437) -/

/-- Records of the ring that are not programmed are lost: this home's own, and the mirrors kept for others. -/
def loseRing (s : State) : State :=
  let lost := s.jrn.ring.filter fun x => !x.programmed
  let gone (m : Bool) (n : Nat) : Bool := lost.any fun x => x.rc.mirrored == m && x.rc.jsn == n
  s.modJrn fun j => { j with
    ring := [], segs := []
    mirrors := j.mirrors.filter fun m => !lost.any fun x => x.rc.mirrored && x.home == m.home && x.rc.jsn == m.rc.jsn
    mirrored := j.mirrored.filter fun m => !gone false m.2.jsn
    unconf := j.unconf.filter fun u => !gone false u.jsn }

/-- HBM is lost: tier frames, the resident set and the directory (R59, R148). -/
def loseHbm (s : State) : State :=
  let s := s.modTier fun t => { carve := t.carve, retired := t.retired }
  let s := s.modCoh fun c => { c with dir := [], cache := [], backing := [] }
  s.modNmc fun n => { n with rs := [], rsMem := [] }

/-- The start after a cold reset or a thermal trip. The error log is that of the flush area, or empty. -/
def coldStart (kind : ResetKind) (s : State) : State :=
  let trusted := !s.jrn.distrusted && !(s.jrn.flushHdr.any flushSound) && s.sys.phase != .bringUp
  let s := loseHbm (loseRing s)
  let s := s.modSys fun y => { y with
    time := 0, kind := kind, bits := if kind = .cold then 1 else y.bits ||| kindBit kind
    attempts := if kind = .cold then 0 else y.attempts, fallAt := none, changes := [], flushOpen := trusted, hbmLost := false
    drainFailed := false, temps := if kind = .cold then [0, 0, 0] else y.temps, heat := [0, 0, 0], thermalMoved := 0, capMoved := 0
    lowered := 0, resetRise := 0, idleSince := 0, marks := [] }
  let s := s.modExt fun x => { trim := x.trim }
  let s := s.modCoh fun c => { c with granules := [] }
  let s := s.modNmc fun n => { n with sqHead := [], sqTail := [], cqTail := [], pairIid := [], ledger := [] }
  let s := s.modXlt fun _ => {}
  let s := s.modJrn fun j => { j with distrusted := j.distrusted && kind != .cold, keptBitmap := [], fetches := [] }
  let s := s.modJrn fun j => { j with
    live := j.live.map (fun e => (0, e.2)), unconf := j.unconf.map (fun u => { u with resendAt := 0 }) }
  let s := s.modFlash fun f => { f with blockCe := [] }
  let s := s.modFab fun b => { b with timeSet := false, redirect := [], unsyncPosted := false }
  let (l, h, t) : List ErrRec × BitVec 32 × BitVec 32 := match s.ras.saved with | some x => x | none => ([], 0, 0)
  let s := s.modRas fun r => { log := l, head := h, tail := t, saved := r.saved }
  let s := s.modFlt fun f => { nextMseq := f.nextMseq, nextHandoff := f.nextHandoff, adopted := f.adopted, adoptions := f.adoptions }
  let s := if kind = .cold then
      (s.modPins fun p => { thermtrip := p.thermtrip }).modTel fun _ => {}
    else s
  let s := if kind = .cold then s.modTrl fun t => { t with fails := 0 } else s
  leaveReset (s.modRegs fun _ => {})

/-- COLD_RESET (R423): power-on, or a supply excursion. -/
def execColdReset (s : State) := complete (coldStart .cold) s

/-! ### Power loss (R78-R80, R429) -/

/-- Every ACTIVE link sends PDOWN, and every link enters low power. -/
def linksOff (s : State) : State :=
  (List.finRange 24).foldl (fun s n => if linkUpNow s n.val then emit (.link n 0x07 []) s else s) s |>.modFab fun b => { b with links := [] }

/-- Table 04-5 from its 200 ns row: what is performed is answered OK and everything else NY; PDOWN; the flush starts. -/
def powerDown (s : State) : State :=
  let s := answerAll .ny 0x3FF true (s.modSys fun y => { y with closed := true })
  let s := s.modHome fun h => { h with waiting := [] }
  linksOff (s.modSys fun y => { y with phase := .powerFail, stage := 0 })

/-- Bring-up or a reset in progress stops with nothing to flush: the next start is cold (R429). -/
def stopCold (s : State) : State :=
  s.modSys fun y => { y with phase := .flushed, kind := .cold, closed := true }

/-- PWRFAIL_N has stayed low for 200 ns (R78, R424, R429). -/
def confirmFall (s : State) : State :=
  match s.sys.fallAt with
  | none => s
  | some t =>
    let s := (reach (t + 200) s).modSys fun y => { y with fallAt := none }
    match s.sys.phase with
    | .powerFail | .flushed => s
    | .service | .departing => powerDown (s.modSys fun y => { y with kind := .cold })
    | .inReset | .heldFail => stopCold s
    | .bringUp =>
      if 5 ≤ s.sys.step ∧ s.jrn.ring.any (fun x => !x.programmed) then powerDown (s.modSys fun y => { y with kind := .cold })
      else stopCold s

/-- PWRFAIL_FALL (R78). -/
def execPwrfailFall (s : State) :=
  complete (fun s =>
    if s.sys.pwrfail = .low then s
    else (levelChange .low s).modSys fun y => { y with fallAt := some y.time }) s

/-- PWRFAIL_CONFIRM (R78). -/
def execPwrfailConfirm (s : State) := complete confirmFall s

/-- The device has flushed and power has not gone: it starts as from a cold reset (R79); after a thermal trip once the group that
tripped reads 15 degrees below its trip point (Table 19-1). -/
def cooled (s : State) : Bool := s.sys.heat.all (· != 3)

def startAgain (s : State) : State :=
  if s.sys.phase ≠ .flushed ∨ s.sys.pwrfail = .low then s
  else if s.sys.kind = .thermal then
    (if cooled s then coldStart .thermal (s.modPins fun p => { p with thermtrip := false }) else s)
  else coldStart .cold s

/-- PWRFAIL_RISE (R78, R79): a pulse shorter than 200 ns is counted. -/
def execPwrfailRise (s : State) :=
  complete (fun s =>
    if s.sys.pwrfail = .high then s
    else
      let s := levelChange .high s
      let s := match s.sys.fallAt with
        | none => s
        | some t =>
          if now s < t + 200 then countRC (Off.jrn + 0x50) 1 (s.modSys fun y => { y with fallAt := none }) else confirmFall s
      startAgain s) s

/-- The flush is complete: area, header, and the error log with them (Table 04-5, R382). A flush during bring-up adds to the area still
held (R424). -/
def flushDone (s : State) : State :=
  if s.sys.phase ≠ .powerFail then s
  else
    let recs := (s.jrn.ring.filter fun x => !x.programmed).map (·.rc)
    let ns := (recs.filter fun r => !r.mirrored).map (·.jsn)
    let old := match s.jrn.flushHdr with | some h => h.bitmap | none => []
    let hdr := sealFlush {
      ringSize := s.jrn.ringSize, oldest := ns.head?.getD s.jrn.nextJsn, newest := ns.getLast?.getD (s.jrn.nextJsn - 1)
      bitmap := (old ++ flushBitmap s).dedup }
    let s := s.modJrn fun j => { j with
      flushArea := (if j.flushHdr.isSome then j.flushArea else []) ++ recs, flushHdr := some hdr, ring := [], segs := [], areaErased := false }
    let s := s.modRas fun r => { r with saved := some (r.log, r.head, r.tail) }
    startAgain (s.modSys fun y => { y with phase := .flushed })

/-- FLUSH_COMPLETE (R78, R79). -/
def execFlushComplete (s : State) := complete flushDone s

/-! ### Other reset sources (R423, R424, R428) -/

/-- RESET_N_FALL (R423): a pulse shorter than 1 us is counted. -/
def execResetNFall (held : Bool) (s : State) :=
  complete (fun s =>
    if !held then countRC (Off.rst + 0x10) 1 s
    else requestWarm .pin (s.modSys fun y => { y with resetN := false })) s

/-- RESET_N_RISE (R425): a pin reset goes on 10 us later. -/
def execResetNRise (s : State) :=
  complete (fun s =>
    let s := s.modSys fun y => { y with resetN := true, resetRise := y.time }
    if s.sys.phase ≠ .inReset then s
    else
      let s := if s.sys.kind = .pin then reach (s.sys.resetRise + 10000) s else s
      s.modSys fun y => { y with phase := .bringUp, step := 0 }) s

/-- WARM_RESET_FABRIC (Table 22-7): class F, bit 0 set. -/
def execWarmResetFabric (wr : Writer) (v : Word) (s : State) :=
  complete (fun s =>
    if !allowed s wr none [.f] then rejected (Off.rst + 8) s
    else if bitOf v 0 then requestWarm .fabric s else s) s

/-- A THERMAL record of a sensor group: instance 0 core die, 1 I/O dies, 2 HBM stacks. -/
def thermalRec (sev : BitVec 2) (g : Nat) (s : State) : State :=
  raise { cls := 0x0E, sev := sev, code := 0x0C, block := 0x01, inst := BitVec.ofNat 8 g } s

/-- THERMAL_TRIP (Table 19-1, R424, R456, R460): the power-fail sequence from its 200 ns row; THERMTRIP_N is driven low. -/
def trip (g : Fin 3) (s : State) : State :=
  let s := thermalRec 2 g.val (s.modPins fun p => { p with thermtrip := true })
  let s := s.modSys fun y => { y with heat := y.heat.set g.val 3, bits := y.bits ||| kindBit .thermal }
  match s.sys.phase with
  | .powerFail | .flushed => s.modSys fun y => { y with bits := y.bits ||| mergedBit }
  | .service => powerDown (s.modSys fun y => { y with kind := .thermal })
  | .departing => powerDown (s.modSys fun y => { y with kind := .thermal, bits := y.bits ||| mergedBit })
  | .bringUp | .inReset | .heldFail =>
    let s := s.modSys fun y => { y with bits := y.bits ||| mergedBit }
    if s.jrn.ring.any (fun x => !x.programmed) then powerDown (s.modSys fun y => { y with kind := .thermal })
    else s.modSys fun y => { y with phase := .flushed, kind := .thermal, closed := true }

def execThermalTrip (group : Fin 3) (s : State) := complete (trip group) s

/-- SUPPLY_OUT_OF_LIMITS (R424, R428, R463): a cold reset once step 3 has completed; before that step 3 waits. A flush under way runs to
its end. -/
def execSupplyOutOfLimits (rail : Fin 8) (s : State) :=
  complete (fun s =>
    let s := raise { cls := 0x0D, sev := 2, code := 0x0C, block := 0x01, inst := BitVec.ofNat 8 rail.val } s
    if s.sys.phase = .bringUp ∧ s.sys.step < 3 then s
    else if s.sys.phase = .powerFail then s.modSys fun y => { y with bits := y.bits ||| kindBit .cold ||| mergedBit }
    else coldStart .cold s) s

/-! ### HELD and the steps (R426, R428, R430) -/

def enterHeld (s : State) : State :=
  ((failedAttempt s).modSys fun y => { y with phase := .heldFail }).modCfg fun c => { c with state := 2 }

def stepDone (n : Nat) (s : State) : State := s.modSys fun y => { y with step := n }

/-- A bring-up whose journal and directory start as after a loss of HBM (R82, R148, R425). -/
def replays (s : State) : Bool := coldKind s.sys.kind || s.sys.hbmLost || s.sys.drainFailed

/-- Step 1: fuses, the grafts they ask for, a new challenge (R192, R428, R487). -/
def stepFuses (ok : Bool) (s : State) : State :=
  if !ok then enterHeld (s.modPins fun p => { p with phase := .pad })
  else
    let bad := s.cfg.fuses.badCores
    let spares := (List.range 2).map fun i => if bad.contains (16 + i) then PhysState.failed else .spare
    let s := s.modNmc fun n => { n with lmap := List.range 16, phys := List.replicate 16 .inUse ++ spares }
    let s := (List.finRange 16).foldl (fun (s : State) (c : Fin 16) => if bad.contains c.val then graftCore c s else s) s
    stepDone 1 (s.draw.modTrl fun t => { t with challenge := Config.freeWord s.free })

/-- Step 2: the pads are tested and take their fuse state; a reserved code gives Hi-Z and a PIN record (R432, R467). -/
def stepPads (fs : List PinFinding) (s : State) : State :=
  let s := s.modPins fun p => { p with phase := .fuse, hiz := [], extest := [] }
  let s := (s.cfg.fuses.codes.filter fun c => decide (6 ≤ c.2.toNat)).foldl (fun s c => raise {
    cls := 0x0F, sev := 2, code := 0x05, block := 0x01, detail0 := BitVec.ofNat 32 (c.1 * 65536) } s) s
  stepDone 2 (fs.foldl (fun s f => pinFinding 0x01 f s) s)

def clkGroup : RefClk → Nat
  | .host p => 0x200 + p.val
  | .fabric _ | .timeBase => 0x506

/-- A reference clock is missing or out of its limits (R465): finding CLOCK. -/
def clockFinding (c : RefClk) (s : State) : State :=
  pinFinding 0x01 { finding := 0x0A, group := BitVec.ofNat 16 (clkGroup c) } (s.modSys fun y => { y with clocksLost := (y.clocksLost ++ [c]).dedup })

/-- FLT_CANARY_MIN (Table 18-12). -/
def canaryMin (s : State) : Nat := (regGet s (Off.flt + 0x78)).toNat

/-- A core whose canary slack is below FLT_CANARY_MIN is grafted (R192, R428). -/
def graftSlow (s : State) : State :=
  (List.finRange 16).foldl (fun (s : State) (c : Fin 16) =>
    let p := physOf s c.val
    if p < 18 ∧ s.nmc.canary.getD p 0 < canaryMin s then graftCore c s else s) s

/-- Step 3: rails, AVSBus, slack, clocks, and the level of PWRFAIL_N (R80, R428, R429, R465). -/
def stepRails (railsOk avsOk : Bool) (boardMv : Nat) (slack : List Nat) (lost : List RefClk) (s : State) : State :=
  let s := lost.foldl (fun s c => clockFinding c s) s
  if !railsOk ∨ lost.contains .timeBase then enterHeld s
  else
    let s := if avsOk then emit (.avs 30) s else powerRec 0x03 2 s
    if !avsOk ∧ (boardMv < 600 ∨ 850 < boardMv) then enterHeld s
    else
      let s := s.modNmc fun n => { n with canary := (List.range 18).map fun p => slack.getD p 0 }
      let s := graftSlow s
      stepDone 3 (if s.sys.pwrfail = .high then s else distrust s)

/-- Step 4: the image (R437-R441); hold-up that the image does not declare is distrusted (R80). -/
def stepImage (readable : Bool) (s : State) : State :=
  let cold := coldKind s.sys.kind
  let (ra, rb, pick) := chooseCopy s cold readable
  let s := s.modCfg fun c => { c with resultA := BitVec.ofNat 8 ra, resultB := BitVec.ofNat 8 rb }
  match pick with
  | none => enterHeld s
  | some (b, i) =>
    let s := applyImage cold b i s
    stepDone 4 (if bitOf (regGet s (Off.jrn + 0x40)) 0 then s else distrust s)

/-- Step 5: HBM is trained or resumed; a stack that left self-refresh makes it lost (R428). -/
def stepHbm (trained kept : Bool) (s : State) : State :=
  if !trained then enterHeld s
  else if coldKind s.sys.kind then stepDone 5 s
  else if kept && !s.sys.drainFailed then stepDone 5 s
  else
    let s := if s.sys.drainFailed then loseRing s else s
    stepDone 5 (loseHbm (s.modSys fun y => { y with hbmLost := true }))

/-! ### Step 6: inventory and replay -/

/-- The flash found, of the channels that are in use: `dies` counts no die of a channel with a lost ball (R468); ring, layout and extent limit (R53, R64, R70, R441,
Table 21-5). -/
def takeFlash (dies dieGiB : Nat) (bad : List (BitVec 16)) (s : State) : State :=
  let s := bad.foldl (fun s g => pinFinding 0x14 { finding := 5, group := g } s) s
  let balls := (s.pins.hiz.map (·.1)).filter fun g => decide (0x300 ≤ g.toNat ∧ g.toNat ≤ 0x37F)
  let s := s.modFlash fun f => { f with dies := dies, dieGiB := dieGiB, badChannels := (bad ++ balls).dedup }
  let s := s.modJrn fun j => { j with ringSize := Nat.min (96 * 2 ^ 20) (96 * 2 ^ 10 * dies) }
  let raw := dies * dieGiB
  let used := s.flash.base.exts.any fun e => decide (e.1 < 2 ^ 18) && e.2.state != .free
  let used := used || s.ext.table.any fun e => decide (e.1 < 2 ^ 18) && e.2.state != .free
  let new := ((regGet s (Off.jrn + 0x20)).toNat * raw / 262144, (regGet s (Off.tier + 0x30)).toNat, stripeRes s)
  let lay := if used then s.flash.layout.getD new else new
  let s := if lay = new then s else mismatch (Off.jrn + 0x20) s
  let s := s.modFlash fun f => { f with layout := some lay }
  let (j, op, sr) := lay
  s.modExt fun x => { x with limit := Nat.min (2 ^ 18) ((raw - j) * (100 - op) * (200 - sr) / 20000) }

/-- Segment of each live record, counted from the oldest (DEDUCED, log 76). -/
def liveSegs : Nat → List (Nat × JRec) → List (Nat × JRec)
  | _, [] => []
  | u, e :: l => (u / segUnits, e.2) :: liveSegs (u + recUnits e.2) l

/-- The tables as the flash copies and the replayed records give them (R83, R162): owner records have open set. -/
def loadCtl (c : CtlState) (s : State) : State :=
  let s := s.modExt fun x => { x with
    table := c.exts, regions := c.regions
    owners := mapOwners (fun _ => true) (fun o => { o with openW := true, inflight := 0 }) c.regions c.owners }
  let s := s.modJrn fun j => { j with lossEpoch := c.lossEpoch, marks := c.marks }
  let s := s.modFlash fun f => { f with keys := c.keys }
  let s := s.modNmc fun n => { n with ledger := c.resume }
  s.modFlt fun f => { f with handoffs := c.handoffs.map fun e => { e := e, mine := e.fromFdn == servedFdn s } }

/-- PAIRED extents with a buddy. -/
def pairedExts (s : State) : List (Nat × BitVec 16) :=
  (s.ext.table.filter fun e => decide (e.1 < 2 ^ 18) && e.2.state != .free && e.2.durability == .paired && e.2.buddyValid).map
    fun e => (e.1, e.2.buddy)

/-- Fetches for PAIRED extents whose records of a jsn range are lost (R497); `named` are the lines that readable headers name. -/
def askFetch (exts : List (Nat × BitVec 16)) (lo : Nat) (hi : Option Nat) (named : List Nat) (s : State) : State :=
  ((exts.map (·.2)).dedup).foldl (fun s b =>
    let es := (exts.filter (·.2 == b)).map (·.1)
    s.modJrn fun j => { j with fetches := j.fetches ++ [{
      buddy := b, lo := lo, hi := hi, exts := es, named := named.filter fun l => es.contains (extOfLine l) }] }) s

/-- A segment cannot be read (R85): its records are lost, mirrored ones among them. `s0` are its records and `bad` the jsns of those whose
header cannot be read either. -/
def segLost (s0 : List JRec) (bad : List Nat) (s : State) : State :=
  let s := s.modJrn fun j => { j with
    live := j.live.filter fun e => !s0.contains e.2
    mirrors := j.mirrors.filter fun m => !s0.any fun r => r.mirrored && r.jsn == m.rc.jsn && fdnOf r.gsa == m.home }
  let own := s0.filter fun r => !r.mirrored
  let lines := ((own.filter fun r => !bad.contains r.jsn).filterMap fun r => match r.body with
    | .data _ => some (lineOf (addr s r.gsa)) | .coded _ => some (lineOf (addr s r.gsa)) | _ => none).dedup
  let ps := (pairedExts s).filter fun e => !isFenced s e.2
  let fetched (l : Nat) : Bool := ps.any fun e => e.1 == extOfLine l
  let hidden := own.any fun r => bad.contains r.jsn
  let s := jrnRec s
  let ns := own.map (·.jsn)
  let s := match ns with
    | [] => s
    | n :: l =>
      askFetch (ps.filter fun e => hidden || lines.any fun l => extOfLine l == e.1) (l.foldl Nat.min n) (some (l.foldl Nat.max n)) lines s
  poisonLines (lines.filter fun l => !fetched l) s

/-- Replay (R82-R86, R497): after a completed flush, or a warm reset that found HBM lost; or with no valid flush header. -/
def replay (badSegs : List (Nat × List Nat)) (s : State) : State :=
  let cold := coldKind s.sys.kind || s.sys.drainFailed
  let flushed := s.jrn.flushHdr.any flushSound
  let header := flushed || !cold
  let bitmap := match s.jrn.flushHdr with | some h => (if flushed then h.bitmap ++ s.jrn.keptBitmap else s.jrn.keptBitmap).dedup | none => s.jrn.keptBitmap
  let segs := liveSegs 0 s.jrn.live
  let lost (g : Nat) : Bool := badSegs.any (·.1 == g)
  let recs := (segs.filter fun e => !lost e.1).map (·.2) ++ (if flushed then s.jrn.flushArea else [])
  let own := byJsn (replayable (recs.filter fun r => !r.mirrored))
  let s := if cold then loadCtl (own.foldl (fun c r => ctlApply s r c) s.flash.base) s else s
  let s := own.foldl (fun s r => replayRec r s) s
  let s := badSegs.foldl (fun s g => segLost ((segs.filter (·.1 == g.1)).map (·.2)) g.2 s) s
  let newest := own.foldl (fun m r => Nat.max m r.jsn) 0
  let s := s.modJrn fun j => { j with nextJsn := Nat.max j.nextJsn (newest + 1) }
  if header then
    if bitmap.isEmpty ∨ s.jrn.advanced then s else advanceLoss false bitmap (s.modJrn fun j => { j with advanced := true })
  else
    let s := askFetch (pairedExts s) (newest + 1) none [] s
    let s := if s.sys.flushOpen ∨ (s.sys.drainFailed ∧ !s.jrn.distrusted) then jrnRec s else s
    if s.jrn.advanced then s else advanceLoss true [] (s.modJrn fun j => { j with advanced := true })

/-- The coherent granules of the region tables, where the granule table was lost (R123). -/
def loadGranules (s : State) : State :=
  ((s.ext.table.filter fun e => e.2.state != .free).flatMap fun e => cohGranules s e.1).foldl (fun s k => setGranule k true s) s

/-- An extent command that a reset cut short goes on: an extent found REVOKING or RELEASING (R33, R34, log 21). -/
def resumeExt (s : State) : State :=
  match s.ext.table.find? (fun e => decide (e.1 < 2 ^ 18) && (e.2.state == .revoking || e.2.state == .releasing)) with
  | none => s
  | some e => s.modExt fun x => { x with run := some {
      op := if e.2.state = .releasing then .release else .revoke, ext := e.1, start := now s, draining := e.2.state == .revoking } }

/-- Every entry of every allocated granule is I, with the poison of its line (R122, R148). -/
def clearDir (s : State) : State :=
  let ks := s.coh.granules.map (·.2)
  ks.foldl (fun s k => (poisonedIn s k).foldl (fun s l => modDir l (fun e => { e with poison := true }) s) s)
    (s.modCoh fun c => { c with dir := [], cache := [], backing := [] })

/-- Step 7 begins (R145, R147, R148): a mode fence into tabled mode; after a loss every entry is I and HOME_RESET goes to the DFL slots;
otherwise HOME_RESUME does. DEDUCED, safe (log 41): the slots that are lost are sent it too and not awaited, for what they send is
dropped. -/
def beginDirectory (s : State) : State :=
  let dfl : List (Fin 64) := (List.finRange 64).filter fun n => agentValid s n.val && !agentCxl s n.val
  let s := passFence true s
  if replays s then
    let s := (beginTimer .rebuild (clearDir s)).modCoh fun c => { c with rebuild := dfl.filter fun n => !agentLost s n.val }
    dfl.foldl (fun s n => emit (.coh (agentIid s n) 0x2C 0 0 0 .ok 0 0) s) s
  else
    let s := (readBackDir s).modCoh fun c => { c with resumeUntil := some (now s + 10000000) }
    dfl.foldl (fun s n => emit (.coh (agentIid s n) 0x2D 0 0 0 .ok 0 0) s) s

/-- Step 6. -/
def stepInventory (dies dieGiB : Nat) (bad : List (BitVec 16)) (badSegs : List (Nat × List Nat)) (s : State) : State :=
  let s := takeFlash dies dieGiB bad s
  let s := if replays s then replay badSegs s else s
  let s := if replays s then loadGranules s else s
  let s := raiseDeadline s
  let s := resumeExt (s.modRas fun r => { r with comps := compsOf s })
  beginDirectory (stepDone 6 s)

/-! ### Step 10 -/

/-- Service opens: the flush area is retired, its records being in the flash journal (R424); the copy's attempt count is zero (R434). -/
def openService (s : State) : State :=
  let (ca, cb) := bootCounts s
  let s := if s.cfg.copyB then writeBoot ca 0 s else writeBoot 0 cb s
  let s := s.modJrn fun j => { j with
    live := j.live ++ (if j.flushHdr.any flushSound then j.flushArea.map fun r => (now s, r) else []), flushArea := [], flushHdr := none
    keptBitmap := [], advanced := false }
  let s := s.modRas fun r => { r with saved := none }
  (beginTimer .service s).modSys fun y => { y with
    phase := .service, step := 10, attempts := 0, closed := false, hbmLost := false, drainFailed := false, flushOpen := false
    idleSince := y.time }

/-- Step 10: a mode fence into retry mode, then service (R146, R426). -/
def stepOpen (s : State) : State :=
  let s := if s.coh.tabled ∧ s.coh.fence.isNone then startFence false s else s
  if s.coh.tabled ∨ s.coh.fence.isSome then s else openService s

def stepNo : BringUp → Nat
  | .fuses _ _ => 1 | .pads _ => 2 | .rails _ _ _ _ _ => 3 | .image _ => 4 | .hbm _ _ => 5 | .inventory _ _ _ _ => 6
  | .directory => 7 | .links => 8 | .joined => 9 | .open_ => 10

/-- BRING_UP_STEP (R426): each step only when the one before it has completed. -/
def bringUpStep (f : BringUp) (s : State) : State :=
  if s.sys.phase ≠ .bringUp ∨ stepNo f ≠ s.sys.step + 1 then s
  else
    match f with
    | .fuses a b => stepFuses (a || b) s
    | .pads fs => stepPads fs s
    | .rails r a mv sl cl => stepRails r a mv sl cl s
    | .image ok => stepImage ok s
    | .hbm t k => stepHbm t k s
    | .inventory d g b sg => stepInventory d g b sg s
    | .directory => if s.coh.rebuild.isEmpty && s.coh.fence.isNone then stepDone 7 s else s
    | .links => beginJoin (stepDone 8 s)
    | .joined => if s.flt.state = .joining then s else stepDone 9 s
    | .open_ => stepOpen s

def execBringUpStep (f : BringUp) (s : State) := complete (bringUpStep f) s

/-- PERST_N_CHANGE (R427, R468): a link whose PERST_N is low is held in reset. -/
def execPerstNChange (port : Fin 4) (lnk : Fin 4) (released : Bool) (s : State) :=
  complete (fun s =>
    let s := modLink port.val lnk.val (fun h => { h with perst := released }) s
    if !released ∧ (hostLink s port.val lnk.val).up then linkLost port.val lnk.val s else s) s

/-! ### Block reset (R431, Table 19-5) -/

/-- RST_BLOCK_IDLE of a block; none for one that the table does not have. -/
def blockIdle (s : State) (code inst : Nat) : Option Bool :=
  match code with
  | 1 => if inst < 18 then some (!s.nmc.lmap.contains inst) else none
  | 2 => if inst < 4 then some (s.emb.queues.all (·.1 != inst)) else none
  | 3 => if inst < 4 then some (s.emb.queues.all (·.1 != 4 + inst) && s.emb.chunks.isEmpty) else none
  | 4 => if inst < 4 then some (s.prn.queue.all (·.inst != inst)) else none
  | 5 => if inst = 0 then some s.cdc.filling.isEmpty else none
  | 6 => if inst = 0 then some ((s.jrn.ring.all (·.programmed)) && s.sys.closed) else none
  | 7 => if inst < 4 then some ((List.range 4).all fun l => !(hostLink s inst l).up) else none
  | _ => none

/-- The registers of a block: a span of the control space. -/
def blockSpan (code inst : Nat) : Nat × Nat :=
  match code with
  | 1 => (Off.core inst, 0x10000)
  | 5 => (Off.cdc, 0x40000)
  | 6 => (Off.jrn, 0x40000)
  | 7 => (Off.hp inst, 0x10000)
  | _ => (0, 0)

/-- Registers of a span return to their reset values; RWI ones take the image's again. -/
def reloadRegs (lo n : Nat) (s : State) : State :=
  let inB (o : Nat) : Bool := decide (lo ≤ o % 2 ^ 25 ∧ o % 2 ^ 25 < lo + n)
  let s := s.modRegs fun r => { r with vals := r.vals.filter fun e => !inB e.1 }
  let rwi (o : Nat) : Bool := match regRow o with | some r => r.ty == .rwi | none => false
  (s.cfg.entries.filter fun e => inB e.1 && rwi e.1).foldl (fun s e => regSet e.1 (written (regGet s e.1) e.1 e.2) s) s

def resetBlock (code inst : Nat) (s : State) : State :=
  let (lo, n) := blockSpan code inst
  let s := reloadRegs lo n s
  match code with
  | 1 => s.modNmc fun m => { m with canary := m.canary.set inst 0 }
  | 5 => s.modCdc fun _ => {}
  | _ => s

/-- BLOCK_RESET (R431). DESIGN CHOICE (log 60): the reset of a block is whole in this step, so no request meets a closed intake. -/
def execBlockReset (wr : Writer) (code : BitVec 8) (inst : BitVec 8) (s : State) :=
  complete (fun s =>
    let done := Off.rst + 0x20
    (issue wr none [.f, .m] (Off.rst + 0x18) done (fun s =>
      match blockIdle s code.toNat inst.toNat with
      | none => cmdDone done .malformed 0 s
      | some false => cmdDone done .busy 0 s
      | some true => cmdDone done .ok 0 (resetBlock code.toNat inst.toNat s)) s).2) s

end Sys2Proof.Machine
end

