-- ==== Sys2Proof/Machine/Power.lean ====
section
/-! DEFINITION. Voltage, power states, temperature, margins and the lines of the board: AVSBus, sensors, DORMANT and FALLOW, the SMBus
mapping, PWRFAIL_N probes, drivers and reference clocks (R422, R443-R456, R465-R471). -/

namespace Sys2Proof.Machine

open Sys2Proof

/-! ### Supply requests (R446-R448). A request is 0.600 V + 5 mV * n. -/

/-- Steps of a voltage in mV, quantised up to the grid. -/
def stepOf (mv : Nat) : Nat := ceilDiv (mv - 600) 5

def vTarget (s : State) : Nat := stepOf (regGet s (Off.rst + 0x38)).toNat
def vMin (s : State) : Nat := stepOf (regGet s (Off.rst + 0x40)).toNat
def vMax (s : State) : Nat := stepOf (regGet s (Off.rst + 0x48)).toNat
def powerCap (s : State) : Nat := (regGet s (Off.rst + 0x50)).toNat
def thermWarn (s : State) : Nat := (regGet s (Off.rst + 0x60)).toNat
def coreTemp (s : State) : Nat := s.sys.temps.getD 0 0
def coreHot (s : State) : Bool := decide (2 ≤ s.sys.heat.getD 0 0)
/-- The image pins the operating point. -/
def pinnedV (s : State) : Bool := decide (vMin s = vMax s ∧ vTarget s = vMin s)
/-- Measured power, raised by its tolerance of 3 %, exceeds the cap. -/
def overCap (s : State) (watts : Nat) : Bool := decide (100 * powerCap s < 103 * watts)

/-- The thermal ceiling: from the present request down 5 mV per ms while the core die is at RST_THERM_WARN or above, up 5 mV per ms once it
is not. -/
def moveThermal (s : State) : State :=
  let y := s.sys
  let due := decide (y.thermalMoved + 1000000 ≤ y.time)
  if thermWarn s ≤ coreTemp s then
    if y.vstep < y.thermalCeil then s.modSys fun y => { y with thermalCeil := y.vstep, thermalMoved := y.time }
    else if due then s.modSys fun y => { y with thermalCeil := y.thermalCeil - 1, thermalMoved := y.time }
    else s
  else if y.thermalCeil < 50 ∧ due then s.modSys fun y => { y with thermalCeil := y.thermalCeil + 1, thermalMoved := y.time }
  else s

/-- The cap ceiling: down 5 mV per run of the policy while power is above the cap, up 5 mV per ms once power is below the cap less 2 %. -/
def moveCap (watts : Nat) (s : State) : State :=
  let y := s.sys
  if overCap s watts then s.modSys fun y => { y with capCeil := Nat.min y.capCeil y.vstep - 1, capMoved := y.time }
  else if 103 * watts < 98 * powerCap s ∧ y.capCeil < 50 ∧ y.capMoved + 1000000 ≤ y.time then
    s.modSys fun y => { y with capCeil := y.capCeil + 1, capMoved := y.time }
  else s

/-- The request that the bounds give, and which bound governs (R447, Table 20-5). A pinned point is raised by the canary floor alone. -/
def wanted (s : State) (floor : Nat) : Nat × BitVec 4 :=
  let t := if coreHot s then vMin s else vTarget s
  let a := Nat.min t s.sys.thermalCeil
  let b := Nat.min a s.sys.capCeil
  if pinnedV s then (Nat.max (vMin s) floor, 4)
  else
    (Nat.min (Nat.max (Nat.max b floor) (vMin s)) (vMax s),
      if b < floor then 1 else if b < a then 3
      else if coreHot s || decide (a < t) || (decide (thermWarn s ≤ coreTemp s) && decide (s.sys.thermalCeil ≤ t)) then 2 else 0)

/-- A MARGIN record (R422): of the supply or the canaries POWER, of a link LINK. -/
def marginRec (cls : BitVec 5) (block inst : BitVec 8) (s : State) : State :=
  raise { cls := cls, code := 0x0B, block := block, inst := inst } s

/-- One run of the voltage policy (R447, R448). -/
def runPolicy (m : PowerMeasure) (s : State) : State :=
  let s := moveCap m.watts (moveThermal (s.modSys fun y => { y with watts := m.watts }))
  let (v, lim) := wanted s m.floorStep
  let y := s.sys
  let dead := decide (3 ≤ y.avsMiss)
  let next := if dead then y.vstep
    else if v < y.vstep then (if m.slackOk && decide (y.lowered + 1000000 ≤ y.time) then y.vstep - 1 else y.vstep)
    else Nat.min v (y.vstep + 10)
  let ceil := Nat.min y.thermalCeil y.capCeil
  let limited := decide (thermWarn s ≤ coreTemp s) || overCap s m.watts
  let gate := coreHot s || (limited && (dead || decide (ceil < m.floorStep))) ||
    (overCap s m.watts && decide (y.vstep ≤ vMin s))
  let s := if pinnedV s && decide (vMin s < m.floorStep) && decide (y.vstep < next) then marginRec 0x0D 0x01 0 s else s
  let s := s.modSys fun y => { y with
    limit := lim, gated := gate, vstep := next, lowered := if next < y.vstep then y.time else y.lowered }
  if next = y.vstep then s else emit (.avs next) s

/-- VOLTAGE_POLICY (R447). -/
def execVoltagePolicy (m : PowerMeasure) (s : State) := complete (runPolicy m) s

/-- AVS_READBACK (R448): three misses, or three readbacks more than 15 mV off, in succession. -/
def readback (r : Option Nat) (s : State) : State :=
  match r with
  | none =>
    let s := s.modSys fun y => { y with avsMiss := y.avsMiss + 1 }
    if s.sys.avsMiss = 3 then powerRec 0x03 2 s else s
  | some mv =>
    let want := 600 + 5 * s.sys.vstep
    let off := decide (want + 15 < mv) || decide (mv + 15 < want)
    let s := s.modSys fun y => { y with avsMiss := 0, readMv := mv, avsOff := if off then y.avsOff + 1 else 0 }
    if s.sys.avsOff = 3 then
      emit (.avs s.sys.vstep) (powerRec 0x05 2 (s.modSys fun y => { y with avsOff := 0 }))
    else s

def execAvsReadback (r : Option Nat) (s : State) := complete (readback r) s

/-! ### Heat (R455, R456, Table 20-6) -/

/-- Warn, hot and trip points of a sensor group. -/
def thermPoints (s : State) : List (Nat × Nat × Nat) := [(thermWarn s, 105, 115), (95, 105, 115), (90, 95, 105)]

/-- The threshold that a reading reaches: 0 none, 1 warn, 2 hot, 3 trip. -/
def heatOf (p : Nat × Nat × Nat) (t : Nat) : Nat :=
  if p.2.2 ≤ t then 3 else if p.2.1 ≤ t then 2 else if p.1 ≤ t then 1 else 0

/-- One group's reading: each crossing upwards raises its record once; after a trip the level stays until 15 degrees below the trip point. -/
def sampleGroup (g : Fin 3) (t : Nat) (s : State) : State :=
  let p := (thermPoints s).getD g.val (0, 0, 0)
  let old := s.sys.heat.getD g.val 0
  let new := heatOf p t
  if old = 3 then
    if t + 15 ≤ p.2.2 then startAgain (s.modSys fun y => { y with heat := y.heat.set g.val (heatOf p t) }) else s
  else if new = 3 then trip g s
  else
    let s := if old < 1 ∧ 1 ≤ new then thermalRec 0 g.val s else s
    let s := if old < 2 ∧ 2 ≤ new then thermalRec 2 g.val s else s
    s.modSys fun y => { y with heat := y.heat.set g.val new, gated := y.gated || (g.val == 0 && decide (2 ≤ new)) }

/-- SENSOR_SAMPLE (R455, R456). -/
def execSensorSample (core io hbm : Nat) (s : State) :=
  complete (fun s => sampleGroup 2 hbm (sampleGroup 1 io (sampleGroup 0 core (s.modSys fun y => { y with temps := [core, io, hbm] })))) s

/-! ### Margins (R422) -/

/-- The voltage request is raised within its bounds. -/
def raiseRequest (s : State) : State :=
  if s.sys.vstep < vMax s ∧ s.sys.avsMiss < 3 then
    emit (.avs (s.sys.vstep + 1)) (s.modSys fun y => { y with vstep := y.vstep + 1 })
  else s

/-- The action of a margin (Table 18-11). A link eye names link and lane as 8 * link + lane (log 16). -/
def marginAct (m inst value : Nat) (s : State) : State :=
  match m with
  | 0 => raiseRequest (marginRec 0x0D 0x01 0 s)
  | 1 =>
    let s := raiseRequest (marginRec 0x0D (if inst < 18 then BitVec.ofNat 8 (0x20 + inst) else 0x01) (BitVec.ofNat 8 inst) s)
    match (List.finRange 16).find? (fun c => physOf s c.val == inst) with
    | some c => if value < canaryMin s ∧ bitOf (regGet s (Off.nmc + 0x10038)) 1 then graftCore c s else s
    | none => s
  | 2 =>
    let n : Fin 24 := Fin.ofNat 24 (inst / 8)
    let f := (fabAt s n).fec + 1
    let s := marginRec 0x07 0x08 (BitVec.ofNat 8 n.val) s
    if (fabAt s n).fec.toNat < 2 ∧ fecOk s n f.toNat then askFec n f s else loseLane n (inst % 8) s
  | _ => postDev 0x2E (linkObj inst 0) (marginRec 0x07 0x08 (BitVec.ofNat 8 inst) s)

/-- MARGIN_SAMPLE: the sample is kept; `low` says that the margin is below its bound or its trend crosses it within the horizon. -/
def execMarginSample (m : Fin 4) (inst : BitVec 16) (value : BitVec 16) (low : Bool) (s : State) :=
  complete (fun s =>
    let s := keepMargin m.val (put 48 inst.toNat ||| put 32 value.toNat ||| put 0 (now s / 2 ^ 20 % 2 ^ 32)) s
    let s := if m.val = 1 ∧ inst.toNat < 18 then s.modNmc fun n => { n with canary := n.canary.set inst.toNat value.toNat } else s
    if low then marginAct m.val inst.toNat value.toNat s else s) s

/-! ### Power states (R451-R454) -/

def sqOpen (s : State) : Bool := (List.range 256).any fun p => !(sqEntries s p).isEmpty

/-- DORMANT_ENTRY (R452). -/
def goDormant (s : State) : State :=
  if s.sys.phase ≠ .service ∨ s.sys.power ≠ .active ∨ s.sys.stage ≠ 0 ∨ !bitOf (regGet s (Off.rst + 0x30)) 60 ∨
      !s.nmc.jobs.isEmpty ∨ !s.nmc.fwdIn.isEmpty ∨ sqOpen s then s
  else (reach (s.sys.idleSince + 1000000 * (regGet s (Off.rst + 0x58)).toNat) s).modSys fun y => { y with power := .dormant }

def execDormantEntry (s : State) := complete goDormant s

/-- FALLOW cannot be entered now (R453). DEDUCED (log 67): a copy that runs is no queued copy; its line requests are answered NY and it times out
under R101 where FALLOW outlasts it. -/
def fallowBusy (s : State) : Bool :=
  s.sys.phase != .service || s.sys.stage != 0 || !s.nmc.jobs.isEmpty || !s.nmc.fwdIn.isEmpty || sqOpen s ||
    (s.home.copies.any fun c => !c.running) ||
    (s.ext.table.any fun e => decide (e.1 < 2 ^ 18) && e.2.state == .revoking) ||
    (s.flt.handoffs.any fun h => h.mine && h.e.phase == .offered) || (match s.flt.drill with | some d => d.running | none => false)

def pwrDone (st : Status) (s : State) : State := s.modSys fun y => { y with pwrStatus := st }

/-- Every line that an agent holds is invalidated (R453 step 3). -/
def invalidateAll (s : State) : State := recallLines (fun _ => true) s

/-- The entry into FALLOW goes on as far as it can (R453). -/
def fallowTry : Nat → State → State
  | 0, s => s
  | k + 1, s =>
    match s.sys.stage with
    | 10 =>
      if s.home.waiting.isEmpty && s.coh.held.isEmpty && s.hp.lines.isEmpty then
        fallowTry k (invalidateAll ((endRecall s).modSys fun y => { y with stage := 11 }))
      else s
    | 11 =>
      if s.coh.txns.isEmpty && s.coh.recalls.isEmpty then
        let s := drainRing s
        let s := s.modFab fun b => { b with links := b.links.map fun l => if l.2.state = .active then (l.1, { l.2 with fallow := true }) else l }
        pwrDone .ok (s.modSys fun y => { y with stage := 0, power := .fallow })
      else s
    | _ => s

def fallowGo (s : State) : State := fallowTry 3 s

def pwrAllowed (s : State) (wr : Writer) : Bool := allowed s wr none [.f, .m, .c]

/-- RST_PWR_CTL.cmd 0b01 (R453). -/
def enterFallow (wr : Writer) (s : State) : State :=
  if !pwrAllowed s wr then rejected (Off.rst + 0x30) s
  else if s.sys.power = .fallow then pwrDone .ok s
  else if fallowBusy s then pwrDone .busy s
  else fallowGo (beginRecall (pump (s.modSys fun y => { y with closed := true, stage := 10, power := .active })))

def execFallowEnter (wr : Writer) (s : State) := complete (enterFallow wr) s

/-- The entry steps are reversed and admission reopens (R454). -/
def leaveFallow (s : State) : State :=
  if s.sys.power ≠ .fallow then s
  else
    let s := s.modFab fun b => { b with links := b.links.map fun l => (l.1, { l.2 with fallow := false }) }
    pwrDone .ok (s.modSys fun y => { y with power := .active, closed := false, idleSince := y.time })

/-- FALLOW_LEAVE: cmd 0b10, or a request that wakes the device where wake is 1 (R454). -/
def execFallowLeave (wr : Option Writer) (s : State) :=
  complete (fun s =>
    match wr with
    | some w => if pwrAllowed s w then leaveFallow s else rejected (Off.rst + 0x30) s
    | none => if bitOf (regGet s (Off.rst + 0x30)) 61 then leaveFallow s else s) s

/-! ### Lines of the board (R465, R469-R471) -/

/-- SMBUS_START (R469): the line that fell is SDA. The other orientation counts only after 35 ms without a START in the decided one. -/
def smbStart (sdaFell sclFell : Bool) (s : State) : State :=
  if sdaFell = sclFell then s
  else
    let decide_ (s : State) : State :=
      let s := s.modPins fun p => { p with smbSwapped := some sclFell, smbLast := now s }
      if sclFell then pinFinding 0x01 { finding := 7, group := 0x500 } s else s
    match s.pins.smbSwapped with
    | none => decide_ s
    | some w =>
      if w = sclFell then s.modPins fun p => { p with smbLast := now s }
      else if s.pins.smbLast + 35000000 ≤ now s then decide_ s
      else s

def execSmbusStart (sdaFell sclFell : Bool) (s : State) := complete (smbStart sdaFell sclFell) s

/-- PWRFAIL_PROBE (R470): three probes in a row below the threshold make PWRFAIL_N undriven, and hold-up is distrusted (R80). A line driven
low is a fall. A line found undriven is reported once in each bring-up from cold. -/
def probe (below : Bool) (s : State) : State :=
  if s.sys.pwrfail = .low ∨ (s.sys.phase = .bringUp ∧ s.sys.step < 2) ∨
      (s.sys.pwrfail = .undriven ∧ s.pins.map.any (·.finding == 8)) then s
  else if !below then s.modSys fun y => { y with probeLow := 0 }
  else
    let s := s.modSys fun y => { y with probeLow := y.probeLow + 1 }
    if 3 ≤ s.sys.probeLow then
      distrust (pinFinding 0x01 { finding := 8, group := 0x505 } (s.modSys fun y => { y with pwrfail := .undriven, probeLow := 0 }))
    else s

def execPwrfailProbe (below : Bool) (s : State) := complete (probe below) s

/-- DRIVER_OVERCURRENT (R471): the driver goes to Hi-Z until step 2 of the next reset. -/
def execDriverOvercurrent (group ball : BitVec 16) (s : State) :=
  complete (pinFinding 0x01 { finding := 9, group := group, ball := ball }) s

/-- REFCLK_LOSS in service (R465). -/
def clockLost (c : RefClk) (s : State) : State :=
  if s.sys.clocksLost.contains c ∨ (s.sys.phase = .bringUp ∧ s.sys.step < 3) then s
  else
    let s := clockFinding c s
    match c with
    | .host p => (List.range 4).foldl (fun s l => if (hostLink s p.val l).up then linkLost p.val l s else s) s
    | .fabric d => (List.range 24).foldl (fun s n => if n / 12 = d.val then goDown n false s else s) s
    | .timeBase => postDev 0x2F 0 (s.modFab fun b => { b with sync := false, unsyncPosted := true })

def execRefclkLoss (c : RefClk) (s : State) := complete (clockLost c) s

/-- REFCLK_RETURN (R465). -/
def execRefclkReturn (c : RefClk) (s : State) :=
  complete (fun s => s.modSys fun y => { y with clocksLost := y.clocksLost.filter (· != c) }) s

/-- RECALL_BOUND (R351): the quiesce starts, and with it what a departure or a descent to FALLOW waits for. -/
def execRecallBound (s : State) := complete (fun s => fallowGo (departGo (endRecall s))) s

end Sys2Proof.Machine
end

