-- ==== Sys2Proof/Machine/Queues.lean ====
section
/-! DEFINITION. The base and head registers of the host queues: their claim, their release and the checks of a host's pointers
(R172, R325, R386, R477, R479, R480). A write answers the status that a CONTROL request making it is answered with, none when it
is done or ignored without a refusal. -/

namespace Sys2Proof.Machine

open Sys2Proof

/-! ### The registers of a queue -/

def qBaseOff : QueueId → Nat
  | .sq n => Off.pair n.val
  | .cq n => Off.pair n.val + 0x08
  | .fq n => Off.fq n.val
  | .evq w => Off.evq w.val

def qSizeOff : QueueId → Nat
  | .sq n | .cq n => Off.pair n.val + 0x10
  | .fq n => Off.fq n.val + 0x08
  | .evq w => Off.evq w.val + 0x08

/-- The head register that a host writes; an SQ has none. -/
def qHeadOff : QueueId → Nat
  | .sq n => Off.pair n.val + 0x20
  | .cq n => Off.pair n.val + 0x30
  | .fq n => Off.fq n.val + 0x10
  | .evq w => Off.evq w.val + 0x10

def qBase (s : State) (q : QueueId) : Word := regGet s (qBaseOff q)
def qSize (s : State) (q : QueueId) : Nat := (regGet s (qSizeOff q)).toNat
def qHead (s : State) (q : QueueId) : Nat := (regGet s (qHeadOff q)).toNat

/-- The device's own pointer. -/
def qTail (s : State) : QueueId → Nat
  | .sq n => sqTail s n.val
  | .cq n => cqTail s n.val
  | .fq n => fqTail s n.val
  | .evq w => (evqOf s w.val).tail

/-- Bytes of an entry and the smallest ring (R172, R325, R386). -/
def qEntry : QueueId → Nat
  | .sq _ => 128
  | _ => 32

def qMin : QueueId → Nat
  | .sq _ | .cq _ => 16
  | .fq _ | .evq _ => 64

/-- The window that owns a queue (R477): the one that claimed it; a pair has one owner; an event queue's is its own. -/
def queueOwner (s : State) : QueueId → Option Nat
  | .sq n | .cq n => (qOwner (regGet s (Off.pair n.val))).or (qOwner (regGet s (Off.pair n.val + 8)))
  | .fq n => qOwner (regGet s (Off.fq n.val))
  | .evq w => some w.val

/-- An unclaimed queue takes writes of class A, a claimed one of its owner (Tables 22-12, 22-15). -/
def queueAllows (s : State) (wr : Writer) (q : QueueId) : Bool :=
  match queueOwner s q with
  | none => allowed s wr none [.a]
  | some w => allowed s wr (some w) [.w]

/-- The window a writer acts for. -/
def writerWin (s : State) : Writer → Option (Fin 64)
  | .bar0 w => some w
  | .control iid _ => (List.finRange 64).find? fun w => winIid s w.val == iid
  | .mctp | .jtag => none

/-! ### Claim and release (R479) -/

/-- The ring lies in RAW ASSIGNED extents of this device on which the IID holds rd and wr. -/
def ringOk (s : State) (q : QueueId) (iid : BitVec 16) (base : Nat) : Bool :=
  let n := qSize s q
  let last := base + n * qEntry q - 1
  decide (qMin q ≤ n) && (List.range (extOf last - extOf base + 1)).all fun i =>
    let d := extDesc s (extOf base + i)
    decide (d.state = .assigned) && decide (d.form = .raw) && (rightsOf d iid).rd && (rightsOf d iid).wr

/-- Something still needs the queue: a record that waits for space in it, or a job of the pair. -/
def queueBusy (s : State) : QueueId → Bool
  | .sq n =>
    !(sqEntries s n.val).isEmpty || (s.nmc.jobs.any fun j => j.2.pair == n.val && j.2.origin.isNone) ||
      (s.nmc.fwdIn.any fun f => f.pair == n.val && f.origin.isNone) || s.nmc.fwdOut.any (·.1 == n.val)
  | .cq n => (s.nmc.cq.any fun c => c.pair == n.val && c.dest.isNone) || s.nmc.fwdOut.any (·.1 == n.val)
  | .fq n => s.xlt.fqWait.any (·.q == n)
  | .evq w => !(evqOf s w.val).waiting.isEmpty

/-- At the claim the device's pointer takes the host's, so the ring starts empty. -/
def startRing (q : QueueId) (iid : BitVec 16) (s : State) : State :=
  match q with
  | .sq n => s.modNmc fun m => { m with
      sqHead := Tab.put 0 n.val 0 m.sqHead, sqTail := Tab.put 0 n.val 0 m.sqTail, pairIid := Tab.put 0 n.val iid m.pairIid
      skip := m.skip.filter (·.1 != n.val) }
  | .cq n => s.modNmc fun m => { m with cqTail := Tab.put 0 n.val (qHead s q) m.cqTail, pairIid := Tab.put 0 n.val iid m.pairIid }
  | .fq n => s.modXlt fun x => { x with fqTail := Tab.put 0 n.val (qHead s q) x.fqTail, fqIid := Tab.put 0 n.val iid x.fqIid }
  | .evq w => modEvq w.val (fun e => { e with tail := qHead s q, iid := iid }) s

/-- A base register's value: vector and offset as written, the window of the claim; an SQ has no vector, an event queue's stands in
its CTL register. -/
def baseWord (q : QueueId) (valid : Bool) (win : Nat) (v : Word) : Word :=
  put 63 (bit01 valid) ||| put 56 win ||| put 48 (match q with | .cq _ | .fq _ => fld v 55 48 | _ => 0) ||| put 12 (fld v 47 12)

/-- A write of a queue base register (R479). -/
def baseWrite (wr : Writer) (q : QueueId) (v : Word) (s : State) : Option Status × State :=
  let off := qBaseOff q
  let old := qBase s q
  let no (st : Option Status) : Option Status × State := (st, rejected off s)
  if !queueAllows s wr q then no (some .denied)
  else
    match writerWin s wr with
    | none => no (some .denied)
    | some w =>
      let iid := winIid s w.val
      let ok := ringOk s q iid (qOff v)
      match qValid old, bitOf v 63 with
      | false, false => (none, regSet off (baseWord q false 0 v) s)
      | false, true => if ok then (none, startRing q iid (regSet off (baseWord q true w.val v) s)) else no none
      | true, true => if ok then (none, regSet off (baseWord q true (qWin old).val v) s) else no none
      | true, false => if queueBusy s q then no none else (none, regSet off (baseWord q false 0 v) s)

/-- QUEUE_BASE_WRITE (R479). -/
def execQueueBaseWrite (wr : Writer) (q : QueueId) (v : Word) (s : State) := complete (fun s => (baseWrite wr q v s).2) s

/-- A write of a queue's SIZE: ignored while either ring of it is valid, and outside its range (R6, R479). -/
def sizeWrite (wr : Writer) (q : QueueId) (v : Word) (s : State) : Option Status × State :=
  let n := fld v 16 0
  let inUse : Bool := match q with
    | .sq i | .cq i => qValid (regGet s (Off.pair i.val)) || qValid (regGet s (Off.pair i.val + 8))
    | q => qValid (qBase s q)
  if !queueAllows s wr q then (some .denied, rejected (qSizeOff q) s)
  else if inUse ∨ n < qMin q ∨ 65536 < n then (none, rejected (qSizeOff q) s)
  else (none, regSet (qSizeOff q) (BitVec.ofNat 64 n) s)

/-! ### Heads (R480) -/

/-- A write of a queue's head: below the ring size, and between the old head and the device's tail. -/
def headWrite (wr : Writer) (q : QueueId) (v : Word) (s : State) : Option Status × State :=
  let n := fld v 16 0
  let size := qSize s q
  match q with
  | .sq _ => (some .denied, rejected (qHeadOff q) s)
  | _ =>
    if !queueAllows s wr q then (some .denied, rejected (qHeadOff q) s)
    else if size ≤ n ∨ ringDist size (qHead s q) (qTail s q) < ringDist size (qHead s q) n then
      (some .malformed, rejected (qHeadOff q) s)
    else (none, pumpFq (regSet (qHeadOff q) (BitVec.ofNat 64 n) s))

/-- QUEUE_HEAD_WRITE (R480). -/
def execQueueHeadWrite (wr : Writer) (q : QueueId) (v : Word) (s : State) := complete (fun s => (headWrite wr q v s).2) s

end Sys2Proof.Machine
end

