-- ==== Sys2Proof/Machine/RegRead.lean ====
section
/-! DEFINITION. What each register of the control space reads as (R7, R472, R475, R477, R478, R481, Tables 22-2 to 22-17 and the
tables they name). -/

namespace Sys2Proof.Machine

open Sys2Proof

def flag (n : Nat) (b : Bool) : Word := put n (bit01 b)

/-- A list of bits as a word, the first at bit `l`. -/
def bitRow (l : Nat) (bs : List Bool) : Word := put l (bs.foldr (fun b n => bit01 b + 2 * n) 0)

/-! ### Identity, reset, configuration -/

def idDevice : Word := 0x0480B00100000000

/-- RST_STATUS (Table 19-4). -/
def rstStatus (s : State) : Word :=
  put 28 s.sys.step ||| flag 27 (s.sys.phase == .heldFail) ||| put 24 (s.sys.attempts % 8) ||| put 2 s.sys.bits.toNat

/-- RST_BLOCK_IDLE (Table 22-7). -/
def blockIdleWord (s : State) : Word :=
  let row (code n : Nat) : List Bool := (List.range n).map fun i => (blockIdle s code i).getD false
  bitRow 0 (row 1 18 ++ row 2 4 ++ row 3 4 ++ row 4 4 ++ row 5 1 ++ row 6 1 ++ row 7 4)

def powerCode : PowerState → Nat
  | .active => 0
  | .dormant => 1
  | .fallow => 2

/-- RST_PWR_CTL (Table 20-5). -/
def pwrCtl (s : State) : Word :=
  put 62 (powerCode s.sys.power) ||| (regGet s (Off.rst + 0x30) &&& 0x3000000000000000) ||| put 40 (s.sys.vstep % 64) |||
    put 36 s.sys.limit.toNat ||| put 27 (stCode s.sys.pwrStatus)

/-- RST_PIN_MAP (Table 22-7). -/
def pinMapWord (s : State) (i : Nat) : Word :=
  match s.pins.map[i]? with
  | some f => flag 63 true ||| put 40 f.finding.toNat ||| put 16 f.group.toNat ||| put 0 f.ball.toNat
  | none => 0

/-- CFG_STATUS (Table 19-10). -/
def cfgStatus (s : State) : Word :=
  put 62 s.cfg.state.toNat ||| flag 61 s.cfg.copyB ||| put 16 s.cfg.generation.toNat ||| put 8 s.cfg.resultA.toNat |||
    put 0 s.cfg.resultB.toNat

def norAddrWord (s : State) : Word :=
  flag 63 s.cfg.norBusy.isSome ||| put 58 (stCode s.cfg.norStatus) ||| put 0 (norAddr s)

/-- A completion register (Table 22-4). -/
def doneWord (s : State) (off : Nat) : Word :=
  let d := doneGet s off
  let busy := if off = Off.xlt + 0x228 then decide (64 ≤ s.xlt.invals.length) else d.busy
  flag 63 busy ||| put 58 (stCode d.status) ||| flag 57 d.refused ||| put 32 d.number.toNat ||| put 0 d.result.toNat

/-! ### Host ports, fabric, home, tier, journal -/

/-- HP_LINK_STATUS (Table 22-10). -/
def hpLinkStatus (s : State) (p l : Nat) : Word :=
  let h := hostLink s p l
  if h.up then
    flag 63 true ||| put 60 h.train.rate.toNat ||| flag 59 h.train.cxl ||| put 54 h.train.width.toNat ||| flag 53 h.train.reversed |||
      put 37 h.train.inverted.toNat
  else 0

def linkCode : LinkState → Nat
  | .down => 0
  | .training => 1
  | .active => 2
  | .refused => 3

/-- FAB_LINK_STATUS (Table 22-11). -/
def fabLinkStatus (s : State) (n : Nat) : Word :=
  let l := fabAt s n
  let order := (List.range 5).foldl (fun w i => w ||| put (3 * i + 31) ((l.order[i]?).elim 0 (·.val))) 0
  put 61 (linkCode l.state) ||| put 59 l.fec.toNat ||| put 54 l.working.toNat ||| put 51 (l.spare % 8) ||| put 46 l.inverted.toNat |||
    order ||| put 0 l.peer.toNat

/-- FAB_TIME_STATUS (Table 22-9). -/
def timeStatus (s : State) : Word :=
  flag 63 s.fab.sync ||| put 16 ((timeMaster s).elim 0 (·.toNat)) ||| put 0 ((parentLink s).getD 0)

/-- HOME_MODE (Table 22-13). -/
def homeMode (s : State) : Word :=
  flag 63 s.coh.tabled ||| flag 62 s.coh.fence.isSome ||| put 32 s.coh.fenceNo.toNat

/-- The tokens in a bucket at the present instant, in bytes: what requests held for their payment have reserved is still there
(R115, R116). -/
def tokensNow (s : State) (b : Nat) : Nat :=
  let cap := 1000 * bktBurst s b
  match s.home.buckets.find? (·.1 == b) with
  | none => cap / 1000
  | some e =>
    let held := (s.home.waiting.map fun p => match p.why with
      | .bucket c _ => if c = b then 1000 * costOf s p.kind p.r else 0
      | _ => 0).sum
    Nat.min cap (e.2.tokens + held + bktRate s b * now s - bktRate s b * e.2.at_) / 1000

/-- A word of HOME_BKT (Table 05-8): words 0 and 1 from the image, 2 and 3 the device's. -/
def bktWord (s : State) (b i : Nat) : Word :=
  match i with
  | 2 => put 32 (bktRate s b)
  | 3 => BitVec.ofNat 64 (tokensNow s b)
  | _ => regGet s (Off.bkt b i)

/-- TIER_CARVE (Table 22-12). -/
def carveWord (s : State) : Word :=
  (List.range 5).foldl (fun w i => w ||| put (9 * i) (s.tier.carve.getD i 0)) 0

/-- JRN_STATUS (Table 22-14). -/
def jrnStatus (s : State) : Word :=
  let live := if liveMax s = 0 then 0 else Nat.min 255 (100 * liveBytes s / liveMax s)
  let c := if s.sys.power = .fallow then 2 else if s.jrn.compost = .raised then 1 else 0
  flag 62 s.jrn.distrusted ||| put 48 (if s.jrn.ringSize = 0 then 100 else Nat.min 255 (100 * (32 * ringUnits s) / s.jrn.ringSize)) ||| put 40 live ||| put 38 c

/-! ### Near-memory cores and shared units -/

def physCode : PhysState → Nat
  | .inUse => 0
  | .spare => 1
  | .offline => 2
  | .failed => 3

/-- NMC_CORE_STATUS of a physical core (Table 22-15). -/
def coreStatus (s : State) (p : Nat) : Word :=
  let logical := ((List.range 16).find? fun c => physOf s c == p)
  let js : List (Nat × Job) := match logical with
    | some c => s.nmc.jobs.filter fun j => j.1 / 8 == c
    | none => []
  put 62 (physCode (s.nmc.phys.getD p .failed)) ||| put 56 (logical.getD 0) ||| put 32 ((js.map fun j => j.2.slots.length).sum) |||
    put 0 js.length

def lmapWord (s : State) (i : Nat) : Word :=
  (List.range 8).foldl (fun w j => w ||| put (8 * j) (physOf s (8 * i + j) % 32)) 0

def rsHeldWord (s : State) (i : Nat) : Word :=
  match s.nmc.rs[i]? with
  | some r => flag 63 true ||| flag 62 r.installing ||| put 0 r.version.toNat
  | none => 0

/-- CDC_CB_CACHE (Table 22-15). -/
def cbCacheWord (s : State) : Word :=
  put 32 s.cdc.cached.length ||| put 0 (ceilDiv ((s.cdc.cached.map fun e => (formP s e).cbBytes).sum) 1024)

/-! ### Fleet, RAS, telemetry, Trellis -/

def fleetCode : FleetState → Nat
  | .joining => 0
  | .member => 1
  | .isolated => 2
  | .fenced => 3
  | .spare => 4
  | .adopting => 5

/-- FLT_STATUS (Table 22-17). -/
def fltStatus (s : State) : Word :=
  let v := (votersOf s (servedFdn s)).length
  put 61 (fleetCode s.flt.state) ||| flag 60 (timeMaster s == some (ownFdn s)) ||| put 40 (v % 256) |||
    put 32 (quorum s (servedFdn s) % 256) ||| put 16 ((ctlMirrorOf s).elim 0 (·.toNat)) ||| put 0 (servedFdn s).toNat

/-- An error record as the log shows it (Table 17-1). -/
def errWords (e : ErrRec) : List Word :=
  [put 59 e.cls.toNat ||| put 57 e.sev.toNat ||| put 48 e.code.toNat ||| put 40 e.block.toNat ||| put 32 e.inst.toNat ||| put 0 e.seq.toNat,
   BitVec.ofNat 64 e.time, e.gsa, put 48 e.iid.toNat ||| put 32 e.fdn.toNat ||| put 8 e.comp.toNat,
   put 32 (e.count % 2 ^ 32) ||| put 0 e.detail0.toNat, e.detail1, e.detail2, e.detail3]

/-- Record s of the log lies at 64 bytes times s modulo 2,048 (Table 22-16). -/
def logWord (s : State) (place i : Nat) : Word :=
  match s.ras.log.find? fun e => e.seq.toNat % 2048 == place with
  | some e => wordAt (errWords e) i
  | none => 0

/-- A Trellis register: in SEALED only the lifecycle reads as anything but zero (Tables 23-3, 23-4). -/
def trlWord (s : State) (o : Nat) : Word :=
  if o = 0 then put 62 (lifecycle s)
  else if lifecycle s = 2 then 0
  else if o = 0x10 then s.trl.challenge
  else if o = 0x210 then put 59 (stCode s.trl.status) ||| put 32 s.trl.scopes.toNat ||| put 0 (s.trl.fails % 16)
  else if o = 0x410 then put 59 (stCode s.trl.injectStatus)
  else regGet s (Off.trl + o)

/-! ### Queues -/

/-- A register of a pair (Table 22-15). -/
def pairWord (s : State) (n k : Nat) : Word :=
  match k with
  | 0x20 => BitVec.ofNat 64 (sqHead s n)
  | 0x28 => BitVec.ofNat 64 (cqTail s n)
  | _ => regGet s (Off.pair n + k)

/-- A register of an event queue (Tables 22-6, 22-16, 17-4): the base shows its own window and its CTL's vector. -/
def evqWord (s : State) (w k : Nat) : Word :=
  match k with
  | 0 => regGet s (Off.evq w) &&& 0x8000FFFFFFFFF000 ||| put 56 w ||| put 48 (fld (evqCtl s w) 7 0)
  | 0x18 => BitVec.ofNat 64 (evqOf s w).tail
  | _ => regGet s (Off.evq w + k)

/-! ### The whole space -/

def between (lo n off : Nat) : Bool := decide (lo ≤ off ∧ off < lo + n)

/-- Registers below the home block. -/
def readLow (s : State) (off : Nat) : Word :=
  if off = 0 then idDevice
  else if off = 8 then s.cfg.fuses.serial
  else if off = 0x10 then BitVec.ofNat 64 (ownFdn s).toNat
  else if off = 0x18 then BitVec.ofNat 64 s.ext.limit
  else if off = Off.rst then rstStatus s
  else if off = Off.rst + 0x28 then blockIdleWord s
  else if off = Off.rst + 0x30 then pwrCtl s
  else if off = Off.rst + 0x68 then BitVec.ofNat 64 (attemptMax s % 8)
  else if between (Off.rst + 0x100) 0x400 off then pinMapWord s ((off - Off.rst - 0x100) / 8)
  else if off = Off.cfg then cfgStatus s
  else if off = Off.cfg + 8 then norAddrWord s
  else if off = Off.cfg + 0x38 then put 32 (s.cfg.fuses.svn % 128) ||| put 0 s.cfg.fuses.revoked.toNat
  else if between 0x40000 0x40000 off ∧ between 0x100 0x20 (off % 0x10000) then
    hpLinkStatus s ((off - 0x40000) / 0x10000) ((off % 0x10000 - 0x100) / 8)
  else if between Off.fab 0x1800 off ∧ off % 0x100 = 0 then fabLinkStatus s ((off - Off.fab) / 0x100)
  else if off = Off.fab + 0x2038 then timeStatus s
  else regGet s off

/-- The home, tier, journal and translation blocks. -/
def readMid (s : State) (off : Nat) : Word :=
  if off = Off.home + 0x10 then homeMode s
  else if off = Off.home + 0x20 then Config.dirBase
  else if between (Off.home + 0x1000) 0x2000 off then bktWord s ((off - Off.home - 0x1000) / 0x20) (off % 0x20 / 8)
  else if off = Off.tier then carveWord s
  else if off = Off.jrn then jrnStatus s
  else if off = Off.jrn + 8 then BitVec.ofNat 64 s.jrn.ringSize
  else if off = Off.jrn + 0x10 then BitVec.ofNat 64 s.jrn.lossEpoch.toNat
  else if between (Off.xlt + 0x1000) 0x200 off ∧ off % 0x20 = 0x18 then BitVec.ofNat 64 (fqTail s ((off - Off.xlt - 0x1000) / 0x20))
  else regGet s off

/-- The near-memory cores and the shared units. -/
def readNmc (s : State) (off : Nat) : Word :=
  if between (Off.core 0) (18 * 0x10000) off then
    let p := (off - Off.core 0) / 0x10000
    match off % 0x10000 with
    | 0 => coreStatus s p
    | 8 => BitVec.ofNat 64 (s.nmc.canary.getD p 0)
    | _ => regGet s off
  else if between Off.nmc 0x4000 off then pairWord s ((off - Off.nmc) / 0x40) (off % 0x40)
  else if off = Off.nmc + 0x10000 then lmapWord s 0
  else if off = Off.nmc + 0x10008 then lmapWord s 1
  else if off = Off.nmc + 0x10128 then rsHeldWord s 0
  else if off = Off.nmc + 0x10130 then rsHeldWord s 1
  else if between (Off.prn + 0x200) 0x20 off then
    BitVec.ofNat 64 (s.prn.idx.filter fun x => x.inst == (off - Off.prn - 0x200) / 8).length
  else if off = Off.cdc + 0x10 then cbCacheWord s
  else regGet s off

/-- Fleet, RAS, telemetry and Trellis. -/
def readHigh (s : State) (off : Nat) : Word :=
  if off = Off.flt then fltStatus s
  else if off = Off.flt + 8 then BitVec.ofNat 64 s.flt.epoch
  else if off = Off.ras then BitVec.ofNat 64 s.ras.head.toNat
  else if off = Off.ras + 8 then BitVec.ofNat 64 s.ras.tail.toNat
  else if between (Off.ras + 0x1000) 0x400 off then BitVec.ofNat 64 (Tab.get 0 s.ras.cnt ((off - Off.ras - 0x1000) / 8))
  else if between (Off.ras + 0x4000) 0x1000 off then evqWord s ((off - Off.ras - 0x4000) / 0x40) (off % 0x40)
  else if between (Off.ras + 0x20000) 0x20000 off then logWord s ((off - Off.ras - 0x20000) / 64) (off % 64 / 8)
  else if off = Off.tel + 8 then flag 63 s.tel.busy ||| put 0 s.tel.seq.toNat
  else if between (Off.tel + 0x1000) 0x9000 off then telLive s (off - Off.tel)
  else if between (Off.tel + 0x11000) 0x9218 off then Tab.get 0 s.tel.bank (off - Off.tel)
  else if Off.trl ≤ off ∧ off < 0x500000 then trlWord s (off - Off.trl)
  else regGet s off

/-- The value of a register that is held once, whoever reads it. -/
def regNow (s : State) (off : Nat) : Word :=
  if doneOffs.contains off then doneWord s off
  else if off < Off.home ∨ 0x1000000 ≤ off then readLow s off
  else if off < Off.core 0 then readMid s off
  else if off < Off.flt then readNmc s off
  else readHigh s off

/-! ### Ownership and access paths (R475, R477, R478) -/

/-- The queue that an offset of a queue's registers belongs to. -/
def queueAt (off : Nat) : Option QueueId :=
  if between Off.nmc 0x4000 off then
    let n := Fin.ofNat 256 ((off - Off.nmc) / 0x40)
    some (if off % 0x40 = 8 ∨ 0x28 ≤ off % 0x40 then .cq n else .sq n)
  else if between (Off.xlt + 0x1000) 0x200 off then some (.fq (Fin.ofNat 16 ((off - Off.xlt - 0x1000) / 0x20)))
  else if between (Off.ras + 0x4000) 0x1000 off then some (.evq (Fin.ofNat 64 ((off - Off.ras - 0x4000) / 0x40)))
  else none

/-- The window that owns the instance at an offset (R477). -/
def instOwner (s : State) (off : Nat) : Option Nat :=
  if between 0x1000000 0x400000 off then some ((off - 0x1000000) / 0x10000)
  else if between 0x40000 0x40000 off ∧ between 0x200 0x80 (off % 0x10000) then
    some (16 * ((off - 0x40000) / 0x10000) + (off % 0x10000 - 0x200) / 8)
  else (queueAt off).bind (queueOwner s)

/-- Offsets that MCTP, and JTAG beside the Trellis registers, may read (R475, R490). -/
def mctpReads (off : Nat) : Bool :=
  decide (off < 0x40000) || between Off.flt 0xC0000 off || (between Off.fab 0x1800 off && decide (off % 0x100 = 0)) ||
    [Off.jrn, Off.jrn + 0x10, Off.jrn + 0x18].contains off

/-- Does the reader see the register, or zero (R475, R477)? DEDUCED (log 68): fabric management is no window, so what a window owns is not another
window's to it. -/
def seen (s : State) (wr : Writer) (off : Nat) : Bool :=
  match wr with
  | .mctp => mctpReads off
  | .jtag => mctpReads off || between Off.trl 0x40000 off
  | .control _ true => true
  | _ =>
    match instOwner s off with
    | none => true
    | some w => hasCls s wr (some w) .w || hasCls s wr none .m

/-- What a read of a register returns: a staging register is the reader's own copy, and JRN_LOSS_QUERY shows the loss mark of the
extent written to that copy (R86). -/
def regRead (s : State) (wr : Writer) (off : Nat) : Word :=
  match regRow off with
  | none => 0
  | some r =>
    if r.ty == .wo || r.ty == .cmd || !seen s wr off then 0
    else if off = Off.jrn + 0x18 then
      let e := staged s wr off
      put 32 (Tab.get 0 s.jrn.marks e.toNat).toNat ||| e
    else if r.staged then staged s wr off
    else regNow s off

/-- A read of all eight bytes through BAR0 or a CONTROL request also clears an RC register (R7, R475). -/
def readClear (wr : Writer) (off : Nat) (s : State) : Word × State :=
  let clears := match wr with | .bar0 _ | .control _ _ => true | .mctp | .jtag => false
  let rc := match regRow off with | some r => r.ty == .rc | none => false
  (regRead s wr off, if clears && rc then regSet off 0 s else s)

/-- RC_READ (R7). -/
def execRcRead (win : Fin 64) (off : BitVec 25) (s : State) :=
  complete (fun s =>
    let (v, s) := readClear (.bar0 win) off.toNat s
    emit (.regData (.bar0 win) off.toNat v) s) s

end Sys2Proof.Machine
end

