-- ==== Sys2Proof/Machine/Transplant.lean ====
section
/-! DEFINITION. Shard loads and the transplant of a shard to another home (R286-R288). -/

namespace Sys2Proof.Machine

open Sys2Proof

/-! ### The steps of a transplant at its source (R287) -/

def xplHigh (s : State) : Nat := (regGet s (Off.gln + 0x328)).toNat
def xplLow (s : State) : Nat := (regGet s (Off.gln + 0x330)).toNat

def modXplant (f : Xplant → Xplant) (s : State) : State := s.modEmb fun e => { e with xplant := e.xplant.map f }

/-- The IID under which a transplant's accesses run: the lowest of the first range with rd and wr (the spec names none). -/
def xplIid (d : ExtDesc) : BitVec 16 := ((d.ranges.filter fun r => r.valid && r.rd && r.wr).head?.map (·.lo)).getD 0

/-- The GSA in an extent of the destination that a line of this device is copied to: the same place in the same extent number. -/
def xplDst (x : Xplant) (line : Nat) : Word := mkGsa x.dest (128 * line)

/-- A copy of `n` lines of an extent to the destination. -/
def xplReq (s : State) (x : Xplant) (line n : Nat) : Req :=
  let d := extDesc s (extOfLine line)
  { op := 0x0C, iid := xplIid d, src := ownFdn s, gsa := xplDst x line, arg := gsaOfLine s line, plen := 32
    payload := bytesOfWords [0, put 32 d.inc.toNat ||| put 0 d.inc.toNat, put 32 1 ||| put 0 n, 0] }

/-- Step 2: each extent is copied as a whole while this device keeps serving it. -/
def copyShard (x : Xplant) (s : State) : State :=
  let ids := (List.range x.exts.length).map (s.home.nextCopy + ·)
  let cs : List CopyRun := (ids.zip x.exts).map fun p => { id := p.1, req := xplReq s x (p.2 * 2 ^ 23) (2 ^ 23) }
  feedCopies (modXplant (fun x => { x with step := 2, copies := ids }) (s.modHome fun h => { h with
    nextCopy := h.nextCopy + cs.length, copies := h.copies ++ cs }))

/-- A copy whose line could not be sent ends with that status. -/
def sentOrEnd (id : Nat) (q : Option Status × State) : State := match q.1 with | some st => endCopy id st q.2 | none => q.2

/-- The copy that carries one line of a bitmap, and its line. -/
def mapCopy (x : Xplant) (s : State) (l : Nat) : CopyRun × CopyLine :=
  let cl : CopyLine := { line := 0, side := .dst, first := now s, data := bytesOfLine (storedLine s l) }
  ({ id := s.home.nextCopy, req := xplReq s x l 1, running := true, next := 1, active := [cl] }, cl)

/-- The copy and the line leave the bitmap's list for the device's copies. -/
def noteMapCopy (c : CopyRun) (l : Nat) (s : State) : State :=
  modXplant (fun x => { x with copies := x.copies ++ [c.id], bitmap := x.bitmap.filter (· != l) })
    (s.modHome fun h => { h with nextCopy := c.id + 1, copies := h.copies ++ [c] })

/-- One line of a bitmap goes to the destination: a copy of its own, the line's data in it. -/
def copyMapLine (x : Xplant) (s : State) (l : Nat) : State :=
  let c := mapCopy x s l
  sentOrEnd c.1.id (sendCopyLine c.1 c.2 (noteMapCopy c.1 l s))

/-- Step 4: up to 256 lines of the bitmap are stored to the destination, read here since the extents are fenced. A poisoned line
has no contents to move. -/
def copyBitmap (x : Xplant) (s : State) : State :=
  if (x.bitmap.take 256).any (linePoison s) then modXplant (fun x => { x with step := 9 }) s
  else (x.bitmap.take 256).foldl (copyMapLine x) s

/-- The device's own extent command: it occupies the command register as any other (R30; DESIGN CHOICE, log 108). -/
def ownExtCommand (run : State → State) (s : State) : State :=
  if (doneGet s extDone).busy ∨ s.ext.run.isSome then s
  else run (doneMod extDone (fun d => { d with busy := true, number := d.number + 1 }) s)

/-- The shard is offered, once the rollover fence of handoffs lets it (R419), with the owner records of its extents: those of the k-th extent at 512 * k and its granule. -/
def offerShard (x : Xplant) (s : State) : State :=
  if offerFence s then fleetRec 0x06 2 x.dest s
  else
  let owners := (List.range x.exts.length).flatMap fun k => (ownersIn s (x.exts.getD k 0)).map fun o => (512 * k + o.1, o.2)
  let (b, w) := match liveTable s x.handle with | some t => t.entry x.shard | none => (0, 0)
  let move (g : Word) : Word := if g = 0 then 0 else mkGsa x.dest (offOf g)
  offerHand .transplant x.dest (mkGsa (servedFdn s) (x.exts.headD 0 * 2 ^ 30))
    { owners := owners, shard := some (x.handle, x.shard, move b, move w) } 0 (modXplant (fun x => { x with step := 5 }) s)

/-- Let the transplant go on as far as it can. Step 9: it has failed, and the extents it had fenced are restored. -/
def xplGo (s : State) : State :=
  match s.emb.xplant with
  | none => s
  | some x =>
    let st (e : Nat) : ExtState := (extDesc s e).state
    match x.step with
    | 1 => copyShard x (emit (.assignAsk x.dest (x.exts.map fun e => (e, extDesc s e))) s)
    | 2 => if x.copies.isEmpty then modXplant (fun x => { x with step := 3 }) s else s
    | 3 =>
      (match x.exts.find? fun e => st e == .assigned with
       | some e => ownExtCommand (revokeRun e) s
       | none => if x.exts.all fun e => st e == .revoked then modXplant (fun x => { x with step := 4 }) s else s)
    | 4 => if !x.copies.isEmpty then s else if x.bitmap.isEmpty then offerShard x s else copyBitmap x s
    | 6 =>
      if now s < x.since + 10000000 then s
      else
        (match x.exts.find? fun e => st e != .free with
         | some e => if st e = .revoked then ownExtCommand (releaseRun e) s else s
         | none => s.modEmb fun e => { e with xplant := none })
    | 9 =>
      (match x.exts.find? fun e => st e == .revoked with
       | some e => ownExtCommand (restoreRun e) s
       | none => if s.ext.run.isSome then s else s.modEmb fun e => { e with xplant := none })
    | _ => s

/-! ### The load interval (R286) -/

/-- The load of one shard in this interval. -/
def shardLoad (s : State) (t : TableVer) (i : Nat) : Nat := Tab.get 0 s.emb.loads (t.handle * 4096 + i)

/-- Shards of a group's live tables that are homed here: table, shard, load. -/
def groupShards (s : State) (g : Nat) : List (TableVer × Nat × Nat) :=
  (s.emb.tables.filter fun t => t.live && t.group == g).flatMap fun t =>
    ((List.range t.map.length).filter fun i => (t.entry i).1 != 0 && isHere s (fdnOf (t.entry i).1)).map fun i => (t, i, shardLoad s t i)

def groupLoad (s : State) (g : Nat) : Nat := ((groupShards s g).map (·.2.2)).sum

/-- The last total a member reported. -/
def memberLoad (s : State) (g : Nat) (f : BitVec 16) : Nat :=
  if f = servedFdn s then groupLoad s g else ((s.emb.totals.find? fun t => t.1 == f && t.2.1 == g).map (·.2.2)).getD 0

/-- Extents of a shard: those of its rows and of its windows. -/
def shardExts (s : State) (t : TableVer) (i : Nat) : List Nat :=
  let (b, w) := t.entry i
  ((if w = 0 then [b] else [b, w]).map fun g => extOf (addr s g)).dedup

/-- Start the transplant that R286 calls for in a group above GLN_XPL_HIGH for three intervals. -/
def startXplant (g : Nat) (s : State) : State :=
  let ms := (groupOf s g).filter fun f => f == servedFdn s || !isFenced s f
  let n := ms.length
  let sum := (ms.map (memberLoad s g)).sum
  let mine := groupLoad s g
  let fits := (groupShards s g).filter fun x => decide (x.2.2 * n ≤ mine * n - sum ∧ 0 < x.2.2)
  let busiest := fits.foldl (fun (a : Option (TableVer × Nat × Nat)) x =>
    match a with | none => some x | some y => if y.2.2 < x.2.2 then some x else a) none
  let low := (ms.filter fun f => f != servedFdn s && decide (100 * n * memberLoad s g f < xplLow s * sum)).foldl
    (fun (a : Option (BitVec 16)) f =>
      match a with | none => some f | some y => if memberLoad s g f < memberLoad s g y then some f else a) none
  match busiest, low with
  | some (t, i, _), some d =>
    xplGo (s.modEmb fun e => { e with
      xplant := some { handle := t.handle, shard := i, dest := d, exts := shardExts s t i, since := now s }, lastXpl := some (now s) })
  | _, _ => s

/-- One group at the end of an interval: the total goes to every member, and an overload of three intervals starts a transplant. -/
def groupInterval (g : Nat) (s : State) : State :=
  let ms := groupOf s g
  let mine := groupLoad s g
  let s := emitAll ((ms.filter (· != servedFdn s)).map fun f => .loads f g mine) s
  let sum := (ms.map (memberLoad s g)).sum
  let over_ := decide (xplHigh s * sum < 100 * ms.length * mine)
  let n := if over_ then Tab.get 0 s.emb.overCount g + 1 else 0
  let s := s.modEmb fun e => { e with overCount := Tab.put 0 g n e.overCount }
  let gap : Bool := match s.emb.lastXpl with
    | none => true
    | some t => decide (t + 1000000000 * (regGet s (Off.gln + 0x338)).toNat ≤ now s)
  if 3 ≤ n ∧ bitOf (regGet s (Off.gln + 0x340)) 1 ∧ s.emb.xplant.isNone ∧ gap then startXplant g s else s

/-- The end of a GLN_LOAD_INT. -/
def loadInterval (s : State) : State :=
  let s := elapsed .loads ((regGet s (Off.gln + 0x320)).toNat * 1000000) s
  let gs := ((s.emb.tables.filter (·.live)).map (·.group)).dedup
  let s := gs.foldl (fun s g => if (groupOf s g).isEmpty then s else groupInterval g s) (xplGo s)
  s.modEmb fun e => { e with loads := [] }

/-- SHARD_LOAD_INTERVAL (R286, R287). -/
def execShardLoadInterval (s : State) := complete loadInterval s

end Sys2Proof.Machine
end

