-- ==== Sys2Proof/Machine/RegPath.lean ====
section
/-! DEFINITION. Writes of the control space and the paths that reach it: BAR0, CONTROL requests, MCTP and JTAG (R6, R7, R25, R86, R120,
R135, R472-R481, R490). A write answers the status that a CONTROL request making it is answered with, none where it is done, or
ignored without a refusal. -/

namespace Sys2Proof.Machine

open Sys2Proof

/-- The state a command of another arm leaves. -/
def ran (o : Host.Outcome State Fault Refusal) (s : State) : State :=
  match o with
  | .next t => t
  | _ => s

/-! ### Plain registers (R6, R7) -/

/-- An agent slot whose sweep runs: it may be written again only after that (R141). -/
def sweepingAgent (s : State) (off : Nat) : Bool := s.coh.sweeps.any fun n => Off.agent n.val == off

/-- A field outside its range, or with a reserved encoding, keeps its value (R6): HOME_STAKE stays 500 ns below the deadline (R135) and
the voltage bounds stay in order (Table 20-2). -/
def refusesValue (s : State) (off : Nat) (v : Word) : Bool :=
  let mv (o : Nat) : Nat := (regGet s (Off.rst + o)).toNat
  let n := fld v 15 0
  badValue off (if isAgentOff off then v &&& ~~~(put 61 1) else v) ||
    (off == Off.home + 8 && decide (deadlineNs s < fld v 10 0 + 500)) ||
    (off == Off.rst + 0x40 && decide (mv 0x48 < n)) || (off == Off.rst + 0x48 && decide (n < mv 0x40))

/-- Two valid slots never carry one IID (R120). -/
def doubleAgent (s : State) (off : Nat) (v : Word) : Bool :=
  isAgentOff off && bitOf v 63 && (List.range 64).any fun n =>
    Off.agent n != off && agentValid s n && decide (fld (regGet s (Off.agent n)) 15 0 = fld v 15 0)

/-- Bits of a register that a writer's class may change: the window writes the mode bits of HP_WIN_CTL and class F its IID (R25, Table
15-3); RAS_EVQ_CTL.all is the image's (Table 17-4). -/
def mayChange (s : State) (wr : Writer) (owner : Option Nat) (off : Nat) : Word :=
  if between 0x40000 0x40000 off ∧ between 0x200 0x80 (off % 0x10000) then
    (if hasCls s wr owner .w then 0xC000000000000000 else 0) ||| (if hasCls s wr owner .f then 0xFFFF else 0)
  else if between (Off.ras + 0x4000) 0x1000 off ∧ off % 0x40 = 0x20 then 0x80000000000000FF
  else BitVec.allOnes 64

/-- A write that would change a field of the image in a register that others write: RAS_EVQ_CTL.all (R7, Table 17-4; log 28). -/
def setsImageBit (off : Nat) (old v : Word) : Bool :=
  decide (between (Off.ras + 0x4000) 0x1000 off ∧ off % 0x40 = 0x20) && (bitOf old 62 != bitOf v 62)

/-- A write of a register with no behaviour of its own. Of the registers with a field of reserved encodings beside other fields a
writer reaches HOME_AGENT alone, whose protocol field keeps its value by itself (R6). -/
def plainWrite (wr : Writer) (r : RegRow) (off : Nat) (v : Word) (s : State) : Option Status × State :=
  let owner := instOwner s off
  let old := regGet s off
  if !allowed s wr owner r.cls then (some .denied, rejected off s)
  else if refusesValue s off v || doubleAgent s off v || sweepingAgent s off then (none, rejected off s)
  else
    let s := onlyIf (setsImageBit off old v) (rejected off) s
    let g := mayChange s wr owner off
    let v := (old &&& ~~~g) ||| (v &&& g)
    if isAgentOff off && bitOf v 61 then (none, rejected off (regSet off (written old off (setFld v 61 60 (fld old 61 60))) s))
    else (none, regSet off (written old off v) s)

/-! ### Command registers (Tables 22-3, 22-5) -/

/-- The status that a CONTROL request writing a command register is answered with (R476, R478). -/
def issueStatus (wr : Writer) (cs : List WCls) (done : Nat) (s : State) : Option Status :=
  if !allowed s wr none cs then some .denied else if (doneGet s done).busy then some .busy else none

/-- A command register of Table 22-5: `run` is the command that the value names; a reserved op completes with MALFORMED and
raises a CONFIG record (R6). -/
def cmdWrite (wr : Writer) (cs : List WCls) (off done : Nat) (run : Option (State → Host.Outcome State Fault Refusal)) (s : State) :
    Option Status × State :=
  (issueStatus wr cs done s,
    match run with
    | some f => ran (f s) s
    | none => (issue wr none cs off done (fun s => cmdDone done .malformed 0 (rejected off s)) s).2)

def extOp (wr : Writer) (v : Word) : Option (State → Host.Outcome State Fault Refusal) :=
  let e := BitVec.ofNat 18 (fld v 17 0)
  match fld v 63 56 with
  | 1 => some (execAssign wr e)
  | 2 => some (execModify wr e)
  | 3 => some (execRegion wr e (BitVec.ofNat 9 (fld v 26 18)) (BitVec.ofNat 10 (fld v 36 27)))
  | 4 => some (execRevoke wr e)
  | 5 => some (execRestore wr e)
  | 6 => some (execExtentRelease wr e)
  | _ => none

def asidOp (wr : Writer) (v : Word) : Option (State → Host.Outcome State Fault Refusal) :=
  match fld v 63 56 with
  | 1 => some (execBind wr (BitVec.ofNat 16 (fld v 15 0)))
  | 2 => some (execUnbind wr (BitVec.ofNat 16 (fld v 15 0)))
  | _ => none

def tableOp (wr : Writer) (v : Word) : Option (State → Host.Outcome State Fault Refusal) :=
  let h := BitVec.ofNat 12 (fld v 11 0)
  match fld v 63 56 with
  | 1 => some (execTableCreate wr h)
  | 2 => some (execTableReplace wr h)
  | 3 => some (execTableDelete wr h)
  | _ => none

def groupOp (wr : Writer) (v : Word) : Option (State → Host.Outcome State Fault Refusal) :=
  match fld v 63 56 with
  | 1 => some (execGroupSet wr (BitVec.ofNat 32 (fld v 31 0)))
  | 2 => some (execGroupClear wr (BitVec.ofNat 32 (fld v 31 0)))
  | _ => none

def indexOp (wr : Writer) (v : Word) : Option (State → Host.Outcome State Fault Refusal) :=
  let h := BitVec.ofNat 10 (fld v 9 0)
  match fld v 63 56 with
  | 1 => some (execIndexCreate wr h)
  | 2 => some (execIndexDestroy wr h)
  | 3 => some (execPin wr h)
  | 4 => some (execUnpin wr h)
  | _ => none

def compOp (wr : Writer) (v : Word) : Option (State → Host.Outcome State Fault Refusal) :=
  let c := BitVec.ofNat 24 (fld v 23 0)
  match fld v 63 56 with
  | 1 => some (execCompPolicy wr c (BitVec.ofNat 2 (fld v 25 24)))
  | 2 => some (execCompReleaseCmd wr c)
  | _ => none

/-- XLT_INV_CMD: the kind of invalidation stands in its staging word (Table 14-7). -/
def invWrite (wr : Writer) (v : Word) (s : State) : Option Status × State :=
  let op := fld (staged s wr (Off.xlt + 0x200)) 63 56
  if fld v 63 56 ≠ 1 ∧ allowed s wr none [.a, .w, .f] then
    (none, doneMod (Off.xlt + 0x228) (fun d => { d with status := .malformed, number := d.number + 1 }) (rejected (Off.xlt + 0x220) s))
  else invStart wr (if op = 2 then 2 else 1) s

/-- The command registers; none for an offset that is not one. -/
def commandWrite (wr : Writer) (off : Nat) (v : Word) (s : State) : Option (Option Status × State) :=
  if off = Off.rst + 0x18 then
    some (cmdWrite wr [.f, .m] off (Off.rst + 0x20) (if fld v 63 56 = 0 then some (execBlockReset wr (BitVec.ofNat 8 (fld v 15 8)) (BitVec.ofNat 8 (fld v 7 0))) else none) s)
  else if off = Off.xlt + 0x80 then some (cmdWrite wr [.f, .m] off (Off.xlt + 0x88) (extOp wr v) s)
  else if off = Off.xlt + 0x110 then some (cmdWrite wr [.a, .w, .f] off (Off.xlt + 0x118) (asidOp wr v) s)
  else if off = Off.xlt + 0x220 then some (invWrite wr v s)
  else if off = Off.nmc + 0x10010 then
    some (cmdWrite wr [.f] off (Off.nmc + 0x10018) (if fld v 63 56 = 1 then some (execGraft wr (Fin.ofNat 16 (fld v 3 0))) else none) s)
  else if off = Off.nmc + 0x10110 then
    some (cmdWrite wr [.f] off (Off.nmc + 0x10120) (if fld v 63 56 = 0 then some (execNmcRsInstall wr (BitVec.ofNat 32 (fld v 31 0)) none) else none) s)
  else if off = Off.nmc + 0x10118 then
    some (cmdWrite wr [.f] off (Off.nmc + 0x10120) (if fld v 63 56 = 0 then some (execNmcRsRetire wr (BitVec.ofNat 32 (fld v 31 0))) else none) s)
  else if off = Off.gln + 0x80 then some (cmdWrite wr [.a, .f] off (Off.gln + 0x88) (tableOp wr v) s)
  else if off = Off.gln + 0x180 then some (cmdWrite wr [.f] off (Off.gln + 0x188) (groupOp wr v) s)
  else if off = Off.prn + 0x80 then some (cmdWrite wr [.a, .f] off (Off.prn + 0x88) (indexOp wr v) s)
  else if off = Off.flt + 0x48 then some (cmdWrite wr [.f] off (Off.flt + 0x50) (if fld v 63 56 = 1 then some (execDrillSchedule wr) else none) s)
  else if off = Off.ras + 0x10 then some (cmdWrite wr [.f, .m] off (Off.ras + 0x18) (compOp wr v) s)
  else none

/-! ### Registers with an action of their own -/

/-- Act when the class may, otherwise ignore the write (R476). -/
def gated (ok : Bool) (off : Nat) (act : State → State) (s : State) : Option Status × State :=
  if ok then (none, act s) else (some .denied, rejected off s)

/-- RST_PWR_CTL (Table 20-5): class C writes cmd alone; a reserved cmd is ignored. -/
def pwrWrite (wr : Writer) (v : Word) (s : State) : Option Status × State :=
  let off := Off.rst + 0x30
  gated (pwrAllowed s wr) off (fun s =>
    let s := if allowed s wr none [.f, .m] then regSet off (written (regGet s off) off v) s else s
    match fld v 1 0 with
    | 1 => enterFallow wr s
    | 2 => leaveFallow s
    | 3 => rejected off s
    | _ => s) s

/-- CFG_NOR_CMD (Table 22-7). -/
def norWrite (wr : Writer) (v : Word) (s : State) : Option Status × State :=
  gated (norAllowed s wr) (Off.cfg + 0x18) (fun s =>
    match fld v 7 0 with
    | 1 => ran (execNorRead wr s) s
    | 2 => ran (execNorProgram wr s) s
    | 3 => ran (execNorErase wr s) s
    | _ => rejected (Off.cfg + 0x18) s) s

/-- HOME_MODE.force (Table 22-13); the encoding 0b11 is reserved. -/
def modeWrite (wr : Writer) (v : Word) (s : State) : Option Status × State :=
  let off := Off.home + 0x10
  gated (allowed s wr none [.f]) off (fun s =>
    match fld v 1 0 with
    | 1 => forceMode true wr s
    | 2 => forceMode false wr s
    | 3 => rejected off s
    | _ => s) s

/-- FAB_LINK_CTL (Table 22-9): bit 0 enables the link, bit 1 resets it. -/
def linkCtlWrite (wr : Writer) (r : RegRow) (off : Nat) (v : Word) (s : State) : Option Status × State :=
  let (st, s) := plainWrite wr r off v s
  (st, if st.isNone && bitOf v 1 then ran (execLinkReset wr (Fin.ofNat 24 ((off - Off.fab) / 0x100)) s) s else s)

/-- Registers of the blocks below the home that act when written. -/
def actLow (wr : Writer) (r : RegRow) (off : Nat) (v : Word) (s : State) : Option Status × State :=
  if off = Off.rst then gated (allowed s wr none r.cls) off (fun s => s.modSys fun y => { y with bits := y.bits &&& ~~~(BitVec.ofNat 7 (fld v 8 2)) }) s
  else if off = Off.rst + 8 then gated (allowed s wr none [.f]) off (fun s => ran (execWarmResetFabric wr v s) s) s
  else if off = Off.rst + 0x30 then pwrWrite wr v s
  else if off = Off.cfg + 8 ∨ off = Off.cfg + 0x10 then gated (norAllowed s wr) off (regSet off (written (regGet s off) off v)) s
  else if off = Off.cfg + 0x18 then norWrite wr v s
  else if off = Off.cfg + 0x20 then gated (norAllowed s wr) off (fun s => ran (execCfgBootClear wr s) s) s
  else if off = Off.cfg + 0x28 then gated (allowed s wr none [.f]) off (fun s => ran (execCfgSvnCommit wr s) s) s
  else if off = Off.cfg + 0x30 then gated (allowed s wr none [.f]) off (fun s => ran (execCfgKeyRevoke wr v s) s) s
  else if between Off.fab 0x1800 off ∧ off % 0x100 = 8 then linkCtlWrite wr r off v s
  else plainWrite wr r off v s

/-- The queue registers (R479, R480). -/
def actQueue (wr : Writer) (q : QueueId) (r : RegRow) (off : Nat) (v : Word) (s : State) : Option Status × State :=
  if off = qBaseOff q then baseWrite wr q v s
  else if off = qSizeOff q then sizeWrite wr q v s
  else if off = qHeadOff q then headWrite wr q v s
  else
    match q with
    | .sq n => if off = Off.pair n.val + 0x18 then sqDoorbell wr n.val v s else plainWrite wr r off v s
    | _ => plainWrite wr r off v s

/-- Registers of the home block and above that act when written. -/
def actHigh (wr : Writer) (r : RegRow) (off : Nat) (v : Word) (s : State) : Option Status × State :=
  if off = Off.home + 0x10 then modeWrite wr v s
  else if off = Off.xlt + 0x300 then faultReply wr v s
  else if off = Off.flt + 0x10 then gated (allowed s wr none [.f]) off (fun s => ran (execFltFenceCmd wr (v.setWidth 16) s) s) s
  else if off = Off.tel then snapWrite wr v s
  else if off = Off.trl + 8 then sealWrite wr v s
  else if off = Off.trl + 0x200 then unlockWrite wr v s
  else if off = Off.trl + 0x208 then lockWrite wr v s
  else if between (Off.trl + 0x300) 0x80 off then selWrite wr ((off - Off.trl - 0x300) / 8) v s
  else if off = Off.trl + 0x400 then injectWrite wr (injectKind v) s
  else if between Off.trl 0x40000 off then
    (if lifecycle s = 2 then (some .denied, rejected off s) else plainWrite wr r off v s)
  else
    match queueAt off with
    | some q => actQueue wr q r off v s
    | none => plainWrite wr r off v s

/-! ### One write -/

/-- A write of one whole register (R472, R474-R480). -/
def regWrite (wr : Writer) (off : Nat) (v : Word) (s : State) : Option Status × State :=
  match regRow off with
  | none => (none, rejected off s)
  | some r =>
    if r.staged then
      gated (allowed s wr none r.cls) off (stageSet (stageOf s wr) off (v &&& r.mask)) s
    else if doneOffs.contains off then
      gated (allowed s wr none r.cls) off (doneMod off fun d => { d with refused := d.refused && !bitOf v 57 }) s
    else
      match commandWrite wr off v s with
      | some x => x
      | none => if off < Off.home ∨ 0x1000000 ≤ off then actLow wr r off v s else actHigh wr r off v s

/-- REGISTER_WRITE (R7): a BAR0 write narrower than a register, or across two, is ignored (R475). -/
def writeSized (wr : Writer) (off size : Nat) (v : Word) (s : State) : State :=
  if size ≠ 8 ∨ off % 8 ≠ 0 then rejected (off / 8 * 8) s else (regWrite wr off v s).2

def execRegisterWrite (wr : Writer) (off : BitVec 25) (size : BitVec 4) (v : Word) (s : State) :=
  complete (writeSized wr off.toNat size.toNat v) s

/-- JRN_LOSS_QUERY (R86): the writer's own copy takes the extent whose loss mark it asks for. -/
def lossQuery (wr : Writer) (v : Word) (s : State) : State := (regWrite wr (Off.jrn + 0x18) v s).2

def execJrnLossQuery (wr : Writer) (v : Word) (s : State) := complete (lossQuery wr v) s

/-! ### CONTROL, MCTP and JTAG -/

/-- A device that management can still reach on VC 5: neither in reset, nor losing power, nor HELD (R442, R453, R454). -/
def vc5Open (s : State) : Bool :=
  match s.sys.phase with
  | .bringUp | .service | .departing => true
  | _ => false

/-- CONTROL (R473-R476): a request on VC 5 from an IID that is no management IID is of no class. -/
def control (r : Req) (vc5 : Bool) (s : State) : State :=
  let wr : Writer := .control r.iid vc5
  let off := fld r.gsa 24 3 * 8
  if !(if vc5 then vc5Open s else admitting s) then answer r (if vc5 then .ny else closedStatus s) 0x3FF [] s
  else if fld r.gsa 2 1 ≠ 0 ∨ fld r.gsa 47 25 ≠ 0 ∨ r.plen ≠ 0 ∨ r.aop ≠ 0 ∨ r.width ≠ 0 ∨ r.post ∨ r.rsvd then answer r .malformed 0 [] s
  else if vc5 && !fmIid s r.iid then answer r .denied 0 [] (rejected off s)
  else if bitOf r.gsa 0 then
    let (st, s) := regWrite wr off r.arg s
    match st with
    | some st => answer r st 0x3FF [] s
    | none => answer r .ok 0 (bytesOfWord (regRead s wr off)) s
  else
    let (v, s) := readClear wr off s
    answer r .ok 0 (bytesOfWord v) s

def execControl (r : Req) (vc5 : Bool) (s : State) := complete (control r vc5) s

/-- MCTP_REQUEST (R473, R475): class C; a read clears nothing. -/
def mctp (write : Bool) (off : Nat) (v : Word) (s : State) : State :=
  if write then (regWrite .mctp off v s).2
  else emit (.regData .mctp off (readClear .mctp off s).1) s

def execMctpRequest (write : Bool) (off : BitVec 25) (v : Word) (s : State) := complete (mctp write off.toNat v) s

/-- TRL_ACCESS (R490): the Trellis registers as class F, and reads of what MCTP may read; nothing in SEALED. -/
def trlAccess (write : Bool) (off : Nat) (v : Word) (s : State) : State :=
  if lifecycle s = 2 then s
  else if write then (if between Off.trl 0x40000 off then (regWrite .jtag off v s).2 else s)
  else emit (.regData .jtag off (readClear .jtag off s).1) s

def execTrlAccess (write : Bool) (off : BitVec 25) (v : Word) (s : State) := complete (trlAccess write off.toNat v) s

/-! ### The time base -/

/-- A nanosecond passes (R375; DESIGN CHOICE, log 1): the time base counts, and a descent to FALLOW, a departure and a transplant that
wait for nothing more go on. -/
def passTime (s : State) : State := xplGo (departGo (fallowGo (tick s)))

end Sys2Proof.Machine
end

