-- ==== Sys2Proof/Machine/Retry.lean ====
section
/-! DEFINITION. What the device's own requesters do when a hint has elapsed (R101), and the end of a codebook cache fill (R253,
R264). -/

namespace Sys2Proof.Machine

open Sys2Proof

/-- NY_HINT_RETRY (R101): the request answered NY is sent again. -/
def retryOf (who : Requester) (s : State) : State :=
  match who with
  | .copyLine id line side => copyRetry id line side s
  | .station core ctx g => giveStations core.val (retryAccess core ctx g s)
  | .unit u g => retryUnit u g s

def execNyHintRetry (who : Requester) (s : State) := complete (retryOf who) s

/-! ### The codebook cache (R253, R264) -/

/-- The codebooks of a list that fit in 4 MiB, the most recent first. -/
def fitCache (s : State) : Nat → List Nat → List Nat
  | _, [] => []
  | room, e :: es =>
    let n := (formP s e).cbBytes
    if n ≤ room then e :: fitCache s (room - n) es else []

/-- A codebook fill completes: with its lines ready, a poisoned line or a crc that does not match cb_crc makes every read of the
data area fail; otherwise the codebook is cached, the least recently used giving way. -/
def codebookFilled (e : Nat) (s : State) : State :=
  if !s.cdc.filling.contains e then s
  else
    let p := formP s e
    let ls := (List.range (32 + ceilDiv p.cbBytes 128)).map (e * 2 ^ 23 + ·)
    let (w, s) := needLines ls s
    match w with
    | some _ => s
    | none =>
      let s := s.modCdc fun c => { c with filling := c.filling.filter (· != e) }
      let bad (st : Status) (code : BitVec 8) : State :=
        checkRec code (e * 2 ^ 30) 0 (s.modCdc fun c => { c with bad := c.bad.filter (·.1 != e) ++ [(e, st)] })
      if ls.any (linePoison s) then pump (bad .poison 0x04)
      else if crc32c (codebookOf s e p) ≠ (storedLine s (e * 2 ^ 23)).extractLsb' 0 32 then
        pump (bad .checkFail 0x01)
      else pump (s.modCdc fun c => { c with cached := fitCache s (4 * 2 ^ 20) (e :: c.cached.filter (· != e)) })

/-- CODEBOOK_FILL_COMPLETE (R264). -/
def execCodebookFillComplete (ext : BitVec 18) (s : State) := complete (codebookFilled ext.toNat) s

end Sys2Proof.Machine
end

