-- ==== Sys2Proof/Machine/Sieve.lean ====
section
/-! DEFINITION. SIEVE: tables in its lookup SRAM and its seven commands (R257-R260, Table 11-8). -/

namespace Sys2Proof.Machine

open Sys2Proof

def Cmd.handle (c : Cmd) : Nat := c.c.toNat % 4
def Body.table (b : Body) (h : Nat) : List Byte := Tab.get [] b.tables h

/-- Pages of 4 KiB that a set of tables takes (R257). -/
def tablePages (ts : List (Nat × List Byte)) : Nat := (ts.map fun t => ceilDiv t.2.length 4096).sum

/-- Pages that the other contexts of a core hold. -/
def pagesElse (s : State) (core : Fin 16) (ctx : Fin 8) : Nat :=
  (s.nmc.jobs.map fun e => if e.1 / 8 = core.val ∧ e.1 % 8 ≠ ctx.val then tablePages e.2.b.tables else 0).sum

def sieve (code : Nat) (core : Fin 16) (ctx : Fin 8) (f : Cmd → Station → Tile → Option Tile → Body → TileRes) (fin : Cmd → Carry → List Tile)
    (s : State) : State := runStep core ctx (tileStep 5 code f fin) s

/-- LOADCB of one tile: the first tile of the command replaces the handle's old table, later ones extend it. Too few free pages make
it wait (R257). -/
def loadcbTile (others : Nat) (c : Cmd) (s : Station) (t : Tile) (_ : Option Tile) (b : Body) : TileRes :=
  let old := if s.consumed = 0 then [] else b.table c.handle
  let ts := Tab.put [] c.handle (old ++ t.data) b.tables
  if 256 < others + tablePages ts then .wait else .out {} [] 0 { b with tables := ts }

/-- LOADCB (Table 11-8). -/
def execLoadcb (core : Fin 16) (ctx : Fin 8) (s : State) :=
  complete (fun s => sieve 1 core ctx (loadcbTile (pagesElse s core ctx)) (fun _ _ => []) s) s

/-- The check of a coded tile: its form and bytes, or how it ends the job (R258). -/
def codedIn (t : Tile) : (FormP × List Byte) ⊕ (Nat × Status) :=
  let bs := t.data
  match blkForm bs with
  | none => .inr (7, .malformed)
  | some p =>
    match blkCheck (BitVec.ofNat 32 (fld (wordAtByte bs 0) 55 37 * 2 ^ 13)) p bs.length bs with
    | some .checkFail => .inr (5, .checkFail)
    | some _ => .inr (7, .malformed)
    | none => if fmtIsCode t.h.fmt.toNat then .inl (p, bs) else .inr (7, .malformed)

/-- Flags that decoding a block sets: those of each element's conversion (R199, R247). -/
def decodeFlags (p : FormP) (cb bs : List Byte) : BitVec 5 :=
  orFlags ((List.range (4096 / p.e)).map fun n =>
    (cvtFloat p.ff false ((decF32 (blkScale bs)).mul (p.ff.dec (cbElem p cb (n / p.d % p.g) (blkCode p bs (n / p.d)) (n % p.d))))).2)

/-- A decoded tile of `cols` elements a row; an EMPTY input gives a zero tile in the format of the command's last block, untyped before
the first (log 11). -/
def decodeTile (c : Cmd) (s : Station) (t : Tile) (_ : Option Tile) (b : Body) : TileRes :=
  let cols := c.mode.toNat % 8192
  let out (fmt e : Nat) (bs : List Byte) (fl : BitVec 5) : TileRes :=
    if cols = 0 ∨ 4096 % (cols * e) ≠ 0 then badTile
    else .out { n := fmt } [mkTile fmt (4096 / (cols * e)) cols (cols * e) bs t.h.origin t.h.user] fl b
  if t.h.empty then
    out s.carry.n ((fmtBits s.carry.n).getD 8 / 8) (List.replicate 4096 0) 0
  else
    match codedIn t with
    | .inr (k, st) => .bad k st
    | .inl (p, bs) =>
      let cb := b.table c.handle
      if cb.length ≠ p.cbBytes then badTile else out p.fmt p.e (blkDecode p cb bs) (decodeFlags p cb bs)

/-- DECODE (Table 11-8). -/
def execDecode (core : Fin 16) (ctx : Fin 8) (s : State) := complete (sieve 2 core ctx decodeTile fun _ _ => []) s

def encodeTile (c : Cmd) (_ : Station) (t : Tile) (_ : Option Tile) (b : Body) : TileRes :=
  if t.h.empty then .out {} [emptyTile false t.h.origin t.h.user] 0 b
  else
    let fp := c.a.extractLsb' 32 32
    match formOf fp with
    | none => badTile
    | some p =>
      let cb := b.table c.handle
      if t.h.bytes ≠ 4096 ∨ (t.h.fmt.toNat ≠ p.fmt ∧ t.h.fmt ≠ 0) ∨ cb.length ≠ p.cbBytes then badTile
      else
        let el := (List.range (4096 / p.e)).map fun i => payBits t.pay (8 * p.e * i) (8 * p.e)
        match encodeBlock fp p cb (c.b.setWidth 32) (c.a.setWidth 32) (c.mode.toNat % 512) el with
        | none => badTile
        | some bs => .out {} [mkTile p.vq 1 p.n (rowBytes p.b p.n) bs t.h.origin t.h.user] 0 b

/-- ENCODE (Table 11-8, R259). -/
def execEncode (core : Fin 16) (ctx : Fin 8) (s : State) := complete (sieve 3 core ctx encodeTile fun _ _ => []) s

/-- Untyped tiles of 4,096 bytes of a byte string. -/
def byteTiles (origin : Word) (user : BitVec 32) : Nat → List Byte → List Tile
  | 0, _ => []
  | n + 1, bs => if bs.isEmpty then [] else byteTile (bs.take 4096) origin user :: byteTiles origin user n (bs.drop 4096)

def lookupTile (c : Cmd) (_ : Station) (t : Tile) (_ : Option Tile) (b : Body) : TileRes :=
  if t.h.empty then .out {} [emptyTile false t.h.origin t.h.user] 0 b
  else if !fmtIsCode t.h.fmt.toNat then badTile
  else
    let m := c.mode.toNat
    let sz := 2 ^ (m % 4)
    let g := m / 256 % 128 + 1
    let k := 2 ^ t.bits
    let tb := b.table c.handle
    if tb.length ≠ g * k * sz then badTile
    else
      .out {} (byteTiles t.h.origin t.h.user 64 (t.cells.flatMap fun (r, p) =>
        (tb.drop (((p % g) * k + t.elem t.bits r p) * sz)).take sz)) 0 b

/-- LOOKUP (Table 11-8). -/
def execLookup (core : Fin 16) (ctx : Fin 8) (s : State) := complete (sieve 4 core ctx lookupTile fun _ _ => []) s

/-! ### LUTACC (R260) -/

def f32At (bs : List Byte) (i : Nat) : Num := decF32 (BitVec.ofNat 32 (natOfBytes ((bs.drop (4 * i)).take 4)))

/-- One block, or a ZERO block, of a matrix: the row sums so far and the results of the rows that end in it. The carry holds the open
row's sum, the blocks of it so far (n), and the FP32 results not yet emitted (bytes). -/
def lutBlock (dd e : Nat) (tb : List Byte) (blk : Option (FormP × List Byte)) (k : Carry) (fl : BitVec 5) : Carry × BitVec 5 :=
  let terms (lo n first : Nat) : List Num :=
    match blk with
    | none => [.fin false 0 0]
    | some (p, bs) => (List.range n).map fun i => (decF32 (blkScale bs)).mul (f32At tb ((first + i) * p.k + blkCode p bs (lo + i)))
  let emitRow (a : Int × Int × Nat) (k : Carry) : Carry := { k with bytes := k.bytes ++ bytesOfNat 4 (encF32 (sumNum a)).toNat }
  let n := (blk.map (·.1.n)).getD 0
  if 4096 ≤ dd * e then
    let a := (terms 0 n (k.n * n)).foldl sumAdd (k.sums.headD (0, 0, 0))
    if dd * e / 4096 ≤ k.n + 1 then ({ emitRow a k with sums := [], n := 0 }, fl ||| sumFlags a)
    else ({ k with sums := [a], n := k.n + 1 }, fl)
  else
    let rows := 4096 / (dd * e)
    (List.range rows).foldl (fun (x : Carry × BitVec 5) r =>
      let a := (terms (r * (n / rows)) (n / rows) 0).foldl sumAdd (0, 0, 0)
      (emitRow a x.1, x.2 ||| sumFlags a)) (k, fl)

/-- FP32 column tiles of 1,024 rows as they fill; what is left stays in the carry. -/
def fullColumns (user : BitVec 32) : Nat → List Byte → List Tile × List Byte
  | 0, bs => ([], bs)
  | n + 1, bs =>
    if bs.length < 4096 then ([], bs)
    else
      let (ts, rest) := fullColumns user n (bs.drop 4096)
      (mkTile 0x01 1024 1 4 (bs.take 4096) 0 user :: ts, rest)

/-- LUTACC of one block. ZERO blocks that come before the first coded one wait in the carry until it tells the element size. -/
def lutaccTile (c : Cmd) (s : Station) (t : Tile) (_ : Option Tile) (b : Body) : TileRes :=
  let dd := c.mode.toNat % 65536
  let tb := b.table c.handle
  let (e, zeros) := s.carry.pairs.headD (0, 0)
  let close (k : Carry) (e : Nat) (fl : BitVec 5) : TileRes :=
    let (ts, rest) := fullColumns t.h.user 64 k.bytes
    .out { k with bytes := rest, pairs := [(BitVec.ofNat 32 e, 0)] } ts fl b
  if t.h.empty then
    if e = 0 then .out { s.carry with pairs := [(0, zeros + 1)] } [] 0 b
    else (let (k, fl) := lutBlock dd e.toNat tb none s.carry 0; close k e.toNat fl)
  else
    match codedIn t with
    | .inr (k, st) => .bad k st
    | .inl (p, bs) =>
      if dd = 0 ∨ dd % p.d ≠ 0 ∨ (dd * p.e % 4096 ≠ 0 ∧ 4096 % (dd * p.e) ≠ 0) ∨ blkOut bs ≠ 0 ∨ tb.length ≠ dd / p.d * p.k * 4 ∨
          (e ≠ 0 ∧ e.toNat ≠ p.e) then badTile
      else
        let (k, fl) := (List.range zeros.toNat).foldl (fun (x : Carry × BitVec 5) _ => lutBlock dd p.e tb none x.1 x.2) (s.carry, 0)
        let (k, fl) := lutBlock dd p.e tb (some (p, bs)) k fl
        close k p.e fl

def lutaccEnd (_ : Cmd) (k : Carry) : List Tile :=
  if k.bytes.isEmpty then [] else [mkTile 0x01 (k.bytes.length / 4) 1 4 k.bytes 0 0]

/-- LUTACC (R260). -/
def execLutacc (core : Fin 16) (ctx : Fin 8) (s : State) := complete (sieve 5 core ctx lutaccTile lutaccEnd) s

/-! ### ADC and FILTER -/

/-- The FP16 entry of a distance table. -/
def f16At (bs : List Byte) (i : Nat) : Num := fp16.dec (natOfBytes ((bs.drop (2 * i)).take 2))

def adcTile (c : Cmd) (s : Station) (t : Tile) (_ : Option Tile) (b : Body) : TileRes :=
  if t.h.empty then .out s.carry [emptyTile false t.h.origin t.h.user] 0 b
  else if t.h.fmt ≠ 0x19 ∨ (b.table c.handle).length ≠ t.h.cols * 512 then badTile
  else
    let tb := b.table c.handle
    let sums := (List.range t.h.rows).map fun r =>
      (List.range t.h.cols).foldl (fun a m => sumAdd a (f16At tb (m * 256 + t.elem 8 r m))) ((0, 0, 0) : Int × Int × Nat)
    let ps := (List.range t.h.rows).map fun r =>
      (encF32 (sumNum (sums.getD r (0, 0, 0))), c.a.setWidth 32 + BitVec.ofNat 32 (s.carry.n + r))
    .out { s.carry with n := s.carry.n + t.h.rows } (pairTiles t.h.user 8 ps) (orFlags (sums.map sumFlags)) b

/-- ADC (Table 11-8). -/
def execAdc (core : Fin 16) (ctx : Fin 8) (s : State) := complete (sieve 6 core ctx adcTile fun _ _ => []) s

def filterTile (c : Cmd) (_ : Station) (t : Tile) (_ : Option Tile) (b : Body) : TileRes :=
  if t.h.empty then .out {} [emptyTile false t.h.origin t.h.user] 0 b
  else if t.h.fmt ≠ 0x1C then badTile
  else
    let th := decF32 (c.b.setWidth 32)
    let keep := t.pairs.filter fun p =>
      let x := decF32 p.1
      !x.isNan && !th.isNan && (if c.mode.getLsbD 0 then !x.lt th else !th.lt x)
    let o := match pairTiles t.h.user 1 keep with
      | [] => emptyTile false t.h.origin t.h.user
      | o :: _ => { o with h := { o.h with origin := t.h.origin, short := o.h.short || decide (keep.length < t.pairs.length) } }
    .out {} [o] 0 b

/-- FILTER (Table 11-8). -/
def execFilter (core : Fin 16) (ctx : Fin 8) (s : State) := complete (sieve 7 core ctx filterTile fun _ _ => []) s

end Sys2Proof.Machine
end

