-- ==== Sys2Proof/Machine/Dispatch.lean ====
section
/-! DEFINITION. The meaning of each command, one arm per row of spec/opcode_table.json. -/

namespace Sys2Proof.Machine

open Sys2Proof

def exec (i : Instr) (s : State) : Host.Outcome State Fault Refusal :=
  match i with
  | .hostAccess win w a => Sys2Proof.Machine.execHostAccess win w a s
  | .assign wr ext => Sys2Proof.Machine.execAssign wr ext s
  | .modify wr ext => Sys2Proof.Machine.execModify wr ext s
  | .region wr ext first count => Sys2Proof.Machine.execRegion wr ext first count s
  | .revoke wr ext => Sys2Proof.Machine.execRevoke wr ext s
  | .revokeDrainComplete => Sys2Proof.Machine.execRevokeDrainComplete s
  | .revokeDrainBound => Sys2Proof.Machine.execRevokeDrainBound s
  | .restore wr ext => Sys2Proof.Machine.execRestore wr ext s
  | .extentRelease wr ext => Sys2Proof.Machine.execExtentRelease wr ext s
  | .flashTrim mu => Sys2Proof.Machine.execFlashTrim mu s
  | .load r => Sys2Proof.Machine.execLoad r s
  | .store r => Sys2Proof.Machine.execStore r s
  | .storePart r => Sys2Proof.Machine.execStorePart r s
  | .codedWrite r => Sys2Proof.Machine.execCodedWrite r s
  | .atomic r => Sys2Proof.Machine.execAtomic r s
  | .copy r => Sys2Proof.Machine.execCopy r s
  | .copyRegister owner r g => Sys2Proof.Machine.execCopyRegister owner r g s
  | .copyLineAnswer copyId line side st hint data => Sys2Proof.Machine.execCopyLineAnswer copyId line side st hint data s
  | .copyNyBound copyId line side => Sys2Proof.Machine.execCopyNyBound copyId line side s
  | .counterAdvance iid gsa amount err => Sys2Proof.Machine.execCounterAdvance iid gsa amount err s
  | .counterAdvanceRetry id => Sys2Proof.Machine.execCounterAdvanceRetry id s
  | .wait r => Sys2Proof.Machine.execWait r s
  | .barrier r => Sys2Proof.Machine.execBarrier r s
  | .barrierComplete id => Sys2Proof.Machine.execBarrierComplete id s
  | .acquire r => Sys2Proof.Machine.execAcquire r s
  | .release r => Sys2Proof.Machine.execRelease r s
  | .publish r => Sys2Proof.Machine.execPublish r s
  | .readVersion r => Sys2Proof.Machine.execReadVersion r s
  | .ownershipCommit base => Sys2Proof.Machine.execOwnershipCommit base s
  | .control r vc5 => Sys2Proof.Machine.execControl r vc5 s
  | .responseDeadline n => Sys2Proof.Machine.execResponseDeadline n s
  | .answerArrival a => Sys2Proof.Machine.execAnswerArrival a s
  | .trackerTimeout iid tag => Sys2Proof.Machine.execTrackerTimeout iid tag s
  | .bucketPay b => Sys2Proof.Machine.execBucketPay b s
  | .bucketAdapt uses => Sys2Proof.Machine.execBucketAdapt uses s
  | .fillComplete frame res => Sys2Proof.Machine.execFillComplete frame res s
  | .mergeFillComplete frame res => Sys2Proof.Machine.execMergeFillComplete frame res s
  | .writebackComplete mu res => Sys2Proof.Machine.execWritebackComplete mu res s
  | .backgroundCleaning set => Sys2Proof.Machine.execBackgroundCleaning set s
  | .garbageCollection die => Sys2Proof.Machine.execGarbageCollection die s
  | .wearLevelling die => Sys2Proof.Machine.execWearLevelling die s
  | .tierDecay => Sys2Proof.Machine.execTierDecay s
  | .pinHbmPrefetch frame => Sys2Proof.Machine.execPinHbmPrefetch frame s
  | .stripeMemberReceive home stripe member mu data => Sys2Proof.Machine.execStripeMemberReceive home stripe member mu data s
  | .hbmUncorrectable e => Sys2Proof.Machine.execHbmUncorrectable e s
  | .segmentProgramStart seg => Sys2Proof.Machine.execSegmentProgramStart seg s
  | .segmentProgramComplete seg => Sys2Proof.Machine.execSegmentProgramComplete seg s
  | .compostPass => Sys2Proof.Machine.execCompostPass s
  | .mirrorReceive home j => Sys2Proof.Machine.execMirrorReceive home j s
  | .mirrorConfirm buddy jsn st => Sys2Proof.Machine.execMirrorConfirm buddy jsn st s
  | .pairLate jsn => Sys2Proof.Machine.execPairLate jsn s
  | .mirrorResend jsn => Sys2Proof.Machine.execMirrorResend jsn s
  | .mirrorReleaseSend buddy => Sys2Proof.Machine.execMirrorReleaseSend buddy s
  | .mirrorRelease home jsn => Sys2Proof.Machine.execMirrorRelease home jsn s
  | .buddyCopyReceive home mu data => Sys2Proof.Machine.execBuddyCopyReceive home mu data s
  | .buddyCopyTimeout mu => Sys2Proof.Machine.execBuddyCopyTimeout mu s
  | .keyRecordReceive home ext key => Sys2Proof.Machine.execKeyRecordReceive home ext key s
  | .pwrfailFall => Sys2Proof.Machine.execPwrfailFall s
  | .pwrfailConfirm => Sys2Proof.Machine.execPwrfailConfirm s
  | .flushComplete => Sys2Proof.Machine.execFlushComplete s
  | .groupProgramComplete => Sys2Proof.Machine.execGroupProgramComplete s
  | .tentativeVoid jsn => Sys2Proof.Machine.execTentativeVoid jsn s
  | .mirrorFetch home lo hi => Sys2Proof.Machine.execMirrorFetch home lo hi s
  | .mirrorFetchEnd buddy recs => Sys2Proof.Machine.execMirrorFetchEnd buddy recs s
  | .mirrorFetchTimeout buddy => Sys2Proof.Machine.execMirrorFetchTimeout buddy s
  | .jrnLossQuery wr v => Sys2Proof.Machine.execJrnLossQuery wr v s
  | .rdS m => Sys2Proof.Machine.execRdS m s
  | .rdE m => Sys2Proof.Machine.execRdE m s
  | .upg m => Sys2Proof.Machine.execUpg m s
  | .wbD m => Sys2Proof.Machine.execWbD m s
  | .evictC m => Sys2Proof.Machine.execEvictC m s
  | .rspI m => Sys2Proof.Machine.execRspI m s
  | .rspS m => Sys2Proof.Machine.execRspS m s
  | .rspE m => Sys2Proof.Machine.execRspE m s
  | .rspID m => Sys2Proof.Machine.execRspID m s
  | .rspSD m => Sys2Proof.Machine.execRspSD m s
  | .rspED m => Sys2Proof.Machine.execRspED m s
  | .fenceAck m => Sys2Proof.Machine.execFenceAck m s
  | .resetAck m => Sys2Proof.Machine.execResetAck m s
  | .snpInv win line tag => Sys2Proof.Machine.execSnpInv win line tag s
  | .snpData win line tag => Sys2Proof.Machine.execSnpData win line tag s
  | .snpCur win line tag => Sys2Proof.Machine.execSnpCur win line tag s
  | .gntS win line tag data => Sys2Proof.Machine.execGntS win line tag data s
  | .gntE win line tag data => Sys2Proof.Machine.execGntE win line tag data s
  | .gntEND win line tag => Sys2Proof.Machine.execGntEND win line tag s
  | .cmpWb win line tag st => Sys2Proof.Machine.execCmpWb win line tag st s
  | .nack win line tag st hint => Sys2Proof.Machine.execNack win line tag st hint s
  | .stakeWindowClose line => Sys2Proof.Machine.execStakeWindowClose line s
  | .reservationExpire line => Sys2Proof.Machine.execReservationExpire line s
  | .snoopTimeout line slot => Sys2Proof.Machine.execSnoopTimeout line slot s
  | .lostAgentSweepEnd slot => Sys2Proof.Machine.execLostAgentSweepEnd slot s
  | .modeFenceTimeout => Sys2Proof.Machine.execModeFenceTimeout s
  | .placeholderExpire line slot => Sys2Proof.Machine.execPlaceholderExpire line slot s
  | .resumeWindowEnd => Sys2Proof.Machine.execResumeWindowEnd s
  | .rebuildTimeout => Sys2Proof.Machine.execRebuildTimeout s
  | .dirEntryRepair line => Sys2Proof.Machine.execDirEntryRepair line s
  | .nmcSqDb wr pair v => Sys2Proof.Machine.execNmcSqDb wr pair v s
  | .jobDispatch pair => Sys2Proof.Machine.execJobDispatch pair s
  | .run core ctx => Sys2Proof.Machine.execRun core ctx s
  | .resume core ctx => Sys2Proof.Machine.execResume core ctx s
  | .suspend pair => Sys2Proof.Machine.execSuspend pair s
  | .suspendBodyWritten core ctx => Sys2Proof.Machine.execSuspendBodyWritten core ctx s
  | .cancel pair => Sys2Proof.Machine.execCancel pair s
  | .jobForward origin pair iid desc => Sys2Proof.Machine.execJobForward origin pair iid desc s
  | .contextSwitch core ctx => Sys2Proof.Machine.execContextSwitch core ctx s
  | .tileVisible core ctx slot => Sys2Proof.Machine.execTileVisible core ctx slot s
  | .tileConsumed core ctx stream => Sys2Proof.Machine.execTileConsumed core ctx stream s
  | .jobRestart core ctx cause => Sys2Proof.Machine.execJobRestart core ctx cause s
  | .jobNoProgress core ctx => Sys2Proof.Machine.execJobNoProgress core ctx s
  | .jobTimeLimit core ctx => Sys2Proof.Machine.execJobTimeLimit core ctx s
  | .jobCommitComplete core ctx => Sys2Proof.Machine.execJobCommitComplete core ctx s
  | .cqRecordWrite x => Sys2Proof.Machine.execCqRecordWrite x s
  | .nmcRsInstall wr version data => Sys2Proof.Machine.execNmcRsInstall wr version data s
  | .nmcRsRetire wr version => Sys2Proof.Machine.execNmcRsRetire wr version s
  | .rsRetireBound => Sys2Proof.Machine.execRsRetireBound s
  | .graft wr core => Sys2Proof.Machine.execGraft wr core s
  | .dibberInstruction core ctx rt => Sys2Proof.Machine.execDibberInstruction core ctx rt s
  | .nmcCmdPush core ctx rd v => Sys2Proof.Machine.execNmcCmdPush core ctx rd v s
  | .nmcCommit core ctx rd v => Sys2Proof.Machine.execNmcCommit core ctx rd v s
  | .nmcFewer core ctx rd v => Sys2Proof.Machine.execNmcFewer core ctx rd v s
  | .nmcArithStatus core ctx rd v => Sys2Proof.Machine.execNmcArithStatus core ctx rd v s
  | .nmcTileTake core ctx rd v => Sys2Proof.Machine.execNmcTileTake core ctx rd v s
  | .nmcTileFree core ctx rd v => Sys2Proof.Machine.execNmcTileFree core ctx rd v s
  | .nmcTileAlloc core ctx rd v => Sys2Proof.Machine.execNmcTileAlloc core ctx rd v s
  | .nmcTileEmit core ctx rd v => Sys2Proof.Machine.execNmcTileEmit core ctx rd v s
  | .read core ctx => Sys2Proof.Machine.execRead core ctx s
  | .readRows core ctx => Sys2Proof.Machine.execReadRows core ctx s
  | .stage core ctx => Sys2Proof.Machine.execStage core ctx s
  | .zero core ctx => Sys2Proof.Machine.execZero core ctx s
  | .mma core ctx => Sys2Proof.Machine.execMma core ctx s
  | .emit core ctx => Sys2Proof.Machine.execEmit core ctx s
  | .tillerLoad core ctx => Sys2Proof.Machine.execTillerLoad core ctx s
  | .dtab core ctx => Sys2Proof.Machine.execDtab core ctx s
  | .lutmv core ctx => Sys2Proof.Machine.execLutmv core ctx s
  | .add core ctx => Sys2Proof.Machine.execAdd core ctx s
  | .sub core ctx => Sys2Proof.Machine.execSub core ctx s
  | .mul core ctx => Sys2Proof.Machine.execMul core ctx s
  | .fma core ctx => Sys2Proof.Machine.execFma core ctx s
  | .min core ctx => Sys2Proof.Machine.execMin core ctx s
  | .max core ctx => Sys2Proof.Machine.execMax core ctx s
  | .abs core ctx => Sys2Proof.Machine.execAbs core ctx s
  | .neg core ctx => Sys2Proof.Machine.execNeg core ctx s
  | .cmp core ctx => Sys2Proof.Machine.execCmp core ctx s
  | .sel core ctx => Sys2Proof.Machine.execSel core ctx s
  | .exp core ctx => Sys2Proof.Machine.execExp core ctx s
  | .exp2 core ctx => Sys2Proof.Machine.execExp2 core ctx s
  | .log core ctx => Sys2Proof.Machine.execLog core ctx s
  | .log2 core ctx => Sys2Proof.Machine.execLog2 core ctx s
  | .rsqrt core ctx => Sys2Proof.Machine.execRsqrt core ctx s
  | .recip core ctx => Sys2Proof.Machine.execRecip core ctx s
  | .sqrt core ctx => Sys2Proof.Machine.execSqrt core ctx s
  | .div core ctx => Sys2Proof.Machine.execDiv core ctx s
  | .tanh core ctx => Sys2Proof.Machine.execTanh core ctx s
  | .rowSum core ctx => Sys2Proof.Machine.execRowSum core ctx s
  | .rowMax core ctx => Sys2Proof.Machine.execRowMax core ctx s
  | .softmax core ctx => Sys2Proof.Machine.execSoftmax core ctx s
  | .topk core ctx => Sys2Proof.Machine.execTopk core ctx s
  | .cvt core ctx => Sys2Proof.Machine.execCvt core ctx s
  | .iadd core ctx => Sys2Proof.Machine.execIadd core ctx s
  | .isub core ctx => Sys2Proof.Machine.execIsub core ctx s
  | .imul core ctx => Sys2Proof.Machine.execImul core ctx s
  | .logic core ctx => Sys2Proof.Machine.execLogic core ctx s
  | .shift core ctx => Sys2Proof.Machine.execShift core ctx s
  | .isat core ctx => Sys2Proof.Machine.execIsat core ctx s
  | .loadcb core ctx => Sys2Proof.Machine.execLoadcb core ctx s
  | .decode core ctx => Sys2Proof.Machine.execDecode core ctx s
  | .encode core ctx => Sys2Proof.Machine.execEncode core ctx s
  | .lookup core ctx => Sys2Proof.Machine.execLookup core ctx s
  | .lutacc core ctx => Sys2Proof.Machine.execLutacc core ctx s
  | .adc core ctx => Sys2Proof.Machine.execAdc core ctx s
  | .filter core ctx => Sys2Proof.Machine.execFilter core ctx s
  | .portGlean core ctx => Sys2Proof.Machine.execPortGlean core ctx s
  | .portSow core ctx => Sys2Proof.Machine.execPortSow core ctx s
  | .portPrune core ctx => Sys2Proof.Machine.execPortPrune core ctx s
  | .gather inst => Sys2Proof.Machine.execGather inst s
  | .bag inst => Sys2Proof.Machine.execBag inst s
  | .sowAdd inst => Sys2Proof.Machine.execSowAdd inst s
  | .harvest inst => Sys2Proof.Machine.execHarvest inst s
  | .tableCreate wr handle => Sys2Proof.Machine.execTableCreate wr handle s
  | .tableReplace wr handle => Sys2Proof.Machine.execTableReplace wr handle s
  | .tableDelete wr handle => Sys2Proof.Machine.execTableDelete wr handle s
  | .groupSet wr group => Sys2Proof.Machine.execGroupSet wr group s
  | .groupClear wr group => Sys2Proof.Machine.execGroupClear wr group s
  | .cuttingRequest holder handle row => Sys2Proof.Machine.execCuttingRequest holder handle row s
  | .cutDrop home handle row => Sys2Proof.Machine.execCutDrop home handle row s
  | .cuttingLeaseEnd handle row hot => Sys2Proof.Machine.execCuttingLeaseEnd handle row hot s
  | .shardLoadInterval => Sys2Proof.Machine.execShardLoadInterval s
  | .indexCreate wr handle => Sys2Proof.Machine.execIndexCreate wr handle s
  | .indexDestroy wr handle => Sys2Proof.Machine.execIndexDestroy wr handle s
  | .pin wr handle => Sys2Proof.Machine.execPin wr handle s
  | .unpin wr handle => Sys2Proof.Machine.execUnpin wr handle s
  | .search inst => Sys2Proof.Machine.execSearch inst s
  | .scan inst => Sys2Proof.Machine.execScan inst s
  | .insert inst => Sys2Proof.Machine.execInsert inst s
  | .delete inst => Sys2Proof.Machine.execDelete inst s
  | .entry inst => Sys2Proof.Machine.execEntry inst s
  | .indexCommitWaitBound core ctx => Sys2Proof.Machine.execIndexCommitWaitBound core ctx s
  | .indexRestamp handle item => Sys2Proof.Machine.execIndexRestamp handle item s
  | .bind wr asid => Sys2Proof.Machine.execBind wr asid s
  | .unbind wr asid => Sys2Proof.Machine.execUnbind wr asid s
  | .xltFaultResp wr v => Sys2Proof.Machine.execXltFaultResp wr v s
  | .faultTimeout id => Sys2Proof.Machine.execFaultTimeout id s
  | .invRange wr => Sys2Proof.Machine.execInvRange wr s
  | .invAsid wr => Sys2Proof.Machine.execInvAsid wr s
  | .invComplete num => Sys2Proof.Machine.execInvComplete num s
  | .invDrainBound num => Sys2Proof.Machine.execInvDrainBound num s
  | .hostReadTimeout port addr => Sys2Proof.Machine.execHostReadTimeout port addr s
  | .rdcurrAnswer port addr poison data => Sys2Proof.Machine.execRdcurrAnswer port addr poison data s
  | .hotPageDecay => Sys2Proof.Machine.execHotPageDecay s
  | .memrd win addr mf tag => Sys2Proof.Machine.execMemrd win addr mf tag s
  | .memwr win addr mf tag poison data => Sys2Proof.Machine.execMemwr win addr mf tag poison data s
  | .memwrptl win addr tag poison be data => Sys2Proof.Machine.execMemwrptl win addr tag poison be data s
  | .meminv win addr tag => Sys2Proof.Machine.execMeminv win addr tag s
  | .birsp win line half k data => Sys2Proof.Machine.execBirsp win line half k data s
  | .h2dSnoop port addr => Sys2Proof.Machine.execH2dSnoop port addr s
  | .apertureGo win slot r => Sys2Proof.Machine.execApertureGo win slot r s
  | .apertureRead win slot off => Sys2Proof.Machine.execApertureRead win slot off s
  | .holdReissue win tag => Sys2Proof.Machine.execHoldReissue win tag s
  | .holdMaxExpire win tag => Sys2Proof.Machine.execHoldMaxExpire win tag s
  | .hdmDecoderCommit win j d => Sys2Proof.Machine.execHdmDecoderCommit win j d s
  | .hostLinkUp port lnk st => Sys2Proof.Machine.execHostLinkUp port lnk st s
  | .hostLinkDown port lnk => Sys2Proof.Machine.execHostLinkDown port lnk s
  | .functionLevelReset win => Sys2Proof.Machine.execFunctionLevelReset win s
  | .recallBound => Sys2Proof.Machine.execRecallBound s
  | .linkEnable n => Sys2Proof.Machine.execLinkEnable n s
  | .linkTrained n t => Sys2Proof.Machine.execLinkTrained n t s
  | .ident n id lanesAgree => Sys2Proof.Machine.execIdent n id lanesAgree s
  | .lcrd n vc bclass shared credits => Sys2Proof.Machine.execLcrd n vc bclass shared credits s
  | .flitReceive n f => Sys2Proof.Machine.execFlitReceive n f s
  | .replay n seq => Sys2Proof.Machine.execReplay n seq s
  | .replayTimer n => Sys2Proof.Machine.execReplayTimer n s
  | .modeChg n echo mode => Sys2Proof.Machine.execModeChg n echo mode s
  | .fecEvaluate n m => Sys2Proof.Machine.execFecEvaluate n m s
  | .spare n done lane => Sys2Proof.Machine.execSpare n done lane s
  | .laneLoss n lane => Sys2Proof.Machine.execLaneLoss n lane s
  | .spareComplete n => Sys2Proof.Machine.execSpareComplete n s
  | .tsync n response t1 t2 t3 => Sys2Proof.Machine.execTsync n response t1 t2 t3 s
  | .tsyncSend => Sys2Proof.Machine.execTsyncSend s
  | .tsyncTimeout => Sys2Proof.Machine.execTsyncTimeout s
  | .pdown n => Sys2Proof.Machine.execPdown n s
  | .linkDown n => Sys2Proof.Machine.execLinkDown n s
  | .linkRetrain n => Sys2Proof.Machine.execLinkRetrain n s
  | .linkReset wr n => Sys2Proof.Machine.execLinkReset wr n s
  | .messageRoute m => Sys2Proof.Machine.execMessageRoute m s
  | .pathHoldExpire vc key => Sys2Proof.Machine.execPathHoldExpire vc key s
  | .modulePresence n advertised => Sys2Proof.Machine.execModulePresence n advertised s
  | .moduleReady n apps => Sys2Proof.Machine.execModuleReady n apps s
  | .moduleInterrupt n flags => Sys2Proof.Machine.execModuleInterrupt n flags s
  | .opticsPoll n flags monitor => Sys2Proof.Machine.execOpticsPoll n flags monitor s
  | .ceStormEnd => Sys2Proof.Machine.execCeStormEnd s
  | .eventRecordWrite win => Sys2Proof.Machine.execEventRecordWrite win s
  | .event m => Sys2Proof.Machine.execEvent m s
  | .fatalError block inst sliceOut => Sys2Proof.Machine.execFatalError block inst sliceOut s
  | .compList h comp exposed => Sys2Proof.Machine.execCompList h comp exposed s
  | .compContain src m comp => Sys2Proof.Machine.execCompContain src m comp s
  | .compRelease src m comp => Sys2Proof.Machine.execCompRelease src m comp s
  | .containmentStart fdn => Sys2Proof.Machine.execContainmentStart fdn s
  | .compPolicy wr comp policy => Sys2Proof.Machine.execCompPolicy wr comp policy s
  | .compReleaseCmd wr comp => Sys2Proof.Machine.execCompReleaseCmd wr comp s
  | .watchdogExpire => Sys2Proof.Machine.execWatchdogExpire s
  | .pulseSend => Sys2Proof.Machine.execPulseSend s
  | .pulse n h p => Sys2Proof.Machine.execPulse n h p s
  | .pulseSilence n => Sys2Proof.Machine.execPulseSilence n s
  | .suspect voter subject m => Sys2Proof.Machine.execSuspect voter subject m s
  | .clear voter subject m => Sys2Proof.Machine.execClear voter subject m s
  | .suspectHoldEnd subject => Sys2Proof.Machine.execSuspectHoldEnd subject s
  | .isolation => Sys2Proof.Machine.execIsolation s
  | .fence h reason => Sys2Proof.Machine.execFence h reason s
  | .unfence h => Sys2Proof.Machine.execUnfence h s
  | .join h peers rejoin => Sys2Proof.Machine.execJoin h peers rejoin s
  | .joinAns h time fenced cell spare => Sys2Proof.Machine.execJoinAns h time fenced cell spare s
  | .joinRetry => Sys2Proof.Machine.execJoinRetry s
  | .adoptReq h => Sys2Proof.Machine.execAdoptReq h s
  | .adoptAns h st => Sys2Proof.Machine.execAdoptAns h st s
  | .controlStateReceived c => Sys2Proof.Machine.execControlStateReceived c s
  | .adopt h spareFdn => Sys2Proof.Machine.execAdopt h spareFdn s
  | .adoptRetry subject => Sys2Proof.Machine.execAdoptRetry subject s
  | .returnWaitExpire subject => Sys2Proof.Machine.execReturnWaitExpire subject s
  | .memberFind h mu => Sys2Proof.Machine.execMemberFind h mu s
  | .memberLoc h mu stripe member => Sys2Proof.Machine.execMemberLoc h mu stripe member s
  | .stripeRebuild mu => Sys2Proof.Machine.execStripeRebuild mu s
  | .offer h e c => Sys2Proof.Machine.execOffer h e c s
  | .received h e => Sys2Proof.Machine.execReceived h e s
  | .reclaim h e => Sys2Proof.Machine.execReclaim h e s
  | .handoffExpiry seq => Sys2Proof.Machine.execHandoffExpiry seq s
  | .ledgerQueryDue offerer seq => Sys2Proof.Machine.execLedgerQueryDue offerer seq s
  | .ledgerQuery h e => Sys2Proof.Machine.execLedgerQuery h e s
  | .ledgerState h e => Sys2Proof.Machine.execLedgerState h e s
  | .drillSchedule wr => Sys2Proof.Machine.execDrillSchedule wr s
  | .drill h w0 w1 => Sys2Proof.Machine.execDrill h w0 w1 s
  | .drillStart => Sys2Proof.Machine.execDrillStart s
  | .drillEnd realFault => Sys2Proof.Machine.execDrillEnd realFault s
  | .marginSample m inst value low => Sys2Proof.Machine.execMarginSample m inst value low s
  | .fltFenceCmd wr fdn => Sys2Proof.Machine.execFltFenceCmd wr fdn s
  | .coldReset => Sys2Proof.Machine.execColdReset s
  | .resetNFall held => Sys2Proof.Machine.execResetNFall held s
  | .resetNRise => Sys2Proof.Machine.execResetNRise s
  | .warmResetFabric wr v => Sys2Proof.Machine.execWarmResetFabric wr v s
  | .warmResetBegin drained => Sys2Proof.Machine.execWarmResetBegin drained s
  | .thermalTrip group => Sys2Proof.Machine.execThermalTrip group s
  | .bringUpStep f => Sys2Proof.Machine.execBringUpStep f s
  | .supplyOutOfLimits rail => Sys2Proof.Machine.execSupplyOutOfLimits rail s
  | .blockReset wr code inst => Sys2Proof.Machine.execBlockReset wr code inst s
  | .norRead wr => Sys2Proof.Machine.execNorRead wr s
  | .norProgram wr => Sys2Proof.Machine.execNorProgram wr s
  | .norErase wr => Sys2Proof.Machine.execNorErase wr s
  | .cfgBootClear wr => Sys2Proof.Machine.execCfgBootClear wr s
  | .cfgSvnCommit wr => Sys2Proof.Machine.execCfgSvnCommit wr s
  | .cfgKeyRevoke wr v => Sys2Proof.Machine.execCfgKeyRevoke wr v s
  | .voltagePolicy m => Sys2Proof.Machine.execVoltagePolicy m s
  | .avsReadback r => Sys2Proof.Machine.execAvsReadback r s
  | .sensorSample core io hbm => Sys2Proof.Machine.execSensorSample core io hbm s
  | .dormantEntry => Sys2Proof.Machine.execDormantEntry s
  | .fallowEnter wr => Sys2Proof.Machine.execFallowEnter wr s
  | .fallowLeave wr => Sys2Proof.Machine.execFallowLeave wr s
  | .smbusStart sdaFell sclFell => Sys2Proof.Machine.execSmbusStart sdaFell sclFell s
  | .mctpRequest write off v => Sys2Proof.Machine.execMctpRequest write off v s
  | .pwrfailProbe below => Sys2Proof.Machine.execPwrfailProbe below s
  | .driverOvercurrent group ball => Sys2Proof.Machine.execDriverOvercurrent group ball s
  | .refclkLoss c => Sys2Proof.Machine.execRefclkLoss c s
  | .queueBaseWrite wr q v => Sys2Proof.Machine.execQueueBaseWrite wr q v s
  | .queueHeadWrite wr q v => Sys2Proof.Machine.execQueueHeadWrite wr q v s
  | .modeForceTabled wr => Sys2Proof.Machine.execModeForceTabled wr s
  | .modeForceRetry wr => Sys2Proof.Machine.execModeForceRetry wr s
  | .telSnap wr v => Sys2Proof.Machine.execTelSnap wr v s
  | .registerWrite wr off size v => Sys2Proof.Machine.execRegisterWrite wr off size v s
  | .trlUnlockCmd wr v => Sys2Proof.Machine.execTrlUnlockCmd wr v s
  | .unlockExpire => Sys2Proof.Machine.execUnlockExpire s
  | .trlLock wr v => Sys2Proof.Machine.execTrlLock wr v s
  | .trlSeal wr v => Sys2Proof.Machine.execTrlSeal wr v s
  | .trlSel wr ix v => Sys2Proof.Machine.execTrlSel wr ix v s
  | .injectPoison wr => Sys2Proof.Machine.execInjectPoison wr s
  | .injectSramCe wr => Sys2Proof.Machine.execInjectSramCe wr s
  | .injectTileStore wr => Sys2Proof.Machine.execInjectTileStore wr s
  | .injectSnoopWithhold wr => Sys2Proof.Machine.execInjectSnoopWithhold wr s
  | .injectFlashRead wr => Sys2Proof.Machine.execInjectFlashRead wr s
  | .trlAccess write off v => Sys2Proof.Machine.execTrlAccess write off v s
  | .extest balls => Sys2Proof.Machine.execExtest balls s
  | .pwrfailRise => Sys2Proof.Machine.execPwrfailRise s
  | .perstNChange port lnk released => Sys2Proof.Machine.execPerstNChange port lnk released s
  | .moduleRemoval n => Sys2Proof.Machine.execModuleRemoval n s
  | .moduleReadyTimeout n => Sys2Proof.Machine.execModuleReadyTimeout n s
  | .refclkReturn c => Sys2Proof.Machine.execRefclkReturn c s
  | .quiesceBound => Sys2Proof.Machine.execQuiesceBound s
  | .forwardStale id => Sys2Proof.Machine.execForwardStale id s
  | .nyHintRetry who => Sys2Proof.Machine.execNyHintRetry who s
  | .rcRead win off => Sys2Proof.Machine.execRcRead win off s
  | .controlMirrorReceive home c => Sys2Proof.Machine.execControlMirrorReceive home c s
  | .controlMirrorConfirm mirror k => Sys2Proof.Machine.execControlMirrorConfirm mirror k s
  | .keyDestroy home ext => Sys2Proof.Machine.execKeyDestroy home ext s
  | .cutDropConfirm holder handle row => Sys2Proof.Machine.execCutDropConfirm holder handle row s
  | .shardLoadTotals member group loads => Sys2Proof.Machine.execShardLoadTotals member group loads s
  | .stripeMemberRead reader home stripe member => Sys2Proof.Machine.execStripeMemberRead reader home stripe member s
  | .codebookFillComplete ext => Sys2Proof.Machine.execCodebookFillComplete ext s
  | .fosterInstallDone home ext => Sys2Proof.Machine.execFosterInstallDone home ext s
  | .norCommandComplete => Sys2Proof.Machine.execNorCommandComplete s
  | .snapshotComplete => Sys2Proof.Machine.execSnapshotComplete s

end Sys2Proof.Machine
end

