-- ==== Sys2Proof/Safety.lean ====
section
/-! DEFINITION. The terms in which statements about runs are made. -/

namespace Sys2Proof.Machine

open Sys2Proof

/-- The command at the front of the queue is done when only the commands behind it wait. -/
def Drained (s : State) : Prop := s.pending = []

/-- Nothing waits at the slices and at the directory: no request, no coherence message, no transaction and no mode fence. -/
def Quiet (s : State) : Prop :=
  s.home.waiting = [] ∧ s.coh.held = [] ∧ s.coh.queue = [] ∧ s.coh.txns = [] ∧ s.coh.fence = none

/-- The command takes `s` to `t`, and the waiting commands stay as they are. -/
def Does (c : Instr) (s t : State) : Prop := exec c s = .next { t with pending := s.pending }

/-- A writer may start a command of a register: the register names one of its classes, and no command of it runs (R476, R478). -/
def Ready (s : State) (wr : Writer) (owner : Option Nat) (cs : List WCls) (done : Nat) : Prop :=
  allowed s wr owner cs = true ∧ (doneGet s done).busy = false

/-- A command of a register is accepted: its completion register says busy and counts one command more (Table 22-4). -/
def accepted (done : Nat) (s : State) : State := doneMod done (fun d => { d with busy := true, number := d.number + 1 }) s

/-- Fuses `g` are fuses `f` with none but further fuses blown: key slots stay revoked, the security version only rises, the lifecycle
stays or becomes SEALED, and nothing else changes (R438, R486). -/
structure Burned (f g : Fuses) : Prop where
  rest : g.serial = f.serial ∧ g.badCores = f.badCores ∧ g.digests = f.digests ∧ g.attemptMax = f.attemptMax ∧ g.codes = f.codes
  revoked : f.revoked &&& g.revoked = f.revoked
  svn : f.svn ≤ g.svn
  lifecycle : g.lifecycle = f.lifecycle ∨ g.lifecycle = 2

/-- A job is in service in a context that owns its core's stations (R165). -/
def Owns (core : Fin 16) (ctx : Fin 8) (j : Job) (s : State) : Prop :=
  jobAt s (jobKey core ctx) = some j ∧ j.phase = .ready ∧ ownerCtx s core.val = some ctx.val

/-- A station's command `c` of a code has its next input tiles, none poisoned nor an end mark, and no output of it waits for room
(R171). -/
def TileReady (st code : Nat) (c : Cmd) (a : Tile) (ob : Option Tile) (b : Body) : Prop :=
  (b.station st).cur = some c ∧ c.cmd = code ∧ (b.settle st).station st = b.station st ∧ (b.station st).outq = [] ∧
  (b.settle st).next c.inA = some a ∧
  (if c.inB = noneStream then ob = none else ∃ y, (b.settle st).next c.inB = some y ∧ ob = some y) ∧
  a.h.poison = false ∧ (∀ y, ob = some y → y.h.poison = false) ∧ (a.h.empty && a.h.last) = false

/-- A body after a station's command has worked a tile into `b`: its inputs are consumed, its flags are raised, its outputs follow, with
those that end the command after the last tile (R171, R220). -/
def tileDone (st : Nat) (c : Cmd) (fin : Cmd → Carry → List Tile) (a : Tile) (carry : Carry) (ts : List Tile) (fl : BitVec 5)
    (consumed : Nat) (b : Body) : Body :=
  let done := if c.count = 0 then a.h.last else decide (c.count ≤ consumed + 1)
  let b := b.take c.inA
  let b := if c.inB = noneStream ∨ c.inB = c.inA then b else b.take c.inB
  let b := { b with arith := b.arith ||| fl }
  let b := b.setStation st fun s => { s with consumed := s.consumed + 1, carry := carry }
  b.emitTiles st c (ts ++ (if done then fin c carry else [])) done

end Sys2Proof.Machine
end

