-- ==== Sys2Proof/Certificates/Slice0/Obligations.lean ====
section
/-! DEFINITION. The statements for the provers. -/

open Sys2Proof Sys2Proof.Machine

/-! ### The block as a machine -/

/-- A step carries out the command at the front of the queue on the rest of it. -/
def Obligations.StepRunsFrontCommand : Prop :=
  ∀ (c : Instr) (rest : List Instr) (s : State), s.pending = c :: rest → step s = exec c { s with pending := rest }

/-- With no command waiting a step is the next advance of the time base, by one nanosecond or, while the device is slewed forward, by two; what waits for time alone then goes on. That a step with an empty queue is this advance is the model's choice (DESIGN CHOICE, log 1; R375, R376). -/
def Obligations.IdleStepPassesTime : Prop :=
  (∀ s : State, s.pending = [] → step s = .next (passTime s)) ∧
  (∀ s : State, now s < now (tick s) ∧ now (tick s) ≤ now s + 2 ∧ (s.fab.slew = 0 → now (tick s) = now s + 1))

/-- No command stops the block, and none touches the queue of waiting commands. -/
def Obligations.EveryCommandAnswersNext : Prop :=
  ∀ (c : Instr) (s : State), ∃ t, exec c s = .next t ∧ t.pending = s.pending

/-- From every state, as many steps as commands wait are all taken, and leave none waiting. -/
def Obligations.QueueDrains : Prop :=
  ∀ s : State, ∃ t, Sys2Proof.core.run s.pending.length s = .next t ∧ Drained t

/-- Whatever the state and whatever command waits, a step leaves every fuse as it was or blows more: a revoked key slot stays revoked, the minimum security version never falls, the lifecycle stays as it is or becomes SEALED, and the serial number, bad-core map, key digests, attempt limit and ball codes never change (R438: "Both are irreversible"; R486: "A state changes only forward"). -/
def Obligations.FusesOnlyBurn : Prop :=
  ∀ s t : State, step s = .next t →
    (t.cfg.fuses.serial = s.cfg.fuses.serial ∧ t.cfg.fuses.badCores = s.cfg.fuses.badCores ∧ t.cfg.fuses.digests = s.cfg.fuses.digests ∧
      t.cfg.fuses.attemptMax = s.cfg.fuses.attemptMax ∧ t.cfg.fuses.codes = s.cfg.fuses.codes) ∧
    (∀ k : Fin 4, s.cfg.fuses.revoked.getLsbD k = true → t.cfg.fuses.revoked.getLsbD k = true) ∧
    s.cfg.fuses.svn ≤ t.cfg.fuses.svn ∧ (t.cfg.fuses.lifecycle = s.cfg.fuses.lifecycle ∨ t.cfg.fuses.lifecycle = 2)

/-- Every step keeps the stored bytes of the HBM in their one canonical form, addresses strictly rising and no entry equal to what an unlisted byte reads as, so that equal memories are equal data. -/
def Obligations.HbmStaysCanonical : Prop :=
  ∀ s t : State, step s = .next t → Memory.wf s.tier.hbm = true → Memory.wf t.tier.hbm = true

/-- No step moves the time base back. The commands that may begin a cold start, or the end of a thermal trip, are the only exceptions: they set it to 0 (R375: "It never moves backwards", "It is 0 at cold reset"). -/
def Obligations.TimeNeverMovesBack : Prop :=
  ∀ s t : State, step s = .next t →
    (∀ c rest, s.pending = c :: rest → c ≠ .coldReset ∧ c ≠ .flushComplete ∧ c ≠ .pwrfailRise ∧ (∀ a b d, c ≠ .sensorSample a b d) ∧
      (∀ r, c ≠ .supplyOutOfLimits r)) →
    now s ≤ now t

/-! ### Numbers and addresses (00, 02, 03) -/

/-- R8: serial-number order of a counter of `w` bits is the given function of the difference. -/
def Obligations.SerialNumberOrder : Prop :=
  ∀ (w : Nat) (a b : BitVec w), seqLt w a.toNat b.toNat = decide ((b - a).toNat ≠ 0 ∧ (b - a).toNat < 2 ^ (w - 1))

/-- R17: the slice of a line is the exclusive or of three fields of its GSA. R39: the set of a frame, which lies among the sets of the tier cache. -/
def Obligations.SliceAndSet : Prop :=
  (∀ g : Word, sliceOf g.toNat = (g.extractLsb' 7 5 ^^^ g.extractLsb' 12 5 ^^^ g.extractLsb' 17 5).toNat) ∧
  (∀ (s : State) (f : Nat), setOf s f = (f ^^^ (f >>> 20)) % nsets s ∧ setOf s f < nsets s)

/-- R19: an IID has a right on an extent exactly where a valid range that holds the IID gives it. -/
def Obligations.RightsAreUnion : Prop :=
  ∀ (d : ExtDesc) (iid : BitVec 16),
    let holds (r : Range) : Prop := r ∈ d.ranges ∧ r.valid = true ∧ r.lo.toNat ≤ iid.toNat ∧ iid.toNat ≤ r.hi.toNat
    ((rightsOf d iid).rd = true ↔ ∃ r, holds r ∧ r.rd = true) ∧
    ((rightsOf d iid).wr = true ↔ ∃ r, holds r ∧ r.wr = true) ∧
    ((rightsOf d iid).atom = true ↔ ∃ r, holds r ∧ r.atom = true) ∧
    ((rightsOf d iid).own = true ↔ ∃ r, holds r ∧ r.own = true)

/-! ### Memory, the tier and flash (03) -/

/-- A full-line store leaves exactly its bytes in the line, makes it D and clean of poison, and leaves every other byte of the HBM
as it was (R41, R94). -/
def Obligations.StoreLineWritesLine : Prop :=
  ∀ (s : State) (line : Nat) (data : List Byte), Memory.wf s.tier.hbm = true → data.length = 128 →
    policyOf s (line / 128) ≠ .flashOnly →
    let t := storeLine line (BitVec.allOnes 128) data s
    lineBytes t line = data ∧ Memory.wf t.tier.hbm = true ∧
    (∀ a, ¬(128 * line ≤ a ∧ a < 128 * line + 128) → readByte t.tier.hbm a = readByte s.tier.hbm a) ∧
    (tagOf t (line / 128)).valid.getLsbD (line % 128) = true ∧ lineDirty t line = true ∧ linePoison t line = false

/-- The data of a fill makes its frame PRESENT, and that of a merge fill ends its merge: every line is then valid and the dirty ones
stay as they are; whatever waited for the frame then goes on (R42). A write-back's
program, an HBM error, a frame to prefetch and the background cleaner act as R43, R46, R47, R49 and R59 set out. -/
def Obligations.TierCompletions : Prop :=
  (∀ (f : Nat) (res : MediaRead) (s : State), (tagOf s f).state = .filling →
    exec (.fillComplete f res) s = .next { (pump (endFill f res s) : State) with pending := s.pending }) ∧
  (∀ (f : Nat) (res : MediaRead) (s : State), (tagOf s f).merging = true →
    exec (.mergeFillComplete f res) s = .next { (pump (endFill f res s) : State) with pending := s.pending }) ∧
  (∀ (f : Nat) (res : MediaRead) (s : State),
    let t := tagOf (installFill f res s) f
    t.valid = BitVec.allOnes 128 ∧ t.merging = false ∧ t.dirty = (tagOf s f).dirty ∧
      ((tagOf s f).state = .filling → t.state = .present)) ∧
  (∀ (mu : Nat) (res : MediaRead) (s : State) (w : WriteBack), s.tier.wbs.find? (·.mu == mu) = some w → w.homeDone = false →
    w.buddy = none →
    exec (.writebackComplete mu res) s =
      .next { (let r := readOld w res s; pump (wbAgain r.1 (finishWriteBack r.1 r.2)) : State) with pending := s.pending }) ∧
  (∀ (set : Nat) (s : State), exec (.backgroundCleaning set) s =
    .next { (if bandwidthTaken s 4 then s else cleanSet set 2 s : State) with pending := s.pending }) ∧
  (∀ (set : Nat) (s : State), 2 ≤ cleanWays s set → exec (.backgroundCleaning set) s = .next { s with pending := s.pending }) ∧
  (∀ (f : Nat) (s : State), s.tier.prefetch.contains (extOfFrame f) = true → policyOf s f ≠ .pinHbm →
    exec (.pinHbmPrefetch f) s =
      .next { ({ s with tier := { s.tier with prefetch := s.tier.prefetch.filter (· != extOfFrame f) } } : State) with pending := s.pending }) ∧
  (∀ (line : Nat) (s : State), (tagOf s (line / 128)).valid.getLsbD (line % 128) = true → lineDirty s line = true →
    exec (.hbmUncorrectable ⟨line, false⟩) s =
      .next { (pump (mirrorPoison line (poisonLine line 0 (memRec 0x01 1 line s))) : State) with pending := s.pending } ∧
    exec (.hbmUncorrectable ⟨line, true⟩) s = .next { (pump (pageError line (memRec 0x02 0 line s)) : State) with pending := s.pending })

/-- TIER_DECAY, one interval after the last, halves every access count and lets HOT and THRASH be posted again; no line and no other part
of the machine changes (R4, R50, R51). -/
def Obligations.TierDecayHalvesCounts : Prop :=
  ∀ s : State, ∃ t, exec .tierDecay s = .next t ∧
    t = { reach (s.tier.decayAt + (regGet s (Off.tier + 0x10)).toNat * 1000000) s with tier := t.tier } ∧ t.tier.decayAt = now t ∧
    (∀ f, (tagOf t f).count = (tagOf s f).count / 2 ∧ (tagOf t f).state = (tagOf s f).state ∧
      (tagOf t f).valid = (tagOf s f).valid ∧ (tagOf t f).dirty = (tagOf s f).dirty) ∧
    t.tier.hbm = s.tier.hbm ∧ t.tier.hotPosted = [] ∧ t.tier.thrashPosted = []

/-- FLASH_TRIM takes a unit off the list of units to trim (R33 step 3); KEY_DESTROY drops every copy of one extent's key that this device
keeps, the wrapped one, those of its journal and its mirrors, and that of a control state, and confirms (R33 step 1). Nothing else
changes. Garbage collection and wear levelling change only the flash side and its telemetry, keep every byte that flash holds and every
mapped unit mapped, and erase no block but one of the die named; the flush area is erased again before any block is collected (R47, R52,
R54). -/
def Obligations.FlashUpkeep : Prop :=
  ((∀ (mu : Nat) (s : State),
     exec (.flashTrim mu) s = .next { s with ext := { s.ext with trim := s.ext.trim.filter (· != mu) } }) ∧
   (∀ (home : BitVec 16) (ext : BitVec 18) (s : State),
     let keyOf (r : JRec) : Prop := (∃ k, r.body = .key k) ∧ fdnOf r.gsa = home ∧ extNo r.gsa = ext.toNat
     ∃ t, exec (.keyDestroy home ext) s = .next t ∧
       t = { s with flash := t.flash, jrn := t.jrn, flt := t.flt, out := s.out ++ [.keyGone home ext.toNat] } ∧
       t.flash.data = s.flash.data ∧ t.flash.keys = s.flash.keys ∧
       (∀ w, w ∈ t.flash.wrapped ↔ w ∈ s.flash.wrapped ∧ w.1 ≠ home.toNat * 2 ^ 18 + ext.toNat) ∧
       (∀ x, x ∈ t.jrn.ring ↔ x ∈ s.jrn.ring ∧ ¬keyOf x.rc) ∧ (∀ e, e ∈ t.jrn.live ↔ e ∈ s.jrn.live ∧ ¬keyOf e.2) ∧
       (∀ m, m ∈ t.jrn.mirrors ↔ m ∈ s.jrn.mirrors ∧ ¬keyOf m.rc))) ∧
  (∀ (die : BitVec 10) (s : State), ∀ c ∈ [Instr.garbageCollection die, Instr.wearLevelling die],
     ∃ t, exec c s = .next t ∧ t = { s with
         flash := t.flash, tel := t.tel, jrn := { s.jrn with areaErased := s.jrn.areaErased || t.jrn.areaErased } } ∧
       (s.jrn.areaErased = false → t.flash = s.flash ∨ c = .wearLevelling die) ∧ t.flash.data = s.flash.data ∧
       t.flash.poison = s.flash.poison ∧ t.flash.keys = s.flash.keys ∧
       (∀ mu, (mapOf s mu).mapped = true → (mapOf t mu).mapped = true) ∧
       (∀ k, k / 65536 ≠ die.toNat → Tab.get 0 t.flash.erases k = Tab.get 0 s.flash.erases k))

/-- A stripe member, or a copy for a buddy, is stored and confirmed OK while the stripe reserve has room, and is otherwise refused with
QUEUE_FULL and not stored (R55, R77). Nothing else changes. -/
def Obligations.ReserveTakesUnits : Prop :=
  (∀ (home : BitVec 16) (stripe : BitVec 42) (member : Fin 10) (mu : BitVec 32) (data : List Byte) (s : State),
    ∃ t, exec (.stripeMemberReceive home stripe member mu data) s = .next t ∧ t = { s with flash := t.flash, out := t.out } ∧
      (s.flash.held.length < reserveUnits s →
        t.out = s.out ++ [.memberData home stripe.toNat member .ok []] ∧
        { home := home, stripe := stripe.toNat, member := member, mu := mu.toNat, data := data } ∈ t.flash.held) ∧
      (reserveUnits s ≤ ((s.flash.held.filter fun x => !(x.home == home && !x.isCopy && x.stripe == stripe.toNat && x.member == member.val)).filter
          fun x => x.home != servedFdn s).length →
        t.out = s.out ++ [.memberData home stripe.toNat member .queueFull []] ∧ t.flash = s.flash)) ∧
  (∀ (home : BitVec 16) (mu : BitVec 32) (data : List Byte) (s : State),
    ∃ t, exec (.buddyCopyReceive home mu data) s = .next t ∧ t = { s with flash := t.flash, out := t.out } ∧
      (s.flash.held.length < reserveUnits s →
        t.out = s.out ++ [.unitAns home mu.toNat .ok] ∧
        { home := home, mu := mu.toNat, isCopy := true, data := data } ∈ t.flash.held) ∧
      (reserveUnits s ≤ ((s.flash.held.filter fun x => !(x.home == home && x.isCopy && x.mu == mu.toNat)).filter
          fun x => x.home != servedFdn s).length →
        t.out = s.out ++ [.unitAns home mu.toNat .queueFull] ∧ t.flash = s.flash))

/-! ### The journal and hold-up (04) -/

/-- SEGMENT_PROGRAM_START begins the program of a segment that is not under program (R69); MIRROR_FETCH is answered with the mirrored
records kept for that home in the interval (R497); MIRROR_RELEASE_SEND tells a buddy how far records are folded, once (R76). Nothing
else changes. MIRROR_RELEASE drops the mirrored records of that home up to the jsn (R76); KEY_RECORD_RECEIVE keeps the wrapped key of that
home's extent (R77). Each writes one record, with the next jsn, and leaves the extents, the tier and every other home's records as
they were. -/
def Obligations.JournalMessages : Prop :=
  ((∀ (seg : Nat) (s : State) (g : Seg), s.jrn.segs.find? (·.id == seg) = some g → drainStopped s = false → g.state ≠ .programming →
     ∃ t, exec (.segmentProgramStart seg) s = .next t ∧ t = { s with
       sys := t.sys
       jrn := { s.jrn with segs := s.jrn.segs.map fun h => if h.id = seg then { h with state := .programming } else h } }) ∧
   (∀ (home : BitVec 16) (lo hi : Nat) (s : State), exec (.mirrorFetch home lo hi) s = .next { s with
     out := s.out ++ [.fetched home
       (byJsn ((s.jrn.mirrors.filter fun m => m.home == home && decide (lo ≤ m.rc.jsn ∧ m.rc.jsn ≤ hi)).map (·.rc)))] }) ∧
   (∀ (b : BitVec 16) (s : State), Tab.get 0 s.jrn.released b.toNat < s.jrn.foldedTo →
     ∃ t, exec (.mirrorReleaseSend b) s = .next t ∧ t = { s with jrn := t.jrn, out := s.out ++ [.release b s.jrn.foldedTo] } ∧
       Tab.get 0 t.jrn.released b.toNat = s.jrn.foldedTo ∧ t.jrn.ring = s.jrn.ring ∧
       (∀ m, m ∈ t.jrn.mirrored ↔ m ∈ s.jrn.mirrored ∧ ¬(m.1 = b ∧ m.2.jsn ≤ s.jrn.foldedTo)))) ∧
  ((∀ (home : BitVec 16) (jsn : Nat) (s : State), ∃ t, exec (.mirrorRelease home jsn) s = .next t ∧
     t = { s with jrn := t.jrn, ras := t.ras, tel := t.tel, out := t.out } ∧ t.jrn.nextJsn = s.jrn.nextJsn + 1 ∧
     (∀ m, m ∈ t.jrn.mirrors ↔ m ∈ s.jrn.mirrors ∧ ¬(m.home = home ∧ m.rc.jsn ≤ jsn))) ∧
   (∀ (home : BitVec 16) (ext : BitVec 18) (key : Nat) (s : State), 0 < key → ∃ t, exec (.keyRecordReceive home ext key) s = .next t ∧
     t = { s with flash := { s.flash with wrapped := t.flash.wrapped }, jrn := t.jrn, ras := t.ras, tel := t.tel, out := t.out } ∧
     t.jrn.nextJsn = s.jrn.nextJsn + 1 ∧ Tab.get 0 t.flash.wrapped (home.toNat * 262144 + ext.toNat) = key ∧
     (∀ k, k ≠ home.toNat * 262144 + ext.toNat → Tab.get 0 t.flash.wrapped k = Tab.get 0 s.flash.wrapped k)))

/-- The programs of the journal and its mirrors: a programmed segment's records are durable and the segment leaves the ring (R69); a
commit group's program ends (R81); a compost pass folds the live journal (R72); a mirrored record is stored once and confirmed, and a
record already held is confirmed again (R74); an unknown confirmation is counted (R110); an unadopted tentative record is voided 1 ms
after its program (R81); the fetch of mirrored records ends, or is lost and marks its extents (R497). Timers of the journal: a late mirror leaves its request to its deadline's rule (R75); a mirror is resent and its next resend set
one response deadline later (R75); a buddy's copy that does not come leaves the home's copy alone (R77); a tentative record nobody
adopts is voided (R81). -/
def Obligations.JournalCompletions : Prop :=
  ((∀ (seg : Nat) (s : State), (s.jrn.segs.any fun g => g.id == seg && g.state == .programming) = true →
     exec (.segmentProgramComplete seg) s = .next { (pump ((programRecs (fun x => x.seg == seg) s).modJrn fun j => { j with
       segs := j.segs.filter (·.id != seg) }) : State) with pending := s.pending }) ∧
   (∀ s : State, s.jrn.groupRun = true → (programRecs (·.inGroup) s).jrn.ring.filter (fun x => x.rc.tentative && x.programmed) = [] →
     exec .groupProgramComplete s =
       .next { (pump (startGroup (endProgrammedBarriers ((programRecs (·.inGroup) s).modJrn fun j => { j with groupRun := false }))) : State) with pending := s.pending }) ∧
   (∀ s : State, exec .compostPass s = .next { (compost s : State) with pending := s.pending }) ∧
   (∀ s : State, s.jrn.live = [] → s.jrn.groupRun = true → ∃ t, exec .compostPass s = .next t ∧
     t = { s with jrn := { s.jrn with compost := t.jrn.compost, foldedTo := t.jrn.foldedTo } }) ∧
   (∀ (home : BitVec 16) (rc : JRec) (s : State), s.sys.phase ≠ .powerFail → s.sys.phase ≠ .flushed → isFenced s home = false →
     (∀ n, rc.body ≠ .other n) → recSound rc = true → s.jrn.mirrors.any (fun m => m.home == home && m.rc.jsn == rc.jsn) = true →
     exec (.mirrorReceive home rc) s = .next { ({ s with out := s.out ++ [.confirm home rc.jsn .ok] } : State) with pending := s.pending }) ∧
   (∀ (home : BitVec 16) (rc : JRec) (s : State), s.sys.phase ≠ .powerFail → s.sys.phase ≠ .flushed → isFenced s home = false →
     (∀ n, rc.body ≠ .other n) → recSound rc = true → s.jrn.mirrors.any (fun m => m.home == home && m.rc.jsn == rc.jsn) = false →
     slotOk s (if isControl rc then .control else .mirrored) = true →
     exec (.mirrorReceive home rc) s = .next { (emit (.confirm home rc.jsn .ok)
       ((enterSlot { rc with mirrored := true } home (shadow { rc with mirrored := true } s)).modJrn fun j => { j with
         mirrors := j.mirrors ++ [{ home := home, rc := { rc with mirrored := true } }] }) : State) with pending := s.pending }) ∧
   (∀ (b : BitVec 16) (jsn : Nat) (s : State), (s.jrn.unconf.find? fun u => u.jsn == jsn && u.buddy == b) = none →
     exec (.mirrorConfirm b jsn .ok) s = .next { (countRC (Off.home + 0x28) 1 s : State) with pending := s.pending }) ∧
   (∀ (b : BitVec 16) (jsn : Nat) (s : State), exec (.mirrorConfirm b jsn .fenced) s = .next { (selfFence s : State) with pending := s.pending }) ∧
   (∀ (b : BitVec 16) (jsn : Nat) (u : Unconf) (s : State),
     (s.jrn.unconf.find? fun u => u.jsn == jsn && u.buddy == b) = some u → u.late = false →
     exec (.mirrorConfirm b jsn .ok) s = .next { (pump (endPairLost b (confirmed jsn (s.modJrn fun j => { j with
       unconf := j.unconf.filter fun v => !(v.jsn == jsn && v.buddy == b) }))) : State) with pending := s.pending }) ∧
   (∀ (b : BitVec 16) (s : State), (s.jrn.fetches.filter (·.buddy == b)).isEmpty = false →
     (isFenced s b = false → s.sys.phase = .service →
       exec (.mirrorFetchTimeout b) s = .next { (pump (jrnRec (advanceLoss false ((s.jrn.fetches.filter (·.buddy == b)).flatMap (·.exts)).dedup
         (poisonLines ((s.jrn.fetches.filter (·.buddy == b)).flatMap (·.named))
           ((reach (began s .service + 1000000000) s).modJrn fun j => { j with fetches := j.fetches.filter (·.buddy != b) })))) : State) with pending := s.pending }) ∧
     (∀ recs : List JRec, exec (.mirrorFetchEnd b recs) s = .next { (pump (poisonLines
       (((s.jrn.fetches.filter (·.buddy == b)).flatMap (·.named)).filter fun l =>
         !(recs.map fun r => lineOf (addr ((byJsn (replayable recs)).foldl (fun s r => installRec { r with mirrored := false } s) s) r.gsa)).contains l)
       (((byJsn (replayable recs)).foldl (fun s r => installRec { r with mirrored := false } s) s).modJrn fun j => { j with
         fetches := j.fetches.filter (·.buddy != b) })) : State) with pending := s.pending }))) ∧
  ((∀ (jsn : Nat) (p : PReq) (s : State), s.home.waiting.find? (·.why == .buddy jsn) = some p →
     exec (.pairLate jsn) s = .next { (pump (atDeadline p (reach p.deadline s)) : State) with pending := s.pending }) ∧
   (∀ (jsn : Nat) (u : Unconf) (m : BitVec 16 × JRec) (s : State), s.jrn.unconf.find? (·.jsn == jsn) = some u →
     isFenced s u.buddy = false → (s.jrn.mirrored.find? fun m => m.1 == u.buddy && m.2.jsn == jsn) = some m →
     ∃ t, exec (.mirrorResend jsn) s = .next t ∧
       t = { s with sys := t.sys, jrn := { s.jrn with unconf := t.jrn.unconf }, out := s.out ++ [.mirror u.buddy (sealRec { m.2 with mirrored := true })] } ∧
       t.sys.time = Nat.max s.sys.time u.resendAt ∧
       (∀ v ∈ t.jrn.unconf, v.jsn = jsn → t.sys.time ≤ v.resendAt)) ∧
   (∀ (mu : Nat) (t : Track) (s : State), s.home.tracker.find? (·.origin == .unit mu) = some t →
     (extDesc s (mu / 16384)).redundancy ≠ .paired →
     exec (.buddyCopyTimeout mu) s =
       .next { ({ reach t.due s with home := { s.home with tracker := s.home.tracker.filter (· != t) } } : State) with pending := s.pending }) ∧
   (∀ (jsn : Nat) (x : Slot) (s : State),
     (s.jrn.ring.find? fun x => x.rc.jsn == jsn && x.rc.tentative && x.home == ownFdn s) = some x → x.programmed = true →
     x.adopted = none → mirrorTo s (extOf (addr s x.rc.gsa)) = none →
     ∃ u, exec (.tentativeVoid jsn) s = .next { pump u with pending := s.pending } ∧ u.jrn.nextJsn = s.jrn.nextJsn + 1 ∧
       u.tier = s.tier ∧ u.ext = s.ext))

/-- A fall of PWRFAIL_N is noted and confirmed 200 ns later: in service the device answers what waits, takes its links down and flushes
(R79); once the flush is done it is off, and starts again when the input is high (R80). A rise before confirmation only counts. Three probes
below the threshold distrust the hold-up. -/
def Obligations.HoldUp : Prop :=
  (∀ s : State, s.sys.pwrfail ≠ .low →
    exec .pwrfailFall s = .next { ((levelChange .low s).modSys fun y => { y with fallAt := some y.time } : State) with pending := s.pending }) ∧
  (∀ (t : Nat) (s : State), s.sys.fallAt = some t →
    let u := (reach (t + 200) s).modSys fun y => { y with fallAt := none }
    (s.sys.phase = .service ∨ s.sys.phase = .departing →
      exec .pwrfailConfirm s = .next { (powerDown (u.modSys fun y => { y with kind := .cold }) : State) with pending := s.pending }) ∧
    (s.sys.phase = .inReset ∨ s.sys.phase = .heldFail → exec .pwrfailConfirm s = .next { (stopCold u : State) with pending := s.pending })) ∧
  (∀ s : State, s.sys.pwrfail ≠ .high → s.sys.fallAt = none → exec .pwrfailRise s =
    .next { (startAgain (levelChange .high s) : State) with pending := s.pending }) ∧
  (∀ s : State, s.sys.phase = .powerFail → ∃ t, exec .flushComplete s =
    .next { (startAgain t : State) with pending := s.pending } ∧ t.sys.phase = .flushed ∧
    t.jrn.ring = [] ∧ t.jrn.segs = [] ∧ t.ras.saved = some (s.ras.log, s.ras.head, s.ras.tail) ∧
    (∀ x ∈ s.jrn.ring, x.programmed = false → x.rc ∈ t.jrn.flushArea)) ∧
  (∀ (b : Bool) (s : State), s.sys.pwrfail = .high → (s.sys.phase = .bringUp → 2 ≤ s.sys.step) → s.sys.probeLow < 2 →
    exec (.pwrfailProbe b) s =
      .next { (s.modSys fun y => { y with probeLow := if b then y.probeLow + 1 else 0 } : State) with pending := s.pending }) ∧
  (∀ (wr : Writer) (v : Word) (s : State), exec (.jrnLossQuery wr v) s =
    .next { ((regWrite wr (Off.jrn + 0x18) v s).2 : State) with pending := s.pending }) ∧
  (∀ (b : Fin 256) (n : Nat) (p : PReq) (rest : List PReq) (t : Nat) (s : State),
    (s.home.waiting.filter fun p => match p.why with | .bucket c _ => c == b.val | _ => false) = p :: rest → p.why = .bucket n t →
    exec (.bucketPay b) s =
      .next { (if p.kind = .barrier then admitBarrier p (reach t s) else pump (enterSlice p (reach t s)) : State) with pending := s.pending })

/-! ### Requests and copies (05, 07) -/

/-- Each request of Table 05-2 that a home serves, once it is at an admitting slice whose ingress has room and whose bucket does not limit
it: it takes the next place in its slice's order and is admitted or answered there, and then whatever waited goes on (R27, R107, R108,
R113, R116). -/
def Obligations.RequestsEnterTheirSlice : Prop :=
  ∀ (k : ReqKind) (r : Req) (s : State),
    (s.home.deadSlices.any fun d => d.val == sliceOf (addr s r.gsa)) = false → admitting s = true →
    bktEnabled s (bucketOf s r.iid) = false →
    let p : PReq := {
      n := s.home.nextReq, a := addr s r.gsa, kind := k, r := r, arrived := now s, deadline := now s + deadlineNs s }
    ingressFull s p = false →
    let t := pump (enterSlice p (reserveAnswer r (s.modHome fun h => { h with waiting := h.waiting ++ [p], nextReq := h.nextReq + 1 })))
    ∀ c ∈ (match k with
      | .load => [Instr.load r] | .store => [.store r] | .storePart => [.storePart r] | .codedWrite => [.codedWrite r]
      | .atomic => [.atomic r] | .wait => [.wait r] | .acquire => [.acquire r] | .release => [.release r]
      | .publish => [.publish r] | .readVersion => [.readVersion r] | .barrier | .advance => []),
    exec c s = .next { t with pending := s.pending }

/-- The copy agent (R100, R101): a well-formed COPY without a counter is accepted; a registration is answered, and withdrawn; the answer of
a line access, or its bound, moves the copy on; an advance of an arrival counter is issued under a new number, and again after its hint
(R98). A hint that has elapsed sends its request again (R101); a codebook whose lines are in HBM and whose check holds is cached (R253, R264). -/
def Obligations.CopyAgentCommands : Prop :=
  ((∀ (r : Req) (s : State), admitting s = true → copyMalformed r = false → cpCounter r = 0 → copiesQueued s < 4096 →
     exec (.copy r) s = .next { (acceptCopy s.home.nextCopy (s.modHome fun h => { h with
       copies := h.copies ++ [{ id := s.home.nextCopy, req := r }], nextCopy := s.home.nextCopy + 1 }) : State) with pending := s.pending }) ∧
   (∀ (owner : BitVec 16) (r : Req) (id : Nat) (s : State),
     exec (.copyRegister owner r ⟨id, true⟩) s = .next { ({ s with home := { s.home with
       regsCtr := s.home.regsCtr.filter fun x => !(x.owner == owner && x.copyId == id) } } : State) with pending := s.pending }) ∧
   (∀ (owner : BitVec 16) (r : Req) (id : Nat) (s : State), admitRegistration (cpCounter r) r.iid s = none → isBarrier r = false →
     exec (.copyRegister owner r ⟨id, false⟩) s = .next { ({ s with
       home := { s.home with regsCtr := s.home.regsCtr ++
         [{ owner := owner, copyId := id, iid := r.iid, counter := cpCounter r, inc := cpInc r, req := r }] }
       out := s.out ++ [.regAnswer owner id .ok] } : State) with pending := s.pending }) ∧
   (∀ (id line : Nat) (side : CopySide) (st : Status) (hint : BitVec 10) (data : List Byte) (s : State) (c : CopyRun) (l : CopyLine),
     s.home.copies.find? (·.id == id) = some c → c.active.find? (fun l => l.line == line && l.side == side) = some l →
     (st ≠ .ok ∧ st ≠ .ny →
       exec (.copyLineAnswer id line side st hint data) s = .next { (feedCopies (endCopy id st (s.modHome fun h => { h with
         tracker := h.tracker.filter fun t => t.origin != .copyLine id line side })) : State) with pending := s.pending }) ∧
     exec (.copyNyBound id line side) s =
       .next { (feedCopies (endCopy id .abandoned (reach (l.first + 100000000) s)) : State) with pending := s.pending }) ∧
   (∀ (iid : BitVec 16) (g amount : Word) (err : Bool) (s : State), g ≠ 0 →
     exec (.counterAdvance iid g amount err) s = .next { (issueAdvance s.home.nextAdv (s.modHome fun h => { h with
       nextAdv := s.home.nextAdv + 1
       advances := h.advances ++ [{
         id := s.home.nextAdv, iid := iid, gsa := g, amount := amount.toNat, err := err, first := now s, retryAt := now s }] }) : State) with pending := s.pending }) ∧
   (∀ (id : Nat) (a : Advance) (s : State), s.home.advances.find? (·.id == id) = some a →
     Nat.max (now s) a.retryAt < a.first + 100000000 → exec (.counterAdvanceRetry id) s =
       .next { (issueAdvance id (reach a.retryAt s) : State) with pending := s.pending })) ∧
  ((∀ (id line : Nat) (side : CopySide) (s : State), exec (.nyHintRetry (.copyLine id line side)) s =
    .next { (copyRetry id line side s : State) with pending := s.pending }) ∧
   (∀ (core : Fin 16) (ctx : Fin 8) (g : Word) (s : State), exec (.nyHintRetry (.station core ctx g)) s =
     .next { (giveStations core.val (retryAccess core ctx g s) : State) with pending := s.pending }) ∧
   (∀ (u : Fin 16) (g : Word) (s : State), exec (.nyHintRetry (.unit u g)) s = .next { (retryUnit u g s : State) with pending := s.pending }) ∧
   (∀ (ext : BitVec 18) (s u : State), let e := ext.toNat
     let p := formP s e
     let ls := (List.range (32 + ceilDiv p.cbBytes 128)).map (e * 2 ^ 23 + ·)
     s.cdc.filling.contains e = true → needLines ls s = (none, u) →
     let v := u.modCdc fun c => { c with filling := c.filling.filter (· != e) }
     ls.any (linePoison v) = false → crc32c (codebookOf v e p) = (storedLine v (e * 2 ^ 23)).extractLsb' 0 32 →
     exec (.codebookFillComplete ext) s = .next { (pump (v.modCdc fun c => { c with
       cached := fitCache v (4 * 2 ^ 20) (e :: c.cached.filter (· != e)) }) : State) with pending := s.pending }))

/-- Barriers and the ends of requests: an admitted BARRIER is answered OK at once and takes a number (R88); its completion journals what
remains and a BARRIER record; an ownership change commits when its record entered the ring and no mirror is awaited (R154); at a
deadline the request's answer is committed (R109); an answer without a tracker entry is absorbed and counted (R110, R118); a bound of
the tracker ends its request ABANDONED and records it (R118). BUCKET_ADAPT, 100 us after the last, sets the buckets and changes nothing else (R117). -/
def Obligations.RequestEnds : Prop :=
  ((∀ (r : Req) (s : State), admitting s = true → barMalformed r = false → bktEnabled s (bucketOf s r.iid) = false →
     let p : PReq := {
       n := s.home.nextReq, a := addr s r.gsa, kind := .barrier, r := r, arrived := now s, deadline := now s + deadlineNs s }
     let u := s.modHome fun h => { h with waiting := h.waiting ++ [p], nextReq := h.nextReq + 1 }
     barRefuses u r = none → barCounter r = 0 → exec (.barrier r) s = .next { (acceptBarrier p u : State) with pending := s.pending }) ∧
   (∀ (id : Nat) (b : Barrier) (s : State), s.jrn.barriers.find? (·.id == id) = some b → b.jsn = none →
     let u := barJournal id b.iid b.todo s
     (u.jrn.barriers.any (fun x => x.id == id && !x.todo.isEmpty) = true → exec (.barrierComplete id) s = .next { u with pending := s.pending }) ∧
     (u.jrn.barriers.any (fun x => x.id == id && !x.todo.isEmpty) = false →
       let v := journal { iid := b.iid, body := .barrier id ((Config.freeWord u.free).setWidth 32) } u.draw
       v.jrn.distrusted = false → exec (.barrierComplete id) s = .next { (endBarrier b v : State) with pending := s.pending })) ∧
   (∀ (key : Nat) (s : State), (s.own.any fun o => o.key == key && !o.buddy) = false →
     exec (.ownershipCommit key) s =
       .next { ({ s with own := s.own.map fun o => if o.key = key then { o with entered := true } else o } : State) with pending := s.pending }) ∧
   (∀ (key : Nat) (s : State), (s.own.any fun o => o.key == key && !o.buddy) = true →
     exec (.ownershipCommit key) s = .next { (pump (commitOwn key
       { s with own := s.own.map fun o => if o.key = key then { o with entered := true } else o }) : State) with pending := s.pending }) ∧
   (∀ (n : Nat) (p : PReq) (s : State), findReq s n = some p →
     exec (.responseDeadline n) s = .next { (pump (atDeadline p (reach p.deadline s)) : State) with pending := s.pending }) ∧
   (∀ (a : Answer) (s : State), (s.home.tracker.find? fun t => t.iid == a.iid && t.tag == a.tag) = none →
     exec (.answerArrival a) s = .next { (countRC (Off.home + 0x28) 1 s : State) with pending := s.pending }) ∧
   (∀ (a : Answer) (t : Track) (s : State), (s.home.tracker.find? fun t => t.iid == a.iid && t.tag == a.tag) = some t →
     exec (.answerArrival a) s = .next { (trackDone t (if a.rsvd then { a with st := .internal } else a) s : State) with pending := s.pending }) ∧
   (∀ (iid tag : BitVec 16) (t : Track) (s : State), (s.home.tracker.find? fun t => t.iid == iid && t.tag == tag) = some t →
     exec (.trackerTimeout iid tag) s = .next { (trackEnd .abandoned t (raise {
       cls := 6, sev := 1, code := 3, block := 0x10, gsa := t.gsa, iid := iid, fdn := t.home } (reach t.due s)) : State) with pending := s.pending })) ∧
  (∀ (uses : List (Nat × Nat)) (s : State), ∃ t, exec (.bucketAdapt uses) s = .next t ∧
     t = { elapsed .buckets 100000 s with home := { s.home with buckets := t.home.buckets } })

/-! ### Coherence (06) -/

/-- RD_S, RD_E and UPG from an agent in good standing, at an admitting home with no mode fence, no quiesce, no ownership change the
request would have to wait for (R154) and nothing queued at the directory: the home serves the request in its slice's order (R133). WB_D and EVICT_C from a recorded holder, and every snoop response that a transaction awaits, act on the directory as Table 06-7
sets out; one from a lost agent changes nothing but a count (R133, R141). -/
def Obligations.CoherenceMessages : Prop :=
  (∀ (m : CohMsg) (slot : Fin 64) (s : State) (op : CohOp) (c : Instr),
     (op, c) ∈ [(CohOp.rdS, Instr.rdS m), (.rdE, .rdE m), (.upg, .upg m)] →
     deadAt s (addr s m.gsa) = false → admitting s = true → slotOf s m.iid = some slot → agentLost s slot = false →
     (op = .rdS ∨ marked s (addr s m.gsa) = false) →
     s.coh.fence = none → s.coh.quiescing = none → s.coh.queue = [] → sliceQueued s (sliceOf (addr s m.gsa)) < 1024 →
     cohAdmits s op m = none →
     exec c s = .next { (pump (cohServe op m slot s.home.nextReq (now s + deadlineNs s)
       (s.modHome fun h => { h with nextReq := h.nextReq + 1 })) : State) with pending := s.pending }) ∧
  ((∀ (m : CohMsg) (n : Fin 64) (s : State), deadAt s (addr s m.gsa) = false → slotOf s m.iid = some n → lostSender s (some n) = false →
     (extDesc s (extOf (addr s m.gsa))).state ≠ .free →
     (holding s (lineOf (addr s m.gsa)) (some n) = .owner → exec (.wbD m) s = .next { (pump (takeWb m n s) : State) with pending := s.pending }) ∧
     (holding s (lineOf (addr s m.gsa)) (some n) ≠ .n →
       exec (.evictC m) s = .next { (pump (cmpWb m .ok (modDir (lineOf (addr s m.gsa)) (DirEnt.drop n) s)) : State) with pending := s.pending })) ∧
   (∀ (m : CohMsg) (n : Fin 64) (t : Txn) (s : State) (op : BitVec 6) (st : DirState) (d : Bool) (c : Instr),
     (op, st, d, c) ∈ [(0x30#6, DirState.i, false, Instr.rspI m), (0x31, .s, false, .rspS m), (0x32, .e, false, .rspE m),
       (0x33, .i, true, .rspID m), (0x34, .s, true, .rspSD m), (0x35, .e, true, .rspED m)] →
     deadAt s (addr s m.gsa) = false → slotOf s m.iid = some n → agentLost s n = false → s.coh.withheld = [] →
     (s.coh.txns.find? fun t => t.line == lineOf (addr s m.gsa) && t.snoops.any fun o => o.slot == n && o.tag == m.tag && !o.injected) = some t →
     exec c s = .next { (pump (takeRsp m n st d
       (noteRtt (lineOf (addr s m.gsa)) ((t.snoops.find? fun o => o.slot == n && o.tag == m.tag && !o.injected).elim (now s) (·.sent)) s)) : State) with pending := s.pending }))

/-- Fences, timers and repairs of the directory: the last awaited FENCE_ACK switches the mode (R146), RESET_ACK ends one agent's part
of a rebuild (R148), a stake window and a reservation lapse (R135, R136), a placeholder leaves its queue (R142), the resume window ends
(R147), a rebuild's silent agents are lost (R148), a fence that is not acknowledged is ended (R146), a sweep ends (R141), and a class F
writer forces a mode (R145). Timers of one line and of one agent: a reservation lapses (R136), a snoop is resent at 1,500 ns while its holder has the line shared
and fewer than four were sent (R139), a placeholder leaves its queue (R142), the last sweep ends (R141), and an unreadable entry with no
transaction is rebuilt by snooping every agent in service (R149). -/
def Obligations.CoherenceTimers : Prop :=
  ((∀ (m : CohMsg) (n : Fin 64) (f : FenceRun) (s : State), s.coh.fence = some f → slotOf s m.iid = some n → agentLost s n = false →
     f.sent.isSome = true → f.awaiting = [n] → fld m.arg 15 0 = f.number.toNat → bitOf m.arg 16 = f.tabled →
     exec (.fenceAck m) s = .next { (pump (switchMode { f with awaiting := [] } s) : State) with pending := s.pending }) ∧
   (∀ (m : CohMsg) (n : Fin 64) (s : State), slotOf s m.iid = some n → agentLost s n = false → n ∈ s.coh.rebuild →
     exec (.resetAck m) s = .next { ({ s with coh := { s.coh with rebuild := s.coh.rebuild.filter (· != n) } } : State) with pending := s.pending }) ∧
   (∀ (line : Nat) (w : Nat × Nat) (s : State), s.coh.stakes.find? (·.1 == line) = some w →
     exec (.stakeWindowClose line) s = .next { (pump (lineFreed line ((reach w.2 s).modCoh fun c => { c with
       stakes := c.stakes.filter (·.1 != line) })) : State) with pending := s.pending }) ∧
   (∀ (t : Nat) (s : State), s.coh.resumeUntil = some t →
     exec .resumeWindowEnd s = .next { ({ reach t s with coh := { s.coh with resumeUntil := none } } : State) with pending := s.pending }) ∧
   (∀ s : State, s.coh.rebuild = [] → exec .rebuildTimeout s =
     .next { ((reach (began s .rebuild + 150000000) s).modCoh fun c => { c with rebuild := [] } : State) with pending := s.pending }) ∧
   (∀ (f : FenceRun) (t : Nat) (s : State), s.coh.fence = some f → f.sent = some t →
     exec .modeFenceTimeout s =
       .next { (pump (f.awaiting.foldl (fun s n => startSweep n s) (switchMode f (reach (t + 100000) s))) : State) with pending := s.pending }) ∧
   (∀ (b : Bool) (wr : Writer) (s : State), allowed s wr none [.f] = true → s.coh.fence = none → s.coh.tabled = !b →
     (b = false → s.coh.sweeps = []) →
     exec (if b then .modeForceTabled wr else .modeForceRetry wr) s = .next { (pump (startFence b s) : State) with pending := s.pending })) ∧
  ((∀ (line : Nat) (r : Nat × Fin 64 × Nat) (s : State), busyLine s line = false → s.coh.stakes.any (·.1 == line) = false →
     s.coh.reserved.find? (·.1 == line) = some r →
     exec (.reservationExpire line) s = .next { (pump ((reach r.2.2 s).modCoh fun c => { c with
       reserved := c.reserved.filter (·.1 != line) }) : State) with pending := s.pending }) ∧
   (∀ (line : Nat) (slot : Fin 64) (t : Txn) (o : SnoopOut) (s : State), s.coh.txns.find? (·.line == line) = some t →
     t.snoops.find? (·.slot == slot) = some o → (dirGet s line).state ≠ .e → o.tries < 4 →
     ∃ u, exec (.snoopTimeout line slot) s = .next u ∧ u = { s with sys := u.sys, coh := { s.coh with txns := u.coh.txns }, out := u.out } ∧
       u.sys.time = Nat.max s.sys.time (o.sent + 1500) ∧ u.coh.txns.length = s.coh.txns.length ∧
       u.out = s.out ++ [.coh (agentIid s slot) (snoopCode o.op) o.tag (gsaOfLine s line) 0 .ok 0 0]) ∧
   (∀ (line : Nat) (slot : Fin 64) (q : QEnt) (e : Nat) (s : State), q.item = .placeholder slot e →
     (s.coh.queue.find? fun q => q.line == line && (match q.item with | .placeholder sl _ => sl == slot | _ => false)) = some q →
     exec (.placeholderExpire line slot) s =
       .next { (pump ((reach e s).modCoh fun c => { c with queue := c.queue.erase q }) : State) with pending := s.pending }) ∧
   (∀ (slot : Fin 64) (s : State), s.coh.sweeps = [slot] → s.coh.dir = [] → s.coh.sweepChanged = false → s.coh.forceRetry = false →
     exec (.lostAgentSweepEnd slot) s = .next { (pump { s with coh := { s.coh with sweeps := [] } } : State) with pending := s.pending }) ∧
   (∀ (line : Nat) (s : State), s.coh.recalls.contains { line := line, who := .repair } = false →
     exec (.dirEntryRepair line) s = .next { (pump (addRecalls [{ line := line, who := .repair }] s) : State) with pending := s.pending }))

/-! ### Host ports (15) -/

/-- A host access, a CXL.mem read, write or invalidation whose address maps to an extent becomes a request with the window's IID, the
slot's incarnation and the GSA formed as R26 says, in its arrival order (R26, R340). A MemWrPtl that enables no byte completes at
once. A flit that stays in error is counted and its access is not taken (R348). The home's side of a host's cached line (R342, R343): a snoop of a line the port does not track is answered at once, one of a line
that a host holds is passed on to it; a grant installs the line and serves the request; a CMP_WB ends the line's write-back; a NACK with
NY waits for its hint. -/
def Obligations.HostMessages : Prop :=
  ((∀ (w : Fin 64) (off : BitVec 42) (r : Req) (fl : HostFlit) (g : Word) (inc : BitVec 32) (s : State),
     slotGsa (hostFlit w fl s) w off.toNat = some (g, inc) → fl.bad = false →
     let s' := hostFlit w fl s
     let op : HostOp := if r.op = 0x01 then .read else .write
     let q : HostReq := {
       win := w, tag := r.tag, op := op, half := bitOf g 6, arrived := now s'
       r := { r with iid := winIid s' w, ing := winIng w, src := ownFdn s', inc := inc
                     gsa := if op == .read ∨ r.op = 0x03 then g &&& ~~~(127 : Word) else g } }
     exec (.hostAccess w off ⟨r, fl⟩) s =
       .next { (hostPump (s'.modHp fun h => { h with reqs := h.reqs ++ [q] }) : State) with pending := s.pending }) ∧
   (∀ (w : Fin 64) (off : BitVec 42) (r : Req) (fl : HostFlit) (s : State), fl.bad = true →
     exec (.hostAccess w off ⟨r, fl⟩) s = .next { (hostFlit w fl s : State) with pending := s.pending }) ∧
   (∀ (w : Fin 64) (a : Word) (tag : BitVec 16) (s : State),
     exec (.memrd w a .noOp tag) s = .next { (memAccess w a tag .read loadReq s : State) with pending := s.pending } ∧ exec (.memrd w a .i tag) s =
       .next { (memAccess w a tag .read loadReq s : State) with pending := s.pending } ∧
     exec (.memrd w a .s tag) s = .next { (memAccess w a tag .cohS loadReq s : State) with pending := s.pending } ∧ exec (.memrd w a .a tag) s =
       .next { (memAccess w a tag .cohA loadReq s : State) with pending := s.pending } ∧
     exec (.meminv w a tag) s = .next { (memAccess w a tag .inv loadReq s : State) with pending := s.pending }) ∧
   (∀ (w : Fin 64) (a : Word) (mf : CxlMeta) (tag : BitVec 16) (p : Bool) (d : BitVec 512) (s : State), mf ≠ .i →
     exec (.memwr w a mf tag p d) s = .next { (memAccess w a tag .write
       (partReq (hostHalf (hpBytes w false s) w a) (BitVec.allOnes 64) d p) (hpBytes w false s) : State) with pending := s.pending }) ∧
   (∀ (w : Fin 64) (a : Word) (tag : BitVec 16) (p : Bool) (d : BitVec 512) (s : State),
     exec (.memwrptl w a tag p 0 d) s =
       .next { ({ s with out := s.out ++ [.cxlCmp w tag 0 (devLoad (portLoad s w 0))] } : State) with pending := s.pending })) ∧
  ((∀ (w : Fin 64) (l : BitVec 57) (tag : BitVec 16) (s : State) (op : SnoopOp) (c : Instr),
     (op, c) ∈ [(SnoopOp.inv, Instr.snpInv w l tag), (.data, .snpData w l tag), (.cur, .snpCur w l tag)] →
     (entryAt s w l.toNat = none → exec c s = .next { ({ s with
       out := s.out ++ [.agent w 0x30 tag l.toNat ({} : LineEnt).inc ({} : LineEnt).image ({} : LineEnt).poison] } : State) with pending := s.pending }) ∧
     (∀ e, entryAt s w l.toNat = some e → e.writing = false → e.open_ = 0 → e.halves ≠ 0 →
       exec c s = .next { (sendBi e op (putEnt { e with snoop := some (op, tag), open_ := e.halves } s) : State) with pending := s.pending })) ∧
   (∀ (w : Fin 64) (l : BitVec 57) (tag : BitVec 16) (d : Line) (q : HostReq) (s : State), cohOpen s w l.toNat tag = some q →
     entryAt s w l.toNat = none →
     (q.op = .cohS → exec (.gntS w l tag d) s =
       .next { (hostPump (serveHit q { win := w, line := l.toNat, image := d, inc := q.r.inc } s) : State) with pending := s.pending }) ∧
     (q.op ≠ .cohS → exec (.gntE w l tag d) s =
       .next { (hostPump (serveHit q { win := w, line := l.toNat, excl := true, image := d, inc := q.r.inc } s) : State) with pending := s.pending })) ∧
   (∀ (w : Fin 64) (l : BitVec 57) (tag : BitVec 16) (q : HostReq) (e : LineEnt) (s : State), cohOpen s w l.toNat tag = some q →
     entryAt s w l.toNat = some e → q.op ≠ .cohS → e.excl = false →
     exec (.gntEND w l tag) s = .next { (hostPump (serveHit q { e with excl := true } s) : State) with pending := s.pending }) ∧
   (∀ (w : Fin 64) (l : BitVec 57) (tag : BitVec 16) (st : Status) (e : LineEnt) (s : State), entryAt s w l.toNat = some e →
     e.writing = true → exec (.cmpWb w l tag st) s = .next { (hostPump (dropEnt e s) : State) with pending := s.pending }) ∧
   (∀ (w : Fin 64) (l : BitVec 57) (tag : BitVec 16) (st : Status) (hint : BitVec 10) (q : HostReq) (s : State),
     cohOpen s w l.toNat tag = some q →
     (st = .ny → exec (.nack w l tag st hint) s =
       .next { (setReq { q with sent := none, hint := hint, retryAt := some (now s + 250 * hint.toNat) } s : State) with pending := s.pending }) ∧
     (st ≠ .ny → exec (.nack w l tag st hint) s = .next { (hostPump (refuseHost q st s) : State) with pending := s.pending })) ∧
   (∀ (w : Fin 64) (l : BitVec 57) (half : Bool) (k : BiRspKind) (e : LineEnt) (s : State), entryAt s w l.toNat = some e →
     e.open_ &&& halfBit half ≠ 0 → e.open_ &&& ~~~(halfBit half) = 0 → exec (.birsp w l half k none) s = .next { (hostPump (snoopDone { e with
       open_ := 0, halves := if k = .i then e.halves &&& ~~~(halfBit half) else e.halves } s) : State) with pending := s.pending }))

/-- The request aperture, held requests and the windows of a host port (R336, R337, R339, R345, R346, R350): GO on a slot with no answer
outstanding sends the request and marks the slot, while the port has room for it; a read of a slot whose answer has arrived gives it; a held NY is reissued or, at its
bound, presented; a snoop of HOST memory is answered RspIHitI; an HDM decoder with legal settings commits; a function-level reset clears
the window's slots and vectors, and ends once nothing of the window is outstanding. Host links (R334, R344, R349, R427): a link that may train comes up, a link that was up goes down with what R349 does, and a change
of PERST_N is kept. -/
def Obligations.HostPortCommands : Prop :=
  ((∀ (w : Fin 64) (sl : BitVec 8) (r : Req) (s : State), (∀ x, aperAt s w sl = some x → x.pending = false) →
     let r' := { r with ing := .aperture w sl, tag := sl.setWidth 16, src := ownFdn s, iid := winIid s w }
     portFull s (portOf w) = false →
       exec (.apertureGo w sl r) s = .next { (aperSend w sl r' (setAper w sl { req := r', pending := true } s) : State) with pending := s.pending }) ∧
   (∀ (w : Fin 64) (sl : BitVec 8) (off : BitVec 12) (x : Aper) (a : Answer) (s : State), aperAt s w sl = some x → x.answer = some a →
     x.pending = false → exec (.apertureRead w sl off) s = .next { (aperGive w sl a off s : State) with pending := s.pending }) ∧
   (∀ (w : Fin 64) (tag : BitVec 16) (q : HostReq) (t : Nat) (s : State), hostReq s w tag = some q → q.retryAt = some t →
     exec (.holdReissue w tag) s = .next { (hostPump (setReq { q with retryAt := none } (reach t s)) : State) with pending := s.pending } ∧
     exec (.holdMaxExpire w tag) s = .next { (hostPump (refuseHost q .ny (reach (q.arrived + holdMax s q) s)) : State) with pending := s.pending }) ∧
   (∀ (p : Fin 4) (a : BitVec 52) (s : State), exec (.h2dSnoop p a) s =
     .next { ({ s with out := s.out ++ [.rspIHitI p a] } : State) with pending := s.pending }) ∧
   (∀ (w : Fin 64) (j : Fin 4) (d : HdmSet) (s : State), unit256 d.base = true → unit256 d.size = true → unit256 d.skip = true →
     d.ways ∈ [1, 2, 4, 8, 16] → 8 ≤ d.gran → d.gran ≤ 14 → hdmStart s w.val j.val + d.skip.toNat + d.size.toNat / d.ways ≤ 2 ^ 42 →
     exec (.hdmDecoderCommit w j d) s = .next { ({ s with hp := { s.hp with
       hdm := Tab.put {} (4 * w.val + j.val) { cfgd := d, committed := true, error := false } s.hp.hdm } } : State) with pending := s.pending }) ∧
   (∀ (w : Fin 64) (s : State), exec (.functionLevelReset w) s = .next { (flrPump { s with hp := { s.hp with
     aper := s.hp.aper.filter fun a => a.1 / 256 != w.val, msix := s.hp.msix.filter fun v => v / 256 != w.val
     flr := s.hp.flr.filter (· != w) ++ [w] } } : State) with pending := s.pending })) ∧
  ((∀ (p l : Fin 4) (t : HostTrain) (s : State), hostMayTrain s p.val l.val = true → exec (.hostLinkUp p l t) s =
    .next { (linkUp p.val l.val t s : State) with pending := s.pending }) ∧
   (∀ (p l : Fin 4) (s : State), (hostLink s p.val l.val).up = true → exec (.hostLinkDown p l) s =
     .next { (linkLost p.val l.val s : State) with pending := s.pending }) ∧
   (∀ (p l : Fin 4) (s : State), exec (.perstNChange p l true) s =
     .next { (modLink p.val l.val (fun h => { h with perst := true }) s : State) with pending := s.pending }) ∧
   (∀ (p l : Fin 4) (s : State), Tab.wf {} s.hp.links = true → (hostLink s p.val l.val).up = false →
     exec (.perstNChange p l false) s = .next { (modLink p.val l.val (fun h => { h with perst := false }) s : State) with pending := s.pending }))

/-! ### Command registers and extents (02, 22) -/

/-- R476, R478: a command written by a writer whose class its register does not name is ignored and raises a CONFIG record of code
REJECTED; one written while the register's completion register says busy is not accepted and sets refused. Neither does anything else.
Shown for every command of Table 22-5 but the invalidations. -/
def Obligations.CommandRegistersRefuse : Prop :=
  ∀ (wr : Writer) (ext : BitVec 18) (first : BitVec 9) (count : BitVec 10) (asid : BitVec 16) (table : BitVec 12) (group : BitVec 32)
    (index : BitVec 10) (core : Fin 16) (version : BitVec 32) (image : Option (List Byte)) (code inst : BitVec 8) (comp : BitVec 24)
    (policy : BitVec 2) (s : State),
    ∀ x ∈ [(Instr.assign wr ext, [WCls.f, .m], extCmd, extDone), (.modify wr ext, [.f, .m], extCmd, extDone),
      (.region wr ext first count, [.f, .m], extCmd, extDone), (.revoke wr ext, [.f, .m], extCmd, extDone),
      (.restore wr ext, [.f, .m], extCmd, extDone), (.extentRelease wr ext, [.f, .m], extCmd, extDone),
      (.bind wr asid, asidCls, asidCmd, asidDone), (.unbind wr asid, asidCls, asidCmd, asidDone),
      (.tableCreate wr table, [.a, .f], tblCmd, tblDone), (.tableReplace wr table, [.a, .f], tblCmd, tblDone),
      (.tableDelete wr table, [.a, .f], tblCmd, tblDone), (.groupSet wr group, [.f], grpCmd, grpDone),
      (.groupClear wr group, [.f], grpCmd, grpDone), (.indexCreate wr index, [.a, .f], idxCmd, idxDone),
      (.indexDestroy wr index, [.a, .f], idxCmd, idxDone), (.pin wr index, [.a, .f], idxCmd, idxDone),
      (.unpin wr index, [.a, .f], idxCmd, idxDone), (.nmcRsInstall wr version image, [.f], Off.nmc + 0x10110, rsDone),
      (.nmcRsRetire wr version, [.f], Off.nmc + 0x10118, rsDone), (.graft wr core, [.f], Off.nmc + 0x10010, Off.nmc + 0x10018),
      (.blockReset wr code inst, [.f, .m], Off.rst + 0x18, Off.rst + 0x20), (.compPolicy wr comp policy, [.f, .m], Off.ras + 0x10, compDone),
      (.compReleaseCmd wr comp, [.f, .m], Off.ras + 0x10, compDone), (.drillSchedule wr, [.f], Off.flt + 0x48, drillDone)],
      (allowed s wr none x.2.1 = false → exec x.1 s = .next { (rejected x.2.2.1 s : State) with pending := s.pending }) ∧
      (allowed s wr none x.2.1 = true → (doneGet s x.2.2.2).busy = true →
        exec x.1 s = .next { (doneMod x.2.2.2 (fun d => { d with refused := true }) s : State) with pending := s.pending })

/-- The extent commands, accepted where the extent's state admits them (Table 02-8): ASSIGN of a FREE extent with a descriptor that
keeps R20; MODIFY of an ASSIGNED one whose other
fields are staged as they are, which journals the new ranges and policy; REVOKE and RELEASE of an ASSIGNED one begin the fence of R34; RESTORE and RELEASE of a
REVOKED one; the drain goes on, or ends at its bound. REGION of an ASSIGNED extent by a writer with the own right: where no agent holds a line of a COHERENT region it touches and the
directory has room, the granules named become one region of the staged attributes (R22, R23, R123). The drain of a fenced extent goes on as far as it can, and at 10 ms from acceptance what is unfinished is ABANDONED (R34). -/
def Obligations.ExtentCommandsRun : Prop :=
  (∀ (wr : Writer) (ext : BitVec 18) (s : State), Ready s wr none [.f, .m] extDone →
     let a := accepted extDone s
     let e := ext.toNat
     let cur := extDesc s e
     (∀ d, e < s.ext.limit → cur.state = .free → descOfWords (extStage s wr) = some d → descOk s d = true → deadlineDenies s d = false →
       exec (.assign wr ext) s = .next { (extGo (assignExt e d a) : State) with pending := s.pending }) ∧
     (∀ d, cur.state = .assigned → descOfWords (extStage s wr) = some d → sameFixed cur (extStage s wr) = true →
       descOk s d = true →
       let new := { cur with ranges := d.ranges, policy := d.policy }
       exec (.modify wr ext) s = .next { (extGo (extJournal e (.extent new)
         (a.modExt fun x => { x with run := some { op := .modify, ext := e, start := now s, new := some new } })) : State) with pending := s.pending }) ∧
     (cur.state = .assigned → exec (.revoke wr ext) s = .next { (beginRevoke .revoke e a : State) with pending := s.pending } ∧
       exec (.extentRelease wr ext) s = .next { (beginRevoke .release e a : State) with pending := s.pending }) ∧
     (cur.state = .revoked →
       exec (.restore wr ext) s = .next { (extGo (updateComps (setExtState e .assigned (a.modExt fun x => { x with
         run := some { op := .restore, ext := e, start := now s } }))) : State) with pending := s.pending } ∧
       exec (.extentRelease wr ext) s =
         .next { (extGo (a.modExt fun x => { x with run := some { op := .release, ext := e, start := now s } }) : State) with pending := s.pending })) ∧
  (∀ (wr : Writer) (ext : BitVec 18) (first : BitVec 9) (count : BitVec 10) (coh : Bool) (own : Ownership) (s : State),
     Ready s wr none [.f, .m] extDone →
     let e := ext.toNat
     let w := wordAt (extStage s wr) 0
     let hs := splitRegions (headsOf s e) first.toNat count.toNat coh own
     (extDesc s e).state = .assigned → (rightsOf (extDesc s e) (writerIid s wr)).own = true →
     fld w 30 29 = (if coh then 1 else 0) → fld w 28 27 = (match own with | .none => 0 | .owned => 1 | .sharedWrite => 2) →
     entryLayoutOk w = true → 1 ≤ count.toNat → count.toNat ≤ 512 → first.toNat + count.toNat ≤ 512 →
     (∀ h ∈ headsOf s e, h.1 < first.toNat + count.toNat → first.toNat < h.1 + h.2.length → h.2.coherent = true →
       regionHeld s (512 * e + h.1) (512 * e + h.1 + h.2.length) = false) →
     s.coh.granules.length - (cohGranules s e).length + (hs.map fun h => if h.2.coherent then h.2.length else 0).sum ≤ 32768 →
     exec (.region wr ext first count) s = .next { (extGo (extJournal e (.region ((List.range 512).map (entriesOf hs))) (regionApply e hs
       ((accepted extDone s).modExt fun x => { x with run := some { op := .region, ext := e, start := now s } }))) : State) with pending := s.pending }) ∧
  ((∀ s : State, exec .revokeDrainComplete s = .next { (extGo s : State) with pending := s.pending }) ∧
   (∀ (r : ExtRun) (s : State), s.ext.run = some r → r.draining = true →
     exec .revokeDrainBound s =
       .next { (extGo (pump (afterDrain (abandonIn r.ext (reach (r.start + 10000000) s)))) : State) with pending := s.pending }))

/-! ### Jobs (08) -/

/-- The doorbell of a submission queue moves its tail (R172, R173); the first job of a pair whose turn it is leaves its queue (R173);
a request for SUSPEND or CANCEL is read and carried out (R183, R185); a completion record that goes to its originating device is sent
there and kept until that device has taken it, one that came from there or that finds room in its completion queue is written (R176); a job forwarded from another device waits for its turn (R175). -/
def Obligations.JobQueues : Prop :=
  (∀ (wr : Writer) (pair : Fin 256) (v : Word) (s : State), allowed s wr (qOwner (sqBase s pair.val)) [.w] = true →
    let n := fld v 15 0
    n < sqSize s pair.val →
    ringDist (sqSize s pair.val) (sqHead s pair.val) (sqTail s pair.val) ≤ ringDist (sqSize s pair.val) (sqHead s pair.val) n →
    exec (.nmcSqDb wr pair v) s = .next { ((if n = sqTail s pair.val then s else wakeCores s).modNmc fun x => { x with
      sqTail := Tab.put 0 pair.val n x.sqTail } : State) with pending := s.pending }) ∧
  (∀ (pair : Fin 256) (s : State), let p := pair.val
    let a := skipHead p 65536 s
    let first := (pairHeads a p).find? fun h => (headPrio a p h).isSome && headPrio a p h == headReady a p
    admitting a = true → turnOf a p = true →
    (∀ (q : FwdJob) (d : List Word) (u : State), first = some (some q, d) →
      dispatchReq q (wakeCores (a.modNmc fun n => { n with lastPair := p, lastOrigin := q.origin })) = (true, u) →
      exec (.jobDispatch pair) s = .next { (u.modNmc fun n => { n with fwdIn := n.fwdIn.erase q } : State) with pending := s.pending }) ∧
    (∀ (i : Nat) (d : List Word) (bs : List Byte) (u v : State), first = some (none, d) →
      let w := wakeCores (a.modNmc fun n => { n with lastPair := p, lastOrigin := none })
      (sqEntries w p).head? = some i →
      ownAsk (0x1000 + p) .load (lineRead w (pairIid w p) (qOff (sqBase w p) + 128 * i)) w = (some (.ok, bs), u) →
      dispatchReq { pair := p, iid := pairIid u p, desc := wordsOfBytes 16 bs } u = (true, v) →
      exec (.jobDispatch pair) s = .next { (takeEntry p i v : State) with pending := s.pending })) ∧
  (∀ (pair : Fin 256) (i : Nat) (bs : List Byte) (s u : State), let p := pair.val
    let a := skipHead p 65536 s
    let q : FwdJob := { pair := p, iid := pairIid u p, desc := wordsOfBytes 16 bs }
    ((sqEntries a p).filter fun i => !skipped a p i).find? (fun i => dKind (sqPeek a p i) == 4) = some i →
    ownAsk (0x1200 + p) .load (lineRead a (pairIid a p) (qOff (sqBase a p) + 128 * i)) a = (some (.ok, bs), u) →
    descBad q.desc = false → targetRoute u q = .inr none →
    exec (.cancel pair) s = .next { (takeEntry p i (actCancel q u) : State) with pending := s.pending }) ∧
  (∀ (pair : Fin 256) (i : Nat) (bs : List Byte) (s u : State), let p := pair.val
    let a := skipHead p 65536 (retrySuspend p s)
    let q : FwdJob := { pair := p, iid := pairIid u p, desc := wordsOfBytes 16 bs }
    ((sqEntries a p).filter fun i => !skipped a p i).find? (fun i => dKind (sqPeek a p i) == 3) = some i →
    ownAsk (0x1100 + p) .load (lineRead a (pairIid a p) (qOff (sqBase a p) + 128 * i)) a = (some (.ok, bs), u) →
    descBad q.desc = false → targetRoute u q = .inr none → (actSuspend q u).1 = true →
    exec (.suspend pair) s = .next { (takeEntry p i (actSuspend q u).2 : State) with pending := s.pending }) ∧
  (∀ (pair : Fin 256) (r : CqRec) (s : State), s.nmc.cq.find? (fun r => r.pair == pair.val && !r.sent) = some r →
    (∀ f, r.dest = some f → exec (.cqRecordWrite ⟨pair, .write⟩) s = .next { (emit (.jobDone f pair.val r.words)
      (s.modNmc fun n => { n with cq := modFirst (· == r) (fun x => { x with sent := true }) n.cq }) : State) with pending := s.pending }) ∧
    (∀ (bs : List Byte) (u : State), r.dest = none → r.exec = none → qValid (cqBase s pair.val) = true →
      ringFull (sqSize s pair.val) (cqHead s pair.val) (cqTail s pair.val) = false →
      ownAsk (0x2000 + pair.val) .storePart
        (wordsWrite s (pairIid s pair.val) (qOff (cqBase s pair.val) + 32 * cqTail s pair.val) r.words) s = (some (.ok, bs), u) →
      exec (.cqRecordWrite ⟨pair, .write⟩) s =
        .next { (recordDone r (signal (qWin (cqBase u pair.val)) (qVec (cqBase u pair.val)) (u.modNmc fun n => { n with
        cqTail := Tab.put 0 pair.val ((cqTail s pair.val + 1) % Nat.max 1 (sqSize s pair.val)) n.cqTail })) : State) with pending := s.pending })) ∧
  (∀ (pair : Fin 256) (f : BitVec 16) (ws : List Word) (s : State),
    exec (.cqRecordWrite ⟨pair, .arrived f ws⟩) s = .next { (s.modNmc fun n => { n with
      fwdOut := n.fwdOut.erase (pair.val, recTag ws, f), cq := n.cq ++ [{ pair := pair.val, words := ws, exec := some f }] } : State) with pending := s.pending }) ∧
  (∀ (pair : Fin 256) (f tag : BitVec 16) (r : CqRec) (s : State),
    (s.nmc.cq.find? fun r => r.pair == pair.val && r.sent && r.dest == some f && recTag r.words == tag.toNat) = some r →
    exec (.cqRecordWrite ⟨pair, .taken f tag⟩) s = .next { (recordDone r s : State) with pending := s.pending }) ∧
  (∀ (origin iid : BitVec 16) (pair : BitVec 8) (desc : List Word) (s : State), descBad desc = false →
    let q : FwdJob := { origin := some origin, pair := pair.toNat, iid := iid, desc := desc }
    (dKind desc = 1 → startStatus s iid desc = none → exec (.jobForward origin pair iid desc) s =
      .next { (s.modNmc fun n => { n with fwdIn := n.fwdIn ++ [q] } : State) with pending := s.pending }) ∧
    (dKind desc = 2 → exec (.jobForward origin pair iid desc) s =
      .next { (s.modNmc fun n => { n with fwdIn := n.fwdIn ++ [q] } : State) with pending := s.pending }) ∧
    (dKind desc = 3 → (actSuspend q s).1 = true → exec (.jobForward origin pair iid desc) s =
      .next { ((actSuspend q s).2 : State) with pending := s.pending }) ∧
    (dKind desc = 4 → exec (.jobForward origin pair iid desc) s = .next { (actCancel q s : State) with pending := s.pending }))

/-- What RUN, RESUME and SUSPEND do with a job in its context: its graph, once its header and its commands have been read and all their
pages are in frames, makes it ready (R177, R178); a resumed job claims its suspend header and, once its body is restored, loads its
graph (R188); a suspending job whose accesses are over is written into its area and ends (R186, R187). -/
def Obligations.JobsLoadAndSuspend : Prop :=
  (∀ (core : Fin 16) (ctx : Fin 8) (j : Job) (hb cb : List Byte) (b : Body) (s u v w : State), jobAt s (jobKey core ctx) = some j →
    j.phase = .loading → j.kind = 1 →
    let g : Word := put 0 (fld (wordAt j.desc 2) 47 0)
    let n := graphCmds (wordsOfBytes 72 hb)
    viewBytes core ctx 1 g 576 s = (.bytes hb false, u) → graphHdrOk (wordsOfBytes 72 hb) = true →
    viewBytes core ctx 1 (g + 576) (32 * n) u = (.bytes cb false, v) →
    graphBody (wordsOfBytes 72 hb ++ wordsOfBytes (4 * n) cb) j.slots ((List.range 8).map fun i => wordAt j.desc (8 + i)) = some b →
    exec (.run core ctx) s = .next { (enterGraph core ctx g n b v : State) with pending := s.pending }) ∧
  (∀ (core : Fin 16) (ctx : Fin 8) (g : Word) (n : Nat) (b : Body) (s w : State),
    fillFrames core ctx (jobPages g n b) s = ((none, true), w) →
    enterGraph core ctx g n b s = jobReady core ctx b (doneWith (jobKey core ctx) 17 (doneWith (jobKey core ctx) 1 w))) ∧
  (∀ (core : Fin 16) (ctx : Fin 8) (j : Job) (s : State), jobAt s (jobKey core ctx) = some j → j.phase = .loading → j.kind = 2 →
    (j.claim = .read → hdrState j.hdr = 1 → exec (.resume core ctx) s =
      .next { (setClaim (jobKey core ctx) (.cas (bytesOfWords (j.hdr.take 2)) (bytesOfWords ((hdrClaim s j.hdr false).take 2)) false)
        (modJob (jobKey core ctx) (fun j => { j with hdr := hdrClaim s j.hdr false }) s) : State) with pending := s.pending }) ∧
    (j.claim = .body → exec (.resume core ctx) s = .next { (resumeBody core ctx s : State) with pending := s.pending }) ∧
    (j.claim = .done → hdrLines j.hdr = 0 → exec (.resume core ctx) s = .next { (loadGraph core ctx s : State) with pending := s.pending })) ∧
  (∀ (core : Fin 16) (ctx : Fin 8) (j : Job) (q : FwdJob) (s u : State), let k := jobKey core ctx
    jobAt s k = some j → j.suspendReq = some q → j.phase = .suspending → quiet s k j = true →
    let a := spillAll k s
    let b := { ((jobAt a k).getD j).b with fault := pendingFault a k }
    let padded := bodyBytes b ++ List.replicate ((128 - (bodyBytes b).length % 128) % 128) 0
    areaOk a j.iid (dArea j.desc) (padded.length / 128) = true → j.susHdr = [] → isHere a (fdnOf (dArea j.desc)) = true →
    writeArea j.iid (dArea j.desc) (suspendHdr j.tag j.iid j.asid j.restarts b.fault.isSome padded (timeUsed a j) j.desc) padded a = (true, u) →
    exec (.suspendBodyWritten core ctx) s = .next { (endJob core ctx 0x0D .ok 0 (completeReq q 0 .ok (u.modNmc fun n => { n with
      ledger := if j.area = dArea j.desc then n.ledger.filter (·.1 != dArea j.desc) else n.ledger })) : State) with pending := s.pending })

/-- A job in service (R165, R167, R170, R181): its context takes the stations when it may; a tile written into a stream becomes visible
once its header is legal, and a consumed one frees its slot; its commit group, once confirmed, ends it. The ends of jobs that go wrong: a restart repeats a job from its start unless its limit is reached (R189), a job without progress
for 1 ms ends with cause 0x08, one beyond its time limit with 0x09 (R182, Table 08-11). -/
def Obligations.JobsInService : Prop :=
  ((∀ (core : Fin 16) (ctx : Fin 8) (s : State), runnable s (jobKey core ctx) = true → ownerCtx s core.val = none →
     exec (.contextSwitch core ctx) s =
       .next { (progress (jobKey core ctx) (setOwnerCtx core.val (some ctx.val) s) : State) with pending := s.pending }) ∧
   (∀ (core : Fin 16) (ctx : Fin 8) (slot : BitVec 11) (j : Job) (n : Nat) (x : Stream) (h : TileHdr) (s : State),
     jobAt s (jobKey core ctx) = some j → j.b.streams.find? (fun e => e.2.written.head? == some slot.toNat) = some (n, x) →
     (if (j.b.tile slot.toNat).raw.isEmpty then some (j.b.tile slot.toNat).h else hdrOfWords (j.b.tile slot.toNat).raw) = some h → h.ok = true →
     exec (.tileVisible core ctx slot) s = .next { (progress (jobKey core ctx) (modBody (jobKey core ctx) (fun _ => { j.b with
       tiles := Tab.put {} slot.toNat { j.b.tile slot.toNat with h := h, raw := [] } j.b.tiles
       streams := Tab.put {} n { x with written := x.written.drop 1, ready := x.ready ++ [slot.toNat] } j.b.streams }) s) : State) with pending := s.pending }) ∧
   (∀ (core : Fin 16) (ctx : Fin 8) (n : Fin 64) (j : Job) (s : State), jobAt s (jobKey core ctx) = some j →
     (j.b.stream n.val).consumer ≠ 0 → (j.b.stream n.val).taken ≠ [] →
     let b := drainPort 4096 (j.b.consume n.val)
     let c := if (j.b.stream n.val).producer = 0 then b else b.settle (j.b.stream n.val).producer
     c.seqOver = false → exec (.tileConsumed core ctx n) s =
       .next { (progress (jobKey core ctx) (modBody (jobKey core ctx) (fun _ => c) s) : State) with pending := s.pending }) ∧
   (∀ (core : Fin 16) (ctx : Fin 8) (j : Job) (s : State), jobAt s (jobKey core ctx) = some j → j.phase = .committing → j.group ≠ [] →
     commitReady s j = true → exec (.jobCommitComplete core ctx) s = .next { (pump (commitEnd core ctx s) : State) with pending := s.pending }) ∧
   (∀ (core : Fin 16) (ctx : Fin 8) (j : Job) (s : State), jobAt s (jobKey core ctx) = some j → j.phase = .committed → j.area = 0 →
     exec (.jobCommitComplete core ctx) s = .next { (pump (pump (dropVersions (endJob core ctx 0 .ok 0 s))) : State) with pending := s.pending })) ∧
  ((∀ (core : Fin 16) (ctx : Fin 8) (j : Job) (s : State), jobAt s (jobKey core ctx) = some j → j.phase ≠ .ended → j.phase ≠ .committed →
     exec (.jobRestart core ctx .graft) s = .next { (rerun core ctx false s : State) with pending := s.pending } ∧
     (j.counted < restartLimit s j → exec (.jobRestart core ctx .uncorrectable) s = .next { (note01 core (raise {
         cls := 0x0A, sev := 1, code := 1, block := 0x20, inst := BitVec.ofNat 8 (physOf s core.val), iid := j.iid } (rerun core ctx true s)) : State) with pending := s.pending } ∧
       exec (.jobRestart core ctx .abandoned) s = .next { (rerun core ctx true s : State) with pending := s.pending } ∧
       exec (.jobRestart core ctx .deviceLost) s = .next { (rerun core ctx true s : State) with pending := s.pending }) ∧
     (restartLimit s j ≤ j.counted → exec (.jobRestart core ctx .uncorrectable) s =
       .next { (endJob core ctx 1 .internal 0 s : State) with pending := s.pending } ∧
       exec (.jobRestart core ctx .abandoned) s = .next { (endJob core ctx 2 .abandoned 0 s : State) with pending := s.pending } ∧
       exec (.jobRestart core ctx .deviceLost) s = .next { (endJob core ctx 2 .deviceLost 0 s : State) with pending := s.pending })) ∧
   (∀ (core : Fin 16) (ctx : Fin 8) (j : Job) (s : State), Owns core ctx j s → j.reads = [] → faulted s (jobKey core ctx) = false →
     j.b.ports.any (·.tiles.isNone) = false →
     exec (.jobNoProgress core ctx) s =
       .next { (endJob core ctx 8 .abandoned 0 (reach (j.progressAt + 1000000) s) : State) with pending := s.pending }) ∧
   (∀ (core : Fin 16) (ctx : Fin 8) (j : Job) (s : State), jobAt s (jobKey core ctx) = some j → j.phase = .ready →
     let w := (descWord j 6).toNat
     exec (.jobTimeLimit core ctx) s = .next { (endJob core ctx 9 .abandoned 0 (reach (j.started +
       ((if w = 0 then 1000000 * (regGet s (Off.nmc + 0x10028)).toNat else w) - j.usedBefore)) s) : State) with pending := s.pending }))

/-- The stream runtime and the grafts (R190-R193): a version whose source checks is installed; one that no job is bound to is retired,
and at 10 ms the jobs still bound are restarted; a graft replaces a logical core's physical core. -/
def Obligations.RuntimeAndGrafts : Prop :=
  (∀ (wr : Writer) (v : BitVec 32) (image : Option (List Byte)) (s : State), Ready s wr none [.f] rsDone →
    let src := staged s wr rsStage
    let len := fld (staged s wr (rsStage + 8)) 39 0
    let a := accepted rsDone s
    len ≠ 0 → len % 2 ^ 20 = 0 → src.toNat % 128 = 0 → s.nmc.rs.any (·.version == v) = false → s.nmc.rs.length < 2 →
    rsUsed a + len ≤ s.tier.carve.getD 1 32 * 2 ^ 30 → (fdnOf src = servedFdn a → (extDesc a (extOf (addr a src))).state = .assigned) →
    rsChecks a v src image len = true →
    exec (.nmcRsInstall wr v image) s = .next { (cmdDone rsDone .ok 0 (a.modNmc fun n => { n with
      rs := n.rs ++ [{ version := v, length := len }]
      rsMem := writeBytes n.rsMem (v.toNat * 2 ^ 40) (rsSource a v src image 0 len) }) : State) with pending := s.pending }) ∧
  (∀ (wr : Writer) (v : BitVec 32) (s : State), Ready s wr none [.f] rsDone → (s.nmc.rs.any fun r => r.version == v) = true →
    exec (.nmcRsRetire wr v) s = .next { (rsRetireTry ((accepted rsDone s).modNmc fun n => { n with
      rs := n.rs.map fun r => if r.version = v then { r with retiring := some (now s) } else r }) : State) with pending := s.pending }) ∧
  (∀ (r : RsVer) (t : Nat) (s : State), s.nmc.rs.find? (·.retiring.isSome) = some r → r.retiring = some t →
    (∀ e ∈ s.nmc.jobs, e.2.phase = .ended ∨ e.2.phase = .committed ∨ rsVersion e.2 ≠ r.version) →
    exec .rsRetireBound s = .next { (rsRetireTry (reach (t + 10000000) s) : State) with pending := s.pending }) ∧
  (∀ (wr : Writer) (core : Fin 16) (s : State), Ready s wr none [.f] (Off.nmc + 0x10018) → physOf s core.val ≠ 31 →
    let t := graftCore core (accepted (Off.nmc + 0x10018) s)
    exec (.graft wr core) s = .next { (cmdDone (Off.nmc + 0x10018) .ok (BitVec.ofNat 32 (physOf t core.val)) t : State) with pending := s.pending })

/-! ### DIBBER and the stations (09, 10, 11) -/

/-- A write of a custom CSR by a job's code that is answered: the answer is in rd, one instruction more has retired, and the body is as the
CSR leaves it (R219); NMC_COMMIT on a job whose stations are done begins its commit (R181). One instruction of DIBBER (R214, R218): an instruction that only writes a register retires with its value and the next pc, in the
runtime's hart and in a job's. R215, R217 with the RISC-V meaning the model takes (log 12): ADDI of the runtime writes the sum of a register and the
sign-extended immediate; x0 stays what it is. -/
def Obligations.DibberCommands : Prop :=
  (∀ (core : Fin 16) (ctx : Fin 8) (rd : Fin 32) (v : Word) (j : Job) (s : State), Owns core ctx j s → j.b.dib.stopped = false →
     let k := jobKey core ctx
     let put (a : Word) (b : Body) := retire core ctx rd.val a (j.b.dib.pc + 4) (modBody k (fun _ => b) s)
     (∀ (num : Nat) (f : Body → Word → CsrBody) (c : Instr),
       (num, f, c) ∈ [(0x800, csrPush, Instr.nmcCmdPush core ctx rd v), (0x804, csrTake, .nmcTileTake core ctx rd v),
         (0x805, csrFree, .nmcTileFree core ctx rd v), (0x806, csrAlloc, .nmcTileAlloc core ctx rd v),
         (0x807, csrEmit, .nmcTileEmit core ctx rd v)] →
       ∀ a b, f j.b v = (.ans a, b) → exec c s = .next { (put a b : State) with pending := s.pending }) ∧
     exec (.nmcArithStatus core ctx rd v) s =
       .next { (put (j.b.arith.setWidth 64) { j.b with arith := j.b.arith &&& ~~~(v.setWidth 5) } : State) with pending := s.pending } ∧
     (v = 1 → exec (.nmcFewer core ctx rd v) s = .next { (put 0 { j.b with fewer := true } : State) with pending := s.pending }) ∧
     (v = 1 → ended j.b = false → exec (.nmcCommit core ctx rd v) s =
       .next { (retire core ctx rd.val 0x10 (j.b.dib.pc + 4) s : State) with pending := s.pending }) ∧
     (v = 1 → ended j.b = true → exec (.nmcCommit core ctx rd v) s =
       .next { (commitBegin core ctx (modBody k (fun b => { b with dib := { b.dib with instret := b.dib.instret + 1 } }) s) : State) with pending := s.pending })) ∧
  ((∀ (core : Fin 16) (ctx : Fin 8) (w : BitVec 32) (rd : Nat) (v : Word) (s : State), w.toNat % 4 = 3 →
     rvDecode w.toNat (rtDib s core.val).pc (rtDib s core.val).reg = .set rd v →
     exec (.dibberInstruction core ctx (some w)) s =
       .next { (setRt core.val ({ rtDib s core.val with machine := true }.retire rd v ((rtDib s core.val).pc + 4)) s : State) with pending := s.pending }) ∧
   (∀ (core : Fin 16) (ctx : Fin 8) (j : Job) (i rd : Nat) (v : Word) (s u : State), Owns core ctx j s → j.b.dib.stopped = false →
     dibFetch core ctx j.b.dib.pc s = (.inr (some (i, 4)), u) →
     rvDecode i j.b.dib.pc j.b.dib.reg = .set rd v →
     exec (.dibberInstruction core ctx none) s = .next { (retire core ctx rd v (j.b.dib.pc + 4) u : State) with pending := s.pending })) ∧
  (∀ (core : Fin 16) (ctx : Fin 8) (rd rs : Fin 32) (imm : BitVec 12) (s : State),
     let d := rtDib s core.val
     d.x.length = 32 →
     ∃ t, exec (.dibberInstruction core ctx (some (BitVec.ofNat 32 (imm.toNat * 2 ^ 20 + rs.val * 2 ^ 15 + rd.val * 2 ^ 7 + 0x13)))) s =
         .next t ∧ t = { s with nmc := { s.nmc with rt := t.nmc.rt } } ∧
       (rtDib t core.val).pc = d.pc + 4 ∧
       (∀ n : Fin 32, (rtDib t core.val).x.getD n.val 0 =
         if n = rd ∧ rd ≠ 0 then d.reg rs.val + imm.signExtend 64 else d.x.getD n.val 0))

/-- TILLER, RAKE and SIEVE work their input a tile at a time (R171, R201-R213, R257-R261): when a station's command has its next tiles and
its operation accepts them, the tiles are consumed, the flags raised, and the outputs follow. ZERO and EMIT of TILLER (Table 09-4): ZERO makes every accumulator of its set zero; EMIT sends a set's values out as one tile of its
format. ROW_SUM, DTAB and LUTMV work as their steps on a body say (R211, R261). -/
def Obligations.TileCommandsRun : Prop :=
  (∀ (core : Fin 16) (ctx : Fin 8) (j : Job) (c : Cmd) (a : Tile) (ob : Option Tile) (s : State), Owns core ctx j s →
     let b := j.b.settle
     let none_ : Cmd → Carry → List Tile := fun _ _ => []
     ∀ x ∈ [(Instr.mma core ctx, 3, 0x02, mmaTile, none_), (.tillerLoad core ctx, 3, 0x04, loadTile, none_),
         (.add core ctx, 4, 0x01, fOp laneAdd, none_), (.sub core ctx, 4, 0x02, fOp laneSub, none_), (.mul core ctx, 4, 0x03, fOp laneMul, none_),
         (.fma core ctx, 4, 0x04, elementwise false false (fun c x y => laneFma (c.b.setWidth 32) x y), none_),
         (.min core ctx, 4, 0x05, fOp laneMin, none_), (.max core ctx, 4, 0x06, fOp laneMax, none_),
         (.abs core ctx, 4, 0x07, fOp1 laneAbs, none_), (.neg core ctx, 4, 0x08, fOp1 laneNeg, none_),
         (.cmp core ctx, 4, 0x09, elementwise false true (fun c x y => laneCmp (c.mode.toNat % 8) x y), none_),
         (.sel core ctx, 4, 0x0A, selTile, none_), (.exp core ctx, 4, 0x10, fOp1 laneExp, none_), (.exp2 core ctx, 4, 0x11, fOp1 laneExp2, none_),
         (.log core ctx, 4, 0x12, fOp1 (laneLog 2), none_), (.log2 core ctx, 4, 0x13, fOp1 (laneLog 3), none_),
         (.rsqrt core ctx, 4, 0x14, fOp1 laneRsqrt, none_), (.recip core ctx, 4, 0x15, fOp1 laneRecip, none_),
         (.sqrt core ctx, 4, 0x16, fOp1 laneSqrt, none_), (.div core ctx, 4, 0x17, fOp laneDiv, none_),
         (.tanh core ctx, 4, 0x18, fOp1 laneTanh, none_), (.rowMax core ctx, 4, 0x21, maxTile, none_),
         (.softmax core ctx, 4, 0x22, softTile, none_), (.topk core ctx, 4, 0x28, topTile, topEnd), (.cvt core ctx, 4, 0x30, cvtStep, none_),
         (.iadd core ctx, 4, 0x31, iOp (fun _ x y => (x + y, 0)), none_), (.isub core ctx, 4, 0x32, iOp (fun _ x y => (x - y, 0)), none_),
         (.imul core ctx, 4, 0x33, iOp (fun _ x y => (x * y, 0)), none_),
         (.logic core ctx, 4, 0x34, iOp (fun c x y => laneLogic (c.mode.toNat % 4) x y), none_),
         (.shift core ctx, 4, 0x35, iOp (fun c x y => laneShift (c.mode.toNat % 4) x y), none_),
         (.isat core ctx, 4, 0x36, iOp (fun c x y => laneIsat (c.mode.getLsbD 0) x y), none_),
         (.loadcb core ctx, 5, 1, loadcbTile (pagesElse s core ctx), none_), (.decode core ctx, 5, 2, decodeTile, none_),
         (.encode core ctx, 5, 3, encodeTile, none_), (.lookup core ctx, 5, 4, lookupTile, none_),
         (.lutacc core ctx, 5, 5, lutaccTile, lutaccEnd), (.adc core ctx, 5, 6, adcTile, none_), (.filter core ctx, 5, 7, filterTile, none_)],
       TileReady x.2.1 x.2.2.1 c a ob j.b →
       ∀ (carry : Carry) (ts : List Tile) (fl : BitVec 5) (b2 : Body),
         x.2.2.2.1 c ((b x.2.1).station x.2.1) a ob (b x.2.1) = .out carry ts fl b2 →
         let t := tileDone x.2.1 c x.2.2.2.2 a carry ts fl ((b x.2.1).station x.2.1).consumed b2
         t.seqOver = false → t ≠ j.b → exec x.1 s =
           .next { (progress (jobKey core ctx) (modBody (jobKey core ctx) (fun _ => t) s) : State) with pending := s.pending }) ∧
  (∀ (core : Fin 16) (ctx : Fin 8) (j : Job) (c : Cmd) (s : State), Owns core ctx j s →
     let b := j.b.settle 3
     let end_ (t : Body) := progress (jobKey core ctx) (modBody (jobKey core ctx) (fun _ => t) s)
     ((j.b.station 3).cur = some c → b.station 3 = j.b.station 3 → (j.b.station 3).outq = [] →
       (let t := ({ b.setAcc c.set_ (zeroSet (c.mode.getLsbD 0)) with arith := b.arith }).emitTiles 3 c [] true
        c.cmd = 1 → t.seqOver = false → t ≠ j.b → exec (.zero core ctx) s = .next { (end_ t : State) with pending := s.pending }) ∧
       (∀ o fl, cvtTile (c.mode.toNat % 256) (c.mode.getLsbD 8) 32 32
           ((List.range 1024).map fun i => emitNum c (b.accSet c.set_).isInt ((b.accSet c.set_).at_ i)) 0 0 = some (o, fl) →
         let b2 := if c.mode.getLsbD 9 then b.setAcc c.set_ (zeroSet (b.accSet c.set_).isInt) else b
         let t := ({ b2 with arith := b2.arith ||| fl }).emitTiles 3 c [o] true
         c.cmd = 3 → t.seqOver = false → t ≠ j.b → exec (.emit core ctx) s = .next { (end_ t : State) with pending := s.pending })) ∧
     (∀ t, rowSumStep j.b = .go t → t ≠ j.b → exec (.rowSum core ctx) s = .next { (end_ t : State) with pending := s.pending }) ∧
     (∀ t, wholeStep 5 dtabTables j.b = .go t → t ≠ j.b → exec (.dtab core ctx) s = .next { (end_ t : State) with pending := s.pending }) ∧
     (∀ t, wholeStep 6 lutmvTables j.b = .go t → t ≠ j.b → exec (.lutmv core ctx) s = .next { (end_ t : State) with pending := s.pending }))

/-- SPADE and BARROW (R221-R224): READ puts the next 4,096 bytes of its range into a tile once they are in the job's view; READ_ROWS
the rows that its indices name; STAGE puts a tile's bytes at their address into staging. -/
def Obligations.TransfersOfAJob : Prop :=
  ∀ (core : Fin 16) (ctx : Fin 8) (j : Job) (c : Cmd) (x : Station) (b : Body) (s : State),
    let k := jobKey core ctx
    let a := modBody k (fun _ => b) s
    (dmaJob core ctx 1 s = some j → curCmd j.b 1 1 = (some (c, x), b) → c.mode.getLsbD 0 = false →
      let va := c.a + BitVec.ofNat 64 (x.consumed * c.c.toNat)
      ∀ (bs : List Byte) (p : Bool) (u : State),
        viewBytes core ctx 1 va (Nat.min 4096 (c.b.toNat - 4096 * x.consumed)) a = (.bytes bs p, u) →
        let d := ((jobAt (doneWith k 1 u) k).getD {}).b
        exec (.read core ctx) s = .next { (setBody core ctx ((d.setStation 1 fun y => { y with consumed := x.consumed + 1 }).emitTiles 1 c
          [{ byteTile bs va 0 with h := { (byteTile bs va 0).h with poison := p } }]
          (decide (ceilDiv c.b.toNat 4096 ≤ x.consumed + 1))) (doneWith k 1 u) : State) with pending := s.pending }) ∧
    (∀ (t : Tile) (u : State), dmaJob core ctx 2 s = some j → curCmd j.b 2 1 = (some (c, x), b) → b.next c.inA = some t → t.h.poison = false →
      t.h.empty = false → stageTile core ctx t (c.a + BitVec.ofNat 64 (x.consumed * c.c.toNat)) a = (.ok, u) →
      let done := if c.count = 0 then t.h.last else decide (c.count ≤ x.consumed + 1)
      let d := ((((jobAt (doneWith k 2 u) k).getD {}).b.take c.inA).setStation 2 fun y => { y with
        consumed := y.consumed + 1
        outq := y.outq ++ (if c.out = noneStream then [] else [(c.out, emptyTile done t.h.origin t.h.user)]) ++
          (if done ∧ c.outB ≠ noneStream then [(c.outB, emptyTile true 0 0)] else [])
        closing := done })
      exec (.stage core ctx) s = .next { (setBody core ctx (d.settle 2) (doneWith k 2 u) : State) with pending := s.pending }) ∧
    (∀ (t : Tile) (idx : List Nat), dmaJob core ctx 1 s = some j → curCmd j.b 1 2 = (some (c, x), b) → b.next c.inA = some t →
      indicesOf t = some idx → x.carry.n = 0 → x.carry.bytes = [] → idx ≠ [] → idx.length ≤ 4096 / Nat.max 1 c.c.toNat → c.count = 0 →
      t.h.last = false →
      ∀ (bs : List Byte) (u : State), viewRows core ctx c.a c.c.toNat idx a = (.bytes bs false, u) →
        bs.length < 4096 / Nat.max 1 c.c.toNat * c.c.toNat →
        let d := ((jobAt (doneWith k 1 u) k).getD {}).b
        exec (.readRows core ctx) s = .next { (setBody core ctx (((d.take c.inA).setStation 1 fun y => { y with
          consumed := y.consumed + 1
          carry := { x.carry with n := 0, bytes := bs, pairs := [(BitVec.ofNat 32 (idx.headD 0), t.h.user)] } }).emitTiles 1 c [] false)
          (doneWith k 1 u) : State) with pending := s.pending })

/-- Table 09-6: ABS clears and NEG inverts the sign bit of FP32, whatever the value; IADD and ISUB of INT32 lanes undo each other; ISAT is the exact
sum, or difference, clamped to INT32. -/
def Obligations.LaneArithmetic : Prop :=
  (∀ x : BitVec 32, laneAbs x = (x &&& 0x7FFFFFFF, 0) ∧ laneNeg x = (x ^^^ 0x80000000, 0)) ∧
  (∀ x y : BitVec 32, laneAdd x y = laneAdd y x ∧ laneMul x y = laneMul y x) ∧
  (∀ x y : BitVec 32,
    (laneIsat false x y).1.toInt = max (-(2 ^ 31)) (min (2 ^ 31 - 1) (x.toInt + y.toInt)) ∧
    (laneIsat true x y).1.toInt = max (-(2 ^ 31)) (min (2 ^ 31 - 1) (x.toInt - y.toInt)))

/-- R204: one integer chunk step gives the exact sum of the accumulator and the products, saturated to INT32, and raises int_sat exactly where it saturates; an MMA of an integer and a float operand ends the job with MALFORMED and changes nothing. -/
def Obligations.IntegerChunkStep : Prop :=
  (∀ (acc : BitVec 32) (as bs : List Int),
    let sum := acc.toInt + (List.zipWith (· * ·) as bs).sum
    (chunkI acc as bs).1.toInt = max (-(2 ^ 31)) (min (2 ^ 31 - 1) sum) ∧
    ((chunkI acc as bs).2 = flIntSat ↔ sum < -(2 ^ 31) ∨ 2 ^ 31 - 1 < sum) ∧
    ((chunkI acc as bs).2 = 0 ↔ -(2 ^ 31) ≤ sum ∧ sum ≤ 2 ^ 31 - 1)) ∧
  (∀ (c : Cmd) (x : Station) (a : Tile) (ob : Option Tile) (b : Body), a.h.empty = false →
    let fa := c.mode.toNat % 256
    let fb := c.mode.toNat / 256
    (fmtIsInt fa = true ∧ fmtIsFloat fb = true) ∨ (fmtIsFloat fa = true ∧ fmtIsInt fb = true) →
    mmaTile c x a ob b = .bad 7 .malformed)

/-- R203, rules 1 to 3: a NaN input, an infinity times zero, or infinities of both signs give the canonical NaN; any other infinity gives itself; and an exact sum of zero is +0 unless the accumulator and every product are -0. -/
def Obligations.FloatChunkSpecials : Prop :=
  ∀ (acc : BitVec 32) (as bs : List Machine.Num), as.length = bs.length →
    let x := decF32 acc
    let ps := List.zipWith Machine.Num.mul as bs
    let value (y : Machine.Num) : ℚ := (y.dy.1 : ℚ) * 2 ^ y.dy.2
    let bad := (x.isNan = true ∨ (∃ y ∈ as, y.isNan = true) ∨ (∃ y ∈ bs, y.isNan = true)) ∨
      (∃ p ∈ as.zip bs, (p.1.isInf = true ∧ p.2.isZero = true) ∨ (p.1.isZero = true ∧ p.2.isInf = true)) ∨
      (∃ y ∈ x :: ps, ∃ z ∈ x :: ps, y = .inf true ∧ z = .inf false)
    (bad → (chunkF acc as bs).1 = 0x7FC00000) ∧
    (¬bad → .inf false ∈ x :: ps → (chunkF acc as bs).1 = 0x7F800000) ∧
    (¬bad → .inf true ∈ x :: ps → (chunkF acc as bs).1 = 0xFF800000) ∧
    (¬bad → (∀ y ∈ x :: ps, y.isInf = false) → ((x :: ps).map value).sum = 0 →
      (chunkF acc as bs).1 = if (∀ y ∈ x :: ps, y.isZero = true ∧ y.neg = true) then 0x80000000 else 0)

/-! ### PORT, GLEAN, SOW and PRUNE (12, 13) -/

/-- PORT sends a request tile to its unit (R169): a legal GLEAN or SOW request, and an INSERT, DELETE or ENTRY of a live index, enters the queue
of an instance and the tile is consumed; an EMPTY tile is consumed and sends nothing. -/
def Obligations.PortSendsRequests : Prop :=
  ∀ (core : Fin 16) (ctx : Fin 8) (j : Job) (c : Cmd) (t : Tile) (s : State), Owns core ctx j s → (j.b.station 6).cur = some c →
    j.b.next c.inA = some t →
    ∀ x ∈ [(Instr.portGlean core ctx, 1, gleanSend core ctx), (.portSow core ctx, 2, sowSend core ctx), (.portPrune core ctx, 3, prnSend core ctx)],
      c.cmd = x.2.1 →
      (t.h.empty = true → exec x.1 s = .next { (setBody core ctx (portNext c (j.b.station 6) t j.b) s : State) with pending := s.pending }) ∧
      (∀ b u, t.h.empty = false → portsOut s core (x.2.1 - 1) < 64 → x.2.2 j c (j.b.station 6) t j.b s = .sent b u →
        exec x.1 s = .next { (setBody core ctx (portNext c (b.station 6) t b) u : State) with pending := s.pending })

/-- GATHER and BAG take entries of the first request of their instance once the rows they name are there, as many as the window holds; after
the last entry the request is answered with its rows, and for BAG with a pooled row for each bag, and a status tile (R270, R272). SOW ADD and HARVEST (R273, R280): an ADD whose rows lie in RAW shards of this device puts every delta row into the combining buffer
and is answered; a HARVEST whose rows are done is answered; a request of the other kind changes nothing. SEARCH and SCAN answer once every line they read is there; INSERT, DELETE and ENTRY are staged in their job and answered OK (R302-R308). -/
def Obligations.UnitsAnswer : Prop :=
  (∀ (bag : Bool) (inst : Fin 4) (q : EmbReq) (v : TableVer) (s : State), embHead s inst.val = some q → embOp q.hdr = (if bag then 2 else 1) →
     tableVer s q.handle q.version = some v →
     let w := openWin inst.val q s
     let es := (q.entries.drop q.pos).take (4096 - w.1.n)
     ∀ (ds : List (Option (List Byte × Bool))) (u : State), gleanRows (Fin.ofNat 16 inst.val) (q.iid w.2) v es w.2 = (.inr ds, u) →
       let x := gleanTake bag inst.val q v w.1 es ds u
       (q.entries.length ≤ x.1.pos → exec (if bag then .bag inst else .gather inst) s =
         .next { (gleanReply bag v x.1 x.2 : State) with pending := s.pending }) ∧
       (x.1.pos < q.entries.length → exec (if bag then .bag inst else .gather inst) s =
         .next { (modEmbReq q.seq (fun _ => x.1) x.2 : State) with pending := s.pending })) ∧
  (∀ (inst : Fin 4) (q : EmbReq) (v : TableVer) (s : State), embHead s (4 + inst.val) = some q →
     tableVer s q.handle q.version = some v →
     (embOp q.hdr = 1 → (∀ e ∈ q.entries.zip q.deltas, ∀ r, entryKind v e.1 = .row r → sowRefuses s v r = none) →
       let x := (q.entries.zip q.deltas).foldl (fun (x : EmbReq × State) e => match entryKind v e.1 with
         | .pad => x
         | .invalid => ({ x.1 with invalid := x.1.invalid + 1 }, x.2)
         | .missing => ({ x.1 with missing := x.1.missing + 1 }, x.2)
         | .row r => ({ x.1 with done := x.1.done + 1, sat := x.1.sat + (addRow q v r e.2 x.2).1 }, (addRow q v r e.2 x.2).2)) (q, s)
       exec (.sowAdd inst) s = .next { (embReply x.1 [x.1.statusTile .ok]
         (countRC (Off.gln + 0x210) x.1.invalid (countRC (Off.gln + 0x218) x.1.missing x.2)) : State) with pending := s.pending }) ∧
     (embOp q.hdr = 2 → v.exact = true → q.group = [] →
       (v.rows ≤ fld (wordAt q.hdr 1) 40 0 + q.pos ∨
         entryKind v (BitVec.ofNat 64 (fld (wordAt q.hdr 1) 40 0 + q.pos)) = .invalid →
         exec (.harvest inst) s = .next { (harvestNext { q with invalid := q.invalid + 1 } s : State) with pending := s.pending }) ∧
       (fld (wordAt q.hdr 1) 40 0 + q.pos < v.rows →
         entryKind v (BitVec.ofNat 64 (fld (wordAt q.hdr 1) 40 0 + q.pos)) = .missing →
         exec (.harvest inst) s = .next { (harvestNext { q with missing := q.missing + 1 } s : State) with pending := s.pending })) ∧
     (embOp q.hdr = 2 → q.group ≠ [] → groupConfirmed q.group s = true →
       exec (.harvest inst) s = .next { (harvestNext { q with done := q.done + 1 }
         (pump (countShard v (v.shardOf (fld (wordAt q.hdr 1) 40 0 + q.pos)) q.writes.length
           (groupClose (q.iid s) q.group q.writes ((regionsOf s (q.writes.map (·.line))).foldl (fun s a => landed a s)
             (modEmbReq q.seq (fun y => { y with writes := [] }) s))))) : State) with pending := s.pending })) ∧
  ((∀ (op : Nat) (inst : Fin 4) (q : PrnReq) (s : State), op = 1 ∨ op = 2 →
     s.prn.queue.find? (fun q => q.inst == inst.val && prnOp q.words == op) = some q → q.fail = none →
     let qq : Query := { x := q.idx, g := q.gen, iid := ((jobAt s (jobKey q.core q.ctx)).map (·.iid)).getD 0, h := q.words, table := q.table
                         u := 8 + inst.val, who := q.seq }
     let p := if op = 1 then searchRun s qq else scanRun s qq
     p.fail = none → p.stuck = false → p.miss = [] → p.bits = [] → p.poisoned = [] →
     exec (if op = 1 then .search inst else .scan inst) s = .next { (portReply (jobKey q.core q.ctx) unitPrune q.seq
       (pairTiles q.user 4 (p.results.map fun r => (r.1, r.2 + q.idx.idBase)) ++
         [prnStatus (if p.results.length < prnK q.words then .fewer else .ok) q.gen p.examined p.passed p.hops p.extra p.nan p.skipped q.user])
       (prnDrop q (countRC (Off.prn + 0x100) p.bad (p.lines.foldl (fun s l => touchLine l s) s))) : State) with pending := s.pending }) ∧
   (∀ (op : Nat) (c : Instr) (inst : Fin 4) (q : PrnReq) (o : PrnOp) (j : Job) (s : State),
     (op, c) ∈ [(3, Instr.insert inst), (4, .delete inst), (5, .entry inst)] →
     s.prn.queue.find? (fun q => q.inst == inst.val && prnOp q.words == op) = some q → prnParse q.idx q.words q.body = some o →
     let k := jobKey q.core q.ctx
     let t := modBody k (fun b => { b with prn := b.prn ++ [o] }) (prnDrop q s)
     jobAt t k = some j → stageUsed j.b ≤ stageQuota t →
     exec c s = .next { (portReply k unitPrune q.seq
       [prnStatus .ok 0 (match o with | .insert _ _ _ _ _ => 1 | .delete _ ids => ids.length | .entry _ _ => 1) 0 0 0 0 0 q.user] t : State) with pending := s.pending }))

/-- The table commands (R267, R268): CREATE and REPLACE of a legal table whose shard map lies here make it the live version of its handle,
with the next version number; DELETE ends the live version. Table groups, cuttings and loads of shards (R284-R286). -/
def Obligations.TableCommands : Prop :=
  (∀ (wr : Writer) (handle : BitVec 12) (s : State), Ready s wr none [.a, .f] tblDone →
     let h := handle.toNat
     let a := accepted tblDone s
     (∀ replace : Bool, let r : TableRun := {
         replace := replace, handle := h, words := stagedWords a wr Off.gln, iid := writerIid s wr, fm := hasCls s wr none .f }
       (liveTable s h).isSome = replace → (replace = true → (s.emb.tables.filter (·.handle == h)).length < 4) →
       ({ handle := h, words := r.words } : TableVer).descOk = true →
       exec (if replace then .tableReplace wr handle else .tableCreate wr handle) s =
         .next { (tableStep (a.modEmb fun e => { e with run := some r }) : State) with pending := s.pending }) ∧
     (∀ t, liveTable s h = some t → (hasCls s wr none .f = true ∨ mapRights s (writerIid s wr) t.map = true) →
       exec (.tableDelete wr handle) s = .next { (cmdDone tblDone .ok (t.version.setWidth 32) (dropVersions (a.modEmb fun e => { e with
         tables := e.tables.map fun x => if x.handle = h then { x with live := false } else x })) : State) with pending := s.pending })) ∧
  ((∀ (wr : Writer) (group : BitVec 32) (s : State), Ready s wr none [.f] grpDone →
     let fs := (stagedWords s wr (Off.gln + 0x100)).flatMap fun w => (List.range 4).map fun i => BitVec.ofNat 16 (fld w (16 * i + 15) (16 * i))
     exec (.groupSet wr group) s = .next { (cmdDone grpDone .ok 0 ((accepted grpDone s).modEmb fun e => { e with
       groups := (e.groups.filter (·.1 != group.toNat)) ++ [(group.toNat, fs.filter (· != 0xFFFF))] }) : State) with pending := s.pending } ∧
     exec (.groupClear wr group) s = .next { (cmdDone grpDone .ok 0 ((accepted grpDone s).modEmb fun e => { e with
       groups := e.groups.filter (·.1 != group.toNat) }) : State) with pending := s.pending }) ∧
   (∀ (holder : BitVec 16) (handle : BitVec 12) (row : BitVec 40) (v : TableVer) (g : Word) (s : State),
     liveTable s handle.toNat = some v → v.rowAt row.toNat = some g → v.cutOk = true → row.toNat < v.rows → isHere s (fdnOf g) = true →
     s.emb.cuts = [] → s.emb.written = [] → 0 < (regGet s (Off.gln + 0x310)).toNat →
     let ls := linesOver (addr s g) v.rowBytes
     exec (.cuttingRequest holder handle row) s = .next { ({ s with
       emb := { s.emb with cuts := [{ handle := handle.toNat, row := row.toNat, holder := holder, lease := now s + cutLeaseNs s }] }
       out := s.out ++ [.cutGrant holder handle.toNat row.toNat (now s + cutLeaseNs s) (ls.map (storedLine s))] } : State) with pending := s.pending }) ∧
   (∀ (home : BitVec 16) (handle : BitVec 12) (row : BitVec 40) (s : State), exec (.cutDrop home handle row) s = .next { ({ s with
     emb := { s.emb with held := s.emb.held.filter fun c => !(c.handle == handle.toNat && c.row == row.toNat) }
     out := s.out ++ [.cutDropped home handle.toNat row.toNat] } : State) with pending := s.pending }) ∧
   (∀ (holder : BitVec 16) (handle : BitVec 12) (row : BitVec 40) (s : State), exec (.cutDropConfirm holder handle row) s =
     .next { (pump (s.modEmb fun e => { e with
       cuts := e.cuts.filter fun c => !(c.handle == handle.toNat && c.row == row.toNat && c.holder == holder) }) : State) with pending := s.pending }) ∧
   (∀ (handle : BitVec 12) (row : BitVec 40) (c : HeldCut) (s : State),
     s.emb.held.find? (fun c => c.handle == handle.toNat && c.row == row.toNat) = some c → s.emb.cuts = [] →
     exec (.cuttingLeaseEnd handle row false) s = .next { ((reach (c.lease - 100) s).modEmb fun e => { e with
       held := e.held.filter fun x => !(x.handle == handle.toNat && x.row == row.toNat) } : State) with pending := s.pending }) ∧
   (∀ (member : BitVec 16) (group : BitVec 32) (ls : List (BitVec 12 × BitVec 13 × Nat)) (s : State),
     exec (.shardLoadTotals member group ls) s = .next { (s.modEmb fun e => { e with
       totals := (e.totals.filter fun t => !(t.1 == member && t.2.1 == group.toNat)) ++ [(member, group.toNat, (ls.map (·.2.2)).sum)] } : State) with pending := s.pending }) ∧
   (∀ s : State, exec .shardLoadInterval s = .next { (loadInterval s : State) with pending := s.pending }))

/-- A new table version is the live one of its handle, and its version number is one more than the last (R268). -/
def Obligations.NewVersionIsLive : Prop :=
  ∀ (r : TableRun) (m : List (Word × Word)) (s : State),
    let t : TableVer := { handle := r.handle, words := r.words, map := m, live := true }
    ((List.range m.length).all t.entryOk) = true → (r.fm = true ∨ mapRights s r.iid m = true) → shardEntries s + m.length ≤ 1048576 →
    Tab.wf 0 s.emb.lastVer = true → Tab.wf {} s.regs.done = true →
    let u := putTable r m s
    (doneGet u tblDone).status = .ok ∧ (doneGet u tblDone).busy = false ∧
    liveTable u r.handle = some { t with version := Tab.get 0 s.emb.lastVer r.handle + 1 } ∧
    Tab.get 0 u.emb.lastVer r.handle = Tab.get 0 s.emb.lastVer r.handle + 1 ∧
    (∀ h, h ≠ r.handle → liveTable u h = liveTable s h)

/-- The index commands on an index of this device (R295, R300): CREATE writes generation 1 into the header and keeps the index; DESTROY forgets
it; PIN and UNPIN take and free a pin slot; INDEX_RESTAMP of a dead handle does nothing; a commit that still waits at 10 ms ends BUSY (R299). -/
def Obligations.IndexCommands : Prop :=
  (∀ (wr : Writer) (handle : BitVec 10) (s : State), Ready s wr none [.a, .f] idxDone →
    let h := handle.toNat
    let a := accepted idxDone s
    let x : Index := { handle := h, words := (List.range 16).map fun i => staged s wr (Off.prn + 8 * i), inst := leastInst s, iid := writerIid s wr }
    (hasCls s wr none .f = true → indexOf s h = none → x.descOk a = true →
      (x.areas.any fun y => (areaExts a y).any fun e => decide ((extDesc a e).form = .coded)) = false →
      let line := lineOf (addr a x.hdr)
      let u := untilReady (fun s => ((if (readyFull line s).1 then none else some (.way (setOf (readyFull line s).2 (line / 128)))), (readyFull line s).2)) 8 a
      let u := storeLine line (BitVec.allOnes 128) (bytesOfWords (put 32 1 :: List.replicate 15 0)) u
      exec (.indexCreate wr handle) s =
        .next { (cmdDone idxDone .ok 0 (((groupRecord (extOfLine line) (dataRec u line 15 false x.iid) u).2).modPrn fun p => { p with
        idx := p.idx ++ [x] }) : State) with pending := s.pending }) ∧
    (∀ y, indexOf s h = some y → (hasCls s wr none .f || idxRights s (writerIid s wr) y (·.own)) = true →
      exec (.indexDestroy wr handle) s =
        .next { (cmdDone idxDone .ok 0 ((editHdr y id a).2.modPrn fun p => { p with idx := p.idx.filter (· != y) }) : State) with pending := s.pending } ∧
      (∀ i, (List.range 4).find? (fun i => (hdrPins (hdrWords a y)).getD i 0 == 0) = some i →
        (editHdr y (setPin i (hdrGen (hdrWords a y))) a).1 = true →
        exec (.pin wr handle) s =
          .next { (cmdDone idxDone .ok (hdrGen (hdrWords a y)) (editHdr y (setPin i (hdrGen (hdrWords a y))) a).2 : State) with pending := s.pending }) ∧
      (∀ i, let g : BitVec 32 := (staged s wr Off.prn).setWidth 32
        (List.range 4).find? (fun i => (hdrPins (hdrWords a y)).getD i 0 == g && g != 0) = some i → (editHdr y (setPin i 0) a).1 = true →
        exec (.unpin wr handle) s = .next { (cmdDone idxDone .ok 0 (editHdr y (setPin i 0) a).2 : State) with pending := s.pending }))) ∧
  (∀ (handle : BitVec 10) (item : BitVec 32) (s : State), exec (.indexRestamp handle item) s =
    .next { (restampItem handle.toNat item.toNat s : State) with pending := s.pending } ∧
    (indexOf s handle.toNat = none → exec (.indexRestamp handle item) s = .next { s with pending := s.pending })) ∧
  (∀ (core : Fin 16) (ctx : Fin 8) (j k : Job) (s : State), jobAt s (jobKey core ctx) = some j → j.phase = .committing → j.group = [] →
    j.b.prn ≠ [] →
    let t := commitTry core ctx (reach (j.commitAt + 10000000) s)
    jobAt t (jobKey core ctx) = some k → k.phase = .committing → k.group = [] →
    exec (.indexCommitWaitBound core ctx) s = .next { (commitFail core ctx 0x0B .busy 0 t : State) with pending := s.pending })

/-! ### Translation (14) -/

/-- BIND and UNBIND of an ASID (R314), replies to page faults and their timeout (R326, R327). Invalidations (R328, R329): a well-formed one takes effect at once and completes when nothing it waits for remains; one that waits
completes later; at 10 ms what remains is ended. Reads of host pages (R323, R331, R345): the host answers each half of the line; the first answer is kept, the second ends the read with
the line, and with POISON where a half is poisoned; its lateness ends the read too, and either lets the next go; HOT_PAGE_DECAY, one interval
after the last, halves the counts of host pages and changes nothing else. -/
def Obligations.TranslationCommands : Prop :=
  ((∀ (wr : Writer) (asid : BitVec 16) (s : State), Ready s wr none asidCls asidDone →
     let a := accepted asidDone s
     let w0 := staged s wr (asidStage 0)
     let iid := bindIid s wr (staged s wr (asidStage 1))
     let root := fld w0 47 12 * 4096
     let d := extDesc s (extOf root)
     ((s.xlt.asids.any fun x => x.1 == asid.toNat && x.2.valid) = false → d.state = .assigned → d.form = .raw → (rightsOf d iid).rd = true →
       exec (.bind wr asid) s = .next { (cmdDone asidDone .ok 0 (a.modXlt fun x => { x with
         asids := Tab.put {} asid.toNat { valid := true, root := root, fq := Fin.ofNat 16 (fld w0 3 0), iid := iid } x.asids }) : State) with pending := s.pending }) ∧
     (∀ n rec_, s.xlt.asids.find? (fun x => x.1 == asid.toNat && x.2.valid) = some (n, rec_) → invAllowed s wr rec_ = true →
       let b := a.modXlt fun x => { x with
         asids := Tab.put {} asid.toNat {} x.asids, unbinding := x.unbinding ++ [asid], tlb := x.tlb.filter fun t => t.2.asid != asid }
       exec (.unbind wr asid) s = .next { (unbindTry (endQueued asid ((asidJobs b asid).foldl (fun s c => match jobAt s (jobKey c.1 c.2) with
         | some j => if committedJob j ∨ j.phase = .ended then s else cancelJob c.1 c.2 s
         | none => s) b)) : State) with pending := s.pending })) ∧
   (∀ (wr : Writer) (v : Word) (f : LiveFault) (st : Status) (s : State), s.xlt.faults.find? (fun f => f.id == v.setWidth 32) = some f →
     invAllowed s wr (((s.xlt.asids.find? fun a => a.1 == f.asid.toNat).map (·.2)).getD {}) = true → statusOf (fld v 63 59) = some st →
     exec (.xltFaultResp wr v) s = .next { (faultOver f st s : State) with pending := s.pending }) ∧
   (∀ (id : BitVec 32) (f : LiveFault) (t : Nat) (s : State), s.xlt.faults.find? (·.id == id) = some f → f.posted = some t →
     exec (.faultTimeout id) s =
       .next { (faultOver f .abandoned (reach (t + 1000000 * (regGet s (Off.xlt + 0x320)).toNat) s) : State) with pending := s.pending })) ∧
  ((∀ (all : Bool) (wr : Writer) (n : Nat) (rec_ : AsidRec) (s : State), allowed s wr none [.a, .w, .f] = true → s.xlt.invals.length < 64 →
     let w0 := staged s wr (invStage 0)
     let w1 := staged s wr (invStage 1)
     let counter := staged s wr (invStage 2)
     let asid := BitVec.ofNat 16 (fld w0 47 32)
     let num := s.xlt.nextInv + 1
     s.xlt.asids.find? (fun a => a.1 == asid.toNat && a.2.valid) = some (n, rec_) → invAllowed s wr rec_ = true → counter.toNat % 8 = 0 →
     fld w0 63 56 = (if all then 2 else 1) → (all = true ↔ fld w0 31 0 = 0) →
     let i : Inval := { num := num, asid := asid, all := all, lo := fld w1 47 16 * 65536, pages := fld w0 31 0
                        counter := counter, iid := rec_.iid, start := now s }
     let a := invalidate i ((doneMod invDone (fun d => { d with number := d.number + 1 }) (s.modXlt fun x => { x with
       nextInv := num })).modXlt fun x => { x with invals := x.invals ++ [i] })
     exec (if all then .invAsid wr else .invRange wr) s =
       .next { (if invBusy a i then doneMod invDone (fun d => { d with busy := decide (64 ≤ a.xlt.invals.length) }) a else invFinish i a : State) with pending := s.pending }) ∧
   (∀ (num : BitVec 16) (i : Inval) (s : State), s.xlt.invals.find? (·.num == num) = some i →
     (invBusy s i = false → exec (.invComplete num) s = .next { (invFinish i s : State) with pending := s.pending }) ∧
     (invBusy s i = false → exec (.invDrainBound num) s =
       .next { (invFinish i (reach (i.start + 10000000) s) : State) with pending := s.pending }))) ∧
  ((∀ (port : Fin 4) (a : BitVec 52) (bad : Bool) (data : BitVec 512) (r : HostRead) (s : State),
     s.xlt.reads.find? (fun r => r.port == port && r.addr == (a &&& ~~~(64 : BitVec 52)) && r.issued) = some r →
     let t := telAdd (0x1100 + 0x10 * port.val) 64 s
     (r.got = none → exec (.rdcurrAnswer port a bad data) s = .next { (t.modXlt fun x => { x with
       reads := x.reads.map fun y => if y = r then { r with got := some (a.getLsbD 6, data), poison := bad } else y } : State) with pending := s.pending }) ∧
     (∀ up d, r.got = some (up, d) → up ≠ a.getLsbD 6 →
       let u := countHost (((jobAt t (jobKey r.core r.ctx)).map (·.asid)).getD 0) r.va t
       (r.poison = false → exec (.rdcurrAnswer port a false data) s =
         .next { (endHostRead r .ok (bytesOfLine (joinHalves up d data)) u : State) with pending := s.pending }) ∧
       (r.poison = true ∨ bad = true → exec (.rdcurrAnswer port a bad data) s =
         .next { (endHostRead r .poison [] u : State) with pending := s.pending }))) ∧
   (∀ (port : Fin 4) (a : BitVec 52) (r : HostRead) (s : State), s.xlt.reads.find? (fun r => r.port == port && r.addr == a) = some r →
     (r.issued = true → portUp s port = true → exec (.hostReadTimeout port a) s =
       .next { (endHostRead r .abandoned [] (reach r.due s) : State) with pending := s.pending }) ∧
     (portUp s port = false → exec (.hostReadTimeout port a) s = .next { (endHostRead r .abandoned [] s : State) with pending := s.pending })) ∧
   (∀ s : State, exec .hotPageDecay s =
     .next { ((elapsed .hotDecay ((regGet s (Off.xlt + 0x330)).toNat * 1000000) s).modXlt fun x => { x with
       hot := s.xlt.hot.map fun e => (e.1, e.2 / 2), hotPosted := [] } : State) with pending := s.pending }))

/-! ### The fabric (16) -/

/-- How a link comes up and goes down (R353-R357, R380, R381): enabled, it trains; trained with two lanes or more, it sends its IDENT; a peer
that passes the wiring check brings it up, and a wrong one refuses it for 10 s; it goes down, waits and trains again. Optical modules (R378-R380): a module that appears has its reset released, one that is ready runs the first application that fits, one that is
not ready in time stays in low power; its flags lose lanes and post alarms; monitors go to margin telemetry; one that is removed takes its link
down. -/
def Obligations.FabricLinks : Prop :=
  ((∀ (n : Fin 24) (s : State), (fabAt s n).state ≠ .active → (fabAt s n).state ≠ .training → (isMesh n = true ∨ (fabAt s n).module = .active) →
     linkMayTrain s n = true →
     exec (.linkEnable n) s =
       .next { (modFabLink n (fun l => { l with state := .training, retrainAt := none }) s : State) with pending := s.pending }) ∧
   (∀ (n : Fin 24) (t : FabTrain) (s : State), (fabAt s n).state = .training →
     let w := ones 5 t.working.toNat
     (2 ≤ w → let u := modFabLink n (fun l => { l with
         working := t.working, inverted := t.inverted, order := t.order, spare := if w = 5 then 4 else 7, narrowed := decide (w < 4) }) s
       exec (.linkTrained n t) s = .next { (emit (.link n 0x03 (identWords u n)) u : State) with pending := s.pending }) ∧
     (w < 2 → exec (.linkTrained n t) s = .next { (trainFailed n s : State) with pending := s.pending })) ∧
   (∀ (n : Fin 24) (id : Ident) (agree : Bool) (s : State),
     let u := s.modFlt fun f => { f with epoch := Nat.max f.epoch id.epoch }
     ((fabAt s n).state = .training → crosswired u n id agree = false → exec (.ident n id agree) s =
       .next { (bringUp n id u : State) with pending := s.pending }) ∧
     ((fabAt s n).state = .active → id.fdn = (fabAt s n).peer → exec (.ident n id agree) s = .next { u with pending := s.pending }) ∧
     ((fabAt s n).state = .active → id.fdn ≠ (fabAt s n).peer → exec (.ident n id agree) s =
       .next { (goDown n false u : State) with pending := s.pending })) ∧
   (∀ (n : Fin 24) (s : State), exec (.linkDown n) s = .next { (goDown n false s : State) with pending := s.pending }) ∧
   (∀ (n : Fin 24) (t : Nat) (s : State), (fabAt s n).drill = false → linkMayTrain s n = true → (fabAt s n).retrainAt = some t →
     exec (.linkRetrain n) s =
       .next { (modFabLink n (fun l => { l with state := .training, retrainAt := none }) (reach t s) : State) with pending := s.pending }) ∧
   (∀ (wr : Writer) (n : Fin 24) (s : State), allowed s wr none [.f, .m] = true → exec (.linkReset wr n) s =
     .next { (goDown n true s : State) with pending := s.pending })) ∧
  ((∀ (n : Fin 24) (advertised : Nat) (s : State), isOptical n = true → exec (.modulePresence n advertised) s =
     .next { (emit (.modReset n true) (modFabLink n (fun l => { l with
       module := .resetReleased, moduleDue := now s + Nat.min advertised 5000000000 }) s) : State) with pending := s.pending }) ∧
   (∀ (n : Fin 24) (apps : List CmisApp) (s : State), (fabAt s n).module = .resetReleased →
     (∀ a, apps.find? (fun a => a.c2m200 && a.oneLane) = some a → exec (.moduleReady n apps) s = .next { (emit (.modApply n a.code)
       (modFabLink n (fun l => { l with
         module := .active, app := a.code, state := if linkMayTrain s n then .training else l.state, retrainAt := none }) s) : State) with pending := s.pending }) ∧
     (apps.find? (fun a => a.c2m200 && a.oneLane) = none → exec (.moduleReady n apps) s =
       .next { (linkRec 0x08 2 n 0 (modFabLink n (fun l => { l with module := .lowPower }) s) : State) with pending := s.pending }) ∧
     exec (.moduleReadyTimeout n) s = .next { (linkRec 0x03 2 n 0 (modFabLink n (fun l => { l with module := .lowPower })
       (reach (fabAt s n).moduleDue s)) : State) with pending := s.pending }) ∧
   (∀ (n : Fin 24) (f : CmisFlags) (s : State), (fabAt s n).module = .active → f.los ||| f.lol = 0 →
     exec (.moduleInterrupt n f) s =
       .next { (if f.alarm = 0 then s else postDev 0x2E (linkObj n f.alarm.toNat) s : State) with pending := s.pending }) ∧
   (∀ (n : Fin 24) (f : CmisFlags) (v : BitVec 16) (s : State), (fabAt s n).module ≠ .absent →
     exec (.opticsPoll n f (some v)) s =
       .next { (keepMargin 3 (put 48 n.val ||| put 0 v.toNat) (moduleFlags n f s) : State) with pending := s.pending }) ∧
   (∀ (n : Fin 24) (s : State), isOptical n = true → exec (.moduleRemoval n) s =
     .next { (emit (.modReset n false) (modFabLink n (fun l => { l with module := .absent, retrainAt := none }) (goDown n false s)) : State) with pending := s.pending }))

/-- A link that goes down holds nothing of what it had not delivered and trains again after 1 ms; nothing happens to the other links' own
state, to memory, to the extents or to the journal (R380, R381). -/
def Obligations.LinkDownLosesItsFlits : Prop :=
  ∀ (n : Fin 24) (s : State), (fabAt s n).state ≠ .down → ∃ t, exec (.linkDown n) s = .next t ∧
    (fabAt t n).state = .down ∧ (fabAt t n).unacked = [] ∧ (fabAt t n).rxBuf = [] ∧ (fabAt t n).retrainAt = some (now s + 1000000) ∧
    t.tier = s.tier ∧ t.ext = s.ext ∧ t.jrn.ring = s.jrn.ring ∧ t.flash = s.flash

/-- Flow of messages and flits (R361-R374): returned credits are added and what waits goes on; a message enters the routing; a good flit in sequence is
taken and acknowledged, one that fails its CRC asks for a replay; a replay resends what is not acknowledged; an old path is given up after its
hold, and a message that waited 10 us is discarded and counted. -/
def Obligations.FabricFlow : Prop :=
  (∀ (n : Fin 24) (vc : Fin 8) (bclass : Fin 4) (shared : Bool) (credits : BitVec 32) (s : State),
    let k := creditKey vc bclass.val
    exec (.lcrd n vc bclass shared credits) s = .next { (fabPump (modFabLink n (fun l =>
      if shared then { l with shared := l.shared + credits.toNat }
      else { l with credits := Tab.put 0 k (creditsOf l k + credits.toNat) l.credits }) s) : State) with pending := s.pending }) ∧
  (∀ (m : FabMsg) (s : State), exec (.messageRoute m) s = .next { (routeIn m s : State) with pending := s.pending }) ∧
  (∀ (n : Fin 24) (flit : FlitIn) (s : State), (fabAt s n).state = .active →
    let u := fabBytes n false 1 (if (fecDecode flit).2 ≠ 0 then countFixed n (fecDecode flit).2 s else s)
    let bs := bytesOfNat 256 (fecDecode flit).1.toNat
    let h := natOfBytes (bs.take 4)
    ((crc32c (bs.take 252)).toNat ≠ natOfBytes (bs.drop 252) → h / 2 ^ 30 = 0 → exec (.flitReceive n flit) s =
      .next { (askReplay n u : State) with pending := s.pending }) ∧
    ((crc32c (bs.take 252)).toNat = natOfBytes (bs.drop 252) → h / 2 ^ 30 = 1 →
      exec (.flitReceive n flit) s = .next { (fabPump (takeAck n (BitVec.ofNat 12 (h / 2 ^ 6)) u) : State) with pending := s.pending }) ∧
    ((crc32c (bs.take 252)).toNat = natOfBytes (bs.drop 252) → h / 2 ^ 30 = 0 → BitVec.ofNat 12 (h / 2 ^ 18) = (fabAt s n).rxSeq →
      let p := parseStream n 32 ((fabAt s n).rxBuf ++ (bs.drop 4).take 248)
      let v := modFabLink n (fun l => { l with rxSeq := l.rxSeq + 1, rxBuf := p.2, replaySent := none }) (takeAck n (BitVec.ofNat 12 (h / 2 ^ 6)) u)
      exec (.flitReceive n flit) s = .next { (fabPump (p.1.foldl (fun s m => routeIn m s) (sendAck n v)) : State) with pending := s.pending })) ∧
  (∀ (n : Fin 24) (seq : BitVec 12) (s : State), (fabAt s n).state = .active → exec (.replay n seq) s =
    .next { (resendFrom n seq s : State) with pending := s.pending }) ∧
  (∀ (n : Fin 24) (u : BitVec 12 × BitVec 2048) (rest : List (BitVec 12 × BitVec 2048)) (s : State), (fabAt s n).unacked = u :: rest →
    (fabAt s n).spareHold = none →
    let t := reach ((fabAt s n).ackAt + 2000) s
    ((fabAt s n).sameReplays < 15 → exec (.replayTimer n) s = .next { (resendFrom n u.1 (modFabLink n (fun l => { l with
      sameReplays := l.sameReplays + 1 }) t) : State) with pending := s.pending }) ∧
    (15 ≤ (fabAt s n).sameReplays → exec (.replayTimer n) s = .next { (goDown n false t : State) with pending := s.pending })) ∧
  (∀ (vc : Fin 8) (key : BitVec 32) (p : Nat × Nat × Nat) (s : State), s.fab.paths.find? (fun p => p.1 == vc.val * 2 ^ 32 + key.toNat) = some p →
    exec (.pathHoldExpire vc key) s = .next { (fabPump (reach (p.2.2 + holdNs s) s) : State) with pending := s.pending }) ∧
  (∀ (id : Nat) (f : Fwd) (s : State), s.fab.fwd.find? (fun f => f.id == id && f.m.arrived.isSome) = some f →
    exec (.forwardStale id) s = .next { (dropFwd f (countRC (Off.fab + 0x2050) 1 (reach (f.at_ + 10000) s)) : State) with pending := s.pending })

/-- R372: among the set links of a mask, in rising order, a message of a keyed VC takes the n-th, n being the CRC-32C of its key bytes modulo their number; one of an adaptive VC takes a link with the most credits for its VC and bclass, the lowest-numbered of those. -/
def Obligations.LinkChoice : Prop :=
  ∀ (s : State) (m : FabMsg) (mask : List Nat), mask.Pairwise (· < ·) → mask ≠ [] →
    (∀ k, msgKey m = some k → pickLink s m mask = mask[(crc32c (bytesOfNat 4 k)).toNat % mask.length]?) ∧
    (msgKey m = none →
      let credits (n : Nat) : Nat := creditsOf (fabAt s n) (creditKey m.vc m.bclass.toNat)
      ∃ c ∈ mask, pickLink s m mask = some c ∧ ∀ n ∈ mask, credits n ≤ credits c ∧ (credits n = credits c → c ≤ n))

/-- FEC modes and lanes (R359, R360, R369, R370): a request for a mode that this end may use is echoed and taken, and so is the echo of one's own;
a receiver above its bound asks for a stronger mode; a lost lane goes to the spare; the spare in place is announced. Time synchronisation (R375-R377): the master keeps its time; another device asks its parent; a request is answered with the times of its
receipt and answer; a response sets the offset to slew, which is the mean of the two differences less half the asymmetry; without responses the
parent changes. -/
def Obligations.FecAndTime : Prop :=
  ((∀ (n : Fin 24) (mode : BitVec 3) (s : State), (fabAt s n).state = .active → mode.toNat ≤ 2 →
     (fecOk s n (mode.setWidth 2 : BitVec 2).toNat = true →
       exec (.modeChg n false mode) s =
         .next { (setFec n (mode.setWidth 2) (emit (.link n 0x04 [put 49 1 ||| put 0 (mode.setWidth 2 : BitVec 2).toNat]) s) : State) with pending := s.pending }) ∧
     ((fabAt s n).fecAsk = some (mode.setWidth 2) → exec (.modeChg n true mode) s =
       .next { (setFec n (mode.setWidth 2) s : State) with pending := s.pending })) ∧
   (∀ (n : Fin 24) (m : FecMeasure) (s : State), (fabAt s n).state = .active → s.sys.heat.getD 1 0 = 0 → (fabAt s n).fec = 0 →
     m.flits < m.failed * 1000000000 → m.bits ≤ m.bitErrors * 100000000 →
     exec (.fecEvaluate n m) s = .next { (askFec n 1 (modFabLink n (fun l => { l with quietSince := none }) s) : State) with pending := s.pending }) ∧
   (∀ (n : Fin 24) (lane : Fin 5) (s : State), exec (.laneLoss n lane) s = .next { (loseLane n lane.val s : State) with pending := s.pending }) ∧
   (∀ (n : Fin 24) (lane : Fin 5) (s : State), (fabAt s n).state = .active → (fabAt s n).working.toNat.testBit lane.val = true →
     let u := modFabLink n (fun l => { l with working := l.working &&& ~~~(BitVec.ofNat 5 (2 ^ lane.val)) }) s
     (fabAt s n).spare < 5 → (fabAt s n).spare ≠ lane.val → (fabAt s n).spareSent = false →
     exec (.laneLoss n lane) s = .next { (emit (.link n 0x05 [put 0 lane.val]) (modFabLink n (fun l => { l with
       spareSent := true, retiring := lane.val }) u) : State) with pending := s.pending }) ∧
   (∀ (n : Fin 24) (lane : Fin 5) (s : State), (fabAt s n).state = .active →
     exec (.spare n false lane) s = .next { (modFabLink n (fun l => { l with spareHold := some (now s) }) s : State) with pending := s.pending }) ∧
   (∀ (n : Fin 24) (s : State), (fabAt s n).spareSent = true →
     let l := fabAt s n
     exec (.spareComplete n) s = .next { (postDev 0x2B (linkObj n l.retiring)
       (emit (.link n 0x02 [put 32 l.rxSeq.toNat]) (emit (.link n 0x05 [put 49 1 ||| put 0 l.retiring])
         (modFabLink n (fun k => { k with
           spareSent := false, retiring := 7, spare := 7, replaySent := some (now s)
           order := k.order.map fun p => if p.val = l.retiring then Fin.ofNat 5 l.spare else p }) s))) : State) with pending := s.pending })) ∧
  ((∀ s : State, timeMaster s = some (ownFdn s) →
     exec .tsyncSend s = .next { ({ s with fab := { s.fab with sync := true, parent := none, t1 := none } } : State) with pending := s.pending }) ∧
   (∀ (p : Nat) (s : State), timeMaster s ≠ some (ownFdn s) → parentLink s = some p →
     exec .tsyncSend s = .next { ({ s with
       fab := { s.fab with parent := some (Fin.ofNat 24 p), t1 := some (BitVec.ofNat 64 (now s)) }
       out := s.out ++ [.link (Fin.ofNat 24 p) 0x06 [0, BitVec.ofNat 64 (now s), 0, 0]] } : State) with pending := s.pending }) ∧
   (∀ (n : Fin 24) (t1 t2 t3 : Word) (s : State), exec (.tsync n false t1 t2 t3) s = .next { ({ s with
     out := s.out ++ [.link n 0x06 [put 49 1, t1, BitVec.ofNat 64 (now s), BitVec.ofNat 64 (now s)]] } : State) with pending := s.pending }) ∧
   (∀ (n : Fin 24) (t1 t2 t3 : Word) (s : State), s.fab.parent = some n → s.fab.t1 = some t1 →
     let off := tsyncOffset t1 t2 t3 (BitVec.ofNat 64 (now s)) ((regGet s (Off.fab + 0x100 * n.val + 0x10)).setWidth 32)
     exec (.tsync n true t1 t2 t3) s = .next { ({ s with fab := { s.fab with
       t1 := none, lastTsync := now s, slew := off, sync := decide (off.natAbs ≤ 50)
       unsyncPosted := if off.natAbs ≤ 50 then false else s.fab.unsyncPosted } } : State) with pending := s.pending }) ∧
   (∀ s : State, exec .tsyncTimeout s = .next { (tsyncLate s : State) with pending := s.pending }))

/-! ### RAS and containment (17) -/

/-- Records, events and storms (R385, R388, R393, R498, R399): the end of a storm lets corrected errors count anew; an event about another device's request is
posted; the first waiting record of a queue is written when its store is answered OK, and its vector is signalled; a fatal error ends admission,
answers what waits, raises viral and asks for the fatal reset; the watchdog, once armed and not fed for its interval, asks for its own. -/
def Obligations.ErrorsAndEvents : Prop :=
  (∀ (t : Nat) (s : State), s.ras.stormEnd = some t →
    exec .ceStormEnd s = .next { ((reach t s).modRas fun r => { r with stormEnd := none, ceCount := 0 } : State) with pending := s.pending }) ∧
  (∀ (h : FleetHdr) (e : EventRec) (s : State), exec (.event ⟨h, e⟩) s =
    .next { (post e none none (sawEpoch h.epoch s) : State) with pending := s.pending }) ∧
  (∀ (win : Fin 64) (e : EventRec) (rest : List EventRec) (bs : List Byte) (s u : State), (evqOf s win.val).waiting = e :: rest →
    let b := regGet s (Off.evq win.val)
    qValid b = true → ringFull (evqSize s win.val) (evqHead s win.val) (evqOf s win.val).tail = false →
    ownAsk (0x4000 + win.val) .storePart (wordsWrite s (evqOf s win.val).iid (qOff b + 32 * (evqOf s win.val).tail) (eventWords e)) s =
      (some (.ok, bs), u) →
    let v := modEvq win.val (fun q => { q with waiting := q.waiting.drop 1, tail := (q.tail + 1) % Nat.max 1 (evqSize u win.val) }) u
    exec (.eventRecordWrite win) s = .next { (signal win ((evqCtl v win.val).setWidth 8) v : State) with pending := s.pending }) ∧
  (∀ (block inst : BitVec 8) (sliceOut : Option (Fin 32)) (s : State), exec (.fatalError block inst sliceOut) s =
    .next { (fatal block inst sliceOut s : State) with pending := s.pending }) ∧
  (∀ s : State, s.sys.watchArmed = true → exec .watchdogExpire s = .next { (requestWarm .watchdog (postDev 0x34 (BitVec.ofNat 64 (Off.ras + 0x128))
    (internalRec 0x0C 0x44 0 (elapsed .watchdog ((regGet s (Off.ras + 0x128)).toNat * 1000000) s))) : State) with pending := s.pending })

/-- The error log is bounded: a record of an error leaves at most 2,048 in it if no more were there (R384). -/
def Obligations.ErrorLogIsBounded : Prop :=
  ∀ (e : ErrRec) (s : State), s.ras.log.length ≤ 2048 → (raise e s).ras.log.length ≤ 2048

/-- Composition and containment (R394-R397): a member's list entry replaces its old one; a contained composition is contained once, and released;
COMP_POLICY sets its policy. -/
def Obligations.CompositionContainment : Prop :=
  (∀ (h : FleetHdr) (comp : BitVec 24) (exposed : Nat) (s : State), exec (.compList h comp exposed) s = .next { ({ sawEpoch h.epoch s with
    ras := { s.ras with cellLists := (s.ras.cellLists.filter fun e => !(e.1 == h.subject && e.2.1 == comp.toNat)) ++
      [(h.subject, comp.toNat, exposed)] } } : State) with pending := s.pending }) ∧
  (∀ (src : BitVec 16) (m : FleetMark) (comp : BitVec 24) (s : State), s.flt.seen.contains (src, m.mseq) = false →
    let u (ty : BitVec 8) := emit (.fleet ty none (m.hdr src) [put 0 comp.toNat]) (noteSeen src m.mseq (sawEpoch m.epoch s))
    exec (.compContain src m comp) s = .next { (applyContain comp.toNat (u 0x19) : State) with pending := s.pending } ∧
    exec (.compRelease src m comp) s = .next { (applyRelease comp.toNat (u 0x1A) : State) with pending := s.pending }) ∧
  (∀ (fdn : BitVec 16) (s : State), isFenced s fdn = true → s.flt.containedFor.contains fdn = false →
    (∀ w ∈ s.flt.waits, w.subject ≠ fdn) → (∀ e ∈ s.ras.cellLists, e.1 ≠ fdn) →
    exec (.containmentStart fdn) s =
      .next { (s.modFlt fun t => { t with containedFor := t.containedFor ++ [fdn] } : State) with pending := s.pending }) ∧
  (∀ (wr : Writer) (comp : BitVec 24) (policy : BitVec 2) (s : State), Ready s wr none [.f, .m] compDone →
    (policy ≠ 3 → exec (.compPolicy wr comp policy) s = .next { (cmdDone compDone .ok 0 ((accepted compDone s).modRas fun r => { r with
      policy := Tab.put 0 comp.toNat policy r.policy }) : State) with pending := s.pending }) ∧
    exec (.compReleaseCmd wr comp) s = .next { (cmdDone compDone .ok 0
      (flood 0x1A (servedFdn s) (applyRelease comp.toNat (accepted compDone s)).flt.epoch false [put 0 comp.toNat]
        (applyRelease comp.toNat (accepted compDone s))) : State) with pending := s.pending })

/-! ### The fleet (18) -/

/-- Pulses and votes (R402-R405, R408): a device sends its pulses; a pulse of a peer in good standing counts towards the run of consecutive
ones; a link without five pulses is suspected; votes are cast and withdrawn; a hold ends in a fence where the quorum still stands; a device
without a quorum fences itself; FLT_FENCE_CMD fences; PDOWN fences a mesh peer and takes the link down. Fences and joins (R403-R409, R414, R428): a flooded fence or unfence not seen before is passed on and applied; a fence of this device fences
it; JOIN is answered; the answer lets a joining device in with the fleet's fenced set, and asks again after 1 s without one. -/
def Obligations.PulsesFencesAndJoins : Prop :=
  ((∀ s : State, exec .pulseSend s = .next { (sendPulses s : State) with pending := s.pending }) ∧
   (∀ (n : Fin 24) (h : FleetHdr) (susp : Bool) (num : BitVec 32) (s : State), (fabAt s n).state = .active → (fabAt s n).suspected = false →
     let a := sawEpoch h.epoch s
     let u := if susp then a else a.modFlt fun f => { f with heard := Tab.put 0 (fabAt s n).peer.toNat (now s) f.heard }
     exec (.pulse n h ⟨susp, num⟩) s = .next { (modFabLink n (fun l => { l with
       heard := if num = l.lastPulse + 1 then l.heard + 1 else 1, lastPulse := num }) (beginTimer (.pulse n.val) u) : State) with pending := s.pending }) ∧
   (∀ (n : Fin 24) (s : State), (fabAt s n).state = .active →
     exec (.pulseSilence n) s =
       .next { (suspectPeer true n (modFabLink n (fun l => { l with heard := 0 }) (elapsed (.pulse n.val) 100000 s)) : State) with pending := s.pending }) ∧
   (∀ (voter d : BitVec 16) (epoch : Nat) (s : State), s.flt.drillVotes = [] →
     exec (.suspect voter d ⟨false, epoch⟩) s = .next { (castVote voter d true (sawEpoch epoch s) : State) with pending := s.pending }) ∧
   (∀ (voter d : BitVec 16) (epoch : Nat) (s : State), exec (.clear voter d ⟨false, epoch⟩) s =
     .next { (castVote voter d false (sawEpoch epoch s) : State) with pending := s.pending }) ∧
   (∀ (d : BitVec 16) (h : BitVec 16 × Nat) (s : State), s.flt.holds.find? (·.1 == d) = some h → s.flt.drillVotes = [] →
     let u := (reach h.2 s).modFlt fun f => { f with holds := f.holds.filter (·.1 != d) }
     exec (.suspectHoldEnd d) s = .next { (if votesOn s d < quorum s d then u else issueFence d 1 false u : State) with pending := s.pending }) ∧
   (∀ s : State, 3 ≤ (votersOf s (ownFdn s)).length → exec .isolation s =
     .next { (selfFence (reach (quorumUntil s) s) : State) with pending := s.pending }) ∧
   (∀ (wr : Writer) (fdn : BitVec 16) (s : State), allowed s wr none [.f] = true → exec (.fltFenceCmd wr fdn) s =
     .next { (issueFence fdn 4 false s : State) with pending := s.pending }) ∧
   (∀ (n : Fin 24) (s : State), (fabAt s n).state = .active → isMesh n = true →
     exec (.pdown n) s = .next { (linkGone false n false (issueFence (fabAt s n).peer 2 false s) : State) with pending := s.pending })) ∧
  ((∀ (h : FleetHdr) (reason : BitVec 8) (s : State), s.flt.seen.contains (h.src, h.mseq) = false →
     let u := sawEpoch h.epoch (emit (.fleet 0x04 none h [reason.setWidth 64]) (noteSeen h.src h.mseq s))
     exec (.fence h reason) s =
       .next { (if h.subject = servedFdn u then selfFence u else applyFence h.subject reason u : State) with pending := s.pending }) ∧
   (∀ (h : FleetHdr) (s : State), s.flt.seen.contains (h.src, h.mseq) = false →
     exec (.unfence h) s =
       .next { (applyUnfence h.subject (sawEpoch h.epoch (emit (.fleet 0x07 none h []) (noteSeen h.src h.mseq s))) : State) with pending := s.pending }) ∧
   (∀ (h : FleetHdr) (peers : List (BitVec 16)) (s : State), s.flt.standIn = [] →
     let u := answerJoin h.src ((sawEpoch h.epoch s).modFlt fun f => { f with voters := (f.voters.filter (·.1 != h.src)) ++ [(h.src, peers)] })
     exec (.join h peers false) s = .next { (if ctlMirrorOf u = some h.src then resendCtl u else u : State) with pending := s.pending }) ∧
   (∀ (h : FleetHdr) (time : Word) (cell : List (BitVec 16 × List (BitVec 16))) (spare : Bool) (s : State), s.flt.state = .joining →
     s.flt.rejoining = false → ∃ t, exec (.joinAns h time [] cell spare) s = .next t ∧
       t.flt.state = (if spare then .spare else .member) ∧ t.flt.fenced = [] ∧ t.fab.timeSet = true ∧ s.flt.epoch ≤ t.flt.epoch ∧ h.epoch ≤ t.flt.epoch) ∧
   (∀ s : State, s.flt.state = .joining → exec .joinRetry s =
     .next { (sendJoin (reach (s.flt.joinAt + 1000000000) s) : State) with pending := s.pending }))

/-- Adoption (R410-R414): a spare takes the first request and answers BUSY to another; the control state goes to the one that accepted; the spare then
serves the fenced FDN; every device hears of it; candidates are asked again; a device that stays away is contained and adopted; a fostered extent
whose records are in is served. Members of stripes and mirrored control records (R56, R409, R414): a held member is found and read; a place that arrives maps the unit of an
adopting spare; a control record is kept and confirmed, and a confirmation lets what waited for it go on. -/
def Obligations.AdoptionAndMembers : Prop :=
  ((∀ (h : FleetHdr) (s : State), let u := sawEpoch h.epoch s
     (s.flt.state = .spare → s.flt.adopting = none → exec (.adoptReq h) s =
       .next { (tell 0x09 h.src h.subject false [put 0 (stCode .ok)] (u.modFlt fun f => { f with state := .adopting, adopting := some h.src }) : State) with pending := s.pending }) ∧
     (s.flt.state ≠ .spare → exec (.adoptReq h) s =
       .next { (tell 0x09 h.src h.subject false [put 0 (stCode .busy)] u : State) with pending := s.pending })) ∧
   (∀ (h : FleetHdr) (st : Status) (x : StandIn) (s : State), s.flt.standIn.find? (fun x => x.subject == h.subject && x.asked == some h.src) = some x →
     let u := sawEpoch h.epoch s
     (st = .ok → exec (.adoptAns h st) s = .next { (emit (.ctlState h.src { ctlKept s h.subject with cell := cellAll u })
       (modStandIn h.subject (fun x => { x with started := true }) u) : State) with pending := s.pending }) ∧
     (st ≠ .ok → exec (.adoptAns h st) s =
       .next { (askNext h.subject (modStandIn h.subject (fun x => { x with asked := none }) u) : State) with pending := s.pending })) ∧
   (∀ (c : CtlState) (s : State), s.flt.state = .adopting → exec (.controlStateReceived c) s =
     .next { (adoptState c s : State) with pending := s.pending }) ∧
   (∀ (h : FleetHdr) (f : BitVec 16) (s : State), s.flt.seen.contains (h.src, h.mseq) = false →
     exec (.adopt h f) s =
       .next { (applyAdopt h.subject f (sawEpoch h.epoch (emit (.fleet 0x0A none h [f.setWidth 64]) (noteSeen h.src h.mseq s))) : State) with pending := s.pending }) ∧
   (∀ (d : BitVec 16) (x : StandIn) (s : State), s.flt.standIn.find? (fun x => x.subject == d && x.asked.isNone && !x.started) = some x →
     exec (.adoptRetry d) s = .next { (startAdoption d (reach (x.askedAt + 1000000000) s) : State) with pending := s.pending }) ∧
   (∀ (d : BitVec 16) (w : ReturnWait) (s : State), s.flt.waits.find? (·.subject == d) = some w →
     exec (.returnWaitExpire d) s = .next { (startAdoption d ((startContainment d (reach w.due s)).modFlt fun f => { f with
       waits := f.waits.filter (·.subject != d) }) : State) with pending := s.pending }) ∧
   (∀ (home : BitVec 16) (ext : BitVec 18) (s : State), exec (.fosterInstallDone home ext) s =
     .next { (fosterReady home ext.toNat s : State) with pending := s.pending })) ∧
  ((∀ (h : FleetHdr) (mu : BitVec 48) (x : Held) (s : State),
     s.flash.held.find? (fun x => !x.isCopy && x.home == mu.extractLsb' 32 16 && decide (x.mu = mu.toNat % 2 ^ 32) && decide (x.member < 8)) = some x →
     exec (.memberFind h mu) s =
       .next { (tell 0x0C h.src h.subject false [put 16 mu.toNat, put 4 x.stripe ||| put 0 x.member] (sawEpoch h.epoch s) : State) with pending := s.pending }) ∧
   (∀ (h : FleetHdr) (mu : BitVec 48) (stripe : BitVec 42) (member : Fin 10) (s : State), s.flt.adopted = some (mu.extractLsb' 32 16) →
     (mapOf s (mu.toNat % 2 ^ 32)).mapped = false → exec (.memberLoc h mu stripe member) s =
       .next { ({ sawEpoch h.epoch s with flash := { s.flash with
       map := Tab.put {} (mu.toNat % 2 ^ 32) { mapped := true, striped := true, stripe := stripe.toNat, member := member.val } s.flash.map
       holders := Tab.put [] stripe.toNat (((List.range 10).map (memberHolder (sawEpoch h.epoch s) stripe.toNat)).set member.val h.src) s.flash.holders
       nextStripe := Nat.max s.flash.nextStripe (stripe.toNat + 1) } } : State) with pending := s.pending }) ∧
   (∀ (mu : Nat) (s : State), ((mapOf s mu).mapped = false → exec (.stripeRebuild mu) s =
     .next { (findUnit mu s : State) with pending := s.pending }) ∧
     ((mapOf s mu).mapped = true → residentFrames s mu ≠ [] → exec (.stripeRebuild mu) s =
       .next { (startWriteBack mu false s : State) with pending := s.pending })) ∧
   (∀ (reader home : BitVec 16) (stripe : BitVec 42) (member : Fin 10) (s : State),
     let r := s.flash.held.find? (fun x => !x.isCopy && x.home == home && decide (x.stripe = stripe.toNat) && decide (x.member = member.val))
     exec (.stripeMemberRead reader home stripe member) s = .next { ({ s with
       out := s.out ++ [.memberData reader stripe.toNat member.val (if r.isSome then .ok else .deviceLost) ((r.map (·.data)).getD [])] } : State) with pending := s.pending }) ∧
   (∀ (home : BitVec 16) (j : CtlRec) (s : State), exec (.controlMirrorReceive home j) s =
     .next { (takeCtl home j s : State) with pending := s.pending }) ∧
   (∀ (mirror : BitVec 16) (jsn : Nat) (s : State), exec (.controlMirrorConfirm mirror (.record jsn)) s =
     .next { (ctlGo (s.modFlt fun f => { f with ctlWait := f.ctlWait.filter (· != jsn) }) : State) with pending := s.pending }))

/-- The handoff ledger (R415-R418): an offer in time of a transplant or a foster is received, written and taken; its receipt releases it, its
expiry or a reclaim ends it; queries are sent and answered with the entry held. Frost drills (R420, R421): one that the bounds allow is scheduled and told to its target; it starts there at its time, its records and messages
marked, and its end undoes it. -/
def Obligations.HandoffLedger : Prop :=
  ((∀ (h : FleetHdr) (e : LedgerEnt) (c : HandState) (s : State), handOf s e = none → now s + 1000 < e.expiry → e.phase = .offered →
     e.kind ≠ .copy → slotOk s .control = true →
     let x : Handoff := { e := { e with phase := .received }, mine := false, hand := c }
     exec (.offer h e c) s = .next { (takeHand x (writeHand x (sawEpoch h.epoch s)) : State) with pending := s.pending }) ∧
   (∀ (h : FleetHdr) (e : LedgerEnt) (x : Handoff) (s : State), handOf s e = some x → x.mine = true → x.e.phase = .offered →
     let t := dropHand x (writeHand { x with e := { x.e with phase := .released }, hand := {} } (sawEpoch h.epoch s))
     exec (.received h e) s = .next { (departGo t : State) with pending := s.pending } ∧ (e.phase = .received → exec (.ledgerState h e) s =
       .next { (departGo t : State) with pending := s.pending })) ∧
   (∀ (h : FleetHdr) (e : LedgerEnt) (s : State), handOf s e = none → exec (.reclaim h e) s = .next { ((sawEpoch h.epoch s).modFlt fun f => { f with
     handoffs := (f.handoffs.filter fun x => !(sameHand x.e e)) ++ [{ e := { e with phase := .reclaimed }, mine := false }] } : State) with pending := s.pending }) ∧
   (∀ (seq : BitVec 32) (x : Handoff) (s : State), s.flt.handoffs.find? (fun h => h.mine && h.e.seq == seq && h.e.phase == .offered) = some x →
     x.e.kind ≠ .foster → exec (.handoffExpiry seq) s =
       .next { (departGo (reclaimHand x (reach (x.e.expiry + 1000) s)) : State) with pending := s.pending }) ∧
   (∀ (offerer : BitVec 16) (seq : BitVec 32) (x : Handoff) (s : State),
     s.flt.handoffs.find? (fun h => h.e.fromFdn == offerer && h.e.seq == seq && h.e.phase == .offered) = some x →
     x.mine = true ∨ isFenced s x.e.fromFdn = false →
     exec (.ledgerQueryDue offerer seq) s =
       .next { (emit (.handoff 0x13 (if x.mine then x.e.toFdn else x.e.fromFdn) x.e {}) (reach x.e.expiry s) : State) with pending := s.pending }) ∧
   (∀ (h : FleetHdr) (e : LedgerEnt) (s : State), exec (.ledgerQuery h e) s = .next { ({ sawEpoch h.epoch s with
     out := s.out ++ [.handoff 0x14 h.src ((handOf s e).elim e (·.e)) {}] } : State) with pending := s.pending })) ∧
  ((∀ (wr : Writer) (s : State), Ready s wr none [.f] drillDone →
     let w0 := staged s wr (Off.flt + 0x38)
     let w1 := staged s wr (Off.flt + 0x40)
     let d := drillOfWords w0 w1
     let a := accepted drillDone s
     drillDenied a d = false → drillBusy a = false → d.length ≤ 10000000 →
     let t := a.modFlt fun f => { f with drillTimes := now a :: f.drillTimes, drill := some d }
     exec (.drillSchedule wr) s =
       .next { (cmdDone drillDone .ok 0 (if d.target = servedFdn t then t else tell 0x1E d.target d.target true [w0, w1] t) : State) with pending := s.pending }) ∧
   (∀ (h : FleetHdr) (w0 w1 : Word) (s : State), exec (.drill h w0 w1) s = .next { ({ s with flt := { s.flt with
     drill := some (drillOfWords w0 w1), epoch := Nat.max s.flt.epoch h.epoch } } : State) with pending := s.pending }) ∧
   (∀ (d : Drill) (s : State), s.flt.drill = some d → d.running = false → d.target = servedFdn s →
     exec .drillStart s =
       .next { (asDrill (injectDrill d) ((reach d.start s).modFlt fun f => { f with drill := some { d with running := true } }) : State) with pending := s.pending }) ∧
   (∀ (d : Drill) (s : State), s.flt.drill = some d → d.running = true →
     exec (.drillEnd true) s = .next { (asDrill (undoDrill d) (s.modFlt fun f => { f with drill := none }) : State) with pending := s.pending } ∧
     exec (.drillEnd false) s = .next { (asDrill (undoDrill d)
       ((reach (d.start + 1000 * (if d.kind = 3 then Nat.min d.length 1000 else d.length)) s).modFlt fun f => { f with drill := none }) : State) with pending := s.pending }))

/-! ### Reset, image and fuses (19) -/

/-- What reset leaves (R423, R426, R493): the block is about to take its first step of bring-up, closed, after a cold reset, at time 0; no command or request waits, no extent is assigned, no link is up, nothing is logged, memory lists nothing, and every register holds the reset value of its table. -/
def Obligations.ResetState : Prop :=
  State.reset.pending = [] ∧ State.reset.sys.phase = .bringUp ∧ State.reset.sys.step = 0 ∧ State.reset.sys.closed = true ∧
  State.reset.sys.kind = .cold ∧ now State.reset = 0 ∧ admitting State.reset = false ∧ State.reset.home.waiting = [] ∧
  State.reset.ras.log = [] ∧ State.reset.tier.hbm = [] ∧ State.reset.flash.data = [] ∧ Memory.wf State.reset.tier.hbm = true ∧
  Quiet State.reset ∧ (∀ e, (extDesc State.reset e).state = .free) ∧ (∀ n, (fabAt State.reset n).state = .down) ∧
  (∀ off, regGet State.reset off = regDefault off)

/-- Resets (R423-R428, R431): each source asks for its reset; a warm one departs first and goes on when nothing holds it; a cold one loses what
Table 19-1 says; RESET_N counts short pulses and ends a pin reset; a thermal trip and a supply fault act as R424 and R463 set out; an idle block
is reset alone. The steps of leaving reset, in order (R426): each takes place only after the one before it; service opens in retry mode. -/
def Obligations.ResetsAndBringUp : Prop :=
  ((∀ s : State, exec .coldReset s = .next { (coldStart .cold s : State) with pending := s.pending }) ∧
   (∀ s : State, exec (.resetNFall false) s = .next { (countRC (Off.rst + 0x10) 1 s : State) with pending := s.pending }) ∧
   (∀ s : State, exec (.resetNFall true) s =
     .next { (requestWarm .pin (s.modSys fun y => { y with resetN := false }) : State) with pending := s.pending }) ∧
   (∀ s : State, s.sys.phase = .inReset → s.sys.kind ≠ .pin → exec .resetNRise s = .next { ({ s with sys := { s.sys with
     resetN := true, resetRise := s.sys.time, phase := .bringUp, step := 0 } } : State) with pending := s.pending }) ∧
   (∀ (wr : Writer) (v : Word) (s : State), allowed s wr none [.f] = true → bitOf v 0 = true →
     exec (.warmResetFabric wr v) s = .next { (requestWarm .fabric s : State) with pending := s.pending }) ∧
   (∀ (drained : Bool) (s : State), s.sys.phase = .departing → s.sys.stage = 0 → exec (.warmResetBegin drained) s =
     .next { (departGo (beginRecall ((depart (s.modSys fun y => { y with drainFailed := !drained })).modSys fun y => { y with stage := 1 })) : State) with pending := s.pending }) ∧
   (∀ s : State, exec .quiesceBound s = .next { (departGo (endQuiesce s) : State) with pending := s.pending }) ∧
   (∀ (g : Fin 3) (s : State), exec (.thermalTrip g) s = .next { (trip g s : State) with pending := s.pending }) ∧
   (∀ (rail : Fin 8) (s : State), let u := raise { cls := 0x0D, sev := 2, code := 0x0C, block := 0x01, inst := BitVec.ofNat 8 rail.val } s
     exec (.supplyOutOfLimits rail) s = .next { (if u.sys.phase = .bringUp ∧ u.sys.step < 3 then u
       else if u.sys.phase = .powerFail then u.modSys fun y => { y with bits := y.bits ||| kindBit .cold ||| mergedBit }
       else coldStart .cold u : State) with pending := s.pending }) ∧
   (∀ (wr : Writer) (code inst : BitVec 8) (s : State), Ready s wr none [.f, .m] (Off.rst + 0x20) →
     blockIdle (accepted (Off.rst + 0x20) s) code.toNat inst.toNat = some true →
     exec (.blockReset wr code inst) s =
       .next { (cmdDone (Off.rst + 0x20) .ok 0 (resetBlock code.toNat inst.toNat (accepted (Off.rst + 0x20) s)) : State) with pending := s.pending }) ∧
   (∀ (k : ResetKind) (s : State), s.sys.phase = .service → requestWarm k s = { s with sys := { s.sys with
     phase := .departing, kind := k, closed := true, bits := s.sys.bits ||| kindBit k } })) ∧
  ((∀ (f : BringUp) (s : State), (s.sys.phase ≠ .bringUp ∨ stepNo f ≠ s.sys.step + 1) → exec (.bringUpStep f) s =
    .next { s with pending := s.pending }) ∧
   (∀ (f : BringUp) (s : State), s.sys.phase = .bringUp → stepNo f = s.sys.step + 1 → exec (.bringUpStep f) s =
     .next { (match f with
      | .fuses a b => stepFuses (a || b) s
      | .pads fs => stepPads fs s
      | .rails r a mv sl cl => stepRails r a mv sl cl s
      | .image ok => stepImage ok s
      | .hbm t k => stepHbm t k s
      | .inventory d g b sg => stepInventory d g b sg s
      | .directory => if s.coh.rebuild.isEmpty && s.coh.fence.isNone then stepDone 7 s else s
      | .links => beginJoin (stepDone 8 s)
      | .joined => if s.flt.state = .joining then s else stepDone 9 s
      | .open_ => stepOpen s : State) with pending := s.pending }) ∧
   (∀ s : State, s.sys.phase = .bringUp → s.sys.step = 9 → s.coh.tabled = false → s.coh.fence = none → ∃ t,
     exec (.bringUpStep .open_) s = .next t ∧ t.sys.phase = .service ∧ t.sys.closed = false ∧ t.sys.attempts = 0 ∧
     t.jrn.flushHdr = none ∧ t.tier = s.tier ∧ t.ext = s.ext))

/-- The NOR flash and the fuses (R438, R442): NOR_READ gives eight bytes at the address, which goes on by 8; NOR_PROGRAM clears bits and sets none; NOR_ERASE empties one
sector; each ends; the boot counts clear; the security version is burned up to the running image's, and a key slot, never the running one, is
revoked. -/
def Obligations.NorAndFuses : Prop :=
  (∀ (wr : Writer) (s : State), norAllowed s wr = true → s.cfg.norBusy = none → norAddr s < 0x3F00000 →
    let a := norAddr s
    exec (.norRead wr) s =
      .next { (norEnd .ok (norAdvance (regSet (Off.cfg + 0x10) (wordOfBytes (norRead s a 8)) s)) : State) with pending := s.pending } ∧
    (0x10000 ≤ a → exec (.norProgram wr) s = .next { (norAdvance ((norSet a
      (bytesOfWord (wordOfBytes (norRead s a 8) &&& regGet s (Off.cfg + 0x10))) s).modCfg fun c => { c with norBusy := some (2, a) }) : State) with pending := s.pending }) ∧
    (0x10000 ≤ a → exec (.norErase wr) s = .next { ({ s with cfg := { s.cfg with
      nor := Tab.drop (fun x => x / 65536 == a / 65536) s.cfg.nor, norBusy := some (3, a) } } : State) with pending := s.pending })) ∧
  (∀ (x : BitVec 8 × Nat) (s : State), s.cfg.norBusy = some x → exec .norCommandComplete s = .next { ({ s with cfg := { s.cfg with
    norBusy := none, norStatus := .ok } } : State) with pending := s.pending }) ∧
  (∀ (wr : Writer) (s : State), norAllowed s wr = true → exec (.cfgBootClear wr) s = .next { (writeBoot 0 0 s : State) with pending := s.pending }) ∧
  (∀ (wr : Writer) (s : State), allowed s wr none [.f] = true → s.sys.phase = .service → exec (.cfgSvnCommit wr) s =
    .next { ({ s with cfg := { s.cfg with
    fuses := { s.cfg.fuses with svn := Nat.max s.cfg.fuses.svn s.cfg.secVersion } } } : State) with pending := s.pending }) ∧
  (∀ (wr : Writer) (v : Word) (s : State), allowed s wr none [.f] = true → s.sys.phase = .service → fld v 1 0 ≠ s.cfg.keySlot →
    exec (.cfgKeyRevoke wr v) s = .next { ({ s with cfg := { s.cfg with
      fuses := { s.cfg.fuses with revoked := s.cfg.fuses.revoked ||| BitVec.ofNat 4 (2 ^ fld v 1 0) } } } : State) with pending := s.pending })

/-! ### Power, pins and board (20, 21) -/

/-- Supply and heat (R422, R443-R456, R470, R471): the voltage policy and the readbacks; a sample of the sensors; a margin sample is kept, and acts where it
is low; the device goes dormant when idle, and into and out of FALLOW. A sensor group at or above its trip point trips, and below its warn point, not tripped before, it does nothing but show its reading (R455, R456). Lines of the board (R465, R469-R471, R490): the first START decides the SMBus orientation; a driver's overcurrent is a finding; a lost clock returns; the recall of host lines ends
at its bound; MCTP reads a register without clearing it. -/
def Obligations.PowerAndBoard : Prop :=
  ((∀ (m : PowerMeasure) (s : State), exec (.voltagePolicy m) s = .next { (runPolicy m s : State) with pending := s.pending }) ∧
   (∀ (mv : Nat) (s : State), mv ≤ 600 + 5 * s.sys.vstep + 15 → 600 + 5 * s.sys.vstep ≤ mv + 15 →
     exec (.avsReadback (some mv)) s =
       .next { ({ s with sys := { s.sys with avsMiss := 0, readMv := mv, avsOff := 0 } } : State) with pending := s.pending }) ∧
   (∀ s : State, s.sys.avsMiss ≠ 2 → exec (.avsReadback none) s =
     .next { ({ s with sys := { s.sys with avsMiss := s.sys.avsMiss + 1 } } : State) with pending := s.pending }) ∧
   (∀ (core io hbm : Nat) (s : State), exec (.sensorSample core io hbm) s = .next { (sampleGroup 2 hbm (sampleGroup 1 io (sampleGroup 0 core
     (s.modSys fun y => { y with temps := [core, io, hbm] }))) : State) with pending := s.pending }) ∧
   (∀ (m : Fin 4) (inst value : BitVec 16) (s : State), m ≠ 1 → exec (.marginSample m inst value false) s =
     .next { (keepMargin m.val (put 48 inst.toNat ||| put 32 value.toNat ||| put 0 (now s / 2 ^ 20 % 2 ^ 32)) s : State) with pending := s.pending }) ∧
   (∀ s : State, s.sys.phase = .service → s.sys.power = .active → s.sys.stage = 0 → bitOf (regGet s (Off.rst + 0x30)) 60 = true →
     s.nmc.jobs = [] → s.nmc.fwdIn = [] → sqOpen s = false → exec .dormantEntry s =
       .next { ((reach (s.sys.idleSince + 1000000 * (regGet s (Off.rst + 0x58)).toNat) s).modSys fun y => { y with power := .dormant } : State) with pending := s.pending }) ∧
   (∀ (wr : Writer) (s : State), pwrAllowed s wr = true → s.sys.power ≠ .fallow → fallowBusy s = false → exec (.fallowEnter wr) s =
     .next { (fallowGo (beginRecall (pump (s.modSys fun y => { y with closed := true, stage := 10, power := .active }))) : State) with pending := s.pending }) ∧
   (∀ (wr : Writer) (s : State), pwrAllowed s wr = true → s.sys.power = .fallow → ∃ t, exec (.fallowLeave (some wr)) s = .next t ∧
     t = { s with sys := t.sys, fab := t.fab } ∧ t.sys.power = .active ∧ t.sys.closed = false ∧ t.sys.pwrStatus = .ok)) ∧
  (∀ (g : Fin 3) (t : Nat) (s : State), s.sys.heat.getD g.val 0 ≠ 3 →
     let p := (thermPoints s).getD g.val (0, 0, 0)
     (p.2.2 ≤ t → sampleGroup g t s = trip g s) ∧
     (p.1 ≤ p.2.1 → p.2.1 ≤ p.2.2 → t < p.1 → s.sys.heat.length = 3 → ∃ u, sampleGroup g t s = { s with sys := u } ∧
       u.heat.getD g.val 0 = 0 ∧ u.gated = s.sys.gated)) ∧
  ((∀ s : State, s.pins.smbSwapped = none → exec (.smbusStart true false) s = .next { ({ s with pins := { s.pins with
     smbSwapped := some false, smbLast := now s } } : State) with pending := s.pending }) ∧
   (∀ (group ball : BitVec 16) (s : State), exec (.driverOvercurrent group ball) s =
     .next { (pinFinding 0x01 { finding := 9, group := group, ball := ball } s : State) with pending := s.pending }) ∧
   (∀ (c : RefClk) (s : State), exec (.refclkReturn c) s =
     .next { ({ s with sys := { s.sys with clocksLost := s.sys.clocksLost.filter (· != c) } } : State) with pending := s.pending }) ∧
   (∀ (c : RefClk) (s : State), exec (.refclkLoss c) s = .next { (clockLost c s : State) with pending := s.pending }) ∧
   (∀ s : State, exec .recallBound s = .next { (fallowGo (departGo (endRecall s)) : State) with pending := s.pending }) ∧
   (∀ (off : BitVec 25) (v : Word) (s : State), exec (.mctpRequest false off v) s = .next { ({ s with
     out := s.out ++ [.regData .mctp off.toNat (regRead s .mctp off.toNat)] } : State) with pending := s.pending }) ∧
   (∀ (off : BitVec 25) (v : Word) (s : State), exec (.mctpRequest true off v) s =
     .next { ((regWrite .mctp off.toNat v s).2 : State) with pending := s.pending }))

/-! ### Registers, telemetry and Trellis (22, 23) -/

/-- Register accesses (R7, R473-R476, R479, R480): a whole 64-bit write of BAR0 writes its register and a narrower one is refused; a read of a
counter that reading clears gives its value and leaves it 0; a queue is claimed and released by its base register and its head moves; a CONTROL
request of a management window reads and writes. A register without behaviour of its own (R6, R476): a write by a class that may not make it is refused; any other changes the register's
writable bits alone, as its type has them, or is refused for a value it may not take. A register keeps what is written into it, and no other register changes (R6, R7). -/
def Obligations.RegisterAccesses : Prop :=
  ((∀ (wr : Writer) (off : BitVec 25) (size : BitVec 4) (v : Word) (s : State),
     (size = 8 → off.toNat % 8 = 0 → exec (.registerWrite wr off size v) s =
       .next { ((regWrite wr off.toNat v s).2 : State) with pending := s.pending }) ∧
     (size ≠ 8 → exec (.registerWrite wr off size v) s = .next { (rejected (off.toNat / 8 * 8) s : State) with pending := s.pending })) ∧
   (∀ (win : Fin 64) (off : BitVec 25) (r : RegRow) (s : State), regRow off.toNat = some r → r.ty = .rc →
     exec (.rcRead win off) s =
       .next { (emit (.regData (.bar0 win) off.toNat (regRead s (.bar0 win) off.toNat)) (regSet off.toNat 0 s) : State) with pending := s.pending }) ∧
   (∀ (w : Fin 64) (q : QueueId) (v : Word) (s : State), queueAllows s (.bar0 w) q = true → qValid (qBase s q) = false → bitOf v 63 = true →
     ringOk s q (winIid s w) (qOff v) = true → exec (.queueBaseWrite (.bar0 w) q v) s =
       .next { (startRing q (winIid s w) (regSet (qBaseOff q) (baseWord q true w.val v) s) : State) with pending := s.pending }) ∧
   (∀ (w : Fin 64) (q : QueueId) (v : Word) (s : State), queueAllows s (.bar0 w) q = true → qValid (qBase s q) = true → bitOf v 63 = false →
     queueBusy s q = false → exec (.queueBaseWrite (.bar0 w) q v) s =
       .next { (regSet (qBaseOff q) (baseWord q false 0 v) s : State) with pending := s.pending }) ∧
   (∀ (wr : Writer) (n : Fin 256) (v : Word) (s : State), let q : QueueId := .cq n
     queueAllows s wr q = true → fld v 16 0 < qSize s q →
     ringDist (qSize s q) (qHead s q) (fld v 16 0) ≤ ringDist (qSize s q) (qHead s q) (qTail s q) →
     exec (.queueHeadWrite wr q v) s = .next { (pumpFq (regSet (qHeadOff q) (BitVec.ofNat 64 (fld v 16 0)) s) : State) with pending := s.pending }) ∧
   (∀ (r : Req) (s : State), admitting s = true → fld r.gsa 2 1 = 0 → fld r.gsa 47 25 = 0 → r.plen = 0 → r.aop = 0 → r.width = 0 →
     r.post = false → r.rsvd = false →
     let wr : Writer := .control r.iid false
     let off := fld r.gsa 24 3 * 8
     (bitOf r.gsa 0 = false → exec (.control r false) s =
       .next { (answer r .ok 0 (bytesOfWord (readClear wr off s).1) (readClear wr off s).2 : State) with pending := s.pending }) ∧
     (bitOf r.gsa 0 = true → (regWrite wr off r.arg s).1 = none → exec (.control r false) s =
       .next { (answer r .ok 0 (bytesOfWord (regRead (regWrite wr off r.arg s).2 wr off)) (regWrite wr off r.arg s).2 : State) with pending := s.pending }))) ∧
  (∀ (wr : Writer) (r : RegRow) (off : Nat) (v : Word) (s : State),
     (allowed s wr (instOwner s off) r.cls = false → plainWrite wr r off v s = (some .denied, rejected off s)) ∧
     (allowed s wr (instOwner s off) r.cls = true → (refusesValue s off v || doubleAgent s off v || sweepingAgent s off) = true →
       plainWrite wr r off v s = (none, rejected off s)) ∧
     (allowed s wr (instOwner s off) r.cls = true → (refusesValue s off v || doubleAgent s off v || sweepingAgent s off) = false →
       isAgentOff off = false → setsImageBit off (regGet s off) v = false →
       plainWrite wr r off v s = (none, regSet off (written (regGet s off) off
         ((regGet s off &&& ~~~(mayChange s wr (instOwner s off) off)) ||| (v &&& mayChange s wr (instOwner s off) off))) s))) ∧
  (∀ (off : Nat) (v : Word) (s : State), (s.regs.vals.map (·.1)).Pairwise (· < ·) → regGet (regSet off v s) off = v ∧
     (∀ o, o ≠ off → regGet (regSet off v s) o = regGet s o) ∧ regSet off v s = { s with regs := (regSet off v s).regs })

/-- Telemetry and Trellis (R486-R492): a snapshot copies every live counter at once and completes; a good token opens its scopes until its expiry and a bad one counts a
failure, and both renew the challenge; the scopes expire, or are closed by TRL_LOCK; SEALED is for good; selectors and injections act while their
scope is open; JTAG reads nothing in a sealed part; EXTEST drives balls in reset. In a SEALED part no Trellis command does anything but raise a record, and EXTEST and JTAG do nothing (R486, R490). -/
def Obligations.TelemetryAndTrellis : Prop :=
  ((∀ (wr : Writer) (s : State), allowed s wr none [.a, .f, .c] = true → s.tel.busy = false → exec (.telSnap wr 1) s = .next { ({ s with
     tel := { s.tel with bank := snapBank s, busy := true } } : State) with pending := s.pending }) ∧
   (∀ s : State, s.tel.busy = true → exec .snapshotComplete s =
     .next { ({ s with tel := { s.tel with busy := false, seq := s.tel.seq + 1 } } : State) with pending := s.pending }) ∧
   (∀ (wr : Writer) (s : State), lifecycle s ≠ 2 →
     (allowed s wr none [.f, .m] = true →
       (∀ v, bitOf v 0 = true → s.trl.fails < 8 →
         (unlockStatus s = .ok → exec (.trlUnlockCmd wr v) s = .next { ({ s with free := s.free + 1, trl := { s.trl with
           challenge := Config.freeWord s.free, status := .ok, fails := 0, scopes := BitVec.ofNat 3 (fld (tokenWord s 0) 34 32)
           expiry := (tokenWord s 3).toNat } } : State) with pending := s.pending }) ∧
         (unlockStatus s ≠ .ok → exec (.trlUnlockCmd wr v) s = .next { ({ s with free := s.free + 1, trl := { s.trl with
           challenge := Config.freeWord s.free, status := unlockStatus s, fails := s.trl.fails + 1 } } : State) with pending := s.pending })) ∧
       (∀ v, bitOf v 0 = true → exec (.trlLock wr v) s =
         .next { ({ s with trl := { s.trl with scopes := 0, expiry := 0 } } : State) with pending := s.pending }) ∧
       (∀ (i : Fin 16) v, bitOf v 63 = false ∨ scopeOpen s 0 = true →
         exec (.trlSel wr i v) s = .next { (regSet (Off.trl + 0x300 + 8 * i.val) (v &&& 0x8000000000FFFFFF) s : State) with pending := s.pending }) ∧
       (scopeOpen s 1 = true → exec (.injectPoison wr) s = .next { (injectPoison s : State) with pending := s.pending } ∧ exec (.injectSramCe wr) s =
         .next { (injectSram s : State) with pending := s.pending } ∧
         exec (.injectTileStore wr) s = .next { (injectTile s : State) with pending := s.pending } ∧ exec (.injectSnoopWithhold wr) s =
           .next { (injectSnoop s : State) with pending := s.pending } ∧
         exec (.injectFlashRead wr) s = .next { (injectFlash s : State) with pending := s.pending })) ∧
     (allowed s wr none [.f] = true → exec (.trlSeal wr 0x5345414C) s = .next { ({ s with
       cfg := { s.cfg with fuses := { s.cfg.fuses with lifecycle := 2 } }, trl := { s.trl with scopes := 0, expiry := 0 } } : State) with pending := s.pending })) ∧
   (∀ s : State, s.trl.scopes ≠ 0 → exec .unlockExpire s = .next { (closeScopes (reach s.trl.expiry s) : State) with pending := s.pending }) ∧
   (∀ (off : BitVec 25) (v : Word) (s : State), lifecycle s ≠ 2 → exec (.trlAccess false off v) s = .next { ({ s with
     out := s.out ++ [.regData .jtag off.toNat (regRead s .jtag off.toNat)] } : State) with pending := s.pending }) ∧
   (∀ (balls : List (BitVec 16 × Bool)) (s : State), scopeOpen s 2 = true → s.sys.resetN = false → exec (.extest balls) s = .next { ({ s with
     pins := { s.pins with extest := balls } } : State) with pending := s.pending })) ∧
  (∀ (wr : Writer) (v : Word) (i : Fin 16) (off : BitVec 25) (w : Bool) (balls : List (BitVec 16 × Bool)) (s : State), lifecycle s = 2 →
     exec (.trlUnlockCmd wr v) s = .next { (rejected (Off.trl + 0x200) s : State) with pending := s.pending } ∧ exec (.trlLock wr v) s =
       .next { (rejected (Off.trl + 0x208) s : State) with pending := s.pending } ∧
     exec (.trlSeal wr v) s = .next { (rejected (Off.trl + 8) s : State) with pending := s.pending } ∧ exec (.trlSel wr i v) s =
       .next { (rejected (Off.trl + 0x300 + 8 * i.val) s : State) with pending := s.pending } ∧
     (∀ c ∈ [Instr.injectPoison wr, .injectSramCe wr, .injectTileStore wr, .injectSnoopWithhold wr, .injectFlashRead wr],
       exec c s = .next { (rejected (Off.trl + 0x400) s : State) with pending := s.pending }) ∧
     exec (.trlAccess w off v) s = .next { s with pending := s.pending } ∧ exec (.extest balls) s = .next { s with pending := s.pending })
end

