-- ==== Sys2Proof/Laws/State.lean ====
section
/-! SUPPORT. What each setter of Machine/Ops.lean leaves in each field of the state, so that no later proof unfolds a record update. -/

namespace Sys2Proof.Machine

open Sys2Proof

@[simp] theorem State.modSys_sys (s : State) (f) : (s.modSys f).sys = f s.sys := rfl
@[simp] theorem State.modSys_ext (s : State) (f) : (s.modSys f).ext = s.ext := rfl
@[simp] theorem State.modSys_tier (s : State) (f) : (s.modSys f).tier = s.tier := rfl
@[simp] theorem State.modSys_flash (s : State) (f) : (s.modSys f).flash = s.flash := rfl
@[simp] theorem State.modSys_jrn (s : State) (f) : (s.modSys f).jrn = s.jrn := rfl
@[simp] theorem State.modSys_home (s : State) (f) : (s.modSys f).home = s.home := rfl
@[simp] theorem State.modSys_coh (s : State) (f) : (s.modSys f).coh = s.coh := rfl
@[simp] theorem State.modSys_own (s : State) (f) : (s.modSys f).own = s.own := rfl
@[simp] theorem State.modSys_nmc (s : State) (f) : (s.modSys f).nmc = s.nmc := rfl
@[simp] theorem State.modSys_xlt (s : State) (f) : (s.modSys f).xlt = s.xlt := rfl
@[simp] theorem State.modSys_cdc (s : State) (f) : (s.modSys f).cdc = s.cdc := rfl
@[simp] theorem State.modSys_emb (s : State) (f) : (s.modSys f).emb = s.emb := rfl
@[simp] theorem State.modSys_prn (s : State) (f) : (s.modSys f).prn = s.prn := rfl
@[simp] theorem State.modSys_hp (s : State) (f) : (s.modSys f).hp = s.hp := rfl
@[simp] theorem State.modSys_fab (s : State) (f) : (s.modSys f).fab = s.fab := rfl
@[simp] theorem State.modSys_ras (s : State) (f) : (s.modSys f).ras = s.ras := rfl
@[simp] theorem State.modSys_flt (s : State) (f) : (s.modSys f).flt = s.flt := rfl
@[simp] theorem State.modSys_cfg (s : State) (f) : (s.modSys f).cfg = s.cfg := rfl
@[simp] theorem State.modSys_pins (s : State) (f) : (s.modSys f).pins = s.pins := rfl
@[simp] theorem State.modSys_trl (s : State) (f) : (s.modSys f).trl = s.trl := rfl
@[simp] theorem State.modSys_tel (s : State) (f) : (s.modSys f).tel = s.tel := rfl
@[simp] theorem State.modSys_regs (s : State) (f) : (s.modSys f).regs = s.regs := rfl
@[simp] theorem State.modSys_out (s : State) (f) : (s.modSys f).out = s.out := rfl
@[simp] theorem State.modSys_free (s : State) (f) : (s.modSys f).free = s.free := rfl
@[simp] theorem State.modSys_pending (s : State) (f) : (s.modSys f).pending = s.pending := rfl

@[simp] theorem State.modExt_sys (s : State) (f) : (s.modExt f).sys = s.sys := rfl
@[simp] theorem State.modExt_ext (s : State) (f) : (s.modExt f).ext = f s.ext := rfl
@[simp] theorem State.modExt_tier (s : State) (f) : (s.modExt f).tier = s.tier := rfl
@[simp] theorem State.modExt_flash (s : State) (f) : (s.modExt f).flash = s.flash := rfl
@[simp] theorem State.modExt_jrn (s : State) (f) : (s.modExt f).jrn = s.jrn := rfl
@[simp] theorem State.modExt_home (s : State) (f) : (s.modExt f).home = s.home := rfl
@[simp] theorem State.modExt_coh (s : State) (f) : (s.modExt f).coh = s.coh := rfl
@[simp] theorem State.modExt_own (s : State) (f) : (s.modExt f).own = s.own := rfl
@[simp] theorem State.modExt_nmc (s : State) (f) : (s.modExt f).nmc = s.nmc := rfl
@[simp] theorem State.modExt_xlt (s : State) (f) : (s.modExt f).xlt = s.xlt := rfl
@[simp] theorem State.modExt_cdc (s : State) (f) : (s.modExt f).cdc = s.cdc := rfl
@[simp] theorem State.modExt_emb (s : State) (f) : (s.modExt f).emb = s.emb := rfl
@[simp] theorem State.modExt_prn (s : State) (f) : (s.modExt f).prn = s.prn := rfl
@[simp] theorem State.modExt_hp (s : State) (f) : (s.modExt f).hp = s.hp := rfl
@[simp] theorem State.modExt_fab (s : State) (f) : (s.modExt f).fab = s.fab := rfl
@[simp] theorem State.modExt_ras (s : State) (f) : (s.modExt f).ras = s.ras := rfl
@[simp] theorem State.modExt_flt (s : State) (f) : (s.modExt f).flt = s.flt := rfl
@[simp] theorem State.modExt_cfg (s : State) (f) : (s.modExt f).cfg = s.cfg := rfl
@[simp] theorem State.modExt_pins (s : State) (f) : (s.modExt f).pins = s.pins := rfl
@[simp] theorem State.modExt_trl (s : State) (f) : (s.modExt f).trl = s.trl := rfl
@[simp] theorem State.modExt_tel (s : State) (f) : (s.modExt f).tel = s.tel := rfl
@[simp] theorem State.modExt_regs (s : State) (f) : (s.modExt f).regs = s.regs := rfl
@[simp] theorem State.modExt_out (s : State) (f) : (s.modExt f).out = s.out := rfl
@[simp] theorem State.modExt_free (s : State) (f) : (s.modExt f).free = s.free := rfl
@[simp] theorem State.modExt_pending (s : State) (f) : (s.modExt f).pending = s.pending := rfl

@[simp] theorem State.modTier_sys (s : State) (f) : (s.modTier f).sys = s.sys := rfl
@[simp] theorem State.modTier_ext (s : State) (f) : (s.modTier f).ext = s.ext := rfl
@[simp] theorem State.modTier_tier (s : State) (f) : (s.modTier f).tier = f s.tier := rfl
@[simp] theorem State.modTier_flash (s : State) (f) : (s.modTier f).flash = s.flash := rfl
@[simp] theorem State.modTier_jrn (s : State) (f) : (s.modTier f).jrn = s.jrn := rfl
@[simp] theorem State.modTier_home (s : State) (f) : (s.modTier f).home = s.home := rfl
@[simp] theorem State.modTier_coh (s : State) (f) : (s.modTier f).coh = s.coh := rfl
@[simp] theorem State.modTier_own (s : State) (f) : (s.modTier f).own = s.own := rfl
@[simp] theorem State.modTier_nmc (s : State) (f) : (s.modTier f).nmc = s.nmc := rfl
@[simp] theorem State.modTier_xlt (s : State) (f) : (s.modTier f).xlt = s.xlt := rfl
@[simp] theorem State.modTier_cdc (s : State) (f) : (s.modTier f).cdc = s.cdc := rfl
@[simp] theorem State.modTier_emb (s : State) (f) : (s.modTier f).emb = s.emb := rfl
@[simp] theorem State.modTier_prn (s : State) (f) : (s.modTier f).prn = s.prn := rfl
@[simp] theorem State.modTier_hp (s : State) (f) : (s.modTier f).hp = s.hp := rfl
@[simp] theorem State.modTier_fab (s : State) (f) : (s.modTier f).fab = s.fab := rfl
@[simp] theorem State.modTier_ras (s : State) (f) : (s.modTier f).ras = s.ras := rfl
@[simp] theorem State.modTier_flt (s : State) (f) : (s.modTier f).flt = s.flt := rfl
@[simp] theorem State.modTier_cfg (s : State) (f) : (s.modTier f).cfg = s.cfg := rfl
@[simp] theorem State.modTier_pins (s : State) (f) : (s.modTier f).pins = s.pins := rfl
@[simp] theorem State.modTier_trl (s : State) (f) : (s.modTier f).trl = s.trl := rfl
@[simp] theorem State.modTier_tel (s : State) (f) : (s.modTier f).tel = s.tel := rfl
@[simp] theorem State.modTier_regs (s : State) (f) : (s.modTier f).regs = s.regs := rfl
@[simp] theorem State.modTier_out (s : State) (f) : (s.modTier f).out = s.out := rfl
@[simp] theorem State.modTier_free (s : State) (f) : (s.modTier f).free = s.free := rfl
@[simp] theorem State.modTier_pending (s : State) (f) : (s.modTier f).pending = s.pending := rfl

@[simp] theorem State.modFlash_sys (s : State) (f) : (s.modFlash f).sys = s.sys := rfl
@[simp] theorem State.modFlash_ext (s : State) (f) : (s.modFlash f).ext = s.ext := rfl
@[simp] theorem State.modFlash_tier (s : State) (f) : (s.modFlash f).tier = s.tier := rfl
@[simp] theorem State.modFlash_flash (s : State) (f) : (s.modFlash f).flash = f s.flash := rfl
@[simp] theorem State.modFlash_jrn (s : State) (f) : (s.modFlash f).jrn = s.jrn := rfl
@[simp] theorem State.modFlash_home (s : State) (f) : (s.modFlash f).home = s.home := rfl
@[simp] theorem State.modFlash_coh (s : State) (f) : (s.modFlash f).coh = s.coh := rfl
@[simp] theorem State.modFlash_own (s : State) (f) : (s.modFlash f).own = s.own := rfl
@[simp] theorem State.modFlash_nmc (s : State) (f) : (s.modFlash f).nmc = s.nmc := rfl
@[simp] theorem State.modFlash_xlt (s : State) (f) : (s.modFlash f).xlt = s.xlt := rfl
@[simp] theorem State.modFlash_cdc (s : State) (f) : (s.modFlash f).cdc = s.cdc := rfl
@[simp] theorem State.modFlash_emb (s : State) (f) : (s.modFlash f).emb = s.emb := rfl
@[simp] theorem State.modFlash_prn (s : State) (f) : (s.modFlash f).prn = s.prn := rfl
@[simp] theorem State.modFlash_hp (s : State) (f) : (s.modFlash f).hp = s.hp := rfl
@[simp] theorem State.modFlash_fab (s : State) (f) : (s.modFlash f).fab = s.fab := rfl
@[simp] theorem State.modFlash_ras (s : State) (f) : (s.modFlash f).ras = s.ras := rfl
@[simp] theorem State.modFlash_flt (s : State) (f) : (s.modFlash f).flt = s.flt := rfl
@[simp] theorem State.modFlash_cfg (s : State) (f) : (s.modFlash f).cfg = s.cfg := rfl
@[simp] theorem State.modFlash_pins (s : State) (f) : (s.modFlash f).pins = s.pins := rfl
@[simp] theorem State.modFlash_trl (s : State) (f) : (s.modFlash f).trl = s.trl := rfl
@[simp] theorem State.modFlash_tel (s : State) (f) : (s.modFlash f).tel = s.tel := rfl
@[simp] theorem State.modFlash_regs (s : State) (f) : (s.modFlash f).regs = s.regs := rfl
@[simp] theorem State.modFlash_out (s : State) (f) : (s.modFlash f).out = s.out := rfl
@[simp] theorem State.modFlash_free (s : State) (f) : (s.modFlash f).free = s.free := rfl
@[simp] theorem State.modFlash_pending (s : State) (f) : (s.modFlash f).pending = s.pending := rfl

@[simp] theorem State.modJrn_sys (s : State) (f) : (s.modJrn f).sys = s.sys := rfl
@[simp] theorem State.modJrn_ext (s : State) (f) : (s.modJrn f).ext = s.ext := rfl
@[simp] theorem State.modJrn_tier (s : State) (f) : (s.modJrn f).tier = s.tier := rfl
@[simp] theorem State.modJrn_flash (s : State) (f) : (s.modJrn f).flash = s.flash := rfl
@[simp] theorem State.modJrn_jrn (s : State) (f) : (s.modJrn f).jrn = f s.jrn := rfl
@[simp] theorem State.modJrn_home (s : State) (f) : (s.modJrn f).home = s.home := rfl
@[simp] theorem State.modJrn_coh (s : State) (f) : (s.modJrn f).coh = s.coh := rfl
@[simp] theorem State.modJrn_own (s : State) (f) : (s.modJrn f).own = s.own := rfl
@[simp] theorem State.modJrn_nmc (s : State) (f) : (s.modJrn f).nmc = s.nmc := rfl
@[simp] theorem State.modJrn_xlt (s : State) (f) : (s.modJrn f).xlt = s.xlt := rfl
@[simp] theorem State.modJrn_cdc (s : State) (f) : (s.modJrn f).cdc = s.cdc := rfl
@[simp] theorem State.modJrn_emb (s : State) (f) : (s.modJrn f).emb = s.emb := rfl
@[simp] theorem State.modJrn_prn (s : State) (f) : (s.modJrn f).prn = s.prn := rfl
@[simp] theorem State.modJrn_hp (s : State) (f) : (s.modJrn f).hp = s.hp := rfl
@[simp] theorem State.modJrn_fab (s : State) (f) : (s.modJrn f).fab = s.fab := rfl
@[simp] theorem State.modJrn_ras (s : State) (f) : (s.modJrn f).ras = s.ras := rfl
@[simp] theorem State.modJrn_flt (s : State) (f) : (s.modJrn f).flt = s.flt := rfl
@[simp] theorem State.modJrn_cfg (s : State) (f) : (s.modJrn f).cfg = s.cfg := rfl
@[simp] theorem State.modJrn_pins (s : State) (f) : (s.modJrn f).pins = s.pins := rfl
@[simp] theorem State.modJrn_trl (s : State) (f) : (s.modJrn f).trl = s.trl := rfl
@[simp] theorem State.modJrn_tel (s : State) (f) : (s.modJrn f).tel = s.tel := rfl
@[simp] theorem State.modJrn_regs (s : State) (f) : (s.modJrn f).regs = s.regs := rfl
@[simp] theorem State.modJrn_out (s : State) (f) : (s.modJrn f).out = s.out := rfl
@[simp] theorem State.modJrn_free (s : State) (f) : (s.modJrn f).free = s.free := rfl
@[simp] theorem State.modJrn_pending (s : State) (f) : (s.modJrn f).pending = s.pending := rfl

@[simp] theorem State.modHome_sys (s : State) (f) : (s.modHome f).sys = s.sys := rfl
@[simp] theorem State.modHome_ext (s : State) (f) : (s.modHome f).ext = s.ext := rfl
@[simp] theorem State.modHome_tier (s : State) (f) : (s.modHome f).tier = s.tier := rfl
@[simp] theorem State.modHome_flash (s : State) (f) : (s.modHome f).flash = s.flash := rfl
@[simp] theorem State.modHome_jrn (s : State) (f) : (s.modHome f).jrn = s.jrn := rfl
@[simp] theorem State.modHome_home (s : State) (f) : (s.modHome f).home = f s.home := rfl
@[simp] theorem State.modHome_coh (s : State) (f) : (s.modHome f).coh = s.coh := rfl
@[simp] theorem State.modHome_own (s : State) (f) : (s.modHome f).own = s.own := rfl
@[simp] theorem State.modHome_nmc (s : State) (f) : (s.modHome f).nmc = s.nmc := rfl
@[simp] theorem State.modHome_xlt (s : State) (f) : (s.modHome f).xlt = s.xlt := rfl
@[simp] theorem State.modHome_cdc (s : State) (f) : (s.modHome f).cdc = s.cdc := rfl
@[simp] theorem State.modHome_emb (s : State) (f) : (s.modHome f).emb = s.emb := rfl
@[simp] theorem State.modHome_prn (s : State) (f) : (s.modHome f).prn = s.prn := rfl
@[simp] theorem State.modHome_hp (s : State) (f) : (s.modHome f).hp = s.hp := rfl
@[simp] theorem State.modHome_fab (s : State) (f) : (s.modHome f).fab = s.fab := rfl
@[simp] theorem State.modHome_ras (s : State) (f) : (s.modHome f).ras = s.ras := rfl
@[simp] theorem State.modHome_flt (s : State) (f) : (s.modHome f).flt = s.flt := rfl
@[simp] theorem State.modHome_cfg (s : State) (f) : (s.modHome f).cfg = s.cfg := rfl
@[simp] theorem State.modHome_pins (s : State) (f) : (s.modHome f).pins = s.pins := rfl
@[simp] theorem State.modHome_trl (s : State) (f) : (s.modHome f).trl = s.trl := rfl
@[simp] theorem State.modHome_tel (s : State) (f) : (s.modHome f).tel = s.tel := rfl
@[simp] theorem State.modHome_regs (s : State) (f) : (s.modHome f).regs = s.regs := rfl
@[simp] theorem State.modHome_out (s : State) (f) : (s.modHome f).out = s.out := rfl
@[simp] theorem State.modHome_free (s : State) (f) : (s.modHome f).free = s.free := rfl
@[simp] theorem State.modHome_pending (s : State) (f) : (s.modHome f).pending = s.pending := rfl

@[simp] theorem State.modCoh_sys (s : State) (f) : (s.modCoh f).sys = s.sys := rfl
@[simp] theorem State.modCoh_ext (s : State) (f) : (s.modCoh f).ext = s.ext := rfl
@[simp] theorem State.modCoh_tier (s : State) (f) : (s.modCoh f).tier = s.tier := rfl
@[simp] theorem State.modCoh_flash (s : State) (f) : (s.modCoh f).flash = s.flash := rfl
@[simp] theorem State.modCoh_jrn (s : State) (f) : (s.modCoh f).jrn = s.jrn := rfl
@[simp] theorem State.modCoh_home (s : State) (f) : (s.modCoh f).home = s.home := rfl
@[simp] theorem State.modCoh_coh (s : State) (f) : (s.modCoh f).coh = f s.coh := rfl
@[simp] theorem State.modCoh_own (s : State) (f) : (s.modCoh f).own = s.own := rfl
@[simp] theorem State.modCoh_nmc (s : State) (f) : (s.modCoh f).nmc = s.nmc := rfl
@[simp] theorem State.modCoh_xlt (s : State) (f) : (s.modCoh f).xlt = s.xlt := rfl
@[simp] theorem State.modCoh_cdc (s : State) (f) : (s.modCoh f).cdc = s.cdc := rfl
@[simp] theorem State.modCoh_emb (s : State) (f) : (s.modCoh f).emb = s.emb := rfl
@[simp] theorem State.modCoh_prn (s : State) (f) : (s.modCoh f).prn = s.prn := rfl
@[simp] theorem State.modCoh_hp (s : State) (f) : (s.modCoh f).hp = s.hp := rfl
@[simp] theorem State.modCoh_fab (s : State) (f) : (s.modCoh f).fab = s.fab := rfl
@[simp] theorem State.modCoh_ras (s : State) (f) : (s.modCoh f).ras = s.ras := rfl
@[simp] theorem State.modCoh_flt (s : State) (f) : (s.modCoh f).flt = s.flt := rfl
@[simp] theorem State.modCoh_cfg (s : State) (f) : (s.modCoh f).cfg = s.cfg := rfl
@[simp] theorem State.modCoh_pins (s : State) (f) : (s.modCoh f).pins = s.pins := rfl
@[simp] theorem State.modCoh_trl (s : State) (f) : (s.modCoh f).trl = s.trl := rfl
@[simp] theorem State.modCoh_tel (s : State) (f) : (s.modCoh f).tel = s.tel := rfl
@[simp] theorem State.modCoh_regs (s : State) (f) : (s.modCoh f).regs = s.regs := rfl
@[simp] theorem State.modCoh_out (s : State) (f) : (s.modCoh f).out = s.out := rfl
@[simp] theorem State.modCoh_free (s : State) (f) : (s.modCoh f).free = s.free := rfl
@[simp] theorem State.modCoh_pending (s : State) (f) : (s.modCoh f).pending = s.pending := rfl

@[simp] theorem State.modOwn_sys (s : State) (f) : (s.modOwn f).sys = s.sys := rfl
@[simp] theorem State.modOwn_ext (s : State) (f) : (s.modOwn f).ext = s.ext := rfl
@[simp] theorem State.modOwn_tier (s : State) (f) : (s.modOwn f).tier = s.tier := rfl
@[simp] theorem State.modOwn_flash (s : State) (f) : (s.modOwn f).flash = s.flash := rfl
@[simp] theorem State.modOwn_jrn (s : State) (f) : (s.modOwn f).jrn = s.jrn := rfl
@[simp] theorem State.modOwn_home (s : State) (f) : (s.modOwn f).home = s.home := rfl
@[simp] theorem State.modOwn_coh (s : State) (f) : (s.modOwn f).coh = s.coh := rfl
@[simp] theorem State.modOwn_own (s : State) (f) : (s.modOwn f).own = f s.own := rfl
@[simp] theorem State.modOwn_nmc (s : State) (f) : (s.modOwn f).nmc = s.nmc := rfl
@[simp] theorem State.modOwn_xlt (s : State) (f) : (s.modOwn f).xlt = s.xlt := rfl
@[simp] theorem State.modOwn_cdc (s : State) (f) : (s.modOwn f).cdc = s.cdc := rfl
@[simp] theorem State.modOwn_emb (s : State) (f) : (s.modOwn f).emb = s.emb := rfl
@[simp] theorem State.modOwn_prn (s : State) (f) : (s.modOwn f).prn = s.prn := rfl
@[simp] theorem State.modOwn_hp (s : State) (f) : (s.modOwn f).hp = s.hp := rfl
@[simp] theorem State.modOwn_fab (s : State) (f) : (s.modOwn f).fab = s.fab := rfl
@[simp] theorem State.modOwn_ras (s : State) (f) : (s.modOwn f).ras = s.ras := rfl
@[simp] theorem State.modOwn_flt (s : State) (f) : (s.modOwn f).flt = s.flt := rfl
@[simp] theorem State.modOwn_cfg (s : State) (f) : (s.modOwn f).cfg = s.cfg := rfl
@[simp] theorem State.modOwn_pins (s : State) (f) : (s.modOwn f).pins = s.pins := rfl
@[simp] theorem State.modOwn_trl (s : State) (f) : (s.modOwn f).trl = s.trl := rfl
@[simp] theorem State.modOwn_tel (s : State) (f) : (s.modOwn f).tel = s.tel := rfl
@[simp] theorem State.modOwn_regs (s : State) (f) : (s.modOwn f).regs = s.regs := rfl
@[simp] theorem State.modOwn_out (s : State) (f) : (s.modOwn f).out = s.out := rfl
@[simp] theorem State.modOwn_free (s : State) (f) : (s.modOwn f).free = s.free := rfl
@[simp] theorem State.modOwn_pending (s : State) (f) : (s.modOwn f).pending = s.pending := rfl

@[simp] theorem State.modNmc_sys (s : State) (f) : (s.modNmc f).sys = s.sys := rfl
@[simp] theorem State.modNmc_ext (s : State) (f) : (s.modNmc f).ext = s.ext := rfl
@[simp] theorem State.modNmc_tier (s : State) (f) : (s.modNmc f).tier = s.tier := rfl
@[simp] theorem State.modNmc_flash (s : State) (f) : (s.modNmc f).flash = s.flash := rfl
@[simp] theorem State.modNmc_jrn (s : State) (f) : (s.modNmc f).jrn = s.jrn := rfl
@[simp] theorem State.modNmc_home (s : State) (f) : (s.modNmc f).home = s.home := rfl
@[simp] theorem State.modNmc_coh (s : State) (f) : (s.modNmc f).coh = s.coh := rfl
@[simp] theorem State.modNmc_own (s : State) (f) : (s.modNmc f).own = s.own := rfl
@[simp] theorem State.modNmc_nmc (s : State) (f) : (s.modNmc f).nmc = f s.nmc := rfl
@[simp] theorem State.modNmc_xlt (s : State) (f) : (s.modNmc f).xlt = s.xlt := rfl
@[simp] theorem State.modNmc_cdc (s : State) (f) : (s.modNmc f).cdc = s.cdc := rfl
@[simp] theorem State.modNmc_emb (s : State) (f) : (s.modNmc f).emb = s.emb := rfl
@[simp] theorem State.modNmc_prn (s : State) (f) : (s.modNmc f).prn = s.prn := rfl
@[simp] theorem State.modNmc_hp (s : State) (f) : (s.modNmc f).hp = s.hp := rfl
@[simp] theorem State.modNmc_fab (s : State) (f) : (s.modNmc f).fab = s.fab := rfl
@[simp] theorem State.modNmc_ras (s : State) (f) : (s.modNmc f).ras = s.ras := rfl
@[simp] theorem State.modNmc_flt (s : State) (f) : (s.modNmc f).flt = s.flt := rfl
@[simp] theorem State.modNmc_cfg (s : State) (f) : (s.modNmc f).cfg = s.cfg := rfl
@[simp] theorem State.modNmc_pins (s : State) (f) : (s.modNmc f).pins = s.pins := rfl
@[simp] theorem State.modNmc_trl (s : State) (f) : (s.modNmc f).trl = s.trl := rfl
@[simp] theorem State.modNmc_tel (s : State) (f) : (s.modNmc f).tel = s.tel := rfl
@[simp] theorem State.modNmc_regs (s : State) (f) : (s.modNmc f).regs = s.regs := rfl
@[simp] theorem State.modNmc_out (s : State) (f) : (s.modNmc f).out = s.out := rfl
@[simp] theorem State.modNmc_free (s : State) (f) : (s.modNmc f).free = s.free := rfl
@[simp] theorem State.modNmc_pending (s : State) (f) : (s.modNmc f).pending = s.pending := rfl

@[simp] theorem State.modXlt_sys (s : State) (f) : (s.modXlt f).sys = s.sys := rfl
@[simp] theorem State.modXlt_ext (s : State) (f) : (s.modXlt f).ext = s.ext := rfl
@[simp] theorem State.modXlt_tier (s : State) (f) : (s.modXlt f).tier = s.tier := rfl
@[simp] theorem State.modXlt_flash (s : State) (f) : (s.modXlt f).flash = s.flash := rfl
@[simp] theorem State.modXlt_jrn (s : State) (f) : (s.modXlt f).jrn = s.jrn := rfl
@[simp] theorem State.modXlt_home (s : State) (f) : (s.modXlt f).home = s.home := rfl
@[simp] theorem State.modXlt_coh (s : State) (f) : (s.modXlt f).coh = s.coh := rfl
@[simp] theorem State.modXlt_own (s : State) (f) : (s.modXlt f).own = s.own := rfl
@[simp] theorem State.modXlt_nmc (s : State) (f) : (s.modXlt f).nmc = s.nmc := rfl
@[simp] theorem State.modXlt_xlt (s : State) (f) : (s.modXlt f).xlt = f s.xlt := rfl
@[simp] theorem State.modXlt_cdc (s : State) (f) : (s.modXlt f).cdc = s.cdc := rfl
@[simp] theorem State.modXlt_emb (s : State) (f) : (s.modXlt f).emb = s.emb := rfl
@[simp] theorem State.modXlt_prn (s : State) (f) : (s.modXlt f).prn = s.prn := rfl
@[simp] theorem State.modXlt_hp (s : State) (f) : (s.modXlt f).hp = s.hp := rfl
@[simp] theorem State.modXlt_fab (s : State) (f) : (s.modXlt f).fab = s.fab := rfl
@[simp] theorem State.modXlt_ras (s : State) (f) : (s.modXlt f).ras = s.ras := rfl
@[simp] theorem State.modXlt_flt (s : State) (f) : (s.modXlt f).flt = s.flt := rfl
@[simp] theorem State.modXlt_cfg (s : State) (f) : (s.modXlt f).cfg = s.cfg := rfl
@[simp] theorem State.modXlt_pins (s : State) (f) : (s.modXlt f).pins = s.pins := rfl
@[simp] theorem State.modXlt_trl (s : State) (f) : (s.modXlt f).trl = s.trl := rfl
@[simp] theorem State.modXlt_tel (s : State) (f) : (s.modXlt f).tel = s.tel := rfl
@[simp] theorem State.modXlt_regs (s : State) (f) : (s.modXlt f).regs = s.regs := rfl
@[simp] theorem State.modXlt_out (s : State) (f) : (s.modXlt f).out = s.out := rfl
@[simp] theorem State.modXlt_free (s : State) (f) : (s.modXlt f).free = s.free := rfl
@[simp] theorem State.modXlt_pending (s : State) (f) : (s.modXlt f).pending = s.pending := rfl

@[simp] theorem State.modCdc_sys (s : State) (f) : (s.modCdc f).sys = s.sys := rfl
@[simp] theorem State.modCdc_ext (s : State) (f) : (s.modCdc f).ext = s.ext := rfl
@[simp] theorem State.modCdc_tier (s : State) (f) : (s.modCdc f).tier = s.tier := rfl
@[simp] theorem State.modCdc_flash (s : State) (f) : (s.modCdc f).flash = s.flash := rfl
@[simp] theorem State.modCdc_jrn (s : State) (f) : (s.modCdc f).jrn = s.jrn := rfl
@[simp] theorem State.modCdc_home (s : State) (f) : (s.modCdc f).home = s.home := rfl
@[simp] theorem State.modCdc_coh (s : State) (f) : (s.modCdc f).coh = s.coh := rfl
@[simp] theorem State.modCdc_own (s : State) (f) : (s.modCdc f).own = s.own := rfl
@[simp] theorem State.modCdc_nmc (s : State) (f) : (s.modCdc f).nmc = s.nmc := rfl
@[simp] theorem State.modCdc_xlt (s : State) (f) : (s.modCdc f).xlt = s.xlt := rfl
@[simp] theorem State.modCdc_cdc (s : State) (f) : (s.modCdc f).cdc = f s.cdc := rfl
@[simp] theorem State.modCdc_emb (s : State) (f) : (s.modCdc f).emb = s.emb := rfl
@[simp] theorem State.modCdc_prn (s : State) (f) : (s.modCdc f).prn = s.prn := rfl
@[simp] theorem State.modCdc_hp (s : State) (f) : (s.modCdc f).hp = s.hp := rfl
@[simp] theorem State.modCdc_fab (s : State) (f) : (s.modCdc f).fab = s.fab := rfl
@[simp] theorem State.modCdc_ras (s : State) (f) : (s.modCdc f).ras = s.ras := rfl
@[simp] theorem State.modCdc_flt (s : State) (f) : (s.modCdc f).flt = s.flt := rfl
@[simp] theorem State.modCdc_cfg (s : State) (f) : (s.modCdc f).cfg = s.cfg := rfl
@[simp] theorem State.modCdc_pins (s : State) (f) : (s.modCdc f).pins = s.pins := rfl
@[simp] theorem State.modCdc_trl (s : State) (f) : (s.modCdc f).trl = s.trl := rfl
@[simp] theorem State.modCdc_tel (s : State) (f) : (s.modCdc f).tel = s.tel := rfl
@[simp] theorem State.modCdc_regs (s : State) (f) : (s.modCdc f).regs = s.regs := rfl
@[simp] theorem State.modCdc_out (s : State) (f) : (s.modCdc f).out = s.out := rfl
@[simp] theorem State.modCdc_free (s : State) (f) : (s.modCdc f).free = s.free := rfl
@[simp] theorem State.modCdc_pending (s : State) (f) : (s.modCdc f).pending = s.pending := rfl

@[simp] theorem State.modEmb_sys (s : State) (f) : (s.modEmb f).sys = s.sys := rfl
@[simp] theorem State.modEmb_ext (s : State) (f) : (s.modEmb f).ext = s.ext := rfl
@[simp] theorem State.modEmb_tier (s : State) (f) : (s.modEmb f).tier = s.tier := rfl
@[simp] theorem State.modEmb_flash (s : State) (f) : (s.modEmb f).flash = s.flash := rfl
@[simp] theorem State.modEmb_jrn (s : State) (f) : (s.modEmb f).jrn = s.jrn := rfl
@[simp] theorem State.modEmb_home (s : State) (f) : (s.modEmb f).home = s.home := rfl
@[simp] theorem State.modEmb_coh (s : State) (f) : (s.modEmb f).coh = s.coh := rfl
@[simp] theorem State.modEmb_own (s : State) (f) : (s.modEmb f).own = s.own := rfl
@[simp] theorem State.modEmb_nmc (s : State) (f) : (s.modEmb f).nmc = s.nmc := rfl
@[simp] theorem State.modEmb_xlt (s : State) (f) : (s.modEmb f).xlt = s.xlt := rfl
@[simp] theorem State.modEmb_cdc (s : State) (f) : (s.modEmb f).cdc = s.cdc := rfl
@[simp] theorem State.modEmb_emb (s : State) (f) : (s.modEmb f).emb = f s.emb := rfl
@[simp] theorem State.modEmb_prn (s : State) (f) : (s.modEmb f).prn = s.prn := rfl
@[simp] theorem State.modEmb_hp (s : State) (f) : (s.modEmb f).hp = s.hp := rfl
@[simp] theorem State.modEmb_fab (s : State) (f) : (s.modEmb f).fab = s.fab := rfl
@[simp] theorem State.modEmb_ras (s : State) (f) : (s.modEmb f).ras = s.ras := rfl
@[simp] theorem State.modEmb_flt (s : State) (f) : (s.modEmb f).flt = s.flt := rfl
@[simp] theorem State.modEmb_cfg (s : State) (f) : (s.modEmb f).cfg = s.cfg := rfl
@[simp] theorem State.modEmb_pins (s : State) (f) : (s.modEmb f).pins = s.pins := rfl
@[simp] theorem State.modEmb_trl (s : State) (f) : (s.modEmb f).trl = s.trl := rfl
@[simp] theorem State.modEmb_tel (s : State) (f) : (s.modEmb f).tel = s.tel := rfl
@[simp] theorem State.modEmb_regs (s : State) (f) : (s.modEmb f).regs = s.regs := rfl
@[simp] theorem State.modEmb_out (s : State) (f) : (s.modEmb f).out = s.out := rfl
@[simp] theorem State.modEmb_free (s : State) (f) : (s.modEmb f).free = s.free := rfl
@[simp] theorem State.modEmb_pending (s : State) (f) : (s.modEmb f).pending = s.pending := rfl

@[simp] theorem State.modPrn_sys (s : State) (f) : (s.modPrn f).sys = s.sys := rfl
@[simp] theorem State.modPrn_ext (s : State) (f) : (s.modPrn f).ext = s.ext := rfl
@[simp] theorem State.modPrn_tier (s : State) (f) : (s.modPrn f).tier = s.tier := rfl
@[simp] theorem State.modPrn_flash (s : State) (f) : (s.modPrn f).flash = s.flash := rfl
@[simp] theorem State.modPrn_jrn (s : State) (f) : (s.modPrn f).jrn = s.jrn := rfl
@[simp] theorem State.modPrn_home (s : State) (f) : (s.modPrn f).home = s.home := rfl
@[simp] theorem State.modPrn_coh (s : State) (f) : (s.modPrn f).coh = s.coh := rfl
@[simp] theorem State.modPrn_own (s : State) (f) : (s.modPrn f).own = s.own := rfl
@[simp] theorem State.modPrn_nmc (s : State) (f) : (s.modPrn f).nmc = s.nmc := rfl
@[simp] theorem State.modPrn_xlt (s : State) (f) : (s.modPrn f).xlt = s.xlt := rfl
@[simp] theorem State.modPrn_cdc (s : State) (f) : (s.modPrn f).cdc = s.cdc := rfl
@[simp] theorem State.modPrn_emb (s : State) (f) : (s.modPrn f).emb = s.emb := rfl
@[simp] theorem State.modPrn_prn (s : State) (f) : (s.modPrn f).prn = f s.prn := rfl
@[simp] theorem State.modPrn_hp (s : State) (f) : (s.modPrn f).hp = s.hp := rfl
@[simp] theorem State.modPrn_fab (s : State) (f) : (s.modPrn f).fab = s.fab := rfl
@[simp] theorem State.modPrn_ras (s : State) (f) : (s.modPrn f).ras = s.ras := rfl
@[simp] theorem State.modPrn_flt (s : State) (f) : (s.modPrn f).flt = s.flt := rfl
@[simp] theorem State.modPrn_cfg (s : State) (f) : (s.modPrn f).cfg = s.cfg := rfl
@[simp] theorem State.modPrn_pins (s : State) (f) : (s.modPrn f).pins = s.pins := rfl
@[simp] theorem State.modPrn_trl (s : State) (f) : (s.modPrn f).trl = s.trl := rfl
@[simp] theorem State.modPrn_tel (s : State) (f) : (s.modPrn f).tel = s.tel := rfl
@[simp] theorem State.modPrn_regs (s : State) (f) : (s.modPrn f).regs = s.regs := rfl
@[simp] theorem State.modPrn_out (s : State) (f) : (s.modPrn f).out = s.out := rfl
@[simp] theorem State.modPrn_free (s : State) (f) : (s.modPrn f).free = s.free := rfl
@[simp] theorem State.modPrn_pending (s : State) (f) : (s.modPrn f).pending = s.pending := rfl

@[simp] theorem State.modHp_sys (s : State) (f) : (s.modHp f).sys = s.sys := rfl
@[simp] theorem State.modHp_ext (s : State) (f) : (s.modHp f).ext = s.ext := rfl
@[simp] theorem State.modHp_tier (s : State) (f) : (s.modHp f).tier = s.tier := rfl
@[simp] theorem State.modHp_flash (s : State) (f) : (s.modHp f).flash = s.flash := rfl
@[simp] theorem State.modHp_jrn (s : State) (f) : (s.modHp f).jrn = s.jrn := rfl
@[simp] theorem State.modHp_home (s : State) (f) : (s.modHp f).home = s.home := rfl
@[simp] theorem State.modHp_coh (s : State) (f) : (s.modHp f).coh = s.coh := rfl
@[simp] theorem State.modHp_own (s : State) (f) : (s.modHp f).own = s.own := rfl
@[simp] theorem State.modHp_nmc (s : State) (f) : (s.modHp f).nmc = s.nmc := rfl
@[simp] theorem State.modHp_xlt (s : State) (f) : (s.modHp f).xlt = s.xlt := rfl
@[simp] theorem State.modHp_cdc (s : State) (f) : (s.modHp f).cdc = s.cdc := rfl
@[simp] theorem State.modHp_emb (s : State) (f) : (s.modHp f).emb = s.emb := rfl
@[simp] theorem State.modHp_prn (s : State) (f) : (s.modHp f).prn = s.prn := rfl
@[simp] theorem State.modHp_hp (s : State) (f) : (s.modHp f).hp = f s.hp := rfl
@[simp] theorem State.modHp_fab (s : State) (f) : (s.modHp f).fab = s.fab := rfl
@[simp] theorem State.modHp_ras (s : State) (f) : (s.modHp f).ras = s.ras := rfl
@[simp] theorem State.modHp_flt (s : State) (f) : (s.modHp f).flt = s.flt := rfl
@[simp] theorem State.modHp_cfg (s : State) (f) : (s.modHp f).cfg = s.cfg := rfl
@[simp] theorem State.modHp_pins (s : State) (f) : (s.modHp f).pins = s.pins := rfl
@[simp] theorem State.modHp_trl (s : State) (f) : (s.modHp f).trl = s.trl := rfl
@[simp] theorem State.modHp_tel (s : State) (f) : (s.modHp f).tel = s.tel := rfl
@[simp] theorem State.modHp_regs (s : State) (f) : (s.modHp f).regs = s.regs := rfl
@[simp] theorem State.modHp_out (s : State) (f) : (s.modHp f).out = s.out := rfl
@[simp] theorem State.modHp_free (s : State) (f) : (s.modHp f).free = s.free := rfl
@[simp] theorem State.modHp_pending (s : State) (f) : (s.modHp f).pending = s.pending := rfl

@[simp] theorem State.modFab_sys (s : State) (f) : (s.modFab f).sys = s.sys := rfl
@[simp] theorem State.modFab_ext (s : State) (f) : (s.modFab f).ext = s.ext := rfl
@[simp] theorem State.modFab_tier (s : State) (f) : (s.modFab f).tier = s.tier := rfl
@[simp] theorem State.modFab_flash (s : State) (f) : (s.modFab f).flash = s.flash := rfl
@[simp] theorem State.modFab_jrn (s : State) (f) : (s.modFab f).jrn = s.jrn := rfl
@[simp] theorem State.modFab_home (s : State) (f) : (s.modFab f).home = s.home := rfl
@[simp] theorem State.modFab_coh (s : State) (f) : (s.modFab f).coh = s.coh := rfl
@[simp] theorem State.modFab_own (s : State) (f) : (s.modFab f).own = s.own := rfl
@[simp] theorem State.modFab_nmc (s : State) (f) : (s.modFab f).nmc = s.nmc := rfl
@[simp] theorem State.modFab_xlt (s : State) (f) : (s.modFab f).xlt = s.xlt := rfl
@[simp] theorem State.modFab_cdc (s : State) (f) : (s.modFab f).cdc = s.cdc := rfl
@[simp] theorem State.modFab_emb (s : State) (f) : (s.modFab f).emb = s.emb := rfl
@[simp] theorem State.modFab_prn (s : State) (f) : (s.modFab f).prn = s.prn := rfl
@[simp] theorem State.modFab_hp (s : State) (f) : (s.modFab f).hp = s.hp := rfl
@[simp] theorem State.modFab_fab (s : State) (f) : (s.modFab f).fab = f s.fab := rfl
@[simp] theorem State.modFab_ras (s : State) (f) : (s.modFab f).ras = s.ras := rfl
@[simp] theorem State.modFab_flt (s : State) (f) : (s.modFab f).flt = s.flt := rfl
@[simp] theorem State.modFab_cfg (s : State) (f) : (s.modFab f).cfg = s.cfg := rfl
@[simp] theorem State.modFab_pins (s : State) (f) : (s.modFab f).pins = s.pins := rfl
@[simp] theorem State.modFab_trl (s : State) (f) : (s.modFab f).trl = s.trl := rfl
@[simp] theorem State.modFab_tel (s : State) (f) : (s.modFab f).tel = s.tel := rfl
@[simp] theorem State.modFab_regs (s : State) (f) : (s.modFab f).regs = s.regs := rfl
@[simp] theorem State.modFab_out (s : State) (f) : (s.modFab f).out = s.out := rfl
@[simp] theorem State.modFab_free (s : State) (f) : (s.modFab f).free = s.free := rfl
@[simp] theorem State.modFab_pending (s : State) (f) : (s.modFab f).pending = s.pending := rfl

@[simp] theorem State.modRas_sys (s : State) (f) : (s.modRas f).sys = s.sys := rfl
@[simp] theorem State.modRas_ext (s : State) (f) : (s.modRas f).ext = s.ext := rfl
@[simp] theorem State.modRas_tier (s : State) (f) : (s.modRas f).tier = s.tier := rfl
@[simp] theorem State.modRas_flash (s : State) (f) : (s.modRas f).flash = s.flash := rfl
@[simp] theorem State.modRas_jrn (s : State) (f) : (s.modRas f).jrn = s.jrn := rfl
@[simp] theorem State.modRas_home (s : State) (f) : (s.modRas f).home = s.home := rfl
@[simp] theorem State.modRas_coh (s : State) (f) : (s.modRas f).coh = s.coh := rfl
@[simp] theorem State.modRas_own (s : State) (f) : (s.modRas f).own = s.own := rfl
@[simp] theorem State.modRas_nmc (s : State) (f) : (s.modRas f).nmc = s.nmc := rfl
@[simp] theorem State.modRas_xlt (s : State) (f) : (s.modRas f).xlt = s.xlt := rfl
@[simp] theorem State.modRas_cdc (s : State) (f) : (s.modRas f).cdc = s.cdc := rfl
@[simp] theorem State.modRas_emb (s : State) (f) : (s.modRas f).emb = s.emb := rfl
@[simp] theorem State.modRas_prn (s : State) (f) : (s.modRas f).prn = s.prn := rfl
@[simp] theorem State.modRas_hp (s : State) (f) : (s.modRas f).hp = s.hp := rfl
@[simp] theorem State.modRas_fab (s : State) (f) : (s.modRas f).fab = s.fab := rfl
@[simp] theorem State.modRas_ras (s : State) (f) : (s.modRas f).ras = f s.ras := rfl
@[simp] theorem State.modRas_flt (s : State) (f) : (s.modRas f).flt = s.flt := rfl
@[simp] theorem State.modRas_cfg (s : State) (f) : (s.modRas f).cfg = s.cfg := rfl
@[simp] theorem State.modRas_pins (s : State) (f) : (s.modRas f).pins = s.pins := rfl
@[simp] theorem State.modRas_trl (s : State) (f) : (s.modRas f).trl = s.trl := rfl
@[simp] theorem State.modRas_tel (s : State) (f) : (s.modRas f).tel = s.tel := rfl
@[simp] theorem State.modRas_regs (s : State) (f) : (s.modRas f).regs = s.regs := rfl
@[simp] theorem State.modRas_out (s : State) (f) : (s.modRas f).out = s.out := rfl
@[simp] theorem State.modRas_free (s : State) (f) : (s.modRas f).free = s.free := rfl
@[simp] theorem State.modRas_pending (s : State) (f) : (s.modRas f).pending = s.pending := rfl

@[simp] theorem State.modFlt_sys (s : State) (f) : (s.modFlt f).sys = s.sys := rfl
@[simp] theorem State.modFlt_ext (s : State) (f) : (s.modFlt f).ext = s.ext := rfl
@[simp] theorem State.modFlt_tier (s : State) (f) : (s.modFlt f).tier = s.tier := rfl
@[simp] theorem State.modFlt_flash (s : State) (f) : (s.modFlt f).flash = s.flash := rfl
@[simp] theorem State.modFlt_jrn (s : State) (f) : (s.modFlt f).jrn = s.jrn := rfl
@[simp] theorem State.modFlt_home (s : State) (f) : (s.modFlt f).home = s.home := rfl
@[simp] theorem State.modFlt_coh (s : State) (f) : (s.modFlt f).coh = s.coh := rfl
@[simp] theorem State.modFlt_own (s : State) (f) : (s.modFlt f).own = s.own := rfl
@[simp] theorem State.modFlt_nmc (s : State) (f) : (s.modFlt f).nmc = s.nmc := rfl
@[simp] theorem State.modFlt_xlt (s : State) (f) : (s.modFlt f).xlt = s.xlt := rfl
@[simp] theorem State.modFlt_cdc (s : State) (f) : (s.modFlt f).cdc = s.cdc := rfl
@[simp] theorem State.modFlt_emb (s : State) (f) : (s.modFlt f).emb = s.emb := rfl
@[simp] theorem State.modFlt_prn (s : State) (f) : (s.modFlt f).prn = s.prn := rfl
@[simp] theorem State.modFlt_hp (s : State) (f) : (s.modFlt f).hp = s.hp := rfl
@[simp] theorem State.modFlt_fab (s : State) (f) : (s.modFlt f).fab = s.fab := rfl
@[simp] theorem State.modFlt_ras (s : State) (f) : (s.modFlt f).ras = s.ras := rfl
@[simp] theorem State.modFlt_flt (s : State) (f) : (s.modFlt f).flt = f s.flt := rfl
@[simp] theorem State.modFlt_cfg (s : State) (f) : (s.modFlt f).cfg = s.cfg := rfl
@[simp] theorem State.modFlt_pins (s : State) (f) : (s.modFlt f).pins = s.pins := rfl
@[simp] theorem State.modFlt_trl (s : State) (f) : (s.modFlt f).trl = s.trl := rfl
@[simp] theorem State.modFlt_tel (s : State) (f) : (s.modFlt f).tel = s.tel := rfl
@[simp] theorem State.modFlt_regs (s : State) (f) : (s.modFlt f).regs = s.regs := rfl
@[simp] theorem State.modFlt_out (s : State) (f) : (s.modFlt f).out = s.out := rfl
@[simp] theorem State.modFlt_free (s : State) (f) : (s.modFlt f).free = s.free := rfl
@[simp] theorem State.modFlt_pending (s : State) (f) : (s.modFlt f).pending = s.pending := rfl

@[simp] theorem State.modCfg_sys (s : State) (f) : (s.modCfg f).sys = s.sys := rfl
@[simp] theorem State.modCfg_ext (s : State) (f) : (s.modCfg f).ext = s.ext := rfl
@[simp] theorem State.modCfg_tier (s : State) (f) : (s.modCfg f).tier = s.tier := rfl
@[simp] theorem State.modCfg_flash (s : State) (f) : (s.modCfg f).flash = s.flash := rfl
@[simp] theorem State.modCfg_jrn (s : State) (f) : (s.modCfg f).jrn = s.jrn := rfl
@[simp] theorem State.modCfg_home (s : State) (f) : (s.modCfg f).home = s.home := rfl
@[simp] theorem State.modCfg_coh (s : State) (f) : (s.modCfg f).coh = s.coh := rfl
@[simp] theorem State.modCfg_own (s : State) (f) : (s.modCfg f).own = s.own := rfl
@[simp] theorem State.modCfg_nmc (s : State) (f) : (s.modCfg f).nmc = s.nmc := rfl
@[simp] theorem State.modCfg_xlt (s : State) (f) : (s.modCfg f).xlt = s.xlt := rfl
@[simp] theorem State.modCfg_cdc (s : State) (f) : (s.modCfg f).cdc = s.cdc := rfl
@[simp] theorem State.modCfg_emb (s : State) (f) : (s.modCfg f).emb = s.emb := rfl
@[simp] theorem State.modCfg_prn (s : State) (f) : (s.modCfg f).prn = s.prn := rfl
@[simp] theorem State.modCfg_hp (s : State) (f) : (s.modCfg f).hp = s.hp := rfl
@[simp] theorem State.modCfg_fab (s : State) (f) : (s.modCfg f).fab = s.fab := rfl
@[simp] theorem State.modCfg_ras (s : State) (f) : (s.modCfg f).ras = s.ras := rfl
@[simp] theorem State.modCfg_flt (s : State) (f) : (s.modCfg f).flt = s.flt := rfl
@[simp] theorem State.modCfg_cfg (s : State) (f) : (s.modCfg f).cfg = f s.cfg := rfl
@[simp] theorem State.modCfg_pins (s : State) (f) : (s.modCfg f).pins = s.pins := rfl
@[simp] theorem State.modCfg_trl (s : State) (f) : (s.modCfg f).trl = s.trl := rfl
@[simp] theorem State.modCfg_tel (s : State) (f) : (s.modCfg f).tel = s.tel := rfl
@[simp] theorem State.modCfg_regs (s : State) (f) : (s.modCfg f).regs = s.regs := rfl
@[simp] theorem State.modCfg_out (s : State) (f) : (s.modCfg f).out = s.out := rfl
@[simp] theorem State.modCfg_free (s : State) (f) : (s.modCfg f).free = s.free := rfl
@[simp] theorem State.modCfg_pending (s : State) (f) : (s.modCfg f).pending = s.pending := rfl

@[simp] theorem State.modPins_sys (s : State) (f) : (s.modPins f).sys = s.sys := rfl
@[simp] theorem State.modPins_ext (s : State) (f) : (s.modPins f).ext = s.ext := rfl
@[simp] theorem State.modPins_tier (s : State) (f) : (s.modPins f).tier = s.tier := rfl
@[simp] theorem State.modPins_flash (s : State) (f) : (s.modPins f).flash = s.flash := rfl
@[simp] theorem State.modPins_jrn (s : State) (f) : (s.modPins f).jrn = s.jrn := rfl
@[simp] theorem State.modPins_home (s : State) (f) : (s.modPins f).home = s.home := rfl
@[simp] theorem State.modPins_coh (s : State) (f) : (s.modPins f).coh = s.coh := rfl
@[simp] theorem State.modPins_own (s : State) (f) : (s.modPins f).own = s.own := rfl
@[simp] theorem State.modPins_nmc (s : State) (f) : (s.modPins f).nmc = s.nmc := rfl
@[simp] theorem State.modPins_xlt (s : State) (f) : (s.modPins f).xlt = s.xlt := rfl
@[simp] theorem State.modPins_cdc (s : State) (f) : (s.modPins f).cdc = s.cdc := rfl
@[simp] theorem State.modPins_emb (s : State) (f) : (s.modPins f).emb = s.emb := rfl
@[simp] theorem State.modPins_prn (s : State) (f) : (s.modPins f).prn = s.prn := rfl
@[simp] theorem State.modPins_hp (s : State) (f) : (s.modPins f).hp = s.hp := rfl
@[simp] theorem State.modPins_fab (s : State) (f) : (s.modPins f).fab = s.fab := rfl
@[simp] theorem State.modPins_ras (s : State) (f) : (s.modPins f).ras = s.ras := rfl
@[simp] theorem State.modPins_flt (s : State) (f) : (s.modPins f).flt = s.flt := rfl
@[simp] theorem State.modPins_cfg (s : State) (f) : (s.modPins f).cfg = s.cfg := rfl
@[simp] theorem State.modPins_pins (s : State) (f) : (s.modPins f).pins = f s.pins := rfl
@[simp] theorem State.modPins_trl (s : State) (f) : (s.modPins f).trl = s.trl := rfl
@[simp] theorem State.modPins_tel (s : State) (f) : (s.modPins f).tel = s.tel := rfl
@[simp] theorem State.modPins_regs (s : State) (f) : (s.modPins f).regs = s.regs := rfl
@[simp] theorem State.modPins_out (s : State) (f) : (s.modPins f).out = s.out := rfl
@[simp] theorem State.modPins_free (s : State) (f) : (s.modPins f).free = s.free := rfl
@[simp] theorem State.modPins_pending (s : State) (f) : (s.modPins f).pending = s.pending := rfl

@[simp] theorem State.modTrl_sys (s : State) (f) : (s.modTrl f).sys = s.sys := rfl
@[simp] theorem State.modTrl_ext (s : State) (f) : (s.modTrl f).ext = s.ext := rfl
@[simp] theorem State.modTrl_tier (s : State) (f) : (s.modTrl f).tier = s.tier := rfl
@[simp] theorem State.modTrl_flash (s : State) (f) : (s.modTrl f).flash = s.flash := rfl
@[simp] theorem State.modTrl_jrn (s : State) (f) : (s.modTrl f).jrn = s.jrn := rfl
@[simp] theorem State.modTrl_home (s : State) (f) : (s.modTrl f).home = s.home := rfl
@[simp] theorem State.modTrl_coh (s : State) (f) : (s.modTrl f).coh = s.coh := rfl
@[simp] theorem State.modTrl_own (s : State) (f) : (s.modTrl f).own = s.own := rfl
@[simp] theorem State.modTrl_nmc (s : State) (f) : (s.modTrl f).nmc = s.nmc := rfl
@[simp] theorem State.modTrl_xlt (s : State) (f) : (s.modTrl f).xlt = s.xlt := rfl
@[simp] theorem State.modTrl_cdc (s : State) (f) : (s.modTrl f).cdc = s.cdc := rfl
@[simp] theorem State.modTrl_emb (s : State) (f) : (s.modTrl f).emb = s.emb := rfl
@[simp] theorem State.modTrl_prn (s : State) (f) : (s.modTrl f).prn = s.prn := rfl
@[simp] theorem State.modTrl_hp (s : State) (f) : (s.modTrl f).hp = s.hp := rfl
@[simp] theorem State.modTrl_fab (s : State) (f) : (s.modTrl f).fab = s.fab := rfl
@[simp] theorem State.modTrl_ras (s : State) (f) : (s.modTrl f).ras = s.ras := rfl
@[simp] theorem State.modTrl_flt (s : State) (f) : (s.modTrl f).flt = s.flt := rfl
@[simp] theorem State.modTrl_cfg (s : State) (f) : (s.modTrl f).cfg = s.cfg := rfl
@[simp] theorem State.modTrl_pins (s : State) (f) : (s.modTrl f).pins = s.pins := rfl
@[simp] theorem State.modTrl_trl (s : State) (f) : (s.modTrl f).trl = f s.trl := rfl
@[simp] theorem State.modTrl_tel (s : State) (f) : (s.modTrl f).tel = s.tel := rfl
@[simp] theorem State.modTrl_regs (s : State) (f) : (s.modTrl f).regs = s.regs := rfl
@[simp] theorem State.modTrl_out (s : State) (f) : (s.modTrl f).out = s.out := rfl
@[simp] theorem State.modTrl_free (s : State) (f) : (s.modTrl f).free = s.free := rfl
@[simp] theorem State.modTrl_pending (s : State) (f) : (s.modTrl f).pending = s.pending := rfl

@[simp] theorem State.modTel_sys (s : State) (f) : (s.modTel f).sys = s.sys := rfl
@[simp] theorem State.modTel_ext (s : State) (f) : (s.modTel f).ext = s.ext := rfl
@[simp] theorem State.modTel_tier (s : State) (f) : (s.modTel f).tier = s.tier := rfl
@[simp] theorem State.modTel_flash (s : State) (f) : (s.modTel f).flash = s.flash := rfl
@[simp] theorem State.modTel_jrn (s : State) (f) : (s.modTel f).jrn = s.jrn := rfl
@[simp] theorem State.modTel_home (s : State) (f) : (s.modTel f).home = s.home := rfl
@[simp] theorem State.modTel_coh (s : State) (f) : (s.modTel f).coh = s.coh := rfl
@[simp] theorem State.modTel_own (s : State) (f) : (s.modTel f).own = s.own := rfl
@[simp] theorem State.modTel_nmc (s : State) (f) : (s.modTel f).nmc = s.nmc := rfl
@[simp] theorem State.modTel_xlt (s : State) (f) : (s.modTel f).xlt = s.xlt := rfl
@[simp] theorem State.modTel_cdc (s : State) (f) : (s.modTel f).cdc = s.cdc := rfl
@[simp] theorem State.modTel_emb (s : State) (f) : (s.modTel f).emb = s.emb := rfl
@[simp] theorem State.modTel_prn (s : State) (f) : (s.modTel f).prn = s.prn := rfl
@[simp] theorem State.modTel_hp (s : State) (f) : (s.modTel f).hp = s.hp := rfl
@[simp] theorem State.modTel_fab (s : State) (f) : (s.modTel f).fab = s.fab := rfl
@[simp] theorem State.modTel_ras (s : State) (f) : (s.modTel f).ras = s.ras := rfl
@[simp] theorem State.modTel_flt (s : State) (f) : (s.modTel f).flt = s.flt := rfl
@[simp] theorem State.modTel_cfg (s : State) (f) : (s.modTel f).cfg = s.cfg := rfl
@[simp] theorem State.modTel_pins (s : State) (f) : (s.modTel f).pins = s.pins := rfl
@[simp] theorem State.modTel_trl (s : State) (f) : (s.modTel f).trl = s.trl := rfl
@[simp] theorem State.modTel_tel (s : State) (f) : (s.modTel f).tel = f s.tel := rfl
@[simp] theorem State.modTel_regs (s : State) (f) : (s.modTel f).regs = s.regs := rfl
@[simp] theorem State.modTel_out (s : State) (f) : (s.modTel f).out = s.out := rfl
@[simp] theorem State.modTel_free (s : State) (f) : (s.modTel f).free = s.free := rfl
@[simp] theorem State.modTel_pending (s : State) (f) : (s.modTel f).pending = s.pending := rfl

@[simp] theorem State.modRegs_sys (s : State) (f) : (s.modRegs f).sys = s.sys := rfl
@[simp] theorem State.modRegs_ext (s : State) (f) : (s.modRegs f).ext = s.ext := rfl
@[simp] theorem State.modRegs_tier (s : State) (f) : (s.modRegs f).tier = s.tier := rfl
@[simp] theorem State.modRegs_flash (s : State) (f) : (s.modRegs f).flash = s.flash := rfl
@[simp] theorem State.modRegs_jrn (s : State) (f) : (s.modRegs f).jrn = s.jrn := rfl
@[simp] theorem State.modRegs_home (s : State) (f) : (s.modRegs f).home = s.home := rfl
@[simp] theorem State.modRegs_coh (s : State) (f) : (s.modRegs f).coh = s.coh := rfl
@[simp] theorem State.modRegs_own (s : State) (f) : (s.modRegs f).own = s.own := rfl
@[simp] theorem State.modRegs_nmc (s : State) (f) : (s.modRegs f).nmc = s.nmc := rfl
@[simp] theorem State.modRegs_xlt (s : State) (f) : (s.modRegs f).xlt = s.xlt := rfl
@[simp] theorem State.modRegs_cdc (s : State) (f) : (s.modRegs f).cdc = s.cdc := rfl
@[simp] theorem State.modRegs_emb (s : State) (f) : (s.modRegs f).emb = s.emb := rfl
@[simp] theorem State.modRegs_prn (s : State) (f) : (s.modRegs f).prn = s.prn := rfl
@[simp] theorem State.modRegs_hp (s : State) (f) : (s.modRegs f).hp = s.hp := rfl
@[simp] theorem State.modRegs_fab (s : State) (f) : (s.modRegs f).fab = s.fab := rfl
@[simp] theorem State.modRegs_ras (s : State) (f) : (s.modRegs f).ras = s.ras := rfl
@[simp] theorem State.modRegs_flt (s : State) (f) : (s.modRegs f).flt = s.flt := rfl
@[simp] theorem State.modRegs_cfg (s : State) (f) : (s.modRegs f).cfg = s.cfg := rfl
@[simp] theorem State.modRegs_pins (s : State) (f) : (s.modRegs f).pins = s.pins := rfl
@[simp] theorem State.modRegs_trl (s : State) (f) : (s.modRegs f).trl = s.trl := rfl
@[simp] theorem State.modRegs_tel (s : State) (f) : (s.modRegs f).tel = s.tel := rfl
@[simp] theorem State.modRegs_regs (s : State) (f) : (s.modRegs f).regs = f s.regs := rfl
@[simp] theorem State.modRegs_out (s : State) (f) : (s.modRegs f).out = s.out := rfl
@[simp] theorem State.modRegs_free (s : State) (f) : (s.modRegs f).free = s.free := rfl
@[simp] theorem State.modRegs_pending (s : State) (f) : (s.modRegs f).pending = s.pending := rfl

@[simp] theorem emit_sys (o) (s : State) : (emit o s).sys = s.sys := rfl
@[simp] theorem emit_ext (o) (s : State) : (emit o s).ext = s.ext := rfl
@[simp] theorem emit_tier (o) (s : State) : (emit o s).tier = s.tier := rfl
@[simp] theorem emit_flash (o) (s : State) : (emit o s).flash = s.flash := rfl
@[simp] theorem emit_jrn (o) (s : State) : (emit o s).jrn = s.jrn := rfl
@[simp] theorem emit_home (o) (s : State) : (emit o s).home = s.home := rfl
@[simp] theorem emit_coh (o) (s : State) : (emit o s).coh = s.coh := rfl
@[simp] theorem emit_own (o) (s : State) : (emit o s).own = s.own := rfl
@[simp] theorem emit_nmc (o) (s : State) : (emit o s).nmc = s.nmc := rfl
@[simp] theorem emit_xlt (o) (s : State) : (emit o s).xlt = s.xlt := rfl
@[simp] theorem emit_cdc (o) (s : State) : (emit o s).cdc = s.cdc := rfl
@[simp] theorem emit_emb (o) (s : State) : (emit o s).emb = s.emb := rfl
@[simp] theorem emit_prn (o) (s : State) : (emit o s).prn = s.prn := rfl
@[simp] theorem emit_hp (o) (s : State) : (emit o s).hp = s.hp := rfl
@[simp] theorem emit_fab (o) (s : State) : (emit o s).fab = s.fab := rfl
@[simp] theorem emit_ras (o) (s : State) : (emit o s).ras = s.ras := rfl
@[simp] theorem emit_flt (o) (s : State) : (emit o s).flt = s.flt := rfl
@[simp] theorem emit_cfg (o) (s : State) : (emit o s).cfg = s.cfg := rfl
@[simp] theorem emit_pins (o) (s : State) : (emit o s).pins = s.pins := rfl
@[simp] theorem emit_trl (o) (s : State) : (emit o s).trl = s.trl := rfl
@[simp] theorem emit_tel (o) (s : State) : (emit o s).tel = s.tel := rfl
@[simp] theorem emit_regs (o) (s : State) : (emit o s).regs = s.regs := rfl
@[simp] theorem emit_out (o) (s : State) : (emit o s).out = s.out ++ [o] := rfl
@[simp] theorem emit_free (o) (s : State) : (emit o s).free = s.free := rfl
@[simp] theorem emit_pending (o) (s : State) : (emit o s).pending = s.pending := rfl

@[simp] theorem emitAll_sys (os) (s : State) : (emitAll os s).sys = s.sys := rfl
@[simp] theorem emitAll_ext (os) (s : State) : (emitAll os s).ext = s.ext := rfl
@[simp] theorem emitAll_tier (os) (s : State) : (emitAll os s).tier = s.tier := rfl
@[simp] theorem emitAll_flash (os) (s : State) : (emitAll os s).flash = s.flash := rfl
@[simp] theorem emitAll_jrn (os) (s : State) : (emitAll os s).jrn = s.jrn := rfl
@[simp] theorem emitAll_home (os) (s : State) : (emitAll os s).home = s.home := rfl
@[simp] theorem emitAll_coh (os) (s : State) : (emitAll os s).coh = s.coh := rfl
@[simp] theorem emitAll_own (os) (s : State) : (emitAll os s).own = s.own := rfl
@[simp] theorem emitAll_nmc (os) (s : State) : (emitAll os s).nmc = s.nmc := rfl
@[simp] theorem emitAll_xlt (os) (s : State) : (emitAll os s).xlt = s.xlt := rfl
@[simp] theorem emitAll_cdc (os) (s : State) : (emitAll os s).cdc = s.cdc := rfl
@[simp] theorem emitAll_emb (os) (s : State) : (emitAll os s).emb = s.emb := rfl
@[simp] theorem emitAll_prn (os) (s : State) : (emitAll os s).prn = s.prn := rfl
@[simp] theorem emitAll_hp (os) (s : State) : (emitAll os s).hp = s.hp := rfl
@[simp] theorem emitAll_fab (os) (s : State) : (emitAll os s).fab = s.fab := rfl
@[simp] theorem emitAll_ras (os) (s : State) : (emitAll os s).ras = s.ras := rfl
@[simp] theorem emitAll_flt (os) (s : State) : (emitAll os s).flt = s.flt := rfl
@[simp] theorem emitAll_cfg (os) (s : State) : (emitAll os s).cfg = s.cfg := rfl
@[simp] theorem emitAll_pins (os) (s : State) : (emitAll os s).pins = s.pins := rfl
@[simp] theorem emitAll_trl (os) (s : State) : (emitAll os s).trl = s.trl := rfl
@[simp] theorem emitAll_tel (os) (s : State) : (emitAll os s).tel = s.tel := rfl
@[simp] theorem emitAll_regs (os) (s : State) : (emitAll os s).regs = s.regs := rfl
@[simp] theorem emitAll_out (os) (s : State) : (emitAll os s).out = s.out ++ os := rfl
@[simp] theorem emitAll_free (os) (s : State) : (emitAll os s).free = s.free := rfl
@[simp] theorem emitAll_pending (os) (s : State) : (emitAll os s).pending = s.pending := rfl

@[simp] theorem State.draw_sys (s : State) : s.draw.sys = s.sys := rfl
@[simp] theorem State.draw_ext (s : State) : s.draw.ext = s.ext := rfl
@[simp] theorem State.draw_tier (s : State) : s.draw.tier = s.tier := rfl
@[simp] theorem State.draw_flash (s : State) : s.draw.flash = s.flash := rfl
@[simp] theorem State.draw_jrn (s : State) : s.draw.jrn = s.jrn := rfl
@[simp] theorem State.draw_home (s : State) : s.draw.home = s.home := rfl
@[simp] theorem State.draw_coh (s : State) : s.draw.coh = s.coh := rfl
@[simp] theorem State.draw_own (s : State) : s.draw.own = s.own := rfl
@[simp] theorem State.draw_nmc (s : State) : s.draw.nmc = s.nmc := rfl
@[simp] theorem State.draw_xlt (s : State) : s.draw.xlt = s.xlt := rfl
@[simp] theorem State.draw_cdc (s : State) : s.draw.cdc = s.cdc := rfl
@[simp] theorem State.draw_emb (s : State) : s.draw.emb = s.emb := rfl
@[simp] theorem State.draw_prn (s : State) : s.draw.prn = s.prn := rfl
@[simp] theorem State.draw_hp (s : State) : s.draw.hp = s.hp := rfl
@[simp] theorem State.draw_fab (s : State) : s.draw.fab = s.fab := rfl
@[simp] theorem State.draw_ras (s : State) : s.draw.ras = s.ras := rfl
@[simp] theorem State.draw_flt (s : State) : s.draw.flt = s.flt := rfl
@[simp] theorem State.draw_cfg (s : State) : s.draw.cfg = s.cfg := rfl
@[simp] theorem State.draw_pins (s : State) : s.draw.pins = s.pins := rfl
@[simp] theorem State.draw_trl (s : State) : s.draw.trl = s.trl := rfl
@[simp] theorem State.draw_tel (s : State) : s.draw.tel = s.tel := rfl
@[simp] theorem State.draw_regs (s : State) : s.draw.regs = s.regs := rfl
@[simp] theorem State.draw_out (s : State) : s.draw.out = s.out := rfl
@[simp] theorem State.draw_free (s : State) : s.draw.free = s.free + 1 := rfl
@[simp] theorem State.draw_pending (s : State) : s.draw.pending = s.pending := rfl

@[simp] theorem reach_time (t : Nat) (s : State) : (reach t s).sys.time = Nat.max s.sys.time t := rfl
@[simp] theorem reach_ext (t : Nat) (s : State) : (reach t s).ext = s.ext := rfl
@[simp] theorem reach_tier (t : Nat) (s : State) : (reach t s).tier = s.tier := rfl
@[simp] theorem reach_flash (t : Nat) (s : State) : (reach t s).flash = s.flash := rfl
@[simp] theorem reach_jrn (t : Nat) (s : State) : (reach t s).jrn = s.jrn := rfl
@[simp] theorem reach_home (t : Nat) (s : State) : (reach t s).home = s.home := rfl
@[simp] theorem reach_coh (t : Nat) (s : State) : (reach t s).coh = s.coh := rfl
@[simp] theorem reach_own (t : Nat) (s : State) : (reach t s).own = s.own := rfl
@[simp] theorem reach_nmc (t : Nat) (s : State) : (reach t s).nmc = s.nmc := rfl
@[simp] theorem reach_xlt (t : Nat) (s : State) : (reach t s).xlt = s.xlt := rfl
@[simp] theorem reach_cdc (t : Nat) (s : State) : (reach t s).cdc = s.cdc := rfl
@[simp] theorem reach_emb (t : Nat) (s : State) : (reach t s).emb = s.emb := rfl
@[simp] theorem reach_prn (t : Nat) (s : State) : (reach t s).prn = s.prn := rfl
@[simp] theorem reach_hp (t : Nat) (s : State) : (reach t s).hp = s.hp := rfl
@[simp] theorem reach_fab (t : Nat) (s : State) : (reach t s).fab = s.fab := rfl
@[simp] theorem reach_ras (t : Nat) (s : State) : (reach t s).ras = s.ras := rfl
@[simp] theorem reach_flt (t : Nat) (s : State) : (reach t s).flt = s.flt := rfl
@[simp] theorem reach_cfg (t : Nat) (s : State) : (reach t s).cfg = s.cfg := rfl
@[simp] theorem reach_pins (t : Nat) (s : State) : (reach t s).pins = s.pins := rfl
@[simp] theorem reach_trl (t : Nat) (s : State) : (reach t s).trl = s.trl := rfl
@[simp] theorem reach_tel (t : Nat) (s : State) : (reach t s).tel = s.tel := rfl
@[simp] theorem reach_regs (t : Nat) (s : State) : (reach t s).regs = s.regs := rfl
@[simp] theorem reach_out (t : Nat) (s : State) : (reach t s).out = s.out := rfl
@[simp] theorem reach_free (t : Nat) (s : State) : (reach t s).free = s.free := rfl
@[simp] theorem reach_pending (t : Nat) (s : State) : (reach t s).pending = s.pending := rfl

/-- A command that completes answers its effect, and the waiting commands are those that waited. -/
@[simp] theorem complete_eq (f : State → State) (s : State) : complete f s = .next { f s with pending := s.pending } := rfl

@[simp] theorem withSome_none {α : Type} (f : α → State → State) (s : State) : withSome none f s = s := rfl
@[simp] theorem withSome_some {α : Type} (a : α) (f : α → State → State) (s : State) : withSome (some a) f s = f a s := rfl
@[simp] theorem onlyIf_true (f : State → State) (s : State) : onlyIf true f s = f s := rfl
@[simp] theorem onlyIf_false (f : State → State) (s : State) : onlyIf false f s = s := rfl
@[simp] theorem forAll_nil {α : Type} (f : α → State → State) (s : State) : forAll [] f s = s := rfl
@[simp] theorem forAll_cons {α : Type} (a : α) (l : List α) (f : α → State → State) (s : State) :
    forAll (a :: l) f s = forAll l f (f a s) := rfl

end Sys2Proof.Machine
end

