-- ==== Sys2Proof/Laws/Command.lean ====
section
/-! SUPPORT. What a command register does with a command, and what accepting one leaves as it was (R476, R478, Table 22-4). -/

namespace Sys2Proof.Machine

open Sys2Proof

variable {wr : Writer} {owner : Option Nat} {cs : List WCls} {cmd done : Nat} {run : State → State} {s : State}

/-- A command of an allowed writer runs when no other of its register runs. -/
theorem issue_ready (h : Ready s wr owner cs done) : issue wr owner cs cmd done run s = (none, run (accepted done s)) := by
  simp [issue, accepted, h.1, h.2]

/-- A command of a writer whose class the register does not name is ignored and recorded. -/
theorem issue_denied (h : allowed s wr owner cs = false) : issue wr owner cs cmd done run s = (some .denied, rejected cmd s) := by
  simp [issue, h]

/-- A command written while another runs is refused. -/
theorem issue_busy (h : allowed s wr owner cs = true) (hb : (doneGet s done).busy = true) :
    issue wr owner cs cmd done run s = (some .busy, doneMod done (fun d => { d with refused := true }) s) := by
  simp [issue, h, hb]

@[simp] theorem accepted_sys : (accepted done s).sys = s.sys := rfl
@[simp] theorem accepted_ext : (accepted done s).ext = s.ext := rfl
@[simp] theorem accepted_tier : (accepted done s).tier = s.tier := rfl
@[simp] theorem accepted_flash : (accepted done s).flash = s.flash := rfl
@[simp] theorem accepted_jrn : (accepted done s).jrn = s.jrn := rfl
@[simp] theorem accepted_home : (accepted done s).home = s.home := rfl
@[simp] theorem accepted_coh : (accepted done s).coh = s.coh := rfl
@[simp] theorem accepted_nmc : (accepted done s).nmc = s.nmc := rfl
@[simp] theorem accepted_xlt : (accepted done s).xlt = s.xlt := rfl
@[simp] theorem accepted_emb : (accepted done s).emb = s.emb := rfl
@[simp] theorem accepted_prn : (accepted done s).prn = s.prn := rfl
@[simp] theorem accepted_ras : (accepted done s).ras = s.ras := rfl
@[simp] theorem accepted_flt : (accepted done s).flt = s.flt := rfl
@[simp] theorem accepted_cfg : (accepted done s).cfg = s.cfg := rfl
@[simp] theorem accepted_free : (accepted done s).free = s.free := rfl
@[simp] theorem accepted_out : (accepted done s).out = s.out := rfl
@[simp] theorem accepted_pending : (accepted done s).pending = s.pending := rfl
@[simp] theorem now_accepted : now (accepted done s) = now s := rfl
@[simp] theorem extDesc_accepted (e : Nat) : extDesc (accepted done s) e = extDesc s e := rfl
@[simp] theorem regGet_accepted (off : Nat) : regGet (accepted done s) off = regGet s off := rfl
@[simp] theorem staged_accepted (off : Nat) : staged (accepted done s) wr off = staged s wr off := rfl
@[simp] theorem allowed_accepted : allowed (accepted done s) wr owner cs = allowed s wr owner cs := rfl
@[simp] theorem writerIid_accepted : writerIid (accepted done s) wr = writerIid s wr := rfl
@[simp] theorem servedFdn_accepted : servedFdn (accepted done s) = servedFdn s := rfl

end Sys2Proof.Machine
end

