-- ==== Sys2Proof/Laws/Exec.lean ====
section
/-! SUPPORT. What each command does, as one function of the state: the form in which proofs use it. -/

namespace Sys2Proof.Machine

open Sys2Proof

/-- A command that takes `s` to `t` takes it to whatever equals `t`. -/
theorem Does.eq {c : Instr} {s t u : State} (h : Does c s t) (e : t = u) : Does c s u := e ▸ h

/-- What a command answers, from what it does. -/
theorem Does.next {c : Instr} {s t : State} (h : Does c s t) : exec c s = .next { t with pending := s.pending } := h

theorem does_hostAccess (win : Fin 64) (w : BitVec 42) (a : HostMsg) (s : State) :
    Does (.hostAccess win w a) s ((fun s =>
    let s := hostFlit win a.flit s
    if a.flit.bad then s else enterHost win a.r.tag (some w.toNat) (if a.r.op = 0x01 then .read else .write) a.r s) s) := rfl

theorem does_assign (wr : Writer) (ext : BitVec 18) (s : State) :
    Does (.assign wr ext) s ((extCommand wr fun s => extGo (assignRun wr ext.toNat s)) s) := rfl

theorem does_modify (wr : Writer) (ext : BitVec 18) (s : State) :
    Does (.modify wr ext) s ((extCommand wr fun s => extGo (modifyRun wr ext.toNat s)) s) := rfl

theorem does_region (wr : Writer) (ext : BitVec 18) (first : BitVec 9) (count : BitVec 10) (s : State) :
    Does (.region wr ext first count) s ((extCommand wr fun s => extGo (regionRun wr ext.toNat first.toNat count.toNat s)) s) := rfl

theorem does_revoke (wr : Writer) (ext : BitVec 18) (s : State) :
    Does (.revoke wr ext) s ((extCommand wr (revokeRun ext.toNat)) s) := rfl

theorem does_revokeDrainComplete (s : State) :
    Does .revokeDrainComplete s (extGo s) := rfl

theorem does_revokeDrainBound (s : State) :
    Does .revokeDrainBound s (drainBound s) := rfl

theorem does_restore (wr : Writer) (ext : BitVec 18) (s : State) :
    Does (.restore wr ext) s ((extCommand wr (restoreRun ext.toNat)) s) := rfl

theorem does_extentRelease (wr : Writer) (ext : BitVec 18) (s : State) :
    Does (.extentRelease wr ext) s ((extCommand wr (releaseRun ext.toNat)) s) := rfl

theorem does_flashTrim (mu : Nat) (s : State) :
    Does (.flashTrim mu) s ((fun s => s.modExt fun x => { x with trim := x.trim.filter (· != mu) }) s) := rfl

theorem does_load (r : Req) (s : State) :
    Does (.load r) s ((arrive .load r) s) := rfl

theorem does_store (r : Req) (s : State) :
    Does (.store r) s ((arrive .store r) s) := rfl

theorem does_storePart (r : Req) (s : State) :
    Does (.storePart r) s ((arrive .storePart r) s) := rfl

theorem does_codedWrite (r : Req) (s : State) :
    Does (.codedWrite r) s ((arrive .codedWrite r) s) := rfl

theorem does_atomic (r : Req) (s : State) :
    Does (.atomic r) s ((arrive .atomic r) s) := rfl

theorem does_copy (r : Req) (s : State) :
    Does (.copy r) s ((takeCopy r) s) := rfl

theorem does_copyRegister (owner : BitVec 16) (r : Req) (g : CopyReg) (s : State) :
    Does (.copyRegister owner r g) s ((takeRegistration owner r g.copyId g.withdraw) s) := rfl

theorem does_copyLineAnswer (copyId line : Nat) (side : CopySide) (st : Status) (hint : BitVec 10) (data : List Byte) (s : State) :
    Does (.copyLineAnswer copyId line side st hint data) s ((copyAnswered copyId line side st hint data) s) := rfl

theorem does_copyNyBound (copyId line : Nat) (side : CopySide) (s : State) :
    Does (.copyNyBound copyId line side) s ((copyBound copyId line side) s) := rfl

theorem does_counterAdvance (iid : BitVec 16) (gsa amount : Word) (err : Bool) (s : State) :
    Does (.counterAdvance iid gsa amount err) s ((advance iid none gsa amount.toNat err) s) := rfl

theorem does_counterAdvanceRetry (id : Nat) (s : State) :
    Does (.counterAdvanceRetry id) s ((retryAdvance id) s) := rfl

theorem does_wait (r : Req) (s : State) :
    Does (.wait r) s ((arrive .wait r) s) := rfl

theorem does_barrier (r : Req) (s : State) :
    Does (.barrier r) s ((takeBarrier r) s) := rfl

theorem does_barrierComplete (id : Nat) (s : State) :
    Does (.barrierComplete id) s ((barrierStep id) s) := rfl

theorem does_acquire (r : Req) (s : State) :
    Does (.acquire r) s ((arrive .acquire r) s) := rfl

theorem does_release (r : Req) (s : State) :
    Does (.release r) s ((arrive .release r) s) := rfl

theorem does_publish (r : Req) (s : State) :
    Does (.publish r) s ((arrive .publish r) s) := rfl

theorem does_readVersion (r : Req) (s : State) :
    Does (.readVersion r) s ((arrive .readVersion r) s) := rfl

theorem does_ownershipCommit (base : Nat) (s : State) :
    Does (.ownershipCommit base) s ((enterOwn base) s) := rfl

theorem does_control (r : Req) (vc5 : Bool) (s : State) :
    Does (.control r vc5) s ((control r vc5) s) := rfl

theorem does_responseDeadline (n : Nat) (s : State) :
    Does (.responseDeadline n) s ((deadlineOf n) s) := rfl

theorem does_answerArrival (a : Answer) (s : State) :
    Does (.answerArrival a) s ((takeAnswer a) s) := rfl

theorem does_trackerTimeout (iid tag : BitVec 16) (s : State) :
    Does (.trackerTimeout iid tag) s ((trackLate iid tag) s) := rfl

theorem does_bucketPay (b : Fin 256) (s : State) :
    Does (.bucketPay b) s ((payBucket b) s) := rfl

theorem does_bucketAdapt (uses : List (Nat × Nat)) (s : State) :
    Does (.bucketAdapt uses) s ((adaptBuckets (contended uses)) s) := rfl

theorem does_fillComplete (frame : Nat) (res : MediaRead) (s : State) :
    Does (.fillComplete frame res) s ((fillDone frame res) s) := rfl

theorem does_mergeFillComplete (frame : Nat) (res : MediaRead) (s : State) :
    Does (.mergeFillComplete frame res) s ((mergeDone frame res) s) := rfl

theorem does_writebackComplete (mu : Nat) (res : MediaRead) (s : State) :
    Does (.writebackComplete mu res) s ((wbProgrammed mu res) s) := rfl

theorem does_backgroundCleaning (set : Nat) (s : State) :
    Does (.backgroundCleaning set) s ((fun s => if bandwidthTaken s 4 then s else cleanSet set 2 s) s) := rfl

theorem does_garbageCollection (die : BitVec 10) (s : State) :
    Does (.garbageCollection die) s ((collectDie die.toNat) s) := rfl

theorem does_wearLevelling (die : BitVec 10) (s : State) :
    Does (.wearLevelling die) s ((levelDie die.toNat) s) := rfl

theorem does_tierDecay (s : State) :
    Does .tierDecay s (decay s) := rfl

theorem does_pinHbmPrefetch (frame : Nat) (s : State) :
    Does (.pinHbmPrefetch frame) s ((prefetchPin frame) s) := rfl

theorem does_stripeMemberReceive (home : BitVec 16) (stripe : BitVec 42) (member : Fin 10) (mu : BitVec 32) (data : List Byte) (s : State) :
    Does (.stripeMemberReceive home stripe member mu data) s ((takeMember home stripe.toNat member mu.toNat data) s) := rfl

theorem does_hbmUncorrectable (e : HbmErr) (s : State) :
    Does (.hbmUncorrectable e) s ((fun s => pump (hbmError e.line e.corrected s)) s) := rfl

theorem does_segmentProgramStart (seg : Nat) (s : State) :
    Does (.segmentProgramStart seg) s ((startSegment seg) s) := rfl

theorem does_segmentProgramComplete (seg : Nat) (s : State) :
    Does (.segmentProgramComplete seg) s ((segmentDone seg) s) := rfl

theorem does_compostPass (s : State) :
    Does .compostPass s (compost s) := rfl

theorem does_mirrorReceive (home : BitVec 16) (j : JRec) (s : State) :
    Does (.mirrorReceive home j) s ((takeMirror home j) s) := rfl

theorem does_mirrorConfirm (buddy : BitVec 16) (jsn : Nat) (st : Status) (s : State) :
    Does (.mirrorConfirm buddy jsn st) s ((takeConfirm buddy jsn st) s) := rfl

theorem does_pairLate (jsn : Nat) (s : State) :
    Does (.pairLate jsn) s ((pairLate jsn) s) := rfl

theorem does_mirrorResend (jsn : Nat) (s : State) :
    Does (.mirrorResend jsn) s ((resendMirror jsn) s) := rfl

theorem does_mirrorReleaseSend (buddy : BitVec 16) (s : State) :
    Does (.mirrorReleaseSend buddy) s ((sendRelease buddy) s) := rfl

theorem does_mirrorRelease (home : BitVec 16) (jsn : Nat) (s : State) :
    Does (.mirrorRelease home jsn) s ((takeRelease home jsn) s) := rfl

theorem does_buddyCopyReceive (home : BitVec 16) (mu : BitVec 32) (data : List Byte) (s : State) :
    Does (.buddyCopyReceive home mu data) s ((takeCopyUnit home mu.toNat data) s) := rfl

theorem does_buddyCopyTimeout (mu : Nat) (s : State) :
    Does (.buddyCopyTimeout mu) s ((copyUnitTimeout mu) s) := rfl

theorem does_keyRecordReceive (home : BitVec 16) (ext : BitVec 18) (key : Nat) (s : State) :
    Does (.keyRecordReceive home ext key) s ((takeKey home ext.toNat key) s) := rfl

theorem does_pwrfailFall (s : State) :
    Does .pwrfailFall s ((fun s =>
    if s.sys.pwrfail = .low then s
    else (levelChange .low s).modSys fun y => { y with fallAt := some y.time }) s) := rfl

theorem does_pwrfailConfirm (s : State) :
    Does .pwrfailConfirm s (confirmFall s) := rfl

theorem does_flushComplete (s : State) :
    Does .flushComplete s (flushDone s) := rfl

theorem does_groupProgramComplete (s : State) :
    Does .groupProgramComplete s (groupDone s) := rfl

theorem does_tentativeVoid (jsn : Nat) (s : State) :
    Does (.tentativeVoid jsn) s ((voidRecord jsn) s) := rfl

theorem does_mirrorFetch (home : BitVec 16) (lo hi : Nat) (s : State) :
    Does (.mirrorFetch home lo hi) s ((answerFetch home lo hi) s) := rfl

theorem does_mirrorFetchEnd (buddy : BitVec 16) (recs : List JRec) (s : State) :
    Does (.mirrorFetchEnd buddy recs) s ((fetchEnded buddy recs) s) := rfl

theorem does_mirrorFetchTimeout (buddy : BitVec 16) (s : State) :
    Does (.mirrorFetchTimeout buddy) s ((fetchLost buddy) s) := rfl

theorem does_jrnLossQuery (wr : Writer) (v : Word) (s : State) :
    Does (.jrnLossQuery wr v) s ((lossQuery wr v) s) := rfl

theorem does_rdS (m : CohMsg) (s : State) :
    Does (.rdS m) s ((cohArrive .rdS m) s) := rfl

theorem does_rdE (m : CohMsg) (s : State) :
    Does (.rdE m) s ((cohArrive .rdE m) s) := rfl

theorem does_upg (m : CohMsg) (s : State) :
    Does (.upg m) s ((cohArrive .upg m) s) := rfl

theorem does_wbD (m : CohMsg) (s : State) :
    Does (.wbD m) s ((takeWbD m) s) := rfl

theorem does_evictC (m : CohMsg) (s : State) :
    Does (.evictC m) s ((takeEvict m) s) := rfl

theorem does_rspI (m : CohMsg) (s : State) :
    Does (.rspI m) s ((takeSnoopRsp 0x30 .i false m) s) := rfl

theorem does_rspS (m : CohMsg) (s : State) :
    Does (.rspS m) s ((takeSnoopRsp 0x31 .s false m) s) := rfl

theorem does_rspE (m : CohMsg) (s : State) :
    Does (.rspE m) s ((takeSnoopRsp 0x32 .e false m) s) := rfl

theorem does_rspID (m : CohMsg) (s : State) :
    Does (.rspID m) s ((takeSnoopRsp 0x33 .i true m) s) := rfl

theorem does_rspSD (m : CohMsg) (s : State) :
    Does (.rspSD m) s ((takeSnoopRsp 0x34 .s true m) s) := rfl

theorem does_rspED (m : CohMsg) (s : State) :
    Does (.rspED m) s ((takeSnoopRsp 0x35 .e true m) s) := rfl

theorem does_fenceAck (m : CohMsg) (s : State) :
    Does (.fenceAck m) s ((takeFenceAck m) s) := rfl

theorem does_resetAck (m : CohMsg) (s : State) :
    Does (.resetAck m) s ((takeResetAck m) s) := rfl

theorem does_snpInv (win : Fin 64) (line : BitVec 57) (tag : BitVec 16) (s : State) :
    Does (.snpInv win line tag) s ((snooped .inv win line.toNat tag) s) := rfl

theorem does_snpData (win : Fin 64) (line : BitVec 57) (tag : BitVec 16) (s : State) :
    Does (.snpData win line tag) s ((snooped .data win line.toNat tag) s) := rfl

theorem does_snpCur (win : Fin 64) (line : BitVec 57) (tag : BitVec 16) (s : State) :
    Does (.snpCur win line tag) s ((snooped .cur win line.toNat tag) s) := rfl

theorem does_gntS (win : Fin 64) (line : BitVec 57) (tag : BitVec 16) (data : Line) (s : State) :
    Does (.gntS win line tag data) s ((granted false win line.toNat tag data) s) := rfl

theorem does_gntE (win : Fin 64) (line : BitVec 57) (tag : BitVec 16) (data : Line) (s : State) :
    Does (.gntE win line tag data) s ((granted true win line.toNat tag data) s) := rfl

theorem does_gntEND (win : Fin 64) (line : BitVec 57) (tag : BitVec 16) (s : State) :
    Does (.gntEND win line tag) s ((fun s =>
    match cohOpen s win line.toNat tag, entryAt s win line.toNat with
    | some q, some e => if q.op = .cohS ∨ e.excl then agentZ win s else hostPump (serveHit q { e with excl := true } s)
    | _, _ => agentZ win s) s) := rfl

theorem does_cmpWb (win : Fin 64) (line : BitVec 57) (_tag : BitVec 16) (_st : Status) (s : State) :
    Does (.cmpWb win line _tag _st) s ((fun s =>
    match entryAt s win line.toNat with
    | some e => if e.writing then hostPump (dropEnt e s) else agentZ win s
    | none => agentZ win s) s) := rfl

theorem does_nack (win : Fin 64) (line : BitVec 57) (tag : BitVec 16) (st : Status) (hint : BitVec 10) (s : State) :
    Does (.nack win line tag st hint) s ((fun s =>
    match cohOpen s win line.toNat tag with
    | none => agentZ win s
    | some q =>
      if st = .ny then setReq { q with sent := none, hint := hint, retryAt := some (now s + 250 * hint.toNat) } s
      else hostPump (refuseHost q st s)) s) := rfl

theorem does_stakeWindowClose (line : Nat) (s : State) :
    Does (.stakeWindowClose line) s ((closeStake line) s) := rfl

theorem does_reservationExpire (line : Nat) (s : State) :
    Does (.reservationExpire line) s ((expireReservation line) s) := rfl

theorem does_snoopTimeout (line : Nat) (slot : Fin 64) (s : State) :
    Does (.snoopTimeout line slot) s ((snoopUnanswered line slot) s) := rfl

theorem does_lostAgentSweepEnd (slot : Fin 64) (s : State) :
    Does (.lostAgentSweepEnd slot) s ((endSweep slot) s) := rfl

theorem does_modeFenceTimeout (s : State) :
    Does .modeFenceTimeout s (fenceTimeout s) := rfl

theorem does_placeholderExpire (line : Nat) (slot : Fin 64) (s : State) :
    Does (.placeholderExpire line slot) s ((expirePlaceholder line slot) s) := rfl

theorem does_resumeWindowEnd (s : State) :
    Does .resumeWindowEnd s (endResume s) := rfl

theorem does_rebuildTimeout (s : State) :
    Does .rebuildTimeout s (endRebuild s) := rfl

theorem does_dirEntryRepair (line : Nat) (s : State) :
    Does (.dirEntryRepair line) s ((repairEntry line) s) := rfl

theorem does_nmcSqDb (wr : Writer) (pair : Fin 256) (v : Word) (s : State) :
    Does (.nmcSqDb wr pair v) s ((fun s => (sqDoorbell wr pair.val v s).2) s) := rfl

theorem does_jobDispatch (pair : Fin 256) (s : State) :
    Does (.jobDispatch pair) s ((dispatchPair pair.val) s) := rfl

theorem does_run (core : Fin 16) (ctx : Fin 8) (s : State) :
    Does (.run core ctx) s ((fun s => match jobAt s (jobKey core ctx) with
    | some j => if j.phase = .loading ∧ j.kind = 1 then loadGraph core ctx s else s
    | none => s) s) := rfl

theorem does_resume (core : Fin 16) (ctx : Fin 8) (s : State) :
    Does (.resume core ctx) s ((resumeStep core ctx) s) := rfl

theorem does_suspend (pair : Fin 256) (s : State) :
    Does (.suspend pair) s ((fun s => queueReq34 3 0x1100 pair.val actSuspend (retrySuspend pair.val s)) s) := rfl

theorem does_suspendBodyWritten (core : Fin 16) (ctx : Fin 8) (s : State) :
    Does (.suspendBodyWritten core ctx) s ((suspendWrite core ctx) s) := rfl

theorem does_cancel (pair : Fin 256) (s : State) :
    Does (.cancel pair) s ((queueReq34 4 0x1200 pair.val fun q s => (true, actCancel q s)) s) := rfl

theorem does_jobForward (origin : BitVec 16) (pair : BitVec 8) (iid : BitVec 16) (desc : List Word) (s : State) :
    Does (.jobForward origin pair iid desc) s ((takeForwarded { origin := some origin, pair := pair.toNat, iid := iid, desc := desc }) s) := rfl

theorem does_contextSwitch (core : Fin 16) (ctx : Fin 8) (s : State) :
    Does (.contextSwitch core ctx) s ((switchTo core ctx) s) := rfl

theorem does_tileVisible (core : Fin 16) (ctx : Fin 8) (slot : BitVec 11) (s : State) :
    Does (.tileVisible core ctx slot) s ((showTile core ctx slot.toNat) s) := rfl

theorem does_tileConsumed (core : Fin 16) (ctx : Fin 8) (stream : Fin 64) (s : State) :
    Does (.tileConsumed core ctx stream) s ((endTile core ctx stream.val) s) := rfl

theorem does_jobRestart (core : Fin 16) (ctx : Fin 8) (cause : JobFault) (s : State) :
    Does (.jobRestart core ctx cause) s ((match cause with
    | .uncorrectable => restartJob core ctx 1 .internal 0
    | .abandoned => restartJob core ctx 2 .abandoned 0
    | .deviceLost => restartJob core ctx 2 .deviceLost 0
    | .graft => restartJob core ctx 3 .internal 0) s) := rfl

theorem does_jobNoProgress (core : Fin 16) (ctx : Fin 8) (s : State) :
    Does (.jobNoProgress core ctx) s ((noProgress core ctx) s) := rfl

theorem does_jobTimeLimit (core : Fin 16) (ctx : Fin 8) (s : State) :
    Does (.jobTimeLimit core ctx) s ((timeLimit core ctx) s) := rfl

theorem does_jobCommitComplete (core : Fin 16) (ctx : Fin 8) (s : State) :
    Does (.jobCommitComplete core ctx) s ((fun s => pump (commitTry core ctx s)) s) := rfl

theorem does_cqRecordWrite (x : CqStep) (s : State) :
    Does (.cqRecordWrite x) s ((match x.ev with
    | .write => writeRecord x.pair.val
    | .arrived f ws => recordCame x.pair.val f ws
    | .taken f tag => recordTaken x.pair.val f tag) s) := rfl

theorem does_nmcRsInstall (wr : Writer) (version : BitVec 32) (data : Option (List Byte)) (s : State) :
    Does (.nmcRsInstall wr version data) s ((fun s => (issue wr none [.f] (Off.nmc + 0x10110) rsDone (rsInstall wr version data) s).2) s) := rfl

theorem does_nmcRsRetire (wr : Writer) (version : BitVec 32) (s : State) :
    Does (.nmcRsRetire wr version) s ((fun s => (issue wr none [.f] (Off.nmc + 0x10118) rsDone (rsRetire version) s).2) s) := rfl

theorem does_rsRetireBound (s : State) :
    Does .rsRetireBound s (rsBoundEnd s) := rfl

theorem does_graft (wr : Writer) (core : Fin 16) (s : State) :
    Does (.graft wr core) s ((fun s => (issue wr none [.f] (Off.nmc + 0x10010) (Off.nmc + 0x10018) (graftCmd core) s).2) s) := rfl

theorem does_dibberInstruction (core : Fin 16) (ctx : Fin 8) (rt : Option (BitVec 32)) (s : State) :
    Does (.dibberInstruction core ctx rt) s ((match rt with | none => userStep core ctx | some w => rtStep core ctx w) s) := rfl

theorem does_nmcCmdPush (core : Fin 16) (ctx : Fin 8) (rd : Fin 32) (v : Word) (s : State) :
    Does (.nmcCmdPush core ctx rd v) s ((userCsr core ctx 0x800 rd.val v) s) := rfl

theorem does_nmcCommit (core : Fin 16) (ctx : Fin 8) (rd : Fin 32) (v : Word) (s : State) :
    Does (.nmcCommit core ctx rd v) s ((userCsr core ctx 0x801 rd.val v) s) := rfl

theorem does_nmcFewer (core : Fin 16) (ctx : Fin 8) (rd : Fin 32) (v : Word) (s : State) :
    Does (.nmcFewer core ctx rd v) s ((userCsr core ctx 0x802 rd.val v) s) := rfl

theorem does_nmcArithStatus (core : Fin 16) (ctx : Fin 8) (rd : Fin 32) (v : Word) (s : State) :
    Does (.nmcArithStatus core ctx rd v) s ((userCsr core ctx 0x803 rd.val v) s) := rfl

theorem does_nmcTileTake (core : Fin 16) (ctx : Fin 8) (rd : Fin 32) (v : Word) (s : State) :
    Does (.nmcTileTake core ctx rd v) s ((userCsr core ctx 0x804 rd.val v) s) := rfl

theorem does_nmcTileFree (core : Fin 16) (ctx : Fin 8) (rd : Fin 32) (v : Word) (s : State) :
    Does (.nmcTileFree core ctx rd v) s ((userCsr core ctx 0x805 rd.val v) s) := rfl

theorem does_nmcTileAlloc (core : Fin 16) (ctx : Fin 8) (rd : Fin 32) (v : Word) (s : State) :
    Does (.nmcTileAlloc core ctx rd v) s ((userCsr core ctx 0x806 rd.val v) s) := rfl

theorem does_nmcTileEmit (core : Fin 16) (ctx : Fin 8) (rd : Fin 32) (v : Word) (s : State) :
    Does (.nmcTileEmit core ctx rd v) s ((userCsr core ctx 0x807 rd.val v) s) := rfl

theorem does_read (core : Fin 16) (ctx : Fin 8) (s : State) :
    Does (.read core ctx) s ((spadeRead core ctx) s) := rfl

theorem does_readRows (core : Fin 16) (ctx : Fin 8) (s : State) :
    Does (.readRows core ctx) s ((spadeRows core ctx) s) := rfl

theorem does_stage (core : Fin 16) (ctx : Fin 8) (s : State) :
    Does (.stage core ctx) s ((barrowStage core ctx) s) := rfl

theorem does_zero (core : Fin 16) (ctx : Fin 8) (s : State) :
    Does (.zero core ctx) s ((runStep core ctx (emitStep 3 1 fun c b => some ([], 0, b.setAcc c.set_ (zeroSet (c.mode.getLsbD 0))))) s) := rfl

theorem does_mma (core : Fin 16) (ctx : Fin 8) (s : State) :
    Does (.mma core ctx) s ((runStep core ctx (tileStep 3 2 mmaTile fun _ _ => [])) s) := rfl

theorem does_emit (core : Fin 16) (ctx : Fin 8) (s : State) :
    Does (.emit core ctx) s ((runStep core ctx (emitStep 3 3 fun c b =>
    let a := b.accSet c.set_
    let l := (List.range 1024).map fun i => emitNum c a.isInt (a.at_ i)
    (cvtTile (c.mode.toNat % 256) (c.mode.getLsbD 8) 32 32 l 0 0).map fun (t, fl) =>
      ([t], fl, if c.mode.getLsbD 9 then b.setAcc c.set_ (zeroSet a.isInt) else b))) s) := rfl

theorem does_tillerLoad (core : Fin 16) (ctx : Fin 8) (s : State) :
    Does (.tillerLoad core ctx) s ((runStep core ctx (tileStep 3 4 loadTile fun _ _ => [])) s) := rfl

theorem does_dtab (core : Fin 16) (ctx : Fin 8) (s : State) :
    Does (.dtab core ctx) s ((runStep core ctx (wholeStep 5 dtabTables)) s) := rfl

theorem does_lutmv (core : Fin 16) (ctx : Fin 8) (s : State) :
    Does (.lutmv core ctx) s ((runStep core ctx (wholeStep 6 lutmvTables)) s) := rfl

theorem does_add (core : Fin 16) (ctx : Fin 8) (s : State) :
    Does (.add core ctx) s ((rake 0x01 core ctx (fOp laneAdd)) s) := rfl

theorem does_sub (core : Fin 16) (ctx : Fin 8) (s : State) :
    Does (.sub core ctx) s ((rake 0x02 core ctx (fOp laneSub)) s) := rfl

theorem does_mul (core : Fin 16) (ctx : Fin 8) (s : State) :
    Does (.mul core ctx) s ((rake 0x03 core ctx (fOp laneMul)) s) := rfl

theorem does_fma (core : Fin 16) (ctx : Fin 8) (s : State) :
    Does (.fma core ctx) s ((rake 0x04 core ctx (elementwise false false fun c x y => laneFma (c.b.setWidth 32) x y)) s) := rfl

theorem does_min (core : Fin 16) (ctx : Fin 8) (s : State) :
    Does (.min core ctx) s ((rake 0x05 core ctx (fOp laneMin)) s) := rfl

theorem does_max (core : Fin 16) (ctx : Fin 8) (s : State) :
    Does (.max core ctx) s ((rake 0x06 core ctx (fOp laneMax)) s) := rfl

theorem does_abs (core : Fin 16) (ctx : Fin 8) (s : State) :
    Does (.abs core ctx) s ((rake 0x07 core ctx (fOp1 laneAbs)) s) := rfl

theorem does_neg (core : Fin 16) (ctx : Fin 8) (s : State) :
    Does (.neg core ctx) s ((rake 0x08 core ctx (fOp1 laneNeg)) s) := rfl

theorem does_cmp (core : Fin 16) (ctx : Fin 8) (s : State) :
    Does (.cmp core ctx) s ((rake 0x09 core ctx (elementwise false true fun c x y => laneCmp (c.mode.toNat % 8) x y)) s) := rfl

theorem does_sel (core : Fin 16) (ctx : Fin 8) (s : State) :
    Does (.sel core ctx) s ((rake 0x0A core ctx selTile) s) := rfl

theorem does_exp (core : Fin 16) (ctx : Fin 8) (s : State) :
    Does (.exp core ctx) s ((rake 0x10 core ctx (fOp1 laneExp)) s) := rfl

theorem does_exp2 (core : Fin 16) (ctx : Fin 8) (s : State) :
    Does (.exp2 core ctx) s ((rake 0x11 core ctx (fOp1 laneExp2)) s) := rfl

theorem does_log (core : Fin 16) (ctx : Fin 8) (s : State) :
    Does (.log core ctx) s ((rake 0x12 core ctx (fOp1 (laneLog 2))) s) := rfl

theorem does_log2 (core : Fin 16) (ctx : Fin 8) (s : State) :
    Does (.log2 core ctx) s ((rake 0x13 core ctx (fOp1 (laneLog 3))) s) := rfl

theorem does_rsqrt (core : Fin 16) (ctx : Fin 8) (s : State) :
    Does (.rsqrt core ctx) s ((rake 0x14 core ctx (fOp1 laneRsqrt)) s) := rfl

theorem does_recip (core : Fin 16) (ctx : Fin 8) (s : State) :
    Does (.recip core ctx) s ((rake 0x15 core ctx (fOp1 laneRecip)) s) := rfl

theorem does_sqrt (core : Fin 16) (ctx : Fin 8) (s : State) :
    Does (.sqrt core ctx) s ((rake 0x16 core ctx (fOp1 laneSqrt)) s) := rfl

theorem does_div (core : Fin 16) (ctx : Fin 8) (s : State) :
    Does (.div core ctx) s ((rake 0x17 core ctx (fOp laneDiv)) s) := rfl

theorem does_tanh (core : Fin 16) (ctx : Fin 8) (s : State) :
    Does (.tanh core ctx) s ((rake 0x18 core ctx (fOp1 laneTanh)) s) := rfl

theorem does_rowSum (core : Fin 16) (ctx : Fin 8) (s : State) :
    Does (.rowSum core ctx) s ((runStep core ctx rowSumStep) s) := rfl

theorem does_rowMax (core : Fin 16) (ctx : Fin 8) (s : State) :
    Does (.rowMax core ctx) s ((rake 0x21 core ctx maxTile) s) := rfl

theorem does_softmax (core : Fin 16) (ctx : Fin 8) (s : State) :
    Does (.softmax core ctx) s ((rake 0x22 core ctx softTile) s) := rfl

theorem does_topk (core : Fin 16) (ctx : Fin 8) (s : State) :
    Does (.topk core ctx) s ((runStep core ctx (tileStep 4 0x28 topTile topEnd)) s) := rfl

theorem does_cvt (core : Fin 16) (ctx : Fin 8) (s : State) :
    Does (.cvt core ctx) s ((rake 0x30 core ctx cvtStep) s) := rfl

theorem does_iadd (core : Fin 16) (ctx : Fin 8) (s : State) :
    Does (.iadd core ctx) s ((rake 0x31 core ctx (iOp fun _ x y => (x + y, 0))) s) := rfl

theorem does_isub (core : Fin 16) (ctx : Fin 8) (s : State) :
    Does (.isub core ctx) s ((rake 0x32 core ctx (iOp fun _ x y => (x - y, 0))) s) := rfl

theorem does_imul (core : Fin 16) (ctx : Fin 8) (s : State) :
    Does (.imul core ctx) s ((rake 0x33 core ctx (iOp fun _ x y => (x * y, 0))) s) := rfl

theorem does_logic (core : Fin 16) (ctx : Fin 8) (s : State) :
    Does (.logic core ctx) s ((rake 0x34 core ctx (iOp fun c x y => laneLogic (c.mode.toNat % 4) x y)) s) := rfl

theorem does_shift (core : Fin 16) (ctx : Fin 8) (s : State) :
    Does (.shift core ctx) s ((rake 0x35 core ctx (iOp fun c x y => laneShift (c.mode.toNat % 4) x y)) s) := rfl

theorem does_isat (core : Fin 16) (ctx : Fin 8) (s : State) :
    Does (.isat core ctx) s ((rake 0x36 core ctx (iOp fun c x y => laneIsat (c.mode.getLsbD 0) x y)) s) := rfl

theorem does_loadcb (core : Fin 16) (ctx : Fin 8) (s : State) :
    Does (.loadcb core ctx) s ((fun s => sieve 1 core ctx (loadcbTile (pagesElse s core ctx)) (fun _ _ => []) s) s) := rfl

theorem does_decode (core : Fin 16) (ctx : Fin 8) (s : State) :
    Does (.decode core ctx) s ((sieve 2 core ctx decodeTile fun _ _ => []) s) := rfl

theorem does_encode (core : Fin 16) (ctx : Fin 8) (s : State) :
    Does (.encode core ctx) s ((sieve 3 core ctx encodeTile fun _ _ => []) s) := rfl

theorem does_lookup (core : Fin 16) (ctx : Fin 8) (s : State) :
    Does (.lookup core ctx) s ((sieve 4 core ctx lookupTile fun _ _ => []) s) := rfl

theorem does_lutacc (core : Fin 16) (ctx : Fin 8) (s : State) :
    Does (.lutacc core ctx) s ((sieve 5 core ctx lutaccTile lutaccEnd) s) := rfl

theorem does_adc (core : Fin 16) (ctx : Fin 8) (s : State) :
    Does (.adc core ctx) s ((sieve 6 core ctx adcTile fun _ _ => []) s) := rfl

theorem does_filter (core : Fin 16) (ctx : Fin 8) (s : State) :
    Does (.filter core ctx) s ((sieve 7 core ctx filterTile fun _ _ => []) s) := rfl

theorem does_portGlean (core : Fin 16) (ctx : Fin 8) (s : State) :
    Does (.portGlean core ctx) s ((portStep 1 core ctx (gleanSend core ctx)) s) := rfl

theorem does_portSow (core : Fin 16) (ctx : Fin 8) (s : State) :
    Does (.portSow core ctx) s ((portStep 2 core ctx (sowSend core ctx)) s) := rfl

theorem does_portPrune (core : Fin 16) (ctx : Fin 8) (s : State) :
    Does (.portPrune core ctx) s ((portStep 3 core ctx (prnSend core ctx)) s) := rfl

theorem does_gather (inst : Fin 4) (s : State) :
    Does (.gather inst) s ((gleanStep 1 inst) s) := rfl

theorem does_bag (inst : Fin 4) (s : State) :
    Does (.bag inst) s ((gleanStep 2 inst) s) := rfl

theorem does_sowAdd (inst : Fin 4) (s : State) :
    Does (.sowAdd inst) s ((sowStep inst) s) := rfl

theorem does_harvest (inst : Fin 4) (s : State) :
    Does (.harvest inst) s ((harvestStep inst) s) := rfl

theorem does_tableCreate (wr : Writer) (handle : BitVec 12) (s : State) :
    Does (.tableCreate wr handle) s ((tablePut wr false handle.toNat) s) := rfl

theorem does_tableReplace (wr : Writer) (handle : BitVec 12) (s : State) :
    Does (.tableReplace wr handle) s ((tablePut wr true handle.toNat) s) := rfl

theorem does_tableDelete (wr : Writer) (handle : BitVec 12) (s : State) :
    Does (.tableDelete wr handle) s ((tableGone wr handle.toNat) s) := rfl

theorem does_groupSet (wr : Writer) (group : BitVec 32) (s : State) :
    Does (.groupSet wr group) s ((groupCmd wr true group.toNat) s) := rfl

theorem does_groupClear (wr : Writer) (group : BitVec 32) (s : State) :
    Does (.groupClear wr group) s ((groupCmd wr false group.toNat) s) := rfl

theorem does_cuttingRequest (holder : BitVec 16) (handle : BitVec 12) (row : BitVec 40) (s : State) :
    Does (.cuttingRequest holder handle row) s ((cutAsked holder handle.toNat row.toNat) s) := rfl

theorem does_cutDrop (home : BitVec 16) (handle : BitVec 12) (row : BitVec 40) (s : State) :
    Does (.cutDrop home handle row) s ((cutDropped home handle.toNat row.toNat) s) := rfl

theorem does_cuttingLeaseEnd (handle : BitVec 12) (row : BitVec 40) (hot : Bool) (s : State) :
    Does (.cuttingLeaseEnd handle row hot) s ((leaseEnd handle.toNat row.toNat hot) s) := rfl

theorem does_shardLoadInterval (s : State) :
    Does .shardLoadInterval s (loadInterval s) := rfl

theorem does_indexCreate (wr : Writer) (handle : BitVec 10) (s : State) :
    Does (.indexCreate wr handle) s ((createIndex wr handle.toNat) s) := rfl

theorem does_indexDestroy (wr : Writer) (handle : BitVec 10) (s : State) :
    Does (.indexDestroy wr handle) s ((onIndex wr handle.toNat .busy fun x s =>
    cmdDone idxDone .ok 0 ((editHdr x id s).2.modPrn fun p => { p with idx := p.idx.filter (· != x) })) s) := rfl

theorem does_pin (wr : Writer) (handle : BitVec 10) (s : State) :
    Does (.pin wr handle) s ((onIndex wr handle.toNat .noExtent pinGen) s) := rfl

theorem does_unpin (wr : Writer) (handle : BitVec 10) (s : State) :
    Does (.unpin wr handle) s ((onIndex wr handle.toNat .noExtent (unpinGen ((staged s wr Off.prn).setWidth 32))) s) := rfl

theorem does_search (inst : Fin 4) (s : State) :
    Does (.search inst) s ((searchStep 1 inst) s) := rfl

theorem does_scan (inst : Fin 4) (s : State) :
    Does (.scan inst) s ((searchStep 2 inst) s) := rfl

theorem does_insert (inst : Fin 4) (s : State) :
    Does (.insert inst) s ((stagePrn 3 inst) s) := rfl

theorem does_delete (inst : Fin 4) (s : State) :
    Does (.delete inst) s ((stagePrn 4 inst) s) := rfl

theorem does_entry (inst : Fin 4) (s : State) :
    Does (.entry inst) s ((stagePrn 5 inst) s) := rfl

theorem does_indexCommitWaitBound (core : Fin 16) (ctx : Fin 8) (s : State) :
    Does (.indexCommitWaitBound core ctx) s ((indexBound core ctx) s) := rfl

theorem does_indexRestamp (handle : BitVec 10) (item : BitVec 32) (s : State) :
    Does (.indexRestamp handle item) s ((restampItem handle.toNat item.toNat) s) := rfl

theorem does_bind (wr : Writer) (asid : BitVec 16) (s : State) :
    Does (.bind wr asid) s ((fun s => (issue wr none asidCls asidCmd asidDone (bindAsid wr asid) s).2) s) := rfl

theorem does_unbind (wr : Writer) (asid : BitVec 16) (s : State) :
    Does (.unbind wr asid) s ((fun s => (issue wr none asidCls asidCmd asidDone (unbindAsid wr asid) s).2) s) := rfl

theorem does_xltFaultResp (wr : Writer) (v : Word) (s : State) :
    Does (.xltFaultResp wr v) s ((fun s => (faultReply wr v s).2) s) := rfl

theorem does_faultTimeout (id : BitVec 32) (s : State) :
    Does (.faultTimeout id) s ((faultLate id) s) := rfl

theorem does_invRange (wr : Writer) (s : State) :
    Does (.invRange wr) s ((fun s => (invStart wr 1 s).2) s) := rfl

theorem does_invAsid (wr : Writer) (s : State) :
    Does (.invAsid wr) s ((fun s => (invStart wr 2 s).2) s) := rfl

theorem does_invComplete (num : BitVec 16) (s : State) :
    Does (.invComplete num) s ((invComplete num) s) := rfl

theorem does_invDrainBound (num : BitVec 16) (s : State) :
    Does (.invDrainBound num) s ((invBound num) s) := rfl

theorem does_hostReadTimeout (port : Fin 4) (addr : BitVec 52) (s : State) :
    Does (.hostReadTimeout port addr) s ((hostLate port addr) s) := rfl

theorem does_rdcurrAnswer (port : Fin 4) (addr : BitVec 52) (poison : Bool) (data : BitVec 512) (s : State) :
    Does (.rdcurrAnswer port addr poison data) s ((rdAnswered port addr poison data) s) := rfl

theorem does_hotPageDecay (s : State) :
    Does .hotPageDecay s ((fun s =>
    (elapsed .hotDecay ((regGet s (Off.xlt + 0x330)).toNat * 1000000) s).modXlt fun x => { x with
      hot := x.hot.map fun e => (e.1, e.2 / 2), hotPosted := [] }) s) := rfl

theorem does_memrd (win : Fin 64) (addr : Word) (mf : CxlMeta) (tag : BitVec 16) (s : State) :
    Does (.memrd win addr mf tag) s ((fun s => memAccess win addr tag (match mf with | .noOp | .i => .read | .s => .cohS | .a => .cohA) loadReq s) s) := rfl

theorem does_memwr (win : Fin 64) (addr : Word) (mf : CxlMeta) (tag : BitVec 16) (poison : Bool) (data : BitVec 512) (s : State) :
    Does (.memwr win addr mf tag poison data) s ((fun s =>
    let plain (s : State) : State :=
      memAccess win addr tag .write (partReq (hostHalf s win addr) (BitVec.allOnes 64) data poison) s
    let s := hpBytes win false s
    if mf = .i then
      match (hdmOffset s win.val addr.toNat).bind (slotGsa s win.val) with
      | some (g, _) => hostPump (hostWriteBack win tag g poison data s)
      | none => plain s
    else plain s) s) := rfl

theorem does_memwrptl (win : Fin 64) (addr : Word) (tag : BitVec 16) (poison : Bool) (be : BitVec 64) (data : BitVec 512) (s : State) :
    Does (.memwrptl win addr tag poison be data) s ((fun s =>
    if be = 0 then emit (.cxlCmp win tag 0 (devLoad (portLoad s win 0))) s
    else memAccess win addr tag .write (partReq (hostHalf s win addr) be data poison) (hpBytes win false s)) s) := rfl

theorem does_meminv (win : Fin 64) (addr : Word) (tag : BitVec 16) (s : State) :
    Does (.meminv win addr tag) s ((memAccess win addr tag .inv loadReq) s) := rfl

theorem does_birsp (win : Fin 64) (line : BitVec 57) (half : Bool) (k : BiRspKind) (data : Option (BitVec 512)) (s : State) :
    Does (.birsp win line half k data) s ((fun s => biAnswered win line.toNat half k data (if data.isSome then hpBytes win false s else s)) s) := rfl

theorem does_h2dSnoop (port : Fin 4) (addr : BitVec 52) (s : State) :
    Does (.h2dSnoop port addr) s ((emit (.rspIHitI port addr)) s) := rfl

theorem does_apertureGo (win : Fin 64) (slot : BitVec 8) (r : Req) (s : State) :
    Does (.apertureGo win slot r) s ((aperGo win slot r) s) := rfl

theorem does_apertureRead (win : Fin 64) (slot : BitVec 8) (off : BitVec 12) (s : State) :
    Does (.apertureRead win slot off) s ((aperRead win slot off) s) := rfl

theorem does_holdReissue (win : Fin 64) (tag : BitVec 16) (s : State) :
    Does (.holdReissue win tag) s ((reissue win tag) s) := rfl

theorem does_holdMaxExpire (win : Fin 64) (tag : BitVec 16) (s : State) :
    Does (.holdMaxExpire win tag) s ((holdExpired win tag) s) := rfl

theorem does_hdmDecoderCommit (win : Fin 64) (j : Fin 4) (d : HdmSet) (s : State) :
    Does (.hdmDecoderCommit win j d) s ((commitHdm win j d) s) := rfl

theorem does_hostLinkUp (port : Fin 4) (lnk : Fin 4) (st : HostTrain) (s : State) :
    Does (.hostLinkUp port lnk st) s ((fun s => if hostMayTrain s port.val lnk.val then linkUp port.val lnk.val st s else s) s) := rfl

theorem does_hostLinkDown (port : Fin 4) (lnk : Fin 4) (s : State) :
    Does (.hostLinkDown port lnk) s ((fun s => if (hostLink s port.val lnk.val).up then linkLost port.val lnk.val s else s) s) := rfl

theorem does_functionLevelReset (win : Fin 64) (s : State) :
    Does (.functionLevelReset win) s ((fun s => flrPump (s.modHp fun h => { h with
    aper := h.aper.filter fun a => a.1 / 256 != win.val
    msix := h.msix.filter fun v => v / 256 != win.val
    flr := h.flr.filter (· != win) ++ [win] })) s) := rfl

theorem does_recallBound (s : State) :
    Does .recallBound s ((fun s => fallowGo (departGo (endRecall s))) s) := rfl

theorem does_linkEnable (n : Fin 24) (s : State) :
    Does (.linkEnable n) s ((fun s =>
    let l := fabAt s n
    if l.state = .active ∨ l.state = .training ∨ (!isMesh n ∧ l.module ≠ .active) ∨ !linkMayTrain s n then s
    else modFabLink n (fun l => { l with state := .training, retrainAt := none }) s) s) := rfl

theorem does_linkTrained (n : Fin 24) (t : FabTrain) (s : State) :
    Does (.linkTrained n t) s ((trained n t) s) := rfl

theorem does_ident (n : Fin 24) (id : Ident) (lanesAgree : Bool) (s : State) :
    Does (.ident n id lanesAgree) s ((takeIdent n id lanesAgree) s) := rfl

theorem does_lcrd (n : Fin 24) (vc : Fin 8) (bclass : Fin 4) (shared : Bool) (credits : BitVec 32) (s : State) :
    Does (.lcrd n vc bclass shared credits) s ((fun s =>
    fabPump (modFabLink n (fun l =>
      if shared then { l with shared := l.shared + credits.toNat }
      else
        let k := creditKey vc bclass.val
        { l with credits := Tab.put 0 k (creditsOf l k + credits.toNat) l.credits }) s)) s) := rfl

theorem does_flitReceive (n : Fin 24) (f : FlitIn) (s : State) :
    Does (.flitReceive n f) s ((takeFlit n f) s) := rfl

theorem does_replay (n : Fin 24) (seq : BitVec 12) (s : State) :
    Does (.replay n seq) s ((fun s => if (fabAt s n).state = .active then resendFrom n seq s else s) s) := rfl

theorem does_replayTimer (n : Fin 24) (s : State) :
    Does (.replayTimer n) s ((replayDue n) s) := rfl

theorem does_modeChg (n : Fin 24) (echo : Bool) (mode : BitVec 3) (s : State) :
    Does (.modeChg n echo mode) s ((modeChg n echo mode) s) := rfl

theorem does_fecEvaluate (n : Fin 24) (m : FecMeasure) (s : State) :
    Does (.fecEvaluate n m) s ((evalFec n m) s) := rfl

theorem does_spare (n : Fin 24) (done : Bool) (_lane : Fin 5) (s : State) :
    Does (.spare n done _lane) s ((fun s =>
    if (fabAt s n).state ≠ .active ∨ done then s else modFabLink n (fun l => { l with spareHold := some (now s) }) s) s) := rfl

theorem does_laneLoss (n : Fin 24) (lane : Fin 5) (s : State) :
    Does (.laneLoss n lane) s ((loseLane n lane) s) := rfl

theorem does_spareComplete (n : Fin 24) (s : State) :
    Does (.spareComplete n) s ((spareDone n) s) := rfl

theorem does_tsync (n : Fin 24) (response : Bool) (t1 t2 t3 : Word) (s : State) :
    Does (.tsync n response t1 t2 t3) s ((takeTsync n response t1 t2 t3) s) := rfl

theorem does_tsyncSend (s : State) :
    Does .tsyncSend s (sendTsync s) := rfl

theorem does_tsyncTimeout (s : State) :
    Does .tsyncTimeout s (tsyncLate s) := rfl

theorem does_pdown (n : Fin 24) (s : State) :
    Does (.pdown n) s ((fun s =>
    let l := fabAt s n
    let s := if l.state = .active ∧ isMesh n then issueFence l.peer 2 false s else s
    linkGone false n false s) s) := rfl

theorem does_linkDown (n : Fin 24) (s : State) :
    Does (.linkDown n) s ((goDown n false) s) := rfl

theorem does_linkRetrain (n : Fin 24) (s : State) :
    Does (.linkRetrain n) s ((fun s =>
    match (if (fabAt s n).drill || !linkMayTrain s n then none else (fabAt s n).retrainAt) with
    | some t => modFabLink n (fun l => { l with state := .training, retrainAt := none }) (reach t s)
    | none => s) s) := rfl

theorem does_linkReset (wr : Writer) (n : Fin 24) (s : State) :
    Does (.linkReset wr n) s ((fun s =>
    if allowed s wr none [.f, .m] then goDown n true s else rejected (Off.fab + 0x100 * n.val + 8) s) s) := rfl

theorem does_messageRoute (m : FabMsg) (s : State) :
    Does (.messageRoute m) s ((routeIn m) s) := rfl

theorem does_pathHoldExpire (vc : Fin 8) (key : BitVec 32) (s : State) :
    Does (.pathHoldExpire vc key) s ((fun s =>
    match s.fab.paths.find? (fun p => p.1 == vc.val * 2 ^ 32 + key.toNat) with
    | some p => fabPump (reach (p.2.2 + holdNs s) s)
    | none => s) s) := rfl

theorem does_modulePresence (n : Fin 24) (advertised : Nat) (s : State) :
    Does (.modulePresence n advertised) s ((fun s =>
    if !isOptical n then s
    else emit (.modReset n true) (modFabLink n (fun l => { l with
      module := .resetReleased, moduleDue := now s + Nat.min advertised 5000000000 }) s)) s) := rfl

theorem does_moduleReady (n : Fin 24) (apps : List CmisApp) (s : State) :
    Does (.moduleReady n apps) s ((moduleReady n apps) s) := rfl

theorem does_moduleInterrupt (n : Fin 24) (flags : CmisFlags) (s : State) :
    Does (.moduleInterrupt n flags) s ((moduleFlags n flags) s) := rfl

theorem does_opticsPoll (n : Fin 24) (flags : CmisFlags) (monitor : Option (BitVec 16)) (s : State) :
    Does (.opticsPoll n flags monitor) s ((fun s =>
    if (fabAt s n).module = .absent then s
    else
      let s := moduleFlags n flags s
      match monitor with
      | some v => keepMargin 3 (put 48 n.val ||| put 0 v.toNat) s
      | none => s) s) := rfl

theorem does_ceStormEnd (s : State) :
    Does .ceStormEnd s ((fun s =>
    match s.ras.stormEnd with
    | none => s
    | some t => (reach t s).modRas fun r => { r with stormEnd := none, ceCount := 0 }) s) := rfl

theorem does_eventRecordWrite (win : Fin 64) (s : State) :
    Does (.eventRecordWrite win) s ((writeEvent win) s) := rfl

theorem does_event (m : FleetEvent) (s : State) :
    Does (.event m) s ((fun s => post m.e none none (sawEpoch m.h.epoch s)) s) := rfl

theorem does_fatalError (block : BitVec 8) (inst : BitVec 8) (sliceOut : Option (Fin 32)) (s : State) :
    Does (.fatalError block inst sliceOut) s ((fatal block inst sliceOut) s) := rfl

theorem does_compList (h : FleetHdr) (comp : BitVec 24) (exposed : Nat) (s : State) :
    Does (.compList h comp exposed) s ((fun s => (sawEpoch h.epoch s).modRas fun r => { r with
    cellLists := (r.cellLists.filter fun e => !(e.1 == h.subject && e.2.1 == comp.toNat)) ++ [(h.subject, comp.toNat, exposed)] }) s) := rfl

theorem does_compContain (src : BitVec 16) (m : FleetMark) (comp : BitVec 24) (s : State) :
    Does (.compContain src m comp) s ((fun s => passOn 0x19 (m.hdr src) [put 0 comp.toNat] (applyContain comp.toNat) (sawEpoch m.epoch s)) s) := rfl

theorem does_compRelease (src : BitVec 16) (m : FleetMark) (comp : BitVec 24) (s : State) :
    Does (.compRelease src m comp) s ((fun s => passOn 0x1A (m.hdr src) [put 0 comp.toNat] (applyRelease comp.toNat) (sawEpoch m.epoch s)) s) := rfl

theorem does_containmentStart (fdn : BitVec 16) (s : State) :
    Does (.containmentStart fdn) s ((startContainment fdn) s) := rfl

theorem does_compPolicy (wr : Writer) (comp : BitVec 24) (policy : BitVec 2) (s : State) :
    Does (.compPolicy wr comp policy) s ((fun s => (issue wr none [.f, .m] (Off.ras + 0x10) compDone (fun s =>
    if policy = 3 then cmdDone compDone .malformed 0 s
    else cmdDone compDone .ok 0 (s.modRas fun r => { r with policy := Tab.put 0 comp.toNat policy r.policy })) s).2) s) := rfl

theorem does_compReleaseCmd (wr : Writer) (comp : BitVec 24) (s : State) :
    Does (.compReleaseCmd wr comp) s ((fun s => (issue wr none [.f, .m] (Off.ras + 0x10) compDone (fun s =>
    cmdDone compDone .ok 0 (flood 0x1A (servedFdn s) s.flt.epoch false [put 0 comp.toNat] (applyRelease comp.toNat s))) s).2) s) := rfl

theorem does_watchdogExpire (s : State) :
    Does .watchdogExpire s ((fun s =>
    let off := Off.ras + 0x128
    if !s.sys.watchArmed then s
    else
    let s := elapsed .watchdog ((regGet s off).toNat * 1000000) s
    requestWarm .watchdog (postDev 0x34 (BitVec.ofNat 64 off) (internalRec 0x0C 0x44 0 s))) s) := rfl

theorem does_pulseSend (s : State) :
    Does .pulseSend s (sendPulses s) := rfl

theorem does_pulse (n : Fin 24) (h : FleetHdr) (p : PulseBody) (s : State) :
    Does (.pulse n h p) s ((fun s => takePulse n p.susp p.num (sawEpoch h.epoch s)) s) := rfl

theorem does_pulseSilence (n : Fin 24) (s : State) :
    Does (.pulseSilence n) s ((fun s =>
    if (fabAt s n).state ≠ .active then s
    else suspectPeer true n (modFabLink n (fun l => { l with heard := 0 }) (elapsed (.pulse n.val) 100000 s))) s) := rfl

theorem does_suspect (voter subject : BitVec 16) (m : VoteMark) (s : State) :
    Does (.suspect voter subject m) s ((fun s => takeSuspect voter subject m.drill (sawEpoch m.epoch s)) s) := rfl

theorem does_clear (voter subject : BitVec 16) (m : VoteMark) (s : State) :
    Does (.clear voter subject m) s ((fun s => takeClear voter subject m.drill (sawEpoch m.epoch s)) s) := rfl

theorem does_suspectHoldEnd (subject : BitVec 16) (s : State) :
    Does (.suspectHoldEnd subject) s ((endHold subject) s) := rfl

theorem does_isolation (s : State) :
    Does .isolation s (isolate s) := rfl

theorem does_fence (h : FleetHdr) (reason : BitVec 8) (s : State) :
    Does (.fence h reason) s ((passOn 0x04 h [reason.setWidth 64] fun s =>
    let s := sawEpoch h.epoch s
    if h.subject = servedFdn s then selfFence s else applyFence h.subject reason s) s) := rfl

theorem does_unfence (h : FleetHdr) (s : State) :
    Does (.unfence h) s ((passOn 0x07 h [] fun s => applyUnfence h.subject (sawEpoch h.epoch s)) s) := rfl

theorem does_join (h : FleetHdr) (peers : List (BitVec 16)) (rejoin : Bool) (s : State) :
    Does (.join h peers rejoin) s ((takeJoin h peers rejoin) s) := rfl

theorem does_joinAns (h : FleetHdr) (time : Word) (fenced : List (BitVec 16)) (cell : List (BitVec 16 × List (BitVec 16))) (spare : Bool) (s : State) :
    Does (.joinAns h time fenced cell spare) s ((takeJoinAns h time fenced cell spare) s) := rfl

theorem does_joinRetry (s : State) :
    Does .joinRetry s ((fun s => if s.flt.state ≠ .joining then s else sendJoin (reach (s.flt.joinAt + 1000000000) s)) s) := rfl

theorem does_adoptReq (h : FleetHdr) (s : State) :
    Does (.adoptReq h) s ((fun s =>
    let s := sawEpoch h.epoch s
    let ok := s.flt.state == .spare && s.flt.adopting.isNone
    let s := if ok then s.modFlt fun f => { f with state := .adopting, adopting := some h.src } else s
    tell 0x09 h.src h.subject false [put 0 (stCode (if ok then .ok else .busy))] s) s) := rfl

theorem does_adoptAns (h : FleetHdr) (st : Status) (s : State) :
    Does (.adoptAns h st) s ((fun s =>
    let s := sawEpoch h.epoch s
    let d := h.subject
    match s.flt.standIn.find? (fun x => x.subject == d && x.asked == some h.src) with
    | none => s
    | some _ =>
      if st = .ok then
        emit (.ctlState h.src { ctlKept s d with cell := cellAll s }) (modStandIn d (fun x => { x with started := true }) s)
      else askNext d (modStandIn d (fun x => { x with asked := none }) s)) s) := rfl

theorem does_controlStateReceived (c : CtlState) (s : State) :
    Does (.controlStateReceived c) s ((adoptState c) s) := rfl

theorem does_adopt (h : FleetHdr) (spareFdn : BitVec 16) (s : State) :
    Does (.adopt h spareFdn) s ((passOn 0x0A h [spareFdn.setWidth 64] fun s => applyAdopt h.subject spareFdn (sawEpoch h.epoch s)) s) := rfl

theorem does_adoptRetry (subject : BitVec 16) (s : State) :
    Does (.adoptRetry subject) s ((fun s =>
    match s.flt.standIn.find? (fun x => x.subject == subject && x.asked.isNone && !x.started) with
    | none => s
    | some x => startAdoption subject (reach (x.askedAt + 1000000000) s)) s) := rfl

theorem does_returnWaitExpire (subject : BitVec 16) (s : State) :
    Does (.returnWaitExpire subject) s ((fun s =>
    match s.flt.waits.find? (·.subject == subject) with
    | none => s
    | some w =>
      let s := startContainment subject (reach w.due s)
      startAdoption subject (s.modFlt fun f => { f with waits := f.waits.filter (·.subject != subject) })) s) := rfl

theorem does_memberFind (h : FleetHdr) (mu : BitVec 48) (s : State) :
    Does (.memberFind h mu) s ((fun s =>
    let s := sawEpoch h.epoch s
    let home := mu.extractLsb' 32 16
    match s.flash.held.find? (fun x => !x.isCopy && x.home == home && decide (x.mu = mu.toNat % 2 ^ 32) && decide (x.member < 8)) with
    | none => s
    | some x => tell 0x0C h.src h.subject false [put 16 mu.toNat, put 4 x.stripe ||| put 0 x.member] s) s) := rfl

theorem does_memberLoc (h : FleetHdr) (mu : BitVec 48) (stripe : BitVec 42) (member : Fin 10) (s : State) :
    Does (.memberLoc h mu stripe member) s ((fun s =>
    let s := sawEpoch h.epoch s
    let m := mu.toNat % 2 ^ 32
    if s.flt.adopted ≠ some (mu.extractLsb' 32 16) ∨ (mapOf s m).mapped then s
    else s.modFlash fun f => { f with
      map := Tab.put {} m { mapped := true, striped := true, stripe := stripe.toNat, member := member.val } f.map
      holders := Tab.put [] stripe.toNat (((List.range 10).map (memberHolder s stripe.toNat)).set member.val h.src) f.holders
      nextStripe := Nat.max f.nextStripe (stripe.toNat + 1) }) s) := rfl

theorem does_stripeRebuild (mu : Nat) (s : State) :
    Does (.stripeRebuild mu) s ((fun s =>
    if (mapOf s mu).mapped then (if (residentFrames s mu).isEmpty then s else startWriteBack mu false s) else findUnit mu s) s) := rfl

theorem does_offer (h : FleetHdr) (e : LedgerEnt) (c : HandState) (s : State) :
    Does (.offer h e c) s ((fun s => takeOffer e c (sawEpoch h.epoch s)) s) := rfl

theorem does_received (h : FleetHdr) (e : LedgerEnt) (s : State) :
    Does (.received h e) s ((fun s => departGo (releaseHand e (sawEpoch h.epoch s))) s) := rfl

theorem does_reclaim (h : FleetHdr) (e : LedgerEnt) (s : State) :
    Does (.reclaim h e) s ((fun s => takeReclaim e (sawEpoch h.epoch s)) s) := rfl

theorem does_handoffExpiry (seq : BitVec 32) (s : State) :
    Does (.handoffExpiry seq) s ((fun s => departGo (expireHand seq s)) s) := rfl

theorem does_ledgerQueryDue (offerer : BitVec 16) (seq : BitVec 32) (s : State) :
    Does (.ledgerQueryDue offerer seq) s ((queryHand offerer seq) s) := rfl

theorem does_ledgerQuery (h : FleetHdr) (e : LedgerEnt) (s : State) :
    Does (.ledgerQuery h e) s ((fun s => answerQuery h.src e (sawEpoch h.epoch s)) s) := rfl

theorem does_ledgerState (h : FleetHdr) (e : LedgerEnt) (s : State) :
    Does (.ledgerState h e) s ((fun s => departGo (takeLedger e (sawEpoch h.epoch s))) s) := rfl

theorem does_drillSchedule (wr : Writer) (s : State) :
    Does (.drillSchedule wr) s ((scheduleDrill wr) s) := rfl

theorem does_drill (h : FleetHdr) (w0 w1 : Word) (s : State) :
    Does (.drill h w0 w1) s ((fun s => takeDrill (drillOfWords w0 w1) (sawEpoch h.epoch s)) s) := rfl

theorem does_drillStart (s : State) :
    Does .drillStart s (startDrill s) := rfl

theorem does_drillEnd (realFault : Bool) (s : State) :
    Does (.drillEnd realFault) s ((endDrill realFault) s) := rfl

theorem does_marginSample (m : Fin 4) (inst : BitVec 16) (value : BitVec 16) (low : Bool) (s : State) :
    Does (.marginSample m inst value low) s ((fun s =>
    let s := keepMargin m.val (put 48 inst.toNat ||| put 32 value.toNat ||| put 0 (now s / 2 ^ 20 % 2 ^ 32)) s
    let s := if m.val = 1 ∧ inst.toNat < 18 then s.modNmc fun n => { n with canary := n.canary.set inst.toNat value.toNat } else s
    if low then marginAct m.val inst.toNat value.toNat s else s) s) := rfl

theorem does_fltFenceCmd (wr : Writer) (fdn : BitVec 16) (s : State) :
    Does (.fltFenceCmd wr fdn) s ((fun s => if allowed s wr none [.f] then issueFence fdn 4 false s else rejected (Off.flt + 0x10) s) s) := rfl

theorem does_coldReset (s : State) :
    Does .coldReset s ((coldStart .cold) s) := rfl

theorem does_resetNFall (held : Bool) (s : State) :
    Does (.resetNFall held) s ((fun s =>
    if !held then countRC (Off.rst + 0x10) 1 s
    else requestWarm .pin (s.modSys fun y => { y with resetN := false })) s) := rfl

theorem does_resetNRise (s : State) :
    Does .resetNRise s ((fun s =>
    let s := s.modSys fun y => { y with resetN := true, resetRise := y.time }
    if s.sys.phase ≠ .inReset then s
    else
      let s := if s.sys.kind = .pin then reach (s.sys.resetRise + 10000) s else s
      s.modSys fun y => { y with phase := .bringUp, step := 0 }) s) := rfl

theorem does_warmResetFabric (wr : Writer) (v : Word) (s : State) :
    Does (.warmResetFabric wr v) s ((fun s =>
    if !allowed s wr none [.f] then rejected (Off.rst + 8) s
    else if bitOf v 0 then requestWarm .fabric s else s) s) := rfl

theorem does_warmResetBegin (drained : Bool) (s : State) :
    Does (.warmResetBegin drained) s ((beginWarm drained) s) := rfl

theorem does_thermalTrip (group : Fin 3) (s : State) :
    Does (.thermalTrip group) s ((trip group) s) := rfl

theorem does_bringUpStep (f : BringUp) (s : State) :
    Does (.bringUpStep f) s ((bringUpStep f) s) := rfl

theorem does_supplyOutOfLimits (rail : Fin 8) (s : State) :
    Does (.supplyOutOfLimits rail) s ((fun s =>
    let s := raise { cls := 0x0D, sev := 2, code := 0x0C, block := 0x01, inst := BitVec.ofNat 8 rail.val } s
    if s.sys.phase = .bringUp ∧ s.sys.step < 3 then s
    else if s.sys.phase = .powerFail then s.modSys fun y => { y with bits := y.bits ||| kindBit .cold ||| mergedBit }
    else coldStart .cold s) s) := rfl

theorem does_blockReset (wr : Writer) (code : BitVec 8) (inst : BitVec 8) (s : State) :
    Does (.blockReset wr code inst) s ((fun s =>
    let done := Off.rst + 0x20
    (issue wr none [.f, .m] (Off.rst + 0x18) done (fun s =>
      match blockIdle s code.toNat inst.toNat with
      | none => cmdDone done .malformed 0 s
      | some false => cmdDone done .busy 0 s
      | some true => cmdDone done .ok 0 (resetBlock code.toNat inst.toNat s)) s).2) s) := rfl

theorem does_norRead (wr : Writer) (s : State) :
    Does (.norRead wr) s ((norCommand wr 1 fun a s => norEnd .ok (norAdvance (regSet (Off.cfg + 0x10) (wordOfBytes (norRead s a 8)) s))) s) := rfl

theorem does_norProgram (wr : Writer) (s : State) :
    Does (.norProgram wr) s ((norCommand wr 2 fun a s =>
    let v := wordOfBytes (norRead s a 8) &&& regGet s (Off.cfg + 0x10)
    norAdvance ((norSet a (bytesOfWord v) s).modCfg fun c => { c with norBusy := some (2, a) })) s) := rfl

theorem does_norErase (wr : Writer) (s : State) :
    Does (.norErase wr) s ((norCommand wr 3 fun a s => s.modCfg fun c => { c with
    nor := Tab.drop (fun x => x / 65536 == a / 65536) c.nor, norBusy := some (3, a) }) s) := rfl

theorem does_cfgBootClear (wr : Writer) (s : State) :
    Does (.cfgBootClear wr) s ((fun s => if norAllowed s wr then writeBoot 0 0 s else rejected (Off.cfg + 0x20) s) s) := rfl

theorem does_cfgSvnCommit (wr : Writer) (s : State) :
    Does (.cfgSvnCommit wr) s ((fun s =>
    if allowed s wr none [.f] && s.sys.phase == .service then
      s.modCfg fun c => { c with fuses := { c.fuses with svn := Nat.max c.fuses.svn c.secVersion } }
    else rejected (Off.cfg + 0x28) s) s) := rfl

theorem does_cfgKeyRevoke (wr : Writer) (v : Word) (s : State) :
    Does (.cfgKeyRevoke wr v) s ((fun s =>
    let k := fld v 1 0
    if allowed s wr none [.f] && s.sys.phase == .service && k != s.cfg.keySlot then
      s.modCfg fun c => { c with fuses := { c.fuses with revoked := c.fuses.revoked ||| BitVec.ofNat 4 (2 ^ k) } }
    else rejected (Off.cfg + 0x30) s) s) := rfl

theorem does_voltagePolicy (m : PowerMeasure) (s : State) :
    Does (.voltagePolicy m) s ((runPolicy m) s) := rfl

theorem does_avsReadback (r : Option Nat) (s : State) :
    Does (.avsReadback r) s ((readback r) s) := rfl

theorem does_sensorSample (core io hbm : Nat) (s : State) :
    Does (.sensorSample core io hbm) s ((fun s => sampleGroup 2 hbm (sampleGroup 1 io (sampleGroup 0 core (s.modSys fun y => { y with temps := [core, io, hbm] })))) s) := rfl

theorem does_dormantEntry (s : State) :
    Does .dormantEntry s (goDormant s) := rfl

theorem does_fallowEnter (wr : Writer) (s : State) :
    Does (.fallowEnter wr) s ((enterFallow wr) s) := rfl

theorem does_fallowLeave (wr : Option Writer) (s : State) :
    Does (.fallowLeave wr) s ((fun s =>
    match wr with
    | some w => if pwrAllowed s w then leaveFallow s else rejected (Off.rst + 0x30) s
    | none => if bitOf (regGet s (Off.rst + 0x30)) 61 then leaveFallow s else s) s) := rfl

theorem does_smbusStart (sdaFell sclFell : Bool) (s : State) :
    Does (.smbusStart sdaFell sclFell) s ((smbStart sdaFell sclFell) s) := rfl

theorem does_mctpRequest (write : Bool) (off : BitVec 25) (v : Word) (s : State) :
    Does (.mctpRequest write off v) s ((mctp write off.toNat v) s) := rfl

theorem does_pwrfailProbe (below : Bool) (s : State) :
    Does (.pwrfailProbe below) s ((probe below) s) := rfl

theorem does_driverOvercurrent (group ball : BitVec 16) (s : State) :
    Does (.driverOvercurrent group ball) s ((pinFinding 0x01 { finding := 9, group := group, ball := ball }) s) := rfl

theorem does_refclkLoss (c : RefClk) (s : State) :
    Does (.refclkLoss c) s ((clockLost c) s) := rfl

theorem does_queueBaseWrite (wr : Writer) (q : QueueId) (v : Word) (s : State) :
    Does (.queueBaseWrite wr q v) s ((fun s => (baseWrite wr q v s).2) s) := rfl

theorem does_queueHeadWrite (wr : Writer) (q : QueueId) (v : Word) (s : State) :
    Does (.queueHeadWrite wr q v) s ((fun s => (headWrite wr q v s).2) s) := rfl

theorem does_modeForceTabled (wr : Writer) (s : State) :
    Does (.modeForceTabled wr) s ((forceMode true wr) s) := rfl

theorem does_modeForceRetry (wr : Writer) (s : State) :
    Does (.modeForceRetry wr) s ((forceMode false wr) s) := rfl

theorem does_telSnap (wr : Writer) (v : Word) (s : State) :
    Does (.telSnap wr v) s ((fun s => (snapWrite wr v s).2) s) := rfl

theorem does_registerWrite (wr : Writer) (off : BitVec 25) (size : BitVec 4) (v : Word) (s : State) :
    Does (.registerWrite wr off size v) s ((writeSized wr off.toNat size.toNat v) s) := rfl

theorem does_trlUnlockCmd (wr : Writer) (v : Word) (s : State) :
    Does (.trlUnlockCmd wr v) s ((fun s => (unlockWrite wr v s).2) s) := rfl

theorem does_unlockExpire (s : State) :
    Does .unlockExpire s ((fun s => if s.trl.scopes = 0 then s else closeScopes (reach s.trl.expiry s)) s) := rfl

theorem does_trlLock (wr : Writer) (v : Word) (s : State) :
    Does (.trlLock wr v) s ((fun s => (lockWrite wr v s).2) s) := rfl

theorem does_trlSeal (wr : Writer) (v : Word) (s : State) :
    Does (.trlSeal wr v) s ((fun s => (sealWrite wr v s).2) s) := rfl

theorem does_trlSel (wr : Writer) (i : Fin 16) (v : Word) (s : State) :
    Does (.trlSel wr i v) s ((fun s => (selWrite wr i.val v s).2) s) := rfl

theorem does_injectPoison (wr : Writer) (s : State) :
    Does (.injectPoison wr) s ((fun s => (injectWrite wr injectPoison s).2) s) := rfl

theorem does_injectSramCe (wr : Writer) (s : State) :
    Does (.injectSramCe wr) s ((fun s => (injectWrite wr injectSram s).2) s) := rfl

theorem does_injectTileStore (wr : Writer) (s : State) :
    Does (.injectTileStore wr) s ((fun s => (injectWrite wr injectTile s).2) s) := rfl

theorem does_injectSnoopWithhold (wr : Writer) (s : State) :
    Does (.injectSnoopWithhold wr) s ((fun s => (injectWrite wr injectSnoop s).2) s) := rfl

theorem does_injectFlashRead (wr : Writer) (s : State) :
    Does (.injectFlashRead wr) s ((fun s => (injectWrite wr injectFlash s).2) s) := rfl

theorem does_trlAccess (write : Bool) (off : BitVec 25) (v : Word) (s : State) :
    Does (.trlAccess write off v) s ((trlAccess write off.toNat v) s) := rfl

theorem does_extest (balls : List (BitVec 16 × Bool)) (s : State) :
    Does (.extest balls) s ((driveBalls balls) s) := rfl

theorem does_pwrfailRise (s : State) :
    Does .pwrfailRise s ((fun s =>
    if s.sys.pwrfail = .high then s
    else
      let s := levelChange .high s
      let s := match s.sys.fallAt with
        | none => s
        | some t =>
          if now s < t + 200 then countRC (Off.jrn + 0x50) 1 (s.modSys fun y => { y with fallAt := none }) else confirmFall s
      startAgain s) s) := rfl

theorem does_perstNChange (port : Fin 4) (lnk : Fin 4) (released : Bool) (s : State) :
    Does (.perstNChange port lnk released) s ((fun s =>
    let s := modLink port.val lnk.val (fun h => { h with perst := released }) s
    if !released ∧ (hostLink s port.val lnk.val).up then linkLost port.val lnk.val s else s) s) := rfl

theorem does_moduleRemoval (n : Fin 24) (s : State) :
    Does (.moduleRemoval n) s ((fun s =>
    if !isOptical n then s
    else
      let s := goDown n false s
      emit (.modReset n false) (modFabLink n (fun l => { l with module := .absent, retrainAt := none }) s)) s) := rfl

theorem does_moduleReadyTimeout (n : Fin 24) (s : State) :
    Does (.moduleReadyTimeout n) s ((fun s =>
    if (fabAt s n).module ≠ .resetReleased then s
    else
      let s := reach (fabAt s n).moduleDue s
      linkRec 0x03 2 n 0 (modFabLink n (fun l => { l with module := .lowPower }) s)) s) := rfl

theorem does_refclkReturn (c : RefClk) (s : State) :
    Does (.refclkReturn c) s ((fun s => s.modSys fun y => { y with clocksLost := y.clocksLost.filter (· != c) }) s) := rfl

theorem does_quiesceBound (s : State) :
    Does .quiesceBound s ((fun s => departGo (endQuiesce s)) s) := rfl

theorem does_forwardStale (id : Nat) (s : State) :
    Does (.forwardStale id) s ((fun s =>
    match s.fab.fwd.find? (fun f => f.id == id && f.m.arrived.isSome) with
    | some f => dropFwd f (countRC (Off.fab + 0x2050) 1 (reach (f.at_ + 10000) s))
    | none => s) s) := rfl

theorem does_nyHintRetry (who : Requester) (s : State) :
    Does (.nyHintRetry who) s ((retryOf who) s) := rfl

theorem does_rcRead (win : Fin 64) (off : BitVec 25) (s : State) :
    Does (.rcRead win off) s ((fun s =>
    let (v, s) := readClear (.bar0 win) off.toNat s
    emit (.regData (.bar0 win) off.toNat v) s) s) := rfl

theorem does_controlMirrorReceive (home : BitVec 16) (j : CtlRec) (s : State) :
    Does (.controlMirrorReceive home j) s ((takeCtl home j) s) := rfl

theorem does_controlMirrorConfirm (mirror : BitVec 16) (k : CtlConfirm) (s : State) :
    Does (.controlMirrorConfirm mirror k) s ((takeCtlConfirm mirror k) s) := rfl

theorem does_keyDestroy (home : BitVec 16) (ext : BitVec 18) (s : State) :
    Does (.keyDestroy home ext) s ((fun s => emit (.keyGone home ext.toNat) (dropKeyOf home ext.toNat s)) s) := rfl

theorem does_cutDropConfirm (holder : BitVec 16) (handle : BitVec 12) (row : BitVec 40) (s : State) :
    Does (.cutDropConfirm holder handle row) s ((cutConfirmed holder handle.toNat row.toNat) s) := rfl

theorem does_shardLoadTotals (member : BitVec 16) (group : BitVec 32) (loads : List (BitVec 12 × BitVec 13 × Nat)) (s : State) :
    Does (.shardLoadTotals member group loads) s ((loadTotals member group.toNat loads) s) := rfl

theorem does_stripeMemberRead (reader home : BitVec 16) (stripe : BitVec 42) (member : Fin 10) (s : State) :
    Does (.stripeMemberRead reader home stripe member) s ((fun s =>
    match s.flash.held.find? (fun x => !x.isCopy && x.home == home && decide (x.stripe = stripe.toNat) && decide (x.member = member.val)) with
    | some x => emit (.memberData reader stripe.toNat member.val .ok x.data) s
    | none => emit (.memberData reader stripe.toNat member.val .deviceLost []) s) s) := rfl

theorem does_codebookFillComplete (ext : BitVec 18) (s : State) :
    Does (.codebookFillComplete ext) s ((codebookFilled ext.toNat) s) := rfl

theorem does_fosterInstallDone (home : BitVec 16) (ext : BitVec 18) (s : State) :
    Does (.fosterInstallDone home ext) s ((fosterReady home ext.toNat) s) := rfl

theorem does_norCommandComplete (s : State) :
    Does .norCommandComplete s ((fun s => match s.cfg.norBusy with
    | none => s
    | some _ => norEnd .ok (s.modCfg fun c => { c with norBusy := none })) s) := rfl

theorem does_snapshotComplete (s : State) :
    Does .snapshotComplete s ((fun s => if s.tel.busy then s.modTel fun t => { t with busy := false, seq := t.seq + 1 } else s) s) := rfl

end Sys2Proof.Machine
end

