-- ==== Sys2Proof/Laws/Tab.lean ====
section
/-! SUPPORT. The laws of tables and byte memories: what a read gives after a write, and that every operation keeps the canonical
form. -/

namespace Sys2Proof.Machine

open Sys2Proof

variable {α : Type} [DecidableEq α]

@[simp] theorem Tab.get_nil (d : α) (k : Nat) : Tab.get d [] k = d := rfl

/-- Below every listed key a table reads its default. -/
theorem Tab.get_low (d : α) (l k : Nat) (t : List (Nat × α)) (h : Tab.wfFrom d (some l) t = true) (hk : k ≤ l) : Tab.get d t k = d := by
  induction t generalizing l with
  | nil => rfl
  | cons e t ih =>
    obtain ⟨j, v⟩ := e
    simp only [Tab.wfFrom, Bool.and_eq_true, decide_eq_true_eq] at h
    have : j ≠ k := by omega
    simp only [Tab.get, this, if_false]
    exact ih j h.2 (by omega)

/-- A weaker lower bound does. -/
theorem Tab.wfFrom_mono (d : α) (l m : Nat) (t : List (Nat × α)) (h : Tab.wfFrom d (some m) t = true) (hl : l ≤ m) :
    Tab.wfFrom d (some l) t = true := by
  cases t with
  | nil => rfl
  | cons e t =>
    obtain ⟨j, v⟩ := e
    simp only [Tab.wfFrom, Bool.and_eq_true, decide_eq_true_eq] at h ⊢
    exact ⟨⟨by omega, h.1.2⟩, h.2⟩

theorem Tab.wfFrom_none (d : α) (m : Nat) (t : List (Nat × α)) (h : Tab.wfFrom d (some m) t = true) : Tab.wf d t = true := by
  cases t with
  | nil => rfl
  | cons e t =>
    obtain ⟨j, v⟩ := e
    simp only [Tab.wf, Tab.wfFrom, Bool.and_eq_true, decide_eq_true_eq, true_and] at h ⊢
    exact ⟨h.1.2, h.2⟩

/-- A write keeps the canonical form above a bound below the key. -/
theorem Tab.put_wfFrom (d : α) (k : Nat) (v : α) (t : List (Nat × α)) (lo : Option Nat) (h : Tab.wfFrom d lo t = true)
    (hk : ∀ l, lo = some l → l < k) : Tab.wfFrom d lo (Tab.put d k v t) = true := by
  induction t generalizing lo with
  | nil =>
    unfold Tab.put
    split
    · rfl
    · rename_i hv
      cases lo with
      | none => simp [Tab.wfFrom, hv]
      | some l => simp [Tab.wfFrom, hv, hk l rfl]
  | cons e t ih =>
    obtain ⟨j, w⟩ := e
    have h' := h
    simp only [Tab.wfFrom, Bool.and_eq_true, decide_eq_true_eq] at h
    unfold Tab.put
    split
    · rename_i hj
      simp only [Tab.wfFrom, Bool.and_eq_true, decide_eq_true_eq]
      exact ⟨h.1, ih (some j) h.2 (by intro l hl; cases hl; exact hj)⟩
    · split
      · rename_i hjk
        subst hjk
        split
        · cases lo with
          | none => exact Tab.wfFrom_none d j t h.2
          | some l => exact Tab.wfFrom_mono d l j t h.2 (Nat.le_of_lt (hk l rfl))
        · rename_i hv
          simp only [Tab.wfFrom, Bool.and_eq_true, decide_eq_true_eq]
          exact ⟨⟨h.1.1, hv⟩, h.2⟩
      · rename_i hj hjk
        split
        · exact h'
        · rename_i hv
          simp only [Tab.wfFrom, Bool.and_eq_true, decide_eq_true_eq]
          refine ⟨⟨?_, hv⟩, ⟨by omega, h.1.2⟩, h.2⟩
          cases lo with
          | none => rfl
          | some l => simpa using hk l rfl

/-- A write keeps the canonical form. -/
theorem Tab.put_wf (d : α) (k : Nat) (v : α) (t : List (Nat × α)) (h : Tab.wf d t = true) : Tab.wf d (Tab.put d k v t) = true :=
  Tab.put_wfFrom d k v t none h (by simp)

theorem Tab.upd_wf (d : α) (k : Nat) (f : α → α) (t : List (Nat × α)) (h : Tab.wf d t = true) : Tab.wf d (Tab.upd d k f t) = true :=
  Tab.put_wf d k _ t h

/-- What a key reads after a write, in a table of canonical form above a bound. -/
theorem Tab.get_put_from (d : α) (k j : Nat) (v : α) (t : List (Nat × α)) (lo : Option Nat) (h : Tab.wfFrom d lo t = true) :
    Tab.get d (Tab.put d k v t) j = if j = k then v else Tab.get d t j := by
  induction t generalizing lo with
  | nil =>
    unfold Tab.put
    by_cases hv : v = d <;> by_cases hj : j = k
    · simp [hv, hj, Tab.get]
    · simp [hv, hj, Tab.get]
    · simp [hv, hj, Tab.get]
    · simp [hv, hj, Ne.symm hj, Tab.get]
  | cons e t ih =>
    obtain ⟨i, w⟩ := e
    simp only [Tab.wfFrom, Bool.and_eq_true, decide_eq_true_eq] at h
    unfold Tab.put
    split
    · rename_i hik
      simp only [Tab.get]
      by_cases hij : i = j
      · have : j ≠ k := by omega
        simp [hij, this]
      · simp [hij, ih (some i) h.2]
    · split
      · rename_i hik
        subst hik
        split
        · rename_i hv
          by_cases hij : i = j
          · subst hij
            simpa [hv] using Tab.get_low d i i t h.2 (Nat.le_refl i)
          · simp [Tab.get, hij, Ne.symm hij]
        · by_cases hij : i = j
          · simp [Tab.get, hij]
          · simp [Tab.get, hij, Ne.symm hij]
      · rename_i h1 h2
        have hk : k < i := by omega
        split
        · rename_i hv
          by_cases hjk : j = k
          · subst hjk
            have : i ≠ j := by omega
            simp only [Tab.get, this, if_false, if_true, hv]
            exact Tab.get_low d i j t h.2 (by omega)
          · simp [hjk]
        · by_cases hjk : j = k
          · simp [Tab.get, hjk]
          · simp [Tab.get, hjk, Ne.symm hjk]

/-- What a key reads after a write. -/
theorem Tab.get_put (d : α) (k j : Nat) (v : α) (t : List (Nat × α)) (h : Tab.wf d t = true) :
    Tab.get d (Tab.put d k v t) j = if j = k then v else Tab.get d t j :=
  Tab.get_put_from d k j v t none h

theorem Tab.get_upd (d : α) (k j : Nat) (f : α → α) (t : List (Nat × α)) (h : Tab.wf d t = true) :
    Tab.get d (Tab.upd d k f t) j = if j = k then f (Tab.get d t k) else Tab.get d t j :=
  Tab.get_put d k j _ t h

/-- A dropped table keeps its form. -/
theorem Tab.drop_wfFrom (d : α) (p : Nat → Bool) (t : List (Nat × α)) (lo : Option Nat) (h : Tab.wfFrom d lo t = true) :
    Tab.wfFrom d lo (Tab.drop p t) = true := by
  induction t generalizing lo with
  | nil => rfl
  | cons e t ih =>
    obtain ⟨j, w⟩ := e
    simp only [Tab.wfFrom, Bool.and_eq_true, decide_eq_true_eq] at h
    by_cases hp : p j = true
    · have : Tab.drop p ((j, w) :: t) = Tab.drop p t := by simp [Tab.drop, hp]
      rw [this]
      apply ih
      cases lo with
      | none => exact Tab.wfFrom_none d j t h.2
      | some l => exact Tab.wfFrom_mono d l j t h.2 (Nat.le_of_lt (by simpa using h.1.1))
    · have : Tab.drop p ((j, w) :: t) = (j, w) :: Tab.drop p t := by simp [Tab.drop, hp]
      rw [this]
      simp only [Tab.wfFrom, Bool.and_eq_true, decide_eq_true_eq]
      exact ⟨h.1, ih (some j) h.2⟩

theorem Tab.drop_wf (d : α) (p : Nat → Bool) (t : List (Nat × α)) (h : Tab.wf d t = true) : Tab.wf d (Tab.drop p t) = true :=
  Tab.drop_wfFrom d p t none h

/-- Dropped keys read the default. -/
theorem Tab.get_drop (d : α) (p : Nat → Bool) (t : List (Nat × α)) (lo : Option Nat) (h : Tab.wfFrom d lo t = true) (k : Nat) :
    Tab.get d (Tab.drop p t) k = if p k then d else Tab.get d t k := by
  induction t generalizing lo with
  | nil => simp [Tab.drop, Tab.get]
  | cons e t ih =>
    obtain ⟨j, w⟩ := e
    simp only [Tab.wfFrom, Bool.and_eq_true, decide_eq_true_eq] at h
    by_cases hp : p j = true
    · have : Tab.drop p ((j, w) :: t) = Tab.drop p t := by simp [Tab.drop, hp]
      rw [this, ih (some j) h.2]
      by_cases hjk : j = k
      · subst hjk
        simp [hp]
      · simp [Tab.get, hjk]
    · have : Tab.drop p ((j, w) :: t) = (j, w) :: Tab.drop p t := by simp [Tab.drop, hp]
      rw [this]
      simp only [Tab.get]
      by_cases hjk : j = k
      · subst hjk
        simp [hp]
      · simp [hjk, ih (some j) h.2]

/-! ### Byte memories -/

/-- A byte read after a byte is stored (R5). -/
theorem readByte_writeByte (m : List Host.Cell) (a c : Nat) (b : Byte) (h : Memory.wf m = true) :
    readByte (writeByte m a b) c = if c = a then b else readByte m c :=
  Tab.get_put 0 a c b m h

theorem writeByte_wf (m : List Host.Cell) (a : Nat) (b : Byte) (h : Memory.wf m = true) : Memory.wf (writeByte m a b) = true :=
  Tab.put_wf 0 a b m h

theorem writeBytes_wf (m : List Host.Cell) (a : Nat) (bs : List Byte) (h : Memory.wf m = true) : Memory.wf (writeBytes m a bs) = true := by
  induction bs generalizing m a with
  | nil => exact h
  | cons b bs ih => exact ih _ _ (writeByte_wf m a b h)

theorem clearSpan_wf (m : List Host.Cell) (lo hi : Nat) (h : Memory.wf m = true) : Memory.wf (clearSpan m lo hi) = true :=
  Tab.drop_wf 0 _ m h

theorem writeCells_wf (m src : List Host.Cell) (h : Memory.wf m = true) : Memory.wf (writeCells m src) = true := by
  unfold writeCells
  induction src generalizing m with
  | nil => exact h
  | cons c src ih => exact ih _ (writeByte_wf m c.1 c.2 h)

theorem copySpan_wf (m src : List Host.Cell) (lo hi : Nat) (h : Memory.wf m = true) : Memory.wf (copySpan m src lo hi) = true :=
  writeCells_wf _ _ (clearSpan_wf m lo hi h)

/-- What a byte reads after a run of bytes is stored: one of them inside the run, the old byte outside it. -/
theorem readByte_writeBytes (m : List Host.Cell) (a c : Nat) (bs : List Byte) (h : Memory.wf m = true) :
    readByte (writeBytes m a bs) c = if a ≤ c ∧ c < a + bs.length then bs.getD (c - a) 0 else readByte m c := by
  induction bs generalizing m a with
  | nil => simp [writeBytes, show ¬(a ≤ c ∧ c < a) by omega]
  | cons b bs ih =>
    have e : writeBytes m a (b :: bs) = writeBytes (writeByte m a b) (a + 1) bs := rfl
    rw [e, ih _ _ (writeByte_wf m a b h), readByte_writeByte m a c b h, List.length_cons]
    by_cases h1 : c = a
    · subst h1
      rw [if_neg (by omega), if_pos rfl, if_pos (by omega), Nat.sub_self]
      rfl
    · by_cases h2 : a + 1 ≤ c ∧ c < a + 1 + bs.length
      · rw [if_pos h2, if_pos (by omega)]
        have : c - a = (c - (a + 1)) + 1 := by omega
        rw [this, List.getD_cons_succ]
      · rw [if_neg h2, if_neg h1, if_neg (by omega)]

theorem readByte_clearSpan (m : List Host.Cell) (lo hi c : Nat) (h : Memory.wf m = true) :
    readByte (clearSpan m lo hi) c = if lo ≤ c ∧ c < hi then 0 else readByte m c := by
  have := Tab.get_drop (0 : Byte) (fun a => decide (lo ≤ a ∧ a < hi)) m none h c
  simpa [readByte, clearSpan] using this

end Sys2Proof.Machine
end

