-- ==== Sys2Proof/Laws/Keeps.lean ====
section
/-! SUPPORT. What no operation of the machine undoes: the time base never moves back (R375), a fuse once blown stays blown (R438,
R486), and the bytes of the HBM stay in their canonical form. `Keeps s t` says it of a state `s` and a later one `t`. -/

namespace Sys2Proof.Machine

open Sys2Proof

theorem Burned.refl (f : Fuses) : Burned f f := ⟨⟨rfl, rfl, rfl, rfl, rfl⟩, by simp, Nat.le_refl _, .inl rfl⟩

theorem Burned.trans {f g h : Fuses} (a : Burned f g) (b : Burned g h) : Burned f h := by
  obtain ⟨⟨a1, a2, a3, a4, a5⟩, ar, as, al⟩ := a
  obtain ⟨⟨b1, b2, b3, b4, b5⟩, br, bs, bl⟩ := b
  refine ⟨⟨b1.trans a1, b2.trans a2, b3.trans a3, b4.trans a4, b5.trans a5⟩, ?_, Nat.le_trans as bs, ?_⟩
  · rw [← ar, BitVec.and_assoc, br]
  · rcases bl with e | e
    · rcases al with k | k
      · exact .inl (e.trans k)
      · exact .inr (e.trans k)
    · exact .inr e

theorem Burned.seal (f : Fuses) : Burned f { f with lifecycle := 2 } := ⟨⟨rfl, rfl, rfl, rfl, rfl⟩, by simp, Nat.le_refl _, .inr rfl⟩

theorem Burned.raise (f : Fuses) (n : Nat) : Burned f { f with svn := Nat.max f.svn n } :=
  ⟨⟨rfl, rfl, rfl, rfl, rfl⟩, by simp, Nat.le_max_left _ _, .inl rfl⟩

theorem Burned.revoke (f : Fuses) (m : BitVec 4) : Burned f { f with revoked := f.revoked ||| m } := by
  refine ⟨⟨rfl, rfl, rfl, rfl, rfl⟩, ?_, Nat.le_refl _, .inl rfl⟩
  simp only
  ext i hi
  simp only [BitVec.getElem_and, BitVec.getElem_or]
  cases f.revoked[i] <;> rfl

structure Keeps (s t : State) : Prop where
  time : s.sys.time ≤ t.sys.time
  fuses : Burned s.cfg.fuses t.cfg.fuses
  hbm : Memory.wf s.tier.hbm = true → Memory.wf t.tier.hbm = true

theorem Keeps.refl (s : State) : Keeps s s := ⟨Nat.le_refl _, Burned.refl _, id⟩

theorem Keeps.trans {s t u : State} (a : Keeps s t) (b : Keeps t u) : Keeps s u :=
  ⟨Nat.le_trans a.time b.time, a.fuses.trans b.fuses, fun h => b.hbm (a.hbm h)⟩

/-- Whatever leaves the time, the fuses and the HBM as they are keeps them. -/
theorem Keeps.of_eq {a s t : State} (ht : t.sys.time = s.sys.time) (hf : t.cfg.fuses = s.cfg.fuses) (hm : t.tier.hbm = s.tier.hbm)
    (h : Keeps a s) : Keeps a t :=
  ⟨ht ▸ h.time, hf ▸ h.fuses, hm ▸ h.hbm⟩

/-- The second part of a pair that is known. -/
theorem Keeps.snd {α : Type} {a t : State} {p : α × State} {r : α} (e : p = (r, t)) (h : Keeps a p.2) : Keeps a t := by
  subst e; exact h

theorem Keeps.snd2 {α β : Type} {a t : State} {p : α × β × State} {r : α} {q : β} (e : p = (r, q, t)) (h : Keeps a p.2.2) : Keeps a t := by
  subst e; exact h

theorem Keeps.foldl {α : Type} {a : State} {f : State → α → State} (hf : ∀ s x, Keeps a s → Keeps a (f s x)) (l : List α) {s : State}
    (h : Keeps a s) : Keeps a (l.foldl f s) := by
  induction l generalizing s with
  | nil => exact h
  | cons x l ih => exact ih (hf s x h)

theorem Keeps.foldl_snd {α β : Type} {a : State} {f : β × State → α → β × State} (hf : ∀ p x, Keeps a p.2 → Keeps a (f p x).2) (l : List α)
    {p : β × State} (h : Keeps a p.2) : Keeps a (l.foldl f p).2 := by
  induction l generalizing p with
  | nil => exact h
  | cons x l ih => exact ih (hf p x h)

theorem Keeps.record {a s : State} {sys ext tier flash jrn home coh own nmc xlt cdc emb prn hp fab ras flt cfg pins trl tel regs out free pending}
    (ht : sys.time = s.sys.time) (hf : cfg.fuses = s.cfg.fuses) (hm : tier.hbm = s.tier.hbm) (h : Keeps a s) :
    Keeps a ⟨sys, ext, tier, flash, jrn, home, coh, own, nmc, xlt, cdc, emb, prn, hp, fab, ras, flt, cfg, pins, trl, tel, regs, out, free,
      pending⟩ :=
  Keeps.of_eq ht hf hm h

/-! ### The setters -/

variable {a s : State}

/-- What a command keeps of a state that keeps `a`. -/
def Runs (a : State) (f : State → Host.Outcome State Fault Refusal) : Prop := ∀ s, Keeps a s → ∀ t, f s = .next t → Keeps a t

theorem Runs.complete {a : State} {f : State → State → State} (hf : ∀ s, Keeps a s → Keeps a (f s s)) :
    Runs a (fun s => complete (f s) s) := by
  intro s h t e
  cases e
  have k := hf s h
  exact ⟨k.time, k.fuses, k.hbm⟩

theorem State.modSys_keeps {f : Sys → Sys} (hf : s.sys.time ≤ (f s.sys).time) (h : Keeps a s) : Keeps a (s.modSys f) :=
  ⟨Nat.le_trans h.time hf, h.fuses, h.hbm⟩

/-- Where the time started at zero, it may be set to anything. -/
theorem State.modSys_zero {f : Sys → Sys} (h0 : a.sys.time = 0) (h : Keeps a s) : Keeps a (s.modSys f) :=
  ⟨by rw [h0]; exact Nat.zero_le _, h.fuses, h.hbm⟩

theorem State.modTier_keeps {f : Tier → Tier} (hf : ∀ t, Memory.wf t.hbm = true → Memory.wf (f t).hbm = true) (h : Keeps a s) :
    Keeps a (s.modTier f) :=
  ⟨h.time, h.fuses, fun w => hf _ (h.hbm w)⟩

theorem State.modCfg_keeps {f : Cfg → Cfg} (hf : ∀ c, Burned c.fuses (f c).fuses) (h : Keeps a s) : Keeps a (s.modCfg f) :=
  ⟨h.time, h.fuses.trans (hf _), h.hbm⟩

theorem State.modExt_keeps {f} (h : Keeps a s) : Keeps a (s.modExt f) := ⟨h.time, h.fuses, h.hbm⟩
theorem State.modFlash_keeps {f} (h : Keeps a s) : Keeps a (s.modFlash f) := ⟨h.time, h.fuses, h.hbm⟩
theorem State.modJrn_keeps {f} (h : Keeps a s) : Keeps a (s.modJrn f) := ⟨h.time, h.fuses, h.hbm⟩
theorem State.modHome_keeps {f} (h : Keeps a s) : Keeps a (s.modHome f) := ⟨h.time, h.fuses, h.hbm⟩
theorem State.modCoh_keeps {f} (h : Keeps a s) : Keeps a (s.modCoh f) := ⟨h.time, h.fuses, h.hbm⟩
theorem State.modOwn_keeps {f} (h : Keeps a s) : Keeps a (s.modOwn f) := ⟨h.time, h.fuses, h.hbm⟩
theorem State.modNmc_keeps {f} (h : Keeps a s) : Keeps a (s.modNmc f) := ⟨h.time, h.fuses, h.hbm⟩
theorem State.modXlt_keeps {f} (h : Keeps a s) : Keeps a (s.modXlt f) := ⟨h.time, h.fuses, h.hbm⟩
theorem State.modCdc_keeps {f} (h : Keeps a s) : Keeps a (s.modCdc f) := ⟨h.time, h.fuses, h.hbm⟩
theorem State.modEmb_keeps {f} (h : Keeps a s) : Keeps a (s.modEmb f) := ⟨h.time, h.fuses, h.hbm⟩
theorem State.modPrn_keeps {f} (h : Keeps a s) : Keeps a (s.modPrn f) := ⟨h.time, h.fuses, h.hbm⟩
theorem State.modHp_keeps {f} (h : Keeps a s) : Keeps a (s.modHp f) := ⟨h.time, h.fuses, h.hbm⟩
theorem State.modFab_keeps {f} (h : Keeps a s) : Keeps a (s.modFab f) := ⟨h.time, h.fuses, h.hbm⟩
theorem State.modRas_keeps {f} (h : Keeps a s) : Keeps a (s.modRas f) := ⟨h.time, h.fuses, h.hbm⟩
theorem State.modFlt_keeps {f} (h : Keeps a s) : Keeps a (s.modFlt f) := ⟨h.time, h.fuses, h.hbm⟩
theorem State.modPins_keeps {f} (h : Keeps a s) : Keeps a (s.modPins f) := ⟨h.time, h.fuses, h.hbm⟩
theorem State.modTrl_keeps {f} (h : Keeps a s) : Keeps a (s.modTrl f) := ⟨h.time, h.fuses, h.hbm⟩
theorem State.modTel_keeps {f} (h : Keeps a s) : Keeps a (s.modTel f) := ⟨h.time, h.fuses, h.hbm⟩
theorem State.modRegs_keeps {f} (h : Keeps a s) : Keeps a (s.modRegs f) := ⟨h.time, h.fuses, h.hbm⟩
theorem emit_keeps {o : Out} (h : Keeps a s) : Keeps a (emit o s) := ⟨h.time, h.fuses, h.hbm⟩
theorem emitAll_keeps {os : List Out} (h : Keeps a s) : Keeps a (emitAll os s) := ⟨h.time, h.fuses, h.hbm⟩
theorem State.draw_keeps (h : Keeps a s) : Keeps a s.draw := ⟨h.time, h.fuses, h.hbm⟩
theorem reach_keeps {t : Nat} (h : Keeps a s) : Keeps a (reach t s) := State.modSys_keeps (Nat.le_max_left _ _) h

theorem withSome_keeps {α : Type} {o : Option α} {f : α → State → State} (hf : ∀ x s, Keeps a s → Keeps a (f x s)) (h : Keeps a s) :
    Keeps a (withSome o f s) := by
  cases o with
  | none => exact h
  | some x => exact hf x s h

theorem onlyIf_keeps {b : Bool} {f : State → State} (hf : ∀ s, Keeps a s → Keeps a (f s)) (h : Keeps a s) : Keeps a (onlyIf b f s) := by
  cases b with
  | false => exact h
  | true => exact hf s h

theorem forAll_keeps {α : Type} {l : List α} {f : α → State → State} (hf : ∀ x s, Keeps a s → Keeps a (f x s)) (h : Keeps a s) :
    Keeps a (forAll l f s) :=
  Keeps.foldl (fun s x => hf x s) l h

theorem putMasked_wf {m : List Host.Cell} {line : Nat} {mask : BitVec 128} {data : List Byte} (h : Memory.wf m = true) :
    Memory.wf (putMasked m line mask data) = true := by
  unfold putMasked
  generalize List.range 128 = l
  induction l generalizing m with
  | nil => exact h
  | cons i l ih =>
    simp only [List.foldl]
    split
    · exact ih (writeByte_wf m _ _ h)
    · exact ih h

end Sys2Proof.Machine
end

