-- ==== Sys2Proof/Laws/KeepsOps.lean ====
section
/-! SUPPORT. What the operations of Machine/Ops.lean keep (Laws/Keeps.lean). -/

namespace Sys2Proof.Machine

open Sys2Proof

theorem beginTimer_keeps {a : State} {x1 : _} {s : State} (h : Keeps a s)  : Keeps a (beginTimer x1 s) := by
  unfold beginTimer
  repeat' (first | with_reducible assumption | with_reducible apply State.modSys_keeps | with_reducible refine Keeps.foldl ?_ _ ?_ | with_reducible refine Keeps.foldl_snd ?_ _ ?_ | (exact Nat.le_refl _))

theorem elapsed_keeps {a : State} {x1 : _} {x2 : _} {s : State} (h : Keeps a s)  : Keeps a (elapsed x1 x2 s) := by
  unfold elapsed
  repeat' (first | with_reducible assumption | with_reducible apply beginTimer_keeps | with_reducible apply reach_keeps)

end Sys2Proof.Machine
end

