-- ==== Sys2Proof/Laws/KeepsRegMap.lean ====
section
/-! SUPPORT. What the operations of Machine/RegMap.lean keep (Laws/Keeps.lean). -/

namespace Sys2Proof.Machine

open Sys2Proof

theorem regSet_keeps {a : State} {x1 : _} {x2 : _} {s : State} (h : Keeps a s)  : Keeps a (regSet x1 x2 s) := by
  unfold regSet
  repeat' (first | with_reducible assumption | with_reducible apply State.modRegs_keeps)

theorem stageSet_keeps {a : State} {x1 : _} {x2 : _} {x3 : _} {s : State} (h : Keeps a s)  : Keeps a (stageSet x1 x2 x3 s) := by
  unfold stageSet
  repeat' (first | with_reducible assumption | with_reducible apply State.modRegs_keeps)

theorem countRC_keeps {a : State} {x1 : _} {x2 : _} {s : State} (h : Keeps a s)  : Keeps a (countRC x1 x2 s) := by
  unfold countRC
  repeat' (first | with_reducible assumption | with_reducible apply regSet_keeps)

theorem doneMod_keeps {a : State} {x1 : _} {x2 : _} {s : State} (h : Keeps a s)  : Keeps a (doneMod x1 x2 s) := by
  unfold doneMod
  repeat' (first | with_reducible assumption | with_reducible apply State.modRegs_keeps)

end Sys2Proof.Machine
end

