-- ==== Sys2Proof/Laws/KeepsReport.lean ====
section
/-! SUPPORT. What the operations of Machine/Report.lean keep (Laws/Keeps.lean). -/

namespace Sys2Proof.Machine

open Sys2Proof

theorem post_keeps {a : State} {x1 : _} {x2 : _} {x3 : _} {s : State} (h : Keeps a s)  : Keeps a (post x1 x2 x3 s) := by
  unfold post
  repeat' (first | with_reducible assumption | with_reducible apply State.modRas_keeps | with_reducible apply emit_keeps | with_reducible refine Keeps.foldl ?_ _ ?_ | with_reducible refine Keeps.foldl_snd ?_ _ ?_ | intro _ | with_reducible refine Keeps.snd (by with_reducible assumption) ?_ | split | dsimp only)

theorem postDev_keeps {a : State} {x1 : _} {x2 : _} {s : State} (h : Keeps a s)  : Keeps a (postDev x1 x2 s) := by
  unfold postDev
  repeat' (first | with_reducible assumption | with_reducible apply post_keeps)

theorem postExt_keeps {a : State} {x1 : _} {x2 : _} {s : State} (h : Keeps a s)  : Keeps a (postExt x1 x2 s) := by
  unfold postExt
  repeat' (first | with_reducible assumption | with_reducible apply post_keeps)

theorem countErr_keeps {a : State} {x1 : _} {s : State} (h : Keeps a s)  : Keeps a (countErr x1 s) := by
  unfold countErr
  repeat' (first | with_reducible assumption | with_reducible apply State.modRas_keeps)

theorem writeErr_keeps {a : State} {x1 : _} {x2 : _} {s : State} (h : Keeps a s)  : Keeps a (writeErr x1 x2 s) := by
  unfold writeErr
  repeat' (first | with_reducible assumption | with_reducible apply State.modRas_keeps | with_reducible apply post_keeps | with_reducible refine Keeps.foldl ?_ _ ?_ | with_reducible refine Keeps.foldl_snd ?_ _ ?_ | intro _ | with_reducible refine Keeps.snd (by with_reducible assumption) ?_ | split)

theorem stormCount_keeps {a : State} {x1 : _} {s : State} (h : Keeps a s)  : Keeps a (stormCount x1 s) := by
  unfold stormCount
  repeat' (first | with_reducible assumption | with_reducible apply State.modRas_keeps | with_reducible apply writeErr_keeps | with_reducible apply countErr_keeps | with_reducible apply postDev_keeps | with_reducible refine Keeps.foldl ?_ _ ?_ | with_reducible refine Keeps.foldl_snd ?_ _ ?_ | intro _ | with_reducible refine Keeps.snd (by with_reducible assumption) ?_ | split | dsimp only)

theorem raiseFrom_keeps {a : State} {x1 : _} {x2 : _} {s : State} (h : Keeps a s)  : Keeps a (raiseFrom x1 x2 s) := by
  unfold raiseFrom
  repeat' (first | with_reducible assumption | with_reducible apply writeErr_keeps | with_reducible apply stormCount_keeps | with_reducible apply countErr_keeps)

theorem raise_keeps {a : State} {x1 : _} {s : State} (h : Keeps a s)  : Keeps a (raise x1 s) := by
  unfold raise
  repeat' (first | with_reducible assumption | with_reducible apply raiseFrom_keeps)

theorem rejected_keeps {a : State} {x1 : _} {s : State} (h : Keeps a s)  : Keeps a (rejected x1 s) := by
  unfold rejected
  repeat' (first | with_reducible assumption | with_reducible apply raise_keeps)

theorem mismatch_keeps {a : State} {x1 : _} {s : State} (h : Keeps a s)  : Keeps a (mismatch x1 s) := by
  unfold mismatch
  repeat' (first | with_reducible assumption | with_reducible apply raise_keeps)

theorem modFabLink_keeps {a : State} {x1 : _} {x2 : _} {s : State} (h : Keeps a s)  : Keeps a (modFabLink x1 x2 s) := by
  unfold modFabLink
  repeat' (first | with_reducible assumption | with_reducible apply State.modFab_keeps)

theorem reserveAnswer_keeps {a : State} {x1 : _} {s : State} (h : Keeps a s)  : Keeps a (reserveAnswer x1 s) := by
  unfold reserveAnswer
  repeat' (first | with_reducible assumption | with_reducible apply State.modFab_keeps | with_reducible refine Keeps.foldl ?_ _ ?_ | with_reducible refine Keeps.foldl_snd ?_ _ ?_ | intro _ | with_reducible refine Keeps.snd (by with_reducible assumption) ?_ | split)

theorem telAdd_keeps {a : State} {x1 : _} {x2 : _} {s : State} (h : Keeps a s)  : Keeps a (telAdd x1 x2 s) := by
  unfold telAdd
  repeat' (first | with_reducible assumption | with_reducible apply State.modTel_keeps)

theorem advanceDone_keeps {a : State} {x1 : _} {x2 : _} {x3 : _} {x4 : _} {s : State} (h : Keeps a s)  : Keeps a (advanceDone x1 x2 x3 x4 s) := by
  unfold advanceDone
  repeat' (first | with_reducible assumption | with_reducible apply State.modHome_keeps | with_reducible apply post_keeps | with_reducible refine Keeps.foldl ?_ _ ?_ | with_reducible refine Keeps.foldl_snd ?_ _ ?_ | intro _ | with_reducible refine Keeps.snd (by with_reducible assumption) ?_ | split)

theorem jobAnswered_keeps {a : State} {x1 : _} {x2 : _} {x3 : _} {x4 : _} {x5 : _} {x6 : _} {s : State} (h : Keeps a s)  : Keeps a (jobAnswered x1 x2 x3 x4 x5 x6 s) := by
  unfold jobAnswered
  repeat' (first | with_reducible assumption | with_reducible apply State.modNmc_keeps)

theorem unitAnswered_keeps {a : State} {x1 : _} {x2 : _} {x3 : _} {x4 : _} {x5 : _} {s : State} (h : Keeps a s)  : Keeps a (unitAnswered x1 x2 x3 x4 x5 s) := by
  unfold unitAnswered
  repeat' (first | with_reducible assumption | with_reducible apply State.modNmc_keeps)

theorem answerOut_keeps {a : State} {x1 : _} {x2 : _} {s : State} (h : Keeps a s)  : Keeps a (answerOut x1 x2 s) := by
  unfold answerOut
  repeat' (first | with_reducible assumption | with_reducible apply reserveAnswer_keeps | with_reducible apply emit_keeps | with_reducible apply State.modFab_keeps | with_reducible apply countRC_keeps | with_reducible refine Keeps.foldl ?_ _ ?_ | with_reducible refine Keeps.foldl_snd ?_ _ ?_ | intro _ | with_reducible refine Keeps.snd (by with_reducible assumption) ?_ | split | dsimp only)

theorem answer_keeps {a : State} {x1 : _} {x2 : _} {x3 : _} {x4 : _} {s : State} (h : Keeps a s)  : Keeps a (answer x1 x2 x3 x4 s) := by
  unfold answer
  repeat' (first | with_reducible assumption | with_reducible apply telAdd_keeps | with_reducible apply jobAnswered_keeps | with_reducible apply unitAnswered_keeps | with_reducible apply State.modHome_keeps | with_reducible apply advanceDone_keeps | with_reducible apply emit_keeps | with_reducible apply answerOut_keeps | with_reducible refine Keeps.foldl ?_ _ ?_ | with_reducible refine Keeps.foldl_snd ?_ _ ?_ | intro _ | with_reducible refine Keeps.snd (by with_reducible assumption) ?_ | split)

theorem tell_keeps {a : State} {x1 : _} {x2 : _} {x3 : _} {x4 : _} {x5 : _} {s : State} (h : Keeps a s)  : Keeps a (tell x1 x2 x3 x4 x5 s) := by
  unfold tell
  repeat' (first | with_reducible assumption | with_reducible apply emit_keeps | with_reducible apply State.modFlt_keeps)

end Sys2Proof.Machine
end

