-- ==== Sys2Proof/Laws/KeepsShards.lean ====
section
/-! SUPPORT. What the operations of Machine/Shards.lean keep (Laws/Keeps.lean). -/

namespace Sys2Proof.Machine

open Sys2Proof

theorem countShard_keeps {a : State} {x1 : _} {x2 : _} {x3 : _} {s : State} (h : Keeps a s)  : Keeps a (countShard x1 x2 x3 s) := by
  unfold countShard
  repeat' (first | with_reducible assumption | with_reducible apply State.modEmb_keeps)

theorem noteRead_keeps {a : State} {x1 : _} {s : State} (h : Keeps a s)  : Keeps a (noteRead x1 s) := by
  unfold noteRead
  repeat' (first | with_reducible assumption | with_reducible apply countShard_keeps | with_reducible refine Keeps.foldl ?_ _ ?_ | with_reducible refine Keeps.foldl_snd ?_ _ ?_ | intro _ | with_reducible refine Keeps.snd (by with_reducible assumption) ?_ | split)

theorem noteWrite_keeps {a : State} {x1 : _} {s : State} (h : Keeps a s)  : Keeps a (noteWrite x1 s) := by
  unfold noteWrite
  repeat' (first | with_reducible assumption | with_reducible apply State.modEmb_keeps | with_reducible refine Keeps.foldl ?_ _ ?_ | with_reducible refine Keeps.foldl_snd ?_ _ ?_ | intro _ | with_reducible refine Keeps.snd (by with_reducible assumption) ?_ | split | dsimp only)

theorem dropCuts_keeps {a : State} {x1 : _} {s : State} (h : Keeps a s)  : Keeps a (dropCuts x1 s) := by
  unfold dropCuts
  repeat' (first | with_reducible assumption | with_reducible apply emitAll_keeps | with_reducible apply State.modEmb_keeps)

end Sys2Proof.Machine
end

