-- ==== Sys2Proof/Laws/KeepsTier.lean ====
section
/-! SUPPORT. What the operations of Machine/Tier.lean keep (Laws/Keeps.lean). -/

namespace Sys2Proof.Machine

open Sys2Proof

theorem modTag_keeps {a : State} {x1 : _} {x2 : _} {s : State} (h : Keeps a s)  : Keeps a (modTag x1 x2 s) := by
  unfold modTag
  repeat' (first | with_reducible assumption | with_reducible apply State.modTier_keeps | with_reducible refine Keeps.foldl ?_ _ ?_ | with_reducible refine Keeps.foldl_snd ?_ _ ?_ | (exact fun _ h => h))

theorem pinSpill_keeps {a : State} {x1 : _} {s : State} (h : Keeps a s)  : Keeps a (pinSpill x1 s) := by
  unfold pinSpill
  repeat' (first | with_reducible assumption | with_reducible apply countRC_keeps | with_reducible apply postExt_keeps | with_reducible apply State.modTier_keeps | with_reducible refine Keeps.foldl ?_ _ ?_ | with_reducible refine Keeps.foldl_snd ?_ _ ?_ | (exact fun _ h => h) | (exact fun _ _ => rfl) | intro _ | with_reducible apply clearSpan_wf | with_reducible apply writeCells_wf | with_reducible apply putMasked_wf | with_reducible refine Keeps.snd (by with_reducible assumption) ?_ | split | dsimp only)

theorem pinFrame_keeps {a : State} {x1 : _} {s : State} (h : Keeps a s)  : Keeps a (pinFrame x1 s) := by
  unfold pinFrame
  repeat' (first | with_reducible assumption | with_reducible apply modTag_keeps | with_reducible apply pinSpill_keeps | with_reducible refine Keeps.foldl ?_ _ ?_ | with_reducible refine Keeps.foldl_snd ?_ _ ?_ | intro _ | with_reducible refine Keeps.snd (by with_reducible assumption) ?_ | split)

theorem installRetention_keeps {a : State} {x1 : _} {s : State} (h : Keeps a s)  : Keeps a (installRetention x1 s) := by
  unfold installRetention
  repeat' (first | with_reducible assumption | with_reducible apply modTag_keeps | with_reducible apply pinFrame_keeps | with_reducible refine Keeps.foldl ?_ _ ?_ | with_reducible refine Keeps.foldl_snd ?_ _ ?_ | intro _ | with_reducible refine Keeps.snd (by with_reducible assumption) ?_ | split)

theorem trackUnit_keeps {a : State} {x1 : _} {x2 : _} {s : State} (h : Keeps a s)  : Keeps a (trackUnit x1 x2 s) := by
  unfold trackUnit
  repeat' (first | with_reducible assumption | with_reducible apply State.modHome_keeps)

theorem holdHome_keeps {a : State} {x1 : _} {s : State} (h : Keeps a s)  : Keeps a (holdHome x1 s) := by
  unfold holdHome
  repeat' (first | with_reducible assumption | with_reducible apply postExt_keeps | with_reducible apply State.modFlash_keeps)

theorem startUnit_keeps {a : State} {x1 : _} {x2 : _} {s : State} (h : Keeps a s)  : Keeps a (startUnit x1 x2 s) := by
  unfold startUnit
  repeat' (first | with_reducible assumption | with_reducible apply holdHome_keeps | with_reducible apply State.modTier_keeps | with_reducible apply emit_keeps | with_reducible apply trackUnit_keeps | with_reducible refine Keeps.foldl ?_ _ ?_ | with_reducible refine Keeps.foldl_snd ?_ _ ?_ | (exact fun _ h => h) | (exact fun _ _ => rfl) | intro _ | with_reducible apply clearSpan_wf | with_reducible apply writeCells_wf | with_reducible apply putMasked_wf | with_reducible refine Keeps.snd (by with_reducible assumption) ?_ | split | dsimp only)

theorem startWriteBack_keeps {a : State} {x1 : _} {x2 : _} {s : State} (h : Keeps a s)  : Keeps a (startWriteBack x1 x2 s) := by
  unfold startWriteBack
  repeat' (first | with_reducible assumption | with_reducible apply startUnit_keeps | with_reducible refine Keeps.foldl ?_ _ ?_ | with_reducible refine Keeps.foldl_snd ?_ _ ?_ | intro _ | with_reducible refine Keeps.snd (by with_reducible assumption) ?_ | split)

theorem dropFrame_keeps {a : State} {x1 : _} {s : State} (h : Keeps a s)  : Keeps a (dropFrame x1 s) := by
  unfold dropFrame
  repeat' (first | with_reducible assumption | with_reducible apply State.modTier_keeps | with_reducible refine Keeps.foldl ?_ _ ?_ | with_reducible refine Keeps.foldl_snd ?_ _ ?_ | (exact fun _ h => h) | (exact fun _ _ => rfl) | intro _ | with_reducible apply clearSpan_wf)

theorem ageSet_keeps {a : State} {x1 : _} {s : State} (h : Keeps a s)  : Keeps a (ageSet x1 s) := by
  unfold ageSet
  repeat' (first | with_reducible assumption | with_reducible apply State.modTier_keeps | with_reducible refine Keeps.foldl ?_ _ ?_ | with_reducible refine Keeps.foldl_snd ?_ _ ?_ | (exact fun _ h => h))

theorem allocFrame_keeps {a : State} {x1 : _} {x2 : _} {s : State} (h : Keeps a s)  : Keeps a (allocFrame x1 x2 s).2 := by
  unfold allocFrame
  repeat' (first | with_reducible assumption | with_reducible apply installRetention_keeps | with_reducible apply modTag_keeps | with_reducible apply ageSet_keeps | with_reducible apply dropFrame_keeps | with_reducible apply startWriteBack_keeps | with_reducible refine Keeps.foldl ?_ _ ?_ | with_reducible refine Keeps.foldl_snd ?_ _ ?_ | intro _ | with_reducible refine Keeps.snd (by with_reducible assumption) ?_ | split | dsimp only)

theorem installFill_keeps {a : State} {x1 : _} {x2 : _} {s : State} (h : Keeps a s)  : Keeps a (installFill x1 x2 s) := by
  unfold installFill
  repeat' (first | with_reducible assumption | with_reducible apply telAdd_keeps | with_reducible apply State.modTier_keeps | with_reducible apply modTag_keeps | with_reducible refine Keeps.foldl ?_ _ ?_ | with_reducible refine Keeps.foldl_snd ?_ _ ?_ | (exact fun _ h => h) | (exact fun _ _ => rfl) | intro _ | with_reducible apply clearSpan_wf | with_reducible apply writeCells_wf | with_reducible apply putMasked_wf | with_reducible refine Keeps.snd (by with_reducible assumption) ?_ | split)

theorem thrash_keeps {a : State} {x1 : _} {s : State} (h : Keeps a s)  : Keeps a (thrash x1 s) := by
  unfold thrash
  repeat' (first | with_reducible assumption | with_reducible apply postExt_keeps | with_reducible apply State.modTier_keeps | with_reducible refine Keeps.foldl ?_ _ ?_ | with_reducible refine Keeps.foldl_snd ?_ _ ?_ | (exact fun _ h => h) | (exact fun _ _ => rfl) | intro _ | with_reducible apply clearSpan_wf | with_reducible apply writeCells_wf | with_reducible apply putMasked_wf | with_reducible refine Keeps.snd (by with_reducible assumption) ?_ | split | dsimp only)

theorem countRefetch_keeps {a : State} {x1 : _} {s : State} (h : Keeps a s)  : Keeps a (countRefetch x1 s) := by
  unfold countRefetch
  repeat' (first | with_reducible assumption | with_reducible apply thrash_keeps | with_reducible apply State.modTier_keeps | with_reducible refine Keeps.foldl ?_ _ ?_ | with_reducible refine Keeps.foldl_snd ?_ _ ?_ | (exact fun _ h => h) | (exact fun _ _ => rfl) | intro _ | with_reducible apply clearSpan_wf | with_reducible apply writeCells_wf | with_reducible apply putMasked_wf | with_reducible refine Keeps.snd (by with_reducible assumption) ?_ | split)

theorem findUnit_keeps {a : State} {x1 : _} {s : State} (h : Keeps a s)  : Keeps a (findUnit x1 s) := by
  unfold findUnit
  repeat' (first | with_reducible assumption | with_reducible apply tell_keeps | with_reducible refine Keeps.foldl ?_ _ ?_ | with_reducible refine Keeps.foldl_snd ?_ _ ?_ | intro _ | with_reducible refine Keeps.snd (by with_reducible assumption) ?_ | split)

theorem askMembers_keeps {a : State} {x1 : _} {s : State} (h : Keeps a s)  : Keeps a (askMembers x1 s) := by
  unfold askMembers
  repeat' (first | with_reducible assumption | with_reducible apply emit_keeps | with_reducible refine Keeps.foldl ?_ _ ?_ | with_reducible refine Keeps.foldl_snd ?_ _ ?_ | intro _ | with_reducible refine Keeps.snd (by with_reducible assumption) ?_ | split | dsimp only)

theorem fetchFrame_keeps {a : State} {x1 : _} {s : State} (h : Keeps a s)  : Keeps a (fetchFrame x1 s).2 := by
  unfold fetchFrame
  repeat' (first | with_reducible assumption | with_reducible apply allocFrame_keeps | with_reducible apply askMembers_keeps | with_reducible apply findUnit_keeps | with_reducible apply countRefetch_keeps | with_reducible apply modTag_keeps | with_reducible refine Keeps.foldl ?_ _ ?_ | with_reducible refine Keeps.foldl_snd ?_ _ ?_ | intro _ | with_reducible refine Keeps.snd (by with_reducible assumption) ?_ | split | dsimp only)

theorem prefetchAuto_keeps {a : State} {x1 : _} {s : State} (h : Keeps a s)  : Keeps a (prefetchAuto x1 s) := by
  unfold prefetchAuto
  repeat' (first | with_reducible assumption | with_reducible apply State.modTier_keeps | with_reducible apply fetchFrame_keeps | with_reducible refine Keeps.foldl ?_ _ ?_ | with_reducible refine Keeps.foldl_snd ?_ _ ?_ | (exact fun _ h => h) | (exact fun _ _ => rfl) | intro _ | with_reducible apply clearSpan_wf | with_reducible apply writeCells_wf | with_reducible apply putMasked_wf | with_reducible refine Keeps.snd (by with_reducible assumption) ?_ | split | dsimp only)

theorem missFetch_keeps {a : State} {x1 : _} {s : State} (h : Keeps a s)  : Keeps a (missFetch x1 s).2 := by
  unfold missFetch
  repeat' (first | with_reducible assumption | with_reducible apply fetchFrame_keeps | with_reducible apply prefetchAuto_keeps | with_reducible refine Keeps.foldl ?_ _ ?_ | with_reducible refine Keeps.foldl_snd ?_ _ ?_ | intro _ | with_reducible refine Keeps.snd (by with_reducible assumption) ?_ | split)

theorem flashOnlyOut_keeps {a : State} {x1 : _} {s : State} (h : Keeps a s)  : Keeps a (flashOnlyOut x1 s) := by
  unfold flashOnlyOut
  repeat' (first | with_reducible assumption | with_reducible apply startWriteBack_keeps | with_reducible refine Keeps.foldl ?_ _ ?_ | with_reducible refine Keeps.foldl_snd ?_ _ ?_ | intro _ | with_reducible refine Keeps.snd (by with_reducible assumption) ?_ | split)

theorem storeLine_keeps {a : State} {x1 : _} {x2 : _} {x3 : _} {s : State} (h : Keeps a s)  : Keeps a (storeLine x1 x2 x3 s) := by
  unfold storeLine
  repeat' (first | with_reducible assumption | with_reducible apply telAdd_keeps | with_reducible apply noteWrite_keeps | with_reducible apply State.modTier_keeps | with_reducible apply modTag_keeps | with_reducible apply flashOnlyOut_keeps | with_reducible refine Keeps.foldl ?_ _ ?_ | with_reducible refine Keeps.foldl_snd ?_ _ ?_ | (exact fun _ h => h) | (exact fun _ _ => rfl) | intro _ | with_reducible apply clearSpan_wf | with_reducible apply writeCells_wf | with_reducible apply putMasked_wf)

theorem readyFull_keeps {a : State} {x1 : _} {s : State} (h : Keeps a s)  : Keeps a (readyFull x1 s).2 := by
  unfold readyFull
  repeat' (first | with_reducible assumption | with_reducible apply allocFrame_keeps | with_reducible refine Keeps.foldl ?_ _ ?_ | with_reducible refine Keeps.foldl_snd ?_ _ ?_ | intro _ | with_reducible refine Keeps.snd (by with_reducible assumption) ?_ | split)

theorem touchFrame_keeps {a : State} {x1 : _} {s : State} (h : Keeps a s)  : Keeps a (touchFrame x1 s) := by
  unfold touchFrame
  repeat' (first | with_reducible assumption | with_reducible apply modTag_keeps | with_reducible apply postExt_keeps | with_reducible apply State.modTier_keeps | with_reducible refine Keeps.foldl ?_ _ ?_ | with_reducible refine Keeps.foldl_snd ?_ _ ?_ | (exact fun _ h => h) | (exact fun _ _ => rfl) | intro _ | with_reducible apply clearSpan_wf | with_reducible apply writeCells_wf | with_reducible apply putMasked_wf | with_reducible refine Keeps.snd (by with_reducible assumption) ?_ | split | dsimp only)

theorem programUnit_keeps {a : State} {x1 : _} {x2 : _} {s : State} (h : Keeps a s)  : Keeps a (programUnit x1 x2 s) := by
  unfold programUnit
  repeat' (first | with_reducible assumption | with_reducible apply State.modFlash_keeps | with_reducible apply telAdd_keeps)

theorem sendMember_keeps {a : State} {x1 : _} {x2 : _} {x3 : _} {x4 : _} {s : State} (h : Keeps a s)  : Keeps a (sendMember x1 x2 x3 x4 s) := by
  unfold sendMember
  repeat' (first | with_reducible assumption | with_reducible apply State.modFlash_keeps | with_reducible apply telAdd_keeps | with_reducible apply emit_keeps | with_reducible apply trackUnit_keeps | with_reducible refine Keeps.foldl ?_ _ ?_ | with_reducible refine Keeps.foldl_snd ?_ _ ?_ | intro _ | with_reducible refine Keeps.snd (by with_reducible assumption) ?_ | split | dsimp only)

theorem placeUnit_keeps {a : State} {x1 : _} {x2 : _} {s : State} (h : Keeps a s)  : Keeps a (placeUnit x1 x2 s) := by
  unfold placeUnit
  repeat' (first | with_reducible assumption | with_reducible apply sendMember_keeps | with_reducible apply State.modFlash_keeps | with_reducible apply programUnit_keeps | with_reducible refine Keeps.foldl ?_ _ ?_ | with_reducible refine Keeps.foldl_snd ?_ _ ?_ | intro _ | with_reducible refine Keeps.snd (by with_reducible assumption) ?_ | split | dsimp only)

theorem evictOne_keeps {a : State} {x1 : _} {s : State} (h : Keeps a s)  : Keeps a (evictOne x1 s) := by
  unfold evictOne
  repeat' (first | with_reducible assumption | with_reducible apply State.modTier_keeps | with_reducible apply dropFrame_keeps | with_reducible apply startWriteBack_keeps | with_reducible refine Keeps.foldl ?_ _ ?_ | with_reducible refine Keeps.foldl_snd ?_ _ ?_ | (exact fun _ h => h) | (exact fun _ _ => rfl) | intro _ | with_reducible apply clearSpan_wf | with_reducible apply writeCells_wf | with_reducible apply putMasked_wf | with_reducible refine Keeps.snd (by with_reducible assumption) ?_ | split | dsimp only)

theorem evictRetired_keeps {a : State} {s : State} (h : Keeps a s)  : Keeps a (evictRetired s) := by
  unfold evictRetired
  repeat' (first | with_reducible assumption | with_reducible apply evictOne_keeps | with_reducible refine Keeps.foldl ?_ _ ?_ | with_reducible refine Keeps.foldl_snd ?_ _ ?_ | intro _)

theorem finishWriteBack_keeps {a : State} {x1 : _} {s : State} (h : Keeps a s)  : Keeps a (finishWriteBack x1 s) := by
  unfold finishWriteBack
  repeat' (first | with_reducible assumption | with_reducible apply placeUnit_keeps | with_reducible apply State.modFlash_keeps | with_reducible apply evictRetired_keeps | with_reducible apply State.modTier_keeps | with_reducible refine Keeps.foldl ?_ _ ?_ | with_reducible refine Keeps.foldl_snd ?_ _ ?_ | (exact fun _ h => h))

theorem abandonWriteBack_keeps {a : State} {x1 : _} {s : State} (h : Keeps a s)  : Keeps a (abandonWriteBack x1 s) := by
  unfold abandonWriteBack
  repeat' (first | with_reducible assumption | with_reducible apply State.modTier_keeps | with_reducible refine Keeps.foldl ?_ _ ?_ | with_reducible refine Keeps.foldl_snd ?_ _ ?_ | (exact fun _ h => h))

end Sys2Proof.Machine
end

