-- ==== Sys2Proof/Laws/KeepsJournal.lean ====
section
/-! SUPPORT. What the operations of Machine/Journal.lean keep (Laws/Keeps.lean). -/

namespace Sys2Proof.Machine

open Sys2Proof

theorem ringHigh_keeps {a : State} {s : State} (h : Keeps a s)  : Keeps a (ringHigh s) := by
  unfold ringHigh
  repeat' (first | with_reducible assumption | with_reducible apply postDev_keeps | with_reducible apply State.modJrn_keeps | with_reducible refine Keeps.foldl ?_ _ ?_ | with_reducible refine Keeps.foldl_snd ?_ _ ?_ | intro _ | with_reducible refine Keeps.snd (by with_reducible assumption) ?_ | split)

theorem startGroup_keeps {a : State} {s : State} (h : Keeps a s)  : Keeps a (startGroup s) := by
  unfold startGroup
  repeat' (first | with_reducible assumption | with_reducible apply State.modJrn_keeps | with_reducible refine Keeps.foldl ?_ _ ?_ | with_reducible refine Keeps.foldl_snd ?_ _ ?_ | intro _ | with_reducible refine Keeps.snd (by with_reducible assumption) ?_ | split)

theorem enterSlot_keeps {a : State} {x1 : _} {x2 : _} {s : State} (h : Keeps a s)  : Keeps a (enterSlot x1 x2 s) := by
  unfold enterSlot
  repeat' (first | with_reducible assumption | with_reducible apply State.modJrn_keeps | with_reducible apply startGroup_keeps | with_reducible apply ringHigh_keeps | with_reducible apply telAdd_keeps)

theorem journal_keeps {a : State} {x1 : _} {s : State} (h : Keeps a s)  : Keeps a (journal x1 s) := by
  unfold journal
  repeat' (first | with_reducible assumption | with_reducible apply enterSlot_keeps | with_reducible apply State.modJrn_keeps)

theorem sendMirror_keeps {a : State} {x1 : _} {x2 : _} {s : State} (h : Keeps a s)  : Keeps a (sendMirror x1 x2 s) := by
  unfold sendMirror
  repeat' (first | with_reducible assumption | with_reducible apply emit_keeps | with_reducible apply State.modJrn_keeps)

theorem endPairLost_keeps {a : State} {x1 : _} {s : State} (h : Keeps a s)  : Keeps a (endPairLost x1 s) := by
  unfold endPairLost
  repeat' (first | with_reducible assumption | with_reducible apply State.modJrn_keeps | with_reducible refine Keeps.foldl ?_ _ ?_ | with_reducible refine Keeps.foldl_snd ?_ _ ?_ | intro _ | with_reducible refine Keeps.snd (by with_reducible assumption) ?_ | split)

theorem notePairLost_keeps {a : State} {x1 : _} {s : State} (h : Keeps a s)  : Keeps a (notePairLost x1 s) := by
  unfold notePairLost
  repeat' (first | with_reducible assumption | with_reducible apply postDev_keeps | with_reducible apply State.modJrn_keeps | with_reducible refine Keeps.foldl ?_ _ ?_ | with_reducible refine Keeps.foldl_snd ?_ _ ?_ | intro _ | with_reducible refine Keeps.snd (by with_reducible assumption) ?_ | split | dsimp only)

theorem recordWrite_keeps {a : State} {x1 : _} {x2 : _} {s : State} (h : Keeps a s)  : Keeps a (recordWrite x1 x2 s) := by
  unfold recordWrite
  repeat' (first | with_reducible assumption | with_reducible apply journal_keeps | with_reducible apply notePairLost_keeps | with_reducible apply sendMirror_keeps | with_reducible refine Keeps.foldl ?_ _ ?_ | with_reducible refine Keeps.foldl_snd ?_ _ ?_ | intro _ | with_reducible refine Keeps.snd (by with_reducible assumption) ?_ | split)

theorem poisonTier_keeps {a : State} {x1 : _} {s : State} (h : Keeps a s)  : Keeps a (poisonTier x1 s) := by
  unfold poisonTier
  repeat' (first | with_reducible assumption | with_reducible apply readyFull_keeps | with_reducible apply State.modTier_keeps | with_reducible apply storeLine_keeps | with_reducible apply flashOnlyOut_keeps | with_reducible apply modTag_keeps | with_reducible refine Keeps.foldl ?_ _ ?_ | with_reducible refine Keeps.foldl_snd ?_ _ ?_ | (exact fun _ h => h) | (exact fun _ _ => rfl) | intro _ | with_reducible apply clearSpan_wf | with_reducible apply writeCells_wf | with_reducible apply putMasked_wf | with_reducible refine Keeps.snd (by with_reducible assumption) ?_ | split)

theorem poisonDue_keeps {a : State} {s : State} (h : Keeps a s)  : Keeps a (poisonDue s) := by
  unfold poisonDue
  repeat' (first | with_reducible assumption | with_reducible apply poisonTier_keeps | with_reducible refine Keeps.foldl ?_ _ ?_ | with_reducible refine Keeps.foldl_snd ?_ _ ?_ | intro _)

theorem poisonLine_keeps {a : State} {x1 : _} {x2 : _} {s : State} (h : Keeps a s)  : Keeps a (poisonLine x1 x2 s) := by
  unfold poisonLine
  repeat' (first | with_reducible assumption | with_reducible apply recordWrite_keeps | with_reducible apply poisonTier_keeps)

theorem mirrorCtl_keeps {a : State} {x1 : _} {x2 : _} {s : State} (h : Keeps a s)  : Keeps a (mirrorCtl x1 x2 s) := by
  unfold mirrorCtl
  repeat' (first | with_reducible assumption | with_reducible apply emit_keeps | with_reducible apply State.modFlt_keeps | with_reducible refine Keeps.foldl ?_ _ ?_ | with_reducible refine Keeps.foldl_snd ?_ _ ?_ | intro _ | with_reducible refine Keeps.snd (by with_reducible assumption) ?_ | split)

theorem journalCtl_keeps {a : State} {x1 : _} {x2 : _} {x3 : _} {s : State} (h : Keeps a s)  : Keeps a (journalCtl x1 x2 x3 s) := by
  unfold journalCtl
  repeat' (first | with_reducible assumption | with_reducible apply journal_keeps | with_reducible apply sendMirror_keeps | with_reducible apply mirrorCtl_keeps | with_reducible refine Keeps.foldl ?_ _ ?_ | with_reducible refine Keeps.foldl_snd ?_ _ ?_ | intro _ | with_reducible refine Keeps.snd (by with_reducible assumption) ?_ | split)

theorem advanceLoss_keeps {a : State} {x1 : _} {x2 : _} {s : State} (h : Keeps a s)  : Keeps a (advanceLoss x1 x2 s) := by
  unfold advanceLoss
  repeat' (first | with_reducible assumption | with_reducible apply State.modJrn_keeps | with_reducible apply State.modExt_keeps | with_reducible apply State.modOwn_keeps | with_reducible apply mirrorCtl_keeps | with_reducible refine Keeps.foldl ?_ _ ?_ | with_reducible refine Keeps.foldl_snd ?_ _ ?_ | intro _)

theorem setOwner_keeps {a : State} {x1 : _} {x2 : _} {s : State} (h : Keeps a s)  : Keeps a (setOwner x1 x2 s) := by
  unfold setOwner
  repeat' (first | with_reducible assumption | with_reducible apply State.modExt_keeps)

theorem setOwnerNow_keeps {a : State} {x1 : _} {x2 : _} {s : State} (h : Keeps a s)  : Keeps a (setOwnerNow x1 x2 s) := by
  unfold setOwnerNow
  repeat' (first | with_reducible assumption | with_reducible apply journalCtl_keeps | with_reducible apply setOwner_keeps)

end Sys2Proof.Machine
end

