-- ==== Sys2Proof/Laws/KeepsDirectory.lean ====
section
/-! SUPPORT. What the operations of Machine/Directory.lean keep (Laws/Keeps.lean). -/

namespace Sys2Proof.Machine

open Sys2Proof

theorem backEntry_keeps {a : State} {x1 : _} {x2 : _} {s : State} (h : Keeps a s)  : Keeps a (backEntry x1 x2 s) := by
  unfold backEntry
  repeat' (first | with_reducible assumption | with_reducible apply State.modCoh_keeps)

theorem dirUse_keeps {a : State} {x1 : _} {x2 : _} {s : State} (h : Keeps a s)  : Keeps a (dirUse x1 x2 s) := by
  unfold dirUse
  repeat' (first | with_reducible assumption | with_reducible apply backEntry_keeps | with_reducible apply State.modCoh_keeps | with_reducible refine Keeps.foldl ?_ _ ?_ | with_reducible refine Keeps.foldl_snd ?_ _ ?_ | intro _ | with_reducible refine Keeps.snd (by with_reducible assumption) ?_ | split)

theorem writeBackDir_keeps {a : State} {s : State} (h : Keeps a s)  : Keeps a (writeBackDir s) := by
  unfold writeBackDir
  repeat' (first | with_reducible assumption | with_reducible apply backEntry_keeps | with_reducible apply State.modCoh_keeps | with_reducible refine Keeps.foldl ?_ _ ?_ | with_reducible refine Keeps.foldl_snd ?_ _ ?_ | intro _ | with_reducible refine Keeps.snd (by with_reducible assumption) ?_ | split)

theorem readBackDir_keeps {a : State} {s : State} (h : Keeps a s)  : Keeps a (readBackDir s) := by
  unfold readBackDir
  repeat' (first | with_reducible assumption | with_reducible apply State.modCoh_keeps)

theorem modDir_keeps {a : State} {x1 : _} {x2 : _} {s : State} (h : Keeps a s)  : Keeps a (modDir x1 x2 s) := by
  unfold modDir
  repeat' (first | with_reducible assumption | with_reducible apply dirUse_keeps | with_reducible apply State.modCoh_keeps)

theorem mirrorPoison_keeps {a : State} {x1 : _} {s : State} (h : Keeps a s)  : Keeps a (mirrorPoison x1 s) := by
  unfold mirrorPoison
  repeat' (first | with_reducible assumption | with_reducible apply modDir_keeps | with_reducible refine Keeps.foldl ?_ _ ?_ | with_reducible refine Keeps.foldl_snd ?_ _ ?_ | intro _ | with_reducible refine Keeps.snd (by with_reducible assumption) ?_ | split)

theorem setGranule_keeps {a : State} {x1 : _} {x2 : _} {s : State} (h : Keeps a s)  : Keeps a (setGranule x1 x2 s) := by
  unfold setGranule
  repeat' (first | with_reducible assumption | with_reducible apply State.modCoh_keeps | with_reducible apply modDir_keeps | with_reducible refine Keeps.foldl ?_ _ ?_ | with_reducible refine Keeps.foldl_snd ?_ _ ?_ | intro _ | with_reducible refine Keeps.snd (by with_reducible assumption) ?_ | split)

end Sys2Proof.Machine
end

