-- ==== Sys2Proof/Laws/KeepsSlice.lean ====
section
/-! SUPPORT. What the operations of Machine/Slice.lean keep (Laws/Keeps.lean). -/

namespace Sys2Proof.Machine

open Sys2Proof

theorem modReq_keeps {a : State} {x1 : _} {x2 : _} {s : State} (h : Keeps a s)  : Keeps a (modReq x1 x2 s) := by
  unfold modReq
  repeat' (first | with_reducible assumption | with_reducible apply State.modHome_keeps)

theorem setWhy_keeps {a : State} {x1 : _} {x2 : _} {s : State} (h : Keeps a s)  : Keeps a (setWhy x1 x2 s) := by
  unfold setWhy
  repeat' (first | with_reducible assumption | with_reducible apply modReq_keeps)

theorem landed_keeps {a : State} {x1 : _} {s : State} (h : Keeps a s)  : Keeps a (landed x1 s) := by
  unfold landed
  repeat' (first | with_reducible assumption | with_reducible apply State.modExt_keeps)

theorem settleMulti_keeps {a : State} {x1 : _} {x2 : _} {s : State} (h : Keeps a s)  : Keeps a (settleMulti x1 x2 s) := by
  unfold settleMulti
  repeat' (first | with_reducible assumption | with_reducible apply State.modHome_keeps | with_reducible refine Keeps.foldl ?_ _ ?_ | with_reducible refine Keeps.foldl_snd ?_ _ ?_ | intro _ | with_reducible refine Keeps.snd (by with_reducible assumption) ?_ | split)

theorem endMulti_keeps {a : State} {x1 : _} {s : State} (h : Keeps a s)  : Keeps a (endMulti x1 s) := by
  unfold endMulti
  repeat' (first | with_reducible assumption | with_reducible apply State.modHome_keeps)

theorem finish_keeps {a : State} {x1 : _} {x2 : _} {x3 : _} {x4 : _} {s : State} (h : Keeps a s)  : Keeps a (finish x1 x2 x3 x4 s) := by
  unfold finish
  repeat' (first | with_reducible assumption | with_reducible apply State.modHome_keeps | with_reducible apply settleMulti_keeps | with_reducible apply landed_keeps | with_reducible apply State.modCoh_keeps | with_reducible apply answer_keeps | with_reducible refine Keeps.foldl ?_ _ ?_ | with_reducible refine Keeps.foldl_snd ?_ _ ?_ | intro _ | with_reducible refine Keeps.snd (by with_reducible assumption) ?_ | split)

theorem finishNY_keeps {a : State} {x1 : _} {s : State} (h : Keeps a s)  : Keeps a (finishNY x1 s) := by
  unfold finishNY
  repeat' (first | with_reducible assumption | with_reducible apply finish_keeps | with_reducible apply State.draw_keeps)

theorem openRegion_keeps {a : State} {x1 : _} {x2 : _} {s : State} (h : Keeps a s)  : Keeps a (openRegion x1 x2 s) := by
  unfold openRegion
  repeat' (first | with_reducible assumption | with_reducible apply setOwner_keeps | with_reducible apply setOwnerNow_keeps | with_reducible apply State.modOwn_keeps | with_reducible refine Keeps.foldl ?_ _ ?_ | with_reducible refine Keeps.foldl_snd ?_ _ ?_ | intro _ | with_reducible refine Keeps.snd (by with_reducible assumption) ?_ | split | dsimp only)

theorem needLine_keeps {a : State} {x1 : _} {s : State} (h : Keeps a s)  : Keeps a (needLine x1 s).2 := by
  unfold needLine
  repeat' (first | with_reducible assumption | with_reducible apply missFetch_keeps | with_reducible refine Keeps.foldl ?_ _ ?_ | with_reducible refine Keeps.foldl_snd ?_ _ ?_ | intro _ | with_reducible refine Keeps.snd (by with_reducible assumption) ?_ | split)

theorem needLines_keeps {a : State} {x1 : _} {s : State} (h : Keeps a s)  : Keeps a (needLines x1 s).2 := by
  induction x1 generalizing s  with
  | nil =>
    unfold needLines
    repeat' (with_reducible assumption)
  | cons y l ih =>
    unfold needLines
    repeat' (first | with_reducible assumption | with_reducible apply ih | with_reducible apply needLine_keeps)

theorem checkRec_keeps {a : State} {x1 : _} {x2 : _} {x3 : _} {s : State} (h : Keeps a s)  : Keeps a (checkRec x1 x2 x3 s) := by
  unfold checkRec
  repeat' (first | with_reducible assumption | with_reducible apply raise_keeps)

theorem getBlock_keeps {a : State} {x1 : _} {x2 : _} {s : State} (h : Keeps a s)  : Keeps a (getBlock x1 x2 s).2 := by
  unfold getBlock
  repeat' (first | with_reducible assumption | with_reducible apply needLine_keeps | with_reducible apply checkRec_keeps | with_reducible apply needLines_keeps | with_reducible apply countRC_keeps | with_reducible refine Keeps.foldl ?_ _ ?_ | with_reducible refine Keeps.foldl_snd ?_ _ ?_ | intro _ | with_reducible refine Keeps.snd (by with_reducible assumption) ?_ | split | dsimp only)

theorem needCodebook_keeps {a : State} {x1 : _} {s : State} (h : Keeps a s)  : Keeps a (needCodebook x1 s).2 := by
  unfold needCodebook
  repeat' (first | with_reducible assumption | with_reducible apply State.modCdc_keeps | with_reducible refine Keeps.foldl ?_ _ ?_ | with_reducible refine Keeps.foldl_snd ?_ _ ?_ | intro _ | with_reducible refine Keeps.snd (by with_reducible assumption) ?_ | split)

theorem getLine_keeps {a : State} {x1 : _} {x2 : _} {s : State} (h : Keeps a s)  : Keeps a (getLine x1 x2 s).2 := by
  unfold getLine
  repeat' (first | with_reducible assumption | with_reducible apply getBlock_keeps | with_reducible apply needCodebook_keeps | with_reducible apply needLine_keeps | with_reducible refine Keeps.foldl ?_ _ ?_ | with_reducible refine Keeps.foldl_snd ?_ _ ?_ | intro _ | with_reducible refine Keeps.snd (by with_reducible assumption) ?_ | split | dsimp only)

theorem getFor_keeps {a : State} {x1 : _} {x2 : _} {s : State} (h : Keeps a s)  : Keeps a (getFor x1 x2 s).2 := by
  unfold getFor
  repeat' (first | with_reducible assumption | with_reducible apply getBlock_keeps | with_reducible apply getLine_keeps | with_reducible refine Keeps.foldl ?_ _ ?_ | with_reducible refine Keeps.foldl_snd ?_ _ ?_ | intro _ | with_reducible refine Keeps.snd (by with_reducible assumption) ?_ | split)

theorem touchLine_keeps {a : State} {x1 : _} {s : State} (h : Keeps a s)  : Keeps a (touchLine x1 s) := by
  unfold touchLine
  repeat' (first | with_reducible assumption | with_reducible apply touchFrame_keeps | with_reducible refine Keeps.foldl ?_ _ ?_ | with_reducible refine Keeps.foldl_snd ?_ _ ?_ | intro _)

theorem readySpan_keeps {a : State} {x1 : _} {x2 : _} {s : State} (h : Keeps a s)  : Keeps a (readySpan x1 x2 s).2 := by
  induction x2 generalizing s  with
  | nil =>
    unfold readySpan
    repeat' (with_reducible assumption)
  | cons y l ih =>
    unfold readySpan
    repeat' (first | with_reducible assumption | with_reducible apply ih | with_reducible apply needLine_keeps | with_reducible apply readyFull_keeps | with_reducible refine Keeps.foldl ?_ _ ?_ | with_reducible refine Keeps.foldl_snd ?_ _ ?_ | intro _ | with_reducible refine Keeps.snd (by with_reducible assumption) ?_ | split)

theorem writeSpan_keeps {a : State} {x1 : _} {x2 : _} {x3 : _} {x4 : _} {s : State} (h : Keeps a s)  : Keeps a (writeSpan x1 x2 x3 x4 s) := by
  unfold writeSpan
  repeat' (first | with_reducible assumption | with_reducible apply storeLine_keeps | with_reducible refine Keeps.foldl ?_ _ ?_ | with_reducible refine Keeps.foldl_snd ?_ _ ?_ | intro _)

theorem placeBlock_keeps {a : State} {x1 : _} {x2 : _} {s : State} (h : Keeps a s)  : Keeps a (placeBlock x1 x2 s).2 := by
  unfold placeBlock
  repeat' (first | with_reducible assumption | with_reducible apply readySpan_keeps | with_reducible apply writeSpan_keeps | with_reducible apply needLine_keeps | with_reducible apply storeLine_keeps | with_reducible apply needLines_keeps | with_reducible apply countRC_keeps | with_reducible refine Keeps.foldl ?_ _ ?_ | with_reducible refine Keeps.foldl_snd ?_ _ ?_ | intro _ | with_reducible refine Keeps.snd (by with_reducible assumption) ?_ | split | dsimp only)

theorem writeTier_keeps {a : State} {x1 : _} {x2 : _} {s : State} (h : Keeps a s)  : Keeps a (writeTier x1 x2 s).2 := by
  unfold writeTier
  repeat' (first | with_reducible assumption | with_reducible apply mirrorPoison_keeps | with_reducible apply storeLine_keeps | with_reducible apply placeBlock_keeps | with_reducible apply poisonTier_keeps | with_reducible refine Keeps.foldl ?_ _ ?_ | with_reducible refine Keeps.foldl_snd ?_ _ ?_ | intro _ | with_reducible refine Keeps.snd (by with_reducible assumption) ?_ | split)

theorem writeTentative_keeps {a : State} {x1 : _} {x2 : _} {x3 : _} {s : State} (h : Keeps a s)  : Keeps a (writeTentative x1 x2 x3 s) := by
  unfold writeTentative
  repeat' (first | with_reducible assumption | with_reducible apply journal_keeps | with_reducible apply notePairLost_keeps | with_reducible apply State.modJrn_keeps | with_reducible apply sendMirror_keeps | with_reducible apply setWhy_keeps | with_reducible refine Keeps.foldl ?_ _ ?_ | with_reducible refine Keeps.foldl_snd ?_ _ ?_ | intro _ | with_reducible refine Keeps.snd (by with_reducible assumption) ?_ | split)

theorem writeDone_keeps {a : State} {x1 : _} {x2 : _} {x3 : _} {x4 : _} {s : State} (h : Keeps a s)  : Keeps a (writeDone x1 x2 x3 x4 s) := by
  unfold writeDone
  repeat' (first | with_reducible assumption | with_reducible apply writeTier_keeps | with_reducible apply setWhy_keeps | with_reducible apply touchLine_keeps | with_reducible apply recordWrite_keeps | with_reducible apply finish_keeps | with_reducible apply landed_keeps | with_reducible apply modReq_keeps | with_reducible refine Keeps.foldl ?_ _ ?_ | with_reducible refine Keeps.foldl_snd ?_ _ ?_ | intro _ | with_reducible refine Keeps.snd (by with_reducible assumption) ?_ | split | dsimp only)

theorem writeNow_keeps {a : State} {x1 : _} {x2 : _} {x3 : _} {x4 : _} {s : State} (h : Keeps a s)  : Keeps a (writeNow x1 x2 x3 x4 s) := by
  unfold writeNow
  repeat' (first | with_reducible assumption | with_reducible apply setWhy_keeps | with_reducible apply writeTentative_keeps | with_reducible apply writeDone_keeps | with_reducible refine Keeps.foldl ?_ _ ?_ | with_reducible refine Keeps.foldl_snd ?_ _ ?_ | intro _ | with_reducible refine Keeps.snd (by with_reducible assumption) ?_ | split | dsimp only)

theorem perform_keeps {a : State} {x1 : _} {s : State} (h : Keeps a s)  : Keeps a (perform x1 s) := by
  unfold perform
  repeat' (first | with_reducible assumption | with_reducible apply finish_keeps | with_reducible apply getFor_keeps | with_reducible apply touchLine_keeps | with_reducible apply noteRead_keeps | with_reducible apply setWhy_keeps | with_reducible apply getLine_keeps | with_reducible apply readyFull_keeps | with_reducible apply writeNow_keeps | with_reducible apply needLine_keeps | with_reducible refine Keeps.foldl ?_ _ ?_ | with_reducible refine Keeps.foldl_snd ?_ _ ?_ | intro _ | with_reducible refine Keeps.snd (by with_reducible assumption) ?_ | split | dsimp only)

theorem settleWrite_keeps {a : State} {x1 : _} {s : State} (h : Keeps a s)  : Keeps a (settleWrite x1 s).2 := by
  unfold settleWrite
  repeat' (first | with_reducible assumption | with_reducible apply readyFull_keeps | with_reducible apply mirrorPoison_keeps | with_reducible apply poisonTier_keeps | with_reducible apply storeLine_keeps | with_reducible apply placeBlock_keeps | with_reducible apply State.modJrn_keeps | with_reducible refine Keeps.foldl ?_ _ ?_ | with_reducible refine Keeps.foldl_snd ?_ _ ?_ | intro _ | with_reducible refine Keeps.snd (by with_reducible assumption) ?_ | split | dsimp only)

theorem settleTentative_keeps {a : State} {x1 : _} {x2 : _} {s : State} (h : Keeps a s)  : Keeps a (settleTentative x1 x2 s) := by
  unfold settleTentative
  repeat' (first | with_reducible assumption | with_reducible apply settleWrite_keeps | with_reducible apply finish_keeps | with_reducible apply touchLine_keeps | with_reducible refine Keeps.foldl ?_ _ ?_ | with_reducible refine Keeps.foldl_snd ?_ _ ?_ | intro _ | with_reducible refine Keeps.snd (by with_reducible assumption) ?_ | split)

theorem meetHeld_keeps {a : State} {x1 : _} {x2 : _} {s : State} (h : Keeps a s)  : Keeps a (meetHeld x1 x2 s) := by
  unfold meetHeld
  repeat' (first | with_reducible assumption | with_reducible apply setWhy_keeps | with_reducible apply State.modJrn_keeps | with_reducible apply settleTentative_keeps | with_reducible refine Keeps.foldl ?_ _ ?_ | with_reducible refine Keeps.foldl_snd ?_ _ ?_ | intro _ | with_reducible refine Keeps.snd (by with_reducible assumption) ?_ | split)

end Sys2Proof.Machine
end

