-- ==== Sys2Proof/Laws/KeepsCoherence.lean ====
section
/-! SUPPORT. What the operations of Machine/Coherence.lean keep (Laws/Keeps.lean). -/

namespace Sys2Proof.Machine

open Sys2Proof

theorem sendSnoop_keeps {a : State} {x1 : _} {x2 : _} {x3 : _} {s : State} (h : Keeps a s)  : Keeps a (sendSnoop x1 x2 x3 s).2 := by
  unfold sendSnoop
  repeat' (first | with_reducible assumption | with_reducible apply emit_keeps | with_reducible apply State.modCoh_keeps)

theorem sendSnoops_keeps {a : State} {x1 : _} {x2 : _} {x3 : _} {s : State} (h : Keeps a s)  : Keeps a (sendSnoops x1 x2 x3 s).2 := by
  induction x3 generalizing s  with
  | nil =>
    unfold sendSnoops
    repeat' (with_reducible assumption)
  | cons y l ih =>
    unfold sendSnoops
    repeat' (first | with_reducible assumption | with_reducible apply ih | with_reducible apply sendSnoop_keeps)

theorem startTxn_keeps {a : State} {x1 : _} {x2 : _} {x3 : _} {x4 : _} {x5 : _} {s : State} (h : Keeps a s)  : Keeps a (startTxn x1 x2 x3 x4 x5 s) := by
  unfold startTxn
  repeat' (first | with_reducible assumption | with_reducible apply sendSnoops_keeps | with_reducible apply State.modCoh_keeps)

theorem cohRec_keeps {a : State} {x1 : _} {x2 : _} {x3 : _} {x4 : _} {x5 : _} {x6 : _} {s : State} (h : Keeps a s)  : Keeps a (cohRec x1 x2 x3 x4 x5 x6 s) := by
  unfold cohRec
  repeat' (first | with_reducible assumption | with_reducible apply raise_keeps)

theorem impossible_keeps {a : State} {x1 : _} {x2 : _} {x3 : _} {s : State} (h : Keeps a s)  : Keeps a (impossible x1 x2 x3 s) := by
  unfold impossible
  repeat' (first | with_reducible assumption | with_reducible apply cohRec_keeps | with_reducible apply countRC_keeps)

theorem loseOwner_keeps {a : State} {x1 : _} {x2 : _} {s : State} (h : Keeps a s)  : Keeps a (loseOwner x1 x2 s) := by
  unfold loseOwner
  repeat' (first | with_reducible assumption | with_reducible apply modDir_keeps | with_reducible apply cohRec_keeps | with_reducible apply mirrorPoison_keeps | with_reducible apply poisonLine_keeps)

theorem resolveLost_keeps {a : State} {x1 : _} {s : State} (h : Keeps a s)  : Keeps a (resolveLost x1 s) := by
  unfold resolveLost
  repeat' (first | with_reducible assumption | with_reducible apply dirUse_keeps | with_reducible apply loseOwner_keeps | with_reducible apply modDir_keeps | with_reducible refine Keeps.foldl ?_ _ ?_ | with_reducible refine Keeps.foldl_snd ?_ _ ?_ | intro _ | with_reducible refine Keeps.snd (by with_reducible assumption) ?_ | split)

theorem toAgent_keeps {a : State} {x1 : _} {x2 : _} {x3 : _} {x4 : _} {x5 : _} {x6 : _} {s : State} (h : Keeps a s)  : Keeps a (toAgent x1 x2 x3 x4 x5 x6 s) := by
  unfold toAgent
  repeat' (first | with_reducible assumption | with_reducible apply emit_keeps)

theorem nack_keeps {a : State} {x1 : _} {x2 : _} {x3 : _} {s : State} (h : Keeps a s)  : Keeps a (nack x1 x2 x3 s) := by
  unfold nack
  repeat' (first | with_reducible assumption | with_reducible apply toAgent_keeps)

theorem cmpWb_keeps {a : State} {x1 : _} {x2 : _} {s : State} (h : Keeps a s)  : Keeps a (cmpWb x1 x2 s) := by
  unfold cmpWb
  repeat' (first | with_reducible assumption | with_reducible apply toAgent_keeps)

theorem nackNYWith_keeps {a : State} {x1 : _} {x2 : _} {x3 : _} {x4 : _} {s : State} (h : Keeps a s)  : Keeps a (nackNYWith x1 x2 x3 x4 s) := by
  unfold nackNYWith
  repeat' (first | with_reducible assumption | with_reducible apply nack_keeps | with_reducible apply State.modCoh_keeps | with_reducible refine Keeps.foldl ?_ _ ?_ | with_reducible refine Keeps.foldl_snd ?_ _ ?_ | intro _ | with_reducible refine Keeps.snd (by with_reducible assumption) ?_ | split)

theorem nackNY_keeps {a : State} {x1 : _} {x2 : _} {x3 : _} {s : State} (h : Keeps a s)  : Keeps a (nackNY x1 x2 x3 s) := by
  unfold nackNY
  repeat' (first | with_reducible assumption | with_reducible apply nackNYWith_keeps)

theorem lineFreed_keeps {a : State} {x1 : _} {s : State} (h : Keeps a s)  : Keeps a (lineFreed x1 s) := by
  unfold lineFreed
  repeat' (first | with_reducible assumption | with_reducible apply State.modCoh_keeps | with_reducible refine Keeps.foldl ?_ _ ?_ | with_reducible refine Keeps.foldl_snd ?_ _ ?_ | intro _ | with_reducible refine Keeps.snd (by with_reducible assumption) ?_ | split)

theorem endRepair_keeps {a : State} {x1 : _} {s : State} (h : Keeps a s)  : Keeps a (endRepair x1 s) := by
  unfold endRepair
  repeat' (first | with_reducible assumption | with_reducible apply cohRec_keeps | with_reducible apply mirrorPoison_keeps | with_reducible apply modDir_keeps)

theorem takeRecall_keeps {a : State} {x1 : _} {s : State} (h : Keeps a s)  : Keeps a (takeRecall x1 s) := by
  unfold takeRecall
  repeat' (first | with_reducible assumption | with_reducible apply State.modCoh_keeps | with_reducible apply modDir_keeps | with_reducible apply sendSnoops_keeps | with_reducible apply endRepair_keeps | with_reducible apply startTxn_keeps | with_reducible apply resolveLost_keeps | with_reducible refine Keeps.foldl ?_ _ ?_ | with_reducible refine Keeps.foldl_snd ?_ _ ?_ | intro _ | with_reducible refine Keeps.snd (by with_reducible assumption) ?_ | split | dsimp only)

theorem addRecalls_keeps {a : State} {x1 : _} {s : State} (h : Keeps a s)  : Keeps a (addRecalls x1 s) := by
  unfold addRecalls
  repeat' (first | with_reducible assumption | with_reducible apply takeRecall_keeps | with_reducible apply State.modCoh_keeps | with_reducible refine Keeps.foldl ?_ _ ?_ | with_reducible refine Keeps.foldl_snd ?_ _ ?_ | intro _)

theorem recallLines_keeps {a : State} {x1 : _} {s : State} (h : Keeps a s)  : Keeps a (recallLines x1 s) := by
  unfold recallLines
  repeat' (first | with_reducible assumption | with_reducible apply addRecalls_keeps)

theorem holdCoh_keeps {a : State} {x1 : _} {s : State} (h : Keeps a s)  : Keeps a (holdCoh x1 s) := by
  unfold holdCoh
  repeat' (first | with_reducible assumption | with_reducible apply State.modCoh_keeps)

theorem grant_keeps {a : State} {x1 : _} {x2 : _} {x3 : _} {x4 : _} {x5 : _} {s : State} (h : Keeps a s)  : Keeps a (grant x1 x2 x3 x4 x5 s) := by
  unfold grant
  repeat' (first | with_reducible assumption | with_reducible apply getLine_keeps | with_reducible apply holdCoh_keeps | with_reducible apply nack_keeps | with_reducible apply touchLine_keeps | with_reducible apply State.modCoh_keeps | with_reducible apply toAgent_keeps | with_reducible apply modDir_keeps | with_reducible apply openRegion_keeps | with_reducible refine Keeps.foldl ?_ _ ?_ | with_reducible refine Keeps.foldl_snd ?_ _ ?_ | intro _ | with_reducible refine Keeps.snd (by with_reducible assumption) ?_ | split | dsimp only)

theorem queueCoh_keeps {a : State} {x1 : _} {x2 : _} {x3 : _} {x4 : _} {x5 : _} {x6 : _} {s : State} (h : Keeps a s)  : Keeps a (queueCoh x1 x2 x3 x4 x5 x6 s) := by
  unfold queueCoh
  repeat' (first | with_reducible assumption | with_reducible apply State.modCoh_keeps | with_reducible apply nackNY_keeps | with_reducible refine Keeps.foldl ?_ _ ?_ | with_reducible refine Keeps.foldl_snd ?_ _ ?_ | intro _ | with_reducible refine Keeps.snd (by with_reducible assumption) ?_ | split)

theorem cohServe_keeps {a : State} {x1 : _} {x2 : _} {x3 : _} {x4 : _} {x5 : _} {s : State} (h : Keeps a s)  : Keeps a (cohServe x1 x2 x3 x4 x5 s) := by
  unfold cohServe
  repeat' (first | with_reducible assumption | with_reducible apply resolveLost_keeps | with_reducible apply nack_keeps | with_reducible apply impossible_keeps | with_reducible apply queueCoh_keeps | with_reducible apply grant_keeps | with_reducible apply startTxn_keeps | with_reducible refine Keeps.foldl ?_ _ ?_ | with_reducible refine Keeps.foldl_snd ?_ _ ?_ | intro _ | with_reducible refine Keeps.snd (by with_reducible assumption) ?_ | split | dsimp only)

theorem queueReq_keeps {a : State} {x1 : _} {x2 : _} {s : State} (h : Keeps a s)  : Keeps a (queueReq x1 x2 s) := by
  unfold queueReq
  repeat' (first | with_reducible assumption | with_reducible apply setWhy_keeps | with_reducible apply State.modCoh_keeps | with_reducible refine Keeps.foldl ?_ _ ?_ | with_reducible refine Keeps.foldl_snd ?_ _ ?_ | intro _ | with_reducible refine Keeps.snd (by with_reducible assumption) ?_ | split)

theorem cohStage_keeps {a : State} {x1 : _} {s : State} (h : Keeps a s)  : Keeps a (cohStage x1 s).2 := by
  unfold cohStage
  repeat' (first | with_reducible assumption | with_reducible apply resolveLost_keeps | with_reducible apply setWhy_keeps | with_reducible apply startTxn_keeps | with_reducible apply queueReq_keeps | with_reducible refine Keeps.foldl ?_ _ ?_ | with_reducible refine Keeps.foldl_snd ?_ _ ?_ | intro _ | with_reducible refine Keeps.snd (by with_reducible assumption) ?_ | split | dsimp only)

theorem serveLine_keeps {a : State} {x1 : _} {s : State} (h : Keeps a s)  : Keeps a (serveLine x1 s) := by
  unfold serveLine
  repeat' (first | with_reducible assumption | with_reducible apply setWhy_keeps | with_reducible apply meetHeld_keeps | with_reducible apply dropCuts_keeps | with_reducible apply cohStage_keeps | with_reducible apply perform_keeps | with_reducible apply finish_keeps | with_reducible refine Keeps.foldl ?_ _ ?_ | with_reducible refine Keeps.foldl_snd ?_ _ ?_ | intro _ | with_reducible refine Keeps.snd (by with_reducible assumption) ?_ | split | dsimp only)

theorem recallHolder_keeps {a : State} {x1 : _} {x2 : _} {s : State} (h : Keeps a s)  : Keeps a (recallHolder x1 x2 s) := by
  unfold recallHolder
  repeat' (first | with_reducible assumption | with_reducible apply addRecalls_keeps | with_reducible refine Keeps.foldl ?_ _ ?_ | with_reducible refine Keeps.foldl_snd ?_ _ ?_ | intro _ | with_reducible refine Keeps.snd (by with_reducible assumption) ?_ | split)

theorem commitOwn_keeps {a : State} {x1 : _} {s : State} (h : Keeps a s)  : Keeps a (commitOwn x1 s) := by
  unfold commitOwn
  repeat' (first | with_reducible assumption | with_reducible apply setOwner_keeps | with_reducible apply State.modOwn_keeps | with_reducible apply recallHolder_keeps | with_reducible apply finish_keeps | with_reducible refine Keeps.foldl ?_ _ ?_ | with_reducible refine Keeps.foldl_snd ?_ _ ?_ | intro _ | with_reducible refine Keeps.snd (by with_reducible assumption) ?_ | split | dsimp only)

theorem beginOwn_keeps {a : State} {x1 : _} {x2 : _} {x3 : _} {x4 : _} {s : State} (h : Keeps a s)  : Keeps a (beginOwn x1 x2 x3 x4 s) := by
  unfold beginOwn
  repeat' (first | with_reducible assumption | with_reducible apply journalCtl_keeps | with_reducible apply notePairLost_keeps | with_reducible apply setWhy_keeps | with_reducible apply State.modOwn_keeps)

theorem serveOwn_keeps {a : State} {x1 : _} {s : State} (h : Keeps a s)  : Keeps a (serveOwn x1 s) := by
  unfold serveOwn
  repeat' (first | with_reducible assumption | with_reducible apply setWhy_keeps | with_reducible apply beginOwn_keeps | with_reducible apply finish_keeps | with_reducible refine Keeps.foldl ?_ _ ?_ | with_reducible refine Keeps.foldl_snd ?_ _ ?_ | intro _ | with_reducible refine Keeps.snd (by with_reducible assumption) ?_ | split | dsimp only)

theorem servePublish_keeps {a : State} {x1 : _} {s : State} (h : Keeps a s)  : Keeps a (servePublish x1 s) := by
  unfold servePublish
  repeat' (first | with_reducible assumption | with_reducible apply finish_keeps | with_reducible apply setWhy_keeps | with_reducible apply beginOwn_keeps | with_reducible apply commitOwn_keeps | with_reducible refine Keeps.foldl ?_ _ ?_ | with_reducible refine Keeps.foldl_snd ?_ _ ?_ | intro _ | with_reducible refine Keeps.snd (by with_reducible assumption) ?_ | split | dsimp only)

theorem serveVersion_keeps {a : State} {x1 : _} {s : State} (h : Keeps a s)  : Keeps a (serveVersion x1 s) := by
  unfold serveVersion
  repeat' (first | with_reducible assumption | with_reducible apply finish_keeps | with_reducible apply setWhy_keeps | with_reducible refine Keeps.foldl ?_ _ ?_ | with_reducible refine Keeps.foldl_snd ?_ _ ?_ | intro _ | with_reducible refine Keeps.snd (by with_reducible assumption) ?_ | split | dsimp only)

theorem serveKind_keeps {a : State} {x1 : _} {s : State} (h : Keeps a s)  : Keeps a (serveKind x1 s) := by
  unfold serveKind
  repeat' (first | with_reducible assumption | with_reducible apply serveOwn_keeps | with_reducible apply servePublish_keeps | with_reducible apply serveVersion_keeps | with_reducible apply serveLine_keeps | with_reducible refine Keeps.foldl ?_ _ ?_ | with_reducible refine Keeps.foldl_snd ?_ _ ?_ | intro _ | with_reducible refine Keeps.snd (by with_reducible assumption) ?_ | split)

theorem admitMulti_keeps {a : State} {x1 : _} {s : State} (h : Keeps a s)  : Keeps a (admitMulti x1 s) := by
  unfold admitMulti
  repeat' (first | with_reducible assumption | with_reducible apply State.modHome_keeps | with_reducible refine Keeps.foldl ?_ _ ?_ | with_reducible refine Keeps.foldl_snd ?_ _ ?_ | intro _ | with_reducible refine Keeps.snd (by with_reducible assumption) ?_ | split)

theorem enterSlice_keeps {a : State} {x1 : _} {s : State} (h : Keeps a s)  : Keeps a (enterSlice x1 s) := by
  unfold enterSlice
  repeat' (first | with_reducible assumption | with_reducible apply finish_keeps | with_reducible apply finishNY_keeps | with_reducible apply emit_keeps | with_reducible apply State.modHome_keeps | with_reducible apply setWhy_keeps | with_reducible apply admitMulti_keeps | with_reducible apply openRegion_keeps | with_reducible apply serveKind_keeps | with_reducible apply modReq_keeps | with_reducible refine Keeps.foldl ?_ _ ?_ | with_reducible refine Keeps.foldl_snd ?_ _ ?_ | intro _ | with_reducible refine Keeps.snd (by with_reducible assumption) ?_ | split)

theorem setBucket_keeps {a : State} {x1 : _} {x2 : _} {s : State} (h : Keeps a s)  : Keeps a (setBucket x1 x2 s) := by
  unfold setBucket
  repeat' (first | with_reducible assumption | with_reducible apply State.modHome_keeps)

theorem demand_keeps {a : State} {x1 : _} {x2 : _} {s : State} (h : Keeps a s)  : Keeps a (demand x1 x2 s) := by
  unfold demand
  repeat' (first | with_reducible assumption | with_reducible apply setBucket_keeps)

theorem charge_keeps {a : State} {x1 : _} {x2 : _} {s : State} (hx2 : ∀ y0, Keeps a y0 → Keeps a (x2 y0)) (h : Keeps a s)  : Keeps a (charge x1 x2 s) := by
  unfold charge
  repeat' (first | with_reducible assumption | with_reducible apply demand_keeps | with_reducible apply finish_keeps | with_reducible apply setBucket_keeps | with_reducible apply setWhy_keeps | with_reducible apply hx2 | with_reducible refine Keeps.foldl ?_ _ ?_ | with_reducible refine Keeps.foldl_snd ?_ _ ?_ | intro _ | with_reducible refine Keeps.snd (by with_reducible assumption) ?_ | split | dsimp only)

theorem attempt_keeps {a : State} {x1 : _} {s : State} (h : Keeps a s)  : Keeps a (attempt x1 s) := by
  unfold attempt
  repeat' (first | with_reducible assumption | with_reducible apply charge_keeps | with_reducible apply enterSlice_keeps | with_reducible apply reserveAnswer_keeps | with_reducible apply modReq_keeps | with_reducible apply serveKind_keeps | with_reducible apply settleTentative_keeps | with_reducible refine Keeps.foldl ?_ _ ?_ | with_reducible refine Keeps.foldl_snd ?_ _ ?_ | intro _ | with_reducible refine Keeps.snd (by with_reducible assumption) ?_ | split)

theorem cohJournal_keeps {a : State} {x1 : _} {x2 : _} {s : State} (h : Keeps a s)  : Keeps a (cohJournal x1 x2 s).2 := by
  unfold cohJournal
  repeat' (first | with_reducible assumption | with_reducible apply recordWrite_keeps | with_reducible refine Keeps.foldl ?_ _ ?_ | with_reducible refine Keeps.foldl_snd ?_ _ ?_ | intro _ | with_reducible refine Keeps.snd (by with_reducible assumption) ?_ | split | dsimp only)

theorem cohData_keeps {a : State} {x1 : _} {x2 : _} {x3 : _} {s : State} (h : Keeps a s)  : Keeps a (cohData x1 x2 x3 s).2 := by
  unfold cohData
  repeat' (first | with_reducible assumption | with_reducible apply readyFull_keeps | with_reducible apply storeLine_keeps | with_reducible apply mirrorPoison_keeps | with_reducible apply modTag_keeps | with_reducible refine Keeps.foldl ?_ _ ?_ | with_reducible refine Keeps.foldl_snd ?_ _ ?_ | intro _ | with_reducible refine Keeps.snd (by with_reducible assumption) ?_ | split | dsimp only)

theorem wbRecord_keeps {a : State} {x1 : _} {x2 : _} {s : State} (h : Keeps a s)  : Keeps a (wbRecord x1 x2 s) := by
  unfold wbRecord
  repeat' (first | with_reducible assumption | with_reducible apply cohJournal_keeps | with_reducible apply cmpWb_keeps | with_reducible apply holdCoh_keeps | with_reducible refine Keeps.foldl ?_ _ ?_ | with_reducible refine Keeps.foldl_snd ?_ _ ?_ | intro _ | with_reducible refine Keeps.snd (by with_reducible assumption) ?_ | split)

theorem takeWb_keeps {a : State} {x1 : _} {x2 : _} {s : State} (h : Keeps a s)  : Keeps a (takeWb x1 x2 s) := by
  unfold takeWb
  repeat' (first | with_reducible assumption | with_reducible apply cohData_keeps | with_reducible apply holdCoh_keeps | with_reducible apply wbRecord_keeps | with_reducible apply modDir_keeps | with_reducible refine Keeps.foldl ?_ _ ?_ | with_reducible refine Keeps.foldl_snd ?_ _ ?_ | intro _ | with_reducible refine Keeps.snd (by with_reducible assumption) ?_ | split | dsimp only)

theorem finishTxn_keeps {a : State} {x1 : _} {s : State} (h : Keeps a s)  : Keeps a (finishTxn x1 s) := by
  unfold finishTxn
  repeat' (first | with_reducible assumption | with_reducible apply lineFreed_keeps | with_reducible apply State.modCoh_keeps | with_reducible apply endRepair_keeps | with_reducible apply perform_keeps | with_reducible apply grant_keeps | with_reducible apply resolveLost_keeps | with_reducible refine Keeps.foldl ?_ _ ?_ | with_reducible refine Keeps.foldl_snd ?_ _ ?_ | intro _ | with_reducible refine Keeps.snd (by with_reducible assumption) ?_ | split | dsimp only)

theorem takeRsp_keeps {a : State} {x1 : _} {x2 : _} {x3 : _} {x4 : _} {s : State} (h : Keeps a s)  : Keeps a (takeRsp x1 x2 x3 x4 s) := by
  unfold takeRsp
  repeat' (first | with_reducible assumption | with_reducible apply cohData_keeps | with_reducible apply holdCoh_keeps | with_reducible apply modDir_keeps | with_reducible apply cohJournal_keeps | with_reducible apply finishTxn_keeps | with_reducible apply State.modCoh_keeps | with_reducible refine Keeps.foldl ?_ _ ?_ | with_reducible refine Keeps.foldl_snd ?_ _ ?_ | intro _ | with_reducible refine Keeps.snd (by with_reducible assumption) ?_ | split | dsimp only)

theorem takeLate_keeps {a : State} {x1 : _} {x2 : _} {s : State} (h : Keeps a s)  : Keeps a (takeLate x1 x2 s) := by
  unfold takeLate
  repeat' (first | with_reducible assumption | with_reducible apply cohData_keeps | with_reducible apply holdCoh_keeps | with_reducible refine Keeps.foldl ?_ _ ?_ | with_reducible refine Keeps.foldl_snd ?_ _ ?_ | intro _ | with_reducible refine Keeps.snd (by with_reducible assumption) ?_ | split | dsimp only)

theorem cohPlace_keeps {a : State} {x1 : _} {x2 : _} {x3 : _} {x4 : _} {x5 : _} {s : State} (h : Keeps a s)  : Keeps a (cohPlace x1 x2 x3 x4 x5 s) := by
  unfold cohPlace
  repeat' (first | with_reducible assumption | with_reducible apply State.modCoh_keeps | with_reducible apply queueCoh_keeps | with_reducible apply cohServe_keeps | with_reducible refine Keeps.foldl ?_ _ ?_ | with_reducible refine Keeps.foldl_snd ?_ _ ?_ | intro _ | with_reducible refine Keeps.snd (by with_reducible assumption) ?_ | split | dsimp only)

theorem cohAdmit_keeps {a : State} {x1 : _} {x2 : _} {x3 : _} {x4 : _} {x5 : _} {s : State} (h : Keeps a s)  : Keeps a (cohAdmit x1 x2 x3 x4 x5 s) := by
  unfold cohAdmit
  repeat' (first | with_reducible assumption | with_reducible apply holdCoh_keeps | with_reducible apply nack_keeps | with_reducible apply cohPlace_keeps | with_reducible refine Keeps.foldl ?_ _ ?_ | with_reducible refine Keeps.foldl_snd ?_ _ ?_ | intro _ | with_reducible refine Keeps.snd (by with_reducible assumption) ?_ | split | dsimp only)

theorem cohEnter_keeps {a : State} {x1 : _} {x2 : _} {s : State} (h : Keeps a s)  : Keeps a (cohEnter x1 x2 s) := by
  unfold cohEnter
  repeat' (first | with_reducible assumption | with_reducible apply nack_keeps | with_reducible apply State.modCoh_keeps | with_reducible apply cohAdmit_keeps | with_reducible apply State.modHome_keeps | with_reducible refine Keeps.foldl ?_ _ ?_ | with_reducible refine Keeps.foldl_snd ?_ _ ?_ | intro _ | with_reducible refine Keeps.snd (by with_reducible assumption) ?_ | split)

theorem takeWithheld_keeps {a : State} {s : State} (h : Keeps a s)  : Keeps a (takeWithheld s) := by
  unfold takeWithheld
  repeat' (first | with_reducible assumption | with_reducible apply cohEnter_keeps | with_reducible apply State.modCoh_keeps | with_reducible refine Keeps.foldl ?_ _ ?_ | with_reducible refine Keeps.foldl_snd ?_ _ ?_ | intro _)

theorem attemptCoh_keeps {a : State} {x1 : _} {s : State} (h : Keeps a s)  : Keeps a (attemptCoh x1 s) := by
  unfold attemptCoh
  repeat' (first | with_reducible assumption | with_reducible apply State.modCoh_keeps | with_reducible apply cohAdmit_keeps | with_reducible apply cohServe_keeps | with_reducible apply takeWb_keeps | with_reducible apply takeRsp_keeps | with_reducible apply wbRecord_keeps | with_reducible apply takeLate_keeps | with_reducible refine Keeps.foldl ?_ _ ?_ | with_reducible refine Keeps.foldl_snd ?_ _ ?_ | intro _ | with_reducible refine Keeps.snd (by with_reducible assumption) ?_ | split)

theorem drainQueue_keeps {a : State} {x1 : _} {x2 : _} {s : State} (h : Keeps a s)  : Keeps a (drainQueue x1 x2 s) := by
  induction x1 generalizing s  with
  | zero =>
    unfold drainQueue
    repeat' (with_reducible assumption)
  | succ k ih =>
    unfold drainQueue
    repeat' (first | with_reducible assumption | with_reducible apply ih | with_reducible apply State.modCoh_keeps | with_reducible apply cohStage_keeps | with_reducible apply perform_keeps | with_reducible apply cohServe_keeps | with_reducible refine Keeps.foldl ?_ _ ?_ | with_reducible refine Keeps.foldl_snd ?_ _ ?_ | intro _ | with_reducible refine Keeps.snd (by with_reducible assumption) ?_ | split | dsimp only | with_reducible refine Keeps.record rfl rfl rfl ?_)

theorem switchMode_keeps {a : State} {x1 : _} {s : State} (h : Keeps a s)  : Keeps a (switchMode x1 s) := by
  unfold switchMode
  repeat' (first | with_reducible assumption | with_reducible apply State.modCoh_keeps)

theorem fenceStep_keeps {a : State} {s : State} (h : Keeps a s)  : Keeps a (fenceStep s) := by
  unfold fenceStep
  repeat' (first | with_reducible assumption | with_reducible apply emit_keeps | with_reducible apply switchMode_keeps | with_reducible apply State.modCoh_keeps | with_reducible refine Keeps.foldl ?_ _ ?_ | with_reducible refine Keeps.foldl_snd ?_ _ ?_ | intro _ | with_reducible refine Keeps.snd (by with_reducible assumption) ?_ | split | dsimp only)

theorem passFence_keeps {a : State} {x1 : _} {s : State} (h : Keeps a s)  : Keeps a (passFence x1 s) := by
  unfold passFence
  repeat' (first | with_reducible assumption | with_reducible apply fenceStep_keeps | with_reducible apply State.modCoh_keeps)

theorem startFence_keeps {a : State} {x1 : _} {s : State} (h : Keeps a s)  : Keeps a (startFence x1 s) := by
  unfold startFence
  repeat' (first | with_reducible assumption | with_reducible apply State.modCoh_keeps | with_reducible apply passFence_keeps | with_reducible refine Keeps.foldl ?_ _ ?_ | with_reducible refine Keeps.foldl_snd ?_ _ ?_ | intro _ | with_reducible refine Keeps.snd (by with_reducible assumption) ?_ | split)

theorem txnRecords_keeps {a : State} {s : State} (h : Keeps a s)  : Keeps a (txnRecords s) := by
  unfold txnRecords
  repeat' (first | with_reducible assumption | with_reducible apply cohJournal_keeps | with_reducible apply finishTxn_keeps | with_reducible apply State.modCoh_keeps | with_reducible refine Keeps.foldl ?_ _ ?_ | with_reducible refine Keeps.foldl_snd ?_ _ ?_ | intro _ | with_reducible refine Keeps.snd (by with_reducible assumption) ?_ | split)

theorem pumpOnce_keeps {a : State} {s : State} (h : Keeps a s)  : Keeps a (pumpOnce s) := by
  unfold pumpOnce
  repeat' (first | with_reducible assumption | with_reducible apply takeWithheld_keeps | with_reducible apply txnRecords_keeps | with_reducible apply poisonDue_keeps | with_reducible apply takeRecall_keeps | with_reducible apply attempt_keeps | with_reducible apply attemptCoh_keeps | with_reducible apply drainQueue_keeps | with_reducible apply fenceStep_keeps | with_reducible refine Keeps.foldl ?_ _ ?_ | with_reducible refine Keeps.foldl_snd ?_ _ ?_ | intro _)

theorem pump_keeps {a : State} {s : State} (h : Keeps a s)  : Keeps a (pump s) := by
  unfold pump
  repeat' (first | with_reducible assumption | with_reducible apply pumpOnce_keeps)

theorem startSweep_keeps {a : State} {x1 : _} {s : State} (h : Keeps a s)  : Keeps a (startSweep x1 s) := by
  unfold startSweep
  repeat' (first | with_reducible assumption | with_reducible apply regSet_keeps | with_reducible apply loseOwner_keeps | with_reducible apply modDir_keeps | with_reducible apply finishTxn_keeps | with_reducible apply State.modCoh_keeps | with_reducible apply startFence_keeps | with_reducible refine Keeps.foldl ?_ _ ?_ | with_reducible refine Keeps.foldl_snd ?_ _ ?_ | intro _ | with_reducible refine Keeps.snd (by with_reducible assumption) ?_ | split | dsimp only)

theorem arrive_keeps {a : State} {x1 : _} {x2 : _} {s : State} (h : Keeps a s)  : Keeps a (arrive x1 x2 s) := by
  unfold arrive
  repeat' (first | with_reducible assumption | with_reducible apply answer_keeps | with_reducible apply State.modHome_keeps | with_reducible apply charge_keeps | with_reducible apply pump_keeps | with_reducible apply enterSlice_keeps | with_reducible apply reserveAnswer_keeps | with_reducible refine Keeps.foldl ?_ _ ?_ | with_reducible refine Keeps.foldl_snd ?_ _ ?_ | intro _ | with_reducible refine Keeps.snd (by with_reducible assumption) ?_ | split | dsimp only)

end Sys2Proof.Machine
end

