-- ==== Sys2Proof/Laws/KeepsRequests.lean ====
section
/-! SUPPORT. What the operations of Machine/Requests.lean keep (Laws/Keeps.lean). -/

namespace Sys2Proof.Machine

open Sys2Proof

theorem execLoad_keeps {a : State} {x1 : _}  : Runs a (execLoad x1) := by
  unfold execLoad
  repeat' (first | with_reducible assumption | with_reducible refine Runs.complete ?_ | with_reducible apply arrive_keeps)

theorem execStore_keeps {a : State} {x1 : _}  : Runs a (execStore x1) := by
  unfold execStore
  repeat' (first | with_reducible assumption | with_reducible refine Runs.complete ?_ | with_reducible apply arrive_keeps)

theorem execStorePart_keeps {a : State} {x1 : _}  : Runs a (execStorePart x1) := by
  unfold execStorePart
  repeat' (first | with_reducible assumption | with_reducible refine Runs.complete ?_ | with_reducible apply arrive_keeps)

theorem execCodedWrite_keeps {a : State} {x1 : _}  : Runs a (execCodedWrite x1) := by
  unfold execCodedWrite
  repeat' (first | with_reducible assumption | with_reducible refine Runs.complete ?_ | with_reducible apply arrive_keeps)

theorem execAtomic_keeps {a : State} {x1 : _}  : Runs a (execAtomic x1) := by
  unfold execAtomic
  repeat' (first | with_reducible assumption | with_reducible refine Runs.complete ?_ | with_reducible apply arrive_keeps)

theorem execWait_keeps {a : State} {x1 : _}  : Runs a (execWait x1) := by
  unfold execWait
  repeat' (first | with_reducible assumption | with_reducible refine Runs.complete ?_ | with_reducible apply arrive_keeps)

theorem execAcquire_keeps {a : State} {x1 : _}  : Runs a (execAcquire x1) := by
  unfold execAcquire
  repeat' (first | with_reducible assumption | with_reducible refine Runs.complete ?_ | with_reducible apply arrive_keeps)

theorem execRelease_keeps {a : State} {x1 : _}  : Runs a (execRelease x1) := by
  unfold execRelease
  repeat' (first | with_reducible assumption | with_reducible refine Runs.complete ?_ | with_reducible apply arrive_keeps)

theorem execPublish_keeps {a : State} {x1 : _}  : Runs a (execPublish x1) := by
  unfold execPublish
  repeat' (first | with_reducible assumption | with_reducible refine Runs.complete ?_ | with_reducible apply arrive_keeps)

theorem execReadVersion_keeps {a : State} {x1 : _}  : Runs a (execReadVersion x1) := by
  unfold execReadVersion
  repeat' (first | with_reducible assumption | with_reducible refine Runs.complete ?_ | with_reducible apply arrive_keeps)

theorem enterOwn_keeps {a : State} {x1 : _} {s : State} (h : Keeps a s)  : Keeps a (enterOwn x1 s) := by
  unfold enterOwn
  repeat' (first | with_reducible assumption | with_reducible apply State.modOwn_keeps | with_reducible apply pump_keeps | with_reducible apply commitOwn_keeps | with_reducible refine Keeps.foldl ?_ _ ?_ | with_reducible refine Keeps.foldl_snd ?_ _ ?_ | intro _ | with_reducible refine Keeps.snd (by with_reducible assumption) ?_ | split | dsimp only)

theorem execOwnershipCommit_keeps {a : State} {x1 : _}  : Runs a (execOwnershipCommit x1) := by
  unfold execOwnershipCommit
  repeat' (first | with_reducible assumption | with_reducible refine Runs.complete ?_ | with_reducible apply enterOwn_keeps)

theorem pairLateAt_keeps {a : State} {x1 : _} {s : State} (h : Keeps a s)  : Keeps a (pairLateAt x1 s) := by
  unfold pairLateAt
  repeat' (first | with_reducible assumption | with_reducible apply State.modJrn_keeps | with_reducible apply countRC_keeps | with_reducible apply post_keeps)

theorem atDeadline_keeps {a : State} {x1 : _} {s : State} (h : Keeps a s)  : Keeps a (atDeadline x1 s) := by
  unfold atDeadline
  repeat' (first | with_reducible assumption | with_reducible apply finish_keeps | with_reducible apply pairLateAt_keeps | with_reducible apply State.draw_keeps | with_reducible apply settleTentative_keeps | with_reducible apply State.modJrn_keeps | with_reducible apply State.modOwn_keeps | with_reducible apply commitOwn_keeps | with_reducible apply finishNY_keeps | with_reducible refine Keeps.foldl ?_ _ ?_ | with_reducible refine Keeps.foldl_snd ?_ _ ?_ | intro _ | with_reducible refine Keeps.snd (by with_reducible assumption) ?_ | split | dsimp only)

theorem cohDeadline_keeps {a : State} {x1 : _} {s : State} (h : Keeps a s)  : Keeps a (cohDeadline x1 s) := by
  unfold cohDeadline
  repeat' (first | with_reducible assumption | with_reducible apply nackNY_keeps | with_reducible apply State.modCoh_keeps | with_reducible apply nack_keeps | with_reducible apply nackNYWith_keeps | with_reducible apply State.draw_keeps | with_reducible refine Keeps.foldl ?_ _ ?_ | with_reducible refine Keeps.foldl_snd ?_ _ ?_ | intro _ | with_reducible refine Keeps.snd (by with_reducible assumption) ?_ | split | dsimp only)

theorem deadlineOf_keeps {a : State} {x1 : _} {s : State} (h : Keeps a s)  : Keeps a (deadlineOf x1 s) := by
  unfold deadlineOf
  repeat' (first | with_reducible assumption | with_reducible apply pump_keeps | with_reducible apply atDeadline_keeps | with_reducible apply reach_keeps | with_reducible apply cohDeadline_keeps | with_reducible refine Keeps.foldl ?_ _ ?_ | with_reducible refine Keeps.foldl_snd ?_ _ ?_ | intro _ | with_reducible refine Keeps.snd (by with_reducible assumption) ?_ | split)

theorem execResponseDeadline_keeps {a : State} {x1 : _}  : Runs a (execResponseDeadline x1) := by
  unfold execResponseDeadline
  repeat' (first | with_reducible assumption | with_reducible refine Runs.complete ?_ | with_reducible apply deadlineOf_keeps)

theorem adaptBuckets_keeps {a : State} {x1 : _} {s : State} (h : Keeps a s)  : Keeps a (adaptBuckets x1 s) := by
  unfold adaptBuckets
  repeat' (first | with_reducible assumption | with_reducible apply elapsed_keeps | with_reducible apply setBucket_keeps | with_reducible refine Keeps.foldl ?_ _ ?_ | with_reducible refine Keeps.foldl_snd ?_ _ ?_ | intro _)

theorem execBucketAdapt_keeps {a : State} {x1 : _}  : Runs a (execBucketAdapt x1) := by
  unfold execBucketAdapt
  repeat' (first | with_reducible assumption | with_reducible refine Runs.complete ?_ | with_reducible apply adaptBuckets_keeps)

end Sys2Proof.Machine
end

