-- ==== Sys2Proof/Laws/KeepsAgents.lean ====
section
/-! SUPPORT. What the operations of Machine/Agents.lean keep (Laws/Keeps.lean). -/

namespace Sys2Proof.Machine

open Sys2Proof

theorem track_keeps {a : State} {x1 : _} {x2 : _} {x3 : _} {x4 : _} {s : State} (h : Keeps a s)  : Keeps a (track x1 x2 x3 x4 s).2 := by
  unfold track
  repeat' (first | with_reducible assumption | with_reducible apply State.modHome_keeps)

theorem sendReq_keeps {a : State} {x1 : _} {x2 : _} {s : State} (h : Keeps a s)  : Keeps a (sendReq x1 x2 s).2 := by
  unfold sendReq
  repeat' (first | with_reducible assumption | with_reducible apply track_keeps | with_reducible apply emit_keeps | with_reducible refine Keeps.foldl ?_ _ ?_ | with_reducible refine Keeps.foldl_snd ?_ _ ?_ | intro _ | with_reducible refine Keeps.snd (by with_reducible assumption) ?_ | split)

theorem postFor_keeps {a : State} {x1 : _} {x2 : _} {x3 : _} {x4 : _} {x5 : _} {x6 : _} {s : State} (h : Keeps a s)  : Keeps a (postFor x1 x2 x3 x4 x5 x6 s) := by
  unfold postFor
  repeat' (first | with_reducible assumption | with_reducible apply post_keeps)

theorem issueAdvance_keeps {a : State} {x1 : _} {s : State} (h : Keeps a s)  : Keeps a (issueAdvance x1 s) := by
  unfold issueAdvance
  repeat' (first | with_reducible assumption | with_reducible apply advanceDone_keeps | with_reducible apply arrive_keeps | with_reducible apply track_keeps | with_reducible apply emit_keeps | with_reducible refine Keeps.foldl ?_ _ ?_ | with_reducible refine Keeps.foldl_snd ?_ _ ?_ | intro _ | with_reducible refine Keeps.snd (by with_reducible assumption) ?_ | split)

theorem advance_keeps {a : State} {x1 : _} {x2 : _} {x3 : _} {x4 : _} {x5 : _} {s : State} (h : Keeps a s)  : Keeps a (advance x1 x2 x3 x4 x5 s) := by
  unfold advance
  repeat' (first | with_reducible assumption | with_reducible apply issueAdvance_keeps | with_reducible apply State.modHome_keeps | with_reducible refine Keeps.foldl ?_ _ ?_ | with_reducible refine Keeps.foldl_snd ?_ _ ?_ | intro _ | with_reducible refine Keeps.snd (by with_reducible assumption) ?_ | split)

theorem execCounterAdvance_keeps {a : State} {x1 x2 x3 x4 : _}  : Runs a (execCounterAdvance x1 x2 x3 x4) := by
  unfold execCounterAdvance
  repeat' (first | with_reducible assumption | with_reducible refine Runs.complete ?_ | with_reducible apply advance_keeps)

theorem retryAdvance_keeps {a : State} {x1 : _} {s : State} (h : Keeps a s)  : Keeps a (retryAdvance x1 s) := by
  unfold retryAdvance
  repeat' (first | with_reducible assumption | with_reducible apply reach_keeps | with_reducible apply advanceDone_keeps | with_reducible apply issueAdvance_keeps | with_reducible refine Keeps.foldl ?_ _ ?_ | with_reducible refine Keeps.foldl_snd ?_ _ ?_ | intro _ | with_reducible refine Keeps.snd (by with_reducible assumption) ?_ | split | dsimp only)

theorem execCounterAdvanceRetry_keeps {a : State} {x1 : _}  : Runs a (execCounterAdvanceRetry x1) := by
  unfold execCounterAdvanceRetry
  repeat' (first | with_reducible assumption | with_reducible refine Runs.complete ?_ | with_reducible apply retryAdvance_keeps)

theorem modCopy_keeps {a : State} {x1 : _} {x2 : _} {s : State} (h : Keeps a s)  : Keeps a (modCopy x1 x2 s) := by
  unfold modCopy
  repeat' (first | with_reducible assumption | with_reducible apply State.modHome_keeps)

theorem dropRegistration_keeps {a : State} {x1 : _} {s : State} (h : Keeps a s)  : Keeps a (dropRegistration x1 s) := by
  unfold dropRegistration
  repeat' (first | with_reducible assumption | with_reducible apply State.modHome_keeps | with_reducible apply emit_keeps | with_reducible refine Keeps.foldl ?_ _ ?_ | with_reducible refine Keeps.foldl_snd ?_ _ ?_ | intro _ | with_reducible refine Keeps.snd (by with_reducible assumption) ?_ | split | dsimp only)

theorem sendCopyLine_keeps {a : State} {x1 : _} {x2 : _} {s : State} (h : Keeps a s)  : Keeps a (sendCopyLine x1 x2 s).2 := by
  unfold sendCopyLine
  repeat' (first | with_reducible assumption | with_reducible apply sendReq_keeps | with_reducible refine Keeps.foldl ?_ _ ?_ | with_reducible refine Keeps.foldl_snd ?_ _ ?_ | intro _ | with_reducible refine Keeps.snd (by with_reducible assumption) ?_ | split)

theorem promote_keeps {a : State} {s : State} (h : Keeps a s)  : Keeps a (promote s) := by
  unfold promote
  repeat' (first | with_reducible assumption | with_reducible apply State.modHome_keeps)

theorem endCopy_keeps {a : State} {x1 : _} {x2 : _} {s : State} (h : Keeps a s)  : Keeps a (endCopy x1 x2 s) := by
  unfold endCopy
  repeat' (first | with_reducible assumption | with_reducible apply dropRegistration_keeps | with_reducible apply State.modHome_keeps | with_reducible apply endMulti_keeps | with_reducible apply advance_keeps | with_reducible apply postFor_keeps | with_reducible apply State.modEmb_keeps | with_reducible apply promote_keeps | with_reducible refine Keeps.foldl ?_ _ ?_ | with_reducible refine Keeps.foldl_snd ?_ _ ?_ | intro _ | with_reducible refine Keeps.snd (by with_reducible assumption) ?_ | split)

theorem feedCopy_keeps {a : State} {x1 : _} {s : State} (h : Keeps a s)  : Keeps a (feedCopy x1 s) := by
  unfold feedCopy
  repeat' (first | with_reducible assumption | with_reducible apply sendCopyLine_keeps | with_reducible apply modCopy_keeps | with_reducible apply endCopy_keeps | with_reducible refine Keeps.foldl ?_ _ ?_ | with_reducible refine Keeps.foldl_snd ?_ _ ?_ | intro _ | with_reducible refine Keeps.snd (by with_reducible assumption) ?_ | split | dsimp only)

theorem feedCopies_keeps {a : State} {s : State} (h : Keeps a s)  : Keeps a (feedCopies s) := by
  unfold feedCopies
  repeat' (first | with_reducible assumption | with_reducible apply feedCopy_keeps | with_reducible apply promote_keeps | with_reducible refine Keeps.foldl ?_ _ ?_ | with_reducible refine Keeps.foldl_snd ?_ _ ?_ | intro _)

theorem acceptCopy_keeps {a : State} {x1 : _} {s : State} (h : Keeps a s)  : Keeps a (acceptCopy x1 s) := by
  unfold acceptCopy
  repeat' (first | with_reducible assumption | with_reducible apply answer_keeps | with_reducible apply modCopy_keeps | with_reducible apply endCopy_keeps | with_reducible apply feedCopies_keeps | with_reducible refine Keeps.foldl ?_ _ ?_ | with_reducible refine Keeps.foldl_snd ?_ _ ?_ | intro _ | with_reducible refine Keeps.snd (by with_reducible assumption) ?_ | split | dsimp only)

theorem refuseCopy_keeps {a : State} {x1 : _} {x2 : _} {s : State} (h : Keeps a s)  : Keeps a (refuseCopy x1 x2 s) := by
  unfold refuseCopy
  repeat' (first | with_reducible assumption | with_reducible apply answer_keeps | with_reducible apply State.modHome_keeps | with_reducible refine Keeps.foldl ?_ _ ?_ | with_reducible refine Keeps.foldl_snd ?_ _ ?_ | intro _ | with_reducible refine Keeps.snd (by with_reducible assumption) ?_ | split)

theorem takeCopy_keeps {a : State} {x1 : _} {s : State} (h : Keeps a s)  : Keeps a (takeCopy x1 s) := by
  unfold takeCopy
  repeat' (first | with_reducible assumption | with_reducible apply answer_keeps | with_reducible apply State.modHome_keeps | with_reducible apply acceptCopy_keeps | with_reducible apply track_keeps | with_reducible apply emit_keeps | with_reducible refine Keeps.foldl ?_ _ ?_ | with_reducible refine Keeps.foldl_snd ?_ _ ?_ | intro _ | with_reducible refine Keeps.snd (by with_reducible assumption) ?_ | split | dsimp only)

theorem execCopy_keeps {a : State} {x1 : _}  : Runs a (execCopy x1) := by
  unfold execCopy
  repeat' (first | with_reducible assumption | with_reducible refine Runs.complete ?_ | with_reducible apply takeCopy_keeps)

theorem takeRegistration_keeps {a : State} {x1 : _} {x2 : _} {x3 : _} {x4 : _} {s : State} (h : Keeps a s)  : Keeps a (takeRegistration x1 x2 x3 x4 s) := by
  unfold takeRegistration
  repeat' (first | with_reducible assumption | with_reducible apply State.modHome_keeps | with_reducible apply emit_keeps | with_reducible refine Keeps.foldl ?_ _ ?_ | with_reducible refine Keeps.foldl_snd ?_ _ ?_ | intro _ | with_reducible refine Keeps.snd (by with_reducible assumption) ?_ | split | dsimp only)

theorem execCopyRegister_keeps {a : State} {x1 x2 x3 : _}  : Runs a (execCopyRegister x1 x2 x3) := by
  unfold execCopyRegister
  repeat' (first | with_reducible assumption | with_reducible refine Runs.complete ?_ | with_reducible apply takeRegistration_keeps)

theorem registered_keeps {a : State} {x1 : _} {x2 : _} {s : State} (h : Keeps a s)  : Keeps a (registered x1 x2 s) := by
  unfold registered
  repeat' (first | with_reducible assumption | with_reducible apply refuseCopy_keeps | with_reducible apply dropRegistration_keeps | with_reducible apply acceptCopy_keeps | with_reducible refine Keeps.foldl ?_ _ ?_ | with_reducible refine Keeps.foldl_snd ?_ _ ?_ | intro _ | with_reducible refine Keeps.snd (by with_reducible assumption) ?_ | split)

theorem copyAnswered_keeps {a : State} {x1 : _} {x2 : _} {x3 : _} {x4 : _} {x5 : _} {x6 : _} {s : State} (h : Keeps a s)  : Keeps a (copyAnswered x1 x2 x3 x4 x5 x6 s) := by
  unfold copyAnswered
  repeat' (first | with_reducible assumption | with_reducible apply State.modHome_keeps | with_reducible apply modCopy_keeps | with_reducible apply feedCopies_keeps | with_reducible apply endCopy_keeps | with_reducible apply sendCopyLine_keeps | with_reducible refine Keeps.foldl ?_ _ ?_ | with_reducible refine Keeps.foldl_snd ?_ _ ?_ | intro _ | with_reducible refine Keeps.snd (by with_reducible assumption) ?_ | split | dsimp only)

theorem execCopyLineAnswer_keeps {a : State} {x1 x2 x3 x4 x5 x6 : _}  : Runs a (execCopyLineAnswer x1 x2 x3 x4 x5 x6) := by
  unfold execCopyLineAnswer
  repeat' (first | with_reducible assumption | with_reducible refine Runs.complete ?_ | with_reducible apply copyAnswered_keeps)

theorem copyBound_keeps {a : State} {x1 : _} {x2 : _} {x3 : _} {s : State} (h : Keeps a s)  : Keeps a (copyBound x1 x2 x3 s) := by
  unfold copyBound
  repeat' (first | with_reducible assumption | with_reducible apply feedCopies_keeps | with_reducible apply endCopy_keeps | with_reducible apply reach_keeps | with_reducible refine Keeps.foldl ?_ _ ?_ | with_reducible refine Keeps.foldl_snd ?_ _ ?_ | intro _ | with_reducible refine Keeps.snd (by with_reducible assumption) ?_ | split)

theorem execCopyNyBound_keeps {a : State} {x1 x2 x3 : _}  : Runs a (execCopyNyBound x1 x2 x3) := by
  unfold execCopyNyBound
  repeat' (first | with_reducible assumption | with_reducible refine Runs.complete ?_ | with_reducible apply copyBound_keeps)

theorem copyRetry_keeps {a : State} {x1 : _} {x2 : _} {x3 : _} {s : State} (h : Keeps a s)  : Keeps a (copyRetry x1 x2 x3 s) := by
  unfold copyRetry
  repeat' (first | with_reducible assumption | with_reducible apply sendCopyLine_keeps | with_reducible apply reach_keeps | with_reducible apply feedCopies_keeps | with_reducible apply endCopy_keeps | with_reducible refine Keeps.foldl ?_ _ ?_ | with_reducible refine Keeps.foldl_snd ?_ _ ?_ | intro _ | with_reducible refine Keeps.snd (by with_reducible assumption) ?_ | split)

theorem acceptBarrier_keeps {a : State} {x1 : _} {s : State} (h : Keeps a s)  : Keeps a (acceptBarrier x1 s) := by
  unfold acceptBarrier
  repeat' (first | with_reducible assumption | with_reducible apply finish_keeps | with_reducible apply State.modJrn_keeps)

theorem admitBarrier_keeps {a : State} {x1 : _} {s : State} (h : Keeps a s)  : Keeps a (admitBarrier x1 s) := by
  unfold admitBarrier
  repeat' (first | with_reducible assumption | with_reducible apply finish_keeps | with_reducible apply acceptBarrier_keeps | with_reducible apply emit_keeps | with_reducible apply track_keeps | with_reducible apply setWhy_keeps | with_reducible refine Keeps.foldl ?_ _ ?_ | with_reducible refine Keeps.foldl_snd ?_ _ ?_ | intro _ | with_reducible refine Keeps.snd (by with_reducible assumption) ?_ | split | dsimp only)

theorem barrierAsked_keeps {a : State} {x1 : _} {x2 : _} {s : State} (h : Keeps a s)  : Keeps a (barrierAsked x1 x2 s) := by
  unfold barrierAsked
  repeat' (first | with_reducible assumption | with_reducible apply finish_keeps | with_reducible apply acceptBarrier_keeps | with_reducible refine Keeps.foldl ?_ _ ?_ | with_reducible refine Keeps.foldl_snd ?_ _ ?_ | intro _ | with_reducible refine Keeps.snd (by with_reducible assumption) ?_ | split)

theorem takeBarrier_keeps {a : State} {x1 : _} {s : State} (h : Keeps a s)  : Keeps a (takeBarrier x1 s) := by
  unfold takeBarrier
  repeat' (first | with_reducible assumption | with_reducible apply answer_keeps | with_reducible apply charge_keeps | with_reducible apply admitBarrier_keeps | with_reducible apply State.modHome_keeps | with_reducible refine Keeps.foldl ?_ _ ?_ | with_reducible refine Keeps.foldl_snd ?_ _ ?_ | intro _ | with_reducible refine Keeps.snd (by with_reducible assumption) ?_ | split)

theorem payBucket_keeps {a : State} {x1 : _} {s : State} (h : Keeps a s)  : Keeps a (payBucket x1 s) := by
  unfold payBucket
  repeat' (first | with_reducible assumption | with_reducible apply admitBarrier_keeps | with_reducible apply reach_keeps | with_reducible apply pump_keeps | with_reducible apply enterSlice_keeps | with_reducible refine Keeps.foldl ?_ _ ?_ | with_reducible refine Keeps.foldl_snd ?_ _ ?_ | intro _ | with_reducible refine Keeps.snd (by with_reducible assumption) ?_ | split | dsimp only)

theorem execBucketPay_keeps {a : State} {x1 : _}  : Runs a (execBucketPay x1) := by
  unfold execBucketPay
  repeat' (first | with_reducible assumption | with_reducible refine Runs.complete ?_ | with_reducible apply payBucket_keeps)

theorem execBarrier_keeps {a : State} {x1 : _}  : Runs a (execBarrier x1) := by
  unfold execBarrier
  repeat' (first | with_reducible assumption | with_reducible refine Runs.complete ?_ | with_reducible apply takeBarrier_keeps)

theorem barJournal_keeps {a : State} {x1 : _} {x2 : _} {x3 : _} {s : State} (h : Keeps a s)  : Keeps a (barJournal x1 x2 x3 s) := by
  induction x3 generalizing s  with
  | nil =>
    unfold barJournal
    repeat' (first | with_reducible assumption | with_reducible apply State.modJrn_keeps)
  | cons y l ih =>
    unfold barJournal
    repeat' (first | with_reducible assumption | with_reducible apply ih | with_reducible apply State.modJrn_keeps | with_reducible apply journal_keeps | with_reducible refine Keeps.foldl ?_ _ ?_ | with_reducible refine Keeps.foldl_snd ?_ _ ?_ | intro _ | with_reducible refine Keeps.snd (by with_reducible assumption) ?_ | split)

theorem endBarrier_keeps {a : State} {x1 : _} {s : State} (h : Keeps a s)  : Keeps a (endBarrier x1 s) := by
  unfold endBarrier
  repeat' (first | with_reducible assumption | with_reducible apply advance_keeps | with_reducible apply State.modJrn_keeps)

theorem barrierStep_keeps {a : State} {x1 : _} {s : State} (h : Keeps a s)  : Keeps a (barrierStep x1 s) := by
  unfold barrierStep
  repeat' (first | with_reducible assumption | with_reducible apply barJournal_keeps | with_reducible apply journal_keeps | with_reducible apply State.draw_keeps | with_reducible apply State.modJrn_keeps | with_reducible apply endBarrier_keeps | with_reducible refine Keeps.foldl ?_ _ ?_ | with_reducible refine Keeps.foldl_snd ?_ _ ?_ | intro _ | with_reducible refine Keeps.snd (by with_reducible assumption) ?_ | split | dsimp only)

theorem execBarrierComplete_keeps {a : State} {x1 : _}  : Runs a (execBarrierComplete x1) := by
  unfold execBarrierComplete
  repeat' (first | with_reducible assumption | with_reducible refine Runs.complete ?_ | with_reducible apply barrierStep_keeps)

end Sys2Proof.Machine
end

