-- ==== Sys2Proof/Laws/KeepsNmcOps.lean ====
section
/-! SUPPORT. What the operations of Machine/NmcOps.lean keep (Laws/Keeps.lean). -/

namespace Sys2Proof.Machine

open Sys2Proof

theorem modJob_keeps {a : State} {x1 : _} {x2 : _} {s : State} (h : Keeps a s)  : Keeps a (modJob x1 x2 s) := by
  unfold modJob
  repeat' (first | with_reducible assumption | with_reducible apply State.modNmc_keeps)

theorem modBody_keeps {a : State} {x1 : _} {x2 : _} {s : State} (h : Keeps a s)  : Keeps a (modBody x1 x2 s) := by
  unfold modBody
  repeat' (first | with_reducible assumption | with_reducible apply modJob_keeps)

theorem progress_keeps {a : State} {x1 : _} {s : State} (h : Keeps a s)  : Keeps a (progress x1 s) := by
  unfold progress
  repeat' (first | with_reducible assumption | with_reducible apply modJob_keeps)

theorem signal_keeps {a : State} {x1 : _} {x2 : _} {s : State} (h : Keeps a s)  : Keeps a (signal x1 x2 s) := by
  unfold signal
  repeat' (first | with_reducible assumption | with_reducible apply emit_keeps | with_reducible apply State.modHp_keeps)

theorem sendAccess_keeps {a : State} {x1 : _} {x2 : _} {x3 : _} {s : State} (h : Keeps a s)  : Keeps a (sendAccess x1 x2 x3 s) := by
  unfold sendAccess
  repeat' (first | with_reducible assumption | with_reducible apply jobAnswered_keeps | with_reducible apply arrive_keeps | with_reducible apply sendReq_keeps | with_reducible refine Keeps.foldl ?_ _ ?_ | with_reducible refine Keeps.foldl_snd ?_ _ ?_ | intro _ | with_reducible refine Keeps.snd (by with_reducible assumption) ?_ | split | dsimp only)

theorem ask_keeps {a : State} {x1 : _} {x2 : _} {x3 : _} {x4 : _} {x5 : _} {x6 : _} {s : State} (h : Keeps a s)  : Keeps a (ask x1 x2 x3 x4 x5 x6 s).2 := by
  unfold ask
  repeat' (first | with_reducible assumption | with_reducible apply modJob_keeps | with_reducible apply State.modNmc_keeps | with_reducible apply sendAccess_keeps | with_reducible refine Keeps.foldl ?_ _ ?_ | with_reducible refine Keeps.foldl_snd ?_ _ ?_ | intro _ | with_reducible refine Keeps.snd (by with_reducible assumption) ?_ | split | dsimp only)

theorem doneWith_keeps {a : State} {x1 : _} {x2 : _} {s : State} (h : Keeps a s)  : Keeps a (doneWith x1 x2 s) := by
  unfold doneWith
  repeat' (first | with_reducible assumption | with_reducible apply modJob_keeps)

theorem retryAccess_keeps {a : State} {x1 : _} {x2 : _} {x3 : _} {s : State} (h : Keeps a s)  : Keeps a (retryAccess x1 x2 x3 s) := by
  unfold retryAccess
  repeat' (first | with_reducible assumption | with_reducible apply reach_keeps | with_reducible apply sendAccess_keeps | with_reducible apply modJob_keeps | with_reducible refine Keeps.foldl ?_ _ ?_ | with_reducible refine Keeps.foldl_snd ?_ _ ?_ | intro _ | with_reducible refine Keeps.snd (by with_reducible assumption) ?_ | split | dsimp only)

theorem ownAsk_keeps {a : State} {x1 : _} {x2 : _} {x3 : _} {s : State} (h : Keeps a s)  : Keeps a (ownAsk x1 x2 x3 s).2 := by
  unfold ownAsk
  repeat' (first | with_reducible assumption | with_reducible apply State.modHome_keeps | with_reducible apply arrive_keeps | with_reducible refine Keeps.foldl ?_ _ ?_ | with_reducible refine Keeps.foldl_snd ?_ _ ?_ | intro _ | with_reducible refine Keeps.snd (by with_reducible assumption) ?_ | split | dsimp only)

theorem killRequests_keeps {a : State} {x1 : _} {x2 : _} {s : State} (h : Keeps a s)  : Keeps a (killRequests x1 x2 s) := by
  unfold killRequests
  repeat' (first | with_reducible assumption | with_reducible apply landed_keeps | with_reducible apply State.modEmb_keeps | with_reducible apply State.modPrn_keeps | with_reducible refine Keeps.foldl ?_ _ ?_ | with_reducible refine Keeps.foldl_snd ?_ _ ?_ | intro _)

theorem setOwnerCtx_keeps {a : State} {x1 : _} {x2 : _} {s : State} (h : Keeps a s)  : Keeps a (setOwnerCtx x1 x2 s) := by
  unfold setOwnerCtx
  repeat' (first | with_reducible assumption | with_reducible apply State.modNmc_keeps)

theorem giveStations_keeps {a : State} {x1 : _} {s : State} (h : Keeps a s)  : Keeps a (giveStations x1 s) := by
  unfold giveStations
  repeat' (first | with_reducible assumption | with_reducible apply progress_keeps | with_reducible apply setOwnerCtx_keeps | with_reducible refine Keeps.foldl ?_ _ ?_ | with_reducible refine Keeps.foldl_snd ?_ _ ?_ | intro _ | with_reducible refine Keeps.snd (by with_reducible assumption) ?_ | split | dsimp only)

theorem dropFaults_keeps {a : State} {x1 : _} {s : State} (h : Keeps a s)  : Keeps a (dropFaults x1 s) := by
  unfold dropFaults
  repeat' (first | with_reducible assumption | with_reducible apply State.modXlt_keeps)

theorem leaveRegions_keeps {a : State} {x1 : _} {s : State} (h : Keeps a s)  : Keeps a (leaveRegions x1 s) := by
  unfold leaveRegions
  repeat' (first | with_reducible assumption | with_reducible apply landed_keeps | with_reducible apply modJob_keeps | with_reducible refine Keeps.foldl ?_ _ ?_ | with_reducible refine Keeps.foldl_snd ?_ _ ?_ | intro _ | with_reducible refine Keeps.snd (by with_reducible assumption) ?_ | split)

theorem completeReq_keeps {a : State} {x1 : _} {x2 : _} {x3 : _} {s : State} (h : Keeps a s)  : Keeps a (completeReq x1 x2 x3 s) := by
  unfold completeReq
  repeat' (first | with_reducible assumption | with_reducible apply State.modNmc_keeps)

theorem endSuspend_keeps {a : State} {x1 : _} {x2 : _} {x3 : _} {s : State} (h : Keeps a s)  : Keeps a (endSuspend x1 x2 x3 s) := by
  unfold endSuspend
  repeat' (first | with_reducible assumption | with_reducible apply completeReq_keeps | with_reducible refine Keeps.foldl ?_ _ ?_ | with_reducible refine Keeps.foldl_snd ?_ _ ?_ | intro _ | with_reducible refine Keeps.snd (by with_reducible assumption) ?_ | split)

theorem endJob_keeps {a : State} {x1 : _} {x2 : _} {x3 : _} {x4 : _} {x5 : _} {s : State} (h : Keeps a s)  : Keeps a (endJob x1 x2 x3 x4 x5 s) := by
  unfold endJob
  repeat' (first | with_reducible assumption | with_reducible apply raise_keeps | with_reducible apply endSuspend_keeps | with_reducible apply endMulti_keeps | with_reducible apply leaveRegions_keeps | with_reducible apply dropFaults_keeps | with_reducible apply killRequests_keeps | with_reducible apply modJob_keeps | with_reducible apply State.modNmc_keeps | with_reducible apply giveStations_keeps | with_reducible apply setOwnerCtx_keeps | with_reducible refine Keeps.foldl ?_ _ ?_ | with_reducible refine Keeps.foldl_snd ?_ _ ?_ | intro _ | with_reducible refine Keeps.snd (by with_reducible assumption) ?_ | split | dsimp only)

theorem keepBody_keeps {a : State} {x1 : _} {x2 : _} {s : State} (h : Keeps a s)  : Keeps a (keepBody x1 x2 s) := by
  unfold keepBody
  repeat' (first | with_reducible assumption | with_reducible apply endJob_keeps | with_reducible apply progress_keeps | with_reducible apply modBody_keeps | with_reducible refine Keeps.foldl ?_ _ ?_ | with_reducible refine Keeps.foldl_snd ?_ _ ?_ | intro _ | with_reducible refine Keeps.snd (by with_reducible assumption) ?_ | split)

theorem portReply_keeps {a : State} {x1 : _} {x2 : _} {x3 : _} {x4 : _} {s : State} (h : Keeps a s)  : Keeps a (portReply x1 x2 x3 x4 s) := by
  unfold portReply
  repeat' (first | with_reducible assumption | with_reducible apply giveStations_keeps | with_reducible apply keepBody_keeps | with_reducible refine Keeps.foldl ?_ _ ?_ | with_reducible refine Keeps.foldl_snd ?_ _ ?_ | intro _ | with_reducible refine Keeps.snd (by with_reducible assumption) ?_ | split)

theorem numberJob_keeps {a : State} {x1 : _} {s : State} (h : Keeps a s)  : Keeps a (numberJob x1 s) := by
  unfold numberJob
  repeat' (first | with_reducible assumption | with_reducible apply endMulti_keeps | with_reducible apply modJob_keeps | with_reducible apply State.modNmc_keeps | with_reducible refine Keeps.foldl ?_ _ ?_ | with_reducible refine Keeps.foldl_snd ?_ _ ?_ | intro _ | with_reducible refine Keeps.snd (by with_reducible assumption) ?_ | split)

theorem rerun_keeps {a : State} {x1 : _} {x2 : _} {x3 : _} {s : State} (h : Keeps a s)  : Keeps a (rerun x1 x2 x3 s) := by
  unfold rerun
  repeat' (first | with_reducible assumption | with_reducible apply leaveRegions_keeps | with_reducible apply dropFaults_keeps | with_reducible apply killRequests_keeps | with_reducible apply numberJob_keeps | with_reducible apply modJob_keeps)

theorem graftCore_keeps {a : State} {x1 : _} {s : State} (h : Keeps a s)  : Keeps a (graftCore x1 s) := by
  unfold graftCore
  repeat' (first | with_reducible assumption | with_reducible apply State.modNmc_keeps | with_reducible apply rerun_keeps | with_reducible apply dropFaults_keeps | with_reducible apply killRequests_keeps | with_reducible apply setOwnerCtx_keeps | with_reducible apply endJob_keeps | with_reducible refine Keeps.foldl ?_ _ ?_ | with_reducible refine Keeps.foldl_snd ?_ _ ?_ | intro _ | with_reducible refine Keeps.snd (by with_reducible assumption) ?_ | split | dsimp only)

theorem note01_keeps {a : State} {x1 : _} {s : State} (h : Keeps a s)  : Keeps a (note01 x1 s) := by
  unfold note01
  repeat' (first | with_reducible assumption | with_reducible apply countRC_keeps | with_reducible apply State.modNmc_keeps | with_reducible apply graftCore_keeps | with_reducible refine Keeps.foldl ?_ _ ?_ | with_reducible refine Keeps.foldl_snd ?_ _ ?_ | intro _ | with_reducible refine Keeps.snd (by with_reducible assumption) ?_ | split | dsimp only)

theorem restartJob_keeps {a : State} {x1 : _} {x2 : _} {x3 : _} {x4 : _} {x5 : _} {s : State} (h : Keeps a s)  : Keeps a (restartJob x1 x2 x3 x4 x5 s) := by
  unfold restartJob
  repeat' (first | with_reducible assumption | with_reducible apply rerun_keeps | with_reducible apply endJob_keeps | with_reducible apply note01_keeps | with_reducible apply raise_keeps | with_reducible refine Keeps.foldl ?_ _ ?_ | with_reducible refine Keeps.foldl_snd ?_ _ ?_ | intro _ | with_reducible refine Keeps.snd (by with_reducible assumption) ?_ | split | dsimp only)

theorem failJob_keeps {a : State} {x1 : _} {x2 : _} {x3 : _} {x4 : _} {s : State} (h : Keeps a s)  : Keeps a (failJob x1 x2 x3 x4 s) := by
  unfold failJob
  repeat' (first | with_reducible assumption | with_reducible apply restartJob_keeps | with_reducible apply endJob_keeps | with_reducible refine Keeps.foldl ?_ _ ?_ | with_reducible refine Keeps.foldl_snd ?_ _ ?_ | intro _ | with_reducible refine Keeps.snd (by with_reducible assumption) ?_ | split)

end Sys2Proof.Machine
end

