-- ==== Sys2Proof/Laws/KeepsXlate.lean ====
section
/-! SUPPORT. What the operations of Machine/Xlate.lean keep (Laws/Keeps.lean). -/

namespace Sys2Proof.Machine

open Sys2Proof

theorem notePosted_keeps {a : State} {x1 : _} {x2 : _} {s : State} (h : Keeps a s)  : Keeps a (notePosted x1 x2 s) := by
  unfold notePosted
  repeat' (first | with_reducible assumption | with_reducible apply State.modXlt_keeps | with_reducible refine Keeps.foldl ?_ _ ?_ | with_reducible refine Keeps.foldl_snd ?_ _ ?_ | intro _ | with_reducible refine Keeps.snd (by with_reducible assumption) ?_ | split)

theorem writeFq_keeps {a : State} {x1 : _} {s : State} (h : Keeps a s)  : Keeps a (writeFq x1 s) := by
  unfold writeFq
  repeat' (first | with_reducible assumption | with_reducible apply ownAsk_keeps | with_reducible apply State.modXlt_keeps | with_reducible apply notePosted_keeps | with_reducible apply signal_keeps | with_reducible refine Keeps.foldl ?_ _ ?_ | with_reducible refine Keeps.foldl_snd ?_ _ ?_ | intro _ | with_reducible refine Keeps.snd (by with_reducible assumption) ?_ | split | dsimp only)

theorem pumpFq_keeps {a : State} {s : State} (h : Keeps a s)  : Keeps a (pumpFq s) := by
  unfold pumpFq
  repeat' (first | with_reducible assumption | with_reducible apply writeFq_keeps | with_reducible refine Keeps.foldl ?_ _ ?_ | with_reducible refine Keeps.foldl_snd ?_ _ ?_ | intro _)

theorem rewriteFq_keeps {a : State} {x1 : _} {x2 : _} {s : State} (h : Keeps a s)  : Keeps a (rewriteFq x1 x2 s) := by
  unfold rewriteFq
  repeat' (first | with_reducible assumption | with_reducible apply ownAsk_keeps | with_reducible refine Keeps.foldl ?_ _ ?_ | with_reducible refine Keeps.foldl_snd ?_ _ ?_ | intro _ | with_reducible refine Keeps.snd (by with_reducible assumption) ?_ | split | dsimp only)

theorem postFq_keeps {a : State} {x1 : _} {s : State} (h : Keeps a s)  : Keeps a (postFq x1 s) := by
  unfold postFq
  repeat' (first | with_reducible assumption | with_reducible apply pumpFq_keeps | with_reducible apply State.modXlt_keeps)

theorem countHost_keeps {a : State} {x1 : _} {x2 : _} {s : State} (h : Keeps a s)  : Keeps a (countHost x1 x2 s) := by
  unfold countHost
  repeat' (first | with_reducible assumption | with_reducible apply State.modXlt_keeps | with_reducible apply countRC_keeps | with_reducible apply postFq_keeps | with_reducible refine Keeps.foldl ?_ _ ?_ | with_reducible refine Keeps.foldl_snd ?_ _ ?_ | intro _ | with_reducible refine Keeps.snd (by with_reducible assumption) ?_ | split | dsimp only)

theorem issueHost_keeps {a : State} {x1 : _} {s : State} (h : Keeps a s)  : Keeps a (issueHost x1 s) := by
  unfold issueHost
  repeat' (first | with_reducible assumption | with_reducible apply emitAll_keeps | with_reducible apply State.modXlt_keeps)

theorem askHost_keeps {a : State} {x1 : _} {x2 : _} {x3 : _} {x4 : _} {x5 : _} {x6 : _} {s : State} (h : Keeps a s)  : Keeps a (askHost x1 x2 x3 x4 x5 x6 s).2 := by
  unfold askHost
  repeat' (first | with_reducible assumption | with_reducible apply modJob_keeps | with_reducible apply State.modNmc_keeps | with_reducible apply issueHost_keeps | with_reducible apply State.modXlt_keeps | with_reducible refine Keeps.foldl ?_ _ ?_ | with_reducible refine Keeps.foldl_snd ?_ _ ?_ | intro _ | with_reducible refine Keeps.snd (by with_reducible assumption) ?_ | split | dsimp only)

theorem walkFrom_keeps {a : State} {x1 : _} {x2 : _} {x3 : _} {x4 : _} {x5 : _} {x6 : _} {x7 : _} {x8 : _} {s : State} (h : Keeps a s)  : Keeps a (walkFrom x1 x2 x3 x4 x5 x6 x7 x8 s).2 := by
  induction x7 generalizing s x8 with
  | nil =>
    unfold walkFrom
    repeat' (with_reducible assumption)
  | cons y l ih =>
    unfold walkFrom
    repeat' (first | with_reducible assumption | with_reducible apply ih | with_reducible apply ask_keeps | with_reducible refine Keeps.foldl ?_ _ ?_ | with_reducible refine Keeps.foldl_snd ?_ _ ?_ | intro _ | with_reducible refine Keeps.snd (by with_reducible assumption) ?_ | split | dsimp only)

theorem pageFault_keeps {a : State} {x1 : _} {x2 : _} {x3 : _} {x4 : _} {x5 : _} {x6 : _} {s : State} (h : Keeps a s)  : Keeps a (pageFault x1 x2 x3 x4 x5 x6 s) := by
  unfold pageFault
  repeat' (first | with_reducible assumption | with_reducible apply State.modXlt_keeps | with_reducible apply rewriteFq_keeps | with_reducible apply postFq_keeps | with_reducible refine Keeps.foldl ?_ _ ?_ | with_reducible refine Keeps.foldl_snd ?_ _ ?_ | intro _ | with_reducible refine Keeps.snd (by with_reducible assumption) ?_ | split | dsimp only)

theorem xlate_keeps {a : State} {x1 : _} {x2 : _} {x3 : _} {x4 : _} {x5 : _} {s : State} (h : Keeps a s)  : Keeps a (xlate x1 x2 x3 x4 x5 s).2 := by
  unfold xlate
  repeat' (first | with_reducible assumption | with_reducible apply pageFault_keeps | with_reducible apply pumpFq_keeps | with_reducible apply walkFrom_keeps | with_reducible apply doneWith_keeps | with_reducible apply State.modXlt_keeps | with_reducible refine Keeps.foldl ?_ _ ?_ | with_reducible refine Keeps.foldl_snd ?_ _ ?_ | intro _ | with_reducible refine Keeps.snd (by with_reducible assumption) ?_ | split | dsimp only)

theorem viewLine_keeps {a : State} {x1 : _} {x2 : _} {x3 : _} {x4 : _} {x5 : _} {s : State} (h : Keeps a s)  : Keeps a (viewLine x1 x2 x3 x4 x5 s).2 := by
  unfold viewLine
  repeat' (first | with_reducible assumption | with_reducible apply xlate_keeps | with_reducible apply askHost_keeps | with_reducible apply State.draw_keeps | with_reducible apply ask_keeps | with_reducible refine Keeps.foldl ?_ _ ?_ | with_reducible refine Keeps.foldl_snd ?_ _ ?_ | intro _ | with_reducible refine Keeps.snd (by with_reducible assumption) ?_ | split | dsimp only)

theorem viewLines2_keeps {a : State} {x1 : _} {x2 : _} {x3 : _} {x4 : _} {s : State} (h : Keeps a s)  : Keeps a (viewLines2 x1 x2 x3 x4 s).2 := by
  induction x4 generalizing s  with
  | nil =>
    unfold viewLines2
    repeat' (with_reducible assumption)
  | cons y l ih =>
    unfold viewLines2
    repeat' (first | with_reducible assumption | with_reducible apply ih | with_reducible apply viewLine_keeps | with_reducible refine Keeps.foldl ?_ _ ?_ | with_reducible refine Keeps.foldl_snd ?_ _ ?_ | intro _ | with_reducible refine Keeps.snd (by with_reducible assumption) ?_ | split)

theorem viewBytes_keeps {a : State} {x1 : _} {x2 : _} {x3 : _} {x4 : _} {x5 : _} {s : State} (h : Keeps a s)  : Keeps a (viewBytes x1 x2 x3 x4 x5 s).2 := by
  unfold viewBytes
  repeat' (first | with_reducible assumption | with_reducible apply viewLines2_keeps | with_reducible refine Keeps.foldl ?_ _ ?_ | with_reducible refine Keeps.foldl_snd ?_ _ ?_ | intro _ | with_reducible refine Keeps.snd (by with_reducible assumption) ?_ | split | dsimp only)

theorem viewBlock_keeps {a : State} {x1 : _} {x2 : _} {x3 : _} {x4 : _} {s : State} (h : Keeps a s)  : Keeps a (viewBlock x1 x2 x3 x4 s).2 := by
  unfold viewBlock
  repeat' (first | with_reducible assumption | with_reducible apply xlate_keeps | with_reducible apply ask_keeps | with_reducible refine Keeps.foldl ?_ _ ?_ | with_reducible refine Keeps.foldl_snd ?_ _ ?_ | intro _ | with_reducible refine Keeps.snd (by with_reducible assumption) ?_ | split | dsimp only)

end Sys2Proof.Machine
end

