-- ==== Sys2Proof/Laws/KeepsStreams.lean ====
section
/-! SUPPORT. What the operations of Machine/Streams.lean keep (Laws/Keeps.lean). -/

namespace Sys2Proof.Machine

open Sys2Proof

theorem runStep_keeps {a : State} {x1 : _} {x2 : _} {x3 : _} {s : State} (h : Keeps a s)  : Keeps a (runStep x1 x2 x3 s) := by
  unfold runStep
  repeat' (first | with_reducible assumption | with_reducible apply restartJob_keeps | with_reducible apply endJob_keeps | with_reducible apply progress_keeps | with_reducible apply modBody_keeps | with_reducible refine Keeps.foldl ?_ _ ?_ | with_reducible refine Keeps.foldl_snd ?_ _ ?_ | intro _ | with_reducible refine Keeps.snd (by with_reducible assumption) ?_ | split | dsimp only)

end Sys2Proof.Machine
end

