-- ==== Sys2Proof/Laws/KeepsArith.lean ====
section
/-! SUPPORT. What the operations of Machine/Arith.lean keep (Laws/Keeps.lean). -/

namespace Sys2Proof.Machine

open Sys2Proof

theorem execZero_keeps {a : State} {x1 x2 : _}  : Runs a (execZero x1 x2) := by
  unfold execZero
  repeat' (first | with_reducible assumption | with_reducible refine Runs.complete ?_ | with_reducible apply runStep_keeps)

theorem execMma_keeps {a : State} {x1 x2 : _}  : Runs a (execMma x1 x2) := by
  unfold execMma
  repeat' (first | with_reducible assumption | with_reducible refine Runs.complete ?_ | with_reducible apply runStep_keeps)

theorem execEmit_keeps {a : State} {x1 x2 : _}  : Runs a (execEmit x1 x2) := by
  unfold execEmit
  repeat' (first | with_reducible assumption | with_reducible refine Runs.complete ?_ | with_reducible apply runStep_keeps)

theorem execTillerLoad_keeps {a : State} {x1 x2 : _}  : Runs a (execTillerLoad x1 x2) := by
  unfold execTillerLoad
  repeat' (first | with_reducible assumption | with_reducible refine Runs.complete ?_ | with_reducible apply runStep_keeps)

theorem execDtab_keeps {a : State} {x1 x2 : _}  : Runs a (execDtab x1 x2) := by
  unfold execDtab
  repeat' (first | with_reducible assumption | with_reducible refine Runs.complete ?_ | with_reducible apply runStep_keeps)

theorem execLutmv_keeps {a : State} {x1 x2 : _}  : Runs a (execLutmv x1 x2) := by
  unfold execLutmv
  repeat' (first | with_reducible assumption | with_reducible refine Runs.complete ?_ | with_reducible apply runStep_keeps)

theorem rake_keeps {a : State} {x1 : _} {x2 : _} {x3 : _} {x4 : _} {s : State} (h : Keeps a s)  : Keeps a (rake x1 x2 x3 x4 s) := by
  unfold rake
  repeat' (first | with_reducible assumption | with_reducible apply runStep_keeps)

theorem execAdd_keeps {a : State} {x1 x2 : _}  : Runs a (execAdd x1 x2) := by
  unfold execAdd
  repeat' (first | with_reducible assumption | with_reducible refine Runs.complete ?_ | with_reducible apply rake_keeps)

theorem execSub_keeps {a : State} {x1 x2 : _}  : Runs a (execSub x1 x2) := by
  unfold execSub
  repeat' (first | with_reducible assumption | with_reducible refine Runs.complete ?_ | with_reducible apply rake_keeps)

theorem execMul_keeps {a : State} {x1 x2 : _}  : Runs a (execMul x1 x2) := by
  unfold execMul
  repeat' (first | with_reducible assumption | with_reducible refine Runs.complete ?_ | with_reducible apply rake_keeps)

theorem execFma_keeps {a : State} {x1 x2 : _}  : Runs a (execFma x1 x2) := by
  unfold execFma
  repeat' (first | with_reducible assumption | with_reducible refine Runs.complete ?_ | with_reducible apply rake_keeps)

theorem execMin_keeps {a : State} {x1 x2 : _}  : Runs a (execMin x1 x2) := by
  unfold execMin
  repeat' (first | with_reducible assumption | with_reducible refine Runs.complete ?_ | with_reducible apply rake_keeps)

theorem execMax_keeps {a : State} {x1 x2 : _}  : Runs a (execMax x1 x2) := by
  unfold execMax
  repeat' (first | with_reducible assumption | with_reducible refine Runs.complete ?_ | with_reducible apply rake_keeps)

theorem execAbs_keeps {a : State} {x1 x2 : _}  : Runs a (execAbs x1 x2) := by
  unfold execAbs
  repeat' (first | with_reducible assumption | with_reducible refine Runs.complete ?_ | with_reducible apply rake_keeps)

theorem execNeg_keeps {a : State} {x1 x2 : _}  : Runs a (execNeg x1 x2) := by
  unfold execNeg
  repeat' (first | with_reducible assumption | with_reducible refine Runs.complete ?_ | with_reducible apply rake_keeps)

theorem execCmp_keeps {a : State} {x1 x2 : _}  : Runs a (execCmp x1 x2) := by
  unfold execCmp
  repeat' (first | with_reducible assumption | with_reducible refine Runs.complete ?_ | with_reducible apply rake_keeps)

theorem execSel_keeps {a : State} {x1 x2 : _}  : Runs a (execSel x1 x2) := by
  unfold execSel
  repeat' (first | with_reducible assumption | with_reducible refine Runs.complete ?_ | with_reducible apply rake_keeps)

theorem execExp_keeps {a : State} {x1 x2 : _}  : Runs a (execExp x1 x2) := by
  unfold execExp
  repeat' (first | with_reducible assumption | with_reducible refine Runs.complete ?_ | with_reducible apply rake_keeps)

theorem execExp2_keeps {a : State} {x1 x2 : _}  : Runs a (execExp2 x1 x2) := by
  unfold execExp2
  repeat' (first | with_reducible assumption | with_reducible refine Runs.complete ?_ | with_reducible apply rake_keeps)

theorem execLog_keeps {a : State} {x1 x2 : _}  : Runs a (execLog x1 x2) := by
  unfold execLog
  repeat' (first | with_reducible assumption | with_reducible refine Runs.complete ?_ | with_reducible apply rake_keeps)

theorem execLog2_keeps {a : State} {x1 x2 : _}  : Runs a (execLog2 x1 x2) := by
  unfold execLog2
  repeat' (first | with_reducible assumption | with_reducible refine Runs.complete ?_ | with_reducible apply rake_keeps)

theorem execRsqrt_keeps {a : State} {x1 x2 : _}  : Runs a (execRsqrt x1 x2) := by
  unfold execRsqrt
  repeat' (first | with_reducible assumption | with_reducible refine Runs.complete ?_ | with_reducible apply rake_keeps)

theorem execRecip_keeps {a : State} {x1 x2 : _}  : Runs a (execRecip x1 x2) := by
  unfold execRecip
  repeat' (first | with_reducible assumption | with_reducible refine Runs.complete ?_ | with_reducible apply rake_keeps)

theorem execSqrt_keeps {a : State} {x1 x2 : _}  : Runs a (execSqrt x1 x2) := by
  unfold execSqrt
  repeat' (first | with_reducible assumption | with_reducible refine Runs.complete ?_ | with_reducible apply rake_keeps)

theorem execDiv_keeps {a : State} {x1 x2 : _}  : Runs a (execDiv x1 x2) := by
  unfold execDiv
  repeat' (first | with_reducible assumption | with_reducible refine Runs.complete ?_ | with_reducible apply rake_keeps)

theorem execTanh_keeps {a : State} {x1 x2 : _}  : Runs a (execTanh x1 x2) := by
  unfold execTanh
  repeat' (first | with_reducible assumption | with_reducible refine Runs.complete ?_ | with_reducible apply rake_keeps)

theorem execRowSum_keeps {a : State} {x1 x2 : _}  : Runs a (execRowSum x1 x2) := by
  unfold execRowSum
  repeat' (first | with_reducible assumption | with_reducible refine Runs.complete ?_ | with_reducible apply runStep_keeps)

theorem execRowMax_keeps {a : State} {x1 x2 : _}  : Runs a (execRowMax x1 x2) := by
  unfold execRowMax
  repeat' (first | with_reducible assumption | with_reducible refine Runs.complete ?_ | with_reducible apply rake_keeps)

theorem execSoftmax_keeps {a : State} {x1 x2 : _}  : Runs a (execSoftmax x1 x2) := by
  unfold execSoftmax
  repeat' (first | with_reducible assumption | with_reducible refine Runs.complete ?_ | with_reducible apply rake_keeps)

theorem execTopk_keeps {a : State} {x1 x2 : _}  : Runs a (execTopk x1 x2) := by
  unfold execTopk
  repeat' (first | with_reducible assumption | with_reducible refine Runs.complete ?_ | with_reducible apply runStep_keeps)

theorem execCvt_keeps {a : State} {x1 x2 : _}  : Runs a (execCvt x1 x2) := by
  unfold execCvt
  repeat' (first | with_reducible assumption | with_reducible refine Runs.complete ?_ | with_reducible apply rake_keeps)

theorem execIadd_keeps {a : State} {x1 x2 : _}  : Runs a (execIadd x1 x2) := by
  unfold execIadd
  repeat' (first | with_reducible assumption | with_reducible refine Runs.complete ?_ | with_reducible apply rake_keeps)

theorem execIsub_keeps {a : State} {x1 x2 : _}  : Runs a (execIsub x1 x2) := by
  unfold execIsub
  repeat' (first | with_reducible assumption | with_reducible refine Runs.complete ?_ | with_reducible apply rake_keeps)

theorem execImul_keeps {a : State} {x1 x2 : _}  : Runs a (execImul x1 x2) := by
  unfold execImul
  repeat' (first | with_reducible assumption | with_reducible refine Runs.complete ?_ | with_reducible apply rake_keeps)

theorem execLogic_keeps {a : State} {x1 x2 : _}  : Runs a (execLogic x1 x2) := by
  unfold execLogic
  repeat' (first | with_reducible assumption | with_reducible refine Runs.complete ?_ | with_reducible apply rake_keeps)

theorem execShift_keeps {a : State} {x1 x2 : _}  : Runs a (execShift x1 x2) := by
  unfold execShift
  repeat' (first | with_reducible assumption | with_reducible refine Runs.complete ?_ | with_reducible apply rake_keeps)

theorem execIsat_keeps {a : State} {x1 x2 : _}  : Runs a (execIsat x1 x2) := by
  unfold execIsat
  repeat' (first | with_reducible assumption | with_reducible refine Runs.complete ?_ | with_reducible apply rake_keeps)

end Sys2Proof.Machine
end

