-- ==== Sys2Proof/Laws/KeepsCommand.lean ====
section
/-! SUPPORT. What the operations of Machine/Command.lean keep (Laws/Keeps.lean). -/

namespace Sys2Proof.Machine

open Sys2Proof

theorem issue_keeps {a : State} {x1 : _} {x2 : _} {x3 : _} {x4 : _} {x5 : _} {x6 : _} {s : State} (hx6 : ∀ y0, Keeps a y0 → Keeps a (x6 y0)) (h : Keeps a s)  : Keeps a (issue x1 x2 x3 x4 x5 x6 s).2 := by
  unfold issue
  repeat' (first | with_reducible assumption | with_reducible apply rejected_keeps | with_reducible apply doneMod_keeps | with_reducible apply hx6 | with_reducible refine Keeps.foldl ?_ _ ?_ | with_reducible refine Keeps.foldl_snd ?_ _ ?_ | intro _ | with_reducible refine Keeps.snd (by with_reducible assumption) ?_ | split)

theorem cmdDone_keeps {a : State} {x1 : _} {x2 : _} {x3 : _} {s : State} (h : Keeps a s)  : Keeps a (cmdDone x1 x2 x3 s) := by
  unfold cmdDone
  repeat' (first | with_reducible assumption | with_reducible apply doneMod_keeps)

end Sys2Proof.Machine
end

