-- ==== Sys2Proof/Laws/KeepsCohCmds.lean ====
section
/-! SUPPORT. What the operations of Machine/CohCmds.lean keep (Laws/Keeps.lean). -/

namespace Sys2Proof.Machine

open Sys2Proof

theorem cohArrive_keeps {a : State} {x1 : _} {x2 : _} {s : State} (h : Keeps a s)  : Keeps a (cohArrive x1 x2 s) := by
  unfold cohArrive
  repeat' (first | with_reducible assumption | with_reducible apply pump_keeps | with_reducible apply cohEnter_keeps | with_reducible refine Keeps.foldl ?_ _ ?_ | with_reducible refine Keeps.foldl_snd ?_ _ ?_ | intro _ | with_reducible refine Keeps.snd (by with_reducible assumption) ?_ | split)

theorem execRdS_keeps {a : State} {x1 : _}  : Runs a (execRdS x1) := by
  unfold execRdS
  repeat' (first | with_reducible assumption | with_reducible refine Runs.complete ?_ | with_reducible apply cohArrive_keeps)

theorem execRdE_keeps {a : State} {x1 : _}  : Runs a (execRdE x1) := by
  unfold execRdE
  repeat' (first | with_reducible assumption | with_reducible refine Runs.complete ?_ | with_reducible apply cohArrive_keeps)

theorem execUpg_keeps {a : State} {x1 : _}  : Runs a (execUpg x1) := by
  unfold execUpg
  repeat' (first | with_reducible assumption | with_reducible refine Runs.complete ?_ | with_reducible apply cohArrive_keeps)

theorem strayCount_keeps {a : State} {s : State} (h : Keeps a s)  : Keeps a (strayCount s) := by
  unfold strayCount
  repeat' (first | with_reducible assumption | with_reducible apply countRC_keeps)

theorem strayWb_keeps {a : State} {x1 : _} {x2 : _} {x3 : _} {s : State} (h : Keeps a s)  : Keeps a (strayWb x1 x2 x3 s) := by
  unfold strayWb
  repeat' (first | with_reducible assumption | with_reducible apply cmpWb_keeps | with_reducible apply cohRec_keeps | with_reducible apply strayCount_keeps)

theorem takeWbD_keeps {a : State} {x1 : _} {s : State} (h : Keeps a s)  : Keeps a (takeWbD x1 s) := by
  unfold takeWbD
  repeat' (first | with_reducible assumption | with_reducible apply strayCount_keeps | with_reducible apply cmpWb_keeps | with_reducible apply pump_keeps | with_reducible apply takeWb_keeps | with_reducible apply impossible_keeps | with_reducible apply strayWb_keeps | with_reducible refine Keeps.foldl ?_ _ ?_ | with_reducible refine Keeps.foldl_snd ?_ _ ?_ | intro _ | with_reducible refine Keeps.snd (by with_reducible assumption) ?_ | split | dsimp only)

theorem execWbD_keeps {a : State} {x1 : _}  : Runs a (execWbD x1) := by
  unfold execWbD
  repeat' (first | with_reducible assumption | with_reducible refine Runs.complete ?_ | with_reducible apply takeWbD_keeps)

theorem takeEvict_keeps {a : State} {x1 : _} {s : State} (h : Keeps a s)  : Keeps a (takeEvict x1 s) := by
  unfold takeEvict
  repeat' (first | with_reducible assumption | with_reducible apply strayCount_keeps | with_reducible apply cmpWb_keeps | with_reducible apply pump_keeps | with_reducible apply modDir_keeps | with_reducible refine Keeps.foldl ?_ _ ?_ | with_reducible refine Keeps.foldl_snd ?_ _ ?_ | intro _ | with_reducible refine Keeps.snd (by with_reducible assumption) ?_ | split | dsimp only)

theorem execEvictC_keeps {a : State} {x1 : _}  : Runs a (execEvictC x1) := by
  unfold execEvictC
  repeat' (first | with_reducible assumption | with_reducible refine Runs.complete ?_ | with_reducible apply takeEvict_keeps)

theorem noteRtt_keeps {a : State} {x1 : _} {x2 : _} {s : State} (h : Keeps a s)  : Keeps a (noteRtt x1 x2 s) := by
  unfold noteRtt
  repeat' (first | with_reducible assumption | with_reducible apply State.modCoh_keeps)

theorem takeSnoopRsp_keeps {a : State} {x1 : _} {x2 : _} {x3 : _} {x4 : _} {s : State} (h : Keeps a s)  : Keeps a (takeSnoopRsp x1 x2 x3 x4 s) := by
  unfold takeSnoopRsp
  repeat' (first | with_reducible assumption | with_reducible apply impossible_keeps | with_reducible apply strayCount_keeps | with_reducible apply State.modCoh_keeps | with_reducible apply pump_keeps | with_reducible apply takeRsp_keeps | with_reducible apply noteRtt_keeps | with_reducible apply countRC_keeps | with_reducible apply takeLate_keeps | with_reducible refine Keeps.foldl ?_ _ ?_ | with_reducible refine Keeps.foldl_snd ?_ _ ?_ | intro _ | with_reducible refine Keeps.snd (by with_reducible assumption) ?_ | split | dsimp only)

theorem execRspI_keeps {a : State} {x1 : _}  : Runs a (execRspI x1) := by
  unfold execRspI
  repeat' (first | with_reducible assumption | with_reducible refine Runs.complete ?_ | with_reducible apply takeSnoopRsp_keeps)

theorem execRspS_keeps {a : State} {x1 : _}  : Runs a (execRspS x1) := by
  unfold execRspS
  repeat' (first | with_reducible assumption | with_reducible refine Runs.complete ?_ | with_reducible apply takeSnoopRsp_keeps)

theorem execRspE_keeps {a : State} {x1 : _}  : Runs a (execRspE x1) := by
  unfold execRspE
  repeat' (first | with_reducible assumption | with_reducible refine Runs.complete ?_ | with_reducible apply takeSnoopRsp_keeps)

theorem execRspID_keeps {a : State} {x1 : _}  : Runs a (execRspID x1) := by
  unfold execRspID
  repeat' (first | with_reducible assumption | with_reducible refine Runs.complete ?_ | with_reducible apply takeSnoopRsp_keeps)

theorem execRspSD_keeps {a : State} {x1 : _}  : Runs a (execRspSD x1) := by
  unfold execRspSD
  repeat' (first | with_reducible assumption | with_reducible refine Runs.complete ?_ | with_reducible apply takeSnoopRsp_keeps)

theorem execRspED_keeps {a : State} {x1 : _}  : Runs a (execRspED x1) := by
  unfold execRspED
  repeat' (first | with_reducible assumption | with_reducible refine Runs.complete ?_ | with_reducible apply takeSnoopRsp_keeps)

theorem takeFenceAck_keeps {a : State} {x1 : _} {s : State} (h : Keeps a s)  : Keeps a (takeFenceAck x1 s) := by
  unfold takeFenceAck
  repeat' (first | with_reducible assumption | with_reducible apply impossible_keeps | with_reducible apply strayCount_keeps | with_reducible apply pump_keeps | with_reducible apply switchMode_keeps | with_reducible apply State.modCoh_keeps | with_reducible refine Keeps.foldl ?_ _ ?_ | with_reducible refine Keeps.foldl_snd ?_ _ ?_ | intro _ | with_reducible refine Keeps.snd (by with_reducible assumption) ?_ | split | dsimp only)

theorem execFenceAck_keeps {a : State} {x1 : _}  : Runs a (execFenceAck x1) := by
  unfold execFenceAck
  repeat' (first | with_reducible assumption | with_reducible refine Runs.complete ?_ | with_reducible apply takeFenceAck_keeps)

theorem takeResetAck_keeps {a : State} {x1 : _} {s : State} (h : Keeps a s)  : Keeps a (takeResetAck x1 s) := by
  unfold takeResetAck
  repeat' (first | with_reducible assumption | with_reducible apply strayCount_keeps | with_reducible apply State.modCoh_keeps | with_reducible apply impossible_keeps | with_reducible refine Keeps.foldl ?_ _ ?_ | with_reducible refine Keeps.foldl_snd ?_ _ ?_ | intro _ | with_reducible refine Keeps.snd (by with_reducible assumption) ?_ | split)

theorem execResetAck_keeps {a : State} {x1 : _}  : Runs a (execResetAck x1) := by
  unfold execResetAck
  repeat' (first | with_reducible assumption | with_reducible refine Runs.complete ?_ | with_reducible apply takeResetAck_keeps)

theorem fenceTimeout_keeps {a : State} {s : State} (h : Keeps a s)  : Keeps a (fenceTimeout s) := by
  unfold fenceTimeout
  repeat' (first | with_reducible assumption | with_reducible apply pump_keeps | with_reducible apply startSweep_keeps | with_reducible apply switchMode_keeps | with_reducible apply reach_keeps | with_reducible refine Keeps.foldl ?_ _ ?_ | with_reducible refine Keeps.foldl_snd ?_ _ ?_ | intro _ | with_reducible refine Keeps.snd (by with_reducible assumption) ?_ | split)

theorem execModeFenceTimeout_keeps {a : State}  : Runs a (execModeFenceTimeout ) := by
  unfold execModeFenceTimeout
  repeat' (first | with_reducible assumption | with_reducible refine Runs.complete ?_ | with_reducible apply fenceTimeout_keeps)

theorem forceMode_keeps {a : State} {x1 : _} {x2 : _} {s : State} (h : Keeps a s)  : Keeps a (forceMode x1 x2 s) := by
  unfold forceMode
  repeat' (first | with_reducible assumption | with_reducible apply rejected_keeps | with_reducible apply State.modCoh_keeps | with_reducible apply pump_keeps | with_reducible apply startFence_keeps | with_reducible refine Keeps.foldl ?_ _ ?_ | with_reducible refine Keeps.foldl_snd ?_ _ ?_ | intro _ | with_reducible refine Keeps.snd (by with_reducible assumption) ?_ | split)

theorem execModeForceTabled_keeps {a : State} {x1 : _}  : Runs a (execModeForceTabled x1) := by
  unfold execModeForceTabled
  repeat' (first | with_reducible assumption | with_reducible refine Runs.complete ?_ | with_reducible apply forceMode_keeps)

theorem execModeForceRetry_keeps {a : State} {x1 : _}  : Runs a (execModeForceRetry x1) := by
  unfold execModeForceRetry
  repeat' (first | with_reducible assumption | with_reducible refine Runs.complete ?_ | with_reducible apply forceMode_keeps)

theorem closeStake_keeps {a : State} {x1 : _} {s : State} (h : Keeps a s)  : Keeps a (closeStake x1 s) := by
  unfold closeStake
  repeat' (first | with_reducible assumption | with_reducible apply pump_keeps | with_reducible apply lineFreed_keeps | with_reducible apply State.modCoh_keeps | with_reducible apply reach_keeps | with_reducible refine Keeps.foldl ?_ _ ?_ | with_reducible refine Keeps.foldl_snd ?_ _ ?_ | intro _ | with_reducible refine Keeps.snd (by with_reducible assumption) ?_ | split)

theorem execStakeWindowClose_keeps {a : State} {x1 : _}  : Runs a (execStakeWindowClose x1) := by
  unfold execStakeWindowClose
  repeat' (first | with_reducible assumption | with_reducible refine Runs.complete ?_ | with_reducible apply closeStake_keeps)

theorem expireReservation_keeps {a : State} {x1 : _} {s : State} (h : Keeps a s)  : Keeps a (expireReservation x1 s) := by
  unfold expireReservation
  repeat' (first | with_reducible assumption | with_reducible apply pump_keeps | with_reducible apply State.modCoh_keeps | with_reducible apply reach_keeps | with_reducible refine Keeps.foldl ?_ _ ?_ | with_reducible refine Keeps.foldl_snd ?_ _ ?_ | intro _ | with_reducible refine Keeps.snd (by with_reducible assumption) ?_ | split)

theorem execReservationExpire_keeps {a : State} {x1 : _}  : Runs a (execReservationExpire x1) := by
  unfold execReservationExpire
  repeat' (first | with_reducible assumption | with_reducible refine Runs.complete ?_ | with_reducible apply expireReservation_keeps)

theorem giveUpSnoop_keeps {a : State} {x1 : _} {x2 : _} {s : State} (h : Keeps a s)  : Keeps a (giveUpSnoop x1 x2 s) := by
  unfold giveUpSnoop
  repeat' (first | with_reducible assumption | with_reducible apply finishTxn_keeps | with_reducible apply State.modCoh_keeps)

theorem snoopUnanswered_keeps {a : State} {x1 : _} {x2 : _} {s : State} (h : Keeps a s)  : Keeps a (snoopUnanswered x1 x2 s) := by
  unfold snoopUnanswered
  repeat' (first | with_reducible assumption | with_reducible apply reach_keeps | with_reducible apply pump_keeps | with_reducible apply giveUpSnoop_keeps | with_reducible apply loseOwner_keeps | with_reducible apply emit_keeps | with_reducible apply State.modCoh_keeps | with_reducible apply cohRec_keeps | with_reducible apply startSweep_keeps | with_reducible apply modDir_keeps | with_reducible refine Keeps.foldl ?_ _ ?_ | with_reducible refine Keeps.foldl_snd ?_ _ ?_ | intro _ | with_reducible refine Keeps.snd (by with_reducible assumption) ?_ | split | dsimp only)

theorem execSnoopTimeout_keeps {a : State} {x1 x2 : _}  : Runs a (execSnoopTimeout x1 x2) := by
  unfold execSnoopTimeout
  repeat' (first | with_reducible assumption | with_reducible refine Runs.complete ?_ | with_reducible apply snoopUnanswered_keeps)

theorem endSweep_keeps {a : State} {x1 : _} {s : State} (h : Keeps a s)  : Keeps a (endSweep x1 s) := by
  unfold endSweep
  repeat' (first | with_reducible assumption | with_reducible apply loseOwner_keeps | with_reducible apply modDir_keeps | with_reducible apply State.modCoh_keeps | with_reducible apply pump_keeps | with_reducible apply startFence_keeps | with_reducible refine Keeps.foldl ?_ _ ?_ | with_reducible refine Keeps.foldl_snd ?_ _ ?_ | intro _ | with_reducible refine Keeps.snd (by with_reducible assumption) ?_ | split | dsimp only)

theorem execLostAgentSweepEnd_keeps {a : State} {x1 : _}  : Runs a (execLostAgentSweepEnd x1) := by
  unfold execLostAgentSweepEnd
  repeat' (first | with_reducible assumption | with_reducible refine Runs.complete ?_ | with_reducible apply endSweep_keeps)

theorem expirePlaceholder_keeps {a : State} {x1 : _} {x2 : _} {s : State} (h : Keeps a s)  : Keeps a (expirePlaceholder x1 x2 s) := by
  unfold expirePlaceholder
  repeat' (first | with_reducible assumption | with_reducible apply pump_keeps | with_reducible apply State.modCoh_keeps | with_reducible apply reach_keeps | with_reducible refine Keeps.foldl ?_ _ ?_ | with_reducible refine Keeps.foldl_snd ?_ _ ?_ | intro _ | with_reducible refine Keeps.snd (by with_reducible assumption) ?_ | split | dsimp only)

theorem execPlaceholderExpire_keeps {a : State} {x1 x2 : _}  : Runs a (execPlaceholderExpire x1 x2) := by
  unfold execPlaceholderExpire
  repeat' (first | with_reducible assumption | with_reducible refine Runs.complete ?_ | with_reducible apply expirePlaceholder_keeps)

theorem endResume_keeps {a : State} {s : State} (h : Keeps a s)  : Keeps a (endResume s) := by
  unfold endResume
  repeat' (first | with_reducible assumption | with_reducible apply State.modCoh_keeps | with_reducible apply reach_keeps | with_reducible refine Keeps.foldl ?_ _ ?_ | with_reducible refine Keeps.foldl_snd ?_ _ ?_ | intro _ | with_reducible refine Keeps.snd (by with_reducible assumption) ?_ | split)

theorem execResumeWindowEnd_keeps {a : State}  : Runs a (execResumeWindowEnd ) := by
  unfold execResumeWindowEnd
  repeat' (first | with_reducible assumption | with_reducible refine Runs.complete ?_ | with_reducible apply endResume_keeps)

theorem endRebuild_keeps {a : State} {s : State} (h : Keeps a s)  : Keeps a (endRebuild s) := by
  unfold endRebuild
  repeat' (first | with_reducible assumption | with_reducible apply reach_keeps | with_reducible apply startSweep_keeps | with_reducible apply State.modCoh_keeps | with_reducible refine Keeps.foldl ?_ _ ?_ | with_reducible refine Keeps.foldl_snd ?_ _ ?_ | intro _)

theorem execRebuildTimeout_keeps {a : State}  : Runs a (execRebuildTimeout ) := by
  unfold execRebuildTimeout
  repeat' (first | with_reducible assumption | with_reducible refine Runs.complete ?_ | with_reducible apply endRebuild_keeps)

theorem repairEntry_keeps {a : State} {x1 : _} {s : State} (h : Keeps a s)  : Keeps a (repairEntry x1 s) := by
  unfold repairEntry
  repeat' (first | with_reducible assumption | with_reducible apply pump_keeps | with_reducible apply addRecalls_keeps | with_reducible refine Keeps.foldl ?_ _ ?_ | with_reducible refine Keeps.foldl_snd ?_ _ ?_ | intro _ | with_reducible refine Keeps.snd (by with_reducible assumption) ?_ | split)

theorem execDirEntryRepair_keeps {a : State} {x1 : _}  : Runs a (execDirEntryRepair x1) := by
  unfold execDirEntryRepair
  repeat' (first | with_reducible assumption | with_reducible refine Runs.complete ?_ | with_reducible apply repairEntry_keeps)

theorem endTxn_keeps {a : State} {s : State} {x2 : _} (h : Keeps a s)  : Keeps a (endTxn s x2) := by
  unfold endTxn
  repeat' (first | with_reducible assumption | with_reducible apply loseOwner_keeps | with_reducible apply finish_keeps | with_reducible apply nack_keeps | with_reducible apply endRepair_keeps | with_reducible refine Keeps.foldl ?_ _ ?_ | with_reducible refine Keeps.foldl_snd ?_ _ ?_ | intro _ | with_reducible refine Keeps.snd (by with_reducible assumption) ?_ | split | dsimp only)

theorem endQuiesce_keeps {a : State} {s : State} (h : Keeps a s)  : Keeps a (endQuiesce s) := by
  unfold endQuiesce
  repeat' (first | with_reducible assumption | with_reducible apply State.modCoh_keeps | with_reducible apply endTxn_keeps | with_reducible apply reach_keeps | with_reducible refine Keeps.foldl ?_ _ ?_ | with_reducible refine Keeps.foldl_snd ?_ _ ?_ | intro _ | with_reducible refine Keeps.snd (by with_reducible assumption) ?_ | split)

end Sys2Proof.Machine
end

