-- ==== Sys2Proof/Laws/KeepsDma.lean ====
section
/-! SUPPORT. What the operations of Machine/Dma.lean keep (Laws/Keeps.lean). -/

namespace Sys2Proof.Machine

open Sys2Proof

theorem failAt_keeps {a : State} {x1 : _} {x2 : _} {x3 : _} {x4 : _} {x5 : _} {s : State} (h : Keeps a s)  : Keeps a (failAt x1 x2 x3 x4 x5 s) := by
  unfold failAt
  repeat' (first | with_reducible assumption | with_reducible apply restartJob_keeps | with_reducible apply endJob_keeps | with_reducible refine Keeps.foldl ?_ _ ?_ | with_reducible refine Keeps.foldl_snd ?_ _ ?_ | intro _ | with_reducible refine Keeps.snd (by with_reducible assumption) ?_ | split)

theorem setBody_keeps {a : State} {x1 : _} {x2 : _} {x3 : _} {s : State} (h : Keeps a s)  : Keeps a (setBody x1 x2 x3 s) := by
  unfold setBody
  repeat' (first | with_reducible assumption | with_reducible apply keepBody_keeps)

theorem spadeRead_keeps {a : State} {x1 : _} {x2 : _} {s : State} (h : Keeps a s)  : Keeps a (spadeRead x1 x2 s) := by
  unfold spadeRead
  repeat' (first | with_reducible assumption | with_reducible apply setBody_keeps | with_reducible apply modBody_keeps | with_reducible apply viewBlock_keeps | with_reducible apply viewBytes_keeps | with_reducible apply failAt_keeps | with_reducible apply doneWith_keeps | with_reducible apply State.draw_keeps | with_reducible refine Keeps.foldl ?_ _ ?_ | with_reducible refine Keeps.foldl_snd ?_ _ ?_ | intro _ | with_reducible refine Keeps.snd (by with_reducible assumption) ?_ | split | dsimp only)

theorem execRead_keeps {a : State} {x1 x2 : _}  : Runs a (execRead x1 x2) := by
  unfold execRead
  repeat' (first | with_reducible assumption | with_reducible refine Runs.complete ?_ | with_reducible apply spadeRead_keeps)

theorem viewRows_keeps {a : State} {x1 : _} {x2 : _} {x3 : _} {x4 : _} {x5 : _} {s : State} (h : Keeps a s)  : Keeps a (viewRows x1 x2 x3 x4 x5 s).2 := by
  induction x5 generalizing s  with
  | nil =>
    unfold viewRows
    repeat' (with_reducible assumption)
  | cons y l ih =>
    unfold viewRows
    repeat' (first | with_reducible assumption | with_reducible apply ih | with_reducible apply viewBytes_keeps | with_reducible refine Keeps.foldl ?_ _ ?_ | with_reducible refine Keeps.foldl_snd ?_ _ ?_ | intro _ | with_reducible refine Keeps.snd (by with_reducible assumption) ?_ | split)

theorem spadeRows_keeps {a : State} {x1 : _} {x2 : _} {s : State} (h : Keeps a s)  : Keeps a (spadeRows x1 x2 s) := by
  unfold spadeRows
  repeat' (first | with_reducible assumption | with_reducible apply setBody_keeps | with_reducible apply modBody_keeps | with_reducible apply endJob_keeps | with_reducible apply viewRows_keeps | with_reducible apply failAt_keeps | with_reducible apply doneWith_keeps | with_reducible refine Keeps.foldl ?_ _ ?_ | with_reducible refine Keeps.foldl_snd ?_ _ ?_ | intro _ | with_reducible refine Keeps.snd (by with_reducible assumption) ?_ | split | dsimp only)

theorem execReadRows_keeps {a : State} {x1 x2 : _}  : Runs a (execReadRows x1 x2) := by
  unfold execReadRows
  repeat' (first | with_reducible assumption | with_reducible refine Runs.complete ?_ | with_reducible apply spadeRows_keeps)

theorem stageTarget_keeps {a : State} {x1 : _} {x2 : _} {x3 : _} {x4 : _} {s : State} (h : Keeps a s)  : Keeps a (stageTarget x1 x2 x3 x4 s).2 := by
  unfold stageTarget
  repeat' (first | with_reducible assumption | with_reducible apply xlate_keeps | with_reducible refine Keeps.foldl ?_ _ ?_ | with_reducible refine Keeps.foldl_snd ?_ _ ?_ | intro _ | with_reducible refine Keeps.snd (by with_reducible assumption) ?_ | split)

theorem stageBytes_keeps {a : State} {x1 : _} {x2 : _} {x3 : _} {x4 : _} {x5 : _} {s : State} (h : Keeps a s)  : Keeps a (stageBytes x1 x2 x3 x4 x5 s).2 := by
  unfold stageBytes
  repeat' (first | with_reducible assumption | with_reducible apply stageTarget_keeps | with_reducible apply modBody_keeps | with_reducible apply viewLine_keeps | with_reducible refine Keeps.foldl ?_ _ ?_ | with_reducible refine Keeps.foldl_snd ?_ _ ?_ | intro _ | with_reducible refine Keeps.snd (by with_reducible assumption) ?_ | split | dsimp only)

theorem stageAll_keeps {a : State} {x1 : _} {x2 : _} {x3 : _} {x4 : _} {s : State} (h : Keeps a s)  : Keeps a (stageAll x1 x2 x3 x4 s).2 := by
  induction x4 generalizing s  with
  | nil =>
    unfold stageAll
    repeat' (with_reducible assumption)
  | cons y l ih =>
    unfold stageAll
    repeat' (first | with_reducible assumption | with_reducible apply ih | with_reducible apply stageBytes_keeps)

theorem stageTile_keeps {a : State} {x1 : _} {x2 : _} {x3 : _} {x4 : _} {s : State} (h : Keeps a s)  : Keeps a (stageTile x1 x2 x3 x4 s).2 := by
  unfold stageTile
  repeat' (first | with_reducible assumption | with_reducible apply stageTarget_keeps | with_reducible apply modBody_keeps | with_reducible apply stageAll_keeps | with_reducible refine Keeps.foldl ?_ _ ?_ | with_reducible refine Keeps.foldl_snd ?_ _ ?_ | intro _ | with_reducible refine Keeps.snd (by with_reducible assumption) ?_ | split | dsimp only)

theorem barrowStage_keeps {a : State} {x1 : _} {x2 : _} {s : State} (h : Keeps a s)  : Keeps a (barrowStage x1 x2 s) := by
  unfold barrowStage
  repeat' (first | with_reducible assumption | with_reducible apply setBody_keeps | with_reducible apply modBody_keeps | with_reducible apply endJob_keeps | with_reducible apply stageTile_keeps | with_reducible apply failAt_keeps | with_reducible apply doneWith_keeps | with_reducible refine Keeps.foldl ?_ _ ?_ | with_reducible refine Keeps.foldl_snd ?_ _ ?_ | intro _ | with_reducible refine Keeps.snd (by with_reducible assumption) ?_ | split | dsimp only)

theorem execStage_keeps {a : State} {x1 x2 : _}  : Runs a (execStage x1 x2) := by
  unfold execStage
  repeat' (first | with_reducible assumption | with_reducible refine Runs.complete ?_ | with_reducible apply barrowStage_keeps)

end Sys2Proof.Machine
end

