-- ==== Sys2Proof/Laws/KeepsGroup.lean ====
section
/-! SUPPORT. What the operations of Machine/Group.lean keep (Laws/Keeps.lean). -/

namespace Sys2Proof.Machine

open Sys2Proof

theorem lineClear_keeps {a : State} {x1 : _} {s : State} (h : Keeps a s)  : Keeps a (lineClear x1 s).2 := by
  unfold lineClear
  repeat' (first | with_reducible assumption | with_reducible apply dropCuts_keeps | with_reducible apply resolveLost_keeps | with_reducible apply startTxn_keeps | with_reducible refine Keeps.foldl ?_ _ ?_ | with_reducible refine Keeps.foldl_snd ?_ _ ?_ | intro _ | with_reducible refine Keeps.snd (by with_reducible assumption) ?_ | split | dsimp only)

theorem placeReady_keeps {a : State} {x1 : _} {s : State} (h : Keeps a s)  : Keeps a (placeReady x1 s).2 := by
  unfold placeReady
  repeat' (first | with_reducible assumption | with_reducible apply readyFull_keeps | with_reducible apply needLine_keeps | with_reducible apply needLines_keeps | with_reducible apply readySpan_keeps | with_reducible refine Keeps.foldl ?_ _ ?_ | with_reducible refine Keeps.foldl_snd ?_ _ ?_ | intro _ | with_reducible refine Keeps.snd (by with_reducible assumption) ?_ | split)

theorem groupReady_keeps {a : State} {x1 : _} {s : State} (h : Keeps a s)  : Keeps a (groupReady x1 s).2 := by
  unfold groupReady
  repeat' (first | with_reducible assumption | with_reducible apply lineClear_keeps | with_reducible apply placeReady_keeps | with_reducible refine Keeps.foldl ?_ _ ?_ | with_reducible refine Keeps.foldl_snd ?_ _ ?_ | intro _)

theorem groupRecord_keeps {a : State} {x1 : _} {x2 : _} {s : State} (h : Keeps a s)  : Keeps a (groupRecord x1 x2 s).2 := by
  unfold groupRecord
  repeat' (first | with_reducible assumption | with_reducible apply journal_keeps | with_reducible apply notePairLost_keeps | with_reducible apply sendMirror_keeps | with_reducible refine Keeps.foldl ?_ _ ?_ | with_reducible refine Keeps.foldl_snd ?_ _ ?_ | intro _ | with_reducible refine Keeps.snd (by with_reducible assumption) ?_ | split | dsimp only)

theorem groupEnter_keeps {a : State} {x1 : _} {x2 : _} {s : State} (h : Keeps a s)  : Keeps a (groupEnter x1 x2 s).2 := by
  unfold groupEnter
  repeat' (first | with_reducible assumption | with_reducible apply groupRecord_keeps | with_reducible refine Keeps.foldl ?_ _ ?_ | with_reducible refine Keeps.foldl_snd ?_ _ ?_ | intro _)

theorem grpPlace_keeps {a : State} {x1 : _} {s : State} (h : Keeps a s)  : Keeps a (grpPlace x1 s) := by
  unfold grpPlace
  repeat' (first | with_reducible assumption | with_reducible apply placeBlock_keeps | with_reducible apply storeLine_keeps | with_reducible apply modTag_keeps | with_reducible apply touchLine_keeps | with_reducible apply mirrorPoison_keeps | with_reducible refine Keeps.foldl ?_ _ ?_ | with_reducible refine Keeps.foldl_snd ?_ _ ?_ | intro _ | with_reducible refine Keeps.snd (by with_reducible assumption) ?_ | split)

theorem groupClose_keeps {a : State} {x1 : _} {x2 : _} {x3 : _} {s : State} (h : Keeps a s)  : Keeps a (groupClose x1 x2 x3 s) := by
  unfold groupClose
  repeat' (first | with_reducible assumption | with_reducible apply journal_keeps | with_reducible apply sendMirror_keeps | with_reducible apply grpPlace_keeps | with_reducible refine Keeps.foldl ?_ _ ?_ | with_reducible refine Keeps.foldl_snd ?_ _ ?_ | intro _)

end Sys2Proof.Machine
end

