-- ==== Sys2Proof/Laws/KeepsPorts.lean ====
section
/-! SUPPORT. What the operations of Machine/Ports.lean keep (Laws/Keeps.lean). -/

namespace Sys2Proof.Machine

open Sys2Proof

theorem dropVersions_keeps {a : State} {s : State} (h : Keeps a s)  : Keeps a (dropVersions s) := by
  unfold dropVersions
  repeat' (first | with_reducible assumption | with_reducible apply State.modEmb_keeps)

theorem modUnit_keeps {a : State} {x1 : _} {x2 : _} {s : State} (h : Keeps a s)  : Keeps a (modUnit x1 x2 s) := by
  unfold modUnit
  repeat' (first | with_reducible assumption | with_reducible apply State.modNmc_keeps)

theorem sendUnit_keeps {a : State} {x1 : _} {x2 : _} {s : State} (h : Keeps a s)  : Keeps a (sendUnit x1 x2 s) := by
  unfold sendUnit
  repeat' (first | with_reducible assumption | with_reducible apply unitAnswered_keeps | with_reducible apply arrive_keeps | with_reducible apply sendReq_keeps | with_reducible refine Keeps.foldl ?_ _ ?_ | with_reducible refine Keeps.foldl_snd ?_ _ ?_ | intro _ | with_reducible refine Keeps.snd (by with_reducible assumption) ?_ | split | dsimp only)

theorem unitAskReq_keeps {a : State} {x1 : _} {x2 : _} {x3 : _} {x4 : _} {s : State} (h : Keeps a s)  : Keeps a (unitAskReq x1 x2 x3 x4 s).2 := by
  unfold unitAskReq
  repeat' (first | with_reducible assumption | with_reducible apply modUnit_keeps | with_reducible apply State.modNmc_keeps | with_reducible apply sendUnit_keeps | with_reducible refine Keeps.foldl ?_ _ ?_ | with_reducible refine Keeps.foldl_snd ?_ _ ?_ | intro _ | with_reducible refine Keeps.snd (by with_reducible assumption) ?_ | split)

theorem unitAsk_keeps {a : State} {x1 : _} {x2 : _} {x3 : _} {x4 : _} {s : State} (h : Keeps a s)  : Keeps a (unitAsk x1 x2 x3 x4 s).2 := by
  unfold unitAsk
  repeat' (first | with_reducible assumption | with_reducible apply unitAskReq_keeps)

theorem retryUnit_keeps {a : State} {x1 : _} {x2 : _} {s : State} (h : Keeps a s)  : Keeps a (retryUnit x1 x2 s) := by
  unfold retryUnit
  repeat' (first | with_reducible assumption | with_reducible apply sendUnit_keeps | with_reducible apply modUnit_keeps | with_reducible apply reach_keeps | with_reducible refine Keeps.foldl ?_ _ ?_ | with_reducible refine Keeps.foldl_snd ?_ _ ?_ | intro _)

theorem portStep_keeps {a s : State} {x1 : Nat} {x2 : Fin 16} {x3 : Fin 8} {x4 : Job → Cmd → Station → Tile → Body → State → Sent}
    (hf : ∀ j c n t b s b' s', Keeps a s → x4 j c n t b s = .sent b' s' → Keeps a s') (h : Keeps a s) :
    Keeps a (portStep x1 x2 x3 x4 s) := by
  unfold portStep
  repeat' (first | with_reducible assumption | with_reducible apply setBody_keeps | with_reducible apply endJob_keeps | with_reducible refine hf _ _ _ _ _ _ _ _ ?_ (by with_reducible assumption) | split | dsimp only)

theorem embSend_keeps {a : State} {x1 : _} {x2 : _} {x3 : _} {x4 : _} {x5 : _} {x6 : _} {x7 : _} {s : State} (h : Keeps a s)  : Keeps a (embSend x1 x2 x3 x4 x5 x6 x7 s).2 := by
  unfold embSend
  repeat' (first | with_reducible assumption | with_reducible apply State.modEmb_keeps | with_reducible refine Keeps.foldl ?_ _ ?_ | with_reducible refine Keeps.foldl_snd ?_ _ ?_ | intro _ | with_reducible refine Keeps.snd (by with_reducible assumption) ?_ | split | dsimp only)

theorem gleanSend_keeps {a s s' : State} {core : Fin 16} {ctx : Fin 8} {j : Job} {c : Cmd} {n : Station} {t : Tile} {b b' : Body}
    (h : Keeps a s) (e : gleanSend core ctx j c n t b s = .sent b' s') : Keeps a s' := by
  unfold gleanSend at e
  split at e
  · cases e
  · cases e; exact embSend_keeps h

theorem execPortGlean_keeps {a : State} {core : Fin 16} {ctx : Fin 8} : Runs a (execPortGlean core ctx) :=
  Runs.complete fun _ => portStep_keeps fun _ _ _ _ _ _ _ _ => gleanSend_keeps

theorem sowSend_keeps {a s s' : State} {core : Fin 16} {ctx : Fin 8} {j : Job} {c : Cmd} {n : Station} {t : Tile} {b b' : Body}
    (h : Keeps a s) (e : sowSend core ctx j c n t b s = .sent b' s') : Keeps a s' := by
  unfold sowSend at e
  dsimp only at e
  split at e
  · cases e
  split at e
  · cases e; exact embSend_keeps h
  split at e
  · cases e; exact embSend_keeps h
  split at e
  · cases e; exact embSend_keeps h
  split at e
  · cases e
  split at e <;> cases e

theorem execPortSow_keeps {a : State} {core : Fin 16} {ctx : Fin 8} : Runs a (execPortSow core ctx) :=
  Runs.complete fun _ => portStep_keeps fun _ _ _ _ _ _ _ _ => sowSend_keeps

theorem prnSend_keeps {a s s' : State} {core : Fin 16} {ctx : Fin 8} {j : Job} {c : Cmd} {n : Station} {t : Tile} {b b' : Body}
    (h : Keeps a s) (e : prnSend core ctx j c n t b s = .sent b' s') : Keeps a s' := by
  unfold prnSend at e
  dsimp only at e
  split at e
  · cases e
  split at e
  · cases e; exact State.modPrn_keeps h
  split at e
  · cases e
  split at e
  · split at e
    · cases e
    · split at e <;> cases e
  split at e
  · cases e
  split at e
  · cases e; exact State.modPrn_keeps h
  split at e
  · cases e; exact State.modPrn_keeps h
  · cases e; exact State.modPrn_keeps h

theorem execPortPrune_keeps {a : State} {core : Fin 16} {ctx : Fin 8} : Runs a (execPortPrune core ctx) :=
  Runs.complete fun _ => portStep_keeps fun _ _ _ _ _ _ _ _ => prnSend_keeps

end Sys2Proof.Machine
end

