-- ==== Sys2Proof/Laws/KeepsGlean.lean ====
section
/-! SUPPORT. What the operations of Machine/Glean.lean keep (Laws/Keeps.lean). -/

namespace Sys2Proof.Machine

open Sys2Proof

theorem embDrop_keeps {a : State} {x1 : _} {s : State} (h : Keeps a s)  : Keeps a (embDrop x1 s) := by
  unfold embDrop
  repeat' (first | with_reducible assumption | with_reducible apply dropVersions_keeps | with_reducible apply State.modEmb_keeps)

theorem modEmbReq_keeps {a : State} {x1 : _} {x2 : _} {s : State} (h : Keeps a s)  : Keeps a (modEmbReq x1 x2 s) := by
  unfold modEmbReq
  repeat' (first | with_reducible assumption | with_reducible apply State.modEmb_keeps)

theorem embReply_keeps {a : State} {x1 : _} {x2 : _} {s : State} (h : Keeps a s)  : Keeps a (embReply x1 x2 s) := by
  unfold embReply
  repeat' (first | with_reducible assumption | with_reducible apply portReply_keeps | with_reducible apply embDrop_keeps)

theorem embFail_keeps {a : State} {x1 : _} {x2 : _} {x3 : _} {s : State} (h : Keeps a s)  : Keeps a (embFail x1 x2 x3 s) := by
  unfold embFail
  repeat' (first | with_reducible assumption | with_reducible apply failJob_keeps | with_reducible apply embDrop_keeps)

theorem noteRemote_keeps {a : State} {x1 : _} {x2 : _} {x3 : _} {s : State} (h : Keeps a s)  : Keeps a (noteRemote x1 x2 x3 s) := by
  unfold noteRemote
  repeat' (first | with_reducible assumption | with_reducible apply State.modEmb_keeps | with_reducible apply emit_keeps | with_reducible apply track_keeps | with_reducible refine Keeps.foldl ?_ _ ?_ | with_reducible refine Keeps.foldl_snd ?_ _ ?_ | intro _ | with_reducible refine Keeps.snd (by with_reducible assumption) ?_ | split | dsimp only)

theorem rowLinesGot_keeps {a : State} {x1 : _} {x2 : _} {x3 : _} {x4 : _} {s : State} (h : Keeps a s)  : Keeps a (rowLinesGot x1 x2 x3 x4 s).2 := by
  induction x4 generalizing s  with
  | nil =>
    unfold rowLinesGot
    repeat' (with_reducible assumption)
  | cons y l ih =>
    unfold rowLinesGot
    repeat' (first | with_reducible assumption | with_reducible apply ih | with_reducible apply unitAsk_keeps | with_reducible apply State.draw_keeps | with_reducible refine Keeps.foldl ?_ _ ?_ | with_reducible refine Keeps.foldl_snd ?_ _ ?_ | intro _ | with_reducible refine Keeps.snd (by with_reducible assumption) ?_ | split)

theorem gleanRow_keeps {a : State} {x1 : _} {x2 : _} {x3 : _} {x4 : _} {s : State} (h : Keeps a s)  : Keeps a (gleanRow x1 x2 x3 x4 s).2 := by
  unfold gleanRow
  repeat' (first | with_reducible assumption | with_reducible apply noteRemote_keeps | with_reducible apply rowLinesGot_keeps | with_reducible refine Keeps.foldl ?_ _ ?_ | with_reducible refine Keeps.foldl_snd ?_ _ ?_ | intro _ | with_reducible refine Keeps.snd (by with_reducible assumption) ?_ | split | dsimp only)

theorem gleanRows_keeps {a : State} {x1 : _} {x2 : _} {x3 : _} {x4 : _} {s : State} (h : Keeps a s)  : Keeps a (gleanRows x1 x2 x3 x4 s).2 := by
  induction x4 generalizing s  with
  | nil =>
    unfold gleanRows
    repeat' (with_reducible assumption)
  | cons y l ih =>
    unfold gleanRows
    repeat' (first | with_reducible assumption | with_reducible apply ih | with_reducible apply gleanRow_keeps | with_reducible refine Keeps.foldl ?_ _ ?_ | with_reducible refine Keeps.foldl_snd ?_ _ ?_ | intro _ | with_reducible refine Keeps.snd (by with_reducible assumption) ?_ | split)

theorem openWin_keeps {a : State} {x1 : _} {x2 : _} {s : State} (h : Keeps a s)  : Keeps a (openWin x1 x2 s).2 := by
  unfold openWin
  repeat' (first | with_reducible assumption | with_reducible apply modUnit_keeps | with_reducible apply State.modEmb_keeps | with_reducible refine Keeps.foldl ?_ _ ?_ | with_reducible refine Keeps.foldl_snd ?_ _ ?_ | intro _ | with_reducible refine Keeps.snd (by with_reducible assumption) ?_ | split | dsimp only)

theorem gleanTake_keeps {a : State} {x1 : _} {x2 : _} {x3 : _} {x4 : _} {x5 : _} {x6 : _} {x7 : _} {s : State} (h : Keeps a s)  : Keeps a (gleanTake x1 x2 x3 x4 x5 x6 x7 s).2 := by
  unfold gleanTake
  repeat' (first | with_reducible assumption | with_reducible apply countRC_keeps | with_reducible apply State.modEmb_keeps | with_reducible apply modUnit_keeps | with_reducible refine Keeps.foldl ?_ _ ?_ | with_reducible refine Keeps.foldl_snd ?_ _ ?_ | intro _ | with_reducible refine Keeps.snd (by with_reducible assumption) ?_ | split | dsimp only)

theorem gleanReply_keeps {a : State} {x1 : _} {x2 : _} {x3 : _} {s : State} (h : Keeps a s)  : Keeps a (gleanReply x1 x2 x3 s) := by
  unfold gleanReply
  repeat' (first | with_reducible assumption | with_reducible apply embReply_keeps)

theorem gleanStep_keeps {a : State} {x1 : _} {x2 : _} {s : State} (h : Keeps a s)  : Keeps a (gleanStep x1 x2 s) := by
  unfold gleanStep
  repeat' (first | with_reducible assumption | with_reducible apply embFail_keeps | with_reducible apply openWin_keeps | with_reducible apply gleanRows_keeps | with_reducible apply gleanTake_keeps | with_reducible apply gleanReply_keeps | with_reducible apply modEmbReq_keeps | with_reducible refine Keeps.foldl ?_ _ ?_ | with_reducible refine Keeps.foldl_snd ?_ _ ?_ | intro _ | with_reducible refine Keeps.snd (by with_reducible assumption) ?_ | split | dsimp only)

theorem execGather_keeps {a : State} {x1 : _}  : Runs a (execGather x1) := by
  unfold execGather
  repeat' (first | with_reducible assumption | with_reducible refine Runs.complete ?_ | with_reducible apply gleanStep_keeps)

theorem execBag_keeps {a : State} {x1 : _}  : Runs a (execBag x1) := by
  unfold execBag
  repeat' (first | with_reducible assumption | with_reducible refine Runs.complete ?_ | with_reducible apply gleanStep_keeps)

theorem spill_keeps {a : State} {x1 : _} {s : State} (h : Keeps a s)  : Keeps a (spill x1 s) := by
  unfold spill
  repeat' (first | with_reducible assumption | with_reducible apply State.modEmb_keeps | with_reducible apply modBody_keeps | with_reducible apply endJob_keeps | with_reducible refine Keeps.foldl ?_ _ ?_ | with_reducible refine Keeps.foldl_snd ?_ _ ?_ | intro _ | with_reducible refine Keeps.snd (by with_reducible assumption) ?_ | split | dsimp only)

theorem spillAll_keeps {a : State} {x1 : _} {s : State} (h : Keeps a s)  : Keeps a (spillAll x1 s) := by
  unfold spillAll
  repeat' (first | with_reducible assumption | with_reducible apply spill_keeps | with_reducible refine Keeps.foldl ?_ _ ?_ | with_reducible refine Keeps.foldl_snd ?_ _ ?_ | intro _)

theorem combine_keeps {a : State} {x1 : _} {s : State} (h : Keeps a s)  : Keeps a (combine x1 s) := by
  unfold combine
  repeat' (first | with_reducible assumption | with_reducible apply State.modEmb_keeps | with_reducible apply spill_keeps | with_reducible refine Keeps.foldl ?_ _ ?_ | with_reducible refine Keeps.foldl_snd ?_ _ ?_ | intro _ | with_reducible refine Keeps.snd (by with_reducible assumption) ?_ | split)

theorem addRow_keeps {a : State} {x1 : _} {x2 : _} {x3 : _} {x4 : _} {s : State} (h : Keeps a s)  : Keeps a (addRow x1 x2 x3 x4 s).2 := by
  unfold addRow
  repeat' (first | with_reducible assumption | with_reducible apply combine_keeps | with_reducible refine Keeps.foldl ?_ _ ?_ | with_reducible refine Keeps.foldl_snd ?_ _ ?_ | intro _)

theorem sowStep_keeps {a : State} {x1 : _} {s : State} (h : Keeps a s)  : Keeps a (sowStep x1 s) := by
  unfold sowStep
  repeat' (first | with_reducible assumption | with_reducible apply embFail_keeps | with_reducible apply addRow_keeps | with_reducible apply countRC_keeps | with_reducible apply embReply_keeps | with_reducible refine Keeps.foldl ?_ _ ?_ | with_reducible refine Keeps.foldl_snd ?_ _ ?_ | intro _ | with_reducible refine Keeps.snd (by with_reducible assumption) ?_ | split | dsimp only)

theorem execSowAdd_keeps {a : State} {x1 : _}  : Runs a (execSowAdd x1) := by
  unfold execSowAdd
  repeat' (first | with_reducible assumption | with_reducible refine Runs.complete ?_ | with_reducible apply sowStep_keeps)

theorem harvestNext_keeps {a : State} {x1 : _} {s : State} (h : Keeps a s)  : Keeps a (harvestNext x1 s) := by
  unfold harvestNext
  repeat' (first | with_reducible assumption | with_reducible apply embReply_keeps | with_reducible apply countRC_keeps | with_reducible apply modEmbReq_keeps | with_reducible refine Keeps.foldl ?_ _ ?_ | with_reducible refine Keeps.foldl_snd ?_ _ ?_ | intro _ | with_reducible refine Keeps.snd (by with_reducible assumption) ?_ | split | dsimp only)

theorem harvestStep_keeps {a : State} {x1 : _} {s : State} (h : Keeps a s)  : Keeps a (harvestStep x1 s) := by
  unfold harvestStep
  repeat' (first | with_reducible assumption | with_reducible apply embFail_keeps | with_reducible apply landed_keeps | with_reducible apply modEmbReq_keeps | with_reducible apply groupClose_keeps | with_reducible apply countShard_keeps | with_reducible apply harvestNext_keeps | with_reducible apply pump_keeps | with_reducible apply needLines_keeps | with_reducible apply groupReady_keeps | with_reducible apply openRegion_keeps | with_reducible apply groupEnter_keeps | with_reducible refine Keeps.foldl ?_ _ ?_ | with_reducible refine Keeps.foldl_snd ?_ _ ?_ | intro _ | with_reducible refine Keeps.snd (by with_reducible assumption) ?_ | split | dsimp only)

theorem execHarvest_keeps {a : State} {x1 : _}  : Runs a (execHarvest x1) := by
  unfold execHarvest
  repeat' (first | with_reducible assumption | with_reducible refine Runs.complete ?_ | with_reducible apply harvestStep_keeps)

end Sys2Proof.Machine
end

