-- ==== Sys2Proof/Laws/KeepsFleetOps.lean ====
section
/-! SUPPORT. What the operations of Machine/FleetOps.lean keep (Laws/Keeps.lean). -/

namespace Sys2Proof.Machine

open Sys2Proof

theorem noteSeen_keeps {a : State} {x1 : _} {x2 : _} {s : State} (h : Keeps a s)  : Keeps a (noteSeen x1 x2 s) := by
  unfold noteSeen
  repeat' (first | with_reducible assumption | with_reducible apply State.modFlt_keeps)

theorem flood_keeps {a : State} {x1 : _} {x2 : _} {x3 : _} {x4 : _} {x5 : _} {s : State} (h : Keeps a s)  : Keeps a (flood x1 x2 x3 x4 x5 s) := by
  unfold flood
  repeat' (first | with_reducible assumption | with_reducible apply emit_keeps | with_reducible apply noteSeen_keeps | with_reducible apply State.modFlt_keeps)

theorem sawEpoch_keeps {a : State} {x1 : _} {s : State} (h : Keeps a s)  : Keeps a (sawEpoch x1 s) := by
  unfold sawEpoch
  repeat' (first | with_reducible assumption | with_reducible apply State.modFlt_keeps)

theorem fleetRec_keeps {a : State} {x1 : _} {x2 : _} {x3 : _} {s : State} (h : Keeps a s)  : Keeps a (fleetRec x1 x2 x3 s) := by
  unfold fleetRec
  repeat' (first | with_reducible assumption | with_reducible apply raise_keeps)

theorem forget_keeps {a : State} {s : State} (h : Keeps a s)  : Keeps a (forget s) := by
  unfold forget
  repeat' (first | with_reducible assumption | with_reducible apply State.modSys_keeps | with_reducible apply State.modExt_keeps | with_reducible apply State.modTier_keeps | with_reducible apply State.modJrn_keeps | with_reducible apply State.modHome_keeps | with_reducible apply State.modCoh_keeps | with_reducible apply State.modOwn_keeps | with_reducible apply State.modNmc_keeps | with_reducible apply State.modXlt_keeps | with_reducible apply State.modCdc_keeps | with_reducible apply State.modEmb_keeps | with_reducible apply State.modPrn_keeps | with_reducible apply State.modHp_keeps | with_reducible apply State.modFab_keeps | with_reducible apply State.modRas_keeps | with_reducible apply State.modFlt_keeps | with_reducible apply State.modCfg_keeps | with_reducible apply State.modTrl_keeps | with_reducible apply State.modTel_keeps | with_reducible apply State.modRegs_keeps | with_reducible refine Keeps.foldl ?_ _ ?_ | with_reducible refine Keeps.foldl_snd ?_ _ ?_ | (exact Nat.le_refl _) | (exact Nat.le_max_left _ _) | (exact Nat.le_add_right _ _) | (exact fun _ => Burned.refl _) | (exact fun _ => Burned.seal _) | (exact fun _ => Burned.raise _ _) | (exact fun _ => Burned.revoke _ _) | (exact fun _ h => h))

theorem leaveReset_keeps {a : State} {s : State} (h : Keeps a s)  : Keeps a (leaveReset s) := by
  unfold leaveReset
  repeat' (first | with_reducible assumption | with_reducible apply forget_keeps | with_reducible apply State.modSys_keeps | with_reducible refine Keeps.foldl ?_ _ ?_ | with_reducible refine Keeps.foldl_snd ?_ _ ?_ | (exact Nat.le_refl _) | (exact Nat.le_max_left _ _) | (exact Nat.le_add_right _ _) | intro _ | with_reducible refine Keeps.snd (by with_reducible assumption) ?_ | split | dsimp only)

theorem failedAttempt_keeps {a : State} {s : State} (h : Keeps a s)  : Keeps a (failedAttempt s) := by
  unfold failedAttempt
  repeat' (first | with_reducible assumption | with_reducible apply State.modSys_keeps | with_reducible refine Keeps.foldl ?_ _ ?_ | with_reducible refine Keeps.foldl_snd ?_ _ ?_ | (exact Nat.le_refl _))

theorem requestWarm_keeps {a : State} {x1 : _} {s : State} (h : Keeps a s)  : Keeps a (requestWarm x1 s) := by
  unfold requestWarm
  repeat' (first | with_reducible assumption | with_reducible apply State.modSys_keeps | with_reducible apply failedAttempt_keeps | with_reducible apply State.modCfg_keeps | with_reducible apply leaveReset_keeps | with_reducible refine Keeps.foldl ?_ _ ?_ | with_reducible refine Keeps.foldl_snd ?_ _ ?_ | (exact Nat.le_refl _) | (exact Nat.le_max_left _ _) | (exact Nat.le_add_right _ _) | (exact fun _ => Burned.refl _) | (exact fun _ => Burned.seal _) | (exact fun _ => Burned.raise _ _) | (exact fun _ => Burned.revoke _ _) | intro _ | with_reducible refine Keeps.snd (by with_reducible assumption) ?_ | split | dsimp only)

theorem nackAll_keeps {a : State} {x1 : _} {x2 : _} {s : State} (h : Keeps a s)  : Keeps a (nackAll x1 x2 s) := by
  unfold nackAll
  repeat' (first | with_reducible assumption | with_reducible apply State.modCoh_keeps | with_reducible apply nack_keeps | with_reducible refine Keeps.foldl ?_ _ ?_ | with_reducible refine Keeps.foldl_snd ?_ _ ?_ | intro _ | with_reducible refine Keeps.snd (by with_reducible assumption) ?_ | split)

theorem answerAll_keeps {a : State} {x1 : _} {x2 : _} {x3 : _} {s : State} (h : Keeps a s)  : Keeps a (answerAll x1 x2 x3 s) := by
  unfold answerAll
  repeat' (first | with_reducible assumption | with_reducible apply finish_keeps | with_reducible apply commitOwn_keeps | with_reducible apply State.modOwn_keeps | with_reducible apply nackAll_keeps | with_reducible refine Keeps.foldl ?_ _ ?_ | with_reducible refine Keeps.foldl_snd ?_ _ ?_ | intro _ | with_reducible refine Keeps.snd (by with_reducible assumption) ?_ | split)

theorem selfFence_keeps {a : State} {s : State} (h : Keeps a s)  : Keeps a (selfFence s) := by
  unfold selfFence
  repeat' (first | with_reducible assumption | with_reducible apply answerAll_keeps | with_reducible apply State.modSys_keeps | with_reducible apply State.modFlt_keeps | with_reducible apply requestWarm_keeps | with_reducible apply flood_keeps | with_reducible refine Keeps.foldl ?_ _ ?_ | with_reducible refine Keeps.foldl_snd ?_ _ ?_ | (exact Nat.le_refl _) | (exact Nat.le_max_left _ _) | (exact Nat.le_add_right _ _) | intro _ | with_reducible refine Keeps.snd (by with_reducible assumption) ?_ | split)

end Sys2Proof.Machine
end

