-- ==== Sys2Proof/Laws/KeepsTierCmds.lean ====
section
/-! SUPPORT. What the operations of Machine/TierCmds.lean keep (Laws/Keeps.lean). -/

namespace Sys2Proof.Machine

open Sys2Proof

theorem flashRec_keeps {a : State} {x1 : _} {x2 : _} {x3 : _} {s : State} (h : Keeps a s)  : Keeps a (flashRec x1 x2 x3 s) := by
  unfold flashRec
  repeat' (first | with_reducible assumption | with_reducible apply raise_keeps)

theorem memRec_keeps {a : State} {x1 : _} {x2 : _} {x3 : _} {s : State} (h : Keeps a s)  : Keeps a (memRec x1 x2 x3 s) := by
  unfold memRec
  repeat' (first | with_reducible assumption | with_reducible apply raise_keeps | with_reducible apply State.draw_keeps)

theorem crossed_keeps {a : State} {x1 : _} {s : State} (h : Keeps a s)  : Keeps a (crossed x1 s) := by
  unfold crossed
  repeat' (first | with_reducible assumption | with_reducible apply postDev_keeps)

theorem emptyBlock_keeps {a : State} {x1 : _} {x2 : _} {s : State} (h : Keeps a s)  : Keeps a (emptyBlock x1 x2 s) := by
  unfold emptyBlock
  repeat' (first | with_reducible assumption | with_reducible apply programUnit_keeps | with_reducible refine Keeps.foldl ?_ _ ?_ | with_reducible refine Keeps.foldl_snd ?_ _ ?_ | intro _)

theorem eraseBlock_keeps {a : State} {x1 : _} {x2 : _} {s : State} (h : Keeps a s)  : Keeps a (eraseBlock x1 x2 s) := by
  unfold eraseBlock
  repeat' (first | with_reducible assumption | with_reducible apply State.modFlash_keeps | with_reducible apply emptyBlock_keeps)

theorem blockError_keeps {a : State} {x1 : _} {s : State} (h : Keeps a s)  : Keeps a (blockError x1 s) := by
  unfold blockError
  repeat' (first | with_reducible assumption | with_reducible apply State.modFlash_keeps | with_reducible apply crossed_keeps | with_reducible apply flashRec_keeps | with_reducible apply emptyBlock_keeps | with_reducible refine Keeps.foldl ?_ _ ?_ | with_reducible refine Keeps.foldl_snd ?_ _ ?_ | intro _ | with_reducible refine Keeps.snd (by with_reducible assumption) ?_ | split | dsimp only)

theorem reportRead_keeps {a : State} {x1 : _} {x2 : _} {s : State} (h : Keeps a s)  : Keeps a (reportRead x1 x2 s) := by
  unfold reportRead
  repeat' (first | with_reducible assumption | with_reducible apply postExt_keeps | with_reducible apply flashRec_keeps | with_reducible apply blockError_keeps | with_reducible apply State.modFlash_keeps | with_reducible refine Keeps.foldl ?_ _ ?_ | with_reducible refine Keeps.foldl_snd ?_ _ ?_ | intro _ | with_reducible refine Keeps.snd (by with_reducible assumption) ?_ | split)

theorem takeFetched_keeps {a : State} {x1 : _} {x2 : _} {s : State} (h : Keeps a s)  : Keeps a (takeFetched x1 x2 s) := by
  unfold takeFetched
  repeat' (first | with_reducible assumption | with_reducible apply State.modFlash_keeps | with_reducible refine Keeps.foldl ?_ _ ?_ | with_reducible refine Keeps.foldl_snd ?_ _ ?_ | intro _ | with_reducible refine Keeps.snd (by with_reducible assumption) ?_ | split)

theorem mirrorFrame_keeps {a : State} {x1 : _} {s : State} (h : Keeps a s)  : Keeps a (mirrorFrame x1 s) := by
  unfold mirrorFrame
  repeat' (first | with_reducible assumption | with_reducible apply mirrorPoison_keeps | with_reducible refine Keeps.foldl ?_ _ ?_ | with_reducible refine Keeps.foldl_snd ?_ _ ?_ | intro _)

theorem endFill_keeps {a : State} {x1 : _} {x2 : _} {s : State} (h : Keeps a s)  : Keeps a (endFill x1 x2 s) := by
  unfold endFill
  repeat' (first | with_reducible assumption | with_reducible apply installFill_keeps | with_reducible apply takeFetched_keeps | with_reducible apply evictRetired_keeps | with_reducible apply flashOnlyOut_keeps | with_reducible apply reportRead_keeps | with_reducible apply onlyIf_keeps | with_reducible apply mirrorFrame_keeps)

theorem fillDone_keeps {a : State} {x1 : _} {x2 : _} {s : State} (h : Keeps a s)  : Keeps a (fillDone x1 x2 s) := by
  unfold fillDone
  repeat' (first | with_reducible assumption | with_reducible apply pump_keeps | with_reducible apply endFill_keeps | with_reducible refine Keeps.foldl ?_ _ ?_ | with_reducible refine Keeps.foldl_snd ?_ _ ?_ | intro _ | with_reducible refine Keeps.snd (by with_reducible assumption) ?_ | split)

theorem execFillComplete_keeps {a : State} {x1 x2 : _}  : Runs a (execFillComplete x1 x2) := by
  unfold execFillComplete
  repeat' (first | with_reducible assumption | with_reducible refine Runs.complete ?_ | with_reducible apply fillDone_keeps)

theorem mergeDone_keeps {a : State} {x1 : _} {x2 : _} {s : State} (h : Keeps a s)  : Keeps a (mergeDone x1 x2 s) := by
  unfold mergeDone
  repeat' (first | with_reducible assumption | with_reducible apply pump_keeps | with_reducible apply endFill_keeps | with_reducible refine Keeps.foldl ?_ _ ?_ | with_reducible refine Keeps.foldl_snd ?_ _ ?_ | intro _ | with_reducible refine Keeps.snd (by with_reducible assumption) ?_ | split)

theorem execMergeFillComplete_keeps {a : State} {x1 x2 : _}  : Runs a (execMergeFillComplete x1 x2) := by
  unfold execMergeFillComplete
  repeat' (first | with_reducible assumption | with_reducible refine Runs.complete ?_ | with_reducible apply mergeDone_keeps)

theorem readOld_keeps {a : State} {x1 : _} {x2 : _} {s : State} (h : Keeps a s)  : Keeps a (readOld x1 x2 s).2 := by
  unfold readOld
  repeat' (first | with_reducible assumption | with_reducible apply takeFetched_keeps | with_reducible apply reportRead_keeps | with_reducible apply onlyIf_keeps | with_reducible apply mirrorFrame_keeps | with_reducible apply modTag_keeps | with_reducible refine Keeps.foldl ?_ _ ?_ | with_reducible refine Keeps.foldl_snd ?_ _ ?_ | intro _ | with_reducible refine Keeps.snd (by with_reducible assumption) ?_ | split | dsimp only)

theorem wbAgain_keeps {a : State} {x1 : _} {s : State} (h : Keeps a s)  : Keeps a (wbAgain x1 s) := by
  unfold wbAgain
  repeat' (first | with_reducible assumption | with_reducible apply startWriteBack_keeps | with_reducible refine Keeps.foldl ?_ _ ?_ | with_reducible refine Keeps.foldl_snd ?_ _ ?_ | intro _ | with_reducible refine Keeps.snd (by with_reducible assumption) ?_ | split)

theorem wbProgrammed_keeps {a : State} {x1 : _} {x2 : _} {s : State} (h : Keeps a s)  : Keeps a (wbProgrammed x1 x2 s) := by
  unfold wbProgrammed
  repeat' (first | with_reducible assumption | with_reducible apply readOld_keeps | with_reducible apply State.modTier_keeps | with_reducible apply pump_keeps | with_reducible apply wbAgain_keeps | with_reducible apply finishWriteBack_keeps | with_reducible refine Keeps.foldl ?_ _ ?_ | with_reducible refine Keeps.foldl_snd ?_ _ ?_ | (exact fun _ h => h) | (exact fun _ _ => rfl) | intro _ | with_reducible apply clearSpan_wf | with_reducible apply writeCells_wf | with_reducible apply putMasked_wf | with_reducible refine Keeps.snd (by with_reducible assumption) ?_ | split)

theorem wbBuddyDone_keeps {a : State} {x1 : _} {x2 : _} {s : State} (h : Keeps a s)  : Keeps a (wbBuddyDone x1 x2 s) := by
  unfold wbBuddyDone
  repeat' (first | with_reducible assumption | with_reducible apply State.modFlash_keeps | with_reducible apply holdHome_keeps | with_reducible apply pump_keeps | with_reducible apply wbAgain_keeps | with_reducible apply finishWriteBack_keeps | with_reducible apply State.modTier_keeps | with_reducible refine Keeps.foldl ?_ _ ?_ | with_reducible refine Keeps.foldl_snd ?_ _ ?_ | (exact fun _ h => h) | (exact fun _ _ => rfl) | intro _ | with_reducible apply clearSpan_wf | with_reducible apply writeCells_wf | with_reducible apply putMasked_wf | with_reducible refine Keeps.snd (by with_reducible assumption) ?_ | split | dsimp only)

theorem execWritebackComplete_keeps {a : State} {x1 x2 : _}  : Runs a (execWritebackComplete x1 x2) := by
  unfold execWritebackComplete
  repeat' (first | with_reducible assumption | with_reducible refine Runs.complete ?_ | with_reducible apply wbProgrammed_keeps)

theorem cleanSet_keeps {a : State} {x1 : _} {x2 : _} {s : State} (h : Keeps a s)  : Keeps a (cleanSet x1 x2 s) := by
  induction x2 generalizing s  with
  | zero =>
    unfold cleanSet
    repeat' (with_reducible assumption)
  | succ k ih =>
    unfold cleanSet
    repeat' (first | with_reducible assumption | with_reducible apply ih | with_reducible apply startWriteBack_keeps | with_reducible refine Keeps.foldl ?_ _ ?_ | with_reducible refine Keeps.foldl_snd ?_ _ ?_ | intro _ | with_reducible refine Keeps.snd (by with_reducible assumption) ?_ | split | dsimp only)

theorem execBackgroundCleaning_keeps {a : State} {x1 : _}  : Runs a (execBackgroundCleaning x1) := by
  unfold execBackgroundCleaning
  repeat' (first | with_reducible assumption | with_reducible refine Runs.complete ?_ | with_reducible apply cleanSet_keeps | with_reducible refine Keeps.foldl ?_ _ ?_ | with_reducible refine Keeps.foldl_snd ?_ _ ?_ | intro _ | with_reducible refine Keeps.snd (by with_reducible assumption) ?_ | split)

theorem collectDie_keeps {a : State} {x1 : _} {s : State} (h : Keeps a s)  : Keeps a (collectDie x1 s) := by
  unfold collectDie
  repeat' (first | with_reducible assumption | with_reducible apply State.modJrn_keeps | with_reducible apply eraseBlock_keeps | with_reducible refine Keeps.foldl ?_ _ ?_ | with_reducible refine Keeps.foldl_snd ?_ _ ?_ | intro _ | with_reducible refine Keeps.snd (by with_reducible assumption) ?_ | split)

theorem execGarbageCollection_keeps {a : State} {x1 : _}  : Runs a (execGarbageCollection x1) := by
  unfold execGarbageCollection
  repeat' (first | with_reducible assumption | with_reducible refine Runs.complete ?_ | with_reducible apply collectDie_keeps)

theorem levelDie_keeps {a : State} {x1 : _} {s : State} (h : Keeps a s)  : Keeps a (levelDie x1 s) := by
  unfold levelDie
  repeat' (first | with_reducible assumption | with_reducible apply eraseBlock_keeps | with_reducible refine Keeps.foldl ?_ _ ?_ | with_reducible refine Keeps.foldl_snd ?_ _ ?_ | intro _ | with_reducible refine Keeps.snd (by with_reducible assumption) ?_ | split | dsimp only)

theorem execWearLevelling_keeps {a : State} {x1 : _}  : Runs a (execWearLevelling x1) := by
  unfold execWearLevelling
  repeat' (first | with_reducible assumption | with_reducible refine Runs.complete ?_ | with_reducible apply levelDie_keeps)

theorem decay_keeps {a : State} {s : State} (h : Keeps a s)  : Keeps a (decay s) := by
  unfold decay
  repeat' (first | with_reducible assumption | with_reducible apply reach_keeps | with_reducible apply State.modTier_keeps | with_reducible refine Keeps.foldl ?_ _ ?_ | with_reducible refine Keeps.foldl_snd ?_ _ ?_ | (exact fun _ h => h))

theorem execTierDecay_keeps {a : State}  : Runs a (execTierDecay ) := by
  unfold execTierDecay
  repeat' (first | with_reducible assumption | with_reducible refine Runs.complete ?_ | with_reducible apply decay_keeps)

theorem prefetchPin_keeps {a : State} {x1 : _} {s : State} (h : Keeps a s)  : Keeps a (prefetchPin x1 s) := by
  unfold prefetchPin
  repeat' (first | with_reducible assumption | with_reducible apply State.modTier_keeps | with_reducible apply fetchFrame_keeps | with_reducible refine Keeps.foldl ?_ _ ?_ | with_reducible refine Keeps.foldl_snd ?_ _ ?_ | (exact fun _ h => h) | (exact fun _ _ => rfl) | intro _ | with_reducible apply clearSpan_wf | with_reducible apply writeCells_wf | with_reducible apply putMasked_wf | with_reducible refine Keeps.snd (by with_reducible assumption) ?_ | split | dsimp only)

theorem execPinHbmPrefetch_keeps {a : State} {x1 : _}  : Runs a (execPinHbmPrefetch x1) := by
  unfold execPinHbmPrefetch
  repeat' (first | with_reducible assumption | with_reducible refine Runs.complete ?_ | with_reducible apply prefetchPin_keeps)

theorem takeHeld_keeps {a : State} {x1 : _} {s : State} (h : Keeps a s)  : Keeps a (takeHeld x1 s).2 := by
  unfold takeHeld
  repeat' (first | with_reducible assumption | with_reducible apply State.modFlash_keeps | with_reducible refine Keeps.foldl ?_ _ ?_ | with_reducible refine Keeps.foldl_snd ?_ _ ?_ | intro _ | with_reducible refine Keeps.snd (by with_reducible assumption) ?_ | split | dsimp only)

theorem takeMember_keeps {a : State} {x1 : _} {x2 : _} {x3 : _} {x4 : _} {x5 : _} {s : State} (h : Keeps a s)  : Keeps a (takeMember x1 x2 x3 x4 x5 s) := by
  unfold takeMember
  repeat' (first | with_reducible assumption | with_reducible apply takeHeld_keeps | with_reducible apply emit_keeps)

theorem execStripeMemberReceive_keeps {a : State} {x1 x2 x3 x4 x5 : _}  : Runs a (execStripeMemberReceive x1 x2 x3 x4 x5) := by
  unfold execStripeMemberReceive
  repeat' (first | with_reducible assumption | with_reducible refine Runs.complete ?_ | with_reducible apply takeMember_keeps)

theorem pageError_keeps {a : State} {x1 : _} {s : State} (h : Keeps a s)  : Keeps a (pageError x1 s) := by
  unfold pageError
  repeat' (first | with_reducible assumption | with_reducible apply State.modTier_keeps | with_reducible apply evictRetired_keeps | with_reducible apply crossed_keeps | with_reducible apply memRec_keeps | with_reducible refine Keeps.foldl ?_ _ ?_ | with_reducible refine Keeps.foldl_snd ?_ _ ?_ | (exact fun _ h => h) | (exact fun _ _ => rfl) | intro _ | with_reducible apply clearSpan_wf | with_reducible apply writeCells_wf | with_reducible apply putMasked_wf | with_reducible refine Keeps.snd (by with_reducible assumption) ?_ | split | dsimp only)

theorem hbmError_keeps {a : State} {x1 : _} {x2 : _} {s : State} (h : Keeps a s)  : Keeps a (hbmError x1 x2 s) := by
  unfold hbmError
  repeat' (first | with_reducible assumption | with_reducible apply pageError_keeps | with_reducible apply memRec_keeps | with_reducible apply mirrorPoison_keeps | with_reducible apply poisonLine_keeps | with_reducible apply modTag_keeps | with_reducible apply fetchFrame_keeps | with_reducible refine Keeps.foldl ?_ _ ?_ | with_reducible refine Keeps.foldl_snd ?_ _ ?_ | intro _ | with_reducible refine Keeps.snd (by with_reducible assumption) ?_ | split | dsimp only)

theorem execHbmUncorrectable_keeps {a : State} {x1 : _}  : Runs a (execHbmUncorrectable x1) := by
  unfold execHbmUncorrectable
  repeat' (first | with_reducible assumption | with_reducible refine Runs.complete ?_ | with_reducible apply pump_keeps | with_reducible apply hbmError_keeps | with_reducible refine Keeps.foldl ?_ _ ?_ | with_reducible refine Keeps.foldl_snd ?_ _ ?_ | intro _)

end Sys2Proof.Machine
end

