-- ==== Sys2Proof/Laws/KeepsJournalCmds.lean ====
section
/-! SUPPORT. What the operations of Machine/JournalCmds.lean keep (Laws/Keeps.lean). -/

namespace Sys2Proof.Machine

open Sys2Proof

theorem programRecs_keeps {a : State} {x1 : _} {s : State} (h : Keeps a s)  : Keeps a (programRecs x1 s) := by
  unfold programRecs
  repeat' (first | with_reducible assumption | with_reducible apply State.modJrn_keeps | with_reducible apply ringHigh_keeps)

theorem startSegment_keeps {a : State} {x1 : _} {s : State} (h : Keeps a s)  : Keeps a (startSegment x1 s) := by
  unfold startSegment
  repeat' (first | with_reducible assumption | with_reducible apply reach_keeps | with_reducible apply State.modJrn_keeps | with_reducible refine Keeps.foldl ?_ _ ?_ | with_reducible refine Keeps.foldl_snd ?_ _ ?_ | intro _ | with_reducible refine Keeps.snd (by with_reducible assumption) ?_ | split)

theorem execSegmentProgramStart_keeps {a : State} {x1 : _}  : Runs a (execSegmentProgramStart x1) := by
  unfold execSegmentProgramStart
  repeat' (first | with_reducible assumption | with_reducible refine Runs.complete ?_ | with_reducible apply startSegment_keeps)

theorem segmentDone_keeps {a : State} {x1 : _} {s : State} (h : Keeps a s)  : Keeps a (segmentDone x1 s) := by
  unfold segmentDone
  repeat' (first | with_reducible assumption | with_reducible apply programRecs_keeps | with_reducible apply pump_keeps | with_reducible apply State.modJrn_keeps | with_reducible refine Keeps.foldl ?_ _ ?_ | with_reducible refine Keeps.foldl_snd ?_ _ ?_ | intro _ | with_reducible refine Keeps.snd (by with_reducible assumption) ?_ | split)

theorem execSegmentProgramComplete_keeps {a : State} {x1 : _}  : Runs a (execSegmentProgramComplete x1) := by
  unfold execSegmentProgramComplete
  repeat' (first | with_reducible assumption | with_reducible refine Runs.complete ?_ | with_reducible apply segmentDone_keeps)

theorem endProgrammedBarriers_keeps {a : State} {s : State} (h : Keeps a s)  : Keeps a (endProgrammedBarriers s) := by
  unfold endProgrammedBarriers
  repeat' (first | with_reducible assumption | with_reducible apply endBarrier_keeps | with_reducible refine Keeps.foldl ?_ _ ?_ | with_reducible refine Keeps.foldl_snd ?_ _ ?_ | intro _)

theorem groupDone_keeps {a : State} {s : State} (h : Keeps a s)  : Keeps a (groupDone s) := by
  unfold groupDone
  repeat' (first | with_reducible assumption | with_reducible apply programRecs_keeps | with_reducible apply State.modJrn_keeps | with_reducible apply settleTentative_keeps | with_reducible apply pump_keeps | with_reducible apply startGroup_keeps | with_reducible apply endProgrammedBarriers_keeps | with_reducible refine Keeps.foldl ?_ _ ?_ | with_reducible refine Keeps.foldl_snd ?_ _ ?_ | intro _ | with_reducible refine Keeps.snd (by with_reducible assumption) ?_ | split)

theorem execGroupProgramComplete_keeps {a : State}  : Runs a (execGroupProgramComplete ) := by
  unfold execGroupProgramComplete
  repeat' (first | with_reducible assumption | with_reducible refine Runs.complete ?_ | with_reducible apply groupDone_keeps)

theorem voidRecord_keeps {a : State} {x1 : _} {s : State} (h : Keeps a s)  : Keeps a (voidRecord x1 s) := by
  unfold voidRecord
  repeat' (first | with_reducible assumption | with_reducible apply reach_keeps | with_reducible apply journal_keeps | with_reducible apply State.modJrn_keeps | with_reducible apply sendMirror_keeps | with_reducible apply pump_keeps | with_reducible refine Keeps.foldl ?_ _ ?_ | with_reducible refine Keeps.foldl_snd ?_ _ ?_ | intro _ | with_reducible refine Keeps.snd (by with_reducible assumption) ?_ | split)

theorem execTentativeVoid_keeps {a : State} {x1 : _}  : Runs a (execTentativeVoid x1) := by
  unfold execTentativeVoid
  repeat' (first | with_reducible assumption | with_reducible refine Runs.complete ?_ | with_reducible apply voidRecord_keeps)

theorem foldFrom_keeps {a : State} {x1 : _} {x2 : _} {x3 : _} {s : State} (h : Keeps a s)  : Keeps a (foldFrom x1 x2 x3 s) := by
  induction x3 generalizing s  with
  | nil =>
    unfold foldFrom
    repeat' (with_reducible assumption)
  | cons y l ih =>
    unfold foldFrom
    repeat' (first | with_reducible assumption | with_reducible apply ih | with_reducible apply State.modFlash_keeps | with_reducible apply State.modJrn_keeps | with_reducible apply startWriteBack_keeps | with_reducible refine Keeps.foldl ?_ _ ?_ | with_reducible refine Keeps.foldl_snd ?_ _ ?_ | intro _ | with_reducible refine Keeps.snd (by with_reducible assumption) ?_ | split | dsimp only)

theorem dropReleased_keeps {a : State} {s : State} (h : Keeps a s)  : Keeps a (dropReleased s) := by
  unfold dropReleased
  repeat' (first | with_reducible assumption | with_reducible apply State.modJrn_keeps)

theorem compost_keeps {a : State} {s : State} (h : Keeps a s)  : Keeps a (compost s) := by
  unfold compost
  repeat' (first | with_reducible assumption | with_reducible apply dropReleased_keeps | with_reducible apply State.modJrn_keeps | with_reducible apply foldFrom_keeps | with_reducible apply startGroup_keeps)

theorem execCompostPass_keeps {a : State}  : Runs a (execCompostPass ) := by
  unfold execCompostPass
  repeat' (first | with_reducible assumption | with_reducible refine Runs.complete ?_ | with_reducible apply compost_keeps)

theorem shadow_keeps {a : State} {x1 : _} {s : State} (h : Keeps a s)  : Keeps a (shadow x1 s) := by
  unfold shadow
  repeat' (first | with_reducible assumption | with_reducible apply State.modExt_keeps | with_reducible refine Keeps.foldl ?_ _ ?_ | with_reducible refine Keeps.foldl_snd ?_ _ ?_ | intro _ | with_reducible refine Keeps.snd (by with_reducible assumption) ?_ | split)

theorem takeMirror_keeps {a : State} {x1 : _} {x2 : _} {s : State} (h : Keeps a s)  : Keeps a (takeMirror x1 x2 s) := by
  unfold takeMirror
  repeat' (first | with_reducible assumption | with_reducible apply emit_keeps | with_reducible apply enterSlot_keeps | with_reducible apply shadow_keeps | with_reducible apply State.modJrn_keeps | with_reducible refine Keeps.foldl ?_ _ ?_ | with_reducible refine Keeps.foldl_snd ?_ _ ?_ | intro _ | with_reducible refine Keeps.snd (by with_reducible assumption) ?_ | split)

theorem execMirrorReceive_keeps {a : State} {x1 x2 : _}  : Runs a (execMirrorReceive x1 x2) := by
  unfold execMirrorReceive
  repeat' (first | with_reducible assumption | with_reducible refine Runs.complete ?_ | with_reducible apply takeMirror_keeps)

theorem takeRelease_keeps {a : State} {x1 : _} {x2 : _} {s : State} (h : Keeps a s)  : Keeps a (takeRelease x1 x2 s) := by
  unfold takeRelease
  repeat' (first | with_reducible assumption | with_reducible apply journal_keeps | with_reducible apply State.modJrn_keeps)

theorem execMirrorRelease_keeps {a : State} {x1 x2 : _}  : Runs a (execMirrorRelease x1 x2) := by
  unfold execMirrorRelease
  repeat' (first | with_reducible assumption | with_reducible refine Runs.complete ?_ | with_reducible apply takeRelease_keeps)

theorem sendRelease_keeps {a : State} {x1 : _} {s : State} (h : Keeps a s)  : Keeps a (sendRelease x1 s) := by
  unfold sendRelease
  repeat' (first | with_reducible assumption | with_reducible apply emit_keeps | with_reducible apply State.modJrn_keeps | with_reducible refine Keeps.foldl ?_ _ ?_ | with_reducible refine Keeps.foldl_snd ?_ _ ?_ | intro _ | with_reducible refine Keeps.snd (by with_reducible assumption) ?_ | split | dsimp only)

theorem execMirrorReleaseSend_keeps {a : State} {x1 : _}  : Runs a (execMirrorReleaseSend x1) := by
  unfold execMirrorReleaseSend
  repeat' (first | with_reducible assumption | with_reducible refine Runs.complete ?_ | with_reducible apply sendRelease_keeps)

theorem confirmed_keeps {a : State} {x1 : _} {s : State} (h : Keeps a s)  : Keeps a (confirmed x1 s) := by
  unfold confirmed
  repeat' (first | with_reducible assumption | with_reducible apply finish_keeps | with_reducible apply State.modOwn_keeps | with_reducible apply commitOwn_keeps | with_reducible apply cmpWb_keeps | with_reducible apply State.modCoh_keeps | with_reducible apply finishTxn_keeps | with_reducible apply settleTentative_keeps | with_reducible refine Keeps.foldl ?_ _ ?_ | with_reducible refine Keeps.foldl_snd ?_ _ ?_ | intro _ | with_reducible refine Keeps.snd (by with_reducible assumption) ?_ | split)

theorem takeConfirm_keeps {a : State} {x1 : _} {x2 : _} {x3 : _} {s : State} (h : Keeps a s)  : Keeps a (takeConfirm x1 x2 x3 s) := by
  unfold takeConfirm
  repeat' (first | with_reducible assumption | with_reducible apply selfFence_keeps | with_reducible apply countRC_keeps | with_reducible apply State.modJrn_keeps | with_reducible apply pump_keeps | with_reducible apply endPairLost_keeps | with_reducible apply confirmed_keeps | with_reducible refine Keeps.foldl ?_ _ ?_ | with_reducible refine Keeps.foldl_snd ?_ _ ?_ | intro _ | with_reducible refine Keeps.snd (by with_reducible assumption) ?_ | split)

theorem execMirrorConfirm_keeps {a : State} {x1 x2 x3 : _}  : Runs a (execMirrorConfirm x1 x2 x3) := by
  unfold execMirrorConfirm
  repeat' (first | with_reducible assumption | with_reducible refine Runs.complete ?_ | with_reducible apply takeConfirm_keeps)

theorem pairLate_keeps {a : State} {x1 : _} {s : State} (h : Keeps a s)  : Keeps a (pairLate x1 s) := by
  unfold pairLate
  repeat' (first | with_reducible assumption | with_reducible apply pump_keeps | with_reducible apply atDeadline_keeps | with_reducible apply reach_keeps | with_reducible refine Keeps.foldl ?_ _ ?_ | with_reducible refine Keeps.foldl_snd ?_ _ ?_ | intro _ | with_reducible refine Keeps.snd (by with_reducible assumption) ?_ | split)

theorem execPairLate_keeps {a : State} {x1 : _}  : Runs a (execPairLate x1) := by
  unfold execPairLate
  repeat' (first | with_reducible assumption | with_reducible refine Runs.complete ?_ | with_reducible apply pairLate_keeps)

theorem resendMirror_keeps {a : State} {x1 : _} {s : State} (h : Keeps a s)  : Keeps a (resendMirror x1 s) := by
  unfold resendMirror
  repeat' (first | with_reducible assumption | with_reducible apply reach_keeps | with_reducible apply emit_keeps | with_reducible apply State.modJrn_keeps | with_reducible refine Keeps.foldl ?_ _ ?_ | with_reducible refine Keeps.foldl_snd ?_ _ ?_ | intro _ | with_reducible refine Keeps.snd (by with_reducible assumption) ?_ | split)

theorem execMirrorResend_keeps {a : State} {x1 : _}  : Runs a (execMirrorResend x1) := by
  unfold execMirrorResend
  repeat' (first | with_reducible assumption | with_reducible refine Runs.complete ?_ | with_reducible apply resendMirror_keeps)

theorem takeCopyUnit_keeps {a : State} {x1 : _} {x2 : _} {x3 : _} {s : State} (h : Keeps a s)  : Keeps a (takeCopyUnit x1 x2 x3 s) := by
  unfold takeCopyUnit
  repeat' (first | with_reducible assumption | with_reducible apply takeHeld_keeps | with_reducible apply emit_keeps)

theorem execBuddyCopyReceive_keeps {a : State} {x1 x2 x3 : _}  : Runs a (execBuddyCopyReceive x1 x2 x3) := by
  unfold execBuddyCopyReceive
  repeat' (first | with_reducible assumption | with_reducible refine Runs.complete ?_ | with_reducible apply takeCopyUnit_keeps)

theorem copyUnitTimeout_keeps {a : State} {x1 : _} {s : State} (h : Keeps a s)  : Keeps a (copyUnitTimeout x1 s) := by
  unfold copyUnitTimeout
  repeat' (first | with_reducible assumption | with_reducible apply State.modHome_keeps | with_reducible apply reach_keeps | with_reducible apply wbBuddyDone_keeps | with_reducible refine Keeps.foldl ?_ _ ?_ | with_reducible refine Keeps.foldl_snd ?_ _ ?_ | intro _ | with_reducible refine Keeps.snd (by with_reducible assumption) ?_ | split | dsimp only)

theorem execBuddyCopyTimeout_keeps {a : State} {x1 : _}  : Runs a (execBuddyCopyTimeout x1) := by
  unfold execBuddyCopyTimeout
  repeat' (first | with_reducible assumption | with_reducible refine Runs.complete ?_ | with_reducible apply copyUnitTimeout_keeps)

theorem takeKey_keeps {a : State} {x1 : _} {x2 : _} {x3 : _} {s : State} (h : Keeps a s)  : Keeps a (takeKey x1 x2 x3 s) := by
  unfold takeKey
  repeat' (first | with_reducible assumption | with_reducible apply journal_keeps | with_reducible apply State.modFlash_keeps)

theorem execKeyRecordReceive_keeps {a : State} {x1 x2 x3 : _}  : Runs a (execKeyRecordReceive x1 x2 x3) := by
  unfold execKeyRecordReceive
  repeat' (first | with_reducible assumption | with_reducible refine Runs.complete ?_ | with_reducible apply takeKey_keeps)

theorem loadNow_keeps {a : State} {x1 : _} {s : State} (h : Keeps a s)  : Keeps a (loadNow x1 s) := by
  unfold loadNow
  repeat' (first | with_reducible assumption | with_reducible apply endFill_keeps | with_reducible refine Keeps.foldl ?_ _ ?_ | with_reducible refine Keeps.foldl_snd ?_ _ ?_ | intro _ | with_reducible refine Keeps.snd (by with_reducible assumption) ?_ | split)

theorem cleanNow_keeps {a : State} {x1 : _} {s : State} (h : Keeps a s)  : Keeps a (cleanNow x1 s) := by
  unfold cleanNow
  repeat' (first | with_reducible assumption | with_reducible apply readOld_keeps | with_reducible apply finishWriteBack_keeps | with_reducible refine Keeps.foldl ?_ _ ?_ | with_reducible refine Keeps.foldl_snd ?_ _ ?_ | intro _)

theorem untilReady_keeps {a : State} {x1 : _} {x2 : _} {s : State} (hx1 : ∀ y0, Keeps a y0 → Keeps a (x1 y0).2) (h : Keeps a s)  : Keeps a (untilReady x1 x2 s) := by
  induction x2 generalizing s  with
  | zero =>
    unfold untilReady
    repeat' (with_reducible assumption)
  | succ k ih =>
    unfold untilReady
    repeat' (first | with_reducible assumption | with_reducible apply ih | with_reducible apply loadNow_keeps | with_reducible apply cleanNow_keeps | with_reducible apply hx1 | with_reducible refine Keeps.foldl ?_ _ ?_ | with_reducible refine Keeps.foldl_snd ?_ _ ?_ | intro _ | with_reducible refine Keeps.snd (by with_reducible assumption) ?_ | split)

theorem installData_keeps {a : State} {x1 : _} {x2 : _} {x3 : _} {s : State} (h : Keeps a s)  : Keeps a (installData x1 x2 x3 s).2 := by
  unfold installData
  repeat' (first | with_reducible assumption | with_reducible apply readyFull_keeps | with_reducible apply needLine_keeps | with_reducible apply storeLine_keeps | with_reducible apply mirrorPoison_keeps | with_reducible apply modTag_keeps | with_reducible refine Keeps.foldl ?_ _ ?_ | with_reducible refine Keeps.foldl_snd ?_ _ ?_ | intro _ | with_reducible refine Keeps.snd (by with_reducible assumption) ?_ | split)

theorem installRec_keeps {a : State} {x1 : _} {s : State} (h : Keeps a s)  : Keeps a (installRec x1 s) := by
  unfold installRec
  repeat' (first | with_reducible assumption | with_reducible apply untilReady_keeps | with_reducible apply installData_keeps | with_reducible apply placeBlock_keeps | with_reducible refine Keeps.foldl ?_ _ ?_ | with_reducible refine Keeps.foldl_snd ?_ _ ?_ | intro _ | with_reducible refine Keeps.snd (by with_reducible assumption) ?_ | split | dsimp only)

theorem replayRec_keeps {a : State} {x1 : _} {s : State} (h : Keeps a s)  : Keeps a (replayRec x1 s) := by
  unfold replayRec
  repeat' (first | with_reducible assumption | with_reducible apply State.modJrn_keeps | with_reducible apply installRec_keeps)

theorem answerFetch_keeps {a : State} {x1 : _} {x2 : _} {x3 : _} {s : State} (h : Keeps a s)  : Keeps a (answerFetch x1 x2 x3 s) := by
  unfold answerFetch
  repeat' (first | with_reducible assumption | with_reducible apply emit_keeps)

theorem execMirrorFetch_keeps {a : State} {x1 x2 x3 : _}  : Runs a (execMirrorFetch x1 x2 x3) := by
  unfold execMirrorFetch
  repeat' (first | with_reducible assumption | with_reducible refine Runs.complete ?_ | with_reducible apply answerFetch_keeps)

theorem poisonLines_keeps {a : State} {x1 : _} {s : State} (h : Keeps a s)  : Keeps a (poisonLines x1 s) := by
  unfold poisonLines
  repeat' (first | with_reducible assumption | with_reducible apply mirrorPoison_keeps | with_reducible apply untilReady_keeps | with_reducible apply readyFull_keeps | with_reducible apply poisonLine_keeps | with_reducible refine Keeps.foldl ?_ _ ?_ | with_reducible refine Keeps.foldl_snd ?_ _ ?_ | intro _ | with_reducible refine Keeps.snd (by with_reducible assumption) ?_ | split)

theorem fetchEnded_keeps {a : State} {x1 : _} {x2 : _} {s : State} (h : Keeps a s)  : Keeps a (fetchEnded x1 x2 s) := by
  unfold fetchEnded
  repeat' (first | with_reducible assumption | with_reducible apply installRec_keeps | with_reducible apply State.modJrn_keeps | with_reducible apply pump_keeps | with_reducible apply poisonLines_keeps | with_reducible refine Keeps.foldl ?_ _ ?_ | with_reducible refine Keeps.foldl_snd ?_ _ ?_ | intro _ | with_reducible refine Keeps.snd (by with_reducible assumption) ?_ | split | dsimp only)

theorem execMirrorFetchEnd_keeps {a : State} {x1 x2 : _}  : Runs a (execMirrorFetchEnd x1 x2) := by
  unfold execMirrorFetchEnd
  repeat' (first | with_reducible assumption | with_reducible refine Runs.complete ?_ | with_reducible apply fetchEnded_keeps)

theorem jrnRec_keeps {a : State} {s : State} (h : Keeps a s)  : Keeps a (jrnRec s) := by
  unfold jrnRec
  repeat' (first | with_reducible assumption | with_reducible apply raise_keeps)

theorem fetchLost_keeps {a : State} {x1 : _} {s : State} (h : Keeps a s)  : Keeps a (fetchLost x1 s) := by
  unfold fetchLost
  repeat' (first | with_reducible assumption | with_reducible apply reach_keeps | with_reducible apply State.modJrn_keeps | with_reducible apply poisonLines_keeps | with_reducible apply pump_keeps | with_reducible apply jrnRec_keeps | with_reducible apply advanceLoss_keeps | with_reducible refine Keeps.foldl ?_ _ ?_ | with_reducible refine Keeps.foldl_snd ?_ _ ?_ | intro _ | with_reducible refine Keeps.snd (by with_reducible assumption) ?_ | split | dsimp only)

theorem execMirrorFetchTimeout_keeps {a : State} {x1 : _}  : Runs a (execMirrorFetchTimeout x1) := by
  unfold execMirrorFetchTimeout
  repeat' (first | with_reducible assumption | with_reducible refine Runs.complete ?_ | with_reducible apply fetchLost_keeps)

end Sys2Proof.Machine
end

