-- ==== Sys2Proof/Laws/KeepsPrune.lean ====
section
/-! SUPPORT. What the operations of Machine/Prune.lean keep (Laws/Keeps.lean). -/

namespace Sys2Proof.Machine

open Sys2Proof

theorem prnDrop_keeps {a : State} {x1 : _} {s : State} (h : Keeps a s)  : Keeps a (prnDrop x1 s) := by
  unfold prnDrop
  repeat' (first | with_reducible assumption | with_reducible apply modUnit_keeps | with_reducible apply State.modPrn_keeps)

theorem poisonRead_keeps {a : State} {x1 : _} {x2 : _} {s : State} (h : Keeps a s)  : Keeps a (poisonRead x1 x2 s) := by
  unfold poisonRead
  repeat' (first | with_reducible assumption | with_reducible apply raise_keeps | with_reducible apply State.draw_keeps)

theorem searchStep_keeps {a : State} {x1 : _} {x2 : _} {s : State} (h : Keeps a s)  : Keeps a (searchStep x1 x2 s) := by
  unfold searchStep
  repeat' (first | with_reducible assumption | with_reducible apply portReply_keeps | with_reducible apply prnDrop_keeps | with_reducible apply failJob_keeps | with_reducible apply needLines_keeps | with_reducible apply unitAsk_keeps | with_reducible apply touchLine_keeps | with_reducible apply poisonRead_keeps | with_reducible apply countRC_keeps | with_reducible refine Keeps.foldl ?_ _ ?_ | with_reducible refine Keeps.foldl_snd ?_ _ ?_ | intro _ | with_reducible refine Keeps.snd (by with_reducible assumption) ?_ | split | dsimp only)

theorem execSearch_keeps {a : State} {x1 : _}  : Runs a (execSearch x1) := by
  unfold execSearch
  repeat' (first | with_reducible assumption | with_reducible refine Runs.complete ?_ | with_reducible apply searchStep_keeps)

theorem execScan_keeps {a : State} {x1 : _}  : Runs a (execScan x1) := by
  unfold execScan
  repeat' (first | with_reducible assumption | with_reducible refine Runs.complete ?_ | with_reducible apply searchStep_keeps)

theorem stagePrn_keeps {a : State} {x1 : _} {x2 : _} {s : State} (h : Keeps a s)  : Keeps a (stagePrn x1 x2 s) := by
  unfold stagePrn
  repeat' (first | with_reducible assumption | with_reducible apply endJob_keeps | with_reducible apply prnDrop_keeps | with_reducible apply modBody_keeps | with_reducible apply portReply_keeps | with_reducible refine Keeps.foldl ?_ _ ?_ | with_reducible refine Keeps.foldl_snd ?_ _ ?_ | intro _ | with_reducible refine Keeps.snd (by with_reducible assumption) ?_ | split | dsimp only)

theorem execInsert_keeps {a : State} {x1 : _}  : Runs a (execInsert x1) := by
  unfold execInsert
  repeat' (first | with_reducible assumption | with_reducible refine Runs.complete ?_ | with_reducible apply stagePrn_keeps)

theorem execDelete_keeps {a : State} {x1 : _}  : Runs a (execDelete x1) := by
  unfold execDelete
  repeat' (first | with_reducible assumption | with_reducible refine Runs.complete ?_ | with_reducible apply stagePrn_keeps)

theorem execEntry_keeps {a : State} {x1 : _}  : Runs a (execEntry x1) := by
  unfold execEntry
  repeat' (first | with_reducible assumption | with_reducible refine Runs.complete ?_ | with_reducible apply stagePrn_keeps)

theorem editHdr_keeps {a : State} {x1 : _} {x2 : _} {s : State} (h : Keeps a s)  : Keeps a (editHdr x1 x2 s).2 := by
  unfold editHdr
  repeat' (first | with_reducible assumption | with_reducible apply untilReady_keeps | with_reducible apply needLine_keeps | with_reducible apply storeLine_keeps | with_reducible apply State.modNmc_keeps | with_reducible apply groupRecord_keeps | with_reducible refine Keeps.foldl ?_ _ ?_ | with_reducible refine Keeps.foldl_snd ?_ _ ?_ | intro _ | with_reducible refine Keeps.snd (by with_reducible assumption) ?_ | split | dsimp only)

theorem createIndex_keeps {a : State} {x1 : _} {x2 : _} {s : State} (h : Keeps a s)  : Keeps a (createIndex x1 x2 s) := by
  unfold createIndex
  repeat' (first | with_reducible assumption | with_reducible apply issue_keeps | with_reducible apply cmdDone_keeps | with_reducible apply untilReady_keeps | with_reducible apply readyFull_keeps | with_reducible apply storeLine_keeps | with_reducible apply groupRecord_keeps | with_reducible apply State.modPrn_keeps | with_reducible refine Keeps.foldl ?_ _ ?_ | with_reducible refine Keeps.foldl_snd ?_ _ ?_ | intro _ | with_reducible refine Keeps.snd (by with_reducible assumption) ?_ | split | dsimp only)

theorem execIndexCreate_keeps {a : State} {x1 x2 : _}  : Runs a (execIndexCreate x1 x2) := by
  unfold execIndexCreate
  repeat' (first | with_reducible assumption | with_reducible refine Runs.complete ?_ | with_reducible apply createIndex_keeps)

theorem onIndex_keeps {a : State} {x1 : _} {x2 : _} {x3 : _} {x4 : _} {s : State} (hx4 : ∀ y0 y1, Keeps a y1 → Keeps a (x4 y0 y1)) (h : Keeps a s)  : Keeps a (onIndex x1 x2 x3 x4 s) := by
  unfold onIndex
  repeat' (first | with_reducible assumption | with_reducible apply issue_keeps | with_reducible apply cmdDone_keeps | with_reducible apply hx4 | with_reducible refine Keeps.foldl ?_ _ ?_ | with_reducible refine Keeps.foldl_snd ?_ _ ?_ | intro _ | with_reducible refine Keeps.snd (by with_reducible assumption) ?_ | split)

theorem execIndexDestroy_keeps {a : State} {x1 x2 : _}  : Runs a (execIndexDestroy x1 x2) := by
  unfold execIndexDestroy
  repeat' (first | with_reducible assumption | with_reducible refine Runs.complete ?_ | with_reducible apply onIndex_keeps | with_reducible apply cmdDone_keeps | with_reducible apply State.modPrn_keeps | with_reducible apply editHdr_keeps | with_reducible refine Keeps.foldl ?_ _ ?_ | with_reducible refine Keeps.foldl_snd ?_ _ ?_ | intro _)

theorem pinGen_keeps {a : State} {x1 : _} {s : State} (h : Keeps a s)  : Keeps a (pinGen x1 s) := by
  unfold pinGen
  repeat' (first | with_reducible assumption | with_reducible apply cmdDone_keeps | with_reducible apply editHdr_keeps | with_reducible refine Keeps.foldl ?_ _ ?_ | with_reducible refine Keeps.foldl_snd ?_ _ ?_ | intro _ | with_reducible refine Keeps.snd (by with_reducible assumption) ?_ | split | dsimp only)

theorem execPin_keeps {a : State} {x1 x2 : _}  : Runs a (execPin x1 x2) := by
  unfold execPin
  repeat' (first | with_reducible assumption | with_reducible refine Runs.complete ?_ | with_reducible apply onIndex_keeps | with_reducible apply pinGen_keeps | with_reducible refine Keeps.foldl ?_ _ ?_ | with_reducible refine Keeps.foldl_snd ?_ _ ?_ | intro _)

theorem unpinGen_keeps {a : State} {x1 : _} {x2 : _} {s : State} (h : Keeps a s)  : Keeps a (unpinGen x1 x2 s) := by
  unfold unpinGen
  repeat' (first | with_reducible assumption | with_reducible apply cmdDone_keeps | with_reducible apply editHdr_keeps | with_reducible refine Keeps.foldl ?_ _ ?_ | with_reducible refine Keeps.foldl_snd ?_ _ ?_ | intro _ | with_reducible refine Keeps.snd (by with_reducible assumption) ?_ | split)

theorem execUnpin_keeps {a : State} {x1 x2 : _}  : Runs a (execUnpin x1 x2) := by
  unfold execUnpin
  repeat' (first | with_reducible assumption | with_reducible refine Runs.complete ?_ | with_reducible apply onIndex_keeps | with_reducible apply unpinGen_keeps | with_reducible refine Keeps.foldl ?_ _ ?_ | with_reducible refine Keeps.foldl_snd ?_ _ ?_ | intro _)

theorem pinLost_keeps {a : State} {x1 : _} {x2 : _} {s : State} (h : Keeps a s)  : Keeps a (pinLost x1 x2 s) := by
  unfold pinLost
  repeat' (first | with_reducible assumption | with_reducible apply postDev_keeps | with_reducible apply State.modPrn_keeps)

theorem restampItem_keeps {a : State} {x1 : _} {x2 : _} {s : State} (h : Keeps a s)  : Keeps a (restampItem x1 x2 s) := by
  unfold restampItem
  repeat' (first | with_reducible assumption | with_reducible apply editHdr_keeps | with_reducible apply pinLost_keeps | with_reducible apply State.modPrn_keeps | with_reducible apply untilReady_keeps | with_reducible apply needLine_keeps | with_reducible apply storeLine_keeps | with_reducible refine Keeps.foldl ?_ _ ?_ | with_reducible refine Keeps.foldl_snd ?_ _ ?_ | intro _ | with_reducible refine Keeps.snd (by with_reducible assumption) ?_ | split | dsimp only)

theorem execIndexRestamp_keeps {a : State} {x1 x2 : _}  : Runs a (execIndexRestamp x1 x2) := by
  unfold execIndexRestamp
  repeat' (first | with_reducible assumption | with_reducible refine Runs.complete ?_ | with_reducible apply restampItem_keeps)

end Sys2Proof.Machine
end

