-- ==== Sys2Proof/Laws/KeepsCommit.lean ====
section
/-! SUPPORT. What the operations of Machine/Commit.lean keep (Laws/Keeps.lean). -/

namespace Sys2Proof.Machine

open Sys2Proof

theorem commitFail_keeps {a : State} {x1 : _} {x2 : _} {x3 : _} {x4 : _} {x5 : _} {s : State} (h : Keeps a s)  : Keeps a (commitFail x1 x2 x3 x4 x5 s) := by
  unfold commitFail
  repeat' (first | with_reducible assumption | with_reducible apply State.modPrn_keeps | with_reducible apply pump_keeps | with_reducible apply endJob_keeps | with_reducible apply modJob_keeps)

theorem commitDone_keeps {a : State} {x1 : _} {x2 : _} {s : State} (h : Keeps a s)  : Keeps a (commitDone x1 x2 s) := by
  unfold commitDone
  repeat' (first | with_reducible assumption | with_reducible apply pump_keeps | with_reducible apply dropVersions_keeps | with_reducible apply endJob_keeps | with_reducible apply ask_keeps | with_reducible apply journalCtl_keeps | with_reducible apply State.modNmc_keeps | with_reducible refine Keeps.foldl ?_ _ ?_ | with_reducible refine Keeps.foldl_snd ?_ _ ?_ | intro _ | with_reducible refine Keeps.snd (by with_reducible assumption) ?_ | split | dsimp only)

theorem commitEnd_keeps {a : State} {x1 : _} {x2 : _} {s : State} (h : Keeps a s)  : Keeps a (commitEnd x1 x2 s) := by
  unfold commitEnd
  repeat' (first | with_reducible assumption | with_reducible apply modJob_keeps | with_reducible apply groupClose_keeps | with_reducible apply leaveRegions_keeps | with_reducible apply countShard_keeps | with_reducible apply State.modPrn_keeps | with_reducible apply State.modNmc_keeps | with_reducible apply commitDone_keeps | with_reducible refine Keeps.foldl ?_ _ ?_ | with_reducible refine Keeps.foldl_snd ?_ _ ?_ | intro _ | with_reducible refine Keeps.snd (by with_reducible assumption) ?_ | split | dsimp only)

theorem commitHold_keeps {a : State} {x1 : _} {x2 : _} {x3 : _} {s : State} (h : Keeps a s)  : Keeps a (commitHold x1 x2 x3 s) := by
  unfold commitHold
  repeat' (first | with_reducible assumption | with_reducible apply State.modPrn_keeps)

theorem commitRecord_keeps {a : State} {x1 : _} {x2 : _} {s : State} (h : Keeps a s)  : Keeps a (commitRecord x1 x2 s).2 := by
  unfold commitRecord
  repeat' (first | with_reducible assumption | with_reducible apply mirrorCtl_keeps | with_reducible apply journal_keeps | with_reducible refine Keeps.foldl ?_ _ ?_ | with_reducible refine Keeps.foldl_snd ?_ _ ?_ | intro _ | with_reducible refine Keeps.snd (by with_reducible assumption) ?_ | split)

theorem commitEnter_keeps {a : State} {x1 : _} {x2 : _} {x3 : _} {x4 : _} {s : State} (h : Keeps a s)  : Keeps a (commitEnter x1 x2 x3 x4 s) := by
  unfold commitEnter
  repeat' (first | with_reducible assumption | with_reducible apply groupEnter_keeps | with_reducible apply countRC_keeps | with_reducible apply commitRecord_keeps | with_reducible apply modJob_keeps | with_reducible apply commitEnd_keeps | with_reducible refine Keeps.foldl ?_ _ ?_ | with_reducible refine Keeps.foldl_snd ?_ _ ?_ | intro _ | with_reducible refine Keeps.snd (by with_reducible assumption) ?_ | split | dsimp only)

theorem commitGo_keeps {a : State} {x1 : _} {x2 : _} {x3 : _} {x4 : _} {s : State} (h : Keeps a s)  : Keeps a (commitGo x1 x2 x3 x4 s) := by
  unfold commitGo
  repeat' (first | with_reducible assumption | with_reducible apply commitFail_keeps | with_reducible apply groupReady_keeps | with_reducible apply commitEnter_keeps | with_reducible refine Keeps.foldl ?_ _ ?_ | with_reducible refine Keeps.foldl_snd ?_ _ ?_ | intro _ | with_reducible refine Keeps.snd (by with_reducible assumption) ?_ | split | dsimp only)

theorem commitTry_keeps {a : State} {x1 : _} {x2 : _} {s : State} (h : Keeps a s)  : Keeps a (commitTry x1 x2 s) := by
  unfold commitTry
  repeat' (first | with_reducible assumption | with_reducible apply commitDone_keeps | with_reducible apply commitEnd_keeps | with_reducible apply commitHold_keeps | with_reducible apply needLines_keeps | with_reducible apply commitFail_keeps | with_reducible apply commitGo_keeps | with_reducible refine Keeps.foldl ?_ _ ?_ | with_reducible refine Keeps.foldl_snd ?_ _ ?_ | intro _ | with_reducible refine Keeps.snd (by with_reducible assumption) ?_ | split | dsimp only)

theorem commitBegin_keeps {a : State} {x1 : _} {x2 : _} {s : State} (h : Keeps a s)  : Keeps a (commitBegin x1 x2 s) := by
  unfold commitBegin
  repeat' (first | with_reducible assumption | with_reducible apply spillAll_keeps | with_reducible apply commitFail_keeps | with_reducible apply openRegion_keeps | with_reducible apply modJob_keeps | with_reducible apply pump_keeps | with_reducible apply commitTry_keeps | with_reducible refine Keeps.foldl ?_ _ ?_ | with_reducible refine Keeps.foldl_snd ?_ _ ?_ | intro _ | with_reducible refine Keeps.snd (by with_reducible assumption) ?_ | split | dsimp only)

theorem execJobCommitComplete_keeps {a : State} {x1 x2 : _}  : Runs a (execJobCommitComplete x1 x2) := by
  unfold execJobCommitComplete
  repeat' (first | with_reducible assumption | with_reducible refine Runs.complete ?_ | with_reducible apply pump_keeps | with_reducible apply commitTry_keeps | with_reducible refine Keeps.foldl ?_ _ ?_ | with_reducible refine Keeps.foldl_snd ?_ _ ?_ | intro _)

theorem indexBound_keeps {a : State} {x1 : _} {x2 : _} {s : State} (h : Keeps a s)  : Keeps a (indexBound x1 x2 s) := by
  unfold indexBound
  repeat' (first | with_reducible assumption | with_reducible apply commitTry_keeps | with_reducible apply reach_keeps | with_reducible apply commitFail_keeps | with_reducible refine Keeps.foldl ?_ _ ?_ | with_reducible refine Keeps.foldl_snd ?_ _ ?_ | intro _ | with_reducible refine Keeps.snd (by with_reducible assumption) ?_ | split | dsimp only)

theorem execIndexCommitWaitBound_keeps {a : State} {x1 x2 : _}  : Runs a (execIndexCommitWaitBound x1 x2) := by
  unfold execIndexCommitWaitBound
  repeat' (first | with_reducible assumption | with_reducible refine Runs.complete ?_ | with_reducible apply indexBound_keeps)

end Sys2Proof.Machine
end

