-- ==== Sys2Proof/Laws/KeepsEmbCmds.lean ====
section
/-! SUPPORT. What the operations of Machine/EmbCmds.lean keep (Laws/Keeps.lean). -/

namespace Sys2Proof.Machine

open Sys2Proof

theorem putTable_keeps {a : State} {x1 : _} {x2 : _} {s : State} (h : Keeps a s)  : Keeps a (putTable x1 x2 s) := by
  unfold putTable
  repeat' (first | with_reducible assumption | with_reducible apply cmdDone_keeps | with_reducible apply dropVersions_keeps | with_reducible apply State.modEmb_keeps | with_reducible refine Keeps.foldl ?_ _ ?_ | with_reducible refine Keeps.foldl_snd ?_ _ ?_ | intro _ | with_reducible refine Keeps.snd (by with_reducible assumption) ?_ | split | dsimp only)

theorem shardMoved_keeps {a : State} {x1 : _} {x2 : _} {x3 : _} {x4 : _} {s : State} (h : Keeps a s)  : Keeps a (shardMoved x1 x2 x3 x4 s) := by
  unfold shardMoved
  repeat' (first | with_reducible assumption | with_reducible apply dropVersions_keeps | with_reducible apply State.modEmb_keeps | with_reducible refine Keeps.foldl ?_ _ ?_ | with_reducible refine Keeps.foldl_snd ?_ _ ?_ | intro _ | with_reducible refine Keeps.snd (by with_reducible assumption) ?_ | split)

theorem tableStep_keeps {a : State} {s : State} (h : Keeps a s)  : Keeps a (tableStep s) := by
  unfold tableStep
  repeat' (first | with_reducible assumption | with_reducible apply State.modEmb_keeps | with_reducible apply modUnit_keeps | with_reducible apply putTable_keeps | with_reducible apply rowLinesGot_keeps | with_reducible apply cmdDone_keeps | with_reducible refine Keeps.foldl ?_ _ ?_ | with_reducible refine Keeps.foldl_snd ?_ _ ?_ | intro _ | with_reducible refine Keeps.snd (by with_reducible assumption) ?_ | split | dsimp only)

theorem tablePut_keeps {a : State} {x1 : _} {x2 : _} {x3 : _} {s : State} (h : Keeps a s)  : Keeps a (tablePut x1 x2 x3 s) := by
  unfold tablePut
  repeat' (first | with_reducible assumption | with_reducible apply issue_keeps | with_reducible apply cmdDone_keeps | with_reducible apply tableStep_keeps | with_reducible apply State.modEmb_keeps | with_reducible refine Keeps.foldl ?_ _ ?_ | with_reducible refine Keeps.foldl_snd ?_ _ ?_ | intro _ | with_reducible refine Keeps.snd (by with_reducible assumption) ?_ | split | dsimp only)

theorem execTableCreate_keeps {a : State} {x1 x2 : _}  : Runs a (execTableCreate x1 x2) := by
  unfold execTableCreate
  repeat' (first | with_reducible assumption | with_reducible refine Runs.complete ?_ | with_reducible apply tablePut_keeps)

theorem execTableReplace_keeps {a : State} {x1 x2 : _}  : Runs a (execTableReplace x1 x2) := by
  unfold execTableReplace
  repeat' (first | with_reducible assumption | with_reducible refine Runs.complete ?_ | with_reducible apply tablePut_keeps)

theorem tableGone_keeps {a : State} {x1 : _} {x2 : _} {s : State} (h : Keeps a s)  : Keeps a (tableGone x1 x2 s) := by
  unfold tableGone
  repeat' (first | with_reducible assumption | with_reducible apply issue_keeps | with_reducible apply cmdDone_keeps | with_reducible apply State.modEmb_keeps | with_reducible apply dropVersions_keeps | with_reducible refine Keeps.foldl ?_ _ ?_ | with_reducible refine Keeps.foldl_snd ?_ _ ?_ | intro _ | with_reducible refine Keeps.snd (by with_reducible assumption) ?_ | split)

theorem execTableDelete_keeps {a : State} {x1 x2 : _}  : Runs a (execTableDelete x1 x2) := by
  unfold execTableDelete
  repeat' (first | with_reducible assumption | with_reducible refine Runs.complete ?_ | with_reducible apply tableGone_keeps)

theorem groupCmd_keeps {a : State} {x1 : _} {x2 : _} {x3 : _} {s : State} (h : Keeps a s)  : Keeps a (groupCmd x1 x2 x3 s) := by
  unfold groupCmd
  repeat' (first | with_reducible assumption | with_reducible apply issue_keeps | with_reducible apply cmdDone_keeps | with_reducible apply State.modEmb_keeps | with_reducible refine Keeps.foldl ?_ _ ?_ | with_reducible refine Keeps.foldl_snd ?_ _ ?_ | intro _)

theorem execGroupSet_keeps {a : State} {x1 x2 : _}  : Runs a (execGroupSet x1 x2) := by
  unfold execGroupSet
  repeat' (first | with_reducible assumption | with_reducible refine Runs.complete ?_ | with_reducible apply groupCmd_keeps)

theorem execGroupClear_keeps {a : State} {x1 x2 : _}  : Runs a (execGroupClear x1 x2) := by
  unfold execGroupClear
  repeat' (first | with_reducible assumption | with_reducible refine Runs.complete ?_ | with_reducible apply groupCmd_keeps)

theorem cutAsked_keeps {a : State} {x1 : _} {x2 : _} {x3 : _} {s : State} (h : Keeps a s)  : Keeps a (cutAsked x1 x2 x3 s) := by
  unfold cutAsked
  repeat' (first | with_reducible assumption | with_reducible apply emit_keeps | with_reducible apply State.modEmb_keeps | with_reducible refine Keeps.foldl ?_ _ ?_ | with_reducible refine Keeps.foldl_snd ?_ _ ?_ | intro _ | with_reducible refine Keeps.snd (by with_reducible assumption) ?_ | split | dsimp only)

theorem execCuttingRequest_keeps {a : State} {x1 x2 x3 : _}  : Runs a (execCuttingRequest x1 x2 x3) := by
  unfold execCuttingRequest
  repeat' (first | with_reducible assumption | with_reducible refine Runs.complete ?_ | with_reducible apply cutAsked_keeps)

theorem cutGranted_keeps {a : State} {x1 : _} {x2 : _} {x3 : _} {x4 : _} {x5 : _} {s : State} (h : Keeps a s)  : Keeps a (cutGranted x1 x2 x3 x4 x5 s) := by
  unfold cutGranted
  repeat' (first | with_reducible assumption | with_reducible apply State.modEmb_keeps | with_reducible refine Keeps.foldl ?_ _ ?_ | with_reducible refine Keeps.foldl_snd ?_ _ ?_ | intro _ | with_reducible refine Keeps.snd (by with_reducible assumption) ?_ | split | dsimp only)

theorem cutDropped_keeps {a : State} {x1 : _} {x2 : _} {x3 : _} {s : State} (h : Keeps a s)  : Keeps a (cutDropped x1 x2 x3 s) := by
  unfold cutDropped
  repeat' (first | with_reducible assumption | with_reducible apply emit_keeps | with_reducible apply State.modEmb_keeps)

theorem execCutDrop_keeps {a : State} {x1 x2 x3 : _}  : Runs a (execCutDrop x1 x2 x3) := by
  unfold execCutDrop
  repeat' (first | with_reducible assumption | with_reducible refine Runs.complete ?_ | with_reducible apply cutDropped_keeps)

theorem cutConfirmed_keeps {a : State} {x1 : _} {x2 : _} {x3 : _} {s : State} (h : Keeps a s)  : Keeps a (cutConfirmed x1 x2 x3 s) := by
  unfold cutConfirmed
  repeat' (first | with_reducible assumption | with_reducible apply pump_keeps | with_reducible apply State.modEmb_keeps)

theorem execCutDropConfirm_keeps {a : State} {x1 x2 x3 : _}  : Runs a (execCutDropConfirm x1 x2 x3) := by
  unfold execCutDropConfirm
  repeat' (first | with_reducible assumption | with_reducible refine Runs.complete ?_ | with_reducible apply cutConfirmed_keeps)

theorem leaseEnd_keeps {a : State} {x1 : _} {x2 : _} {x3 : _} {s : State} (h : Keeps a s)  : Keeps a (leaseEnd x1 x2 x3 s) := by
  unfold leaseEnd
  repeat' (first | with_reducible assumption | with_reducible apply reach_keeps | with_reducible apply track_keeps | with_reducible apply emit_keeps | with_reducible apply State.modEmb_keeps | with_reducible apply pump_keeps | with_reducible refine Keeps.foldl ?_ _ ?_ | with_reducible refine Keeps.foldl_snd ?_ _ ?_ | intro _ | with_reducible refine Keeps.snd (by with_reducible assumption) ?_ | split | dsimp only)

theorem execCuttingLeaseEnd_keeps {a : State} {x1 x2 x3 : _}  : Runs a (execCuttingLeaseEnd x1 x2 x3) := by
  unfold execCuttingLeaseEnd
  repeat' (first | with_reducible assumption | with_reducible refine Runs.complete ?_ | with_reducible apply leaseEnd_keeps)

theorem loadTotals_keeps {a : State} {x1 : _} {x2 : _} {x3 : _} {s : State} (h : Keeps a s)  : Keeps a (loadTotals x1 x2 x3 s) := by
  unfold loadTotals
  repeat' (first | with_reducible assumption | with_reducible apply State.modEmb_keeps)

theorem execShardLoadTotals_keeps {a : State} {x1 x2 x3 : _}  : Runs a (execShardLoadTotals x1 x2 x3) := by
  unfold execShardLoadTotals
  repeat' (first | with_reducible assumption | with_reducible refine Runs.complete ?_ | with_reducible apply loadTotals_keeps)

end Sys2Proof.Machine
end

