-- ==== Sys2Proof/Laws/KeepsDibber.lean ====
section
/-! SUPPORT. What the operations of Machine/Dibber.lean keep (Laws/Keeps.lean). -/

namespace Sys2Proof.Machine

open Sys2Proof

theorem dibRead_keeps {a : State} {x1 : _} {x2 : _} {x3 : _} {x4 : _} {x5 : _} {s : State} (h : Keeps a s)  : Keeps a (dibRead x1 x2 x3 x4 x5 s).2 := by
  unfold dibRead
  repeat' (first | with_reducible assumption | with_reducible apply xlate_keeps | with_reducible apply viewLine_keeps | with_reducible refine Keeps.foldl ?_ _ ?_ | with_reducible refine Keeps.foldl_snd ?_ _ ?_ | intro _ | with_reducible refine Keeps.snd (by with_reducible assumption) ?_ | split | dsimp only)

theorem dibWrite_keeps {a : State} {x1 : _} {x2 : _} {x3 : _} {x4 : _} {s : State} (h : Keeps a s)  : Keeps a (dibWrite x1 x2 x3 x4 s).2 := by
  unfold dibWrite
  repeat' (first | with_reducible assumption | with_reducible apply xlate_keeps | with_reducible apply stageBytes_keeps | with_reducible apply modBody_keeps | with_reducible refine Keeps.foldl ?_ _ ?_ | with_reducible refine Keeps.foldl_snd ?_ _ ?_ | intro _ | with_reducible refine Keeps.snd (by with_reducible assumption) ?_ | split | dsimp only)

theorem csrWrite_keeps {a : State} {x1 : _} {x2 : _} {x3 : _} {x4 : _} {s : State} (h : Keeps a s)  : Keeps a (csrWrite x1 x2 x3 x4 s).2 := by
  unfold csrWrite
  repeat' (first | with_reducible assumption | with_reducible apply modBody_keeps | with_reducible apply commitBegin_keeps | with_reducible refine Keeps.foldl ?_ _ ?_ | with_reducible refine Keeps.foldl_snd ?_ _ ?_ | intro _ | with_reducible refine Keeps.snd (by with_reducible assumption) ?_ | split | dsimp only)

theorem csrAccess_keeps {a : State} {x1 : _} {x2 : _} {x3 : _} {x4 : _} {x5 : _} {x6 : _} {s : State} (h : Keeps a s)  : Keeps a (csrAccess x1 x2 x3 x4 x5 x6 s).2 := by
  unfold csrAccess
  repeat' (first | with_reducible assumption | with_reducible apply csrWrite_keeps | with_reducible refine Keeps.foldl ?_ _ ?_ | with_reducible refine Keeps.foldl_snd ?_ _ ?_ | intro _ | with_reducible refine Keeps.snd (by with_reducible assumption) ?_ | split)

theorem retire_keeps {a : State} {x1 : _} {x2 : _} {x3 : _} {x4 : _} {x5 : _} {s : State} (h : Keeps a s)  : Keeps a (retire x1 x2 x3 x4 x5 s) := by
  unfold retire
  repeat' (first | with_reducible assumption | with_reducible apply progress_keeps | with_reducible apply doneWith_keeps | with_reducible apply modBody_keeps)

theorem dibTrap_keeps {a : State} {x1 : _} {x2 : _} {x3 : _} {s : State} (h : Keeps a s)  : Keeps a (dibTrap x1 x2 x3 s) := by
  unfold dibTrap
  repeat' (first | with_reducible assumption | with_reducible apply endJob_keeps)

theorem csrStep_keeps {a : State} {x1 : _} {x2 : _} {x3 : _} {x4 : _} {x5 : _} {x6 : _} {x7 : _} {x8 : _} {x9 : _} {s : State} (h : Keeps a s)  : Keeps a (csrStep x1 x2 x3 x4 x5 x6 x7 x8 x9 s) := by
  unfold csrStep
  repeat' (first | with_reducible assumption | with_reducible apply csrAccess_keeps | with_reducible apply dibTrap_keeps | with_reducible apply endJob_keeps | with_reducible apply retire_keeps | with_reducible refine Keeps.foldl ?_ _ ?_ | with_reducible refine Keeps.foldl_snd ?_ _ ?_ | intro _ | with_reducible refine Keeps.snd (by with_reducible assumption) ?_ | split)

theorem onMem_keeps {a : State} {core : Fin 16} {ctx : Fin 8} {pc : Word} {p : MemRes × State} {k : List Byte → State → State}
    (h : Keeps a p.2) (hk : ∀ bs s, Keeps a s → Keeps a (k bs s)) : Keeps a (onMem core ctx pc p k) := by
  unfold onMem
  split
  · exact hk _ _ h
  · exact h
  · exact dibTrap_keeps h
  · exact failAt_keeps h

theorem setResv_keeps {a : State} {x1 : _} {x2 : _} {x3 : _} {s : State} (h : Keeps a s)  : Keeps a (setResv x1 x2 x3 s) := by
  unfold setResv
  repeat' (first | with_reducible assumption | with_reducible apply modBody_keeps)

theorem userAct_keeps {a : State} {core : Fin 16} {ctx : Fin 8} {d : Dib} {next : Word} {act : RvAct} {s : State} (h : Keeps a s) :
    Keeps a (userAct core ctx d next act s) := by
  cases act with
  | set rd v => exact retire_keeps h
  | jump rd t => exact retire_keeps h
  | branch k t => exact retire_keeps h
  | load rd x n sg => exact onMem_keeps (dibRead_keeps h) fun _ _ h => retire_keeps h
  | store x n v => exact onMem_keeps (dibWrite_keeps h) fun _ _ h => retire_keeps h
  | lr rd x n =>
    dsimp only [userAct]
    split
    · exact dibTrap_keeps h
    · exact onMem_keeps (dibRead_keeps h) fun _ _ h => retire_keeps (setResv_keeps h)
  | sc rd x n v =>
    dsimp only [userAct]
    split
    · exact dibTrap_keeps h
    · split
      · exact onMem_keeps (dibWrite_keeps (setResv_keeps h)) fun _ _ h => retire_keeps h
      · exact retire_keeps (setResv_keeps h)
  | amo op rd x n v =>
    dsimp only [userAct]
    split
    · exact dibTrap_keeps h
    · exact onMem_keeps (dibRead_keeps h) fun _ _ h => onMem_keeps (dibWrite_keeps h) fun _ _ h => retire_keeps h
  | csr f3 rd num v w => exact csrStep_keeps h
  | nop => exact retire_keeps h
  | ecall => exact dibTrap_keeps h
  | ebreak => exact dibTrap_keeps h
  | mret => exact dibTrap_keeps h
  | illegal => exact dibTrap_keeps h

theorem dibFetch_keeps {a : State} {x1 : _} {x2 : _} {x3 : _} {s : State} (h : Keeps a s)  : Keeps a (dibFetch x1 x2 x3 s).2 := by
  unfold dibFetch
  repeat' (first | with_reducible assumption | with_reducible apply dibRead_keeps | with_reducible refine Keeps.foldl ?_ _ ?_ | with_reducible refine Keeps.foldl_snd ?_ _ ?_ | intro _ | with_reducible refine Keeps.snd (by with_reducible assumption) ?_ | split | dsimp only)

theorem userStep_keeps {a : State} {core : Fin 16} {ctx : Fin 8} {s : State} (h : Keeps a s) : Keeps a (userStep core ctx s) := by
  unfold userStep
  cases dibJob core ctx s with
  | none => exact h
  | some j =>
    have hf := dibFetch_keeps (x1 := core) (x2 := ctx) (x3 := j.b.dib.pc) h
    revert hf
    dsimp only
    generalize dibFetch core ctx j.b.dib.pc s = q
    obtain ⟨f, t⟩ := q
    intro hf
    rcases f with r | _ | ⟨i, len⟩
    · exact onMem_keeps hf fun _ _ h => h
    · exact dibTrap_keeps hf
    · exact userAct_keeps hf

theorem setRt_keeps {a : State} {x1 : _} {x2 : _} {s : State} (h : Keeps a s)  : Keeps a (setRt x1 x2 s) := by
  unfold setRt
  repeat' (first | with_reducible assumption | with_reducible apply State.modNmc_keeps)

theorem rtStep_keeps {a : State} {x1 : _} {x2 : _} {x3 : _} {s : State} (h : Keeps a s)  : Keeps a (rtStep x1 x2 x3 s) := by
  unfold rtStep
  repeat' (first | with_reducible assumption | with_reducible apply setRt_keeps | with_reducible apply State.draw_keeps | with_reducible apply csrAccess_keeps | with_reducible apply endJob_keeps | with_reducible refine Keeps.foldl ?_ _ ?_ | with_reducible refine Keeps.foldl_snd ?_ _ ?_ | intro _ | with_reducible refine Keeps.snd (by with_reducible assumption) ?_ | split | dsimp only)

theorem execDibberInstruction_keeps {a : State} {x1 x2 x3 : _}  : Runs a (execDibberInstruction x1 x2 x3) := by
  unfold execDibberInstruction
  repeat' (first | with_reducible assumption | with_reducible refine Runs.complete ?_ | with_reducible apply userStep_keeps | with_reducible apply rtStep_keeps | with_reducible refine Keeps.foldl ?_ _ ?_ | with_reducible refine Keeps.foldl_snd ?_ _ ?_ | intro _ | with_reducible refine Keeps.snd (by with_reducible assumption) ?_ | split)

theorem userCsr_keeps {a : State} {x1 : _} {x2 : _} {x3 : _} {x4 : _} {x5 : _} {s : State} (h : Keeps a s)  : Keeps a (userCsr x1 x2 x3 x4 x5 s) := by
  unfold userCsr
  repeat' (first | with_reducible assumption | with_reducible apply csrStep_keeps | with_reducible refine Keeps.foldl ?_ _ ?_ | with_reducible refine Keeps.foldl_snd ?_ _ ?_ | intro _ | with_reducible refine Keeps.snd (by with_reducible assumption) ?_ | split)

theorem execNmcCmdPush_keeps {a : State} {x1 x2 x3 x4 : _}  : Runs a (execNmcCmdPush x1 x2 x3 x4) := by
  unfold execNmcCmdPush
  repeat' (first | with_reducible assumption | with_reducible refine Runs.complete ?_ | with_reducible apply userCsr_keeps)

theorem execNmcCommit_keeps {a : State} {x1 x2 x3 x4 : _}  : Runs a (execNmcCommit x1 x2 x3 x4) := by
  unfold execNmcCommit
  repeat' (first | with_reducible assumption | with_reducible refine Runs.complete ?_ | with_reducible apply userCsr_keeps)

theorem execNmcFewer_keeps {a : State} {x1 x2 x3 x4 : _}  : Runs a (execNmcFewer x1 x2 x3 x4) := by
  unfold execNmcFewer
  repeat' (first | with_reducible assumption | with_reducible refine Runs.complete ?_ | with_reducible apply userCsr_keeps)

theorem execNmcArithStatus_keeps {a : State} {x1 x2 x3 x4 : _}  : Runs a (execNmcArithStatus x1 x2 x3 x4) := by
  unfold execNmcArithStatus
  repeat' (first | with_reducible assumption | with_reducible refine Runs.complete ?_ | with_reducible apply userCsr_keeps)

theorem execNmcTileTake_keeps {a : State} {x1 x2 x3 x4 : _}  : Runs a (execNmcTileTake x1 x2 x3 x4) := by
  unfold execNmcTileTake
  repeat' (first | with_reducible assumption | with_reducible refine Runs.complete ?_ | with_reducible apply userCsr_keeps)

theorem execNmcTileFree_keeps {a : State} {x1 x2 x3 x4 : _}  : Runs a (execNmcTileFree x1 x2 x3 x4) := by
  unfold execNmcTileFree
  repeat' (first | with_reducible assumption | with_reducible refine Runs.complete ?_ | with_reducible apply userCsr_keeps)

theorem execNmcTileAlloc_keeps {a : State} {x1 x2 x3 x4 : _}  : Runs a (execNmcTileAlloc x1 x2 x3 x4) := by
  unfold execNmcTileAlloc
  repeat' (first | with_reducible assumption | with_reducible refine Runs.complete ?_ | with_reducible apply userCsr_keeps)

theorem execNmcTileEmit_keeps {a : State} {x1 x2 x3 x4 : _}  : Runs a (execNmcTileEmit x1 x2 x3 x4) := by
  unfold execNmcTileEmit
  repeat' (first | with_reducible assumption | with_reducible refine Runs.complete ?_ | with_reducible apply userCsr_keeps)

end Sys2Proof.Machine
end

