-- ==== Sys2Proof/Laws/KeepsJobQueues.lean ====
section
/-! SUPPORT. What the operations of Machine/JobQueues.lean keep (Laws/Keeps.lean). -/

namespace Sys2Proof.Machine

open Sys2Proof

theorem wakeCores_keeps {a : State} {s : State} (h : Keeps a s)  : Keeps a (wakeCores s) := by
  unfold wakeCores
  repeat' (first | with_reducible assumption | with_reducible apply State.modSys_keeps | with_reducible refine Keeps.foldl ?_ _ ?_ | with_reducible refine Keeps.foldl_snd ?_ _ ?_ | (exact Nat.le_refl _))

theorem sqDoorbell_keeps {a : State} {x1 : _} {x2 : _} {x3 : _} {s : State} (h : Keeps a s)  : Keeps a (sqDoorbell x1 x2 x3 s).2 := by
  unfold sqDoorbell
  repeat' (first | with_reducible assumption | with_reducible apply rejected_keeps | with_reducible apply State.modNmc_keeps | with_reducible apply wakeCores_keeps | with_reducible refine Keeps.foldl ?_ _ ?_ | with_reducible refine Keeps.foldl_snd ?_ _ ?_ | intro _ | with_reducible refine Keeps.snd (by with_reducible assumption) ?_ | split | dsimp only)

theorem execNmcSqDb_keeps {a : State} {x1 x2 x3 : _}  : Runs a (execNmcSqDb x1 x2 x3) := by
  unfold execNmcSqDb
  repeat' (first | with_reducible assumption | with_reducible refine Runs.complete ?_ | with_reducible apply sqDoorbell_keeps)

theorem skipHead_keeps {a : State} {x1 : _} {x2 : _} {s : State} (h : Keeps a s)  : Keeps a (skipHead x1 x2 s) := by
  induction x2 generalizing s  with
  | zero =>
    unfold skipHead
    repeat' (with_reducible assumption)
  | succ k ih =>
    unfold skipHead
    repeat' (first | with_reducible assumption | with_reducible apply ih | with_reducible apply State.modNmc_keeps | with_reducible refine Keeps.foldl ?_ _ ?_ | with_reducible refine Keeps.foldl_snd ?_ _ ?_ | intro _ | with_reducible refine Keeps.snd (by with_reducible assumption) ?_ | split)

theorem takeEntry_keeps {a : State} {x1 : _} {x2 : _} {s : State} (h : Keeps a s)  : Keeps a (takeEntry x1 x2 s) := by
  unfold takeEntry
  repeat' (first | with_reducible assumption | with_reducible apply skipHead_keeps | with_reducible apply State.modNmc_keeps)

theorem enterJob_keeps {a : State} {x1 : _} {x2 : _} {s : State} (h : Keeps a s)  : Keeps a (enterJob x1 x2 s).2 := by
  unfold enterJob
  repeat' (first | with_reducible assumption | with_reducible apply numberJob_keeps | with_reducible apply State.modNmc_keeps | with_reducible refine Keeps.foldl ?_ _ ?_ | with_reducible refine Keeps.foldl_snd ?_ _ ?_ | intro _ | with_reducible refine Keeps.snd (by with_reducible assumption) ?_ | split)

theorem startJob_keeps {a : State} {x1 : _} {x2 : _} {x3 : _} {x4 : _} {x5 : _} {s : State} (h : Keeps a s)  : Keeps a (startJob x1 x2 x3 x4 x5 s).2 := by
  unfold startJob
  repeat' (first | with_reducible assumption | with_reducible apply completeReq_keeps | with_reducible apply enterJob_keeps | with_reducible refine Keeps.foldl ?_ _ ?_ | with_reducible refine Keeps.foldl_snd ?_ _ ?_ | intro _ | with_reducible refine Keeps.snd (by with_reducible assumption) ?_ | split)

theorem readHdr_keeps {a : State} {x1 : _} {x2 : _} {x3 : _} {s : State} (h : Keeps a s)  : Keeps a (readHdr x1 x2 x3 s).2 := by
  unfold readHdr
  repeat' (first | with_reducible assumption | with_reducible apply unitAsk_keeps | with_reducible refine Keeps.foldl ?_ _ ?_ | with_reducible refine Keeps.foldl_snd ?_ _ ?_ | intro _ | with_reducible refine Keeps.snd (by with_reducible assumption) ?_ | split)

theorem forwardReq_keeps {a : State} {x1 : _} {x2 : _} {s : State} (h : Keeps a s)  : Keeps a (forwardReq x1 x2 s) := by
  unfold forwardReq
  repeat' (first | with_reducible assumption | with_reducible apply emit_keeps | with_reducible apply State.modNmc_keeps)

theorem dispatchReq_keeps {a : State} {x1 : _} {s : State} (h : Keeps a s)  : Keeps a (dispatchReq x1 s).2 := by
  unfold dispatchReq
  repeat' (first | with_reducible assumption | with_reducible apply completeReq_keeps | with_reducible apply forwardReq_keeps | with_reducible apply startJob_keeps | with_reducible apply readHdr_keeps | with_reducible apply modUnit_keeps | with_reducible refine Keeps.foldl ?_ _ ?_ | with_reducible refine Keeps.foldl_snd ?_ _ ?_ | intro _ | with_reducible refine Keeps.snd (by with_reducible assumption) ?_ | split | dsimp only)

theorem dispatchPair_keeps {a : State} {x1 : _} {s : State} (h : Keeps a s)  : Keeps a (dispatchPair x1 s) := by
  unfold dispatchPair
  repeat' (first | with_reducible assumption | with_reducible apply skipHead_keeps | with_reducible apply wakeCores_keeps | with_reducible apply State.modNmc_keeps | with_reducible apply dispatchReq_keeps | with_reducible apply ownAsk_keeps | with_reducible apply takeEntry_keeps | with_reducible refine Keeps.foldl ?_ _ ?_ | with_reducible refine Keeps.foldl_snd ?_ _ ?_ | intro _ | with_reducible refine Keeps.snd (by with_reducible assumption) ?_ | split | dsimp only)

theorem execJobDispatch_keeps {a : State} {x1 : _}  : Runs a (execJobDispatch x1) := by
  unfold execJobDispatch
  repeat' (first | with_reducible assumption | with_reducible refine Runs.complete ?_ | with_reducible apply dispatchPair_keeps)

theorem cancelJob_keeps {a : State} {x1 : _} {x2 : _} {s : State} (h : Keeps a s)  : Keeps a (cancelJob x1 x2 s) := by
  unfold cancelJob
  repeat' (first | with_reducible assumption | with_reducible apply commitFail_keeps | with_reducible apply endJob_keeps | with_reducible refine Keeps.foldl ?_ _ ?_ | with_reducible refine Keeps.foldl_snd ?_ _ ?_ | intro _ | with_reducible refine Keeps.snd (by with_reducible assumption) ?_ | split)

theorem actCancel_keeps {a : State} {x1 : _} {s : State} (h : Keeps a s)  : Keeps a (actCancel x1 s) := by
  unfold actCancel
  repeat' (first | with_reducible assumption | with_reducible apply completeReq_keeps | with_reducible apply cancelJob_keeps | with_reducible apply State.modNmc_keeps | with_reducible apply takeEntry_keeps | with_reducible refine Keeps.foldl ?_ _ ?_ | with_reducible refine Keeps.foldl_snd ?_ _ ?_ | intro _ | with_reducible refine Keeps.snd (by with_reducible assumption) ?_ | split)

theorem queueReq34_keeps {a : State} {x1 : _} {x2 : _} {x3 : _} {x4 : _} {s : State} (hx4 : ∀ y0 y1, Keeps a y1 → Keeps a (x4 y0 y1).2) (h : Keeps a s)  : Keeps a (queueReq34 x1 x2 x3 x4 s) := by
  unfold queueReq34
  repeat' (first | with_reducible assumption | with_reducible apply skipHead_keeps | with_reducible apply ownAsk_keeps | with_reducible apply takeEntry_keeps | with_reducible apply completeReq_keeps | with_reducible apply forwardReq_keeps | with_reducible apply hx4 | with_reducible refine Keeps.foldl ?_ _ ?_ | with_reducible refine Keeps.foldl_snd ?_ _ ?_ | intro _ | with_reducible refine Keeps.snd (by with_reducible assumption) ?_ | split | dsimp only)

theorem execCancel_keeps {a : State} {x1 : _}  : Runs a (execCancel x1) := by
  unfold execCancel
  repeat' (first | with_reducible assumption | with_reducible refine Runs.complete ?_ | with_reducible apply queueReq34_keeps | with_reducible apply actCancel_keeps | with_reducible refine Keeps.foldl ?_ _ ?_ | with_reducible refine Keeps.foldl_snd ?_ _ ?_ | intro _)

theorem rsGone_keeps {a : State} {x1 : _} {s : State} (h : Keeps a s)  : Keeps a (rsGone x1 s) := by
  unfold rsGone
  repeat' (first | with_reducible assumption | with_reducible apply cmdDone_keeps | with_reducible apply State.modNmc_keeps)

theorem rsRetireTry_keeps {a : State} {s : State} (h : Keeps a s)  : Keeps a (rsRetireTry s) := by
  unfold rsRetireTry
  repeat' (first | with_reducible assumption | with_reducible apply rsGone_keeps | with_reducible refine Keeps.foldl ?_ _ ?_ | with_reducible refine Keeps.foldl_snd ?_ _ ?_ | intro _ | with_reducible refine Keeps.snd (by with_reducible assumption) ?_ | split)

theorem unbindTry_keeps {a : State} {s : State} (h : Keeps a s)  : Keeps a (unbindTry s) := by
  unfold unbindTry
  repeat' (first | with_reducible assumption | with_reducible apply cmdDone_keeps | with_reducible apply State.modXlt_keeps | with_reducible refine Keeps.foldl ?_ _ ?_ | with_reducible refine Keeps.foldl_snd ?_ _ ?_ | intro _ | with_reducible refine Keeps.snd (by with_reducible assumption) ?_ | split)

theorem recordDone_keeps {a : State} {x1 : _} {s : State} (h : Keeps a s)  : Keeps a (recordDone x1 s) := by
  unfold recordDone
  repeat' (first | with_reducible assumption | with_reducible apply State.modNmc_keeps | with_reducible apply advance_keeps | with_reducible apply giveStations_keeps | with_reducible apply unbindTry_keeps | with_reducible apply rsRetireTry_keeps | with_reducible apply State.modSys_keeps | with_reducible refine Keeps.foldl ?_ _ ?_ | with_reducible refine Keeps.foldl_snd ?_ _ ?_ | (exact Nat.le_refl _) | (exact Nat.le_max_left _ _) | (exact Nat.le_add_right _ _) | intro _ | with_reducible refine Keeps.snd (by with_reducible assumption) ?_ | split)

theorem writeRecord_keeps {a : State} {x1 : _} {s : State} (h : Keeps a s)  : Keeps a (writeRecord x1 s) := by
  unfold writeRecord
  repeat' (first | with_reducible assumption | with_reducible apply emit_keeps | with_reducible apply State.modNmc_keeps | with_reducible apply ownAsk_keeps | with_reducible apply recordDone_keeps | with_reducible apply signal_keeps | with_reducible refine Keeps.foldl ?_ _ ?_ | with_reducible refine Keeps.foldl_snd ?_ _ ?_ | intro _ | with_reducible refine Keeps.snd (by with_reducible assumption) ?_ | split | dsimp only)

theorem recordCame_keeps {a : State} {x1 : _} {x2 : _} {x3 : _} {s : State} (h : Keeps a s)  : Keeps a (recordCame x1 x2 x3 s) := by
  unfold recordCame
  repeat' (first | with_reducible assumption | with_reducible apply State.modNmc_keeps)

theorem recordTaken_keeps {a : State} {x1 : _} {x2 : _} {x3 : _} {s : State} (h : Keeps a s)  : Keeps a (recordTaken x1 x2 x3 s) := by
  unfold recordTaken
  repeat' (first | with_reducible assumption | with_reducible apply recordDone_keeps | with_reducible refine Keeps.foldl ?_ _ ?_ | with_reducible refine Keeps.foldl_snd ?_ _ ?_ | intro _ | with_reducible refine Keeps.snd (by with_reducible assumption) ?_ | split)

theorem execCqRecordWrite_keeps {a : State} {x1 : _}  : Runs a (execCqRecordWrite x1) := by
  obtain ⟨pair, ev⟩ := x1
  unfold execCqRecordWrite
  cases ev <;> with_reducible refine Runs.complete ?_ <;> intro _ h
  · with_reducible exact writeRecord_keeps h
  · with_reducible exact recordCame_keeps h
  · with_reducible exact recordTaken_keeps h

end Sys2Proof.Machine
end

