-- ==== Sys2Proof/Laws/KeepsJobCmds.lean ====
section
/-! SUPPORT. What the operations of Machine/JobCmds.lean keep (Laws/Keeps.lean). -/

namespace Sys2Proof.Machine

open Sys2Proof

theorem fillFrames_keeps {a : State} {x1 : _} {x2 : _} {x3 : _} {s : State} (h : Keeps a s)  : Keeps a (fillFrames x1 x2 x3 s).2 := by
  induction x3 generalizing s  with
  | nil =>
    unfold fillFrames
    repeat' (with_reducible assumption)
  | cons y l ih =>
    unfold fillFrames
    repeat' (first | with_reducible assumption | with_reducible apply ih | with_reducible apply walkFrom_keeps | with_reducible apply modJob_keeps | with_reducible refine Keeps.foldl ?_ _ ?_ | with_reducible refine Keeps.foldl_snd ?_ _ ?_ | intro _ | with_reducible refine Keeps.snd (by with_reducible assumption) ?_ | split)

theorem jobReady_keeps {a : State} {x1 : _} {x2 : _} {x3 : _} {s : State} (h : Keeps a s)  : Keeps a (jobReady x1 x2 x3 s) := by
  unfold jobReady
  repeat' (first | with_reducible assumption | with_reducible apply giveStations_keeps | with_reducible apply progress_keeps | with_reducible apply modJob_keeps)

theorem enterGraph_keeps {a : State} {x1 : _} {x2 : _} {x3 : _} {x4 : _} {x5 : _} {s : State} (h : Keeps a s)  : Keeps a (enterGraph x1 x2 x3 x4 x5 s) := by
  unfold enterGraph
  repeat' (first | with_reducible assumption | with_reducible apply fillFrames_keeps | with_reducible apply endJob_keeps | with_reducible apply jobReady_keeps | with_reducible apply doneWith_keeps | with_reducible refine Keeps.foldl ?_ _ ?_ | with_reducible refine Keeps.foldl_snd ?_ _ ?_ | intro _ | with_reducible refine Keeps.snd (by with_reducible assumption) ?_ | split | dsimp only)

theorem readGraph_keeps {a : State} {x1 : _} {x2 : _} {x3 : _} {x4 : _} {x5 : _} {s : State} (h : Keeps a s)  : Keeps a (readGraph x1 x2 x3 x4 x5 s) := by
  unfold readGraph
  repeat' (first | with_reducible assumption | with_reducible apply viewBytes_keeps | with_reducible apply failAt_keeps | with_reducible apply endJob_keeps | with_reducible apply enterGraph_keeps | with_reducible refine Keeps.foldl ?_ _ ?_ | with_reducible refine Keeps.foldl_snd ?_ _ ?_ | intro _ | with_reducible refine Keeps.snd (by with_reducible assumption) ?_ | split | dsimp only)

theorem loadGraph_keeps {a : State} {x1 : _} {x2 : _} {s : State} (h : Keeps a s)  : Keeps a (loadGraph x1 x2 s) := by
  unfold loadGraph
  repeat' (first | with_reducible assumption | with_reducible apply viewBytes_keeps | with_reducible apply failAt_keeps | with_reducible apply endJob_keeps | with_reducible apply readGraph_keeps | with_reducible refine Keeps.foldl ?_ _ ?_ | with_reducible refine Keeps.foldl_snd ?_ _ ?_ | intro _ | with_reducible refine Keeps.snd (by with_reducible assumption) ?_ | split | dsimp only)

theorem execRun_keeps {a : State} {x1 x2 : _}  : Runs a (execRun x1 x2) := by
  unfold execRun
  repeat' (first | with_reducible assumption | with_reducible refine Runs.complete ?_ | with_reducible apply loadGraph_keeps | with_reducible refine Keeps.foldl ?_ _ ?_ | with_reducible refine Keeps.foldl_snd ?_ _ ?_ | intro _ | with_reducible refine Keeps.snd (by with_reducible assumption) ?_ | split)

theorem casStep_keeps {a : State} {x1 : _} {x2 : _} {x3 : _} {x4 : _} {x5 : _} {s : State} (h : Keeps a s)  : Keeps a (casStep x1 x2 x3 x4 x5 s).2 := by
  unfold casStep
  repeat' (first | with_reducible assumption | with_reducible apply ask_keeps | with_reducible apply doneWith_keeps | with_reducible refine Keeps.foldl ?_ _ ?_ | with_reducible refine Keeps.foldl_snd ?_ _ ?_ | intro _ | with_reducible refine Keeps.snd (by with_reducible assumption) ?_ | split | dsimp only)

theorem setClaim_keeps {a : State} {x1 : _} {x2 : _} {s : State} (h : Keeps a s)  : Keeps a (setClaim x1 x2 s) := by
  unfold setClaim
  repeat' (first | with_reducible assumption | with_reducible apply modJob_keeps)

theorem resumeFail_keeps {a : State} {x1 : _} {x2 : _} {x3 : _} {x4 : _} {s : State} (hx4 : ∀ y0, Keeps a y0 → Keeps a (x4 y0)) (h : Keeps a s)  : Keeps a (resumeFail x1 x2 x3 x4 s) := by
  unfold resumeFail
  repeat' (first | with_reducible assumption | with_reducible apply restartJob_keeps | with_reducible apply hx4 | with_reducible refine Keeps.foldl ?_ _ ?_ | with_reducible refine Keeps.foldl_snd ?_ _ ?_ | intro _ | with_reducible refine Keeps.snd (by with_reducible assumption) ?_ | split)

theorem askLines_keeps {a : State} {x1 : _} {x2 : _} {x3 : _} {x4 : _} {s : State} (h : Keeps a s)  : Keeps a (askLines x1 x2 x3 x4 s).2 := by
  induction x4 generalizing s  with
  | nil =>
    unfold askLines
    repeat' (with_reducible assumption)
  | cons y l ih =>
    unfold askLines
    repeat' (first | with_reducible assumption | with_reducible apply ih | with_reducible apply ask_keeps | with_reducible refine Keeps.foldl ?_ _ ?_ | with_reducible refine Keeps.foldl_snd ?_ _ ?_ | intro _ | with_reducible refine Keeps.snd (by with_reducible assumption) ?_ | split)

theorem noteResume_keeps {a : State} {x1 : _} {s : State} (h : Keeps a s)  : Keeps a (noteResume x1 s) := by
  unfold noteResume
  repeat' (first | with_reducible assumption | with_reducible apply journalCtl_keeps | with_reducible apply State.modNmc_keeps)

theorem resumeBody_keeps {a : State} {x1 : _} {x2 : _} {s : State} (h : Keeps a s)  : Keeps a (resumeBody x1 x2 s) := by
  unfold resumeBody
  repeat' (first | with_reducible assumption | with_reducible apply setClaim_keeps | with_reducible apply askLines_keeps | with_reducible apply resumeFail_keeps | with_reducible apply doneWith_keeps | with_reducible apply noteResume_keeps | with_reducible apply endJob_keeps | with_reducible apply jobReady_keeps | with_reducible refine Keeps.foldl ?_ _ ?_ | with_reducible refine Keeps.foldl_snd ?_ _ ?_ | intro _ | with_reducible refine Keeps.snd (by with_reducible assumption) ?_ | split | dsimp only)

theorem resumeStep_keeps {a : State} {x1 : _} {x2 : _} {s : State} (h : Keeps a s)  : Keeps a (resumeStep x1 x2 s) := by
  unfold resumeStep
  repeat' (first | with_reducible assumption | with_reducible apply setClaim_keeps | with_reducible apply modJob_keeps | with_reducible apply casStep_keeps | with_reducible apply endJob_keeps | with_reducible apply resumeFail_keeps | with_reducible apply resumeBody_keeps | with_reducible apply loadGraph_keeps | with_reducible refine Keeps.foldl ?_ _ ?_ | with_reducible refine Keeps.foldl_snd ?_ _ ?_ | intro _ | with_reducible refine Keeps.snd (by with_reducible assumption) ?_ | split | dsimp only)

theorem execResume_keeps {a : State} {x1 x2 : _}  : Runs a (execResume x1 x2) := by
  unfold execResume
  repeat' (first | with_reducible assumption | with_reducible refine Runs.complete ?_ | with_reducible apply resumeStep_keeps)

theorem writeArea_keeps {a : State} {x1 : _} {x2 : _} {x3 : _} {x4 : _} {s : State} (h : Keeps a s)  : Keeps a (writeArea x1 x2 x3 x4 s).2 := by
  unfold writeArea
  repeat' (first | with_reducible assumption | with_reducible apply groupReady_keeps | with_reducible apply recordWrite_keeps | with_reducible apply grpPlace_keeps | with_reducible refine Keeps.foldl ?_ _ ?_ | with_reducible refine Keeps.foldl_snd ?_ _ ?_ | intro _ | with_reducible refine Keeps.snd (by with_reducible assumption) ?_ | split | dsimp only)

theorem storeLines_keeps {a : State} {put : Word → Req → State → Option Rx × State} {iid : BitVec 16} {l : List (Word × Line)} {s : State}
    (hp : ∀ g r s, Keeps a s → Keeps a (put g r s).2) (h : Keeps a s) : Keeps a (storeLines put iid l s).2 := by
  induction l generalizing s with
  | nil => exact h
  | cons y l ih =>
    have k := ih (hp y.1 { op := 0x02, iid := iid, plen := 128, payload := bytesOfLine y.2 } s h)
    obtain ⟨g, l'⟩ := y
    unfold storeLines
    generalize put g _ s = z at k ⊢
    obtain ⟨x, t⟩ := z
    dsimp only at k ⊢
    generalize storeLines put iid l t = w at k ⊢
    obtain ⟨y, u⟩ := w
    dsimp only at k ⊢
    split <;> exact k

theorem sendArea_keeps {a : State} {x1 : Word → Req → State → Option Rx × State} {x2 : BitVec 16} {x3 : Word} {x4 : List Word} {x5 : List Byte}
    {s : State} (hx1 : ∀ g r s, Keeps a s → Keeps a (x1 g r s).2) (h : Keeps a s) : Keeps a (sendArea x1 x2 x3 x4 x5 s).2 := by
  have k := storeLines_keeps (iid := x2) (l := (areaLines x4 x5).zipIdx.map fun x => (x3 + BitVec.ofNat 64 (128 * x.2), x.1)) hx1 h
  unfold sendArea
  generalize storeLines x1 x2 _ s = w at k ⊢
  obtain ⟨r, t⟩ := w
  dsimp only at k ⊢
  split
  · exact journal_keeps k
  · exact k

theorem suspendQueued_keeps {a : State} {x1 : _} {x2 : _} {x3 : _} {s : State} (hx3 : ∀ y0, Keeps a y0 → Keeps a (x3 y0)) (h : Keeps a s)  : Keeps a (suspendQueued x1 x2 x3 s).2 := by
  unfold suspendQueued
  repeat' (first | with_reducible assumption | with_reducible apply completeReq_keeps | with_reducible apply writeArea_keeps | with_reducible apply sendArea_keeps | with_reducible apply unitAskReq_keeps | with_reducible apply modUnit_keeps | with_reducible apply hx3 | with_reducible refine Keeps.foldl ?_ _ ?_ | with_reducible refine Keeps.foldl_snd ?_ _ ?_ | intro _ | with_reducible refine Keeps.snd (by with_reducible assumption) ?_ | split | dsimp only)

theorem withdrawCommit_keeps {a : State} {x1 : _} {x2 : _} {s : State} (h : Keeps a s)  : Keeps a (withdrawCommit x1 x2 s) := by
  unfold withdrawCommit
  repeat' (first | with_reducible assumption | with_reducible apply State.modPrn_keeps | with_reducible apply modBody_keeps | with_reducible apply leaveRegions_keeps)

theorem actSuspend_keeps {a : State} {x1 : _} {s : State} (h : Keeps a s)  : Keeps a (actSuspend x1 s).2 := by
  unfold actSuspend
  repeat' (first | with_reducible assumption | with_reducible apply completeReq_keeps | with_reducible apply modJob_keeps | with_reducible apply withdrawCommit_keeps | with_reducible apply giveStations_keeps | with_reducible apply setOwnerCtx_keeps | with_reducible apply suspendQueued_keeps | with_reducible apply State.modNmc_keeps | with_reducible apply takeEntry_keeps | with_reducible refine Keeps.foldl ?_ _ ?_ | with_reducible refine Keeps.foldl_snd ?_ _ ?_ | intro _ | with_reducible refine Keeps.snd (by with_reducible assumption) ?_ | split)

theorem retrySuspend_keeps {a : State} {x1 : _} {s : State} (h : Keeps a s)  : Keeps a (retrySuspend x1 s) := by
  unfold retrySuspend
  repeat' (first | with_reducible assumption | with_reducible apply actSuspend_keeps | with_reducible apply State.modNmc_keeps | with_reducible refine Keeps.foldl ?_ _ ?_ | with_reducible refine Keeps.foldl_snd ?_ _ ?_ | intro _ | with_reducible refine Keeps.snd (by with_reducible assumption) ?_ | split)

theorem execSuspend_keeps {a : State} {x1 : _}  : Runs a (execSuspend x1) := by
  unfold execSuspend
  repeat' (first | with_reducible assumption | with_reducible refine Runs.complete ?_ | with_reducible apply queueReq34_keeps | with_reducible apply actSuspend_keeps | with_reducible apply retrySuspend_keeps | with_reducible refine Keeps.foldl ?_ _ ?_ | with_reducible refine Keeps.foldl_snd ?_ _ ?_ | intro _)

theorem suspendWrite_keeps {a : State} {x1 : _} {x2 : _} {s : State} (h : Keeps a s)  : Keeps a (suspendWrite x1 x2 s) := by
  unfold suspendWrite
  repeat' (first | with_reducible assumption | with_reducible apply spillAll_keeps | with_reducible apply giveStations_keeps | with_reducible apply completeReq_keeps | with_reducible apply doneWith_keeps | with_reducible apply modJob_keeps | with_reducible apply endJob_keeps | with_reducible apply State.modNmc_keeps | with_reducible apply writeArea_keeps | with_reducible apply sendArea_keeps | with_reducible apply ask_keeps | with_reducible refine Keeps.foldl ?_ _ ?_ | with_reducible refine Keeps.foldl_snd ?_ _ ?_ | intro _ | with_reducible refine Keeps.snd (by with_reducible assumption) ?_ | split | dsimp only)

theorem execSuspendBodyWritten_keeps {a : State} {x1 x2 : _}  : Runs a (execSuspendBodyWritten x1 x2) := by
  unfold execSuspendBodyWritten
  repeat' (first | with_reducible assumption | with_reducible refine Runs.complete ?_ | with_reducible apply suspendWrite_keeps)

theorem takeForwarded_keeps {a : State} {x1 : _} {s : State} (h : Keeps a s)  : Keeps a (takeForwarded x1 s) := by
  unfold takeForwarded
  repeat' (first | with_reducible assumption | with_reducible apply completeReq_keeps | with_reducible apply actCancel_keeps | with_reducible apply actSuspend_keeps | with_reducible apply State.modNmc_keeps | with_reducible refine Keeps.foldl ?_ _ ?_ | with_reducible refine Keeps.foldl_snd ?_ _ ?_ | intro _ | with_reducible refine Keeps.snd (by with_reducible assumption) ?_ | split)

theorem execJobForward_keeps {a : State} {x1 x2 x3 x4 : _}  : Runs a (execJobForward x1 x2 x3 x4) := by
  unfold execJobForward
  repeat' (first | with_reducible assumption | with_reducible refine Runs.complete ?_ | with_reducible apply takeForwarded_keeps)

theorem switchTo_keeps {a : State} {x1 : _} {x2 : _} {s : State} (h : Keeps a s)  : Keeps a (switchTo x1 x2 s) := by
  unfold switchTo
  repeat' (first | with_reducible assumption | with_reducible apply progress_keeps | with_reducible apply setOwnerCtx_keeps | with_reducible refine Keeps.foldl ?_ _ ?_ | with_reducible refine Keeps.foldl_snd ?_ _ ?_ | intro _ | with_reducible refine Keeps.snd (by with_reducible assumption) ?_ | split | dsimp only)

theorem execContextSwitch_keeps {a : State} {x1 x2 : _}  : Runs a (execContextSwitch x1 x2) := by
  unfold execContextSwitch
  repeat' (first | with_reducible assumption | with_reducible refine Runs.complete ?_ | with_reducible apply switchTo_keeps)

theorem showTile_keeps {a : State} {x1 : _} {x2 : _} {x3 : _} {s : State} (h : Keeps a s)  : Keeps a (showTile x1 x2 x3 s) := by
  unfold showTile
  repeat' (first | with_reducible assumption | with_reducible apply endJob_keeps | with_reducible apply progress_keeps | with_reducible apply modBody_keeps | with_reducible refine Keeps.foldl ?_ _ ?_ | with_reducible refine Keeps.foldl_snd ?_ _ ?_ | intro _ | with_reducible refine Keeps.snd (by with_reducible assumption) ?_ | split | dsimp only)

theorem execTileVisible_keeps {a : State} {x1 x2 x3 : _}  : Runs a (execTileVisible x1 x2 x3) := by
  unfold execTileVisible
  repeat' (first | with_reducible assumption | with_reducible refine Runs.complete ?_ | with_reducible apply showTile_keeps)

theorem endTile_keeps {a : State} {x1 : _} {x2 : _} {x3 : _} {s : State} (h : Keeps a s)  : Keeps a (endTile x1 x2 x3 s) := by
  unfold endTile
  repeat' (first | with_reducible assumption | with_reducible apply keepBody_keeps | with_reducible refine Keeps.foldl ?_ _ ?_ | with_reducible refine Keeps.foldl_snd ?_ _ ?_ | intro _ | with_reducible refine Keeps.snd (by with_reducible assumption) ?_ | split | dsimp only)

theorem execTileConsumed_keeps {a : State} {x1 x2 x3 : _}  : Runs a (execTileConsumed x1 x2 x3) := by
  unfold execTileConsumed
  repeat' (first | with_reducible assumption | with_reducible refine Runs.complete ?_ | with_reducible apply endTile_keeps)

theorem execJobRestart_keeps {a : State} {x1 x2 x3 : _}  : Runs a (execJobRestart x1 x2 x3) := by
  unfold execJobRestart
  repeat' (first | with_reducible assumption | with_reducible refine Runs.complete ?_ | with_reducible apply restartJob_keeps | with_reducible refine Keeps.foldl ?_ _ ?_ | with_reducible refine Keeps.foldl_snd ?_ _ ?_ | intro _ | with_reducible refine Keeps.snd (by with_reducible assumption) ?_ | split)

theorem noProgress_keeps {a : State} {x1 : _} {x2 : _} {s : State} (h : Keeps a s)  : Keeps a (noProgress x1 x2 s) := by
  unfold noProgress
  repeat' (first | with_reducible assumption | with_reducible apply endJob_keeps | with_reducible apply reach_keeps | with_reducible refine Keeps.foldl ?_ _ ?_ | with_reducible refine Keeps.foldl_snd ?_ _ ?_ | intro _ | with_reducible refine Keeps.snd (by with_reducible assumption) ?_ | split | dsimp only)

theorem execJobNoProgress_keeps {a : State} {x1 x2 : _}  : Runs a (execJobNoProgress x1 x2) := by
  unfold execJobNoProgress
  repeat' (first | with_reducible assumption | with_reducible refine Runs.complete ?_ | with_reducible apply noProgress_keeps)

theorem timeLimit_keeps {a : State} {x1 : _} {x2 : _} {s : State} (h : Keeps a s)  : Keeps a (timeLimit x1 x2 s) := by
  unfold timeLimit
  repeat' (first | with_reducible assumption | with_reducible apply endJob_keeps | with_reducible apply reach_keeps | with_reducible refine Keeps.foldl ?_ _ ?_ | with_reducible refine Keeps.foldl_snd ?_ _ ?_ | intro _ | with_reducible refine Keeps.snd (by with_reducible assumption) ?_ | split)

theorem execJobTimeLimit_keeps {a : State} {x1 x2 : _}  : Runs a (execJobTimeLimit x1 x2) := by
  unfold execJobTimeLimit
  repeat' (first | with_reducible assumption | with_reducible refine Runs.complete ?_ | with_reducible apply timeLimit_keeps)

theorem rsInstall_keeps {a : State} {x1 : _} {x2 : _} {x3 : _} {s : State} (h : Keeps a s)  : Keeps a (rsInstall x1 x2 x3 s) := by
  unfold rsInstall
  repeat' (first | with_reducible assumption | with_reducible apply cmdDone_keeps | with_reducible apply State.modNmc_keeps | with_reducible refine Keeps.foldl ?_ _ ?_ | with_reducible refine Keeps.foldl_snd ?_ _ ?_ | intro _ | with_reducible refine Keeps.snd (by with_reducible assumption) ?_ | split | dsimp only)

theorem execNmcRsInstall_keeps {a : State} {x1 x2 x3 : _}  : Runs a (execNmcRsInstall x1 x2 x3) := by
  unfold execNmcRsInstall
  repeat' (first | with_reducible assumption | with_reducible refine Runs.complete ?_ | with_reducible apply issue_keeps | with_reducible apply rsInstall_keeps | with_reducible refine Keeps.foldl ?_ _ ?_ | with_reducible refine Keeps.foldl_snd ?_ _ ?_ | intro _)

theorem rsRetire_keeps {a : State} {x1 : _} {s : State} (h : Keeps a s)  : Keeps a (rsRetire x1 s) := by
  unfold rsRetire
  repeat' (first | with_reducible assumption | with_reducible apply cmdDone_keeps | with_reducible apply rsRetireTry_keeps | with_reducible apply State.modNmc_keeps | with_reducible refine Keeps.foldl ?_ _ ?_ | with_reducible refine Keeps.foldl_snd ?_ _ ?_ | intro _ | with_reducible refine Keeps.snd (by with_reducible assumption) ?_ | split)

theorem execNmcRsRetire_keeps {a : State} {x1 x2 : _}  : Runs a (execNmcRsRetire x1 x2) := by
  unfold execNmcRsRetire
  repeat' (first | with_reducible assumption | with_reducible refine Runs.complete ?_ | with_reducible apply issue_keeps | with_reducible apply rsRetire_keeps | with_reducible refine Keeps.foldl ?_ _ ?_ | with_reducible refine Keeps.foldl_snd ?_ _ ?_ | intro _)

theorem rsBoundEnd_keeps {a : State} {s : State} (h : Keeps a s)  : Keeps a (rsBoundEnd s) := by
  unfold rsBoundEnd
  repeat' (first | with_reducible assumption | with_reducible apply reach_keeps | with_reducible apply rsRetireTry_keeps | with_reducible apply endJob_keeps | with_reducible apply rerun_keeps | with_reducible refine Keeps.foldl ?_ _ ?_ | with_reducible refine Keeps.foldl_snd ?_ _ ?_ | intro _ | with_reducible refine Keeps.snd (by with_reducible assumption) ?_ | split)

theorem execRsRetireBound_keeps {a : State}  : Runs a (execRsRetireBound ) := by
  unfold execRsRetireBound
  repeat' (first | with_reducible assumption | with_reducible refine Runs.complete ?_ | with_reducible apply rsBoundEnd_keeps)

theorem graftCmd_keeps {a : State} {x1 : _} {s : State} (h : Keeps a s)  : Keeps a (graftCmd x1 s) := by
  unfold graftCmd
  repeat' (first | with_reducible assumption | with_reducible apply cmdDone_keeps | with_reducible apply graftCore_keeps | with_reducible refine Keeps.foldl ?_ _ ?_ | with_reducible refine Keeps.foldl_snd ?_ _ ?_ | intro _ | with_reducible refine Keeps.snd (by with_reducible assumption) ?_ | split)

theorem execGraft_keeps {a : State} {x1 x2 : _}  : Runs a (execGraft x1 x2) := by
  unfold execGraft
  repeat' (first | with_reducible assumption | with_reducible refine Runs.complete ?_ | with_reducible apply issue_keeps | with_reducible apply graftCmd_keeps | with_reducible refine Keeps.foldl ?_ _ ?_ | with_reducible refine Keeps.foldl_snd ?_ _ ?_ | intro _)

end Sys2Proof.Machine
end

