-- ==== Sys2Proof/Laws/KeepsXlateCmds.lean ====
section
/-! SUPPORT. What the operations of Machine/XlateCmds.lean keep (Laws/Keeps.lean). -/

namespace Sys2Proof.Machine

open Sys2Proof

theorem bindAsid_keeps {a : State} {x1 : _} {x2 : _} {s : State} (h : Keeps a s)  : Keeps a (bindAsid x1 x2 s) := by
  unfold bindAsid
  repeat' (first | with_reducible assumption | with_reducible apply cmdDone_keeps | with_reducible apply State.modXlt_keeps | with_reducible refine Keeps.foldl ?_ _ ?_ | with_reducible refine Keeps.foldl_snd ?_ _ ?_ | intro _ | with_reducible refine Keeps.snd (by with_reducible assumption) ?_ | split | dsimp only)

theorem execBind_keeps {a : State} {x1 x2 : _}  : Runs a (execBind x1 x2) := by
  unfold execBind
  repeat' (first | with_reducible assumption | with_reducible refine Runs.complete ?_ | with_reducible apply issue_keeps | with_reducible apply bindAsid_keeps | with_reducible refine Keeps.foldl ?_ _ ?_ | with_reducible refine Keeps.foldl_snd ?_ _ ?_ | intro _)

theorem endQueued_keeps {a : State} {x1 : _} {s : State} (h : Keeps a s)  : Keeps a (endQueued x1 s) := by
  unfold endQueued
  repeat' (first | with_reducible assumption | with_reducible apply completeReq_keeps | with_reducible apply State.modNmc_keeps | with_reducible apply takeEntry_keeps | with_reducible refine Keeps.foldl ?_ _ ?_ | with_reducible refine Keeps.foldl_snd ?_ _ ?_ | intro _ | with_reducible refine Keeps.snd (by with_reducible assumption) ?_ | split | dsimp only)

theorem unbindAsid_keeps {a : State} {x1 : _} {x2 : _} {s : State} (h : Keeps a s)  : Keeps a (unbindAsid x1 x2 s) := by
  unfold unbindAsid
  repeat' (first | with_reducible assumption | with_reducible apply cmdDone_keeps | with_reducible apply State.modXlt_keeps | with_reducible apply cancelJob_keeps | with_reducible apply unbindTry_keeps | with_reducible apply endQueued_keeps | with_reducible refine Keeps.foldl ?_ _ ?_ | with_reducible refine Keeps.foldl_snd ?_ _ ?_ | intro _ | with_reducible refine Keeps.snd (by with_reducible assumption) ?_ | split)

theorem execUnbind_keeps {a : State} {x1 x2 : _}  : Runs a (execUnbind x1 x2) := by
  unfold execUnbind
  repeat' (first | with_reducible assumption | with_reducible refine Runs.complete ?_ | with_reducible apply issue_keeps | with_reducible apply unbindAsid_keeps | with_reducible refine Keeps.foldl ?_ _ ?_ | with_reducible refine Keeps.foldl_snd ?_ _ ?_ | intro _)

theorem faultOver_keeps {a : State} {x1 : _} {x2 : _} {s : State} (h : Keeps a s)  : Keeps a (faultOver x1 x2 s) := by
  unfold faultOver
  repeat' (first | with_reducible assumption | with_reducible apply State.modXlt_keeps | with_reducible apply giveStations_keeps | with_reducible apply progress_keeps | with_reducible apply endJob_keeps | with_reducible refine Keeps.foldl ?_ _ ?_ | with_reducible refine Keeps.foldl_snd ?_ _ ?_ | intro _ | with_reducible refine Keeps.snd (by with_reducible assumption) ?_ | split)

theorem faultReply_keeps {a : State} {x1 : _} {x2 : _} {s : State} (h : Keeps a s)  : Keeps a (faultReply x1 x2 s).2 := by
  unfold faultReply
  repeat' (first | with_reducible assumption | with_reducible apply countRC_keeps | with_reducible apply rejected_keeps | with_reducible apply faultOver_keeps | with_reducible refine Keeps.foldl ?_ _ ?_ | with_reducible refine Keeps.foldl_snd ?_ _ ?_ | intro _ | with_reducible refine Keeps.snd (by with_reducible assumption) ?_ | split | dsimp only)

theorem execXltFaultResp_keeps {a : State} {x1 x2 : _}  : Runs a (execXltFaultResp x1 x2) := by
  unfold execXltFaultResp
  repeat' (first | with_reducible assumption | with_reducible refine Runs.complete ?_ | with_reducible apply faultReply_keeps)

theorem faultLate_keeps {a : State} {x1 : _} {s : State} (h : Keeps a s)  : Keeps a (faultLate x1 s) := by
  unfold faultLate
  repeat' (first | with_reducible assumption | with_reducible apply faultOver_keeps | with_reducible apply reach_keeps | with_reducible refine Keeps.foldl ?_ _ ?_ | with_reducible refine Keeps.foldl_snd ?_ _ ?_ | intro _ | with_reducible refine Keeps.snd (by with_reducible assumption) ?_ | split)

theorem execFaultTimeout_keeps {a : State} {x1 : _}  : Runs a (execFaultTimeout x1) := by
  unfold execFaultTimeout
  repeat' (first | with_reducible assumption | with_reducible refine Runs.complete ?_ | with_reducible apply faultLate_keeps)

theorem invalidate_keeps {a : State} {x1 : _} {s : State} (h : Keeps a s)  : Keeps a (invalidate x1 s) := by
  unfold invalidate
  repeat' (first | with_reducible assumption | with_reducible apply State.modXlt_keeps | with_reducible apply State.modNmc_keeps)

theorem invFinish_keeps {a : State} {x1 : _} {s : State} (h : Keeps a s)  : Keeps a (invFinish x1 s) := by
  unfold invFinish
  repeat' (first | with_reducible assumption | with_reducible apply State.modXlt_keeps | with_reducible apply doneMod_keeps | with_reducible apply advance_keeps | with_reducible refine Keeps.foldl ?_ _ ?_ | with_reducible refine Keeps.foldl_snd ?_ _ ?_ | intro _ | with_reducible refine Keeps.snd (by with_reducible assumption) ?_ | split)

theorem invStart_keeps {a : State} {x1 : _} {x2 : _} {s : State} (h : Keeps a s)  : Keeps a (invStart x1 x2 s).2 := by
  unfold invStart
  repeat' (first | with_reducible assumption | with_reducible apply doneMod_keeps | with_reducible apply rejected_keeps | with_reducible apply State.modXlt_keeps | with_reducible apply invalidate_keeps | with_reducible apply invFinish_keeps | with_reducible refine Keeps.foldl ?_ _ ?_ | with_reducible refine Keeps.foldl_snd ?_ _ ?_ | intro _ | with_reducible refine Keeps.snd (by with_reducible assumption) ?_ | split | dsimp only)

theorem execInvRange_keeps {a : State} {x1 : _}  : Runs a (execInvRange x1) := by
  unfold execInvRange
  repeat' (first | with_reducible assumption | with_reducible refine Runs.complete ?_ | with_reducible apply invStart_keeps)

theorem execInvAsid_keeps {a : State} {x1 : _}  : Runs a (execInvAsid x1) := by
  unfold execInvAsid
  repeat' (first | with_reducible assumption | with_reducible refine Runs.complete ?_ | with_reducible apply invStart_keeps)

theorem invComplete_keeps {a : State} {x1 : _} {s : State} (h : Keeps a s)  : Keeps a (invComplete x1 s) := by
  unfold invComplete
  repeat' (first | with_reducible assumption | with_reducible apply invFinish_keeps | with_reducible refine Keeps.foldl ?_ _ ?_ | with_reducible refine Keeps.foldl_snd ?_ _ ?_ | intro _ | with_reducible refine Keeps.snd (by with_reducible assumption) ?_ | split)

theorem execInvComplete_keeps {a : State} {x1 : _}  : Runs a (execInvComplete x1) := by
  unfold execInvComplete
  repeat' (first | with_reducible assumption | with_reducible refine Runs.complete ?_ | with_reducible apply invComplete_keeps)

theorem invBound_keeps {a : State} {x1 : _} {s : State} (h : Keeps a s)  : Keeps a (invBound x1 s) := by
  unfold invBound
  repeat' (first | with_reducible assumption | with_reducible apply reach_keeps | with_reducible apply invFinish_keeps | with_reducible apply State.modXlt_keeps | with_reducible apply commitFail_keeps | with_reducible apply restartJob_keeps | with_reducible refine Keeps.foldl ?_ _ ?_ | with_reducible refine Keeps.foldl_snd ?_ _ ?_ | intro _ | with_reducible refine Keeps.snd (by with_reducible assumption) ?_ | split | dsimp only)

theorem execInvDrainBound_keeps {a : State} {x1 : _}  : Runs a (execInvDrainBound x1) := by
  unfold execInvDrainBound
  repeat' (first | with_reducible assumption | with_reducible refine Runs.complete ?_ | with_reducible apply invBound_keeps)

theorem endHostRead_keeps {a : State} {x1 : _} {x2 : _} {x3 : _} {s : State} (h : Keeps a s)  : Keeps a (endHostRead x1 x2 x3 s) := by
  unfold endHostRead
  repeat' (first | with_reducible assumption | with_reducible apply State.modXlt_keeps | with_reducible apply issueHost_keeps | with_reducible apply jobAnswered_keeps)

theorem hostLineRead_keeps {a : State} {x1 : _} {x2 : _} {x3 : _} {s : State} (h : Keeps a s)  : Keeps a (hostLineRead x1 x2 x3 s) := by
  unfold hostLineRead
  repeat' (first | with_reducible assumption | with_reducible apply countHost_keeps | with_reducible apply endHostRead_keeps | with_reducible refine Keeps.foldl ?_ _ ?_ | with_reducible refine Keeps.foldl_snd ?_ _ ?_ | intro _ | with_reducible refine Keeps.snd (by with_reducible assumption) ?_ | split)

theorem rdAnswered_keeps {a : State} {x1 : _} {x2 : _} {x3 : _} {x4 : _} {s : State} (h : Keeps a s)  : Keeps a (rdAnswered x1 x2 x3 x4 s) := by
  unfold rdAnswered
  repeat' (first | with_reducible assumption | with_reducible apply telAdd_keeps | with_reducible apply State.modXlt_keeps | with_reducible apply hostLineRead_keeps | with_reducible refine Keeps.foldl ?_ _ ?_ | with_reducible refine Keeps.foldl_snd ?_ _ ?_ | intro _ | with_reducible refine Keeps.snd (by with_reducible assumption) ?_ | split)

theorem execRdcurrAnswer_keeps {a : State} {x1 x2 x3 x4 : _}  : Runs a (execRdcurrAnswer x1 x2 x3 x4) := by
  unfold execRdcurrAnswer
  repeat' (first | with_reducible assumption | with_reducible refine Runs.complete ?_ | with_reducible apply rdAnswered_keeps)

theorem hostLate_keeps {a : State} {x1 : _} {x2 : _} {s : State} (h : Keeps a s)  : Keeps a (hostLate x1 x2 s) := by
  unfold hostLate
  repeat' (first | with_reducible assumption | with_reducible apply endHostRead_keeps | with_reducible apply reach_keeps | with_reducible refine Keeps.foldl ?_ _ ?_ | with_reducible refine Keeps.foldl_snd ?_ _ ?_ | intro _ | with_reducible refine Keeps.snd (by with_reducible assumption) ?_ | split)

theorem execHostReadTimeout_keeps {a : State} {x1 x2 : _}  : Runs a (execHostReadTimeout x1 x2) := by
  unfold execHostReadTimeout
  repeat' (first | with_reducible assumption | with_reducible refine Runs.complete ?_ | with_reducible apply hostLate_keeps)

theorem execHotPageDecay_keeps {a : State}  : Runs a (execHotPageDecay ) := by
  unfold execHotPageDecay
  repeat' (first | with_reducible assumption | with_reducible refine Runs.complete ?_ | with_reducible apply State.modXlt_keeps | with_reducible apply elapsed_keeps | with_reducible refine Keeps.foldl ?_ _ ?_ | with_reducible refine Keeps.foldl_snd ?_ _ ?_ | intro _)

end Sys2Proof.Machine
end

