-- ==== Sys2Proof/Laws/KeepsExtents.lean ====
section
/-! SUPPORT. What the operations of Machine/Extents.lean keep (Laws/Keeps.lean). -/

namespace Sys2Proof.Machine

open Sys2Proof

theorem extJournal_keeps {a : State} {x1 : _} {x2 : _} {s : State} (h : Keeps a s)  : Keeps a (extJournal x1 x2 s) := by
  unfold extJournal
  repeat' (first | with_reducible assumption | with_reducible apply journalCtl_keeps | with_reducible apply State.modExt_keeps)

theorem setExt_keeps {a : State} {x1 : _} {x2 : _} {s : State} (h : Keeps a s)  : Keeps a (setExt x1 x2 s) := by
  unfold setExt
  repeat' (first | with_reducible assumption | with_reducible apply State.modExt_keeps)

theorem setExtState_keeps {a : State} {x1 : _} {x2 : _} {s : State} (h : Keeps a s)  : Keeps a (setExtState x1 x2 s) := by
  unfold setExtState
  repeat' (first | with_reducible assumption | with_reducible apply extJournal_keeps | with_reducible apply setExt_keeps)

theorem extEnd_keeps {a : State} {x1 : _} {x2 : _} {s : State} (h : Keeps a s)  : Keeps a (extEnd x1 x2 s) := by
  unfold extEnd
  repeat' (first | with_reducible assumption | with_reducible apply cmdDone_keeps | with_reducible apply State.modExt_keeps)

theorem updateComps_keeps {a : State} {s : State} (h : Keeps a s)  : Keeps a (updateComps s) := by
  unfold updateComps
  repeat' (first | with_reducible assumption | with_reducible apply State.modRas_keeps | with_reducible apply tell_keeps | with_reducible refine Keeps.foldl ?_ _ ?_ | with_reducible refine Keeps.foldl_snd ?_ _ ?_ | intro _)

theorem eraseExtent_keeps {a : State} {x1 : _} {s : State} (h : Keeps a s)  : Keeps a (eraseExtent x1 s) := by
  unfold eraseExtent
  repeat' (first | with_reducible assumption | with_reducible apply State.modTier_keeps | with_reducible apply State.modFlash_keeps | with_reducible apply State.modJrn_keeps | with_reducible apply State.modCoh_keeps | with_reducible apply State.modHome_keeps | with_reducible apply State.modCdc_keeps | with_reducible apply State.modExt_keeps | with_reducible refine Keeps.foldl ?_ _ ?_ | with_reducible refine Keeps.foldl_snd ?_ _ ?_ | (exact fun _ h => h) | (exact fun _ _ => rfl) | intro _ | with_reducible apply clearSpan_wf)

theorem assignExt_keeps {a : State} {x1 : _} {x2 : _} {s : State} (h : Keeps a s)  : Keeps a (assignExt x1 x2 s) := by
  unfold assignExt
  repeat' (first | with_reducible assumption | with_reducible apply State.modExt_keeps | with_reducible apply State.modFlash_keeps | with_reducible apply setExt_keeps | with_reducible apply State.modJrn_keeps | with_reducible apply State.modTier_keeps | with_reducible apply emit_keeps | with_reducible apply mirrorCtl_keeps | with_reducible apply updateComps_keeps | with_reducible apply extJournal_keeps | with_reducible refine Keeps.foldl ?_ _ ?_ | with_reducible refine Keeps.foldl_snd ?_ _ ?_ | (exact fun _ h => h) | (exact fun _ _ => rfl) | intro _ | with_reducible apply clearSpan_wf | with_reducible apply writeCells_wf | with_reducible apply putMasked_wf | with_reducible refine Keeps.snd (by with_reducible assumption) ?_ | split)

theorem assignRun_keeps {a : State} {x1 : _} {x2 : _} {s : State} (h : Keeps a s)  : Keeps a (assignRun x1 x2 s) := by
  unfold assignRun
  repeat' (first | with_reducible assumption | with_reducible apply cmdDone_keeps | with_reducible apply assignExt_keeps | with_reducible refine Keeps.foldl ?_ _ ?_ | with_reducible refine Keeps.foldl_snd ?_ _ ?_ | intro _ | with_reducible refine Keeps.snd (by with_reducible assumption) ?_ | split)

theorem applyPolicy_keeps {a : State} {x1 : _} {x2 : _} {s : State} (h : Keeps a s)  : Keeps a (applyPolicy x1 x2 s) := by
  unfold applyPolicy
  repeat' (first | with_reducible assumption | with_reducible apply State.modTier_keeps | with_reducible apply pinFrame_keeps | with_reducible apply modTag_keeps | with_reducible refine Keeps.foldl ?_ _ ?_ | with_reducible refine Keeps.foldl_snd ?_ _ ?_ | (exact fun _ h => h) | (exact fun _ _ => rfl) | intro _ | with_reducible apply clearSpan_wf | with_reducible apply writeCells_wf | with_reducible apply putMasked_wf | with_reducible refine Keeps.snd (by with_reducible assumption) ?_ | split | dsimp only)

theorem modifyRun_keeps {a : State} {x1 : _} {x2 : _} {s : State} (h : Keeps a s)  : Keeps a (modifyRun x1 x2 s) := by
  unfold modifyRun
  repeat' (first | with_reducible assumption | with_reducible apply cmdDone_keeps | with_reducible apply State.modExt_keeps | with_reducible apply extJournal_keeps | with_reducible refine Keeps.foldl ?_ _ ?_ | with_reducible refine Keeps.foldl_snd ?_ _ ?_ | intro _ | with_reducible refine Keeps.snd (by with_reducible assumption) ?_ | split | dsimp only)

theorem regionApply_keeps {a : State} {x1 : _} {x2 : _} {s : State} (h : Keeps a s)  : Keeps a (regionApply x1 x2 s) := by
  unfold regionApply
  repeat' (first | with_reducible assumption | with_reducible apply State.modExt_keeps | with_reducible apply setGranule_keeps | with_reducible apply journalCtl_keeps | with_reducible refine Keeps.foldl ?_ _ ?_ | with_reducible refine Keeps.foldl_snd ?_ _ ?_ | intro _ | with_reducible refine Keeps.snd (by with_reducible assumption) ?_ | split)

theorem regionRun_keeps {a : State} {x1 : _} {x2 : _} {x3 : _} {x4 : _} {s : State} (h : Keeps a s)  : Keeps a (regionRun x1 x2 x3 x4 s) := by
  unfold regionRun
  repeat' (first | with_reducible assumption | with_reducible apply cmdDone_keeps | with_reducible apply State.modExt_keeps | with_reducible apply regionApply_keeps | with_reducible apply extJournal_keeps | with_reducible refine Keeps.foldl ?_ _ ?_ | with_reducible refine Keeps.foldl_snd ?_ _ ?_ | intro _ | with_reducible refine Keeps.snd (by with_reducible assumption) ?_ | split | dsimp only)

theorem fenceExt_keeps {a : State} {x1 : _} {s : State} (h : Keeps a s)  : Keeps a (fenceExt x1 s) := by
  unfold fenceExt
  repeat' (first | with_reducible assumption | with_reducible apply setExtState_keeps | with_reducible apply emitAll_keeps | with_reducible apply State.modEmb_keeps | with_reducible apply recallLines_keeps)

theorem afterDrain_keeps {a : State} {s : State} (h : Keeps a s)  : Keeps a (afterDrain s) := by
  unfold afterDrain
  repeat' (first | with_reducible assumption | with_reducible apply postExt_keeps | with_reducible apply setExtState_keeps | with_reducible apply State.modExt_keeps | with_reducible apply updateComps_keeps | with_reducible refine Keeps.foldl ?_ _ ?_ | with_reducible refine Keeps.foldl_snd ?_ _ ?_ | intro _ | with_reducible refine Keeps.snd (by with_reducible assumption) ?_ | split)

theorem destroyKey_keeps {a : State} {x1 : _} {s : State} (h : Keeps a s)  : Keeps a (destroyKey x1 s) := by
  unfold destroyKey
  repeat' (first | with_reducible assumption | with_reducible apply setExtState_keeps | with_reducible apply State.modFlash_keeps | with_reducible apply State.modExt_keeps | with_reducible apply updateComps_keeps | with_reducible apply emitAll_keeps)

theorem extTry_keeps {a : State} {x1 : _} {s : State} (h : Keeps a s)  : Keeps a (extTry x1 s) := by
  induction x1 generalizing s  with
  | zero =>
    unfold extTry
    repeat' (with_reducible assumption)
  | succ k ih =>
    unfold extTry
    repeat' (first | with_reducible assumption | with_reducible apply ih | with_reducible apply afterDrain_keeps | with_reducible apply destroyKey_keeps | with_reducible apply setExtState_keeps | with_reducible apply eraseExtent_keeps | with_reducible apply extEnd_keeps | with_reducible apply withSome_keeps | with_reducible apply applyPolicy_keeps | with_reducible apply setExt_keeps | with_reducible refine Keeps.foldl ?_ _ ?_ | with_reducible refine Keeps.foldl_snd ?_ _ ?_ | intro _ | with_reducible refine Keeps.snd (by with_reducible assumption) ?_ | split)

theorem extGo_keeps {a : State} {s : State} (h : Keeps a s)  : Keeps a (extGo s) := by
  unfold extGo
  repeat' (first | with_reducible assumption | with_reducible apply extTry_keeps)

theorem beginRevoke_keeps {a : State} {x1 : _} {x2 : _} {s : State} (h : Keeps a s)  : Keeps a (beginRevoke x1 x2 s) := by
  unfold beginRevoke
  repeat' (first | with_reducible assumption | with_reducible apply State.modExt_keeps | with_reducible apply extGo_keeps | with_reducible apply pump_keeps | with_reducible apply updateComps_keeps | with_reducible apply fenceExt_keeps)

theorem abandonIn_keeps {a : State} {x1 : _} {s : State} (h : Keeps a s)  : Keeps a (abandonIn x1 s) := by
  unfold abandonIn
  repeat' (first | with_reducible assumption | with_reducible apply finish_keeps | with_reducible apply State.modHome_keeps | with_reducible apply endCopy_keeps | with_reducible apply endBarrier_keeps | with_reducible apply commitOwn_keeps | with_reducible apply commitFail_keeps | with_reducible apply embFail_keeps | with_reducible refine Keeps.foldl ?_ _ ?_ | with_reducible refine Keeps.foldl_snd ?_ _ ?_ | intro _ | with_reducible refine Keeps.snd (by with_reducible assumption) ?_ | split)

theorem drainBound_keeps {a : State} {s : State} (h : Keeps a s)  : Keeps a (drainBound s) := by
  unfold drainBound
  repeat' (first | with_reducible assumption | with_reducible apply reach_keeps | with_reducible apply extGo_keeps | with_reducible apply pump_keeps | with_reducible apply afterDrain_keeps | with_reducible apply abandonIn_keeps | with_reducible refine Keeps.foldl ?_ _ ?_ | with_reducible refine Keeps.foldl_snd ?_ _ ?_ | intro _ | with_reducible refine Keeps.snd (by with_reducible assumption) ?_ | split)

theorem revokeRun_keeps {a : State} {x1 : _} {s : State} (h : Keeps a s)  : Keeps a (revokeRun x1 s) := by
  unfold revokeRun
  repeat' (first | with_reducible assumption | with_reducible apply cmdDone_keeps | with_reducible apply beginRevoke_keeps | with_reducible refine Keeps.foldl ?_ _ ?_ | with_reducible refine Keeps.foldl_snd ?_ _ ?_ | intro _ | with_reducible refine Keeps.snd (by with_reducible assumption) ?_ | split)

theorem restoreRun_keeps {a : State} {x1 : _} {s : State} (h : Keeps a s)  : Keeps a (restoreRun x1 s) := by
  unfold restoreRun
  repeat' (first | with_reducible assumption | with_reducible apply cmdDone_keeps | with_reducible apply extGo_keeps | with_reducible apply updateComps_keeps | with_reducible apply setExtState_keeps | with_reducible apply State.modExt_keeps | with_reducible refine Keeps.foldl ?_ _ ?_ | with_reducible refine Keeps.foldl_snd ?_ _ ?_ | intro _ | with_reducible refine Keeps.snd (by with_reducible assumption) ?_ | split)

theorem releaseRun_keeps {a : State} {x1 : _} {s : State} (h : Keeps a s)  : Keeps a (releaseRun x1 s) := by
  unfold releaseRun
  repeat' (first | with_reducible assumption | with_reducible apply beginRevoke_keeps | with_reducible apply extGo_keeps | with_reducible apply State.modExt_keeps | with_reducible apply cmdDone_keeps | with_reducible refine Keeps.foldl ?_ _ ?_ | with_reducible refine Keeps.foldl_snd ?_ _ ?_ | intro _ | with_reducible refine Keeps.snd (by with_reducible assumption) ?_ | split)

theorem extCommand_keeps {a : State} {x1 : _} {x2 : _} {s : State} (hx2 : ∀ y0, Keeps a y0 → Keeps a (x2 y0)) (h : Keeps a s)  : Keeps a (extCommand x1 x2 s) := by
  unfold extCommand
  repeat' (first | with_reducible assumption | with_reducible apply issue_keeps)

theorem execAssign_keeps {a : State} {x1 x2 : _}  : Runs a (execAssign x1 x2) := by
  unfold execAssign
  repeat' (first | with_reducible assumption | with_reducible refine Runs.complete ?_ | with_reducible apply extCommand_keeps | with_reducible apply extGo_keeps | with_reducible apply assignRun_keeps | with_reducible refine Keeps.foldl ?_ _ ?_ | with_reducible refine Keeps.foldl_snd ?_ _ ?_ | intro _)

theorem execModify_keeps {a : State} {x1 x2 : _}  : Runs a (execModify x1 x2) := by
  unfold execModify
  repeat' (first | with_reducible assumption | with_reducible refine Runs.complete ?_ | with_reducible apply extCommand_keeps | with_reducible apply extGo_keeps | with_reducible apply modifyRun_keeps | with_reducible refine Keeps.foldl ?_ _ ?_ | with_reducible refine Keeps.foldl_snd ?_ _ ?_ | intro _)

theorem execRegion_keeps {a : State} {x1 x2 x3 x4 : _}  : Runs a (execRegion x1 x2 x3 x4) := by
  unfold execRegion
  repeat' (first | with_reducible assumption | with_reducible refine Runs.complete ?_ | with_reducible apply extCommand_keeps | with_reducible apply extGo_keeps | with_reducible apply regionRun_keeps | with_reducible refine Keeps.foldl ?_ _ ?_ | with_reducible refine Keeps.foldl_snd ?_ _ ?_ | intro _)

theorem execRevoke_keeps {a : State} {x1 x2 : _}  : Runs a (execRevoke x1 x2) := by
  unfold execRevoke
  repeat' (first | with_reducible assumption | with_reducible refine Runs.complete ?_ | with_reducible apply extCommand_keeps | with_reducible apply revokeRun_keeps | with_reducible refine Keeps.foldl ?_ _ ?_ | with_reducible refine Keeps.foldl_snd ?_ _ ?_ | intro _)

theorem execRevokeDrainComplete_keeps {a : State}  : Runs a (execRevokeDrainComplete ) := by
  unfold execRevokeDrainComplete
  repeat' (first | with_reducible assumption | with_reducible refine Runs.complete ?_ | with_reducible apply extGo_keeps)

theorem execRevokeDrainBound_keeps {a : State}  : Runs a (execRevokeDrainBound ) := by
  unfold execRevokeDrainBound
  repeat' (first | with_reducible assumption | with_reducible refine Runs.complete ?_ | with_reducible apply drainBound_keeps)

theorem execRestore_keeps {a : State} {x1 x2 : _}  : Runs a (execRestore x1 x2) := by
  unfold execRestore
  repeat' (first | with_reducible assumption | with_reducible refine Runs.complete ?_ | with_reducible apply extCommand_keeps | with_reducible apply restoreRun_keeps | with_reducible refine Keeps.foldl ?_ _ ?_ | with_reducible refine Keeps.foldl_snd ?_ _ ?_ | intro _)

theorem execExtentRelease_keeps {a : State} {x1 x2 : _}  : Runs a (execExtentRelease x1 x2) := by
  unfold execExtentRelease
  repeat' (first | with_reducible assumption | with_reducible refine Runs.complete ?_ | with_reducible apply extCommand_keeps | with_reducible apply releaseRun_keeps | with_reducible refine Keeps.foldl ?_ _ ?_ | with_reducible refine Keeps.foldl_snd ?_ _ ?_ | intro _)

theorem execFlashTrim_keeps {a : State} {x1 : _}  : Runs a (execFlashTrim x1) := by
  unfold execFlashTrim
  repeat' (first | with_reducible assumption | with_reducible refine Runs.complete ?_ | with_reducible apply State.modExt_keeps | with_reducible refine Keeps.foldl ?_ _ ?_ | with_reducible refine Keeps.foldl_snd ?_ _ ?_ | intro _)

theorem dropKeyOf_keeps {a : State} {x1 : _} {x2 : _} {s : State} (h : Keeps a s)  : Keeps a (dropKeyOf x1 x2 s) := by
  unfold dropKeyOf
  repeat' (first | with_reducible assumption | with_reducible apply State.modFlash_keeps | with_reducible apply State.modJrn_keeps | with_reducible apply State.modFlt_keeps)

theorem execKeyDestroy_keeps {a : State} {x1 x2 : _}  : Runs a (execKeyDestroy x1 x2) := by
  unfold execKeyDestroy
  repeat' (first | with_reducible assumption | with_reducible refine Runs.complete ?_ | with_reducible apply emit_keeps | with_reducible apply dropKeyOf_keeps | with_reducible refine Keeps.foldl ?_ _ ?_ | with_reducible refine Keeps.foldl_snd ?_ _ ?_ | intro _)

end Sys2Proof.Machine
end

