-- ==== Sys2Proof/Laws/KeepsHostPorts.lean ====
section
/-! SUPPORT. What the operations of Machine/HostPorts.lean keep (Laws/Keeps.lean). -/

namespace Sys2Proof.Machine

open Sys2Proof

theorem hostRec_keeps {a : State} {x1 : _} {x2 : _} {x3 : _} {s : State} (h : Keeps a s)  : Keeps a (hostRec x1 x2 x3 s) := by
  unfold hostRec
  repeat' (first | with_reducible assumption | with_reducible apply raise_keeps)

theorem dropReq_keeps {a : State} {x1 : _} {s : State} (h : Keeps a s)  : Keeps a (dropReq x1 s) := by
  unfold dropReq
  repeat' (first | with_reducible assumption | with_reducible apply State.modHp_keeps)

theorem setReq_keeps {a : State} {x1 : _} {s : State} (h : Keeps a s)  : Keeps a (setReq x1 s) := by
  unfold setReq
  repeat' (first | with_reducible assumption | with_reducible apply State.modHp_keeps)

theorem hpBytes_keeps {a : State} {x1 : _} {x2 : _} {s : State} (h : Keeps a s)  : Keeps a (hpBytes x1 x2 s) := by
  unfold hpBytes
  repeat' (first | with_reducible assumption | with_reducible apply telAdd_keeps)

theorem sendData_keeps {a : State} {x1 : _} {x2 : _} {s : State} (h : Keeps a s)  : Keeps a (sendData x1 x2 s) := by
  unfold sendData
  repeat' (first | with_reducible assumption | with_reducible apply hpBytes_keeps | with_reducible apply emit_keeps)

theorem present_keeps {a : State} {x1 : _} {x2 : _} {x3 : _} {x4 : _} {s : State} (h : Keeps a s)  : Keeps a (present x1 x2 x3 x4 s) := by
  unfold present
  repeat' (first | with_reducible assumption | with_reducible apply dropReq_keeps | with_reducible apply sendData_keeps | with_reducible apply emit_keeps | with_reducible apply hostRec_keeps | with_reducible apply postFor_keeps | with_reducible refine Keeps.foldl ?_ _ ?_ | with_reducible refine Keeps.foldl_snd ?_ _ ?_ | intro _ | with_reducible refine Keeps.snd (by with_reducible assumption) ?_ | split)

theorem refuseHost_keeps {a : State} {x1 : _} {x2 : _} {s : State} (h : Keeps a s)  : Keeps a (refuseHost x1 x2 s) := by
  unfold refuseHost
  repeat' (first | with_reducible assumption | with_reducible apply present_keeps)

theorem dropEnt_keeps {a : State} {x1 : _} {s : State} (h : Keeps a s)  : Keeps a (dropEnt x1 s) := by
  unfold dropEnt
  repeat' (first | with_reducible assumption | with_reducible apply State.modHp_keeps)

theorem putEnt_keeps {a : State} {x1 : _} {s : State} (h : Keeps a s)  : Keeps a (putEnt x1 s) := by
  unfold putEnt
  repeat' (first | with_reducible assumption | with_reducible apply State.modHp_keeps)

theorem portTag_keeps {a : State} {s : State} (h : Keeps a s)  : Keeps a (portTag s).2 := by
  unfold portTag
  repeat' (first | with_reducible assumption | with_reducible apply State.modHp_keeps)

theorem asAgent_keeps {a : State} {x1 : _} {x2 : _} {x3 : _} {x4 : _} {s : State} (h : Keeps a s)  : Keeps a (asAgent x1 x2 x3 x4 s) := by
  unfold asAgent
  repeat' (first | with_reducible assumption | with_reducible apply emit_keeps)

theorem giveUp_keeps {a : State} {x1 : _} {s : State} (h : Keeps a s)  : Keeps a (giveUp x1 s) := by
  unfold giveUp
  repeat' (first | with_reducible assumption | with_reducible apply portTag_keeps | with_reducible apply asAgent_keeps | with_reducible apply putEnt_keeps)

theorem sendBi_keeps {a : State} {x1 : _} {x2 : _} {s : State} (h : Keeps a s)  : Keeps a (sendBi x1 x2 s) := by
  unfold sendBi
  repeat' (first | with_reducible assumption | with_reducible apply emit_keeps | with_reducible refine Keeps.foldl ?_ _ ?_ | with_reducible refine Keeps.foldl_snd ?_ _ ?_ | intro _ | with_reducible refine Keeps.snd (by with_reducible assumption) ?_ | split)

theorem recallEnt_keeps {a : State} {x1 : _} {s : State} (h : Keeps a s)  : Keeps a (recallEnt x1 s) := by
  unfold recallEnt
  repeat' (first | with_reducible assumption | with_reducible apply giveUp_keeps | with_reducible apply sendBi_keeps | with_reducible apply putEnt_keeps | with_reducible refine Keeps.foldl ?_ _ ?_ | with_reducible refine Keeps.foldl_snd ?_ _ ?_ | intro _ | with_reducible refine Keeps.snd (by with_reducible assumption) ?_ | split)

theorem sendHost_keeps {a : State} {x1 : _} {x2 : _} {x3 : _} {s : State} (h : Keeps a s)  : Keeps a (sendHost x1 x2 x3 s).2 := by
  unfold sendHost
  repeat' (first | with_reducible assumption | with_reducible apply track_keeps | with_reducible apply emit_keeps | with_reducible apply State.modHome_keeps | with_reducible refine Keeps.foldl ?_ _ ?_ | with_reducible refine Keeps.foldl_snd ?_ _ ?_ | intro _ | with_reducible refine Keeps.snd (by with_reducible assumption) ?_ | split | dsimp only)

theorem serveHit_keeps {a : State} {x1 : _} {x2 : _} {s : State} (h : Keeps a s)  : Keeps a (serveHit x1 x2 s) := by
  unfold serveHit
  repeat' (first | with_reducible assumption | with_reducible apply present_keeps | with_reducible apply putEnt_keeps)

theorem serveCoh_keeps {a : State} {x1 : _} {s : State} (h : Keeps a s)  : Keeps a (serveCoh x1 s) := by
  unfold serveCoh
  repeat' (first | with_reducible assumption | with_reducible apply portTag_keeps | with_reducible apply emit_keeps | with_reducible apply setReq_keeps | with_reducible apply refuseHost_keeps | with_reducible apply serveHit_keeps | with_reducible apply recallEnt_keeps | with_reducible refine Keeps.foldl ?_ _ ?_ | with_reducible refine Keeps.foldl_snd ?_ _ ?_ | intro _ | with_reducible refine Keeps.snd (by with_reducible assumption) ?_ | split)

theorem serveHost_keeps {a : State} {x1 : _} {s : State} (h : Keeps a s)  : Keeps a (serveHost x1 s) := by
  unfold serveHost
  repeat' (first | with_reducible assumption | with_reducible apply sendHost_keeps | with_reducible apply refuseHost_keeps | with_reducible apply setReq_keeps | with_reducible apply serveCoh_keeps | with_reducible refine Keeps.foldl ?_ _ ?_ | with_reducible refine Keeps.foldl_snd ?_ _ ?_ | intro _ | with_reducible refine Keeps.snd (by with_reducible assumption) ?_ | split)

theorem flrPump_keeps {a : State} {s : State} (h : Keeps a s)  : Keeps a (flrPump s) := by
  unfold flrPump
  repeat' (first | with_reducible assumption | with_reducible apply emitAll_keeps | with_reducible apply State.modHp_keeps | with_reducible refine Keeps.foldl ?_ _ ?_ | with_reducible refine Keeps.foldl_snd ?_ _ ?_ | intro _ | with_reducible refine Keeps.snd (by with_reducible assumption) ?_ | split | dsimp only)

theorem hostPump_keeps {a : State} {s : State} (h : Keeps a s)  : Keeps a (hostPump s) := by
  unfold hostPump
  repeat' (first | with_reducible assumption | with_reducible apply flrPump_keeps | with_reducible apply serveHost_keeps | with_reducible refine Keeps.foldl ?_ _ ?_ | with_reducible refine Keeps.foldl_snd ?_ _ ?_ | intro _ | with_reducible refine Keeps.snd (by with_reducible assumption) ?_ | split | dsimp only)

theorem enterHost_keeps {a : State} {x1 : _} {x2 : _} {x3 : _} {x4 : _} {x5 : _} {s : State} (h : Keeps a s)  : Keeps a (enterHost x1 x2 x3 x4 x5 s) := by
  unfold enterHost
  repeat' (first | with_reducible assumption | with_reducible apply refuseHost_keeps | with_reducible apply hostPump_keeps | with_reducible apply State.modHp_keeps | with_reducible refine Keeps.foldl ?_ _ ?_ | with_reducible refine Keeps.foldl_snd ?_ _ ?_ | intro _ | with_reducible refine Keeps.snd (by with_reducible assumption) ?_ | split | dsimp only)

theorem hostWriteBack_keeps {a : State} {x1 : _} {x2 : _} {x3 : _} {x4 : _} {x5 : _} {s : State} (h : Keeps a s)  : Keeps a (hostWriteBack x1 x2 x3 x4 x5 s) := by
  unfold hostWriteBack
  repeat' (first | with_reducible assumption | with_reducible apply emit_keeps | with_reducible apply countRC_keeps | with_reducible apply giveUp_keeps | with_reducible apply putEnt_keeps | with_reducible refine Keeps.foldl ?_ _ ?_ | with_reducible refine Keeps.foldl_snd ?_ _ ?_ | intro _ | with_reducible refine Keeps.snd (by with_reducible assumption) ?_ | split | dsimp only)

theorem memAccess_keeps {a : State} {x1 : _} {x2 : _} {x3 : _} {x4 : _} {x5 : _} {s : State} (h : Keeps a s)  : Keeps a (memAccess x1 x2 x3 x4 x5 s) := by
  unfold memAccess
  repeat' (first | with_reducible assumption | with_reducible apply enterHost_keeps)

theorem execMemrd_keeps {a : State} {x1 x2 x3 x4 : _}  : Runs a (execMemrd x1 x2 x3 x4) := by
  unfold execMemrd
  repeat' (first | with_reducible assumption | with_reducible refine Runs.complete ?_ | with_reducible apply memAccess_keeps)

theorem execMemwr_keeps {a : State} {x1 x2 x3 x4 x5 x6 : _}  : Runs a (execMemwr x1 x2 x3 x4 x5 x6) := by
  unfold execMemwr
  repeat' (first | with_reducible assumption | with_reducible refine Runs.complete ?_ | with_reducible apply memAccess_keeps | with_reducible apply hpBytes_keeps | with_reducible apply hostPump_keeps | with_reducible apply hostWriteBack_keeps | with_reducible refine Keeps.foldl ?_ _ ?_ | with_reducible refine Keeps.foldl_snd ?_ _ ?_ | intro _ | with_reducible refine Keeps.snd (by with_reducible assumption) ?_ | split | dsimp only)

theorem execMemwrptl_keeps {a : State} {x1 x2 x3 x4 x5 x6 : _}  : Runs a (execMemwrptl x1 x2 x3 x4 x5 x6) := by
  unfold execMemwrptl
  repeat' (first | with_reducible assumption | with_reducible refine Runs.complete ?_ | with_reducible apply emit_keeps | with_reducible apply memAccess_keeps | with_reducible apply hpBytes_keeps | with_reducible refine Keeps.foldl ?_ _ ?_ | with_reducible refine Keeps.foldl_snd ?_ _ ?_ | intro _ | with_reducible refine Keeps.snd (by with_reducible assumption) ?_ | split)

theorem execMeminv_keeps {a : State} {x1 x2 x3 : _}  : Runs a (execMeminv x1 x2 x3) := by
  unfold execMeminv
  repeat' (first | with_reducible assumption | with_reducible refine Runs.complete ?_ | with_reducible apply memAccess_keeps)

theorem modLink_keeps {a : State} {x1 : _} {x2 : _} {x3 : _} {s : State} (h : Keeps a s)  : Keeps a (modLink x1 x2 x3 s) := by
  unfold modLink
  repeat' (first | with_reducible assumption | with_reducible apply State.modHp_keeps)

theorem hostFlit_keeps {a : State} {x1 : _} {x2 : _} {s : State} (h : Keeps a s)  : Keeps a (hostFlit x1 x2 s) := by
  unfold hostFlit
  repeat' (first | with_reducible assumption | with_reducible apply modLink_keeps | with_reducible apply emit_keeps | with_reducible refine Keeps.foldl ?_ _ ?_ | with_reducible refine Keeps.foldl_snd ?_ _ ?_ | intro _ | with_reducible refine Keeps.snd (by with_reducible assumption) ?_ | split)

theorem execHostAccess_keeps {a : State} {x1 x2 x3 : _}  : Runs a (execHostAccess x1 x2 x3) := by
  unfold execHostAccess
  repeat' (first | with_reducible assumption | with_reducible refine Runs.complete ?_ | with_reducible apply hostFlit_keeps | with_reducible apply enterHost_keeps | with_reducible refine Keeps.foldl ?_ _ ?_ | with_reducible refine Keeps.foldl_snd ?_ _ ?_ | intro _ | with_reducible refine Keeps.snd (by with_reducible assumption) ?_ | split)

theorem hostAnswered_keeps {a : State} {x1 : _} {x2 : _} {x3 : _} {s : State} (h : Keeps a s)  : Keeps a (hostAnswered x1 x2 x3 s) := by
  unfold hostAnswered
  repeat' (first | with_reducible assumption | with_reducible apply hostPump_keeps | with_reducible apply countRC_keeps | with_reducible apply setReq_keeps | with_reducible apply present_keeps | with_reducible refine Keeps.foldl ?_ _ ?_ | with_reducible refine Keeps.foldl_snd ?_ _ ?_ | intro _ | with_reducible refine Keeps.snd (by with_reducible assumption) ?_ | split | dsimp only)

theorem reissue_keeps {a : State} {x1 : _} {x2 : _} {s : State} (h : Keeps a s)  : Keeps a (reissue x1 x2 s) := by
  unfold reissue
  repeat' (first | with_reducible assumption | with_reducible apply hostPump_keeps | with_reducible apply setReq_keeps | with_reducible apply reach_keeps | with_reducible refine Keeps.foldl ?_ _ ?_ | with_reducible refine Keeps.foldl_snd ?_ _ ?_ | intro _ | with_reducible refine Keeps.snd (by with_reducible assumption) ?_ | split)

theorem execHoldReissue_keeps {a : State} {x1 x2 : _}  : Runs a (execHoldReissue x1 x2) := by
  unfold execHoldReissue
  repeat' (first | with_reducible assumption | with_reducible refine Runs.complete ?_ | with_reducible apply reissue_keeps)

theorem holdExpired_keeps {a : State} {x1 : _} {x2 : _} {s : State} (h : Keeps a s)  : Keeps a (holdExpired x1 x2 s) := by
  unfold holdExpired
  repeat' (first | with_reducible assumption | with_reducible apply reach_keeps | with_reducible apply hostPump_keeps | with_reducible apply refuseHost_keeps | with_reducible refine Keeps.foldl ?_ _ ?_ | with_reducible refine Keeps.foldl_snd ?_ _ ?_ | intro _ | with_reducible refine Keeps.snd (by with_reducible assumption) ?_ | split)

theorem execHoldMaxExpire_keeps {a : State} {x1 x2 : _}  : Runs a (execHoldMaxExpire x1 x2) := by
  unfold execHoldMaxExpire
  repeat' (first | with_reducible assumption | with_reducible refine Runs.complete ?_ | with_reducible apply holdExpired_keeps)

theorem agentZ_keeps {a : State} {x1 : _} {s : State} (h : Keeps a s)  : Keeps a (agentZ x1 s) := by
  unfold agentZ
  repeat' (first | with_reducible assumption | with_reducible apply countRC_keeps)

theorem granted_keeps {a : State} {x1 : _} {x2 : _} {x3 : _} {x4 : _} {x5 : _} {s : State} (h : Keeps a s)  : Keeps a (granted x1 x2 x3 x4 x5 s) := by
  unfold granted
  repeat' (first | with_reducible assumption | with_reducible apply agentZ_keeps | with_reducible apply hostPump_keeps | with_reducible apply serveHit_keeps | with_reducible refine Keeps.foldl ?_ _ ?_ | with_reducible refine Keeps.foldl_snd ?_ _ ?_ | intro _ | with_reducible refine Keeps.snd (by with_reducible assumption) ?_ | split)

theorem execGntS_keeps {a : State} {x1 x2 x3 x4 : _}  : Runs a (execGntS x1 x2 x3 x4) := by
  unfold execGntS
  repeat' (first | with_reducible assumption | with_reducible refine Runs.complete ?_ | with_reducible apply granted_keeps)

theorem execGntE_keeps {a : State} {x1 x2 x3 x4 : _}  : Runs a (execGntE x1 x2 x3 x4) := by
  unfold execGntE
  repeat' (first | with_reducible assumption | with_reducible refine Runs.complete ?_ | with_reducible apply granted_keeps)

theorem execGntEND_keeps {a : State} {x1 x2 x3 : _}  : Runs a (execGntEND x1 x2 x3) := by
  unfold execGntEND
  repeat' (first | with_reducible assumption | with_reducible refine Runs.complete ?_ | with_reducible apply agentZ_keeps | with_reducible apply hostPump_keeps | with_reducible apply serveHit_keeps | with_reducible refine Keeps.foldl ?_ _ ?_ | with_reducible refine Keeps.foldl_snd ?_ _ ?_ | intro _ | with_reducible refine Keeps.snd (by with_reducible assumption) ?_ | split)

theorem execCmpWb_keeps {a : State} {x1 x2 x3 x4 : _}  : Runs a (execCmpWb x1 x2 x3 x4) := by
  unfold execCmpWb
  repeat' (first | with_reducible assumption | with_reducible refine Runs.complete ?_ | with_reducible apply hostPump_keeps | with_reducible apply dropEnt_keeps | with_reducible apply agentZ_keeps | with_reducible refine Keeps.foldl ?_ _ ?_ | with_reducible refine Keeps.foldl_snd ?_ _ ?_ | intro _ | with_reducible refine Keeps.snd (by with_reducible assumption) ?_ | split)

theorem execNack_keeps {a : State} {x1 x2 x3 x4 x5 : _}  : Runs a (execNack x1 x2 x3 x4 x5) := by
  unfold execNack
  repeat' (first | with_reducible assumption | with_reducible refine Runs.complete ?_ | with_reducible apply agentZ_keeps | with_reducible apply setReq_keeps | with_reducible apply hostPump_keeps | with_reducible apply refuseHost_keeps | with_reducible refine Keeps.foldl ?_ _ ?_ | with_reducible refine Keeps.foldl_snd ?_ _ ?_ | intro _ | with_reducible refine Keeps.snd (by with_reducible assumption) ?_ | split)

theorem snoopDone_keeps {a : State} {x1 : _} {s : State} (h : Keeps a s)  : Keeps a (snoopDone x1 s) := by
  unfold snoopDone
  repeat' (first | with_reducible assumption | with_reducible apply giveUp_keeps | with_reducible apply asAgent_keeps | with_reducible apply dropEnt_keeps | with_reducible apply putEnt_keeps | with_reducible refine Keeps.foldl ?_ _ ?_ | with_reducible refine Keeps.foldl_snd ?_ _ ?_ | intro _ | with_reducible refine Keeps.snd (by with_reducible assumption) ?_ | split)

theorem snooped_keeps {a : State} {x1 : _} {x2 : _} {x3 : _} {x4 : _} {s : State} (h : Keeps a s)  : Keeps a (snooped x1 x2 x3 x4 s) := by
  unfold snooped
  repeat' (first | with_reducible assumption | with_reducible apply asAgent_keeps | with_reducible apply putEnt_keeps | with_reducible apply hostPump_keeps | with_reducible apply snoopDone_keeps | with_reducible apply sendBi_keeps | with_reducible refine Keeps.foldl ?_ _ ?_ | with_reducible refine Keeps.foldl_snd ?_ _ ?_ | intro _ | with_reducible refine Keeps.snd (by with_reducible assumption) ?_ | split)

theorem execSnpInv_keeps {a : State} {x1 x2 x3 : _}  : Runs a (execSnpInv x1 x2 x3) := by
  unfold execSnpInv
  repeat' (first | with_reducible assumption | with_reducible refine Runs.complete ?_ | with_reducible apply snooped_keeps)

theorem execSnpData_keeps {a : State} {x1 x2 x3 : _}  : Runs a (execSnpData x1 x2 x3) := by
  unfold execSnpData
  repeat' (first | with_reducible assumption | with_reducible refine Runs.complete ?_ | with_reducible apply snooped_keeps)

theorem execSnpCur_keeps {a : State} {x1 x2 x3 : _}  : Runs a (execSnpCur x1 x2 x3) := by
  unfold execSnpCur
  repeat' (first | with_reducible assumption | with_reducible refine Runs.complete ?_ | with_reducible apply snooped_keeps)

theorem biAnswered_keeps {a : State} {x1 : _} {x2 : _} {x3 : _} {x4 : _} {x5 : _} {s : State} (h : Keeps a s)  : Keeps a (biAnswered x1 x2 x3 x4 x5 s) := by
  unfold biAnswered
  repeat' (first | with_reducible assumption | with_reducible apply agentZ_keeps | with_reducible apply putEnt_keeps | with_reducible apply hostPump_keeps | with_reducible apply snoopDone_keeps | with_reducible refine Keeps.foldl ?_ _ ?_ | with_reducible refine Keeps.foldl_snd ?_ _ ?_ | intro _ | with_reducible refine Keeps.snd (by with_reducible assumption) ?_ | split | dsimp only)

theorem execBirsp_keeps {a : State} {x1 x2 x3 x4 x5 : _}  : Runs a (execBirsp x1 x2 x3 x4 x5) := by
  unfold execBirsp
  repeat' (first | with_reducible assumption | with_reducible refine Runs.complete ?_ | with_reducible apply biAnswered_keeps | with_reducible apply hpBytes_keeps | with_reducible refine Keeps.foldl ?_ _ ?_ | with_reducible refine Keeps.foldl_snd ?_ _ ?_ | intro _ | with_reducible refine Keeps.snd (by with_reducible assumption) ?_ | split)

theorem execH2dSnoop_keeps {a : State} {x1 x2 : _}  : Runs a (execH2dSnoop x1 x2) := by
  unfold execH2dSnoop
  repeat' (first | with_reducible assumption | with_reducible refine Runs.complete ?_ | with_reducible apply emit_keeps | with_reducible refine Keeps.foldl ?_ _ ?_ | with_reducible refine Keeps.foldl_snd ?_ _ ?_ | intro _)

theorem setAper_keeps {a : State} {x1 : _} {x2 : _} {x3 : _} {s : State} (h : Keeps a s)  : Keeps a (setAper x1 x2 x3 s) := by
  unfold setAper
  repeat' (first | with_reducible assumption | with_reducible apply State.modHp_keeps)

theorem aperGive_keeps {a : State} {x1 : _} {x2 : _} {x3 : _} {x4 : _} {s : State} (h : Keeps a s)  : Keeps a (aperGive x1 x2 x3 x4 s) := by
  unfold aperGive
  repeat' (first | with_reducible assumption | with_reducible apply emit_keeps | with_reducible apply State.draw_keeps | with_reducible refine Keeps.foldl ?_ _ ?_ | with_reducible refine Keeps.foldl_snd ?_ _ ?_ | intro _ | with_reducible refine Keeps.snd (by with_reducible assumption) ?_ | split)

theorem aperAnswered_keeps {a : State} {x1 : _} {x2 : _} {x3 : _} {s : State} (h : Keeps a s)  : Keeps a (aperAnswered x1 x2 x3 s) := by
  unfold aperAnswered
  repeat' (first | with_reducible assumption | with_reducible apply countRC_keeps | with_reducible apply aperGive_keeps | with_reducible apply setAper_keeps | with_reducible refine Keeps.foldl ?_ _ ?_ | with_reducible refine Keeps.foldl_snd ?_ _ ?_ | intro _ | with_reducible refine Keeps.snd (by with_reducible assumption) ?_ | split)

theorem aperSend_keeps {a : State} {x1 : _} {x2 : _} {x3 : _} {s : State} (h : Keeps a s)  : Keeps a (aperSend x1 x2 x3 s) := by
  unfold aperSend
  repeat' (first | with_reducible assumption | with_reducible apply aperAnswered_keeps | with_reducible apply sendHost_keeps | with_reducible refine Keeps.foldl ?_ _ ?_ | with_reducible refine Keeps.foldl_snd ?_ _ ?_ | intro _ | with_reducible refine Keeps.snd (by with_reducible assumption) ?_ | split)

theorem aperGo_keeps {a : State} {x1 : _} {x2 : _} {x3 : _} {s : State} (h : Keeps a s)  : Keeps a (aperGo x1 x2 x3 s) := by
  unfold aperGo
  repeat' (first | with_reducible assumption | with_reducible apply hostRec_keeps | with_reducible apply countRC_keeps | with_reducible apply setAper_keeps | with_reducible apply aperSend_keeps | with_reducible refine Keeps.foldl ?_ _ ?_ | with_reducible refine Keeps.foldl_snd ?_ _ ?_ | intro _ | with_reducible refine Keeps.snd (by with_reducible assumption) ?_ | split | dsimp only)

theorem aperPump_keeps {a : State} {s : State} (h : Keeps a s)  : Keeps a (aperPump s) := by
  unfold aperPump
  repeat' (first | with_reducible assumption | with_reducible apply aperSend_keeps | with_reducible apply setAper_keeps | with_reducible refine Keeps.foldl ?_ _ ?_ | with_reducible refine Keeps.foldl_snd ?_ _ ?_ | intro _ | with_reducible refine Keeps.snd (by with_reducible assumption) ?_ | split | dsimp only)

theorem execApertureGo_keeps {a : State} {x1 x2 x3 : _}  : Runs a (execApertureGo x1 x2 x3) := by
  unfold execApertureGo
  repeat' (first | with_reducible assumption | with_reducible refine Runs.complete ?_ | with_reducible apply aperGo_keeps)

theorem aperRead_keeps {a : State} {x1 : _} {x2 : _} {x3 : _} {s : State} (h : Keeps a s)  : Keeps a (aperRead x1 x2 x3 s) := by
  unfold aperRead
  repeat' (first | with_reducible assumption | with_reducible apply aperGive_keeps | with_reducible apply setAper_keeps | with_reducible refine Keeps.foldl ?_ _ ?_ | with_reducible refine Keeps.foldl_snd ?_ _ ?_ | intro _ | with_reducible refine Keeps.snd (by with_reducible assumption) ?_ | split)

theorem execApertureRead_keeps {a : State} {x1 x2 x3 : _}  : Runs a (execApertureRead x1 x2 x3) := by
  unfold execApertureRead
  repeat' (first | with_reducible assumption | with_reducible refine Runs.complete ?_ | with_reducible apply aperRead_keeps)

theorem commitHdm_keeps {a : State} {x1 : _} {x2 : _} {x3 : _} {s : State} (h : Keeps a s)  : Keeps a (commitHdm x1 x2 x3 s) := by
  unfold commitHdm
  repeat' (first | with_reducible assumption | with_reducible apply State.modHp_keeps | with_reducible refine Keeps.foldl ?_ _ ?_ | with_reducible refine Keeps.foldl_snd ?_ _ ?_ | intro _ | with_reducible refine Keeps.snd (by with_reducible assumption) ?_ | split | dsimp only)

theorem execHdmDecoderCommit_keeps {a : State} {x1 x2 x3 : _}  : Runs a (execHdmDecoderCommit x1 x2 x3) := by
  unfold execHdmDecoderCommit
  repeat' (first | with_reducible assumption | with_reducible refine Runs.complete ?_ | with_reducible apply commitHdm_keeps)

theorem clearCoh_keeps {a : State} {x1 : _} {s : State} (h : Keeps a s)  : Keeps a (clearCoh x1 s) := by
  unfold clearCoh
  repeat' (first | with_reducible assumption | with_reducible apply regSet_keeps | with_reducible refine Keeps.foldl ?_ _ ?_ | with_reducible refine Keeps.foldl_snd ?_ _ ?_ | intro _)

theorem linkUp_keeps {a : State} {x1 : _} {x2 : _} {x3 : _} {s : State} (h : Keeps a s)  : Keeps a (linkUp x1 x2 x3 s) := by
  unfold linkUp
  repeat' (first | with_reducible assumption | with_reducible apply clearCoh_keeps | with_reducible apply modLink_keeps | with_reducible apply postDev_keeps | with_reducible refine Keeps.foldl ?_ _ ?_ | with_reducible refine Keeps.foldl_snd ?_ _ ?_ | intro _ | with_reducible refine Keeps.snd (by with_reducible assumption) ?_ | split)

theorem execHostLinkUp_keeps {a : State} {x1 x2 x3 : _}  : Runs a (execHostLinkUp x1 x2 x3) := by
  unfold execHostLinkUp
  repeat' (first | with_reducible assumption | with_reducible refine Runs.complete ?_ | with_reducible apply linkUp_keeps | with_reducible refine Keeps.foldl ?_ _ ?_ | with_reducible refine Keeps.foldl_snd ?_ _ ?_ | intro _ | with_reducible refine Keeps.snd (by with_reducible assumption) ?_ | split)

theorem linkLost_keeps {a : State} {x1 : _} {x2 : _} {s : State} (h : Keeps a s)  : Keeps a (linkLost x1 x2 s) := by
  unfold linkLost
  repeat' (first | with_reducible assumption | with_reducible apply modLink_keeps | with_reducible apply State.modHp_keeps | with_reducible apply clearCoh_keeps | with_reducible apply endHostRead_keeps | with_reducible apply pump_keeps | with_reducible apply startSweep_keeps | with_reducible refine Keeps.foldl ?_ _ ?_ | with_reducible refine Keeps.foldl_snd ?_ _ ?_ | intro _ | with_reducible refine Keeps.snd (by with_reducible assumption) ?_ | split | dsimp only)

theorem execHostLinkDown_keeps {a : State} {x1 x2 : _}  : Runs a (execHostLinkDown x1 x2) := by
  unfold execHostLinkDown
  repeat' (first | with_reducible assumption | with_reducible refine Runs.complete ?_ | with_reducible apply linkLost_keeps | with_reducible refine Keeps.foldl ?_ _ ?_ | with_reducible refine Keeps.foldl_snd ?_ _ ?_ | intro _ | with_reducible refine Keeps.snd (by with_reducible assumption) ?_ | split)

theorem execFunctionLevelReset_keeps {a : State} {x1 : _}  : Runs a (execFunctionLevelReset x1) := by
  unfold execFunctionLevelReset
  repeat' (first | with_reducible assumption | with_reducible refine Runs.complete ?_ | with_reducible apply flrPump_keeps | with_reducible apply State.modHp_keeps | with_reducible refine Keeps.foldl ?_ _ ?_ | with_reducible refine Keeps.foldl_snd ?_ _ ?_ | intro _)

end Sys2Proof.Machine
end

