-- ==== Sys2Proof/Laws/KeepsVotes.lean ====
section
/-! SUPPORT. What the operations of Machine/Votes.lean keep (Laws/Keeps.lean). -/

namespace Sys2Proof.Machine

open Sys2Proof

theorem recount_keeps {a : State} {x1 : _} {s : State} (h : Keeps a s)  : Keeps a (recount x1 s) := by
  unfold recount
  repeat' (first | with_reducible assumption | with_reducible apply State.modFlt_keeps | with_reducible refine Keeps.foldl ?_ _ ?_ | with_reducible refine Keeps.foldl_snd ?_ _ ?_ | intro _ | with_reducible refine Keeps.snd (by with_reducible assumption) ?_ | split)

theorem castVote_keeps {a : State} {x1 : _} {x2 : _} {x3 : _} {s : State} (h : Keeps a s)  : Keeps a (castVote x1 x2 x3 s) := by
  unfold castVote
  repeat' (first | with_reducible assumption | with_reducible apply State.modFlt_keeps | with_reducible apply recount_keeps)

theorem tellVoters_keeps {a : State} {x1 : _} {x2 : _} {s : State} (h : Keeps a s)  : Keeps a (tellVoters x1 x2 s) := by
  unfold tellVoters
  repeat' (first | with_reducible assumption | with_reducible apply tell_keeps | with_reducible apply castVote_keeps | with_reducible refine Keeps.foldl ?_ _ ?_ | with_reducible refine Keeps.foldl_snd ?_ _ ?_ | intro _)

theorem tellOf_keeps {a : State} {x1 : _} {x2 : _} {x3 : _} {s : State} (h : Keeps a s)  : Keeps a (tellOf x1 x2 x3 s) := by
  unfold tellOf
  repeat' (first | with_reducible assumption | with_reducible apply tellVoters_keeps | with_reducible apply tell_keeps | with_reducible refine Keeps.foldl ?_ _ ?_ | with_reducible refine Keeps.foldl_snd ?_ _ ?_ | intro _ | with_reducible refine Keeps.snd (by with_reducible assumption) ?_ | split)

theorem suspectPeer_keeps {a : State} {x1 : _} {x2 : _} {s : State} (h : Keeps a s)  : Keeps a (suspectPeer x1 x2 s) := by
  unfold suspectPeer
  repeat' (first | with_reducible assumption | with_reducible apply modFabLink_keeps | with_reducible apply fleetRec_keeps | with_reducible apply tellOf_keeps | with_reducible refine Keeps.foldl ?_ _ ?_ | with_reducible refine Keeps.foldl_snd ?_ _ ?_ | intro _ | with_reducible refine Keeps.snd (by with_reducible assumption) ?_ | split | dsimp only)

theorem unsuspectPeer_keeps {a : State} {x1 : _} {s : State} (h : Keeps a s)  : Keeps a (unsuspectPeer x1 s) := by
  unfold unsuspectPeer
  repeat' (first | with_reducible assumption | with_reducible apply modFabLink_keeps | with_reducible apply fleetRec_keeps | with_reducible apply tellOf_keeps | with_reducible refine Keeps.foldl ?_ _ ?_ | with_reducible refine Keeps.foldl_snd ?_ _ ?_ | intro _ | with_reducible refine Keeps.snd (by with_reducible assumption) ?_ | split | dsimp only)

end Sys2Proof.Machine
end

