-- ==== Sys2Proof/Laws/KeepsFabric.lean ====
section
/-! SUPPORT. What the operations of Machine/Fabric.lean keep (Laws/Keeps.lean). -/

namespace Sys2Proof.Machine

open Sys2Proof

theorem linkRec_keeps {a : State} {x1 : _} {x2 : _} {x3 : _} {x4 : _} {s : State} (h : Keeps a s)  : Keeps a (linkRec x1 x2 x3 x4 s) := by
  unfold linkRec
  repeat' (first | with_reducible assumption | with_reducible apply raise_keeps)

theorem routeRec_keeps {a : State} {x1 : _} {x2 : _} {s : State} (h : Keeps a s)  : Keeps a (routeRec x1 x2 s) := by
  unfold routeRec
  repeat' (first | with_reducible assumption | with_reducible apply raise_keeps)

theorem fabBytes_keeps {a : State} {x1 : _} {x2 : _} {x3 : _} {s : State} (h : Keeps a s)  : Keeps a (fabBytes x1 x2 x3 s) := by
  unfold fabBytes
  repeat' (first | with_reducible assumption | with_reducible apply telAdd_keeps)

theorem sendAck_keeps {a : State} {x1 : _} {s : State} (h : Keeps a s)  : Keeps a (sendAck x1 s) := by
  unfold sendAck
  repeat' (first | with_reducible assumption | with_reducible apply fabBytes_keeps | with_reducible apply emit_keeps)

theorem sendFlits_keeps {a : State} {x1 : _} {x2 : _} {x3 : _} {s : State} (h : Keeps a s)  : Keeps a (sendFlits x1 x2 x3 s) := by
  induction x3 generalizing s x2 with
  | nil =>
    unfold sendFlits
    repeat' (with_reducible assumption)
  | cons y l ih =>
    unfold sendFlits
    repeat' (first | with_reducible assumption | with_reducible apply ih | with_reducible apply modFabLink_keeps | with_reducible apply fabBytes_keeps | with_reducible apply emit_keeps)

theorem sendOn_keeps {a s t : State} {n : Fin 24} {m : FabMsg} (e : sendOn n m s = some t) (h : Keeps a s) : Keeps a t := by
  unfold sendOn at e
  dsimp only at e
  split at e
  · cases e
  · split at e
    · cases e
    · cases e
      exact emit_keeps (sendFlits_keeps (modFabLink_keeps h))

theorem returnCredit_keeps {a : State} {x1 : _} {s : State} (h : Keeps a s)  : Keeps a (returnCredit x1 s) := by
  unfold returnCredit
  repeat' (first | with_reducible assumption | with_reducible apply modFabLink_keeps | with_reducible apply emit_keeps | with_reducible refine Keeps.foldl ?_ _ ?_ | with_reducible refine Keeps.foldl_snd ?_ _ ?_ | intro _ | with_reducible refine Keeps.snd (by with_reducible assumption) ?_ | split)

theorem dropFwd_keeps {a : State} {x1 : _} {s : State} (h : Keeps a s)  : Keeps a (dropFwd x1 s) := by
  unfold dropFwd
  repeat' (first | with_reducible assumption | with_reducible apply returnCredit_keeps | with_reducible apply State.modFab_keeps)

theorem leaveReserve_keeps {a : State} {x1 : _} {s : State} (h : Keeps a s)  : Keeps a (leaveReserve x1 s) := by
  unfold leaveReserve
  repeat' (first | with_reducible assumption | with_reducible apply State.modFab_keeps | with_reducible refine Keeps.foldl ?_ _ ?_ | with_reducible refine Keeps.foldl_snd ?_ _ ?_ | intro _ | with_reducible refine Keeps.snd (by with_reducible assumption) ?_ | split)

theorem tryFwd_keeps {a : State} {x1 : _} {x2 : _} {s : State} (h : Keeps a s)  : Keeps a (tryFwd x1 x2 s).2 := by
  unfold tryFwd
  repeat' (first | with_reducible assumption | with_reducible refine sendOn_keeps (by with_reducible assumption) ?_ | with_reducible apply emit_keeps | with_reducible apply dropFwd_keeps | with_reducible apply routeRec_keeps | with_reducible apply countRC_keeps | with_reducible apply State.modFab_keeps | with_reducible apply leaveReserve_keeps | with_reducible refine Keeps.foldl ?_ _ ?_ | with_reducible refine Keeps.foldl_snd ?_ _ ?_ | intro _ | with_reducible refine Keeps.snd (by with_reducible assumption) ?_ | split | dsimp only)

theorem fabPump_keeps {a : State} {s : State} (h : Keeps a s)  : Keeps a (fabPump s) := by
  unfold fabPump
  repeat' (first | with_reducible assumption | with_reducible apply tryFwd_keeps | with_reducible refine Keeps.foldl ?_ _ ?_ | with_reducible refine Keeps.foldl_snd ?_ _ ?_ | intro _)

theorem routeIn_keeps {a : State} {x1 : _} {s : State} (h : Keeps a s)  : Keeps a (routeIn x1 s) := by
  unfold routeIn
  repeat' (first | with_reducible assumption | with_reducible apply modFabLink_keeps | with_reducible apply fabPump_keeps | with_reducible apply State.modFab_keeps | with_reducible refine Keeps.foldl ?_ _ ?_ | with_reducible refine Keeps.foldl_snd ?_ _ ?_ | intro _ | with_reducible refine Keeps.snd (by with_reducible assumption) ?_ | split)

theorem execMessageRoute_keeps {a : State} {x1 : _}  : Runs a (execMessageRoute x1) := by
  unfold execMessageRoute
  repeat' (first | with_reducible assumption | with_reducible refine Runs.complete ?_ | with_reducible apply routeIn_keeps)

theorem execPathHoldExpire_keeps {a : State} {x1 x2 : _}  : Runs a (execPathHoldExpire x1 x2) := by
  unfold execPathHoldExpire
  repeat' (first | with_reducible assumption | with_reducible refine Runs.complete ?_ | with_reducible apply fabPump_keeps | with_reducible apply reach_keeps | with_reducible refine Keeps.foldl ?_ _ ?_ | with_reducible refine Keeps.foldl_snd ?_ _ ?_ | intro _ | with_reducible refine Keeps.snd (by with_reducible assumption) ?_ | split)

theorem execForwardStale_keeps {a : State} {x1 : _}  : Runs a (execForwardStale x1) := by
  unfold execForwardStale
  repeat' (first | with_reducible assumption | with_reducible refine Runs.complete ?_ | with_reducible apply dropFwd_keeps | with_reducible apply countRC_keeps | with_reducible apply reach_keeps | with_reducible refine Keeps.foldl ?_ _ ?_ | with_reducible refine Keeps.foldl_snd ?_ _ ?_ | intro _ | with_reducible refine Keeps.snd (by with_reducible assumption) ?_ | split)

theorem execLcrd_keeps {a : State} {x1 x2 x3 x4 x5 : _}  : Runs a (execLcrd x1 x2 x3 x4 x5) := by
  unfold execLcrd
  repeat' (first | with_reducible assumption | with_reducible refine Runs.complete ?_ | with_reducible apply fabPump_keeps | with_reducible apply modFabLink_keeps | with_reducible refine Keeps.foldl ?_ _ ?_ | with_reducible refine Keeps.foldl_snd ?_ _ ?_ | intro _)

theorem moveAnswers_keeps {a : State} {x1 : _} {s : State} (h : Keeps a s)  : Keeps a (moveAnswers x1 s) := by
  unfold moveAnswers
  repeat' (first | with_reducible assumption | with_reducible apply State.modFab_keeps | with_reducible refine Keeps.foldl ?_ _ ?_ | with_reducible refine Keeps.foldl_snd ?_ _ ?_ | intro _)

theorem linkGone_keeps {a : State} {x1 : _} {x2 : _} {x3 : _} {s : State} (h : Keeps a s)  : Keeps a (linkGone x1 x2 x3 s) := by
  unfold linkGone
  repeat' (first | with_reducible assumption | with_reducible apply modFabLink_keeps | with_reducible apply State.modFab_keeps | with_reducible apply suspectPeer_keeps | with_reducible apply fabPump_keeps | with_reducible apply moveAnswers_keeps | with_reducible apply postDev_keeps | with_reducible refine Keeps.foldl ?_ _ ?_ | with_reducible refine Keeps.foldl_snd ?_ _ ?_ | intro _ | with_reducible refine Keeps.snd (by with_reducible assumption) ?_ | split | dsimp only)

theorem goDown_keeps {a : State} {x1 : _} {x2 : _} {s : State} (h : Keeps a s)  : Keeps a (goDown x1 x2 s) := by
  unfold goDown
  repeat' (first | with_reducible assumption | with_reducible apply linkGone_keeps)

theorem trainFailed_keeps {a : State} {x1 : _} {s : State} (h : Keeps a s)  : Keeps a (trainFailed x1 s) := by
  unfold trainFailed
  repeat' (first | with_reducible assumption | with_reducible apply modFabLink_keeps)

theorem execLinkDown_keeps {a : State} {x1 : _}  : Runs a (execLinkDown x1) := by
  unfold execLinkDown
  repeat' (first | with_reducible assumption | with_reducible refine Runs.complete ?_ | with_reducible apply goDown_keeps)

theorem execLinkRetrain_keeps {a : State} {x1 : _}  : Runs a (execLinkRetrain x1) := by
  unfold execLinkRetrain
  repeat' (first | with_reducible assumption | with_reducible refine Runs.complete ?_ | with_reducible apply modFabLink_keeps | with_reducible apply reach_keeps | with_reducible refine Keeps.foldl ?_ _ ?_ | with_reducible refine Keeps.foldl_snd ?_ _ ?_ | intro _ | with_reducible refine Keeps.snd (by with_reducible assumption) ?_ | split)

theorem execLinkReset_keeps {a : State} {x1 x2 : _}  : Runs a (execLinkReset x1 x2) := by
  unfold execLinkReset
  repeat' (first | with_reducible assumption | with_reducible refine Runs.complete ?_ | with_reducible apply goDown_keeps | with_reducible apply rejected_keeps | with_reducible refine Keeps.foldl ?_ _ ?_ | with_reducible refine Keeps.foldl_snd ?_ _ ?_ | intro _ | with_reducible refine Keeps.snd (by with_reducible assumption) ?_ | split)

theorem execLinkEnable_keeps {a : State} {x1 : _}  : Runs a (execLinkEnable x1) := by
  unfold execLinkEnable
  repeat' (first | with_reducible assumption | with_reducible refine Runs.complete ?_ | with_reducible apply modFabLink_keeps | with_reducible refine Keeps.foldl ?_ _ ?_ | with_reducible refine Keeps.foldl_snd ?_ _ ?_ | intro _ | with_reducible refine Keeps.snd (by with_reducible assumption) ?_ | split | dsimp only)

theorem trained_keeps {a : State} {x1 : _} {x2 : _} {s : State} (h : Keeps a s)  : Keeps a (trained x1 x2 s) := by
  unfold trained
  repeat' (first | with_reducible assumption | with_reducible apply trainFailed_keeps | with_reducible apply modFabLink_keeps | with_reducible apply emit_keeps | with_reducible refine Keeps.foldl ?_ _ ?_ | with_reducible refine Keeps.foldl_snd ?_ _ ?_ | intro _ | with_reducible refine Keeps.snd (by with_reducible assumption) ?_ | split | dsimp only)

theorem execLinkTrained_keeps {a : State} {x1 x2 : _}  : Runs a (execLinkTrained x1 x2) := by
  unfold execLinkTrained
  repeat' (first | with_reducible assumption | with_reducible refine Runs.complete ?_ | with_reducible apply trained_keeps)

theorem grantCredits_keeps {a : State} {x1 : _} {s : State} (h : Keeps a s)  : Keeps a (grantCredits x1 s) := by
  unfold grantCredits
  repeat' (first | with_reducible assumption | with_reducible apply emit_keeps | with_reducible apply emitAll_keeps)

theorem bringUp_keeps {a : State} {x1 : _} {x2 : _} {s : State} (h : Keeps a s)  : Keeps a (bringUp x1 x2 s) := by
  unfold bringUp
  repeat' (first | with_reducible assumption | with_reducible apply modFabLink_keeps | with_reducible apply beginTimer_keeps | with_reducible apply State.modFlt_keeps | with_reducible apply postDev_keeps | with_reducible apply grantCredits_keeps | with_reducible apply fabPump_keeps | with_reducible refine Keeps.foldl ?_ _ ?_ | with_reducible refine Keeps.foldl_snd ?_ _ ?_ | intro _ | with_reducible refine Keeps.snd (by with_reducible assumption) ?_ | split)

theorem takeIdent_keeps {a : State} {x1 : _} {x2 : _} {x3 : _} {s : State} (h : Keeps a s)  : Keeps a (takeIdent x1 x2 x3 s) := by
  unfold takeIdent
  repeat' (first | with_reducible assumption | with_reducible apply State.modFlt_keeps | with_reducible apply linkRec_keeps | with_reducible apply modFabLink_keeps | with_reducible apply bringUp_keeps | with_reducible apply goDown_keeps | with_reducible refine Keeps.foldl ?_ _ ?_ | with_reducible refine Keeps.foldl_snd ?_ _ ?_ | intro _ | with_reducible refine Keeps.snd (by with_reducible assumption) ?_ | split | dsimp only)

theorem execIdent_keeps {a : State} {x1 x2 x3 : _}  : Runs a (execIdent x1 x2 x3) := by
  unfold execIdent
  repeat' (first | with_reducible assumption | with_reducible refine Runs.complete ?_ | with_reducible apply takeIdent_keeps)

theorem takeAck_keeps {a : State} {x1 : _} {x2 : _} {s : State} (h : Keeps a s)  : Keeps a (takeAck x1 x2 s) := by
  unfold takeAck
  repeat' (first | with_reducible assumption | with_reducible apply modFabLink_keeps | with_reducible refine Keeps.foldl ?_ _ ?_ | with_reducible refine Keeps.foldl_snd ?_ _ ?_ | intro _ | with_reducible refine Keeps.snd (by with_reducible assumption) ?_ | split | dsimp only)

theorem askReplay_keeps {a : State} {x1 : _} {s : State} (h : Keeps a s)  : Keeps a (askReplay x1 s) := by
  unfold askReplay
  repeat' (first | with_reducible assumption | with_reducible apply emit_keeps | with_reducible apply modFabLink_keeps | with_reducible refine Keeps.foldl ?_ _ ?_ | with_reducible refine Keeps.foldl_snd ?_ _ ?_ | intro _ | with_reducible refine Keeps.snd (by with_reducible assumption) ?_ | split | dsimp only)

theorem countFixed_keeps {a : State} {x1 : _} {x2 : _} {s : State} (h : Keeps a s)  : Keeps a (countFixed x1 x2 s) := by
  unfold countFixed
  repeat' (first | with_reducible assumption | with_reducible apply regSet_keeps)

theorem takeFlit_keeps {a : State} {x1 : _} {x2 : _} {s : State} (h : Keeps a s)  : Keeps a (takeFlit x1 x2 s) := by
  unfold takeFlit
  repeat' (first | with_reducible assumption | with_reducible apply countFixed_keeps | with_reducible apply fabBytes_keeps | with_reducible apply askReplay_keeps | with_reducible apply fabPump_keeps | with_reducible apply takeAck_keeps | with_reducible apply modFabLink_keeps | with_reducible apply routeIn_keeps | with_reducible apply sendAck_keeps | with_reducible refine Keeps.foldl ?_ _ ?_ | with_reducible refine Keeps.foldl_snd ?_ _ ?_ | intro _ | with_reducible refine Keeps.snd (by with_reducible assumption) ?_ | split | dsimp only)

theorem execFlitReceive_keeps {a : State} {x1 x2 : _}  : Runs a (execFlitReceive x1 x2) := by
  unfold execFlitReceive
  repeat' (first | with_reducible assumption | with_reducible refine Runs.complete ?_ | with_reducible apply takeFlit_keeps)

theorem resendFrom_keeps {a : State} {x1 : _} {x2 : _} {s : State} (h : Keeps a s)  : Keeps a (resendFrom x1 x2 s) := by
  unfold resendFrom
  repeat' (first | with_reducible assumption | with_reducible apply fabBytes_keeps | with_reducible apply emitAll_keeps | with_reducible apply regSet_keeps | with_reducible apply modFabLink_keeps)

theorem execReplay_keeps {a : State} {x1 x2 : _}  : Runs a (execReplay x1 x2) := by
  unfold execReplay
  repeat' (first | with_reducible assumption | with_reducible refine Runs.complete ?_ | with_reducible apply resendFrom_keeps | with_reducible refine Keeps.foldl ?_ _ ?_ | with_reducible refine Keeps.foldl_snd ?_ _ ?_ | intro _ | with_reducible refine Keeps.snd (by with_reducible assumption) ?_ | split)

theorem replayDue_keeps {a : State} {x1 : _} {s : State} (h : Keeps a s)  : Keeps a (replayDue x1 s) := by
  unfold replayDue
  repeat' (first | with_reducible assumption | with_reducible apply reach_keeps | with_reducible apply goDown_keeps | with_reducible apply resendFrom_keeps | with_reducible apply modFabLink_keeps | with_reducible refine Keeps.foldl ?_ _ ?_ | with_reducible refine Keeps.foldl_snd ?_ _ ?_ | intro _ | with_reducible refine Keeps.snd (by with_reducible assumption) ?_ | split | dsimp only)

theorem execReplayTimer_keeps {a : State} {x1 : _}  : Runs a (execReplayTimer x1) := by
  unfold execReplayTimer
  repeat' (first | with_reducible assumption | with_reducible refine Runs.complete ?_ | with_reducible apply replayDue_keeps)

theorem setFec_keeps {a : State} {x1 : _} {x2 : _} {s : State} (h : Keeps a s)  : Keeps a (setFec x1 x2 s) := by
  unfold setFec
  repeat' (first | with_reducible assumption | with_reducible apply postDev_keeps | with_reducible apply modFabLink_keeps)

theorem modeChg_keeps {a : State} {x1 : _} {x2 : _} {x3 : _} {s : State} (h : Keeps a s)  : Keeps a (modeChg x1 x2 x3 s) := by
  unfold modeChg
  repeat' (first | with_reducible assumption | with_reducible apply setFec_keeps | with_reducible apply emit_keeps | with_reducible refine Keeps.foldl ?_ _ ?_ | with_reducible refine Keeps.foldl_snd ?_ _ ?_ | intro _ | with_reducible refine Keeps.snd (by with_reducible assumption) ?_ | split | dsimp only)

theorem execModeChg_keeps {a : State} {x1 x2 x3 : _}  : Runs a (execModeChg x1 x2 x3) := by
  unfold execModeChg
  repeat' (first | with_reducible assumption | with_reducible refine Runs.complete ?_ | with_reducible apply modeChg_keeps)

theorem askFec_keeps {a : State} {x1 : _} {x2 : _} {s : State} (h : Keeps a s)  : Keeps a (askFec x1 x2 s) := by
  unfold askFec
  repeat' (first | with_reducible assumption | with_reducible apply emit_keeps | with_reducible apply modFabLink_keeps | with_reducible refine Keeps.foldl ?_ _ ?_ | with_reducible refine Keeps.foldl_snd ?_ _ ?_ | intro _ | with_reducible refine Keeps.snd (by with_reducible assumption) ?_ | split | dsimp only)

theorem evalFec_keeps {a : State} {x1 : _} {x2 : _} {s : State} (h : Keeps a s)  : Keeps a (evalFec x1 x2 s) := by
  unfold evalFec
  repeat' (first | with_reducible assumption | with_reducible apply modFabLink_keeps | with_reducible apply askFec_keeps | with_reducible refine Keeps.foldl ?_ _ ?_ | with_reducible refine Keeps.foldl_snd ?_ _ ?_ | intro _ | with_reducible refine Keeps.snd (by with_reducible assumption) ?_ | split | dsimp only)

theorem execFecEvaluate_keeps {a : State} {x1 x2 : _}  : Runs a (execFecEvaluate x1 x2) := by
  unfold execFecEvaluate
  repeat' (first | with_reducible assumption | with_reducible refine Runs.complete ?_ | with_reducible apply evalFec_keeps)

theorem loseLane_keeps {a : State} {x1 : _} {x2 : _} {s : State} (h : Keeps a s)  : Keeps a (loseLane x1 x2 s) := by
  unfold loseLane
  repeat' (first | with_reducible assumption | with_reducible apply modFabLink_keeps | with_reducible apply emit_keeps | with_reducible apply goDown_keeps | with_reducible apply postDev_keeps | with_reducible refine Keeps.foldl ?_ _ ?_ | with_reducible refine Keeps.foldl_snd ?_ _ ?_ | intro _ | with_reducible refine Keeps.snd (by with_reducible assumption) ?_ | split | dsimp only)

theorem execLaneLoss_keeps {a : State} {x1 x2 : _}  : Runs a (execLaneLoss x1 x2) := by
  unfold execLaneLoss
  repeat' (first | with_reducible assumption | with_reducible refine Runs.complete ?_ | with_reducible apply loseLane_keeps)

theorem execSpare_keeps {a : State} {x1 x2 x3 : _}  : Runs a (execSpare x1 x2 x3) := by
  unfold execSpare
  repeat' (first | with_reducible assumption | with_reducible refine Runs.complete ?_ | with_reducible apply modFabLink_keeps | with_reducible refine Keeps.foldl ?_ _ ?_ | with_reducible refine Keeps.foldl_snd ?_ _ ?_ | intro _ | with_reducible refine Keeps.snd (by with_reducible assumption) ?_ | split)

theorem spareDone_keeps {a : State} {x1 : _} {s : State} (h : Keeps a s)  : Keeps a (spareDone x1 s) := by
  unfold spareDone
  repeat' (first | with_reducible assumption | with_reducible apply modFabLink_keeps | with_reducible apply emit_keeps | with_reducible apply postDev_keeps | with_reducible refine Keeps.foldl ?_ _ ?_ | with_reducible refine Keeps.foldl_snd ?_ _ ?_ | intro _ | with_reducible refine Keeps.snd (by with_reducible assumption) ?_ | split | dsimp only)

theorem execSpareComplete_keeps {a : State} {x1 : _}  : Runs a (execSpareComplete x1) := by
  unfold execSpareComplete
  repeat' (first | with_reducible assumption | with_reducible refine Runs.complete ?_ | with_reducible apply spareDone_keeps)

theorem sendTsync_keeps {a : State} {s : State} (h : Keeps a s)  : Keeps a (sendTsync s) := by
  unfold sendTsync
  repeat' (first | with_reducible assumption | with_reducible apply State.modFab_keeps | with_reducible apply emit_keeps | with_reducible refine Keeps.foldl ?_ _ ?_ | with_reducible refine Keeps.foldl_snd ?_ _ ?_ | intro _ | with_reducible refine Keeps.snd (by with_reducible assumption) ?_ | split)

theorem execTsyncSend_keeps {a : State}  : Runs a (execTsyncSend ) := by
  unfold execTsyncSend
  repeat' (first | with_reducible assumption | with_reducible refine Runs.complete ?_ | with_reducible apply sendTsync_keeps)

theorem takeTsync_keeps {a : State} {x1 : _} {x2 : _} {x3 : _} {x4 : _} {x5 : _} {s : State} (h : Keeps a s)  : Keeps a (takeTsync x1 x2 x3 x4 x5 s) := by
  unfold takeTsync
  repeat' (first | with_reducible assumption | with_reducible apply emit_keeps | with_reducible apply State.modFab_keeps | with_reducible refine Keeps.foldl ?_ _ ?_ | with_reducible refine Keeps.foldl_snd ?_ _ ?_ | intro _ | with_reducible refine Keeps.snd (by with_reducible assumption) ?_ | split)

theorem execTsync_keeps {a : State} {x1 x2 x3 x4 x5 : _}  : Runs a (execTsync x1 x2 x3 x4 x5) := by
  unfold execTsync
  repeat' (first | with_reducible assumption | with_reducible refine Runs.complete ?_ | with_reducible apply takeTsync_keeps)

theorem tsyncLate_keeps {a : State} {s : State} (h : Keeps a s)  : Keeps a (tsyncLate s) := by
  unfold tsyncLate
  repeat' (first | with_reducible assumption | with_reducible apply reach_keeps | with_reducible apply State.modFab_keeps | with_reducible apply postDev_keeps | with_reducible refine Keeps.foldl ?_ _ ?_ | with_reducible refine Keeps.foldl_snd ?_ _ ?_ | intro _ | with_reducible refine Keeps.snd (by with_reducible assumption) ?_ | split | dsimp only)

theorem execTsyncTimeout_keeps {a : State}  : Runs a (execTsyncTimeout ) := by
  unfold execTsyncTimeout
  repeat' (first | with_reducible assumption | with_reducible refine Runs.complete ?_ | with_reducible apply tsyncLate_keeps)

theorem tick_keeps {a : State} {s : State} (h : Keeps a s)  : Keeps a (tick s) := by
  unfold tick
  repeat' (first | with_reducible assumption | with_reducible apply State.modSys_keeps | with_reducible apply State.modFab_keeps | with_reducible refine Keeps.foldl ?_ _ ?_ | with_reducible refine Keeps.foldl_snd ?_ _ ?_ | (exact Nat.le_refl _) | (exact Nat.le_max_left _ _) | (exact Nat.le_add_right _ _) | intro _ | with_reducible refine Keeps.snd (by with_reducible assumption) ?_ | split | dsimp only)

theorem execModulePresence_keeps {a : State} {x1 x2 : _}  : Runs a (execModulePresence x1 x2) := by
  unfold execModulePresence
  repeat' (first | with_reducible assumption | with_reducible refine Runs.complete ?_ | with_reducible apply emit_keeps | with_reducible apply modFabLink_keeps | with_reducible refine Keeps.foldl ?_ _ ?_ | with_reducible refine Keeps.foldl_snd ?_ _ ?_ | intro _ | with_reducible refine Keeps.snd (by with_reducible assumption) ?_ | split)

theorem moduleReady_keeps {a : State} {x1 : _} {x2 : _} {s : State} (h : Keeps a s)  : Keeps a (moduleReady x1 x2 s) := by
  unfold moduleReady
  repeat' (first | with_reducible assumption | with_reducible apply emit_keeps | with_reducible apply modFabLink_keeps | with_reducible apply linkRec_keeps | with_reducible refine Keeps.foldl ?_ _ ?_ | with_reducible refine Keeps.foldl_snd ?_ _ ?_ | intro _ | with_reducible refine Keeps.snd (by with_reducible assumption) ?_ | split)

theorem execModuleReady_keeps {a : State} {x1 x2 : _}  : Runs a (execModuleReady x1 x2) := by
  unfold execModuleReady
  repeat' (first | with_reducible assumption | with_reducible refine Runs.complete ?_ | with_reducible apply moduleReady_keeps)

theorem execModuleReadyTimeout_keeps {a : State} {x1 : _}  : Runs a (execModuleReadyTimeout x1) := by
  unfold execModuleReadyTimeout
  repeat' (first | with_reducible assumption | with_reducible refine Runs.complete ?_ | with_reducible apply reach_keeps | with_reducible apply linkRec_keeps | with_reducible apply modFabLink_keeps | with_reducible refine Keeps.foldl ?_ _ ?_ | with_reducible refine Keeps.foldl_snd ?_ _ ?_ | intro _ | with_reducible refine Keeps.snd (by with_reducible assumption) ?_ | split)

theorem moduleFlags_keeps {a : State} {x1 : _} {x2 : _} {s : State} (h : Keeps a s)  : Keeps a (moduleFlags x1 x2 s) := by
  unfold moduleFlags
  repeat' (first | with_reducible assumption | with_reducible apply loseLane_keeps | with_reducible apply postDev_keeps | with_reducible refine Keeps.foldl ?_ _ ?_ | with_reducible refine Keeps.foldl_snd ?_ _ ?_ | intro _ | with_reducible refine Keeps.snd (by with_reducible assumption) ?_ | split)

theorem execModuleInterrupt_keeps {a : State} {x1 x2 : _}  : Runs a (execModuleInterrupt x1 x2) := by
  unfold execModuleInterrupt
  repeat' (first | with_reducible assumption | with_reducible refine Runs.complete ?_ | with_reducible apply moduleFlags_keeps)

theorem keepMargin_keeps {a : State} {x1 : _} {x2 : _} {s : State} (h : Keeps a s)  : Keeps a (keepMargin x1 x2 s) := by
  unfold keepMargin
  repeat' (first | with_reducible assumption | with_reducible apply State.modTel_keeps)

theorem execOpticsPoll_keeps {a : State} {x1 x2 x3 : _}  : Runs a (execOpticsPoll x1 x2 x3) := by
  unfold execOpticsPoll
  repeat' (first | with_reducible assumption | with_reducible refine Runs.complete ?_ | with_reducible apply moduleFlags_keeps | with_reducible apply keepMargin_keeps | with_reducible refine Keeps.foldl ?_ _ ?_ | with_reducible refine Keeps.foldl_snd ?_ _ ?_ | intro _ | with_reducible refine Keeps.snd (by with_reducible assumption) ?_ | split)

theorem execModuleRemoval_keeps {a : State} {x1 : _}  : Runs a (execModuleRemoval x1) := by
  unfold execModuleRemoval
  repeat' (first | with_reducible assumption | with_reducible refine Runs.complete ?_ | with_reducible apply goDown_keeps | with_reducible apply emit_keeps | with_reducible apply modFabLink_keeps | with_reducible refine Keeps.foldl ?_ _ ?_ | with_reducible refine Keeps.foldl_snd ?_ _ ?_ | intro _ | with_reducible refine Keeps.snd (by with_reducible assumption) ?_ | split)

end Sys2Proof.Machine
end

