-- ==== Sys2Proof/Laws/KeepsErrors.lean ====
section
/-! SUPPORT. What the operations of Machine/Errors.lean keep (Laws/Keeps.lean). -/

namespace Sys2Proof.Machine

open Sys2Proof

theorem execCeStormEnd_keeps {a : State}  : Runs a (execCeStormEnd ) := by
  unfold execCeStormEnd
  repeat' (first | with_reducible assumption | with_reducible refine Runs.complete ?_ | with_reducible apply State.modRas_keeps | with_reducible apply reach_keeps | with_reducible refine Keeps.foldl ?_ _ ?_ | with_reducible refine Keeps.foldl_snd ?_ _ ?_ | intro _ | with_reducible refine Keeps.snd (by with_reducible assumption) ?_ | split)

theorem modEvq_keeps {a : State} {x1 : _} {x2 : _} {s : State} (h : Keeps a s)  : Keeps a (modEvq x1 x2 s) := by
  unfold modEvq
  repeat' (first | with_reducible assumption | with_reducible apply State.modRas_keeps)

theorem dropEvent_keeps {a : State} {x1 : _} {s : State} (h : Keeps a s)  : Keeps a (dropEvent x1 s) := by
  unfold dropEvent
  repeat' (first | with_reducible assumption | with_reducible apply modEvq_keeps)

theorem writeEvent_keeps {a : State} {x1 : _} {s : State} (h : Keeps a s)  : Keeps a (writeEvent x1 s) := by
  unfold writeEvent
  repeat' (first | with_reducible assumption | with_reducible apply dropEvent_keeps | with_reducible apply ownAsk_keeps | with_reducible apply modEvq_keeps | with_reducible apply signal_keeps | with_reducible refine Keeps.foldl ?_ _ ?_ | with_reducible refine Keeps.foldl_snd ?_ _ ?_ | intro _ | with_reducible refine Keeps.snd (by with_reducible assumption) ?_ | split | dsimp only)

theorem execEventRecordWrite_keeps {a : State} {x1 : _}  : Runs a (execEventRecordWrite x1) := by
  unfold execEventRecordWrite
  repeat' (first | with_reducible assumption | with_reducible refine Runs.complete ?_ | with_reducible apply writeEvent_keeps)

theorem execEvent_keeps {a : State} {x1 : _}  : Runs a (execEvent x1) := by
  unfold execEvent
  repeat' (first | with_reducible assumption | with_reducible refine Runs.complete ?_ | with_reducible apply post_keeps | with_reducible apply sawEpoch_keeps | with_reducible refine Keeps.foldl ?_ _ ?_ | with_reducible refine Keeps.foldl_snd ?_ _ ?_ | intro _)

theorem departNotice_keeps {a : State} {s : State} (h : Keeps a s)  : Keeps a (departNotice s) := by
  unfold departNotice
  repeat' (first | with_reducible assumption | with_reducible apply flood_keeps | with_reducible apply State.modFlt_keeps | with_reducible refine Keeps.foldl ?_ _ ?_ | with_reducible refine Keeps.foldl_snd ?_ _ ?_ | intro _ | with_reducible refine Keeps.snd (by with_reducible assumption) ?_ | split)

theorem raiseViral_keeps {a : State} {s : State} (h : Keeps a s)  : Keeps a (raiseViral s) := by
  unfold raiseViral
  repeat' (first | with_reducible assumption | with_reducible apply emit_keeps | with_reducible apply State.modHp_keeps | with_reducible refine Keeps.foldl ?_ _ ?_ | with_reducible refine Keeps.foldl_snd ?_ _ ?_ | intro _ | with_reducible refine Keeps.snd (by with_reducible assumption) ?_ | split)

theorem internalRec_keeps {a : State} {x1 : _} {x2 : _} {x3 : _} {s : State} (h : Keeps a s)  : Keeps a (internalRec x1 x2 x3 s) := by
  unfold internalRec
  repeat' (first | with_reducible assumption | with_reducible apply raise_keeps)

theorem fatal_keeps {a : State} {x1 : _} {x2 : _} {x3 : _} {s : State} (h : Keeps a s)  : Keeps a (fatal x1 x2 x3 s) := by
  unfold fatal
  repeat' (first | with_reducible assumption | with_reducible apply internalRec_keeps | with_reducible apply State.modHome_keeps | with_reducible apply answerAll_keeps | with_reducible apply State.modSys_keeps | with_reducible apply requestWarm_keeps | with_reducible apply departNotice_keeps | with_reducible apply raiseViral_keeps | with_reducible apply postDev_keeps | with_reducible refine Keeps.foldl ?_ _ ?_ | with_reducible refine Keeps.foldl_snd ?_ _ ?_ | (exact Nat.le_refl _))

theorem execFatalError_keeps {a : State} {x1 x2 x3 : _}  : Runs a (execFatalError x1 x2 x3) := by
  unfold execFatalError
  repeat' (first | with_reducible assumption | with_reducible refine Runs.complete ?_ | with_reducible apply fatal_keeps)

theorem execWatchdogExpire_keeps {a : State}  : Runs a (execWatchdogExpire ) := by
  unfold execWatchdogExpire
  repeat' (first | with_reducible assumption | with_reducible refine Runs.complete ?_ | with_reducible apply elapsed_keeps | with_reducible apply requestWarm_keeps | with_reducible apply postDev_keeps | with_reducible apply internalRec_keeps | with_reducible refine Keeps.foldl ?_ _ ?_ | with_reducible refine Keeps.foldl_snd ?_ _ ?_ | intro _ | with_reducible refine Keeps.snd (by with_reducible assumption) ?_ | split)

theorem execCompList_keeps {a : State} {x1 x2 x3 : _}  : Runs a (execCompList x1 x2 x3) := by
  unfold execCompList
  repeat' (first | with_reducible assumption | with_reducible refine Runs.complete ?_ | with_reducible apply State.modRas_keeps | with_reducible apply sawEpoch_keeps | with_reducible refine Keeps.foldl ?_ _ ?_ | with_reducible refine Keeps.foldl_snd ?_ _ ?_ | intro _)

theorem applyContain_keeps {a : State} {x1 : _} {s : State} (h : Keeps a s)  : Keeps a (applyContain x1 s) := by
  unfold applyContain
  repeat' (first | with_reducible assumption | with_reducible apply postDev_keeps | with_reducible apply State.modRas_keeps | with_reducible refine Keeps.foldl ?_ _ ?_ | with_reducible refine Keeps.foldl_snd ?_ _ ?_ | intro _ | with_reducible refine Keeps.snd (by with_reducible assumption) ?_ | split)

theorem applyRelease_keeps {a : State} {x1 : _} {s : State} (h : Keeps a s)  : Keeps a (applyRelease x1 s) := by
  unfold applyRelease
  repeat' (first | with_reducible assumption | with_reducible apply postDev_keeps | with_reducible apply State.modRas_keeps | with_reducible refine Keeps.foldl ?_ _ ?_ | with_reducible refine Keeps.foldl_snd ?_ _ ?_ | intro _ | with_reducible refine Keeps.snd (by with_reducible assumption) ?_ | split)

theorem passOn_keeps {a : State} {x1 : _} {x2 : _} {x3 : _} {x4 : _} {s : State} (hx4 : ∀ y0, Keeps a y0 → Keeps a (x4 y0)) (h : Keeps a s)  : Keeps a (passOn x1 x2 x3 x4 s) := by
  unfold passOn
  repeat' (first | with_reducible assumption | with_reducible apply emit_keeps | with_reducible apply noteSeen_keeps | with_reducible apply hx4 | with_reducible refine Keeps.foldl ?_ _ ?_ | with_reducible refine Keeps.foldl_snd ?_ _ ?_ | intro _ | with_reducible refine Keeps.snd (by with_reducible assumption) ?_ | split)

theorem execCompContain_keeps {a : State} {x1 x2 x3 : _}  : Runs a (execCompContain x1 x2 x3) := by
  unfold execCompContain
  repeat' (first | with_reducible assumption | with_reducible refine Runs.complete ?_ | with_reducible apply passOn_keeps | with_reducible apply applyContain_keeps | with_reducible apply sawEpoch_keeps | with_reducible refine Keeps.foldl ?_ _ ?_ | with_reducible refine Keeps.foldl_snd ?_ _ ?_ | intro _)

theorem execCompRelease_keeps {a : State} {x1 x2 x3 : _}  : Runs a (execCompRelease x1 x2 x3) := by
  unfold execCompRelease
  repeat' (first | with_reducible assumption | with_reducible refine Runs.complete ?_ | with_reducible apply passOn_keeps | with_reducible apply applyRelease_keeps | with_reducible apply sawEpoch_keeps | with_reducible refine Keeps.foldl ?_ _ ?_ | with_reducible refine Keeps.foldl_snd ?_ _ ?_ | intro _)

theorem startContainment_keeps {a : State} {x1 : _} {s : State} (h : Keeps a s)  : Keeps a (startContainment x1 s) := by
  unfold startContainment
  repeat' (first | with_reducible assumption | with_reducible apply reach_keeps | with_reducible apply State.modFlt_keeps | with_reducible apply applyContain_keeps | with_reducible apply flood_keeps | with_reducible refine Keeps.foldl ?_ _ ?_ | with_reducible refine Keeps.foldl_snd ?_ _ ?_ | intro _ | with_reducible refine Keeps.snd (by with_reducible assumption) ?_ | split)

theorem execContainmentStart_keeps {a : State} {x1 : _}  : Runs a (execContainmentStart x1) := by
  unfold execContainmentStart
  repeat' (first | with_reducible assumption | with_reducible refine Runs.complete ?_ | with_reducible apply startContainment_keeps)

theorem execCompPolicy_keeps {a : State} {x1 x2 x3 : _}  : Runs a (execCompPolicy x1 x2 x3) := by
  unfold execCompPolicy
  repeat' (first | with_reducible assumption | with_reducible refine Runs.complete ?_ | with_reducible apply issue_keeps | with_reducible apply cmdDone_keeps | with_reducible apply State.modRas_keeps | with_reducible refine Keeps.foldl ?_ _ ?_ | with_reducible refine Keeps.foldl_snd ?_ _ ?_ | intro _ | with_reducible refine Keeps.snd (by with_reducible assumption) ?_ | split)

theorem execCompReleaseCmd_keeps {a : State} {x1 x2 : _}  : Runs a (execCompReleaseCmd x1 x2) := by
  unfold execCompReleaseCmd
  repeat' (first | with_reducible assumption | with_reducible refine Runs.complete ?_ | with_reducible apply issue_keeps | with_reducible apply cmdDone_keeps | with_reducible apply flood_keeps | with_reducible apply applyRelease_keeps | with_reducible refine Keeps.foldl ?_ _ ?_ | with_reducible refine Keeps.foldl_snd ?_ _ ?_ | intro _)

end Sys2Proof.Machine
end

