-- ==== Sys2Proof/Laws/KeepsTracker.lean ====
section
/-! SUPPORT. What the operations of Machine/Tracker.lean keep (Laws/Keeps.lean). -/

namespace Sys2Proof.Machine

open Sys2Proof

theorem unitPlaced_keeps {a : State} {x1 : _} {x2 : _} {s : State} (h : Keeps a s)  : Keeps a (unitPlaced x1 x2 s) := by
  unfold unitPlaced
  repeat' (first | with_reducible assumption | with_reducible apply postExt_keeps | with_reducible apply programUnit_keeps | with_reducible apply wbBuddyDone_keeps | with_reducible refine Keeps.foldl ?_ _ ?_ | with_reducible refine Keeps.foldl_snd ?_ _ ?_ | intro _ | with_reducible refine Keeps.snd (by with_reducible assumption) ?_ | split)

theorem trackDone_keeps {a : State} {x1 : _} {x2 : _} {s : State} (h : Keeps a s)  : Keeps a (trackDone x1 x2 s) := by
  unfold trackDone
  repeat' (first | with_reducible assumption | with_reducible apply State.modHome_keeps | with_reducible apply aperPump_keeps | with_reducible apply hostAnswered_keeps | with_reducible apply hostPump_keeps | with_reducible apply aperAnswered_keeps | with_reducible apply pump_keeps | with_reducible apply jobAnswered_keeps | with_reducible apply unitAnswered_keeps | with_reducible apply tableStep_keeps | with_reducible apply copyAnswered_keeps | with_reducible apply advanceDone_keeps | with_reducible apply registered_keeps | with_reducible apply barrierAsked_keeps | with_reducible apply unitPlaced_keeps | with_reducible apply cutGranted_keeps | with_reducible refine Keeps.foldl ?_ _ ?_ | with_reducible refine Keeps.foldl_snd ?_ _ ?_ | intro _ | with_reducible refine Keeps.snd (by with_reducible assumption) ?_ | split)

theorem takeAnswer_keeps {a : State} {x1 : _} {s : State} (h : Keeps a s)  : Keeps a (takeAnswer x1 s) := by
  unfold takeAnswer
  repeat' (first | with_reducible assumption | with_reducible apply countRC_keeps | with_reducible apply trackDone_keeps | with_reducible refine Keeps.foldl ?_ _ ?_ | with_reducible refine Keeps.foldl_snd ?_ _ ?_ | intro _ | with_reducible refine Keeps.snd (by with_reducible assumption) ?_ | split)

theorem execAnswerArrival_keeps {a : State} {x1 : _}  : Runs a (execAnswerArrival x1) := by
  unfold execAnswerArrival
  repeat' (first | with_reducible assumption | with_reducible refine Runs.complete ?_ | with_reducible apply takeAnswer_keeps)

theorem trackEnd_keeps {a : State} {x1 : _} {x2 : _} {s : State} (h : Keeps a s)  : Keeps a (trackEnd x1 x2 s) := by
  unfold trackEnd
  repeat' (first | with_reducible assumption | with_reducible apply trackDone_keeps)

theorem trackLate_keeps {a : State} {x1 : _} {x2 : _} {s : State} (h : Keeps a s)  : Keeps a (trackLate x1 x2 s) := by
  unfold trackLate
  repeat' (first | with_reducible assumption | with_reducible apply reach_keeps | with_reducible apply trackEnd_keeps | with_reducible apply raise_keeps | with_reducible refine Keeps.foldl ?_ _ ?_ | with_reducible refine Keeps.foldl_snd ?_ _ ?_ | intro _ | with_reducible refine Keeps.snd (by with_reducible assumption) ?_ | split)

theorem execTrackerTimeout_keeps {a : State} {x1 x2 : _}  : Runs a (execTrackerTimeout x1 x2) := by
  unfold execTrackerTimeout
  repeat' (first | with_reducible assumption | with_reducible refine Runs.complete ?_ | with_reducible apply trackLate_keeps)

end Sys2Proof.Machine
end

