-- ==== Sys2Proof/Laws/KeepsLedger.lean ====
section
/-! SUPPORT. What the operations of Machine/Ledger.lean keep (Laws/Keeps.lean). -/

namespace Sys2Proof.Machine

open Sys2Proof

theorem placeLine_keeps {a : State} {x1 : _} {s : State} (h : Keeps a s)  : Keeps a (placeLine x1 s) := by
  unfold placeLine
  repeat' (first | with_reducible assumption | with_reducible apply untilReady_keeps | with_reducible apply installData_keeps | with_reducible apply recordWrite_keeps)

theorem dropFoster_keeps {a : State} {x1 : _} {x2 : _} {s : State} (h : Keeps a s)  : Keeps a (dropFoster x1 x2 s) := by
  unfold dropFoster
  repeat' (first | with_reducible assumption | with_reducible apply State.modFlt_keeps | with_reducible apply State.modTier_keeps | with_reducible apply State.modFlash_keeps | with_reducible refine Keeps.foldl ?_ _ ?_ | with_reducible refine Keeps.foldl_snd ?_ _ ?_ | (exact fun _ h => h) | (exact fun _ _ => rfl) | intro _ | with_reducible apply clearSpan_wf)

theorem takeHand_keeps {a : State} {x1 : _} {s : State} (h : Keeps a s)  : Keeps a (takeHand x1 s) := by
  unfold takeHand
  repeat' (first | with_reducible assumption | with_reducible apply feedCopies_keeps | with_reducible apply State.modHome_keeps | with_reducible apply State.modFlt_keeps | with_reducible apply setOwner_keeps | with_reducible apply pump_keeps | with_reducible apply placeLine_keeps | with_reducible apply emitAll_keeps | with_reducible apply shardMoved_keeps | with_reducible refine Keeps.foldl ?_ _ ?_ | with_reducible refine Keeps.foldl_snd ?_ _ ?_ | intro _ | with_reducible refine Keeps.snd (by with_reducible assumption) ?_ | split)

theorem dropHand_keeps {a : State} {x1 : _} {s : State} (h : Keeps a s)  : Keeps a (dropHand x1 s) := by
  unfold dropHand
  repeat' (first | with_reducible assumption | with_reducible apply State.modHome_keeps | with_reducible apply dropFoster_keeps | with_reducible apply State.modEmb_keeps | with_reducible apply shardMoved_keeps | with_reducible refine Keeps.foldl ?_ _ ?_ | with_reducible refine Keeps.foldl_snd ?_ _ ?_ | intro _ | with_reducible refine Keeps.snd (by with_reducible assumption) ?_ | split)

theorem keepHand_keeps {a : State} {x1 : _} {s : State} (h : Keeps a s)  : Keeps a (keepHand x1 s) := by
  unfold keepHand
  repeat' (first | with_reducible assumption | with_reducible apply endCopy_keeps | with_reducible apply feedCopies_keeps | with_reducible apply modCopy_keeps | with_reducible apply pump_keeps | with_reducible apply setExtState_keeps | with_reducible apply State.modEmb_keeps | with_reducible refine Keeps.foldl ?_ _ ?_ | with_reducible refine Keeps.foldl_snd ?_ _ ?_ | intro _ | with_reducible refine Keeps.snd (by with_reducible assumption) ?_ | split)

theorem handStep_keeps {a : State} {x1 : _} {s : State} (h : Keeps a s)  : Keeps a (handStep x1 s) := by
  unfold handStep
  repeat' (first | with_reducible assumption | with_reducible apply emit_keeps | with_reducible refine Keeps.foldl ?_ _ ?_ | with_reducible refine Keeps.foldl_snd ?_ _ ?_ | intro _ | with_reducible refine Keeps.snd (by with_reducible assumption) ?_ | split)

theorem handGo_keeps {a : State} {s : State} (h : Keeps a s)  : Keeps a (handGo s) := by
  unfold handGo
  repeat' (first | with_reducible assumption | with_reducible apply handStep_keeps | with_reducible apply State.modFlt_keeps | with_reducible refine Keeps.foldl ?_ _ ?_ | with_reducible refine Keeps.foldl_snd ?_ _ ?_ | intro _)

theorem writeHand_keeps {a : State} {x1 : _} {s : State} (h : Keeps a s)  : Keeps a (writeHand x1 s) := by
  unfold writeHand
  repeat' (first | with_reducible assumption | with_reducible apply State.modFlt_keeps | with_reducible apply handGo_keeps | with_reducible apply journalCtl_keeps)

theorem offerHand_keeps {a : State} {x1 : _} {x2 : _} {x3 : _} {x4 : _} {x5 : _} {s : State} (h : Keeps a s)  : Keeps a (offerHand x1 x2 x3 x4 x5 s) := by
  unfold offerHand
  repeat' (first | with_reducible assumption | with_reducible apply fleetRec_keeps | with_reducible apply State.modFlt_keeps | with_reducible apply modCopy_keeps | with_reducible apply State.modEmb_keeps | with_reducible apply writeHand_keeps | with_reducible refine Keeps.foldl ?_ _ ?_ | with_reducible refine Keeps.foldl_snd ?_ _ ?_ | intro _ | with_reducible refine Keeps.snd (by with_reducible assumption) ?_ | split)

theorem offerFoster_keeps {a : State} {x1 : _} {s : State} (h : Keeps a s)  : Keeps a (offerFoster x1 s) := by
  unfold offerFoster
  repeat' (first | with_reducible assumption | with_reducible apply offerHand_keeps)

theorem noteOffer_keeps {a : State} {x1 : _} {x2 : _} {s : State} (h : Keeps a s)  : Keeps a (noteOffer x1 x2 s) := by
  unfold noteOffer
  repeat' (first | with_reducible assumption | with_reducible apply State.modFlt_keeps)

theorem takeOffer_keeps {a : State} {x1 : _} {x2 : _} {s : State} (h : Keeps a s)  : Keeps a (takeOffer x1 x2 s) := by
  unfold takeOffer
  repeat' (first | with_reducible assumption | with_reducible apply withSome_keeps | with_reducible apply handStep_keeps | with_reducible apply noteOffer_keeps | with_reducible apply takeHand_keeps | with_reducible apply writeHand_keeps | with_reducible refine Keeps.foldl ?_ _ ?_ | with_reducible refine Keeps.foldl_snd ?_ _ ?_ | intro _ | with_reducible refine Keeps.snd (by with_reducible assumption) ?_ | split | dsimp only)

theorem releaseHand_keeps {a : State} {x1 : _} {s : State} (h : Keeps a s)  : Keeps a (releaseHand x1 s) := by
  unfold releaseHand
  repeat' (first | with_reducible assumption | with_reducible apply dropHand_keeps | with_reducible apply writeHand_keeps | with_reducible refine Keeps.foldl ?_ _ ?_ | with_reducible refine Keeps.foldl_snd ?_ _ ?_ | intro _ | with_reducible refine Keeps.snd (by with_reducible assumption) ?_ | split)

theorem reclaimHand_keeps {a : State} {x1 : _} {s : State} (h : Keeps a s)  : Keeps a (reclaimHand x1 s) := by
  unfold reclaimHand
  repeat' (first | with_reducible assumption | with_reducible apply keepHand_keeps | with_reducible apply writeHand_keeps)

theorem expireHand_keeps {a : State} {x1 : _} {s : State} (h : Keeps a s)  : Keeps a (expireHand x1 s) := by
  unfold expireHand
  repeat' (first | with_reducible assumption | with_reducible apply reclaimHand_keeps | with_reducible apply reach_keeps | with_reducible apply offerFoster_keeps | with_reducible refine Keeps.foldl ?_ _ ?_ | with_reducible refine Keeps.foldl_snd ?_ _ ?_ | intro _ | with_reducible refine Keeps.snd (by with_reducible assumption) ?_ | split | dsimp only)

theorem endReg_keeps {a : State} {x1 : _} {s : State} (h : Keeps a s)  : Keeps a (endReg x1 s) := by
  unfold endReg
  repeat' (first | with_reducible assumption | with_reducible apply advance_keeps | with_reducible apply State.modHome_keeps)

theorem takeReclaim_keeps {a : State} {x1 : _} {s : State} (h : Keeps a s)  : Keeps a (takeReclaim x1 s) := by
  unfold takeReclaim
  repeat' (first | with_reducible assumption | with_reducible apply State.modFlt_keeps | with_reducible apply endReg_keeps | with_reducible refine Keeps.foldl ?_ _ ?_ | with_reducible refine Keeps.foldl_snd ?_ _ ?_ | intro _ | with_reducible refine Keeps.snd (by with_reducible assumption) ?_ | split | dsimp only)

theorem abandonHand_keeps {a : State} {x1 : _} {s : State} (h : Keeps a s)  : Keeps a (abandonHand x1 s) := by
  unfold abandonHand
  repeat' (first | with_reducible assumption | with_reducible apply fleetRec_keeps | with_reducible apply State.modFlt_keeps | with_reducible apply endReg_keeps | with_reducible refine Keeps.foldl ?_ _ ?_ | with_reducible refine Keeps.foldl_snd ?_ _ ?_ | intro _ | with_reducible refine Keeps.snd (by with_reducible assumption) ?_ | split)

theorem queryHand_keeps {a : State} {x1 : _} {x2 : _} {s : State} (h : Keeps a s)  : Keeps a (queryHand x1 x2 s) := by
  unfold queryHand
  repeat' (first | with_reducible assumption | with_reducible apply reach_keeps | with_reducible apply takeReclaim_keeps | with_reducible apply emit_keeps | with_reducible refine Keeps.foldl ?_ _ ?_ | with_reducible refine Keeps.foldl_snd ?_ _ ?_ | intro _ | with_reducible refine Keeps.snd (by with_reducible assumption) ?_ | split | dsimp only)

theorem answerQuery_keeps {a : State} {x1 : _} {x2 : _} {s : State} (h : Keeps a s)  : Keeps a (answerQuery x1 x2 s) := by
  unfold answerQuery
  repeat' (first | with_reducible assumption | with_reducible apply emit_keeps)

theorem takeLedger_keeps {a : State} {x1 : _} {s : State} (h : Keeps a s)  : Keeps a (takeLedger x1 s) := by
  unfold takeLedger
  repeat' (first | with_reducible assumption | with_reducible apply releaseHand_keeps | with_reducible apply abandonHand_keeps | with_reducible apply takeReclaim_keeps | with_reducible refine Keeps.foldl ?_ _ ?_ | with_reducible refine Keeps.foldl_snd ?_ _ ?_ | intro _ | with_reducible refine Keeps.snd (by with_reducible assumption) ?_ | split)

end Sys2Proof.Machine
end

