-- ==== Sys2Proof/Laws/KeepsDepart.lean ====
section
/-! SUPPORT. What the operations of Machine/Depart.lean keep (Laws/Keeps.lean). -/

namespace Sys2Proof.Machine

open Sys2Proof

theorem beginRecall_keeps {a : State} {s : State} (h : Keeps a s)  : Keeps a (beginRecall s) := by
  unfold beginRecall
  repeat' (first | with_reducible assumption | with_reducible apply recallEnt_keeps | with_reducible apply State.modHp_keeps | with_reducible refine Keeps.foldl ?_ _ ?_ | with_reducible refine Keeps.foldl_snd ?_ _ ?_ | intro _)

theorem endRecall_keeps {a : State} {s : State} (h : Keeps a s)  : Keeps a (endRecall s) := by
  unfold endRecall
  repeat' (first | with_reducible assumption | with_reducible apply State.modHp_keeps | with_reducible apply reach_keeps | with_reducible refine Keeps.foldl ?_ _ ?_ | with_reducible refine Keeps.foldl_snd ?_ _ ?_ | intro _ | with_reducible refine Keeps.snd (by with_reducible assumption) ?_ | split)

theorem offerCopies_keeps {a : State} {s : State} (h : Keeps a s)  : Keeps a (offerCopies s) := by
  unfold offerCopies
  repeat' (first | with_reducible assumption | with_reducible apply offerHand_keeps | with_reducible refine Keeps.foldl ?_ _ ?_ | with_reducible refine Keeps.foldl_snd ?_ _ ?_ | intro _)

theorem endCopies_keeps {a : State} {s : State} (h : Keeps a s)  : Keeps a (endCopies s) := by
  unfold endCopies
  repeat' (first | with_reducible assumption | with_reducible apply endCopy_keeps | with_reducible refine Keeps.foldl ?_ _ ?_ | with_reducible refine Keeps.foldl_snd ?_ _ ?_ | intro _)

theorem endHeld_keeps {a : State} {s : State} (h : Keeps a s)  : Keeps a (endHeld s) := by
  unfold endHeld
  repeat' (first | with_reducible assumption | with_reducible apply finish_keeps | with_reducible refine Keeps.foldl ?_ _ ?_ | with_reducible refine Keeps.foldl_snd ?_ _ ?_ | intro _ | with_reducible refine Keeps.snd (by with_reducible assumption) ?_ | split)

theorem depart_keeps {a : State} {s : State} (h : Keeps a s)  : Keeps a (depart s) := by
  unfold depart
  repeat' (first | with_reducible assumption | with_reducible apply departNotice_keeps | with_reducible apply offerCopies_keeps | with_reducible apply State.modSys_keeps | with_reducible apply endCopies_keeps | with_reducible apply endHeld_keeps | with_reducible apply barrierStep_keeps | with_reducible refine Keeps.foldl ?_ _ ?_ | with_reducible refine Keeps.foldl_snd ?_ _ ?_ | (exact Nat.le_refl _) | (exact Nat.le_max_left _ _) | (exact Nat.le_add_right _ _) | intro _)

theorem endFills_keeps {a : State} {s : State} (h : Keeps a s)  : Keeps a (endFills s) := by
  unfold endFills
  repeat' (first | with_reducible assumption | with_reducible apply endFill_keeps | with_reducible refine Keeps.foldl ?_ _ ?_ | with_reducible refine Keeps.foldl_snd ?_ _ ?_ | intro _)

theorem endWriteBacks_keeps {a : State} {s : State} (h : Keeps a s)  : Keeps a (endWriteBacks s) := by
  unfold endWriteBacks
  repeat' (first | with_reducible assumption | with_reducible apply finishWriteBack_keeps | with_reducible apply abandonWriteBack_keeps | with_reducible refine Keeps.foldl ?_ _ ?_ | with_reducible refine Keeps.foldl_snd ?_ _ ?_ | intro _ | with_reducible refine Keeps.snd (by with_reducible assumption) ?_ | split)

theorem drainRing_keeps {a : State} {s : State} (h : Keeps a s)  : Keeps a (drainRing s) := by
  unfold drainRing
  repeat' (first | with_reducible assumption | with_reducible apply programRecs_keeps | with_reducible apply endBarrier_keeps | with_reducible apply State.modJrn_keeps | with_reducible refine Keeps.foldl ?_ _ ?_ | with_reducible refine Keeps.foldl_snd ?_ _ ?_ | intro _ | with_reducible refine Keeps.snd (by with_reducible assumption) ?_ | split)

theorem enterReset_keeps {a : State} {s : State} (h : Keeps a s)  : Keeps a (enterReset s) := by
  unfold enterReset
  repeat' (first | with_reducible assumption | with_reducible apply State.modJrn_keeps | with_reducible apply State.modPins_keeps | with_reducible apply leaveReset_keeps | with_reducible apply State.modSys_keeps | with_reducible refine Keeps.foldl ?_ _ ?_ | with_reducible refine Keeps.foldl_snd ?_ _ ?_ | (exact Nat.le_refl _))

theorem departTry_keeps {a : State} {x1 : _} {s : State} (h : Keeps a s)  : Keeps a (departTry x1 s) := by
  induction x1 generalizing s  with
  | zero =>
    unfold departTry
    repeat' (with_reducible assumption)
  | succ k ih =>
    unfold departTry
    repeat' (first | with_reducible assumption | with_reducible apply ih | with_reducible apply endRecall_keeps | with_reducible apply State.modCoh_keeps | with_reducible apply State.modSys_keeps | with_reducible apply writeBackDir_keeps | with_reducible apply drainRing_keeps | with_reducible apply endWriteBacks_keeps | with_reducible apply endFills_keeps | with_reducible apply enterReset_keeps | with_reducible refine Keeps.foldl ?_ _ ?_ | with_reducible refine Keeps.foldl_snd ?_ _ ?_ | (exact Nat.le_refl _) | (exact Nat.le_max_left _ _) | (exact Nat.le_add_right _ _) | intro _ | with_reducible refine Keeps.snd (by with_reducible assumption) ?_ | split)

theorem departGo_keeps {a : State} {s : State} (h : Keeps a s)  : Keeps a (departGo s) := by
  unfold departGo
  repeat' (first | with_reducible assumption | with_reducible apply departTry_keeps)

theorem beginWarm_keeps {a : State} {x1 : _} {s : State} (h : Keeps a s)  : Keeps a (beginWarm x1 s) := by
  unfold beginWarm
  repeat' (first | with_reducible assumption | with_reducible apply depart_keeps | with_reducible apply State.modSys_keeps | with_reducible apply departGo_keeps | with_reducible apply beginRecall_keeps | with_reducible refine Keeps.foldl ?_ _ ?_ | with_reducible refine Keeps.foldl_snd ?_ _ ?_ | (exact Nat.le_refl _) | (exact Nat.le_max_left _ _) | (exact Nat.le_add_right _ _) | intro _ | with_reducible refine Keeps.snd (by with_reducible assumption) ?_ | split)

theorem execWarmResetBegin_keeps {a : State} {x1 : _}  : Runs a (execWarmResetBegin x1) := by
  unfold execWarmResetBegin
  repeat' (first | with_reducible assumption | with_reducible refine Runs.complete ?_ | with_reducible apply beginWarm_keeps)

theorem execQuiesceBound_keeps {a : State}  : Runs a (execQuiesceBound ) := by
  unfold execQuiesceBound
  repeat' (first | with_reducible assumption | with_reducible refine Runs.complete ?_ | with_reducible apply departGo_keeps | with_reducible apply endQuiesce_keeps | with_reducible refine Keeps.foldl ?_ _ ?_ | with_reducible refine Keeps.foldl_snd ?_ _ ?_ | intro _)

end Sys2Proof.Machine
end

