-- ==== Sys2Proof/Laws/KeepsFleetState.lean ====
section
/-! SUPPORT. What the operations of Machine/FleetState.lean keep (Laws/Keeps.lean). -/

namespace Sys2Proof.Machine

open Sys2Proof

theorem reroute_keeps {a : State} {s : State} (h : Keeps a s)  : Keeps a (reroute s) := by
  unfold reroute
  repeat' (first | with_reducible assumption | with_reducible apply State.modFab_keeps)

theorem resendCtl_keeps {a : State} {s : State} (h : Keeps a s)  : Keeps a (resendCtl s) := by
  unfold resendCtl
  repeat' (first | with_reducible assumption | with_reducible apply emit_keeps | with_reducible apply State.modFlt_keeps | with_reducible refine Keeps.foldl ?_ _ ?_ | with_reducible refine Keeps.foldl_snd ?_ _ ?_ | intro _ | with_reducible refine Keeps.snd (by with_reducible assumption) ?_ | split)

theorem ctlGo_keeps {a : State} {s : State} (h : Keeps a s)  : Keeps a (ctlGo s) := by
  unfold ctlGo
  repeat' (first | with_reducible assumption | with_reducible apply handGo_keeps | with_reducible apply extGo_keeps | with_reducible apply pump_keeps | with_reducible apply commitTry_keeps | with_reducible refine Keeps.foldl ?_ _ ?_ | with_reducible refine Keeps.foldl_snd ?_ _ ?_ | intro _)

theorem keepCtl_keeps {a : State} {x1 : _} {s : State} (h : Keeps a s)  : Keeps a (keepCtl x1 s) := by
  unfold keepCtl
  repeat' (first | with_reducible assumption | with_reducible apply State.modFlt_keeps)

theorem takeCtl_keeps {a : State} {x1 : _} {x2 : _} {s : State} (h : Keeps a s)  : Keeps a (takeCtl x1 x2 s) := by
  unfold takeCtl
  repeat' (first | with_reducible assumption | with_reducible apply State.modFlash_keeps | with_reducible apply emit_keeps | with_reducible apply keepCtl_keeps | with_reducible refine Keeps.foldl ?_ _ ?_ | with_reducible refine Keeps.foldl_snd ?_ _ ?_ | intro _ | with_reducible refine Keeps.snd (by with_reducible assumption) ?_ | split)

theorem takeCtlConfirm_keeps {a : State} {x1 : _} {x2 : _} {s : State} (h : Keeps a s)  : Keeps a (takeCtlConfirm x1 x2 s) := by
  unfold takeCtlConfirm
  repeat' (first | with_reducible assumption | with_reducible apply ctlGo_keeps | with_reducible apply State.modFlt_keeps | with_reducible apply State.modExt_keeps | with_reducible refine Keeps.foldl ?_ _ ?_ | with_reducible refine Keeps.foldl_snd ?_ _ ?_ | intro _ | with_reducible refine Keeps.snd (by with_reducible assumption) ?_ | split)

theorem buddyGone_keeps {a : State} {x1 : _} {s : State} (h : Keeps a s)  : Keeps a (buddyGone x1 s) := by
  unfold buddyGone
  repeat' (first | with_reducible assumption | with_reducible apply State.modJrn_keeps | with_reducible apply confirmed_keeps | with_reducible apply wbBuddyDone_keeps | with_reducible apply fetchLost_keeps | with_reducible apply postDev_keeps | with_reducible refine Keeps.foldl ?_ _ ?_ | with_reducible refine Keeps.foldl_snd ?_ _ ?_ | intro _ | with_reducible refine Keeps.snd (by with_reducible assumption) ?_ | split | dsimp only)

theorem buddyBack_keeps {a : State} {x1 : _} {s : State} (h : Keeps a s)  : Keeps a (buddyBack x1 s) := by
  unfold buddyBack
  repeat' (first | with_reducible assumption | with_reducible apply emitAll_keeps | with_reducible apply State.modJrn_keeps | with_reducible apply endPairLost_keeps | with_reducible apply emit_keeps | with_reducible apply trackUnit_keeps | with_reducible refine Keeps.foldl ?_ _ ?_ | with_reducible refine Keeps.foldl_snd ?_ _ ?_ | intro _ | with_reducible refine Keeps.snd (by with_reducible assumption) ?_ | split | dsimp only)

theorem beginFoster_keeps {a : State} {x1 : _} {s : State} (h : Keeps a s)  : Keeps a (beginFoster x1 s) := by
  unfold beginFoster
  repeat' (first | with_reducible assumption | with_reducible apply State.modFlt_keeps)

theorem installCopies_keeps {a : State} {x1 : _} {x2 : _} {s : State} (h : Keeps a s)  : Keeps a (installCopies x1 x2 s) := by
  unfold installCopies
  repeat' (first | with_reducible assumption | with_reducible apply State.modFlash_keeps | with_reducible refine Keeps.foldl ?_ _ ?_ | with_reducible refine Keeps.foldl_snd ?_ _ ?_ | intro _)

theorem fosterReady_keeps {a : State} {x1 : _} {x2 : _} {s : State} (h : Keeps a s)  : Keeps a (fosterReady x1 x2 s) := by
  unfold fosterReady
  repeat' (first | with_reducible assumption | with_reducible apply installCopies_keeps | with_reducible apply State.modFlash_keeps | with_reducible apply installRec_keeps | with_reducible apply pump_keeps | with_reducible apply State.modFlt_keeps | with_reducible refine Keeps.foldl ?_ _ ?_ | with_reducible refine Keeps.foldl_snd ?_ _ ?_ | intro _ | with_reducible refine Keeps.snd (by with_reducible assumption) ?_ | split)

theorem modStandIn_keeps {a : State} {x1 : _} {x2 : _} {s : State} (h : Keeps a s)  : Keeps a (modStandIn x1 x2 s) := by
  unfold modStandIn
  repeat' (first | with_reducible assumption | with_reducible apply State.modFlt_keeps)

theorem askNext_keeps {a : State} {x1 : _} {s : State} (h : Keeps a s)  : Keeps a (askNext x1 s) := by
  unfold askNext
  repeat' (first | with_reducible assumption | with_reducible apply tell_keeps | with_reducible apply modStandIn_keeps | with_reducible apply fleetRec_keeps | with_reducible refine Keeps.foldl ?_ _ ?_ | with_reducible refine Keeps.foldl_snd ?_ _ ?_ | intro _ | with_reducible refine Keeps.snd (by with_reducible assumption) ?_ | split)

theorem startAdoption_keeps {a : State} {x1 : _} {s : State} (h : Keeps a s)  : Keeps a (startAdoption x1 s) := by
  unfold startAdoption
  repeat' (first | with_reducible assumption | with_reducible apply askNext_keeps | with_reducible apply modStandIn_keeps | with_reducible refine Keeps.foldl ?_ _ ?_ | with_reducible refine Keeps.foldl_snd ?_ _ ?_ | intro _ | with_reducible refine Keeps.snd (by with_reducible assumption) ?_ | split)

theorem ownerGone_keeps {a : State} {x1 : _} {s : State} (h : Keeps a s)  : Keeps a (ownerGone x1 s) := by
  unfold ownerGone
  repeat' (first | with_reducible assumption | with_reducible apply endReg_keeps | with_reducible refine Keeps.foldl ?_ _ ?_ | with_reducible refine Keeps.foldl_snd ?_ _ ?_ | intro _)

theorem deposeFrom_keeps {a : State} {x1 : _} {s : State} (h : Keeps a s)  : Keeps a (deposeFrom x1 s) := by
  unfold deposeFrom
  repeat' (first | with_reducible assumption | with_reducible apply setOwner_keeps | with_reducible apply State.modOwn_keeps | with_reducible apply journalCtl_keeps | with_reducible apply recallHolder_keeps | with_reducible refine Keeps.foldl ?_ _ ?_ | with_reducible refine Keeps.foldl_snd ?_ _ ?_ | intro _)

theorem agentsGone_keeps {a : State} {x1 : _} {s : State} (h : Keeps a s)  : Keeps a (agentsGone x1 s) := by
  unfold agentsGone
  repeat' (first | with_reducible assumption | with_reducible apply startSweep_keeps | with_reducible refine Keeps.foldl ?_ _ ?_ | with_reducible refine Keeps.foldl_snd ?_ _ ?_ | intro _ | with_reducible refine Keeps.snd (by with_reducible assumption) ?_ | split | dsimp only)

theorem peerGone_keeps {a : State} {x1 : _} {s : State} (h : Keeps a s)  : Keeps a (peerGone x1 s) := by
  unfold peerGone
  repeat' (first | with_reducible assumption | with_reducible apply reclaimHand_keeps | with_reducible refine Keeps.foldl ?_ _ ?_ | with_reducible refine Keeps.foldl_snd ?_ _ ?_ | intro _)

theorem fenceFollow_keeps {a : State} {x1 : _} {x2 : _} {s : State} (h : Keeps a s)  : Keeps a (fenceFollow x1 x2 s) := by
  unfold fenceFollow
  repeat' (first | with_reducible assumption | with_reducible apply startContainment_keeps | with_reducible apply startAdoption_keeps | with_reducible apply State.modFlt_keeps | with_reducible refine Keeps.foldl ?_ _ ?_ | with_reducible refine Keeps.foldl_snd ?_ _ ?_ | intro _ | with_reducible refine Keeps.snd (by with_reducible assumption) ?_ | split)

theorem applyFence_keeps {a : State} {x1 : _} {x2 : _} {s : State} (h : Keeps a s)  : Keeps a (applyFence x1 x2 s) := by
  unfold applyFence
  repeat' (first | with_reducible assumption | with_reducible apply reroute_keeps | with_reducible apply State.modFlt_keeps | with_reducible apply trackEnd_keeps | with_reducible apply peerGone_keeps | with_reducible apply ownerGone_keeps | with_reducible apply deposeFrom_keeps | with_reducible apply agentsGone_keeps | with_reducible apply beginFoster_keeps | with_reducible apply buddyGone_keeps | with_reducible apply State.modExt_keeps | with_reducible apply resendCtl_keeps | with_reducible apply fenceFollow_keeps | with_reducible apply fabPump_keeps | with_reducible apply ctlGo_keeps | with_reducible apply postDev_keeps | with_reducible refine Keeps.foldl ?_ _ ?_ | with_reducible refine Keeps.foldl_snd ?_ _ ?_ | intro _ | with_reducible refine Keeps.snd (by with_reducible assumption) ?_ | split)

theorem issueFence_keeps {a : State} {x1 : _} {x2 : _} {x3 : _} {s : State} (h : Keeps a s)  : Keeps a (issueFence x1 x2 x3 s) := by
  unfold issueFence
  repeat' (first | with_reducible assumption | with_reducible apply flood_keeps | with_reducible apply State.modFlt_keeps | with_reducible apply selfFence_keeps | with_reducible apply applyFence_keeps | with_reducible refine Keeps.foldl ?_ _ ?_ | with_reducible refine Keeps.foldl_snd ?_ _ ?_ | intro _ | with_reducible refine Keeps.snd (by with_reducible assumption) ?_ | split | dsimp only)

theorem applyUnfence_keeps {a : State} {x1 : _} {s : State} (h : Keeps a s)  : Keeps a (applyUnfence x1 s) := by
  unfold applyUnfence
  repeat' (first | with_reducible assumption | with_reducible apply reroute_keeps | with_reducible apply State.modFlt_keeps | with_reducible apply buddyBack_keeps | with_reducible apply offerFoster_keeps | with_reducible apply fabPump_keeps | with_reducible apply pump_keeps | with_reducible refine Keeps.foldl ?_ _ ?_ | with_reducible refine Keeps.foldl_snd ?_ _ ?_ | intro _ | with_reducible refine Keeps.snd (by with_reducible assumption) ?_ | split)

theorem applyAdopt_keeps {a : State} {x1 : _} {x2 : _} {s : State} (h : Keeps a s)  : Keeps a (applyAdopt x1 x2 s) := by
  unfold applyAdopt
  repeat' (first | with_reducible assumption | with_reducible apply reroute_keeps | with_reducible apply State.modFlt_keeps | with_reducible apply buddyBack_keeps | with_reducible apply offerFoster_keeps | with_reducible apply fabPump_keeps | with_reducible apply pump_keeps | with_reducible refine Keeps.foldl ?_ _ ?_ | with_reducible refine Keeps.foldl_snd ?_ _ ?_ | intro _)

end Sys2Proof.Machine
end

