-- ==== Sys2Proof/Laws/KeepsFleet.lean ====
section
/-! SUPPORT. What the operations of Machine/Fleet.lean keep (Laws/Keeps.lean). -/

namespace Sys2Proof.Machine

open Sys2Proof

theorem sendPulses_keeps {a : State} {s : State} (h : Keeps a s)  : Keeps a (sendPulses s) := by
  unfold sendPulses
  repeat' (first | with_reducible assumption | with_reducible apply State.modFlt_keeps | with_reducible apply tell_keeps | with_reducible refine Keeps.foldl ?_ _ ?_ | with_reducible refine Keeps.foldl_snd ?_ _ ?_ | intro _)

theorem execPulseSend_keeps {a : State}  : Runs a (execPulseSend ) := by
  unfold execPulseSend
  repeat' (first | with_reducible assumption | with_reducible refine Runs.complete ?_ | with_reducible apply sendPulses_keeps)

theorem takePulse_keeps {a : State} {x1 : _} {x2 : _} {x3 : _} {s : State} (h : Keeps a s)  : Keeps a (takePulse x1 x2 x3 s) := by
  unfold takePulse
  repeat' (first | with_reducible assumption | with_reducible apply State.modFlt_keeps | with_reducible apply modFabLink_keeps | with_reducible apply beginTimer_keeps | with_reducible apply unsuspectPeer_keeps | with_reducible refine Keeps.foldl ?_ _ ?_ | with_reducible refine Keeps.foldl_snd ?_ _ ?_ | intro _ | with_reducible refine Keeps.snd (by with_reducible assumption) ?_ | split | dsimp only)

theorem execPulse_keeps {a : State} {x1 x2 x3 : _}  : Runs a (execPulse x1 x2 x3) := by
  unfold execPulse
  repeat' (first | with_reducible assumption | with_reducible refine Runs.complete ?_ | with_reducible apply takePulse_keeps | with_reducible apply sawEpoch_keeps | with_reducible refine Keeps.foldl ?_ _ ?_ | with_reducible refine Keeps.foldl_snd ?_ _ ?_ | intro _)

theorem execPulseSilence_keeps {a : State} {x1 : _}  : Runs a (execPulseSilence x1) := by
  unfold execPulseSilence
  repeat' (first | with_reducible assumption | with_reducible refine Runs.complete ?_ | with_reducible apply suspectPeer_keeps | with_reducible apply modFabLink_keeps | with_reducible apply elapsed_keeps | with_reducible refine Keeps.foldl ?_ _ ?_ | with_reducible refine Keeps.foldl_snd ?_ _ ?_ | intro _ | with_reducible refine Keeps.snd (by with_reducible assumption) ?_ | split)

theorem takeSuspect_keeps {a : State} {x1 : _} {x2 : _} {x3 : _} {s : State} (h : Keeps a s)  : Keeps a (takeSuspect x1 x2 x3 s) := by
  unfold takeSuspect
  repeat' (first | with_reducible assumption | with_reducible apply State.modFlt_keeps | with_reducible apply castVote_keeps | with_reducible apply tell_keeps | with_reducible refine Keeps.foldl ?_ _ ?_ | with_reducible refine Keeps.foldl_snd ?_ _ ?_ | intro _ | with_reducible refine Keeps.snd (by with_reducible assumption) ?_ | split)

theorem execSuspect_keeps {a : State} {x1 x2 x3 : _}  : Runs a (execSuspect x1 x2 x3) := by
  unfold execSuspect
  repeat' (first | with_reducible assumption | with_reducible refine Runs.complete ?_ | with_reducible apply takeSuspect_keeps | with_reducible apply sawEpoch_keeps | with_reducible refine Keeps.foldl ?_ _ ?_ | with_reducible refine Keeps.foldl_snd ?_ _ ?_ | intro _)

theorem takeClear_keeps {a : State} {x1 : _} {x2 : _} {x3 : _} {s : State} (h : Keeps a s)  : Keeps a (takeClear x1 x2 x3 s) := by
  unfold takeClear
  repeat' (first | with_reducible assumption | with_reducible apply State.modFlt_keeps | with_reducible apply castVote_keeps | with_reducible refine Keeps.foldl ?_ _ ?_ | with_reducible refine Keeps.foldl_snd ?_ _ ?_ | intro _ | with_reducible refine Keeps.snd (by with_reducible assumption) ?_ | split)

theorem execClear_keeps {a : State} {x1 x2 x3 : _}  : Runs a (execClear x1 x2 x3) := by
  unfold execClear
  repeat' (first | with_reducible assumption | with_reducible refine Runs.complete ?_ | with_reducible apply takeClear_keeps | with_reducible apply sawEpoch_keeps | with_reducible refine Keeps.foldl ?_ _ ?_ | with_reducible refine Keeps.foldl_snd ?_ _ ?_ | intro _)

theorem endHold_keeps {a : State} {x1 : _} {s : State} (h : Keeps a s)  : Keeps a (endHold x1 s) := by
  unfold endHold
  repeat' (first | with_reducible assumption | with_reducible apply State.modFlt_keeps | with_reducible apply reach_keeps | with_reducible apply issueFence_keeps | with_reducible refine Keeps.foldl ?_ _ ?_ | with_reducible refine Keeps.foldl_snd ?_ _ ?_ | intro _ | with_reducible refine Keeps.snd (by with_reducible assumption) ?_ | split | dsimp only)

theorem execSuspectHoldEnd_keeps {a : State} {x1 : _}  : Runs a (execSuspectHoldEnd x1) := by
  unfold execSuspectHoldEnd
  repeat' (first | with_reducible assumption | with_reducible refine Runs.complete ?_ | with_reducible apply endHold_keeps)

theorem isolate_keeps {a : State} {s : State} (h : Keeps a s)  : Keeps a (isolate s) := by
  unfold isolate
  repeat' (first | with_reducible assumption | with_reducible apply selfFence_keeps | with_reducible apply reach_keeps | with_reducible refine Keeps.foldl ?_ _ ?_ | with_reducible refine Keeps.foldl_snd ?_ _ ?_ | intro _ | with_reducible refine Keeps.snd (by with_reducible assumption) ?_ | split)

theorem execIsolation_keeps {a : State}  : Runs a (execIsolation ) := by
  unfold execIsolation
  repeat' (first | with_reducible assumption | with_reducible refine Runs.complete ?_ | with_reducible apply isolate_keeps)

theorem execFence_keeps {a : State} {x1 x2 : _}  : Runs a (execFence x1 x2) := by
  unfold execFence
  repeat' (first | with_reducible assumption | with_reducible refine Runs.complete ?_ | with_reducible apply passOn_keeps | with_reducible apply sawEpoch_keeps | with_reducible apply selfFence_keeps | with_reducible apply applyFence_keeps | with_reducible refine Keeps.foldl ?_ _ ?_ | with_reducible refine Keeps.foldl_snd ?_ _ ?_ | intro _ | with_reducible refine Keeps.snd (by with_reducible assumption) ?_ | split | dsimp only)

theorem execUnfence_keeps {a : State} {x1 : _}  : Runs a (execUnfence x1) := by
  unfold execUnfence
  repeat' (first | with_reducible assumption | with_reducible refine Runs.complete ?_ | with_reducible apply passOn_keeps | with_reducible apply applyUnfence_keeps | with_reducible apply sawEpoch_keeps | with_reducible refine Keeps.foldl ?_ _ ?_ | with_reducible refine Keeps.foldl_snd ?_ _ ?_ | intro _)

theorem execFltFenceCmd_keeps {a : State} {x1 x2 : _}  : Runs a (execFltFenceCmd x1 x2) := by
  unfold execFltFenceCmd
  repeat' (first | with_reducible assumption | with_reducible refine Runs.complete ?_ | with_reducible apply issueFence_keeps | with_reducible apply rejected_keeps | with_reducible refine Keeps.foldl ?_ _ ?_ | with_reducible refine Keeps.foldl_snd ?_ _ ?_ | intro _ | with_reducible refine Keeps.snd (by with_reducible assumption) ?_ | split)

theorem execPdown_keeps {a : State} {x1 : _}  : Runs a (execPdown x1) := by
  unfold execPdown
  repeat' (first | with_reducible assumption | with_reducible refine Runs.complete ?_ | with_reducible apply issueFence_keeps | with_reducible apply linkGone_keeps | with_reducible refine Keeps.foldl ?_ _ ?_ | with_reducible refine Keeps.foldl_snd ?_ _ ?_ | intro _ | with_reducible refine Keeps.snd (by with_reducible assumption) ?_ | split)

theorem sendJoin_keeps {a : State} {s : State} (h : Keeps a s)  : Keeps a (sendJoin s) := by
  unfold sendJoin
  repeat' (first | with_reducible assumption | with_reducible apply tell_keeps | with_reducible apply State.modFlt_keeps | with_reducible refine Keeps.foldl ?_ _ ?_ | with_reducible refine Keeps.foldl_snd ?_ _ ?_ | intro _)

theorem beginJoin_keeps {a : State} {s : State} (h : Keeps a s)  : Keeps a (beginJoin s) := by
  unfold beginJoin
  repeat' (first | with_reducible assumption | with_reducible apply State.modFlash_keeps | with_reducible apply State.modFlt_keeps | with_reducible apply sendJoin_keeps | with_reducible refine Keeps.foldl ?_ _ ?_ | with_reducible refine Keeps.foldl_snd ?_ _ ?_ | intro _ | with_reducible refine Keeps.snd (by with_reducible assumption) ?_ | split | dsimp only)

theorem answerJoin_keeps {a : State} {x1 : _} {s : State} (h : Keeps a s)  : Keeps a (answerJoin x1 s) := by
  unfold answerJoin
  repeat' (first | with_reducible assumption | with_reducible apply tell_keeps)

theorem takeJoin_keeps {a : State} {x1 : _} {x2 : _} {x3 : _} {s : State} (h : Keeps a s)  : Keeps a (takeJoin x1 x2 x3 s) := by
  unfold takeJoin
  repeat' (first | with_reducible assumption | with_reducible apply sawEpoch_keeps | with_reducible apply State.modFlt_keeps | with_reducible apply applyUnfence_keeps | with_reducible apply flood_keeps | with_reducible apply answerJoin_keeps | with_reducible apply resendCtl_keeps | with_reducible refine Keeps.foldl ?_ _ ?_ | with_reducible refine Keeps.foldl_snd ?_ _ ?_ | intro _ | with_reducible refine Keeps.snd (by with_reducible assumption) ?_ | split | dsimp only)

theorem execJoin_keeps {a : State} {x1 x2 x3 : _}  : Runs a (execJoin x1 x2 x3) := by
  unfold execJoin
  repeat' (first | with_reducible assumption | with_reducible refine Runs.complete ?_ | with_reducible apply takeJoin_keeps)

theorem eraseAll_keeps {a : State} {s : State} (h : Keeps a s)  : Keeps a (eraseAll s) := by
  unfold eraseAll
  repeat' (first | with_reducible assumption | with_reducible apply eraseExtent_keeps | with_reducible apply State.modFlash_keeps | with_reducible apply journalCtl_keeps | with_reducible apply State.modExt_keeps | with_reducible refine Keeps.foldl ?_ _ ?_ | with_reducible refine Keeps.foldl_snd ?_ _ ?_ | intro _)

theorem joinWork_keeps {a : State} {s : State} (h : Keeps a s)  : Keeps a (joinWork s) := by
  unfold joinWork
  repeat' (first | with_reducible assumption | with_reducible apply emitAll_keeps)

theorem takeJoinAns_keeps {a : State} {x1 : _} {x2 : _} {x3 : _} {x4 : _} {x5 : _} {s : State} (h : Keeps a s)  : Keeps a (takeJoinAns x1 x2 x3 x4 x5 s) := by
  unfold takeJoinAns
  repeat' (first | with_reducible assumption | with_reducible apply sawEpoch_keeps | with_reducible apply State.modFab_keeps | with_reducible apply reach_keeps | with_reducible apply reroute_keeps | with_reducible apply State.modFlt_keeps | with_reducible apply joinWork_keeps | with_reducible apply eraseAll_keeps | with_reducible apply tell_keeps | with_reducible refine Keeps.foldl ?_ _ ?_ | with_reducible refine Keeps.foldl_snd ?_ _ ?_ | intro _ | with_reducible refine Keeps.snd (by with_reducible assumption) ?_ | split | dsimp only)

theorem execJoinAns_keeps {a : State} {x1 x2 x3 x4 x5 : _}  : Runs a (execJoinAns x1 x2 x3 x4 x5) := by
  unfold execJoinAns
  repeat' (first | with_reducible assumption | with_reducible refine Runs.complete ?_ | with_reducible apply takeJoinAns_keeps)

theorem execJoinRetry_keeps {a : State}  : Runs a (execJoinRetry ) := by
  unfold execJoinRetry
  repeat' (first | with_reducible assumption | with_reducible refine Runs.complete ?_ | with_reducible apply sendJoin_keeps | with_reducible apply reach_keeps | with_reducible refine Keeps.foldl ?_ _ ?_ | with_reducible refine Keeps.foldl_snd ?_ _ ?_ | intro _ | with_reducible refine Keeps.snd (by with_reducible assumption) ?_ | split)

theorem execAdoptReq_keeps {a : State} {x1 : _}  : Runs a (execAdoptReq x1) := by
  unfold execAdoptReq
  repeat' (first | with_reducible assumption | with_reducible refine Runs.complete ?_ | with_reducible apply sawEpoch_keeps | with_reducible apply State.modFlt_keeps | with_reducible apply tell_keeps | with_reducible refine Keeps.foldl ?_ _ ?_ | with_reducible refine Keeps.foldl_snd ?_ _ ?_ | intro _ | with_reducible refine Keeps.snd (by with_reducible assumption) ?_ | split)

theorem execAdoptAns_keeps {a : State} {x1 x2 : _}  : Runs a (execAdoptAns x1 x2) := by
  unfold execAdoptAns
  repeat' (first | with_reducible assumption | with_reducible refine Runs.complete ?_ | with_reducible apply sawEpoch_keeps | with_reducible apply emit_keeps | with_reducible apply modStandIn_keeps | with_reducible apply askNext_keeps | with_reducible refine Keeps.foldl ?_ _ ?_ | with_reducible refine Keeps.foldl_snd ?_ _ ?_ | intro _ | with_reducible refine Keeps.snd (by with_reducible assumption) ?_ | split | dsimp only)

theorem raiseDeadline_keeps {a : State} {s : State} (h : Keeps a s)  : Keeps a (raiseDeadline s) := by
  unfold raiseDeadline
  repeat' (first | with_reducible assumption | with_reducible apply mismatch_keeps | with_reducible apply regSet_keeps | with_reducible refine Keeps.foldl ?_ _ ?_ | with_reducible refine Keeps.foldl_snd ?_ _ ?_ | intro _ | with_reducible refine Keeps.snd (by with_reducible assumption) ?_ | split | dsimp only)

theorem adoptState_keeps {a : State} {x1 : _} {s : State} (h : Keeps a s)  : Keeps a (adoptState x1 s) := by
  unfold adoptState
  repeat' (first | with_reducible assumption | with_reducible apply State.modExt_keeps | with_reducible apply State.modFlash_keeps | with_reducible apply State.modNmc_keeps | with_reducible apply State.modRas_keeps | with_reducible apply State.modJrn_keeps | with_reducible apply State.modFlt_keeps | with_reducible apply raiseDeadline_keeps | with_reducible apply advanceLoss_keeps | with_reducible apply flood_keeps | with_reducible apply reroute_keeps | with_reducible apply resendCtl_keeps | with_reducible apply pump_keeps | with_reducible refine Keeps.foldl ?_ _ ?_ | with_reducible refine Keeps.foldl_snd ?_ _ ?_ | intro _ | with_reducible refine Keeps.snd (by with_reducible assumption) ?_ | split)

theorem execControlStateReceived_keeps {a : State} {x1 : _}  : Runs a (execControlStateReceived x1) := by
  unfold execControlStateReceived
  repeat' (first | with_reducible assumption | with_reducible refine Runs.complete ?_ | with_reducible apply adoptState_keeps)

theorem execAdopt_keeps {a : State} {x1 x2 : _}  : Runs a (execAdopt x1 x2) := by
  unfold execAdopt
  repeat' (first | with_reducible assumption | with_reducible refine Runs.complete ?_ | with_reducible apply passOn_keeps | with_reducible apply applyAdopt_keeps | with_reducible apply sawEpoch_keeps | with_reducible refine Keeps.foldl ?_ _ ?_ | with_reducible refine Keeps.foldl_snd ?_ _ ?_ | intro _)

theorem execAdoptRetry_keeps {a : State} {x1 : _}  : Runs a (execAdoptRetry x1) := by
  unfold execAdoptRetry
  repeat' (first | with_reducible assumption | with_reducible refine Runs.complete ?_ | with_reducible apply startAdoption_keeps | with_reducible apply reach_keeps | with_reducible refine Keeps.foldl ?_ _ ?_ | with_reducible refine Keeps.foldl_snd ?_ _ ?_ | intro _ | with_reducible refine Keeps.snd (by with_reducible assumption) ?_ | split)

theorem execReturnWaitExpire_keeps {a : State} {x1 : _}  : Runs a (execReturnWaitExpire x1) := by
  unfold execReturnWaitExpire
  repeat' (first | with_reducible assumption | with_reducible refine Runs.complete ?_ | with_reducible apply startContainment_keeps | with_reducible apply reach_keeps | with_reducible apply startAdoption_keeps | with_reducible apply State.modFlt_keeps | with_reducible refine Keeps.foldl ?_ _ ?_ | with_reducible refine Keeps.foldl_snd ?_ _ ?_ | intro _ | with_reducible refine Keeps.snd (by with_reducible assumption) ?_ | split)

theorem execMemberFind_keeps {a : State} {x1 x2 : _}  : Runs a (execMemberFind x1 x2) := by
  unfold execMemberFind
  repeat' (first | with_reducible assumption | with_reducible refine Runs.complete ?_ | with_reducible apply sawEpoch_keeps | with_reducible apply tell_keeps | with_reducible refine Keeps.foldl ?_ _ ?_ | with_reducible refine Keeps.foldl_snd ?_ _ ?_ | intro _ | with_reducible refine Keeps.snd (by with_reducible assumption) ?_ | split | dsimp only)

theorem execMemberLoc_keeps {a : State} {x1 x2 x3 x4 : _}  : Runs a (execMemberLoc x1 x2 x3 x4) := by
  unfold execMemberLoc
  repeat' (first | with_reducible assumption | with_reducible refine Runs.complete ?_ | with_reducible apply sawEpoch_keeps | with_reducible apply State.modFlash_keeps | with_reducible refine Keeps.foldl ?_ _ ?_ | with_reducible refine Keeps.foldl_snd ?_ _ ?_ | intro _ | with_reducible refine Keeps.snd (by with_reducible assumption) ?_ | split | dsimp only)

theorem execStripeRebuild_keeps {a : State} {x1 : _}  : Runs a (execStripeRebuild x1) := by
  unfold execStripeRebuild
  repeat' (first | with_reducible assumption | with_reducible refine Runs.complete ?_ | with_reducible apply startWriteBack_keeps | with_reducible apply findUnit_keeps | with_reducible refine Keeps.foldl ?_ _ ?_ | with_reducible refine Keeps.foldl_snd ?_ _ ?_ | intro _ | with_reducible refine Keeps.snd (by with_reducible assumption) ?_ | split)

theorem execStripeMemberRead_keeps {a : State} {x1 x2 x3 x4 : _}  : Runs a (execStripeMemberRead x1 x2 x3 x4) := by
  unfold execStripeMemberRead
  repeat' (first | with_reducible assumption | with_reducible refine Runs.complete ?_ | with_reducible apply emit_keeps | with_reducible refine Keeps.foldl ?_ _ ?_ | with_reducible refine Keeps.foldl_snd ?_ _ ?_ | intro _ | with_reducible refine Keeps.snd (by with_reducible assumption) ?_ | split)

theorem execControlMirrorReceive_keeps {a : State} {x1 x2 : _}  : Runs a (execControlMirrorReceive x1 x2) := by
  unfold execControlMirrorReceive
  repeat' (first | with_reducible assumption | with_reducible refine Runs.complete ?_ | with_reducible apply takeCtl_keeps)

theorem execControlMirrorConfirm_keeps {a : State} {x1 x2 : _}  : Runs a (execControlMirrorConfirm x1 x2) := by
  unfold execControlMirrorConfirm
  repeat' (first | with_reducible assumption | with_reducible refine Runs.complete ?_ | with_reducible apply takeCtlConfirm_keeps)

theorem execFosterInstallDone_keeps {a : State} {x1 x2 : _}  : Runs a (execFosterInstallDone x1 x2) := by
  unfold execFosterInstallDone
  repeat' (first | with_reducible assumption | with_reducible refine Runs.complete ?_ | with_reducible apply fosterReady_keeps)

theorem execOffer_keeps {a : State} {x1 x2 x3 : _}  : Runs a (execOffer x1 x2 x3) := by
  unfold execOffer
  repeat' (first | with_reducible assumption | with_reducible refine Runs.complete ?_ | with_reducible apply takeOffer_keeps | with_reducible apply sawEpoch_keeps | with_reducible refine Keeps.foldl ?_ _ ?_ | with_reducible refine Keeps.foldl_snd ?_ _ ?_ | intro _)

theorem execReceived_keeps {a : State} {x1 x2 : _}  : Runs a (execReceived x1 x2) := by
  unfold execReceived
  repeat' (first | with_reducible assumption | with_reducible refine Runs.complete ?_ | with_reducible apply departGo_keeps | with_reducible apply releaseHand_keeps | with_reducible apply sawEpoch_keeps | with_reducible refine Keeps.foldl ?_ _ ?_ | with_reducible refine Keeps.foldl_snd ?_ _ ?_ | intro _)

theorem execReclaim_keeps {a : State} {x1 x2 : _}  : Runs a (execReclaim x1 x2) := by
  unfold execReclaim
  repeat' (first | with_reducible assumption | with_reducible refine Runs.complete ?_ | with_reducible apply takeReclaim_keeps | with_reducible apply sawEpoch_keeps | with_reducible refine Keeps.foldl ?_ _ ?_ | with_reducible refine Keeps.foldl_snd ?_ _ ?_ | intro _)

theorem execHandoffExpiry_keeps {a : State} {x1 : _}  : Runs a (execHandoffExpiry x1) := by
  unfold execHandoffExpiry
  repeat' (first | with_reducible assumption | with_reducible refine Runs.complete ?_ | with_reducible apply departGo_keeps | with_reducible apply expireHand_keeps | with_reducible refine Keeps.foldl ?_ _ ?_ | with_reducible refine Keeps.foldl_snd ?_ _ ?_ | intro _)

theorem execLedgerQueryDue_keeps {a : State} {x1 x2 : _}  : Runs a (execLedgerQueryDue x1 x2) := by
  unfold execLedgerQueryDue
  repeat' (first | with_reducible assumption | with_reducible refine Runs.complete ?_ | with_reducible apply queryHand_keeps)

theorem execLedgerQuery_keeps {a : State} {x1 x2 : _}  : Runs a (execLedgerQuery x1 x2) := by
  unfold execLedgerQuery
  repeat' (first | with_reducible assumption | with_reducible refine Runs.complete ?_ | with_reducible apply answerQuery_keeps | with_reducible apply sawEpoch_keeps | with_reducible refine Keeps.foldl ?_ _ ?_ | with_reducible refine Keeps.foldl_snd ?_ _ ?_ | intro _)

theorem execLedgerState_keeps {a : State} {x1 x2 : _}  : Runs a (execLedgerState x1 x2) := by
  unfold execLedgerState
  repeat' (first | with_reducible assumption | with_reducible refine Runs.complete ?_ | with_reducible apply departGo_keeps | with_reducible apply takeLedger_keeps | with_reducible apply sawEpoch_keeps | with_reducible refine Keeps.foldl ?_ _ ?_ | with_reducible refine Keeps.foldl_snd ?_ _ ?_ | intro _)

theorem takeDrill_keeps {a : State} {x1 : _} {s : State} (h : Keeps a s)  : Keeps a (takeDrill x1 s) := by
  unfold takeDrill
  repeat' (first | with_reducible assumption | with_reducible apply State.modFlt_keeps)

theorem scheduleDrill_keeps {a : State} {x1 : _} {s : State} (h : Keeps a s)  : Keeps a (scheduleDrill x1 s) := by
  unfold scheduleDrill
  repeat' (first | with_reducible assumption | with_reducible apply issue_keeps | with_reducible apply cmdDone_keeps | with_reducible apply State.modFlt_keeps | with_reducible apply tell_keeps | with_reducible refine Keeps.foldl ?_ _ ?_ | with_reducible refine Keeps.foldl_snd ?_ _ ?_ | intro _ | with_reducible refine Keeps.snd (by with_reducible assumption) ?_ | split | dsimp only)

theorem execDrillSchedule_keeps {a : State} {x1 : _}  : Runs a (execDrillSchedule x1) := by
  unfold execDrillSchedule
  repeat' (first | with_reducible assumption | with_reducible refine Runs.complete ?_ | with_reducible apply scheduleDrill_keeps)

theorem execDrill_keeps {a : State} {x1 x2 x3 : _}  : Runs a (execDrill x1 x2 x3) := by
  unfold execDrill
  repeat' (first | with_reducible assumption | with_reducible refine Runs.complete ?_ | with_reducible apply takeDrill_keeps | with_reducible apply sawEpoch_keeps | with_reducible refine Keeps.foldl ?_ _ ?_ | with_reducible refine Keeps.foldl_snd ?_ _ ?_ | intro _)

theorem asDrill_keeps {a : State} {x1 : _} {s : State} (hx1 : ∀ y0, Keeps a y0 → Keeps a (x1 y0)) (h : Keeps a s)  : Keeps a (asDrill x1 s) := by
  unfold asDrill
  repeat' (first | with_reducible assumption | with_reducible apply State.modRas_keeps | with_reducible apply hx1 | with_reducible refine Keeps.foldl ?_ _ ?_ | with_reducible refine Keeps.foldl_snd ?_ _ ?_ | intro _ | with_reducible refine Keeps.snd (by with_reducible assumption) ?_ | split | dsimp only | with_reducible refine Keeps.record rfl rfl rfl ?_)

theorem injectDrill_keeps {a : State} {x1 : _} {s : State} (h : Keeps a s)  : Keeps a (injectDrill x1 s) := by
  unfold injectDrill
  repeat' (first | with_reducible assumption | with_reducible apply loseLane_keeps | with_reducible apply modFabLink_keeps | with_reducible apply goDown_keeps | with_reducible apply tell_keeps | with_reducible apply requestWarm_keeps | with_reducible apply graftCore_keeps | with_reducible apply pump_keeps | with_reducible apply startFence_keeps | with_reducible apply askFec_keeps | with_reducible refine Keeps.foldl ?_ _ ?_ | with_reducible refine Keeps.foldl_snd ?_ _ ?_ | intro _ | with_reducible refine Keeps.snd (by with_reducible assumption) ?_ | split)

theorem startDrill_keeps {a : State} {s : State} (h : Keeps a s)  : Keeps a (startDrill s) := by
  unfold startDrill
  repeat' (first | with_reducible assumption | with_reducible apply asDrill_keeps | with_reducible apply injectDrill_keeps | with_reducible apply State.modFlt_keeps | with_reducible apply reach_keeps | with_reducible refine Keeps.foldl ?_ _ ?_ | with_reducible refine Keeps.foldl_snd ?_ _ ?_ | intro _ | with_reducible refine Keeps.snd (by with_reducible assumption) ?_ | split)

theorem execDrillStart_keeps {a : State}  : Runs a (execDrillStart ) := by
  unfold execDrillStart
  repeat' (first | with_reducible assumption | with_reducible refine Runs.complete ?_ | with_reducible apply startDrill_keeps)

theorem undoDrill_keeps {a : State} {x1 : _} {s : State} (h : Keeps a s)  : Keeps a (undoDrill x1 s) := by
  unfold undoDrill
  repeat' (first | with_reducible assumption | with_reducible apply goDown_keeps | with_reducible apply modFabLink_keeps | with_reducible apply tell_keeps | with_reducible apply pump_keeps | with_reducible apply startFence_keeps | with_reducible apply askFec_keeps | with_reducible refine Keeps.foldl ?_ _ ?_ | with_reducible refine Keeps.foldl_snd ?_ _ ?_ | intro _ | with_reducible refine Keeps.snd (by with_reducible assumption) ?_ | split)

theorem endDrill_keeps {a : State} {x1 : _} {s : State} (h : Keeps a s)  : Keeps a (endDrill x1 s) := by
  unfold endDrill
  repeat' (first | with_reducible assumption | with_reducible apply reach_keeps | with_reducible apply State.modFlt_keeps | with_reducible apply asDrill_keeps | with_reducible apply undoDrill_keeps | with_reducible refine Keeps.foldl ?_ _ ?_ | with_reducible refine Keeps.foldl_snd ?_ _ ?_ | intro _ | with_reducible refine Keeps.snd (by with_reducible assumption) ?_ | split)

theorem execDrillEnd_keeps {a : State} {x1 : _}  : Runs a (execDrillEnd x1) := by
  unfold execDrillEnd
  repeat' (first | with_reducible assumption | with_reducible refine Runs.complete ?_ | with_reducible apply endDrill_keeps)

end Sys2Proof.Machine
end

