-- ==== Sys2Proof/Laws/KeepsImage.lean ====
section
/-! SUPPORT. What the operations of Machine/Image.lean keep (Laws/Keeps.lean). -/

namespace Sys2Proof.Machine

open Sys2Proof

theorem pinFinding_keeps {a : State} {x1 : _} {x2 : _} {s : State} (h : Keeps a s)  : Keeps a (pinFinding x1 x2 s) := by
  unfold pinFinding
  repeat' (first | with_reducible assumption | with_reducible apply raise_keeps | with_reducible apply State.modPins_keeps)

theorem norSet_keeps {a : State} {x1 : _} {x2 : _} {s : State} (h : Keeps a s)  : Keeps a (norSet x1 x2 s) := by
  unfold norSet
  repeat' (first | with_reducible assumption | with_reducible apply State.modCfg_keeps | with_reducible refine Keeps.foldl ?_ _ ?_ | with_reducible refine Keeps.foldl_snd ?_ _ ?_ | (exact fun _ => Burned.refl _))

theorem writeBoot_keeps {a : State} {x1 : _} {x2 : _} {s : State} (h : Keeps a s)  : Keeps a (writeBoot x1 x2 s) := by
  unfold writeBoot
  repeat' (first | with_reducible assumption | with_reducible apply norSet_keeps | with_reducible refine Keeps.foldl ?_ _ ?_ | with_reducible refine Keeps.foldl_snd ?_ _ ?_ | intro _ | with_reducible refine Keeps.snd (by with_reducible assumption) ?_ | split)

theorem applyRegs_keeps {a : State} {x1 : _} {x2 : _} {s : State} (h : Keeps a s)  : Keeps a (applyRegs x1 x2 s) := by
  unfold applyRegs
  repeat' (first | with_reducible assumption | with_reducible apply State.modRegs_keeps | with_reducible apply regSet_keeps | with_reducible apply State.modCfg_keeps | with_reducible refine Keeps.foldl ?_ _ ?_ | with_reducible refine Keeps.foldl_snd ?_ _ ?_ | (exact fun _ => Burned.refl _) | (exact fun _ => Burned.seal _) | (exact fun _ => Burned.raise _ _) | (exact fun _ => Burned.revoke _ _) | intro _)

theorem applyPin_keeps {a : State} {s : State} {x2 : _} (h : Keeps a s)  : Keeps a (applyPin s x2) := by
  unfold applyPin
  repeat' (first | with_reducible assumption | with_reducible apply rejected_keeps | with_reducible apply State.modPins_keeps | with_reducible refine Keeps.foldl ?_ _ ?_ | with_reducible refine Keeps.foldl_snd ?_ _ ?_ | intro _ | with_reducible refine Keeps.snd (by with_reducible assumption) ?_ | split | dsimp only)

theorem applyImage_keeps {a : State} {x1 : _} {x2 : _} {x3 : _} {s : State} (h : Keeps a s)  : Keeps a (applyImage x1 x2 x3 s) := by
  unfold applyImage
  repeat' (first | with_reducible assumption | with_reducible apply writeBoot_keeps | with_reducible apply State.modCfg_keeps | with_reducible apply applyRegs_keeps | with_reducible apply State.modTier_keeps | with_reducible apply mismatch_keeps | with_reducible apply applyPin_keeps | with_reducible apply State.modPins_keeps | with_reducible apply State.modSys_keeps | with_reducible refine Keeps.foldl ?_ _ ?_ | with_reducible refine Keeps.foldl_snd ?_ _ ?_ | (exact Nat.le_refl _) | (exact Nat.le_max_left _ _) | (exact Nat.le_add_right _ _) | (exact fun _ => Burned.refl _) | (exact fun _ => Burned.seal _) | (exact fun _ => Burned.raise _ _) | (exact fun _ => Burned.revoke _ _) | (exact fun _ h => h) | (exact fun _ _ => rfl) | intro _ | with_reducible apply clearSpan_wf | with_reducible apply writeCells_wf | with_reducible apply putMasked_wf | with_reducible refine Keeps.snd (by with_reducible assumption) ?_ | split)

theorem norEnd_keeps {a : State} {x1 : _} {s : State} (h : Keeps a s)  : Keeps a (norEnd x1 s) := by
  unfold norEnd
  repeat' (first | with_reducible assumption | with_reducible apply State.modCfg_keeps | with_reducible refine Keeps.foldl ?_ _ ?_ | with_reducible refine Keeps.foldl_snd ?_ _ ?_ | (exact fun _ => Burned.refl _))

theorem norCommand_keeps {a : State} {x1 : _} {x2 : _} {x3 : _} {s : State} (hx3 : ∀ y0 y1, Keeps a y1 → Keeps a (x3 y0 y1)) (h : Keeps a s)  : Keeps a (norCommand x1 x2 x3 s) := by
  unfold norCommand
  repeat' (first | with_reducible assumption | with_reducible apply rejected_keeps | with_reducible apply norEnd_keeps | with_reducible apply hx3 | with_reducible refine Keeps.foldl ?_ _ ?_ | with_reducible refine Keeps.foldl_snd ?_ _ ?_ | intro _ | with_reducible refine Keeps.snd (by with_reducible assumption) ?_ | split | dsimp only)

theorem norAdvance_keeps {a : State} {s : State} (h : Keeps a s)  : Keeps a (norAdvance s) := by
  unfold norAdvance
  repeat' (first | with_reducible assumption | with_reducible apply regSet_keeps)

theorem execNorRead_keeps {a : State} {x1 : _}  : Runs a (execNorRead x1) := by
  unfold execNorRead
  repeat' (first | with_reducible assumption | with_reducible refine Runs.complete ?_ | with_reducible apply norCommand_keeps | with_reducible apply norEnd_keeps | with_reducible apply norAdvance_keeps | with_reducible apply regSet_keeps | with_reducible refine Keeps.foldl ?_ _ ?_ | with_reducible refine Keeps.foldl_snd ?_ _ ?_ | intro _)

theorem execNorProgram_keeps {a : State} {x1 : _}  : Runs a (execNorProgram x1) := by
  unfold execNorProgram
  repeat' (first | with_reducible assumption | with_reducible refine Runs.complete ?_ | with_reducible apply norCommand_keeps | with_reducible apply norAdvance_keeps | with_reducible apply State.modCfg_keeps | with_reducible apply norSet_keeps | with_reducible refine Keeps.foldl ?_ _ ?_ | with_reducible refine Keeps.foldl_snd ?_ _ ?_ | (exact fun _ => Burned.refl _) | (exact fun _ => Burned.seal _) | (exact fun _ => Burned.raise _ _) | (exact fun _ => Burned.revoke _ _) | intro _)

theorem execNorErase_keeps {a : State} {x1 : _}  : Runs a (execNorErase x1) := by
  unfold execNorErase
  repeat' (first | with_reducible assumption | with_reducible refine Runs.complete ?_ | with_reducible apply norCommand_keeps | with_reducible apply State.modCfg_keeps | with_reducible refine Keeps.foldl ?_ _ ?_ | with_reducible refine Keeps.foldl_snd ?_ _ ?_ | (exact fun _ => Burned.refl _) | (exact fun _ => Burned.seal _) | (exact fun _ => Burned.raise _ _) | (exact fun _ => Burned.revoke _ _) | intro _)

theorem execNorCommandComplete_keeps {a : State}  : Runs a (execNorCommandComplete ) := by
  unfold execNorCommandComplete
  repeat' (first | with_reducible assumption | with_reducible refine Runs.complete ?_ | with_reducible apply norEnd_keeps | with_reducible apply State.modCfg_keeps | with_reducible refine Keeps.foldl ?_ _ ?_ | with_reducible refine Keeps.foldl_snd ?_ _ ?_ | (exact fun _ => Burned.refl _) | (exact fun _ => Burned.seal _) | (exact fun _ => Burned.raise _ _) | (exact fun _ => Burned.revoke _ _) | intro _ | with_reducible refine Keeps.snd (by with_reducible assumption) ?_ | split)

theorem execCfgBootClear_keeps {a : State} {x1 : _}  : Runs a (execCfgBootClear x1) := by
  unfold execCfgBootClear
  repeat' (first | with_reducible assumption | with_reducible refine Runs.complete ?_ | with_reducible apply writeBoot_keeps | with_reducible apply rejected_keeps | with_reducible refine Keeps.foldl ?_ _ ?_ | with_reducible refine Keeps.foldl_snd ?_ _ ?_ | intro _ | with_reducible refine Keeps.snd (by with_reducible assumption) ?_ | split)

theorem execCfgSvnCommit_keeps {a : State} {x1 : _}  : Runs a (execCfgSvnCommit x1) := by
  unfold execCfgSvnCommit
  repeat' (first | with_reducible assumption | with_reducible refine Runs.complete ?_ | with_reducible apply State.modCfg_keeps | with_reducible apply rejected_keeps | with_reducible refine Keeps.foldl ?_ _ ?_ | with_reducible refine Keeps.foldl_snd ?_ _ ?_ | (exact fun _ => Burned.refl _) | (exact fun _ => Burned.seal _) | (exact fun _ => Burned.raise _ _) | (exact fun _ => Burned.revoke _ _) | intro _ | with_reducible refine Keeps.snd (by with_reducible assumption) ?_ | split)

theorem execCfgKeyRevoke_keeps {a : State} {x1 x2 : _}  : Runs a (execCfgKeyRevoke x1 x2) := by
  unfold execCfgKeyRevoke
  repeat' (first | with_reducible assumption | with_reducible refine Runs.complete ?_ | with_reducible apply State.modCfg_keeps | with_reducible apply rejected_keeps | with_reducible refine Keeps.foldl ?_ _ ?_ | with_reducible refine Keeps.foldl_snd ?_ _ ?_ | (exact fun _ => Burned.refl _) | (exact fun _ => Burned.seal _) | (exact fun _ => Burned.raise _ _) | (exact fun _ => Burned.revoke _ _) | intro _ | with_reducible refine Keeps.snd (by with_reducible assumption) ?_ | split | dsimp only)

end Sys2Proof.Machine
end

