-- ==== Sys2Proof/Laws/KeepsDebug.lean ====
section
/-! SUPPORT. What the operations of Machine/Debug.lean keep (Laws/Keeps.lean). -/

namespace Sys2Proof.Machine

open Sys2Proof

theorem trlWrite_keeps {a : State} {x1 : _} {x2 : _} {x3 : _} {x4 : _} {s : State} (hx4 : ∀ y0, Keeps a y0 → Keeps a (x4 y0)) (h : Keeps a s)  : Keeps a (trlWrite x1 x2 x3 x4 s).2 := by
  unfold trlWrite
  repeat' (first | with_reducible assumption | with_reducible apply rejected_keeps | with_reducible apply hx4 | with_reducible refine Keeps.foldl ?_ _ ?_ | with_reducible refine Keeps.foldl_snd ?_ _ ?_ | intro _ | with_reducible refine Keeps.snd (by with_reducible assumption) ?_ | split)

theorem unlock_keeps {a : State} {x1 : _} {s : State} (h : Keeps a s)  : Keeps a (unlock x1 s) := by
  unfold unlock
  repeat' (first | with_reducible assumption | with_reducible apply State.modTrl_keeps | with_reducible apply State.draw_keeps | with_reducible refine Keeps.foldl ?_ _ ?_ | with_reducible refine Keeps.foldl_snd ?_ _ ?_ | intro _ | with_reducible refine Keeps.snd (by with_reducible assumption) ?_ | split)

theorem unlockWrite_keeps {a : State} {x1 : _} {x2 : _} {s : State} (h : Keeps a s)  : Keeps a (unlockWrite x1 x2 s).2 := by
  unfold unlockWrite
  repeat' (first | with_reducible assumption | with_reducible apply trlWrite_keeps | with_reducible apply unlock_keeps)

theorem execTrlUnlockCmd_keeps {a : State} {x1 x2 : _}  : Runs a (execTrlUnlockCmd x1 x2) := by
  unfold execTrlUnlockCmd
  repeat' (first | with_reducible assumption | with_reducible refine Runs.complete ?_ | with_reducible apply unlockWrite_keeps)

theorem closeScopes_keeps {a : State} {s : State} (h : Keeps a s)  : Keeps a (closeScopes s) := by
  unfold closeScopes
  repeat' (first | with_reducible assumption | with_reducible apply State.modTrl_keeps)

theorem execUnlockExpire_keeps {a : State}  : Runs a (execUnlockExpire ) := by
  unfold execUnlockExpire
  repeat' (first | with_reducible assumption | with_reducible refine Runs.complete ?_ | with_reducible apply closeScopes_keeps | with_reducible apply reach_keeps | with_reducible refine Keeps.foldl ?_ _ ?_ | with_reducible refine Keeps.foldl_snd ?_ _ ?_ | intro _ | with_reducible refine Keeps.snd (by with_reducible assumption) ?_ | split)

theorem lockWrite_keeps {a : State} {x1 : _} {x2 : _} {s : State} (h : Keeps a s)  : Keeps a (lockWrite x1 x2 s).2 := by
  unfold lockWrite
  repeat' (first | with_reducible assumption | with_reducible apply trlWrite_keeps | with_reducible apply onlyIf_keeps | with_reducible apply closeScopes_keeps | with_reducible refine Keeps.foldl ?_ _ ?_ | with_reducible refine Keeps.foldl_snd ?_ _ ?_ | intro _)

theorem execTrlLock_keeps {a : State} {x1 x2 : _}  : Runs a (execTrlLock x1 x2) := by
  unfold execTrlLock
  repeat' (first | with_reducible assumption | with_reducible refine Runs.complete ?_ | with_reducible apply lockWrite_keeps)

theorem sealWrite_keeps {a : State} {x1 : _} {x2 : _} {s : State} (h : Keeps a s)  : Keeps a (sealWrite x1 x2 s).2 := by
  unfold sealWrite
  repeat' (first | with_reducible assumption | with_reducible apply trlWrite_keeps | with_reducible apply closeScopes_keeps | with_reducible apply State.modCfg_keeps | with_reducible apply rejected_keeps | with_reducible refine Keeps.foldl ?_ _ ?_ | with_reducible refine Keeps.foldl_snd ?_ _ ?_ | (exact fun _ => Burned.refl _) | (exact fun _ => Burned.seal _) | (exact fun _ => Burned.raise _ _) | (exact fun _ => Burned.revoke _ _) | intro _ | with_reducible refine Keeps.snd (by with_reducible assumption) ?_ | split)

theorem execTrlSeal_keeps {a : State} {x1 x2 : _}  : Runs a (execTrlSeal x1 x2) := by
  unfold execTrlSeal
  repeat' (first | with_reducible assumption | with_reducible refine Runs.complete ?_ | with_reducible apply sealWrite_keeps)

theorem selWrite_keeps {a : State} {x1 : _} {x2 : _} {x3 : _} {s : State} (h : Keeps a s)  : Keeps a (selWrite x1 x2 x3 s).2 := by
  unfold selWrite
  repeat' (first | with_reducible assumption | with_reducible apply trlWrite_keeps | with_reducible apply rejected_keeps | with_reducible apply regSet_keeps | with_reducible refine Keeps.foldl ?_ _ ?_ | with_reducible refine Keeps.foldl_snd ?_ _ ?_ | intro _ | with_reducible refine Keeps.snd (by with_reducible assumption) ?_ | split)

theorem execTrlSel_keeps {a : State} {x1 x2 x3 : _}  : Runs a (execTrlSel x1 x2 x3) := by
  unfold execTrlSel
  repeat' (first | with_reducible assumption | with_reducible refine Runs.complete ?_ | with_reducible apply selWrite_keeps)

theorem markInjected_keeps {a : State} {s1 : _} {s : State} (h : Keeps a s)  : Keeps a (markInjected s1 s) := by
  unfold markInjected
  repeat' (first | with_reducible assumption | with_reducible apply State.modRas_keeps)

theorem injectDone_keeps {a : State} {x1 : _} {s : State} (h : Keeps a s)  : Keeps a (injectDone x1 s) := by
  unfold injectDone
  repeat' (first | with_reducible assumption | with_reducible apply State.modTrl_keeps)

theorem injectPoison_keeps {a : State} {s : State} (h : Keeps a s)  : Keeps a (injectPoison s) := by
  unfold injectPoison
  repeat' (first | with_reducible assumption | with_reducible apply injectDone_keeps | with_reducible apply pump_keeps | with_reducible apply markInjected_keeps | with_reducible apply mirrorPoison_keeps | with_reducible apply poisonLine_keeps | with_reducible refine Keeps.foldl ?_ _ ?_ | with_reducible refine Keeps.foldl_snd ?_ _ ?_ | intro _ | with_reducible refine Keeps.snd (by with_reducible assumption) ?_ | split | dsimp only)

theorem sramError_keeps {a : State} {x1 : _} {x2 : _} {s : State} (h : Keeps a s)  : Keeps a (sramError x1 x2 s) := by
  unfold sramError
  repeat' (first | with_reducible assumption | with_reducible apply raise_keeps | with_reducible apply crossed_keeps | with_reducible apply State.modRas_keeps | with_reducible refine Keeps.foldl ?_ _ ?_ | with_reducible refine Keeps.foldl_snd ?_ _ ?_ | intro _ | with_reducible refine Keeps.snd (by with_reducible assumption) ?_ | split | dsimp only)

theorem injectSram_keeps {a : State} {s : State} (h : Keeps a s)  : Keeps a (injectSram s) := by
  unfold injectSram
  repeat' (first | with_reducible assumption | with_reducible apply injectDone_keeps | with_reducible apply markInjected_keeps | with_reducible apply sramError_keeps | with_reducible refine Keeps.foldl ?_ _ ?_ | with_reducible refine Keeps.foldl_snd ?_ _ ?_ | intro _ | with_reducible refine Keeps.snd (by with_reducible assumption) ?_ | split | dsimp only)

theorem injectTile_keeps {a : State} {s : State} (h : Keeps a s)  : Keeps a (injectTile s) := by
  unfold injectTile
  repeat' (first | with_reducible assumption | with_reducible apply injectDone_keeps | with_reducible apply markInjected_keeps | with_reducible apply pump_keeps | with_reducible apply restartJob_keeps | with_reducible refine Keeps.foldl ?_ _ ?_ | with_reducible refine Keeps.foldl_snd ?_ _ ?_ | intro _ | with_reducible refine Keeps.snd (by with_reducible assumption) ?_ | split | dsimp only)

theorem injectSnoop_keeps {a : State} {s : State} (h : Keeps a s)  : Keeps a (injectSnoop s) := by
  unfold injectSnoop
  repeat' (first | with_reducible assumption | with_reducible apply injectDone_keeps | with_reducible apply State.modCoh_keeps | with_reducible refine Keeps.foldl ?_ _ ?_ | with_reducible refine Keeps.foldl_snd ?_ _ ?_ | intro _ | with_reducible refine Keeps.snd (by with_reducible assumption) ?_ | split | dsimp only)

theorem injectFlash_keeps {a : State} {s : State} (h : Keeps a s)  : Keeps a (injectFlash s) := by
  unfold injectFlash
  repeat' (first | with_reducible assumption | with_reducible apply injectDone_keeps | with_reducible apply State.modFlash_keeps | with_reducible refine Keeps.foldl ?_ _ ?_ | with_reducible refine Keeps.foldl_snd ?_ _ ?_ | intro _ | with_reducible refine Keeps.snd (by with_reducible assumption) ?_ | split | dsimp only)

theorem injectWrite_keeps {a : State} {x1 : _} {x2 : _} {s : State} (hx2 : ∀ y0, Keeps a y0 → Keeps a (x2 y0)) (h : Keeps a s)  : Keeps a (injectWrite x1 x2 s).2 := by
  unfold injectWrite
  repeat' (first | with_reducible assumption | with_reducible apply trlWrite_keeps | with_reducible apply rejected_keeps | with_reducible apply hx2 | with_reducible refine Keeps.foldl ?_ _ ?_ | with_reducible refine Keeps.foldl_snd ?_ _ ?_ | intro _ | with_reducible refine Keeps.snd (by with_reducible assumption) ?_ | split)

theorem injectKind_keeps {a : State} {x1 : _} {s : State} (h : Keeps a s)  : Keeps a (injectKind x1 s) := by
  unfold injectKind
  repeat' (first | with_reducible assumption | with_reducible apply injectPoison_keeps | with_reducible apply injectSram_keeps | with_reducible apply injectTile_keeps | with_reducible apply injectSnoop_keeps | with_reducible apply injectFlash_keeps | with_reducible apply rejected_keeps | with_reducible refine Keeps.foldl ?_ _ ?_ | with_reducible refine Keeps.foldl_snd ?_ _ ?_ | intro _ | with_reducible refine Keeps.snd (by with_reducible assumption) ?_ | split)

theorem execInjectPoison_keeps {a : State} {x1 : _}  : Runs a (execInjectPoison x1) := by
  unfold execInjectPoison
  repeat' (first | with_reducible assumption | with_reducible refine Runs.complete ?_ | with_reducible apply injectWrite_keeps | with_reducible apply injectPoison_keeps | with_reducible refine Keeps.foldl ?_ _ ?_ | with_reducible refine Keeps.foldl_snd ?_ _ ?_ | intro _)

theorem execInjectSramCe_keeps {a : State} {x1 : _}  : Runs a (execInjectSramCe x1) := by
  unfold execInjectSramCe
  repeat' (first | with_reducible assumption | with_reducible refine Runs.complete ?_ | with_reducible apply injectWrite_keeps | with_reducible apply injectSram_keeps | with_reducible refine Keeps.foldl ?_ _ ?_ | with_reducible refine Keeps.foldl_snd ?_ _ ?_ | intro _)

theorem execInjectTileStore_keeps {a : State} {x1 : _}  : Runs a (execInjectTileStore x1) := by
  unfold execInjectTileStore
  repeat' (first | with_reducible assumption | with_reducible refine Runs.complete ?_ | with_reducible apply injectWrite_keeps | with_reducible apply injectTile_keeps | with_reducible refine Keeps.foldl ?_ _ ?_ | with_reducible refine Keeps.foldl_snd ?_ _ ?_ | intro _)

theorem execInjectSnoopWithhold_keeps {a : State} {x1 : _}  : Runs a (execInjectSnoopWithhold x1) := by
  unfold execInjectSnoopWithhold
  repeat' (first | with_reducible assumption | with_reducible refine Runs.complete ?_ | with_reducible apply injectWrite_keeps | with_reducible apply injectSnoop_keeps | with_reducible refine Keeps.foldl ?_ _ ?_ | with_reducible refine Keeps.foldl_snd ?_ _ ?_ | intro _)

theorem execInjectFlashRead_keeps {a : State} {x1 : _}  : Runs a (execInjectFlashRead x1) := by
  unfold execInjectFlashRead
  repeat' (first | with_reducible assumption | with_reducible refine Runs.complete ?_ | with_reducible apply injectWrite_keeps | with_reducible apply injectFlash_keeps | with_reducible refine Keeps.foldl ?_ _ ?_ | with_reducible refine Keeps.foldl_snd ?_ _ ?_ | intro _)

theorem driveBalls_keeps {a : State} {x1 : _} {s : State} (h : Keeps a s)  : Keeps a (driveBalls x1 s) := by
  unfold driveBalls
  repeat' (first | with_reducible assumption | with_reducible apply State.modPins_keeps | with_reducible refine Keeps.foldl ?_ _ ?_ | with_reducible refine Keeps.foldl_snd ?_ _ ?_ | intro _ | with_reducible refine Keeps.snd (by with_reducible assumption) ?_ | split)

theorem execExtest_keeps {a : State} {x1 : _}  : Runs a (execExtest x1) := by
  unfold execExtest
  repeat' (first | with_reducible assumption | with_reducible refine Runs.complete ?_ | with_reducible apply driveBalls_keeps)

theorem snapWrite_keeps {a : State} {x1 : _} {x2 : _} {s : State} (h : Keeps a s)  : Keeps a (snapWrite x1 x2 s).2 := by
  unfold snapWrite
  repeat' (first | with_reducible assumption | with_reducible apply rejected_keeps | with_reducible apply State.modTel_keeps | with_reducible refine Keeps.foldl ?_ _ ?_ | with_reducible refine Keeps.foldl_snd ?_ _ ?_ | intro _ | with_reducible refine Keeps.snd (by with_reducible assumption) ?_ | split)

theorem execTelSnap_keeps {a : State} {x1 x2 : _}  : Runs a (execTelSnap x1 x2) := by
  unfold execTelSnap
  repeat' (first | with_reducible assumption | with_reducible refine Runs.complete ?_ | with_reducible apply snapWrite_keeps)

theorem execSnapshotComplete_keeps {a : State}  : Runs a (execSnapshotComplete ) := by
  unfold execSnapshotComplete
  repeat' (first | with_reducible assumption | with_reducible refine Runs.complete ?_ | with_reducible apply State.modTel_keeps | with_reducible refine Keeps.foldl ?_ _ ?_ | with_reducible refine Keeps.foldl_snd ?_ _ ?_ | intro _ | with_reducible refine Keeps.snd (by with_reducible assumption) ?_ | split)

end Sys2Proof.Machine
end

