-- ==== Sys2Proof/Laws/KeepsReset.lean ====
section
/-! SUPPORT. What the operations of Machine/Reset.lean keep (Laws/Keeps.lean). -/

namespace Sys2Proof.Machine

open Sys2Proof

theorem powerRec_keeps {a : State} {x1 : _} {x2 : _} {s : State} (h : Keeps a s)  : Keeps a (powerRec x1 x2 s) := by
  unfold powerRec
  repeat' (first | with_reducible assumption | with_reducible apply raise_keeps)

theorem distrust_keeps {a : State} {s : State} (h : Keeps a s)  : Keeps a (distrust s) := by
  unfold distrust
  repeat' (first | with_reducible assumption | with_reducible apply postDev_keeps | with_reducible apply powerRec_keeps | with_reducible apply State.modJrn_keeps | with_reducible apply startGroup_keeps | with_reducible refine Keeps.foldl ?_ _ ?_ | with_reducible refine Keeps.foldl_snd ?_ _ ?_ | intro _ | with_reducible refine Keeps.snd (by with_reducible assumption) ?_ | split | dsimp only)

theorem levelChange_keeps {a : State} {x1 : _} {s : State} (h : Keeps a s)  : Keeps a (levelChange x1 s) := by
  unfold levelChange
  repeat' (first | with_reducible assumption | with_reducible apply State.modSys_keeps | with_reducible apply distrust_keeps | with_reducible refine Keeps.foldl ?_ _ ?_ | with_reducible refine Keeps.foldl_snd ?_ _ ?_ | (exact Nat.le_refl _) | (exact Nat.le_max_left _ _) | (exact Nat.le_add_right _ _) | intro _ | with_reducible refine Keeps.snd (by with_reducible assumption) ?_ | split | dsimp only)

theorem loseRing_keeps {a : State} {s : State} (h : Keeps a s)  : Keeps a (loseRing s) := by
  unfold loseRing
  repeat' (first | with_reducible assumption | with_reducible apply State.modJrn_keeps)

theorem loseHbm_keeps {a : State} {s : State} (h : Keeps a s)  : Keeps a (loseHbm s) := by
  unfold loseHbm
  repeat' (first | with_reducible assumption | with_reducible apply State.modTier_keeps | with_reducible apply State.modCoh_keeps | with_reducible apply State.modNmc_keeps | with_reducible refine Keeps.foldl ?_ _ ?_ | with_reducible refine Keeps.foldl_snd ?_ _ ?_ | (exact fun _ h => h) | (exact fun _ _ => rfl))

theorem coldStart_keeps {a : State} {x1 : _} {s : State} (h0 : a.sys.time = 0) (h : Keeps a s)  : Keeps a (coldStart x1 s) := by
  unfold coldStart
  repeat' (first | with_reducible assumption | with_reducible refine State.modSys_zero h0 ?_ | with_reducible assumption | with_reducible apply loseHbm_keeps | with_reducible apply loseRing_keeps | with_reducible apply State.modExt_keeps | with_reducible apply State.modCoh_keeps | with_reducible apply State.modNmc_keeps | with_reducible apply State.modXlt_keeps | with_reducible apply State.modJrn_keeps | with_reducible apply State.modFlash_keeps | with_reducible apply State.modFab_keeps | with_reducible apply State.modRas_keeps | with_reducible apply State.modFlt_keeps | with_reducible apply State.modTel_keeps | with_reducible apply State.modPins_keeps | with_reducible apply State.modTrl_keeps | with_reducible apply leaveReset_keeps | with_reducible apply State.modRegs_keeps | with_reducible refine Keeps.foldl ?_ _ ?_ | with_reducible refine Keeps.foldl_snd ?_ _ ?_ | (exact Nat.le_refl _) | (exact Nat.le_max_left _ _) | (exact Nat.le_add_right _ _) | intro _ | with_reducible refine Keeps.snd (by with_reducible assumption) ?_ | split)

theorem execColdReset_keeps {a : State}  (h0 : a.sys.time = 0) : Runs a (execColdReset ) := by
  unfold execColdReset
  repeat' (first | with_reducible assumption | with_reducible refine Runs.complete ?_ | with_reducible apply coldStart_keeps h0 | with_reducible refine Keeps.foldl ?_ _ ?_ | with_reducible refine Keeps.foldl_snd ?_ _ ?_ | intro _)

theorem linksOff_keeps {a : State} {s : State} (h : Keeps a s)  : Keeps a (linksOff s) := by
  unfold linksOff
  repeat' (first | with_reducible assumption | with_reducible apply State.modFab_keeps | with_reducible apply emit_keeps | with_reducible refine Keeps.foldl ?_ _ ?_ | with_reducible refine Keeps.foldl_snd ?_ _ ?_ | intro _ | with_reducible refine Keeps.snd (by with_reducible assumption) ?_ | split)

theorem powerDown_keeps {a : State} {s : State} (h : Keeps a s)  : Keeps a (powerDown s) := by
  unfold powerDown
  repeat' (first | with_reducible assumption | with_reducible apply answerAll_keeps | with_reducible apply State.modSys_keeps | with_reducible apply State.modHome_keeps | with_reducible apply linksOff_keeps | with_reducible refine Keeps.foldl ?_ _ ?_ | with_reducible refine Keeps.foldl_snd ?_ _ ?_ | (exact Nat.le_refl _))

theorem stopCold_keeps {a : State} {s : State} (h : Keeps a s)  : Keeps a (stopCold s) := by
  unfold stopCold
  repeat' (first | with_reducible assumption | with_reducible apply State.modSys_keeps | with_reducible refine Keeps.foldl ?_ _ ?_ | with_reducible refine Keeps.foldl_snd ?_ _ ?_ | (exact Nat.le_refl _))

theorem confirmFall_keeps {a : State} {s : State} (h : Keeps a s)  : Keeps a (confirmFall s) := by
  unfold confirmFall
  repeat' (first | with_reducible assumption | with_reducible apply State.modSys_keeps | with_reducible apply reach_keeps | with_reducible apply powerDown_keeps | with_reducible apply stopCold_keeps | with_reducible refine Keeps.foldl ?_ _ ?_ | with_reducible refine Keeps.foldl_snd ?_ _ ?_ | (exact Nat.le_refl _) | (exact Nat.le_max_left _ _) | (exact Nat.le_add_right _ _) | intro _ | with_reducible refine Keeps.snd (by with_reducible assumption) ?_ | split | dsimp only)

theorem execPwrfailFall_keeps {a : State}  : Runs a (execPwrfailFall ) := by
  unfold execPwrfailFall
  repeat' (first | with_reducible assumption | with_reducible refine Runs.complete ?_ | with_reducible apply State.modSys_keeps | with_reducible apply levelChange_keeps | with_reducible refine Keeps.foldl ?_ _ ?_ | with_reducible refine Keeps.foldl_snd ?_ _ ?_ | (exact Nat.le_refl _) | (exact Nat.le_max_left _ _) | (exact Nat.le_add_right _ _) | intro _ | with_reducible refine Keeps.snd (by with_reducible assumption) ?_ | split)

theorem execPwrfailConfirm_keeps {a : State}  : Runs a (execPwrfailConfirm ) := by
  unfold execPwrfailConfirm
  repeat' (first | with_reducible assumption | with_reducible refine Runs.complete ?_ | with_reducible apply confirmFall_keeps)

theorem startAgain_keeps {a : State} {s : State} (h0 : a.sys.time = 0) (h : Keeps a s)  : Keeps a (startAgain s) := by
  unfold startAgain
  repeat' (first | with_reducible assumption | with_reducible apply coldStart_keeps h0 | with_reducible apply State.modPins_keeps | with_reducible refine Keeps.foldl ?_ _ ?_ | with_reducible refine Keeps.foldl_snd ?_ _ ?_ | intro _ | with_reducible refine Keeps.snd (by with_reducible assumption) ?_ | split)

theorem execPwrfailRise_keeps {a : State}  (h0 : a.sys.time = 0) : Runs a (execPwrfailRise ) := by
  unfold execPwrfailRise
  repeat' (first | with_reducible assumption | with_reducible refine Runs.complete ?_ | with_reducible apply levelChange_keeps | with_reducible apply countRC_keeps | with_reducible apply State.modSys_keeps | with_reducible apply confirmFall_keeps | with_reducible apply startAgain_keeps h0 | with_reducible refine Keeps.foldl ?_ _ ?_ | with_reducible refine Keeps.foldl_snd ?_ _ ?_ | (exact Nat.le_refl _) | (exact Nat.le_max_left _ _) | (exact Nat.le_add_right _ _) | intro _ | with_reducible refine Keeps.snd (by with_reducible assumption) ?_ | split)

theorem flushDone_keeps {a : State} {s : State} (h0 : a.sys.time = 0) (h : Keeps a s)  : Keeps a (flushDone s) := by
  unfold flushDone
  repeat' (first | with_reducible assumption | with_reducible apply State.modJrn_keeps | with_reducible apply State.modRas_keeps | with_reducible apply startAgain_keeps h0 | with_reducible apply State.modSys_keeps | with_reducible refine Keeps.foldl ?_ _ ?_ | with_reducible refine Keeps.foldl_snd ?_ _ ?_ | (exact Nat.le_refl _) | (exact Nat.le_max_left _ _) | (exact Nat.le_add_right _ _) | intro _ | with_reducible refine Keeps.snd (by with_reducible assumption) ?_ | split)

theorem execFlushComplete_keeps {a : State}  (h0 : a.sys.time = 0) : Runs a (execFlushComplete ) := by
  unfold execFlushComplete
  repeat' (first | with_reducible assumption | with_reducible refine Runs.complete ?_ | with_reducible apply flushDone_keeps | with_reducible refine Keeps.foldl ?_ _ ?_ | with_reducible refine Keeps.foldl_snd ?_ _ ?_ | intro _)

theorem execResetNFall_keeps {a : State} {x1 : _}  : Runs a (execResetNFall x1) := by
  unfold execResetNFall
  repeat' (first | with_reducible assumption | with_reducible refine Runs.complete ?_ | with_reducible apply countRC_keeps | with_reducible apply requestWarm_keeps | with_reducible apply State.modSys_keeps | with_reducible refine Keeps.foldl ?_ _ ?_ | with_reducible refine Keeps.foldl_snd ?_ _ ?_ | (exact Nat.le_refl _) | (exact Nat.le_max_left _ _) | (exact Nat.le_add_right _ _) | intro _ | with_reducible refine Keeps.snd (by with_reducible assumption) ?_ | split)

theorem execResetNRise_keeps {a : State}  : Runs a (execResetNRise ) := by
  unfold execResetNRise
  repeat' (first | with_reducible assumption | with_reducible refine Runs.complete ?_ | with_reducible apply State.modSys_keeps | with_reducible apply reach_keeps | with_reducible refine Keeps.foldl ?_ _ ?_ | with_reducible refine Keeps.foldl_snd ?_ _ ?_ | (exact Nat.le_refl _) | (exact Nat.le_max_left _ _) | (exact Nat.le_add_right _ _) | intro _ | with_reducible refine Keeps.snd (by with_reducible assumption) ?_ | split | dsimp only)

theorem execWarmResetFabric_keeps {a : State} {x1 x2 : _}  : Runs a (execWarmResetFabric x1 x2) := by
  unfold execWarmResetFabric
  repeat' (first | with_reducible assumption | with_reducible refine Runs.complete ?_ | with_reducible apply rejected_keeps | with_reducible apply requestWarm_keeps | with_reducible refine Keeps.foldl ?_ _ ?_ | with_reducible refine Keeps.foldl_snd ?_ _ ?_ | intro _ | with_reducible refine Keeps.snd (by with_reducible assumption) ?_ | split)

theorem thermalRec_keeps {a : State} {x1 : _} {x2 : _} {s : State} (h : Keeps a s)  : Keeps a (thermalRec x1 x2 s) := by
  unfold thermalRec
  repeat' (first | with_reducible assumption | with_reducible apply raise_keeps)

theorem trip_keeps {a : State} {x1 : _} {s : State} (h : Keeps a s)  : Keeps a (trip x1 s) := by
  unfold trip
  repeat' (first | with_reducible assumption | with_reducible apply thermalRec_keeps | with_reducible apply State.modPins_keeps | with_reducible apply State.modSys_keeps | with_reducible apply powerDown_keeps | with_reducible refine Keeps.foldl ?_ _ ?_ | with_reducible refine Keeps.foldl_snd ?_ _ ?_ | (exact Nat.le_refl _) | (exact Nat.le_max_left _ _) | (exact Nat.le_add_right _ _) | intro _ | with_reducible refine Keeps.snd (by with_reducible assumption) ?_ | split | dsimp only)

theorem execThermalTrip_keeps {a : State} {x1 : _}  : Runs a (execThermalTrip x1) := by
  unfold execThermalTrip
  repeat' (first | with_reducible assumption | with_reducible refine Runs.complete ?_ | with_reducible apply trip_keeps)

theorem execSupplyOutOfLimits_keeps {a : State} {x1 : _}  (h0 : a.sys.time = 0) : Runs a (execSupplyOutOfLimits x1) := by
  unfold execSupplyOutOfLimits
  repeat' (first | with_reducible assumption | with_reducible refine Runs.complete ?_ | with_reducible apply raise_keeps | with_reducible apply State.modSys_keeps | with_reducible apply coldStart_keeps h0 | with_reducible refine Keeps.foldl ?_ _ ?_ | with_reducible refine Keeps.foldl_snd ?_ _ ?_ | (exact Nat.le_refl _) | (exact Nat.le_max_left _ _) | (exact Nat.le_add_right _ _) | intro _ | with_reducible refine Keeps.snd (by with_reducible assumption) ?_ | split | dsimp only)

theorem enterHeld_keeps {a : State} {s : State} (h : Keeps a s)  : Keeps a (enterHeld s) := by
  unfold enterHeld
  repeat' (first | with_reducible assumption | with_reducible apply State.modCfg_keeps | with_reducible apply State.modSys_keeps | with_reducible apply failedAttempt_keeps | with_reducible refine Keeps.foldl ?_ _ ?_ | with_reducible refine Keeps.foldl_snd ?_ _ ?_ | (exact Nat.le_refl _) | (exact Nat.le_max_left _ _) | (exact Nat.le_add_right _ _) | (exact fun _ => Burned.refl _))

theorem stepDone_keeps {a : State} {x1 : _} {s : State} (h : Keeps a s)  : Keeps a (stepDone x1 s) := by
  unfold stepDone
  repeat' (first | with_reducible assumption | with_reducible apply State.modSys_keeps | with_reducible refine Keeps.foldl ?_ _ ?_ | with_reducible refine Keeps.foldl_snd ?_ _ ?_ | (exact Nat.le_refl _))

theorem stepFuses_keeps {a : State} {x1 : _} {s : State} (h : Keeps a s)  : Keeps a (stepFuses x1 s) := by
  unfold stepFuses
  repeat' (first | with_reducible assumption | with_reducible apply enterHeld_keeps | with_reducible apply State.modPins_keeps | with_reducible apply State.modNmc_keeps | with_reducible apply graftCore_keeps | with_reducible apply stepDone_keeps | with_reducible apply State.modTrl_keeps | with_reducible apply State.draw_keeps | with_reducible refine Keeps.foldl ?_ _ ?_ | with_reducible refine Keeps.foldl_snd ?_ _ ?_ | intro _ | with_reducible refine Keeps.snd (by with_reducible assumption) ?_ | split)

theorem stepPads_keeps {a : State} {x1 : _} {s : State} (h : Keeps a s)  : Keeps a (stepPads x1 s) := by
  unfold stepPads
  repeat' (first | with_reducible assumption | with_reducible apply State.modPins_keeps | with_reducible apply raise_keeps | with_reducible apply stepDone_keeps | with_reducible apply pinFinding_keeps | with_reducible refine Keeps.foldl ?_ _ ?_ | with_reducible refine Keeps.foldl_snd ?_ _ ?_ | intro _)

theorem clockFinding_keeps {a : State} {x1 : _} {s : State} (h : Keeps a s)  : Keeps a (clockFinding x1 s) := by
  unfold clockFinding
  repeat' (first | with_reducible assumption | with_reducible apply pinFinding_keeps | with_reducible apply State.modSys_keeps | with_reducible refine Keeps.foldl ?_ _ ?_ | with_reducible refine Keeps.foldl_snd ?_ _ ?_ | (exact Nat.le_refl _))

theorem graftSlow_keeps {a : State} {s : State} (h : Keeps a s)  : Keeps a (graftSlow s) := by
  unfold graftSlow
  repeat' (first | with_reducible assumption | with_reducible apply graftCore_keeps | with_reducible refine Keeps.foldl ?_ _ ?_ | with_reducible refine Keeps.foldl_snd ?_ _ ?_ | intro _ | with_reducible refine Keeps.snd (by with_reducible assumption) ?_ | split | dsimp only)

theorem stepRails_keeps {a : State} {x1 : _} {x2 : _} {x3 : _} {x4 : _} {x5 : _} {s : State} (h : Keeps a s)  : Keeps a (stepRails x1 x2 x3 x4 x5 s) := by
  unfold stepRails
  repeat' (first | with_reducible assumption | with_reducible apply clockFinding_keeps | with_reducible apply enterHeld_keeps | with_reducible apply emit_keeps | with_reducible apply powerRec_keeps | with_reducible apply State.modNmc_keeps | with_reducible apply graftSlow_keeps | with_reducible apply stepDone_keeps | with_reducible apply distrust_keeps | with_reducible refine Keeps.foldl ?_ _ ?_ | with_reducible refine Keeps.foldl_snd ?_ _ ?_ | intro _ | with_reducible refine Keeps.snd (by with_reducible assumption) ?_ | split)

theorem stepImage_keeps {a : State} {x1 : _} {s : State} (h : Keeps a s)  : Keeps a (stepImage x1 s) := by
  unfold stepImage
  repeat' (first | with_reducible assumption | with_reducible apply State.modCfg_keeps | with_reducible apply enterHeld_keeps | with_reducible apply applyImage_keeps | with_reducible apply stepDone_keeps | with_reducible apply distrust_keeps | with_reducible refine Keeps.foldl ?_ _ ?_ | with_reducible refine Keeps.foldl_snd ?_ _ ?_ | (exact fun _ => Burned.refl _) | (exact fun _ => Burned.seal _) | (exact fun _ => Burned.raise _ _) | (exact fun _ => Burned.revoke _ _) | intro _ | with_reducible refine Keeps.snd (by with_reducible assumption) ?_ | split | dsimp only)

theorem stepHbm_keeps {a : State} {x1 : _} {x2 : _} {s : State} (h : Keeps a s)  : Keeps a (stepHbm x1 x2 s) := by
  unfold stepHbm
  repeat' (first | with_reducible assumption | with_reducible apply enterHeld_keeps | with_reducible apply stepDone_keeps | with_reducible apply loseRing_keeps | with_reducible apply loseHbm_keeps | with_reducible apply State.modSys_keeps | with_reducible refine Keeps.foldl ?_ _ ?_ | with_reducible refine Keeps.foldl_snd ?_ _ ?_ | (exact Nat.le_refl _) | (exact Nat.le_max_left _ _) | (exact Nat.le_add_right _ _) | intro _ | with_reducible refine Keeps.snd (by with_reducible assumption) ?_ | split)

theorem takeFlash_keeps {a : State} {x1 : _} {x2 : _} {x3 : _} {s : State} (h : Keeps a s)  : Keeps a (takeFlash x1 x2 x3 s) := by
  unfold takeFlash
  repeat' (first | with_reducible assumption | with_reducible apply pinFinding_keeps | with_reducible apply State.modFlash_keeps | with_reducible apply State.modJrn_keeps | with_reducible apply mismatch_keeps | with_reducible apply State.modExt_keeps | with_reducible refine Keeps.foldl ?_ _ ?_ | with_reducible refine Keeps.foldl_snd ?_ _ ?_ | intro _ | with_reducible refine Keeps.snd (by with_reducible assumption) ?_ | split)

theorem loadCtl_keeps {a : State} {x1 : _} {s : State} (h : Keeps a s)  : Keeps a (loadCtl x1 s) := by
  unfold loadCtl
  repeat' (first | with_reducible assumption | with_reducible apply State.modExt_keeps | with_reducible apply State.modJrn_keeps | with_reducible apply State.modFlash_keeps | with_reducible apply State.modNmc_keeps | with_reducible apply State.modFlt_keeps)

theorem askFetch_keeps {a : State} {x1 : _} {x2 : _} {x3 : _} {x4 : _} {s : State} (h : Keeps a s)  : Keeps a (askFetch x1 x2 x3 x4 s) := by
  unfold askFetch
  repeat' (first | with_reducible assumption | with_reducible apply State.modJrn_keeps | with_reducible refine Keeps.foldl ?_ _ ?_ | with_reducible refine Keeps.foldl_snd ?_ _ ?_ | intro _)

theorem segLost_keeps {a : State} {x1 : _} {x2 : _} {s : State} (h : Keeps a s)  : Keeps a (segLost x1 x2 s) := by
  unfold segLost
  repeat' (first | with_reducible assumption | with_reducible apply State.modJrn_keeps | with_reducible apply jrnRec_keeps | with_reducible apply askFetch_keeps | with_reducible apply poisonLines_keeps | with_reducible refine Keeps.foldl ?_ _ ?_ | with_reducible refine Keeps.foldl_snd ?_ _ ?_ | intro _ | with_reducible refine Keeps.snd (by with_reducible assumption) ?_ | split)

theorem replay_keeps {a : State} {x1 : _} {s : State} (h : Keeps a s)  : Keeps a (replay x1 s) := by
  unfold replay
  repeat' (first | with_reducible assumption | with_reducible apply loadCtl_keeps | with_reducible apply replayRec_keeps | with_reducible apply segLost_keeps | with_reducible apply State.modJrn_keeps | with_reducible apply advanceLoss_keeps | with_reducible apply askFetch_keeps | with_reducible apply jrnRec_keeps | with_reducible refine Keeps.foldl ?_ _ ?_ | with_reducible refine Keeps.foldl_snd ?_ _ ?_ | intro _ | with_reducible refine Keeps.snd (by with_reducible assumption) ?_ | split | dsimp only)

theorem loadGranules_keeps {a : State} {s : State} (h : Keeps a s)  : Keeps a (loadGranules s) := by
  unfold loadGranules
  repeat' (first | with_reducible assumption | with_reducible apply setGranule_keeps | with_reducible refine Keeps.foldl ?_ _ ?_ | with_reducible refine Keeps.foldl_snd ?_ _ ?_ | intro _)

theorem resumeExt_keeps {a : State} {s : State} (h : Keeps a s)  : Keeps a (resumeExt s) := by
  unfold resumeExt
  repeat' (first | with_reducible assumption | with_reducible apply State.modExt_keeps | with_reducible refine Keeps.foldl ?_ _ ?_ | with_reducible refine Keeps.foldl_snd ?_ _ ?_ | intro _ | with_reducible refine Keeps.snd (by with_reducible assumption) ?_ | split)

theorem clearDir_keeps {a : State} {s : State} (h : Keeps a s)  : Keeps a (clearDir s) := by
  unfold clearDir
  repeat' (first | with_reducible assumption | with_reducible apply modDir_keeps | with_reducible apply State.modCoh_keeps | with_reducible refine Keeps.foldl ?_ _ ?_ | with_reducible refine Keeps.foldl_snd ?_ _ ?_ | intro _)

theorem beginDirectory_keeps {a : State} {s : State} (h : Keeps a s)  : Keeps a (beginDirectory s) := by
  unfold beginDirectory
  repeat' (first | with_reducible assumption | with_reducible apply passFence_keeps | with_reducible apply State.modCoh_keeps | with_reducible apply beginTimer_keeps | with_reducible apply clearDir_keeps | with_reducible apply emit_keeps | with_reducible apply readBackDir_keeps | with_reducible refine Keeps.foldl ?_ _ ?_ | with_reducible refine Keeps.foldl_snd ?_ _ ?_ | intro _ | with_reducible refine Keeps.snd (by with_reducible assumption) ?_ | split | dsimp only)

theorem stepInventory_keeps {a : State} {x1 : _} {x2 : _} {x3 : _} {x4 : _} {s : State} (h : Keeps a s)  : Keeps a (stepInventory x1 x2 x3 x4 s) := by
  unfold stepInventory
  repeat' (first | with_reducible assumption | with_reducible apply takeFlash_keeps | with_reducible apply replay_keeps | with_reducible apply loadGranules_keeps | with_reducible apply raiseDeadline_keeps | with_reducible apply resumeExt_keeps | with_reducible apply State.modRas_keeps | with_reducible apply beginDirectory_keeps | with_reducible apply stepDone_keeps | with_reducible refine Keeps.foldl ?_ _ ?_ | with_reducible refine Keeps.foldl_snd ?_ _ ?_ | intro _ | with_reducible refine Keeps.snd (by with_reducible assumption) ?_ | split)

theorem openService_keeps {a : State} {s : State} (h : Keeps a s)  : Keeps a (openService s) := by
  unfold openService
  repeat' (first | with_reducible assumption | with_reducible apply writeBoot_keeps | with_reducible apply State.modJrn_keeps | with_reducible apply State.modRas_keeps | with_reducible apply State.modSys_keeps | with_reducible apply beginTimer_keeps | with_reducible refine Keeps.foldl ?_ _ ?_ | with_reducible refine Keeps.foldl_snd ?_ _ ?_ | (exact Nat.le_refl _) | (exact Nat.le_max_left _ _) | (exact Nat.le_add_right _ _) | intro _ | with_reducible refine Keeps.snd (by with_reducible assumption) ?_ | split)

theorem stepOpen_keeps {a : State} {s : State} (h : Keeps a s)  : Keeps a (stepOpen s) := by
  unfold stepOpen
  repeat' (first | with_reducible assumption | with_reducible apply startFence_keeps | with_reducible apply openService_keeps | with_reducible refine Keeps.foldl ?_ _ ?_ | with_reducible refine Keeps.foldl_snd ?_ _ ?_ | intro _ | with_reducible refine Keeps.snd (by with_reducible assumption) ?_ | split | dsimp only)

theorem bringUpStep_keeps {a : State} {x1 : _} {s : State} (h : Keeps a s)  : Keeps a (bringUpStep x1 s) := by
  unfold bringUpStep
  repeat' (first | with_reducible assumption | with_reducible apply stepFuses_keeps | with_reducible apply stepPads_keeps | with_reducible apply stepRails_keeps | with_reducible apply stepImage_keeps | with_reducible apply stepHbm_keeps | with_reducible apply stepInventory_keeps | with_reducible apply stepDone_keeps | with_reducible apply beginJoin_keeps | with_reducible apply stepOpen_keeps | with_reducible refine Keeps.foldl ?_ _ ?_ | with_reducible refine Keeps.foldl_snd ?_ _ ?_ | intro _ | with_reducible refine Keeps.snd (by with_reducible assumption) ?_ | split)

theorem execBringUpStep_keeps {a : State} {x1 : _}  : Runs a (execBringUpStep x1) := by
  unfold execBringUpStep
  repeat' (first | with_reducible assumption | with_reducible refine Runs.complete ?_ | with_reducible apply bringUpStep_keeps)

theorem execPerstNChange_keeps {a : State} {x1 x2 x3 : _}  : Runs a (execPerstNChange x1 x2 x3) := by
  unfold execPerstNChange
  repeat' (first | with_reducible assumption | with_reducible refine Runs.complete ?_ | with_reducible apply modLink_keeps | with_reducible apply linkLost_keeps | with_reducible refine Keeps.foldl ?_ _ ?_ | with_reducible refine Keeps.foldl_snd ?_ _ ?_ | intro _ | with_reducible refine Keeps.snd (by with_reducible assumption) ?_ | split | dsimp only)

theorem reloadRegs_keeps {a : State} {x1 : _} {x2 : _} {s : State} (h : Keeps a s)  : Keeps a (reloadRegs x1 x2 s) := by
  unfold reloadRegs
  repeat' (first | with_reducible assumption | with_reducible apply State.modRegs_keeps | with_reducible apply regSet_keeps | with_reducible refine Keeps.foldl ?_ _ ?_ | with_reducible refine Keeps.foldl_snd ?_ _ ?_ | intro _)

theorem resetBlock_keeps {a : State} {x1 : _} {x2 : _} {s : State} (h : Keeps a s)  : Keeps a (resetBlock x1 x2 s) := by
  unfold resetBlock
  repeat' (first | with_reducible assumption | with_reducible apply reloadRegs_keeps | with_reducible apply State.modNmc_keeps | with_reducible apply State.modCdc_keeps | with_reducible refine Keeps.foldl ?_ _ ?_ | with_reducible refine Keeps.foldl_snd ?_ _ ?_ | intro _ | with_reducible refine Keeps.snd (by with_reducible assumption) ?_ | split)

theorem execBlockReset_keeps {a : State} {x1 x2 x3 : _}  : Runs a (execBlockReset x1 x2 x3) := by
  unfold execBlockReset
  repeat' (first | with_reducible assumption | with_reducible refine Runs.complete ?_ | with_reducible apply issue_keeps | with_reducible apply cmdDone_keeps | with_reducible apply resetBlock_keeps | with_reducible refine Keeps.foldl ?_ _ ?_ | with_reducible refine Keeps.foldl_snd ?_ _ ?_ | intro _ | with_reducible refine Keeps.snd (by with_reducible assumption) ?_ | split)

end Sys2Proof.Machine
end

