-- ==== Sys2Proof/Laws/KeepsPower.lean ====
section
/-! SUPPORT. What the operations of Machine/Power.lean keep (Laws/Keeps.lean). -/

namespace Sys2Proof.Machine

open Sys2Proof

theorem moveThermal_keeps {a : State} {s : State} (h : Keeps a s)  : Keeps a (moveThermal s) := by
  unfold moveThermal
  repeat' (first | with_reducible assumption | with_reducible apply State.modSys_keeps | with_reducible refine Keeps.foldl ?_ _ ?_ | with_reducible refine Keeps.foldl_snd ?_ _ ?_ | (exact Nat.le_refl _) | (exact Nat.le_max_left _ _) | (exact Nat.le_add_right _ _) | intro _ | with_reducible refine Keeps.snd (by with_reducible assumption) ?_ | split | dsimp only)

theorem moveCap_keeps {a : State} {x1 : _} {s : State} (h : Keeps a s)  : Keeps a (moveCap x1 s) := by
  unfold moveCap
  repeat' (first | with_reducible assumption | with_reducible apply State.modSys_keeps | with_reducible refine Keeps.foldl ?_ _ ?_ | with_reducible refine Keeps.foldl_snd ?_ _ ?_ | (exact Nat.le_refl _) | (exact Nat.le_max_left _ _) | (exact Nat.le_add_right _ _) | intro _ | with_reducible refine Keeps.snd (by with_reducible assumption) ?_ | split | dsimp only)

theorem marginRec_keeps {a : State} {x1 : _} {x2 : _} {x3 : _} {s : State} (h : Keeps a s)  : Keeps a (marginRec x1 x2 x3 s) := by
  unfold marginRec
  repeat' (first | with_reducible assumption | with_reducible apply raise_keeps)

theorem runPolicy_keeps {a : State} {x1 : _} {s : State} (h : Keeps a s)  : Keeps a (runPolicy x1 s) := by
  unfold runPolicy
  repeat' (first | with_reducible assumption | with_reducible apply moveCap_keeps | with_reducible apply moveThermal_keeps | with_reducible apply State.modSys_keeps | with_reducible apply marginRec_keeps | with_reducible apply emit_keeps | with_reducible refine Keeps.foldl ?_ _ ?_ | with_reducible refine Keeps.foldl_snd ?_ _ ?_ | (exact Nat.le_refl _) | (exact Nat.le_max_left _ _) | (exact Nat.le_add_right _ _) | intro _ | with_reducible refine Keeps.snd (by with_reducible assumption) ?_ | split | dsimp only)

theorem execVoltagePolicy_keeps {a : State} {x1 : _}  : Runs a (execVoltagePolicy x1) := by
  unfold execVoltagePolicy
  repeat' (first | with_reducible assumption | with_reducible refine Runs.complete ?_ | with_reducible apply runPolicy_keeps)

theorem readback_keeps {a : State} {x1 : _} {s : State} (h : Keeps a s)  : Keeps a (readback x1 s) := by
  unfold readback
  repeat' (first | with_reducible assumption | with_reducible apply State.modSys_keeps | with_reducible apply powerRec_keeps | with_reducible apply emit_keeps | with_reducible refine Keeps.foldl ?_ _ ?_ | with_reducible refine Keeps.foldl_snd ?_ _ ?_ | (exact Nat.le_refl _) | (exact Nat.le_max_left _ _) | (exact Nat.le_add_right _ _) | intro _ | with_reducible refine Keeps.snd (by with_reducible assumption) ?_ | split | dsimp only)

theorem execAvsReadback_keeps {a : State} {x1 : _}  : Runs a (execAvsReadback x1) := by
  unfold execAvsReadback
  repeat' (first | with_reducible assumption | with_reducible refine Runs.complete ?_ | with_reducible apply readback_keeps)

theorem sampleGroup_keeps {a : State} {x1 : _} {x2 : _} {s : State} (h0 : a.sys.time = 0) (h : Keeps a s)  : Keeps a (sampleGroup x1 x2 s) := by
  unfold sampleGroup
  repeat' (first | with_reducible assumption | with_reducible apply startAgain_keeps h0 | with_reducible apply State.modSys_keeps | with_reducible apply trip_keeps | with_reducible apply thermalRec_keeps | with_reducible refine Keeps.foldl ?_ _ ?_ | with_reducible refine Keeps.foldl_snd ?_ _ ?_ | (exact Nat.le_refl _) | (exact Nat.le_max_left _ _) | (exact Nat.le_add_right _ _) | intro _ | with_reducible refine Keeps.snd (by with_reducible assumption) ?_ | split | dsimp only)

theorem execSensorSample_keeps {a : State} {x1 x2 x3 : _}  (h0 : a.sys.time = 0) : Runs a (execSensorSample x1 x2 x3) := by
  unfold execSensorSample
  repeat' (first | with_reducible assumption | with_reducible refine Runs.complete ?_ | with_reducible apply sampleGroup_keeps | with_reducible apply State.modSys_keeps | with_reducible refine Keeps.foldl ?_ _ ?_ | with_reducible refine Keeps.foldl_snd ?_ _ ?_ | (exact Nat.le_refl _) | (exact Nat.le_max_left _ _) | (exact Nat.le_add_right _ _) | intro _)

theorem raiseRequest_keeps {a : State} {s : State} (h : Keeps a s)  : Keeps a (raiseRequest s) := by
  unfold raiseRequest
  repeat' (first | with_reducible assumption | with_reducible apply emit_keeps | with_reducible apply State.modSys_keeps | with_reducible refine Keeps.foldl ?_ _ ?_ | with_reducible refine Keeps.foldl_snd ?_ _ ?_ | (exact Nat.le_refl _) | (exact Nat.le_max_left _ _) | (exact Nat.le_add_right _ _) | intro _ | with_reducible refine Keeps.snd (by with_reducible assumption) ?_ | split)

theorem marginAct_keeps {a : State} {x1 : _} {x2 : _} {x3 : _} {s : State} (h : Keeps a s)  : Keeps a (marginAct x1 x2 x3 s) := by
  unfold marginAct
  repeat' (first | with_reducible assumption | with_reducible apply raiseRequest_keeps | with_reducible apply marginRec_keeps | with_reducible apply graftCore_keeps | with_reducible apply askFec_keeps | with_reducible apply loseLane_keeps | with_reducible apply postDev_keeps | with_reducible refine Keeps.foldl ?_ _ ?_ | with_reducible refine Keeps.foldl_snd ?_ _ ?_ | intro _ | with_reducible refine Keeps.snd (by with_reducible assumption) ?_ | split | dsimp only)

theorem execMarginSample_keeps {a : State} {x1 x2 x3 x4 : _}  : Runs a (execMarginSample x1 x2 x3 x4) := by
  unfold execMarginSample
  repeat' (first | with_reducible assumption | with_reducible refine Runs.complete ?_ | with_reducible apply keepMargin_keeps | with_reducible apply State.modNmc_keeps | with_reducible apply marginAct_keeps | with_reducible refine Keeps.foldl ?_ _ ?_ | with_reducible refine Keeps.foldl_snd ?_ _ ?_ | intro _ | with_reducible refine Keeps.snd (by with_reducible assumption) ?_ | split)

theorem goDormant_keeps {a : State} {s : State} (h : Keeps a s)  : Keeps a (goDormant s) := by
  unfold goDormant
  repeat' (first | with_reducible assumption | with_reducible apply State.modSys_keeps | with_reducible apply reach_keeps | with_reducible refine Keeps.foldl ?_ _ ?_ | with_reducible refine Keeps.foldl_snd ?_ _ ?_ | (exact Nat.le_refl _) | (exact Nat.le_max_left _ _) | (exact Nat.le_add_right _ _) | intro _ | with_reducible refine Keeps.snd (by with_reducible assumption) ?_ | split)

theorem execDormantEntry_keeps {a : State}  : Runs a (execDormantEntry ) := by
  unfold execDormantEntry
  repeat' (first | with_reducible assumption | with_reducible refine Runs.complete ?_ | with_reducible apply goDormant_keeps)

theorem pwrDone_keeps {a : State} {x1 : _} {s : State} (h : Keeps a s)  : Keeps a (pwrDone x1 s) := by
  unfold pwrDone
  repeat' (first | with_reducible assumption | with_reducible apply State.modSys_keeps | with_reducible refine Keeps.foldl ?_ _ ?_ | with_reducible refine Keeps.foldl_snd ?_ _ ?_ | (exact Nat.le_refl _))

theorem invalidateAll_keeps {a : State} {s : State} (h : Keeps a s)  : Keeps a (invalidateAll s) := by
  unfold invalidateAll
  repeat' (first | with_reducible assumption | with_reducible apply recallLines_keeps)

theorem fallowTry_keeps {a : State} {x1 : _} {s : State} (h : Keeps a s)  : Keeps a (fallowTry x1 s) := by
  induction x1 generalizing s  with
  | zero =>
    unfold fallowTry
    repeat' (with_reducible assumption)
  | succ k ih =>
    unfold fallowTry
    repeat' (first | with_reducible assumption | with_reducible apply ih | with_reducible apply invalidateAll_keeps | with_reducible apply endRecall_keeps | with_reducible apply State.modSys_keeps | with_reducible apply drainRing_keeps | with_reducible apply State.modFab_keeps | with_reducible apply pwrDone_keeps | with_reducible refine Keeps.foldl ?_ _ ?_ | with_reducible refine Keeps.foldl_snd ?_ _ ?_ | (exact Nat.le_refl _) | (exact Nat.le_max_left _ _) | (exact Nat.le_add_right _ _) | intro _ | with_reducible refine Keeps.snd (by with_reducible assumption) ?_ | split)

theorem fallowGo_keeps {a : State} {s : State} (h : Keeps a s)  : Keeps a (fallowGo s) := by
  unfold fallowGo
  repeat' (first | with_reducible assumption | with_reducible apply fallowTry_keeps)

theorem enterFallow_keeps {a : State} {x1 : _} {s : State} (h : Keeps a s)  : Keeps a (enterFallow x1 s) := by
  unfold enterFallow
  repeat' (first | with_reducible assumption | with_reducible apply rejected_keeps | with_reducible apply pwrDone_keeps | with_reducible apply fallowGo_keeps | with_reducible apply beginRecall_keeps | with_reducible apply pump_keeps | with_reducible apply State.modSys_keeps | with_reducible refine Keeps.foldl ?_ _ ?_ | with_reducible refine Keeps.foldl_snd ?_ _ ?_ | (exact Nat.le_refl _) | (exact Nat.le_max_left _ _) | (exact Nat.le_add_right _ _) | intro _ | with_reducible refine Keeps.snd (by with_reducible assumption) ?_ | split)

theorem execFallowEnter_keeps {a : State} {x1 : _}  : Runs a (execFallowEnter x1) := by
  unfold execFallowEnter
  repeat' (first | with_reducible assumption | with_reducible refine Runs.complete ?_ | with_reducible apply enterFallow_keeps)

theorem leaveFallow_keeps {a : State} {s : State} (h : Keeps a s)  : Keeps a (leaveFallow s) := by
  unfold leaveFallow
  repeat' (first | with_reducible assumption | with_reducible apply State.modFab_keeps | with_reducible apply pwrDone_keeps | with_reducible apply State.modSys_keeps | with_reducible refine Keeps.foldl ?_ _ ?_ | with_reducible refine Keeps.foldl_snd ?_ _ ?_ | (exact Nat.le_refl _) | (exact Nat.le_max_left _ _) | (exact Nat.le_add_right _ _) | intro _ | with_reducible refine Keeps.snd (by with_reducible assumption) ?_ | split)

theorem execFallowLeave_keeps {a : State} {x1 : _}  : Runs a (execFallowLeave x1) := by
  unfold execFallowLeave
  repeat' (first | with_reducible assumption | with_reducible refine Runs.complete ?_ | with_reducible apply leaveFallow_keeps | with_reducible apply rejected_keeps | with_reducible refine Keeps.foldl ?_ _ ?_ | with_reducible refine Keeps.foldl_snd ?_ _ ?_ | intro _ | with_reducible refine Keeps.snd (by with_reducible assumption) ?_ | split)

theorem smbStart_keeps {a : State} {x1 : _} {x2 : _} {s : State} (h : Keeps a s)  : Keeps a (smbStart x1 x2 s) := by
  unfold smbStart
  repeat' (first | with_reducible assumption | with_reducible apply State.modPins_keeps | with_reducible apply pinFinding_keeps | with_reducible refine Keeps.foldl ?_ _ ?_ | with_reducible refine Keeps.foldl_snd ?_ _ ?_ | intro _ | with_reducible refine Keeps.snd (by with_reducible assumption) ?_ | split)

theorem execSmbusStart_keeps {a : State} {x1 x2 : _}  : Runs a (execSmbusStart x1 x2) := by
  unfold execSmbusStart
  repeat' (first | with_reducible assumption | with_reducible refine Runs.complete ?_ | with_reducible apply smbStart_keeps)

theorem probe_keeps {a : State} {x1 : _} {s : State} (h : Keeps a s)  : Keeps a (probe x1 s) := by
  unfold probe
  repeat' (first | with_reducible assumption | with_reducible apply State.modSys_keeps | with_reducible apply distrust_keeps | with_reducible apply pinFinding_keeps | with_reducible refine Keeps.foldl ?_ _ ?_ | with_reducible refine Keeps.foldl_snd ?_ _ ?_ | (exact Nat.le_refl _) | (exact Nat.le_max_left _ _) | (exact Nat.le_add_right _ _) | intro _ | with_reducible refine Keeps.snd (by with_reducible assumption) ?_ | split | dsimp only)

theorem execPwrfailProbe_keeps {a : State} {x1 : _}  : Runs a (execPwrfailProbe x1) := by
  unfold execPwrfailProbe
  repeat' (first | with_reducible assumption | with_reducible refine Runs.complete ?_ | with_reducible apply probe_keeps)

theorem execDriverOvercurrent_keeps {a : State} {x1 x2 : _}  : Runs a (execDriverOvercurrent x1 x2) := by
  unfold execDriverOvercurrent
  repeat' (first | with_reducible assumption | with_reducible refine Runs.complete ?_ | with_reducible apply pinFinding_keeps)

theorem clockLost_keeps {a : State} {x1 : _} {s : State} (h : Keeps a s)  : Keeps a (clockLost x1 s) := by
  unfold clockLost
  repeat' (first | with_reducible assumption | with_reducible apply clockFinding_keeps | with_reducible apply linkLost_keeps | with_reducible apply goDown_keeps | with_reducible apply postDev_keeps | with_reducible apply State.modFab_keeps | with_reducible refine Keeps.foldl ?_ _ ?_ | with_reducible refine Keeps.foldl_snd ?_ _ ?_ | intro _ | with_reducible refine Keeps.snd (by with_reducible assumption) ?_ | split)

theorem execRefclkLoss_keeps {a : State} {x1 : _}  : Runs a (execRefclkLoss x1) := by
  unfold execRefclkLoss
  repeat' (first | with_reducible assumption | with_reducible refine Runs.complete ?_ | with_reducible apply clockLost_keeps)

theorem execRefclkReturn_keeps {a : State} {x1 : _}  : Runs a (execRefclkReturn x1) := by
  unfold execRefclkReturn
  repeat' (first | with_reducible assumption | with_reducible refine Runs.complete ?_ | with_reducible apply State.modSys_keeps | with_reducible refine Keeps.foldl ?_ _ ?_ | with_reducible refine Keeps.foldl_snd ?_ _ ?_ | (exact Nat.le_refl _) | (exact Nat.le_max_left _ _) | (exact Nat.le_add_right _ _) | intro _)

theorem execRecallBound_keeps {a : State}  : Runs a (execRecallBound ) := by
  unfold execRecallBound
  repeat' (first | with_reducible assumption | with_reducible refine Runs.complete ?_ | with_reducible apply fallowGo_keeps | with_reducible apply departGo_keeps | with_reducible apply endRecall_keeps | with_reducible refine Keeps.foldl ?_ _ ?_ | with_reducible refine Keeps.foldl_snd ?_ _ ?_ | intro _)

end Sys2Proof.Machine
end

