-- ==== Sys2Proof/Laws/KeepsQueues.lean ====
section
/-! SUPPORT. What the operations of Machine/Queues.lean keep (Laws/Keeps.lean). -/

namespace Sys2Proof.Machine

open Sys2Proof

theorem startRing_keeps {a : State} {x1 : _} {x2 : _} {s : State} (h : Keeps a s)  : Keeps a (startRing x1 x2 s) := by
  unfold startRing
  repeat' (first | with_reducible assumption | with_reducible apply State.modNmc_keeps | with_reducible apply State.modXlt_keeps | with_reducible apply modEvq_keeps | with_reducible refine Keeps.foldl ?_ _ ?_ | with_reducible refine Keeps.foldl_snd ?_ _ ?_ | intro _ | with_reducible refine Keeps.snd (by with_reducible assumption) ?_ | split)

theorem baseWrite_keeps {a : State} {x1 : _} {x2 : _} {x3 : _} {s : State} (h : Keeps a s)  : Keeps a (baseWrite x1 x2 x3 s).2 := by
  unfold baseWrite
  repeat' (first | with_reducible assumption | with_reducible apply rejected_keeps | with_reducible apply regSet_keeps | with_reducible apply startRing_keeps | with_reducible refine Keeps.foldl ?_ _ ?_ | with_reducible refine Keeps.foldl_snd ?_ _ ?_ | intro _ | with_reducible refine Keeps.snd (by with_reducible assumption) ?_ | split | dsimp only)

theorem execQueueBaseWrite_keeps {a : State} {x1 x2 x3 : _}  : Runs a (execQueueBaseWrite x1 x2 x3) := by
  unfold execQueueBaseWrite
  repeat' (first | with_reducible assumption | with_reducible refine Runs.complete ?_ | with_reducible apply baseWrite_keeps)

theorem sizeWrite_keeps {a : State} {x1 : _} {x2 : _} {x3 : _} {s : State} (h : Keeps a s)  : Keeps a (sizeWrite x1 x2 x3 s).2 := by
  unfold sizeWrite
  repeat' (first | with_reducible assumption | with_reducible apply rejected_keeps | with_reducible apply regSet_keeps | with_reducible refine Keeps.foldl ?_ _ ?_ | with_reducible refine Keeps.foldl_snd ?_ _ ?_ | intro _ | with_reducible refine Keeps.snd (by with_reducible assumption) ?_ | split | dsimp only)

theorem headWrite_keeps {a : State} {x1 : _} {x2 : _} {x3 : _} {s : State} (h : Keeps a s)  : Keeps a (headWrite x1 x2 x3 s).2 := by
  unfold headWrite
  repeat' (first | with_reducible assumption | with_reducible apply rejected_keeps | with_reducible apply pumpFq_keeps | with_reducible apply regSet_keeps | with_reducible refine Keeps.foldl ?_ _ ?_ | with_reducible refine Keeps.foldl_snd ?_ _ ?_ | intro _ | with_reducible refine Keeps.snd (by with_reducible assumption) ?_ | split | dsimp only)

theorem execQueueHeadWrite_keeps {a : State} {x1 x2 x3 : _}  : Runs a (execQueueHeadWrite x1 x2 x3) := by
  unfold execQueueHeadWrite
  repeat' (first | with_reducible assumption | with_reducible refine Runs.complete ?_ | with_reducible apply headWrite_keeps)

end Sys2Proof.Machine
end

