-- ==== Sys2Proof/Laws/KeepsTransplant.lean ====
section
/-! SUPPORT. What the operations of Machine/Transplant.lean keep (Laws/Keeps.lean). -/

namespace Sys2Proof.Machine

open Sys2Proof

theorem modXplant_keeps {a : State} {x1 : _} {s : State} (h : Keeps a s)  : Keeps a (modXplant x1 s) := by
  unfold modXplant
  repeat' (first | with_reducible assumption | with_reducible apply State.modEmb_keeps)

theorem copyShard_keeps {a : State} {x1 : _} {s : State} (h : Keeps a s)  : Keeps a (copyShard x1 s) := by
  unfold copyShard
  repeat' (first | with_reducible assumption | with_reducible apply feedCopies_keeps | with_reducible apply modXplant_keeps | with_reducible apply State.modHome_keeps)

theorem sentOrEnd_keeps {a : State} {id : Nat} {q : Option Status × State} (h : Keeps a q.2) : Keeps a (sentOrEnd id q) := by
  unfold sentOrEnd
  split
  · exact endCopy_keeps h
  · exact h

theorem noteMapCopy_keeps {a : State} {x1 : _} {x2 : _} {s : State} (h : Keeps a s)  : Keeps a (noteMapCopy x1 x2 s) := by
  unfold noteMapCopy
  repeat' (first | with_reducible assumption | with_reducible apply modXplant_keeps | with_reducible apply State.modHome_keeps)

theorem copyMapLine_keeps {a : State} {x1 : _} {s : State} {x3 : _} (h : Keeps a s)  : Keeps a (copyMapLine x1 s x3) := by
  unfold copyMapLine
  repeat' (first | with_reducible assumption | with_reducible apply sentOrEnd_keeps | with_reducible apply sendCopyLine_keeps | with_reducible apply noteMapCopy_keeps)

theorem copyBitmap_keeps {a : State} {x1 : _} {s : State} (h : Keeps a s)  : Keeps a (copyBitmap x1 s) := by
  unfold copyBitmap
  repeat' (first | with_reducible assumption | with_reducible apply modXplant_keeps | with_reducible apply copyMapLine_keeps | with_reducible refine Keeps.foldl ?_ _ ?_ | with_reducible refine Keeps.foldl_snd ?_ _ ?_ | intro _ | with_reducible refine Keeps.snd (by with_reducible assumption) ?_ | split)

theorem ownExtCommand_keeps {a : State} {x1 : _} {s : State} (hx1 : ∀ y0, Keeps a y0 → Keeps a (x1 y0)) (h : Keeps a s)  : Keeps a (ownExtCommand x1 s) := by
  unfold ownExtCommand
  repeat' (first | with_reducible assumption | with_reducible apply doneMod_keeps | with_reducible apply hx1 | with_reducible refine Keeps.foldl ?_ _ ?_ | with_reducible refine Keeps.foldl_snd ?_ _ ?_ | intro _ | with_reducible refine Keeps.snd (by with_reducible assumption) ?_ | split)

theorem offerShard_keeps {a : State} {x1 : _} {s : State} (h : Keeps a s)  : Keeps a (offerShard x1 s) := by
  unfold offerShard
  repeat' (first | with_reducible assumption | with_reducible apply fleetRec_keeps | with_reducible apply offerHand_keeps | with_reducible apply modXplant_keeps | with_reducible refine Keeps.foldl ?_ _ ?_ | with_reducible refine Keeps.foldl_snd ?_ _ ?_ | intro _ | with_reducible refine Keeps.snd (by with_reducible assumption) ?_ | split)

theorem xplGo_keeps {a : State} {s : State} (h : Keeps a s)  : Keeps a (xplGo s) := by
  unfold xplGo
  repeat' (first | with_reducible assumption | with_reducible apply copyShard_keeps | with_reducible apply emit_keeps | with_reducible apply modXplant_keeps | with_reducible apply ownExtCommand_keeps | with_reducible apply revokeRun_keeps | with_reducible apply offerShard_keeps | with_reducible apply copyBitmap_keeps | with_reducible apply releaseRun_keeps | with_reducible apply State.modEmb_keeps | with_reducible apply restoreRun_keeps | with_reducible refine Keeps.foldl ?_ _ ?_ | with_reducible refine Keeps.foldl_snd ?_ _ ?_ | intro _ | with_reducible refine Keeps.snd (by with_reducible assumption) ?_ | split | dsimp only)

theorem startXplant_keeps {a : State} {x1 : _} {s : State} (h : Keeps a s)  : Keeps a (startXplant x1 s) := by
  unfold startXplant
  repeat' (first | with_reducible assumption | with_reducible apply xplGo_keeps | with_reducible apply State.modEmb_keeps | with_reducible refine Keeps.foldl ?_ _ ?_ | with_reducible refine Keeps.foldl_snd ?_ _ ?_ | intro _ | with_reducible refine Keeps.snd (by with_reducible assumption) ?_ | split | dsimp only)

theorem groupInterval_keeps {a : State} {x1 : _} {s : State} (h : Keeps a s)  : Keeps a (groupInterval x1 s) := by
  unfold groupInterval
  repeat' (first | with_reducible assumption | with_reducible apply emitAll_keeps | with_reducible apply State.modEmb_keeps | with_reducible apply startXplant_keeps | with_reducible refine Keeps.foldl ?_ _ ?_ | with_reducible refine Keeps.foldl_snd ?_ _ ?_ | intro _ | with_reducible refine Keeps.snd (by with_reducible assumption) ?_ | split | dsimp only)

theorem loadInterval_keeps {a : State} {s : State} (h : Keeps a s)  : Keeps a (loadInterval s) := by
  unfold loadInterval
  repeat' (first | with_reducible assumption | with_reducible apply elapsed_keeps | with_reducible apply groupInterval_keeps | with_reducible apply xplGo_keeps | with_reducible apply State.modEmb_keeps | with_reducible refine Keeps.foldl ?_ _ ?_ | with_reducible refine Keeps.foldl_snd ?_ _ ?_ | intro _ | with_reducible refine Keeps.snd (by with_reducible assumption) ?_ | split)

theorem execShardLoadInterval_keeps {a : State}  : Runs a (execShardLoadInterval ) := by
  unfold execShardLoadInterval
  repeat' (first | with_reducible assumption | with_reducible refine Runs.complete ?_ | with_reducible apply loadInterval_keeps)

end Sys2Proof.Machine
end

