-- ==== Sys2Proof/Laws/KeepsRegPath.lean ====
section
/-! SUPPORT. What the operations of Machine/RegPath.lean keep (Laws/Keeps.lean). -/

namespace Sys2Proof.Machine

open Sys2Proof

theorem ran_keeps {a s : State} {f : State → Host.Outcome State Fault Refusal} (hf : Runs a f) (h : Keeps a s) : Keeps a (ran (f s) s) := by
  unfold ran
  split
  · exact hf s h _ (by assumption)
  · exact h

theorem plainWrite_keeps {a : State} {x1 : _} {x2 : _} {x3 : _} {x4 : _} {s : State} (h : Keeps a s)  : Keeps a (plainWrite x1 x2 x3 x4 s).2 := by
  unfold plainWrite
  repeat' (first | with_reducible assumption | with_reducible apply rejected_keeps | with_reducible apply onlyIf_keeps | with_reducible apply regSet_keeps | with_reducible refine Keeps.foldl ?_ _ ?_ | with_reducible refine Keeps.foldl_snd ?_ _ ?_ | intro _ | with_reducible refine Keeps.snd (by with_reducible assumption) ?_ | split | dsimp only)

theorem cmdWrite_keeps {a s : State} {wr : Writer} {cs : List WCls} {off done : Nat} {run : Option (State → Host.Outcome State Fault Refusal)}
    (hr : ∀ f, run = some f → Runs a f) (h : Keeps a s) : Keeps a (cmdWrite wr cs off done run s).2 := by
  cases run with
  | none => exact issue_keeps (fun _ h => cmdDone_keeps (rejected_keeps h)) h
  | some f => exact ran_keeps (hr f rfl) h

theorem extOp_keeps {a : State} {wr : Writer} {v : Word} {f : State → Host.Outcome State Fault Refusal} (e : extOp wr v = some f) : Runs a f := by
  unfold extOp at e
  dsimp only at e
  split at e
  · cases e; exact execAssign_keeps
  · cases e; exact execModify_keeps
  · cases e; exact execRegion_keeps
  · cases e; exact execRevoke_keeps
  · cases e; exact execRestore_keeps
  · cases e; exact execExtentRelease_keeps
  · cases e

theorem asidOp_keeps {a : State} {wr : Writer} {v : Word} {f : State → Host.Outcome State Fault Refusal} (e : asidOp wr v = some f) : Runs a f := by
  unfold asidOp at e
  split at e
  · cases e; exact execBind_keeps
  · cases e; exact execUnbind_keeps
  · cases e

theorem tableOp_keeps {a : State} {wr : Writer} {v : Word} {f : State → Host.Outcome State Fault Refusal} (e : tableOp wr v = some f) : Runs a f := by
  unfold tableOp at e
  dsimp only at e
  split at e
  · cases e; exact execTableCreate_keeps
  · cases e; exact execTableReplace_keeps
  · cases e; exact execTableDelete_keeps
  · cases e

theorem groupOp_keeps {a : State} {wr : Writer} {v : Word} {f : State → Host.Outcome State Fault Refusal} (e : groupOp wr v = some f) : Runs a f := by
  unfold groupOp at e
  split at e
  · cases e; exact execGroupSet_keeps
  · cases e; exact execGroupClear_keeps
  · cases e

theorem indexOp_keeps {a : State} {wr : Writer} {v : Word} {f : State → Host.Outcome State Fault Refusal} (e : indexOp wr v = some f) : Runs a f := by
  unfold indexOp at e
  dsimp only at e
  split at e
  · cases e; exact execIndexCreate_keeps
  · cases e; exact execIndexDestroy_keeps
  · cases e; exact execPin_keeps
  · cases e; exact execUnpin_keeps
  · cases e

theorem compOp_keeps {a : State} {wr : Writer} {v : Word} {f : State → Host.Outcome State Fault Refusal} (e : compOp wr v = some f) : Runs a f := by
  unfold compOp at e
  dsimp only at e
  split at e
  · cases e; exact execCompPolicy_keeps
  · cases e; exact execCompReleaseCmd_keeps
  · cases e

theorem invWrite_keeps {a : State} {x1 : _} {x2 : _} {s : State} (h : Keeps a s)  : Keeps a (invWrite x1 x2 s).2 := by
  unfold invWrite
  repeat' (first | with_reducible assumption | with_reducible apply doneMod_keeps | with_reducible apply rejected_keeps | with_reducible apply invStart_keeps | with_reducible refine Keeps.foldl ?_ _ ?_ | with_reducible refine Keeps.foldl_snd ?_ _ ?_ | intro _ | with_reducible refine Keeps.snd (by with_reducible assumption) ?_ | split)

theorem onlyRun_keeps {a : State} {c : Prop} [Decidable c] {g f : State → Host.Outcome State Fault Refusal} (hg : Runs a g)
    (e : (if c then some g else none) = some f) : Runs a f := by
  split at e
  · cases e; exact hg
  · cases e

theorem pickWrite_keeps {a : State} {c : Prop} [Decidable c] {p q : Option (Option Status × State)} (hp : ∀ x, p = some x → Keeps a x.2)
    (hq : ∀ x, q = some x → Keeps a x.2) : ∀ x, (if c then p else q) = some x → Keeps a x.2 := by
  intro x e
  split at e
  · exact hp x e
  · exact hq x e

theorem someWrite_keeps {a : State} {y : Option Status × State} (h : Keeps a y.2) : ∀ x, some y = some x → Keeps a x.2 := by
  intro x e
  cases e
  exact h

theorem commandWrite_keeps {a s : State} {wr : Writer} {off : Nat} {v : Word} {x : Option Status × State} (e : commandWrite wr off v s = some x)
    (h : Keeps a s) : Keeps a x.2 := by
  suffices H : ∀ x, commandWrite wr off v s = some x → Keeps a x.2 from H x e
  unfold commandWrite
  refine pickWrite_keeps (someWrite_keeps (cmdWrite_keeps (fun _ => onlyRun_keeps execBlockReset_keeps) h)) ?_
  refine pickWrite_keeps (someWrite_keeps (cmdWrite_keeps (fun _ => extOp_keeps) h)) ?_
  refine pickWrite_keeps (someWrite_keeps (cmdWrite_keeps (fun _ => asidOp_keeps) h)) ?_
  refine pickWrite_keeps (someWrite_keeps (invWrite_keeps h)) ?_
  refine pickWrite_keeps (someWrite_keeps (cmdWrite_keeps (fun _ => onlyRun_keeps execGraft_keeps) h)) ?_
  refine pickWrite_keeps (someWrite_keeps (cmdWrite_keeps (fun _ => onlyRun_keeps execNmcRsInstall_keeps) h)) ?_
  refine pickWrite_keeps (someWrite_keeps (cmdWrite_keeps (fun _ => onlyRun_keeps execNmcRsRetire_keeps) h)) ?_
  refine pickWrite_keeps (someWrite_keeps (cmdWrite_keeps (fun _ => tableOp_keeps) h)) ?_
  refine pickWrite_keeps (someWrite_keeps (cmdWrite_keeps (fun _ => groupOp_keeps) h)) ?_
  refine pickWrite_keeps (someWrite_keeps (cmdWrite_keeps (fun _ => indexOp_keeps) h)) ?_
  refine pickWrite_keeps (someWrite_keeps (cmdWrite_keeps (fun _ => onlyRun_keeps execDrillSchedule_keeps) h)) ?_
  refine pickWrite_keeps (someWrite_keeps (cmdWrite_keeps (fun _ => compOp_keeps) h)) ?_
  intro x e
  cases e

theorem gated_keeps {a : State} {x1 : _} {x2 : _} {x3 : _} {s : State} (hx3 : ∀ y0, Keeps a y0 → Keeps a (x3 y0)) (h : Keeps a s)  : Keeps a (gated x1 x2 x3 s).2 := by
  unfold gated
  repeat' (first | with_reducible assumption | with_reducible apply rejected_keeps | with_reducible apply hx3 | with_reducible refine Keeps.foldl ?_ _ ?_ | with_reducible refine Keeps.foldl_snd ?_ _ ?_ | intro _ | with_reducible refine Keeps.snd (by with_reducible assumption) ?_ | split)

theorem pwrWrite_keeps {a : State} {x1 : _} {x2 : _} {s : State} (h : Keeps a s)  : Keeps a (pwrWrite x1 x2 s).2 := by
  unfold pwrWrite
  repeat' (first | with_reducible assumption | with_reducible apply gated_keeps | with_reducible apply regSet_keeps | with_reducible apply enterFallow_keeps | with_reducible apply leaveFallow_keeps | with_reducible apply rejected_keeps | with_reducible refine Keeps.foldl ?_ _ ?_ | with_reducible refine Keeps.foldl_snd ?_ _ ?_ | intro _ | with_reducible refine Keeps.snd (by with_reducible assumption) ?_ | split)

theorem norWrite_keeps {a : State} {x1 : _} {x2 : _} {s : State} (h : Keeps a s)  : Keeps a (norWrite x1 x2 s).2 := by
  unfold norWrite
  repeat' (first | with_reducible assumption | with_reducible refine ran_keeps (by first | exact execNorRead_keeps | exact execNorProgram_keeps | exact execNorErase_keeps) ?_ | with_reducible apply gated_keeps | with_reducible apply rejected_keeps | with_reducible refine Keeps.foldl ?_ _ ?_ | with_reducible refine Keeps.foldl_snd ?_ _ ?_ | intro _ | with_reducible refine Keeps.snd (by with_reducible assumption) ?_ | split)

theorem modeWrite_keeps {a : State} {x1 : _} {x2 : _} {s : State} (h : Keeps a s)  : Keeps a (modeWrite x1 x2 s).2 := by
  unfold modeWrite
  repeat' (first | with_reducible assumption | with_reducible apply gated_keeps | with_reducible apply forceMode_keeps | with_reducible apply rejected_keeps | with_reducible refine Keeps.foldl ?_ _ ?_ | with_reducible refine Keeps.foldl_snd ?_ _ ?_ | intro _ | with_reducible refine Keeps.snd (by with_reducible assumption) ?_ | split)

theorem linkCtlWrite_keeps {a : State} {x1 : _} {x2 : _} {x3 : _} {x4 : _} {s : State} (h : Keeps a s)  : Keeps a (linkCtlWrite x1 x2 x3 x4 s).2 := by
  unfold linkCtlWrite
  repeat' (first | with_reducible assumption | with_reducible refine ran_keeps (by first | exact execLinkReset_keeps) ?_ | with_reducible apply plainWrite_keeps | with_reducible refine Keeps.foldl ?_ _ ?_ | with_reducible refine Keeps.foldl_snd ?_ _ ?_ | intro _ | with_reducible refine Keeps.snd (by with_reducible assumption) ?_ | split)

theorem actLow_keeps {a : State} {x1 : _} {x2 : _} {x3 : _} {x4 : _} {s : State} (h : Keeps a s)  : Keeps a (actLow x1 x2 x3 x4 s).2 := by
  unfold actLow
  repeat' (first | with_reducible assumption | with_reducible refine ran_keeps (by first | exact execWarmResetFabric_keeps | exact execCfgBootClear_keeps | exact execCfgSvnCommit_keeps | exact execCfgKeyRevoke_keeps) ?_ | with_reducible apply gated_keeps | with_reducible apply State.modSys_keeps | with_reducible apply pwrWrite_keeps | with_reducible apply regSet_keeps | with_reducible apply norWrite_keeps | with_reducible apply linkCtlWrite_keeps | with_reducible apply plainWrite_keeps | with_reducible refine Keeps.foldl ?_ _ ?_ | with_reducible refine Keeps.foldl_snd ?_ _ ?_ | (exact Nat.le_refl _) | (exact Nat.le_max_left _ _) | (exact Nat.le_add_right _ _) | intro _ | with_reducible refine Keeps.snd (by with_reducible assumption) ?_ | split)

theorem actQueue_keeps {a : State} {x1 : _} {x2 : _} {x3 : _} {x4 : _} {x5 : _} {s : State} (h : Keeps a s)  : Keeps a (actQueue x1 x2 x3 x4 x5 s).2 := by
  unfold actQueue
  repeat' (first | with_reducible assumption | with_reducible apply baseWrite_keeps | with_reducible apply sizeWrite_keeps | with_reducible apply headWrite_keeps | with_reducible apply sqDoorbell_keeps | with_reducible apply plainWrite_keeps | with_reducible refine Keeps.foldl ?_ _ ?_ | with_reducible refine Keeps.foldl_snd ?_ _ ?_ | intro _ | with_reducible refine Keeps.snd (by with_reducible assumption) ?_ | split)

theorem actHigh_keeps {a : State} {x1 : _} {x2 : _} {x3 : _} {x4 : _} {s : State} (h : Keeps a s)  : Keeps a (actHigh x1 x2 x3 x4 s).2 := by
  unfold actHigh
  repeat' (first | with_reducible assumption | with_reducible refine ran_keeps (by first | exact execFltFenceCmd_keeps) ?_ | with_reducible apply modeWrite_keeps | with_reducible apply faultReply_keeps | with_reducible apply gated_keeps | with_reducible apply snapWrite_keeps | with_reducible apply sealWrite_keeps | with_reducible apply unlockWrite_keeps | with_reducible apply lockWrite_keeps | with_reducible apply selWrite_keeps | with_reducible apply injectWrite_keeps | with_reducible apply injectKind_keeps | with_reducible apply rejected_keeps | with_reducible apply plainWrite_keeps | with_reducible apply actQueue_keeps | with_reducible refine Keeps.foldl ?_ _ ?_ | with_reducible refine Keeps.foldl_snd ?_ _ ?_ | intro _ | with_reducible refine Keeps.snd (by with_reducible assumption) ?_ | split)

theorem regWrite_keeps {a s : State} {wr : Writer} {off : Nat} {v : Word} (h : Keeps a s) : Keeps a (regWrite wr off v s).2 := by
  unfold regWrite
  generalize hc : commandWrite wr off v s = c
  generalize doneOffs.contains off = b
  cases regRow off with
  | none => exact rejected_keeps h
  | some r =>
    dsimp only
    split
    · exact gated_keeps (fun _ => stageSet_keeps) h
    split
    · exact gated_keeps (fun _ => doneMod_keeps) h
    cases c with
    | some x => exact commandWrite_keeps hc h
    | none =>
      dsimp only
      split
      · exact actLow_keeps h
      · exact actHigh_keeps h

theorem writeSized_keeps {a : State} {x1 : _} {x2 : _} {x3 : _} {x4 : _} {s : State} (h : Keeps a s)  : Keeps a (writeSized x1 x2 x3 x4 s) := by
  unfold writeSized
  repeat' (first | with_reducible assumption | with_reducible apply rejected_keeps | with_reducible apply regWrite_keeps | with_reducible refine Keeps.foldl ?_ _ ?_ | with_reducible refine Keeps.foldl_snd ?_ _ ?_ | intro _ | with_reducible refine Keeps.snd (by with_reducible assumption) ?_ | split)

theorem execRegisterWrite_keeps {a : State} {x1 x2 x3 x4 : _}  : Runs a (execRegisterWrite x1 x2 x3 x4) := by
  unfold execRegisterWrite
  repeat' (first | with_reducible assumption | with_reducible refine Runs.complete ?_ | with_reducible apply writeSized_keeps)

theorem lossQuery_keeps {a : State} {x1 : _} {x2 : _} {s : State} (h : Keeps a s)  : Keeps a (lossQuery x1 x2 s) := by
  unfold lossQuery
  repeat' (first | with_reducible assumption | with_reducible apply regWrite_keeps)

theorem execJrnLossQuery_keeps {a : State} {x1 x2 : _}  : Runs a (execJrnLossQuery x1 x2) := by
  unfold execJrnLossQuery
  repeat' (first | with_reducible assumption | with_reducible refine Runs.complete ?_ | with_reducible apply lossQuery_keeps)

theorem control_keeps {a : State} {x1 : _} {x2 : _} {s : State} (h : Keeps a s)  : Keeps a (control x1 x2 s) := by
  unfold control
  repeat' (first | with_reducible assumption | with_reducible apply answer_keeps | with_reducible apply rejected_keeps | with_reducible apply regWrite_keeps | with_reducible apply readClear_keeps | with_reducible refine Keeps.foldl ?_ _ ?_ | with_reducible refine Keeps.foldl_snd ?_ _ ?_ | intro _ | with_reducible refine Keeps.snd (by with_reducible assumption) ?_ | split | dsimp only)

theorem execControl_keeps {a : State} {x1 x2 : _}  : Runs a (execControl x1 x2) := by
  unfold execControl
  repeat' (first | with_reducible assumption | with_reducible refine Runs.complete ?_ | with_reducible apply control_keeps)

theorem mctp_keeps {a : State} {x1 : _} {x2 : _} {x3 : _} {s : State} (h : Keeps a s)  : Keeps a (mctp x1 x2 x3 s) := by
  unfold mctp
  repeat' (first | with_reducible assumption | with_reducible apply regWrite_keeps | with_reducible apply emit_keeps | with_reducible apply readClear_keeps | with_reducible refine Keeps.foldl ?_ _ ?_ | with_reducible refine Keeps.foldl_snd ?_ _ ?_ | intro _ | with_reducible refine Keeps.snd (by with_reducible assumption) ?_ | split)

theorem execMctpRequest_keeps {a : State} {x1 x2 x3 : _}  : Runs a (execMctpRequest x1 x2 x3) := by
  unfold execMctpRequest
  repeat' (first | with_reducible assumption | with_reducible refine Runs.complete ?_ | with_reducible apply mctp_keeps)

theorem trlAccess_keeps {a : State} {x1 : _} {x2 : _} {x3 : _} {s : State} (h : Keeps a s)  : Keeps a (trlAccess x1 x2 x3 s) := by
  unfold trlAccess
  repeat' (first | with_reducible assumption | with_reducible apply regWrite_keeps | with_reducible apply emit_keeps | with_reducible apply readClear_keeps | with_reducible refine Keeps.foldl ?_ _ ?_ | with_reducible refine Keeps.foldl_snd ?_ _ ?_ | intro _ | with_reducible refine Keeps.snd (by with_reducible assumption) ?_ | split)

theorem execTrlAccess_keeps {a : State} {x1 x2 x3 : _}  : Runs a (execTrlAccess x1 x2 x3) := by
  unfold execTrlAccess
  repeat' (first | with_reducible assumption | with_reducible refine Runs.complete ?_ | with_reducible apply trlAccess_keeps)

theorem passTime_keeps {a : State} {s : State} (h : Keeps a s)  : Keeps a (passTime s) := by
  unfold passTime
  repeat' (first | with_reducible assumption | with_reducible apply xplGo_keeps | with_reducible apply departGo_keeps | with_reducible apply fallowGo_keeps | with_reducible apply tick_keeps)

end Sys2Proof.Machine
end

