-- ==== Sys2Proof/Laws/KeepsRetry.lean ====
section
/-! SUPPORT. What the operations of Machine/Retry.lean keep (Laws/Keeps.lean). -/

namespace Sys2Proof.Machine

open Sys2Proof

theorem retryOf_keeps {a : State} {x1 : _} {s : State} (h : Keeps a s)  : Keeps a (retryOf x1 s) := by
  unfold retryOf
  repeat' (first | with_reducible assumption | with_reducible apply copyRetry_keeps | with_reducible apply giveStations_keeps | with_reducible apply retryAccess_keeps | with_reducible apply retryUnit_keeps | with_reducible refine Keeps.foldl ?_ _ ?_ | with_reducible refine Keeps.foldl_snd ?_ _ ?_ | intro _ | with_reducible refine Keeps.snd (by with_reducible assumption) ?_ | split)

theorem execNyHintRetry_keeps {a : State} {x1 : _}  : Runs a (execNyHintRetry x1) := by
  unfold execNyHintRetry
  repeat' (first | with_reducible assumption | with_reducible refine Runs.complete ?_ | with_reducible apply retryOf_keeps)

theorem codebookFilled_keeps {a : State} {x1 : _} {s : State} (h : Keeps a s)  : Keeps a (codebookFilled x1 s) := by
  unfold codebookFilled
  repeat' (first | with_reducible assumption | with_reducible apply needLines_keeps | with_reducible apply State.modCdc_keeps | with_reducible apply checkRec_keeps | with_reducible apply pump_keeps | with_reducible refine Keeps.foldl ?_ _ ?_ | with_reducible refine Keeps.foldl_snd ?_ _ ?_ | intro _ | with_reducible refine Keeps.snd (by with_reducible assumption) ?_ | split | dsimp only)

theorem execCodebookFillComplete_keeps {a : State} {x1 : _}  : Runs a (execCodebookFillComplete x1) := by
  unfold execCodebookFillComplete
  repeat' (first | with_reducible assumption | with_reducible refine Runs.complete ?_ | with_reducible apply codebookFilled_keeps)

end Sys2Proof.Machine
end

