-- ==== Sys2Proof/Laws/KeepsSieve.lean ====
section
/-! SUPPORT. What the operations of Machine/Sieve.lean keep (Laws/Keeps.lean). -/

namespace Sys2Proof.Machine

open Sys2Proof

theorem sieve_keeps {a : State} {x1 : _} {x2 : _} {x3 : _} {x4 : _} {x5 : _} {s : State} (h : Keeps a s)  : Keeps a (sieve x1 x2 x3 x4 x5 s) := by
  unfold sieve
  repeat' (first | with_reducible assumption | with_reducible apply runStep_keeps)

theorem execLoadcb_keeps {a : State} {x1 x2 : _}  : Runs a (execLoadcb x1 x2) := by
  unfold execLoadcb
  repeat' (first | with_reducible assumption | with_reducible refine Runs.complete ?_ | with_reducible apply sieve_keeps | with_reducible refine Keeps.foldl ?_ _ ?_ | with_reducible refine Keeps.foldl_snd ?_ _ ?_ | intro _)

theorem execDecode_keeps {a : State} {x1 x2 : _}  : Runs a (execDecode x1 x2) := by
  unfold execDecode
  repeat' (first | with_reducible assumption | with_reducible refine Runs.complete ?_ | with_reducible apply sieve_keeps)

theorem execEncode_keeps {a : State} {x1 x2 : _}  : Runs a (execEncode x1 x2) := by
  unfold execEncode
  repeat' (first | with_reducible assumption | with_reducible refine Runs.complete ?_ | with_reducible apply sieve_keeps)

theorem execLookup_keeps {a : State} {x1 x2 : _}  : Runs a (execLookup x1 x2) := by
  unfold execLookup
  repeat' (first | with_reducible assumption | with_reducible refine Runs.complete ?_ | with_reducible apply sieve_keeps)

theorem execLutacc_keeps {a : State} {x1 x2 : _}  : Runs a (execLutacc x1 x2) := by
  unfold execLutacc
  repeat' (first | with_reducible assumption | with_reducible refine Runs.complete ?_ | with_reducible apply sieve_keeps)

theorem execAdc_keeps {a : State} {x1 x2 : _}  : Runs a (execAdc x1 x2) := by
  unfold execAdc
  repeat' (first | with_reducible assumption | with_reducible refine Runs.complete ?_ | with_reducible apply sieve_keeps)

theorem execFilter_keeps {a : State} {x1 x2 : _}  : Runs a (execFilter x1 x2) := by
  unfold execFilter
  repeat' (first | with_reducible assumption | with_reducible refine Runs.complete ?_ | with_reducible apply sieve_keeps)

end Sys2Proof.Machine
end

