-- ==== Sys2Proof/WellFormed.lean ====
section
/-! DEFINITION. What a command must satisfy to be one that the world outside can send: its parts have the lengths that their framing
gives them. A command that the device itself refuses (a reserved opcode, a wrong plen, a bad alignment) is well formed: its refusal is
its meaning. -/

namespace Sys2Proof

/-- As many payload bytes as plen says follow the header (R90). -/
def Req.ok (r : Req) : Bool := decide (r.payload.length = r.plen.toNat)

/-- The bytes of a mapping unit, 64 KiB (R46). -/
def unitOk (bs : List Byte) : Bool := decide (bs.length = 65536)

/-- Fetched members are members of a stripe, each whole (R56). -/
def MediaRead.ok : MediaRead → Bool
  | .good => true
  | .recovered => true
  | .lost => true
  | .fetched parts => parts.all fun p => decide (p.1 < 10) && unitOk p.2

/-- Only a DATA record names sectors (Table 04-2). -/
def JRec.ok (j : JRec) : Bool :=
  match j.body with
  | .data _ => true
  | _ => decide (j.sectors = 0)

/-- A mirrored record is whole (R409). -/
def CtlRec.ok : CtlRec → Bool
  | .record r => r.ok
  | .whole _ => true

/-- The logical order names each physical lane at most once (R353). -/
def FabTrain.ok (t : FabTrain) : Bool := decide t.order.Nodup

/-- The command can be sent. -/
def Instr.wf : Instr → Bool
  | .hostAccess _ _ a => a.r.ok
  | .load r => r.ok
  | .store r => r.ok
  | .storePart r => r.ok
  | .codedWrite r => r.ok
  | .atomic r => r.ok
  | .copy r => r.ok
  | .copyRegister _ r _ => r.ok
  | .copyLineAnswer _ _ _ _ _ data => decide (data = [] ∨ data.length = 128)
  | .wait r => r.ok
  | .barrier r => r.ok
  | .acquire r => r.ok
  | .release r => r.ok
  | .publish r => r.ok
  | .readVersion r => r.ok
  | .control r _ => r.ok
  | .fillComplete _ res => res.ok
  | .mergeFillComplete _ res => res.ok
  | .writebackComplete _ res => res.ok
  | .stripeMemberReceive _ _ _ _ data => unitOk data
  | .mirrorReceive _ j => j.ok
  | .buddyCopyReceive _ _ data => unitOk data
  | .mirrorFetch _ lo hi => decide (lo ≤ hi)
  | .mirrorFetchEnd _ recs => recs.all JRec.ok
  | .jobForward _ _ _ desc => decide (desc.length = 16)
  | .nmcRsInstall _ _ data => decide (data ≠ some [])
  | .apertureGo _ _ r => r.ok
  | .hdmDecoderCommit _ _ d => decide (1 ≤ d.ways)
  | .hostLinkUp _ _ st => decide (st.width.toNat ≤ 16)
  | .linkTrained _ t => t.ok
  | .ident _ id _ => decide (id.lanes.toNat ≤ 31 ∧ id.rack.toNat < 2048)
  | .fecEvaluate _ m => decide (m.failed ≤ m.flits ∧ m.bitErrors ≤ m.bits)
  | .join _ peers _ => decide (peers.length ≤ 24)
  | .joinAns _ _ _ cell _ => decide (cell.length ≤ 16)
  | .offer _ _ c => c.lines.all fun l => decide (l.1 < 2 ^ 41)
  | .registerWrite _ _ size _ => decide (1 ≤ size.toNat ∧ size.toNat ≤ 8)
  | .controlMirrorReceive _ c => c.ok
  | .assign _ _ | .modify _ _ | .region _ _ _ _ | .revoke _ _ | .revokeDrainComplete | .revokeDrainBound
  | .restore _ _ | .extentRelease _ _ | .flashTrim _ | .copyNyBound _ _ _ | .counterAdvance _ _ _ _ | .counterAdvanceRetry _
  | .barrierComplete _ | .ownershipCommit _ | .responseDeadline _ | .answerArrival _ | .trackerTimeout _ _ | .bucketPay _
  | .bucketAdapt _ | .backgroundCleaning _ | .garbageCollection _ | .wearLevelling _ | .tierDecay | .pinHbmPrefetch _
  | .hbmUncorrectable _ | .segmentProgramStart _ | .segmentProgramComplete _ | .compostPass | .mirrorConfirm _ _ _ | .pairLate _
  | .mirrorResend _ | .mirrorReleaseSend _ | .mirrorRelease _ _ | .buddyCopyTimeout _ | .keyRecordReceive _ _ _ | .pwrfailFall
  | .pwrfailConfirm | .flushComplete | .groupProgramComplete | .tentativeVoid _ | .mirrorFetchTimeout _ | .jrnLossQuery _ _
  | .rdS _ | .rdE _ | .upg _ | .wbD _ | .evictC _ | .rspI _
  | .rspS _ | .rspE _ | .rspID _ | .rspSD _ | .rspED _ | .fenceAck _
  | .resetAck _ | .snpInv _ _ _ | .snpData _ _ _ | .snpCur _ _ _ | .gntS _ _ _ _ | .gntE _ _ _ _
  | .gntEND _ _ _ | .cmpWb _ _ _ _ | .nack _ _ _ _ _ | .stakeWindowClose _ | .reservationExpire _ | .snoopTimeout _ _
  | .lostAgentSweepEnd _ | .modeFenceTimeout | .placeholderExpire _ _ | .resumeWindowEnd | .rebuildTimeout | .dirEntryRepair _
  | .nmcSqDb _ _ _ | .jobDispatch _ | .run _ _ | .resume _ _ | .suspend _ | .suspendBodyWritten _ _
  | .cancel _ | .contextSwitch _ _ | .tileVisible _ _ _ | .tileConsumed _ _ _ | .jobRestart _ _ _ | .jobNoProgress _ _
  | .jobTimeLimit _ _ | .jobCommitComplete _ _ | .cqRecordWrite _ | .nmcRsRetire _ _ | .rsRetireBound | .graft _ _
  | .dibberInstruction _ _ _ | .nmcCmdPush _ _ _ _ | .nmcCommit _ _ _ _ | .nmcFewer _ _ _ _ | .nmcArithStatus _ _ _ _ | .nmcTileTake _ _ _ _
  | .nmcTileFree _ _ _ _ | .nmcTileAlloc _ _ _ _ | .nmcTileEmit _ _ _ _ | .read _ _ | .readRows _ _ | .stage _ _
  | .zero _ _ | .mma _ _ | .emit _ _ | .tillerLoad _ _ | .dtab _ _ | .lutmv _ _
  | .add _ _ | .sub _ _ | .mul _ _ | .fma _ _ | .min _ _ | .max _ _
  | .abs _ _ | .neg _ _ | .cmp _ _ | .sel _ _ | .exp _ _ | .exp2 _ _
  | .log _ _ | .log2 _ _ | .rsqrt _ _ | .recip _ _ | .sqrt _ _ | .div _ _
  | .tanh _ _ | .rowSum _ _ | .rowMax _ _ | .softmax _ _ | .topk _ _ | .cvt _ _
  | .iadd _ _ | .isub _ _ | .imul _ _ | .logic _ _ | .shift _ _ | .isat _ _
  | .loadcb _ _ | .decode _ _ | .encode _ _ | .lookup _ _ | .lutacc _ _ | .adc _ _
  | .filter _ _ | .portGlean _ _ | .portSow _ _ | .portPrune _ _ | .gather _ | .bag _
  | .sowAdd _ | .harvest _ | .tableCreate _ _ | .tableReplace _ _ | .tableDelete _ _ | .groupSet _ _
  | .groupClear _ _ | .cuttingRequest _ _ _ | .cutDrop _ _ _ | .cuttingLeaseEnd _ _ _ | .shardLoadInterval | .indexCreate _ _
  | .indexDestroy _ _ | .pin _ _ | .unpin _ _ | .search _ | .scan _ | .insert _
  | .delete _ | .entry _ | .indexCommitWaitBound _ _ | .indexRestamp _ _ | .bind _ _ | .unbind _ _
  | .xltFaultResp _ _ | .faultTimeout _ | .invRange _ | .invAsid _ | .invComplete _ | .invDrainBound _
  | .hostReadTimeout _ _ | .rdcurrAnswer _ _ _ _ | .hotPageDecay | .memrd _ _ _ _ | .memwr _ _ _ _ _ _ | .memwrptl _ _ _ _ _ _
  | .meminv _ _ _ | .birsp _ _ _ _ _ | .h2dSnoop _ _ | .apertureRead _ _ _ | .holdReissue _ _ | .holdMaxExpire _ _
  | .hostLinkDown _ _ | .functionLevelReset _ | .recallBound | .linkEnable _ | .lcrd _ _ _ _ _ | .flitReceive _ _
  | .replay _ _ | .replayTimer _ | .modeChg _ _ _ | .spare _ _ _ | .laneLoss _ _ | .spareComplete _
  | .tsync _ _ _ _ _ | .tsyncSend | .tsyncTimeout | .pdown _ | .linkDown _ | .linkRetrain _
  | .linkReset _ _ | .messageRoute _ | .pathHoldExpire _ _ | .modulePresence _ _ | .moduleReady _ _ | .moduleInterrupt _ _
  | .opticsPoll _ _ _ | .ceStormEnd | .eventRecordWrite _ | .event _ | .fatalError _ _ _ | .compList _ _ _
  | .compContain _ _ _ | .compRelease _ _ _ | .containmentStart _ | .compPolicy _ _ _ | .compReleaseCmd _ _ | .watchdogExpire
  | .pulseSend | .pulse _ _ _ | .pulseSilence _ | .suspect _ _ _ | .clear _ _ _ | .suspectHoldEnd _
  | .isolation | .fence _ _ | .unfence _ | .joinRetry | .adoptReq _ | .adoptAns _ _
  | .controlStateReceived _ | .adopt _ _ | .adoptRetry _ | .returnWaitExpire _ | .memberFind _ _ | .memberLoc _ _ _ _
  | .stripeRebuild _ | .received _ _ | .reclaim _ _ | .handoffExpiry _ | .ledgerQueryDue _ _ | .ledgerQuery _ _
  | .ledgerState _ _ | .drillSchedule _ | .drill _ _ _ | .drillStart | .drillEnd _ | .marginSample _ _ _ _
  | .fltFenceCmd _ _ | .coldReset | .resetNFall _ | .resetNRise | .warmResetFabric _ _ | .warmResetBegin _
  | .thermalTrip _ | .bringUpStep _ | .supplyOutOfLimits _ | .blockReset _ _ _ | .norRead _ | .norProgram _
  | .norErase _ | .cfgBootClear _ | .cfgSvnCommit _ | .cfgKeyRevoke _ _ | .voltagePolicy _ | .avsReadback _
  | .sensorSample _ _ _ | .dormantEntry | .fallowEnter _ | .fallowLeave _ | .smbusStart _ _ | .mctpRequest _ _ _
  | .pwrfailProbe _ | .driverOvercurrent _ _ | .refclkLoss _ | .queueBaseWrite _ _ _ | .queueHeadWrite _ _ _ | .modeForceTabled _
  | .modeForceRetry _ | .telSnap _ _ | .trlUnlockCmd _ _ | .unlockExpire | .trlLock _ _ | .trlSeal _ _
  | .trlSel _ _ _ | .injectPoison _ | .injectSramCe _ | .injectTileStore _ | .injectSnoopWithhold _ | .injectFlashRead _
  | .trlAccess _ _ _ | .extest _ | .pwrfailRise | .perstNChange _ _ _ | .moduleRemoval _ | .moduleReadyTimeout _
  | .refclkReturn _ | .quiesceBound | .forwardStale _ | .nyHintRetry _ | .rcRead _ _ | .controlMirrorConfirm _ _
  | .keyDestroy _ _ | .cutDropConfirm _ _ _ | .shardLoadTotals _ _ _ | .stripeMemberRead _ _ _ _ | .codebookFillComplete _ | .fosterInstallDone _ _
  | .norCommandComplete | .snapshotComplete => true

end Sys2Proof
end

