-- ==== Sys2Proof/Tests/Slice0.lean ====
section
/-! SUPPORT. Tests: an ill-formed command for each check of WellFormed, and witnesses of the statements' hypotheses: each theorem
`witness_<Name>` shows, clause by clause, states and operands that meet all hypotheses of `Obligations.<Name>`. -/

namespace Sys2Proof.Tests

open Sys2Proof Sys2Proof.Machine

set_option Elab.async false

/-- A device in service. -/
def svc : State := { sys := { phase := .service, closed := false } }

/-- A device in service with a register set. -/
def reg (off : Nat) (v : Word) (s : State := svc) : State := regSet off v s

/-- Every right for every IID. -/
def anyone : List Range := [{ valid := true, rd := true, wr := true, atom := true, own := true, hi := 0xFFFF }]

/-- A member of the fleet in service that serves extent 0. -/
def store : State := { svc with
  flt := { state := .member }
  ext := { limit := 4, table := [(0, { state := .assigned, ranges := anyone })] } }

/-- Extent 0 is served and coherent, and the agent with IID 5 holds slot 2. -/
def agents : State := reg (Off.agent 2) 0x8000000000000005 { store with
  ext := { store.ext with regions := (List.range 1).map fun i => (i, { head := true, coherent := true }) } }


theorem witness_StepRunsFrontCommand : ∃ (c : Instr) (rest : List Instr) (s : State), s.pending = c :: rest :=
  ⟨.coldReset, [.tierDecay], { pending := [.coldReset, .tierDecay] }, rfl⟩

theorem witness_IdleStepPassesTime : (∃ s : State, s.pending = []) ∧ (∃ s : State, s.fab.slew = 0) := ⟨⟨{}, rfl⟩, ⟨{}, rfl⟩⟩

theorem witness_FusesOnlyBurn : ∃ s t : State, step s = .next t ∧ s.cfg.fuses.revoked.getLsbD 1 = true :=
  ⟨{ svc with pending := [.cfgSvnCommit .jtag], cfg := { fuses := { revoked := 2 } } }, _, rfl, by decide⟩

theorem witness_HbmStaysCanonical : ∃ s t : State, step s = .next t ∧ Memory.wf s.tier.hbm = true :=
  ⟨{ svc with pending := [.tierDecay], tier := { hbm := [(4, 7), (5, 9)] } }, _, rfl, by decide⟩

theorem witness_TimeNeverMovesBack : ∃ s t : State, step s = .next t ∧ s.pending = [.tierDecay] ∧
    (∀ c rest, s.pending = c :: rest → c ≠ .coldReset ∧ c ≠ .flushComplete ∧ c ≠ .pwrfailRise ∧ (∀ a b d, c ≠ .sensorSample a b d) ∧
      (∀ r, c ≠ .supplyOutOfLimits r)) := by
  refine ⟨{ svc with pending := [.tierDecay] }, _, rfl, rfl, ?_⟩
  intro c rest e
  cases e
  simp

theorem witness_StoreLineWritesLine :
    Memory.wf State.reset.tier.hbm = true ∧ (List.replicate 128 (7 : Byte)).length = 128 ∧ policyOf State.reset (5 / 128) ≠ .flashOnly :=
  ⟨by decide, by simp, by decide⟩

theorem witness_TierCompletions :
    (tagOf { tier := { tags := [(3, { state := .filling })] } } 3).state = .filling ∧
    (tagOf { tier := { tags := [(3, { state := .present, merging := true })] } } 3).merging = true ∧
    (∃ (s : State) (w : WriteBack), s.tier.wbs.find? (·.mu == 5) = some w ∧ w.homeDone = false ∧ w.buddy = none) ∧
    2 ≤ cleanWays { tier := { tags := [] } } 0 ∧
    (∃ s : State, s.tier.prefetch.contains (extOfFrame 7) = true ∧ policyOf s 7 ≠ .pinHbm) ∧
    (let s : State := { tier := { tags := [(0, { state := .present, valid := 4, dirty := 4 })] } }
     (tagOf s (2 / 128)).valid.getLsbD (2 % 128) = true ∧ lineDirty s 2 = true) :=
  ⟨by decide, by decide, ⟨{ tier := { wbs := [{ mu := 5 }] } }, { mu := 5 }, by decide⟩, by decide,
    ⟨{ tier := { prefetch := [0] } }, by decide⟩, by decide⟩

theorem witness_FlashUpkeep : ∃ s : State, (mapOf s 5).mapped = true ∧ 65536 / 65536 ≠ (0 : BitVec 10).toNat :=
  ⟨{ flash := { map := [(5, { mapped := true })] } }, by decide⟩

theorem witness_ReserveTakesUnits :
    (∃ s : State, s.flash.held.length < reserveUnits s) ∧
    (∃ s : State, reserveUnits s ≤ ((s.flash.held.filter fun x => !(x.home == 1 && !x.isCopy && x.stripe == 0 && x.member == 0)).filter
      fun x => x.home != servedFdn s).length) ∧
    (∃ s : State, reserveUnits s ≤ ((s.flash.held.filter fun x => !(x.home == 1 && x.isCopy && x.mu == 0)).filter
      fun x => x.home != servedFdn s).length) :=
  ⟨⟨{ flash := { dies := 1024, dieGiB := 512 } }, by decide⟩, ⟨{}, by decide⟩, ⟨{}, by decide⟩⟩

theorem witness_JournalMessages :
    (∃ (s : State) (g : Seg), s.jrn.segs.find? (·.id == 3) = some g ∧ drainStopped s = false ∧ g.state ≠ .programming) ∧
    (∃ s : State, Tab.get 0 s.jrn.released (7 : BitVec 16).toNat < s.jrn.foldedTo) ∧ (∃ key : Nat, 0 < key) :=
  ⟨⟨{ jrn := { segs := [{ id := 3 }] }, flash := { layout := some (64, 1, 1) } }, { id := 3 }, by decide⟩, ⟨{ jrn := { foldedTo := 1 } }, by decide⟩, ⟨1, by decide⟩⟩

/-- A mirrored record as its home sent it. -/
def sentRec : JRec := sealRec { jsn := 9, body := .pad }

theorem witness_JournalCompletions :
    (∃ s : State, (s.jrn.segs.any fun g => g.id == 3 && g.state == .programming) = true) ∧
    (∃ s : State, s.jrn.groupRun = true ∧ (programRecs (·.inGroup) s).jrn.ring.filter (fun x => x.rc.tentative && x.programmed) = []) ∧
    (∃ s : State, s.jrn.live = [] ∧ s.jrn.groupRun = true) ∧
    ((∀ n, sentRec.body ≠ .other n) ∧ recSound sentRec = true ∧ ∃ s : State, s.sys.phase ≠ .powerFail ∧ s.sys.phase ≠ .flushed ∧
      isFenced s 5 = false ∧ s.jrn.mirrors.any (fun m => m.home == 5 && m.rc.jsn == sentRec.jsn) = true) ∧
    (∃ s : State, s.sys.phase ≠ .powerFail ∧ s.sys.phase ≠ .flushed ∧ isFenced s 5 = false ∧
      s.jrn.mirrors.any (fun m => m.home == 5 && m.rc.jsn == sentRec.jsn) = false ∧
      slotOk s (if isControl sentRec then .control else .mirrored) = true) ∧
    (∃ s : State, (s.jrn.unconf.find? fun u => u.jsn == 9 && u.buddy == 5) = none) ∧
    (∃ (s : State) (u : Unconf), (s.jrn.unconf.find? fun u => u.jsn == 9 && u.buddy == 5) = some u ∧ u.late = false) ∧
    (∃ s : State, (s.jrn.fetches.filter (·.buddy == 5)).isEmpty = false ∧ isFenced s 5 = false ∧ s.sys.phase = .service) ∧
    (∃ (s : State) (p : PReq), s.home.waiting.find? (·.why == .buddy 9) = some p) ∧
    (∃ (s : State) (u : Unconf) (m : BitVec 16 × JRec), s.jrn.unconf.find? (·.jsn == 9) = some u ∧ isFenced s u.buddy = false ∧
      (s.jrn.mirrored.find? fun m => m.1 == u.buddy && m.2.jsn == 9) = some m) ∧
    (∃ (s : State) (t : Track), s.home.tracker.find? (·.origin == .unit 5) = some t ∧ (extDesc s (5 / 16384)).redundancy ≠ .paired) ∧
    (∃ (s : State) (x : Slot), (s.jrn.ring.find? fun x => x.rc.jsn == 9 && x.rc.tentative && x.home == ownFdn s) = some x ∧
      x.programmed = true ∧ x.adopted = none ∧ mirrorTo s (extOf (addr s x.rc.gsa)) = none) :=
  ⟨⟨{ jrn := { segs := [{ id := 3, state := .programming }] } }, by decide⟩, ⟨{ jrn := { groupRun := true } }, by decide⟩,
    ⟨{ jrn := { groupRun := true } }, by decide⟩,
    ⟨fun n h => JBody.noConfusion h, by decide +kernel,
      { svc with jrn := { mirrors := [{ home := 5, rc := { jsn := 9 } }] } }, by decide, by decide, by decide, by decide +kernel⟩,
    ⟨{ svc with jrn := { ringSize := 1048576 } }, by decide, by decide, by decide, by decide +kernel, by decide +kernel⟩, ⟨svc, by decide⟩,
    ⟨{ svc with jrn := { unconf := [{ jsn := 9, buddy := 5 }] } }, { jsn := 9, buddy := 5 }, by decide⟩,
    ⟨{ svc with jrn := { fetches := [{ buddy := 5 }] } }, by decide⟩,
    ⟨{ home := { waiting := [{ why := .buddy 9 }] } }, { why := .buddy 9 }, by decide⟩,
    ⟨{ jrn := { unconf := [{ jsn := 9, buddy := 5 }], mirrored := [(5, { jsn := 9 })] } }, { jsn := 9, buddy := 5 }, (5, { jsn := 9 }), by decide⟩,
    ⟨{ home := { tracker := [{ origin := .unit 5 }] } }, { origin := .unit 5 }, by decide⟩,
    ⟨{ jrn := { ring := [{ rc := { jsn := 9, tentative := true }, programmed := true }] } },
      { rc := { jsn := 9, tentative := true }, programmed := true }, by decide⟩⟩

theorem witness_HoldUp :
    svc.sys.pwrfail ≠ .low ∧
    (∃ s : State, s.sys.fallAt = some 5 ∧ s.sys.phase = .service) ∧ (∃ s : State, s.sys.fallAt = some 5 ∧ s.sys.phase = .heldFail) ∧
    (∃ s : State, s.sys.pwrfail ≠ .high ∧ s.sys.fallAt = none) ∧ (∃ s : State, s.sys.phase = .powerFail) ∧
    (svc.sys.pwrfail = .high ∧ (svc.sys.phase = .bringUp → 2 ≤ svc.sys.step) ∧ svc.sys.probeLow < 2) ∧
    (∃ (s : State) (p : PReq), (s.home.waiting.filter fun p => match p.why with | .bucket c _ => c == (3 : Fin 256).val | _ => false) = p :: [] ∧
      p.why = .bucket 3 8) :=
  ⟨by decide, ⟨{ sys := { phase := .service, fallAt := some 5 } }, by decide⟩, ⟨{ sys := { phase := .heldFail, fallAt := some 5 } }, by decide⟩,
    ⟨{ sys := { pwrfail := .low } }, by decide⟩, ⟨{ sys := { phase := .powerFail } }, by decide⟩, by decide,
    ⟨{ home := { waiting := [{ why := .bucket 3 8 }] } }, { why := .bucket 3 8 }, by decide⟩⟩

theorem witness_RequestsEnterTheirSlice :
    (store.home.deadSlices.any fun d => d.val == sliceOf (addr store (128 : Word))) = false ∧ admitting store = true ∧
    bktEnabled store (bucketOf store 1) = false ∧
    ingressFull store { n := 0, a := addr store 128, kind := .load, r := { gsa := 128, iid := 1 }, arrived := 0, deadline := deadlineNs store } =
      false := by decide

/-- Extent 0's codebook stands in HBM with its check value. -/
def codebooked : State := { store with
  tier := { tags := [(0, { state := .present, valid := BitVec.allOnes 128 })], hbm := [(0, 144), (1, 177), (2, 114), (3, 184)] }
  cdc := { filling := [0] } }

theorem codebooked_lines : (needLines ((List.range 34).map (0 * 2 ^ 23 + ·)) codebooked).1 = none := by decide +kernel

set_option maxRecDepth 100000 in
theorem codebooked_crc :
    crc32c (codebookOf ((needLines ((List.range 34).map (0 * 2 ^ 23 + ·)) codebooked).2.modCdc fun c => { c with filling := c.filling.filter (· != 0) }) 0
      (formP codebooked 0)) = (storedLine ((needLines ((List.range 34).map (0 * 2 ^ 23 + ·)) codebooked).2.modCdc fun c =>
        { c with filling := c.filling.filter (· != 0) }) (0 * 2 ^ 23)).extractLsb' 0 32 := by decide +kernel

theorem witness_CopyAgentCommands :
    (let r : Req := { plen := 32, gsa := 0x10000, arg := 0, payload := List.replicate 16 0 ++ [1, 0, 0, 0, 1, 0, 0, 0] ++ List.replicate 8 0 }
     admitting store = true ∧ copyMalformed r = false ∧ cpCounter r = 0 ∧ copiesQueued store < 4096) ∧
    (admitRegistration (cpCounter { payload := List.replicate 32 0 }) 1 store = none ∧ isBarrier { payload := List.replicate 32 0 } = false) ∧
    (∃ (s : State) (c : CopyRun) (l : CopyLine), s.home.copies.find? (·.id == 2) = some c ∧
      c.active.find? (fun l => l.line == 4 && l.side == .src) = some l ∧ (Status.poison ≠ .ok ∧ Status.poison ≠ .ny)) ∧
    (8 : Word) ≠ 0 ∧
    (∃ (a : Advance) (s : State), s.home.advances.find? (·.id == 2) = some a ∧ Nat.max (now s) a.retryAt < a.first + 100000000) ∧
    (let s := codebooked
     let p := formP s 0
     let ls := (List.range (32 + ceilDiv p.cbBytes 128)).map (0 * 2 ^ 23 + ·)
     s.cdc.filling.contains 0 = true ∧ (needLines ls s).1 = none ∧
     let v := (needLines ls s).2.modCdc fun c => { c with filling := c.filling.filter (· != 0) }
     ls.any (linePoison v) = false ∧ crc32c (codebookOf v 0 p) = (storedLine v (0 * 2 ^ 23)).extractLsb' 0 32) :=
  ⟨by decide, by decide,
    ⟨{ home := { copies := [{ id := 2, active := [{ line := 4 }] }] } }, { id := 2, active := [{ line := 4 }] }, { line := 4 }, by decide⟩,
    by decide, ⟨{ id := 2 }, { home := { advances := [{ id := 2 }] } }, by decide⟩,
    by decide +kernel, by decide +kernel, by decide +kernel, codebooked_crc⟩

theorem witness_RequestEnds :
    (let r : Req := { plen := 16, arg := 1, payload := List.replicate 16 0 }
     let p : PReq := { n := 0, a := addr store r.gsa, kind := .barrier, r := r, arrived := 0, deadline := deadlineNs store }
     let u := store.modHome fun h => { h with waiting := h.waiting ++ [p], nextReq := h.nextReq + 1 }
     admitting store = true ∧ barMalformed r = false ∧ bktEnabled store (bucketOf store r.iid) = false ∧ barRefuses u r = none ∧ barCounter r = 0) ∧
    (∃ (b : Barrier) (s : State), s.jrn.barriers.find? (·.id == 2) = some b ∧ b.jsn = none ∧
      let u := barJournal 2 b.iid b.todo s
      u.jrn.barriers.any (fun x => x.id == 2 && !x.todo.isEmpty) = true) ∧
    (∃ (b : Barrier) (s : State), s.jrn.barriers.find? (·.id == 2) = some b ∧ b.jsn = none ∧
      let u := barJournal 2 b.iid b.todo s
      u.jrn.barriers.any (fun x => x.id == 2 && !x.todo.isEmpty) = false ∧
      (journal { iid := b.iid, body := .barrier 2 ((Config.freeWord u.free).setWidth 32) } u.draw).jrn.distrusted = false) ∧
    (svc.own.any fun o => o.key == 3 && !o.buddy) = false ∧
    (∃ s : State, (s.own.any fun o => o.key == 3 && !o.buddy) = true) ∧
    (∃ (p : PReq) (s : State), findReq s 4 = some p) ∧
    (svc.home.tracker.find? fun t => t.iid == 1 && t.tag == 2) = none ∧
    (∃ (t : Track) (s : State), (s.home.tracker.find? fun t => t.iid == 1 && t.tag == 2) = some t) :=
  ⟨by decide, ⟨{ id := 2, todo := [(1, 0, false)] }, { jrn := { barriers := [{ id := 2, todo := [(1, 0, false)] }], distrusted := true } }, rfl, rfl, by decide +kernel⟩,
    ⟨{ id := 2 }, { jrn := { barriers := [{ id := 2 }] } }, rfl, rfl, by decide, rfl⟩, by decide,
    ⟨{ own := [{ key := 3 }] }, by decide⟩, ⟨{ n := 4 }, { home := { waiting := [{ n := 4 }] } }, by decide⟩, by decide,
    ⟨{ iid := 1, tag := 2 }, { home := { tracker := [{ iid := 1, tag := 2 }] } }, by decide⟩⟩

theorem witness_CoherenceMessages :
    (∀ op : CohOp, let m : CohMsg := { iid := 5 }
     deadAt agents (addr agents m.gsa) = false ∧ admitting agents = true ∧ slotOf agents m.iid = some 2 ∧ agentLost agents (2 : Fin 64) = false ∧
     marked agents (addr agents m.gsa) = false ∧ agents.coh.fence = none ∧ agents.coh.quiescing = none ∧ agents.coh.queue = [] ∧
     sliceQueued agents (sliceOf (addr agents m.gsa)) < 1024 ∧ cohAdmits agents op m = none) ∧
    (let m : CohMsg := { iid := 5 }
     let s : State := { agents with coh := { dir := [(0, { presence := 4, state := .e, owner := 2 })] } }
     deadAt s (addr s m.gsa) = false ∧ slotOf s m.iid = some 2 ∧ lostSender s (some 2) = false ∧
     (extDesc s (extOf (addr s m.gsa))).state ≠ .free ∧ holding s (lineOf (addr s m.gsa)) (some 2) = .owner ∧
     holding s (lineOf (addr s m.gsa)) (some 2) ≠ .n) ∧
    (let m : CohMsg := { iid := 5, tag := 7 }
     let s : State := { agents with coh := { txns := [{ snoops := [{ slot := 2, tag := 7 }] }] } }
     deadAt s (addr s m.gsa) = false ∧ slotOf s m.iid = some 2 ∧ agentLost s (2 : Fin 64) = false ∧ s.coh.withheld = [] ∧
     (s.coh.txns.find? fun t => t.line == lineOf (addr s m.gsa) && t.snoops.any fun o => o.slot == 2 && o.tag == m.tag && !o.injected) =
       some { snoops := [{ slot := 2, tag := 7 }] }) := by
  refine ⟨fun op => ?_, by decide, by decide⟩
  cases op <;> decide

theorem witness_CoherenceTimers :
    (let f : FenceRun := { awaiting := [2], sent := some 1, number := 3 }
     let m : CohMsg := { iid := 5, arg := 0x10003 }
     let s : State := { agents with coh := { fence := some f } }
     s.coh.fence = some f ∧ slotOf s m.iid = some 2 ∧ agentLost s (2 : Fin 64) = false ∧ f.sent.isSome = true ∧ f.awaiting = [2] ∧
       fld m.arg 15 0 = f.number.toNat ∧ bitOf m.arg 16 = f.tabled) ∧
    (let s : State := { agents with coh := { rebuild := [2] } }
     slotOf s 5 = some 2 ∧ agentLost s (2 : Fin 64) = false ∧ (2 : Fin 64) ∈ s.coh.rebuild) ∧
    (∃ s : State, s.coh.stakes.find? (·.1 == 9) = some (9, 4)) ∧ (∃ s : State, s.coh.resumeUntil = some 8) ∧ (∃ s : State, s.coh.rebuild = []) ∧
    (∃ (f : FenceRun) (s : State), s.coh.fence = some f ∧ f.sent = some 1) ∧
    (∀ b : Bool, let s : State := { svc with coh := { tabled := !b } }
      allowed s .jtag none [.f] = true ∧ s.coh.fence = none ∧ s.coh.tabled = !b ∧ (b = false → s.coh.sweeps = [])) ∧
    (let s : State := { svc with coh := { reserved := [(9, 2, 50)] } }
     busyLine s 9 = false ∧ s.coh.stakes.any (·.1 == 9) = false ∧ s.coh.reserved.find? (·.1 == 9) = some (9, 2, 50)) ∧
    (let o : SnoopOut := { slot := 2 }
     let s : State := { svc with coh := { txns := [{ line := 9, snoops := [o] }] } }
     s.coh.txns.find? (·.line == 9) = some { line := 9, snoops := [o] } ∧ [o].find? (·.slot == 2) = some o ∧ (dirGet s 9).state ≠ .e ∧ o.tries < 4) ∧
    (let q : QEnt := { line := 9, item := .placeholder 2 70 }
     let s : State := { svc with coh := { queue := [q] } }
     q.item = .placeholder 2 70 ∧
     (s.coh.queue.find? fun q => q.line == 9 && (match q.item with | .placeholder sl _ => sl == 2 | _ => false)) = some q) ∧
    (let s : State := { svc with coh := { sweeps := [2] } }
     s.coh.sweeps = [2] ∧ s.coh.dir = [] ∧ s.coh.sweepChanged = false ∧ s.coh.forceRetry = false) ∧
    svc.coh.recalls.contains { line := 9, who := .repair } = false :=
  ⟨by decide, by decide, ⟨{ coh := { stakes := [(9, 4)] } }, by decide⟩, ⟨{ coh := { resumeUntil := some 8 } }, by decide⟩, ⟨{}, by decide⟩,
    ⟨{ sent := some 1 }, { coh := { fence := some { sent := some 1 } } }, by decide⟩, by decide, by decide, by decide, by decide, by decide, by decide⟩

theorem witness_HostMessages :
    (∃ g inc, slotGsa (hostFlit 3 {} (reg (Off.slot 3 0 0) 0x8000000000000000)) (3 : Fin 64) (0x40 : BitVec 42).toNat = some (g, inc) ∧
      ({} : HostFlit).bad = false) ∧ (∃ fl : HostFlit, fl.bad = true) ∧
    CxlMeta.a ≠ CxlMeta.i ∧
    (entryAt svc 3 (9 : BitVec 57).toNat = none) ∧
    (∃ (e : LineEnt) (s : State), entryAt s 3 (9 : BitVec 57).toNat = some e ∧ e.writing = false ∧ e.open_ = 0 ∧ e.halves ≠ 0) ∧
    (∃ (q : HostReq) (s : State), cohOpen s 3 (0 : BitVec 57).toNat 7 = some q ∧ entryAt s 3 (0 : BitVec 57).toNat = none ∧ q.op = .cohS) ∧
    (∃ (q : HostReq) (s : State), cohOpen s 3 (0 : BitVec 57).toNat 7 = some q ∧ entryAt s 3 (0 : BitVec 57).toNat = none ∧ q.op ≠ .cohS) ∧
    (∃ (q : HostReq) (e : LineEnt) (s : State), cohOpen s 3 (0 : BitVec 57).toNat 7 = some q ∧ entryAt s 3 (0 : BitVec 57).toNat = some e ∧
      q.op ≠ .cohS ∧ e.excl = false) ∧
    (∃ (e : LineEnt) (s : State), entryAt s 3 (9 : BitVec 57).toNat = some e ∧ e.writing = true) ∧
    (∃ (e : LineEnt) (s : State), entryAt s 3 (9 : BitVec 57).toNat = some e ∧ e.open_ &&& halfBit true ≠ 0 ∧ e.open_ &&& ~~~(halfBit true) = 0) :=
  ⟨⟨_, _, rfl, rfl⟩, ⟨{ bad := true }, rfl⟩, by decide, by decide,
    ⟨{ win := 3, line := 9, halves := 1 }, { hp := { lines := [{ win := 3, line := 9, halves := 1 }] } }, rfl, rfl, rfl, by decide⟩,
    ⟨{ win := 3, op := .cohS, sent := some 7 }, { hp := { reqs := [{ win := 3, op := .cohS, sent := some 7 }] } }, by decide⟩,
    ⟨{ win := 3, op := .cohA, sent := some 7 }, { hp := { reqs := [{ win := 3, op := .cohA, sent := some 7 }] } }, by decide⟩,
    ⟨{ win := 3, op := .cohA, sent := some 7 }, { win := 3 },
      { hp := { reqs := [{ win := 3, op := .cohA, sent := some 7 }], lines := [{ win := 3 }] } }, rfl, rfl, by decide, rfl⟩,
    ⟨{ win := 3, line := 9, writing := true }, { hp := { lines := [{ win := 3, line := 9, writing := true }] } }, rfl, rfl⟩,
    ⟨{ win := 3, line := 9, open_ := 2 }, { hp := { lines := [{ win := 3, line := 9, open_ := 2 }] } }, rfl, by decide, by decide⟩⟩

theorem witness_HostPortCommands :
    ((∀ x, aperAt svc 3 4 = some x → x.pending = false) ∧ portFull svc (portOf 3) = false) ∧
    (∃ (x : Aper) (a : Answer) (s : State), aperAt s 3 4 = some x ∧ x.answer = some a ∧ x.pending = false) ∧
    (∃ (q : HostReq) (s : State), hostReq s 3 7 = some q ∧ q.retryAt = some 90) ∧
    (let d : HdmSet := { base := 0x10000000, size := 0x10000000 }
     unit256 d.base = true ∧ unit256 d.size = true ∧ unit256 d.skip = true ∧ d.ways ∈ [1, 2, 4, 8, 16] ∧ 8 ≤ d.gran ∧ d.gran ≤ 14 ∧
     hdmStart svc (3 : Fin 64).val (0 : Fin 4).val + d.skip.toNat + d.size.toNat / d.ways ≤ 2 ^ 42) ∧
    (∃ s : State, hostMayTrain s (1 : Fin 4).val (0 : Fin 4).val = true) ∧
    (∃ s : State, (hostLink s (1 : Fin 4).val (0 : Fin 4).val).up = true) ∧
    (Tab.wf {} svc.hp.links = true ∧ (hostLink svc (1 : Fin 4).val (0 : Fin 4).val).up = false) := by
  refine ⟨by decide, ⟨{ answer := some {} }, {}, { hp := { aper := [(aperKey 3 4, { answer := some {} })] } }, by decide⟩,
    ⟨{ win := 3, tag := 7, retryAt := some 90 }, { hp := { reqs := [{ win := 3, tag := 7, retryAt := some 90 }] } }, by decide⟩, by decide,
    ⟨{ svc with hp := { links := [(4, { perst := true })] } }, by decide⟩, ⟨{ hp := { links := [(4, { up := true })] } }, by decide⟩, by decide⟩

/-- `agents` without the agent: extent 0's first frame is in HBM with all lines valid. -/
def held : State := { store with tier := { tags := [(0, { state := .present, valid := BitVec.allOnes 128 })] } }

/-- A job in context 0 of core 0. -/
def jobbed (j : Job) (s : State := store) : State := { s with nmc := { jobs := [(0, j)], owner := [(0, 0)] } }

theorem witness_CommandRegistersRefuse :
    (∀ off, allowed svc .jtag none [.a] = false ∧ allowed svc (.bar0 3) none [.f, .m] = false ∧
      allowed { svc with sys := { phase := .service, closed := false } } (.bar0 0) none [.f] = false ∧ doneGet svc off = {}) ∧
    allowed svc .mctp none asidCls = false ∧ allowed svc .jtag none [.a, .f] = true ∧ allowed svc .jtag none [.f, .m] = true ∧ allowed svc .jtag none [.f] = true ∧
    (∃ s : State, allowed s .jtag none [.f, .m] = true ∧ (doneGet s extDone).busy = true) :=
  ⟨fun _ => ⟨by decide, by decide, by decide, rfl⟩, by decide, by decide, by decide, by decide,
    ⟨{ svc with regs := { done := [(extDone, { busy := true })] } }, by decide⟩⟩

/-- `store` with the words of a descriptor staged by JTAG. -/
def stagedDesc (d : ExtDesc) : State :=
  ((descWords d).zipIdx).foldl (fun s x => stageSet (stageOf store .jtag) (Off.xlt + 8 * x.2) x.1 s) store

theorem witness_ExtentCommandsRun :
    (Ready store .jtag none [.f, .m] extDone ∧
     (∃ d, (1 : BitVec 18).toNat < store.ext.limit ∧ (extDesc store 1).state = .free ∧ descOfWords (extStage store .jtag) = some d ∧
       descOk store d = true ∧ deadlineDenies store d = false)) ∧
    (∃ s : State, Ready s .jtag none [.f, .m] extDone ∧ ∃ d, (extDesc s 0).state = .assigned ∧ descOfWords (extStage s .jtag) = some d ∧
       sameFixed (extDesc s 0) (extStage s .jtag) = true ∧ descOk s d = true) ∧
    (∃ s : State, Ready s .jtag none [.f, .m] extDone ∧ (extDesc s 0).state = .revoked) ∧
    (∃ s : State, Ready s .jtag none [.f, .m] extDone ∧
       let w := wordAt (extStage s .jtag) 0
       let hs := splitRegions (headsOf s 0) (511 : BitVec 9).toNat (1 : BitVec 10).toNat false .none
       (extDesc s 0).state = .assigned ∧ (rightsOf (extDesc s 0) (writerIid s .jtag)).own = true ∧ fld w 30 29 = 0 ∧ fld w 28 27 = 0 ∧
       entryLayoutOk w = true ∧ 1 ≤ (1 : BitVec 10).toNat ∧ (1 : BitVec 10).toNat ≤ 512 ∧ (511 : BitVec 9).toNat + (1 : BitVec 10).toNat ≤ 512 ∧
       (∀ h ∈ headsOf s 0, h.1 < (511 : BitVec 9).toNat + (1 : BitVec 10).toNat → (511 : BitVec 9).toNat < h.1 + h.2.length →
         h.2.coherent = true → regionHeld s (512 * 0 + h.1) (512 * 0 + h.1 + h.2.length) = false) ∧
       s.coh.granules.length - (cohGranules s 0).length + (hs.map fun h => if h.2.coherent then h.2.length else 0).sum ≤ 32768) ∧
    (∃ (r : ExtRun) (s : State), s.ext.run = some r ∧ r.draining = true) :=
  ⟨⟨⟨by decide, by decide⟩, _, by decide, by decide, rfl, by decide, by decide⟩,
    ⟨stagedDesc (extDesc store 0), ⟨by decide, by decide⟩, _, by decide, rfl, by decide, by decide⟩,
    ⟨{ store with ext := { table := [(0, { state := .revoked })] } }, ⟨by decide, by decide⟩, by decide⟩,
    ⟨store, ⟨by decide, by decide⟩, by decide +kernel⟩,
    ⟨{ draining := true }, { ext := { run := some { draining := true } } }, by decide⟩⟩

/-- Pair `p` is claimed through window 3 with rings of 16 entries, and its submission queue holds one descriptor of kind `k` at extent 0's
first line. -/
def queued (p k : Nat) : State :=
  { reg (Off.pair p) 0x8300000000000000 (reg (Off.pair p + 8) 0x8300000000000000 (reg (Off.pair p + 0x10) 16 held)) with
    tier := { held.tier with hbm := [(7, BitVec.ofNat 8 k)] }, nmc := { sqTail := [(p, 1)], pairIid := [(p, 0)] } }

/-- What the device's read of the first descriptor of `s`'s pair `p` answers. -/
def sqRead (unit p : Nat) (s : State) : Option (Status × List Byte) × State :=
  ownAsk (unit + p) .load (lineRead s (pairIid s p) (qOff (sqBase s p) + 128 * 0)) s

/-- A job forwarded by device 9. -/
def forwarded : FwdJob := { origin := some 9, pair := 0, desc := [0] }

theorem witness_JobQueues :
    (let s := queued 255 4
     allowed s (.bar0 3) (qOwner (sqBase s 255)) [.w] = true ∧ fld (15 : Word) 15 0 < sqSize s 255 ∧
     ringDist (sqSize s 255) (sqHead s 255) (sqTail s 255) ≤ ringDist (sqSize s 255) (sqHead s 255) (fld (15 : Word) 15 0)) ∧
    (∃ (q : FwdJob) (d : List Word) (s : State), let a := skipHead 0 65536 s
     admitting a = true ∧ turnOf a 0 = true ∧
     ((pairHeads a 0).find? fun h => (headPrio a 0 h).isSome && headPrio a 0 h == headReady a 0) = some (some q, d) ∧
     (dispatchReq q (wakeCores (a.modNmc fun n => { n with lastPair := 0, lastOrigin := q.origin }))).1 = true) ∧
    (∃ (d : List Word) (bs : List Byte) (s : State), let a := skipHead 7 65536 s
     admitting a = true ∧ turnOf a 7 = true ∧
     ((pairHeads a 7).find? fun h => (headPrio a 7 h).isSome && headPrio a 7 h == headReady a 7) = some (none, d) ∧
     let w := wakeCores (a.modNmc fun n => { n with lastPair := 7, lastOrigin := none })
     (sqEntries w 7).head? = some 0 ∧ (sqRead 0x1000 7 w).1 = some (.ok, bs) ∧
     (dispatchReq { pair := 7, iid := pairIid (sqRead 0x1000 7 w).2 7, desc := wordsOfBytes 16 bs } (sqRead 0x1000 7 w).2).1 = true) ∧
    (∃ (bs : List Byte), let a := skipHead 7 65536 (queued 7 4)
     let u := (sqRead 0x1200 7 a).2
     let q : FwdJob := { pair := 7, iid := pairIid u 7, desc := wordsOfBytes 16 bs }
     ((sqEntries a 7).filter fun i => !skipped a 7 i).find? (fun i => dKind (sqPeek a 7 i) == 4) = some 0 ∧
     (sqRead 0x1200 7 a).1 = some (.ok, bs) ∧ descBad q.desc = false ∧ targetRoute u q = .inr none) ∧
    (∃ (bs : List Byte), let a := skipHead 7 65536 (retrySuspend 7 (queued 7 3))
     let u := (sqRead 0x1100 7 a).2
     let q : FwdJob := { pair := 7, iid := pairIid u 7, desc := wordsOfBytes 16 bs }
     ((sqEntries a 7).filter fun i => !skipped a 7 i).find? (fun i => dKind (sqPeek a 7 i) == 3) = some 0 ∧
     (sqRead 0x1100 7 a).1 = some (.ok, bs) ∧ descBad q.desc = false ∧ targetRoute u q = .inr none ∧ (actSuspend q u).1 = true) ∧
    (∃ (r : CqRec) (s : State) (f : BitVec 16), s.nmc.cq.find? (fun r => r.pair == 3 && !r.sent) = some r ∧ r.dest = some f) ∧
    (∃ (r : CqRec), let s : State := { queued 3 1 with nmc := { (queued 3 1).nmc with cq := [r] } }
     s.nmc.cq.find? (fun r => r.pair == 3 && !r.sent) = some r ∧ r.dest = none ∧ r.exec = none ∧ qValid (cqBase s 3) = true ∧
     ringFull (sqSize s 3) (cqHead s 3) (cqTail s 3) = false ∧
     ((ownAsk (0x2000 + 3) .storePart (wordsWrite s (pairIid s 3) (qOff (cqBase s 3) + 32 * cqTail s 3) r.words) s).1.map (·.1)) = some .ok) ∧
    (∃ (r : CqRec) (s : State),
      (s.nmc.cq.find? fun r => r.pair == 3 && r.sent && r.dest == some 9 && recTag r.words == (0 : BitVec 16).toNat) = some r) ∧
    (let d (k : Nat) : List Word := [put 56 k, 0, 0, 0, 0]
     (∀ k ∈ [2, 3, 4], descBad (d k) = false ∧ dKind (d k) = k) ∧
     ∃ d s, descBad d = false ∧ dKind d = 1 ∧ startStatus s 0 d = none) := by
  refine ⟨by decide, ⟨forwarded, [0], { store with nmc := { fwdIn := [forwarded] } }, by decide, by decide +kernel, by decide +kernel,
      by decide +kernel⟩,
    ⟨sqPeek (queued 7 0) 7 0, _, queued 7 0, by decide, by decide +kernel, by decide +kernel, by decide +kernel, rfl, by decide +kernel⟩,
    ⟨_, by decide +kernel, rfl, by decide +kernel, by decide +kernel⟩,
    ⟨_, by decide +kernel, rfl, by decide +kernel, by decide +kernel, by decide +kernel⟩,
    ⟨{ pair := 3, dest := some 9 }, { nmc := { cq := [{ pair := 3, dest := some 9 }] } }, 9, by decide⟩,
    ⟨{ pair := 3, words := [1, 2, 3, 4] }, by decide, rfl, rfl, by decide, by decide, by decide +kernel⟩,
    ⟨{ pair := 3, dest := some 9, sent := true }, { nmc := { cq := [{ pair := 3, dest := some 9, sent := true }] } }, by decide⟩, by decide,
    ⟨[put 56 1, 0, 0, 1, 0], { store with nmc := { rs := [{}] }, xlt := { asids := [(0, { valid := true })] } }, by decide⟩⟩
/-- A loading job whose graph, in the resident window of a runtime image, is empty. -/
def graphed : State :=
  { store with nmc := { jobs := [(0, { desc := [0, 0, 0xFF0000000000] })], rs := [{ length := 2 ^ 20 }], rsMem := [(6, 1)] } }

/-- `held` with a durable extent 0 and a journal ring. -/
def durable : State := { held with
  ext := { held.ext with table := [(0, { state := .assigned, durability := .durable, ranges := anyone })] }
  jrn := { held.jrn with ringSize := 4096 } }

/-- What the reads of `graphed` answer. -/
def graphHead : Got2 × State := viewBytes 0 0 1 0xFF0000000000 576 graphed

/-- The bytes of the empty graph. -/
def graphBytes : List Byte := rsBytes graphed 0 0 576

/-- The commands of the empty graph. -/
def graphTail : Got2 × State := viewBytes 0 0 1 0xFF0000000240 0 graphHead.2

/-- The body that the empty graph gives. -/
def graphOf : Body := { dib := { x := List.replicate 32 0 } }

theorem graphHead_bytes : graphHead.1 = .bytes graphBytes false := by decide +kernel
theorem graphTail_bytes : graphTail.1 = .bytes [] false := by decide +kernel
theorem graphOf_body : graphBody (wordsOfBytes 72 graphBytes ++ []) [] (List.replicate 8 0) = some graphOf := by decide +kernel
theorem graphPages_filled : (fillFrames 0 0 (jobPages 0xFF0000000000 0 graphOf) graphTail.2).1 = (none, true) := by decide +kernel

/-- A suspending job whose area is at byte 128 of extent 0. -/
def ending : Job := { phase := .suspending, suspendReq := some {}, desc := [0, 0, 0, 0, 0, 128] }

theorem pair_fst {α β : Type} {x : α × β} {a : α} (h : x.1 = a) : x = (a, x.2) := Prod.ext h rfl

theorem witness_JobsLoadAndSuspend :
    (∃ (j : Job) (hb cb : List Byte) (b : Body) (s u v w : State), jobAt s (jobKey 0 0) = some j ∧ j.phase = .loading ∧ j.kind = 1 ∧
      let g : Word := put 0 (fld (wordAt j.desc 2) 47 0)
      let n := graphCmds (wordsOfBytes 72 hb)
      viewBytes 0 0 1 g 576 s = (.bytes hb false, u) ∧ graphHdrOk (wordsOfBytes 72 hb) = true ∧
      viewBytes 0 0 1 (g + 576) (32 * n) u = (.bytes cb false, v) ∧
      graphBody (wordsOfBytes 72 hb ++ wordsOfBytes (4 * n) cb) j.slots ((List.range 8).map fun i => wordAt j.desc (8 + i)) = some b ∧
      fillFrames 0 0 (jobPages g n b) v = ((none, true), w)) ∧
    (∃ (j : Job) (s : State), jobAt s (jobKey 15 7) = some j ∧ j.phase = .loading ∧ j.kind = 2 ∧ j.claim = .read ∧ hdrState j.hdr = 1) ∧
    (∃ (j : Job) (s : State), jobAt s (jobKey 15 7) = some j ∧ j.phase = .loading ∧ j.kind = 2 ∧ j.claim = .body) ∧
    (∃ (j : Job) (s : State), jobAt s (jobKey 15 7) = some j ∧ j.phase = .loading ∧ j.kind = 2 ∧ j.claim = .done ∧ hdrLines j.hdr = 0) ∧
    (∃ (j : Job) (q : FwdJob) (s u : State), let k := jobKey 0 0
      jobAt s k = some j ∧ j.suspendReq = some q ∧ j.phase = .suspending ∧ quiet s k j = true ∧
      let a := spillAll k s
      let b := { ((jobAt a k).getD j).b with fault := pendingFault a k }
      let padded := bodyBytes b ++ List.replicate ((128 - (bodyBytes b).length % 128) % 128) 0
      areaOk a j.iid (dArea j.desc) (padded.length / 128) = true ∧ j.susHdr = [] ∧ isHere a (fdnOf (dArea j.desc)) = true ∧
      writeArea j.iid (dArea j.desc) (suspendHdr j.tag j.iid j.asid j.restarts b.fault.isSome padded (timeUsed a j) j.desc) padded a = (true, u)) := by
  refine ⟨⟨{ desc := [0, 0, 0xFF0000000000] }, graphBytes, [], graphOf, graphed, graphHead.2, graphTail.2, (fillFrames 0 0 (jobPages 0xFF0000000000 0 graphOf) graphTail.2).2, rfl, rfl, rfl, ?_⟩,
    ⟨_, { nmc := { jobs := [(127, { kind := 2, hdr := [0, 0x40000000] })] } }, rfl, by decide⟩,
    ⟨_, { nmc := { jobs := [(127, { kind := 2, claim := .body })] } }, rfl, by decide⟩,
    ⟨_, { nmc := { jobs := [(127, { kind := 2, claim := .done })] } }, rfl, by decide⟩,
    ⟨ending, {}, jobbed ending durable, _, rfl, rfl, rfl, by decide, ?_, rfl, ?_, pair_fst ?_⟩⟩
  · have e : graphCmds (wordsOfBytes 72 graphBytes) = 0 := by decide +kernel
    have g : put 0 (fld (wordAt ([0, 0, 0xFF0000000000] : List Word) 2) 47 0) = 0xFF0000000000 := by decide
    dsimp only
    rw [e, g]
    exact ⟨Prod.ext graphHead_bytes rfl, by decide +kernel, Prod.ext graphTail_bytes rfl, graphOf_body, Prod.ext graphPages_filled rfl⟩
  · decide +kernel
  · decide +kernel
  · decide +kernel

theorem witness_JobsInService :
    (∃ s : State, runnable s (jobKey 0 0) = true ∧ ownerCtx s 0 = none) ∧
    (∃ (j : Job) (n : Nat) (x : Stream) (h : TileHdr) (s : State), jobAt s (jobKey 0 0) = some j ∧
      j.b.streams.find? (fun e => e.2.written.head? == some 3) = some (n, x) ∧
      (if (j.b.tile 3).raw.isEmpty then some (j.b.tile 3).h else hdrOfWords (j.b.tile 3).raw) = some h ∧ h.ok = true) ∧
    (∃ (j : Job) (s : State), jobAt s (jobKey 0 0) = some j ∧ (j.b.stream 63).consumer ≠ 0 ∧ (j.b.stream 63).taken ≠ [] ∧
      let b := drainPort 4096 (j.b.consume 63)
      (if (j.b.stream 63).producer = 0 then b else b.settle (j.b.stream 63).producer).seqOver = false) ∧
    (∃ (j : Job) (s : State), jobAt s (jobKey 0 0) = some j ∧ j.phase = .committing ∧ j.group ≠ [] ∧ commitReady s j = true) ∧
    (∃ (j : Job) (s : State), jobAt s (jobKey 0 0) = some j ∧ j.phase = .committed ∧ j.area = 0) ∧
    (∃ (j : Job) (s : State), jobAt s (jobKey 0 0) = some j ∧ j.phase ≠ .ended ∧ j.phase ≠ .committed ∧ j.counted < restartLimit s j) ∧
    (∃ (j : Job) (s : State), jobAt s (jobKey 0 0) = some j ∧ j.phase ≠ .ended ∧ j.phase ≠ .committed ∧ restartLimit s j ≤ j.counted) ∧
    (∃ (j : Job) (s : State), Owns 0 0 j s ∧ j.reads = [] ∧ faulted s (jobKey 0 0) = false ∧ j.b.ports.any (·.tiles.isNone) = false ∧ j.phase = .ready) := by
  let x : Stream := { written := [3] }
  refine ⟨⟨{ nmc := { jobs := [(0, { phase := .ready })] } }, by decide⟩,
    ⟨{ b := { streams := [(5, x)], tiles := [(3, { h := { fmt := 1, bytes := 4 } })] } }, 5, x, { fmt := 1, bytes := 4 }, jobbed _, rfl, by decide,
      by decide, by decide⟩,
    ⟨{ b := { streams := [(63, { consumer := 4, taken := [3] })] } }, jobbed _, rfl, by decide, by decide, by decide +kernel⟩,
    ⟨{ phase := .committing, group := [9] }, jobbed _, rfl, rfl, by decide, by decide⟩, ⟨{ phase := .committed }, jobbed _, rfl, rfl, rfl⟩,
    ⟨{ desc := [put 48 7] }, reg (Off.nmc + 0x10020) 3 (jobbed { desc := [put 48 7] }), rfl, by decide, by decide, by decide⟩,
    ⟨{}, jobbed {}, rfl, by decide, by decide, by decide⟩, ⟨{ phase := .ready }, jobbed _, ⟨rfl, rfl, by decide⟩, rfl, by decide, by decide, rfl⟩⟩

theorem witness_RuntimeAndGrafts :
    (let s := { stageSet (stageOf store .jtag) (rsStage + 8) 0x100000 store with flt := { state := .member, adopted := some 9 } }
     Ready s .jtag none [.f] rsDone ∧
     fld (staged s .jtag (rsStage + 8)) 39 0 ≠ 0 ∧ fld (staged s .jtag (rsStage + 8)) 39 0 % 2 ^ 20 = 0 ∧ (staged s .jtag rsStage).toNat % 128 = 0 ∧
     s.nmc.rs.any (·.version == 1) = false ∧ s.nmc.rs.length < 2 ∧
     rsUsed (accepted rsDone s) + fld (staged s .jtag (rsStage + 8)) 39 0 ≤ s.tier.carve.getD 1 32 * 2 ^ 30 ∧
     (fdnOf (staged s .jtag rsStage) = servedFdn (accepted rsDone s) →
       (extDesc (accepted rsDone s) (extOf (addr (accepted rsDone s) (staged s .jtag rsStage)))).state = .assigned) ∧
     rsChecks (accepted rsDone s) 1 (staged s .jtag rsStage) none (fld (staged s .jtag (rsStage + 8)) 39 0) = true) ∧
    (∃ s : State, Ready s .jtag none [.f] rsDone ∧ (s.nmc.rs.any fun r => r.version == 1) = true) ∧
    (∃ (r : RsVer) (t : Nat) (s : State), s.nmc.rs.find? (·.retiring.isSome) = some r ∧ r.retiring = some t ∧
      (∀ e ∈ s.nmc.jobs, e.2.phase = .ended ∨ e.2.phase = .committed ∨ rsVersion e.2 ≠ r.version)) ∧
    (Ready svc .jtag none [.f] (Off.nmc + 0x10018) ∧ physOf svc 15 ≠ 31) :=
  ⟨⟨⟨by decide, by decide⟩, by decide, by decide, by decide, by decide, by decide, by decide, by decide, by decide⟩,
    ⟨{ svc with nmc := { rs := [{ version := 1 }] } }, ⟨by decide, by decide⟩, by decide⟩,
    ⟨{ retiring := some 5 }, 5, { nmc := { rs := [{ retiring := some 5 }] } }, by decide⟩, ⟨by decide, by decide⟩, by decide⟩

theorem witness_DibberCommands :
    (∃ (j : Job) (s : State), Owns 0 0 j s ∧ j.b.dib.stopped = false ∧ ended j.b = true) ∧
    (∃ (j : Job) (s : State), Owns 0 0 j s ∧ j.b.dib.stopped = false ∧ ended j.b = false) ∧
    (∃ b : Body, ∃ a u, csrTake b 5 = (.ans a, u)) ∧ (∃ b : Body, ∃ a u, csrFree b 5 = (.ans a, u)) ∧
    (∃ b : Body, ∃ a u, csrAlloc b 5 = (.ans a, u)) ∧ (∃ b : Body, ∃ a u, csrEmit b 5 = (.ans a, u)) ∧
    (∃ b : Body, ∃ a u, csrPush b 0xFFFFFFF000000000 = (.ans a, u)) ∧
    (∃ rd v, (0x00500093 : BitVec 32).toNat % 4 = 3 ∧
      rvDecode (0x00500093 : BitVec 32).toNat (rtDib svc 3).pc (rtDib svc 3).reg = .set rd v) ∧
    (∃ (j : Job) (i rd : Nat) (v : Word) (s u : State), Owns 0 0 j s ∧ j.b.dib.stopped = false ∧
      dibFetch 0 0 j.b.dib.pc s = (.inr (some (i, 4)), u) ∧ rvDecode i j.b.dib.pc j.b.dib.reg = .set rd v) ∧
    (∃ s : State, (rtDib s 3).x.length = 32) := by
  refine ⟨⟨{ phase := .ready }, jobbed _, ⟨rfl, rfl, by decide⟩, rfl, by decide⟩,
    ⟨{ phase := .ready, b := { stations := [(3, { cmds := [{}] })] } }, jobbed _, ⟨rfl, rfl, by decide⟩, rfl, by decide⟩,
    ⟨{ streams := [(5, { ready := [9] })] }, _, _, rfl⟩, ⟨{ streams := [(7, { taken := [5] })] }, _, _, rfl⟩,
    ⟨{ streams := [(5, { free := [9] })] }, _, _, rfl⟩, ⟨{ streams := [(5, { alloc := [5] })] }, _, _, rfl⟩,
    ⟨{ dib := { scratch := [(3, 0xF0), (4, 0xFF), (5, 0x3F), (6, 0x20), (7, 0x60)] } }, _, _, rfl⟩, ⟨1, 5, by decide, by decide⟩,
    ⟨{ phase := .ready, b := { dib := { pc := 0xFF0000000000 } } }, 0x00500093, 1, 5,
      { store with nmc := { jobs := [(0, { phase := .ready, b := { dib := { pc := 0xFF0000000000 } } })], owner := [(0, 0)]
                            rs := [{ length := 2 ^ 20 }], rsMem := [(0, 0x93), (2, 0x50)] } }, _, ⟨rfl, rfl, by decide⟩, rfl, pair_fst ?_, ?_⟩,
    ⟨svc, by decide⟩⟩
  all_goals decide +kernel

/-- A job whose station `st` has one command, of code `cmd`, with a tile waiting in stream 1 and, for an operation of two inputs, in
stream 2. -/
def stationed (st cmd : Nat) (ha hb : TileHdr) (p : Payload) (c : Cmd) : Body :=
  { stations := [(st, { cmds := [{ c with station := st, cmd := cmd, inA := 1 }] })]
    streams := [(1, { consumer := st, ready := [9] }), (2, { consumer := st, ready := [8] }), (3, { producer := st, free := [7] })]
    tiles := [(8, { h := hb, pay := p }), (9, { h := ha, pay := p })] }

/-- The operation `f` accepts the tiles of `stationed`, and the body changes. -/
def accepts (st cmd : Nat) (f : Cmd → Station → Tile → Option Tile → Body → TileRes) (fin : Cmd → Carry → List Tile) (j : Body) : Bool :=
  match (j.station st).cur with
  | none => false
  | some c =>
    let b := j.settle st
    let ob := if c.inB = noneStream then none else b.next c.inB
    match b.next c.inA with
    | none => false
    | some a =>
      (c.cmd == cmd && b.station st == j.station st && (j.station st).outq.isEmpty && (c.inB == noneStream || ob.isSome) && !a.h.poison &&
        !(ob.any (·.h.poison)) && !(a.h.empty && a.h.last)) &&
      match f c (b.station st) a ob b with
      | .out carry ts fl b2 =>
        let t := tileDone st c fin a carry ts fl (b.station st).consumed b2
        !t.seqOver && t != j
      | _ => false

/-- The state of a job with body `b` that is ready and holds the stations of core 0. -/
def tiling (b : Body) : State := jobbed { phase := .ready, b := b }

/-- The list entry of a tile operation: its station, its command code, what one tile does, and what its last tile adds. -/
abbrev TileOp := Nat × Nat × (Cmd → Station → Tile → Option Tile → Body → TileRes) × (Cmd → Carry → List Tile)

/-- No tile is added at the end. -/
def adds : Cmd → Carry → List Tile := fun _ _ => []

/-- One element of FP32. -/
def hF : TileHdr := { fmt := 1, bytes := 4, stride := 4 }

/-- One element of INT32. -/
def hI : TileHdr := { fmt := 8, bytes := 4, stride := 4 }

/-- A tile without an element. -/
def hE : TileHdr := { empty := true }

/-- A codebook of 16 rows of 4 FP32 elements, its last tile. -/
def hC : TileHdr := { fmt := 1, bytes := 256, rows := 16, cols := 4, stride := 16, last := true }

/-- Every operation of `ops` accepts a tile with header `h`. -/
def takes (h : TileHdr) (inB : Nat) (mode : BitVec 32) (ops : List TileOp) : Prop :=
  (ops.all fun o => accepts o.1 o.2.1 o.2.2.1 o.2.2.2
    (stationed o.1 o.2.1 h h 0x3F800000 { inB := inB, out := 3, c := 16, count := 5, mode := mode })) = true

theorem tiling_owns (b : Body) : Owns 0 0 { phase := .ready, b := b } (tiling b) := ⟨rfl, rfl, rfl⟩

theorem witness_TileCommandsRun :
    takes hF 63 0 [
      (4, 0x01, fOp laneAdd, adds), (4, 0x02, fOp laneSub, adds), (4, 0x03, fOp laneMul, adds),
      (4, 0x04, elementwise false false (fun c x y => laneFma (c.b.setWidth 32) x y), adds), (4, 0x05, fOp laneMin, adds),
      (4, 0x06, fOp laneMax, adds), (4, 0x07, fOp1 laneAbs, adds), (4, 0x08, fOp1 laneNeg, adds),
      (4, 0x09, elementwise false true (fun c x y => laneCmp (c.mode.toNat % 8) x y), adds), (4, 0x10, fOp1 laneExp, adds),
      (4, 0x11, fOp1 laneExp2, adds), (4, 0x12, fOp1 (laneLog 2), adds), (4, 0x13, fOp1 (laneLog 3), adds),
      (4, 0x14, fOp1 laneRsqrt, adds), (4, 0x15, fOp1 laneRecip, adds), (4, 0x16, fOp1 laneSqrt, adds), (4, 0x17, fOp laneDiv, adds),
      (4, 0x18, fOp1 laneTanh, adds), (4, 0x21, maxTile, adds), (4, 0x22, softTile, adds), (4, 0x30, cvtStep, adds),
      (5, 1, loadcbTile (pagesElse (tiling {}) 0 0), adds)] ∧
    takes hI 63 0 [
      (4, 0x31, iOp (fun _ x y => (x + y, 0)), adds), (4, 0x32, iOp (fun _ x y => (x - y, 0)), adds),
      (4, 0x33, iOp (fun _ x y => (x * y, 0)), adds), (4, 0x34, iOp (fun c x y => laneLogic (c.mode.toNat % 4) x y), adds),
      (4, 0x35, iOp (fun c x y => laneShift (c.mode.toNat % 4) x y), adds),
      (4, 0x36, iOp (fun c x y => laneIsat (c.mode.getLsbD 0) x y), adds)] ∧
    takes hE 63 0 [
      (3, 0x02, mmaTile, adds), (3, 0x04, loadTile, adds), (4, 0x28, topTile, topEnd), (5, 3, encodeTile, adds),
      (5, 4, lookupTile, adds), (5, 5, lutaccTile, lutaccEnd), (5, 6, adcTile, adds), (5, 7, filterTile, adds)] ∧
    takes hI 2 0 [(4, 0x0A, selTile, adds)] ∧ takes hE 63 64 [(5, 2, decodeTile, adds)] ∧
    (∃ (b : Body) (c : Cmd), (b.station 3).cur = some c ∧ (b.settle 3).station 3 = b.station 3 ∧ (b.station 3).outq = [] ∧ c.cmd = 1 ∧
      (({ (b.settle 3).setAcc c.set_ (zeroSet (c.mode.getLsbD 0)) with arith := (b.settle 3).arith }).emitTiles 3 c [] true).seqOver = false ∧
      ({ (b.settle 3).setAcc c.set_ (zeroSet (c.mode.getLsbD 0)) with arith := (b.settle 3).arith }).emitTiles 3 c [] true ≠ b) ∧
    (∃ (b : Body) (c : Cmd), (b.station 3).cur = some c ∧ (b.settle 3).station 3 = b.station 3 ∧ (b.station 3).outq = [] ∧ c.cmd = 3 ∧
      (cvtTile (c.mode.toNat % 256) (c.mode.getLsbD 8) 32 32
        ((List.range 1024).map fun i => emitNum c ((b.settle 3).accSet c.set_).isInt (((b.settle 3).accSet c.set_).at_ i)) 0 0).isSome = true) ∧
    (∃ b t, rowSumStep b = .go t ∧ t ≠ b) ∧ (∃ b t, wholeStep 5 dtabTables b = .go t ∧ t ≠ b) ∧ (∃ b t, wholeStep 6 lutmvTables b = .go t ∧ t ≠ b) := by
  refine ⟨?_, ?_, ?_, ?_, ?_, ⟨stationed 3 1 hE hE 0 { out := 3 }, _, rfl, ?_, rfl, rfl, ?_, ?_⟩, ⟨stationed 3 3 hE hE 0 { out := 3, mode := 1 }, _, rfl, ?_, rfl, rfl, ?_⟩,
    ⟨stationed 4 0x20 hF hF 0x3F800000 { out := 3, count := 1 }, _, rfl, ?_⟩,
    ⟨stationed 3 5 hE hC 0x3F800000 { inB := 2, out := 3, count := 1 }, _, rfl, ?_⟩,
    ⟨stationed 3 6 { hF with cols := 4, bytes := 16, stride := 16 } hC 0x3F800000 { inB := 2, out := 3, count := 1 }, _, rfl, ?_⟩⟩ <;>
    (try unfold takes) <;> decide +kernel

/-- `store` with job 0 ready on core 0, its body `b`, a translation of its first 64 KiB to extent 0, and a runtime image. -/
def moving (b : Body) : State :=
  reg (Off.nmc + 0x10030) 256 { store with
    nmc := { jobs := [(0, { phase := .ready, b := b, iid := 5, frames := [{ size := 2, r := true, w := true }] })], owner := [(0, 0)]
             rs := [{ length := 2 ^ 20 }], rsMem := [(6, 1)] }
    jrn := { ringSize := 1048576 } }

/-- A body whose station `st` runs `c`, with a tile of header `h` and payload `p` waiting in stream 1. -/
def oneTile (st : Nat) (c : Cmd) (h : TileHdr) (p : Payload := 0) : Body :=
  { stations := [(st, { cmds := [{ c with station := st, inA := 1 }] })]
    streams := [(1, { consumer := st, ready := [9] }), (3, { producer := st, free := [7] })]
    tiles := [(9, { h := h, pay := p })] }

/-- READ of a line of the runtime image. -/
def readCmd : Cmd := { station := 1, inA := 1, cmd := 1, a := 0xFF0000000000, b := 128, c := 128, out := 3 }

/-- STAGE of one tile at byte 0 of extent 0. -/
def stageCmd : Cmd := { station := 2, inA := 1, cmd := 1, c := 4096, count := 1, out := 3 }

/-- READ_ROWS of rows of a line in the runtime image. -/
def rowsCmd : Cmd := { station := 1, inA := 1, cmd := 2, a := 0xFF0000000000, c := 128, out := 3 }

/-- One line of INT32. -/
def hL : TileHdr := { fmt := 8, bytes := 128, cols := 32, stride := 128 }

def readBody : Body := oneTile 1 readCmd hE
def stageBody : Body := oneTile 2 stageCmd hL 7
def rowsBody : Body := oneTile 1 rowsCmd hI

theorem witness_TransfersOfAJob :
    (∃ (j : Job) (c : Cmd) (x : Station) (b : Body) (s : State) (bs : List Byte) (p : Bool) (u : State),
      dmaJob 0 0 1 s = some j ∧ curCmd j.b 1 1 = (some (c, x), b) ∧ c.mode.getLsbD 0 = false ∧
      viewBytes 0 0 1 (c.a + BitVec.ofNat 64 (x.consumed * c.c.toNat)) (Nat.min 4096 (c.b.toNat - 4096 * x.consumed))
        (modBody (jobKey 0 0) (fun _ => b) s) = (.bytes bs p, u)) ∧
    (∃ (j : Job) (c : Cmd) (x : Station) (b : Body) (t : Tile) (s u : State),
      dmaJob 0 0 2 s = some j ∧ curCmd j.b 2 1 = (some (c, x), b) ∧ c.mode.getLsbD 0 = false ∧ b.next c.inA = some t ∧ t.h.poison = false ∧
      t.h.empty = false ∧ stageTile 0 0 t (c.a + BitVec.ofNat 64 (x.consumed * c.c.toNat)) (modBody (jobKey 0 0) (fun _ => b) s) = (.ok, u)) ∧
    (∃ (j : Job) (c : Cmd) (x : Station) (b : Body) (t : Tile) (idx : List Nat) (s : State) (bs : List Byte) (u : State),
      dmaJob 0 0 1 s = some j ∧ curCmd j.b 1 2 = (some (c, x), b) ∧ b.next c.inA = some t ∧
      indicesOf t = some idx ∧ x.carry.n = 0 ∧ x.carry.bytes = [] ∧ idx ≠ [] ∧ idx.length ≤ 4096 / Nat.max 1 c.c.toNat ∧ c.count = 0 ∧
      t.h.last = false ∧ viewRows 0 0 c.a c.c.toNat idx (modBody (jobKey 0 0) (fun _ => b) s) = (.bytes bs false, u) ∧
      bs.length < 4096 / Nat.max 1 c.c.toNat * c.c.toNat) := by
  refine ⟨⟨_, readCmd, readBody.station 1, readBody.settle 1, moving readBody, rsBytes graphed 0 0 128, false, _, rfl, ?_, rfl, pair_fst ?_⟩,
    ⟨_, stageCmd, stageBody.station 2, stageBody.settle 2, { h := hL, pay := 7 }, moving stageBody, _, rfl, ?_, rfl, ?_, rfl, rfl, pair_fst ?_⟩,
    ⟨_, rowsCmd, rowsBody.station 1, rowsBody.settle 1, { h := hI }, [0], moving rowsBody, rsBytes graphed 0 0 128, _, rfl, ?_, ?_, ?_, rfl, rfl, ?_,
      ?_, rfl, rfl, pair_fst ?_, ?_⟩⟩ <;> decide +kernel

theorem witness_IntegerChunkStep : ∃ (c : Cmd) (a : Tile), a.h.empty = false ∧
    ((fmtIsInt (c.mode.toNat % 256) = true ∧ fmtIsFloat (c.mode.toNat / 256) = true) ∨
     (fmtIsFloat (c.mode.toNat % 256) = true ∧ fmtIsInt (c.mode.toNat / 256) = true)) :=
  ⟨{ mode := 0x108 }, {}, rfl, by decide⟩

theorem witness_FloatChunkSpecials : let zero := decF32 0; let one := decF32 0x3F800000
    (decF32 0x7FC00000).isNan = true ∧ (decF32 0x7F800000).isInf = true ∧ decF32 0x7F800000 = .inf false ∧ decF32 0xFF800000 = .inf true ∧
    (∀ y ∈ zero :: List.zipWith Machine.Num.mul [zero] [one], y.isNan = false ∧ y.isInf = false ∧ y.isZero = true ∧ y.neg = false) ∧
    (∀ y ∈ decF32 0x80000000 :: List.zipWith Machine.Num.mul [decF32 0x80000000] [one], y.isZero = true ∧ y.neg = true) := by decide +kernel

/-- A job whose PORT has command `code` and a request tile of header `h` and payload `p` in stream 1. -/
def porting (code : Nat) (h : TileHdr) (p : Payload) : Job := { phase := .ready, b := oneTile 6 { cmd := code, out := 3 } h p }

/-- A request tile of one line. -/
def hQ : TileHdr := { fmt := 0, bytes := 128, cols := 128, stride := 128 }

/-- A table of 4 FP32 rows of 128 bytes in one shard, whose shard is missing where `base` is zero. -/
def rows (base : Word) (exact : Bool := false) : TableVer :=
  { words := [put 48 1 ||| put 24 1 ||| put 22 1 ||| put 23 exact.toNat ||| put 0 128, 4, 0x1000, put 24 2 ||| put 0 1, 0], map := [(base, 0)], live := true }

/-- An index of 16 items of extent 0, its header at line 0. -/
def index0 : Index := { words := [put 48 1 ||| put 0 15, 0x100000, 0x200000, 0x300000, 0] }

/-- What a port sends. -/
def sends (x : Sent) : Bool := match x with | .sent _ _ => true | _ => false

theorem witness_PortSendsRequests :
    (∀ code, Owns 0 0 (porting code hE 0) (jobbed (porting code hE 0))) ∧
    (∀ code ∈ [1, 2, 3], let j := porting code hE 0; (j.b.next 1).any (·.h.empty) = true ∧ (j.b.station 6).cur.any (·.cmd == code) = true) ∧
    (let j := porting 1 hQ (BitVec.ofNat 32768 (2 ^ 56 + 1))
     portsOut (jobbed j) 0 0 < 64 ∧
     sends (gleanSend 0 0 j { cmd := 1, out := 3 } (j.b.station 6) { h := hQ, pay := BitVec.ofNat 32768 (2 ^ 56 + 1) } j.b (jobbed j)) = true) ∧
    (let j := porting 2 hQ (BitVec.ofNat 32768 (2 ^ 57 + 2 ^ 128))
     sends (sowSend 0 0 j { cmd := 2, out := 3 } (j.b.station 6) { h := hQ, pay := BitVec.ofNat 32768 (2 ^ 57 + 2 ^ 128) } j.b (jobbed j)) = true) ∧
    (let j := porting 3 hQ (BitVec.ofNat 32768 (4 * 2 ^ 56 + 1))
     sends (prnSend 0 0 j { cmd := 3, out := 3 } (j.b.station 6) { h := hQ, pay := BitVec.ofNat 32768 (4 * 2 ^ 56 + 1) } j.b
       { jobbed j with prn := { idx := [index0] } }) = true) := by
  refine ⟨fun _ => ⟨rfl, rfl, rfl⟩, ?_, ?_, ?_, ?_⟩ <;> decide +kernel

/-- A request of `op` for `n` entries. -/
def embReq (sow : Bool) (op : Nat) (es : List Word) (n : Nat := es.length) : EmbReq :=
  { sow := sow, hdr := [put 56 op ||| put 0 n, 0, 0, 0], entries := es, deltas := es.map fun _ => [], seq := 1 }

/-- Unit `i` with request `q` on table `v`, and a cutting of row 0. -/
def unit_ (i : Nat) (q : EmbReq) (v : TableVer) (w : List (Nat × Win) := []) : State :=
  { store with emb := { tables := [v], queues := [(i, q)], wins := w, held := [{ row := 0, lines := [5], lease := 1000 }] } }

/-- A prune request of `op`. -/
def prnReq (op n : Nat) : PrnReq := { idx := { index0 with words := [put 48 1 ||| put 0 15, 0, 0x1000, 0x300000, 0x2000] }, words := [put 56 op ||| put 0 n, 0, 0, 0, 0, 0, 0, 0], seq := 1, body := List.replicate 1000 0 }
/-- A store of one line of flash and one prune request. -/
def pruning (op n : Nat) : State :=
  reg (Off.nmc + 0x10030) 256 { held with
    prn := { queue := [prnReq op n] }, nmc := { jobs := [(0, { phase := .ready })] }, jrn := { ringSize := 1048576 } }

/-- A search or a scan that found everything it reads. -/
def found (p : Probe) : Bool := p.fail.isNone && !p.stuck && p.miss.isEmpty && p.bits.isEmpty && p.poisoned.isEmpty

/-- The query of a prune request. -/
def queryOf (s : State) (q : PrnReq) : Query :=
  { x := q.idx, g := q.gen, iid := ((jobAt s (jobKey q.core q.ctx)).map (·.iid)).getD 0, h := q.words, table := q.table, u := 8, who := q.seq }

theorem witness_UnitsAnswer :
    (∀ bag : Bool, let q := embReq false (if bag then 2 else 1) [put 63 1]; let s := unit_ 0 q (rows 0x1000)
      embHead s 0 = some q ∧ embOp q.hdr = (if bag then 2 else 1) ∧ tableVer s q.handle q.version = some (rows 0x1000) ∧
      (let w := openWin 0 q s
       let es := (q.entries.drop q.pos).take (4096 - w.1.n)
       ∃ ds u, gleanRows 0 (q.iid w.2) (rows 0x1000) es w.2 = (.inr ds, u) ∧ q.entries.length ≤ (gleanTake bag 0 q (rows 0x1000) w.1 es ds u).1.pos)) ∧
    (∀ bag : Bool, let q := embReq false (if bag then 2 else 1) [put 63 1, 0]; let s := unit_ 0 q (rows 0x1000) [(0, { n := 4095 })]
      embHead s 0 = some q ∧
      (let w := openWin 0 q s
       let es := (q.entries.drop q.pos).take (4096 - w.1.n)
       ∃ ds u, gleanRows 0 (q.iid w.2) (rows 0x1000) es w.2 = (.inr ds, u) ∧ (gleanTake bag 0 q (rows 0x1000) w.1 es ds u).1.pos < q.entries.length)) ∧
    (let q := embReq true 1 [0]; let v := rows 0x1000; let s := unit_ 4 q v
     embHead s (4 + 0) = some q ∧ tableVer s q.handle q.version = some v ∧ embOp q.hdr = 1 ∧
     (∀ e ∈ q.entries.zip q.deltas, ∀ r, entryKind v e.1 = .row r → sowRefuses s v r = none)) ∧
    (let q := { embReq true 2 [] with pos := 4 }; let v := rows 0x1000 true; let s := unit_ 4 q v
     embHead s 4 = some q ∧ tableVer s q.handle q.version = some v ∧ embOp q.hdr = 2 ∧ v.exact = true ∧ q.group = [] ∧ v.rows ≤ 0 + q.pos) ∧
    (let q := embReq true 2 []; let v := rows 0 true; let s := unit_ 4 q v
     embHead s 4 = some q ∧ tableVer s q.handle q.version = some v ∧ embOp q.hdr = 2 ∧ v.exact = true ∧ q.group = [] ∧
     fld (wordAt q.hdr 1) 40 0 + q.pos < v.rows ∧ entryKind v (BitVec.ofNat 64 (fld (wordAt q.hdr 1) 40 0 + q.pos)) = .missing) ∧
    (let q := { embReq true 2 [] with group := [7] }; let s := unit_ 4 q (rows 0x1000 true)
     embHead s 4 = some q ∧ embOp q.hdr = 2 ∧ q.group ≠ [] ∧ groupConfirmed q.group s = true) ∧
    (let s := pruning 1 0; let q := prnReq 1 0
     s.prn.queue.find? (fun q => q.inst == 0 && prnOp q.words == 1) = some q ∧ q.fail = none ∧ found (searchRun s (queryOf s q)) = true) ∧
    (let s := pruning 2 0; let q := prnReq 2 0
     s.prn.queue.find? (fun q => q.inst == 0 && prnOp q.words == 2) = some q ∧ q.fail = none ∧ found (scanRun s (queryOf s q)) = true) ∧
    (∀ op ∈ [3, 4, 5], let s := pruning op (if op = 3 then 0 else 1); let q := prnReq op (if op = 3 then 0 else 1)
     s.prn.queue.find? (fun q => q.inst == 0 && prnOp q.words == op) = some q ∧ (prnParse q.idx q.words q.body).isSome = true ∧
       (jobAt (modBody 0 (fun b => { b with prn := b.prn ++ ((prnParse q.idx q.words q.body).toList) }) (prnDrop q s)) 0).any
         (fun j => decide (stageUsed j.b ≤ stageQuota s)) = true) := by
  refine ⟨fun bag => ⟨?_, ?_, ?_, [some (bytesOfLine 5, false)], _, pair_fst ?_, ?_⟩,
    fun bag => ⟨?_, [some (bytesOfLine 5, false)], _, pair_fst ?_, ?_⟩, ⟨?_, ?_, ?_, ?_⟩, ?_, ?_, ?_, ?_, ?_, ?_⟩
  · cases bag <;> decide +kernel
  · cases bag <;> decide +kernel
  · cases bag <;> decide +kernel
  · cases bag <;> decide +kernel
  · cases bag <;> decide +kernel
  · cases bag <;> decide +kernel
  · cases bag <;> decide +kernel
  · cases bag <;> decide +kernel
  · decide +kernel
  · decide +kernel
  · decide +kernel
  · intro e he r h
    obtain rfl : e = (0, []) := List.mem_singleton.mp he
    have row0 : entryKind (rows 0x1000) 0 = .row 0 := by decide +kernel
    cases row0.symm.trans h
    decide +kernel
  · decide +kernel
  · decide +kernel
  · decide +kernel
  · decide +kernel
  · decide +kernel
  · decide +kernel

/-- `store` with registers of the JTAG writer's staging set. -/
def stages (l : List (Nat × Word)) (s : State := store) : State := l.foldl (fun s x => stageSet (stageOf store .jtag) x.1 x.2 s) s

theorem witness_TableCommands :
    (let s := stages ((rows 0x1000).words.zipIdx.map fun x => (Off.gln + 8 * x.2, x.1))
     Ready s .jtag none [.a, .f] tblDone ∧ (liveTable s 3).isSome = false ∧
     (s.emb.tables.filter (·.handle == 3)).length < 4 ∧
     ({ handle := 3, words := stagedWords (accepted tblDone s) .jtag Off.gln } : TableVer).descOk = true) ∧
    (let s := stages ((rows 0x1000).words.zipIdx.map fun x => (Off.gln + 8 * x.2, x.1)) { store with emb := { tables := [rows 0x1000] } }
     Ready s .jtag none [.a, .f] tblDone ∧ liveTable s 0 = some (rows 0x1000) ∧ (s.emb.tables.filter (·.handle == 0)).length < 4 ∧
     ({ handle := 0, words := stagedWords (accepted tblDone s) .jtag Off.gln } : TableVer).descOk = true ∧ hasCls s .jtag none .f = true) ∧
    Ready svc .jtag none [.f] grpDone ∧
    (let v := rows 0x1000
     let s := reg (Off.gln + 0x310) 1 { store with emb := { tables := [v] } }
     liveTable s 0 = some v ∧ v.rowAt 0 = some 0x1000 ∧ v.cutOk = true ∧ 0 < v.rows ∧ isHere s (fdnOf 0x1000) = true ∧
       s.emb.cuts = [] ∧ s.emb.written = [] ∧ 0 < (regGet s (Off.gln + 0x310)).toNat) ∧
    (let s := unit_ 0 (embReq false 1 [0]) (rows 0x1000)
     s.emb.held.find? (fun c => c.handle == 0 && c.row == 0) = some { row := 0, lines := [5], lease := 1000 } ∧ s.emb.cuts = []) := by
  refine ⟨⟨⟨?_, ?_⟩, ?_, ?_, ?_⟩, ⟨⟨?_, ?_⟩, ?_, ?_, ?_, ?_⟩, ⟨?_, ?_⟩, ?_, ?_⟩ <;> decide +kernel

theorem witness_NewVersionIsLive : let r : TableRun := { handle := 3, words := (rows 0x1000).words, fm := true }
    let m : List (Word × Word) := [(0x1000, 0)]
    ((List.range m.length).all ({ handle := r.handle, words := r.words, map := m, live := true } : TableVer).entryOk) = true ∧ r.fm = true ∧
      shardEntries svc + m.length ≤ 1048576 ∧ Tab.wf 0 svc.emb.lastVer = true ∧ Tab.wf {} svc.regs.done = true := by decide +kernel

/-- `held` with index 0 and generation 5 in its first pin slot. -/
def pinned : State := stages [(Off.prn, 5)] { held with tier := { held.tier with hbm := [(48, 5)] }, prn := { idx := [index0] } }

theorem witness_IndexCommands :
    (let s := stages (index0.words.zipIdx.map fun x => (Off.prn + 8 * x.2, x.1))
     let x : Index := { handle := 3, words := (List.range 16).map fun i => staged s .jtag (Off.prn + 8 * i), inst := leastInst s, iid := writerIid s .jtag }
     Ready s .jtag none [.a, .f] idxDone ∧ hasCls s .jtag none .f = true ∧ indexOf s 3 = none ∧ x.descOk (accepted idxDone s) = true ∧
     (x.areas.any fun y => (areaExts (accepted idxDone s) y).any fun e => decide ((extDesc (accepted idxDone s) e).form = .coded)) = false) ∧
    (let a := accepted idxDone pinned
     Ready pinned .jtag none [.a, .f] idxDone ∧ indexOf pinned 0 = some index0 ∧ hasCls pinned .jtag none .f = true ∧
     (List.range 4).find? (fun i => (hdrPins (hdrWords a index0)).getD i 0 == 0) = some 1 ∧
     (editHdr index0 (setPin 1 (hdrGen (hdrWords a index0))) a).1 = true ∧
     (let g : BitVec 32 := (staged pinned .jtag Off.prn).setWidth 32
      (List.range 4).find? (fun i => (hdrPins (hdrWords a index0)).getD i 0 == g && g != 0) = some 0 ∧ (editHdr index0 (setPin 0 0) a).1 = true)) ∧
    indexOf svc 5 = none ∧
    (let j : Job := { phase := .committing, b := { prn := [.delete 0 []] } }
     let s : State := { jobbed j with prn := { holds := [(0, 3, 3)] } }
     jobAt s 0 = some j ∧ j.phase = .committing ∧ j.group = [] ∧ j.b.prn ≠ [] ∧
     (jobAt (commitTry 0 0 (reach (j.commitAt + 10000000) s)) 0).any (fun k => decide (k.phase = .committing) && k.group.isEmpty) = true) := by
  refine ⟨⟨⟨?_, ?_⟩, ?_, ?_, ?_, ?_⟩, ⟨⟨?_, ?_⟩, ?_, ?_, ?_, ?_, ?_, ?_⟩, rfl, ?_⟩ <;> decide +kernel

theorem witness_TranslationCommands :
    (let s := stages [(asidStage 0, 0x1003)]
     Ready s .jtag none asidCls asidDone ∧ (s.xlt.asids.any fun x => x.1 == 7 && x.2.valid) = false ∧
     (let d := extDesc s (extOf (fld (staged s .jtag (asidStage 0)) 47 12 * 4096))
      d.state = .assigned ∧ d.form = .raw ∧ (rightsOf d (bindIid s .jtag (staged s .jtag (asidStage 1)))).rd = true)) ∧
    (let r : AsidRec := { valid := true }; let s := { store with xlt := { asids := [(7, r)] } }
     Ready s .jtag none asidCls asidDone ∧ s.xlt.asids.find? (fun x => x.1 == 7 && x.2.valid) = some (7, r) ∧ invAllowed s .jtag r = true) ∧
    (let f : LiveFault := { id := 9 }; let s := { store with xlt := { faults := [f] } }
     s.xlt.faults.find? (fun f => f.id == (9 : Word).setWidth 32) = some f ∧ invAllowed s .jtag {} = true ∧ statusOf (fld (9 : Word) 63 59) = some .ok ∧
       statusOf 16 = some .busy ∧ statusOf 17 = none) ∧
    (∃ (f : LiveFault) (t : Nat) (s : State), s.xlt.faults.find? (·.id == 9) = some f ∧ f.posted = some t) ∧
    (∀ all : Bool, let w0 : Word := put 56 (if all then 2 else 1) ||| put 32 7 ||| put 0 (!all).toNat; let r : AsidRec := { valid := true }
     let s := stages [(invStage 0, w0)] { store with xlt := { asids := [(7, r)] } }
     allowed s .jtag none [.a, .w, .f] = true ∧ s.xlt.invals.length < 64 ∧
     s.xlt.asids.find? (fun a => a.1 == (BitVec.ofNat 16 (fld w0 47 32)).toNat && a.2.valid) = some (7, r) ∧ invAllowed s .jtag r = true ∧
     (staged s .jtag (invStage 2)).toNat % 8 = 0 ∧ staged s .jtag (invStage 0) = w0 ∧ fld w0 63 56 = (if all then 2 else 1) ∧
     (all = true ↔ fld w0 31 0 = 0)) ∧
    (∃ (i : Inval) (s : State), s.xlt.invals.find? (·.num == 3) = some i ∧ invBusy s i = false) ∧
    (∃ (r : HostRead) (s : State), s.xlt.reads.find? (fun r => r.port == 1 && r.addr == ((64 : BitVec 52) &&& ~~~(64 : BitVec 52)) && r.issued) = some r ∧
      r.got = none) ∧
    (∃ (up : Bool) (d : BitVec 512) (r : HostRead) (s : State),
      s.xlt.reads.find? (fun r => r.port == 1 && r.addr == ((64 : BitVec 52) &&& ~~~(64 : BitVec 52)) && r.issued) = some r ∧
      r.got = some (up, d) ∧ up ≠ (64 : BitVec 52).getLsbD 6 ∧ r.poison = false) ∧
    (∃ (r : HostRead) (s : State), s.xlt.reads.find? (fun r => r.port == 1 && r.addr == 128) = some r ∧ r.issued = true ∧ portUp s 1 = true) ∧
    (∃ (r : HostRead) (s : State), s.xlt.reads.find? (fun r => r.port == 1 && r.addr == 128) = some r ∧ portUp s 1 = false) := by
  refine ⟨⟨⟨?_, ?_⟩, ?_, ?_, ?_, ?_⟩, ⟨⟨?_, ?_⟩, ?_, ?_⟩, ⟨?_, ?_, ?_, ?_, ?_⟩, ⟨{ id := 9, posted := some 5 }, 5, { xlt := { faults := [{ id := 9, posted := some 5 }] } }, ?_⟩, ?_,
    ⟨{ num := 3 }, { xlt := { invals := [{ num := 3 }] } }, ?_⟩,
    ⟨{ port := 1, issued := true }, { xlt := { reads := [{ port := 1, issued := true }] } }, ?_⟩,
    ⟨false, 8, { port := 1, issued := true, got := some (false, 8) }, { xlt := { reads := [{ port := 1, issued := true, got := some (false, 8) }] } }, ?_⟩,
    ⟨{ port := 1, addr := 128, issued := true },
      { xlt := { reads := [{ port := 1, addr := 128, issued := true }] }, hp := { links := [(4, { up := true })] } }, ?_⟩,
    ⟨{ port := 1, addr := 128, issued := true }, { xlt := { reads := [{ port := 1, addr := 128, issued := true }] } }, ?_⟩⟩ <;> decide +kernel

/-- A device in service whose link `n` is `l`, enabled by its register. -/
def linked (n : Nat) (l : FabLink) : State := reg (Off.fab + 0x100 * n + 8) 1 { svc with fab := { links := [(n, l)] } }

theorem witness_FabricLinks :
    (let s := linked 3 {}; (fabAt s 3).state ≠ .active ∧ (fabAt s 3).state ≠ .training ∧ isMesh 3 = true ∧ linkMayTrain s 3 = true) ∧
    (let s := linked 15 { module := .active }; (fabAt s 15).state ≠ .active ∧ (fabAt s 15).state ≠ .training ∧ isMesh 15 = false ∧
       (fabAt s 15).module = .active ∧ linkMayTrain s 15 = true) ∧
    (let s := linked 3 { state := .training }; (fabAt s 3).state = .training ∧ 2 ≤ ones 5 (3 : BitVec 5).toNat ∧ ones 5 (1 : BitVec 5).toNat < 2 ∧
       crosswired (s.modFlt fun f => { f with epoch := Nat.max f.epoch 0 }) 3 { fdn := 9 } true = false) ∧
    (let s := linked 3 { state := .active, peer := 9 }; (fabAt s 3).state = .active ∧ (fabAt s 3).peer = 9) ∧
    (let s := linked 3 { retrainAt := some 8 }; (fabAt s 3).drill = false ∧ linkMayTrain s 3 = true ∧ (fabAt s 3).retrainAt = some 8) ∧
    allowed svc .jtag none [.f, .m] = true ∧ isOptical 23 = true ∧
    (let s := linked 15 { module := .resetReleased }; (fabAt s 15).module = .resetReleased ∧
       [({ code := 2, c2m200 := true, oneLane := true } : CmisApp)].find? (fun a => a.c2m200 && a.oneLane) = some { code := 2, c2m200 := true, oneLane := true } ∧
       ([] : List CmisApp).find? (fun a => a.c2m200 && a.oneLane) = none) ∧
    (let s := linked 15 { module := .active }; (fabAt s 15).module = .active ∧ ((0 : BitVec 5) ||| 0 = 0) ∧ (fabAt s 15).module ≠ .absent) := by
  decide +kernel

theorem witness_LinkDownLosesItsFlits : ∃ (n : Fin 24) (s : State), (fabAt s n).state ≠ .down :=
  ⟨3, linked 3 { state := .active }, by decide +kernel⟩

/-- A flit of header `h` whose CRC is that of its first 252 bytes. -/
def flitOf (h : Nat) : BitVec 2048 := BitVec.ofNat 2048 (h + (crc32c (bytesOfNat 252 h)).toNat * 2 ^ 2016)

set_option maxRecDepth 100000 in
theorem witness_FabricFlow :
    (let s := linked 3 { state := .active }
     let bs (f : FlitIn) := bytesOfNat 256 (fecDecode f).1.toNat
     let bad : FlitIn := .rs 0 0 0
     let nop : FlitIn := .rs (flitOf (2 ^ 30)) 0 0
     let data : FlitIn := .rs (flitOf 0) 0 0
     (fabAt s 3).state = .active ∧
     ((crc32c ((bs bad).take 252)).toNat ≠ natOfBytes ((bs bad).drop 252) ∧ natOfBytes ((bs bad).take 4) / 2 ^ 30 = 0) ∧
     ((crc32c ((bs nop).take 252)).toNat = natOfBytes ((bs nop).drop 252) ∧ natOfBytes ((bs nop).take 4) / 2 ^ 30 = 1) ∧
     ((crc32c ((bs data).take 252)).toNat = natOfBytes ((bs data).drop 252) ∧ natOfBytes ((bs data).take 4) / 2 ^ 30 = 0 ∧
       BitVec.ofNat 12 (natOfBytes ((bs data).take 4) / 2 ^ 18) = (fabAt s 3).rxSeq)) ∧
    (∃ s : State, (fabAt s 3).unacked = [(5, 0)] ∧ (fabAt s 3).spareHold = none ∧ (fabAt s 3).sameReplays < 15) ∧
    (∃ s : State, (fabAt s 3).unacked = [(5, 0)] ∧ (fabAt s 3).spareHold = none ∧ 15 ≤ (fabAt s 3).sameReplays) ∧
    (∃ (p : Nat × Nat × Nat) (s : State), s.fab.paths.find? (fun p => p.1 == (2 : Fin 8).val * 2 ^ 32 + (7 : BitVec 32).toNat) = some p) ∧
    (∃ (f : Fwd) (s : State), s.fab.fwd.find? (fun f => f.id == 6 && f.m.arrived.isSome) = some f) := by
  refine ⟨?_, ⟨linked 3 { unacked := [(5, 0)] }, ?_⟩, ⟨linked 3 { unacked := [(5, 0)], sameReplays := 15 }, ?_⟩,
    ⟨(2 * 2 ^ 32 + 7, 4, 5), { fab := { paths := [(2 * 2 ^ 32 + 7, 4, 5)] } }, ?_⟩,
    ⟨{ id := 6, m := { arrived := some 3 } }, { fab := { fwd := [{ id := 6, m := { arrived := some 3 } }] } }, ?_⟩⟩ <;> decide +kernel

theorem witness_LinkChoice : ∃ mask : List Nat, mask.Pairwise (· < ·) ∧ mask ≠ [] ∧ (∃ m k, msgKey m = some k) ∧ (∃ m, msgKey m = none) :=
  ⟨[3, 5, 20], by decide, by decide, ⟨{ vc := 0 }, _, rfl⟩, ⟨{ vc := 1 }, rfl⟩⟩

theorem witness_FecAndTime :
    (let s := linked 3 { state := .active, fecAsk := some 1, working := 31, spare := 4, peerFec := 7 }
     (fabAt s 3).state = .active ∧ (1 : BitVec 3).toNat ≤ 2 ∧ fecOk s 3 1 = true ∧ (fabAt s 3).fecAsk = some ((1 : BitVec 3).setWidth 2) ∧
     (fabAt s 3).working.toNat.testBit 2 = true ∧ (fabAt s 3).spare < 5 ∧ (fabAt s 3).spare ≠ 2 ∧ (fabAt s 3).spareSent = false) ∧
    (let s := linked 3 { state := .active }; let m : FecMeasure := { failed := 1, bitErrors := 1 }
     (fabAt s 3).state = .active ∧ s.sys.heat.getD 1 0 = 0 ∧ (fabAt s 3).fec = 0 ∧ m.flits < m.failed * 1000000000 ∧ m.bits ≤ m.bitErrors * 100000000) ∧
    (∃ s : State, (fabAt s 3).spareSent = true) ∧
    (let s := reg (Off.fab + 0x2030) 1 svc; timeMaster s = some (ownFdn s)) ∧
    (∃ s : State, timeMaster s ≠ some (ownFdn s) ∧ (parentLink s).isSome = true) ∧
    (∃ s : State, s.fab.parent = some 3 ∧ s.fab.t1 = some 77) := by
  refine ⟨?_, ?_, ⟨linked 3 { spareSent := true }, ?_⟩, ?_, ⟨linked 3 { state := .active, peer := 9 }, ?_⟩,
    ⟨{ fab := { parent := some 3, t1 := some 77 } }, rfl, rfl⟩⟩ <;> decide +kernel

/-- `held` with one event waiting in the queue of window 3, whose ring is at byte 0 of extent 0. -/
def noticing : State :=
  { reg (Off.evq 3) 0x8300000000000000 (reg (Off.evq 3 + 8) 16 held) with ras := { evq := [(3, { waiting := [{ etype := 5 }] })] } }

theorem witness_ErrorsAndEvents :
    (∃ s : State, s.ras.stormEnd = some 50) ∧
    (let s := noticing
     (evqOf s 3).waiting = [{ etype := 5 }] ∧ qValid (regGet s (Off.evq 3)) = true ∧ ringFull (evqSize s 3) (evqHead s 3) (evqOf s 3).tail = false ∧
     (ownAsk (0x4000 + 3) .storePart (wordsWrite s (evqOf s 3).iid (qOff (regGet s (Off.evq 3)) + 32 * (evqOf s 3).tail)
       (eventWords { etype := 5 })) s).1 = some (.ok, [])) ∧
    (∃ s : State, s.sys.watchArmed = true) :=
  ⟨⟨{ ras := { stormEnd := some 50 } }, rfl⟩, by decide +kernel, ⟨{ sys := { watchArmed := true } }, rfl⟩⟩

theorem witness_ErrorLogIsBounded : State.reset.ras.log.length ≤ 2048 := by decide +kernel

theorem witness_CompositionContainment : svc.flt.seen.contains (9, 4) = false ∧
    (∃ s : State, isFenced s 9 = true ∧ s.flt.containedFor.contains 9 = false ∧ (∀ w ∈ s.flt.waits, w.subject ≠ 9) ∧ (∀ e ∈ s.ras.cellLists, e.1 ≠ 9)) ∧
    Ready svc .jtag none [.f, .m] compDone ∧ (2 : BitVec 2) ≠ 3 :=
  ⟨by decide, ⟨{ flt := { fenced := [9] } }, by decide⟩, ⟨by decide, by decide⟩, by decide⟩

theorem witness_PulsesFencesAndJoins :
    (let s := linked 3 { state := .active, peer := 9 }; (fabAt s 3).state = .active ∧ (fabAt s 3).suspected = false ∧ isMesh 3 = true) ∧
    (svc.flt.drillVotes = [] ∧ svc.flt.seen.contains (9, 4) = false ∧ svc.flt.standIn = []) ∧
    (∃ s : State, s.flt.holds.find? (·.1 == 9) = some (9, 50) ∧ s.flt.drillVotes = []) ∧
    (∃ s : State, 3 ≤ (votersOf s (ownFdn s)).length) ∧ allowed svc .jtag none [.f] = true ∧
    (∃ s : State, s.flt.state = .joining ∧ s.flt.rejoining = false) :=
  ⟨by decide +kernel, by decide, ⟨{ flt := { holds := [(9, 50)] } }, by decide⟩,
    ⟨{ flt := { voters := [(ownFdn {}, [1, 2, 3])] } }, by decide +kernel⟩, by decide, ⟨{ flt := { state := .joining } }, rfl, rfl⟩⟩

theorem witness_AdoptionAndMembers :
    (∃ s : State, s.flt.state = .spare ∧ s.flt.adopting = none) ∧ (∃ s : State, s.flt.state ≠ .spare) ∧
    (∃ (x : StandIn) (s : State), s.flt.standIn.find? (fun x => x.subject == 9 && x.asked == some 7) = some x) ∧
    (∃ s : State, s.flt.state = .adopting) ∧ svc.flt.seen.contains (9, 4) = false ∧
    (∃ (x : StandIn) (s : State), s.flt.standIn.find? (fun x => x.subject == 9 && x.asked.isNone && !x.started) = some x) ∧
    (∃ (w : ReturnWait) (s : State), s.flt.waits.find? (·.subject == 9) = some w) ∧
    (∃ (x : Held) (s : State), let mu : BitVec 48 := 0x900000005
      s.flash.held.find? (fun x => !x.isCopy && x.home == mu.extractLsb' 32 16 && decide (x.mu = mu.toNat % 2 ^ 32) && decide (x.member < 8)) = some x) ∧
    (∃ s : State, let mu : BitVec 48 := 0x900000005
      s.flt.adopted = some (mu.extractLsb' 32 16) ∧ (mapOf s (mu.toNat % 2 ^ 32)).mapped = false) ∧
    (∃ s : State, (mapOf s 0).mapped = true ∧ residentFrames s 0 ≠ []) :=
  ⟨⟨{ flt := { state := .spare } }, rfl, rfl⟩, ⟨store, by decide⟩,
    ⟨{ subject := 9, asked := some 7 }, { flt := { standIn := [{ subject := 9, asked := some 7 }] } }, by decide⟩,
    ⟨{ flt := { state := .adopting } }, rfl⟩, by decide, ⟨{ subject := 9 }, { flt := { standIn := [{ subject := 9 }] } }, by decide⟩,
    ⟨{ subject := 9 }, { flt := { waits := [{ subject := 9 }] } }, by decide⟩,
    ⟨{ home := 9, mu := 5 }, { flash := { held := [{ home := 9, mu := 5 }] } }, by decide +kernel⟩,
    ⟨{ flt := { adopted := some 9 } }, by decide +kernel⟩,
    ⟨{ held with flash := { map := [(0, { mapped := true })] } }, by decide +kernel⟩⟩

theorem witness_HandoffLedger :
    (∃ (e : LedgerEnt) (s : State), handOf s e = none ∧ now s + 1000 < e.expiry ∧ e.phase = .offered ∧ e.kind ≠ .copy ∧ slotOk s .control = true) ∧
    (∃ (e : LedgerEnt) (x : Handoff) (s : State), handOf s e = some x ∧ x.mine = true ∧ x.e.phase = .offered) ∧
    (∃ (x : Handoff) (s : State), s.flt.handoffs.find? (fun h => h.mine && h.e.seq == 6 && h.e.phase == .offered) = some x ∧ x.e.kind ≠ .foster) ∧
    (∃ (x : Handoff) (s : State), s.flt.handoffs.find? (fun h => h.e.fromFdn == 9 && h.e.seq == 6 && h.e.phase == .offered) = some x ∧
      (x.mine = true ∨ isFenced s x.e.fromFdn = false)) ∧
    (let s := reg (Off.flt + 0x58) 2 (reg (Off.flt + 0x60) 4 (stages [(Off.flt + 0x38, 0x0100000000001000), (Off.flt + 0x40, 100)]))
     let d := drillOfWords (staged s .jtag (Off.flt + 0x38)) (staged s .jtag (Off.flt + 0x40))
     Ready s .jtag none [.f] drillDone ∧ drillDenied (accepted drillDone s) d = false ∧ drillBusy (accepted drillDone s) = false ∧ d.length ≤ 10000000) ∧
    (∃ (d : Drill) (s : State), s.flt.drill = some d ∧ d.running = false ∧ d.target = servedFdn s) ∧
    (∃ (d : Drill) (s : State), s.flt.drill = some d ∧ d.running = true) := by
  refine ⟨⟨{ kind := .transplant, expiry := 100000 }, svc, ?_⟩, ⟨{}, { e := {} }, { flt := { handoffs := [{ e := {} }] } }, ?_⟩,
    ⟨{ e := { seq := 6 } }, { flt := { handoffs := [{ e := { seq := 6 } }] } }, ?_⟩,
    ⟨{ e := { seq := 6, fromFdn := 9 } }, { flt := { handoffs := [{ e := { seq := 6, fromFdn := 9 } }] } }, ?_⟩, ⟨⟨?_, ?_⟩, ?_, ?_, ?_⟩,
    ⟨{ target := servedFdn {} }, { flt := { drill := some { target := servedFdn {} } } }, rfl, rfl, ?_⟩,
    ⟨{ running := true }, { flt := { drill := some { running := true } } }, rfl, rfl⟩⟩ <;> decide +kernel

/-- An unlock token for every scope, made with key 1, whose public point is the base point, and the nonce 1 (FIPS 186-5). -/
def token : List Word :=
    [
     0x1000700000002, 0x0, 0x0, 0x3e8, 0x37058bbe22ca87aa, 0x74ad20f31ec7b18e,
     0x989ba78b623b1d6e, 0x382a5482e041f759, 0x6c2955bf5df20255, 0xb70a7672385e543a, 0x6f2c26964ade1736, 0x29dc9292bf989e5d,
     0x7c149a28bd1df4f8, 0xc0b8f0b51331dae9, 0x9d817e1dceb1600a, 0x5f0eea907c1d437a, 0x37058bbe22ca87aa, 0x74ad20f31ec7b18e,
     0x989ba78b623b1d6e, 0x382a5482e041f759, 0x6c2955bf5df20255, 0xb70a7672385e543a, 0xac115b1e945a0069, 0xc7b11d15f0dfb71e,
     0x683b8f3bfbc06ee4, 0x8537bf4799016073, 0xbbfa0f4887af72fe, 0x490f807d6a9df772]

/-- A PRODUCTION part that holds `token`; the digest of key slot 2 is the SHA-384 of its public key. -/
def unlocking : State := { (token.zipIdx.foldl (fun s x => reg (Off.trl + 0x100 + 8 * x.2) x.1 s) svc) with
  cfg := { fuses := { serial := 0, digests := [0, 0, 0xa19d4db171b582eb8052b0cfe555e17894aa22d1c8a9770950697dd8f796d2fa4bf0a56ad80006b7ea08e1191f814b65, 0] } } }

theorem witness_ResetsAndBringUp :
    (∃ s : State, s.sys.phase = .inReset ∧ s.sys.kind ≠ .pin) ∧ (allowed svc .jtag none [.f] = true ∧ bitOf (1 : Word) 0 = true) ∧
    (∃ s : State, s.sys.phase = .departing ∧ s.sys.stage = 0) ∧
    (Ready svc .jtag none [.f, .m] (Off.rst + 0x20) ∧ blockIdle (accepted (Off.rst + 0x20) svc) (4 : BitVec 8).toNat (3 : BitVec 8).toNat = some true) ∧
    (∃ s : State, s.sys.phase ≠ .bringUp) ∧ (∃ s : State, stepNo (.image true) ≠ s.sys.step + 1) ∧
    (∃ s : State, s.sys.phase = .bringUp ∧ stepNo (.image true) = s.sys.step + 1) ∧
    (∃ s : State, s.sys.phase = .bringUp ∧ s.sys.step = 9 ∧ s.coh.tabled = false ∧ s.coh.fence = none) :=
  ⟨⟨{ sys := { phase := .inReset, kind := .fabric } }, by decide⟩, by decide, ⟨{ sys := { phase := .departing } }, by decide⟩,
    ⟨⟨by decide, by decide⟩, by decide⟩, ⟨svc, by decide⟩, ⟨svc, by decide⟩, ⟨{ sys := { phase := .bringUp, step := 3 } }, by decide⟩,
    ⟨{ sys := { phase := .bringUp, step := 9 }, coh := { tabled := false } }, by decide⟩⟩

theorem witness_NorAndFuses :
    (norAllowed svc .jtag = true ∧ svc.cfg.norBusy = none ∧ norAddr svc < 0x3F00000) ∧
    (let s := reg (Off.cfg + 8) 0x10000 svc; norAllowed s .jtag = true ∧ s.cfg.norBusy = none ∧ norAddr s < 0x3F00000 ∧ 0x10000 ≤ norAddr s) ∧
    (∃ s : State, s.cfg.norBusy = some (2, 0x10000)) ∧
    (allowed svc .jtag none [.f] = true ∧ svc.sys.phase = .service ∧ fld (3 : Word) 1 0 ≠ svc.cfg.keySlot) :=
  ⟨by decide +kernel, by decide +kernel, ⟨{ cfg := { norBusy := some (2, 0x10000) } }, rfl⟩, by decide +kernel⟩

theorem witness_PowerAndBoard :
    (let mv := 615 + 5 * svc.sys.vstep; mv ≤ 600 + 5 * svc.sys.vstep + 15 ∧ 600 + 5 * svc.sys.vstep ≤ mv + 15) ∧ svc.sys.avsMiss ≠ 2 ∧
    (let s := reg (Off.rst + 0x30) (put 60 1) svc
     s.sys.phase = .service ∧ s.sys.power = .active ∧ s.sys.stage = 0 ∧ bitOf (regGet s (Off.rst + 0x30)) 60 = true ∧ s.nmc.jobs = [] ∧
     s.nmc.fwdIn = [] ∧ sqOpen s = false) ∧
    (pwrAllowed svc .jtag = true ∧ svc.sys.power ≠ .fallow ∧ fallowBusy svc = false) ∧
    (∃ s : State, pwrAllowed s .jtag = true ∧ s.sys.power = .fallow) ∧
    (∀ g : Fin 3, svc.sys.heat.getD g.val 0 ≠ 3 ∧ svc.sys.heat.length = 3 ∧
      (let p := (thermPoints svc).getD g.val (0, 0, 0); p.2.2 ≤ 115 ∧ p.1 ≤ p.2.1 ∧ p.2.1 ≤ p.2.2 ∧ 20 < p.1)) ∧
    svc.pins.smbSwapped = none := by
  refine ⟨by decide, by decide, by decide +kernel, by decide +kernel, ⟨{ svc with sys := { svc.sys with power := .fallow } }, by decide +kernel⟩,
    by decide +kernel, rfl⟩

theorem witness_RegisterAccesses :
    (∃ (off : BitVec 25) (r : RegRow), regRow off.toNat = some r ∧ r.ty = .rc) ∧
    (let s := reg (Off.pair 5 + 0x10) 16 store; let q : QueueId := .sq 5
     queueAllows s (.bar0 3) q = true ∧ qValid (qBase s q) = false ∧ ringOk s q (winIid s 3) (qOff (put 63 1)) = true) ∧
    (let s := queued 5 4; let q : QueueId := .cq 5
     queueAllows s (.bar0 3) q = true ∧ qValid (qBase s q) = true ∧ queueBusy s q = false ∧ fld (0 : Word) 16 0 < 16 ∧
     ringDist 16 (qHead s q) (fld (0 : Word) 16 0) ≤ ringDist 16 (qHead s q) (qTail s q)) ∧
    (let r : Req := { gsa := BitVec.ofNat 64 (Off.xlt + 0x100 + 1) }
     admitting svc = true ∧ fld r.gsa 2 1 = 0 ∧ fld r.gsa 47 25 = 0 ∧ r.plen = 0 ∧ r.aop = 0 ∧ r.width = 0 ∧ r.post = false ∧ r.rsvd = false ∧
     bitOf r.gsa 0 = true ∧ (regWrite (.control r.iid false) (fld r.gsa 24 3 * 8) r.arg svc).1 = none) ∧
    (∃ (r : RegRow), regRow (Off.rst + 0x60) = some r ∧ allowed svc .mctp (instOwner svc (Off.rst + 0x60)) [.w] = false) ∧
    (∃ (off : Nat) (v : Word), allowed svc .jtag (instOwner svc off) [.f] = true ∧
      (refusesValue svc off v || doubleAgent svc off v || sweepingAgent svc off) = true) ∧
    (∃ (off : Nat) (v : Word), allowed svc .jtag (instOwner svc off) [.f] = true ∧
      (refusesValue svc off v || doubleAgent svc off v || sweepingAgent svc off) = false ∧ isAgentOff off = false ∧
      setsImageBit off (regGet svc off) v = false) ∧
    (svc.regs.vals.map (·.1)).Pairwise (· < ·) := by
  refine ⟨⟨BitVec.ofNat 25 (Off.gln + 0x210), _, rfl, ?_⟩, ?_, ?_, ?_, ⟨_, rfl, ?_⟩, ⟨Off.nmc + 0x10030, 0xFFFFFFFFFFFF, ?_⟩, ⟨Off.nmc + 0x10030, 256, ?_⟩, ?_⟩ <;>
    decide +kernel

set_option maxRecDepth 100000 in
theorem unlocking_ok : unlockStatus unlocking = .ok := by decide +kernel

theorem witness_TelemetryAndTrellis :
    (allowed svc .jtag none [.a, .f, .c] = true ∧ svc.tel.busy = false) ∧ (∃ s : State, s.tel.busy = true) ∧
    (lifecycle unlocking ≠ 2 ∧ allowed unlocking .jtag none [.f, .m] = true ∧ unlocking.trl.fails < 8 ∧ unlockStatus unlocking = .ok) ∧
    unlockStatus svc ≠ .ok ∧ bitOf (1 : Word) 0 = true ∧ bitOf (5 : Word) 63 = false ∧
    (∃ s : State, lifecycle s ≠ 2 ∧ scopeOpen s 0 = true ∧ scopeOpen s 1 = true ∧ scopeOpen s 2 = true ∧ s.sys.resetN = false ∧ s.trl.scopes ≠ 0) ∧
    (∃ s : State, lifecycle s = 2) :=
  ⟨by decide, ⟨{ tel := { busy := true } }, rfl⟩, ⟨by decide +kernel, by decide +kernel, by decide +kernel, unlocking_ok⟩, by decide +kernel, by decide,
    by decide, ⟨{ trl := { scopes := 7 }, sys := { resetN := false } }, by decide +kernel⟩, ⟨{ cfg := { fuses := { lifecycle := 2 } } }, by decide +kernel⟩⟩

theorem test_wf_request_short_payload : (Instr.store { plen := 128, payload := [0] }).wf = false := by decide
theorem test_wf_request_whole_payload : (Instr.load {}).wf = true := by decide
theorem test_wf_unit_short : (Instr.fillComplete default (.fetched [(0, [0])])).wf = false := by decide
theorem test_wf_member_number : (Instr.fillComplete default (.fetched [(10, [])])).wf = false := by decide
theorem test_wf_member_unit_short : (Instr.stripeMemberReceive default default default default [0]).wf = false := by decide
theorem test_wf_buddy_unit_short : (Instr.buddyCopyReceive default default [0]).wf = false := by decide
theorem test_wf_record_with_sectors : (Instr.mirrorReceive default { body := .pad, sectors := 1 }).wf = false := by decide
theorem test_wf_control_record_with_sectors :
    (Instr.controlMirrorReceive default (.record { body := .pad, sectors := 1 })).wf = false := by decide
theorem test_wf_copy_line_length : (Instr.copyLineAnswer 0 0 .src .ok 0 [0]).wf = false := by decide
theorem test_wf_mirror_fetch_range : (Instr.mirrorFetch default 2 1).wf = false := by decide
theorem test_wf_descriptor_length : (Instr.jobForward default default default [0]).wf = false := by decide
theorem test_wf_runtime_image_empty : (Instr.nmcRsInstall .jtag 0 (some [])).wf = false := by decide
theorem test_wf_decoder_ways : (Instr.hdmDecoderCommit default default { ways := 0 }).wf = false := by decide
theorem test_wf_host_link_width : (Instr.hostLinkUp default default { width := 17 }).wf = false := by decide
theorem test_wf_lane_order_twice : (Instr.linkTrained default { order := [1, 1] }).wf = false := by decide
theorem test_wf_fec_more_failed : (Instr.fecEvaluate default { flits := 1, failed := 2 }).wf = false := by decide
theorem test_wf_join_peers : (Instr.join {} (List.replicate 25 default) default).wf = false := by decide
theorem test_wf_join_answer_cell : (Instr.joinAns {} default default (List.replicate 17 default) default).wf = false := by decide
theorem test_wf_offer_line : (Instr.offer {} {} { lines := [(2 ^ 41, default)] }).wf = false := by decide
theorem test_wf_register_size : (Instr.registerWrite .jtag default 0 default).wf = false := by decide

end Sys2Proof.Tests
end

section
/-! What a write and a read of a register of the control space do (R6, R7, R473-R480), and the serial-number order of counters
(R8). -/

namespace Sys2Proof.Machine

open Sys2Proof

/-- The state a command answers may be written as any state equal to its effect. -/
theorem exec_eq_of_does {c : Instr} {s t u : State} (h : Does c s u) (e : u = t) : exec c s = .next { t with pending := s.pending } :=
  e ▸ h

/-! ### Serial numbers (R8) -/

/-- The model's difference of two counters of `w` bits is the subtraction of bit vectors. -/
theorem seqLt_toNat (w : Nat) (a b : BitVec w) :
    seqLt w a.toNat b.toNat = decide ((b - a).toNat ≠ 0 ∧ (b - a).toNat < 2 ^ (w - 1)) := by
  have hd : (b.toNat + (2 ^ w - a.toNat % 2 ^ w)) % 2 ^ w = (b - a).toNat := by
    rw [BitVec.toNat_sub, Nat.mod_eq_of_lt a.isLt, Nat.add_comm]
  simp only [seqLt, hd]

/-- Settles O8: the difference of two counters is that of bit vectors. -/
theorem serialNumberOrder : Obligations.SerialNumberOrder := seqLt_toNat

/-! ### Tables whose keys rise, whatever their default

Every register has its own default, and so the stored values have no canonical form for one default (`Tab.wf`): only their keys
rise. -/

section Tables

variable {α : Type}

/-- A table reads its default at a key that it does not list. -/
theorem Tab.get_of_unlisted (d : α) (k : Nat) (t : List (Nat × α)) (h : ∀ j ∈ t.map (·.1), j ≠ k) : Tab.get d t k = d := by
  induction t with
  | nil => rfl
  | cons e t ih =>
    rw [List.map_cons, List.forall_mem_cons] at h
    rw [Tab.get, if_neg h.1, ih h.2]

variable [DecidableEq α]

/-- A write leaves what every other key reads, under any default. -/
theorem Tab.get_put_ne (d d' : α) (k j : Nat) (v : α) (t : List (Nat × α)) (h : j ≠ k) :
    Tab.get d' (Tab.put d k v t) j = Tab.get d' t j := by
  induction t with
  | nil =>
    rw [Tab.put]
    split
    · rfl
    · simp [Tab.get, h.symm]
  | cons e t ih =>
    rw [Tab.put]
    split
    · rw [Tab.get, Tab.get, ih]
    · split
      · next he =>
        have hj : e.1 ≠ j := he ▸ h.symm
        split
        · rw [Tab.get, if_neg hj]
        · rw [Tab.get, Tab.get, if_neg hj, if_neg h.symm]
      · split
        · rfl
        · rw [Tab.get, if_neg h.symm]

/-- A key reads what is written, in a table of rising keys. -/
theorem Tab.get_put_self (d : α) (k : Nat) (v : α) (t : List (Nat × α)) (h : (t.map (·.1)).Pairwise (· < ·)) :
    Tab.get d (Tab.put d k v t) k = v := by
  induction t with
  | nil =>
    rw [Tab.put]
    split
    · next hv => exact hv.symm
    · rw [Tab.get, if_pos rfl]
  | cons e t ih =>
    obtain ⟨hlow, hrest⟩ := List.pairwise_cons.mp h
    rw [Tab.put]
    split
    · next hlt => rw [Tab.get, if_neg hlt.ne, ih hrest]
    · next hle =>
      have hunl : ∀ j ∈ t.map (·.1), j ≠ k := fun j hj hjk => hle (hjk ▸ hlow j hj)
      split
      · next he =>
        split
        · next hv => rw [Tab.get_of_unlisted d k t hunl, hv]
        · rw [Tab.get, if_pos rfl]
      · next hne =>
        split
        · next hv => rw [Tab.get, if_neg hne, Tab.get_of_unlisted d k t hunl, hv]
        · rw [Tab.get, if_pos rfl]

end Tables

/-! ### One register (R6, R7) -/

section Register

variable {wr : Writer} {r : RegRow} {off : Nat} {v : Word} {s : State}

/-- A register keeps what is written into it. -/
theorem regGet_regSet_self (h : (s.regs.vals.map (·.1)).Pairwise (· < ·)) : regGet (regSet off v s) off = v :=
  Tab.get_put_self _ off v _ h

/-- A write of one register leaves every other. -/
theorem regGet_regSet_ne {o : Nat} (h : o ≠ off) : regGet (regSet off v s) o = regGet s o :=
  Tab.get_put_ne _ _ off o v _ h

/-- A write of a register changes nothing but the registers. -/
theorem regSet_frame : regSet off v s = { s with regs := (regSet off v s).regs } := rfl

/-- A writer whose class the register does not name changes nothing but the record (R476). -/
theorem plainWrite_denied (h : allowed s wr (instOwner s off) r.cls = false) :
    plainWrite wr r off v s = (some .denied, rejected off s) := by
  simp [plainWrite, h]

/-- A value that the register may not take is ignored and recorded (R6). -/
theorem plainWrite_rejected (h : allowed s wr (instOwner s off) r.cls = true)
    (hv : (refusesValue s off v || doubleAgent s off v || sweepingAgent s off) = true) :
    plainWrite wr r off v s = (none, rejected off s) := by
  simp [plainWrite, h, hv]

/-- A good write of a register that is no agent slot changes the bits that the writer's class may change (R6, R7). -/
theorem plainWrite_accepted (h : allowed s wr (instOwner s off) r.cls = true)
    (hv : (refusesValue s off v || doubleAgent s off v || sweepingAgent s off) = false)
    (ha : isAgentOff off = false) (hi : setsImageBit off (regGet s off) v = false) :
    plainWrite wr r off v s = (none, regSet off (written (regGet s off) off
      ((regGet s off &&& ~~~(mayChange s wr (instOwner s off) off)) ||| (v &&& mayChange s wr (instOwner s off) off))) s) := by
  simp [plainWrite, h, hv, ha, hi]

/-- A read through a window of a counter that reading clears leaves it 0 (R7). -/
theorem readClear_bar0_rc {win : Fin 64} (hr : regRow off = some r) (hty : r.ty = .rc) :
    readClear (.bar0 win) off s = (regRead s (.bar0 win) off, regSet off 0 s) := by
  simp [readClear, hr, hty]

/-! ### Accesses through BAR0 (R475) -/

/-- A write of all eight bytes of a register writes it. -/
theorem writeSized_whole (h : off % 8 = 0) : writeSized wr off 8 v s = (regWrite wr off v s).2 := by
  simp [writeSized, h]

/-- A write of any other size is ignored and recorded. -/
theorem writeSized_narrow {size : Nat} (h : size ≠ 8) : writeSized wr off size v s = rejected (off / 8 * 8) s := by
  simp [writeSized, h]

end Register

/-! ### Queue registers (R479, R480) -/

section Queue

variable {wr : Writer} {w : Fin 64} {q : QueueId} {v : Word} {s : State}

/-- A window claims an unclaimed queue whose ring is good: the ring starts empty. -/
theorem baseWrite_claim (ha : queueAllows s (.bar0 w) q = true) (hold : qValid (qBase s q) = false) (hnew : bitOf v 63 = true)
    (hring : ringOk s q (winIid s w) (qOff v) = true) :
    baseWrite (.bar0 w) q v s = (none, startRing q (winIid s w) (regSet (qBaseOff q) (baseWord q true w.val v) s)) := by
  simp [baseWrite, writerWin, ha, hold, hnew, hring]

/-- A window releases its queue when nothing needs it. -/
theorem baseWrite_release (ha : queueAllows s (.bar0 w) q = true) (hold : qValid (qBase s q) = true) (hnew : bitOf v 63 = false)
    (hidle : queueBusy s q = false) :
    baseWrite (.bar0 w) q v s = (none, regSet (qBaseOff q) (baseWord q false 0 v) s) := by
  simp [baseWrite, writerWin, ha, hold, hnew, hidle]

/-- The head of a completion queue moves to a place between the old head and the tail. -/
theorem headWrite_cq {n : Fin 256} (ha : queueAllows s wr (.cq n) = true) (hsize : fld v 16 0 < qSize s (.cq n))
    (hdist : ringDist (qSize s (.cq n)) (qHead s (.cq n)) (fld v 16 0) ≤
      ringDist (qSize s (.cq n)) (qHead s (.cq n)) (qTail s (.cq n))) :
    headWrite wr (.cq n) v s = (none, pumpFq (regSet (qHeadOff (.cq n)) (BitVec.ofNat 64 (fld v 16 0)) s)) := by
  have hgood : ¬(qSize s (.cq n) ≤ fld v 16 0 ∨ ringDist (qSize s (.cq n)) (qHead s (.cq n)) (qTail s (.cq n)) <
      ringDist (qSize s (.cq n)) (qHead s (.cq n)) (fld v 16 0)) := by omega
  simp [headWrite, ha, hgood]

end Queue

/-! ### CONTROL requests (R474) -/

/-- The form of a CONTROL request: an aligned offset of the control space, and none of the fields that other requests use. -/
structure IsControl (r : Req) : Prop where
  aligned : fld r.gsa 2 1 = 0
  inSpace : fld r.gsa 47 25 = 0
  noPayload : r.plen = 0
  noAop : r.aop = 0
  noWidth : r.width = 0
  notPosted : r.post = false
  noReserved : r.rsvd = false

section Control

variable {r : Req} {s : State}

/-- A CONTROL read answers the register's value. -/
theorem control_read (hadm : admitting s = true) (hr : IsControl r) (hread : bitOf r.gsa 0 = false) :
    let access := readClear (.control r.iid false) (fld r.gsa 24 3 * 8) s
    control r false s = answer r .ok 0 (bytesOfWord access.1) access.2 := by
  obtain ⟨h1, h2, h3, h4, h5, h6, h7⟩ := hr
  simp [control, hadm, h1, h2, h3, h4, h5, h6, h7, hread]

/-- A CONTROL write that is not refused answers the register's new value. -/
theorem control_write (hadm : admitting s = true) (hr : IsControl r) (hwrite : bitOf r.gsa 0 = true)
    (hdone : (regWrite (.control r.iid false) (fld r.gsa 24 3 * 8) r.arg s).1 = none) :
    let wr : Writer := .control r.iid false
    let off := fld r.gsa 24 3 * 8
    control r false s =
      answer r .ok 0 (bytesOfWord (regRead (regWrite wr off r.arg s).2 wr off)) (regWrite wr off r.arg s).2 := by
  obtain ⟨h1, h2, h3, h4, h5, h6, h7⟩ := hr
  simp [control, hadm, h1, h2, h3, h4, h5, h6, h7, hwrite, hdone]

end Control

/-- Settles O59, by the rule of each access: the commands (BAR0, counters, queues, CONTROL), a plain register, the stored values. -/
theorem registerAccesses : Obligations.RegisterAccesses := by
  refine ⟨⟨?bar0, ?counter, ?claim, ?release, ?head, ?control⟩, ?plain, ?stored⟩
  case bar0 =>
    intro wr off size v s
    have hdo := does_registerWrite wr off size v s
    constructor
    · rintro rfl halign
      exact exec_eq_of_does hdo (writeSized_whole halign)
    · intro hsize
      exact exec_eq_of_does hdo (writeSized_narrow fun h => hsize (BitVec.eq_of_toNat_eq h))
  case counter =>
    intro win off r s hr hty
    exact exec_eq_of_does (does_rcRead win off s) (by simp only [readClear_bar0_rc hr hty])
  case claim =>
    intro w q v s ha hold hnew hring
    exact exec_eq_of_does (does_queueBaseWrite (.bar0 w) q v s) (congrArg Prod.snd (baseWrite_claim ha hold hnew hring))
  case release =>
    intro w q v s ha hold hnew hidle
    exact exec_eq_of_does (does_queueBaseWrite (.bar0 w) q v s) (congrArg Prod.snd (baseWrite_release ha hold hnew hidle))
  case head =>
    intro wr n v s q ha hsize hdist
    exact exec_eq_of_does (does_queueHeadWrite wr q v s) (congrArg Prod.snd (headWrite_cq ha hsize hdist))
  case control =>
    intro r s hadm h1 h2 h3 h4 h5 h6 h7 wr off
    have hr : IsControl r := ⟨h1, h2, h3, h4, h5, h6, h7⟩
    have hdo := does_control r false s
    exact ⟨fun hread => exec_eq_of_does hdo (control_read hadm hr hread),
      fun hwrite hdone => exec_eq_of_does hdo (control_write hadm hr hwrite hdone)⟩
  case plain =>
    exact fun wr r off v s => ⟨plainWrite_denied, plainWrite_rejected, plainWrite_accepted⟩
  case stored =>
    exact fun off v s hkeys => ⟨regGet_regSet_self hkeys, fun o ho => regGet_regSet_ne ho, regSet_frame⟩

end Sys2Proof.Machine
end

section
/-! The store's address spaces: the slice of a line and the rights of an IID (R17, R19, R39), what flash keeps through its upkeep (R33,
R47, R52, R54), the extent commands (Table 02-8), and the requests that reach a home and a host port (R26, R107, R340-R343). -/

namespace Sys2Proof.Machine

open Sys2Proof

/-- The state a command answers is its effect, where that leaves the waiting commands. -/
theorem Does.exec_eq_next {c : Instr} {s t : State} (h : Does c s t) (hp : t.pending = s.pending) : exec c s = .next t := by
  rw [h.next, ← hp]

/-! ### The slice of a line and the set of a frame (R17, R39) -/

/-- A field of a word, cut out of its number. -/
theorem toNat_extractLsb'_div (g : Word) (lo n : Nat) : (g.extractLsb' lo n).toNat = g.toNat / 2 ^ lo % 2 ^ n := by
  rw [BitVec.extractLsb'_toNat, Nat.shiftRight_eq_div_pow]

/-- The slice of a GSA is the exclusive or of its three fields of five bits. -/
theorem sliceOf_toNat (g : Word) : sliceOf g.toNat = (g.extractLsb' 7 5 ^^^ g.extractLsb' 12 5 ^^^ g.extractLsb' 17 5).toNat := by
  simp only [BitVec.toNat_xor, toNat_extractLsb'_div]
  rfl

/-- The tier cache has at least one set. -/
theorem nsets_pos (s : State) : 0 < nsets s := Nat.le_max_left 1 _

/-- The set of a frame folds its number onto itself. -/
theorem setOf_eq_xor (s : State) (f : Nat) : setOf s f = (f ^^^ (f >>> 20)) % nsets s := by
  rw [Nat.shiftRight_eq_div_pow]
  rfl

/-- Settles O9: the fields of the number are those of the word, and a remainder is below its divisor. -/
theorem sliceAndSet : Obligations.SliceAndSet :=
  ⟨sliceOf_toNat, fun s f => ⟨setOf_eq_xor s f, Nat.mod_lt _ (nsets_pos s)⟩⟩

/-! ### The rights of an IID (R19) -/

/-- The rights held so far, with those of one more range. -/
def Rights.join (a : Rights) (r : Range) : Rights :=
  { rd := a.rd || r.rd, wr := a.wr || r.wr, atom := a.atom || r.atom, own := a.own || r.own }

/-- The rights of an IID join those of every range that holds it. -/
theorem rightsOf_eq_foldl_join (d : ExtDesc) (iid : BitVec 16) :
    rightsOf d iid = (d.ranges.filter (Range.has · iid)).foldl Rights.join {} := rfl

/-- A right that a join takes from either side is given by the joined ranges exactly where one of them gives it. -/
theorem foldl_join_gives (right : Rights → Bool) (gives : Range → Bool)
    (hjoin : ∀ a r, right (a.join r) = (right a || gives r)) (rs : List Range) (a : Rights) :
    right (rs.foldl Rights.join a) = true ↔ right a = true ∨ ∃ r ∈ rs, gives r = true := by
  induction rs generalizing a with
  | nil => simp
  | cons r rs ih => simp [ih, hjoin, or_assoc]

/-- The ranges that hold an IID are the valid ones whose bounds it lies between. -/
theorem mem_filter_has (d : ExtDesc) (iid : BitVec 16) (r : Range) :
    r ∈ d.ranges.filter (Range.has · iid) ↔ r ∈ d.ranges ∧ r.valid = true ∧ r.lo.toNat ≤ iid.toNat ∧ iid.toNat ≤ r.hi.toNat := by
  simp [Range.has, and_assoc]

/-- An IID has a right exactly where a valid range that holds it gives the right. -/
theorem rightsOf_gives (right : Rights → Bool) (gives : Range → Bool) (hnone : right {} = false)
    (hjoin : ∀ a r, right (a.join r) = (right a || gives r)) (d : ExtDesc) (iid : BitVec 16) :
    right (rightsOf d iid) = true ↔
      ∃ r, (r ∈ d.ranges ∧ r.valid = true ∧ r.lo.toNat ≤ iid.toNat ∧ iid.toNat ≤ r.hi.toNat) ∧ gives r = true := by
  simp only [rightsOf_eq_foldl_join, foldl_join_gives right gives hjoin, hnone, mem_filter_has, Bool.false_eq_true, false_or]

/-- Settles O10: each of the four rights is one that the join of ranges takes from either side. -/
theorem rightsAreUnion : Obligations.RightsAreUnion := fun d iid =>
  ⟨rightsOf_gives Rights.rd Range.rd rfl (fun _ _ => rfl) d iid, rightsOf_gives Rights.wr Range.wr rfl (fun _ _ => rfl) d iid,
    rightsOf_gives Rights.atom Range.atom rfl (fun _ _ => rfl) d iid, rightsOf_gives Rights.own Range.own rfl (fun _ _ => rfl) d iid⟩

/-! ### Requests at their slice (R107) -/

section Arrival

variable {k : ReqKind} {r : Req} {s : State}

/-- A place in an answer reserve costs nothing of the registers. -/
@[simp] theorem reserveAnswer_regs : (reserveAnswer r s).regs = s.regs := by
  unfold reserveAnswer
  split <;> rfl

/-- A request whose bucket does not limit it goes on. -/
theorem charge_unlimited {p : PReq} {go : State → State} (h : bktEnabled s (bucketOf s p.r.iid) = false) : charge p go s = go s := by
  simp [charge, h]

/-- The buckets' settings and the ranges that name them stand in the registers. -/
theorem bktEnabled_bucketOf_congr {t : State} (h : t.regs = s.regs) (iid : BitVec 16) :
    bktEnabled t (bucketOf t iid) = bktEnabled s (bucketOf s iid) := by
  have hget : regGet t = regGet s := by
    funext off
    simp only [regGet, h]
  simp only [bktEnabled, bucketOf, hget]

/-- The request as it is held at its slice from its arrival. -/
def arrivingReq (k : ReqKind) (r : Req) (s : State) : PReq :=
  { n := s.home.nextReq, a := addr s r.gsa, kind := k, r := r, arrived := now s, deadline := now s + deadlineNs s }

/-- The request has the next place in its slice's order, and its answer has one in the reserve. -/
def placeReq (k : ReqKind) (r : Req) (s : State) : State :=
  reserveAnswer r (s.modHome fun h => { h with waiting := h.waiting ++ [arrivingReq k r s], nextReq := h.nextReq + 1 })

/-- A request at an admitting slice with room takes its place and is charged to its bucket. -/
theorem arrive_eq_charge (hlive : (s.home.deadSlices.any fun d => d.val == sliceOf (addr s r.gsa)) = false)
    (hadm : admitting s = true) (hroom : ingressFull s (arrivingReq k r s) = false) :
    arrive k r s = charge (arrivingReq k r s) (fun u => pump (enterSlice (arrivingReq k r s) u)) (placeReq k r s) := by
  rw [arrivingReq] at hroom
  simp only [arrive, hlive, hadm, hroom, Bool.not_true, Bool.false_eq_true, if_false]
  rfl

/-- Such a request that its bucket does not limit enters its slice. -/
theorem arrive_eq_enterSlice (hlive : (s.home.deadSlices.any fun d => d.val == sliceOf (addr s r.gsa)) = false)
    (hadm : admitting s = true) (hroom : ingressFull s (arrivingReq k r s) = false) (hbkt : bktEnabled s (bucketOf s r.iid) = false) :
    arrive k r s = pump (enterSlice (arrivingReq k r s) (placeReq k r s)) := by
  have hregs : (placeReq k r s).regs = s.regs := reserveAnswer_regs
  have hfree : bktEnabled (placeReq k r s) (bucketOf (placeReq k r s) (arrivingReq k r s).r.iid) = false :=
    (bktEnabled_bucketOf_congr hregs r.iid).trans hbkt
  rw [arrive_eq_charge hlive hadm hroom, charge_unlimited hfree]

end Arrival

/-- Settles O19: every command that names a request of Table 05-2 is its arrival. -/
theorem requestsEnterTheirSlice : Obligations.RequestsEnterTheirSlice := by
  intro k r s hlive hadm hbkt p hroom t c hc
  have hdoes : Does c s (arrive k r s) := by
    cases k with
    | barrier | advance => exact absurd hc List.not_mem_nil
    | load | store | storePart | codedWrite | atomic | wait | acquire | release | publish | readVersion =>
      obtain rfl := List.mem_singleton.mp hc
      rfl
  have harrive : arrive k r s = t := arrive_eq_enterSlice hlive hadm hroom hbkt
  exact exec_eq_of_does hdoes harrive

/-! ### The keys that a device holds for another (R33, R57) -/

section KeyDestroy

variable (home : BitVec 16) (ext : Nat) (s : State)

/-- A record carries the key of extent `ext` of `home`. -/
def isKeyOf (r : JRec) : Bool :=
  (match r.body with | .key _ => true | _ => false) && decide (fdnOf r.gsa = home) && decide (extNo r.gsa = ext)

theorem isKeyOf_iff (r : JRec) :
    isKeyOf home ext r = true ↔ (∃ k, r.body = .key k) ∧ fdnOf r.gsa = home ∧ extNo r.gsa = ext := by
  cases hb : r.body <;> simp [isKeyOf, hb]

/-- Of the journal, only the records that carry the key go. -/
theorem dropKeyOf_jrn : (dropKeyOf home ext s).jrn = { s.jrn with
    ring := s.jrn.ring.filter fun x => !isKeyOf home ext x.rc
    live := s.jrn.live.filter fun x => !isKeyOf home ext x.2
    mirrors := s.jrn.mirrors.filter fun m => !isKeyOf home ext m.rc } := rfl

/-- Of the flash side, only the wrapped key goes, from the key store and from the folded tables. -/
theorem dropKeyOf_flash : (dropKeyOf home ext s).flash = { s.flash with
    wrapped := s.flash.wrapped.filter fun w => w.1 != home.toNat * 2 ^ 18 + ext
    base := (dropKeyOf home ext s).flash.base } := rfl

/-- Nothing but the flash side, the journal and the control states kept for others changes. -/
theorem dropKeyOf_frame : dropKeyOf home ext s = { s with
    flash := (dropKeyOf home ext s).flash, jrn := (dropKeyOf home ext s).jrn, flt := (dropKeyOf home ext s).flt } := rfl

/-- A list keeps the entries whose record does not carry the key. -/
theorem mem_filter_not_isKeyOf {α : Type} (recOf : α → JRec) (l : List α) (x : α) :
    x ∈ l.filter (fun x => !isKeyOf home ext (recOf x)) ↔
      x ∈ l ∧ ¬((∃ k, (recOf x).body = .key k) ∧ fdnOf (recOf x).gsa = home ∧ extNo (recOf x).gsa = ext) := by
  rw [List.mem_filter, Bool.not_eq_true', ← isKeyOf_iff, Bool.not_eq_true]

end KeyDestroy

/-! ### Copying mapping units and erasing blocks (R52, R54) -/

/-- A key reads the value written to it where that is not the default, whatever the table. -/
theorem Tab.get_put_self_of_ne {α : Type} [DecidableEq α] (d : α) (k : Nat) (v : α) (t : List (Nat × α)) (hv : v ≠ d) :
    Tab.get d (Tab.put d k v t) k = v := by
  induction t with
  | nil => simp [Tab.put, hv, Tab.get]
  | cons e t ih =>
    rw [Tab.put]
    split
    · next hlt => rw [Tab.get, if_neg hlt.ne, ih]
    · split <;> exact if_pos rfl

/-- Mapping units have moved to other pages: flash holds the same, every mapped unit is mapped, no block is erased, and nothing but the
flash side and its telemetry changed. -/
structure UnitsMoved (s t : State) : Prop where
  frame : t = { s with flash := t.flash, tel := t.tel }
  data : t.flash.data = s.flash.data
  poison : t.flash.poison = s.flash.poison
  keys : t.flash.keys = s.flash.keys
  erases : t.flash.erases = s.flash.erases
  mapped : ∀ mu, (mapOf s mu).mapped = true → (mapOf t mu).mapped = true

theorem UnitsMoved.refl (s : State) : UnitsMoved s s := ⟨rfl, rfl, rfl, rfl, rfl, fun _ h => h⟩

theorem UnitsMoved.trans {s t u : State} (a : UnitsMoved s t) (b : UnitsMoved t u) : UnitsMoved s u where
  frame := b.frame.trans (congrArg (fun v : State => { v with flash := u.flash, tel := u.tel }) a.frame)
  data := b.data.trans a.data
  poison := b.poison.trans a.poison
  keys := b.keys.trans a.keys
  erases := b.erases.trans a.erases
  mapped mu h := b.mapped mu (a.mapped mu h)

/-- A unit programmed into fresh pages is mapped there. -/
theorem mapOf_programUnit_self (mu die : Nat) (s : State) : mapOf (programUnit mu die s) mu = (nextPages s die).1 :=
  Tab.get_put_self_of_ne _ _ _ _ fun h => Bool.noConfusion (congrArg MapEnt.mapped h)

theorem mapOf_programUnit_ne {mu die m : Nat} {s : State} (h : m ≠ mu) : mapOf (programUnit mu die s) m = mapOf s m :=
  Tab.get_put_ne _ _ _ _ _ _ h

theorem programUnit_moved (mu die : Nat) (s : State) : UnitsMoved s (programUnit mu die s) where
  frame := rfl
  data := rfl
  poison := rfl
  keys := rfl
  erases := rfl
  mapped m h := by
    by_cases hm : m = mu
    · rw [hm, mapOf_programUnit_self]
      rfl
    · rwa [mapOf_programUnit_ne hm]

/-- The units of a block move one after the other. -/
theorem emptyBlock_moved (die block : Nat) (s : State) : UnitsMoved s (emptyBlock die block s) := by
  rw [emptyBlock]
  generalize unitsIn s die block = mus
  induction mus generalizing s with
  | nil => exact .refl s
  | cons mu mus ih => exact (programUnit_moved mu die s).trans (ih _)

/-- Upkeep of one die: flash holds the same, every mapped unit is mapped, no block of another die is erased, and nothing changed but the
flash side, its telemetry and the mark that the flush area is erased. -/
structure DieUpkept (die : Nat) (s t : State) : Prop where
  frame : t = { s with flash := t.flash, tel := t.tel, jrn := { s.jrn with areaErased := s.jrn.areaErased || t.jrn.areaErased } }
  data : t.flash.data = s.flash.data
  poison : t.flash.poison = s.flash.poison
  keys : t.flash.keys = s.flash.keys
  mapped : ∀ mu, (mapOf s mu).mapped = true → (mapOf t mu).mapped = true
  erases : ∀ k, k / 65536 ≠ die → Tab.get 0 t.flash.erases k = Tab.get 0 s.flash.erases k

/-- Units that move are upkeep of any die. -/
theorem UnitsMoved.dieUpkept {s t : State} (h : UnitsMoved s t) (die : Nat) : DieUpkept die s t where
  frame := by
    have hjrn : t.jrn = s.jrn := by rw [h.frame]
    rw [hjrn, Bool.or_self]
    exact h.frame
  data := h.data
  poison := h.poison
  keys := h.keys
  mapped := h.mapped
  erases k _ := by rw [h.erases]

/-- The flush area is erased again. -/
theorem areaErased_dieUpkept (die : Nat) (s : State) : DieUpkept die s (s.modJrn fun j => { j with areaErased := true }) where
  frame := by
    rw [State.modJrn_jrn, Bool.or_true]
    rfl
  data := rfl
  poison := rfl
  keys := rfl
  mapped _ h := h
  erases _ _ := rfl

/-- Upkeep leaves the waiting commands. -/
theorem DieUpkept.pending {die : Nat} {s t : State} (h : DieUpkept die s t) : t.pending = s.pending := by
  rw [h.frame]

/-- Erasing a block of a die is upkeep of that die. -/
theorem eraseBlock_dieUpkept {die block : Nat} (s : State) (hb : block < 65536) : DieUpkept die s (eraseBlock die block s) :=
  have h := (emptyBlock_moved die block s).dieUpkept die
  { frame := congrArg (fun v : State => { v with flash := (eraseBlock die block s).flash }) h.frame
    data := h.data
    poison := h.poison
    keys := h.keys
    mapped := h.mapped
    erases := fun k hk => by
      have hne : k ≠ die * 65536 + block := by omega
      rw [← h.erases k hk]
      exact Tab.get_put_ne _ _ _ _ _ _ hne }

/-- The element of least measure is one of the list. -/
theorem mem_of_leastBy {m : Nat → Nat} {l : List Nat} {b : Nat} (h : leastBy m l = some b) : b ∈ l := by
  induction l generalizing b with
  | nil => cases h
  | cons x l ih =>
    rw [leastBy] at h
    split at h
    · obtain rfl := Option.some.inj h
      exact List.mem_cons_self
    · next y hy =>
      split at h
      · obtain rfl := Option.some.inj h
        exact List.mem_cons_self
      · obtain rfl := Option.some.inj h
        exact List.mem_cons_of_mem _ (ih hy)

/-- Blocks are numbered within their die. -/
theorem lt_of_mem_closedBlocks {s : State} {die b : Nat} (h : b ∈ closedBlocks s die) : b < 65536 := by
  simp only [closedBlocks, List.mem_filter, List.mem_map] at h
  obtain ⟨⟨k, -, rfl⟩, -⟩ := h
  exact Nat.mod_lt k (by decide)

/-- What garbage collection can do: wait, erase the flush area where it is not, or else erase a block of the die. -/
theorem collectDie_cases (die : Nat) (s : State) :
    collectDie die s = s ∨
    (s.jrn.areaErased = false ∧ collectDie die s = s.modJrn fun j => { j with areaErased := true }) ∨
    (s.jrn.areaErased = true ∧ ∃ b ∈ closedBlocks s die, collectDie die s = eraseBlock die b s) := by
  rw [collectDie]
  generalize bandwidthTaken s _ = busy
  cases busy with
  | true => exact .inl rfl
  | false =>
    rw [if_neg Bool.false_ne_true]
    split
    · next h => exact .inr (.inl ⟨by simpa using h, rfl⟩)
    · next h =>
      split
      · exact .inl rfl
      · next b hb => exact .inr (.inr ⟨by simpa using h, b, mem_of_leastBy hb, rfl⟩)

/-- What wear levelling can do: wait, or erase a block of the die. -/
theorem levelDie_cases (die : Nat) (s : State) :
    levelDie die s = s ∨ ∃ b ∈ closedBlocks s die, levelDie die s = eraseBlock die b s := by
  rw [levelDie]
  split
  · exact .inl rfl
  · split
    · exact .inl rfl
    · next b hb =>
      split
      · exact .inr ⟨b, mem_of_leastBy hb, rfl⟩
      · exact .inl rfl

theorem collectDie_dieUpkept (die : Nat) (s : State) : DieUpkept die s (collectDie die s) := by
  obtain h | ⟨-, h⟩ | ⟨-, b, hb, h⟩ := collectDie_cases die s
  · rw [h]
    exact (UnitsMoved.refl s).dieUpkept die
  · rw [h]
    exact areaErased_dieUpkept die s
  · rw [h]
    exact eraseBlock_dieUpkept s (lt_of_mem_closedBlocks hb)

/-- No block is collected before the flush area is erased again. -/
theorem collectDie_flash_of_unerased {die : Nat} {s : State} (ha : s.jrn.areaErased = false) : (collectDie die s).flash = s.flash := by
  obtain h | ⟨-, h⟩ | ⟨he, -⟩ := collectDie_cases die s
  · rw [h]
  · rw [h, State.modJrn_flash]
  · cases ha.symm.trans he

theorem levelDie_dieUpkept (die : Nat) (s : State) : DieUpkept die s (levelDie die s) := by
  obtain h | ⟨b, hb, h⟩ := levelDie_cases die s
  · rw [h]
    exact (UnitsMoved.refl s).dieUpkept die
  · rw [h]
    exact eraseBlock_dieUpkept s (lt_of_mem_closedBlocks hb)

/-- Settles O14, by what a dropped key takes with it and by what garbage collection and wear levelling can do. -/
theorem flashUpkeep : Obligations.FlashUpkeep := by
  refine ⟨⟨fun mu s => does_flashTrim mu s, ?destroy⟩, ?upkeep⟩
  case destroy =>
    intro home ext s keyOf
    refine ⟨emit (.keyGone home ext.toNat) (dropKeyOf home ext.toNat s), does_keyDestroy home ext s,
      congrArg (emit (.keyGone home ext.toNat)) (dropKeyOf_frame home ext.toNat s), rfl, rfl, ?_, ?_, ?_, ?_⟩
    · intro w
      rw [emit_flash, dropKeyOf_flash, List.mem_filter, bne_iff_ne]
    · intro x
      rw [emit_jrn, dropKeyOf_jrn]
      exact mem_filter_not_isKeyOf home ext.toNat Slot.rc _ x
    · intro e
      rw [emit_jrn, dropKeyOf_jrn]
      exact mem_filter_not_isKeyOf home ext.toNat Prod.snd _ e
    · intro m
      rw [emit_jrn, dropKeyOf_jrn]
      exact mem_filter_not_isKeyOf home ext.toNat Mirror.rc _ m
  case upkeep =>
    intro die s c hc
    obtain rfl | rfl : c = .garbageCollection die ∨ c = .wearLevelling die := by simpa using hc
    · have h := collectDie_dieUpkept die.toNat s
      exact ⟨_, (does_garbageCollection die s).exec_eq_next h.pending, h.frame,
        fun ha => .inl (collectDie_flash_of_unerased ha), h.data, h.poison, h.keys, h.mapped, h.erases⟩
    · have h := levelDie_dieUpkept die.toNat s
      exact ⟨_, (does_wearLevelling die s).exec_eq_next h.pending, h.frame,
        fun _ => .inr rfl, h.data, h.poison, h.keys, h.mapped, h.erases⟩

/-! ### The extent commands (Table 02-8) -/

section ExtentCommands

variable {wr : Writer} {e : Nat} {d : ExtDesc} {s : State}

/-- An extent command of an allowed writer runs when no other runs (R30). -/
theorem extCommand_ready {run : State → State} (h : Ready s wr none [.f, .m] extDone) :
    extCommand wr run s = run (accepted extDone s) :=
  congrArg Prod.snd (issue_ready h)

/-- ASSIGN of a FREE extent with a descriptor that keeps R20 is accepted. -/
theorem assignRun_free (hlim : e < s.ext.limit) (hfree : (extDesc s e).state = .free) (hd : descOfWords (extStage s wr) = some d)
    (hok : descOk s d = true) (hdl : deadlineDenies s d = false) : assignRun wr e s = assignExt e d s := by
  simp [assignRun, hlim, hfree, hd, hok, hdl]

/-- MODIFY of an ASSIGNED extent whose other fields are staged as they are journals the new ranges and policy. -/
theorem modifyRun_assigned (hst : (extDesc s e).state = .assigned) (hd : descOfWords (extStage s wr) = some d)
    (hsame : sameFixed (extDesc s e) (extStage s wr) = true) (hok : descOk s d = true) :
    modifyRun wr e s =
      let new := { extDesc s e with ranges := d.ranges, policy := d.policy }
      extJournal e (.extent new) (s.modExt fun x => { x with run := some { op := .modify, ext := e, start := now s, new := some new } }) := by
  simp [modifyRun, hst, hd, hsame, hok]

/-- REVOKE of an ASSIGNED extent places the fence. -/
theorem revokeRun_assigned (hst : (extDesc s e).state = .assigned) : revokeRun e s = beginRevoke .revoke e s := by
  simp [revokeRun, hst]

/-- RELEASE of an ASSIGNED extent places the fence. -/
theorem releaseRun_assigned (hst : (extDesc s e).state = .assigned) : releaseRun e s = beginRevoke .release e s := by
  simp [releaseRun, hst]

/-- RELEASE of a REVOKED extent goes on to the key's destruction. -/
theorem releaseRun_revoked (hst : (extDesc s e).state = .revoked) :
    releaseRun e s = extGo (s.modExt fun x => { x with run := some { op := .release, ext := e, start := now s } }) := by
  simp [releaseRun, hst]

/-- RESTORE of a REVOKED extent assigns it again. -/
theorem restoreRun_revoked (hst : (extDesc s e).state = .revoked) :
    restoreRun e s = extGo (updateComps (setExtState e .assigned (s.modExt fun x => { x with
      run := some { op := .restore, ext := e, start := now s } }))) := by
  simp [restoreRun, hst]

/-- At its bound the drain in progress ends, with what is unfinished ABANDONED. -/
theorem drainBound_draining {r : ExtRun} (hrun : s.ext.run = some r) (hdr : r.draining = true) :
    drainBound s = extGo (pump (afterDrain (abandonIn r.ext (reach (r.start + 10000000) s)))) := by
  simp [drainBound, hrun, hdr]

/-- The number of an ownership mode in a staged region table entry (Table 02-4). -/
def ownershipNo : Ownership → Nat
  | .none => 0
  | .owned => 1
  | .sharedWrite => 2

theorem ownershipNo_le (o : Ownership) : ownershipNo o ≤ 2 := by cases o <;> decide

/-- REGION of an ASSIGNED extent, by a writer with the own right and with a good staged entry, makes one region of the granules where
no agent holds a line of a COHERENT region that it touches and the directory has room. -/
theorem regionRun_assigned {first count : Nat} {coh : Bool} {own : Ownership} {hs : List (Nat × RegionEnt)}
    (hhs : hs = splitRegions (headsOf s e) first count coh own)
    (hst : (extDesc s e).state = .assigned) (hown : (rightsOf (extDesc s e) (writerIid s wr)).own = true)
    (hc : fld (wordAt (extStage s wr) 0) 30 29 = if coh then 1 else 0)
    (ho : fld (wordAt (extStage s wr) 0) 28 27 = ownershipNo own)
    (hlay : entryLayoutOk (wordAt (extStage s wr) 0) = true) (hpos : 1 ≤ count) (hmax : count ≤ 512) (hend : first + count ≤ 512)
    (hheld : ∀ h ∈ headsOf s e, h.1 < first + count → first < h.1 + h.2.length → h.2.coherent = true →
      regionHeld s (512 * e + h.1) (512 * e + h.1 + h.2.length) = false)
    (hroom : s.coh.granules.length - (cohGranules s e).length + (hs.map fun h => if h.2.coherent then h.2.length else 0).sum ≤ 32768) :
    regionRun wr e first count s = extJournal e (.region ((List.range 512).map (entriesOf hs))) (regionApply e hs
      (s.modExt fun x => { x with run := some { op := .region, ext := e, start := now s } })) := by
  have hgood : ¬(1 < (if coh then 1 else 0) ∨ 2 < ownershipNo own ∨ (!entryLayoutOk (wordAt (extStage s wr) 0)) = true ∨
      count < 1 ∨ 512 < count ∨ 512 < first + count) := by
    have hc1 : (if coh then 1 else 0) ≤ 1 := by split <;> decide
    have ho2 := ownershipNo_le own
    simp only [hlay, Bool.not_true, Bool.false_eq_true, false_or]
    omega
  have hfree : (((headsOf s e).filter fun h => decide (h.1 < first + count) && decide (first < h.1 + h.2.length)).any fun h =>
      h.2.coherent && regionHeld s (512 * e + h.1) (512 * e + h.1 + h.2.length)) = false := by
    rw [List.any_eq_false]
    intro h hh
    simp only [List.mem_filter, Bool.and_eq_true, decide_eq_true_eq] at hh
    obtain ⟨hmem, hlo, hhi⟩ := hh
    cases hcoh : h.2.coherent with
    | false => simp
    | true => simp [hheld h hmem hlo hhi hcoh]
  have hcoh : decide ((if coh then 1 else 0) = 1) = coh := by cases coh <;> rfl
  have hst' : ¬(extDesc s e).state ≠ .assigned := not_not.mpr hst
  rw [regionRun]
  dsimp only
  rw [if_neg hst', hc, ho, if_neg hgood, hown, Bool.not_true, if_neg Bool.false_ne_true, hcoh, hfree, if_neg Bool.false_ne_true]
  rw [hhs] at hroom ⊢
  cases own <;> exact if_neg (Nat.not_lt.mpr hroom)

end ExtentCommands

/-- Settles O27, by the command register and what each command does where it is accepted. -/
theorem extentCommandsRun : Obligations.ExtentCommandsRun := by
  refine ⟨?commands, ?region, fun s => does_revokeDrainComplete s, ?bound⟩
  case commands =>
    intro wr ext s hready a e cur
    refine ⟨?assign, ?modify, fun hst => ⟨?revoke, ?release⟩, fun hst => ⟨?restore, ?destroy⟩⟩
    case assign =>
      intro d hlim hfree hd hok hdl
      refine exec_eq_of_does (does_assign wr ext s) ((extCommand_ready hready).trans (congrArg extGo ?_))
      exact assignRun_free (s := a) hlim hfree hd hok hdl
    case modify =>
      intro d hst hd hsame hok new
      refine exec_eq_of_does (does_modify wr ext s) ((extCommand_ready hready).trans (congrArg extGo ?_))
      exact modifyRun_assigned (s := a) hst hd hsame hok
    case revoke =>
      exact exec_eq_of_does (does_revoke wr ext s) ((extCommand_ready hready).trans (revokeRun_assigned (s := a) hst))
    case release =>
      exact exec_eq_of_does (does_extentRelease wr ext s) ((extCommand_ready hready).trans (releaseRun_assigned (s := a) hst))
    case restore =>
      exact exec_eq_of_does (does_restore wr ext s) ((extCommand_ready hready).trans (restoreRun_revoked (s := a) hst))
    case destroy =>
      exact exec_eq_of_does (does_extentRelease wr ext s) ((extCommand_ready hready).trans (releaseRun_revoked (s := a) hst))
  case region =>
    intro wr ext first count coh own s hready e w hs hst hown hc ho hlay hpos hmax hend hheld hroom
    have ho' : fld w 28 27 = ownershipNo own := by
      rw [ho]
      cases own <;> rfl
    refine exec_eq_of_does (does_region wr ext first count s) ((extCommand_ready hready).trans (congrArg extGo ?_))
    exact regionRun_assigned (s := accepted extDone s) rfl hst hown hc ho' hlay hpos hmax hend hheld hroom
  case bound =>
    intro r s hrun hdr
    exact exec_eq_of_does (does_revokeDrainBound s) (drainBound_draining hrun hdr)

/-! ### Host accesses (R26, R340) -/

section HostAccess

variable {w : Fin 64} {tag : BitVec 16} {op : HostOp} {r : Req} {s : State}

/-- An access of a host as its port holds it, once its window offset names a GSA. -/
def hostReqOf (w : Fin 64) (tag : BitVec 16) (op : HostOp) (r : Req) (g : Word) (inc : BitVec 32) (s : State) : HostReq :=
  { win := w, tag := tag, op := op, half := bitOf g 6, arrived := now s
    r := { r with iid := winIid s w, ing := winIng w, src := ownFdn s, inc := inc
                  gsa := if op == .read ∨ r.op = 0x03 then g &&& ~~~(127 : Word) else g } }

/-- An access whose window offset names a GSA takes its place behind those of its port that arrived before. -/
theorem enterHost_mapped {off : Nat} {g : Word} {inc : BitVec 32} (h : slotGsa s w off = some (g, inc)) :
    enterHost w tag (some off) op r s = hostPump (s.modHp fun p => { p with reqs := p.reqs ++ [hostReqOf w tag op r g inc s] }) := by
  simp only [enterHost, h]
  rfl

end HostAccess

/-! ### Cached lines of hosts (R342, R343) -/

section HostLine

variable {w : Fin 64} {l : Nat} {tag : BitVec 16} {q : HostReq} {e : LineEnt} {s : State}

/-- A snoop of a line that the port does not track is answered at once. -/
theorem snooped_untracked {op : SnoopOp} (h : entryAt s w l = none) :
    snooped op w l tag s = asAgent w 0x30 tag { win := w, line := l } s := by
  simp only [snooped, h]

/-- A snoop of a line that the host holds is passed on to it. -/
theorem snooped_held {op : SnoopOp} (h : entryAt s w l = some e) (hw : e.writing = false) (ho : e.open_ = 0) (hh : e.halves ≠ 0) :
    snooped op w l tag s = sendBi e op (putEnt { e with snoop := some (op, tag), open_ := e.halves } s) := by
  simp only [snooped, h, hw, ho, hh, ne_eq, not_true_eq_false, Bool.false_eq_true, if_false]

/-- A grant of the kind asked for installs the line and serves the request. -/
theorem granted_asked {excl : Bool} {d : Line} (hq : cohOpen s w l tag = some q) (h : entryAt s w l = none)
    (hk : (q.op == .cohS) = !excl) : granted excl w l tag d s =
      hostPump (serveHit q { win := w, line := l, excl := excl, image := d, inc := q.r.inc } s) := by
  cases excl <;> simp [granted, hq, h, hk]

/-- A back-invalidate answered for the last half that it was open for ends the snoop. -/
theorem biAnswered_last {half : Bool} {k : BiRspKind} (h : entryAt s w l = some e) (hopen : e.open_ &&& halfBit half ≠ 0)
    (hlast : e.open_ &&& ~~~(halfBit half) = 0) : biAnswered w l half k none s = hostPump (snoopDone { e with
      open_ := 0, halves := if k = .i then e.halves &&& ~~~(halfBit half) else e.halves } s) := by
  simp only [biAnswered, h, if_neg hopen, hlast, ne_eq, not_true_eq_false, if_false, Option.isSome_none, Bool.or_false]

end HostLine

/-- Settles O24, by what a port does with an access, a snoop and an answer of the home. -/
theorem hostMessages : Obligations.HostMessages := by
  refine ⟨⟨?access, ?bad, ?reads, ?write, ?empty⟩, ?snoop, ?grant, ?upgrade, ?written, ?nack, ?answer⟩
  case access =>
    intro w off r fl g inc s hg hgood s' op q
    refine exec_eq_of_does (does_hostAccess w off ⟨r, fl⟩ s) ?_
    exact (if_neg (by simp [hgood])).trans (enterHost_mapped hg)
  case bad =>
    intro w off r fl s hbad
    exact exec_eq_of_does (does_hostAccess w off ⟨r, fl⟩ s) (if_pos hbad)
  case reads =>
    exact fun w a tag s => ⟨does_memrd w a .noOp tag s, does_memrd w a .i tag s, does_memrd w a .s tag s, does_memrd w a .a tag s,
      does_meminv w a tag s⟩
  case write =>
    intro w a mf tag p d s hmf
    exact exec_eq_of_does (does_memwr w a mf tag p d s) (if_neg hmf)
  case empty =>
    exact fun w a tag p d s => exec_eq_of_does (does_memwrptl w a tag p 0 d s) (if_pos rfl)
  case snoop =>
    intro w l tag s op c hc
    have hdoes : Does c s (snooped op w l.toNat tag s) := by
      simp only [List.mem_cons, Prod.mk.injEq, List.not_mem_nil, or_false] at hc
      obtain ⟨rfl, rfl⟩ | ⟨rfl, rfl⟩ | ⟨rfl, rfl⟩ := hc
      · exact does_snpInv w l tag s
      · exact does_snpData w l tag s
      · exact does_snpCur w l tag s
    exact ⟨fun h => exec_eq_of_does hdoes (snooped_untracked h),
      fun e h hw ho hh => exec_eq_of_does hdoes (snooped_held h hw ho hh)⟩
  case grant =>
    intro w l tag d q s hq h
    refine ⟨fun hop => ?_, fun hop => ?_⟩
    · exact exec_eq_of_does (does_gntS w l tag d s) (granted_asked hq h (by simp [hop]))
    · exact exec_eq_of_does (does_gntE w l tag d s) (granted_asked hq h (by simpa using hop))
  case upgrade =>
    intro w l tag q e s hq h hop hex
    exact exec_eq_of_does (does_gntEND w l tag s) (by simp [hq, h, hop, hex])
  case written =>
    intro w l tag st e s h hw
    exact exec_eq_of_does (does_cmpWb w l tag st s) (by simp [h, hw])
  case nack =>
    intro w l tag st hint q s hq
    refine ⟨fun hst => ?_, fun hst => ?_⟩
    · exact exec_eq_of_does (does_nack w l tag st hint s) (by simp [hq, hst])
    · exact exec_eq_of_does (does_nack w l tag st hint s) (by simp [hq, hst])
  case answer =>
    intro w l half k e s h hopen hlast
    exact exec_eq_of_does (does_birsp w l half k none s) (biAnswered_last h hopen hlast)

end Sys2Proof.Machine
end

section
/-! The tiered store: every step keeps the HBM in its canonical form (R37, R41), a full-line store (R41, R94), the decay of access counts
(R50, R51), the stripe reserve (R55, R77), fills, write-backs, cleaning and HBM errors (R42-R59), and the adoption of a fenced device with
the members of stripes that it finds (R56, R409-R414). -/

namespace Sys2Proof.Machine

open Sys2Proof

/-! ### What every step keeps (R37, R375, R438) -/

/-- The commands that may begin a cold start, or end a thermal trip, and so may set the time base to 0 (R375, R424, R463). -/
def mayRestart : Instr → Bool
  | .coldReset | .pwrfailRise | .flushComplete | .supplyOutOfLimits _ | .sensorSample _ _ _ => true
  | _ => false

/-- Every command keeps what no operation undoes; one that may restart the time base does where the time is counted from 0. -/
theorem exec_keeps {a : State} : ∀ c : Instr, (mayRestart c = true → a.sys.time = 0) → Runs a (exec c)
  | .hostAccess .., _ => execHostAccess_keeps
  | .assign .., _ => execAssign_keeps
  | .modify .., _ => execModify_keeps
  | .region .., _ => execRegion_keeps
  | .revoke .., _ => execRevoke_keeps
  | .revokeDrainComplete, _ => execRevokeDrainComplete_keeps
  | .revokeDrainBound, _ => execRevokeDrainBound_keeps
  | .restore .., _ => execRestore_keeps
  | .extentRelease .., _ => execExtentRelease_keeps
  | .flashTrim .., _ => execFlashTrim_keeps
  | .load .., _ => execLoad_keeps
  | .store .., _ => execStore_keeps
  | .storePart .., _ => execStorePart_keeps
  | .codedWrite .., _ => execCodedWrite_keeps
  | .atomic .., _ => execAtomic_keeps
  | .copy .., _ => execCopy_keeps
  | .copyRegister .., _ => execCopyRegister_keeps
  | .copyLineAnswer .., _ => execCopyLineAnswer_keeps
  | .copyNyBound .., _ => execCopyNyBound_keeps
  | .counterAdvance .., _ => execCounterAdvance_keeps
  | .counterAdvanceRetry .., _ => execCounterAdvanceRetry_keeps
  | .wait .., _ => execWait_keeps
  | .barrier .., _ => execBarrier_keeps
  | .barrierComplete .., _ => execBarrierComplete_keeps
  | .acquire .., _ => execAcquire_keeps
  | .release .., _ => execRelease_keeps
  | .publish .., _ => execPublish_keeps
  | .readVersion .., _ => execReadVersion_keeps
  | .ownershipCommit .., _ => execOwnershipCommit_keeps
  | .control .., _ => execControl_keeps
  | .responseDeadline .., _ => execResponseDeadline_keeps
  | .answerArrival .., _ => execAnswerArrival_keeps
  | .trackerTimeout .., _ => execTrackerTimeout_keeps
  | .bucketPay .., _ => execBucketPay_keeps
  | .bucketAdapt .., _ => execBucketAdapt_keeps
  | .fillComplete .., _ => execFillComplete_keeps
  | .mergeFillComplete .., _ => execMergeFillComplete_keeps
  | .writebackComplete .., _ => execWritebackComplete_keeps
  | .backgroundCleaning .., _ => execBackgroundCleaning_keeps
  | .garbageCollection .., _ => execGarbageCollection_keeps
  | .wearLevelling .., _ => execWearLevelling_keeps
  | .tierDecay, _ => execTierDecay_keeps
  | .pinHbmPrefetch .., _ => execPinHbmPrefetch_keeps
  | .stripeMemberReceive .., _ => execStripeMemberReceive_keeps
  | .hbmUncorrectable .., _ => execHbmUncorrectable_keeps
  | .segmentProgramStart .., _ => execSegmentProgramStart_keeps
  | .segmentProgramComplete .., _ => execSegmentProgramComplete_keeps
  | .compostPass, _ => execCompostPass_keeps
  | .mirrorReceive .., _ => execMirrorReceive_keeps
  | .mirrorConfirm .., _ => execMirrorConfirm_keeps
  | .pairLate .., _ => execPairLate_keeps
  | .mirrorResend .., _ => execMirrorResend_keeps
  | .mirrorReleaseSend .., _ => execMirrorReleaseSend_keeps
  | .mirrorRelease .., _ => execMirrorRelease_keeps
  | .buddyCopyReceive .., _ => execBuddyCopyReceive_keeps
  | .buddyCopyTimeout .., _ => execBuddyCopyTimeout_keeps
  | .keyRecordReceive .., _ => execKeyRecordReceive_keeps
  | .pwrfailFall, _ => execPwrfailFall_keeps
  | .pwrfailConfirm, _ => execPwrfailConfirm_keeps
  | .flushComplete, h => execFlushComplete_keeps (h rfl)
  | .groupProgramComplete, _ => execGroupProgramComplete_keeps
  | .tentativeVoid .., _ => execTentativeVoid_keeps
  | .mirrorFetch .., _ => execMirrorFetch_keeps
  | .mirrorFetchEnd .., _ => execMirrorFetchEnd_keeps
  | .mirrorFetchTimeout .., _ => execMirrorFetchTimeout_keeps
  | .jrnLossQuery .., _ => execJrnLossQuery_keeps
  | .rdS .., _ => execRdS_keeps
  | .rdE .., _ => execRdE_keeps
  | .upg .., _ => execUpg_keeps
  | .wbD .., _ => execWbD_keeps
  | .evictC .., _ => execEvictC_keeps
  | .rspI .., _ => execRspI_keeps
  | .rspS .., _ => execRspS_keeps
  | .rspE .., _ => execRspE_keeps
  | .rspID .., _ => execRspID_keeps
  | .rspSD .., _ => execRspSD_keeps
  | .rspED .., _ => execRspED_keeps
  | .fenceAck .., _ => execFenceAck_keeps
  | .resetAck .., _ => execResetAck_keeps
  | .snpInv .., _ => execSnpInv_keeps
  | .snpData .., _ => execSnpData_keeps
  | .snpCur .., _ => execSnpCur_keeps
  | .gntS .., _ => execGntS_keeps
  | .gntE .., _ => execGntE_keeps
  | .gntEND .., _ => execGntEND_keeps
  | .cmpWb _ _ tag st, _ => execCmpWb_keeps (x3 := tag) (x4 := st)
  | .nack .., _ => execNack_keeps
  | .stakeWindowClose .., _ => execStakeWindowClose_keeps
  | .reservationExpire .., _ => execReservationExpire_keeps
  | .snoopTimeout .., _ => execSnoopTimeout_keeps
  | .lostAgentSweepEnd .., _ => execLostAgentSweepEnd_keeps
  | .modeFenceTimeout, _ => execModeFenceTimeout_keeps
  | .placeholderExpire .., _ => execPlaceholderExpire_keeps
  | .resumeWindowEnd, _ => execResumeWindowEnd_keeps
  | .rebuildTimeout, _ => execRebuildTimeout_keeps
  | .dirEntryRepair .., _ => execDirEntryRepair_keeps
  | .nmcSqDb .., _ => execNmcSqDb_keeps
  | .jobDispatch .., _ => execJobDispatch_keeps
  | .run .., _ => execRun_keeps
  | .resume .., _ => execResume_keeps
  | .suspend .., _ => execSuspend_keeps
  | .suspendBodyWritten .., _ => execSuspendBodyWritten_keeps
  | .cancel .., _ => execCancel_keeps
  | .jobForward .., _ => execJobForward_keeps
  | .contextSwitch .., _ => execContextSwitch_keeps
  | .tileVisible .., _ => execTileVisible_keeps
  | .tileConsumed .., _ => execTileConsumed_keeps
  | .jobRestart .., _ => execJobRestart_keeps
  | .jobNoProgress .., _ => execJobNoProgress_keeps
  | .jobTimeLimit .., _ => execJobTimeLimit_keeps
  | .jobCommitComplete .., _ => execJobCommitComplete_keeps
  | .cqRecordWrite .., _ => execCqRecordWrite_keeps
  | .nmcRsInstall .., _ => execNmcRsInstall_keeps
  | .nmcRsRetire .., _ => execNmcRsRetire_keeps
  | .rsRetireBound, _ => execRsRetireBound_keeps
  | .graft .., _ => execGraft_keeps
  | .dibberInstruction .., _ => execDibberInstruction_keeps
  | .nmcCmdPush .., _ => execNmcCmdPush_keeps
  | .nmcCommit .., _ => execNmcCommit_keeps
  | .nmcFewer .., _ => execNmcFewer_keeps
  | .nmcArithStatus .., _ => execNmcArithStatus_keeps
  | .nmcTileTake .., _ => execNmcTileTake_keeps
  | .nmcTileFree .., _ => execNmcTileFree_keeps
  | .nmcTileAlloc .., _ => execNmcTileAlloc_keeps
  | .nmcTileEmit .., _ => execNmcTileEmit_keeps
  | .read .., _ => execRead_keeps
  | .readRows .., _ => execReadRows_keeps
  | .stage .., _ => execStage_keeps
  | .zero .., _ => execZero_keeps
  | .mma .., _ => execMma_keeps
  | .emit .., _ => execEmit_keeps
  | .tillerLoad .., _ => execTillerLoad_keeps
  | .dtab .., _ => execDtab_keeps
  | .lutmv .., _ => execLutmv_keeps
  | .add .., _ => execAdd_keeps
  | .sub .., _ => execSub_keeps
  | .mul .., _ => execMul_keeps
  | .fma .., _ => execFma_keeps
  | .min .., _ => execMin_keeps
  | .max .., _ => execMax_keeps
  | .abs .., _ => execAbs_keeps
  | .neg .., _ => execNeg_keeps
  | .cmp .., _ => execCmp_keeps
  | .sel .., _ => execSel_keeps
  | .exp .., _ => execExp_keeps
  | .exp2 .., _ => execExp2_keeps
  | .log .., _ => execLog_keeps
  | .log2 .., _ => execLog2_keeps
  | .rsqrt .., _ => execRsqrt_keeps
  | .recip .., _ => execRecip_keeps
  | .sqrt .., _ => execSqrt_keeps
  | .div .., _ => execDiv_keeps
  | .tanh .., _ => execTanh_keeps
  | .rowSum .., _ => execRowSum_keeps
  | .rowMax .., _ => execRowMax_keeps
  | .softmax .., _ => execSoftmax_keeps
  | .topk .., _ => execTopk_keeps
  | .cvt .., _ => execCvt_keeps
  | .iadd .., _ => execIadd_keeps
  | .isub .., _ => execIsub_keeps
  | .imul .., _ => execImul_keeps
  | .logic .., _ => execLogic_keeps
  | .shift .., _ => execShift_keeps
  | .isat .., _ => execIsat_keeps
  | .loadcb .., _ => execLoadcb_keeps
  | .decode .., _ => execDecode_keeps
  | .encode .., _ => execEncode_keeps
  | .lookup .., _ => execLookup_keeps
  | .lutacc .., _ => execLutacc_keeps
  | .adc .., _ => execAdc_keeps
  | .filter .., _ => execFilter_keeps
  | .portGlean .., _ => execPortGlean_keeps
  | .portSow .., _ => execPortSow_keeps
  | .portPrune .., _ => execPortPrune_keeps
  | .gather .., _ => execGather_keeps
  | .bag .., _ => execBag_keeps
  | .sowAdd .., _ => execSowAdd_keeps
  | .harvest .., _ => execHarvest_keeps
  | .tableCreate .., _ => execTableCreate_keeps
  | .tableReplace .., _ => execTableReplace_keeps
  | .tableDelete .., _ => execTableDelete_keeps
  | .groupSet .., _ => execGroupSet_keeps
  | .groupClear .., _ => execGroupClear_keeps
  | .cuttingRequest .., _ => execCuttingRequest_keeps
  | .cutDrop .., _ => execCutDrop_keeps
  | .cuttingLeaseEnd .., _ => execCuttingLeaseEnd_keeps
  | .shardLoadInterval, _ => execShardLoadInterval_keeps
  | .indexCreate .., _ => execIndexCreate_keeps
  | .indexDestroy .., _ => execIndexDestroy_keeps
  | .pin .., _ => execPin_keeps
  | .unpin .., _ => execUnpin_keeps
  | .search .., _ => execSearch_keeps
  | .scan .., _ => execScan_keeps
  | .insert .., _ => execInsert_keeps
  | .delete .., _ => execDelete_keeps
  | .entry .., _ => execEntry_keeps
  | .indexCommitWaitBound .., _ => execIndexCommitWaitBound_keeps
  | .indexRestamp .., _ => execIndexRestamp_keeps
  | .bind .., _ => execBind_keeps
  | .unbind .., _ => execUnbind_keeps
  | .xltFaultResp .., _ => execXltFaultResp_keeps
  | .faultTimeout .., _ => execFaultTimeout_keeps
  | .invRange .., _ => execInvRange_keeps
  | .invAsid .., _ => execInvAsid_keeps
  | .invComplete .., _ => execInvComplete_keeps
  | .invDrainBound .., _ => execInvDrainBound_keeps
  | .hostReadTimeout .., _ => execHostReadTimeout_keeps
  | .rdcurrAnswer .., _ => execRdcurrAnswer_keeps
  | .hotPageDecay, _ => execHotPageDecay_keeps
  | .memrd .., _ => execMemrd_keeps
  | .memwr .., _ => execMemwr_keeps
  | .memwrptl .., _ => execMemwrptl_keeps
  | .meminv .., _ => execMeminv_keeps
  | .birsp .., _ => execBirsp_keeps
  | .h2dSnoop .., _ => execH2dSnoop_keeps
  | .apertureGo .., _ => execApertureGo_keeps
  | .apertureRead .., _ => execApertureRead_keeps
  | .holdReissue .., _ => execHoldReissue_keeps
  | .holdMaxExpire .., _ => execHoldMaxExpire_keeps
  | .hdmDecoderCommit .., _ => execHdmDecoderCommit_keeps
  | .hostLinkUp .., _ => execHostLinkUp_keeps
  | .hostLinkDown .., _ => execHostLinkDown_keeps
  | .functionLevelReset .., _ => execFunctionLevelReset_keeps
  | .recallBound, _ => execRecallBound_keeps
  | .linkEnable .., _ => execLinkEnable_keeps
  | .linkTrained .., _ => execLinkTrained_keeps
  | .ident .., _ => execIdent_keeps
  | .lcrd .., _ => execLcrd_keeps
  | .flitReceive .., _ => execFlitReceive_keeps
  | .replay .., _ => execReplay_keeps
  | .replayTimer .., _ => execReplayTimer_keeps
  | .modeChg .., _ => execModeChg_keeps
  | .fecEvaluate .., _ => execFecEvaluate_keeps
  | .spare _ _ lane, _ => execSpare_keeps (x3 := lane)
  | .laneLoss .., _ => execLaneLoss_keeps
  | .spareComplete .., _ => execSpareComplete_keeps
  | .tsync .., _ => execTsync_keeps
  | .tsyncSend, _ => execTsyncSend_keeps
  | .tsyncTimeout, _ => execTsyncTimeout_keeps
  | .pdown .., _ => execPdown_keeps
  | .linkDown .., _ => execLinkDown_keeps
  | .linkRetrain .., _ => execLinkRetrain_keeps
  | .linkReset .., _ => execLinkReset_keeps
  | .messageRoute .., _ => execMessageRoute_keeps
  | .pathHoldExpire .., _ => execPathHoldExpire_keeps
  | .modulePresence .., _ => execModulePresence_keeps
  | .moduleReady .., _ => execModuleReady_keeps
  | .moduleInterrupt .., _ => execModuleInterrupt_keeps
  | .opticsPoll .., _ => execOpticsPoll_keeps
  | .ceStormEnd, _ => execCeStormEnd_keeps
  | .eventRecordWrite .., _ => execEventRecordWrite_keeps
  | .event .., _ => execEvent_keeps
  | .fatalError .., _ => execFatalError_keeps
  | .compList .., _ => execCompList_keeps
  | .compContain .., _ => execCompContain_keeps
  | .compRelease .., _ => execCompRelease_keeps
  | .containmentStart .., _ => execContainmentStart_keeps
  | .compPolicy .., _ => execCompPolicy_keeps
  | .compReleaseCmd .., _ => execCompReleaseCmd_keeps
  | .watchdogExpire, _ => execWatchdogExpire_keeps
  | .pulseSend, _ => execPulseSend_keeps
  | .pulse .., _ => execPulse_keeps
  | .pulseSilence .., _ => execPulseSilence_keeps
  | .suspect .., _ => execSuspect_keeps
  | .clear .., _ => execClear_keeps
  | .suspectHoldEnd .., _ => execSuspectHoldEnd_keeps
  | .isolation, _ => execIsolation_keeps
  | .fence .., _ => execFence_keeps
  | .unfence .., _ => execUnfence_keeps
  | .join .., _ => execJoin_keeps
  | .joinAns .., _ => execJoinAns_keeps
  | .joinRetry, _ => execJoinRetry_keeps
  | .adoptReq .., _ => execAdoptReq_keeps
  | .adoptAns .., _ => execAdoptAns_keeps
  | .controlStateReceived .., _ => execControlStateReceived_keeps
  | .adopt .., _ => execAdopt_keeps
  | .adoptRetry .., _ => execAdoptRetry_keeps
  | .returnWaitExpire .., _ => execReturnWaitExpire_keeps
  | .memberFind .., _ => execMemberFind_keeps
  | .memberLoc .., _ => execMemberLoc_keeps
  | .stripeRebuild .., _ => execStripeRebuild_keeps
  | .offer .., _ => execOffer_keeps
  | .received .., _ => execReceived_keeps
  | .reclaim .., _ => execReclaim_keeps
  | .handoffExpiry .., _ => execHandoffExpiry_keeps
  | .ledgerQueryDue .., _ => execLedgerQueryDue_keeps
  | .ledgerQuery .., _ => execLedgerQuery_keeps
  | .ledgerState .., _ => execLedgerState_keeps
  | .drillSchedule .., _ => execDrillSchedule_keeps
  | .drill .., _ => execDrill_keeps
  | .drillStart, _ => execDrillStart_keeps
  | .drillEnd .., _ => execDrillEnd_keeps
  | .marginSample .., _ => execMarginSample_keeps
  | .fltFenceCmd .., _ => execFltFenceCmd_keeps
  | .coldReset, h => execColdReset_keeps (h rfl)
  | .resetNFall .., _ => execResetNFall_keeps
  | .resetNRise, _ => execResetNRise_keeps
  | .warmResetFabric .., _ => execWarmResetFabric_keeps
  | .warmResetBegin .., _ => execWarmResetBegin_keeps
  | .thermalTrip .., _ => execThermalTrip_keeps
  | .bringUpStep .., _ => execBringUpStep_keeps
  | .supplyOutOfLimits .., h => execSupplyOutOfLimits_keeps (h rfl)
  | .blockReset .., _ => execBlockReset_keeps
  | .norRead .., _ => execNorRead_keeps
  | .norProgram .., _ => execNorProgram_keeps
  | .norErase .., _ => execNorErase_keeps
  | .cfgBootClear .., _ => execCfgBootClear_keeps
  | .cfgSvnCommit .., _ => execCfgSvnCommit_keeps
  | .cfgKeyRevoke .., _ => execCfgKeyRevoke_keeps
  | .voltagePolicy .., _ => execVoltagePolicy_keeps
  | .avsReadback .., _ => execAvsReadback_keeps
  | .sensorSample .., h => execSensorSample_keeps (h rfl)
  | .dormantEntry, _ => execDormantEntry_keeps
  | .fallowEnter .., _ => execFallowEnter_keeps
  | .fallowLeave .., _ => execFallowLeave_keeps
  | .smbusStart .., _ => execSmbusStart_keeps
  | .mctpRequest .., _ => execMctpRequest_keeps
  | .pwrfailProbe .., _ => execPwrfailProbe_keeps
  | .driverOvercurrent .., _ => execDriverOvercurrent_keeps
  | .refclkLoss .., _ => execRefclkLoss_keeps
  | .queueBaseWrite .., _ => execQueueBaseWrite_keeps
  | .queueHeadWrite .., _ => execQueueHeadWrite_keeps
  | .modeForceTabled .., _ => execModeForceTabled_keeps
  | .modeForceRetry .., _ => execModeForceRetry_keeps
  | .telSnap .., _ => execTelSnap_keeps
  | .registerWrite .., _ => execRegisterWrite_keeps
  | .trlUnlockCmd .., _ => execTrlUnlockCmd_keeps
  | .unlockExpire, _ => execUnlockExpire_keeps
  | .trlLock .., _ => execTrlLock_keeps
  | .trlSeal .., _ => execTrlSeal_keeps
  | .trlSel .., _ => execTrlSel_keeps
  | .injectPoison .., _ => execInjectPoison_keeps
  | .injectSramCe .., _ => execInjectSramCe_keeps
  | .injectTileStore .., _ => execInjectTileStore_keeps
  | .injectSnoopWithhold .., _ => execInjectSnoopWithhold_keeps
  | .injectFlashRead .., _ => execInjectFlashRead_keeps
  | .trlAccess .., _ => execTrlAccess_keeps
  | .extest .., _ => execExtest_keeps
  | .pwrfailRise, h => execPwrfailRise_keeps (h rfl)
  | .perstNChange .., _ => execPerstNChange_keeps
  | .moduleRemoval .., _ => execModuleRemoval_keeps
  | .moduleReadyTimeout .., _ => execModuleReadyTimeout_keeps
  | .refclkReturn .., _ => execRefclkReturn_keeps
  | .quiesceBound, _ => execQuiesceBound_keeps
  | .forwardStale .., _ => execForwardStale_keeps
  | .nyHintRetry .., _ => execNyHintRetry_keeps
  | .rcRead .., _ => execRcRead_keeps
  | .controlMirrorReceive .., _ => execControlMirrorReceive_keeps
  | .controlMirrorConfirm .., _ => execControlMirrorConfirm_keeps
  | .keyDestroy .., _ => execKeyDestroy_keeps
  | .cutDropConfirm .., _ => execCutDropConfirm_keeps
  | .shardLoadTotals .., _ => execShardLoadTotals_keeps
  | .stripeMemberRead .., _ => execStripeMemberRead_keeps
  | .codebookFillComplete .., _ => execCodebookFillComplete_keeps
  | .fosterInstallDone .., _ => execFosterInstallDone_keeps
  | .norCommandComplete, _ => execNorCommandComplete_keeps
  | .snapshotComplete, _ => execSnapshotComplete_keeps

/-- A step keeps what no operation undoes, on the same condition. -/
theorem step_keeps {a s t : State} (hstep : step s = .next t)
    (hrestart : ∀ c rest, s.pending = c :: rest → mayRestart c = true → a.sys.time = 0) (h : Keeps a s) : Keeps a t := by
  unfold step at hstep
  split at hstep
  case h_1 =>
    cases hstep
    exact passTime_keeps h
  case h_2 c rest hp =>
    have hrest : Keeps a { s with pending := rest } := Keeps.record (s := s) rfl rfl rfl h
    exact exec_keeps c (hrestart c rest hp) _ hrest t hstep

/-- A state with its time counted from 0: what a step that restarts the time base is measured against. -/
def State.fromZero (s : State) : State := s.modSys fun y => { y with time := 0 }

theorem fromZero_keeps (s : State) : Keeps s.fromZero s := ⟨Nat.zero_le _, Burned.refl _, id⟩

/-- Whatever the command, a step keeps what a state holds but for its time. -/
theorem step_keeps_fromZero {s t : State} (hstep : step s = .next t) : Keeps s.fromZero t :=
  step_keeps hstep (fun _ _ _ _ => rfl) (fromZero_keeps s)

/-- Settles O6: the HBM keeps its form through every command, and counting the time from 0 leaves the HBM as it is. -/
theorem hbmStaysCanonical : Obligations.HbmStaysCanonical := fun _ _ hstep => (step_keeps_fromZero hstep).hbm

/-! ### Lines of the HBM (R5, R41) -/

/-- A run of bytes reads as the list whose bytes it holds in order. -/
theorem readBytes_eq_of_readByte (m : List Host.Cell) (bs : List Byte) (a : Nat)
    (h : ∀ i (hi : i < bs.length), readByte m (a + i) = bs[i]) : readBytes m a bs.length = bs := by
  induction bs generalizing a with
  | nil => rfl
  | cons b bs ih =>
    have hrest : readBytes m (a + 1) bs.length = bs := ih (a + 1) fun i hi => by
      rw [Nat.add_assoc, Nat.add_comm 1]
      exact h (i + 1) (Nat.succ_lt_succ hi)
    rw [List.length_cons, readBytes, hrest]
    exact congrArg (· :: bs) (h 0 (Nat.succ_pos _))

/-- The first `n` bytes of a line that the mask picks are written. -/
def putFirst (line : Nat) (mask : BitVec 128) (data : List Byte) (m : List Host.Cell) (n : Nat) : List Host.Cell :=
  (List.range n).foldl (fun m i => if mask.getLsbD i then writeByte m (128 * line + i) (data.getD i 0) else m) m

theorem putMasked_eq_putFirst (m : List Host.Cell) (line : Nat) (mask : BitVec 128) (data : List Byte) :
    putMasked m line mask data = putFirst line mask data m 128 := rfl

theorem putFirst_succ (line : Nat) (mask : BitVec 128) (data : List Byte) (m : List Host.Cell) (n : Nat) :
    putFirst line mask data m (n + 1) =
      if mask.getLsbD n then writeByte (putFirst line mask data m n) (128 * line + n) (data.getD n 0) else putFirst line mask data m n := by
  simp only [putFirst, List.range_succ, List.foldl_append, List.foldl_cons, List.foldl_nil]

theorem putFirst_wf {line : Nat} {mask : BitVec 128} {data : List Byte} {m : List Host.Cell} (h : Memory.wf m = true) (n : Nat) :
    Memory.wf (putFirst line mask data m n) = true := by
  induction n with
  | zero => exact h
  | succ n ih =>
    rw [putFirst_succ]
    split
    · exact writeByte_wf _ _ _ ih
    · exact ih

/-- What a byte reads after the first bytes of a line are written. -/
theorem readByte_putFirst {line : Nat} {mask : BitVec 128} {data : List Byte} {m : List Host.Cell} (h : Memory.wf m = true)
    (c n : Nat) : readByte (putFirst line mask data m n) c =
      if 128 * line ≤ c ∧ c < 128 * line + n ∧ mask.getLsbD (c - 128 * line) = true then data.getD (c - 128 * line) 0
      else readByte m c := by
  induction n with
  | zero => exact (if_neg (by omega)).symm
  | succ n ih =>
    rw [putFirst_succ]
    by_cases hc : c = 128 * line + n
    · subst hc
      by_cases hm : mask.getLsbD n = true
      · simp [hm, readByte_writeByte _ _ _ _ (putFirst_wf h n)]
      · simp [hm, ih]
    · have hlt : c < 128 * line + (n + 1) ↔ c < 128 * line + n := by omega
      simp only [hlt, ← ih]
      split
      · rw [readByte_writeByte _ _ _ _ (putFirst_wf h n), if_neg hc]
      · rfl

/-- What a byte reads after the masked bytes of a line are written. -/
theorem readByte_putMasked {m : List Host.Cell} (h : Memory.wf m = true) (line : Nat) (mask : BitVec 128) (data : List Byte) (c : Nat) :
    readByte (putMasked m line mask data) c =
      if 128 * line ≤ c ∧ c < 128 * line + 128 ∧ mask.getLsbD (c - 128 * line) = true then data.getD (c - 128 * line) 0
      else readByte m c := by
  rw [putMasked_eq_putFirst, readByte_putFirst h]

/-- A line written whole reads back. -/
theorem readBytes_putMasked_whole {m : List Host.Cell} (h : Memory.wf m = true) (line : Nat) {data : List Byte} (hlen : data.length = 128) :
    readBytes (putMasked m line (BitVec.allOnes 128) data) (128 * line) 128 = data := by
  have hread := readBytes_eq_of_readByte (putMasked m line (BitVec.allOnes 128) data) data (128 * line) fun i hi => by
    have hi' : i < 128 := hlen ▸ hi
    have hmask : (BitVec.allOnes 128).getLsbD i = true := by rw [BitVec.getLsbD_allOnes, decide_eq_true hi']
    rw [readByte_putMasked h, Nat.add_sub_cancel_left, if_pos ⟨by omega, by omega, hmask⟩, List.getD_eq_getElem _ _ hi]
  rwa [hlen] at hread

/-! ### A full-line store (R41, R43, R94) -/

section StoreLine

variable {line f : Nat} {mask : BitVec 128} {data : List Byte} {s : State}

/-- Noting a write changes nothing of the tier nor of the extents. -/
theorem noteWrite_frame (line : Nat) (s : State) : noteWrite line s = { s with emb := (noteWrite line s).emb } := by
  unfold noteWrite
  dsimp only
  repeat' split
  all_goals rfl

@[simp] theorem noteWrite_tier : (noteWrite line s).tier = s.tier := by rw [noteWrite_frame]
@[simp] theorem noteWrite_ext : (noteWrite line s).ext = s.ext := by rw [noteWrite_frame]

/-- The line of a tag is its own bit. -/
theorem lineBit_getLsbD (line : Nat) : (lineBit line).getLsbD (line % 128) = true := by
  have hlt : line % 128 < 128 := Nat.mod_lt _ (by decide)
  rw [lineBit, BitVec.getLsbD_ofNat, decide_eq_true hlt, Nat.testBit_two_pow_self]
  rfl

/-- The tag of a frame after a whole line of it is written. -/
def Tag.wholeLine (line : Nat) (t : Tag) : Tag :=
  { t with valid := t.valid ||| lineBit line, dirty := t.dirty ||| lineBit line, since := t.since ||| lineBit line
           poison := t.poison &&& ~~~lineBit line }

/-- Where a frame is not written back at once, nothing follows its store (Table 03-5). -/
theorem flashOnlyOut_of_ne (h : policyOf s f ≠ .flashOnly) : flashOnlyOut f s = s := if_neg fun hp => h hp.1

/-- What a full-line store leaves of the tier, where its extent is not FLASH_ONLY. -/
theorem storeLine_whole_tier (h : policyOf s (line / 128) ≠ .flashOnly) : (storeLine line (BitVec.allOnes 128) data s).tier =
    { s.tier with
      hbm := putMasked s.tier.hbm line (BitVec.allOnes 128) data
      toPoison := s.tier.toPoison.filter (· != line)
      tags := Tab.upd {} (line / 128) (Tag.wholeLine line) s.tier.tags } := by
  rw [storeLine, flashOnlyOut_of_ne]
  · simp [modTag, telAdd]
    rfl
  · rw [policyOf, extDesc, modTag, State.modTier_ext, telAdd, State.modTel_ext, noteWrite_ext]
    exact h

end StoreLine

/-- A tag whose line was written whole holds the line, dirty and clean of poison. -/
theorem wholeLine_bits (line : Nat) (t : Tag) : (t.wholeLine line).valid.getLsbD (line % 128) = true ∧
    (t.wholeLine line).dirty.getLsbD (line % 128) = true ∧ (t.wholeLine line).poison.getLsbD (line % 128) = false := by
  have hbit := lineBit_getLsbD line
  refine ⟨?_, ?_, ?_⟩
  · rw [Tag.wholeLine, BitVec.getLsbD_or, hbit, Bool.or_true]
  · rw [Tag.wholeLine, BitVec.getLsbD_or, hbit, Bool.or_true]
  · rw [Tag.wholeLine, BitVec.getLsbD_and, BitVec.getLsbD_not, hbit, Bool.not_true, Bool.and_false, Bool.and_false]

/-- Its frame is listed among the tags. -/
theorem wholeLine_ne_default (line : Nat) (t : Tag) : t.wholeLine line ≠ {} := fun h => by
  have hvalid := (wholeLine_bits line t).1
  rw [h] at hvalid
  exact Bool.false_ne_true (BitVec.getLsbD_zero.symm.trans hvalid)

/-- Settles O11, by what the store leaves of the tier. -/
theorem storeLineWritesLine : Obligations.StoreLineWritesLine := by
  intro s line data hwf hlen hpol t
  have htier := storeLine_whole_tier (data := data) hpol
  have htag : tagOf t (line / 128) = (tagOf s (line / 128)).wholeLine line := by
    rw [tagOf, htier]
    exact Tab.get_put_self_of_ne _ _ _ _ (wholeLine_ne_default line _)
  obtain ⟨hvalid, hdirty, hpoison⟩ := wholeLine_bits line (tagOf s (line / 128))
  refine ⟨?_, ?_, ?_, ?_, ?_, ?_⟩
  · rw [lineBytes, htier, readBytes_putMasked_whole hwf line hlen]
  · exact (storeLine_keeps (Keeps.refl s)).hbm hwf
  · intro a ha
    rw [htier, readByte_putMasked hwf, if_neg fun h => ha ⟨h.1, h.2.1⟩]
  · rw [htag, hvalid]
  · rw [lineDirty, htag, hdirty]
  · rw [linePoison, htag, hpoison, htier]
    simp

/-! ### The decay of access counts (R50, R51) -/

/-- A value of a table whose every value is replaced, and the one it replaces, are related as each of them is. -/
theorem Tab.get_map_rel {α : Type} (R : α → α → Prop) (g : Nat → α → α) (d : α) (hd : R d d) (hg : ∀ k v, R (g k v) v)
    (t : List (Nat × α)) (k : Nat) : R (Tab.get d (t.map fun e => (e.1, g e.1 e.2)) k) (Tab.get d t k) := by
  induction t with
  | nil => exact hd
  | cons e t ih =>
    rw [List.map_cons, Tab.get, Tab.get]
    split
    · exact hg e.1 e.2
    · exact ih

/-- The tag of a frame after a decay interval: half the count, and for an unpinned AUTO frame the retention that follows from it. -/
def decayedTag (s : State) (f : Nat) (t : Tag) : Tag :=
  { t with count := t.count / 2
           retention := if policyOf s f = .auto ∧ t.retention ≠ .pinned then retentionOf s (t.count / 2) else t.retention }

theorem decay_tags (s : State) : (decay s).tier.tags = s.tier.tags.map fun e => (e.1, decayedTag s e.1 e.2) := rfl

/-- Tag `t` is tag `u` with its access count halved: the frame's state and its lines are the same. -/
def Halved (t u : Tag) : Prop :=
  t.count = u.count / 2 ∧ t.state = u.state ∧ t.valid = u.valid ∧ t.dirty = u.dirty

/-- Decay halves the count of every frame. -/
theorem tagOf_decay (s : State) (f : Nat) : Halved (tagOf (decay s) f) (tagOf s f) := by
  rw [tagOf, decay_tags]
  exact Tab.get_map_rel Halved (decayedTag s) {} ⟨rfl, rfl, rfl, rfl⟩ (fun _ _ => ⟨rfl, rfl, rfl, rfl⟩) s.tier.tags f

/-- Settles O13: decay writes the tags, and what a tag keeps is read off its new value. -/
theorem tierDecayHalvesCounts : Obligations.TierDecayHalvesCounts := fun s =>
  ⟨decay s, (does_tierDecay s).exec_eq_next rfl, rfl, rfl, tagOf_decay s, rfl, rfl, rfl⟩

/-! ### The stripe reserve (R55, R77) -/

section Reserve

variable {h : Held} {s : State}

/-- What the reserve holds beside a unit that arrives: all but an older copy of it. -/
def heldBeside (h : Held) (s : State) : List Held :=
  s.flash.held.filter fun x => !(x.home == h.home && x.isCopy == h.isCopy &&
    (if h.isCopy then x.mu == h.mu else x.stripe == h.stripe && x.member == h.member))

/-- The part of the reserve that units of other homes take. -/
def foreignHeld (s : State) (l : List Held) : Nat := (l.filter fun x => x.home != servedFdn s).length

/-- The state with a unit in the reserve. -/
def storeHeld (h : Held) (s : State) : State := s.modFlash fun f => { f with held := heldBeside h s ++ [h] }

/-- A unit is stored where the others leave room for it. -/
theorem takeHeld_eq (h : Held) (s : State) :
    takeHeld h s = if reserveUnits s ≤ foreignHeld s (heldBeside h s) then (false, s) else (true, storeHeld h s) := rfl

theorem takeHeld_full (hfull : reserveUnits s ≤ foreignHeld s (heldBeside h s)) : takeHeld h s = (false, s) := by
  rw [takeHeld_eq, if_pos hfull]

theorem takeHeld_room (hroom : s.flash.held.length < reserveUnits s) : takeHeld h s = (true, storeHeld h s) := by
  have hle : foreignHeld s (heldBeside h s) ≤ s.flash.held.length := (List.length_filter_le _ _).trans (List.length_filter_le _ _)
  rw [takeHeld_eq, if_neg (by omega)]

theorem mem_storeHeld (h : Held) (s : State) : h ∈ (storeHeld h s).flash.held := List.mem_append_right _ (List.mem_singleton_self h)

theorem takeHeld_pending (h : Held) (s : State) : (takeHeld h s).2.pending = s.pending := by
  rw [takeHeld_eq]
  split <;> rfl

/-- Beside a member of a stripe the reserve holds the copies, and the members of other homes, stripes and places. -/
theorem heldBeside_member (home : BitVec 16) (stripe member mu : Nat) (data : List Byte) (s : State) :
    heldBeside { home := home, stripe := stripe, member := member, mu := mu, data := data } s =
      s.flash.held.filter fun x => !(x.home == home && !x.isCopy && x.stripe == stripe && x.member == member) := by
  simp [heldBeside, Bool.and_assoc]

/-- Beside a copy the reserve holds the members, and the copies of other homes and units. -/
theorem heldBeside_copy (home : BitVec 16) (mu : Nat) (data : List Byte) (s : State) :
    heldBeside { home := home, mu := mu, isCopy := true, data := data } s =
      s.flash.held.filter fun x => !(x.home == home && x.isCopy && x.mu == mu) := by
  simp [heldBeside, Bool.and_assoc]

/-- A unit that arrives is confirmed by `ans`: OK with the unit stored where there is room, QUEUE_FULL with nothing stored where there is
none. -/
theorem reserve_takes (ans : Bool → Out) (l : List Held) (hl : heldBeside h s = l) :
    let t := emit (ans (takeHeld h s).1) (takeHeld h s).2
    t = { s with flash := t.flash, out := t.out } ∧
      (s.flash.held.length < reserveUnits s → t.out = s.out ++ [ans true] ∧ h ∈ t.flash.held) ∧
      (reserveUnits s ≤ (l.filter fun x => x.home != servedFdn s).length → t.out = s.out ++ [ans false] ∧ t.flash = s.flash) := by
  subst hl
  refine ⟨?_, fun hroom => ?_, fun hfull => ?_⟩
  · rw [takeHeld_eq]
    split <;> rfl
  · rw [takeHeld_room hroom]
    exact ⟨rfl, mem_storeHeld h s⟩
  · rw [takeHeld_full hfull]
    exact ⟨rfl, rfl⟩

end Reserve

/-- Settles O15: a member and a copy are confirmed in different words, and stored alike. -/
theorem reserveTakesUnits : Obligations.ReserveTakesUnits := by
  refine ⟨?member, ?copy⟩
  case member =>
    intro home stripe member mu data s
    have htake := reserve_takes (fun ok => .memberData home stripe.toNat member (if ok then .ok else .queueFull) []) _
      (heldBeside_member home stripe.toNat member mu.toNat data s)
    exact ⟨_, (does_stripeMemberReceive home stripe member mu data s).exec_eq_next (takeHeld_pending _ s), htake⟩
  case copy =>
    intro home mu data s
    have htake := reserve_takes (fun ok => .unitAns home mu.toNat (if ok then .ok else .queueFull)) _
      (heldBeside_copy home mu.toNat data s)
    exact ⟨_, (does_buddyCopyReceive home mu data s).exec_eq_next (takeHeld_pending _ s), htake⟩

/-! ### Fills, write-backs, cleaning, prefetch and HBM errors (R42, R43, R46, R47, R49, R59) -/

section TierCommands

variable {f mu set line : Nat} {res : MediaRead} {s : State}

theorem fillDone_filling (h : (tagOf s f).state = .filling) : fillDone f res s = pump (endFill f res s) := if_pos h

theorem mergeDone_merging (h : (tagOf s f).merging = true) : mergeDone f res s = pump (endFill f res s) := if_pos h

/-- The tag of a frame whose I lines were fetched: every line is valid, and a FILLING frame is PRESENT. -/
def Tag.filled (poison : BitVec 128) (t : Tag) : Tag :=
  { t with
    state := if t.state = .filling then .present else t.state
    merging := false, valid := BitVec.allOnes 128, poison := t.poison ||| poison }

/-- Its frame is listed among the tags. -/
theorem filled_ne_default (poison : BitVec 128) (t : Tag) : t.filled poison ≠ {} := fun h =>
  absurd (congrArg Tag.valid h) (by simp [Tag.filled])

/-- A fill writes the tag of its frame alone. -/
theorem installFill_tags (f : Nat) (res : MediaRead) (s : State) :
    ∃ poison, (installFill f res s).tier.tags = Tab.upd {} f (Tag.filled poison) s.tier.tags := by
  unfold installFill
  split <;> exact ⟨_, rfl⟩

theorem tagOf_installFill (f : Nat) (res : MediaRead) (s : State) :
    ∃ poison, tagOf (installFill f res s) f = (tagOf s f).filled poison := by
  obtain ⟨poison, htags⟩ := installFill_tags f res s
  refine ⟨poison, ?_⟩
  rw [tagOf, htags]
  exact Tab.get_put_self_of_ne _ _ _ _ (filled_ne_default poison _)

/-- Reading the old pages of a write-back leaves the buddy that its copy goes to. -/
theorem readOld_buddy (w : WriteBack) (res : MediaRead) (s : State) : (readOld w res s).1.buddy = w.buddy := by
  unfold readOld
  refine List.foldlRecOn (motive := fun ws : WriteBack × State => ws.1.buddy = w.buddy) _ _ rfl fun ws h e _ => ?_
  dsimp only
  split <;> split <;> exact h

/-- The program of a write-back that no buddy takes part in completes it. -/
theorem wbProgrammed_alone {w : WriteBack} (hw : s.tier.wbs.find? (·.mu == mu) = some w) (hdone : w.homeDone = false)
    (hbuddy : w.buddy = none) : wbProgrammed mu res s =
      (let r := readOld w res s; pump (wbAgain r.1 (finishWriteBack r.1 r.2))) := by
  have hread : (readOld w res s).1.buddy = none := (readOld_buddy w res s).trans hbuddy
  simp [wbProgrammed, hw, hdone, hread]

/-- A set with two clean ways needs no cleaning. -/
theorem cleanSet_clean (h : 2 ≤ cleanWays s set) (k : Nat) : cleanSet set k s = s := by
  cases k with
  | zero => rfl
  | succ k => exact if_pos (h.trans (Nat.le_add_right _ _))

/-- An extent that is no longer PIN_HBM needs no prefetch. -/
theorem prefetchPin_unpinned (hlist : s.tier.prefetch.contains (extOfFrame f) = true) (hpol : policyOf s f ≠ .pinHbm) :
    prefetchPin f s = { s with tier := { s.tier with prefetch := s.tier.prefetch.filter (· != extOfFrame f) } } := by
  have hpol' : (extDesc s (extOfFrame f)).policy ≠ .pinHbm := hpol
  simp only [prefetchPin, hlist, hpol', Bool.not_true, Bool.false_eq_true, if_false, true_or, ne_eq, not_false_eq_true, if_true]
  rfl

/-- A corrected error of a valid line counts against its page. -/
theorem hbmError_corrected (hvalid : (tagOf s (line / 128)).valid.getLsbD (line % 128) = true) :
    hbmError line true s = pageError line (memRec 0x02 0 line s) := by
  simp [hbmError, hvalid]

/-- An uncorrectable error of a D line poisons it. -/
theorem hbmError_dirty (hvalid : (tagOf s (line / 128)).valid.getLsbD (line % 128) = true) (hdirty : lineDirty s line = true) :
    hbmError line false s = mirrorPoison line (poisonLine line 0 (memRec 0x01 1 line s)) := by
  simp [hbmError, hvalid, hdirty]

end TierCommands

/-- Settles O12, by what each command does in the case named. -/
theorem tierCompletions : Obligations.TierCompletions := by
  refine ⟨?fill, ?merge, ?tag, ?written, ?cleaning, ?clean, ?prefetch, ?error⟩
  case fill =>
    exact fun f res s h => exec_eq_of_does (does_fillComplete f res s) (fillDone_filling h)
  case merge =>
    exact fun f res s h => exec_eq_of_does (does_mergeFillComplete f res s) (mergeDone_merging h)
  case tag =>
    intro f res s t
    obtain ⟨poison, htag⟩ := tagOf_installFill f res s
    change t = _ at htag
    rw [htag]
    exact ⟨rfl, rfl, rfl, fun hst => if_pos hst⟩
  case written =>
    exact fun mu res s w hw hdone hbuddy => exec_eq_of_does (does_writebackComplete mu res s) (wbProgrammed_alone hw hdone hbuddy)
  case cleaning =>
    exact fun set s => exec_eq_of_does (does_backgroundCleaning set s) rfl
  case clean =>
    intro set s h
    exact exec_eq_of_does (does_backgroundCleaning set s) (ite_eq_left_iff.mpr fun _ => cleanSet_clean h 2)
  case prefetch =>
    exact fun f s hlist hpol => exec_eq_of_does (does_pinHbmPrefetch f s) (prefetchPin_unpinned hlist hpol)
  case error =>
    intro line s hvalid hdirty
    exact ⟨exec_eq_of_does (does_hbmUncorrectable ⟨line, false⟩ s) (congrArg pump (hbmError_dirty hvalid hdirty)),
      exec_eq_of_does (does_hbmUncorrectable ⟨line, true⟩ s) (congrArg pump (hbmError_corrected hvalid))⟩

/-! ### Adoption (R410-R414) -/

section Adoption

variable {h : FleetHdr} {s : State}

/-- A flooded message that was not seen before is passed on and acted on (R401). -/
theorem passOn_unseen {ty : BitVec 8} {body : List Word} {act : State → State} (hseen : s.flt.seen.contains (h.src, h.mseq) = false) :
    passOn ty h body act s = act (emit (.fleet ty none h body) (noteSeen h.src h.mseq s)) :=
  if_neg (by rw [hseen]; exact Bool.false_ne_true)

end Adoption

/-- Settles O53, by what each command does in the case named. -/
theorem adoptionAndMembers : Obligations.AdoptionAndMembers := by
  refine ⟨⟨?request, ?answer, ?state, ?adopted, ?retry, ?waited, ?fostered⟩, ?find, ?place, ?rebuild, ?read, ?kept, ?confirmed⟩
  case request =>
    intro h s u
    refine ⟨fun hspare hfree => exec_eq_of_does (does_adoptReq h s) ?_, fun hspare => exec_eq_of_does (does_adoptReq h s) ?_⟩
    · simp [u, sawEpoch, hspare, hfree]
    · simp [u, sawEpoch, hspare]
  case answer =>
    intro h st x s hx u
    have hx' : u.flt.standIn.find? (fun x => x.subject == h.subject && x.asked == some h.src) = some x := hx
    refine ⟨fun hst => exec_eq_of_does (does_adoptAns h st s) ?_, fun hst => exec_eq_of_does (does_adoptAns h st s) ?_⟩
    · simp only [u, hx', hst]
      rfl
    · simp only [u, hx', hst]
      rfl
  case state =>
    exact fun c s _ => does_controlStateReceived c s
  case adopted =>
    exact fun h f s hseen => exec_eq_of_does (does_adopt h f s) (passOn_unseen hseen)
  case retry =>
    exact fun d x s hx => exec_eq_of_does (does_adoptRetry d s) (by simp only [hx])
  case waited =>
    exact fun d w s hw => exec_eq_of_does (does_returnWaitExpire d s) (by simp only [hw])
  case fostered =>
    exact fun home ext s => does_fosterInstallDone home ext s
  case find =>
    exact fun h mu x s hx => exec_eq_of_does (does_memberFind h mu s) (by simp only [sawEpoch, State.modFlt_flash, hx])
  case place =>
    intro h mu stripe member s hadopted hplace
    have hunknown : ¬(s.flt.adopted ≠ some (mu.extractLsb' 32 16) ∨ (mapOf s (mu.toNat % 2 ^ 32)).mapped = true) := by
      simp only [hadopted, hplace, ne_eq, not_true_eq_false, Bool.false_eq_true, or_self, not_false_eq_true]
    exact exec_eq_of_does (does_memberLoc h mu stripe member s) (if_neg hunknown)
  case rebuild =>
    refine fun mu s => ⟨fun hmap => exec_eq_of_does (does_stripeRebuild mu s) ?_,
      fun hmap hres => exec_eq_of_does (does_stripeRebuild mu s) ?_⟩
    · simp [hmap]
    · simp [hmap, hres]
  case read =>
    intro reader home stripe member s r
    refine exec_eq_of_does (does_stripeMemberRead reader home stripe member s) ?_
    dsimp only [r]
    split
    · next hx =>
      simp only [hx]
      rfl
    · next hnone =>
      simp only [hnone]
      rfl
  case kept =>
    exact fun home j s => does_controlMirrorReceive home j s
  case confirmed =>
    exact fun mirror jsn s => does_controlMirrorConfirm mirror (.record jsn) s

end Sys2Proof.Machine
end

section
/-! The journal and hold-up: segment and group programs, the compost pass, mirrors, releases and fetches (R69-R77, R81, R497), the fall of
PWRFAIL_N, the flush and the start after it (R78-R80, R470), and the ends of requests: barriers, ownership commits, deadlines, answers,
tracker bounds and buckets (R88, R109, R110, R117, R118, R154). -/

namespace Sys2Proof.Machine

open Sys2Proof

/-! ### The journal's own work (R62, R67, R80, R382-R388)

Placing a record in its slot, starting a group program, posting events and raising records change the ring and its segments, what was
posted, and the records, and nothing else of the device. -/

/-- From `s` to `t` nothing changed but the ring, its segments, the marks of RING_HIGH, of a group program and of distrust, the records
and the telemetry. -/
def RingWork (s t : State) : Prop :=
  t = { s with
    jrn := { s.jrn with
      ring := t.jrn.ring, segs := t.jrn.segs, nextSeg := t.jrn.nextSeg, highPosted := t.jrn.highPosted, groupRun := t.jrn.groupRun
      distrusted := t.jrn.distrusted }
    ras := t.ras, tel := t.tel }

theorem RingWork.refl (s : State) : RingWork s s := rfl

theorem RingWork.trans {s t u : State} (a : RingWork s t) (b : RingWork t u) : RingWork s u :=
  Eq.trans b (congrArg (fun v : State => { v with
    jrn := { v.jrn with
      ring := u.jrn.ring, segs := u.jrn.segs, nextSeg := u.jrn.nextSeg, highPosted := u.jrn.highPosted, groupRun := u.jrn.groupRun
      distrusted := u.jrn.distrusted }
    ras := u.ras, tel := u.tel }) a)

theorem RingWork.foldl {α : Type} {f : State → α → State} (hf : ∀ s a, RingWork s (f s a)) (l : List α) (s : State) :
    RingWork s (l.foldl f s) := by
  induction l generalizing s with
  | nil => exact .refl s
  | cons a l ih => exact (hf s a).trans (ih _)

section RingWork

variable {s t : State} (h : RingWork s t)
include h

/-- The journal's own work changes nothing outside the journal, the records and the telemetry. -/
theorem RingWork.frame : t = { s with jrn := t.jrn, ras := t.ras, tel := t.tel } :=
  Eq.trans h (congrArg (fun j : Jrn => { s with jrn := j, ras := t.ras, tel := t.tel }) (congrArg State.jrn h).symm)

theorem RingWork.nextJsn : t.jrn.nextJsn = s.jrn.nextJsn := by rw [h]

theorem RingWork.mirrors : t.jrn.mirrors = s.jrn.mirrors := by rw [h]

theorem RingWork.mirrorTo (e : Nat) : mirrorTo t e = Machine.mirrorTo s e := by
  rw [h]
  rfl

theorem RingWork.addr (g : Word) : addr t g = Machine.addr s g := by
  rw [h]
  rfl

end RingWork

section Reports

variable {a s : State} (h : RingWork a s)
include h

theorem RingWork.modRas (f : Ras → Ras) : RingWork a (s.modRas f) := h.trans rfl

theorem RingWork.telAdd (off n : Nat) : RingWork a (telAdd off n s) := h.trans rfl

/-- An event that concerns no request is a record alone. -/
theorem RingWork.post (e : EventRec) (ext : Option Nat) : RingWork a (post e ext none s) :=
  h.trans (RingWork.foldl (fun t _ => (RingWork.refl t).modRas _) _ s)

theorem RingWork.postDev (ty : BitVec 8) (object : Word) : RingWork a (postDev ty object s) := h.post _ _

theorem RingWork.writeErr (e : ErrRec) : RingWork a (writeErr e none s) := by
  unfold Machine.writeErr
  split
  · exact h.modRas _
  · dsimp only
    split
    · exact h.modRas _
    · exact (h.modRas _).post _ _

theorem RingWork.stormCount (e : ErrRec) : RingWork a (stormCount e s) := by
  unfold Machine.stormCount
  split
  · exact h
  · extract_lets fresh n t x u
    have ht : RingWork a t := h.modRas _
    split
    · exact (((ht.modRas _).writeErr x).modRas _).postDev _ _
    · exact ht

theorem RingWork.raise (e : ErrRec) : RingWork a (raise e s) := ((h.modRas _).stormCount _).writeErr _

theorem RingWork.ringHigh : RingWork a (ringHigh s) := by
  unfold Machine.ringHigh
  split
  · split
    · exact h
    · refine RingWork.postDev ?_ _ _
      exact h.trans rfl
  · exact h.trans rfl

theorem RingWork.startGroup : RingWork a (startGroup s) := by
  unfold Machine.startGroup
  split
  · exact h.trans rfl
  · exact h

theorem RingWork.enterSlot (rc : JRec) (home : BitVec 16) : RingWork a (enterSlot rc home s) := by
  have hplaced : RingWork s (s.modJrn fun j =>
      let (j', g) := segPlace (recUnits rc) (now s) j
      { j' with ring := j'.ring ++ [{ rc := sealRec rc, seg := g, entered := now s, home := home }] }) := by
    unfold State.modJrn segPlace
    dsimp only
    split <;> rfl
  exact (((h.trans hplaced).telAdd _ _).ringHigh).startGroup

/-- Hold-up that is distrusted is reported, and in service the ring is programmed. -/
theorem RingWork.distrust : RingWork a (distrust s) := by
  unfold Machine.distrust
  split
  · exact h
  · have hposted : RingWork a (Machine.postDev 0x1B 0 (powerRec 0x0C 2 (s.modJrn fun j => { j with distrusted := true }))) := by
      refine (RingWork.raise ?_ _).postDev _ _
      exact h.trans rfl
    dsimp only
    split
    · refine RingWork.startGroup (hposted.trans ?_)
      split
      · rfl
      · rfl
    · exact hposted

end Reports

/-- A record of this device takes the next jsn and enters its slot. -/
theorem journal_ringWork (rc : JRec) (s : State) : RingWork (s.modJrn fun j => { j with nextJsn := j.nextJsn + 1 }) (journal rc s) :=
  RingWork.enterSlot (.refl _) _ _

/-! ### What a record of this device leaves as it was (R67) -/

section Journal

variable (rc : JRec) (s : State)

theorem journal_frame : journal rc s = { s with jrn := (journal rc s).jrn, ras := (journal rc s).ras, tel := (journal rc s).tel } :=
  (journal_ringWork rc s).frame

theorem journal_nextJsn : (journal rc s).jrn.nextJsn = s.jrn.nextJsn + 1 := (journal_ringWork rc s).nextJsn

theorem journal_mirrors : (journal rc s).jrn.mirrors = s.jrn.mirrors := (journal_ringWork rc s).mirrors

theorem journal_flash : (journal rc s).flash = s.flash := by rw [journal_frame]

theorem journal_out : (journal rc s).out = s.out := by rw [journal_frame]

theorem journal_pending : (journal rc s).pending = s.pending := by rw [journal_frame]

/-- Whether an address is mirrored does not depend on the journal. -/
theorem mirrorTo_journal (g : Word) : mirrorTo (journal rc s) (extOf (addr (journal rc s) g)) = mirrorTo s (extOf (addr s g)) := by
  rw [(journal_ringWork rc s).mirrorTo, (journal_ringWork rc s).addr]
  rfl

end Journal

/-! ### Messages of the journal (R69, R76, R77, R497) -/

section JournalMessages

variable {seg : Nat} {g : Seg} {b : BitVec 16} {s : State}

/-- A segment that is due comes under program; at most the time moves on to its age. -/
theorem startSegment_due (hg : s.jrn.segs.find? (·.id == seg) = some g) (hdrain : drainStopped s = false) (hst : g.state ≠ .programming) :
    startSegment seg s = { s with
      sys := (startSegment seg s).sys
      jrn := { s.jrn with segs := s.jrn.segs.map fun h => if h.id = seg then { h with state := .programming } else h } } := by
  simp only [startSegment, hg, hdrain, hst, Bool.false_eq_true, or_self, if_false]
  split <;> rfl

/-- A buddy that was not told how far records are folded is told. -/
theorem sendRelease_due (h : Tab.get 0 s.jrn.released b.toNat < s.jrn.foldedTo) :
    sendRelease b s = emit (.release b s.jrn.foldedTo) (s.modJrn fun j => { j with
      released := Tab.put 0 b.toNat s.jrn.foldedTo j.released
      mirrored := j.mirrored.filter fun m => !(m.1 == b && decide (m.2.jsn ≤ s.jrn.foldedTo)) }) :=
  if_neg (Nat.not_le.mpr h)

end JournalMessages

/-- Settles O16: a message changes what it names, and its record takes the next jsn and changes only the journal's own. -/
theorem journalMessages : Obligations.JournalMessages := by
  refine ⟨⟨?start, ?fetch, ?send⟩, ?release, ?key⟩
  case start =>
    intro seg s g hg hdrain hst
    have hdue := startSegment_due hg hdrain hst
    exact ⟨_, (does_segmentProgramStart seg s).exec_eq_next (by rw [hdue]), hdue⟩
  case fetch =>
    exact fun home lo hi s => does_mirrorFetch home lo hi s
  case send =>
    intro b s h
    refine ⟨_, exec_eq_of_does (does_mirrorReleaseSend b s) (sendRelease_due h), rfl, ?_, rfl, fun m => ?_⟩
    · exact Tab.get_put_self_of_ne _ _ _ _ (Nat.ne_zero_of_lt h)
    · simp [List.mem_filter, imp_iff_not_or]
  case release =>
    intro home jsn s
    refine ⟨_, (does_mirrorRelease home jsn s).exec_eq_next (journal_pending _ _), ?_, journal_nextJsn _ _, fun m => ?_⟩
    · unfold takeRelease
      rw [journal_out]
      exact journal_frame _ _
    · unfold takeRelease
      rw [journal_mirrors]
      simp [List.mem_filter, imp_iff_not_or]
  case key =>
    intro home ext key s hkey
    refine ⟨_, (does_keyRecordReceive home ext key s).exec_eq_next (journal_pending _ _), ?_, journal_nextJsn _ _, ?_, fun k hk => ?_⟩
    · unfold takeKey
      rw [journal_out, journal_flash]
      exact journal_frame _ _
    · unfold takeKey
      rw [journal_flash]
      exact Tab.get_put_self_of_ne _ _ _ _ hkey.ne'
    · unfold takeKey
      rw [journal_flash]
      exact Tab.get_put_ne _ _ _ _ _ _ hk

/-! ### Programs and the compost pass (R69, R72, R81) -/

section Programs

variable {seg : Nat} {s : State}

theorem segmentDone_programming (h : (s.jrn.segs.any fun g => g.id == seg && g.state == .programming) = true) :
    segmentDone seg s = pump ((programRecs (fun x => x.seg == seg) s).modJrn fun j => { j with segs := j.segs.filter (·.id != seg) }) :=
  if_pos h

/-- A group program that leaves no tentative record to settle ends barriers, and the next one starts. -/
theorem groupDone_settled (hrun : s.jrn.groupRun = true)
    (hnone : (programRecs (·.inGroup) s).jrn.ring.filter (fun x => x.rc.tentative && x.programmed) = []) :
    groupDone s =
      pump (startGroup (endProgrammedBarriers ((programRecs (·.inGroup) s).modJrn fun j => { j with groupRun := false }))) := by
  simp only [groupDone, hrun, Bool.not_true, Bool.false_eq_true, if_false, State.modJrn_jrn, hnone, List.foldl_nil]

/-- No group program starts while one runs. -/
theorem startGroup_running (hrun : s.jrn.groupRun = true) : startGroup s = s := by
  simp [startGroup, hrun]

/-- An empty flash journal holds no released mirror. -/
theorem dropReleased_idle (hlive : s.jrn.live = []) : dropReleased s = s := by
  refine congrArg (fun l => { s with jrn := { s.jrn with live := l } }) (?_ : s.jrn.live.filter _ = s.jrn.live)
  rw [hlive, List.filter_nil]

/-- With an empty flash journal a pass only sets its priority and how far records are folded. -/
theorem compost_idle (hlive : s.jrn.live = []) (hrun : s.jrn.groupRun = true) :
    compost s = { s with jrn := { s.jrn with compost := (compost s).jrn.compost, foldedTo := (compost s).jrn.foldedTo } } := by
  have hdrop := dropReleased_idle (s := s.modJrn fun j => { j with compost := compostLevel s }) hlive
  have hfold : ∀ urgent effect t, foldFrom urgent effect (byJsn ((s.jrn.live.map (·.2)).filter (!·.mirrored))) t = t := by
    intro urgent effect t
    rw [hlive]
    rfl
  simp only [compost, hdrop, State.modJrn_jrn, hfold]
  rw [startGroup_running]
  · rfl
  · exact hrun

end Programs

/-! ### Mirrors and their confirmations (R74, R75) -/

/-- A mirror that its buddy does not turn away: power holds, its home is not fenced, its type is known and its CRC is right. -/
structure Receivable (home : BitVec 16) (rc : JRec) (s : State) : Prop where
  powered : s.sys.phase ≠ .powerFail
  notFlushed : s.sys.phase ≠ .flushed
  live : isFenced s home = false
  known : ∀ n, rc.body ≠ .other n
  sound : recSound rc = true

/-- A mirrored record takes a slot and is kept for its home until it is released. -/
def keepMirror (home : BitVec 16) (rc : JRec) (s : State) : State :=
  (enterSlot { rc with mirrored := true } home (shadow { rc with mirrored := true } s)).modJrn fun j => { j with
    mirrors := j.mirrors ++ [{ home := home, rc := { rc with mirrored := true } }] }

section Mirrors

variable {home b : BitVec 16} {rc : JRec} {jsn : Nat} {s : State}

/-- Such a mirror is confirmed, and kept where it is not held yet; without a slot it is dropped. -/
theorem takeMirror_receivable (h : Receivable home rc s) : takeMirror home rc s =
    if s.jrn.mirrors.any (fun m => m.home == home && m.rc.jsn == rc.jsn) then emit (.confirm home rc.jsn .ok) s
    else if !slotOk s (if isControl rc then .control else .mirrored) then s
    else emit (.confirm home rc.jsn .ok) (keepMirror home rc s) := by
  obtain ⟨hpow, hflush, hlive, hknown, hsound⟩ := h
  unfold takeMirror
  rw [if_neg (not_or.mpr ⟨hpow, hflush⟩)]
  refine (if_neg ?ofKnownType).trans ?rest
  case ofKnownType =>
    split
    · next n hn => exact absurd hn (hknown n)
    · exact Bool.false_ne_true
  case rest =>
    rw [hsound, if_neg (by decide), hlive, if_neg Bool.false_ne_true]
    rfl

/-- A confirmation that nothing awaits is counted (R110). -/
theorem takeConfirm_unknown (h : (s.jrn.unconf.find? fun u => u.jsn == jsn && u.buddy == b) = none) :
    takeConfirm b jsn .ok s = countRC (Off.home + 0x28) 1 s := by
  simp [takeConfirm, h]

/-- What waited for a confirmation in time goes on. -/
theorem takeConfirm_awaited {u : Unconf} (h : (s.jrn.unconf.find? fun u => u.jsn == jsn && u.buddy == b) = some u) (hlate : u.late = false) :
    takeConfirm b jsn .ok s = pump (endPairLost b (confirmed jsn (s.modJrn fun j => { j with
      unconf := j.unconf.filter fun v => !(v.jsn == jsn && v.buddy == b) }))) := by
  simp [takeConfirm, h, hlate]

/-- A mirror that is not confirmed is sent again, and its next resend is set. -/
theorem resendMirror_awaited {u : Unconf} {m : BitVec 16 × JRec} (hu : s.jrn.unconf.find? (·.jsn == jsn) = some u)
    (hlive : isFenced s u.buddy = false) (hm : (s.jrn.mirrored.find? fun m => m.1 == u.buddy && m.2.jsn == jsn) = some m) :
    resendMirror jsn s = emit (.mirror u.buddy (sealRec { m.2 with mirrored := true })) ((reach u.resendAt s).modJrn fun j => { j with
      unconf := j.unconf.map fun v => if v.jsn = jsn then
        { v with resendAt := now (reach u.resendAt s) + deadlineNs (reach u.resendAt s) } else v }) := by
  simp only [resendMirror, hu, hlive, hm, Bool.false_eq_true, if_false]

/-- The resends set for a record are all due from `t` on, where the new one is. -/
theorem resendAt_of_mem_map {t t' : Nat} (ht : t ≤ t') {l : List Unconf} {v : Unconf}
    (hv : v ∈ l.map fun v => if v.jsn = jsn then { v with resendAt := t' } else v) (hjsn : v.jsn = jsn) : t ≤ v.resendAt := by
  obtain ⟨w, -, rfl⟩ := List.mem_map.mp hv
  by_cases hw : w.jsn = jsn
  · rw [if_pos hw]
    exact ht
  · rw [if_neg hw] at hjsn
    exact absurd hjsn hw

/-- A copy that does not come is forgotten where the extent is not PAIRED. -/
theorem copyUnitTimeout_unpaired {mu : Nat} {t : Track} (ht : s.home.tracker.find? (·.origin == .unit mu) = some t)
    (hred : (extDesc s (mu / 16384)).redundancy ≠ .paired) :
    copyUnitTimeout mu s = (reach t.due s).modHome fun h => { h with tracker := h.tracker.filter (· != t) } := by
  simp only [copyUnitTimeout, ht]
  exact if_neg hred

end Mirrors

/-! ### Fetches of mirrored records (R497) and tentative records (R81) -/

section Fetches

variable {b : BitVec 16} {s : State}

/-- A fetch that is not answered in service is lost. -/
theorem fetchLost_unanswered (hf : (s.jrn.fetches.filter (·.buddy == b)).isEmpty = false) (hlive : isFenced s b = false)
    (hserv : s.sys.phase = .service) : fetchLost b s =
      pump (jrnRec (advanceLoss false ((s.jrn.fetches.filter (·.buddy == b)).flatMap (·.exts)).dedup
        (poisonLines ((s.jrn.fetches.filter (·.buddy == b)).flatMap (·.named))
          ((reach (began s .service + 1000000000) s).modJrn fun j => { j with fetches := j.fetches.filter (·.buddy != b) })))) := by
  simp [fetchLost, hf, hlive, hserv]

/-- A tentative record that was programmed and that no retry adopted is voided by a record, with the next jsn, that changes only the
journal's own; without a buddy nothing else follows. -/
theorem voidRecord_unadopted {jsn : Nat} {x : Slot}
    (hx : (s.jrn.ring.find? fun x => x.rc.jsn == jsn && x.rc.tentative && x.home == ownFdn s) = some x) (hprog : x.programmed = true)
    (hfree : x.adopted = none) (hmirror : mirrorTo s (extOf (addr s x.rc.gsa)) = none) :
    voidRecord jsn s = pump (journal { gsa := x.rc.gsa, iid := x.rc.iid, inc := x.rc.inc, body := .void jsn }
      ((reach (x.progAt + 1000000) s).modJrn fun j => { j with ring := j.ring.filter fun y => !(y.rc.jsn == jsn && y.rc.tentative) })) := by
  have hunpaired : ∀ f rc, mirrorTo (journal rc ((reach (x.progAt + 1000000) s).modJrn f))
      (extOf (addr (journal rc ((reach (x.progAt + 1000000) s).modJrn f)) x.rc.gsa)) = none :=
    fun f rc => (mirrorTo_journal _ _ _).trans hmirror
  simp only [voidRecord, hx, hprog, hfree, Bool.not_true, Bool.false_eq_true, Option.isSome_none, or_self, if_false, hunpaired]

end Fetches

/-- Settles O17, by what each command does in the case named. -/
theorem journalCompletions : Obligations.JournalCompletions := by
  refine ⟨⟨?segment, ?group, fun s => does_compostPass s, ?idle, ?held, ?new, ?unknown, fun b jsn s => does_mirrorConfirm b jsn .fenced s,
    ?confirm, ?fetch⟩, ?late, ?resend, ?copy, ?void⟩
  case segment =>
    exact fun seg s h => exec_eq_of_does (does_segmentProgramComplete seg s) (segmentDone_programming h)
  case group =>
    exact fun s hrun hnone => exec_eq_of_does (does_groupProgramComplete s) (groupDone_settled hrun hnone)
  case idle =>
    intro s hlive hrun
    have hidle := compost_idle hlive hrun
    exact ⟨_, (does_compostPass s).exec_eq_next (by rw [hidle]), hidle⟩
  case held =>
    intro home rc s hpow hflush hlive hknown hsound hheld
    exact exec_eq_of_does (does_mirrorReceive home rc s)
      ((takeMirror_receivable ⟨hpow, hflush, hlive, hknown, hsound⟩).trans (if_pos hheld))
  case new =>
    intro home rc s hpow hflush hlive hknown hsound hnew hslot
    refine exec_eq_of_does (does_mirrorReceive home rc s) ((takeMirror_receivable ⟨hpow, hflush, hlive, hknown, hsound⟩).trans ?_)
    rw [if_neg (ne_true_of_eq_false hnew), hslot]
    rfl
  case unknown =>
    exact fun b jsn s h => exec_eq_of_does (does_mirrorConfirm b jsn .ok s) (takeConfirm_unknown h)
  case confirm =>
    exact fun b jsn u s h hlate => exec_eq_of_does (does_mirrorConfirm b jsn .ok s) (takeConfirm_awaited h hlate)
  case fetch =>
    intro b s hf
    refine ⟨fun hlive hserv => exec_eq_of_does (does_mirrorFetchTimeout b s) (fetchLost_unanswered hf hlive hserv), fun recs => ?_⟩
    exact exec_eq_of_does (does_mirrorFetchEnd b recs s) (if_neg (ne_true_of_eq_false hf))
  case late =>
    exact fun jsn p s hp => exec_eq_of_does (does_pairLate jsn s) (by simp only [pairLate, hp])
  case resend =>
    intro jsn u m s hu hlive hm
    refine ⟨_, exec_eq_of_does (does_mirrorResend jsn s) (resendMirror_awaited hu hlive hm), rfl, rfl, fun v hv hjsn => ?_⟩
    exact resendAt_of_mem_map (Nat.le_add_right _ _) hv hjsn
  case copy =>
    exact fun mu t s ht hred => exec_eq_of_does (does_buddyCopyTimeout mu s) (copyUnitTimeout_unpaired ht hred)
  case void =>
    intro jsn x s hx hprog hfree hmirror
    refine ⟨_, exec_eq_of_does (does_tentativeVoid jsn s) (voidRecord_unadopted hx hprog hfree hmirror), journal_nextJsn _ _, ?_, ?_⟩
    · rw [journal_frame]
      rfl
    · rw [journal_frame]
      rfl

/-! ### Power loss (R78-R80) -/

section PowerLoss

variable {t : Nat} {s : State}

/-- A change of level touches the input and what distrust of hold-up reports, but not the fall that awaits its confirmation. -/
theorem levelChange_fallAt (l : BallLevel) (s : State) : (levelChange l s).sys.fallAt = s.sys.fallAt := by
  unfold levelChange
  dsimp only
  split
  · rw [((RingWork.refl _).distrust).frame]
    rfl
  · rfl

/-- In service a confirmed fall is a power-down. -/
theorem confirmFall_serving (hfall : s.sys.fallAt = some t) (hphase : s.sys.phase = .service ∨ s.sys.phase = .departing) :
    confirmFall s = powerDown (((reach (t + 200) s).modSys fun y => { y with fallAt := none }).modSys fun y => { y with kind := .cold }) := by
  unfold confirmFall
  rw [hfall]
  dsimp only [State.modSys_sys, reach]
  obtain h | h := hphase
  · rw [h]
  · rw [h]

/-- In reset a confirmed fall stops the device with nothing to flush. -/
theorem confirmFall_inReset (hfall : s.sys.fallAt = some t) (hphase : s.sys.phase = .inReset ∨ s.sys.phase = .heldFail) :
    confirmFall s = stopCold ((reach (t + 200) s).modSys fun y => { y with fallAt := none }) := by
  unfold confirmFall
  rw [hfall]
  dsimp only [State.modSys_sys, reach]
  obtain h | h := hphase
  · rw [h]
  · rw [h]

/-- What a flush saves (Table 04-5, R382): each record that is not programmed is in the flush area, the error log is kept with it, and the
ring is empty. -/
structure Flushed (s t : State) : Prop where
  phase : t.sys.phase = .flushed
  ring : t.jrn.ring = []
  segs : t.jrn.segs = []
  log : t.ras.saved = some (s.ras.log, s.ras.head, s.ras.tail)
  saves : ∀ x ∈ s.jrn.ring, x.programmed = false → x.rc ∈ t.jrn.flushArea

/-- A flush saves what it must, and then the device starts again if it may. -/
theorem flushDone_powerFail (hphase : s.sys.phase = .powerFail) : ∃ t, flushDone s = startAgain t ∧ Flushed s t := by
  refine ⟨_, if_neg (not_not.mpr hphase), rfl, rfl, rfl, rfl, fun x hx hprog => ?_⟩
  exact List.mem_append_right _ (List.mem_map_of_mem (List.mem_filter.mpr ⟨hx, by rw [hprog]; rfl⟩))

/-- A probe of a high input counts while fewer than three in a row are low. -/
theorem probe_counts {below : Bool} (hhigh : s.sys.pwrfail = .high) (hstep : s.sys.phase = .bringUp → 2 ≤ s.sys.step)
    (hfew : s.sys.probeLow < 2) :
    probe below s = s.modSys fun y => { y with probeLow := if below then y.probeLow + 1 else 0 } := by
  have hprobed : ¬(s.sys.pwrfail = .low ∨ (s.sys.phase = .bringUp ∧ s.sys.step < 2) ∨
      (s.sys.pwrfail = .undriven ∧ s.pins.map.any (·.finding == 8))) := by
    rw [hhigh]
    rintro (h | ⟨hb, hlt⟩ | ⟨h, -⟩)
    · cases h
    · exact absurd (hstep hb) (by omega)
    · cases h
  unfold probe
  rw [if_neg hprobed]
  cases below with
  | false => rfl
  | true => exact if_neg (Nat.not_le.mpr (Nat.succ_lt_succ hfew))

/-- The request is held until its payment time by bucket `b`. -/
def heldByBucket (b : Nat) (p : PReq) : Bool := match p.why with | .bucket c _ => c == b | _ => false

/-- The first request that a bucket holds goes on at its payment time. -/
theorem payBucket_held {b n : Nat} {p : PReq} {rest : List PReq} (hdue : s.home.waiting.filter (heldByBucket b) = p :: rest)
    (hwhy : p.why = .bucket n t) :
    payBucket b s = if p.kind = .barrier then admitBarrier p (reach t s) else pump (enterSlice p (reach t s)) := by
  unfold payBucket
  dsimp only
  split
  · next hnone => cases Eq.trans hdue.symm hnone
  · next q tail hsome =>
    cases Eq.trans hdue.symm hsome
    rw [hwhy]

end PowerLoss

/-- Settles O18, by what each command does in the case named. -/
theorem holdUp : Obligations.HoldUp := by
  refine ⟨?fall, ?confirm, ?rise, ?flush, ?probe, fun wr v s => does_jrnLossQuery wr v s, ?pay⟩
  case fall =>
    exact fun s h => exec_eq_of_does (does_pwrfailFall s) (if_neg h)
  case confirm =>
    intro t s hfall u
    exact ⟨fun hphase => exec_eq_of_does (does_pwrfailConfirm s) (confirmFall_serving hfall hphase),
      fun hphase => exec_eq_of_does (does_pwrfailConfirm s) (confirmFall_inReset hfall hphase)⟩
  case rise =>
    intro s hlow hfall
    refine exec_eq_of_does (does_pwrfailRise s) ((if_neg hlow).trans ?_)
    simp only [levelChange_fallAt, hfall]
  case flush =>
    intro s hphase
    obtain ⟨t, hdone, hphase', hring, hsegs, hlog, hsaves⟩ := flushDone_powerFail hphase
    exact ⟨t, exec_eq_of_does (does_flushComplete s) hdone, hphase', hring, hsegs, hlog, hsaves⟩
  case probe =>
    exact fun b s hhigh hstep hfew => exec_eq_of_does (does_pwrfailProbe b s) (probe_counts hhigh hstep hfew)
  case pay =>
    exact fun b n p rest t s hdue hwhy => exec_eq_of_does (does_bucketPay b s) (payBucket_held hdue hwhy)

/-! ### Barriers (R88) -/

section Barriers

variable {r : Req} {id : Nat} {b : Barrier} {s : State}

/-- The state with an arriving BARRIER held at its home. -/
def holdBarrier (r : Req) (s : State) : State :=
  s.modHome fun h => { h with waiting := h.waiting ++ [arrivingReq .barrier r s], nextReq := h.nextReq + 1 }

/-- A BARRIER of admitted regions whose bucket does not limit it, and without a counter, is accepted as it arrives. -/
theorem takeBarrier_accepted (hadm : admitting s = true) (hform : barMalformed r = false) (hbkt : bktEnabled s (bucketOf s r.iid) = false)
    (hreg : barRefuses (holdBarrier r s) r = none) (hctr : barCounter r = 0) :
    takeBarrier r s = acceptBarrier (arrivingReq .barrier r s) (holdBarrier r s) := by
  have hfree : bktEnabled (holdBarrier r s) (bucketOf (holdBarrier r s) (arrivingReq .barrier r s).r.iid) = false :=
    (bktEnabled_bucketOf_congr rfl r.iid).trans hbkt
  have hcharge : takeBarrier r s = charge (arrivingReq .barrier r s) (admitBarrier (arrivingReq .barrier r s)) (holdBarrier r s) := by
    simp only [takeBarrier, hadm, hform, Bool.not_true, Bool.false_eq_true, if_false]
    rfl
  have hreg' : barRefuses (holdBarrier r s) (arrivingReq .barrier r s).r = none := hreg
  have hctr' : barCounter (arrivingReq .barrier r s).r = 0 := hctr
  rw [hcharge, charge_unlimited hfree]
  simp only [admitBarrier, hreg', hctr', if_true]

/-- While lines remain to be journalled the barrier waits. -/
theorem barrierStep_waits (hb : s.jrn.barriers.find? (·.id == id) = some b) (hjsn : b.jsn = none)
    (htodo : ((barJournal id b.iid b.todo s).jrn.barriers.any fun x => x.id == id && !x.todo.isEmpty) = true) :
    barrierStep id s = barJournal id b.iid b.todo s := by
  simp only [barrierStep, hb, hjsn, Option.isSome_none, Bool.false_eq_true, if_false, htodo, if_true]

/-- A barrier's record enters its slot; its digest is a free value. -/
def recordBarrier (id : Nat) (b : Barrier) (s : State) : State :=
  journal { iid := b.iid, body := .barrier id ((Config.freeWord s.free).setWidth 32) } s.draw

/-- Once its lines are journalled its record follows, and while hold-up is trusted it ends. -/
theorem barrierStep_ends (hb : s.jrn.barriers.find? (·.id == id) = some b) (hjsn : b.jsn = none)
    (htodo : ((barJournal id b.iid b.todo s).jrn.barriers.any fun x => x.id == id && !x.todo.isEmpty) = false)
    (htrust : (recordBarrier id b (barJournal id b.iid b.todo s)).jrn.distrusted = false) :
    barrierStep id s = endBarrier b (recordBarrier id b (barJournal id b.iid b.todo s)) := by
  rw [recordBarrier] at htrust ⊢
  simp only [barrierStep, hb, hjsn, Option.isSome_none, Bool.false_eq_true, if_false, htodo, htrust]

end Barriers

/-! ### Ownership commits (R154) and buckets (R117) -/

section Commits

variable {key : Nat} {s : State}

/-- The state with the record of a region's change in the ring. -/
def markEntered (key : Nat) (s : State) : State :=
  s.modOwn fun l => l.map fun o => if o.key = key then { o with entered := true } else o

/-- That the record is in the ring is no mirror that a change awaits. -/
theorem any_unmirrored_markEntered :
    (markEntered key s).own.any (fun o => o.key == key && !o.buddy) = s.own.any fun o => o.key == key && !o.buddy := by
  rw [markEntered, State.modOwn_own, List.any_map]
  refine congrArg s.own.any (funext fun o => ?_)
  by_cases h : o.key = key
  · simp [h]
  · simp [h]

/-- A change whose record entered the ring commits where no mirror is awaited, and waits otherwise. -/
theorem enterOwn_eq : enterOwn key s =
    if s.own.any (fun o => o.key == key && !o.buddy) then pump (commitOwn key (markEntered key s)) else markEntered key s := by
  rw [← any_unmirrored_markEntered]
  rfl

/-- Setting buckets one after the other changes nothing else. -/
theorem foldl_setBucket_frame (k : Nat → State → Bucket) (bs : List Nat) (s : State) :
    let t := bs.foldl (fun t b => setBucket b (k b t) t) s
    t = { s with home := { s.home with buckets := t.home.buckets } } := by
  induction bs generalizing s with
  | nil => rfl
  | cons b bs ih => exact ih (setBucket b (k b s) s)

end Commits

/-- Settles O21, by what each command does in the case named. -/
theorem requestEnds : Obligations.RequestEnds := by
  refine ⟨⟨?barrier, ?complete, ?entered, ?commits, ?deadline, ?late, ?answer, ?bound⟩, ?adapt⟩
  case barrier =>
    intro r s hadm hform hbkt p u hreg hctr
    exact exec_eq_of_does (does_barrier r s) (takeBarrier_accepted hadm hform hbkt hreg hctr)
  case complete =>
    intro id b s hb hjsn u
    refine ⟨fun htodo => exec_eq_of_does (does_barrierComplete id s) (barrierStep_waits hb hjsn htodo), ?_⟩
    intro htodo v htrust
    exact exec_eq_of_does (does_barrierComplete id s) (barrierStep_ends hb hjsn htodo htrust)
  case entered =>
    exact fun key s h => exec_eq_of_does (does_ownershipCommit key s) (enterOwn_eq.trans (if_neg (ne_true_of_eq_false h)))
  case commits =>
    exact fun key s h => exec_eq_of_does (does_ownershipCommit key s) (enterOwn_eq.trans (if_pos h))
  case deadline =>
    exact fun n p s hp => exec_eq_of_does (does_responseDeadline n s) (by simp only [deadlineOf, hp])
  case late =>
    exact fun a s h => exec_eq_of_does (does_answerArrival a s) (by simp only [takeAnswer, h])
  case answer =>
    exact fun a t s h => exec_eq_of_does (does_answerArrival a s) (by simp only [takeAnswer, h])
  case bound =>
    exact fun iid tag t s h => exec_eq_of_does (does_trackerTimeout iid tag s) (by simp only [trackLate, h])
  case adapt =>
    intro uses s
    have hset : adaptBuckets (contended uses) s = { elapsed .buckets 100000 s with
        home := { s.home with buckets := (adaptBuckets (contended uses) s).home.buckets } } :=
      foldl_setBucket_frame _ _ (elapsed .buckets 100000 s)
    exact ⟨_, (does_bucketAdapt uses s).exec_eq_next (by rw [hset]; rfl), hset⟩

end Sys2Proof.Machine
end

section
/-! The copy agent (R98-R101) and the codebook cache (R253, R264): what each of their commands does in the case named. -/

namespace Sys2Proof.Machine

open Sys2Proof

/-! ### Copies and their registrations (R100) -/

section Registrations

variable {r : Req} {owner : BitVec 16} {id : Nat} {s : State}

/-- A well-formed COPY without a counter is accepted as the next copy, while the agent has room. -/
theorem takeCopy_accepted (hadm : admitting s = true) (hform : copyMalformed r = false) (hctr : cpCounter r = 0)
    (hroom : copiesQueued s < 4096) :
    takeCopy r s = acceptCopy s.home.nextCopy (s.modHome fun h => { h with
      copies := h.copies ++ [{ id := s.home.nextCopy, req := r }], nextCopy := s.home.nextCopy + 1 }) := by
  have hfull : decide (4096 ≤ copiesQueued s) = false := decide_eq_false (Nat.not_le.mpr hroom)
  simp only [takeCopy, hadm, hform, hctr, hfull, Bool.not_true, Bool.false_eq_true, if_false, if_true]

/-- The counter's home keeps an admitted registration and answers OK. -/
theorem takeRegistration_admitted (hadm : admitRegistration (cpCounter r) r.iid s = none) (hcopy : isBarrier r = false) :
    takeRegistration owner r id false s = emit (.regAnswer owner id .ok) (s.modHome fun h => { h with
      regsCtr := h.regsCtr ++ [{ owner := owner, copyId := id, iid := r.iid, counter := cpCounter r, inc := cpInc r, req := r }] }) := by
  simp only [takeRegistration, hadm, hcopy, Bool.false_eq_true, if_false]

end Registrations

/-! ### Line accesses of a copy (R101) -/

section LineAccesses

variable {id line : Nat} {side : CopySide} {st : Status} {hint : BitVec 10} {data : List Byte} {c : CopyRun} {l : CopyLine} {s : State}

/-- An answer other than OK and NY to an outstanding line access ends its copy, and other copies go on. -/
theorem copyAnswered_failed (hc : s.home.copies.find? (·.id == id) = some c)
    (hl : c.active.find? (fun l => l.line == line && l.side == side) = some l) (hok : st ≠ .ok) (hny : st ≠ .ny) :
    copyAnswered id line side st hint data s = feedCopies (endCopy id st (s.modHome fun h => { h with
      tracker := h.tracker.filter fun t => t.origin != .copyLine id line side })) := by
  rw [copyAnswered, hc]
  dsimp only
  rw [hl]
  cases st with
  | ok => exact absurd rfl hok
  | ny => exact absurd rfl hny
  | _ => rfl

/-- At its bound an outstanding line access ends its copy ABANDONED, and other copies go on. -/
theorem copyBound_outstanding (hc : s.home.copies.find? (·.id == id) = some c)
    (hl : c.active.find? (fun l => l.line == line && l.side == side) = some l) :
    copyBound id line side s = feedCopies (endCopy id .abandoned (reach (l.first + 100000000) s)) := by
  simp only [copyBound, hc, hl]

end LineAccesses

/-! ### Advances of arrival counters (R98) -/

/-- An advance that is not yet due to be lost is issued again after its hint. -/
theorem retryAdvance_again {id : Nat} {a : Advance} {s : State} (ha : s.home.advances.find? (·.id == id) = some a)
    (hearly : Nat.max (now s) a.retryAt < a.first + 100000000) : retryAdvance id s = issueAdvance id (reach a.retryAt s) := by
  have hnow : ¬a.first + 100000000 ≤ now (reach a.retryAt s) := Nat.not_le.mpr hearly
  simp only [retryAdvance, ha, hnow, if_false]

/-! ### The codebook cache (R253, R264) -/

/-- The lines of an extent's codebook. -/
def codebookLines (s : State) (e : Nat) : List Nat := (List.range (32 + ceilDiv (formP s e).cbBytes 128)).map (e * 2 ^ 23 + ·)

/-- The codebook's fill is no longer under way. -/
def endCodebookFill (e : Nat) (s : State) : State := s.modCdc fun c => { c with filling := c.filling.filter (· != e) }

/-- A codebook whose lines are ready and sound, and whose check value holds, is the most recent one of the cache. -/
theorem codebookFilled_caches {e : Nat} {s u : State} (hfill : s.cdc.filling.contains e = true)
    (hready : needLines (codebookLines s e) s = (none, u)) (hsound : (codebookLines s e).any (linePoison (endCodebookFill e u)) = false)
    (hcheck : crc32c (codebookOf (endCodebookFill e u) e (formP s e)) =
      (storedLine (endCodebookFill e u) (e * 2 ^ 23)).extractLsb' 0 32) :
    codebookFilled e s = pump ((endCodebookFill e u).modCdc fun c => { c with
      cached := fitCache (endCodebookFill e u) (4 * 2 ^ 20) (e :: c.cached.filter (· != e)) }) := by
  rw [codebookLines] at hready hsound
  rw [endCodebookFill] at hsound hcheck ⊢
  simp only [codebookFilled, hfill, hready, hsound, hcheck, Bool.not_true, Bool.false_eq_true, if_false, ne_eq, not_true_eq_false]

/-- Settles O20, by what each command does in the case named. -/
theorem copyAgentCommands : Obligations.CopyAgentCommands := by
  refine ⟨⟨?copy, fun owner r id s => does_copyRegister owner r ⟨id, true⟩ s, ?register, ?line, ?advance, ?again⟩,
    fun id line side s => does_nyHintRetry (.copyLine id line side) s, fun core ctx g s => does_nyHintRetry (.station core ctx g) s,
    fun u g s => does_nyHintRetry (.unit u g) s, ?codebook⟩
  case copy =>
    exact fun r s hadm hform hctr hroom => exec_eq_of_does (does_copy r s) (takeCopy_accepted hadm hform hctr hroom)
  case register =>
    exact fun owner r id s hadm hcopy =>
      exec_eq_of_does (does_copyRegister owner r ⟨id, false⟩ s) (takeRegistration_admitted hadm hcopy)
  case line =>
    intro id line side st hint data s c l hc hl
    refine ⟨fun ⟨hok, hny⟩ => ?_, exec_eq_of_does (does_copyNyBound id line side s) (copyBound_outstanding hc hl)⟩
    exact exec_eq_of_does (does_copyLineAnswer id line side st hint data s) (copyAnswered_failed hc hl hok hny)
  case advance =>
    exact fun iid g amount err s hg => exec_eq_of_does (does_counterAdvance iid g amount err s) (if_neg hg)
  case again =>
    exact fun id a s ha hearly => exec_eq_of_does (does_counterAdvanceRetry id s) (retryAdvance_again ha hearly)
  case codebook =>
    intro ext s u e p ls hfill hready v hsound hcheck
    exact exec_eq_of_does (does_codebookFillComplete ext s) (codebookFilled_caches hfill hready hsound hcheck)

end Sys2Proof.Machine
end

section
/-! Coherence at the home (06): which requests, write-backs and snoop responses act on the directory (R119-R139, Table 06-7), and what
its fences, timers and repairs do in the case named (R135-R149). -/

namespace Sys2Proof.Machine

open Sys2Proof

/-! ### Coherence requests (R133, R142, R154) -/

section Requests

variable {op : CohOp} {m : CohMsg} {slot : Fin 64} {n dl : Nat} {s : State}

/-- With no request queued at the directory, an admitted one is served at once. -/
theorem cohPlace_of_queue_nil (hq : s.coh.queue = []) : cohPlace op m slot n dl s = cohServe op m slot n dl s := by
  simp only [cohPlace, hq, List.any_nil, Bool.and_false, Bool.false_eq_true, if_false]

/-- A request that passes the checks, and need not wait at an ownership marker, takes its place at its line. -/
theorem cohAdmit_admitted (hmark : op = .rdS ∨ marked s (addr s m.gsa) = false) (hadm : cohAdmits s op m = none) :
    cohAdmit op m slot n dl s = cohPlace op m slot n dl s := by
  have hgo : (op != .rdS && servesAt s m.gsa == .here && marked s (addr s m.gsa)) = false := by
    obtain rfl | hfree := hmark
    · rfl
    · rw [hfree, Bool.and_false]
  simp only [cohAdmit, hgo, hadm, Bool.false_eq_true, if_false]

/-- An admitting home takes a request of an agent in good standing to the admission point, under the next number. -/
theorem cohEnter_admit (hopen : admitting s = true) (hslot : slotOf s m.iid = some slot) (hlive : agentLost s slot = false)
    (hfence : s.coh.fence = none) (hquiesce : s.coh.quiescing = none) (hroom : sliceQueued s (sliceOf (addr s m.gsa)) < 1024) :
    cohEnter op m s = cohAdmit op m slot s.home.nextReq (now s + deadlineNs s)
      (s.modHome fun h => { h with nextReq := h.nextReq + 1 }) := by
  simp only [cohEnter, hopen, hslot, hlive, hfence, hquiesce, Nat.not_le.mpr hroom, Bool.not_true, Bool.false_eq_true,
    Option.isSome_none, if_false]
  rfl

/-- No check of a coherence request reads the number that the next request gets. -/
theorem cohAdmits_modHome (f : Home → Home) : cohAdmits (s.modHome f) op m = cohAdmits s op m := rfl

/-- A request that nothing at its home refuses, holds or queues is served in its slice's order. -/
theorem cohArrive_served (hdead : deadAt s (addr s m.gsa) = false) (hopen : admitting s = true) (hslot : slotOf s m.iid = some slot)
    (hlive : agentLost s slot = false) (hmark : op = .rdS ∨ marked s (addr s m.gsa) = false) (hfence : s.coh.fence = none)
    (hquiesce : s.coh.quiescing = none) (hq : s.coh.queue = []) (hroom : sliceQueued s (sliceOf (addr s m.gsa)) < 1024)
    (hadm : cohAdmits s op m = none) :
    cohArrive op m s = pump (cohServe op m slot s.home.nextReq (now s + deadlineNs s)
      (s.modHome fun h => { h with nextReq := h.nextReq + 1 })) := by
  have harrive : cohArrive op m s = pump (cohEnter op m s) := if_neg (ne_true_of_eq_false hdead)
  rw [harrive, cohEnter_admit hopen hslot hlive hfence hquiesce hroom,
    cohAdmit_admitted (s := s.modHome _) hmark ((cohAdmits_modHome _).trans hadm), cohPlace_of_queue_nil (s := s.modHome _) hq]

end Requests

/-! ### Write-backs, evictions and snoop responses (R133, Table 06-7) -/

section Responses

variable {m : CohMsg} {n : Fin 64} {s : State}

/-- WB_D of the owner enters the line (actions w and x). -/
theorem takeWbD_owner (hdead : deadAt s (addr s m.gsa) = false) (hslot : slotOf s m.iid = some n) (hlive : lostSender s (some n) = false)
    (hext : (extDesc s (extOf (addr s m.gsa))).state ≠ .free) (hown : holding s (lineOf (addr s m.gsa)) (some n) = .owner) :
    takeWbD m s = pump (takeWb m n s) := by
  simp only [takeWbD, hdead, hslot, hlive, hext, hown, Bool.false_eq_true, if_false]

/-- EVICT_C of a recorded holder drops its bit and is answered (actions e and x). -/
theorem takeEvict_holder (hdead : deadAt s (addr s m.gsa) = false) (hslot : slotOf s m.iid = some n)
    (hlive : lostSender s (some n) = false) (hext : (extDesc s (extOf (addr s m.gsa))).state ≠ .free)
    (hheld : holding s (lineOf (addr s m.gsa)) (some n) ≠ .n) :
    takeEvict m s = pump (cmpWb m .ok (modDir (lineOf (addr s m.gsa)) (DirEnt.drop n) s)) := by
  cases hh : holding s (lineOf (addr s m.gsa)) (some n) with
  | n => exact absurd hh hheld
  | owner | sharer => simp only [takeEvict, hdead, hslot, hlive, hext, hh, Bool.false_eq_true, if_false]

/-- A snoop that slot `n` answers with tag `tag`. -/
def awaits (n : Fin 64) (tag : BitVec 16) (o : SnoopOut) : Bool := o.slot == n && o.tag == tag && !o.injected

/-- A snoop response that a transaction awaits, and no injection withholds, is recorded in it (action r). -/
theorem takeSnoopRsp_awaited {op : BitVec 6} {st : DirState} {withData : Bool} {t : Txn} (hdead : deadAt s (addr s m.gsa) = false)
    (hslot : slotOf s m.iid = some n) (hlive : agentLost s n = false) (hwith : s.coh.withheld = [])
    (ht : (s.coh.txns.find? fun t => t.line == lineOf (addr s m.gsa) && t.snoops.any (awaits n m.tag)) = some t) :
    takeSnoopRsp op st withData m s = pump (takeRsp m n st withData
      (noteRtt (lineOf (addr s m.gsa)) ((t.snoops.find? (awaits n m.tag)).elim (now s) (·.sent)) s)) := by
  unfold awaits at ht ⊢
  simp only [takeSnoopRsp, hslot, hdead, hlive, ht, hwith, List.contains_nil, Bool.false_eq_true, if_false]

end Responses

/-- Settles O22: each message of Table 06-6 is its arrival, and that acts in the case named. -/
theorem coherenceMessages : Obligations.CoherenceMessages := by
  refine ⟨?request, ?writeback, ?response⟩
  case request =>
    intro m slot s op c hc hdead hopen hslot hlive hmark hfence hquiesce hq hroom hadm
    have hdoes : Does c s (cohArrive op m s) := by
      simp only [List.mem_cons, Prod.mk.injEq, List.not_mem_nil, or_false] at hc
      obtain ⟨rfl, rfl⟩ | ⟨rfl, rfl⟩ | ⟨rfl, rfl⟩ := hc
      · exact does_rdS m s
      · exact does_rdE m s
      · exact does_upg m s
    exact exec_eq_of_does hdoes (cohArrive_served hdead hopen hslot hlive hmark hfence hquiesce hq hroom hadm)
  case writeback =>
    intro m n s hdead hslot hlive hext
    exact ⟨fun hown => exec_eq_of_does (does_wbD m s) (takeWbD_owner hdead hslot hlive hext hown),
      fun hheld => exec_eq_of_does (does_evictC m s) (takeEvict_holder hdead hslot hlive hext hheld)⟩
  case response =>
    intro m n t s op st d c hc hdead hslot hlive hwith ht
    have hdoes : Does c s (takeSnoopRsp op st d m s) := by
      simp only [List.mem_cons, Prod.mk.injEq, List.not_mem_nil, or_false] at hc
      obtain ⟨rfl, rfl, rfl, rfl⟩ | ⟨rfl, rfl, rfl, rfl⟩ | ⟨rfl, rfl, rfl, rfl⟩ | ⟨rfl, rfl, rfl, rfl⟩ | ⟨rfl, rfl, rfl, rfl⟩ |
        ⟨rfl, rfl, rfl, rfl⟩ := hc
      · exact does_rspI m s
      · exact does_rspS m s
      · exact does_rspE m s
      · exact does_rspID m s
      · exact does_rspSD m s
      · exact does_rspED m s
    exact exec_eq_of_does hdoes (takeSnoopRsp_awaited hdead hslot hlive hwith ht)

/-! ### Fences and resets of agents (R145, R146, R148) -/

section Fences

variable {m : CohMsg} {n : Fin 64} {f : FenceRun} {s : State}

/-- The last FENCE_ACK that a fence awaits switches the mode. -/
theorem takeFenceAck_last (hf : s.coh.fence = some f) (hslot : slotOf s m.iid = some n) (hlive : agentLost s n = false)
    (hsent : f.sent.isSome = true) (hlast : f.awaiting = [n]) (hnum : fld m.arg 15 0 = f.number.toNat)
    (hmode : bitOf m.arg 16 = f.tabled) :
    takeFenceAck m s = pump (switchMode { f with awaiting := [] } s) := by
  have hsender : lostSender s (some n) = false := hlive
  have hnone : [n].filter (· != n) = [] := by simp
  simp only [takeFenceAck, hslot, hsender, hf, hsent, hlast, hnum, hmode, hnone, List.contains_cons, beq_self_eq_true, Bool.true_or,
    Bool.and_self, Bool.false_eq_true, List.isEmpty_nil, if_true, if_false]

/-- RESET_ACK ends the rebuild of an agent that is being rebuilt. -/
theorem takeResetAck_rebuilt (hslot : slotOf s m.iid = some n) (hlive : agentLost s n = false) (hmem : n ∈ s.coh.rebuild) :
    takeResetAck m s = s.modCoh fun c => { c with rebuild := c.rebuild.filter (· != n) } := by
  simp only [takeResetAck, hslot, hlive, List.contains_iff_mem.mpr hmem, Bool.false_eq_true, if_true, if_false]

/-- 100 us after its FENCE_REQ a fence switches the mode, and the silent slots are swept. -/
theorem fenceTimeout_sent {t : Nat} (hf : s.coh.fence = some f) (hsent : f.sent = some t) :
    fenceTimeout s = pump (f.awaiting.foldl (fun s n => startSweep n s) (switchMode f (reach (t + 100000) s))) := by
  simp only [fenceTimeout, hf, hsent]

/-- A class F writer forces the other mode while no fence runs, and retry mode only while no sweep runs. -/
theorem forceMode_starts {b : Bool} {wr : Writer} (hw : allowed s wr none [.f] = true) (hf : s.coh.fence = none)
    (hmode : s.coh.tabled = !b) (hsweep : b = false → s.coh.sweeps = []) : forceMode b wr s = pump (startFence b s) := by
  have hgood : ¬(!allowed s wr none [.f] ∨ s.coh.fence.isSome ∨ s.coh.tabled = b) := by simp [hw, hf, hmode]
  have hidle : ¬((!b) = true ∧ (!s.coh.sweeps.isEmpty) = true) := by
    rintro ⟨hb, hrun⟩
    rw [hsweep (by simpa using hb)] at hrun
    cases hrun
  rw [forceMode, if_neg hgood, if_neg hidle]

/-- A rebuild with no agent outstanding ends with none lost. -/
theorem endRebuild_answered (h : s.coh.rebuild = []) :
    endRebuild s = (reach (began s .rebuild + 150000000) s).modCoh fun c => { c with rebuild := [] } := by
  simp only [endRebuild, reach_coh, h, List.foldl_nil]

end Fences

/-! ### Timers of a line (R135, R136, R139, R142) -/

section LineTimers

variable {line : Nat} {slot : Fin 64} {s : State}

/-- A stake window that closes frees its line. -/
theorem closeStake_open {w : Nat × Nat} (hw : s.coh.stakes.find? (·.1 == line) = some w) :
    closeStake line s = pump (lineFreed line ((reach w.2 s).modCoh fun c => { c with stakes := c.stakes.filter (·.1 != line) })) := by
  simp only [closeStake, hw]

/-- A reservation of a line free of any transaction and stake window lapses. -/
theorem expireReservation_free {r : Nat × Fin 64 × Nat} (hbusy : busyLine s line = false)
    (hstake : s.coh.stakes.any (·.1 == line) = false) (hr : s.coh.reserved.find? (·.1 == line) = some r) :
    expireReservation line s = pump ((reach r.2.2 s).modCoh fun c => { c with reserved := c.reserved.filter (·.1 != line) }) := by
  simp only [expireReservation, hbusy, hstake, hr, Bool.or_self, Bool.false_eq_true, if_false]

/-- The transactions, with the snoop of `slot` for `line` sent once more at instant `t`. -/
def resent (line : Nat) (slot : Fin 64) (t : Nat) (txns : List Txn) : List Txn :=
  txns.map fun x => if x.line = line then
    { x with snoops := x.snoops.map fun y => if y.slot = slot then { y with sent := t, tries := y.tries + 1 } else y } else x

/-- An unanswered snoop of a line that is not exclusive is sent again while fewer than four were. -/
theorem snoopUnanswered_shared {t : Txn} {o : SnoopOut} (ht : s.coh.txns.find? (·.line == line) = some t)
    (ho : t.snoops.find? (·.slot == slot) = some o) (hst : (dirGet s line).state ≠ .e) (hfew : o.tries < 4) :
    snoopUnanswered line slot s = emit (.coh (agentIid s slot) (snoopCode o.op) o.tag (gsaOfLine s line) 0 .ok 0 0)
      ((reach (o.sent + 1500) s).modCoh fun c => { c with txns := resent line slot (now (reach (o.sent + 1500) s)) c.txns }) := by
  have howner : ¬((dirGet (reach (o.sent + 1500) s) line).state = .e ∧
      (dirGet (reach (o.sent + 1500) s) line).owner.toNat = slot.val) := fun h => hst h.1
  simp only [snoopUnanswered, ht, ho, howner, hfew, if_true, if_false]
  rfl

/-- An entry of the queue is the place kept at `line` for the next request of `slot`. -/
def isPlaceholder (line : Nat) (slot : Fin 64) (q : QEnt) : Bool :=
  q.line == line && (match q.item with | .placeholder sl _ => sl == slot | _ => false)

/-- A placeholder leaves its queue when its time has come. -/
theorem expirePlaceholder_held {q : QEnt} {e : Nat} (hitem : q.item = .placeholder slot e)
    (hq : s.coh.queue.find? (isPlaceholder line slot) = some q) :
    expirePlaceholder line slot s = pump ((reach e s).modCoh fun c => { c with queue := c.queue.erase q }) := by
  unfold expirePlaceholder
  dsimp only
  split
  · next hnone => cases Eq.trans hq.symm hnone
  · next p hsome =>
    cases Eq.trans hq.symm hsome
    rw [hitem]

end LineTimers

/-! ### The resume window, sweeps and repairs (R141, R147, R149) -/

section Repairs

variable {s : State}

/-- The resume window ends at its instant. -/
theorem endResume_open {t : Nat} (ht : s.coh.resumeUntil = some t) :
    endResume s = (reach t s).modCoh fun c => { c with resumeUntil := none } := by
  simp only [endResume, ht]

/-- The last sweep of an empty directory ends with no fence, where neither the sweep nor a writer asked for one. -/
theorem endSweep_last {slot : Fin 64} (hsweep : s.coh.sweeps = [slot]) (hdir : s.coh.dir = []) (hchanged : s.coh.sweepChanged = false)
    (hforce : s.coh.forceRetry = false) : endSweep slot s = pump (s.modCoh fun c => { c with sweeps := [] }) := by
  have hnone : [slot].filter (· != slot) = [] := by simp
  have hstate : ((s.modCoh fun c => { c with sweeps := c.sweeps.filter (· != slot) }).modCoh fun c =>
      { c with sweepChanged := false, forceRetry := false }) = s.modCoh fun c => { c with sweeps := [] } := by
    simp only [State.modCoh, hsweep, hnone, hchanged, hforce]
  have hlisted : [slot].contains slot = true := by simp
  rw [← hstate]
  simp only [endSweep, hlisted, hdir, hsweep, hnone, hchanged, hforce, State.modCoh_coh, List.filter_nil, List.map_nil, List.foldl_nil,
    List.isEmpty_nil, Bool.not_true, Bool.or_self, Bool.false_eq_true, if_true, if_false]

/-- An unreadable entry whose repair is not yet due is recalled for repair. -/
theorem repairEntry_new {line : Nat} (h : s.coh.recalls.contains { line := line, who := .repair } = false) :
    repairEntry line s = pump (addRecalls [{ line := line, who := .repair }] s) := if_neg (ne_true_of_eq_false h)

end Repairs

/-- Settles O23, by what each command does in the case named. -/
theorem coherenceTimers : Obligations.CoherenceTimers := by
  refine ⟨⟨?ack, ?reset, ?stake, ?resume, ?rebuild, ?fence, ?force⟩, ?reservation, ?snoop, ?placeholder, ?sweep, ?repair⟩
  case ack =>
    exact fun m n f s hf hslot hlive hsent hlast hnum hmode =>
      exec_eq_of_does (does_fenceAck m s) (takeFenceAck_last hf hslot hlive hsent hlast hnum hmode)
  case reset =>
    exact fun m n s hslot hlive hmem => exec_eq_of_does (does_resetAck m s) (takeResetAck_rebuilt hslot hlive hmem)
  case stake =>
    exact fun line w s hw => exec_eq_of_does (does_stakeWindowClose line s) (closeStake_open hw)
  case resume =>
    exact fun t s ht => exec_eq_of_does (does_resumeWindowEnd s) (endResume_open ht)
  case rebuild =>
    exact fun s h => exec_eq_of_does (does_rebuildTimeout s) (endRebuild_answered h)
  case fence =>
    exact fun f t s hf hsent => exec_eq_of_does (does_modeFenceTimeout s) (fenceTimeout_sent hf hsent)
  case force =>
    intro b wr s hw hf hmode hsweep
    have hstart := forceMode_starts hw hf hmode hsweep
    cases b with
    | true => exact exec_eq_of_does (does_modeForceTabled wr s) hstart
    | false => exact exec_eq_of_does (does_modeForceRetry wr s) hstart
  case reservation =>
    exact fun line r s hbusy hstake hr => exec_eq_of_does (does_reservationExpire line s) (expireReservation_free hbusy hstake hr)
  case snoop =>
    intro line slot t o s ht ho hst hfew
    refine ⟨_, exec_eq_of_does (does_snoopTimeout line slot s) (snoopUnanswered_shared ht ho hst hfew), rfl, rfl, ?_, rfl⟩
    exact List.length_map _
  case placeholder =>
    exact fun line slot q e s hitem hq => exec_eq_of_does (does_placeholderExpire line slot s) (expirePlaceholder_held hitem hq)
  case sweep =>
    exact fun slot s hsweep hdir hchanged hforce =>
      exec_eq_of_does (does_lostAgentSweepEnd slot s) (endSweep_last hsweep hdir hchanged hforce)
  case repair =>
    exact fun line s h => exec_eq_of_does (does_dirEntryRepair line s) (repairEntry_new h)

end Sys2Proof.Machine
end

section
/-! The stream runtime's versions and the grafts (R190-R193). -/

namespace Sys2Proof.Machine

open Sys2Proof

variable {wr : Writer} {v : BitVec 32} {s : State}

@[simp] theorem rsUsed_accepted (done : Nat) : rsUsed (accepted done s) = rsUsed s := rfl
@[simp] theorem physOf_accepted (done core : Nat) : physOf (accepted done s) core = physOf s core := rfl

/-- A version that is new, fits and whose source checks is installed with its bytes (R191). -/
theorem rsInstall_ok {data : Option (List Byte)} {src : Word} {len : Nat} (hsrc : staged s wr rsStage = src)
    (hlen : fld (staged s wr (rsStage + 8)) 39 0 = len) (hpos : len ≠ 0) (hmib : len % 2 ^ 20 = 0) (hline : src.toNat % 128 = 0)
    (hnew : s.nmc.rs.any (·.version == v) = false) (hfew : s.nmc.rs.length < 2)
    (hfit : rsUsed s + len ≤ s.tier.carve.getD 1 32 * 2 ^ 30)
    (hext : fdnOf src = servedFdn s → (extDesc s (extOf (addr s src))).state = .assigned) (hcheck : rsChecks s v src data len = true) :
    rsInstall wr v data s = cmdDone rsDone .ok 0 (s.modNmc fun n => { n with
      rs := n.rs ++ [{ version := v, length := len }]
      rsMem := writeBytes n.rsMem (v.toNat * 2 ^ 40) (rsSource s v src data 0 len) }) := by
  have hform : ¬(len = 0 ∨ len % 2 ^ 20 ≠ 0 ∨ src.toNat % 128 ≠ 0) := fun h => h.elim hpos (·.elim (· hmib) (· hline))
  have hroom : ¬(2 ≤ s.nmc.rs.length ∨ s.tier.carve.getD 1 32 * 2 ^ 30 < rsUsed s + len) := by omega
  have hhere : ¬(fdnOf src = servedFdn s ∧ (extDesc s (extOf (addr s src))).state ≠ .assigned) := fun h => h.2 (hext h.1)
  simp only [rsInstall, hsrc, hlen, if_neg hform, hnew, if_neg hroom, if_neg hhere, hcheck, Bool.not_true, Bool.false_eq_true, if_false]

/-- A version that is installed begins to retire, and goes at once where no job is bound to it (R191). -/
theorem rsRetire_installed (h : (s.nmc.rs.any fun r => r.version == v) = true) :
    rsRetire v s = rsRetireTry (s.modNmc fun n => { n with
      rs := n.rs.map fun r => if r.version = v then { r with retiring := some (now s) } else r }) := by
  simp only [rsRetire, h, Bool.not_true, Bool.false_eq_true, if_false]

/-- At 10 ms a retirement to whose version no running job is bound has no job to restart (R191). -/
theorem rsBoundEnd_unbound {r : RsVer} {t : Nat} (hr : s.nmc.rs.find? (·.retiring.isSome) = some r) (ht : r.retiring = some t)
    (hfree : ∀ e ∈ s.nmc.jobs, e.2.phase = .ended ∨ e.2.phase = .committed ∨ rsVersion e.2 ≠ r.version) :
    rsBoundEnd s = rsRetireTry (reach (t + 10000000) s) := by
  have hnone : (s.nmc.jobs.filter fun e =>
      decide (e.2.phase ≠ .ended ∧ e.2.phase ≠ .committed ∧ rsVersion e.2 = r.version)) = [] := by
    rw [List.filter_eq_nil_iff]
    intro e he
    rcases hfree e he with h | h | h <;> simp [h]
  simp only [rsBoundEnd, hr, ht, Option.getD_some, reach_nmc, hnone, List.map_nil, List.foldl_nil]

/-- A graft of a mapped core answers the physical core grafted in (R192). -/
theorem graftCmd_mapped {core : Fin 16} (h : physOf s core.val ≠ 31) : graftCmd core s =
    cmdDone (Off.nmc + 0x10018) .ok (BitVec.ofNat 32 (physOf (graftCore core s) core.val)) (graftCore core s) :=
  if_neg h

/-- Settles O31: each command of the runtime and of the grafts, once its register has accepted it. -/
theorem runtimeAndGrafts : Obligations.RuntimeAndGrafts := by
  refine ⟨?install, ?retire, ?bound, ?graft⟩
  case install =>
    intro wr v image s hready src len a hpos hmib hline hnew hfew hfit hext hcheck
    have hrun := rsInstall_ok (s := a) (wr := wr) (data := image) rfl rfl hpos hmib hline hnew hfew hfit hext hcheck
    exact exec_eq_of_does (does_nmcRsInstall wr v image s) ((congrArg Prod.snd (issue_ready hready)).trans hrun)
  case retire =>
    intro wr v s hready hv
    exact exec_eq_of_does (does_nmcRsRetire wr v s) ((congrArg Prod.snd (issue_ready hready)).trans (rsRetire_installed hv))
  case bound =>
    exact fun r t s hr ht hfree => exec_eq_of_does (does_rsRetireBound s) (rsBoundEnd_unbound hr ht hfree)
  case graft =>
    intro wr core s hready hmapped
    exact exec_eq_of_does (does_graft wr core s) ((congrArg Prod.snd (issue_ready hready)).trans (graftCmd_mapped hmapped))

end Sys2Proof.Machine
end

section
/-! The queues of jobs: doorbells, dispatch, SUSPEND and CANCEL, completion records and forwarded jobs (R172-R176, R183, R185). -/

namespace Sys2Proof.Machine

open Sys2Proof

/-! ### Submission queues (R173) -/

section Submission

variable {p : Nat} {s : State}

/-- A doorbell of the queue's owner moves the tail to a place that the ring holds and that the head has not passed (R173, R480). -/
theorem sqDoorbell_moves {wr : Writer} {v : Word} (hwr : allowed s wr (qOwner (sqBase s p)) [.w] = true) (hin : fld v 15 0 < sqSize s p)
    (hdist : ringDist (sqSize s p) (sqHead s p) (sqTail s p) ≤ ringDist (sqSize s p) (sqHead s p) (fld v 15 0)) :
    sqDoorbell wr p v s = (none, (if fld v 15 0 = sqTail s p then s else wakeCores s).modNmc fun x => { x with
      sqTail := Tab.put 0 p (fld v 15 0) x.sqTail }) := by
  have hgood : ¬(sqSize s p ≤ fld v 15 0 ∨
      ringDist (sqSize s p) (sqHead s p) (fld v 15 0) < ringDist (sqSize s p) (sqHead s p) (sqTail s p)) := by omega
  simp only [sqDoorbell, hwr, if_neg hgood, Bool.not_true, Bool.false_eq_true, if_false]

/-- The head of a pair that its turn takes: the first of those that can go and have the highest priority (R173). -/
def turnHead (a : State) (p : Nat) : Option (Option FwdJob × List Word) :=
  (pairHeads a p).find? fun h => (headPrio a p h).isSome && headPrio a p h == headReady a p

/-- A forwarded job at its turn leaves the device's list once it is dispatched (R173, R175). -/
theorem dispatchPair_forwarded {q : FwdJob} {d : List Word} {u : State} (hadm : admitting (skipHead p 65536 s) = true)
    (hturn : turnOf (skipHead p 65536 s) p = true) (hfirst : turnHead (skipHead p 65536 s) p = some (some q, d))
    (hgo : dispatchReq q (wakeCores ((skipHead p 65536 s).modNmc fun n => { n with lastPair := p, lastOrigin := q.origin })) = (true, u)) :
    dispatchPair p s = u.modNmc fun n => { n with fwdIn := n.fwdIn.erase q } := by
  rw [turnHead] at hfirst
  simp only [dispatchPair, hadm, hturn, hfirst, Option.bind_some, hgo, Bool.not_true, Bool.or_self, Bool.false_eq_true, if_false, if_true]

/-- The head of the pair's own queue at its turn is read, dispatched and leaves its queue (R173). -/
theorem dispatchPair_own {d : List Word} {i : Nat} {bs : List Byte} {u v : State} (hadm : admitting (skipHead p 65536 s) = true)
    (hturn : turnOf (skipHead p 65536 s) p = true) (hfirst : turnHead (skipHead p 65536 s) p = some (none, d)) :
    let w := wakeCores ((skipHead p 65536 s).modNmc fun n => { n with lastPair := p, lastOrigin := none })
    (sqEntries w p).head? = some i →
    ownAsk (0x1000 + p) .load (lineRead w (pairIid w p) (qOff (sqBase w p) + 128 * i)) w = (some (.ok, bs), u) →
    dispatchReq { pair := p, iid := pairIid u p, desc := wordsOfBytes 16 bs } u = (true, v) →
    dispatchPair p s = takeEntry p i v := by
  intro w hi hread hgo
  rw [turnHead] at hfirst
  simp only [dispatchPair, hadm, hturn, hfirst, Option.bind_some, Option.bind_none, hi, hread, hgo, w, Bool.not_true, Bool.or_self,
    Bool.false_eq_true, if_false, if_true]

/-- The first SUSPEND or CANCEL of a queue, read and meant for this device, leaves its queue once it has taken effect (R183, R185). -/
theorem queueReq34_here {kind tag i : Nat} {act : FwdJob → State → Bool × State} {bs : List Byte} {u : State} :
    let a := skipHead p 65536 s
    let q : FwdJob := { pair := p, iid := pairIid u p, desc := wordsOfBytes 16 bs }
    ((sqEntries a p).filter fun i => !skipped a p i).find? (fun i => dKind (sqPeek a p i) == kind) = some i →
    ownAsk (tag + p) .load (lineRead a (pairIid a p) (qOff (sqBase a p) + 128 * i)) a = (some (.ok, bs), u) →
    descBad q.desc = false → targetRoute u q = .inr none → (act q u).1 = true →
    queueReq34 kind tag p act s = takeEntry p i (act q u).2 := by
  intro a q hfirst hread hgood hhere hgone
  simp only [queueReq34, hfirst, hread, hgood, hhere, hgone, a, q, Bool.false_eq_true, if_false, if_true]

end Submission

/-! ### Completion records (R176) -/

section Records

variable {p : Nat} {r : CqRec} {s : State}

/-- A record for another device is sent there and kept as sent (R176; DEDUCED, log 75). -/
theorem writeRecord_sent {f : BitVec 16} (hr : s.nmc.cq.find? (fun r => r.pair == p && !r.sent) = some r) (hdest : r.dest = some f) :
    writeRecord p s = emit (.jobDone f p r.words)
      (s.modNmc fun n => { n with cq := modFirst (· == r) (fun x => { x with sent := true }) n.cq }) := by
  simp only [writeRecord, hr, hdest]

/-- A record of the pair's own jobs goes into its completion queue where there is room (R176). -/
theorem writeRecord_own {bs : List Byte} {u : State} (hr : s.nmc.cq.find? (fun r => r.pair == p && !r.sent) = some r)
    (hdest : r.dest = none) (hexec : r.exec = none) (hvalid : qValid (cqBase s p) = true)
    (hroom : ringFull (sqSize s p) (cqHead s p) (cqTail s p) = false)
    (hstore : ownAsk (0x2000 + p) .storePart (wordsWrite s (pairIid s p) (qOff (cqBase s p) + 32 * cqTail s p) r.words) s =
      (some (.ok, bs), u)) :
    writeRecord p s = recordDone r (signal (qWin (cqBase u p)) (qVec (cqBase u p)) (u.modNmc fun n => { n with
      cqTail := Tab.put 0 p ((cqTail s p + 1) % Nat.max 1 (sqSize s p)) n.cqTail })) := by
  simp only [writeRecord, hr, hdest, hexec, hvalid, hroom, hstore, Bool.not_true, Bool.or_self, Bool.false_eq_true, if_false]
  rfl

/-- The originating device has written the record that was sent to it (R176). -/
theorem recordTaken_sent {f tag : BitVec 16}
    (hr : (s.nmc.cq.find? fun r => r.pair == p && r.sent && r.dest == some f && recTag r.words == tag.toNat) = some r) :
    recordTaken p f tag s = recordDone r s := by
  simp only [recordTaken, hr]

end Records

/-! ### Jobs forwarded from another device (R175) -/

section Forwarded

variable {q : FwdJob} {s : State}

/-- A forwarded RUN that passes its checks waits for its turn (R175). -/
theorem takeForwarded_run (hgood : descBad q.desc = false) (hkind : dKind q.desc = 1) (hstart : startStatus s q.iid q.desc = none) :
    takeForwarded q s = s.modNmc fun n => { n with fwdIn := n.fwdIn ++ [q] } := by
  simp [takeForwarded, hgood, hkind, hstart]

/-- A forwarded RESUME waits for its turn (R175). -/
theorem takeForwarded_resume (hgood : descBad q.desc = false) (hkind : dKind q.desc = 2) :
    takeForwarded q s = s.modNmc fun n => { n with fwdIn := n.fwdIn ++ [q] } := by
  simp [takeForwarded, hgood, hkind]

/-- A forwarded SUSPEND that can take effect does so as it comes (R185). -/
theorem takeForwarded_suspend (hgood : descBad q.desc = false) (hkind : dKind q.desc = 3) (hgone : (actSuspend q s).1 = true) :
    takeForwarded q s = (actSuspend q s).2 := by
  simp [takeForwarded, hgood, hkind, hgone]

/-- A forwarded CANCEL takes effect as it comes (R183). -/
theorem takeForwarded_cancel (hgood : descBad q.desc = false) (hkind : dKind q.desc = 4) : takeForwarded q s = actCancel q s := by
  simp [takeForwarded, hgood, hkind]

end Forwarded

/-- Settles O28: each command by the rule of its queue. -/
theorem jobQueues : Obligations.JobQueues := by
  refine ⟨?doorbell, ?dispatch, ?cancel, ?suspend, ?write, ?arrived, ?taken, ?forward⟩
  case doorbell =>
    exact fun wr pair v s hwr hin hdist =>
      exec_eq_of_does (does_nmcSqDb wr pair v s) (congrArg Prod.snd (sqDoorbell_moves hwr hin hdist))
  case dispatch =>
    intro pair s p a first hadm hturn
    constructor
    · exact fun q d u hfirst hgo => exec_eq_of_does (does_jobDispatch pair s) (dispatchPair_forwarded hadm hturn hfirst hgo)
    · exact fun i d bs u v hfirst hi hread hgo =>
        exec_eq_of_does (does_jobDispatch pair s) (dispatchPair_own hadm hturn hfirst hi hread hgo)
  case cancel =>
    exact fun pair i bs s u hfirst hread hgood hhere =>
      exec_eq_of_does (does_cancel pair s) (queueReq34_here hfirst hread hgood hhere rfl)
  case suspend =>
    exact fun pair i bs s u hfirst hread hgood hhere hgone =>
      exec_eq_of_does (does_suspend pair s) (queueReq34_here hfirst hread hgood hhere hgone)
  case write =>
    intro pair r s hr
    have hdo := does_cqRecordWrite ⟨pair, .write⟩ s
    constructor
    · exact fun f hdest => exec_eq_of_does hdo (writeRecord_sent hr hdest)
    · exact fun bs u hdest hexec hvalid hroom hstore => exec_eq_of_does hdo (writeRecord_own hr hdest hexec hvalid hroom hstore)
  case arrived =>
    exact fun pair f ws s => (does_cqRecordWrite ⟨pair, .arrived f ws⟩ s).next
  case taken =>
    exact fun pair f tag r s hr => exec_eq_of_does (does_cqRecordWrite ⟨pair, .taken f tag⟩ s) (recordTaken_sent hr)
  case forward =>
    intro origin iid pair desc s hgood q
    have hdo := does_jobForward origin pair iid desc s
    refine ⟨?run, ?resume, ?suspend, ?cancel⟩
    case run => exact fun hkind hstart => exec_eq_of_does hdo (takeForwarded_run hgood hkind hstart)
    case resume => exact fun hkind => exec_eq_of_does hdo (takeForwarded_resume hgood hkind)
    case suspend => exact fun hkind hgone => exec_eq_of_does hdo (takeForwarded_suspend hgood hkind hgone)
    case cancel => exact fun hkind => exec_eq_of_does hdo (takeForwarded_cancel hgood hkind)

end Sys2Proof.Machine
end

section
/-! A resumed job claims the header of its suspend area (R188), and what that leaves of a second entry of its context. -/

namespace Sys2Proof.Machine

open Sys2Proof

/-- A resumed job whose area is WRITTEN goes on to claim its header (R188): its context holds the header of the claim from now on. -/
theorem resumeStep_read {core : Fin 16} {ctx : Fin 8} {j : Job} {s : State} (hj : jobAt s (jobKey core ctx) = some j)
    (hphase : j.phase = .loading) (hkind : j.kind = 2) (hclaim : j.claim = .read) (hwritten : hdrState j.hdr = 1) :
    let hdr := hdrClaim s j.hdr false
    resumeStep core ctx s = setClaim (jobKey core ctx) (.cas (bytesOfWords (j.hdr.take 2)) (bytesOfWords (hdr.take 2)) false)
      (modJob (jobKey core ctx) (fun x => { x with hdr := hdr }) s) := by
  have hloads : ¬(j.phase ≠ .loading ∨ j.kind ≠ 2) := fun h => h.elim (· hphase) (· hkind)
  simp only [resumeStep, hj, if_neg hloads, hclaim, hwritten, if_true]

/-- A job that RESUME started and whose suspend area is WRITTEN. -/
def resumedJob : Job := { phase := .loading, kind := 2, claim := .read, hdr := [0, put 30 1] }

/-- A second entry is listed for the resumed job's context, with no header. -/
def twoInOneContext : State := { nmc := { jobs := [(0, resumedJob), (0, {})] } }

/-- Refutes O29 at the claim of RESUME: the model writes the header that the context's job claims into every entry of the context, where
the statement's inner `j` gives each entry a claim of its own header. A state that lists two jobs in one context tells the two apart: the
second entry, without a header, is left with the two words of the first. -/
theorem not_jobsLoadAndSuspend : ¬ Obligations.JobsLoadAndSuspend := by
  unfold Obligations.JobsLoadAndSuspend
  rintro ⟨-, -, hresume, -⟩
  have hstated := (hresume 0 0 resumedJob twoInOneContext rfl rfl rfl).1 rfl (by decide)
  have hdone := exec_eq_of_does (does_resume 0 0 twoInOneContext) (resumeStep_read (j := resumedJob) rfl rfl rfl rfl (by decide))
  have hhdrs := congrArg (fun t => t.nmc.jobs.map (·.2.hdr.length)) (Host.Outcome.next.inj (hdone.symm.trans hstated))
  have hleft : [2, 2] = [2, 0] := hhdrs
  exact absurd hleft (by decide)

end Sys2Proof.Machine
end

section
/-! A job in service: its context, its tiles, its commit, its restarts and its ends (R165-R170, R177, R181, R182). -/

namespace Sys2Proof.Machine

open Sys2Proof

variable {core : Fin 16} {ctx : Fin 8} {j : Job} {s : State}

/-! ### The context and its tiles (R165, R168, R177) -/

/-- A context that may run takes stations that are free (R177). -/
theorem switchTo_free (hrun : runnable s (jobKey core ctx) = true) (hfree : ownerCtx s core.val = none) :
    switchTo core ctx s = progress (jobKey core ctx) (setOwnerCtx core.val (some ctx.val) s) := by
  simp only [switchTo, hrun, hfree, Bool.not_true, Bool.false_eq_true, if_false, if_true]

/-- A body whose streams have sequence numbers left is the job's from now on, and the job has made progress (R166, R182). -/
theorem keepBody_counts {k : Nat} {b : Body} (h : b.seqOver = false) : keepBody k b s = progress k (modBody k (fun _ => b) s) := by
  simp only [keepBody, h, Bool.false_eq_true, if_false]

/-- The header a tile's slot holds: as written by a station, or as DIBBER spelled it (R168). -/
def slotHdr (t : Tile) : TileHdr := if t.raw.isEmpty then t.h else hdrOfWords t.raw

/-- A tile whose header is legal enters its stream (R168). -/
theorem showTile_legal {slot n : Nat} {x : Stream} (hj : jobAt s (jobKey core ctx) = some j)
    (hx : j.b.streams.find? (fun e => e.2.written.head? == some slot) = some (n, x)) (hok : (slotHdr (j.b.tile slot)).ok = true) :
    showTile core ctx slot s = progress (jobKey core ctx) (modBody (jobKey core ctx) (fun _ => { j.b with
      tiles := Tab.put {} slot { j.b.tile slot with h := slotHdr (j.b.tile slot), raw := [] } j.b.tiles
      streams := Tab.put {} n { x with written := x.written.drop 1, ready := x.ready ++ [slot] } j.b.streams }) s) := by
  rw [slotHdr] at hok ⊢
  simp only [showTile, hj, hx, hok, Bool.not_true, Bool.false_eq_true, if_false]

/-- A tile that a station has consumed frees its slot, and what waited for it goes on (R168, R169). -/
theorem endTile_taken {n : Nat} (hj : jobAt s (jobKey core ctx) = some j) (hcons : (j.b.stream n).consumer ≠ 0)
    (htaken : (j.b.stream n).taken ≠ []) :
    let b := drainPort 4096 (j.b.consume n)
    let c := if (j.b.stream n).producer = 0 then b else b.settle (j.b.stream n).producer
    c.seqOver = false → endTile core ctx n s = progress (jobKey core ctx) (modBody (jobKey core ctx) (fun _ => c) s) := by
  intro b c hseq
  have hgo : ¬((j.b.stream n).consumer = 0 ∨ (j.b.stream n).taken.isEmpty = true) := by simp [hcons, htaken]
  simp only [endTile, hj, if_neg hgo]
  exact keepBody_counts hseq

/-! ### The commit (R181) -/

/-- A commit whose group is confirmed reaches its commit point (R181). -/
theorem commitTry_confirmed (hj : jobAt s (jobKey core ctx) = some j) (hphase : j.phase = .committing) (hgroup : j.group ≠ [])
    (hready : commitReady s j = true) : commitTry core ctx s = commitEnd core ctx s := by
  simp [commitTry, hj, hphase, hgroup, hready]

/-- A job past its commit point that was not resumed ends with OK (R176, R181). -/
theorem commitTry_committed (hj : jobAt s (jobKey core ctx) = some j) (hphase : j.phase = .committed) (harea : j.area = 0) :
    commitTry core ctx s = pump (dropVersions (endJob core ctx 0 .ok 0 s)) := by
  simp [commitTry, commitDone, hj, hphase, harea]

/-! ### Restarts and ends (R182) -/

section Restarts

variable (hj : jobAt s (jobKey core ctx) = some j) (hend : j.phase ≠ .ended) (hcom : j.phase ≠ .committed)
include hj hend hcom

/-- A graft repeats a job, whatever its limit (R182, R192). -/
theorem restartJob_graft {st : Status} {w : Word} : restartJob core ctx 3 st w s = rerun core ctx false s := by
  simp [restartJob, hj, hend, hcom]

/-- A job whose restarts are used up ends with the cause (R182). -/
theorem restartJob_atLimit {cause : Nat} {st : Status} {w : Word} (hcause : cause ≠ 3) (hlim : restartLimit s j ≤ j.counted) :
    restartJob core ctx cause st w s = endJob core ctx cause st w s := by
  simp [restartJob, hj, hend, hcom, hcause, hlim]

/-- An access that fails for its home's sake repeats the job and counts (R182). -/
theorem restartJob_access {st : Status} {w : Word} (hlim : j.counted < restartLimit s j) :
    restartJob core ctx 2 st w s = rerun core ctx true s := by
  simp [restartJob, hj, hend, hcom, hlim]

/-- An uncorrectable error repeats the job, counts, and is recorded for its physical core (R182, R184). -/
theorem restartJob_uncorrectable {st : Status} {w : Word} (hlim : j.counted < restartLimit s j) :
    restartJob core ctx 1 st w s = note01 core (raise {
      cls := 0x0A, sev := 1, code := 1, block := 0x20, inst := BitVec.ofNat 8 (physOf s core.val), iid := j.iid } (rerun core ctx true s)) := by
  simp [restartJob, hj, hend, hcom, hlim]

end Restarts

/-- A job that owns the stations, waits for nothing and makes no progress for 1 ms ends under cause 0x08 (R182). -/
theorem noProgress_stuck (hown : Owns core ctx j s) (hreads : j.reads = []) (hfault : faulted s (jobKey core ctx) = false)
    (hports : j.b.ports.any (·.tiles.isNone) = false) :
    noProgress core ctx s = endJob core ctx 8 .abandoned 0 (reach (j.progressAt + 1000000) s) := by
  obtain ⟨hj, hphase, howner⟩ := hown
  simp only [noProgress, hj, hphase, howner, hreads, hfault, hports, ne_eq, not_true_eq_false, List.isEmpty_nil, Bool.not_true,
    Bool.false_eq_true, or_self, if_false]

/-- A job in service ends under cause 0x09 when its wall time is used up (R174, R182). -/
theorem timeLimit_ready (hj : jobAt s (jobKey core ctx) = some j) (hphase : j.phase = .ready) :
    let w := (descWord j 6).toNat
    timeLimit core ctx s = endJob core ctx 9 .abandoned 0 (reach (j.started +
      ((if w = 0 then 1000000 * (regGet s (Off.nmc + 0x10028)).toNat else w) - j.usedBefore)) s) := by
  simp [timeLimit, hj, hphase]

/-- Settles O30: a job's service by its context, tiles and commit, and its ends by the cause. -/
theorem jobsInService : Obligations.JobsInService := by
  refine ⟨⟨?context, ?visible, ?consumed, ?confirmed, ?committed⟩, ?restart, ?progress, ?limit⟩
  case context =>
    exact fun core ctx s hrun hfree => exec_eq_of_does (does_contextSwitch core ctx s) (switchTo_free hrun hfree)
  case visible =>
    intro core ctx slot j n x h s hj hx hh hok
    have hslot : slotHdr (j.b.tile slot.toNat) = h := Option.some.inj ((apply_ite some _ _ _).trans hh)
    subst hslot
    exact exec_eq_of_does (does_tileVisible core ctx slot s) (showTile_legal hj hx hok)
  case consumed =>
    exact fun core ctx n j s hj hcons htaken hseq =>
      exec_eq_of_does (does_tileConsumed core ctx n s) (endTile_taken hj hcons htaken hseq)
  case confirmed =>
    exact fun core ctx j s hj hphase hgroup hready =>
      exec_eq_of_does (does_jobCommitComplete core ctx s) (congrArg pump (commitTry_confirmed hj hphase hgroup hready))
  case committed =>
    exact fun core ctx j s hj hphase harea =>
      exec_eq_of_does (does_jobCommitComplete core ctx s) (congrArg pump (commitTry_committed hj hphase harea))
  case restart =>
    intro core ctx j s hj hend hcom
    have hdo := fun cause => does_jobRestart core ctx cause s
    refine ⟨exec_eq_of_does (hdo .graft) (restartJob_graft hj hend hcom), fun hlim => ⟨?_, ?_, ?_⟩, fun hlim => ⟨?_, ?_, ?_⟩⟩
    · exact exec_eq_of_does (hdo .uncorrectable) (restartJob_uncorrectable hj hend hcom hlim)
    · exact exec_eq_of_does (hdo .abandoned) (restartJob_access hj hend hcom hlim)
    · exact exec_eq_of_does (hdo .deviceLost) (restartJob_access hj hend hcom hlim)
    · exact exec_eq_of_does (hdo .uncorrectable) (restartJob_atLimit hj hend hcom (by decide) hlim)
    · exact exec_eq_of_does (hdo .abandoned) (restartJob_atLimit hj hend hcom (by decide) hlim)
    · exact exec_eq_of_does (hdo .deviceLost) (restartJob_atLimit hj hend hcom (by decide) hlim)
  case progress =>
    exact fun core ctx j s hown hreads hfault hports =>
      exec_eq_of_does (does_jobNoProgress core ctx s) (noProgress_stuck hown hreads hfault hports)
  case limit =>
    exact fun core ctx j s hj hphase => exec_eq_of_does (does_jobTimeLimit core ctx s) (timeLimit_ready hj hphase)

end Sys2Proof.Machine
end

section
/-! DIBBER: the custom CSRs of a job's code, and one instruction of a job or of the stream runtime (R214-R220). -/

namespace Sys2Proof.Machine

open Sys2Proof

variable {core : Fin 16} {ctx : Fin 8} {rd num : Nat} {v : Word} {j : Job} {s t : State}

/-! ### Custom CSRs (R219) -/

/-- A job that owns its core's stations and has not stopped is the one whose code DIBBER executes. -/
theorem dibJob_owner (hown : Owns core ctx j s) (hlive : j.b.dib.stopped = false) : dibJob core ctx s = some j := by
  obtain ⟨hj, hphase, howner⟩ := hown
  simp [dibJob, hj, hphase, howner, hlive]

/-- CSRRW of a custom CSR is the write of that CSR, NMC_ARITH_STATUS as the others. -/
theorem csrAccess_custom (hnum : 0x800 ≤ num ∧ num ≤ 0x807) :
    csrAccess core ctx 1 num v true s = (some (csrWrite core ctx num v s).1, (csrWrite core ctx num v s).2) := by
  by_cases harith : num = 0x803
  · simp [csrAccess, harith]
  · simp [csrAccess, harith, hnum]

section Csr

variable (hown : Owns core ctx j s) (hlive : j.b.dib.stopped = false) (hnum : 0x800 ≤ num ∧ num ≤ 0x807)
include hown hlive hnum

/-- A write that is answered retires with its answer (R219). -/
theorem userCsr_answered {a : Word} (h : csrWrite core ctx num v s = (.ans a, t)) :
    userCsr core ctx num rd v s = retire core ctx rd a (j.b.dib.pc + 4) t := by
  simp only [userCsr, dibJob_owner hown hlive, csrStep, csrAccess_custom hnum, h]

/-- A write that hands over to the commit leaves nothing to retire (R181). -/
theorem userCsr_over (h : csrWrite core ctx num v s = (.over, t)) : userCsr core ctx num rd v s = t := by
  simp only [userCsr, dibJob_owner hown hlive, csrStep, csrAccess_custom hnum, h]

end Csr

/-- The custom CSRs that act on the body alone, whatever is written (Table 09-9), each with what it does to the body. -/
def bodyCsr : List (Nat × (Body → Word → CsrBody)) :=
  [(0x800, csrPush), (0x803, csrArith), (0x804, csrTake), (0x805, csrFree), (0x806, csrAlloc), (0x807, csrEmit)]

/-- Such a CSR changes the body of the context's job as its own function says. -/
theorem csrWrite_body {f : Body → Word → CsrBody} (hf : (num, f) ∈ bodyCsr) (hj : jobAt s (jobKey core ctx) = some j) :
    csrWrite core ctx num v s = ((f j.b v).1, modBody (jobKey core ctx) (fun _ => (f j.b v).2) s) := by
  simp only [bodyCsr, List.mem_cons, Prod.mk.injEq, List.not_mem_nil, or_false] at hf
  rcases hf with ⟨rfl, rfl⟩ | ⟨rfl, rfl⟩ | ⟨rfl, rfl⟩ | ⟨rfl, rfl⟩ | ⟨rfl, rfl⟩ | ⟨rfl, rfl⟩ <;> simp only [csrWrite, hj, Option.getD_some]

/-- The number of such a CSR is that of a custom CSR. -/
theorem bodyCsr_custom {f : Body → Word → CsrBody} (hf : (num, f) ∈ bodyCsr) : 0x800 ≤ num ∧ num ≤ 0x807 := by
  have hnum := List.mem_map_of_mem (f := Prod.fst) hf
  simp only [bodyCsr, List.map_cons, List.map_nil, List.mem_cons, List.not_mem_nil, or_false] at hnum
  omega

/-- A write of such a CSR that is answered retires, with the body as the CSR leaves it (R219). -/
theorem userCsr_body {f : Body → Word → CsrBody} {a : Word} {b : Body} (hown : Owns core ctx j s) (hlive : j.b.dib.stopped = false)
    (hf : (num, f) ∈ bodyCsr) (hans : f j.b v = (.ans a, b)) : userCsr core ctx num rd v s =
      retire core ctx rd a (j.b.dib.pc + 4) (modBody (jobKey core ctx) (fun _ => b) s) :=
  userCsr_answered hown hlive (bodyCsr_custom hf) (by rw [csrWrite_body hf hown.1, hans])

/-- NMC_FEWER is answered 0 and marks the body (R219). -/
theorem csrWrite_fewer (hj : jobAt s (jobKey core ctx) = some j) :
    csrWrite core ctx 0x802 1 s = (.ans 0, modBody (jobKey core ctx) (fun _ => { j.b with fewer := true }) s) := by
  simp [csrWrite, hj]

/-- NMC_COMMIT of a job with a station that still works is answered BUSY (R219). -/
theorem csrWrite_commit_busy (hj : jobAt s (jobKey core ctx) = some j) (hend : ended j.b = false) :
    csrWrite core ctx 0x801 1 s = (.ans 0x10, s) := by
  simp [csrWrite, hj, hend]

/-- NMC_COMMIT of a job whose stations are done begins its commit (R181). -/
theorem csrWrite_commit_begins (hj : jobAt s (jobKey core ctx) = some j) (hend : ended j.b = true) :
    csrWrite core ctx 0x801 1 s = (.over, commitBegin core ctx
      (modBody (jobKey core ctx) (fun b => { b with dib := { b.dib with instret := b.dib.instret + 1 } }) s)) := by
  simp [csrWrite, hj, hend]

/-! ### One instruction (R214, R218) -/

/-- A 32-bit instruction of the runtime that only writes a register retires in the core's runtime hart. -/
theorem rtStep_set {w : BitVec 32} (hlong : w.toNat % 4 = 3)
    (hact : rvDecode w.toNat (rtDib s core.val).pc (rtDib s core.val).reg = .set rd v) : rtStep core ctx w s =
      setRt core.val ({ rtDib s core.val with machine := true }.retire rd v ((rtDib s core.val).pc + 4)) s := by
  have hreg : ({ rtDib s core.val with machine := true } : Dib).reg = (rtDib s core.val).reg := rfl
  simp only [rtStep, hlong, hreg, hact, if_true]
  rfl

/-- A 32-bit instruction of a job that only writes a register retires. -/
theorem userStep_set {i : Nat} (hown : Owns core ctx j s) (hlive : j.b.dib.stopped = false)
    (hfetch : dibFetch core ctx j.b.dib.pc s = (.inr (some (i, 4)), t)) (hact : rvDecode i j.b.dib.pc j.b.dib.reg = .set rd v) :
    userStep core ctx s = retire core ctx rd v (j.b.dib.pc + 4) t := by
  simp only [userStep, dibJob_owner hown hlive, hfetch, hact, userAct]
  rfl

/-! ### ADDI (R217; PRESUMED, log 12) -/

section Addi

/-- The word of ADDI. -/
def addiWord (rd rs : Fin 32) (imm : BitVec 12) : BitVec 32 :=
  BitVec.ofNat 32 (imm.toNat * 2 ^ 20 + rs.val * 2 ^ 15 + rd.val * 2 ^ 7 + 0x13)

variable (rd rs : Fin 32) (imm : BitVec 12)

/-- The word's number is the sum of its fields. -/
theorem addiWord_toNat : (addiWord rd rs imm).toNat = imm.toNat * 2 ^ 20 + rs.val * 2 ^ 15 + rd.val * 2 ^ 7 + 0x13 := by
  rw [addiWord, BitVec.toNat_ofNat]
  omega

/-- A number's low twelve bits, sign-extended by the model, are the immediate sign-extended as a bit vector. -/
theorem sext_eq_signExtend : sext 12 imm.toNat = imm.signExtend 64 := by
  have hmod : imm.toNat % 2 ^ 12 = imm.toNat := Nat.mod_eq_of_lt imm.isLt
  rw [sext, BitVec.signExtend, BitVec.toInt_eq_toNat_cond, hmod]
  congr 1
  split <;> split <;> omega

/-- The fields of the word of ADDI are those it was made of. -/
theorem addiWord_fields : (addiWord rd rs imm).toNat % 128 = 0x13 ∧ rvRd (addiWord rd rs imm).toNat = rd.val ∧
    rvF3 (addiWord rd rs imm).toNat = 0 ∧ rvRs1 (addiWord rd rs imm).toNat = rs.val ∧
    bitsOf (addiWord rd rs imm).toNat 31 20 = imm.toNat := by
  rw [rvRd, rvF3, rvRs1, bitsOf, addiWord_toNat]
  omega

/-- Opcode 0x13 is a register-immediate operation of 64 bits. -/
theorem rvDecode_opImm {i : Nat} (hop : i % 128 = 0x13) (pc : Word) (x : Nat → Word) :
    rvDecode i pc x = ofVal (rvRd i) (rvOpImm i (x (rvRs1 i))) := by
  simp only [rvDecode, hop]

/-- Function 0 of the register-immediate operations adds. -/
theorem rvOpImm_add {i : Nat} (hf3 : rvF3 i = 0) (a : Word) : rvOpImm i a = some (a + rvImmI i) := by
  simp only [rvOpImm, hf3, rvOp]

/-- ADDI writes the sum of its source and its immediate. -/
theorem rvDecode_addi (pc : Word) (x : Nat → Word) :
    rvDecode (addiWord rd rs imm).toNat pc x = .set rd.val (x rs.val + imm.signExtend 64) := by
  obtain ⟨hop, hrd, hf3, hrs, himm⟩ := addiWord_fields rd rs imm
  rw [rvDecode_opImm hop, rvOpImm_add hf3, hrd, hrs, rvImmI, himm, sext_eq_signExtend, ofVal]

/-- A hart that has retired an instruction is what its core reads: it has counted one, and so it is not as after a reset. -/
theorem rtDib_setRt_retire (core : Nat) (d : Dib) (n : Nat) (v pc : Word) (s : State) :
    rtDib (setRt core (d.retire n v pc) s) core = d.retire n v pc :=
  Tab.get_put_self_of_ne _ core _ _ fun h => Nat.succ_ne_zero _ (congrArg Dib.instret h)

/-- What the registers read after a write: x0 keeps its value (R215). -/
theorem getD_setX (x : List Word) (hlen : x.length = 32) (v : Word) (n : Fin 32) :
    (setX rd.val v x).getD n.val 0 = if n = rd ∧ rd ≠ 0 then v else x.getD n.val 0 := by
  by_cases hzero : rd = 0
  · simp [setX, hzero]
  · have hval : rd.val ≠ 0 := fun h => hzero (Fin.ext h)
    rw [setX, if_neg hval, List.getD_eq_getElem?_getD, List.getElem?_set]
    by_cases hn : n = rd
    · simp [hn, hzero, hlen]
    · have hne : rd.val ≠ n.val := fun h => hn (Fin.ext h.symm)
      simp [hn, hne]

end Addi

/-- Settles O32: the CSRs by what each does to the body, an instruction by what it decodes to. -/
theorem dibberCommands : Obligations.DibberCommands := by
  refine ⟨?csrs, ⟨?runtime, ?job⟩, ?addi⟩
  case csrs =>
    intro core ctx rd v j s hown hlive k put
    refine ⟨?body, ?arith, ?fewer, ?busy, ?begins⟩
    case body =>
      intro num f c hc a b hans
      simp only [List.mem_cons, Prod.mk.injEq, List.not_mem_nil, or_false] at hc
      rcases hc with ⟨rfl, rfl, rfl⟩ | ⟨rfl, rfl, rfl⟩ | ⟨rfl, rfl, rfl⟩ | ⟨rfl, rfl, rfl⟩ | ⟨rfl, rfl, rfl⟩
      · exact exec_eq_of_does (does_nmcCmdPush core ctx rd v s) (userCsr_body hown hlive (by simp [bodyCsr]) hans)
      · exact exec_eq_of_does (does_nmcTileTake core ctx rd v s) (userCsr_body hown hlive (by simp [bodyCsr]) hans)
      · exact exec_eq_of_does (does_nmcTileFree core ctx rd v s) (userCsr_body hown hlive (by simp [bodyCsr]) hans)
      · exact exec_eq_of_does (does_nmcTileAlloc core ctx rd v s) (userCsr_body hown hlive (by simp [bodyCsr]) hans)
      · exact exec_eq_of_does (does_nmcTileEmit core ctx rd v s) (userCsr_body hown hlive (by simp [bodyCsr]) hans)
    case arith =>
      exact exec_eq_of_does (does_nmcArithStatus core ctx rd v s) (userCsr_body (f := csrArith) hown hlive (by simp [bodyCsr]) rfl)
    case fewer =>
      rintro rfl
      exact exec_eq_of_does (does_nmcFewer core ctx rd 1 s) (userCsr_answered hown hlive (by decide) (csrWrite_fewer hown.1))
    case busy =>
      rintro rfl hend
      exact exec_eq_of_does (does_nmcCommit core ctx rd 1 s)
        (userCsr_answered hown hlive (by decide) (csrWrite_commit_busy hown.1 hend))
    case begins =>
      rintro rfl hend
      exact exec_eq_of_does (does_nmcCommit core ctx rd 1 s)
        (userCsr_over hown hlive (by decide) (csrWrite_commit_begins hown.1 hend))
  case runtime =>
    exact fun core ctx w rd v s hlong hact =>
      exec_eq_of_does (does_dibberInstruction core ctx (some w) s) (rtStep_set hlong hact)
  case job =>
    exact fun core ctx j i rd v s u hown hlive hfetch hact =>
      exec_eq_of_does (does_dibberInstruction core ctx none s) (userStep_set hown hlive hfetch hact)
  case addi =>
    intro core ctx rd rs imm s d hlen
    have hlong : (addiWord rd rs imm).toNat % 4 = 3 := by
      have hop := (addiWord_fields rd rs imm).1
      omega
    have hdo := exec_eq_of_does (does_dibberInstruction core ctx (some (addiWord rd rs imm)) s)
      (rtStep_set hlong (rvDecode_addi rd rs imm d.pc d.reg))
    refine ⟨_, hdo, rfl, ?pc, fun n => ?x⟩
    case pc => exact congrArg Dib.pc (rtDib_setRt_retire core.val _ _ _ _ s)
    case x =>
      refine (congrArg (fun h : Dib => h.x.getD n.val 0) (rtDib_setRt_retire core.val _ _ _ _ s)).trans ?_
      exact getD_setX rd d.x hlen _ n

end Sys2Proof.Machine
end

section
/-! The stations TILLER, RAKE and SIEVE work a tile at a time (R171, R201-R213, R257-R261). -/

namespace Sys2Proof.Machine

open Sys2Proof

variable {core : Fin 16} {ctx : Fin 8} {j : Job} {c : Cmd} {st code : Nat} {b t : Body} {s : State}

/-! ### One step of a station -/

/-- A step that changes the body of the job whose context owns the stations is carried out, and the job has made progress (R177, R182). -/
theorem runStep_go {f : Body → StepRes} (hown : Owns core ctx j s) (hf : f j.b = .go t) (hnew : t ≠ j.b) :
    runStep core ctx f s = progress (jobKey core ctx) (modBody (jobKey core ctx) (fun _ => t) s) := by
  obtain ⟨hj, hphase, howner⟩ := hown
  have hgo : ¬(j.phase ≠ .ready ∨ ownerCtx s core.val ≠ some ctx.val) := by simp [hphase, howner]
  simp only [runStep, hj, if_neg hgo, hf, if_neg hnew]

/-- The second input of a command that is ready is there, or the command has none. -/
theorem secondInput_ready {ob : Option Tile} (h : if c.inB = noneStream then ob = none else ∃ y, b.next c.inB = some y ∧ ob = some y) :
    (if c.inB = noneStream then some none else (b.next c.inB).map some) = some ob := by
  by_cases hnone : c.inB = noneStream
  · rw [if_pos hnone] at h ⊢
    rw [h]
  · rw [if_neg hnone] at h ⊢
    obtain ⟨y, hy, hob⟩ := h
    rw [hy, hob, Option.map_some]

/-- A command whose tiles are there and whose operation accepts them consumes them and emits its results (R168, R171, R220). -/
theorem tileStep_ready {f : Cmd → Station → Tile → Option Tile → Body → TileRes} {fin : Cmd → Carry → List Tile} {a : Tile}
    {ob : Option Tile} {carry : Carry} {ts : List Tile} {fl : BitVec 5} {b2 : Body} (hready : TileReady st code c a ob b)
    (hout : f c ((b.settle st).station st) a ob (b.settle st) = .out carry ts fl b2)
    (hseq : (tileDone st c fin a carry ts fl ((b.settle st).station st).consumed b2).seqOver = false) :
    tileStep st code f fin b = .go (tileDone st c fin a carry ts fl ((b.settle st).station st).consumed b2) := by
  obtain ⟨hcur, hcode, hsettled, hroom, ha, hob, hpa, hpob, hmark⟩ := hready
  have hpoison : (a.h.poison || (ob.map (·.h.poison)).getD false) = false := by
    rw [hpa, Bool.false_or]
    cases ob with
    | none => rfl
    | some y => exact hpob y rfl
  have hgo : (!((b.settle st).station st).outq.isEmpty || ((b.settle st).station st).cur != some c) = false := by
    rw [hsettled, hroom, hcur]
    simp
  unfold tileDone at hseq ⊢
  simp only [tileStep, hcur, hcode, ne_eq, not_true_eq_false, if_false, hgo, ha, secondInput_ready hob, hpoison, hmark, hout, hseq,
    Bool.false_eq_true]

/-- A command without an input emits what its operation gives (R205). -/
theorem emitStep_ready {f : Cmd → Body → Option (List Tile × BitVec 5 × Body)} {ts : List Tile} {fl : BitVec 5} {b2 : Body}
    (hcur : (b.station st).cur = some c) (hsettled : (b.settle st).station st = b.station st) (hroom : (b.station st).outq = [])
    (hf : f c (b.settle st) = some (ts, fl, b2))
    (hseq : (({ b2 with arith := b2.arith ||| fl } : Body).emitTiles st c ts true).seqOver = false) (hcode : c.cmd = code) :
    emitStep st code f b = .go (({ b2 with arith := b2.arith ||| fl } : Body).emitTiles st c ts true) := by
  have hgo : (!((b.settle st).station st).outq.isEmpty || ((b.settle st).station st).cur != some c) = false := by
    rw [hsettled, hroom, hcur]
    simp
  simp only [emitStep, hcur, hcode, ne_eq, not_true_eq_false, if_false, hgo, hf, hseq, Bool.false_eq_true]

/-! ### The commands that work a tile (Tables 09-4, 09-6, 11-8) -/

/-- A command, its station and code, what it makes of a tile, and the tiles that end it. -/
abbrev TileCommand := Instr × Nat × Nat × (Cmd → Station → Tile → Option Tile → Body → TileRes) × (Cmd → Carry → List Tile)

/-- Commands that are a tile step of their station answer the body that the step leaves. -/
theorem tileCommands_run {l : List TileCommand} {a : Tile} {ob : Option Tile} (hown : Owns core ctx j s)
    (hdo : ∀ x ∈ l, Does x.1 s (runStep core ctx (tileStep x.2.1 x.2.2.1 x.2.2.2.1 x.2.2.2.2) s)) :
    ∀ x ∈ l, TileReady x.2.1 x.2.2.1 c a ob j.b → ∀ (carry : Carry) (ts : List Tile) (fl : BitVec 5) (b2 : Body),
      x.2.2.2.1 c ((j.b.settle x.2.1).station x.2.1) a ob (j.b.settle x.2.1) = .out carry ts fl b2 →
      let t := tileDone x.2.1 c x.2.2.2.2 a carry ts fl ((j.b.settle x.2.1).station x.2.1).consumed b2
      t.seqOver = false → t ≠ j.b → exec x.1 s =
        .next { (progress (jobKey core ctx) (modBody (jobKey core ctx) (fun _ => t) s) : State) with pending := s.pending } := by
  intro x hx hready carry ts fl b2 hout t hseq hnew
  exact exec_eq_of_does (hdo x hx) (runStep_go hown (tileStep_ready hready hout hseq) hnew)

/-- Settles O33: the commands that work a tile, then ZERO and EMIT, then the commands with a step of their own. -/
theorem tileCommandsRun : Obligations.TileCommandsRun := by
  refine ⟨?tiles, ?steps⟩
  case tiles =>
    intro core ctx j c a ob s hown b none_
    refine tileCommands_run hown ?_
    simp only [List.forall_mem_cons]
    exact ⟨does_mma core ctx s, does_tillerLoad core ctx s,
      does_add core ctx s, does_sub core ctx s, does_mul core ctx s, does_fma core ctx s, does_min core ctx s, does_max core ctx s,
      does_abs core ctx s, does_neg core ctx s, does_cmp core ctx s, does_sel core ctx s, does_exp core ctx s, does_exp2 core ctx s,
      does_log core ctx s, does_log2 core ctx s, does_rsqrt core ctx s, does_recip core ctx s, does_sqrt core ctx s,
      does_div core ctx s, does_tanh core ctx s, does_rowMax core ctx s, does_softmax core ctx s, does_topk core ctx s,
      does_cvt core ctx s, does_iadd core ctx s, does_isub core ctx s, does_imul core ctx s, does_logic core ctx s,
      does_shift core ctx s, does_isat core ctx s,
      does_loadcb core ctx s, does_decode core ctx s, does_encode core ctx s, does_lookup core ctx s, does_lutacc core ctx s,
      does_adc core ctx s, does_filter core ctx s, List.forall_mem_nil _⟩
  case steps =>
    intro core ctx j c s hown b end_
    refine ⟨fun hcur hsettled hroom => ⟨?zero, ?emit⟩, ?rowSum, ?dtab, ?lutmv⟩
    case zero =>
      intro t hcode hseq hnew
      refine exec_eq_of_does (does_zero core ctx s) (runStep_go hown ?_ hnew)
      have hflags : b.arith = (b.setAcc c.set_ (zeroSet (c.mode.getLsbD 0))).arith ||| 0 := (BitVec.or_zero).symm
      simp only [t, hflags] at hseq ⊢
      exact emitStep_ready hcur hsettled hroom rfl hseq hcode
    case emit =>
      intro o fl hcvt b2 t hcode hseq hnew
      refine exec_eq_of_does (does_emit core ctx s) (runStep_go hown ?_ hnew)
      exact emitStep_ready hcur hsettled hroom (congrArg (Option.map _) hcvt) hseq hcode
    case rowSum => exact fun t hstep hnew => exec_eq_of_does (does_rowSum core ctx s) (runStep_go hown hstep hnew)
    case dtab => exact fun t hstep hnew => exec_eq_of_does (does_dtab core ctx s) (runStep_go hown hstep hnew)
    case lutmv => exact fun t hstep hnew => exec_eq_of_does (does_lutmv core ctx s) (runStep_go hown hstep hnew)

end Sys2Proof.Machine
end

section
/-! PORT sends the requests of a job to the shared units (R169). -/

namespace Sys2Proof.Machine

open Sys2Proof

section Port

variable {core : Fin 16} {ctx : Fin 8} {j : Job} {c : Cmd} {t : Tile} {code : Nat} {s : State}
  {send : Job → Cmd → Station → Tile → Body → State → Sent} (hown : Owns core ctx j s) (hcur : (j.b.station 6).cur = some c)
  (ht : j.b.next c.inA = some t) (hcode : c.cmd = code)
include hown hcur ht hcode

/-- An EMPTY request tile is consumed and sends nothing. -/
theorem portStep_empty (hempty : t.h.empty = true) :
    portStep code core ctx send s = setBody core ctx (portNext c (j.b.station 6) t j.b) s := by
  obtain ⟨hj, hphase, howner⟩ := hown
  simp [portStep, hj, hphase, howner, hcur, hcode, ht, hempty]

/-- A request that its unit takes leaves PORT, and its tile is consumed, while fewer than 64 requests are outstanding. -/
theorem portStep_sent {b : Body} {u : State} (hfull : t.h.empty = false) (hroom : portsOut s core (code - 1) < 64)
    (hsend : send j c (j.b.station 6) t j.b s = .sent b u) :
    portStep code core ctx send s = setBody core ctx (portNext c (b.station 6) t b) u := by
  obtain ⟨hj, hphase, howner⟩ := hown
  simp [portStep, hj, hphase, howner, hcur, hcode, ht, hfull, hsend, not_le.mpr hroom]

end Port

/-- Settles O38: PORT's commands are one step with the sender of their unit. -/
theorem portSendsRequests : Obligations.PortSendsRequests := by
  intro core ctx j c t s hown hcur ht x hx hcode
  have hdo : Does x.1 s (portStep x.2.1 core ctx x.2.2 s) := by
    simp only [List.mem_cons, List.not_mem_nil, or_false] at hx
    rcases hx with rfl | rfl | rfl
    · exact does_portGlean core ctx s
    · exact does_portSow core ctx s
    · exact does_portPrune core ctx s
  constructor
  · exact fun hempty => exec_eq_of_does hdo (portStep_empty hown hcur ht hcode hempty)
  · exact fun b u hfull hroom hsend => exec_eq_of_does hdo (portStep_sent hown hcur ht hcode hfull hroom hsend)

end Sys2Proof.Machine
end

section
/-! A chunk step of an integer or a float accumulator (R202-R204, R206): what it sums, and the results that are special. -/

namespace Sys2Proof.Machine

open Sys2Proof

/-! ### Integer chunk steps (R204, R206) -/

section Integer

variable {lo hi v : Int}

/-- A clamped value is the nearest one of the range. -/
theorem clampInt_fst (h : lo ≤ hi) : (clampInt lo hi v).1 = max lo (min hi v) := by
  unfold clampInt
  split_ifs <;> dsimp only <;> omega

/-- The flag is raised exactly where the value is outside the range. -/
theorem clampInt_flag : (clampInt lo hi v).2 = if v < lo ∨ hi < v then flIntSat else 0 := by
  by_cases hlo : v < lo <;> by_cases hhi : hi < v <;> simp [clampInt, hlo, hhi]

/-- The step clamps the exact sum of the accumulator and the products. -/
theorem chunkI_eq (acc : BitVec 32) (as bs : List Int) :
    let r := clampInt (-(2 ^ 31)) (2 ^ 31 - 1) (acc.toInt + (List.zipWith (· * ·) as bs).sum)
    chunkI acc as bs = (BitVec.ofInt 32 r.1, r.2) := by
  rw [List.sum_eq_foldl]
  rfl

/-- No format holds both integers and floats. -/
theorem not_fmtIsInt_of_isFloat {f : Nat} (h : fmtIsFloat f = true) : ¬fmtIsInt f = true := by
  simp only [fmtIsFloat, fmtIsMx, Bool.or_eq_true, decide_eq_true_eq] at h
  simp only [fmtIsInt, decide_eq_true_eq]
  omega

/-- An MMA whose operands are of no common class is malformed (R206). -/
theorem mmaTile_malformed {c : Cmd} {x : Station} {a : Tile} {ob : Option Tile} {b : Body} (hfull : a.h.empty = false)
    (hints : ¬(fmtIsInt (c.mode.toNat % 256) = true ∧ fmtIsInt (c.mode.toNat / 256) = true))
    (hfloats : ¬(fmtIsFloat (c.mode.toNat % 256) = true ∧ fmtIsFloat (c.mode.toNat / 256) = true)) :
    mmaTile c x a ob b = .bad 7 .malformed := by
  rw [← Bool.and_eq_true, Bool.not_eq_true] at hints hfloats
  simp only [mmaTile, hfull, hints, hfloats, Bool.false_and, Bool.or_self, Bool.not_false, Bool.true_or, if_true, Bool.false_eq_true,
    if_false]
  split <;> rfl

end Integer

/-- Settles O36: the step clamps the exact sum, and operands of two classes are of no common one. -/
theorem integerChunkStep : Obligations.IntegerChunkStep := by
  refine ⟨fun acc as bs => ?step, fun c x a ob b hfull => ?mixed⟩
  case step =>
    intro sum
    have hrange : (-(2 ^ 31) : Int) ≤ 2 ^ 31 - 1 := by decide
    have hraised : flIntSat ≠ 0 := by decide
    rw [chunkI_eq, clampInt_fst hrange, clampInt_flag]
    refine ⟨BitVec.toInt_ofInt_eq_self (by decide) (le_max_left _ _) ?below, ?saturated, ?exact⟩
    case below => exact Int.lt_of_le_sub_one (max_le hrange (min_le_left _ _))
    case saturated => rw [ite_eq_left_iff, eq_comm, imp_iff_not hraised, not_not]
    case exact => rw [ite_eq_right_iff, imp_iff_not hraised, not_or, not_lt, not_lt]
  case mixed =>
    rintro fa fb (⟨hint, hfloat⟩ | ⟨hfloat, hint⟩)
    · exact mmaTile_malformed hfull (fun h => not_fmtIsInt_of_isFloat hfloat h.2) (fun h => not_fmtIsInt_of_isFloat h.1 hint)
    · exact mmaTile_malformed hfull (fun h => not_fmtIsInt_of_isFloat hfloat h.1) (fun h => not_fmtIsInt_of_isFloat h.2 hint)

/-! ### Float chunk steps (R202, R203) -/

/-- The number that a mantissa and an exponent of two stand for. -/
def dyadic (d : Int × Int) : ℚ := (d.1 : ℚ) * 2 ^ d.2

/-- A mantissa moved to a lower exponent stands for the same number. -/
theorem dyadic_lower (m : Int) {e g : Int} (h : g ≤ e) : dyadic (m * 2 ^ (e - g).toNat, g) = dyadic (m, e) := by
  have hexp : (2 : ℚ) ^ e = 2 ^ (e - g).toNat * 2 ^ g := by
    rw [← zpow_natCast, ← zpow_add₀ two_ne_zero, Int.toNat_of_nonneg (Int.sub_nonneg.mpr h), Int.sub_add_cancel]
  simp only [dyadic, hexp, Int.cast_mul, Int.cast_pow, Int.cast_ofNat, mul_assoc]

/-- Mantissas of one exponent add. -/
theorem dyadic_add (m n e : Int) : dyadic (m + n, e) = dyadic (m, e) + dyadic (n, e) := by
  simp only [dyadic, Int.cast_add, add_mul]

/-- A number is zero exactly where its mantissa is. -/
theorem dyadic_eq_zero {d : Int × Int} : dyadic d = 0 ↔ d.1 = 0 := by
  have hpow : (2 : ℚ) ^ d.2 ≠ 0 := zpow_ne_zero _ two_ne_zero
  simp [dyadic, hpow]

/-- The sum of dyadics is exact. -/
theorem dyadic_dySum (l : List (Int × Int)) : dyadic (dySum l) = (l.map dyadic).sum := by
  induction l with
  | nil => simp [dySum, dyadic]
  | cons d l ih =>
    rw [List.map_cons, List.sum_cons, ← ih, dySum]
    dsimp only
    split_ifs with h
    · rw [dyadic_add, dyadic_lower _ h]
    · rw [dyadic_add, dyadic_lower _ (not_le.mp h).le]

/-- Some term is a negative infinity exactly where that infinity is listed. -/
theorem any_isInf_neg {l : List Num} : (l.any fun x => x.isInf && x.neg) = true ↔ .inf true ∈ l := by
  have hterm : ∀ x : Num, (x.isInf && x.neg) = true ↔ x = .inf true := by
    rintro (_ | _ | _) <;> simp [Num.isInf, Num.neg]
  simp [List.any_eq_true, hterm]

/-- The same for the positive infinity. -/
theorem any_isInf_pos {l : List Num} : (l.any fun x => x.isInf && !x.neg) = true ↔ .inf false ∈ l := by
  have hterm : ∀ x : Num, (x.isInf && !x.neg) = true ↔ x = .inf false := by
    rintro (_ | _ | _) <;> simp [Num.isInf, Num.neg]
  simp [List.any_eq_true, hterm]

/-- Rule 1 (R203): a term is NaN, or there are infinities of both signs. -/
def SumsToNan (l : List Num) : Prop := (∃ y ∈ l, y.isNan = true) ∨ (.inf true ∈ l ∧ .inf false ∈ l)

/-- NaN is one value. -/
theorem isNan_iff {x : Num} : x.isNan = true ↔ x = .nan := by
  cases x <;> simp [Num.isNan]

/-- A product is NaN where a factor is, or where an infinity meets a zero. -/
theorem isNan_mul (x y : Num) : (x.mul y).isNan = true ↔
    x.isNan = true ∨ y.isNan = true ∨ (x.isInf = true ∧ y.isZero = true) ∨ (x.isZero = true ∧ y.isInf = true) := by
  cases x <;> cases y <;> simp [isNan_iff, Num.mul, Num.isInf, Num.isZero]

/-- The products of operand lists of one length hold a NaN where an operand is one, or where an infinity meets a zero. -/
theorem exists_isNan_zipWith_mul {as bs : List Num} (hlen : as.length = bs.length) :
    (∃ y ∈ List.zipWith Num.mul as bs, y.isNan = true) ↔ (∃ y ∈ as, y.isNan = true) ∨ (∃ y ∈ bs, y.isNan = true) ∨
      ∃ p ∈ as.zip bs, (p.1.isInf = true ∧ p.2.isZero = true) ∨ (p.1.isZero = true ∧ p.2.isInf = true) := by
  have hleft : (∃ y ∈ as, y.isNan = true) ↔ ∃ p ∈ as.zip bs, p.1.isNan = true := by
    conv_lhs => rw [← List.map_fst_zip hlen.le]
    simp only [List.mem_map, exists_exists_and_eq_and]
  have hright : (∃ y ∈ bs, y.isNan = true) ↔ ∃ p ∈ as.zip bs, p.2.isNan = true := by
    conv_lhs => rw [← List.map_snd_zip hlen.ge]
    simp only [List.mem_map, exists_exists_and_eq_and]
  rw [hleft, hright, ← List.map_uncurry_zip_eq_zipWith]
  simp only [List.mem_map, exists_exists_and_eq_and, Function.uncurry, isNan_mul, and_or_left, exists_or]

section Sum

variable {l : List Num}

/-- Rule 1: such terms sum to NaN. -/
theorem exactSum_nan (h : SumsToNan l) : exactSum l = .nan := by
  rw [SumsToNan, ← List.any_eq_true, ← any_isInf_neg, ← any_isInf_pos] at h
  unfold exactSum
  rcases h with hnan | ⟨hneg, hpos⟩
  · rw [if_pos hnan]
  · have hinf : l.any Num.isInf = true := by
      rw [List.any_eq_true]
      exact ⟨_, any_isInf_neg.mp hneg, rfl⟩
    rw [hneg, hpos, hinf]
    simp

variable (hnan : ¬SumsToNan l)
include hnan

/-- Terms that rule 1 leaves out hold no NaN. -/
theorem any_isNan_eq_false : l.any Num.isNan = false := by
  rw [Bool.eq_false_iff, ne_eq, List.any_eq_true]
  exact fun h => hnan (.inl h)

/-- Rule 2: any other infinity sums to itself. -/
theorem exactSum_inf {n : Bool} (h : .inf n ∈ l) : exactSum l = .inf n := by
  have hinf : l.any Num.isInf = true := List.any_eq_true.mpr ⟨_, h, rfl⟩
  have hneg : (l.any fun x => x.isInf && x.neg) = n := by
    rw [Bool.eq_iff_iff, any_isInf_neg]
    cases n
    · exact ⟨fun hneg => absurd (.inr ⟨hneg, h⟩) hnan, fun hfalse => absurd hfalse Bool.false_ne_true⟩
    · exact ⟨fun _ => rfl, fun _ => h⟩
  have hboth : ((l.any fun x => x.isInf && x.neg) && (l.any fun x => x.isInf && !x.neg)) = false := by
    rw [Bool.eq_false_iff, ne_eq, Bool.and_eq_true, any_isInf_neg, any_isInf_pos]
    exact fun h => hnan (.inr h)
  simp only [exactSum, any_isNan_eq_false hnan, hinf, hboth, Bool.false_eq_true, if_false, if_true]
  exact congrArg Num.inf hneg

/-- Rule 3: finite terms that sum to zero give -0 where every one is -0, and +0 otherwise. -/
theorem exactSum_zero (hfin : ∀ y ∈ l, y.isInf = false) (hsum : (l.map fun y => dyadic y.dy).sum = 0) :
    exactSum l = .fin (decide (∀ y ∈ l, y.isZero = true ∧ y.neg = true)) 0 0 := by
  have hinf : l.any Num.isInf = false := by simpa using hfin
  have hzero : (dySum (l.map Num.dy)).1 = 0 := by
    rw [← dyadic_eq_zero, dyadic_dySum, List.map_map]
    exact hsum
  have hsign : (l.all fun x => x.isZero && x.neg) = decide (∀ y ∈ l, y.isZero = true ∧ y.neg = true) := by
    rw [Bool.eq_iff_iff]
    simp
  simp only [exactSum, any_isNan_eq_false hnan, hinf, hzero, hsign, Bool.false_eq_true, if_false, if_true]

end Sum

/-- The encoding of a zero keeps its sign. -/
theorem encF32_zero (n : Bool) : encF32 (.fin n 0 0) = if n then 0x80000000 else 0 := by
  cases n <;> rfl

/-- The result of a step is its exact sum, rounded once. -/
theorem chunkF_fst (acc : BitVec 32) (as bs : List Num) :
    (chunkF acc as bs).1 = encF32 (exactSum (decF32 acc :: List.zipWith Num.mul as bs)) := rfl

/-- Settles O37: the exact sum of the terms follows rules 1 to 3, and its special values have one encoding each. -/
theorem floatChunkSpecials : Obligations.FloatChunkSpecials := by
  intro acc as bs hlen x ps value bad
  have hbad : bad ↔ SumsToNan (x :: ps) := by
    have hsigns : (∃ y ∈ x :: ps, ∃ z ∈ x :: ps, y = .inf true ∧ z = .inf false) ↔ .inf true ∈ x :: ps ∧ .inf false ∈ x :: ps := by
      constructor
      · rintro ⟨_, hneg, _, hpos, rfl, rfl⟩
        exact ⟨hneg, hpos⟩
      · exact fun ⟨hneg, hpos⟩ => ⟨_, hneg, _, hpos, rfl, rfl⟩
    rw [SumsToNan, List.exists_mem_cons_iff, exists_isNan_zipWith_mul hlen, ← hsigns]
    simp only [bad, or_assoc]
  simp only [chunkF_fst, hbad]
  refine ⟨fun h => ?nan, fun h hinf => ?pos, fun h hinf => ?neg, fun h hfin hsum => ?zero⟩
  case nan =>
    rw [exactSum_nan h]
    rfl
  case pos =>
    rw [exactSum_inf h hinf]
    rfl
  case neg =>
    rw [exactSum_inf h hinf]
    rfl
  case zero =>
    rw [exactSum_zero h hfin hsum, encF32_zero]
    simp only [decide_eq_true_eq]

end Sys2Proof.Machine
end

section
/-! The transfers of a job: SPADE's READ and READ_ROWS, and BARROW's STAGE (R179, R322). -/

namespace Sys2Proof.Machine

open Sys2Proof

section Transfers

variable {core : Fin 16} {ctx : Fin 8} {j : Job} {c : Cmd} {x : Station} {b : Body} {t : Tile} {bs : List Byte} {s u : State}

/-- The body of a context's job once a station's reads are done with (R185). -/
def bodyDone (core : Fin 16) (ctx : Fin 8) (who : Nat) (u : State) : Body :=
  ((jobAt (doneWith (jobKey core ctx) who u) (jobKey core ctx)).getD {}).b

/-- READ of plain bytes that are there emits them as its next tile (R322). -/
theorem spadeRead_bytes {p : Bool} (hj : dmaJob core ctx 1 s = some j) (hcur : curCmd j.b 1 1 = (some (c, x), b))
    (hplain : c.mode.getLsbD 0 = false)
    (hview : viewBytes core ctx 1 (c.a + BitVec.ofNat 64 (x.consumed * c.c.toNat)) (Nat.min 4096 (c.b.toNat - 4096 * x.consumed))
      (modBody (jobKey core ctx) (fun _ => b) s) = (.bytes bs p, u)) :
    let t := byteTile bs (c.a + BitVec.ofNat 64 (x.consumed * c.c.toNat)) 0
    spadeRead core ctx s = setBody core ctx
      (((bodyDone core ctx 1 u).setStation 1 fun y => { y with consumed := x.consumed + 1 }).emitTiles 1 c
        [{ t with h := { t.h with poison := p } }] (decide (ceilDiv c.b.toNat 4096 ≤ x.consumed + 1)))
      (doneWith (jobKey core ctx) 1 u) := by
  simp only [spadeRead, hj, hcur, hplain, hview, Bool.false_and, Bool.false_eq_true, if_false]
  rfl

/-- STAGE of a tile that its address takes consumes the tile and sends its receipt (R179, R231). -/
theorem barrowStage_ok (hj : dmaJob core ctx 2 s = some j) (hcur : curCmd j.b 2 1 = (some (c, x), b)) (ht : b.next c.inA = some t)
    (hclean : t.h.poison = false) (hfull : t.h.empty = false)
    (hstage : stageTile core ctx t (c.a + BitVec.ofNat 64 (x.consumed * c.c.toNat)) (modBody (jobKey core ctx) (fun _ => b) s) =
      (.ok, u)) :
    let done := if c.count = 0 then t.h.last else decide (c.count ≤ x.consumed + 1)
    barrowStage core ctx s = setBody core ctx ((((bodyDone core ctx 2 u).take c.inA).setStation 2 fun y => { y with
        consumed := y.consumed + 1
        outq := y.outq ++ (if c.out = noneStream then [] else [(c.out, emptyTile done t.h.origin t.h.user)]) ++
          (if done ∧ c.outB ≠ noneStream then [(c.outB, emptyTile true 0 0)] else [])
        closing := done }).settle 2) (doneWith (jobKey core ctx) 2 u) := by
  simp only [barrowStage, hj, hcur, ht, hclean, hfull, hstage, Bool.false_eq_true, if_false, false_and, or_false]
  rfl

/-- READ_ROWS of an index tile whose rows are there, of a command that goes on, and whose rows fill no tile: it consumes the index tile
and packs the rows for the next one (R322). -/
theorem spadeRows_packs {idx : List Nat} (hj : dmaJob core ctx 1 s = some j) (hcur : curCmd j.b 1 2 = (some (c, x), b))
    (ht : b.next c.inA = some t) (hidx : indicesOf t = some idx) (hn : x.carry.n = 0) (hempty : x.carry.bytes = [])
    (hfit : idx.length ≤ 4096 / Nat.max 1 c.c.toNat) (hcount : c.count = 0) (hlast : t.h.last = false)
    (hview : viewRows core ctx c.a c.c.toNat idx (modBody (jobKey core ctx) (fun _ => b) s) = (.bytes bs false, u))
    (hroom : bs.length < 4096 / Nat.max 1 c.c.toNat * c.c.toNat) :
    spadeRows core ctx s = setBody core ctx ((((bodyDone core ctx 1 u).take c.inA).setStation 1 fun y => { y with
        consumed := y.consumed + 1
        carry := { x.carry with n := 0, bytes := bs, pairs := [(BitVec.ofNat 32 (idx.headD 0), t.h.user)] } }).emitTiles 1 c [] false)
      (doneWith (jobKey core ctx) 1 u) := by
  have hall : Nat.min (4096 / Nat.max 1 c.c.toNat) idx.length = idx.length := Nat.min_eq_right hfit
  simp only [spadeRows, hj, hcur, ht, hidx, hn, hempty, hcount, hlast, List.length_nil, Nat.zero_div, Nat.sub_zero, hall, List.drop_zero,
    List.take_length, hview, List.nil_append, Nat.zero_add, not_le.mpr hroom, le_refl]
  rfl

end Transfers

/-- Settles O34: each transfer by what its station does once its bytes are there. -/
theorem transfersOfAJob : Obligations.TransfersOfAJob := by
  intro core ctx j c x b s k a
  refine ⟨?read, ?stage, ?rows⟩
  case read =>
    intro hj hcur hplain va bs p u hview
    exact exec_eq_of_does (does_read core ctx s) (spadeRead_bytes hj hcur hplain hview)
  case stage =>
    exact fun t u hj hcur ht hclean hfull hstage =>
      exec_eq_of_does (does_stage core ctx s) (barrowStage_ok hj hcur ht hclean hfull hstage)
  case rows =>
    exact fun t idx hj hcur ht hidx hn hempty _ hfit hcount hlast bs u hview hroom =>
      exec_eq_of_does (does_readRows core ctx s) (spadeRows_packs hj hcur ht hidx hn hempty hfit hcount hlast hview hroom)

end Sys2Proof.Machine
end

section
/-! Versions of an embedding table (R267, R268): what a new version replaces, and what ends with it. -/

namespace Sys2Proof.Machine

open Sys2Proof

/-! ### The live version of a handle -/

section Versions

variable {h k : Nat} {t : TableVer} {s : State}

/-- The versions of a list of tables once none of handle `k` is live. -/
def endVersions (k : Nat) (l : List TableVer) : List TableVer := l.map fun x => if x.handle = k then { x with live := false } else x

/-- The state in which version `t` is the newest of its handle, and no other version of that handle is live (R268). -/
def putVersion (t : TableVer) (s : State) : State := s.modEmb fun e => { e with
  tables := endVersions t.handle e.tables ++ [t]
  lastVer := Tab.put 0 t.handle t.version e.lastVer }

/-- No version of an ended handle is live, and every other handle keeps its live version. -/
theorem find?_live_endVersions (k h : Nat) (l : List TableVer) :
    (endVersions k l).find? (fun t => t.live && t.handle == h) =
      if h = k then none else l.find? fun t => t.live && t.handle == h := by
  induction l with
  | nil => simp [endVersions]
  | cons x l ih =>
    rw [endVersions] at ih ⊢
    rw [List.map_cons, List.find?_cons, List.find?_cons, ih]
    by_cases hx : x.handle = k
    · by_cases hk : h = k
      · simp [hx, hk]
      · have hne : (k == h) = false := beq_false_of_ne (Ne.symm hk)
        simp [hx, hk, hne]
    · by_cases hk : h = k
      · have hne : (x.handle == k) = false := beq_false_of_ne hx
        simp [hx, hk, hne]
      · simp [hx, hk]

theorem liveTable_putVersion (hlive : t.live = true) :
    liveTable (putVersion t s) h = if h = t.handle then some t else liveTable s h := by
  rw [liveTable, putVersion, State.modEmb_emb, List.find?_append, find?_live_endVersions]
  by_cases hh : h = t.handle
  · simp [hh, hlive]
  · simp [hh, Ne.symm hh, liveTable]

/-- A version that is dropped is not live. -/
@[simp] theorem liveTable_dropVersions (h : Nat) (s : State) : liveTable (dropVersions s) h = liveTable s h := by
  simp only [liveTable, dropVersions, State.modEmb_emb, List.find?_filter]
  congr 1
  funext t
  cases t.live <;> simp [beq_eq_decide]

@[simp] theorem dropVersions_lastVer : (dropVersions s).emb.lastVer = s.emb.lastVer := rfl
@[simp] theorem liveTable_cmdDone (h done : Nat) (st : Status) (v : BitVec 32) (s : State) :
    liveTable (cmdDone done st v s) h = liveTable s h := rfl
@[simp] theorem cmdDone_emb (done : Nat) (st : Status) (v : BitVec 32) (s : State) : (cmdDone done st v s).emb = s.emb := rfl

/-- What the completion register of a completed command says (Table 22-4). -/
theorem doneGet_cmdDone {done : Nat} {st : Status} {v : BitVec 32} (hwf : Tab.wf {} s.regs.done = true) :
    doneGet (cmdDone done st v s) done = { doneGet s done with busy := false, status := st, result := v } := by
  simp only [doneGet, cmdDone, doneMod, State.modRegs_regs, Tab.get_upd _ _ _ _ _ hwf, if_true]

end Versions

/-- The version that a CREATE or REPLACE makes of a shard map: numbered one above the last of its handle (R268). -/
def nextVersion (r : TableRun) (m : List (Word × Word)) (s : State) : TableVer :=
  { handle := r.handle, version := Tab.get 0 s.emb.lastVer r.handle + 1, words := r.words, map := m, live := true }

/-- A shard map that the writer may name, whose entries keep to R267 and fit the device, becomes the next version. -/
theorem putTable_accepted {r : TableRun} {m : List (Word × Word)} {s : State}
    (hentries : (List.range m.length).all
      ({ handle := r.handle, words := r.words, map := m, live := true } : TableVer).entryOk = true)
    (hrights : r.fm = true ∨ mapRights s r.iid m = true) (hroom : shardEntries s + m.length ≤ 1048576) :
    putTable r m s = cmdDone tblDone .ok ((nextVersion r m s).version.setWidth 32) (dropVersions (putVersion (nextVersion r m s) s)) := by
  have hallowed : ¬(!r.fm && !mapRights s r.iid m) = true := by
    rcases hrights with h | h <;> simp [h]
  simp only [putTable, if_neg hallowed, hentries, if_neg (not_lt.mpr hroom), Bool.not_true, Bool.false_eq_true, if_false]
  rfl

/-- Settles O41: the new version is the only live one of its handle, and versions that are not live are all that goes. -/
theorem newVersionIsLive : Obligations.NewVersionIsLive := by
  intro r m s t hentries hrights hroom hlast hdone u
  have hu : u = cmdDone tblDone .ok _ (dropVersions (putVersion (nextVersion r m s) s)) := putTable_accepted hentries hrights hroom
  have hwf : Tab.wf {} (dropVersions (putVersion (nextVersion r m s) s)).regs.done = true := hdone
  rw [hu]
  refine ⟨by rw [doneGet_cmdDone hwf], by rw [doneGet_cmdDone hwf], ?live, ?last, fun h hne => ?other⟩
  case live =>
    rw [liveTable_cmdDone, liveTable_dropVersions, liveTable_putVersion rfl]
    exact if_pos rfl
  case last =>
    rw [cmdDone_emb, dropVersions_lastVer]
    exact (Tab.get_put 0 r.handle r.handle _ s.emb.lastVer hlast).trans (if_pos rfl)
  case other =>
    rw [liveTable_cmdDone, liveTable_dropVersions, liveTable_putVersion rfl]
    exact if_neg hne

end Sys2Proof.Machine
end

section
/-! The commands of tables, table groups, cuttings and shard loads (R267, R284-R286). -/

namespace Sys2Proof.Machine

open Sys2Proof

/-! ### Tables and table groups (R267, R286) -/

section Tables

variable {wr : Writer} {handle : Nat} {s : State}

@[simp] theorem hasCls_accepted (done : Nat) (owner : Option Nat) (cls : WCls) :
    hasCls (accepted done s) wr owner cls = hasCls s wr owner cls := rfl
@[simp] theorem stagedWords_accepted (done base : Nat) : stagedWords (accepted done s) wr base = stagedWords s wr base := rfl
@[simp] theorem liveTable_accepted (done h : Nat) : liveTable (accepted done s) h = liveTable s h := rfl
@[simp] theorem mapRights_accepted (done : Nat) (iid : BitVec 16) (m : List (Word × Word)) :
    mapRights (accepted done s) iid m = mapRights s iid m := rfl

/-- CREATE of a handle without a live version, and REPLACE of one that has one and fewer than four in all, go on to the shard map. -/
theorem tablePut_accepted {replace : Bool} (hready : Ready s wr none [.a, .f] tblDone) (hlive : (liveTable s handle).isSome = replace)
    (hfew : replace = true → (s.emb.tables.filter (·.handle == handle)).length < 4)
    (hdesc : ({ handle := handle, words := stagedWords (accepted tblDone s) wr Off.gln } : TableVer).descOk = true) :
    tablePut wr replace handle s = tableStep ((accepted tblDone s).modEmb fun e => { e with run := some {
      replace := replace, handle := handle, words := stagedWords (accepted tblDone s) wr Off.gln, iid := writerIid s wr
      fm := hasCls s wr none .f } }) := by
  have hfree : ¬((liveTable s handle).isSome ≠ replace ∨ replace = true ∧ 4 ≤ (s.emb.tables.filter (·.handle == handle)).length) :=
    fun h => h.elim (· hlive) fun h => absurd h.2 (not_le.mpr (hfew h.1))
  rw [tablePut, issue_ready hready]
  simp only [liveTable_accepted, accepted_emb, if_neg hfree, hdesc, writerIid_accepted, hasCls_accepted, Bool.not_true, Bool.false_eq_true,
    if_false]

/-- DELETE by a writer with the rights of the map ends the live version of the handle (Table 12-3). -/
theorem tableGone_accepted {t : TableVer} (hready : Ready s wr none [.a, .f] tblDone) (hlive : liveTable s handle = some t)
    (hrights : hasCls s wr none .f = true ∨ mapRights s (writerIid s wr) t.map = true) :
    tableGone wr handle s = cmdDone tblDone .ok (t.version.setWidth 32) (dropVersions ((accepted tblDone s).modEmb fun e => { e with
      tables := endVersions handle e.tables })) := by
  have hallowed : ¬(!hasCls s wr none .f && !mapRights s (writerIid s wr) t.map) = true := by
    rcases hrights with h | h <;> simp [h]
  rw [tableGone, issue_ready hready]
  simp only [liveTable_accepted, hlive, hasCls_accepted, mapRights_accepted, writerIid_accepted]
  exact if_neg hallowed

/-- SET and CLEAR forget what the group was; SET names its devices. -/
theorem groupCmd_accepted {set : Bool} {group : Nat} (hready : Ready s wr none [.f] grpDone) :
    groupCmd wr set group s = cmdDone grpDone .ok 0 ((accepted grpDone s).modEmb fun e => { e with
      groups := (e.groups.filter (·.1 != group)) ++ (if set then [(group, ((stagedWords s wr (Off.gln + 0x100)).flatMap fun w =>
        (List.range 4).map fun i => BitVec.ofNat 16 (fld w (16 * i + 15) (16 * i))).filter (· != 0xFFFF))] else []) }) := by
  rw [groupCmd, issue_ready hready, stagedWords_accepted]

end Tables

/-! ### Cuttings (R284, R285) -/

section Cuttings

variable {h row : Nat} {s : State}

/-- A row of a table that allows cuttings, homed here, is granted while no cutting is out and no row was written. -/
theorem cutAsked_granted {holder : BitVec 16} {v : TableVer} {g : Word} (hlive : liveTable s h = some v) (hrow : v.rowAt row = some g)
    (hcut : v.cutOk = true) (hin : row < v.rows) (hhere : isHere s (fdnOf g) = true) (hcuts : s.emb.cuts = []) (hwritten : s.emb.written = [])
    (hmax : 0 < (regGet s (Off.gln + 0x310)).toNat) :
    cutAsked holder h row s = emit (.cutGrant holder h row (now s + cutLeaseNs s) ((linesOver (addr s g) v.rowBytes).map (storedLine s)))
      (s.modEmb fun e => { e with cuts := [{ handle := h, row := row, holder := holder, lease := now s + cutLeaseNs s }] }) := by
  have hmay : ¬(!v.cutOk ∨ v.rows ≤ row ∨ !isHere s (fdnOf g)) := by
    simp [hcut, hhere, hin]
  simp only [cutAsked, hlive, hrow, if_neg hmay, hcuts, hwritten, List.filter_nil, List.any_nil, List.length_nil,
    not_le.mpr hmax, Bool.false_eq_true, or_self, if_false, List.nil_append, false_and, Nat.reduceLeDiff]

/-- A holder of a row that is not hot stops serving it 100 ns before its lease ends. -/
theorem leaseEnd_dropped {c : HeldCut} (hheld : s.emb.held.find? (fun c => c.handle == h && c.row == row) = some c)
    (hcuts : s.emb.cuts = []) :
    leaseEnd h row false s = (reach (c.lease - 100) s).modEmb fun e => { e with
      held := e.held.filter fun x => !(x.handle == h && x.row == row) } := by
  simp [leaseEnd, hheld, hcuts, reach]

end Cuttings

/-- Settles O40: the table and group commands once their registers have accepted them, the cuttings by what each message does. -/
theorem tableCommands : Obligations.TableCommands := by
  refine ⟨fun wr handle s hready => ⟨?put, ?delete⟩, ?groups, ?request, ?drop, ?confirm, ?leaseEnd, ?totals, ?interval⟩
  case put =>
    intro replace r hlive hfew hdesc
    have hput := tablePut_accepted hready hlive hfew hdesc
    cases replace with
    | false => exact exec_eq_of_does (does_tableCreate wr handle s) hput
    | true => exact exec_eq_of_does (does_tableReplace wr handle s) hput
  case delete =>
    exact fun t hlive hrights => exec_eq_of_does (does_tableDelete wr handle s) (tableGone_accepted hready hlive hrights)
  case groups =>
    intro wr group s hready fs
    constructor
    · exact exec_eq_of_does (does_groupSet wr group s) (groupCmd_accepted hready)
    · refine exec_eq_of_does (does_groupClear wr group s) ((groupCmd_accepted hready).trans ?_)
      simp only [Bool.false_eq_true, if_false, List.append_nil]
  case request =>
    exact fun holder handle row v g s hlive hrow hcut hin hhere hcuts hwritten hmax =>
      exec_eq_of_does (does_cuttingRequest holder handle row s) (cutAsked_granted hlive hrow hcut hin hhere hcuts hwritten hmax)
  case drop => exact fun home handle row s => does_cutDrop home handle row s
  case confirm => exact fun holder handle row s => does_cutDropConfirm holder handle row s
  case leaseEnd =>
    exact fun handle row c s hheld hcuts =>
      exec_eq_of_does (does_cuttingLeaseEnd handle row false s) (leaseEnd_dropped hheld hcuts)
  case totals => exact fun member group ls s => does_shardLoadTotals member group ls s
  case interval => exact fun s => does_shardLoadInterval s

end Sys2Proof.Machine
end

section
/-! What the shared units GLEAN, SOW and PRUNE answer (R270-R273, R280, R302-R308). -/

namespace Sys2Proof.Machine

open Sys2Proof

/-! ### GATHER and BAG (R270, R272) -/

section Glean

variable {op : Nat} {bag : Bool} {i : Fin 4} {q : EmbReq} {v : TableVer} {s u : State}

theorem gleanEntry_same_request (v : TableVer) (bag : Bool) (pool : Nat) (e : Word) (d : Option (List Byte × Bool)) (q : EmbReq) :
    (gleanEntry v bag pool e d q).entries = q.entries ∧ (gleanEntry v bag pool e d q).seq = q.seq := by
  cases bag with
  | false => exact ⟨rfl, rfl⟩
  | true =>
    simp only [gleanEntry, if_true]
    split <;> split <;> exact ⟨rfl, rfl⟩

/-- A request whose entries are taken stays the same request of the same entries. -/
theorem gleanTake_same_request (i : Nat) (q : EmbReq) (w : Win) (es : List Word) (ds : List (Option (List Byte × Bool))) (s : State) :
    (gleanTake bag i q v w es ds s).1.entries = q.entries ∧ (gleanTake bag i q v w es ds s).1.seq = q.seq := by
  refine List.foldlRecOn (motive := fun x : EmbReq => x.entries = q.entries ∧ x.seq = q.seq) (es.zip ds) _ ⟨rfl, rfl⟩ ?_
  intro x ⟨hentries, hseq⟩ e _
  obtain ⟨he, hs⟩ := gleanEntry_same_request v bag (fld (wordAt x.hdr 0) 55 54) e.1 e.2 x
  exact ⟨he.trans hentries, hs.trans hseq⟩

/-- A GLEAN unit whose next entries have their rows takes them into its window, and answers a request that has no more. -/
theorem gleanStep_took {w : Win × State} {ds : List (Option (List Byte × Bool))} (hbag : decide (op = 2) = bag)
    (hhead : embHead s i.val = some q) (hop : embOp q.hdr = op) (hver : tableVer s q.handle q.version = some v)
    (hwin : openWin i.val q s = w)
    (hrows : gleanRows (Fin.ofNat 16 i.val) (q.iid w.2) v ((q.entries.drop q.pos).take (4096 - w.1.n)) w.2 = (.inr ds, u)) :
    let x := gleanTake bag i.val q v w.1 ((q.entries.drop q.pos).take (4096 - w.1.n)) ds u
    gleanStep op i s = if q.entries.length ≤ x.1.pos then gleanReply bag v x.1 x.2 else modEmbReq q.seq (fun _ => x.1) x.2 := by
  intro x
  obtain ⟨hentries, hseq⟩ := gleanTake_same_request (bag := bag) (v := v) i.val q w.1 ((q.entries.drop q.pos).take (4096 - w.1.n)) ds u
  rw [← hentries, ← hseq]
  simp only [gleanStep, hhead, hop, hver, hwin, hrows, hbag, ne_eq, not_true, if_false, x]

end Glean

/-! ### SOW: ADD and HARVEST (R273, R280) -/

section Sow

variable {i : Fin 4} {q : EmbReq} {v : TableVer} {s : State}

/-- What an ADD does with one entry and its delta row (R282). -/
def addEntry (q : EmbReq) (v : TableVer) (x : EmbReq × State) (e : Word × List (BitVec 32)) : EmbReq × State :=
  match entryKind v e.1 with
  | .pad => x
  | .invalid => ({ x.1 with invalid := x.1.invalid + 1 }, x.2)
  | .missing => ({ x.1 with missing := x.1.missing + 1 }, x.2)
  | .row r => ({ x.1 with done := x.1.done + 1, sat := x.1.sat + (addRow q v r e.2 x.2).1 }, (addRow q v r e.2 x.2).2)

variable (hhead : embHead s (4 + i.val) = some q) (hver : tableVer s q.handle q.version = some v)
include hhead hver

/-- An ADD none of whose rows is refused combines its entries in order and is answered (R273). -/
theorem sowStep_combines (hop : embOp q.hdr = 1)
    (hrows : ∀ e ∈ q.entries.zip q.deltas, ∀ r, entryKind v e.1 = .row r → sowRefuses s v r = none) :
    let x := (q.entries.zip q.deltas).foldl (addEntry q v) (q, s)
    sowStep i s = embReply x.1 [x.1.statusTile .ok]
      (countRC (Off.gln + 0x210) x.1.invalid (countRC (Off.gln + 0x218) x.1.missing x.2)) := by
  simp only [sowStep, hhead, hop, hver, ne_eq, not_true, if_false]
  split
  next st hbad =>
    obtain ⟨e, he, hst⟩ := List.exists_of_findSome?_eq_some hbad
    split at hst
    next r hrow => exact absurd hst (by simp [hrows e he r hrow])
    next => cases hst
  next => rfl

section Harvest

variable (hop : embOp q.hdr = 2)
include hop

/-- A row that a HARVEST cannot name, or one past the end (log 105), counts as invalid. -/
theorem harvestStep_invalid (hexact : v.exact = true) (hgroup : q.group = [])
    (hrow : v.rows ≤ fld (wordAt q.hdr 1) 40 0 + q.pos ∨
      entryKind v (BitVec.ofNat 64 (fld (wordAt q.hdr 1) 40 0 + q.pos)) = .invalid) :
    harvestStep i s = harvestNext { q with invalid := q.invalid + 1 } s := by
  have hkind : (if v.rows ≤ fld (wordAt q.hdr 1) 40 0 + q.pos then EntryKind.invalid
      else entryKind v (BitVec.ofNat 64 (fld (wordAt q.hdr 1) 40 0 + q.pos))) = .invalid :=
    ite_eq_left_iff.mpr fun hin => hrow.resolve_left hin
  simp only [harvestStep, hhead, hop, hver, hexact, hgroup, hkind, ne_eq, not_true, if_false, List.isEmpty_nil, Bool.not_true, Bool.false_eq_true]

/-- A row of an absent shard counts as missing. -/
theorem harvestStep_missing (hexact : v.exact = true) (hgroup : q.group = []) (hin : fld (wordAt q.hdr 1) 40 0 + q.pos < v.rows)
    (hkind : entryKind v (BitVec.ofNat 64 (fld (wordAt q.hdr 1) 40 0 + q.pos)) = .missing) :
    harvestStep i s = harvestNext { q with missing := q.missing + 1 } s := by
  simp only [harvestStep, hhead, hop, hver, hexact, hgroup, if_neg (not_le.mpr hin), hkind, ne_eq, not_true, if_false, List.isEmpty_nil,
    Bool.not_true, Bool.false_eq_true]

/-- A row whose group is confirmed becomes visible, and the next row follows (R280). -/
theorem harvestStep_confirmed (hgroup : q.group ≠ []) (hconf : groupConfirmed q.group s = true) :
    harvestStep i s = harvestNext { q with done := q.done + 1 }
      (pump (countShard v (v.shardOf (fld (wordAt q.hdr 1) 40 0 + q.pos)) q.writes.length
        (groupClose (q.iid s) q.group q.writes ((regionsOf s (q.writes.map (·.line))).foldl (fun s a => landed a s)
          (modEmbReq q.seq (fun y => { y with writes := [] }) s))))) := by
  have hopen : q.group.isEmpty = false := List.isEmpty_eq_false_iff.mpr hgroup
  simp only [harvestStep, hhead, hop, hver, hopen, hconf, ne_eq, not_true, if_false, Bool.not_false, if_true]

end Harvest

end Sow

/-! ### PRUNE: searches and staged changes (R304-R308) -/

section Prune

/-- The query that a PRUNE unit runs for a request. -/
def queryFor (inst : Fin 4) (q : PrnReq) (s : State) : Query :=
  { x := q.idx, g := q.gen, iid := ((jobAt s (jobKey q.core q.ctx)).map (·.iid)).getD 0, h := q.words, table := q.table
    u := 8 + inst.val, who := q.seq }

/-- How many changes a staged operation reports in its status (R308). -/
def PrnOp.changes : PrnOp → Nat
  | .insert _ _ _ _ _ => 1
  | .delete _ ids => ids.length
  | .entry _ _ => 1

variable {op : Nat} {inst : Fin 4} {q : PrnReq} {s : State}
  (hq : s.prn.queue.find? (fun q => q.inst == inst.val && prnOp q.words == op) = some q)
include hq

/-- A SEARCH or SCAN that found every line it reads, none of them poisoned, is answered with its results and status (R304-R306). -/
theorem searchStep_found {p : Probe} (hopen : q.fail = none)
    (hrun : (if op = 1 then searchRun s (queryFor inst q s) else scanRun s (queryFor inst q s)) = p)
    (hfail : p.fail = none) (hstuck : p.stuck = false) (hmiss : p.miss = []) (hbits : p.bits = []) (hclean : p.poisoned = []) :
    searchStep op inst s = portReply (jobKey q.core q.ctx) unitPrune q.seq
      (pairTiles q.user 4 (p.results.map fun r => (r.1, r.2 + q.idx.idBase)) ++
        [prnStatus (if p.results.length < prnK q.words then .fewer else .ok) q.gen p.examined p.passed p.hops p.extra p.nan p.skipped q.user])
      (prnDrop q (countRC (Off.prn + 0x100) p.bad (p.lines.foldl (fun s l => touchLine l s) s))) := by
  rw [queryFor] at hrun
  simp only [searchStep, hq, hopen, hrun, hfail, hstuck, hmiss, hbits, hclean, needLines, List.foldl_nil, Bool.false_eq_true, if_false]

/-- A change of an index that its request spells is staged in its job while the quota holds it, and answered (R308). -/
theorem stagePrn_staged {o : PrnOp} {j : Job} {t : State} (hparse : prnParse q.idx q.words q.body = some o)
    (ht : modBody (jobKey q.core q.ctx) (fun b => { b with prn := b.prn ++ [o] }) (prnDrop q s) = t)
    (hj : jobAt t (jobKey q.core q.ctx) = some j) (hquota : stageUsed j.b ≤ stageQuota t) :
    stagePrn op inst s = portReply (jobKey q.core q.ctx) unitPrune q.seq
      [prnStatus .ok 0 o.changes 0 0 0 0 0 q.user] t := by
  simp only [stagePrn, hq, hparse, ht, hj, if_neg (not_lt.mpr hquota)]
  rfl

end Prune

/-- Settles O39: each unit by what its step does with the first request of its queue. -/
theorem unitsAnswer : Obligations.UnitsAnswer := by
  refine ⟨?glean, fun inst q v s hhead hver => ⟨?add, ?uncounted, ?confirmed⟩, ?search, ?stage⟩
  case glean =>
    intro bag inst q v s hhead hop hver w es ds u hrows x
    have hdo : Does (if bag then .bag inst else .gather inst) s (gleanStep (if bag then 2 else 1) inst s) := by
      cases bag with
      | false => exact does_gather inst s
      | true => exact does_bag inst s
    have hstep := gleanStep_took (bag := bag) (by cases bag <;> rfl) hhead hop hver rfl hrows
    exact ⟨fun hlast => exec_eq_of_does hdo (hstep.trans (if_pos hlast)),
      fun hmore => exec_eq_of_does hdo (hstep.trans (if_neg (not_le.mpr hmore)))⟩
  case add =>
    exact fun hop hrows => exec_eq_of_does (does_sowAdd inst s) (sowStep_combines hhead hver hop hrows)
  case uncounted =>
    exact fun hop hexact hgroup =>
      ⟨fun hrow => exec_eq_of_does (does_harvest inst s) (harvestStep_invalid hhead hver hop hexact hgroup hrow),
        fun hin hkind => exec_eq_of_does (does_harvest inst s) (harvestStep_missing hhead hver hop hexact hgroup hin hkind)⟩
  case confirmed =>
    exact fun hop hgroup hconf => exec_eq_of_does (does_harvest inst s) (harvestStep_confirmed hhead hver hop hgroup hconf)
  case search =>
    intro op inst q s hop hq hopen qq p hfail hstuck hmiss hbits hclean
    have hdo : Does (if op = 1 then .search inst else .scan inst) s (searchStep op inst s) := by
      rcases hop with rfl | rfl
      · exact does_search inst s
      · exact does_scan inst s
    exact exec_eq_of_does hdo (searchStep_found hq hopen rfl hfail hstuck hmiss hbits hclean)
  case stage =>
    intro op c inst q o j s hc hq hparse k t hj hquota
    have hdo : Does c s (stagePrn op inst s) := by
      simp only [List.mem_cons, List.not_mem_nil, or_false, Prod.mk.injEq] at hc
      rcases hc with ⟨rfl, rfl⟩ | ⟨rfl, rfl⟩ | ⟨rfl, rfl⟩
      · exact does_insert inst s
      · exact does_delete inst s
      · exact does_entry inst s
    exact exec_eq_of_does hdo (stagePrn_staged hq hparse rfl hj hquota)

end Sys2Proof.Machine
end

section
/-! The index commands, restamping, and the bound of a commit that waits for live bindings (R294, R295, R299, R300). -/

namespace Sys2Proof.Machine

open Sys2Proof

/-! ### CREATE, DESTROY, PIN and UNPIN (R294, R295) -/

section Indexes

variable {wr : Writer} {h i : Nat} {x : Index} {s : State}

@[simp] theorem indexOf_accepted (done h : Nat) : indexOf (accepted done s) h = indexOf s h := rfl
@[simp] theorem leastInst_accepted (done : Nat) : leastInst (accepted done s) = leastInst s := rfl
@[simp] theorem idxRights_accepted (done : Nat) (iid : BitVec 16) (x : Index) (f : Rights → Bool) :
    idxRights (accepted done s) iid x f = idxRights s iid x f := rfl

/-- The index that a CREATE by this writer makes of its staged words: the least loaded instance serves it (R295). -/
def createdIndex (wr : Writer) (h : Nat) (s : State) : Index :=
  { handle := h, words := (List.range 16).map fun i => staged s wr (Off.prn + 8 * i), inst := leastInst s, iid := writerIid s wr }

/-- The frame of an index's header line is allocated, and the line written: generation 1 and zeros (Table 13-2, Table 13-4). -/
def writeNewHeader (x : Index) (s : State) : State :=
  let line := lineOf (addr s x.hdr)
  storeLine line (BitVec.allOnes 128) (bytesOfWords (put 32 1 :: List.replicate 15 0))
    (untilReady (fun s => ((if (readyFull line s).1 then none else some (.way (setOf (readyFull line s).2 (line / 128)))), (readyFull line s).2)) 8 s)

/-- CREATE of a dead handle by fabric management, with a legal descriptor and no area in a CODED extent, writes and journals the new
header and keeps the index. -/
theorem createIndex_accepted (hready : Ready s wr none [.a, .f] idxDone) (hfm : hasCls s wr none .f = true) (hdead : indexOf s h = none)
    (hdesc : (createdIndex wr h s).descOk (accepted idxDone s) = true)
    (hform : ((createdIndex wr h s).areas.any fun y => (areaExts (accepted idxDone s) y).any fun e =>
      decide ((extDesc (accepted idxDone s) e).form = .coded)) = false) :
    let u := writeNewHeader (createdIndex wr h s) (accepted idxDone s)
    let line := lineOf (addr (accepted idxDone s) (createdIndex wr h s).hdr)
    createIndex wr h s = cmdDone idxDone .ok 0 ((groupRecord (extOfLine line) (dataRec u line 15 false (writerIid s wr)) u).2.modPrn fun p =>
      { p with idx := p.idx ++ [createdIndex wr h s] }) := by
  rw [createdIndex] at hdesc hform
  simp only [createIndex, createIndex.stagedWords, issue_ready hready, hasCls_accepted, hfm, indexOf_accepted, hdead, staged_accepted,
    leastInst_accepted, writerIid_accepted, hdesc, hform, Option.isSome_none, Bool.true_or, Bool.not_true, Bool.or_self, Bool.false_eq_true,
    if_false]
  rfl

/-- A command on a live index, by fabric management or by an owner of every extent of it, does what it does once accepted (R294). -/
theorem onIndex_accepted {dead : Status} {f : Index → State → State} (hready : Ready s wr none [.a, .f] idxDone) (hlive : indexOf s h = some x)
    (hrights : (hasCls s wr none .f || idxRights s (writerIid s wr) x (·.own)) = true) :
    onIndex wr h dead f s = f x (accepted idxDone s) := by
  simp only [onIndex, issue_ready hready, indexOf_accepted, hlive, hasCls_accepted, writerIid_accepted, idxRights_accepted, hrights,
    Bool.not_true, Bool.false_eq_true, if_false]

/-- PIN writes the current generation into the first free slot and returns it. -/
theorem pinGen_free (hslot : (List.range 4).find? (fun i => (hdrPins (hdrWords s x)).getD i 0 == 0) = some i)
    (hedit : (editHdr x (setPin i (hdrGen (hdrWords s x))) s).1 = true) :
    pinGen x s = cmdDone idxDone .ok (hdrGen (hdrWords s x)) (editHdr x (setPin i (hdrGen (hdrWords s x))) s).2 := by
  simp only [pinGen, hslot, hedit, if_true]

/-- UNPIN clears the first slot that holds the generation. -/
theorem unpinGen_held {g : BitVec 32} (hslot : (List.range 4).find? (fun i => (hdrPins (hdrWords s x)).getD i 0 == g && g != 0) = some i)
    (hedit : (editHdr x (setPin i 0) s).1 = true) : unpinGen g x s = cmdDone idxDone .ok 0 (editHdr x (setPin i 0) s).2 := by
  simp only [unpinGen, hslot, hedit, if_true]

end Indexes

/-! ### Restamping and the bound of a waiting commit (R299, R300) -/

/-- There is nothing to restamp under a handle that is not live. -/
theorem restampItem_dead {h item : Nat} {s : State} (hdead : indexOf s h = none) : restampItem h item s = s := by
  simp only [restampItem, hdead]

/-- A commit with index changes that has no group yet is tried once more at its bound, 10 ms after it began, and ends with BUSY where it
still has none (R299). -/
theorem indexBound_waits {core : Fin 16} {ctx : Fin 8} {j k : Job} {s : State} (hj : jobAt s (jobKey core ctx) = some j)
    (hphase : j.phase = .committing) (hgroup : j.group = []) (hprn : j.b.prn ≠ [])
    (hk : jobAt (commitTry core ctx (reach (j.commitAt + 10000000) s)) (jobKey core ctx) = some k) (hstill : k.phase = .committing)
    (hnone : k.group = []) :
    indexBound core ctx s = commitFail core ctx 0x0B .busy 0 (commitTry core ctx (reach (j.commitAt + 10000000) s)) := by
  have hbound : ¬(j.phase ≠ .committing ∨ !j.group.isEmpty ∨ j.b.prn.isEmpty) := by
    simp [hphase, hgroup, hprn]
  have hwaits : k.phase = .committing ∧ k.group.isEmpty := ⟨hstill, by rw [hnone]; rfl⟩
  simp only [indexBound, hj, if_neg hbound, hk]
  exact if_pos hwaits

/-- Settles O42: the index commands once their register has accepted them, then restamping and the bound by their own steps. -/
theorem indexCommands : Obligations.IndexCommands := by
  refine ⟨fun wr handle s hready => ⟨?create, fun y hlive hrights => ⟨?destroy, ?pin, ?unpin⟩⟩, ?restamp, ?bound⟩
  case create =>
    exact fun hfm hdead hdesc hform =>
      exec_eq_of_does (does_indexCreate wr handle s) (createIndex_accepted hready hfm hdead hdesc hform)
  case destroy => exact exec_eq_of_does (does_indexDestroy wr handle s) (onIndex_accepted hready hlive hrights)
  case pin =>
    exact fun i hslot hedit =>
      exec_eq_of_does (does_pin wr handle s) ((onIndex_accepted hready hlive hrights).trans (pinGen_free hslot hedit))
  case unpin =>
    exact fun i hslot hedit =>
      exec_eq_of_does (does_unpin wr handle s) ((onIndex_accepted hready hlive hrights).trans (unpinGen_held hslot hedit))
  case restamp =>
    exact fun handle item s => ⟨does_indexRestamp handle item s,
      fun hdead => exec_eq_of_does (does_indexRestamp handle item s) (restampItem_dead hdead)⟩
  case bound =>
    exact fun core ctx j k s hj hphase hgroup hprn hk hstill hnone =>
      exec_eq_of_does (does_indexCommitWaitBound core ctx s) (indexBound_waits hj hphase hgroup hprn hk hstill hnone)

end Sys2Proof.Machine
end

section
/-! BIND and UNBIND of an ASID, replies to page faults, invalidations, and reads of host pages (R314, R323, R326-R329, R331, R345). -/

namespace Sys2Proof.Machine

open Sys2Proof

/-! ### BIND and UNBIND (R314) -/

section Asids

variable {wr : Writer} {asid : BitVec 16} {s : State}

/-- The record that a BIND by this writer makes of its staged words (Table 14-2). -/
def boundRec (wr : Writer) (s : State) : AsidRec :=
  { valid := true, root := fld (staged s wr (asidStage 0)) 47 12 * 4096, fq := Fin.ofNat 16 (fld (staged s wr (asidStage 0)) 3 0)
    iid := bindIid s wr (staged s wr (asidStage 1)) }

/-- BIND of an ASID that is not bound, with its root in an ASSIGNED RAW extent that the record's IID may read, writes the record. -/
theorem bindAsid_free (hfree : (s.xlt.asids.any fun a => a.1 == asid.toNat && a.2.valid) = false)
    (hstate : (extDesc s (extOf (boundRec wr s).root)).state = .assigned) (hform : (extDesc s (extOf (boundRec wr s).root)).form = .raw)
    (hread : (rightsOf (extDesc s (extOf (boundRec wr s).root)) (boundRec wr s).iid).rd = true) :
    bindAsid wr asid s = cmdDone asidDone .ok 0 (s.modXlt fun x => { x with
      asids := Tab.put {} asid.toNat (boundRec wr s) x.asids }) := by
  rw [boundRec] at hstate hform hread
  simp only [bindAsid, hfree, hstate, hform, hread, ne_eq, not_true_eq_false, Bool.not_true, Bool.false_eq_true, or_self, if_false]
  rfl

/-- The record and the translations of an ASID go, and its UNBIND waits for its jobs. -/
def forgetAsid (asid : BitVec 16) (s : State) : State :=
  s.modXlt fun x => { x with
    asids := Tab.put {} asid.toNat {} x.asids, unbinding := x.unbinding ++ [asid], tlb := x.tlb.filter fun t => t.2.asid != asid }

/-- The jobs of an ASID in contexts are cancelled, but for those that have committed or ended. -/
def cancelAsidJobs (asid : BitVec 16) (s : State) : State :=
  (asidJobs s asid).foldl (fun s c => match jobAt s (jobKey c.1 c.2) with
    | some j => if committedJob j ∨ j.phase = .ended then s else cancelJob c.1 c.2 s
    | none => s) s

/-- UNBIND of a bound ASID by a writer that may act on it ends the ASID's jobs, in contexts and queued, and completes once they have
ended. -/
theorem unbindAsid_bound {n : Nat} {r : AsidRec} (hbound : s.xlt.asids.find? (fun a => a.1 == asid.toNat && a.2.valid) = some (n, r))
    (hwr : invAllowed s wr r = true) :
    unbindAsid wr asid s = unbindTry (endQueued asid (cancelAsidJobs asid (forgetAsid asid s))) := by
  simp only [unbindAsid, hbound, hwr, Bool.not_true, Bool.false_eq_true, if_false]
  rfl

end Asids

/-! ### Replies to page faults (R326, R327) -/

section Faults

variable {f : LiveFault} {s : State}

/-- A reply with a legal status, by a writer that may act on the fault's ASID, ends the fault. -/
theorem faultReply_live {wr : Writer} {v : Word} {st : Status} (hlive : s.xlt.faults.find? (fun f => f.id == v.setWidth 32) = some f)
    (hwr : invAllowed s wr (((s.xlt.asids.find? fun a => a.1 == f.asid.toNat).map (·.2)).getD {}) = true)
    (hst : statusOf (fld v 63 59) = some st) : faultReply wr v s = (none, faultOver f st s) := by
  simp only [faultReply, hlive, hwr, hst, Bool.not_true, Bool.false_eq_true, if_false]

/-- A posted fault is over XLT_FAULT_TIME after it was posted. -/
theorem faultLate_posted {id : BitVec 32} {t : Nat} (hlive : s.xlt.faults.find? (·.id == id) = some f) (hposted : f.posted = some t) :
    faultLate id s = faultOver f .abandoned (reach (t + 1000000 * (regGet s (Off.xlt + 0x320)).toNat) s) := by
  simp only [faultLate, hlive, hposted]

end Faults

/-! ### Invalidations (R328, R329) -/

section Invalidations

variable {i : Inval} {s : State}

@[simp] theorem doneMod_xlt (off : Nat) (f : Done → Done) : (doneMod off f s).xlt = s.xlt := rfl
@[simp] theorem invAllowed_doneMod (off : Nat) (f : Done → Done) (wr : Writer) (r : AsidRec) :
    invAllowed (doneMod off f s) wr r = invAllowed s wr r := rfl
@[simp] theorem invAllowed_modXlt (f : Xlt → Xlt) (wr : Writer) (r : AsidRec) :
    invAllowed (s.modXlt f) wr r = invAllowed s wr r := rfl
@[simp] theorem invBusy_reach (t : Nat) : invBusy (reach t s) i = invBusy s i := rfl

/-- The number of an invalidation's op in XLT_INV_CMD: RANGE or ASID (Table 14-7). -/
def invOp (all : Bool) : Nat := if all then 2 else 1

/-- The ASID that the staged words of an invalidation name. -/
def stagedAsid (wr : Writer) (s : State) : BitVec 16 := BitVec.ofNat 16 (fld (staged s wr (invStage 0)) 47 32)

/-- The invalidation that a writer's staged words ask for, under the next number and with the IID of its ASID's record. -/
def stagedInval (all : Bool) (wr : Writer) (iid : BitVec 16) (s : State) : Inval :=
  { num := s.xlt.nextInv + 1, asid := stagedAsid wr s, all := all, lo := fld (staged s wr (invStage 1)) 47 16 * 65536
    pages := fld (staged s wr (invStage 0)) 31 0, counter := staged s wr (invStage 2), iid := iid, start := now s }

/-- An invalidation takes the next number, is outstanding, and takes effect. -/
def enterInval (i : Inval) (s : State) : State :=
  invalidate i ((doneMod invDone (fun d => { d with number := d.number + 1 }) (s.modXlt fun x => { x with
    nextInv := i.num })).modXlt fun x => { x with invals := x.invals ++ [i] })

/-- An invalidation completes where nothing it waits for remains; until then XLT_INV_DONE says whether 64 are outstanding (R478). -/
def settleInval (i : Inval) (s : State) : State :=
  if invBusy s i then doneMod invDone (fun d => { d with busy := decide (64 ≤ s.xlt.invals.length) }) s else invFinish i s

/-- A well-formed invalidation of a bound ASID, by a writer that may act on it, takes effect at once while fewer than 64 are
outstanding. -/
theorem invStart_accepted {all : Bool} {wr : Writer} {n : Nat} {r : AsidRec} (hcls : allowed s wr none [.a, .w, .f] = true)
    (hroom : s.xlt.invals.length < 64)
    (hbound : s.xlt.asids.find? (fun a => a.1 == (stagedAsid wr s).toNat && a.2.valid) = some (n, r)) (hwr : invAllowed s wr r = true)
    (hctr : (staged s wr (invStage 2)).toNat % 8 = 0) (hop : fld (staged s wr (invStage 0)) 63 56 = invOp all)
    (hpages : all = true ↔ fld (staged s wr (invStage 0)) 31 0 = 0) :
    (invStart wr (invOp all) s).2 = settleInval (stagedInval all wr r.iid s) (enterInval (stagedInval all wr r.iid s) s) := by
  have hgood : ¬((staged s wr (invStage 2)).toNat % 8 ≠ 0 ∨ fld (staged s wr (invStage 0)) 63 56 ≠ invOp all ∨
      (invOp all = 1 ∧ fld (staged s wr (invStage 0)) 31 0 = 0) ∨ (invOp all = 2 ∧ fld (staged s wr (invStage 0)) 31 0 ≠ 0)) := by
    cases all <;> simp [hctr, hop, ← hpages, invOp]
  have hall : decide (invOp all = 2) = all := by cases all <;> rfl
  rw [stagedAsid] at hbound
  simp only [invStart, hcls, not_le.mpr hroom, doneMod_xlt, State.modXlt_xlt, hbound, invAllowed_doneMod, invAllowed_modXlt, hwr,
    if_neg hgood, hall, Bool.not_true, Bool.false_eq_true, if_false]
  rfl

/-- An outstanding invalidation that waits for nothing completes. -/
theorem invComplete_idle {num : BitVec 16} (hout : s.xlt.invals.find? (·.num == num) = some i) (hidle : invBusy s i = false) :
    invComplete num s = invFinish i s := by
  simp only [invComplete, hout, hidle, Bool.false_eq_true, if_false]

/-- At its bound, 10 ms after it began, an invalidation that waits for nothing completes. -/
theorem invBound_idle {num : BitVec 16} (hout : s.xlt.invals.find? (·.num == num) = some i) (hidle : invBusy s i = false) :
    invBound num s = invFinish i (reach (i.start + 10000000) s) := by
  simp only [invBound, hout, invBusy_reach, hidle, Bool.not_false, if_true]

end Invalidations

/-! ### Reads of host pages (R323, R331, R345) -/

section HostReads

variable {port : Fin 4} {a : BitVec 52} {bad : Bool} {data : BitVec 512} {r : HostRead} {s : State}

/-- The bytes of a RdCurr answer are counted for its port. -/
def countAnswer (port : Fin 4) (s : State) : State := telAdd (0x1100 + 0x10 * port.val) 64 s

/-- The first answer of a line is kept, with its poison. -/
theorem rdAnswered_first
    (hread : s.xlt.reads.find? (fun r => r.port == port && r.addr == (a &&& ~~~(64 : BitVec 52)) && r.issued) = some r)
    (hgot : r.got = none) :
    rdAnswered port a bad data s = (countAnswer port s).modXlt fun x => { x with
      reads := x.reads.map fun y => if y = r then { r with got := some (a.getLsbD 6, data), poison := bad } else y } := by
  simp only [rdAnswered, hread, hgot]
  rfl

/-- The answer of a line's other half completes the line. -/
theorem rdAnswered_second {up : Bool} {d : BitVec 512}
    (hread : s.xlt.reads.find? (fun r => r.port == port && r.addr == (a &&& ~~~(64 : BitVec 52)) && r.issued) = some r)
    (hgot : r.got = some (up, d)) (hother : up ≠ a.getLsbD 6) :
    rdAnswered port a bad data s = hostLineRead r (r.poison || bad) (joinHalves up d data) (countAnswer port s) := by
  simp only [rdAnswered, hread, hgot, if_neg hother]
  rfl

/-- A read that was issued and is not answered in time, its port's link being up, ends ABANDONED. -/
theorem hostLate_issued (hread : s.xlt.reads.find? (fun r => r.port == port && r.addr == a) = some r) (hissued : r.issued = true)
    (hup : portUp s port = true) : hostLate port a s = endHostRead r .abandoned [] (reach r.due s) := by
  simp only [hostLate, hread, hup, hissued, Bool.not_true, Bool.false_eq_true, if_false, if_true]

/-- A read of a port whose link is down ends ABANDONED at once. -/
theorem hostLate_down (hread : s.xlt.reads.find? (fun r => r.port == port && r.addr == a) = some r) (hdown : portUp s port = false) :
    hostLate port a s = endHostRead r .abandoned [] s := by
  simp only [hostLate, hread, hdown, Bool.not_false, if_true]

end HostReads

/-- Settles O43: the ASID commands once their register has accepted them, then faults, invalidations and host reads by their own
steps. -/
theorem translationCommands : Obligations.TranslationCommands := by
  refine ⟨⟨fun wr asid s hready => ⟨?bind, ?unbind⟩, ?reply, ?timeout⟩, ⟨?start, fun num i s hout => ⟨?complete, ?bound⟩⟩,
    fun port a bad data r s hread => ⟨?first, fun up d hgot hother => ⟨?second, ?poisoned⟩⟩,
    fun port a r s hread => ⟨?late, ?down⟩, ?decay⟩
  case bind =>
    intro hfree hstate hform hread
    exact exec_eq_of_does (does_bind wr asid s) ((congrArg Prod.snd (issue_ready hready)).trans
      (bindAsid_free (s := accepted asidDone s) hfree hstate hform hread))
  case unbind =>
    exact fun n r hbound hwr => exec_eq_of_does (does_unbind wr asid s) ((congrArg Prod.snd (issue_ready hready)).trans
      (unbindAsid_bound (s := accepted asidDone s) hbound hwr))
  case reply =>
    exact fun wr v f st s hlive hwr hst =>
      exec_eq_of_does (does_xltFaultResp wr v s) (congrArg Prod.snd (faultReply_live hlive hwr hst))
  case timeout =>
    exact fun id f t s hlive hposted => exec_eq_of_does (does_faultTimeout id s) (faultLate_posted hlive hposted)
  case start =>
    intro all wr n r s hcls hroom w0 w1 counter asid num hbound hwr hctr hop hpages i t
    have hstart := invStart_accepted hcls hroom hbound hwr hctr hop hpages
    cases all with
    | false => exact exec_eq_of_does (does_invRange wr s) hstart
    | true => exact exec_eq_of_does (does_invAsid wr s) hstart
  case complete => exact fun hidle => exec_eq_of_does (does_invComplete num s) (invComplete_idle hout hidle)
  case bound => exact fun hidle => exec_eq_of_does (does_invDrainBound num s) (invBound_idle hout hidle)
  case first => exact fun hgot => exec_eq_of_does (does_rdcurrAnswer port a bad data s) (rdAnswered_first hread hgot)
  case second =>
    intro hclean
    refine exec_eq_of_does (does_rdcurrAnswer port a false data s) ((rdAnswered_second hread hgot hother).trans ?_)
    rw [hclean]
    rfl
  case poisoned =>
    intro hpoison
    refine exec_eq_of_does (does_rdcurrAnswer port a bad data s) ((rdAnswered_second hread hgot hother).trans ?_)
    rw [(Bool.or_eq_true _ _).mpr hpoison]
    rfl
  case late =>
    exact fun hissued hup => exec_eq_of_does (does_hostReadTimeout port a s) (hostLate_issued hread hissued hup)
  case down => exact fun hdown => exec_eq_of_does (does_hostReadTimeout port a s) (hostLate_down hread hdown)
  case decay => exact fun s => does_hotPageDecay s

end Sys2Proof.Machine
end

section
/-! The block as a machine (`step`, the queue of waiting commands), and what every step keeps: the time base and the fuses (R375, R438,
R486). -/

namespace Sys2Proof.Machine

open Sys2Proof

/-! ### Steps and the queue -/

/-- With a command at the front of the queue a step is that command, run on the rest. -/
theorem step_of_pending {c : Instr} {rest : List Instr} {s : State} (h : s.pending = c :: rest) :
    step s = exec c { s with pending := rest } := by
  rw [step, h]

/-- With no command waiting a step passes time. -/
theorem step_idle {s : State} (h : s.pending = []) : step s = .next (passTime s) := by
  rw [step, h]

/-- Settles O1. -/
theorem stepRunsFrontCommand : Obligations.StepRunsFrontCommand := fun _ _ _ => step_of_pending

/-- An advance of the time base is of one nanosecond, or of two while the device is slewed forward (R375, R376). -/
theorem now_tick (s : State) : now (tick s) = now s + 1 ∨ 0 < s.fab.slew ∧ now (tick s) = now s + 2 := by
  unfold tick
  dsimp only
  split
  · exact .inl rfl
  · split
    · next hslew => exact .inr ⟨hslew, rfl⟩
    · exact .inl rfl

/-- Settles O2. -/
theorem idleStepPassesTime : Obligations.IdleStepPassesTime := by
  refine ⟨fun s => step_idle, fun s => ?_⟩
  obtain h | ⟨hslew, h⟩ := now_tick s
  · exact ⟨by omega, by omega, fun _ => h⟩
  · exact ⟨by omega, by omega, fun hnone => by omega⟩

/-- Every command does something: it takes each state to a next one, and its waiting commands stay. -/
theorem exists_does (c : Instr) (s : State) : ∃ t, Does c s t := by
  cases c <;> exact ⟨_, rfl⟩

/-- Settles O3. -/
theorem everyCommandAnswersNext : Obligations.EveryCommandAnswersNext := fun c s =>
  let ⟨t, h⟩ := exists_does c s
  ⟨{ t with pending := s.pending }, h.next, rfl⟩

/-- A step with a command waiting takes the state to one where the commands behind it wait. -/
theorem step_drops_front {c : Instr} {rest : List Instr} {s : State} (h : s.pending = c :: rest) :
    ∃ t, step s = .next t ∧ t.pending = rest := by
  rw [step_of_pending h]
  exact everyCommandAnswersNext c { s with pending := rest }

/-- As many steps as a queue is long are all taken, and empty it. -/
theorem run_length_drains (q : List Instr) (s : State) (h : s.pending = q) :
    ∃ t, Sys2Proof.core.run q.length s = .next t ∧ Drained t := by
  induction q generalizing s with
  | nil => exact ⟨s, rfl, h⟩
  | cons c rest ih =>
    obtain ⟨t, hstep, hrest⟩ := step_drops_front h
    obtain ⟨u, hrun, hdrained⟩ := ih t hrest
    have hcore : Sys2Proof.core.step s = .next t := hstep
    exact ⟨u, by simp only [List.length_cons, Host.Core.run, hcore, hrun], hdrained⟩

/-- Settles O4, by induction on the queue. -/
theorem queueDrains : Obligations.QueueDrains := fun s => run_length_drains s.pending s rfl

/-! ### What no step undoes (R375, R438, R486) -/

/-- A bit that stands where one set of fuses lies within another stands in the other. -/
theorem getLsbD_of_and_eq_self {w k : Nat} {x y : BitVec w} (h : x &&& y = x) (hk : x.getLsbD k = true) : y.getLsbD k = true := by
  rw [← h, BitVec.getLsbD_and, Bool.and_eq_true] at hk
  exact hk.2

/-- Settles O5: whatever the command, a step keeps the fuses but for those it blows. -/
theorem fusesOnlyBurn : Obligations.FusesOnlyBurn := by
  intro s t hstep
  obtain ⟨hrest, hrevoked, hsvn, hlife⟩ := (step_keeps_fromZero hstep).fuses
  exact ⟨hrest, fun _ => getLsbD_of_and_eq_self hrevoked, hsvn, hlife⟩

/-- Settles O7: no command but those named may restart the time base. -/
theorem timeNeverMovesBack : Obligations.TimeNeverMovesBack := by
  intro s t hstep hfront
  refine (step_keeps hstep (fun c rest hp hrestart => ?_) (Keeps.refl s)).time
  obtain ⟨hcold, hflush, hrise, hsample, hsupply⟩ := hfront c rest hp
  unfold mayRestart at hrestart
  split at hrestart
  · exact absurd rfl hcold
  · exact absurd rfl hrise
  · exact absurd rfl hflush
  · exact absurd rfl (hsupply _)
  · exact absurd rfl (hsample _ _ _)
  · cases hrestart

end Sys2Proof.Machine
end

section
/-! Command registers that refuse (R476, R478), the bound of the error log (R382), the choice of a link (R372), and the arithmetic of RAKE
lanes (Table 09-6). -/

namespace Sys2Proof.Machine

open Sys2Proof

/-! ### Command registers (R476, R478) -/

/-- A command of a command register, with the classes that may write it, the register and its completion register: whatever it runs, it
runs as its register lets it. -/
def IsIssued (wr : Writer) (s : State) (x : Instr × List WCls × Nat × Nat) : Prop :=
  ∃ run, Does x.1 s (issue wr none x.2.1 x.2.2.1 x.2.2.2 run s).2

/-- A command register refuses a writer it does not name, and any writer while it is busy. -/
theorem IsIssued.refuses {wr : Writer} {s : State} {x : Instr × List WCls × Nat × Nat} (h : IsIssued wr s x) :
    (allowed s wr none x.2.1 = false → exec x.1 s = .next { rejected x.2.2.1 s with pending := s.pending }) ∧
    (allowed s wr none x.2.1 = true → (doneGet s x.2.2.2).busy = true →
      exec x.1 s = .next { doneMod x.2.2.2 (fun d => { d with refused := true }) s with pending := s.pending }) := by
  obtain ⟨run, hdo⟩ := h
  exact ⟨fun hdenied => exec_eq_of_does hdo (congrArg Prod.snd (issue_denied hdenied)),
    fun hallowed hbusy => exec_eq_of_does hdo (congrArg Prod.snd (issue_busy hallowed hbusy))⟩

/-- Settles O26: each command is one of its command register. -/
theorem commandRegistersRefuse : Obligations.CommandRegistersRefuse := by
  intro wr ext first count asid table group index core version image code inst comp policy s x hx
  refine IsIssued.refuses (wr := wr) ?_
  revert x
  simp only [List.forall_mem_cons]
  exact ⟨⟨_, does_assign wr ext s⟩, ⟨_, does_modify wr ext s⟩, ⟨_, does_region wr ext first count s⟩, ⟨_, does_revoke wr ext s⟩,
    ⟨_, does_restore wr ext s⟩, ⟨_, does_extentRelease wr ext s⟩, ⟨_, does_bind wr asid s⟩, ⟨_, does_unbind wr asid s⟩,
    ⟨_, does_tableCreate wr table s⟩, ⟨_, does_tableReplace wr table s⟩, ⟨_, does_tableDelete wr table s⟩,
    ⟨_, does_groupSet wr group s⟩, ⟨_, does_groupClear wr group s⟩, ⟨_, does_indexCreate wr index s⟩,
    ⟨_, does_indexDestroy wr index s⟩, ⟨_, does_pin wr index s⟩, ⟨_, does_unpin wr index s⟩,
    ⟨_, does_nmcRsInstall wr version image s⟩, ⟨_, does_nmcRsRetire wr version s⟩, ⟨_, does_graft wr core s⟩,
    ⟨_, does_blockReset wr code inst s⟩, ⟨_, does_compPolicy wr comp policy s⟩, ⟨_, does_compReleaseCmd wr comp s⟩,
    ⟨_, does_drillSchedule wr s⟩, List.forall_mem_nil _⟩

/-! ### The error log (R382-R385) -/

/-- The log holds no more records than it has places. -/
def LogFits (s : State) : Prop := s.ras.log.length ≤ 2048

section ErrorLog

variable {e : ErrRec} {s : State}

/-- Posting an event leaves the log. -/
@[simp] theorem post_log (x : EventRec) (ext : Option Nat) (src : Option (BitVec 16)) (s : State) :
    (post x ext src s).ras.log = s.ras.log := by
  have hposted : ∀ (l : List Nat) (x : EventRec) (t : State),
      (l.foldl (fun t w => t.modRas fun r => { r with evq := Tab.upd {} w (·.add x) r.evq }) t).ras.log = t.ras.log := by
    intro l x
    induction l with
    | nil => exact fun _ => rfl
    | cons w l ih => exact fun t => ih _
  unfold post
  dsimp only
  split
  · exact hposted _ _ s
  · split
    · exact hposted _ _ s
    · exact hposted _ _ s

/-- Replacing the first element of a kind keeps a list's length. -/
@[simp] theorem length_modFirst {α : Type} (p : α → Bool) (f : α → α) (l : List α) : (modFirst p f l).length = l.length := by
  induction l with
  | nil => rfl
  | cons a l ih =>
    rw [modFirst]
    split
    · rfl
    · rw [List.length_cons, List.length_cons, ih]

/-- A record that is appended to the log pushes out the oldest ones beyond its places. -/
theorem appendErr_log_length (r : Ras) : (appendErr e r).log.length ≤ 2048 := by
  simp only [appendErr, List.length_drop]
  omega

/-- A record that joins another or is appended keeps the bound. -/
theorem LogFits.writeErr (h : LogFits s) (src : Option (BitVec 16)) : LogFits (writeErr e src s) := by
  unfold LogFits Machine.writeErr
  split
  · exact (length_modFirst _ _ _).trans_le h
  · dsimp only
    split
    · exact appendErr_log_length _
    · rw [post_log]
      exact appendErr_log_length _

/-- Counting towards a storm, and the storm's own record, keep the bound. -/
theorem LogFits.stormCount (h : LogFits s) : LogFits (stormCount e s) := by
  unfold Machine.stormCount
  split
  · exact h
  · extract_lets fresh n t x u
    have ht : LogFits (countErr x t) := h
    split
    · exact (congrArg List.length (post_log _ _ _ _)).trans_le (ht.writeErr (e := x) none)
    · exact h

/-- Raising a record keeps the bound. -/
theorem LogFits.raise (h : LogFits s) : LogFits (raise e s) :=
  LogFits.writeErr (LogFits.stormCount (s := countErr _ s) h) none

end ErrorLog

/-- Settles O50: what is appended stays within the log's places, and what joins a record adds none. -/
theorem errorLogIsBounded : Obligations.ErrorLogIsBounded := fun _ _ => LogFits.raise

/-! ### The choice of a link (R372, R373) -/

/-- Two optical links, of which only the second has credits for class 0 of VC 1, and neither any for class 1. -/
def opticalPair : State :=
  { fab := { links := [(15, { state := .active }), (16, { state := .active, credits := [(creditKey 1 0, 1)] })] } }

/-- Refutes O47: the credits compared are those of the class in which a message crosses a link, and crossing an optical one raises its
class (R373); link 15 is taken although link 16 alone has credits for the message's own class. -/
theorem not_linkChoice : ¬Obligations.LinkChoice := by
  intro h
  obtain ⟨-, hadaptive⟩ := h opticalPair { vc := 1 } [15, 16] (by decide) (by decide)
  obtain ⟨c, -, hpick, hmost⟩ := hadaptive rfl
  have hfirst : pickLink opticalPair { vc := 1 } [15, 16] = some 15 := by decide
  have hc : c = 15 := Option.some.inj (hpick.symm.trans hfirst)
  have hcredits := (hmost 16 (by decide)).1
  rw [hc] at hcredits
  exact absurd hcredits (by decide)

/-! ### RAKE lanes (Table 09-6) -/

/-- The lowest exponent of a list of dyadics, and of 0. -/
def lowestExp (l : List (Int × Int)) : Int := l.foldr (fun d e => min d.2 e) 0

/-- An exact sum has the lowest exponent of its terms. -/
theorem dySum_snd (l : List (Int × Int)) : (dySum l).2 = lowestExp l := by
  induction l with
  | nil => rfl
  | cons d l ih =>
    rw [dySum, lowestExp, List.foldr_cons, ← lowestExp, ← ih]
    dsimp only
    split_ifs with h
    · exact (min_eq_left h).symm
    · exact (min_eq_right (not_le.mp h).le).symm

/-- Dyadics of one exponent that stand for one number are one. -/
theorem dyadic_inj {d g : Int × Int} (hexp : d.2 = g.2) (h : dyadic d = dyadic g) : d = g := by
  have hpow : (2 : ℚ) ^ g.2 ≠ 0 := zpow_ne_zero _ two_ne_zero
  rw [dyadic, dyadic, hexp, mul_left_inj' hpow, Int.cast_inj] at h
  exact Prod.ext h hexp

/-- An exact sum does not depend on the order of its terms. -/
theorem dySum_perm {l k : List (Int × Int)} (h : l.Perm k) : dySum l = dySum k := by
  refine dyadic_inj ?_ ?_
  · rw [dySum_snd, dySum_snd]
    exact h.foldr_eq (lcomm := ⟨fun a b e => min_left_comm a.2 b.2 e⟩) 0
  · rw [dyadic_dySum, dyadic_dySum]
    exact (h.map dyadic).sum_eq

/-- Nor does the sum with the special values of R203. -/
theorem exactSum_perm {l k : List Num} (h : l.Perm k) : exactSum l = exactSum k := by
  unfold exactSum
  rw [h.any_eq, h.any_eq, h.any_eq, h.any_eq, h.all_eq, dySum_perm (h.map Num.dy)]

/-- Nor do the flags of a result depend on the order of its inputs. -/
theorem fpResult_perm {l k : List Num} (h : l.Perm k) (x : Num) : fpResult l x = fpResult k x := by
  unfold fpResult fpFlags
  rw [h.any_eq, h.all_eq]

/-- A product does not depend on the order of its factors. -/
theorem Num.mul_comm (x y : Num) : x.mul y = y.mul x := by
  have hsign : ∀ a b : Bool, (a != b) = (b != a) := by decide
  cases x <;> cases y <;> simp only [Num.mul, hsign, Nat.mul_comm, Int.add_comm]

theorem laneAdd_comm (x y : BitVec 32) : laneAdd x y = laneAdd y x := by
  have hswap : [decF32 x, decF32 y].Perm [decF32 y, decF32 x] := .swap _ _ _
  rw [laneAdd, laneAdd, exactSum_perm hswap, fpResult_perm hswap]

theorem laneMul_comm (x y : BitVec 32) : laneMul x y = laneMul y x := by
  rw [laneMul, laneMul, Num.mul_comm, fpResult_perm (.swap _ _ _)]

/-- ISAT gives the exact sum or difference, clamped to INT32. -/
theorem toInt_laneIsat (sub : Bool) (x y : BitVec 32) :
    (laneIsat sub x y).1.toInt = max (-(2 ^ 31)) (min (2 ^ 31 - 1) (if sub then x.toInt - y.toInt else x.toInt + y.toInt)) := by
  have hrange : (-(2 ^ 31) : Int) ≤ 2 ^ 31 - 1 := by decide
  have hclamped : (laneIsat sub x y).1 =
      BitVec.ofInt 32 (clampInt (-(2 ^ 31)) (2 ^ 31 - 1) (if sub then x.toInt - y.toInt else x.toInt + y.toInt)).1 := rfl
  rw [hclamped, clampInt_fst hrange]
  exact BitVec.toInt_ofInt_eq_self (by decide) (le_max_left _ _) (Int.lt_of_le_sub_one (max_le hrange (min_le_left _ _)))

/-- Settles O35: the exact sum and product, and their flags, depend on no order; the clamped result fits its lane. -/
theorem laneArithmetic : Obligations.LaneArithmetic :=
  ⟨fun _ => ⟨rfl, rfl⟩, fun x y => ⟨laneAdd_comm x y, laneMul_comm x y⟩, fun x y => ⟨toInt_laneIsat false x y, toInt_laneIsat true x y⟩⟩

end Sys2Proof.Machine
end

section
/-! Reports change the records alone (R382-R388), and a link that goes down holds nothing undelivered, whatever else then goes on at the
other links (R364, R372-R374, R380, R381, R402). -/

namespace Sys2Proof.Machine

open Sys2Proof

/-! ### Records and events (R382-R388) -/

/-- From `s` to `t` nothing changed but the records, their counts and the event queues. -/
def RasWork (s t : State) : Prop := t = { s with ras := t.ras }

section Records

variable {a s : State}

theorem RasWork.refl (s : State) : RasWork s s := rfl

theorem RasWork.trans {s t u : State} (h : RasWork s t) (k : RasWork t u) : RasWork s u :=
  Eq.trans k (congrArg (fun v : State => { v with ras := u.ras }) h)

theorem RasWork.modRas (h : RasWork a s) (f : Ras → Ras) : RasWork a (s.modRas f) := h.trans rfl

/-- An event that concerns no request enters event queues. -/
theorem RasWork.post (h : RasWork a s) (e : EventRec) (ext : Option Nat) : RasWork a (post e ext none s) := by
  refine h.trans ?_
  unfold Machine.post
  dsimp only
  refine List.foldlRecOn (motive := RasWork s) _ _ (.refl s) fun t ht w _ => ?_
  exact ht.modRas _

theorem RasWork.postDev (h : RasWork a s) (ty : BitVec 8) (object : Word) : RasWork a (postDev ty object s) := h.post _ _

theorem RasWork.writeErr (h : RasWork a s) (e : ErrRec) : RasWork a (writeErr e none s) := by
  unfold Machine.writeErr
  split
  · exact h.modRas _
  · dsimp only
    split
    · exact h.modRas _
    · exact (h.modRas _).post _ _

theorem RasWork.stormCount (h : RasWork a s) (e : ErrRec) : RasWork a (stormCount e s) := by
  unfold Machine.stormCount
  split
  · exact h
  · extract_lets fresh n t x u
    have ht : RasWork a t := h.modRas _
    split
    · exact (((ht.modRas _).writeErr x).modRas _).postDev _ _
    · exact ht

theorem RasWork.raise (h : RasWork a s) (e : ErrRec) : RasWork a (raise e s) := ((h.modRas _).stormCount _).writeErr _

end Records

/-! ### What goes on at the links -/

/-- From `s` to `t` nothing changed but the links and what they hold, the records, counters, telemetry, the fleet state and what is
presented. -/
def FabricWork (s t : State) : Prop :=
  t = { s with fab := t.fab, ras := t.ras, regs := t.regs, tel := t.tel, flt := t.flt, out := t.out }

theorem FabricWork.refl (s : State) : FabricWork s s := rfl

theorem FabricWork.trans {s t u : State} (h : FabricWork s t) (k : FabricWork t u) : FabricWork s u :=
  Eq.trans k (congrArg (fun v : State => { v with
    fab := u.fab, ras := u.ras, regs := u.regs, tel := u.tel, flt := u.flt, out := u.out }) h)

theorem RasWork.fabricWork {s t : State} (h : RasWork s t) : FabricWork s t := by
  rw [h]
  rfl

/-- A link is down, holds nothing undelivered and no credits, and trains again at `T` (R380, R381). -/
structure FabLink.Lost (T : Nat) (l : FabLink) : Prop where
  state : l.state = .down
  unacked : l.unacked = []
  rxBuf : l.rxBuf = []
  retrainAt : l.retrainAt = some T
  credits : l.credits = []
  shared : l.shared = 0

theorem FabLink.Lost.ne_default {T : Nat} {l : FabLink} (h : l.Lost T) : l ≠ {} := by
  rintro rfl
  cases h.retrainAt

/-- Since `a` only work at the links was done, and link `n` is lost until `T`. -/
structure LinkLost (a : State) (n T : Nat) (s : State) : Prop where
  work : FabricWork a s
  lost : (fabAt s n).Lost T

theorem fabAt_modFabLink_self {n : Nat} {f : FabLink → FabLink} {s : State} (h : f (fabAt s n) ≠ {}) :
    fabAt (modFabLink n f s) n = f (fabAt s n) :=
  Tab.get_put_self_of_ne _ _ _ _ h

theorem fabAt_modFabLink_ne {n k : Nat} {f : FabLink → FabLink} {s : State} (h : n ≠ k) : fabAt (modFabLink k f s) n = fabAt s n :=
  Tab.get_put_ne _ _ _ _ _ _ h

section LinkLost

variable {a s t : State} {n T : Nat} (h : LinkLost a n T s)
include h

/-- Work that leaves the links as they are leaves the link lost. -/
theorem LinkLost.of_links (hlinks : t.fab.links = s.fab.links) (hwork : FabricWork s t) : LinkLost a n T t where
  work := h.work.trans hwork
  lost := by
    have hsame : fabAt t n = fabAt s n := congrArg (fun l => Tab.get ({} : FabLink) l n) hlinks
    rw [hsame]
    exact h.lost

theorem LinkLost.modFab (f : Fab → Fab) (hf : (f s.fab).links = s.fab.links) : LinkLost a n T (s.modFab f) := h.of_links hf rfl

theorem LinkLost.modFlt (f : Flt → Flt) : LinkLost a n T (s.modFlt f) := h.of_links rfl rfl

theorem LinkLost.emit (o : Out) : LinkLost a n T (emit o s) := h.of_links rfl rfl

theorem LinkLost.countRC (off k : Nat) : LinkLost a n T (countRC off k s) := h.of_links rfl rfl

theorem LinkLost.telAdd (off k : Nat) : LinkLost a n T (telAdd off k s) := h.of_links rfl rfl

theorem LinkLost.rasWork (hras : RasWork s t) : LinkLost a n T t := by
  refine h.of_links ?_ hras.fabricWork
  rw [hras]

/-- A change at a link that keeps a lost link lost. -/
theorem LinkLost.modFabLink (k : Nat) {f : FabLink → FabLink} (hf : ∀ l : FabLink, l.Lost T → (f l).Lost T) :
    LinkLost a n T (modFabLink k f s) where
  work := h.work.trans rfl
  lost := by
    by_cases hk : n = k
    · have hlost := hf _ h.lost
      subst hk
      rw [fabAt_modFabLink_self hlost.ne_default]
      exact hlost
    · rw [fabAt_modFabLink_ne hk]
      exact h.lost

/-- Any change at another link. -/
theorem LinkLost.modOther {k : Nat} (hk : n ≠ k) (f : FabLink → FabLink) : LinkLost a n T (Machine.modFabLink k f s) where
  work := h.work.trans rfl
  lost := by
    rw [fabAt_modFabLink_ne hk]
    exact h.lost

/-! ### Messages that wait (R364, R372-R374) -/

theorem LinkLost.returnCredit (f : Fwd) : LinkLost a n T (returnCredit f s) := by
  unfold Machine.returnCredit
  split
  · exact h
  · refine (h.modFabLink _ fun l hl => ?_).emit _
    split
    · exact hl
    · exact ⟨hl.state, hl.unacked, hl.rxBuf, hl.retrainAt, hl.credits, hl.shared⟩

theorem LinkLost.dropFwd (f : Fwd) : LinkLost a n T (dropFwd f s) := (h.modFab _ rfl).returnCredit f

theorem LinkLost.leaveReserve (m : FabMsg) : LinkLost a n T (leaveReserve m s) := by
  unfold Machine.leaveReserve
  split
  · exact h
  · exact h.modFab _ rfl

theorem LinkLost.routeRec (code : BitVec 8) (fdn : BitVec 16) : LinkLost a n T (routeRec code fdn s) :=
  h.rasWork ((RasWork.refl s).raise _)

/-- The flits of a message leave on another link. -/
theorem LinkLost.sendFlits {k : Fin 24} (hk : n ≠ k) (first : Bool) (cs : List (List Byte)) : LinkLost a n T (sendFlits k first cs s) := by
  induction cs generalizing s first with
  | nil => exact h
  | cons c cs ih => exact ih (((h.modOther hk _).emit _).telAdd _ _) false

omit h in
/-- Every message needs credits (R364). -/
theorem msgNeed_pos (m : FabMsg) : 0 < msgNeed m := by
  unfold msgNeed msgUnits ceilDiv
  omega

omit h in
/-- A lost link has no credits to pay with. -/
theorem FabLink.Lost.payPool {l : FabLink} (hl : l.Lost T) (m : FabMsg) : payPool l m = none := by
  have hneed := msgNeed_pos m
  have hcredits : creditsOf l (creditKey m.vc m.bclass.toNat) = 0 := by
    rw [creditsOf, hl.credits]
    rfl
  have hshared := hl.shared
  rw [Machine.payPool, if_neg (by omega), if_neg (by omega)]

theorem LinkLost.sendOn {k : Fin 24} {m : FabMsg} (hsent : sendOn k m s = some t) : LinkLost a n T t := by
  have hk : n ≠ k := by
    rintro rfl
    rw [Machine.sendOn, h.lost.payPool m] at hsent
    cases hsent
  unfold Machine.sendOn at hsent
  dsimp only at hsent
  split at hsent
  · cases hsent
  · split at hsent
    · cases hsent
    · cases hsent
      exact ((h.modOther hk _).sendFlits hk _ _).emit _

theorem LinkLost.tryFwd (f : Fwd) (blk : List (Nat × Nat)) : LinkLost a n T (tryFwd f blk s).2 := by
  unfold Machine.tryFwd
  split
  · exact (h.dropFwd f).emit _
  · exact ((h.dropFwd f).countRC _ _).routeRec _ _
  · exact ((h.dropFwd f).countRC _ _).routeRec _ _
  · dsimp only
    split
    · exact h
    · split
      · exact h
      · next hsent =>
        have hpath := h.sendOn hsent
        refine ((?_ : LinkLost a n T _).dropFwd f).leaveReserve f.m
        split
        · exact hpath.modFab _ rfl
        · exact hpath

theorem LinkLost.fabPump : LinkLost a n T (fabPump s) := by
  unfold Machine.fabPump
  exact List.foldlRecOn (motive := fun p : List (Nat × Nat) × State => LinkLost a n T p.2) _ _ h fun p hp f _ => hp.tryFwd f p.1

/-! ### The answers of the link, and the suspicion of its peer (R368, R402, R404) -/

theorem LinkLost.moveAnswers (k : Nat) : LinkLost a n T (moveAnswers k s) := by
  unfold Machine.moveAnswers
  exact List.foldlRecOn (motive := LinkLost a n T) _ _ (h.modFab _ rfl) fun t ht _ _ => ht.modFab _ rfl

theorem LinkLost.tell (ty : BitVec 8) (dst d : BitVec 16) (drill : Bool) (body : List Word) : LinkLost a n T (tell ty dst d drill body s) :=
  (h.modFlt _).emit _

theorem LinkLost.recount (d : BitVec 16) : LinkLost a n T (recount d s) := by
  unfold Machine.recount
  split
  · exact h.modFlt _
  · split
    · exact h
    · exact h.modFlt _

theorem LinkLost.castVote (voter d : BitVec 16) (yes : Bool) : LinkLost a n T (castVote voter d yes s) := (h.modFlt _).recount d

theorem LinkLost.tellOf (ty : BitVec 8) (k : Nat) (d : BitVec 16) : LinkLost a n T (tellOf ty k d s) := by
  have htold : ∀ l : List (BitVec 16), LinkLost a n T (l.foldl (fun s v => Machine.tell ty v d false [] s) s) := fun l =>
    List.foldlRecOn (motive := LinkLost a n T) _ _ h fun t ht v _ => ht.tell ty v d false []
  unfold Machine.tellOf
  split
  · exact (htold _).castVote _ _ _
  · split
    · exact htold _
    · exact h

theorem LinkLost.suspectPeer (rec : Bool) (k : Nat) : LinkLost a n T (suspectPeer rec k s) := by
  unfold Machine.suspectPeer
  dsimp only
  split
  · exact h
  · refine LinkLost.tellOf ?_ _ _ _
    have hmarked : LinkLost a n T (Machine.modFabLink k (fun l => { l with suspected := true, heard := 0 }) s) :=
      h.modFabLink _ fun l hl => ⟨hl.state, hl.unacked, hl.rxBuf, hl.retrainAt, hl.credits, hl.shared⟩
    split
    · exact hmarked.rasWork ((RasWork.refl _).raise _)
    · exact hmarked

end LinkLost

/-- What a link is once it has gone down, to train again at `T` (R380, R381). -/
def FabLink.gone (T : Nat) (l : FabLink) : FabLink :=
  { l with
    state := .down, unacked := [], rxBuf := [], rxUsed := [], credits := [], shared := 0, sameReplays := 0
    replaySent := none, spareSent := false, retiring := 7, spareHold := none, fecAsk := none, narrowed := false
    wait := 1000000, retrainAt := some T }

theorem FabLink.gone_lost (T : Nat) (l : FabLink) : (l.gone T).Lost T := ⟨rfl, rfl, rfl, rfl, rfl, rfl⟩

/-- A link that was not down is lost when it goes down, and trains again 1 ms later. -/
theorem goDown_lost {n : Nat} {s : State} (h : (fabAt s n).state ≠ .down) : LinkLost s n (now s + 1000000) (goDown n false s) := by
  have hlost : LinkLost s n (now s + 1000000) (modFabLink n (FabLink.gone (now s + 1000000)) s) := by
    refine ⟨rfl, ?_⟩
    rw [fabAt_modFabLink_self (FabLink.gone_lost _ _).ne_default]
    exact FabLink.gone_lost _ _
  unfold goDown linkGone
  rw [if_neg h]
  dsimp only
  split
  · exact ((((hlost.modFab _ rfl).rasWork ((RasWork.refl _).postDev _ _)).moveAnswers n).fabPump).suspectPeer true n
  · exact hlost.modFab _ rfl

/-- Settles O45: the link is lost, and what then goes on at the links touches neither the store nor the journal. -/
theorem linkDownLosesItsFlits : Obligations.LinkDownLosesItsFlits := by
  intro n s h
  obtain ⟨hwork, hlost⟩ := goDown_lost h
  refine ⟨_, does_linkDown n s, hlost.state, hlost.unacked, hlost.rxBuf, hlost.retrainAt, ?_⟩
  rw [hwork]
  exact ⟨rfl, rfl, rfl, rfl⟩

end Sys2Proof.Machine
end

section
/-! The fabric links: training, wiring, optical modules (R353-R357, R378-R381), flits and messages (R361-R374), FEC modes, spare lanes and
time (R359, R360, R369-R377): what each command does in the case named. -/

namespace Sys2Proof.Machine

open Sys2Proof

/-! ### Training and wiring (R353-R357) -/

section Wiring

variable {n : Fin 24} {s : State}

/-- Two lanes or more that train are kept, and the IDENT is sent. -/
theorem trained_enough {t : FabTrain} (htraining : (fabAt s n).state = .training) (hlanes : 2 ≤ ones 5 t.working.toNat) :
    trained n t s =
      (let w := ones 5 t.working.toNat
       let u := modFabLink n (fun l => { l with
         working := t.working, inverted := t.inverted, order := t.order, spare := if w = 5 then 4 else 7, narrowed := decide (w < 4) }) s
       emit (.link n 0x03 (identWords u n)) u) := by
  have hlanes' : ¬ones 5 t.working.toNat < 2 := Nat.not_lt.mpr hlanes
  simp only [trained, htraining, hlanes', ne_eq, not_true_eq_false, if_false, Fin.ofNat_val_eq_self]

/-- With fewer the training failed. -/
theorem trained_few {t : FabTrain} (htraining : (fabAt s n).state = .training) (hlanes : ones 5 t.working.toNat < 2) :
    trained n t s = trainFailed n s := by
  simp only [trained, htraining, hlanes, ne_eq, not_true_eq_false, if_false, if_true]

/-- The state after an IDENT is heard, whose epoch the device follows (R406). -/
def heardIdent (id : Ident) (s : State) : State := s.modFlt fun f => { f with epoch := Nat.max f.epoch id.epoch }

/-- A peer that passes the wiring check brings the link up. -/
theorem takeIdent_wired {id : Ident} {agree : Bool} (htraining : (fabAt s n).state = .training)
    (hwired : crosswired (heardIdent id s) n id agree = false) : takeIdent n id agree s = bringUp n id (heardIdent id s) := by
  unfold takeIdent
  extract_lets u
  have hstate : (fabAt u n).state = .training := htraining
  rw [hstate]
  exact if_neg (ne_true_of_eq_false hwired)

/-- In service an IDENT of the known peer changes nothing more; one of another peer takes the link down. -/
theorem takeIdent_active {id : Ident} {agree : Bool} (hactive : (fabAt s n).state = .active) :
    takeIdent n id agree s = if id.fdn = (fabAt s n).peer then heardIdent id s else goDown n false (heardIdent id s) := by
  unfold takeIdent
  extract_lets u
  have hstate : (fabAt u n).state = .active := hactive
  rw [hstate]
  rfl

end Wiring

/-! ### Optical modules (R378-R380) -/

section Modules

variable {n : Fin 24} {apps : List CmisApp} {f : CmisFlags} {s : State}

/-- A ready module runs the first application that fits. -/
theorem moduleReady_fits {a : CmisApp} (hreset : (fabAt s n).module = .resetReleased)
    (hfit : apps.find? (fun a => a.c2m200 && a.oneLane) = some a) :
    moduleReady n apps s = emit (.modApply n a.code) (modFabLink n (fun l => { l with
      module := .active, app := a.code, state := if linkMayTrain s n then .training else l.state, retrainAt := none }) s) := by
  simp only [moduleReady, hreset, hfit, ne_eq, not_true_eq_false, if_false]

/-- With none that fits it stays in low power. -/
theorem moduleReady_unfit (hreset : (fabAt s n).module = .resetReleased) (hnone : apps.find? (fun a => a.c2m200 && a.oneLane) = none) :
    moduleReady n apps s = linkRec 0x08 2 n 0 (modFabLink n (fun l => { l with module := .lowPower }) s) := by
  simp only [moduleReady, hreset, hnone, ne_eq, not_true_eq_false, if_false]

/-- Flags without a loss of signal or of lock lose no lane. -/
theorem moduleFlags_noLoss (hactive : (fabAt s n).module = .active) (hgood : f.los ||| f.lol = 0) :
    moduleFlags n f s = if f.alarm = 0 then s else postDev 0x2E (linkObj n f.alarm.toNat) s := by
  have hkeeps : (List.range 5).foldl (fun s i => if (f.los ||| f.lol).toNat.testBit i then loseLane n i s else s) s = s := by
    simp [hgood]
  simp only [moduleFlags, hactive, hkeeps, ne_eq, not_true_eq_false, if_false]

end Modules

/-- Settles O44, by what each command does in the case named. -/
theorem fabricLinks : Obligations.FabricLinks := by
  refine ⟨⟨?enable, ?trained, ?ident, fun n s => does_linkDown n s, ?retrain, ?reset⟩, ?presence, ?ready, ?interrupt, ?poll, ?removal⟩
  case enable =>
    intro n s hactive htraining hmodule hmay
    refine exec_eq_of_does (does_linkEnable n s) (if_neg ?_)
    rintro (h | h | ⟨hoptical, habsent⟩ | h)
    · exact hactive h
    · exact htraining h
    · obtain hmesh | hm := hmodule
      · rw [hmesh] at hoptical
        cases hoptical
      · exact habsent hm
    · rw [hmay] at h
      cases h
  case trained =>
    intro n t s htraining w
    exact ⟨fun hlanes => exec_eq_of_does (does_linkTrained n t s) (trained_enough htraining hlanes),
      fun hlanes => exec_eq_of_does (does_linkTrained n t s) (trained_few htraining hlanes)⟩
  case ident =>
    intro n id agree s u
    have hdo := does_ident n id agree s
    exact ⟨fun htraining hwired => exec_eq_of_does hdo (takeIdent_wired htraining hwired),
      fun hactive hpeer => exec_eq_of_does hdo ((takeIdent_active hactive).trans (if_pos hpeer)),
      fun hactive hpeer => exec_eq_of_does hdo ((takeIdent_active hactive).trans (if_neg hpeer))⟩
  case retrain =>
    intro n t s hdrill hmay hwait
    refine exec_eq_of_does (does_linkRetrain n s) ?_
    simp only [hdrill, hmay, hwait, Bool.not_true, Bool.or_self, Bool.false_eq_true, if_false]
  case reset => exact fun wr n s hclass => exec_eq_of_does (does_linkReset wr n s) (if_pos hclass)
  case presence =>
    intro n advertised s hoptical
    exact exec_eq_of_does (does_modulePresence n advertised s) (if_neg (by rw [hoptical]; exact Bool.false_ne_true))
  case ready =>
    intro n apps s hreset
    exact ⟨fun a hfit => exec_eq_of_does (does_moduleReady n apps s) (moduleReady_fits hreset hfit),
      fun hnone => exec_eq_of_does (does_moduleReady n apps s) (moduleReady_unfit hreset hnone),
      exec_eq_of_does (does_moduleReadyTimeout n s) (if_neg (not_not.mpr hreset))⟩
  case interrupt =>
    exact fun n f s hactive hgood => exec_eq_of_does (does_moduleInterrupt n f s) (moduleFlags_noLoss hactive hgood)
  case poll => exact fun n f v s hpresent => exec_eq_of_does (does_opticsPoll n f (some v) s) (if_neg hpresent)
  case removal =>
    intro n s hoptical
    exact exec_eq_of_does (does_moduleRemoval n s) (if_neg (by rw [hoptical]; exact Bool.false_ne_true))

/-! ### Flits and acknowledgements (R361-R366) -/

/-- The header of a flit's bytes. -/
def flitHead (bs : List Byte) : Nat := natOfBytes (bs.take 4)

/-- The bytes that a receiver makes of what arrives. -/
def flitBytes (f : FlitIn) : List Byte := bytesOfNat 256 (fecDecode f).1.toNat

/-- A flit's CRC is that of its other bytes (R361). -/
def CrcGood (bs : List Byte) : Prop := (crc32c (bs.take 252)).toNat = natOfBytes (bs.drop 252)

theorem crcGood_flitBytes (f : FlitIn) : CrcGood (flitBytes f) ↔
    (crc32c ((bytesOfNat 256 (fecDecode f).1.toNat).take 252)).toNat = natOfBytes ((bytesOfNat 256 (fecDecode f).1.toNat).drop 252) := Iff.rfl

/-- The state of an ACTIVE link with an arriving flit counted. -/
def flitCounted (n : Fin 24) (f : FlitIn) (s : State) : State :=
  fabBytes n false 1 (if (fecDecode f).2 ≠ 0 then countFixed n (fecDecode f).2 s else s)

section Flits

variable {n : Fin 24} {f : FlitIn} {s : State} (hactive : (fabAt s n).state = .active)
include hactive

/-- A DATA flit that fails its CRC asks for a replay. -/
theorem takeFlit_bad (hcrc : ¬CrcGood (flitBytes f)) (hdata : flitHead (flitBytes f) / 2 ^ 30 = 0) :
    takeFlit n f s = askReplay n (flitCounted n f s) := by
  rw [crcGood_flitBytes] at hcrc
  have hkind : ¬flitHead (flitBytes f) / 2 ^ 30 = 1 := by omega
  simp only [takeFlit, hactive, hcrc, true_and, ne_eq, not_true_eq_false, not_false_eq_true, if_false, if_true]
  exact if_neg hkind

/-- A good CTRL flit carries an acknowledgement. -/
theorem takeFlit_ctrl (hcrc : CrcGood (flitBytes f)) (hctrl : flitHead (flitBytes f) / 2 ^ 30 = 1) :
    takeFlit n f s = fabPump (takeAck n (BitVec.ofNat 12 (flitHead (flitBytes f) / 2 ^ 6)) (flitCounted n f s)) := by
  rw [crcGood_flitBytes] at hcrc
  simp only [takeFlit, hactive, hcrc, true_and, ne_eq, not_true_eq_false, if_false]
  exact if_pos hctrl

/-- A good DATA flit in sequence is taken, with the messages that it completes, and acknowledged. -/
theorem takeFlit_inSequence (hcrc : CrcGood (flitBytes f)) (hdata : flitHead (flitBytes f) / 2 ^ 30 = 0)
    (hseq : BitVec.ofNat 12 (flitHead (flitBytes f) / 2 ^ 18) = (fabAt s n).rxSeq) :
    takeFlit n f s =
      (let p := parseStream n 32 ((fabAt s n).rxBuf ++ ((flitBytes f).drop 4).take 248)
       let v := modFabLink n (fun l => { l with rxSeq := l.rxSeq + 1, rxBuf := p.2, replaySent := none })
         (takeAck n (BitVec.ofNat 12 (flitHead (flitBytes f) / 2 ^ 6)) (flitCounted n f s))
       fabPump (p.1.foldl (fun s m => routeIn m s) (sendAck n v))) := by
  rw [crcGood_flitBytes] at hcrc
  have hkind : ¬flitHead (flitBytes f) / 2 ^ 30 = 1 := by omega
  simp only [takeFlit, hactive, hcrc, true_and, ne_eq, not_true_eq_false, if_false]
  exact (if_neg hkind).trans ((if_neg (not_not.mpr hdata)).trans (if_neg (not_not.mpr hseq)))

end Flits

section Replays

variable {n : Fin 24} {u : BitVec 12 × BitVec 2048} {rest : List (BitVec 12 × BitVec 2048)} {s : State}

/-- The oldest unacknowledged flit is resent from, until it has been so 15 times; then the link goes down. -/
theorem replayDue_eq (hunacked : (fabAt s n).unacked = u :: rest) (hhold : (fabAt s n).spareHold = none) :
    replayDue n s =
      (let t := reach ((fabAt s n).ackAt + 2000) s
       if 15 ≤ (fabAt s n).sameReplays then goDown n false t
       else resendFrom n u.1 (modFabLink n (fun l => { l with sameReplays := l.sameReplays + 1 }) t)) := by
  simp only [replayDue, hunacked, hhold, Bool.false_eq_true, if_false]
  exact if_congr (by omega) rfl rfl

end Replays

/-- Settles O46, by what each command does in the case named. -/
theorem fabricFlow : Obligations.FabricFlow := by
  refine ⟨fun n vc bclass shared credits s => does_lcrd n vc bclass shared credits s, fun m s => does_messageRoute m s, ?flit, ?replay,
    ?timer, ?path, ?stale⟩
  case flit =>
    intro n flit s hactive u bs h
    have hdo := does_flitReceive n flit s
    exact ⟨fun hcrc hdata => exec_eq_of_does hdo (takeFlit_bad hactive hcrc hdata),
      fun hcrc hctrl => exec_eq_of_does hdo (takeFlit_ctrl hactive hcrc hctrl),
      fun hcrc hdata hseq => exec_eq_of_does hdo (takeFlit_inSequence hactive hcrc hdata hseq)⟩
  case replay => exact fun n seq s hactive => exec_eq_of_does (does_replay n seq s) (if_pos hactive)
  case timer =>
    intro n u rest s hunacked hhold t
    have hdue := replayDue_eq hunacked hhold
    exact ⟨fun hfew => exec_eq_of_does (does_replayTimer n s) (hdue.trans (if_neg (Nat.not_le.mpr hfew))),
      fun hmany => exec_eq_of_does (does_replayTimer n s) (hdue.trans (if_pos hmany))⟩
  case path => exact fun vc key p s hp => exec_eq_of_does (does_pathHoldExpire vc key s) (by simp only [hp])
  case stale => exact fun id f s hf => exec_eq_of_does (does_forwardStale id s) (by simp only [hf])

end Sys2Proof.Machine
end

section
/-! FEC modes and lanes of the fabric links (R359, R360, R369, R370), and the time that devices share (R375-R377). -/

namespace Sys2Proof.Machine

open Sys2Proof

/-! ### FEC modes and lanes (R359, R360, R369, R370) -/

section Lanes

variable {n : Fin 24} {mode : BitVec 3} {m : FecMeasure} {lane : Fin 5} {s : State} (hactive : (fabAt s n).state = .active)
include hactive

/-- A mode that this end may use is echoed and taken. -/
theorem modeChg_asked (hmode : mode.toNat ≤ 2) (hok : fecOk s n (mode.setWidth 2 : BitVec 2).toNat = true) :
    modeChg n false mode s =
      setFec n (mode.setWidth 2) (emit (.link n 0x04 [put 49 1 ||| put 0 (mode.setWidth 2 : BitVec 2).toNat]) s) := by
  simp only [modeChg, hactive, Nat.not_lt.mpr hmode, hok, ne_eq, not_true_eq_false, or_self, Bool.false_eq_true, if_false, if_true]

/-- The echo of one's own request is taken. -/
theorem modeChg_echoed (hmode : mode.toNat ≤ 2) (hask : (fabAt s n).fecAsk = some (mode.setWidth 2)) :
    modeChg n true mode s = setFec n (mode.setWidth 2) s := by
  simp only [modeChg, hactive, Nat.not_lt.mpr hmode, hask, ne_eq, not_true_eq_false, or_self, if_false, if_true]

/-- A receiver in the lightest mode whose flits fail above its bound asks for the next stronger one. -/
theorem evalFec_failing (hcool : s.sys.heat.getD 1 0 = 0) (hfec : (fabAt s n).fec = 0) (hbad : m.flits < m.failed * 1000000000)
    (hnoisy : m.bits ≤ m.bitErrors * 100000000) : evalFec n m s = askFec n 1 (modFabLink n (fun l => { l with quietSince := none }) s) := by
  have hquiet : decide (m.bitErrors * 100000000 < m.bits) = false := decide_eq_false (Nat.not_lt.mpr hnoisy)
  have hwarm : ¬1 ≤ s.sys.heat.getD 1 0 := by omega
  have hmode : (fabAt s n).fec.toNat = 0 := congrArg BitVec.toNat hfec
  simp only [evalFec, hactive, hquiet, hmode, hbad, State.modFab_sys, modFabLink, hwarm, ne_eq, not_true_eq_false, or_self,
    Bool.false_eq_true, decide_true, if_false, if_true]

/-- The loss of a working lane is met by asking for the spare one, where no substitution runs. -/
theorem loseLane_spared (hworking : (fabAt s n).working.toNat.testBit lane.val = true) (hspare : (fabAt s n).spare < 5)
    (hother : (fabAt s n).spare ≠ lane.val) (hidle : (fabAt s n).spareSent = false) :
    loseLane n lane.val s = emit (.link n 0x05 [put 0 lane.val])
      (modFabLink n (fun l => { l with spareSent := true, retiring := lane.val })
        (modFabLink n (fun l => { l with working := l.working &&& ~~~(BitVec.ofNat 5 (2 ^ lane.val)) }) s)) := by
  simp only [loseLane, hactive, hworking, hspare, hother, hidle, ne_eq, not_true_eq_false, Bool.not_true, Bool.not_false, or_self,
    and_self, Bool.false_eq_true, if_false, if_true]

end Lanes

/-! ### Time (R375-R377) -/

section Time

variable {s : State}

/-- A device that is not the master asks its parent. -/
theorem sendTsync_parent {p : Nat} (hmaster : timeMaster s ≠ some (ownFdn s)) (hparent : parentLink s = some p) :
    sendTsync s = emit (.link (Fin.ofNat 24 p) 0x06 [0, BitVec.ofNat 64 (now s), 0, 0])
      (s.modFab fun b => { b with parent := some (Fin.ofNat 24 p), t1 := some (BitVec.ofNat 64 (now s)) }) := by
  simp only [sendTsync, if_neg hmaster, hparent]

/-- A response to the request that is out sets the offset to slew. -/
theorem takeTsync_response {n : Fin 24} {t1 t2 t3 : Word} (hparent : s.fab.parent = some n) (hasked : s.fab.t1 = some t1) :
    takeTsync n true t1 t2 t3 s =
      (let off := tsyncOffset t1 t2 t3 (BitVec.ofNat 64 (now s)) ((regGet s (Off.fab + 0x100 * n.val + 0x10)).setWidth 32)
       s.modFab fun b => { b with
         t1 := none, lastTsync := now s, slew := off, sync := decide (off.natAbs ≤ 50)
         unsyncPosted := if off.natAbs ≤ 50 then false else b.unsyncPosted }) := by
  simp only [takeTsync, hparent, hasked, ne_eq, not_true_eq_false, or_self, Bool.not_true, Bool.false_eq_true, if_false,
    decide_eq_true_eq]

end Time

/-- Settles O48, by what each command does in the case named. -/
theorem fecAndTime : Obligations.FecAndTime := by
  refine ⟨⟨?mode, ?evaluate, fun n lane s => does_laneLoss n lane s, ?lost, ?spare, ?complete⟩, ?master, ?asks,
    fun n t1 t2 t3 s => does_tsync n false t1 t2 t3 s, ?response, fun s => does_tsyncTimeout s⟩
  case mode =>
    exact fun n mode s hactive hmode => ⟨fun hok => exec_eq_of_does (does_modeChg n false mode s) (modeChg_asked hactive hmode hok),
      fun hask => exec_eq_of_does (does_modeChg n true mode s) (modeChg_echoed hactive hmode hask)⟩
  case evaluate =>
    exact fun n m s hactive hcool hfec hbad hnoisy =>
      exec_eq_of_does (does_fecEvaluate n m s) (evalFec_failing hactive hcool hfec hbad hnoisy)
  case lost =>
    exact fun n lane s hactive hworking hspare hother hidle =>
      exec_eq_of_does (does_laneLoss n lane s) (loseLane_spared hactive hworking hspare hother hidle)
  case spare =>
    intro n lane s hactive
    exact exec_eq_of_does (does_spare n false lane s) (if_neg (by simp [hactive]))
  case complete =>
    intro n s hsent l
    exact exec_eq_of_does (does_spareComplete n s) (if_neg (by simp [hsent]))
  case master => exact fun s hmaster => exec_eq_of_does (does_tsyncSend s) (if_pos hmaster)
  case asks => exact fun p s hmaster hparent => exec_eq_of_does (does_tsyncSend s) (sendTsync_parent hmaster hparent)
  case response =>
    exact fun n t1 t2 t3 s hparent hasked => exec_eq_of_does (does_tsync n true t1 t2 t3 s) (takeTsync_response hparent hasked)

end Sys2Proof.Machine
end

section
/-! Errors, events and containment by composition (R385-R399, R498), and the fleet's pulses, votes, fences and joins (R400-R409, R428):
what each command does in the case named. -/

namespace Sys2Proof.Machine

open Sys2Proof

/-! ### Events and the watchdog (R386, R388, R399, R498) -/

section Events

variable {w : Fin 64} {e : EventRec} {rest : List EventRec} {bs : List Byte} {s u : State}

/-- The first waiting record of a queue with room is written, and its vector signalled, when its store is answered OK. -/
theorem writeEvent_written (hwaiting : (evqOf s w.val).waiting = e :: rest) (hvalid : qValid (regGet s (Off.evq w.val)) = true)
    (hroom : ringFull (evqSize s w.val) (evqHead s w.val) (evqOf s w.val).tail = false)
    (hstore : ownAsk (0x4000 + w.val) .storePart (wordsWrite s (evqOf s w.val).iid
      (qOff (regGet s (Off.evq w.val)) + 32 * (evqOf s w.val).tail) (eventWords e)) s = (some (.ok, bs), u)) :
    writeEvent w s =
      (let v := modEvq w.val (fun q => { q with waiting := q.waiting.drop 1, tail := (q.tail + 1) % Nat.max 1 (evqSize u w.val) }) u
       signal w ((evqCtl v w.val).setWidth 8) v) := by
  simp only [writeEvent, hwaiting, hvalid, hroom, hstore, Bool.not_true, Bool.or_self, Bool.false_eq_true, if_false]

end Events

/-- Settles O49, by what each command does in the case named. -/
theorem errorsAndEvents : Obligations.ErrorsAndEvents := by
  refine ⟨?storm, fun h e s => does_event ⟨h, e⟩ s, ?written, fun block inst sl s => does_fatalError block inst sl s, ?watchdog⟩
  case storm => exact fun t s hstorm => exec_eq_of_does (does_ceStormEnd s) (by simp only [hstorm])
  case written =>
    exact fun win e rest bs s u hwaiting hvalid hroom hstore =>
      exec_eq_of_does (does_eventRecordWrite win s) (writeEvent_written hwaiting hvalid hroom hstore)
  case watchdog =>
    intro s harmed
    exact exec_eq_of_does (does_watchdogExpire s) (if_neg (by rw [harmed]; exact Bool.false_ne_true))

/-! ### Containment by composition (R394-R397) -/

section Containment

variable {wr : Writer} {comp : Nat} {fdn : BitVec 16} {s : State}

/-- Releasing a composition changes the records and events alone. -/
theorem applyRelease_rasWork : RasWork s (applyRelease comp s) := by
  unfold applyRelease
  split
  · exact ((RasWork.refl s).modRas _).postDev _ _
  · exact .refl s

theorem applyRelease_flt : (applyRelease comp s).flt = s.flt := by
  rw [applyRelease_rasWork (s := s) (comp := comp)]

/-- Containment of a fenced device of which no composition is listed marks it alone. -/
theorem startContainment_unlisted (hfenced : isFenced s fdn = true) (hfirst : s.flt.containedFor.contains fdn = false)
    (hwaits : ∀ w ∈ s.flt.waits, w.subject ≠ fdn) (hlists : ∀ e ∈ s.ras.cellLists, e.1 ≠ fdn) :
    startContainment fdn s = s.modFlt fun t => { t with containedFor := t.containedFor ++ [fdn] } := by
  have hwait : s.flt.waits.find? (fun w => w.subject == fdn) = none := by
    simpa using hwaits
  have hlist : s.ras.cellLists.filter (fun e => e.1 == fdn && decide (e.2.2 ≠ 0)) = [] := by
    rw [List.filter_eq_nil_iff]
    intro e he
    simp [hlists e he]
  simp only [startContainment, hfenced, hfirst, hwait, hlist, Bool.not_true, Bool.false_eq_true, or_self, if_false, List.map_nil,
    List.foldl_nil]

end Containment

/-- Settles O51, by what each command does in the case named. -/
theorem compositionContainment : Obligations.CompositionContainment := by
  refine ⟨fun h comp exposed s => does_compList h comp exposed s, ?flooded, ?start, fun wr comp policy s hready => ⟨?policy, ?release⟩⟩
  case flooded =>
    intro src m comp s hseen u
    exact ⟨exec_eq_of_does (does_compContain src m comp s) (passOn_unseen hseen),
      exec_eq_of_does (does_compRelease src m comp s) (passOn_unseen hseen)⟩
  case start =>
    exact fun fdn s hfenced hfirst hwaits hlists =>
      exec_eq_of_does (does_containmentStart fdn s) (startContainment_unlisted hfenced hfirst hwaits hlists)
  case policy =>
    intro hpolicy
    exact exec_eq_of_does (does_compPolicy wr comp policy s) ((congrArg Prod.snd (issue_ready hready)).trans (if_neg hpolicy))
  case release =>
    refine exec_eq_of_does (does_compReleaseCmd wr comp s) ((congrArg Prod.snd (issue_ready hready)).trans ?_)
    simp only [applyRelease_flt, servedFdn_accepted]

/-! ### Pulses and votes (R402-R405) -/

section Votes

variable {n : Fin 24} {voter d : BitVec 16} {s : State}

/-- A pulse of a peer that is not suspected counts towards the run of consecutive ones. -/
theorem takePulse_trusted {susp : Bool} {num : BitVec 32} (hactive : (fabAt s n).state = .active) (htrust : (fabAt s n).suspected = false) :
    takePulse n susp num s = modFabLink n (fun l => { l with heard := if num = l.lastPulse + 1 then l.heard + 1 else 1, lastPulse := num })
      (beginTimer (.pulse n.val)
        (if susp then s else s.modFlt fun f => { f with heard := Tab.put 0 (fabAt s n).peer.toNat (now s) f.heard })) := by
  simp only [takePulse, hactive, htrust, ne_eq, not_true_eq_false, Bool.false_eq_true, false_and, if_false]

/-- With no drill's vote running a real vote is cast as it comes. -/
theorem takeSuspect_real (hdrill : s.flt.drillVotes = []) : takeSuspect voter d false s = castVote voter d true s := by
  have hsame : s.modFlt (fun f => { f with drillVotes := f.drillVotes.filter (· != d), votes := f.votes }) = s := by
    rw [State.modFlt, hdrill, List.filter_nil, ← hdrill]
  have hnone : (s.flt.drillVotes.contains d && !false) = false := by
    rw [hdrill]
    rfl
  simp only [takeSuspect, hnone, Bool.false_and, Bool.false_eq_true, if_false, hsame]

/-- At the end of its hold a device is fenced where the quorum still stands, outside a drill's vote. -/
theorem endHold_voted {h : BitVec 16 × Nat} (hhold : s.flt.holds.find? (·.1 == d) = some h) (hdrill : s.flt.drillVotes = []) :
    endHold d s =
      (let u := (reach h.2 s).modFlt fun f => { f with holds := f.holds.filter (·.1 != d) }
       if votesOn s d < quorum s d then u else issueFence d 1 false u) := by
  have hnone : (reach h.2 s).flt.drillVotes.contains d = false := by
    rw [show (reach h.2 s).flt = s.flt from rfl, hdrill]
    rfl
  simp only [endHold, hhold, State.modFlt_flt, hnone, Bool.false_eq_true, or_false]
  rfl

end Votes

/-! ### Joins (R375, R403, R406, R428) -/

section Joins

variable {h : FleetHdr} {s : State}

/-- A device that joins answers another's JOIN, and sends it the whole control state where that one is its control mirror. -/
theorem takeJoin_first (peers : List (BitVec 16)) : takeJoin h peers false s =
    (let u := answerJoin h.src ((sawEpoch h.epoch s).modFlt fun f => { f with voters := (f.voters.filter (·.1 != h.src)) ++ [(h.src, peers)] })
     if ctlMirrorOf u = some h.src then resendCtl u else u) := by
  simp only [takeJoin, Bool.false_and, Bool.false_eq_true, if_false]

/-- What an answer lets in: a joining device that is not fenced enters the fleet with its time and epoch. -/
structure LetIn (spare : Bool) (epoch : Nat) (s t : State) : Prop where
  state : t.flt.state = if spare then .spare else .member
  fenced : t.flt.fenced = []
  timeSet : t.fab.timeSet = true
  epoch : t.flt.epoch = Nat.max s.flt.epoch epoch

theorem takeJoinAns_letIn {time : Word} {cell : List (BitVec 16 × List (BitVec 16))} {spare : Bool} (hjoining : s.flt.state = .joining)
    (hfirst : s.flt.rejoining = false) : LetIn spare h.epoch s (takeJoinAns h time [] cell spare s) := by
  have hjoin : (sawEpoch h.epoch s).flt.state = .joining := hjoining
  unfold takeJoinAns
  dsimp only
  rw [if_neg (not_not.mpr hjoin)]
  cases htime : s.fab.timeSet
  all_goals
    constructor
    all_goals simp [sawEpoch, reroute, joinWork, emitAll, reach, htime, hfirst]

end Joins

/-- Settles O52, by what each command does in the case named. -/
theorem pulsesFencesAndJoins : Obligations.PulsesFencesAndJoins := by
  refine ⟨⟨fun s => does_pulseSend s, ?pulse, ?silence, ?suspect, fun voter d epoch s => does_clear voter d ⟨false, epoch⟩ s, ?hold,
    ?isolation, ?command, ?pdown⟩, ?fence, ?unfence, ?join, ?answer, ?retry⟩
  case pulse =>
    intro n h susp num s hactive htrust a u
    exact exec_eq_of_does (does_pulse n h ⟨susp, num⟩ s) (takePulse_trusted (s := a) hactive htrust)
  case silence => exact fun n s hactive => exec_eq_of_does (does_pulseSilence n s) (if_neg (not_not.mpr hactive))
  case suspect =>
    exact fun voter d epoch s hdrill =>
      exec_eq_of_does (does_suspect voter d ⟨false, epoch⟩ s) (takeSuspect_real (s := sawEpoch epoch s) hdrill)
  case hold => exact fun d h s hhold hdrill => exec_eq_of_does (does_suspectHoldEnd d s) (endHold_voted hhold hdrill)
  case isolation => exact fun s hvoters => exec_eq_of_does (does_isolation s) (if_neg (Nat.not_lt.mpr hvoters))
  case command => exact fun wr fdn s hclass => exec_eq_of_does (does_fltFenceCmd wr fdn s) (if_pos hclass)
  case pdown =>
    intro n s hactive hmesh
    exact exec_eq_of_does (does_pdown n s) (congrArg (linkGone false n false) (if_pos ⟨hactive, hmesh⟩))
  case fence => exact fun h reason s hseen => exec_eq_of_does (does_fence h reason s) (passOn_unseen hseen)
  case unfence => exact fun h s hseen => exec_eq_of_does (does_unfence h s) (passOn_unseen hseen)
  case join => exact fun h peers s _ => exec_eq_of_does (does_join h peers false s) (takeJoin_first peers)
  case answer =>
    intro h time cell spare s hjoining hfirst
    obtain ⟨hstate, hfenced, htime, hepoch⟩ := takeJoinAns_letIn (h := h) (time := time) (cell := cell) (spare := spare) hjoining hfirst
    exact ⟨_, does_joinAns h time [] cell spare s, hstate, hfenced, htime, hepoch ▸ Nat.le_max_left _ _, hepoch ▸ Nat.le_max_right _ _⟩
  case retry => exact fun s hjoining => exec_eq_of_does (does_joinRetry s) (if_neg (not_not.mpr hjoining))

end Sys2Proof.Machine
end

section
/-! The handoff ledger and frost drills (R415-R421): what each command does in the case named. -/

namespace Sys2Proof.Machine

open Sys2Proof

/-! ### The handoff ledger (R415-R417) -/

section Ledger

variable {e : LedgerEnt} {c : HandState} {x : Handoff} {s : State}

/-- An offer in time of an extent or a shard, not heard of before, is received, written and taken. -/
theorem takeOffer_new (hnew : handOf s e = none) (htime : now s + 1000 < e.expiry) (hphase : e.phase = .offered) (hkind : e.kind ≠ .copy)
    (hslot : slotOk s .control = true) :
    takeOffer e c s =
      (let x : Handoff := { e := { e with phase := .received }, mine := false, hand := c }
       takeHand x (writeHand x s)) := by
  have htake : offerTakable s e c = true := by
    have hopen : decide (e.expiry ≤ now s + 1000 ∨ e.phase ≠ .offered) = false :=
      decide_eq_false (by rintro (h | h); exacts [absurd h (Nat.not_le.mpr htime), h hphase])
    rw [offerTakable, hopen]
    cases h : e.kind with
    | copy => exact absurd h hkind
    | transplant => rfl
    | foster => rfl
  simp [takeOffer, hnew, htake, hslot]

/-- The receipt of an offer still open releases it. -/
theorem releaseHand_offered (hx : handOf s e = some x) (hmine : x.mine = true) (hphase : x.e.phase = .offered) :
    releaseHand e s = dropHand x (writeHand { x with e := { x.e with phase := .released }, hand := {} } s) := by
  simp [releaseHand, hx, hmine, hphase]

/-- So does an answer that the receiver holds it. -/
theorem takeLedger_received (hx : handOf s e = some x) (hmine : x.mine = true) (hphase : x.e.phase = .offered) (he : e.phase = .received) :
    takeLedger e s = releaseHand e s := by
  simp only [takeLedger, hx, hmine, hphase, he]

/-- A reclaim of an offer not heard of is kept. -/
theorem takeReclaim_unknown (hnew : handOf s e = none) : takeReclaim e s = s.modFlt fun f => { f with
    handoffs := (f.handoffs.filter fun x => !(sameHand x.e e)) ++ [{ e := { e with phase := .reclaimed }, mine := false }] } := by
  simp [takeReclaim, hnew]

/-- An offer that is not received in time is reclaimed. -/
theorem expireHand_offered {seq : BitVec 32} (hx : s.flt.handoffs.find? (fun h => h.mine && h.e.seq == seq && h.e.phase == .offered) = some x)
    (hkind : x.e.kind ≠ .foster) : expireHand seq s = reclaimHand x (reach (x.e.expiry + 1000) s) := by
  simp only [expireHand, hx, hkind, false_and, if_false]

/-- The other side of an open offer is asked for its entry, unless it is fenced. -/
theorem queryHand_open {offerer : BitVec 16} {seq : BitVec 32}
    (hx : s.flt.handoffs.find? (fun h => h.e.fromFdn == offerer && h.e.seq == seq && h.e.phase == .offered) = some x)
    (hopen : x.mine = true ∨ isFenced s x.e.fromFdn = false) :
    queryHand offerer seq s = emit (.handoff 0x13 (if x.mine then x.e.toFdn else x.e.fromFdn) x.e {}) (reach x.e.expiry s) := by
  have hasked : (!x.mine && isFenced (reach x.e.expiry s) x.e.fromFdn) = false := by
    rw [show isFenced (reach x.e.expiry s) x.e.fromFdn = isFenced s x.e.fromFdn from rfl]
    obtain h | h := hopen <;> simp [h]
  simp only [queryHand, hx, hasked, Bool.false_eq_true, if_false]

end Ledger

/-! ### Frost drills (R420, R421) -/

section Drills

variable {d : Drill} {s : State}

/-- A drill that the bounds allow, of a descriptor that keeps them, is scheduled and told to its target. -/
theorem scheduleDrill_allowed {wr : Writer} (hready : Ready s wr none [.f] drillDone) :
    let w0 := staged s wr (Off.flt + 0x38)
    let w1 := staged s wr (Off.flt + 0x40)
    let d := drillOfWords w0 w1
    let a := accepted drillDone s
    drillDenied a d = false → drillBusy a = false → d.length ≤ 10000000 →
      scheduleDrill wr s =
        (let t := a.modFlt fun f => { f with drillTimes := now a :: f.drillTimes, drill := some d }
         cmdDone drillDone .ok 0 (if d.target = servedFdn t then t else tell 0x1E d.target d.target true [w0, w1] t)) := by
  intro w0 w1 d a hallowed hidle hlen
  refine (congrArg Prod.snd (issue_ready hready)).trans ?_
  exact (if_neg (ne_true_of_eq_false hallowed)).trans
    ((if_neg (ne_true_of_eq_false hidle)).trans (if_neg (Nat.not_lt.mpr hlen)))

/-- A drill starts at its target at its time. -/
theorem startDrill_target (hd : s.flt.drill = some d) (hwaits : d.running = false) (htarget : d.target = servedFdn s) :
    startDrill s = asDrill (injectDrill d) ((reach d.start s).modFlt fun f => { f with drill := some { d with running := true } }) := by
  simp [startDrill, hd, hwaits, htarget]

/-- The end of a running drill undoes it. -/
theorem endDrill_running {realFault : Bool} (hd : s.flt.drill = some d) (hruns : d.running = true) :
    endDrill realFault s = asDrill (undoDrill d)
      ((if realFault then s else reach (d.start + 1000 * (if d.kind = 3 then Nat.min d.length 1000 else d.length)) s).modFlt fun f =>
        { f with drill := none }) := by
  simp only [endDrill, hd, hruns, if_true]

end Drills

/-- Settles O54, by what each command does in the case named. -/
theorem handoffLedger : Obligations.HandoffLedger := by
  refine ⟨⟨?offer, ?receipt, ?reclaim, ?expiry, ?due, fun h e s => does_ledgerQuery h e s⟩, ?schedule, fun h w0 w1 s => does_drill h w0 w1 s,
    ?start, fun d s hd hruns => ⟨?fault, ?length⟩⟩
  case offer =>
    exact fun h e c s hnew htime hphase hkind hslot =>
      exec_eq_of_does (does_offer h e c s) (takeOffer_new (s := sawEpoch h.epoch s) hnew htime hphase hkind hslot)
  case receipt =>
    intro h e x s hx hmine hphase t
    have hreleased : releaseHand e (sawEpoch h.epoch s) = t := releaseHand_offered (s := sawEpoch h.epoch s) hx hmine hphase
    refine ⟨exec_eq_of_does (does_received h e s) (congrArg departGo hreleased), fun he => ?_⟩
    exact exec_eq_of_does (does_ledgerState h e s)
      (congrArg departGo ((takeLedger_received (s := sawEpoch h.epoch s) hx hmine hphase he).trans hreleased))
  case reclaim =>
    exact fun h e s hnew => exec_eq_of_does (does_reclaim h e s) (takeReclaim_unknown (s := sawEpoch h.epoch s) hnew)
  case expiry =>
    exact fun seq x s hx hkind => exec_eq_of_does (does_handoffExpiry seq s) (congrArg departGo (expireHand_offered hx hkind))
  case due => exact fun offerer seq x s hx hopen => exec_eq_of_does (does_ledgerQueryDue offerer seq s) (queryHand_open hx hopen)
  case schedule =>
    intro wr s hready w0 w1 d a hallowed hidle hlen t
    exact exec_eq_of_does (does_drillSchedule wr s) (scheduleDrill_allowed hready hallowed hidle hlen)
  case start => exact fun d s hd hwaits htarget => exec_eq_of_does (does_drillStart s) (startDrill_target hd hwaits htarget)
  case fault => exact exec_eq_of_does (does_drillEnd true s) (endDrill_running hd hruns)
  case length => exact exec_eq_of_does (does_drillEnd false s) (endDrill_running hd hruns)

end Sys2Proof.Machine
end

section
/-! The NOR flash and the fuses (R438, R442): what each command does in the case named. -/

namespace Sys2Proof.Machine

open Sys2Proof

section Nor

variable {wr : Writer} {op : BitVec 8} {act : Nat → State → State} {s : State}

/-- A NOR command of an allowed writer acts at its address when none runs, below the board's own MiB and, where it writes, above the boot directory. -/
theorem norCommand_runs (hwr : norAllowed s wr = true) (hidle : s.cfg.norBusy = none) (haddr : norAddr s < 0x3F00000)
    (hop : op = 1 ∨ 0x10000 ≤ norAddr s) : norCommand wr op act s = act (norAddr s) s := by
  have hfree : ¬ (!norAllowed s wr || s.cfg.norBusy.isSome) = true := by simp [hwr, hidle]
  have hopen : ¬ ((op ≠ 1 ∧ norAddr s < 0x10000) ∨ 0x3F00000 ≤ norAddr s) := by
    rintro (⟨hwrites, hlow⟩ | hhigh)
    · exact hop.elim hwrites (Nat.not_le.mpr hlow)
    · exact Nat.not_le.mpr haddr hhigh
  exact (if_neg hfree).trans ((if_neg (by omega)).trans (if_neg hopen))

end Nor

/-- Settles O57, by what each command does in the case named. -/
theorem norAndFuses : Obligations.NorAndFuses := by
  refine ⟨fun wr s hwr hidle haddr => ⟨?read, fun hdir => ?program, fun hdir => ?erase⟩, ?ends, ?bootClear, ?svn, ?revoke⟩
  case read => exact exec_eq_of_does (does_norRead wr s) (norCommand_runs hwr hidle haddr (.inl rfl))
  case program => exact exec_eq_of_does (does_norProgram wr s) (norCommand_runs hwr hidle haddr (.inr hdir))
  case erase => exact exec_eq_of_does (does_norErase wr s) (norCommand_runs hwr hidle haddr (.inr hdir))
  case ends =>
    intro x s hx
    exact exec_eq_of_does (does_norCommandComplete s) (by simp only [hx]; rfl)
  case bootClear => exact fun wr s hwr => exec_eq_of_does (does_cfgBootClear wr s) (if_pos hwr)
  case svn =>
    intro wr s hwr hphase
    exact exec_eq_of_does (does_cfgSvnCommit wr s) (if_pos (by simp [hwr, hphase]))
  case revoke =>
    intro wr v s hwr hphase hslot
    exact exec_eq_of_does (does_cfgKeyRevoke wr v s) (if_pos (by simp [hwr, hphase, hslot]))

end Sys2Proof.Machine
end

section
/-! The host ports (R334-R350, R427): what each command does in the case named. -/

namespace Sys2Proof.Machine

open Sys2Proof

section Aperture

variable {w : Fin 64} {sl : BitVec 8} {r : Req} {x : Aper} {a : Answer} {off : BitVec 12} {s : State}

/-- GO on a slot with no answer outstanding sends its request while the port has room (R336). -/
theorem aperGo_sends (hfree : ∀ x, aperAt s w sl = some x → x.pending = false) (hroom : portFull s (portOf w) = false) :
    aperGo w sl r s =
      (let r' := { r with ing := .aperture w sl, tag := sl.setWidth 16, src := ownFdn s, iid := winIid s w }
       aperSend w sl r' (setAper w sl { req := r', pending := true } s)) := by
  have hidle : ((aperAt s w sl).getD {}).pending = false := by
    cases hx : aperAt s w sl with
    | none => rfl
    | some x => exact hfree x hx
  simp only [aperGo, hidle, hroom, Bool.false_eq_true, if_false]

/-- A read of a slot whose answer has arrived gives it (R337). -/
theorem aperRead_gives (hx : aperAt s w sl = some x) (ha : x.answer = some a) (hidle : x.pending = false) :
    aperRead w sl off s = aperGive w sl a off s := by
  simp only [aperRead, hx, ha, hidle, Bool.false_eq_true, if_false]

end Aperture

section Holds

variable {w : Fin 64} {tag : BitVec 16} {q : HostReq} {t : Nat} {s : State} (hq : hostReq s w tag = some q) (ht : q.retryAt = some t)
include hq ht

/-- A held NY is reissued at its hint (R346). -/
theorem reissue_held : reissue w tag s = hostPump (setReq { q with retryAt := none } (reach t s)) := by
  simp only [reissue, hq, ht]

/-- A held NY is presented at its bound (R346). -/
theorem holdExpired_held : holdExpired w tag s = hostPump (refuseHost q .ny (reach (q.arrived + holdMax s q) s)) := by
  simp only [holdExpired, hq, ht, Option.isNone_some, Bool.false_eq_true, if_false]

end Holds

/-- A decoder with settings of R339, whose window ends below 4 TiB, commits. -/
theorem commitHdm_fine {w : Fin 64} {j : Fin 4} {d : HdmSet} {s : State} (hbase : unit256 d.base = true) (hsize : unit256 d.size = true)
    (hskip : unit256 d.skip = true) (hways : d.ways ∈ [1, 2, 4, 8, 16]) (hlow : 8 ≤ d.gran) (hhigh : d.gran ≤ 14)
    (hend : hdmStart s w.val j.val + d.skip.toNat + d.size.toNat / d.ways ≤ 2 ^ 42) :
    commitHdm w j d s = s.modHp fun p => { p with
      hdm := Tab.put {} (4 * w.val + j.val) { cfgd := d, committed := true, error := false } p.hdm } := by
  have hpos : Nat.max 1 d.ways = d.ways := by
    apply Nat.max_eq_right
    simp only [List.mem_cons, List.not_mem_nil, or_false] at hways
    omega
  have hlisted : [1, 2, 4, 8, 16].contains d.ways = true := List.contains_iff_mem.mpr hways
  simp only [commitHdm, hbase, hsize, hskip, hlisted, hlow, hhigh, hpos, Nat.not_lt.mpr hend, decide_true, Bool.and_self, Bool.not_true,
    Bool.false_eq_true, or_self, if_false]

/-- A change kept in a link shows when the link is read. -/
theorem hostLink_modLink {p l : Nat} {f : HostLink → HostLink} {s : State} (hwf : Tab.wf {} s.hp.links = true) :
    hostLink (modLink p l f s) p l = f (hostLink s p l) :=
  (Tab.get_upd _ _ _ f _ hwf).trans (if_pos rfl)

/-- Settles O25, by what each command does in the case named. -/
theorem hostPortCommands : Obligations.HostPortCommands := by
  refine ⟨⟨?go, ?read, ?held, fun p a s => does_h2dSnoop p a s, ?hdm, fun w s => does_functionLevelReset w s⟩,
    ?up, ?down, ?released, ?asserted⟩
  case go =>
    intro w sl r s hfree r' hroom
    exact exec_eq_of_does (does_apertureGo w sl r s) (aperGo_sends hfree hroom)
  case read => exact fun w sl off x a s hx ha hidle => exec_eq_of_does (does_apertureRead w sl off s) (aperRead_gives hx ha hidle)
  case held =>
    exact fun w tag q t s hq ht => ⟨exec_eq_of_does (does_holdReissue w tag s) (reissue_held hq ht),
      exec_eq_of_does (does_holdMaxExpire w tag s) (holdExpired_held hq ht)⟩
  case hdm =>
    intro w j d s hbase hsize hskip hways hlow hhigh hend
    exact exec_eq_of_does (does_hdmDecoderCommit w j d s) (commitHdm_fine hbase hsize hskip hways hlow hhigh hend)
  case up => exact fun p l t s hmay => exec_eq_of_does (does_hostLinkUp p l t s) (if_pos hmay)
  case down => exact fun p l s hup => exec_eq_of_does (does_hostLinkDown p l s) (if_pos hup)
  case released => exact fun p l s => exec_eq_of_does (does_perstNChange p l true s) (if_neg fun h => Bool.noConfusion h.1)
  case asserted =>
    intro p l s hwf hdown
    have hstill : (hostLink (modLink p.val l.val (fun h => { h with perst := false }) s) p.val l.val).up = false := by
      rw [hostLink_modLink hwf]
      exact hdown
    exact exec_eq_of_does (does_perstNChange p l false s) (if_neg fun h => Bool.noConfusion (hstill.symm.trans h.2))

end Sys2Proof.Machine
end

section
/-! Telemetry and Trellis (R486-R492): what each command does in the case named, and in a SEALED part. -/

namespace Sys2Proof.Machine

open Sys2Proof

section Trellis

variable {wr : Writer} {cs : List WCls} {off : Nat} {f : State → State} {v : Word} {s : State}

/-- A Trellis write of an allowed writer acts outside a SEALED part. -/
theorem trlWrite_allowed (hwr : allowed s wr none cs = true) (hopen : lifecycle s ≠ 2) : trlWrite wr cs off f s = (none, f s) :=
  if_neg (by simp [hwr, hopen])

/-- In a SEALED part every Trellis write is ignored and recorded (R486). -/
theorem trlWrite_sealed (hsealed : lifecycle s = 2) : trlWrite wr cs off f s = (some .denied, rejected off s) :=
  if_pos (.inr hsealed)

/-- A good token opens its scopes until its expiry and renews the challenge (R487). -/
theorem unlock_good (hgo : bitOf v 0 = true) (hfails : s.trl.fails < 8) (hst : unlockStatus s = .ok) :
    unlock v s = s.draw.modTrl fun t => { t with
      challenge := Config.freeWord s.free, status := .ok, fails := 0, scopes := BitVec.ofNat 3 (fld (tokenWord s 0) 34 32)
      expiry := (tokenWord s 3).toNat } := by
  simp only [unlock, hgo, Nat.not_le.mpr hfails, hst, Bool.not_true, Bool.false_eq_true, if_false, if_true]

/-- A bad one counts a failure and renews the challenge. -/
theorem unlock_bad (hgo : bitOf v 0 = true) (hfails : s.trl.fails < 8) (hst : unlockStatus s ≠ .ok) :
    unlock v s = s.draw.modTrl fun t => { t with
      challenge := Config.freeWord s.free, status := unlockStatus s, fails := t.fails + 1 } := by
  simp only [unlock, hgo, Nat.not_le.mpr hfails, hst, Bool.not_true, Bool.false_eq_true, if_false]

/-- An injection acts while its scope is open. -/
theorem injectWrite_open (hwr : allowed s wr none [.f, .m] = true) (hopen : lifecycle s ≠ 2) (hscope : scopeOpen s 1 = true) :
    (injectWrite wr f s).2 = f s :=
  (congrArg Prod.snd (trlWrite_allowed hwr hopen)).trans (if_pos hscope)

/-- In a SEALED part no injection acts. -/
theorem injectWrite_sealed (hsealed : lifecycle s = 2) : (injectWrite wr f s).2 = rejected (Off.trl + 0x400) s :=
  congrArg Prod.snd (trlWrite_sealed hsealed)

/-- A selector is set while its scope is open; one that is not enabled is set in any case (R488). -/
theorem selWrite_open {i : Nat} (hwr : allowed s wr none [.f, .m] = true) (hopen : lifecycle s ≠ 2)
    (hsel : bitOf v 63 = false ∨ scopeOpen s 0 = true) :
    (selWrite wr i v s).2 = regSet (Off.trl + 0x300 + 8 * i) (v &&& 0x8000000000FFFFFF) s := by
  have hfree : ¬ (bitOf v 63 && !scopeOpen s 0) = true := by obtain h | h := hsel <;> simp [h]
  exact (congrArg Prod.snd (trlWrite_allowed hwr hopen)).trans (if_neg hfree)

/-- TRL_LOCK closes the scopes. -/
theorem lockWrite_go (hwr : allowed s wr none [.f, .m] = true) (hopen : lifecycle s ≠ 2) (hgo : bitOf v 0 = true) :
    (lockWrite wr v s).2 = closeScopes s :=
  (congrArg Prod.snd (trlWrite_allowed hwr hopen)).trans (congrArg (onlyIf · closeScopes s) hgo)

/-- The key value seals the part. -/
theorem sealWrite_key (hwr : allowed s wr none [.f] = true) (hopen : lifecycle s ≠ 2) :
    (sealWrite wr 0x5345414C s).2 = closeScopes (s.modCfg fun c => { c with fuses := { c.fuses with lifecycle := 2 } }) := by
  rw [sealWrite, trlWrite_allowed hwr hopen, if_pos rfl]

/-- A snapshot starts when none runs (R492). -/
theorem snapWrite_idle (hwr : allowed s wr none [.a, .f, .c] = true) (hidle : s.tel.busy = false) :
    (snapWrite wr 1 s).2 = s.modTel fun t => { t with bank := snapBank s, busy := true } := by
  simp [snapWrite, hwr, hidle]

end Trellis

/-- No scope is open in a SEALED part. -/
theorem scopeOpen_sealed {s : State} {k : Nat} (hsealed : lifecycle s = 2) : scopeOpen s k = false := by
  simp only [scopeOpen, hsealed]

/-- EXTEST drives nothing in a SEALED part. -/
theorem driveBalls_sealed {balls : List (BitVec 16 × Bool)} {s : State} (hsealed : lifecycle s = 2) : driveBalls balls s = s :=
  if_neg (by simp [scopeOpen_sealed hsealed])

/-- JTAG reads what MCTP may read, without clearing it, unless the part is SEALED. -/
theorem trlAccess_reads {off : Nat} {v : Word} {s : State} (hopen : lifecycle s ≠ 2) :
    trlAccess false off v s = emit (.regData .jtag off (regRead s .jtag off)) s :=
  (if_neg hopen).trans (if_neg Bool.false_ne_true)

/-- The five injections are one write of TRL_INJECT each: what holds of that write for every kind holds of the five commands. -/
theorem exec_of_injectWrite {wr : Writer} {s t : State} (h : ∀ f, (injectWrite wr f s).2 = t) :
    ∀ c ∈ [Instr.injectPoison wr, .injectSramCe wr, .injectTileStore wr, .injectSnoopWithhold wr, .injectFlashRead wr],
      exec c s = .next { t with pending := s.pending } := by
  simp only [List.forall_mem_cons, List.not_mem_nil, false_imp_iff, implies_true, and_true]
  exact ⟨exec_eq_of_does (does_injectPoison wr s) (h _), exec_eq_of_does (does_injectSramCe wr s) (h _),
    exec_eq_of_does (does_injectTileStore wr s) (h _), exec_eq_of_does (does_injectSnoopWithhold wr s) (h _),
    exec_eq_of_does (does_injectFlashRead wr s) (h _)⟩

/-- Settles O60, by what each command does outside a SEALED part and in one. -/
theorem telemetryAndTrellis : Obligations.TelemetryAndTrellis := by
  refine ⟨⟨?snap, ?copied, fun wr s hopen => ⟨fun hwr => ⟨fun v hgo hfails => ⟨?good, ?bad⟩, ?lock, ?sel, ?inject⟩, ?blow⟩, ?expire, ?jtag,
    ?extest⟩, ?closed⟩
  case snap => exact fun wr s hwr hidle => exec_eq_of_does (does_telSnap wr 1 s) (snapWrite_idle hwr hidle)
  case copied => exact fun s hbusy => exec_eq_of_does (does_snapshotComplete s) (if_pos hbusy)
  case good =>
    exact fun hst => exec_eq_of_does (does_trlUnlockCmd wr v s)
      ((congrArg Prod.snd (trlWrite_allowed hwr hopen)).trans (unlock_good hgo hfails hst))
  case bad =>
    exact fun hst => exec_eq_of_does (does_trlUnlockCmd wr v s)
      ((congrArg Prod.snd (trlWrite_allowed hwr hopen)).trans (unlock_bad hgo hfails hst))
  case lock => exact fun v hgo => exec_eq_of_does (does_trlLock wr v s) (lockWrite_go hwr hopen hgo)
  case sel => exact fun i v hsel => exec_eq_of_does (does_trlSel wr i v s) (selWrite_open hwr hopen hsel)
  case inject =>
    exact fun hscope => ⟨exec_eq_of_does (does_injectPoison wr s) (injectWrite_open hwr hopen hscope),
      exec_eq_of_does (does_injectSramCe wr s) (injectWrite_open hwr hopen hscope),
      exec_eq_of_does (does_injectTileStore wr s) (injectWrite_open hwr hopen hscope),
      exec_eq_of_does (does_injectSnoopWithhold wr s) (injectWrite_open hwr hopen hscope),
      exec_eq_of_does (does_injectFlashRead wr s) (injectWrite_open hwr hopen hscope)⟩
  case blow => exact fun hwr => exec_eq_of_does (does_trlSeal wr _ s) (sealWrite_key hwr hopen)
  case expire => exact fun s hopen => exec_eq_of_does (does_unlockExpire s) (if_neg hopen)
  case jtag => exact fun off v s hopen => exec_eq_of_does (does_trlAccess false off v s) (trlAccess_reads hopen)
  case extest =>
    exact fun balls s hscope hheld => exec_eq_of_does (does_extest balls s) (if_pos (by simp [hscope, hheld]))
  case closed =>
    intro wr v i off w balls s hsealed
    exact ⟨exec_eq_of_does (does_trlUnlockCmd wr v s) (congrArg Prod.snd (trlWrite_sealed hsealed)),
      exec_eq_of_does (does_trlLock wr v s) (congrArg Prod.snd (trlWrite_sealed hsealed)),
      exec_eq_of_does (does_trlSeal wr v s) (congrArg Prod.snd (trlWrite_sealed hsealed)),
      exec_eq_of_does (does_trlSel wr i v s) (congrArg Prod.snd (trlWrite_sealed hsealed)),
      exec_of_injectWrite fun _ => injectWrite_sealed hsealed,
      exec_eq_of_does (does_trlAccess w off v s) (if_pos hsealed),
      exec_eq_of_does (does_extest balls s) (driveBalls_sealed hsealed)⟩

end Sys2Proof.Machine
end

section
/-! Resets and bring-up (R423-R431, R463): what each command does in the case named. -/

namespace Sys2Proof.Machine

open Sys2Proof

section Resets

variable {wr : Writer} {k : ResetKind} {code inst : BitVec 8} {s : State}

/-- A warm reset asked for in service lets the device depart (R423). -/
theorem requestWarm_service (h : s.sys.phase = .service) : requestWarm k s = s.modSys fun y => { y with
    phase := .departing, kind := k, closed := true, bits := y.bits ||| kindBit k } := by
  simp only [requestWarm, h]
  rfl

/-- A departure that has not begun begins with the recall of host lines (R425). -/
theorem beginWarm_starts {drained : Bool} (hphase : s.sys.phase = .departing) (hstage : s.sys.stage = 0) :
    beginWarm drained s =
      departGo (beginRecall ((depart (s.modSys fun y => { y with drainFailed := !drained })).modSys fun y => { y with stage := 1 })) :=
  if_neg (by simp [hphase, hstage])

/-- An idle block is reset alone, and the command completes (R431). -/
theorem exec_blockReset_idle (hready : Ready s wr none [.f, .m] (Off.rst + 0x20))
    (hidle : blockIdle (accepted (Off.rst + 0x20) s) code.toNat inst.toNat = some true) :
    exec (.blockReset wr code inst) s = .next { (cmdDone (Off.rst + 0x20) .ok 0
      (resetBlock code.toNat inst.toNat (accepted (Off.rst + 0x20) s)) : State) with pending := s.pending } :=
  exec_eq_of_does (does_blockReset wr code inst s) ((congrArg Prod.snd (issue_ready hready)).trans (by simp only [hidle]))

end Resets

section BringUp

variable {f : BringUp} {s : State}

/-- A step of bring-up out of its order does nothing (R426). -/
theorem bringUpStep_outOfOrder (h : s.sys.phase ≠ .bringUp ∨ stepNo f ≠ s.sys.step + 1) : bringUpStep f s = s :=
  if_pos h

/-- The step after the last one completed is in order. -/
theorem bringUp_inOrder (hphase : s.sys.phase = .bringUp) (hnext : stepNo f = s.sys.step + 1) :
    ¬ (s.sys.phase ≠ .bringUp ∨ stepNo f ≠ s.sys.step + 1) := by
  simp [hphase, hnext]

/-- The boot directory is in the NOR: writing it changes nothing but the configuration. -/
theorem writeBoot_cfg (a b : Nat) (s : State) : writeBoot a b s = { s with cfg := (writeBoot a b s).cfg } := by
  unfold writeBoot
  split <;> rfl

/-- Step 10 with no fence to end opens service at once, the directory being in retry mode (R426). -/
theorem stepOpen_retryMode (htabled : s.coh.tabled = false) (hfence : s.coh.fence = none) : stepOpen s = openService s := by
  simp [stepOpen, htabled, hfence]

/-- What service opens with: admission, no attempt counted and no flush area; memory and extents are those of bring-up. -/
theorem openService_opens (s : State) : (openService s).sys.phase = .service ∧ (openService s).sys.closed = false ∧
    (openService s).sys.attempts = 0 ∧ (openService s).jrn.flushHdr = none ∧ (openService s).tier = s.tier ∧
    (openService s).ext = s.ext := by
  unfold openService
  dsimp only
  split
  · rw [writeBoot_cfg]
    exact ⟨rfl, rfl, rfl, rfl, rfl, rfl⟩
  · rw [writeBoot_cfg]
    exact ⟨rfl, rfl, rfl, rfl, rfl, rfl⟩

end BringUp

/-- Settles O56, by what each source of reset and each step of bring-up does in the case named. -/
theorem resetsAndBringUp : Obligations.ResetsAndBringUp := by
  refine ⟨⟨fun s => does_coldReset s, fun s => does_resetNFall false s, fun s => does_resetNFall true s, ?rise, ?fabric, ?begin,
    fun s => does_quiesceBound s, fun g s => does_thermalTrip g s, fun rail s => does_supplyOutOfLimits rail s, ?block, ?service⟩,
    ?outOfOrder, ?next, ?opens⟩
  case rise =>
    intro s hphase hkind
    exact exec_eq_of_does (does_resetNRise s) (by simp [hphase, hkind, State.modSys])
  case fabric =>
    intro wr v s hwr hgo
    exact exec_eq_of_does (does_warmResetFabric wr v s) (by simp only [hwr, hgo, Bool.not_true, Bool.false_eq_true, if_false, if_true])
  case begin => exact fun drained s hphase hstage => exec_eq_of_does (does_warmResetBegin drained s) (beginWarm_starts hphase hstage)
  case block => exact fun wr code inst s hready hidle => exec_blockReset_idle hready hidle
  case service => exact fun k s hphase => requestWarm_service hphase
  case outOfOrder => exact fun f s h => exec_eq_of_does (does_bringUpStep f s) (bringUpStep_outOfOrder h)
  case next => exact fun f s hphase hnext => exec_eq_of_does (does_bringUpStep f s) (if_neg (bringUp_inOrder hphase hnext))
  case opens =>
    intro s hphase hstep htabled hfence
    have hnext : stepNo .open_ = s.sys.step + 1 := by rw [hstep]; rfl
    exact ⟨_, exec_eq_of_does (does_bringUpStep .open_ s)
      ((if_neg (bringUp_inOrder hphase hnext)).trans (stepOpen_retryMode htabled hfence)),
      openService_opens s⟩

end Sys2Proof.Machine
end

section
/-! Power, heat and the lines of the board (R422, R443-R456, R465-R473): what each command does in the case named. -/

namespace Sys2Proof.Machine

open Sys2Proof

section Supply

variable {mv : Nat} {s : State}

/-- A readback within 15 mV of the request ends what was counted (R448). -/
theorem readback_near (hhigh : mv ≤ 600 + 5 * s.sys.vstep + 15) (hlow : 600 + 5 * s.sys.vstep ≤ mv + 15) :
    readback (some mv) s = s.modSys fun y => { y with avsMiss := 0, readMv := mv, avsOff := 0 } := by
  simp [readback, Nat.not_lt.mpr hhigh, Nat.not_lt.mpr hlow]

/-- A readback missed for the first or second time in succession, or after the third, is counted. -/
theorem readback_missed (h : s.sys.avsMiss ≠ 2) : readback none s = s.modSys fun y => { y with avsMiss := y.avsMiss + 1 } :=
  if_neg fun h3 => h (Nat.succ.inj h3)

end Supply

section Heat

variable {g : Fin 3} {t : Nat} {s : State}

/-- A group that has not tripped trips at its trip point (R456). -/
theorem sampleGroup_trips (hold : s.sys.heat.getD g.val 0 ≠ 3) (ht : ((thermPoints s).getD g.val (0, 0, 0)).2.2 ≤ t) :
    sampleGroup g t s = trip g s := by
  have hnew : heatOf ((thermPoints s).getD g.val (0, 0, 0)) t = 3 := if_pos ht
  exact (if_neg hold).trans (if_pos hnew)

/-- Below its warn point it shows its reading and does nothing else (R455). -/
theorem sampleGroup_cool (hold : s.sys.heat.getD g.val 0 ≠ 3) (hnew : heatOf ((thermPoints s).getD g.val (0, 0, 0)) t = 0) :
    sampleGroup g t s = s.modSys fun y => { y with heat := y.heat.set g.val 0 } := by
  simp [sampleGroup, hold, hnew, -List.getD_eq_getElem?_getD]

/-- A reading below the lowest of three points in order reaches none. -/
theorem heatOf_low {p : Nat × Nat × Nat} (hwarn : p.1 ≤ p.2.1) (hhot : p.2.1 ≤ p.2.2) (ht : t < p.1) : heatOf p t = 0 := by
  simp [heatOf, Nat.not_le.mpr ht, Nat.not_le.mpr (ht.trans_le hwarn), Nat.not_le.mpr (ht.trans_le (hwarn.trans hhot))]

end Heat

section PowerStates

variable {wr : Writer} {s : State}

/-- An idle device in service goes dormant at its interval (R452). -/
theorem goDormant_idle (hphase : s.sys.phase = .service) (hpower : s.sys.power = .active) (hstage : s.sys.stage = 0)
    (hon : bitOf (regGet s (Off.rst + 0x30)) 60 = true) (hjobs : s.nmc.jobs = []) (hfwd : s.nmc.fwdIn = []) (hsq : sqOpen s = false) :
    goDormant s = (reach (s.sys.idleSince + 1000000 * (regGet s (Off.rst + 0x58)).toNat) s).modSys fun y => { y with power := .dormant } :=
  if_neg (by simp [hphase, hpower, hstage, hon, hjobs, hfwd, hsq])

/-- The entry into FALLOW closes admission and recalls the host lines (R453). -/
theorem enterFallow_free (hwr : pwrAllowed s wr = true) (hpower : s.sys.power ≠ .fallow) (hfree : fallowBusy s = false) :
    enterFallow wr s = fallowGo (beginRecall (pump (s.modSys fun y => { y with closed := true, stage := 10, power := .active }))) := by
  simp only [enterFallow, hwr, hpower, hfree, Bool.not_true, Bool.false_eq_true, if_false]

/-- Leaving FALLOW wakes the links and reopens admission (R454). -/
theorem leaveFallow_fallow (hpower : s.sys.power = .fallow) : leaveFallow s =
    (s.modFab fun b => { b with links := b.links.map fun l => (l.1, { l.2 with fallow := false }) }).modSys fun y => { y with
      power := .active, closed := false, idleSince := y.time, pwrStatus := .ok } :=
  if_neg (not_not_intro hpower)

end PowerStates

/-- A margin sample of another kind than a canary's, not low, is kept and does nothing else (R422). -/
theorem exec_marginSample_kept {m : Fin 4} {inst value : BitVec 16} {s : State} (hm : m ≠ 1) : exec (.marginSample m inst value false) s =
    .next { (keepMargin m.val (put 48 inst.toNat ||| put 32 value.toNat ||| put 0 (now s / 2 ^ 20 % 2 ^ 32)) s : State) with
      pending := s.pending } := by
  have hkind : ¬ (m.val = 1 ∧ inst.toNat < 18) := fun h => hm (Fin.ext h.1)
  exact exec_eq_of_does (does_marginSample m inst value false s) ((if_neg Bool.false_ne_true).trans (if_neg hkind))

/-- The first START, of SDA, decides the plain orientation (R469). -/
theorem smbStart_first {s : State} (h : s.pins.smbSwapped = none) :
    smbStart true false s = s.modPins fun p => { p with smbSwapped := some false, smbLast := now s } := by
  simp [smbStart, h]

/-- Settles O58, by what each command does in the case named. -/
theorem powerAndBoard : Obligations.PowerAndBoard := by
  refine ⟨⟨fun m s => does_voltagePolicy m s, ?near, ?missed, fun core io hbm s => does_sensorSample core io hbm s, ?margin, ?dormant,
    ?enter, ?leave⟩, fun g t s hold => ⟨?trips, ?cool⟩, ?start, fun group ball s => does_driverOvercurrent group ball s,
    fun c s => does_refclkReturn c s, fun c s => does_refclkLoss c s, fun s => does_recallBound s, fun off v s => does_mctpRequest false off v s,
    fun off v s => does_mctpRequest true off v s⟩
  case near => exact fun mv s hhigh hlow => exec_eq_of_does (does_avsReadback _ s) (readback_near hhigh hlow)
  case missed => exact fun s h => exec_eq_of_does (does_avsReadback none s) (readback_missed h)
  case margin => exact fun m inst value s hm => exec_marginSample_kept hm
  case dormant =>
    exact fun s hphase hpower hstage hon hjobs hfwd hsq =>
      exec_eq_of_does (does_dormantEntry s) (goDormant_idle hphase hpower hstage hon hjobs hfwd hsq)
  case enter =>
    exact fun wr s hwr hpower hfree => exec_eq_of_does (does_fallowEnter wr s) (enterFallow_free hwr hpower hfree)
  case leave =>
    intro wr s hwr hpower
    exact ⟨_, exec_eq_of_does (does_fallowLeave (some wr) s) ((if_pos hwr).trans (leaveFallow_fallow hpower)), rfl, rfl, rfl, rfl⟩
  case trips => exact sampleGroup_trips hold
  case cool =>
    intro hwarn hhot ht hlen
    have hg : g.val < s.sys.heat.length := hlen.symm ▸ g.isLt
    exact ⟨_, sampleGroup_cool hold (heatOf_low hwarn hhot ht), by simp [hg], rfl⟩
  case start => exact fun s h => exec_eq_of_does (does_smbusStart true false s) (smbStart_first h)

end Sys2Proof.Machine
end

section
/-! What reset leaves (R423, R426, R493). -/

namespace Sys2Proof.Machine

open Sys2Proof

/-- The block is about to take its first step of bring-up, closed, at time 0. -/
theorem reset_closed : State.reset.sys.phase = .bringUp ∧ State.reset.sys.step = 0 ∧ State.reset.sys.closed = true ∧
    State.reset.sys.kind = .cold ∧ now State.reset = 0 ∧ admitting State.reset = false :=
  ⟨rfl, rfl, rfl, rfl, rfl, rfl⟩

/-- No request waits anywhere, and no snoop is open. -/
theorem reset_quiet : Quiet State.reset := ⟨rfl, rfl, rfl, rfl, rfl⟩

/-- Nothing is logged, and neither memory tier lists anything. -/
theorem reset_lists_nothing : State.reset.ras.log = [] ∧ State.reset.tier.hbm = [] ∧ State.reset.flash.data = [] :=
  ⟨rfl, rfl, rfl⟩

/-- No extent is assigned: the table lists none. -/
theorem extDesc_reset (e : Nat) : (extDesc State.reset e).state = .free := rfl

/-- No link is up: none is listed. -/
theorem fabAt_reset (n : Nat) : (fabAt State.reset n).state = .down := rfl

/-- Every register holds its reset value: none is listed. -/
theorem regGet_reset (off : Nat) : regGet State.reset off = regDefault off := rfl

/-- Settles O55: the reset state is closed, quiet and empty, and reads of empty tables give the reset values. -/
theorem resetState : Obligations.ResetState := by
  obtain ⟨hphase, hstep, hclosed, hkind, htime, hadmits⟩ := reset_closed
  obtain ⟨hlog, hhbm, hflash⟩ := reset_lists_nothing
  exact ⟨rfl, hphase, hstep, hclosed, hkind, htime, hadmits, reset_quiet.1, hlog, hhbm, hflash, rfl, reset_quiet,
    extDesc_reset, fabAt_reset, regGet_reset⟩

end Sys2Proof.Machine
end
